-- ==== Sys2Proof/Word.lean ====
section
/-! DEFINITION. The word types of the XE8 and the plain data forms every other file uses: bytes, little-endian
words (00 R4), byte strings, sparse maps and byte memories. -/

namespace Sys2Proof

/-- One byte. -/
abbrev Byte := BitVec 8
/-- A 16-bit field. -/
abbrev Half := BitVec 16
/-- A 32-bit word. -/
abbrev Word := BitVec 32
/-- A 64-bit value: every configuration field value, counter and FT64 (00 R6, 16 R482). -/
abbrev DWord := BitVec 64
/-- A byte string, lowest address first. -/
abbrev Bytes := List Byte

/-- A sparse map from numbers to values: pairs in strictly rising key order; a key that is not listed has the
default that the reader of the map names. -/
abbrev SMap (α : Type) := List (Nat × α)

/-- A byte memory: listed (address, byte) pairs; an address that is not listed reads as zero. -/
abbrev Mem := List (Nat × Byte)

end Sys2Proof
end

