-- ==== Sys2Proof/Syntax.lean ====
section
/-! DEFINITION. The commands of the block: one constructor of Instr for each row of spec/opcode_table.json, in the
table's order, with the row's operands. Numbers of things are natural numbers; values that the manual treats as bits
are bit vectors; structures that the manual lays out in bytes are byte strings. -/

namespace Sys2Proof

/-- Where a command came from (02 R58, R67): a ring, or the in-band stream of a partition, with the port and the
source MAC address that its reply goes to. -/
inductive Src where
  | ring (n : Nat)
  | inband (part port : Nat) (mac : Bytes)
  deriving DecidableEq, Repr

/-- The header fields of a command that its execution uses (02 R53). -/
structure CmdCtx where
  src   : Src
  part  : Nat
  flags : Half
  seq   : Word
  layer : Half
  oper  : Half
  tag   : DWord
  deriving DecidableEq, Repr

/-- A buffer reference (02 R56). -/
structure Bref where
  addr : DWord
  size : Nat
  loc  : Nat
  dir  : Nat
  deriving DecidableEq, Repr

/-- The records of a batch command (04 R145): inline in the payload, or behind a BREF. -/
inductive Batch where
  | inline (recs : Bytes)
  | bref (b : Bref)
  deriving DecidableEq, Repr

/-- The selector of FLOW_READ, FLOW_WRITE and FLOW_DELETE (05 R168). -/
inductive FlowSel where
  | key (k : Bytes)
  | index (i : Nat)
  deriving DecidableEq, Repr

/-- A fabric message (11 R349). -/
structure Msg where
  dst   : Nat
  cls   : Nat
  src   : Nat
  hop   : Nat
  mseq  : Nat
  mtype : Nat
  part  : Nat
  arg   : Word
  body  : Bytes
  deriving DecidableEq, Repr

/-- The data that an uncorrectable error hit (13 R405, R411). -/
inductive PoisonAt where
  | nothing
  | packet (id : Nat)
  | flow (index : Nat)
  | entry (table slot : Nat)
  | node (slot index : Nat)
  | tileLine (tile line : Nat)
  | hbmUnit (unit : Nat)
  | command (ring : Nat)
  | queued (queue index : Nat)
  | barrierCopy (barrier index : Nat)
  | hostCopy (ring index : Nat)
  deriving DecidableEq, Repr

/-- An error event as DARN receives it (13 R402, R405, R417): source ID, record kind, severity 0 to 3, the unit the
procedure acts on, the partition, command, LAYER and OPER it affects, and where the data lies. -/
structure ErrIn where
  source   : Nat
  kind     : Nat
  severity : Nat
  unit     : Nat
  part     : Nat
  address  : DWord
  command  : DWord
  layer    : Half
  oper     : Half
  detail   : Word
  at_      : PoisonAt
  deriving DecidableEq, Repr

/-- One request of an HBM arbiter (01 R35): of the reserved floor (`part` none) or of a partition. -/
structure HbmReq where
  part  : Option Nat
  bytes : Nat
  deriving DecidableEq, Repr

/-- The commands, one constructor per row of the opcode table, in its order. -/
inductive Instr where
  -- system and start-up commands (02 R77)
  | nop (c : CmdCtx)
  | getInfo (c : CmdCtx)
  | getStatus (c : CmdCtx)
  | start (c : CmdCtx) (kind : Nat)
  | shutdown (c : CmdCtx)
  | ringBind (c : CmdCtx) (ring part : Nat)
  | fieldRead (c : CmdCtx) (id count : Nat)
  | fieldWrite (c : CmdCtx) (id count : Nat) (values : List DWord)
  | sketchClear (c : CmdCtx) (sketch : Nat) (value : DWord)
  | wkThrSet (c : CmdCtx) (slot : Nat) (value : DWord)
  | fwStage (c : CmdCtx) (kind : Nat) (bref : Bref) (digest : Bytes)
  | fwActivate (c : CmdCtx) (kind : Nat)
  -- tables and rules
  | tableWrite (c : CmdCtx) (table bank count : Nat) (batch : Batch)
  | tableDelete (c : CmdCtx) (table bank count : Nat) (batch : Batch)
  | tableRead (c : CmdCtx) (table bank start count : Nat) (out : Option Bref)
  | tableRebuild (c : CmdCtx) (table : Nat)
  | tableCommit (c : CmdCtx) (table : Nat)
  | tableAbort (c : CmdCtx) (table : Nat)
  | tableCompare (c : CmdCtx) (table : Nat) (shadow : Bref)
  | ruleWrite (c : CmdCtx) (group bank count : Nat) (batch : Batch)
  | ruleDelete (c : CmdCtx) (bank count : Nat) (batch : Batch)
  | parseGraphLoad (c : CmdCtx) (bref : Bref) (digest : Bytes)
  | patternLoad (c : CmdCtx) (bref : Bref) (digest : Bytes)
  -- flows and measurement
  | flowRead (c : CmdCtx) (sel : FlowSel)
  | flowWrite (c : CmdCtx) (sel : FlowSel) (mask : DWord) (values : List DWord)
  | flowDelete (c : CmdCtx) (sel : FlowSel)
  | sketchRead (c : CmdCtx) (sketch row start count : Nat) (out : Option Bref)
  | heavyRead (c : CmdCtx) (start count : Nat)
  | bucketRead (c : CmdCtx) (start count : Nat)
  | bucketMove (c : CmdCtx) (bucket pipeline : Nat)
  -- models, tensors and training
  | modelLoad (c : CmdCtx) (slot : Nat) (bref : Bref)
  | modelUnload (c : CmdCtx) (slot : Nat)
  | epochCommit (c : CmdCtx) (ruleset : Nat) (map : DWord)
  | epochStatus (c : CmdCtx)
  | tensorWrite (c : CmdCtx) (desc : Bytes) (bref : Bref)
  | tensorRead (c : CmdCtx) (desc : Bytes) (bref : Bref)
  | tileRun (c : CmdCtx) (bref : Bref) (count : Nat)
  | trainStep (c : CmdCtx) (slot : Nat) (bref : Bref) (seed : DWord)
  | threshRead (c : CmdCtx) (slot : Nat)
  -- egress, scheduling and time
  | meterWrite (c : CmdCtx) (meter : Nat) (mode : Byte) (cir cbs eirPir ebsPbs : Nat)
  | meterRead (c : CmdCtx) (meter : Nat)
  | shaperWrite (c : CmdCtx) (node : Nat) (ovh : Int) (rate burst : Nat)
  | gclWrite (c : CmdCtx) (port : Nat) (base : DWord) (cycle : Nat) (entries : List (BitVec 128 × Nat))
  | gclRead (c : CmdCtx) (port list first : Nat) (out : Option Bref)
  | queueSample (c : CmdCtx) (first count : Nat)
  | hostpktRing (c : CmdCtx) (ring : Nat) (bref : Bref) (snap : Nat)
  | timeAdjust (c : CmdCtx) (offset rate : Int)
  | timeRead (c : CmdCtx)
  -- fabric
  | fabricJoin (c : CmdCtx) (node : Nat) (mask : Word)
  | fabricLeave (c : CmdCtx)
  | fabricStatus (c : CmdCtx)
  | linkRekey (c : CmdCtx) (link : Nat)
  | flowHomeSet (c : CmdCtx) (first count home : Nat)
  | collectiveRun (c : CmdCtx) (kind : Nat) (group : Bref) (desc : Bytes)
  | timeOffsets (c : CmdCtx) (first count : Nat)
  -- partitions, keys and attestation
  | partCreate (c : CmdCtx) (part : Nat) (ownerHash : Bytes) (list : Bref)
  | partDestroy (c : CmdCtx) (part : Nat)
  | partReset (c : CmdCtx) (part : Nat)
  | partQuery (c : CmdCtx) (part : Nat)
  | keyRotate (c : CmdCtx) (region : Nat)
  | keyStatus (c : CmdCtx) (region : Nat)
  | cmdKeySet (c : CmdCtx) (envelope : Bytes)
  | attestReport (c : CmdCtx) (nonce : Bytes) (bref : Bref)
  | certChain (c : CmdCtx) (bref : Bref)
  -- counters, traces and WRING
  | counterRead (c : CmdCtx) (group first count : Nat)
  | counterSampleReset (c : CmdCtx) (group first count : Nat)
  | traceConfig (c : CmdCtx) (mask : DWord) (bref : Bref)
  | traceRead (c : CmdCtx) (bref : Bref)
  | profileRead (c : CmdCtx) (id : DWord)
  | wringStop (c : CmdCtx) (propagate : Nat)
  | wringScanout (c : CmdCtx) (bref : Bref)
  -- errors and recovery
  | errorRead (c : CmdCtx) (first count : Nat)
  | errorAck (c : CmdCtx) (upTo : Nat)
  | windowSet (c : CmdCtx) (source t w : Nat)
  | unitFence (c : CmdCtx) (unit : Nat)
  | unitUnfence (c : CmdCtx) (unit : Nat)
  | errorInject (c : CmdCtx) (source kind : Nat)
  -- ring service and register accesses (02, 16)
  | crTailWrite (ring : Nat) (value : Word)
  | commandFetch (ring : Nat)
  | commandTimeout (ring : Nat) (seq : Word)
  | ringEnable (ring : Nat) (crLoc rpLoc : Bool)
  | ringDisable (ring : Nat) (crLoc rpLoc : Bool)
  | ringReset (ring : Nat) (en crLoc rpLoc : Bool)
  | rpHeadWrite (ring : Nat) (value : Word)
  | registerWrite (offset : Nat) (value : Word)
  | timeLoRead
  | dsmAddrHiWrite (value : Word)
  | statusMirrorWrite
  | bar0UnsupportedAccess (isWrite : Bool) (offset size : Nat)
  | bar2Access (offset : Nat) (write : Option Bytes) (size : Nat)
  -- the packet path
  | frameReceive (port : Nat) (frame : Bytes) (fcsBad : Bool)
  | parse (pipeline : Nat)
  | patternScan (pipeline : Nat)
  | lookup (pipeline : Nat)
  | flowStage (pipeline : Nat)
  | flowAgentFetch (stack : Nat)
  | hotCacheFill (pipeline : Nat)
  | lowPartCarry (stack : Nat)
  | hotCacheIdleEvict (slice set way : Nat)
  | wickerEval (pipeline : Nat)
  | verdictMerge (pipeline : Nat)
  | packetAction (pipeline : Nat)
  | learnApply (die : Nat)
  | egressAdmission (port : Nat)
  | barrierRelease (port : Nat)
  | hostCopyWrite (ring : Nat)
  | frameTransmit (port : Nat)
  | pfcPauseEnd (port priority : Nat)
  | shaperRefill
  | portSchedulerRound (port : Nat)
  | gclTakeover (port : Nat)
  | gateCycleStart (port : Nat)
  | queueSamplePeriod
  | fragHoldExpire (entry : Nat)
  | fragEntryFree (entry : Nat)
  | ageSweepVisit (part slot : Nat)
  | flowSweep (index : Nat)
  | placementPeriod
  | bucketMoveDrained (bucket : Nat)
  | bucketMoveDone (bucket : Nat)
  | bucketMoveAbandon (bucket : Nat)
  | holdTimeout (flow : Nat)
  | batchTimeout (slot : Nat)
  | batchComplete (slot : Nat)
  | eventEnsembleEval (slot : Nat)
  | thresholdPeriod (slot : Nat)
  | epochRetire (part : Nat)
  | tileCommandStart (cmd tile : Nat)
  | tileCommandComplete (tile : Nat)
  | poolRoundTimer
  | tileDividerStep (tile : Nat)
  | hbmTokenRefill
  | hbmGrant (stack : Nat) (requests : List HbmReq)
  -- the fabric
  | fabricFrameSend (link : Nat)
  | fabricFrameReceive (link : Nat) (frame : Bytes)
  | rekeyThreshold (link : Nat)
  | keyCounterExhausted (link : Nat)
  | fabGapTimeoutExpire (src cls : Nat)
  | hello (link : Nat) (m : Msg)
  | keyExch (link : Nat) (m : Msg)
  | timeExchangeTimer
  | timeReq (link : Nat) (m : Msg)
  | timeResp (link : Nat) (m : Msg)
  | leave (link : Nat) (m : Msg)
  | stop (link : Nat) (m : Msg)
  | flowFetch (m : Msg)
  | flowGrant (m : Msg)
  | flowRecall (m : Msg)
  | recallEvict (index : Nat)
  | flowWriteback (m : Msg)
  | flowCarry (m : Msg)
  | verdictWrite (m : Msg)
  | vbyteUpdate (m : Msg)
  | collSeg (m : Msg)
  | gradSeg (m : Msg)
  | fabJoinTimeoutExpire
  -- DARN and RINSE
  | errorEvent (e : ErrIn)
  | procedureEnd
  | darnWatchdogExpire (unit : Nat)
  | pipelineFenceDrainLimit (pipeline : Nat)
  | tileFenceForced (tile : Nat)
  | rinseWalkComplete (region : Nat)
  -- power, start-up, loops, pins
  | inputPowerPresent (slotId : Nat)
  | pwrEnRise
  | perstNRise
  | bootDone
  | startComplete
  | startFailed
  | prsntNBreak
  | vinUnderVoltage
  | vinOverVoltage (mv : Nat)
  | currentTrip
  | railFault
  | thermalTrip
  | pwrEnFall
  | perstNFall
  | removalComplete
  | pllLossOfLock
  | voltageLoopStep (rail : Nat) (up : Bool)
  | frequencyPeriod (power tj : Nat) (marginLow : Bool)
  | eqSave
  | cartridgeLatchOpen (c : Nat)
  | ppsInEdge
  | ppsOutPulse
  | stopInEdge
  | stopCaptureEnd (unit : Nat)
  | tableCompareEnd (table part : Nat)
  | linkTrainingComplete (link : Nat)
  | spdmRequest (request : Bytes)
  | entdaa (address : Nat)
  | cartridgeLatchClose (c : Nat)
  | laserLocked (c : Nat)
  | laserFault (c : Nat)
  deriving DecidableEq, Repr

end Sys2Proof
end

