-- ==== Sys2Proof/Decode.lean ====
section
/-! DEFINITION. The command that a word of opcode-table bits spells. The table gives no row of this block any bits
(its commands come from rings, registers, the wire and pins), so no word spells a command. -/

namespace Sys2Proof

/-- No row of spec/opcode_table.json has bits, so every word is rejected. -/
def decodeTableWord (_nbits _w : Nat) : Option Instr := none

end Sys2Proof
end

