-- ==== Sys2Proof/Machine/Operands.lean ====
section
/-! DEFINITION. The operand forms of the XE8: fields of byte structures (00 R4, 02 R488), bit fields, signed values,
sparse maps and byte memories. -/

namespace Sys2Proof.Machine

/-! ### Bytes and numbers -/

/-- The value of a little-endian byte string (00 R4). -/
def leNat : Bytes → Nat
  | [] => 0
  | b :: bs => b.toNat + 256 * leNat bs

/-- The value of a big-endian byte string, as protocol headers hold it (00 R4). -/
def beNat (b : Bytes) : Nat := b.foldl (fun a x => a * 256 + x.toNat) 0

/-- `n` in `k` bytes, little-endian, modulo 256^k. -/
def leBytes : (k n : Nat) → Bytes
  | 0, _ => []
  | k + 1, n => BitVec.ofNat 8 n :: leBytes k (n / 256)

/-- `n` in `k` bytes, big-endian. -/
def beBytes (k n : Nat) : Bytes := (leBytes k n).reverse

/-- `k` bytes of zero. -/
def zeros (k : Nat) : Bytes := List.replicate k 0

/-- Bytes `off` to `off + n - 1`, fewer where the string ends. -/
def slice (b : Bytes) (off n : Nat) : Bytes := (b.drop off).take n

/-- The same bytes with zeros beyond the end of the string. -/
def sliceZ (b : Bytes) (off n : Nat) : Bytes :=
  let x := slice b off n
  x ++ zeros (n - x.length)

/-- The little-endian field of `n` bytes at byte `off`. -/
def uAt (b : Bytes) (off n : Nat) : Nat := leNat (slice b off n)

/-- The big-endian field of `n` bytes at byte `off`. -/
def beAt (b : Bytes) (off n : Nat) : Nat := beNat (slice b off n)

/-- Byte `off`, zero beyond the end. -/
def byteAt (b : Bytes) (off : Nat) : Byte := b.getD off 0

/-- Every byte is zero. -/
def allZero (b : Bytes) : Bool := b.all (fun x => x == 0)

/-- Bytes `off` to `off + n - 1` are zero: a Reserved field (00 R5). -/
def rsvZero (b : Bytes) (off n : Nat) : Bool := allZero (slice b off n)

/-- Padding to a whole number of 8-byte units. -/
def pad8 (b : Bytes) : Bytes := b ++ zeros ((8 - b.length % 8) % 8)

/-- The first `n` bytes, padded with zeros. -/
def fitTo (n : Nat) (b : Bytes) : Bytes := sliceZ b 0 n

/-- Replace the bytes at `off` by `x`, within a string long enough to hold them. -/
def splice (b : Bytes) (off : Nat) (x : Bytes) : Bytes := b.take off ++ x ++ b.drop (off + x.length)

/-- A division rounded up. -/
def ceilDiv (a b : Nat) : Nat := (a + b - 1) / b

/-- Bits [hi:lo] of a number (00, Numbers, bits and bytes). -/
def bitsOf (n hi lo : Nat) : Nat := n / 2 ^ lo % 2 ^ (hi + 1 - lo)

/-- A truth value as a bit. -/
def b2n (b : Bool) : Nat := if b then 1 else 0

/-- The number of ones of a number, over its low `w` bits. -/
def popCount (w n : Nat) : Nat := ((List.range w).filter (fun i => n.testBit i)).length

/-- The two's complement value of the low `w` bits of a number. -/
def sxNat (w n : Nat) : Int :=
  let m := n % 2 ^ w
  if m < 2 ^ (w - 1) then (m : Int) else (m : Int) - (2 ^ w : Nat)

/-- The low `w` bits of an integer, as a number (00 R14: arithmetic wraps). -/
def wrapU (w : Nat) (i : Int) : Nat := (i % ((2 ^ w : Nat) : Int)).toNat

/-- An integer wrapped to a signed width (00 R14). -/
def wrapS (w : Nat) (i : Int) : Int := sxNat w (wrapU w i)

/-- An integer held between two bounds. -/
def clampI (x lo hi : Int) : Int := if x < lo then lo else if hi < x then hi else x

/-- Division toward zero (00 R14). -/
def divT (a b : Int) : Int := Int.tdiv a b

/-- An arithmetic shift to the right (00 R14). -/
def sra (x : Int) (n : Nat) : Int := Int.fdiv x ((2 ^ n : Nat) : Int)

/-- The little-endian signed field of `n` bytes at byte `off`. -/
def sAt (b : Bytes) (off n : Nat) : Int := sxNat (8 * n) (uAt b off n)

/-- A signed value in `k` bytes, little-endian. -/
def leBytesI (k : Nat) (i : Int) : Bytes := leBytes k (wrapU (8 * k) i)

/-- The `w` bits from bit `off` on of a byte string, most significant bit of each byte first, as a protocol header
numbers them. -/
def bitsBE (b : Bytes) (off w : Nat) : Nat :=
  let first := off / 8
  let last := (off + w + 7) / 8
  let v := beNat (sliceZ b first (last - first))
  v / 2 ^ (last * 8 - off - w) % 2 ^ w

/-- A u64 value. -/
abbrev dw (n : Nat) : DWord := BitVec.ofNat 64 n
/-- A u32 value. -/
abbrev w32 (n : Nat) : Word := BitVec.ofNat 32 n
/-- A u16 value. -/
abbrev h16 (n : Nat) : Half := BitVec.ofNat 16 n

/-! ### Sparse maps -/

variable {α : Type}

/-- The value that a sparse map lists for a key. -/
def smFind : SMap α → Nat → Option α
  | [], _ => none
  | (k, v) :: r, x => if k = x then some v else smFind r x

/-- The value of a key, with a default. -/
def smGet (d : α) (m : SMap α) (k : Nat) : α := (smFind m k).getD d

/-- Set a key, in rising order. -/
def smSet : SMap α → Nat → α → SMap α
  | [], x, v => [(x, v)]
  | (k, w) :: r, x, v =>
    if x < k then (x, v) :: (k, w) :: r
    else if x = k then (x, v) :: r
    else (k, w) :: smSet r x v

/-- Remove a key. -/
def smDel (m : SMap α) (k : Nat) : SMap α := m.filter (fun e => e.1 ≠ k)

/-- Change the value of a key. -/
def smMod (d : α) (m : SMap α) (k : Nat) (f : α → α) : SMap α := smSet m k (f (smGet d m k))

/-- Remove the keys from `lo` up to but not including `hi`. -/
def smDelRange (m : SMap α) (lo hi : Nat) : SMap α := m.filter (fun e => decide (e.1 < lo ∨ hi ≤ e.1))

/-! ### Byte memories -/

/-- The canonical form of a byte memory: addresses strictly rising, and no entry that equals what an unlisted
address reads as. -/
def Mem.wf : Mem → Bool
  | [] => true
  | [e] => e.2 != 0
  | e :: f :: r => e.2 != 0 && decide (e.1 < f.1) && Mem.wf (f :: r)

/-- One byte of a memory; an address that is not listed reads zero (log 6). -/
def memRead : Mem → Nat → Byte
  | [], _ => 0
  | (k, v) :: r, a => if k = a then v else memRead r a

/-- Write one byte, keeping the canonical form. -/
def memWrite : Mem → Nat → Byte → Mem
  | [], a, b => if b = 0 then [] else [(a, b)]
  | (k, v) :: r, a, b =>
    if a < k then (if b = 0 then (k, v) :: r else (a, b) :: (k, v) :: r)
    else if a = k then (if b = 0 then r else (a, b) :: r)
    else (k, v) :: memWrite r a b

/-- `n` bytes from an address on. -/
def memReadN (m : Mem) (a : Nat) : (n : Nat) → Bytes
  | 0 => []
  | n + 1 => memRead m a :: memReadN m (a + 1) n

/-- Write a byte string from an address on. -/
def memWriteN (m : Mem) (a : Nat) : Bytes → Mem
  | [] => m
  | b :: bs => memWriteN (memWrite m a b) (a + 1) bs

/-- Zero the bytes from `lo` up to but not including `hi`. -/
def memClear (m : Mem) (lo hi : Nat) : Mem := m.filter (fun e => decide (e.1 < lo ∨ hi ≤ e.1))

/-! ### Lists -/

/-- Change the first element that a test picks. -/
def updFirst (p : α → Bool) (f : α → α) : List α → List α
  | [] => []
  | x :: xs => if p x then f x :: xs else x :: updFirst p f xs

/-- The list without the first element that a test picks. -/
def delFirst (p : α → Bool) : List α → List α
  | [] => []
  | x :: xs => if p x then xs else x :: delFirst p xs

/-- Insert into a list kept in an order, after every element that is not greater. -/
def insertBy (lt : α → α → Bool) (x : α) : List α → List α
  | [] => [x]
  | y :: ys => if lt x y then x :: y :: ys else y :: insertBy lt x ys

/-- Sort by insertion, keeping the order of equal elements. -/
def sortBy (lt : α → α → Bool) (l : List α) : List α := l.foldl (fun a x => insertBy lt x a) []

/-- Order of byte strings by their numeric value, byte 0 lowest. -/
def bytesLt (a b : Bytes) : Bool := decide (leNat a < leNat b)

/-- Order of byte strings compared as big-endian numbers of one length. -/
def bytesLtBE (a b : Bytes) : Bool := decide (beNat a < beNat b)

/-- Split a byte string into `n` records of `w` bytes. -/
def records (w : Nat) : (n : Nat) → Bytes → List Bytes
  | 0, _ => []
  | n + 1, b => sliceZ b 0 w :: records w n (b.drop w)

/-- A list element, with a default beyond the end. -/
def nth (d : α) (l : List α) (i : Nat) : α := l.getD i d

/-- Replace the element at a position. -/
def setNth (l : List α) (i : Nat) (x : α) : List α := l.set i x

/-- Whether a sorted strictly rising list of numbers is so. -/
def strictRising : List Nat → Bool
  | [] => true
  | [_] => true
  | a :: b :: r => decide (a < b) && strictRising (b :: r)

/-- Whether a list has no repeats. -/
def noRepeats [DecidableEq α] : List α → Bool
  | [] => true
  | a :: r => !(r.contains a) && noRepeats r

/-- The position of the least key, the earliest among equals. -/
def minBy (key : α → Nat) : List α → Option α
  | [] => none
  | a :: r =>
    match minBy key r with
    | none => some a
    | some b => if key b < key a then some b else some a

/-- The lowest number from `base` on, below `lim`, that a rising list of used numbers lacks. -/
def lowestFree (base lim : Nat) (used : List Nat) : Option Nat :=
  let n := used.foldl (fun a i => if i = a then a + 1 else a) base
  if n < lim then some n else none

end Sys2Proof.Machine
end

