-- ==== Sys2Proof/Machine/Num.lean ====
section
/-! DEFINITION. Numbers of the element formats as exact values: a value is NaN, an infinity, or a signed whole number
times a power of two, so a product or a sum is exact and is rounded once where the manual says so (08 R245, R246). -/

namespace Sys2Proof.Machine

/-- A number: NaN, an infinity, or (−1)^neg × m × 2^e. -/
inductive Fl where
  | nan
  | inf (neg : Bool)
  | fin (neg : Bool) (m : Nat) (e : Int)
  deriving DecidableEq, Repr

/-- Round m × 2^e, m not 0, to the nearest multiple of 2^q, ties to even, and divide by 2^q. -/
def roundAt (m : Nat) (e q : Int) : Nat :=
  if q ≤ e then m * 2 ^ (e - q).toNat
  else
    let d := 2 ^ (q - e).toNat
    let k := m / d
    let r := m % d
    if d < 2 * r ∨ (2 * r = d ∧ k % 2 = 1) then k + 1 else k

/-- The lowest exponent of a binary format of `eb` exponent bits and `mb` fraction bits: that of its last place. -/
def qMin (eb mb : Nat) : Int := 2 - ((2 ^ (eb - 1) : Nat) : Int) - mb

/-- The magnitude code of m × 2^e in a binary format, unlimited above: rounding to nearest-even, subnormals kept. -/
def magCode (eb mb m : Nat) (e : Int) : Nat :=
  if m = 0 then 0
  else
    let top := e + Nat.log2 m - mb
    let q := if top < qMin eb mb then qMin eb mb else top
    (q - qMin eb mb).toNat * 2 ^ mb + roundAt m e q

/-- The exact value of a magnitude code. -/
def magValue (neg : Bool) (eb mb c : Nat) : Fl :=
  let x := c / 2 ^ mb
  if x = 0 then .fin neg (c % 2 ^ mb) (qMin eb mb)
  else .fin neg (2 ^ mb + c % 2 ^ mb) (qMin eb mb + x - 1)

/-- The value of an IEEE format's bits: exponent all ones is an infinity or a NaN. -/
def ieeeValue (eb mb v : Nat) : Fl :=
  let neg := v.testBit (eb + mb)
  let c := v % 2 ^ (eb + mb)
  if c / 2 ^ mb = 2 ^ eb - 1 then (if c % 2 ^ mb = 0 then .inf neg else .nan) else magValue neg eb mb c

/-- The bits of a value in an IEEE format: beyond the range it is an infinity; a NaN is the canonical NaN. -/
def ieeeBits (eb mb : Nat) : Fl → Nat
  | .nan => (2 ^ eb - 1) * 2 ^ mb + 2 ^ (mb - 1)
  | .inf neg => b2n neg * 2 ^ (eb + mb) + (2 ^ eb - 1) * 2 ^ mb
  | .fin neg m e => b2n neg * 2 ^ (eb + mb) + min (magCode eb mb m e) ((2 ^ eb - 1) * 2 ^ mb)

/-- FP32 bits as a value. -/
def f32Val (v : Nat) : Fl := ieeeValue 8 23 v
/-- A value rounded once to FP32 (08 R246). -/
def f32Bits (x : Fl) : Nat := ieeeBits 8 23 x
/-- fp32_round as a value. -/
def f32Round (x : Fl) : Fl := f32Val (f32Bits x)

def Fl.isNan : Fl → Bool
  | .nan => true
  | _ => false

def Fl.neg : Fl → Fl
  | .nan => .nan
  | .inf s => .inf (!s)
  | .fin s m e => .fin (!s) m e

/-- The signed whole number of a finite value at an exponent not above its own. -/
def signedAt (neg : Bool) (m : Nat) (e q : Int) : Int :=
  let x : Int := (m * 2 ^ (e - q).toNat : Nat)
  if neg then -x else x

/-- The exact sum. -/
def Fl.add : Fl → Fl → Fl
  | .nan, _ => .nan
  | _, .nan => .nan
  | .inf s, .inf t => if s = t then .inf s else .nan
  | .inf s, .fin _ _ _ => .inf s
  | .fin _ _ _, .inf t => .inf t
  | .fin s m e, .fin t n f =>
    let q := if e < f then e else f
    let x := signedAt s m e q + signedAt t n f q
    if x = 0 then .fin (s && t) 0 q else .fin (decide (x < 0)) x.natAbs q

/-- The exact product. -/
def Fl.mul : Fl → Fl → Fl
  | .nan, _ => .nan
  | _, .nan => .nan
  | .inf s, .inf t => .inf (s != t)
  | .inf s, .fin t n _ => if n = 0 then .nan else .inf (s != t)
  | .fin s m _, .inf t => if m = 0 then .nan else .inf (s != t)
  | .fin s m e, .fin t n f => .fin (s != t) (m * n) (e + f)

/-- The value times 2^k. -/
def Fl.scale (k : Int) : Fl → Fl
  | .fin s m e => .fin s m (e + k)
  | x => x

/-- A whole number as a value. -/
def flInt (i : Int) : Fl := .fin (decide (i < 0)) i.natAbs 0

/-- Less than, by value; false with a NaN. -/
def Fl.lt : Fl → Fl → Bool
  | .nan, _ => false
  | _, .nan => false
  | .inf s, .inf t => s && !t
  | .inf s, .fin _ _ _ => s
  | .fin _ _ _, .inf t => !t
  | .fin s m e, .fin t n f =>
    let q := if e < f then e else f
    decide (signedAt s m e q < signedAt t n f q)

/-- The value truncated toward zero, for a finite value. -/
def truncFin (neg : Bool) (m : Nat) (e : Int) : Int :=
  let x : Int := (if 0 ≤ e then m * 2 ^ e.toNat else m / 2 ^ (-e).toNat : Nat)
  if neg then -x else x

/-- The largest whole number that is not above a finite value. -/
def floorFin (neg : Bool) (m : Nat) (e : Int) : Int :=
  if 0 ≤ e then signedAt neg m e 0
  else
    let x : Int := if neg then -(m : Int) else m
    Int.fdiv x ((2 ^ (-e).toNat : Nat) : Int)

/-- A finite value rounded to a whole number, ties to even. -/
def roundFin (neg : Bool) (m : Nat) (e : Int) : Int :=
  let x : Int := (if m = 0 then 0 else roundAt m e 0 : Nat)
  if neg then -x else x

/-- floor(log2 of the magnitude) of a finite value that is not zero. -/
def flLog2 (m : Nat) (e : Int) : Int := e + Nat.log2 m

/-- FP32 addition and multiplication on bits (08 R246). -/
def f32Add (a b : Nat) : Nat := f32Bits ((f32Val a).add (f32Val b))
def f32Mul (a b : Nat) : Nat := f32Bits ((f32Val a).mul (f32Val b))
/-- A whole number converted to FP32, nearest-even. -/
def f32OfInt (i : Int) : Nat := f32Bits (flInt i)

/-- FP32 bits to u32 by truncation toward zero, held in 0 to 2^32 − 1; a NaN gives 0 (03 R98). -/
def f32ToU32 (v : Nat) : Nat :=
  match f32Val v with
  | .nan => 0
  | .inf neg => if neg then 0 else 2 ^ 32 - 1
  | .fin neg m e => (clampI (truncFin neg m e) 0 (2 ^ 32 - 1)).toNat

/-- FP32 bits to a signed width, nearest-even and saturating; none for a NaN (09 R285, 08 R259). -/
def f32ToSat (w : Nat) (v : Nat) : Option Int :=
  let lo : Int := -((2 ^ (w - 1) : Nat) : Int)
  let hi : Int := ((2 ^ (w - 1) : Nat) : Int) - 1
  match f32Val v with
  | .nan => none
  | .inf neg => some (if neg then lo else hi)
  | .fin neg m e => some (clampI (roundFin neg m e) lo hi)

end Sys2Proof.Machine
end

