-- ==== Sys2Proof/Machine/Digest.lean ====
section
/-! DEFINITION. Checks and digests over byte strings: CRC-32C (02 R54), the CRC-32 of Ethernet frames and SHA-384
(FIPS 180-4; log 8). -/

namespace Sys2Proof.Machine

/-- One byte of a reflected 32-bit CRC with polynomial `poly`. -/
def crcByte (poly : Word) (c : Word) (b : Byte) : Word :=
  (List.range 8).foldl (fun c _ => if c.getLsbD 0 then (c >>> 1) ^^^ poly else c >>> 1) (c ^^^ b.setWidth 32)

/-- A reflected CRC with initial value and final XOR of all ones. -/
def crcOf (poly : Word) (b : Bytes) : Word := ~~~ (b.foldl (crcByte poly) 0xffffffff#32)

/-- CRC-32C (02 R54): polynomial 0x1edc_6f41, reflected. -/
def crc32c (b : Bytes) : Word := crcOf 0x82f63b78#32 b

/-- The CRC-32 of an Ethernet frame check sequence, polynomial 0x04c1_1db7 reflected (IEEE 802.3; log 8). -/
def crc32eth (b : Bytes) : Word := crcOf 0xedb88320#32 b

/-! ### SHA-384 -/

def sha512K0 : List DWord :=
  [0x428a2f98d728ae22, 0x7137449123ef65cd, 0xb5c0fbcfec4d3b2f, 0xe9b5dba58189dbbc,
   0x3956c25bf348b538, 0x59f111f1b605d019, 0x923f82a4af194f9b, 0xab1c5ed5da6d8118,
   0xd807aa98a3030242, 0x12835b0145706fbe, 0x243185be4ee4b28c, 0x550c7dc3d5ffb4e2,
   0x72be5d74f27b896f, 0x80deb1fe3b1696b1, 0x9bdc06a725c71235, 0xc19bf174cf692694]

def sha512K1 : List DWord :=
  [0xe49b69c19ef14ad2, 0xefbe4786384f25e3, 0x0fc19dc68b8cd5b5, 0x240ca1cc77ac9c65,
   0x2de92c6f592b0275, 0x4a7484aa6ea6e483, 0x5cb0a9dcbd41fbd4, 0x76f988da831153b5,
   0x983e5152ee66dfab, 0xa831c66d2db43210, 0xb00327c898fb213f, 0xbf597fc7beef0ee4,
   0xc6e00bf33da88fc2, 0xd5a79147930aa725, 0x06ca6351e003826f, 0x142929670a0e6e70]

def sha512K2 : List DWord :=
  [0x27b70a8546d22ffc, 0x2e1b21385c26c926, 0x4d2c6dfc5ac42aed, 0x53380d139d95b3df,
   0x650a73548baf63de, 0x766a0abb3c77b2a8, 0x81c2c92e47edaee6, 0x92722c851482353b,
   0xa2bfe8a14cf10364, 0xa81a664bbc423001, 0xc24b8b70d0f89791, 0xc76c51a30654be30,
   0xd192e819d6ef5218, 0xd69906245565a910, 0xf40e35855771202a, 0x106aa07032bbd1b8]

def sha512K3 : List DWord :=
  [0x19a4c116b8d2d0c8, 0x1e376c085141ab53, 0x2748774cdf8eeb99, 0x34b0bcb5e19b48a8,
   0x391c0cb3c5c95a63, 0x4ed8aa4ae3418acb, 0x5b9cca4f7763e373, 0x682e6ff3d6b2b8a3,
   0x748f82ee5defb2fc, 0x78a5636f43172f60, 0x84c87814a1f0ab72, 0x8cc702081a6439ec,
   0x90befffa23631e28, 0xa4506cebde82bde9, 0xbef9a3f7b2c67915, 0xc67178f2e372532b]

def sha512K4 : List DWord :=
  [0xca273eceea26619c, 0xd186b8c721c0c207, 0xeada7dd6cde0eb1e, 0xf57d4f7fee6ed178,
   0x06f067aa72176fba, 0x0a637dc5a2c898a6, 0x113f9804bef90dae, 0x1b710b35131c471b,
   0x28db77f523047d84, 0x32caab7b40c72493, 0x3c9ebe0a15c9bebc, 0x431d67c49c100d4c,
   0x4cc5d4becb3e42b6, 0x597f299cfc657e2a, 0x5fcb6fab3ad6faec, 0x6c44198c4a475817]

/-- The round constants of SHA-384. -/
def sha512K : List DWord := sha512K0 ++ sha512K1 ++ sha512K2 ++ sha512K3 ++ sha512K4

/-- The initial hash value of SHA-384. -/
def sha384H : List DWord :=
  [0xcbbb9d5dc1059ed8, 0x629a292a367cd507, 0x9159015a3070dd17, 0x152fecd8f70e5939,
   0x67332667ffc00b31, 0x8eb44a8768581511, 0xdb0c2e0d64f98fa7, 0x47b5481dbefa4fa4]

/-- The 64-bit big-endian words of a byte string. -/
def beWords : (n : Nat) → Bytes → List DWord
  | 0, _ => []
  | n + 1, b => dw (beNat (b.take 8)) :: beWords n (b.drop 8)

/-- The message schedule, held latest word first, extended by `n` words. -/
def shaSched : (n : Nat) → List DWord → List DWord
  | 0, w => w
  | n + 1, w =>
    let x2 := w.getD 1 0
    let x15 := w.getD 14 0
    let s1 := x2.rotateRight 19 ^^^ x2.rotateRight 61 ^^^ (x2 >>> 6)
    let s0 := x15.rotateRight 1 ^^^ x15.rotateRight 8 ^^^ (x15 >>> 7)
    shaSched n ((s1 + w.getD 6 0 + s0 + w.getD 15 0) :: w)

/-- One round on the eight working variables. -/
def shaRound (v : List DWord) (kw : DWord × DWord) : List DWord :=
  match v with
  | [a, b, c, d, e, f, g, h] =>
    let t1 := h + (e.rotateRight 14 ^^^ e.rotateRight 18 ^^^ e.rotateRight 41) + ((e &&& f) ^^^ (~~~ e &&& g)) + kw.1 + kw.2
    let t2 := (a.rotateRight 28 ^^^ a.rotateRight 34 ^^^ a.rotateRight 39) + ((a &&& b) ^^^ (a &&& c) ^^^ (b &&& c))
    [t1 + t2, a, b, c, d + t1, e, f, g]
  | x => x

/-- One block of 128 bytes. -/
def shaBlock (h : List DWord) (blk : Bytes) : List DWord :=
  let w := (shaSched 64 (beWords 16 blk).reverse).reverse
  (List.zipWith (· + ·) h ((sha512K.zip w).foldl shaRound h))

/-- All blocks of a padded message. -/
def shaBlocks : (n : Nat) → List DWord → Bytes → List DWord
  | 0, h, _ => h
  | n + 1, h, b => shaBlocks n (shaBlock h (b.take 128)) (b.drop 128)

/-- SHA-384 of a byte string, 48 bytes. -/
def sha384 (m : Bytes) : Bytes :=
  let n := (m.length + 17 + 127) / 128
  let p := m ++ [0x80] ++ zeros (n * 128 - m.length - 17) ++ beBytes 16 (8 * m.length)
  ((shaBlocks n sha384H p).take 6).flatMap (fun x => beBytes 8 x.toNat)

/-! ### HMAC and HKDF (RFC 2104, RFC 5869) -/

/-- HMAC-SHA-384. -/
def hmac384 (key m : Bytes) : Bytes :=
  let k := fitTo 128 (if 128 < key.length then sha384 key else key)
  let mask : Byte → Bytes := fun x => k.map (· ^^^ x)
  sha384 (mask 0x5c ++ sha384 (mask 0x36 ++ m))

/-- The expansion of HKDF-SHA-384: `n` blocks behind block T. -/
def hkdfBlocks (prk info : Bytes) : (n i : Nat) → Bytes → Bytes
  | 0, _, _ => []
  | n + 1, i, t =>
    let b := hmac384 prk (t ++ info ++ leBytes 1 i)
    b ++ hkdfBlocks prk info n (i + 1) b

/-- HKDF-SHA-384 with an empty salt: `n` bytes. -/
def hkdf384 (ikm info : Bytes) (n : Nat) : Bytes := (hkdfBlocks (hmac384 [] ikm) info (ceilDiv n 48) 1 []).take n

/-- The bytes of an ASCII string. -/
def asciiBytes (x : String) : Bytes := x.toList.map (fun c => BitVec.ofNat 8 c.toNat)

end Sys2Proof.Machine
end

