-- ==== Sys2Proof/Config.lean ====
section
/-! DEFINITION. What an implementation fixes and the manual leaves open, as constants without a body: nothing can
evaluate them, so a claim about the model holds whatever they are (notes/assumptions 7, 9, 10, 11, 12, 16, 17). -/

namespace Sys2Proof

/-- A free number, drawn at a position of the counter State.free. Log 9. -/
opaque Config.freeNat : Nat → Nat
/-- A free truth value, drawn at a position of the counter State.free. Log 9. -/
opaque Config.freeBool : Nat → Bool
/-- Byte `i` of the AES-256-GCM output (ciphertext, then tag) under key number `key`. Log 7. -/
opaque Config.gcmByte : (key : Nat) → (nonce aad plain : Bytes) → (i : Nat) → Byte
/-- Byte `i` of an ECDSA P-384 signature by the key called `key` over a message. Log 7. -/
opaque Config.sigByte : (key : Nat) → (msg : Bytes) → (i : Nat) → Byte
/-- Byte `i` of the ECDH P-384 secret of the module's share called `key` with a peer's share. Log 7. -/
opaque Config.ecdhByte : (key : Nat) → (share : Bytes) → (i : Nat) → Byte
/-- Byte `i` of the public half of the module's key called `key`. Log 7. -/
opaque Config.pubByte : (key i : Nat) → Byte
/-- Certificate `i` of the chain of 12 R373, as DER bytes: of what the device identity key certifies in it, and of its
signature. Log 17. -/
opaque Config.certificate : (i : Nat) → (content signature : Bytes) → Bytes
/-- What an SPDM 1.3 response of a code carries behind its header and before its signature, of the request and of the content
that 12 R397 gives it. Log 16. -/
opaque Config.spdmBody : (code : Nat) → (request content : Bytes) → Bytes
/-- Byte `i` of the MAC address of a port, which in-band replies carry as their source. Log 20. -/
opaque Config.portMac : (port i : Nat) → Byte
/-- Byte `i` of the scan-out body of a section of a type and unit whose content the manual does not lay out. Log 21. -/
opaque Config.scanByte : (type unit i : Nat) → Byte
/-- The length of that body. Log 21. -/
opaque Config.scanLen : (type unit : Nat) → Nat
/-- The die that a fragment key's hash picks is die 1. Log 27. -/
opaque Config.fragDie : Bytes → Bool
/-- The hash of a key in a way of a table's cuckoo store. Log 10. -/
opaque Config.storeHash : (table way : Nat) → (key : Bytes) → Nat
/-- Hash function `i` of the LPM length filters, of a family and of a partition, length and prefix. Log 11. -/
opaque Config.bloomHash : (v6 : Bool) → (key : Bytes) → (i : Nat) → Nat
/-- The die that a learn key's hash picks is die 1. Log 27. -/
opaque Config.learnDie : Bytes → Bool

/-- What the equalisation and modulator-bias loops hold for a lane at a PKCLK count: 0 the CTLE peaking, 1 to 11 the FFE taps,
12 the bias voltage. Log 65. -/
opaque Config.eqValue : (lane pk k : Nat) → Nat
/-- The laser current of a cartridge at a PKCLK count. Log 65. -/
opaque Config.laserBias : (cartridge pk : Nat) → Nat
/-- Bits [47:6] of the I3C provisioned ID. Log 65. -/
opaque Config.i3cMaker : Nat

/-- The activation segment where t − ACT_XMIN is a NaN and t is not (t and ACT_XMIN as FP32 bits). Log 34. -/
opaque Config.nanSegment : (t xmin : Nat) → Nat

end Sys2Proof
end

