-- ==== Sys2Proof/Machine/State.lean ====
section
/-! DEFINITION. The state of the XE8 as plain data: every register, FIFO, buffer, counter, mode and pin the manual
gives the block, the queue of waiting commands, and the model's own counter of free values and opening book.
A field's default value is its reset value; INVENTORY.md lists each with its rule. -/

namespace Sys2Proof.Machine

/-- Why a step stops with a fault. -/
inductive Fault where
  deriving DecidableEq, Repr

/-- Why a step is refused. -/
inductive Refusal where
  /-- Raised by an arm of exec for a command that has no meaning in the model yet. Safe: the model stops. -/
  | notModelled (mnemonic : String)
  deriving DecidableEq, Repr

/-! ### Host interface -/

/-- A finished reply that waits for its place in the reply ring (02 R53, R55, R70). `body` follows the prefix. -/
structure Reply where
  status : Nat
  rflags : Nat
  ft     : DWord
  order  : DWord
  body   : Bytes
  deriving DecidableEq, Repr

/-- A command of a ring or in-band stream that has been fetched and has not replied (02 R49, R70): still to start
while `cmd` holds it, waiting since `waitFrom` (R61), finished once `reply` holds its reply. `id` is its command ID
(R58), `sealKey` the key and nonce of its sealed reply (R65), `ibKey` the key of an in-band one (R67), `epoch0` the newest epoch of its partition at its start
(R60), `mark` the number of the next packet at its ordering point (R68) while it waits there for earlier packets,
`markAt` that point's time, and `snap` the counts that 15 R490 takes there. `fetched` is when a command with FENCE was fetched,
and `drainAt` since when one waits under WAIT_DRAIN (15 R461). -/
structure InFlight where
  ctx      : CmdCtx
  opc      : Nat
  id       : DWord := 0
  cmd      : Option Instr := none
  waitFrom : Option DWord := none
  sealKey  : Option (Nat × Bytes) := none
  ibKey    : Nat := 0
  epoch0   : Nat := 0
  mark     : Option Nat := none
  markAt   : DWord := 0
  snap     : List DWord := []
  fetched  : Option DWord := none
  drainAt  : Option DWord := none
  reply    : Option Reply := none
  deriving DecidableEq, Repr

/-- A profile entry (15 R459, R460). `counts` are its sixteen u64 counts from TCLK_CYCLES to TLB_MISS, and `before` what they
were before the MGCLK cycle `cycle`, the last in which they changed; `doneAt` is the MGCLK cycle in which the reply was
written. -/
structure Profile where
  id       : DWord
  complete : Bool
  layer    : Half
  oper     : Half
  begin_   : DWord
  end_     : DWord
  counts   : List DWord
  cycle    : Nat := 0
  before   : List DWord := []
  doneAt   : Option Nat := none
  deriving DecidableEq, Repr

/-- A ring pair (02 R46, R48, R50, R65). `pendAt` is the PKCLK count at which its pending bit was last written, and `pendOld`
the bit before that cycle (16 R477). -/
structure Ring where
  crBase     : DWord := 0
  rpBase     : DWord := 0
  crSizeLog  : Nat := 12
  rpSizeLog  : Nat := 13
  en         : Bool := false
  crLoc      : Bool := false
  rpLoc      : Bool := false
  crTail     : Word := 0
  crHead     : Word := 0
  rpHead     : Word := 0
  rpWrite    : Word := 0
  rhwAddr    : DWord := 0
  halted     : Bool := false
  fencedCp   : Bool := false
  tailFault  : Bool := false
  genFull    : Bool := false
  part       : Nat := 0
  cmdTimeout : Half := 1000
  expSeq     : Word := 0
  wraps      : Nat := 0
  ringGen    : Half := 0
  rpCount    : Half := 0
  inFlight   : List InFlight := []
  movedAt    : DWord := 0
  pendAt     : Option Nat := none
  pendOld    : Bool := false
  profiles   : List Profile := []
  deriving DecidableEq, Repr

/-- The configuration fields (16 R482 to R487): the value most recently written to each field ID; the value in force of
STATIC fields and of SHADOWED fields with a round, gate-cycle or tile-command boundary (00 R10, R13); and for SHADOWED
fields the PKCLK count of the last write with the value most recently written before that count (00 R11). `wrote` holds of
the fields that commands wrote the PKCLK count, the source (256: several) and the value before that count (16 R486). An ID
that is not listed has its table's reset value. -/
structure Fields where
  val  : SMap DWord := []
  act  : SMap DWord := []
  last : SMap (Nat × DWord) := []
  wrote : SMap (Nat × Nat × DWord) := []
  deriving DecidableEq, Repr

/-- The result of the last BAR access (16 R473, R480): a completion with data, a completed write, or an
Unsupported Request. -/
inductive BusResult where
  | data (b : Bytes)
  | done
  | unsupported
  deriving DecidableEq, Repr

/-! ### System -/

/-- The module states of 14 R433. -/
inductive Mode where
  | off | standby | boot | waitStart | starting | running | stopped | safe | fatal | removing
  deriving DecidableEq, Repr

/-- The fuses of 12 R371 and the fused serial of 16 R474. -/
structure Fuses where
  uds       : BitVec 256 := 0
  rootHash  : BitVec 384 := 0
  debug     : Bool := false
  order     : Word := 0
  minSvn    : List Nat := [0, 0, 0, 0]
  serial    : BitVec 128 := 0
  deriving DecidableEq, Repr

/-- A component entry of the attestation report (12 R394). -/
structure FwComp where
  state   : Nat := 0
  svn     : Nat := 0
  running : BitVec 384 := 0
  pending : BitVec 384 := 0
  deriving DecidableEq, Repr

/-- A removal in progress (14 R431, R432). -/
structure Removal where
  since       : DWord
  mainPathOff : Bool
  deriving DecidableEq, Repr

/-- A start in progress (14 R443 to R449); `joining` says that its step 9 has begun (R445). -/
structure StartJob where
  ctx      : CmdCtx
  warm     : Bool
  preserve : Bool
  fromSafe : Bool
  joining  : Bool := false
  deriving DecidableEq, Repr

/-- A laser cartridge (14 R452, R453). -/
structure Laser where
  present : Bool := false
  on      : Bool := false
  locked  : Bool := false
  fault   : Bool := false
  fresh   : Bool := false
  deriving DecidableEq, Repr

/-- System state: module state, fuses, pins, start, shutdown and removal, the host window's own registers. -/
structure Sys where
  mode         : Mode := .waitStart
  fuses        : Fuses := {}
  fuseLatched  : Bool := true
  slotId       : Nat := 63
  lastStart    : Nat := 0
  failedStarts : Nat := 0
  starts       : Nat := 0
  warm         : Bool := false
  preserved    : Bool := false
  fw           : List FwComp := [{}, {}, {}, {}, {}]
  rotBusy      : Bool := false
  keysLive     : Bool := true
  coldOnly     : Bool := true
  inputPresent : Bool := true
  inputHarmed  : Bool := false
  pwrEn        : Bool := true
  perstN       : Bool := true
  mainPath     : Bool := true
  pcieUp       : Bool := true
  removal      : Option Removal := none
  start        : Option StartJob := none
  lastJoin     : Option (Nat × Word) := none
  ringRefused  : Bool := false
  stopCause    : BitVec 4 := 0
  dsmLo        : Word := 0
  dsmHi        : Word := 0
  dsmAddr      : DWord := 0
  dsmSeen      : Option (Word × DWord) := none
  dsmLast      : Option DWord := none
  timeHi       : Word := 0
  bus          : Option BusResult := none
  aer          : Nat := 0
  i3cAddr      : Option Nat := none
  i3cVin       : Half := 0
  i3cIin       : Half := 0
  i3cPin       : Half := 0
  i3cTj        : Half := 0
  spdmOut      : Bytes := []
  spdmLog      : Bytes := []
  eqSaved      : Bool := false
  eqAt         : Nat := 0
  eqHeld       : SMap Nat := []
  eqFlash      : SMap Nat := []
  hbmSaved     : Bool := false
  lasers       : SMap Laser := []
  stopOut      : Bool := false
  ppsOut       : Bool := false
  deriving DecidableEq, Repr

/-- What opens and what verifies, as plain data of the model's own (log 7): pairs of a sealed message (key number,
nonce, additional data, ciphertext, joined) and its plaintext, and the messages whose signature verifies. -/
structure Crypto where
  opens    : List (Bytes × Bytes) := []
  verifies : List Bytes := []
  deriving DecidableEq, Repr

/-- Time and clocks (14 R437 to R442, 07 R238). `pk` counts PKCLK cycles, and `startPk` is its value at the last
START; `ppsLast`, `ppsOff`, `railAt` and `railTop` (with its mark that VMARGIN_LOW has counted) are such counts; `tclkOld` is the value of TCLK_CTRL before
the last write and the MGCLK cycle of that write. -/
structure Clk where
  ft        : DWord := 0
  frac      : Word := 0
  pk        : Nat := 0
  startPk   : Nat := 0
  hostRate  : Int := 0
  fabRate   : Int := 0
  ppsRate   : Int := 0
  integ     : Int := 0
  slew      : Int := 0
  ppsEdge   : DWord := 0
  ppsLast   : Option Nat := none
  ppsOff    : Option Nat := none
  target    : Nat := 9
  freqHold  : Nat := 0
  periods   : Nat := 0
  tclkOld   : Option (Nat × Nat) := none
  tileDiv   : SMap Nat := []
  railMv    : List Nat := [750, 750, 720, 720]
  railAt    : SMap Nat := []
  railTop   : SMap (Nat × Bool) := []
  deriving DecidableEq, Repr

/-! ### Packet intake -/

/-- A descriptor of a parse graph (03 R95). -/
structure PDesc where
  kind       : Nat
  terminal   : Bool
  csum       : Bool
  fixedLen   : Nat
  lenOff     : Nat
  lenWidth   : Nat
  lenShift   : Nat
  lenAdd     : Nat
  selOff     : Nat
  selWidth   : Nat
  transFirst : Nat
  transCount : Nat
  extrFirst  : Nat
  extrCount  : Nat
  next       : Nat
  deriving DecidableEq, Repr

/-- A transition (03 R97). -/
structure PTrans where
  value : Word
  mask  : Word
  next  : Nat
  deriving DecidableEq, Repr

/-- An extraction op (03 R98). `shift` places the field of the built-in graph's outer VLAN ID (03 R100); it is 0 in a
loaded graph. -/
structure PExtr where
  off     : Nat
  width   : Nat
  feat    : Bool
  flowKey : Bool
  index   : Nat
  op      : Nat
  shift   : Nat := 0
  deriving DecidableEq, Repr

/-- A parse graph (03 R94). -/
structure Graph where
  start : Nat
  descs : List PDesc
  trans : List PTrans
  extrs : List PExtr
  feats : List Nat
  deriving DecidableEq, Repr

/-- A loaded graph slot with its owner and the mark that it has been named (03 R93). -/
structure GraphSlot where
  owner : Nat
  graph : Graph
  named : Bool
  deriving DecidableEq, Repr

/-- A pattern record (03 R105). -/
structure Pattern where
  id     : Nat
  nocase : Bool
  anchor : Bool
  group  : Nat
  minOff : Nat
  maxOff : Nat
  bytes  : Bytes
  deriving DecidableEq, Repr

/-- A fragment table entry (03 R110 to R115). `endAt` is the time at which a fragment with MF clear passed, `holdAt` the
time at which its first early arrival was held. -/
structure FragEntry where
  key     : Bytes
  part    : Nat
  carried : List (Nat × Word)
  first   : Bool
  drop    : Bool
  created : DWord
  endAt   : Option DWord
  holdAt  : Option DWord
  deriving DecidableEq, Repr

/-- Action records of 04 R124, as fields. -/
structure Action where
  kind         : Nat := 0
  mirrorSet    : Bool := false
  mirror       : Nat := 0
  port         : Nat := 0
  queue        : Nat := 0
  queueSet     : Bool := false
  meter        : Nat := 0
  meterSet     : Bool := false
  trigger      : Nat := 0
  triggerSet   : Bool := false
  hostRing     : Nat := 0
  hostRingSet  : Bool := false
  cookie       : Word := 0
  deriving DecidableEq, Repr

/-- A per-packet WICKER result (06 R200). -/
structure WkResult where
  slot    : Nat
  valid   : Bool
  invalid : Bool
  cut     : Bool
  kind    : Nat
  cls     : Nat
  score   : Int
  deriving DecidableEq, Repr

/-- A learn or station-move request (04 R139, R140). -/
structure LearnReq where
  part : Nat
  key  : Bytes
  port : Nat
  deriving DecidableEq, Repr

/-- Where a packet is on its way from stage 1 to stage 7. -/
inductive Place where
  | intake | reed | scan | lookup | flow | miss | wicker | merge | action
  | flowHold (flow : Nat) | bucketHold (bucket : Nat) | fragHold (entry : Nat) | reorder
  deriving DecidableEq, Repr

/-- Why a packet's hold closed, as stage 6 reads it (10 R306). -/
inductive HoldClose where
  | none | late | invalid
  deriving DecidableEq, Repr

/-- A packet between stage 1 and stage 7. `forced` is the outcome that fragment handling gives (0 none); `scan` the
bytes it has to scan; `track` is 0 before the flow agent has answered, 1 untracked, 2 served without caching, 3 hot;
`entryBad` says that a lookup hit a poisoned entry (13 R411); `cause` is CAUSE of 10 R314; `fw` holds flow words 64 to 71 of 06 R190 and `snap` the merged context as stage 4 left it (05 R174). -/
structure Packet where
  id       : Nat
  pipe     : Nat
  place    : Place
  port     : Nat
  part     : Nat
  epoch    : Nat
  graph    : Nat
  frame    : Bytes
  macsec   : Bool
  intake   : DWord
  flowKey  : Bytes
  fh       : DWord
  bucket   : Nat
  frag     : Bool
  fragFirst : Bool
  fragEntry : Option Nat
  carried  : List (Nat × Word)
  forced   : Nat
  pass     : Nat := 1
  outcome  : Nat := 0
  outAct   : Nat := 0
  levels   : Nat := 0
  offs     : List Nat := []
  payload  : Nat := 0
  csumBad  : Bool := false
  ipKind   : Nat := 0
  nIp      : Nat := 0
  tcpFlags : Option Byte := none
  words    : List Word := []
  feats    : List Word := []
  matches_ : List Nat := []
  nMatch   : Nat := 0
  groups   : DWord := 0
  short    : Bool := false
  rule     : Action := {}
  lrnDrop  : Bool := false
  learn    : Option LearnReq := none
  merged   : Action := {}
  cause    : Nat := 0
  scan     : Nat := 0
  track    : Nat := 0
  flowIdx  : Option Nat := none
  flowGen  : Nat := 0
  isNew    : Bool := false
  fw       : List Word := []
  snap     : List Word := []
  evs      : List (Nat × Nat) := []
  wk       : List WkResult := []
  close    : HoldClose := .none
  poison   : Bool := false
  entryBad : Bool := false
  deriving DecidableEq, Repr

/-! ### Lookup tables -/

/-- An entry of EXACT, LPM4, LPM6, RULE or RULE_GROUP (04 R118, R130, R131, R135, R136). `key` is KEY, the prefix
and length bytes, RULE_ID or the group number; `born` is since when the active bank holds it and `seen` the start of the
aging period in which the sweeper last visited it (R143); `hitAt` is the PKCLK count at which a clear HIT became set, and
`leaving` says that the sweeper removes the entry in the present cycle (R144); `bank0` and `bank1` are the membership bits
(04 R149). -/
structure TEntry where
  table   : Nat
  part    : Nat
  key     : Bytes
  action  : Bytes
  ageable : Bool := false
  learned : Bool := false
  hit     : Bool := false
  slot    : Nat := 0
  version : Nat := 0
  bank0   : Bool := true
  bank1   : Bool := true
  prio    : Nat := 0
  group   : Nat := 0
  value   : Bytes := []
  poison  : Bool := false
  born    : DWord := 0
  seen    : Option DWord := none
  hitAt   : Option Nat := none
  leaving : Bool := false
  deriving DecidableEq, Repr

/-- Bank states of 04 R149. -/
inductive BankState where
  | steady | rebuild | draining
  deriving DecidableEq, Repr

/-- A TABLE_COMPARE in progress (04 R153, R154). -/
structure Compare where
  ctx    : CmdCtx
  table  : Nat
  part   : Nat
  shadow : List DWord
  deriving DecidableEq, Repr

/-- An entry of the route table (11 R353): N_PATHS and the four LINK bytes. -/
structure Route where
  paths : Nat := 0
  links : List Nat := [0, 0, 0, 0]
  deriving DecidableEq, Repr

/-- The lookup tables. Keys of `active` and `bankState` are partition × 8 + table. `copies` holds the old copies of the
entries relocated in PKCLK cycle `copyAt`, valid in that cycle (04 R128); `bloom` the counters of the LPM length filters
(R132). -/
structure Tabs where
  entries   : List TEntry := []
  active    : SMap Nat := []
  bankState : SMap BankState := []
  sa        : SMap Bytes := []
  routes    : SMap Route := []
  learnQ    : SMap (List LearnReq) := []
  compares  : List Compare := []
  ageStart  : SMap DWord := []
  agePeriod : SMap Nat := []
  copies    : List TEntry := []
  copyAt    : Nat := 0
  bloom     : SMap Nat := []
  deriving DecidableEq, Repr

/-! ### Flow state -/

/-- A flow context (05 R162). -/
structure FlowCtx where
  valid     : Bool := false
  hot       : Bool := false
  noExpire  : Bool := false
  closing   : Bool := false
  part      : Nat := 0
  gen       : Half := 0
  eventCnt  : Half := 0
  epoch     : Half := 0
  fh        : DWord := 0
  first     : DWord := 0
  last      : DWord := 0
  nextTimer : DWord := 0
  pkts      : DWord := 0
  bytes     : DWord := 0
  iat       : Word := 0
  hist      : List Word := [0, 0, 0, 0, 0, 0, 0, 0]
  tcpf      : List Half := [0, 0, 0, 0, 0, 0, 0, 0]
  entA      : List Nat := [0, 0, 0, 0, 0, 0, 0, 0]
  entB      : List Nat := [0, 0, 0, 0, 0, 0, 0, 0]
  ff0       : Word := 0
  ff1       : Word := 0
  vkind     : Nat := 0
  vvalid    : Bool := false
  vinvalid  : Bool := false
  vslot     : Nat := 0
  vepoch    : Half := 0
  vclass    : Half := 0
  vscore    : Word := 0
  lastq     : Option Nat := none
  vtime     : DWord := 0
  key       : Bytes := []
  poison    : Bool := false
  deriving DecidableEq, Repr

/-- A hot form (05 R164): its place in the slice, its tag and the bytes held while the flow is hot. -/
structure HotForm where
  slice    : Nat
  set      : Nat
  way      : Nat
  fh       : DWord
  index    : Nat
  part     : Nat
  hold     : Bool
  vkind    : Nat
  vvalid   : Bool
  vinvalid : Bool
  eventCnt : Half
  lastLo   : Word
  bytesLo  : Word
  pktsLo   : Half
  lastq    : Option Nat
  iat      : Word
  sizeLo   : List Byte
  tcpfLo   : List Byte
  entA     : List Nat
  entB     : List Nat
  ff0      : Word
  ff1      : Word
  poison   : Bool := false
  deriving DecidableEq, Repr

/-- A request to a flow agent after a hot-cache miss (05 R161, R165), and its outcome once the agent has served it:
the flow's index and whether it was created, or untracked. -/
structure FetchReq where
  pipe      : Nat
  fh        : DWord
  part      : Nat
  key       : Bytes
  intake    : DWord
  epoch     : Nat
  firstPass : Bool
  pkt       : Nat
  since     : DWord
  waiting   : Bool := true
  remote    : Bool := false
  found     : Option Nat := none
  created   : Bool := false
  deriving DecidableEq, Repr

/-- A carry from a wrapped low part (05 R166): field 0 PKTS, 1 BYTES, 2 to 9 SIZE_HIST, 10 to 17 TCPF. -/
structure Carry where
  index : Nat
  field : Nat
  deriving DecidableEq, Repr

/-- An open hold (05 R176, R177, 09 R301). -/
structure Hold where
  index : Nat
  fh    : DWord
  part  : Nat
  slot  : Nat
  since : DWord
  count : Nat
  limit : Nat
  time  : Nat
  deriving DecidableEq, Repr

/-- A bucket move in progress (05 R171, R172) or a change of home (11 R355). A move that a pipeline fence takes over has
`fence` set and its destination still to be chosen: `dst` is 16 + the fenced pipeline; bucket 65,536 stands for every
bucket of the fenced pipeline (13 R407). `since` and `pk` are the decision's FT64 and PKCLK count; `pin` is the PINNED mark that
the bucket had before the BUCKET_MOVE of `ctx`. -/
structure Move where
  bucket  : Nat
  from_   : Nat
  dst     : Nat
  since   : DWord
  drained : Bool
  fence   : Bool
  ctx     : Option CmdCtx
  home    : Option Nat
  pk      : Nat := 0
  pin     : Option Bool := none
  deriving DecidableEq, Repr

/-- A heavy-hitter entry (05 R181). -/
structure HeavyEntry where
  part  : Nat
  fh    : DWord
  index : Nat
  count : DWord
  error : DWord
  deriving DecidableEq, Repr

/-- A lease of a homed flow: at the home, who holds it; at the holder, since when (11 R356, R357). -/
structure Lease where
  index   : Nat
  holder  : Nat
  since   : DWord
  recalled : Bool
  waiting : List Msg
  deriving DecidableEq, Repr

/-- Flow state. Sketch counters are keyed ((die × 4 + sketch) × 4 + row) × 65,536 + index. The present walk of the sweeper began
at `sweepFrom` and has visited `swept` (05 R178); `evNext` numbers the events of EVENT-mode ensembles. -/
structure Flow where
  ctxs    : SMap FlowCtx := []
  hots    : List HotForm := []
  reqs    : List FetchReq := []
  carries : List Carry := []
  holds   : List Hold := []
  pipeOf  : SMap Nat := []
  pinned  : List Nat := []
  moves   : List Move := []
  load    : SMap Nat := []
  bload   : SMap Nat := []
  placeAt : DWord := 0
  sketch  : SMap Word := []
  hh      : List HeavyEntry := []
  home    : SMap Nat := []
  leases  : List Lease := []
  held    : List Lease := []
  sweepFrom : DWord := 0
  swept   : List Nat := []
  evNext  : Nat := 0
  deriving DecidableEq, Repr

/-! ### Models -/

/-- A node of an ensemble (06 R188): KIND 0 U32, 1 S32, 2 F32, 3 leaf. -/
structure Node where
  kind    : Nat
  feature : Nat
  value   : Word
  left    : Nat
  right   : Nat
  poison  : Bool := false
  deriving DecidableEq, Repr

/-- An ensemble (06 R186, R187): roots are pairs of node index and output. -/
structure Ensemble where
  event     : Bool
  nanTrap   : Bool
  escEn     : Bool
  nOut      : Nat
  budget    : Nat
  outShift  : Nat
  escSlot   : Nat
  thrInit   : Int
  thrMin    : Int
  thrMax    : Int
  stepInit  : Nat
  escMargin : Nat
  classAct  : List Byte
  roots     : List (Nat × Nat)
  nodes     : List Node
  deriving DecidableEq, Repr

/-- A threshold with its loop state (06 R204, R205). -/
structure Thr where
  theta    : Int := 0
  step     : Nat := 0
  dir      : Int := 0
  n        : Nat := 0
  a        : Nat := 0
  lastN    : Nat := 0
  lastA    : Nat := 0
  since    : DWord := 0
  period   : Nat := 0
  deriving DecidableEq, Repr

/-- A flow event (05 R174): 128 words, index, GEN, mask, FT64, epoch and partition; `order` numbers the arrivals at EVENT-mode
ensembles (06 R202). -/
structure Event where
  part  : Nat
  index : Nat
  gen   : Half
  mask  : Nat
  ft    : DWord
  epoch : Nat
  words : List Word
  order : Nat := 0
  deriving DecidableEq, Repr

/-- The tensor part of a loaded model (09 R281 to R288). Addresses are partition-virtual; `tiles` are the bound
tiles and `shares` the scratch offsets of their shares. -/
structure Tensor where
  inFmt     : Nat
  kIn       : Nat
  tiles     : List Nat
  shares    : List Nat
  need      : Nat
  inBase    : Nat
  wReg      : List Nat
  wSize     : Nat
  workReg   : Nat
  workSize  : Nat
  stateReg  : Nat
  stateSize : Nat
  trainReg  : Nat
  inputMap  : Bytes
  fwd       : Bytes
  bwd       : Bytes
  outMap    : Bytes
  train     : Bytes
  deriving DecidableEq, Repr

/-- A walk of RINSE over a model's weight region (09 R303, 12 R389): the bytes walked at time `mark`, and those charged. -/
structure Wipe where
  done    : Nat
  mark    : DWord
  charged : Nat
  deriving DecidableEq, Repr

/-- A model slot (09 R279). State 0 EMPTY, 1 LOADING, 2 LOADED, 3 IN_SERVICE, 4 UNLOADING. `runs` are the HBM page runs
that the model holds (R288): first partition-virtual page, pages, and whether they are weight pages. -/
structure Slot where
  state     : Nat := 0
  kind      : Nat := 0
  trainable : Bool := false
  wp        : Bool := false
  runs      : List (Nat × Nat × Bool) := []
  digest    : Bytes := []
  ens       : Option Ensemble := none
  bank      : Option Nat := none
  nodeOff   : Nat := 0
  tens      : Option Tensor := none
  step      : Nat := 0
  copy      : Nat := 0
  training  : Bool := false
  thr       : Thr := {}
  unloadCtx : Option CmdCtx := none
  evq       : List Event := []
  filling   : List Event := []
  fillAt    : DWord := 0
  batches   : List (List Event) := []
  batchAt   : List DWord := []
  running   : Bool := false
  wipe      : Option Wipe := none
  deriving DecidableEq, Repr

/-- A live epoch of a partition (09 R289, R290, R294, R299): what it fixes, and its reference count. `banks` are the
active banks of tables 1 to 4, `prof` the values of its packet-epoch fields by field ID. -/
structure Epoch where
  num      : Nat
  swapAt   : DWord
  refs     : Nat
  slots    : List Nat
  banks    : List Nat
  prof     : SMap DWord
  patterns : List Pattern
  patId    : Nat := 0
  deriving DecidableEq, Repr

/-! ### Tensor tiles -/

/-- The tag of a tile-memory line (07 R210, 13 R401). -/
structure Line where
  part   : Nat := 0
  wp     : Bool := false
  poison : Bool := false
  deriving DecidableEq, Repr

/-- A tile command (07 R228) on its way: 0 waiting, 1 running, 2 ended, with its status, its status word, and what it
gives the summary: ZERO_COUNT, NAN_COUNT, SAT_COUNT and the two bins (R233). A status that a running command has already
says that an uncorrectable error hit it (R234). One that is not `issued` waits until the command `behind`, the oldest of 64,
ends (R223). `wait` says when its present hazard wait began, in PKCLK cycles and as FT64, and `waited` how many PKCLK cycles
it has waited. `xfer` is a host transfer or a collective (true) that waits for its turn in the issue order. -/
structure TCmd where
  id     : Nat
  job    : Nat
  idx    : Nat
  part   : Nat
  host   : Bool
  bytes  : Bytes
  state  : Nat
  tile   : Nat
  since  : DWord
  status : Nat := 0
  word   : DWord := 0
  stats  : List Nat := []
  issued : Bool := true
  behind : Option Nat := none
  wait   : Option (Nat × DWord) := none
  waited : Nat := 0
  xfer   : Option (CmdCtx × Bool) := none
  deriving DecidableEq, Repr

/-- A list of tile commands in progress (07 R233): a TILE_RUN (with its context), or a batch of a slot. -/
structure TJob where
  id    : Nat
  ctx   : Option CmdCtx
  slot  : Option Nat
  part  : Nat
  deriving DecidableEq, Repr

/-- A collective (07 R242, 11 R359) or a training exchange (08 R272) in progress. `sent` counts segments passed on;
`got` holds the segments received: sender, segment index, bytes. `lastAt` is when the last of them came. -/
structure Coll where
  ctx    : CmdCtx
  part   : Nat
  train  : Option Nat
  kind   : Nat
  group  : List Nat
  desc   : Bytes
  own    : Bytes
  seed   : DWord
  clip   : Nat
  got    : List (Nat × Nat × Bytes)
  sent   : Nat := 0
  call   : Bytes := []
  since  : DWord
  lastAt : DWord := 0
  deriving DecidableEq, Repr

/-- A segment that has come for a call that this member has yet to make (11 R359). -/
structure CollIn where
  part : Nat
  call : Bytes
  src  : Nat
  idx  : Nat
  body : Bytes
  deriving DecidableEq, Repr

/-- The stream cache and the TLB of a tile (07 R212, R215), least recently used first: cached lines as physical address ÷ 128
and partition, and translations as partition and virtual page. A line never differs from HBM (R212), so that its bytes are
those of HBM. -/
structure TileCache where
  lines : List (Nat × Nat) := []
  tlb   : List (Nat × Nat) := []
  deriving DecidableEq, Repr

/-- The tiles. Calls of collectives: `collCalls` counts them, `collTo` and `collFrom` hold, for each node and partition, the
call to which the segments sent last and received last belong, and `collIn` those that have come too early. Tile memory is keyed tile × 2^22 + offset, lines tile × 32,768 + line. -/
structure Tiles where
  mem    : Mem := []
  lines  : SMap Line := []
  caches : SMap TileCache := []
  cmds   : List TCmd := []
  jobs   : List TJob := []
  nextId : Nat := 0
  credit : SMap Nat := []
  rrNext : Nat := 0
  divAt  : SMap DWord := []
  colls  : List Coll := []
  collCalls : List (Bytes × Nat) := []
  collTo   : SMap Bytes := []
  collFrom : SMap Bytes := []
  collIn   : List CollIn := []
  deriving DecidableEq, Repr

/-! ### Egress -/

/-- A copy of a packet on its way to an egress queue (10 R309, R311, R312). -/
structure Copy where
  port    : Nat
  queue   : Nat
  meter   : Option Nat
  pre     : Nat
  frame   : Bytes
  part    : Nat
  fh      : DWord
  tracked : Bool
  mirror  : Bool
  barrier : List Nat
  poison  : Bool
  deriving DecidableEq, Repr

/-- An item of an egress queue: a frame, or the marker of a barrier entry. -/
structure QItem where
  marker  : Option Nat
  frame   : Bytes
  part    : Nat
  fh      : DWord
  tracked : Bool
  enq     : DWord
  poison  : Bool
  deriving DecidableEq, Repr

/-- The main store of a FIFO (10 R320): the bytes in the draining bank, the units that have spilled to HAMPER, each a full
bank, and the bytes in the filling bank. -/
structure FifoBanks where
  drain : Nat := 0
  units : Nat := 0
  fill  : Nat := 0
  deriving DecidableEq, Repr

/-- An egress queue (10 R324, R340). -/
structure Queue where
  items    : List QItem := []
  banks    : FifoBanks := {}
  maxDelay : Nat := 0
  sBytes   : Nat := 0
  sPkts    : Nat := 0
  sDelay   : Nat := 0
  deriving DecidableEq, Repr

/-- A barrier entry of a port (10 R312): the queues whose marker has not reached the head, and the copies that wait,
in arrival order. -/
structure Barrier where
  id      : Nat
  port    : Nat
  left    : List Nat
  waiting : List Copy
  deriving DecidableEq, Repr

/-- A meter (10 R328, R329): levels in units of 1/8,000,000 byte. -/
structure Meter where
  mode   : Byte := 0
  cir    : Nat := 0
  cbs    : Nat := 0
  eir    : Nat := 0
  ebs    : Nat := 0
  tc     : Nat := 0
  te     : Nat := 0
  last   : DWord := 0
  counts : List DWord := [0, 0, 0, 0, 0, 0]
  deriving DecidableEq, Repr

/-- A shaper node (10 R330 to R332): tokens in units of 1/8,000,000 byte, and a write that waits for the round. -/
structure Shaper where
  rate   : Nat := 0
  burst  : Nat := 0
  tokens : Int := 0
  pend   : Option (Nat × Nat) := none
  deriving DecidableEq, Repr

/-- A gate control list (10 R334, R335). -/
structure Gcl where
  takeover : DWord
  cycle    : Nat
  entries  : List (BitVec 128 × Nat)
  deriving DecidableEq, Repr

/-- A frame being transmitted (10 R333): its end in ps as PKCLK counts them. -/
structure Tx where
  frame : Bytes
  queue : Nat
  endPs : Nat
  deriving DecidableEq, Repr

/-- A host copy in the FIFO of its ring (10 R314, R315). -/
structure HostCopy where
  die    : Nat
  part   : Nat
  data   : Bytes
  poison : Bool := false
  deriving DecidableEq, Repr

/-- A host packet ring (10 R313, R315). -/
structure HostRing where
  part      : Option Nat := none
  bref      : Bref := { addr := 0, size := 0, loc := 0, dir := 0 }
  snap      : Nat := 64
  write     : Word := 0
  fullDrops : Word := 0
  read      : Word := 0
  readAt    : Option DWord := none
  closing   : Bool := false
  fifo      : List HostCopy := []
  deriving DecidableEq, Repr

/-- Egress state. `pauseUntil` is keyed port × 8 + priority, `deficit` by scheduler member, `ptr` by set; `refills` and
`rounds` count the shaper refills and each port's scheduler rounds since the last start, `sampleAt` is the time of the
last queue samples. -/
structure Egress where
  queues     : SMap Queue := []
  copies     : List Copy := []
  barriers   : List Barrier := []
  overflow   : List Copy := []
  nextBar    : Nat := 0
  meters     : SMap Meter := []
  shapers    : SMap Shaper := []
  deficit    : SMap Nat := []
  ptr        : SMap Nat := []
  gcl        : SMap Gcl := []
  gclPend    : SMap Gcl := []
  pauseUntil : SMap DWord := []
  tx         : SMap Tx := []
  txEnd      : SMap Nat := []
  hrings     : SMap HostRing := []
  refills    : Nat := 0
  rounds     : SMap Nat := []
  sampleAt   : DWord := 0
  inbandTx   : List (Nat × Bytes) := []
  deriving DecidableEq, Repr

/-! ### Fabric -/

/-- A frame kept for retry (11 R347): phase, counter and bytes as sent, and the messages whose last byte it carries, each
with the link that it came on. -/
structure LFrame where
  phase : Bool
  ctr   : Nat
  bytes : Bytes
  ends  : List (Nat × Msg)
  deriving DecidableEq, Repr

/-- A Shatiet link (11 R342 to R361, R366). State 0 DOWN, 1 TRAINING, 2 AUTH, 3 UP, 4 FAILED; `wanted` says that a
FABRIC_JOIN named it. `peer`, `peerLink` and `peerChain` are what the peer's HELLO announced. Credit buffers are numbered
class + 4 × hop, as CR_SEL names them: `credits` are held here, `crSeen` the peer's last CR_CNT, `crRet` the credits
returned so far, `crTold` what the peer has been told, `crSel` the buffer told last. `outQ` pairs a message with the link
that it came on. `begun` holds the messages that have started and whose last byte is still in `txBuf`, with the bytes up to
their end. `share` names this end's ephemeral key share. `ended` says that PHASE_END came before the key that follows it was
known, `rxAt` is the arrival of the frame that brought the first byte of `rxBuf`, and `lastOut` is what the transmitter sent
last. -/
structure Link where
  state    : Nat := 0
  wanted   : Bool := false
  peer     : Nat := 0xffff
  peerLink : Nat := 0
  peerChain : Bytes := []
  keyGen   : Nat := 0
  sent     : DWord := 0
  retries  : Word := 0
  authFail : Word := 0
  hopNs    : Word := 0
  txKey    : Option Nat := none
  rxKey    : Option Nat := none
  newTx    : Option Nat := none
  newRx    : Option Nat := none
  txPhase  : Bool := false
  txCtr    : Nat := 0
  retry    : List LFrame := []
  resend   : List LFrame := []
  nakSeen  : Byte := 0
  nakCnt   : Byte := 0
  expPhase : Bool := false
  expCtr   : Nat := 0
  prevBad  : Bool := false
  tagFails : Nat := 0
  switching : Bool := false
  rekey    : Bool := false
  rekeyCtx : Option CmdCtx := none
  share    : Nat := 0
  ended    : Bool := false
  begun    : List (Nat × Msg × Nat) := []
  rxAt     : DWord := 0
  credits  : SMap Nat := []
  crSeen   : SMap Half := []
  crRet    : SMap Half := []
  crTold   : SMap Half := []
  crSel    : Nat := 4
  txBuf    : Bytes := []
  rxBuf    : Bytes := []
  outQ     : List (Nat × Msg) := []
  flowDef  : Nat := 0
  collDef  : Nat := 0
  drrAt    : Nat := 1
  offset   : Option Int := none
  lastOut  : Bytes := []
  deriving DecidableEq, Repr

/-- An advertisement of a time master heard from a peer (11 R365). -/
structure Adv where
  master : Nat
  dist   : Nat
  seq    : Word
  deriving DecidableEq, Repr

/-- A FABRIC_JOIN in progress (11 R367); `step` is the step of the counter once it has been made. -/
structure JoinJob where
  ctx   : Option CmdCtx
  node  : Nat
  mask  : Word
  since : DWord
  step  : Option Int
  deriving DecidableEq, Repr

/-- Fabric state. Sequence maps are keyed (node × 4 + class); `peerAdv` by link. `timerAt` is the last time exchange,
`leaving` a FABRIC_LEAVE in progress and whether it has sent LEAVE. -/
structure Fab where
  nodeId    : Nat := 0
  joined    : Bool := false
  links     : SMap Link := []
  mseqTx    : SMap Nat := []
  mseqRx    : SMap Nat := []
  reorder   : List (Nat × Msg) := []
  gapSince  : SMap DWord := []
  inbox     : List (Nat × Msg) := []
  timeAt    : List (Msg × DWord) := []
  peerAdv   : SMap Adv := []
  seqHigh   : SMap Word := []
  seqAt     : SMap DWord := []
  advSeq    : Word := 0
  master    : Nat := 0xffff
  dist      : Nat := 255
  via       : Nat := 0xffff
  timerAt   : DWord := 0
  join      : Option JoinJob := none
  leaving   : Option (CmdCtx × Bool) := none
  deriving DecidableEq, Repr

/-! ### Partitions -/

/-- A partition (12 R375 to R386, 02 R65 to R67). States 0 FREE, 1 CREATED, 2 ACTIVE, 3 RESETTING, 4 DESTROYING. -/
structure Part where
  state      : Nat := 0
  ownerHash  : Bytes := []
  ports      : Word := 0
  slots      : BitVec 256 := 0
  meterFirst : Nat := 0
  meterCount : Nat := 0
  ranges     : List (Nat × Nat) := []
  regions    : List Nat := []
  cmdKey     : Option Nat := none
  sealGen    : Half := 0
  ibLast     : DWord := 0
  ibOwn      : DWord := 0
  ibExp      : Word := 0
  ibWraps    : Nat := 0
  ibFlight   : List InFlight := []
  scrubEnd   : DWord := 0
  resetCtx   : Option CmdCtx := none
  deriving DecidableEq, Repr

/-- An encryption region (12 R387 to R392). State 0 STEADY, 1 ROTATING, 2 SCRUBBING. `started` is when its present or last
walk started, `done` the bytes walked at time `mark`, `charged` those whose traffic is counted. -/
structure Region where
  part      : Nat
  first     : Nat
  pages     : Nat
  key0      : Option Nat
  key1      : Option Nat
  active    : Nat
  state     : Nat
  started   : DWord
  done      : Nat
  mark      : DWord := 0
  rotations : Word
  charged   : Nat := 0
  deriving DecidableEq, Repr

/-- Permissions of a partition-virtual page (07 R215), keyed partition × 2^27 + page; a page that is not listed is
readable, writable and not WP. -/
structure Page where
  readable : Bool := true
  writable : Bool
  wp       : Bool
  deriving DecidableEq, Repr

/-- An HBM arbiter of one stack (01 R35, R36). `refills` counts the µs of PKCLK that have had their refill; `prior` holds the HCLK cycle
of the last refill with the credit and tokens before it. -/
structure Arb where
  floor     : Nat := 0
  tokens    : SMap Nat := []
  lastPart  : Nat := 0
  lastBor   : Nat := 0
  waiting   : List HbmReq := []
  granted   : Option HbmReq := none
  refills   : Nat := 0
  prior     : Option (Nat × Nat × SMap Nat) := none
  deriving DecidableEq, Repr

/-! ### Errors and observability -/

/-- A window counter (13 R402, R404): the eight sub-window counts, the present one first, and its number. -/
structure Win where
  t    : Nat
  w    : Nat
  subs : List Nat
  subNo : Nat
  deriving DecidableEq, Repr

/-- The window of one row of an HBM stack's source (13 R403). -/
structure RowWin where
  source : Nat
  row    : DWord
  win    : Win
  deriving DecidableEq, Repr

/-- An error record (13 R417). -/
structure ErrRec where
  index    : Nat
  severity : Nat
  action   : Nat
  flags    : Nat
  time     : DWord
  source   : Nat
  unit     : Nat
  part     : Nat
  kind     : Nat
  window   : Nat
  parent   : Nat
  address  : DWord
  command  : DWord
  layer    : Half
  oper     : Half
  detail   : Word
  deriving DecidableEq, Repr

/-- A procedure of DARN, running or pending (13 R406, R412): its unit, severity, ACTION code, source, the record
that it belongs to, the commands that asked for it, the PKCLK count at which it started, and the INJECTED flag of its event. -/
structure Proc where
  unit     : Nat
  severity : Nat
  action   : Nat
  source   : Nat
  recIdx   : Nat
  ctxs     : List CmdCtx := []
  pk       : Nat := 0
  inj      : Nat := 0
  deriving DecidableEq, Repr

/-- An error log (13 R417, R419). -/
structure Log where
  recs : List ErrRec := []
  next : Nat := 0
  lost : Nat := 0
  deriving DecidableEq, Repr

/-- DARN's state. `spares` lists the optical lanes moved to their engine's spare, `rows` the spare rows used per
array (class 1) or stack (class 3), keyed by source ID; `hbmRows` the rows that the HBM controllers track, the row whose last
error is oldest first. -/
structure Darn where
  wins      : SMap Win := []
  hbmRows   : List RowWin := []
  proc      : Option Proc := none
  pend      : List Proc := []
  fenced    : List Nat := []
  spares    : List Nat := []
  rows      : SMap Nat := []
  logs      : SMap Log := []
  poisonHbm : List Nat := []
  deriving DecidableEq, Repr

/-- A partition's trace configuration and buffer (15 R461 to R463). -/
structure Trace where
  mask  : DWord := 0
  addr  : DWord := 0
  size  : Nat := 0
  write : Nat := 0
  read  : Nat := 0
  deriving DecidableEq, Repr

/-- A receive capture at a stop (15 R466), keyed 0 to 31 port, 32 to 63 link; `last` is the last non-idle frame. -/
structure Capture where
  bytes : Bytes := []
  times : List Int := []
  after : Nat := 0
  last  : Option DWord := none
  ended : Bool := false
  deriving DecidableEq, Repr

/-- A global stop (15 R464 to R469): its causes, S as a PKCLK count and in FT64, where it began, the propagation that it
took, and the skews of tiles, HBM controllers and MGCLK units. -/
structure Stop where
  cause     : Nat
  pk        : Nat
  ft        : DWord
  origin    : Nat
  originFt  : DWord
  skews     : List Nat
  caps      : SMap Capture := []
  deriving DecidableEq, Repr

/-- Observability: counters are keyed group × 2^20 + index, interval IDs group × 2^20 + instance. `budget` is the trace
bucket of 15 R463 in tenths of a byte, as it stood at the PKCLK count `budgetAt`. -/
structure Obs where
  cnt    : SMap DWord := []
  ival   : SMap DWord := []
  traces : SMap Trace := []
  budget : Nat := 655360
  budgetAt : Nat := 0
  stop   : Option Stop := none
  late   : List (Nat × Nat) := []
  deriving DecidableEq, Repr

/-! ### The whole machine -/

/-- Packet intake: graph slots 1 to 7, pending pattern sets, scan backlog, fragment table, packets, the ports in link fault
and those among them whose cartridge has been replaced since (03 R81). -/
structure Intake where
  graphs    : SMap GraphSlot := []
  patPend   : SMap (List Pattern) := []
  short     : List Nat := []
  frags     : SMap FragEntry := []
  pkts      : List Packet := []
  nextPkt   : Nat := 0
  portFault : List Nat := []
  repaired  : List Nat := []
  deriving DecidableEq, Repr

/-- What the manual leaves to the implementation of FIFOs (10 R318, R320; log 84): the width of a FIFO word and the bytes of
one bank of an intake FIFO, a REED input FIFO, a barrier store and the fabric's reorder store. No step changes it. -/
structure Impl where
  width       : Nat := 64
  intakeBank  : Nat := 65536
  reedBank    : Nat := 65536
  barrierBank : Nat := 65536
  fabBank     : Nat := 65536
  deriving DecidableEq, Repr

/-- The state of the XE8. -/
structure State where
  /-- The commands that are waiting, first in, first out. -/
  pending : List Instr := []
  /-- The position of the next free value (the model's own; log 9). -/
  free    : Nat := 0
  crypto  : Crypto := {}
  impl    : Impl := {}
  sys     : Sys := {}
  clk     : Clk := {}
  host    : Mem := []
  hbm     : Mem := []
  rings   : SMap Ring := []
  fields  : Fields := {}
  intake  : Intake := {}
  tabs    : Tabs := {}
  flow    : Flow := {}
  slots   : SMap Slot := []
  /-- The FT64 at which each pipeline last made progress, by its number. -/
  progress : SMap DWord := []
  epochs  : SMap (List Epoch) := []
  tiles   : Tiles := {}
  egr     : Egress := {}
  fab     : Fab := {}
  parts   : SMap Part := []
  regions : SMap Region := []
  /-- Runs of 64-byte units, as first unit and count, written under the active slot of a region that is ROTATING. -/
  epochNew : List (Nat × Nat) := []
  pages   : SMap Page := []
  arb     : SMap Arb := []
  darn    : Darn := {}
  obs     : Obs := {}
  deriving DecidableEq, Repr

/-- The default entry of partition p (12 R375, R378): partition 0 is ACTIVE, and the others are FREE. -/
def Part.initial (p : Nat) : Part := if p = 0 then { state := 2 } else {}

/-- The one live epoch that a partition has after reset and after its creation (09 R289): number 0, no per-packet
slots, bank 0 active, every field at its reset value, no patterns. -/
def Epoch.initial : Epoch :=
  { num := 0, swapAt := 0, refs := 0, slots := [255, 255, 255, 255], banks := [0, 0, 0, 0, 0], prof := [],
    patterns := [] }

/-- The machine right after reset: BOOT is over and the module is in WAIT_START (16 R476, 14 R434; log 1), nothing
waits, every register, field, table and memory is at its reset value, and regions 0 and 1 exist (12 R388). -/
def State.reset : State :=
  { regions := [
      (0, { part := 0, first := 15348, pages := 18504, key0 := none, key1 := none, active := 0, state := 0, started := 0,
            done := 0, rotations := 0 }),
      (1, { part := 0, first := 0, pages := 92088, key0 := none, key1 := none, active := 0, state := 0,
            started := 0, done := 0, rotations := 0 })] }

end Sys2Proof.Machine
end

