-- ==== Sys2Proof/Machine/Ops.lean ====
section
/-! DEFINITION. The named operations over State: lookups with their defaults, counters (15 R454), free values,
ownership (12 R375), host memory and HBM through the page tables (12 R376, 07 R215), and sealing (log 7). -/

namespace Sys2Proof.Machine

/-! ### Looking up and changing parts of State -/

/-- The present FT64 (14 R439). -/
def State.now (s : State) : DWord := s.clk.ft

/-- The ps that PKCLK has counted. -/
def State.pkPs (s : State) : Nat := s.clk.pk * 625

def State.ring (s : State) (n : Nat) : Ring := smGet {} s.rings n
def State.setRing (s : State) (n : Nat) (r : Ring) : State := { s with rings := smSet s.rings n r }
def State.modRing (s : State) (n : Nat) (f : Ring → Ring) : State := s.setRing n (f (s.ring n))

def State.part (s : State) (p : Nat) : Part := smGet (Part.initial p) s.parts p
def State.setPart (s : State) (p : Nat) (x : Part) : State := { s with parts := smSet s.parts p x }
def State.modPart (s : State) (p : Nat) (f : Part → Part) : State := s.setPart p (f (s.part p))

def State.slot (s : State) (n : Nat) : Slot := smGet {} s.slots n
def State.setSlot (s : State) (n : Nat) (x : Slot) : State := { s with slots := smSet s.slots n x }
def State.modSlot (s : State) (n : Nat) (f : Slot → Slot) : State := s.setSlot n (f (s.slot n))

def State.link (s : State) (l : Nat) : Link := smGet {} s.fab.links l
def State.setLink (s : State) (l : Nat) (x : Link) : State :=
  { s with fab := { s.fab with links := smSet s.fab.links l x } }
def State.modLink (s : State) (l : Nat) (f : Link → Link) : State := s.setLink l (f (s.link l))

def State.queue (s : State) (q : Nat) : Queue := smGet {} s.egr.queues q
def State.setQueue (s : State) (q : Nat) (x : Queue) : State :=
  { s with egr := { s.egr with queues := smSet s.egr.queues q x } }

def State.hring (s : State) (n : Nat) : HostRing := smGet {} s.egr.hrings n
def State.setHring (s : State) (n : Nat) (x : HostRing) : State :=
  { s with egr := { s.egr with hrings := smSet s.egr.hrings n x } }

/-- The live epochs of a partition, oldest first (09 R289). -/
def State.eps (s : State) (p : Nat) : List Epoch := smGet [Epoch.initial] s.epochs p
def State.setEps (s : State) (p : Nat) (l : List Epoch) : State := { s with epochs := smSet s.epochs p l }
/-- The newest live epoch. -/
def State.curEpoch (s : State) (p : Nat) : Epoch := (s.eps p).getLastD Epoch.initial
/-- The live epoch of a number; the newest where it has retired. -/
def State.epochOf (s : State) (p num : Nat) : Epoch :=
  ((s.eps p).find? (fun e => e.num == num)).getD (s.curEpoch p)

def State.ctx (s : State) (i : Nat) : FlowCtx := smGet {} s.flow.ctxs i
def State.setCtx (s : State) (i : Nat) (c : FlowCtx) : State :=
  { s with flow := { s.flow with ctxs := smSet s.flow.ctxs i c } }

def State.laser (s : State) (c : Nat) : Laser := smGet {} s.sys.lasers c
def State.setLaser (s : State) (c : Nat) (x : Laser) : State :=
  { s with sys := { s.sys with lasers := smSet s.sys.lasers c x } }

/-- The TCLK divider of a tile (07 R238). -/
def State.tileDivider (s : State) (t : Nat) : Nat := smGet 9 s.clk.tileDiv t

/-! ### Counters (15 R454) -/

inductive PortCtr where
  | rxPkts | rxBytes | txPkts | txBytes | rxFcs | rxRunt | rxOversize | rxDisabled | rxOverrun | macsecDrop
  | macsecPnExhausted | pauseRx | pfcRx | qchangeBarrier | barrierFull | macctlOther
  deriving DecidableEq, Repr

inductive DropCtr where
  | depthExceeded | lengthConflict | unknownHeader | fragOrphan | fragTableFull | fragFollowDrop | lrnLimitDrop
  | ruleDrop | modelDrop | noRoute | portForeign | portDown | recircLimit | recircStrip | hostpktFull | hostpktNoring
  | mirrorForeign | meterYellow | meterRed | queueFull | hamperFull | holdNobuf | gateOversize | poison | fenceDrop
  deriving DecidableEq, Repr

inductive PartCtr where
  | ibReject | lpmFilterFp | lrnMove | lrnFail | lrnLimitPass | emAged | flowUntracked | flowExpired | evDrop
  | fhUnreachable | meterForeign | flowHotLost | flowPoisoned | nodePoisoned | hbmStarved
  deriving DecidableEq, Repr

inductive ByteCtr where
  | hbm | fabricTx | fabricRx | traceRecords | traceLost | traceThrottled
  deriving DecidableEq, Repr

inductive SlotCtr where
  | wkCut | nanFeature | escDrop | verdictStale | batchFull | batchTimeout | slotEvDrop
  deriving DecidableEq, Repr

inductive PipeCtr where
  | pkts | busyCycles | lkpExtra | wkExtra | scanShort
  deriving DecidableEq, Repr

inductive TileCtr where
  | busy | tagMiss | tlbMiss | hazardWait | cacheHit | cacheMiss | tmemBytes | escOverflow
  deriving DecidableEq, Repr

inductive LinkCtr where
  | txBytes | rxBytes | framesSent | retries | retryNolane | authFail | peerRefused
  deriving DecidableEq, Repr

inductive ModCtr where
  | fabSeqGap | fabNoRoute | fabHopLimit | fabBadMsg | placeAbort | ppsGlitch
  deriving DecidableEq, Repr

/-- A counter by group and instance. -/
inductive Ctr where
  | port (p : Nat) (m : PortCtr)
  | drop (p : Nat) (m : DropCtr)
  | ev (p : Nat) (m : PartCtr)
  | bytes (p : Nat) (m : ByteCtr)
  | slot (n : Nat) (m : SlotCtr)
  | pipe (k : Nat) (m : PipeCtr)
  | tile (t : Nat) (m : TileCtr)
  | mem (i m : Nat)
  | link (l : Nat) (m : LinkCtr)
  | module_ (m : ModCtr)
  | die (d m : Nat)
  | vmargin (r : Nat)
  | errors (source : Nat)
  | fifo (n : Nat)
  deriving DecidableEq, Repr

/-- The number of a group and the member count of its instances; groups in ascending order with their instance
counts (15 R454). -/
def counterGroups : List (Nat × Nat × Nat) :=
  [(0x0001, 32, 16), (0x0002, 64, 25), (0x0003, 64, 15), (0x0004, 64, 6), (0x0005, 256, 7), (0x0010, 16, 5),
   (0x0011, 32, 8), (0x0012, 8, 3), (0x0013, 32, 7), (0x0014, 1, 6), (0x0015, 2, 2), (0x0016, 4, 1),
   (0x0017, 13, 1024), (0x0018, 1, 1024)]

/-- The key of a counter in Obs.cnt: group × 2^20 + index. -/
def ctrKey (g i : Nat) : Nat := g * 1048576 + i

/-- The key of each counter: index = instance × members + member (15 R454). -/
def Ctr.key : Ctr → Nat
  | .port p m => ctrKey 0x01 (p * 16 + m.ctorIdx)
  | .drop p m => ctrKey 0x02 (p * 25 + m.ctorIdx)
  | .ev p m => ctrKey 0x03 (p * 15 + m.ctorIdx)
  | .bytes p m => ctrKey 0x04 (p * 6 + m.ctorIdx)
  | .slot n m => ctrKey 0x05 (n * 7 + m.ctorIdx)
  | .pipe k m => ctrKey 0x10 (k * 5 + m.ctorIdx)
  | .tile t m => ctrKey 0x11 (t * 8 + m.ctorIdx)
  | .mem i m => ctrKey 0x12 (i * 3 + m)
  | .link l m => ctrKey 0x13 (l * 7 + m.ctorIdx)
  | .module_ m => ctrKey 0x14 m.ctorIdx
  | .die d m => ctrKey 0x15 (d * 2 + m)
  | .vmargin r => ctrKey 0x16 r
  | .errors src => ctrKey 0x17 src
  | .fifo n => ctrKey 0x18 n

/-- The value of a counter key. -/
def State.cntAt (s : State) (k : Nat) : DWord := smGet 0 s.obs.cnt k

/-- Add to a counter, modulo 2^64. -/
def State.count (s : State) (c : Ctr) (n : Nat := 1) : State :=
  { s with obs := { s.obs with cnt := smMod 0 s.obs.cnt c.key (fun v => v + dw n) } }

/-- Count a drop of partition p. -/
def State.dropped (s : State) (p : Nat) (r : DropCtr) : State := s.count (.drop p r)

/-! ### Free values and fresh keys (log 9) -/

/-- Draw a free number below `n`. -/
def drawBelow (s : State) (n : Nat) : Nat × State := (Config.freeNat s.free % n, { s with free := s.free + 1 })

/-- Draw a free truth value. -/
def drawBool (s : State) : Bool × State := (Config.freeBool s.free, { s with free := s.free + 1 })

/-- Draw a fresh key: the name of the key that the generator of 12 R387 makes at this position. -/
def drawKey (s : State) : Nat × State := (s.free, { s with free := s.free + 1 })

/-- The key a listed 32-byte key string stands for: numbers above those that drawKey names. -/
def keyOfBytes (b : Bytes) : Nat := 2 ^ 64 + leNat b

/-! ### Sealing and opening (log 7) -/

/-- The AES-256-GCM ciphertext and tag. -/
def gcmSeal (key : Nat) (nonce aad plain : Bytes) : Bytes :=
  (List.range (plain.length + 16)).map (fun i => Config.gcmByte key nonce aad plain i)

/-- The entry of the opening book for a sealed message. -/
def openKey (key : Nat) (nonce aad ct : Bytes) : Bytes :=
  leBytes 49 key ++ leBytes 4 nonce.length ++ nonce ++ leBytes 4 aad.length ++ aad ++ ct

/-- The plaintext of a sealed message, when its tag verifies. -/
def gcmOpen (s : State) (key : Nat) (nonce aad ct : Bytes) : Option Bytes :=
  ((s.crypto.opens.find? (fun e => e.1 == openKey key nonce aad ct)).map (·.2))

/-- A key that the root-of-trust core derives from UDS under a label (12 R372): its name is the number of the 48 bytes of
HKDF-SHA-384, above the names of the listed keys (log 7). -/
def State.rotKey (s : State) (info : Bytes) : Nat :=
  2 ^ 384 + leNat (hkdf384 (leBytes 32 s.sys.fuses.uds.toNat) info 48)

/-- The running digest of an image kind. -/
def State.fwDigest (s : State) (k : Nat) : Bytes := leBytes 48 (nth {} s.sys.fw k).running.toNat

/-- The digests of the ROM and of the root-of-trust firmware. -/
def State.rotDigests (s : State) : Bytes := s.fwDigest 0 ++ s.fwDigest 1

/-- The three keys of 12 R372; only the attestation key takes the digests. -/
def State.identityKey (s : State) : Nat := s.rotKey (asciiBytes "xe8 identity")
def State.hpkeKey (s : State) : Nat := s.rotKey (asciiBytes "xe8 hpke")
def State.attestKey (s : State) : Nat := s.rotKey (asciiBytes "xe8 attest" ++ s.rotDigests)

/-- The plaintext of an HPKE message (12 R384): key, info and encapsulated key as the nonce. -/
def hpkeOpen (s : State) (info enc ct : Bytes) : Option Bytes := gcmOpen s s.hpkeKey (info ++ enc) [] ct

/-- A signature verifies (12 R385, 11 R360). -/
def sigVerifies (s : State) (pub msg sig : Bytes) : Bool :=
  s.crypto.verifies.contains (leBytes 4 pub.length ++ pub ++ leBytes 4 msg.length ++ msg ++ sig)

/-- A signature of 96 bytes by a key of the module. -/
def signBytes (key : Nat) (msg : Bytes) : Bytes := (List.range 96).map (fun i => Config.sigByte key msg i)

/-- The public half of a key of the module, uncompressed. -/
def publicKey (key : Nat) : Bytes := (List.range 97).map (fun i => Config.pubByte key i)

/-- The content that the module certifies at a start: certificate 3 carries the attestation key and both digests, certificate
4 the HPKE key; certificates 0 to 2 are older than any start (12 R373). -/
def certContent (s : State) : (i : Nat) → Bytes
  | 3 => publicKey s.attestKey ++ s.rotDigests
  | 4 => publicKey s.hpkeKey
  | _ => []

/-- Certificate `i` of the chain. The device identity key issues certificates 3 and 4. -/
def certificate (s : State) (i : Nat) : Bytes :=
  let x := certContent s i
  Config.certificate i x (if x = [] then [] else signBytes s.identityKey x)

/-- Certificates, each behind its length. -/
def certList (s : State) (n : Nat) : Bytes :=
  (List.range n).flatMap (fun i => leBytes 4 (certificate s i).length ++ certificate s i)

/-! ### Ownership (12 R375) -/

/-- The partition that owns port p: the tenant whose resource list holds it, else partition 0. -/
def State.portOwner (s : State) (p : Nat) : Nat :=
  ((s.parts.find? (fun e => decide (0 < e.1) && decide (e.2.state ≠ 0) && e.2.ports.getLsbD p)).map (·.1)).getD 0

def State.slotOwner (s : State) (n : Nat) : Nat :=
  ((s.parts.find? (fun e => decide (0 < e.1) && decide (e.2.state ≠ 0) && e.2.slots.getLsbD n)).map (·.1)).getD 0

def State.meterOwner (s : State) (m : Nat) : Nat :=
  ((s.parts.find? (fun e => decide (0 < e.1) && decide (e.2.state ≠ 0) && decide (e.2.meterFirst ≤ m)
    && decide (m < e.2.meterFirst + e.2.meterCount))).map (·.1)).getD 0

/-- The tenant whose ranges hold a physical page. -/
def State.pageTenant (s : State) (pg : Nat) : Option Nat :=
  (s.parts.find? (fun e => decide (0 < e.1) && decide (e.2.state ≠ 0)
    && e.2.ranges.any (fun r => decide (r.1 ≤ pg) && decide (pg < r.1 + r.2)))).map (·.1)

/-! ### HBM (01, 12 R376, 07 R215) -/

/-- Bytes of an HBM page. -/
def pageBytes : Nat := 2097152
/-- Pages of one stack (12 R376). -/
def stackPages : Nat := 18432
/-- Pages at the top of each stack that the platform region holds (12 R388; log 19). -/
def platformPages : Nat := 3084

/-- A physical page of the platform region. -/
def isPlatform (pg : Nat) : Bool := decide (stackPages - platformPages ≤ pg % stackPages)

/-- The physical page of a page of a tenant's virtual space: its ranges in order, without gaps (12 R376). -/
def rangePage : List (Nat × Nat) → Nat → Option Nat
  | [], _ => none
  | (f, n) :: r, v => if v < n then some (f + v) else rangePage r (v - n)

/-- The physical page of virtual page v of partition p. Partition 0's virtual pages are the physical pages that it
holds for general use, under their physical numbers (log 18). -/
def State.physPage (s : State) (p v : Nat) : Option Nat :=
  if p = 0 then
    if decide (v < 6 * stackPages) && !(isPlatform v) && (s.pageTenant v).isNone then some v else none
  else rangePage (s.part p).ranges v

/-- The permissions of a mapped page. -/
def State.pagePerm (s : State) (p v : Nat) : Page := smGet { writable := true, wp := false } s.pages (p * 2 ^ 27 + v)

/-- The physical address of a partition-virtual address. -/
def State.physAddr (s : State) (p a : Nat) : Option Nat :=
  (s.physPage p (a / pageBytes)).map (fun g => g * pageBytes + a % pageBytes)

/-- The virtual pages that `n` bytes from `a` on touch. -/
def pagesOf (a n : Nat) : List Nat :=
  if n = 0 then [] else (List.range ((a + n - 1) / pageBytes + 1 - a / pageBytes)).map (fun i => a / pageBytes + i)

/-- Every page of a span is mapped, and readable, or writable where a write is asked. -/
def State.spanOk (s : State) (p a n : Nat) (write : Bool) : Bool :=
  (pagesOf a n).all (fun v => (s.physPage p v).isSome && (if write then (s.pagePerm p v).writable else (s.pagePerm p v).readable))

/-- Some page of a span is WP. -/
def State.spanWp (s : State) (p a n : Nat) : Bool := (pagesOf a n).any (fun v => (s.pagePerm p v).wp)

/-- Read partition-virtual bytes; an unmapped byte reads zero (callers check first). -/
def State.hbmRead (s : State) (p a n : Nat) : Bytes :=
  (List.range n).map (fun i => match s.physAddr p (a + i) with | some x => memRead s.hbm x | none => 0)

/-- The physical addresses of a span, for the bytes that are mapped. -/
def hbmPut (s : State) (p : Nat) : (a : Nat) → Bytes → Mem → Mem
  | _, [], m => m
  | a, b :: bs, m =>
    hbmPut s p (a + 1) bs (match s.physAddr p a with | some x => memWrite m x b | none => m)

/-- The 64-byte HBM units (physical address ÷ 64) that a span touches. -/
def State.unitsOf (s : State) (p a n : Nat) : List Nat :=
  if n = 0 then []
  else ((List.range ((a + n - 1) / 64 + 1 - a / 64)).filterMap (fun i => s.physAddr p ((a / 64 + i) * 64))).map (· / 64)

/-- Some HBM unit of a span is poisoned (13 R401). -/
def State.hbmPoison (s : State) (p a n : Nat) : Bool := (s.unitsOf p a n).any (fun u => s.darn.poisonHbm.contains u)

/-- The units that a span covers whole: sound data written there clears their poison (13 R401). -/
def State.wholeUnits (s : State) (p a n : Nat) : List Nat :=
  ((List.range (n / 64 + 1)).filterMap (fun i =>
    let u := (ceilDiv a 64 + i) * 64
    if u + 64 ≤ a + n then s.physAddr p u else none)).map (· / 64)

/-- Count bytes of HBM traffic of a partition at the stack of an address (15 R454). -/
def countHbm (s : State) (p a n : Nat) (write : Bool) : State :=
  match s.physAddr p a with
  | none => s
  | some x => (s.count (.bytes p .hbm) n).count (.mem (x / (stackPages * pageBytes)) (b2n write)) n

/-- Bytes that move from one die to the other cross the bridge (15 R454). -/
def countBridge (from_ to_ n : Nat) (s : State) : State := if from_ = to_ then s else s.count (.die from_ 1) n

/-- The region of a physical page (12 R388). -/
def State.regionOf (s : State) (pg : Nat) : Nat :=
  match s.regions.find? (fun e => decide (1 < e.1) && decide (e.2.first ≤ pg) && decide (pg < e.2.first + e.2.pages)) with
  | some e => e.1
  | none => if isPlatform pg then 0 else 1

/-- The runs of 64-byte units that a span touches, page by page. -/
def State.unitRuns (s : State) (p a n : Nat) : List (Nat × Nat) :=
  (pagesOf a n).filterMap (fun v => (s.physPage p v).map (fun g =>
    let lo := g * pageBytes + (max a (v * pageBytes) - v * pageBytes)
    let hi := g * pageBytes + (min (a + n) ((v + 1) * pageBytes) - v * pageBytes)
    (lo / 64, (hi - 1) / 64 + 1 - lo / 64)))

/-- Some region is ROTATING at the page of a unit. -/
def State.unitRotates (s : State) (u : Nat) : Bool :=
  match smFind s.regions (s.regionOf (u * 64 / pageBytes)) with
  | some x => decide (x.state = 1)
  | none => false

/-- A write stores ACTIVE_SLOT in the epoch bits of the units that it touches (12 R387). Outside a rotation every bit names
ACTIVE_SLOT, so the model keeps the units written during one. -/
def State.noteEpoch (s : State) (runs : List (Nat × Nat)) : State :=
  if s.regions.all (fun e => decide (e.2.state ≠ 1)) then s
  else { s with epochNew := s.epochNew ++ runs.filter (fun r => s.unitRotates r.1 && !s.epochNew.contains r) }

/-- Write partition-virtual bytes, counting them; whole units written become sound. -/
def State.hbmWrite (s : State) (p a : Nat) (b : Bytes) : State :=
  let s := (countHbm s p a b.length true).noteEpoch (s.unitRuns p a b.length)
  { s with hbm := hbmPut s p a b s.hbm,
           darn := { s.darn with poisonHbm := s.darn.poisonHbm.filter (fun u => !(s.wholeUnits p a b.length).contains u) } }

/-! ### Host memory (02 R44, R56) -/

def State.hostRead (s : State) (a n : Nat) : Bytes := memReadN s.host a n
def State.hostWrite (s : State) (a : Nat) (b : Bytes) : State := { s with host := memWriteN s.host a b }

/-! ### Module-wide tests -/

/-- The node ID as reports give it: 0xffff when not joined (12 R393, 15 R469). -/
def State.nodeOr (s : State) : Nat := if s.fab.joined then s.fab.nodeId else 0xffff

/-- The die of a pipeline, tile or command processor group of 8 or 16 (01 R15). -/
def dieOfPipe (k : Nat) : Nat := k / 8

/-- A unit ID of 13 R418 is fenced. -/
def State.isFenced (s : State) (u : Nat) : Bool := s.darn.fenced.contains u
def pipeUnit (k : Nat) : Nat := 0x01 * 1024 + k
def reedUnit (i : Nat) : Nat := 0x02 * 1024 + i
def wickUnit (i : Nat) : Nat := 0x03 * 1024 + i
def tileUnit (t : Nat) : Nat := 0x04 * 1024 + t
def cpUnit (c : Nat) : Nat := 0x05 * 1024 + c
def laneUnit (i : Nat) : Nat := 0x06 * 1024 + i

/-- The pipelines in service. -/
def State.pipesUp (s : State) : List Nat := (List.range 16).filter (fun k => !(s.isFenced (pipeUnit k)))

/-- The module takes commands: its host link and command processors are up (14 R433, R434). -/
def Mode.hasHost : Mode → Bool
  | .off | .standby | .boot | .removing => false
  | .waitStart | .starting | .running | .stopped | .safe | .fatal => true

/-- The packet path, tiles and fabric run (14 R433). -/
def State.up (s : State) : Bool := decide (s.sys.mode = .running)

end Sys2Proof.Machine
end

