-- ==== Sys2Proof/Machine/Fields.lean ====
section
/-! DEFINITION. The configuration fields (16 R482 to R487): the catalogue with each field's IDs, class, bits, reset
value and writer, as the owning chapters' tables give them, and reading a field's value. -/

namespace Sys2Proof.Machine

/-- The fields of 16 R487. -/
inductive FName where
  | hbmRsvFloor | hbmTbRate | hbmTbBurst | hbmTbCap | portMode | portEn | portMaxFrame | portMacsec
  | portInbandEn | portGraph | portScanLen | portOutcomeAct | fragHoldTime | fragTimeout | fragHoldMax
  | fragQuota | lkEmWords | lkLrnWords | lkRuleWords | lkLpm | agePeriod | tblQuotaEm | tblQuotaLpm4
  | tblQuotaLpm6 | tblQuotaRule | lrnEn | lrnLimit | lrnExcess | flowEn | flowQuota | flowIdle | flowCloseIdle
  | ffCfg | entCfg | evCfg | evEveryN | evTimer | evFlag | holdCfg | flowSweep | placeCtrl | placePeriod
  | sketchKey | sketchEn | sketchClear | hhEntries | wkBudget | wkNodeQuota | wkThrCtrl | wkThrTarget
  | wkThrPeriod | wkThrSet | tileOwner | tileEn | tileScratch | tilePfDepth | tileShare | batchMax | batchWait
  | trainLr | trainMom | recircMax | epochCur | epochLive | slotState | mergeCfg | recircCfg | mtrColorSrc
  | hmpQuota | qCfg | qLimit | portVlateAct | portVinvAct | portDefQueue | portHostRing | portEgrOvh | gateEn
  | hmpSize | hmpHoldRsv | qSamplePeriod | grpCfg | mirror | fabNodeId | fabJoined | fabCredit | fabWeight
  | fabRekeyAt | fabGapTimeout | fabTimeSrc | fabJoinTimeout | fhLeaseMin | partEn | partCmdSeal
  | partPreserveOk | partState | rinseRate | darnTileWait | darnWatchdog | darnAuto | pwrLimit | tjLimit
  | tclkCtrl | tclkTarget | vloopCtrl | eqFreeze | lsrEn | lsrState | ppsCtrl | startJoin | traceMinNs
  | traceBudget | stopCtrl
  deriving DecidableEq, Repr

/-- When a write takes effect (00 R10): at the block's next enable, at the packet epoch, tile command, scheduler round
or gate cycle, at once; or not writable, or an action. -/
inductive FClass where
  | static | epoch | tile | round | gate | live | ro | wo
  deriving DecidableEq, Repr

/-- Who writes a field, or for an RO field who reads it beside partition 0 (16 R485): partition 0 only; the owner of
the port, of the port of eight outcomes, of the queue's or group's port, of the slot or sketch; the partition that the
instance numbers; that partition or partition 0. -/
inductive FWho where
  | p0 | port | port8 | queue | group | slot | sketch | part | p0part | ro0 | roPart | roSlot
  deriving DecidableEq, Repr

/-- A row of the catalogue: IDs base to base + count - 1. -/
structure FRow where
  name  : FName
  base  : Nat
  count : Nat
  cls   : FClass
  mask  : Nat
  reset : Nat
  who   : FWho
  deriving DecidableEq, Repr

/-- The row of each field. -/
def rowOf : FName → FRow
  | .hbmRsvFloor => ⟨.hbmRsvFloor, 0xc00, 1, .live, 0x3f, 32, .p0⟩
  | .hbmTbRate => ⟨.hbmTbRate, 0xc40, 64, .live, 0x1fff, 0, .p0⟩
  | .hbmTbBurst => ⟨.hbmTbBurst, 0xc80, 64, .live, 0xffff, 64, .p0⟩
  | .hbmTbCap => ⟨.hbmTbCap, 0xcc0, 64, .live, 0x1, 0, .p0⟩
  | .portMode => ⟨.portMode, 0x1000, 1, .static, 0x1, 0, .p0⟩
  | .portEn => ⟨.portEn, 0x1020, 32, .live, 0x1, 0, .port⟩
  | .portMaxFrame => ⟨.portMaxFrame, 0x1040, 32, .static, 0x3fff, 9216, .port⟩
  | .portMacsec => ⟨.portMacsec, 0x1060, 32, .static, 0x1, 0, .port⟩
  | .portInbandEn => ⟨.portInbandEn, 0x1080, 32, .live, 0x1, 0, .port⟩
  | .portGraph => ⟨.portGraph, 0x10a0, 32, .epoch, 0x7, 0, .port⟩
  | .portScanLen => ⟨.portScanLen, 0x10c0, 32, .live, 0x7ff, 1024, .port⟩
  | .portOutcomeAct => ⟨.portOutcomeAct, 0x10e0, 256, .live, 0x3, 0, .port8⟩
  | .fragHoldTime => ⟨.fragHoldTime, 0x11e0, 1, .live, 0xffff, 2000, .p0⟩
  | .fragTimeout => ⟨.fragTimeout, 0x11e1, 1, .live, 0x3ff, 30, .p0⟩
  | .fragHoldMax => ⟨.fragHoldMax, 0x11e2, 1, .live, 0x7f, 64, .p0⟩
  | .fragQuota => ⟨.fragQuota, 0x1200, 64, .live, 0x1ffff, 65536, .p0⟩
  | .lkEmWords => ⟨.lkEmWords, 0x1400, 64, .epoch, 0xffffffffffff, 0, .part⟩
  | .lkLrnWords => ⟨.lkLrnWords, 0x1440, 64, .epoch, 0xffffffffffff, 0, .part⟩
  | .lkRuleWords => ⟨.lkRuleWords, 0x1480, 64, .epoch, 0xffffffffffffffff, 0, .part⟩
  | .lkLpm => ⟨.lkLpm, 0x14c0, 64, .epoch, 0x33f, 20, .part⟩
  | .agePeriod => ⟨.agePeriod, 0x1500, 64, .live, 0xffff, 300, .part⟩
  | .tblQuotaEm => ⟨.tblQuotaEm, 0x1540, 64, .live, 0x1fffff, 1048576, .p0⟩
  | .tblQuotaLpm4 => ⟨.tblQuotaLpm4, 0x1580, 64, .live, 0x1fffff, 1048576, .p0⟩
  | .tblQuotaLpm6 => ⟨.tblQuotaLpm6, 0x15c0, 64, .live, 0xfffff, 524288, .p0⟩
  | .tblQuotaRule => ⟨.tblQuotaRule, 0x1600, 64, .live, 0x7ffff, 262144, .p0⟩
  | .lrnEn => ⟨.lrnEn, 0x1640, 32, .live, 0x1, 0, .port⟩
  | .lrnLimit => ⟨.lrnLimit, 0x1660, 32, .live, 0x1fffff, 4096, .port⟩
  | .lrnExcess => ⟨.lrnExcess, 0x1680, 32, .live, 0x1, 0, .port⟩
  | .flowEn => ⟨.flowEn, 0x1800, 64, .epoch, 0x1, 0, .part⟩
  | .flowQuota => ⟨.flowQuota, 0x1840, 64, .live, 0x1ffffff, 16777216, .p0⟩
  | .flowIdle => ⟨.flowIdle, 0x1880, 64, .live, 0xffff, 120, .part⟩
  | .flowCloseIdle => ⟨.flowCloseIdle, 0x18c0, 64, .live, 0xffff, 10, .part⟩
  | .ffCfg => ⟨.ffCfg, 0x1900, 64, .epoch, 0xffff, 0, .part⟩
  | .entCfg => ⟨.entCfg, 0x1940, 64, .epoch, 0x3f3f, 0, .part⟩
  | .evCfg => ⟨.evCfg, 0x1980, 64, .epoch, 0xfff, 0, .part⟩
  | .evEveryN => ⟨.evEveryN, 0x19c0, 64, .epoch, 0xffff, 1000, .part⟩
  | .evTimer => ⟨.evTimer, 0x1a00, 64, .live, 0xffff, 1000, .part⟩
  | .evFlag => ⟨.evFlag, 0x1a40, 64, .epoch, 0xffff, 0, .part⟩
  | .holdCfg => ⟨.holdCfg, 0x1a80, 64, .epoch, 0x3fffff, 0, .part⟩
  | .flowSweep => ⟨.flowSweep, 0x1ac0, 1, .live, 0x3fff, 1000, .p0⟩
  | .placeCtrl => ⟨.placeCtrl, 0x1ac1, 1, .live, 0xf7f01, 264705, .p0⟩
  | .placePeriod => ⟨.placePeriod, 0x1ac2, 1, .live, 0xffff, 1000, .p0⟩
  | .sketchKey => ⟨.sketchKey, 0x1b00, 4, .static, 0x13fffffffffffff, 0, .p0⟩
  | .sketchEn => ⟨.sketchEn, 0x1b08, 4, .live, 0x1, 0, .p0⟩
  | .sketchClear => ⟨.sketchClear, 0x1b10, 4, .wo, 0x1, 0, .sketch⟩
  | .hhEntries => ⟨.hhEntries, 0x1b40, 64, .live, 0x1fff, 64, .p0⟩
  | .wkBudget => ⟨.wkBudget, 0x1c00, 64, .epoch, 0xfff, 512, .part⟩
  | .wkNodeQuota => ⟨.wkNodeQuota, 0x1c40, 64, .live, 0x1fffff, 1572864, .p0⟩
  | .wkThrCtrl => ⟨.wkThrCtrl, 0x1d00, 256, .live, 0x3, 0, .slot⟩
  | .wkThrTarget => ⟨.wkThrTarget, 0x1e00, 256, .live, 0xfffff, 1000, .slot⟩
  | .wkThrPeriod => ⟨.wkThrPeriod, 0x1f00, 256, .live, 0x3fff, 100, .slot⟩
  | .wkThrSet => ⟨.wkThrSet, 0x2000, 256, .wo, 0xffffffffffffffff, 0, .slot⟩
  | .tileOwner => ⟨.tileOwner, 0x2400, 32, .tile, 0x7f, 64, .p0⟩
  | .tileEn => ⟨.tileEn, 0x2420, 32, .live, 0x1, 1, .p0⟩
  | .tileScratch => ⟨.tileScratch, 0x2440, 32, .static, 0x1f, 12, .p0⟩
  | .tilePfDepth => ⟨.tilePfDepth, 0x2460, 32, .live, 0x1ff, 64, .p0⟩
  | .tileShare => ⟨.tileShare, 0x2480, 64, .round, 0xff, 1, .p0⟩
  | .batchMax => ⟨.batchMax, 0x24c0, 256, .live, 0xff, 128, .slot⟩
  | .batchWait => ⟨.batchWait, 0x25c0, 256, .live, 0x7ff, 2000, .slot⟩
  | .trainLr => ⟨.trainLr, 0x2800, 256, .tile, 0xffffffff, 981668463, .slot⟩
  | .trainMom => ⟨.trainMom, 0x2900, 256, .tile, 0xffffffff, 1063675494, .slot⟩
  | .recircMax => ⟨.recircMax, 0x2a00, 64, .epoch, 0x7, 2, .part⟩
  | .epochCur => ⟨.epochCur, 0x2a40, 64, .ro, 0xffff, 0, .roPart⟩
  | .epochLive => ⟨.epochLive, 0x2a80, 64, .ro, 0x3, 1, .roPart⟩
  | .slotState => ⟨.slotState, 0x2b00, 256, .ro, 0xf3f07, 0, .roSlot⟩
  | .mergeCfg => ⟨.mergeCfg, 0x2c00, 64, .epoch, 0x1, 0, .part⟩
  | .recircCfg => ⟨.recircCfg, 0x2c40, 64, .epoch, 0xf3f, 0, .part⟩
  | .mtrColorSrc => ⟨.mtrColorSrc, 0x2c80, 64, .epoch, 0x7f, 0, .part⟩
  | .hmpQuota => ⟨.hmpQuota, 0x2cc0, 64, .live, 0xffff, 32768, .p0⟩
  | .qCfg => ⟨.qCfg, 0x3000, 4096, .round, 0x3ffff, 1024, .queue⟩
  | .qLimit => ⟨.qLimit, 0x4000, 4096, .live, 0xfffff, 1024, .queue⟩
  | .portVlateAct => ⟨.portVlateAct, 0x5000, 32, .live, 0x7, 0, .port⟩
  | .portVinvAct => ⟨.portVinvAct, 0x5020, 32, .live, 0x7, 0, .port⟩
  | .portDefQueue => ⟨.portDefQueue, 0x5040, 32, .live, 0x7f, 0, .port⟩
  | .portHostRing => ⟨.portHostRing, 0x5060, 32, .live, 0x7f, 0, .port⟩
  | .portEgrOvh => ⟨.portEgrOvh, 0x5080, 32, .round, 0xff, 20, .port⟩
  | .gateEn => ⟨.gateEn, 0x50a0, 32, .gate, 0x1, 0, .port⟩
  | .hmpSize => ⟨.hmpSize, 0x50c0, 1, .static, 0x3f, 16, .p0⟩
  | .hmpHoldRsv => ⟨.hmpHoldRsv, 0x50c1, 1, .live, 0x3f, 1, .p0⟩
  | .qSamplePeriod => ⟨.qSamplePeriod, 0x50c2, 1, .live, 0xffff, 10, .p0⟩
  | .grpCfg => ⟨.grpCfg, 0x5100, 512, .round, 0x7ff, 8, .group⟩
  | .mirror => ⟨.mirror, 0x5400, 64, .live, 0x1ffffffff, 0, .p0⟩
  | .fabNodeId => ⟨.fabNodeId, 0x6000, 1, .ro, 0x3fff, 0, .ro0⟩
  | .fabJoined => ⟨.fabJoined, 0x6001, 1, .ro, 0x1, 0, .ro0⟩
  | .fabCredit => ⟨.fabCredit, 0x6004, 3, .static, 0x1fff, 64, .p0⟩
  | .fabWeight => ⟨.fabWeight, 0x6009, 2, .live, 0xff, 1, .p0⟩
  | .fabRekeyAt => ⟨.fabRekeyAt, 0x600c, 1, .live, 0x3f, 47, .p0⟩
  | .fabGapTimeout => ⟨.fabGapTimeout, 0x600d, 1, .live, 0xffff, 100, .p0⟩
  | .fabTimeSrc => ⟨.fabTimeSrc, 0x600e, 1, .static, 0x1, 0, .p0⟩
  | .fabJoinTimeout => ⟨.fabJoinTimeout, 0x600f, 1, .live, 0x3fff, 5000, .p0⟩
  | .fhLeaseMin => ⟨.fhLeaseMin, 0x6010, 1, .live, 0xffff, 10, .p0⟩
  | .partEn => ⟨.partEn, 0x7000, 64, .live, 0x1, 0, .p0⟩
  | .partCmdSeal => ⟨.partCmdSeal, 0x7040, 64, .static, 0x1, 0, .p0part⟩
  | .partPreserveOk => ⟨.partPreserveOk, 0x7080, 64, .live, 0x1, 0, .part⟩
  | .partState => ⟨.partState, 0x70c0, 64, .ro, 0x7, 0, .roPart⟩
  | .rinseRate => ⟨.rinseRate, 0x7100, 1, .live, 0x3ff, 50, .p0⟩
  | .darnTileWait => ⟨.darnTileWait, 0x7400, 1, .live, 0xffff, 10000, .p0⟩
  | .darnWatchdog => ⟨.darnWatchdog, 0x7401, 1, .live, 0xffff, 1000, .p0⟩
  | .darnAuto => ⟨.darnAuto, 0x7402, 1, .live, 0x3, 3, .p0⟩
  | .pwrLimit => ⟨.pwrLimit, 0x7800, 1, .live, 0x7ff, 1450, .p0⟩
  | .tjLimit => ⟨.tjLimit, 0x7801, 1, .live, 0x7f, 95, .p0⟩
  | .tclkCtrl => ⟨.tclkCtrl, 0x7802, 1, .live, 0x11f1f, 4105, .p0⟩
  | .tclkTarget => ⟨.tclkTarget, 0x7803, 1, .ro, 0x1f, 9, .ro0⟩
  | .vloopCtrl => ⟨.vloopCtrl, 0x7804, 1, .live, 0x1, 0, .p0⟩
  | .eqFreeze => ⟨.eqFreeze, 0x7808, 12, .live, 0x1, 0, .p0⟩
  | .lsrEn => ⟨.lsrEn, 0x7818, 4, .live, 0x1, 1, .p0⟩
  | .lsrState => ⟨.lsrState, 0x781c, 4, .ro, 0xf, 0, .ro0⟩
  | .ppsCtrl => ⟨.ppsCtrl, 0x7820, 1, .live, 0x7ff, 400, .p0⟩
  | .startJoin => ⟨.startJoin, 0x7821, 1, .live, 0x1, 0, .p0⟩
  | .traceMinNs => ⟨.traceMinNs, 0x7c00, 64, .live, 0xffff, 100, .part⟩
  | .traceBudget => ⟨.traceBudget, 0x7c40, 1, .live, 0x1f, 30, .p0⟩
  | .stopCtrl => ⟨.stopCtrl, 0x7c41, 1, .live, 0xf, 8, .p0⟩

/-- Part 0 of the catalogue's names, by rising ID. -/
def fieldNames0 : List FName :=
  [.hbmRsvFloor, .hbmTbRate, .hbmTbBurst, .hbmTbCap, .portMode, .portEn, .portMaxFrame, .portMacsec,
   .portInbandEn, .portGraph, .portScanLen, .portOutcomeAct, .fragHoldTime, .fragTimeout, .fragHoldMax,
   .fragQuota, .lkEmWords, .lkLrnWords, .lkRuleWords, .lkLpm, .agePeriod, .tblQuotaEm, .tblQuotaLpm4,
   .tblQuotaLpm6, .tblQuotaRule, .lrnEn, .lrnLimit, .lrnExcess, .flowEn, .flowQuota]

/-- Part 1 of the catalogue's names, by rising ID. -/
def fieldNames1 : List FName :=
  [.flowIdle, .flowCloseIdle, .ffCfg, .entCfg, .evCfg, .evEveryN, .evTimer, .evFlag, .holdCfg, .flowSweep,
   .placeCtrl, .placePeriod, .sketchKey, .sketchEn, .sketchClear, .hhEntries, .wkBudget, .wkNodeQuota,
   .wkThrCtrl, .wkThrTarget, .wkThrPeriod, .wkThrSet, .tileOwner, .tileEn, .tileScratch, .tilePfDepth,
   .tileShare, .batchMax, .batchWait, .trainLr]

/-- Part 2 of the catalogue's names, by rising ID. -/
def fieldNames2 : List FName :=
  [.trainMom, .recircMax, .epochCur, .epochLive, .slotState, .mergeCfg, .recircCfg, .mtrColorSrc, .hmpQuota,
   .qCfg, .qLimit, .portVlateAct, .portVinvAct, .portDefQueue, .portHostRing, .portEgrOvh, .gateEn, .hmpSize,
   .hmpHoldRsv, .qSamplePeriod, .grpCfg, .mirror, .fabNodeId, .fabJoined, .fabCredit, .fabWeight, .fabRekeyAt,
   .fabGapTimeout, .fabTimeSrc, .fabJoinTimeout]

/-- Part 3 of the catalogue's names, by rising ID. -/
def fieldNames3 : List FName :=
  [.fhLeaseMin, .partEn, .partCmdSeal, .partPreserveOk, .partState, .rinseRate, .darnTileWait, .darnWatchdog,
   .darnAuto, .pwrLimit, .tjLimit, .tclkCtrl, .tclkTarget, .vloopCtrl, .eqFreeze, .lsrEn, .lsrState, .ppsCtrl,
   .startJoin, .traceMinNs, .traceBudget, .stopCtrl]

/-- The catalogue of fields, by rising ID. -/
def fieldRows : List FRow := (fieldNames0 ++ fieldNames1 ++ fieldNames2 ++ fieldNames3).map rowOf

/-- The field ID of an instance. -/
def fieldId (n : FName) (i : Nat) : Nat := (rowOf n).base + i

/-- The row and instance of a field ID, where it is defined; 0x10e0 + 8p + o is defined for o = 1 to 5 (03 R86). -/
def fieldAt (id : Nat) : Option (FRow × Nat) :=
  match fieldRows.find? (fun r => decide (r.base ≤ id) && decide (id < r.base + r.count)) with
  | none => none
  | some r =>
    let i := id - r.base
    if r.name = .portOutcomeAct ∧ (i % 8 = 0 ∨ 5 < i % 8) then none else some (r, i)

/-- The reset value of an instance: the table's, with the instances that differ (03 R103, 10 R341, 11 R370,
12 R399). -/
def fieldReset (r : FRow) (i : Nat) : Nat :=
  match r.name with
  | .portOutcomeAct => if i % 8 = 2 ∨ i % 8 = 4 ∨ i % 8 = 5 then 1 else 0
  | .qCfg => i % 8 + 1 * 2 ^ 10
  | .fabCredit => nth 0 [64, 768, 1792] i
  | .partEn => if i = 0 then 1 else 0
  | .partState => if i = 0 then 2 else 0
  | _ => r.reset

/-- The stored value of a field: the value most recently written, else its reset value (00 R12). -/
def State.fval (s : State) (n : FName) (i : Nat := 0) : Nat :=
  let r := rowOf n
  match smFind s.fields.val (r.base + i) with
  | some v => v.toNat
  | none => fieldReset r i

/-- The value in force of a STATIC field, or of one with a tile-command, round or gate-cycle boundary (00 R10, R13). -/
def State.fact (s : State) (n : FName) (i : Nat := 0) : Nat :=
  let r := rowOf n
  match smFind s.fields.act (r.base + i) with
  | some v => v.toNat
  | none => fieldReset r i

/-- The value of a packet-epoch field that an epoch fixes (09 R290). -/
def Epoch.fval (e : Epoch) (n : FName) (i : Nat) : Nat :=
  let r := rowOf n
  match smFind e.prof (r.base + i) with
  | some v => v.toNat
  | none => fieldReset r i

/-- The value of a field most recently written before the present PKCLK cycle, which a boundary on this cycle takes:
a write on the boundary's own cycle waits for the next one (00 R11). -/
def State.fvalBefore (s : State) (n : FName) (i : Nat) : Nat :=
  match smFind s.fields.last (fieldId n i) with
  | some (k, v) => if k = s.clk.pk then v.toNat else s.fval n i
  | none => s.fval n i

/-- Store a field's value; a SHADOWED one keeps what it had before the present PKCLK cycle. -/
def State.setField (s : State) (n : FName) (i v : Nat) : State :=
  let id := fieldId n i
  let last := if (rowOf n).cls = .tile ∨ (rowOf n).cls = .round ∨ (rowOf n).cls = .gate then smSet s.fields.last id (s.clk.pk, dw (s.fvalBefore n i)) else s.fields.last
  { s with fields := { s.fields with val := smSet s.fields.val id (dw v), last := last } }

/-- A command of a source writes a field: the value before the present PKCLK cycle is kept (16 R486). -/
def State.noteWrite (src id old : Nat) (s : State) : State :=
  let e := match smFind s.fields.wrote id with
    | some (k, o, v) => if k = s.clk.pk then (k, (if o = src then o else 256), v) else (s.clk.pk, src, dw old)
    | none => (s.clk.pk, src, dw old)
  { s with fields := { s.fields with wrote := smSet s.fields.wrote id e } }

/-- Put a field's value in force. -/
def State.setAct (s : State) (n : FName) (i v : Nat) : State :=
  { s with fields := { s.fields with act := smSet s.fields.act (fieldId n i) (dw v) } }

/-- Put a field's most recently written value in force: at its block's enable, or where its block is at a boundary
throughout (00 R13, 01 R26). -/
def State.takeStored (s : State) (n : FName) (i : Nat) : State := s.setAct n i (s.fval n i)

/-- A boundary of a SHADOWED field: the last write before this PKCLK cycle takes effect (00 R11). -/
def State.takeShadow (s : State) (n : FName) (i : Nat) : State := s.setAct n i (s.fvalBefore n i)

/-- A boundary of every field of one name that has been written. -/
def State.takeShadows (s : State) (n : FName) : State :=
  let r := rowOf n
  let ids := (s.fields.val.filter (fun e => decide (r.base ≤ e.1) && decide (e.1 < r.base + r.count))).map (·.1)
  ids.foldl (fun s id => s.takeShadow n (id - r.base)) s

/-- The ports of the mode in force (03 R86). -/
def State.portCount (s : State) : Nat := if s.fact .portMode = 0 then 32 else 16

/-- Port p is enabled. -/
def State.portEn (s : State) (p : Nat) : Bool := decide (s.fval .portEn p = 1)

/-- Some port is enabled. -/
def State.anyPortEn (s : State) : Bool := (List.range 32).any (fun p => s.portEn p)

/-- The links of a module state word: FIELD values that the status fields report (16 R487). -/
def slotStateWord (s : State) (i : Nat) : Nat :=
  let x := s.slot i
  if x.state = 0 then 0 else x.state + s.slotOwner i * 2 ^ 8 + x.kind * 2 ^ 16 + b2n x.trainable * 2 ^ 18 + b2n x.wp * 2 ^ 19

/-- LSR_STATE[c] (14 R453). -/
def laserWord (x : Laser) : Nat := b2n x.present + 2 * b2n x.on + 4 * b2n x.locked + 8 * b2n x.fault

/-- The value that FIELD_READ returns: an RO field's status, zero for a WO field (16 R484), else the value most
recently written (00 R12). -/
def State.readField (s : State) (r : FRow) (i : Nat) : Nat :=
  match r.name with
  | .epochCur => (s.curEpoch i).num
  | .epochLive => (s.eps i).length
  | .slotState => slotStateWord s i
  | .fabNodeId => s.fab.nodeId
  | .fabJoined => b2n s.fab.joined
  | .partState => (s.part i).state
  | .tclkTarget => s.clk.target
  | .lsrState => laserWord (s.laser i)
  | _ => if r.cls = .wo then 0 else s.fval r.name i

/-- The value that a FIELD_READ of a source returns: on the cycle of another source's write, the value from before that cycle
(16 R486). -/
def State.readFieldBy (s : State) (src : Nat) (r : FRow) (i : Nat) : Nat :=
  match smFind s.fields.wrote (r.base + i) with
  | some (k, o, v) => if r.cls ≠ .ro ∧ r.cls ≠ .wo ∧ k = s.clk.pk ∧ o ≠ src then v.toNat else s.readField r i
  | none => s.readField r i

end Sys2Proof.Machine
end

