-- ==== Sys2Proof/Machine/Flags.lean ====
section
/-! DEFINITION. The status words of the XE8: ring states and offsets (02 R45, R46), DEVSTAT and the ring summary
(16 R476), status codes of replies (02 R63). -/

namespace Sys2Proof.Machine

/-- STATUS codes (02 R63). -/
inductive Status where
  | ok | busy | retry | refusedLocked | noPermission | badOpcode | badParam | badLength | aborted | timeout
  | tableRebuildActive | epochLimit | keyRotatePending | scaleSeqMismatch | dataPoisoned | notReady | integrityFail
  | authFail | rangeFault | capacity
  deriving DecidableEq, Repr

/-- The value of each code. -/
def Status.code : Status → Nat
  | .ok => 0x00 | .busy => 0x01 | .retry => 0x02 | .refusedLocked => 0x03 | .noPermission => 0x04
  | .badOpcode => 0x05 | .badParam => 0x06 | .badLength => 0x07 | .aborted => 0x08 | .timeout => 0x09
  | .tableRebuildActive => 0x0a | .epochLimit => 0x0b | .keyRotatePending => 0x0c | .scaleSeqMismatch => 0x0d
  | .dataPoisoned => 0x0e | .notReady => 0x10 | .integrityFail => 0x11 | .authFail => 0x12 | .rangeFault => 0x13
  | .capacity => 0x14

/-- Module state codes (14 R433). -/
def Mode.code : Mode → Nat
  | .off => 0 | .standby => 1 | .boot => 2 | .waitStart => 3 | .starting => 4 | .running => 5 | .stopped => 6
  | .safe => 7 | .fatal => 8 | .removing => 9

/-- The distance from offset a to offset b, modulo 2^32 (02 R45). -/
def dist (a b : Word) : Nat := (b - a).toNat

def Ring.crSize (r : Ring) : Nat := 2 ^ r.crSizeLog
def Ring.rpSize (r : Ring) : Nat := 2 ^ r.rpSizeLog

/-- The bytes of the largest reply (02 R49). -/
def maxReply : Nat := 4128

/-- Bytes free in the reply ring. -/
def Ring.replyFree (r : Ring) : Nat := r.rpSize - dist r.rpHead r.rpWrite

/-- The reply ring has room for one more command (02 R49). -/
def Ring.hasSpace (r : Ring) : Bool := decide (maxReply * r.inFlight.length + maxReply ≤ r.replyFree)

/-- RING_STATUS.STATE (02 R46, R48, R489). -/
def Ring.state (r : Ring) : Nat :=
  if r.halted then 2 else if !r.en then 0 else if r.fencedCp then 4 else if !r.hasSpace then 3 else 1

/-- A ring's bit of RING_PEND: RP_WRITE ≠ RP_HEAD (16 R476). -/
def Ring.pend (r : Ring) : Bool := decide (r.rpWrite ≠ r.rpHead)

/-- RING_PEND_LO and RING_PEND_HI as one value. -/
def State.ringPend (s : State) : Nat :=
  (List.range 64).foldl (fun a n => a + b2n (s.ring n).pend * 2 ^ n) 0

/-- The bit as a read of PKCLK count `pk` returns it: on the cycle of a change the earlier value (16 R477). -/
def Ring.pendRead (pk : Nat) (r : Ring) : Bool := if r.pendAt = some pk then r.pendOld else r.pend

/-- The ring's bit may change on PKCLK count `pk`: what it was before that cycle is kept. -/
def Ring.keepPend (pk : Nat) (r : Ring) : Ring :=
  if r.pendAt = some pk then r else { r with pendAt := some pk, pendOld := r.pend }

/-- RING_PEND_LO and RING_PEND_HI as a read returns them. -/
def State.ringPendRead (s : State) : Nat :=
  (List.range 64).foldl (fun a n => a + b2n ((s.ring n).pendRead s.clk.pk) * 2 ^ n) 0

/-- UPDATE_PENDING (12 R394). -/
def State.updatePending (s : State) : Bool := s.sys.fw.any (fun c => decide (c.state ≠ 0))

/-- DEVSTAT with its bit REPLY_PENDING (16 R476). -/
def State.devstatWith (s : State) (pending : Bool) : Word :=
  w32 (s.sys.mode.code
    + b2n (decide (s.sys.mode = .safe)) * 2 ^ 4
    + b2n (decide (s.sys.mode = .fatal)) * 2 ^ 5
    + b2n pending * 2 ^ 6
    + b2n (decide ((smGet {} s.darn.logs 0).recs ≠ [])) * 2 ^ 7
    + b2n (s.rings.any (fun e => e.2.halted)) * 2 ^ 8
    + b2n s.sys.ringRefused * 2 ^ 9
    + b2n s.updatePending * 2 ^ 10
    + s.sys.stopCause.toNat * 2 ^ 12)

/-- DEVSTAT as it stands, and as a read returns it (16 R477). -/
def State.devstat (s : State) : Word := s.devstatWith (s.rings.any (fun e => e.2.pend))
def State.devstatRead (s : State) : Word := s.devstatWith (s.rings.any (fun e => e.2.pendRead s.clk.pk))

/-- RING_STATUS (02 R46). -/
def Ring.status (r : Ring) : Word :=
  w32 (r.state + b2n r.tailFault * 2 ^ 8 + b2n r.genFull * 2 ^ 9 + r.part % 64 * 2 ^ 16)

/-- RING_CTRL as it reads (02 R46): RESET reads zero. -/
def Ring.ctrl (r : Ring) : Word := w32 (b2n r.en + 2 * b2n r.crLoc + 4 * b2n r.rpLoc)

/-- The first failing check of a list (02 R62): a condition that fails, and its status. -/
def firstFail : List (Bool × Status) → Option Status
  | [] => none
  | (b, st) :: r => if b then some st else firstFail r

/-! ### The trace bucket (15 R463) -/

/-- The bucket as it stands now: 64 KiB, refilled at so many thousandths of 7,200 GB/s, in tenths of a byte. -/
def traceTokens (s : State) (rate : Nat) : Nat := min 655360 (s.obs.budget + (s.clk.pk - s.obs.budgetAt) * 45 * rate)

/-- The bucket is brought up to the present cycle. -/
def settleTrace (rate : Nat) (s : State) : State :=
  { s with obs := { s.obs with budget := traceTokens s rate, budgetAt := s.clk.pk } }

end Sys2Proof.Machine
end

