-- ==== Sys2Proof/Machine/Trace.lean ====
section
/-! DEFINITION. Writing trace records (15 R461 to R463). -/

namespace Sys2Proof.Machine

/-- The trace configuration of a partition. -/
def State.trace (s : State) (p : Nat) : Trace := smGet {} s.obs.traces p
def State.setTrace (s : State) (p : Nat) (t : Trace) : State :=
  { s with obs := { s.obs with traces := smSet s.obs.traces p t } }

/-- A wait as a record reports it (15 R461). -/
structure Wait where
  unit    : Nat
  partner : Nat
  layer   : Half
  oper    : Half
  kind    : Nat
  since   : DWord
  command : DWord
  deriving DecidableEq, Repr

/-- The 32 bytes of a record. -/
def traceBytes (p : Nat) (w : Wait) (now : DWord) : Bytes :=
  leBytes 8 now.toNat ++ leBytes 2 w.unit ++ leBytes 2 w.partner ++ leBytes 2 w.layer.toNat ++ leBytes 2 w.oper.toNat
    ++ leBytes 1 w.kind ++ leBytes 1 (p % 64) ++ zeros 2 ++ leBytes 4 (min (now - w.since).toNat (2 ^ 32 - 1))
    ++ leBytes 8 w.command.toNat

/-- The unread records at the end of a ring that carry the same TIME and a higher UNIT (15 R462). -/
def laterRecs (s : State) (p addr size : Nat) (time unit : Nat) : (fuel pos : Nat) → Nat
  | 0, _ => 0
  | n + 1, pos =>
    let b := s.hbmRead p (addr + (pos - 32) % size) 10
    if uAt b 0 8 = time ∧ unit < uAt b 8 2 then 1 + laterRecs s p addr size time unit n (pos - 32) else 0

/-- Move a ring's last `n` records up by one place: a record of the same TIME and a lower UNIT goes before them. -/
def shiftRecs (p addr size : Nat) : (n pos : Nat) → State → State
  | 0, _, s => s
  | n + 1, pos, s =>
    let b := s.hbmRead p (addr + (pos - 32) % size) 32
    shiftRecs p addr size n (pos - 32) { s with hbm := hbmPut s p (addr + pos % size) b s.hbm }

/-- A wait of a partition ends: it is recorded where its kind is traced and it was long enough. -/
def traceWait (p : Nat) (w : Wait) (s : State) : State :=
  let t := s.trace p
  if !t.mask.getLsbD w.kind || decide ((s.now - w.since).toNat < s.fval .traceMinNs p) || decide (t.size = 0) then s
  else
    let k := traceTokens s (s.fval .traceBudget)
    let s := settleTrace (s.fval .traceBudget) s
    if k < 320 then s.count (.bytes p .traceThrottled)
    else if t.size ≤ t.write - t.read then s.count (.bytes p .traceLost)
    else
      let s := { s with obs := { s.obs with budget := k - 320 } }
      let n := laterRecs s p t.addr.toNat t.size s.now.toNat w.unit ((t.write - t.read) / 32) t.write
      let s := shiftRecs p t.addr.toNat t.size n t.write s
      let s := s.hbmWrite p (t.addr.toNat + (t.write - 32 * n) % t.size) (traceBytes p w s.now)
      (s.setTrace p { t with write := t.write + 32 }).count (.bytes p .traceRecords)

end Sys2Proof.Machine
end

