-- ==== Sys2Proof/Machine/Reply.lean ====
section
/-! DEFINITION. Running a command and writing its reply (02 R49 to R63, R65, R67, R70, R77): the frame that every
command's meaning shares. -/

namespace Sys2Proof

/-! ### Flags of the header (02 R59) -/

def CmdCtx.unordered (c : CmdCtx) : Bool := c.flags.getLsbD 0
def CmdCtx.fence (c : CmdCtx) : Bool := c.flags.getLsbD 1
def CmdCtx.waitDrain (c : CmdCtx) : Bool := c.flags.getLsbD 2
def CmdCtx.mirror (c : CmdCtx) : Bool := c.flags.getLsbD 3
def CmdCtx.preserve (c : CmdCtx) : Bool := c.flags.getLsbD 4
def CmdCtx.profile (c : CmdCtx) : Bool := c.flags.getLsbD 5

/-- The number of a source in a command ID (02 R58). -/
def Src.code : Src → Nat
  | .ring n => n % 64
  | .inband p _ _ => 0x80 + p % 64

end Sys2Proof

namespace Sys2Proof.Machine

/-! ### Entries in flight -/

/-- The entries of a source. -/
def State.flight (s : State) (x : Src) : List InFlight :=
  match x with
  | .ring n => (s.ring n).inFlight
  | .inband p _ _ => (s.part p).ibFlight

def State.setFlight (s : State) (x : Src) (l : List InFlight) : State :=
  match x with
  | .ring n => s.modRing n (fun r => { r with inFlight := l, movedAt := s.now })
  | .inband p _ _ => s.modPart p (fun q => { q with ibFlight := l })

/-- The command ID of SEQ on a source, with the source's present wrap count (02 R58). -/
def State.commandId (s : State) (x : Src) (seq : Word) : DWord :=
  let w := match x with | .ring n => (s.ring n).wraps | .inband p _ _ => (s.part p).ibWraps
  dw (x.code * 2 ^ 56 + w % 2 ^ 24 * 2 ^ 32 + seq.toNat)

/-- The entry of a command that has not replied. -/
def isOpen (c : CmdCtx) (e : InFlight) : Bool := decide (e.ctx = c) && e.reply.isNone

def State.entryOf (s : State) (c : CmdCtx) : Option InFlight := (s.flight c.src).find? (isOpen c)

/-- The command ID of a command in flight. -/
def State.idOf (s : State) (c : CmdCtx) : DWord :=
  match s.entryOf c with | some e => e.id | none => s.commandId c.src c.seq

/-! ### Reply bytes (02 R53 to R55) -/

/-- The 32-byte header with word 7 as given. -/
def headerBytes (opc status rflags : Nat) (c : CmdCtx) (len : Nat) (time crc : Word) : Bytes :=
  leBytes 4 (2 ^ 28 + opc % 4096 * 2 ^ 16 + status % 256 * 2 ^ 8 + rflags % 256) ++ leBytes 4 c.seq.toNat
    ++ leBytes 4 (c.part % 64 * 2 ^ 26 + len % 65536) ++ leBytes 4 (c.layer.toNat * 2 ^ 16 + c.oper.toNat)
    ++ leBytes 8 c.tag.toNat ++ leBytes 4 time.toNat ++ leBytes 4 crc.toNat

/-- The plain payload: the prefix of 02 R55, then the opcode's payload in whole 8-byte units. -/
def replyPayload (r : Reply) : Bytes := leBytes 8 r.ft.toNat ++ leBytes 8 r.order.toNat ++ pad8 r.body

/-- Header and payload of a reply, sealed with the entry's key and nonce where it has one (02 R65). -/
def replyBytes (e : InFlight) (r : Reply) : Bytes :=
  let plain := replyPayload r
  let h := fun (len : Nat) (crc : Word) => headerBytes e.opc r.status r.rflags e.ctx len (r.ft.setWidth 32) crc
  let len := (match e.sealKey with | some _ => plain.length + 16 | none => plain.length) / 8
  let pay := match e.sealKey with | some (k, nonce) => gcmSeal k nonce (h len 0) plain | none => plain
  h len (crc32c (h len 0 ++ pay)) ++ pay

/-- Write bytes into a ring from an offset on, wrapping at its size (02 R44, R45). -/
def ringPut (s : State) (loc : Bool) (part base size : Nat) (off : Word) (b : Bytes) : State :=
  let pos := off.toNat % size
  let b1 := b.take (size - pos)
  let b2 := b.drop (size - pos)
  if loc then (s.hbmWrite part (base + pos) b1).hbmWrite part base b2
  else (s.hostWrite (base + pos) b1).hostWrite base b2

/-- Read bytes of a ring from an offset on. -/
def ringGet (s : State) (loc : Bool) (part base size : Nat) (off : Word) (n : Nat) : Bytes :=
  let pos := off.toNat % size
  let n1 := min n (size - pos)
  if loc then s.hbmRead part (base + pos) n1 ++ s.hbmRead part base (n - n1)
  else s.hostRead (base + pos) n1 ++ s.hostRead base (n - n1)

/-- The reply-head word (02 R50). -/
def replyHeadWord (r : Ring) : Nat := r.rpWrite.toNat + r.rpCount.toNat * 2 ^ 32 + r.state * 2 ^ 48

/-- Write a reply into ring n: its slots, RP_WRITE and RP_COUNT, then the reply-head word (02 R50, R51, R489). -/
def ringReply (n : Nat) (b : Bytes) (s : State) : State :=
  let r := s.ring n
  let slots := ceilDiv b.length 32 * 32
  let s := ringPut s r.rpLoc r.part r.rpBase.toNat r.rpSize r.rpWrite (fitTo slots b)
  let r' := { (s.ring n).keepPend s.clk.pk with rpWrite := r.rpWrite + w32 slots, rpCount := r.rpCount + 1 }
  let s := s.setRing n r'
  if r.rhwAddr = 0 then s else s.hostWrite r.rhwAddr.toNat (leBytes 8 (replyHeadWord r'))

/-- Send an in-band reply on the command's port to its source, under the key with which the command came (02 R67,
12 R386). -/
def inbandReply (p port : Nat) (mac : Bytes) (key : Nat) (b : Bytes) (s : State) : State :=
  let q := s.part p
  let seq := q.ibOwn.toNat % 2 ^ 63 + 2 ^ 63
  let aad : Bytes := [1, BitVec.ofNat 8 p, 0, 0] ++ leBytes 8 seq
  let body := aad ++ gcmSeal key (leBytes 4 0x40000000 ++ leBytes 8 seq) aad b
  let frame := fitTo 6 mac ++ (List.range 6).map (Config.portMac port) ++ beBytes 2 0x88b5 ++ body
  let s := s.setPart p { q with ibOwn := q.ibOwn + 1 }
  { s with egr := { s.egr with inbandTx := s.egr.inbandTx ++ [(port, frame ++ leBytes 4 (crc32eth frame).toNat)] } }

/-! ### Profiles (15 R459) -/

/-- A command sent with PROFILE takes a profile entry when it starts: a free one, or the oldest complete one
(log 22). -/
def takeProfile (c : CmdCtx) (s : State) : State :=
  match c.src with
  | .inband _ _ _ => s
  | .ring n =>
    if !c.profile then s
    else s.modRing n (fun r =>
      let e : Profile := { id := s.idOf c, complete := false, layer := c.layer, oper := c.oper, begin_ := s.now,
                           end_ := 0, counts := List.replicate 16 0, before := List.replicate 16 0, cycle := s.clk.pk / 4 }
      if r.profiles.length < 16 then { r with profiles := r.profiles ++ [e] }
      else if r.profiles.any (fun p => p.complete) then
        { r with profiles := delFirst (fun p => p.complete) r.profiles ++ [e] }
      else r)

/-- The profile of a command ends as its reply is written: COMPLETE and the end time (15 R459, R460). -/
def endProfile (x : InFlight) (s : State) : State :=
  match x.ctx.src with
  | .inband _ _ _ => s
  | .ring n =>
    if !x.ctx.profile then s
    else
      let mine : Profile → Bool := fun p => decide (p.id = x.id) && !p.complete
      s.modRing n (fun r => { r with
        profiles := updFirst mine (fun p => { p with complete := true, end_ := s.now, doneAt := some (s.clk.pk / 4) }) r.profiles })

/-- The counters of which a profile's counts are shares: of the tiles, of the stacks and of the fabric (15 R460). -/
def profileSums (p : Nat) (s : State) : List DWord :=
  let tiles := fun (m : TileCtr) => ((List.range 32).map (fun t => s.cntAt (Ctr.tile t m).key)).foldl (· + ·) 0
  let hbm := (List.range 6).map (fun k => s.cntAt (Ctr.mem k 0).key + s.cntAt (Ctr.mem k 1).key)
  [tiles .busy, tiles .tmemBytes, tiles .cacheHit, tiles .cacheMiss] ++ hbm
    ++ [s.cntAt (Ctr.bytes p .fabricTx).key, s.cntAt (Ctr.bytes p .fabricRx).key, tiles .hazardWait, 0, tiles .tagMiss,
        tiles .tlbMiss]

/-- Add counts to the profile entry of a command, which may have ended on the same row. -/
def addCounts (c : CmdCtx) (id : DWord) (d : List DWord) (s : State) : State :=
  match c.profile, c.src with
  | true, .ring r =>
    let now := s.clk.pk / 4
    let add : Profile → Profile := fun p => { p with
      counts := List.zipWith (· + ·) p.counts d, before := if p.cycle = now then p.before else p.counts, cycle := now }
    s.modRing r (fun x => { x with profiles := updFirst (fun p => decide (p.id = id)) add x.profiles })
  | _, _ => s

/-- What a unit has done for a command between two states goes to the command's profile (15 R459). -/
def profileOf (c : CmdCtx) (before after : State) : State :=
  if c.profile then
    addCounts c (before.idOf c) (List.zipWith (· - ·) (profileSums c.part after) (profileSums c.part before)) after
  else after

/-- Work for a command, with its profile. -/
def profiled (c : CmdCtx) (f : State → State) (s : State) : State := profileOf c s (f s)

/-- The cycles in which a command's array waited for a stream. -/
def profileStream (c : CmdCtx) (n : Nat) (s : State) : State :=
  addCounts c (s.idOf c) (setNth (List.replicate 16 0) 13 (dw n)) s

/-! ### Order of replies (02 R70) -/

/-- The first entry whose reply may be written: the oldest entry, or an UNORDERED one with no unreplied FENCE command
before it. -/
def takeReady (first fence : Bool) : List InFlight → Option (InFlight × Reply × List InFlight)
  | [] => none
  | e :: r =>
    match e.reply, first || (e.ctx.unordered && !fence) with
    | some x, true => some (e, x, r)
    | _, _ => (takeReady false (fence || e.ctx.fence) r).map (fun (y, x, q) => (y, x, e :: q))

/-- Write every reply of a source that may be written now. -/
def flushReplies (x : Src) : (fuel : Nat) → State → State
  | 0, s => s
  | k + 1, s =>
    match takeReady true false (s.flight x) with
    | none => s
    | some (e, r, rest) =>
      let s := endProfile e (s.setFlight x rest)
      let b := replyBytes e r
      flushReplies x k (match e.ctx.src with
        | .ring n => ringReply n b s
        | .inband p port mac => inbandReply p port mac e.ibKey b s)

/-! ### Starting and finishing a command -/

/-- A wait of a command itself, as a record reports it: UNIT is its command processor, PARTNER its ring (15 R461; log 36). -/
def cmdWait (c : CmdCtx) (since : DWord) (s : State) : Wait :=
  { unit := cpUnit (c.src.code % 4), partner := match c.src with | .ring n => n | .inband _ _ _ => 0xffff, layer := c.layer,
    oper := c.oper, kind := 7, since := since, command := s.idOf c }

/-- A command's wait under FENCE is over as it starts: its trace record. -/
def fenceEnds (c : CmdCtx) (s : State) : State :=
  match (s.entryOf c).bind (·.fetched) with
  | some t => traceWait c.part (cmdWait c t s)
      (s.setFlight c.src (updFirst (isOpen c) (fun e => { e with fetched := none }) (s.flight c.src)))
  | none => s

/-- A command's wait under WAIT_DRAIN is over as it goes on or ends: its trace record. -/
def drainEnds (c : CmdCtx) (s : State) : State :=
  match (s.entryOf c).bind (·.drainAt) with
  | some t => traceWait c.part (cmdWait c t s)
      (s.setFlight c.src (updFirst (isOpen c) (fun e => { e with drainAt := none }) (s.flight c.src)))
  | none => s

/-- A command starts: its entry, made where it was not fetched from a ring, holds it no longer (02 R49, R60). -/
def beginCmd (c : CmdCtx) (opc : Nat) (s : State) : State :=
  let ep := (s.curEpoch c.part).num
  let l := s.flight c.src
  let l := if l.any (isOpen c) then updFirst (isOpen c) (fun e => { e with cmd := none, epoch0 := if e.waitFrom.isSome then e.epoch0 else ep }) l
    else l ++ [{ ctx := c, opc := opc, id := s.commandId c.src c.seq, epoch0 := ep }]
  let again := match s.entryOf c with | some e => e.waitFrom.isSome | none => false
  let s := fenceEnds c (s.setFlight c.src l)
  if again then s else takeProfile c s

/-- A command has finished: its reply takes its place in the order of its source (02 R55, R60, R70). A command that
has replied already gets no second reply. EPOCH_CHANGED is set where the newest epoch of the partition at the end is not
that at the start, whatever the command did between, and never by EPOCH_COMMIT and TABLE_COMMIT for their own commit
(DESIGN CHOICE, log 100). -/
def finish (c : CmdCtx) (st : Status) (body : Bytes := []) (order : DWord := 0) (rflags : Nat := 0) (s : State) : State :=
  match s.entryOf c with
  | none => s
  | some e =>
    let s := drainEnds c s
    let changed := if (s.curEpoch c.part).num = e.epoch0 ∨ e.opc = 0x310 ∨ e.opc = 0x104 then 0 else 4
    let r : Reply := { status := st.code, rflags := rflags + changed, ft := s.now, order := order, body := body }
    let l := updFirst (isOpen c) (fun e => { e with cmd := none, waitFrom := none, reply := some r }) (s.flight c.src)
    flushReplies c.src l.length (s.setFlight c.src l)

/-- The command waits (02 R61, R67): its entry holds it again, and keeps the time at which its wait began. -/
def waitCmd (c : CmdCtx) (i : Instr) (s : State) : State :=
  s.setFlight c.src (updFirst (isOpen c)
    (fun e => { e with cmd := some i, waitFrom := some (e.waitFrom.getD s.now) }) (s.flight c.src))

/-- A command waits under WAIT_DRAIN (02 R59). -/
def drainCmd (c : CmdCtx) (i : Instr) (s : State) : State :=
  s.setFlight c.src (updFirst (isOpen c) (fun e => { e with
    cmd := some i, waitFrom := some (e.waitFrom.getD s.now), drainAt := some (e.drainAt.getD s.now) }) (s.flight c.src))

/-- A command of an opcode has been accepted and waits for the rest of the module: a START or a SHUTDOWN (14 R443, R451). -/
def heldCmd (s : State) (opc : Nat) : Bool :=
  let held : InFlight → Bool := fun e => decide (e.opc = opc) && e.reply.isNone && e.mark.isSome
  s.rings.any (fun r => r.2.inFlight.any held) || s.parts.any (fun p => p.2.ibFlight.any held)

/-- The opcodes that run in SAFE, WAIT_START and STOPPED (02 R79). -/
def r79 (opc : Nat) : Bool := [0x001, 0x002, 0x003, 0x010, 0x040, 0x041, 0x630, 0x631, 0x800].contains opc

/-- The commands that need the root-of-trust core (12 R374). -/
def needsCore (opc : Nat) : Bool :=
  [0x630, 0x631, 0x300, 0x620, 0x610, 0x611, 0x600, 0x601, 0x602].contains opc

/-- Whether an opcode may run in the present module state (02 R79, 13 R415, 15 R467, 12 R374). -/
def stateGate (c : CmdCtx) (opc : Nat) (s : State) : Option Status :=
  let run := match s.sys.mode with
    | .running => true
    | .waitStart | .stopped | .safe => r79 opc
    | .fatal => r79 opc || opc == 0x730 || opc == 0x731
    | _ => false
  if !run then some .notReady
  else if s.sys.rotBusy && (needsCore opc || (match s.entryOf c with | some e => e.sealKey.isSome | none => false))
  then some .retry
  else none

/-- A status that steps 6 to 9 of 02 R62 give; any other is decided at step 10, behind the module state. -/
def Status.early (st : Status) : Bool :=
  match st with
  | .noPermission | .badOpcode | .badParam | .badLength => true
  | _ => false

/-- The status of a command that a check refuses: a check of step 10 comes behind the module state (02 R62, R79). -/
def refusal (c : CmdCtx) (opc : Nat) (s : State) (st : Status) : Status :=
  if st.early then st else (stateGate c opc s).getD st

/-- The shared form of a command (02 R62 steps 6 to 10): permission and parameter checks, then whether the opcode may
run in the present module state, then its work, which replies. Without a host link no command arrives (14 R434). Permission
on a resource that a parameter names is checked here, behind steps 7 and 8, since the parameter is read then (DEDUCED,
log 101). -/
def runCmd (c : CmdCtx) (opc : Nat) (check : State → Option Status) (work : State → State) (s : State) : State :=
  if !s.sys.mode.hasHost then s
  else
    let s := beginCmd c opc s
    match check s with
    | some st => finish c (refusal c opc s st) [] 0 0 s
    | none =>
      match stateGate c opc s with
      | some st => finish c st [] 0 0 s
      | none => work s

/-- The check of an opcode that only partition 0 may issue (02 R77). -/
def p0Only (c : CmdCtx) : Bool × Status := (decide (c.part ≠ 0), .noPermission)

/-- Every command in flight of a source that a test picks completes with ABORTED (02 R75). -/
def abortWhere (p : InFlight → Bool) (x : Src) (s : State) : State :=
  ((s.flight x).filter (fun e => e.reply.isNone && p e)).foldl (fun s e => finish e.ctx .aborted [] 0 0 s) s

/-! ### Buffers (02 R56) -/

/-- A BREF's 16 bytes. -/
def brefAt (b : Bytes) (off : Nat) : Bref :=
  { addr := dw (uAt b off 8), size := uAt b (off + 8) 4, loc := uAt b (off + 12) 1, dir := uAt b (off + 13) 1 }

/-- The bytes of a BREF. -/
def brefBytes (b : Bref) : Bytes := leBytes 8 b.addr.toNat ++ leBytes 4 b.size ++ leBytes 1 b.loc ++ leBytes 1 b.dir ++ [0, 0]

/-- A BREF that the command may use in direction `dir`: DIR and LOC defined, and LOC 1 for an in-band command
(02 R56, R67). -/
def brefForm (c : CmdCtx) (b : Bref) (dir : Nat) : Bool :=
  decide (b.dir = dir) && decide (b.loc ≤ 1)
    && (match c.src with | .inband _ _ _ => decide (b.loc = 1) | .ring _ => true)

/-- The status of a BREF whose first `n` bytes the command reaches: an HBM buffer must be mapped, writable where it is
written, and not weight-protected (02 R63, 07 R215; log 23), and HBM is up only in RUNNING (02 R79). -/
def brefStatus (c : CmdCtx) (b : Bref) (dir n : Nat) (s : State) : Option Status :=
  firstFail [(!brefForm c b dir, .badParam),
    (decide (b.loc = 1) && !s.up, .notReady),
    (decide (b.loc = 1) && !s.spanOk c.part b.addr.toNat n (dir == 1), .rangeFault),
    (decide (b.loc = 1) && s.spanWp c.part b.addr.toNat n, .noPermission)]

/-- Read `n` bytes of a BREF. -/
def brefRead (c : CmdCtx) (b : Bref) (n : Nat) (s : State) : Bytes :=
  if b.loc = 1 then s.hbmRead c.part b.addr.toNat n else s.hostRead b.addr.toNat n

/-- The traffic of reading `n` bytes of a BREF. -/
def brefCharge (c : CmdCtx) (b : Bref) (n : Nat) (s : State) : State :=
  if b.loc = 1 then profiled c (fun s => countHbm s c.part b.addr.toNat n false) s else s

/-- Write bytes to a BREF. -/
def brefWrite (c : CmdCtx) (b : Bref) (x : Bytes) (s : State) : State :=
  if b.loc = 1 then profiled c (fun s => s.hbmWrite c.part b.addr.toNat x) s else s.hostWrite b.addr.toNat x

end Sys2Proof.Machine
end

