-- ==== Sys2Proof/Machine/TileMem.lean ====
section
/-! DEFINITION. Tensor addresses (07 R214), tile memory with its line tags (07 R210, R211), and reading and writing
tensor bytes in a tile's scratch or in the partition's HBM, with the poison marks of 13 R401. -/

namespace Sys2Proof.Machine

/-! ### Addresses (07 R214) -/

/-- A tile-local address. -/
def isTileAddr (a : Nat) : Bool := a.testBit 63
/-- The tile of a tile-local address. -/
def tileOfAddr (a : Nat) : Nat := bitsOf a 60 56
/-- The bits that an address does not use are 0. -/
def addrGood (a : Nat) : Bool :=
  if isTileAddr a then decide (bitsOf a 62 61 = 0 ∧ bitsOf a 55 22 = 0) else decide (bitsOf a 62 48 = 0)
/-- The offset in its scratch, or the partition-virtual address. -/
def addrOff (a : Nat) : Nat := if isTileAddr a then a % 2 ^ 22 else a % 2 ^ 48
/-- The address at a distance. -/
def addrPlus (a : Nat) (x : Int) : Nat := ((a : Int) + x).toNat

/-- The bytes of tile t that are scratch (07 R244). -/
def State.scratchBytes (s : State) (t : Nat) : Nat := s.fact .tileScratch t * 262144

/-- Tile t is dedicated to partition p (07 R235). -/
def State.tileMine (s : State) (p t : Nat) : Bool := decide (s.fact .tileOwner t = p)
/-- Tile t is a member of the shared pool. -/
def State.tilePool (s : State) (t : Nat) : Bool := (s.fact .tileOwner t).testBit 6

/-- A tile runs a command, or one that its present owner has issued to it by number waits for it (07 R235). -/
def tileHeld (s : State) (t : Nat) : Bool :=
  s.tiles.cmds.any (fun c => decide (c.state = 1 ∧ c.tile = t)
    || (decide (c.state = 0 ∧ uAt c.bytes 2 1 = t) && c.xfer.isNone && s.tileMine c.part t))

/-- The owner that was written takes effect where the tile is at a command boundary (07 R235). -/
def ownerDue (t : Nat) (s : State) : State := if tileHeld s t then s else s.takeShadow .tileOwner t

/-- The owners of all tiles that are at a boundary. -/
def ownersDue (s : State) : State := (List.range 32).foldl (fun s t => ownerDue t s) s

/-! ### Tile memory (07 R210, R211) -/

def State.tline (s : State) (k : Nat) : Line := smGet {} s.tiles.lines k
/-- The key of the line that holds a tile byte. -/
def lineKey (t off : Nat) : Nat := t * 32768 + off / 128
/-- The key of a tile byte. -/
def tbyteKey (t off : Nat) : Nat := t * 2 ^ 22 + off

/-- One byte of tile memory as a partition reads it: zero in a line tagged with another partition. -/
def tileByte (s : State) (p t off : Nat) : Byte :=
  if (s.tline (lineKey t off)).part = p then memRead s.tiles.mem (tbyteKey t off) else 0

/-- The WP bit of a line after a write: a model's own list keeps the mark of its partition's line. -/
def wpAfter (own : Bool) (p : Nat) (l : Line) : Bool := own && l.wp && decide (l.part = p)

/-- Write one byte of tile memory: the line takes the writer's tag, and what another partition left in it becomes
zero. -/
def tilePut (p : Nat) (own : Bool) (t off : Nat) (b : Byte) (s : State) : State :=
  let k := lineKey t off
  let l := s.tline k
  let m := if l.part = p then s.tiles.mem else memClear s.tiles.mem (k * 128) (k * 128 + 128)
  let l' : Line := { part := p, wp := wpAfter own p l, poison := l.poison && decide (l.part = p) }
  { s with tiles := { s.tiles with mem := memWrite m (tbyteKey t off) b, lines := smSet s.tiles.lines k l' } }

def tilePutN (p : Nat) (own : Bool) (t : Nat) : (off : Nat) → Bytes → State → State
  | _, [], s => s
  | off, b :: bs, s => tilePutN p own t (off + 1) bs (tilePut p own t off b s)

/-! ### Tensor bytes -/

/-- `n` bytes at a tensor address. -/
def tread (s : State) (p a n : Nat) : Bytes :=
  if isTileAddr a then (List.range n).map (fun i => tileByte s p (tileOfAddr a) (addrOff a + i))
  else s.hbmRead p a n

/-- A little-endian number at a tensor address. -/
def treadNat (s : State) (p a n : Nat) : Nat := leNat (tread s p a n)

/-- The lines of tile memory that `n` bytes touch. -/
def linesOf (a n : Nat) : List Nat :=
  if n = 0 ∨ ¬ isTileAddr a then []
  else
    let k := lineKey (tileOfAddr a) (addrOff a)
    (List.range (lineKey (tileOfAddr a) (addrOff a + n - 1) + 1 - k)).map (k + ·)

/-- The lines of a span that another partition tags. -/
def foreignLines (s : State) (p a n : Nat) : List Nat := (linesOf a n).filter (fun k => decide ((s.tline k).part ≠ p))

/-- Some byte of a span is poisoned. -/
def tpoison (s : State) (p a n : Nat) : Bool :=
  if isTileAddr a then (linesOf a n).any (fun k => (s.tline k).poison && decide ((s.tline k).part = p))
  else s.hbmPoison p a n

/-- A write: its address, its bytes, and the mark of poisoned data. -/
structure TWrite where
  addr   : Nat
  bytes  : Bytes
  poison : Bool
  deriving DecidableEq, Repr

/-- Store the bytes of one write. -/
def twrite1 (p : Nat) (own : Bool) (w : TWrite) (s : State) : State :=
  if isTileAddr w.addr then tilePutN p own (tileOfAddr w.addr) (addrOff w.addr) w.bytes s
  else
    let s := (countHbm s p w.addr w.bytes.length true).noteEpoch (s.unitRuns p w.addr w.bytes.length)
    { s with hbm := hbmPut s p w.addr w.bytes s.hbm }

/-- The lines (tile true) or 64-byte HBM units that one write touches. -/
def TWrite.units (w : TWrite) (s : State) (p : Nat) (tile : Bool) : List Nat :=
  if isTileAddr w.addr then (if tile then linesOf w.addr w.bytes.length else [])
  else (if tile then [] else s.unitsOf p w.addr w.bytes.length)

/-- The key of each byte that a write stores: a tile byte's key, or its physical address. -/
def TWrite.keys (w : TWrite) (s : State) (p : Nat) (tile : Bool) : List Nat :=
  if isTileAddr w.addr then
    (if tile then (List.range w.bytes.length).map (fun i => tbyteKey (tileOfAddr w.addr) (addrOff w.addr) + i) else [])
  else (if tile then [] else (List.range w.bytes.length).filterMap (fun i => s.physAddr p (w.addr + i)))

/-- Writes cover every byte of the unit `u` of `n` bytes. -/
def coversUnit (ws : List TWrite) (s : State) (p : Nat) (tile : Bool) (u n : Nat) : Bool :=
  let l := (ws.flatMap (fun w => w.keys s p tile)).filter (fun k => decide (k / n = u))
  decide (l.eraseDups.length = n)

/-- Set the poison marks after a list of writes (13 R401): poisoned data marks what it touches, and sound data that
covers a marked unit whole clears it. -/
def markPoison (p : Nat) (ws : List TWrite) (s : State) : State :=
  let badL := (ws.filter (·.poison)).flatMap (fun w => w.units s p true)
  let badU := ((ws.filter (·.poison)).flatMap (fun w => w.units s p false)).eraseDups
  let lines := s.tiles.lines.map (fun e =>
    if badL.contains e.1 then (e.1, { e.2 with poison := true })
    else if e.2.poison && coversUnit ws s p true e.1 128 then (e.1, { e.2 with poison := false })
    else e)
  let hbm := s.darn.poisonHbm.filter (fun u => !badU.contains u && !coversUnit ws s p false u 64) ++ badU
  { s with tiles := { s.tiles with lines := lines }, darn := { s.darn with poisonHbm := hbm } }

/-- Store a list of writes in order. -/
def twrites (p : Nat) (own : Bool) (ws : List TWrite) (s : State) : State :=
  markPoison p ws (ws.foldl (fun s w => twrite1 p own w s) s)

end Sys2Proof.Machine
end

