-- ==== Sys2Proof/Machine/Stream.lean ====
section
/-! DEFINITION. Stream descriptors (07 R217 to R227, 08 R248 to R252): their fields and checks, the walk, the layouts,
byte addresses, codebooks and footprints. -/

namespace Sys2Proof.Machine

/-! ### Fields (07 R217) -/

/-- A stream descriptor. `rsv` says that its Reserved bytes are 0. -/
structure Desc where
  base      : Nat
  op        : Nat
  ndim      : Nat
  fmt       : Nat
  layout    : Nat
  smode     : Nat
  imode     : Nat
  idim      : Nat
  perm      : List Nat
  size      : List Nat
  stride    : List Int
  padB      : List Nat
  padA      : List Nat
  padV      : Nat
  extBase   : Nat
  extSize   : Nat
  ilim      : Nat
  scaleBase : Nat
  cbAddr    : Nat
  idxBase   : Nat
  rsv       : Bool
  deriving DecidableEq, Repr

/-- Read a descriptor. -/
def descOf (b : Bytes) : Desc :=
  { base := uAt b 0 8, op := uAt b 8 1, ndim := uAt b 9 1, fmt := uAt b 10 1, layout := uAt b 11 1, smode := uAt b 12 1,
    imode := uAt b 13 1, idim := uAt b 14 1, perm := (List.range 5).map (fun i => uAt b (16 + i) 1),
    size := (List.range 5).map (fun d => uAt b (24 + 8 * d) 4), stride := (List.range 5).map (fun d => sAt b (28 + 8 * d) 4),
    padB := (List.range 5).map (fun d => uAt b (64 + 2 * d) 2), padA := (List.range 5).map (fun d => uAt b (74 + 2 * d) 2),
    padV := uAt b 84 4, extBase := uAt b 88 8, extSize := uAt b 96 4, ilim := uAt b 100 4, scaleBase := uAt b 104 8,
    cbAddr := uAt b 112 8, idxBase := uAt b 120 8, rsv := rsvZero b 15 1 && rsvZero b 21 3 }

/-- WRITE, SCATTER and SCATTER_ADD write. -/
def Desc.writes (d : Desc) : Bool := decide (d.op = 1 ∨ d.op = 3 ∨ d.op = 4)
/-- GATHER, SCATTER and SCATTER_ADD are indexed. -/
def Desc.indexed (d : Desc) : Bool := decide (2 ≤ d.op)

def Desc.sz (d : Desc) (x : Nat) : Nat := nth 1 d.size x
def Desc.st (d : Desc) (x : Nat) : Int := nth 0 d.stride x
def Desc.pb (d : Desc) (x : Nat) : Nat := nth 0 d.padB x
def Desc.pa (d : Desc) (x : Nat) : Nat := nth 0 d.padA x
def Desc.pm (d : Desc) (x : Nat) : Nat := nth 0 d.perm x

/-! ### Formats (07 R218, 08 R245, R248, R249) -/

/-- The bits of a format; 0 for an undefined code. -/
def fmtBits (f : Nat) : Nat :=
  match f with
  | 0x00 | 0x01 | 0x02 | 0x09 => 8
  | 0x03 => 16
  | 0x04 | 0x05 => 32
  | 0x08 => 4
  | 0x10 => 3
  | 0x11 | 0x1a => 4
  | 0x12 => 5
  | 0x13 | 0x18 | 0x19 => 6
  | _ => 0

/-- CB4 or CB8. -/
def isCb (f : Nat) : Bool := decide (f = 0x08 ∨ f = 0x09)

/-- The SCALE_MODE that a format allows (08 R248). -/
def scaleOk (f m : Nat) : Bool :=
  if 0x10 ≤ f then decide (m = 1 ∨ m = 2) else if f = 3 ∨ f = 4 ∨ f = 5 then decide (m = 0) else decide (m ≤ 2)

/-- A record format (07 R218). -/
def Desc.record (d : Desc) : Bool := decide (0x10 ≤ d.fmt ∨ d.smode = 1)

/-- Payload bytes of a block record (08 R249). -/
def recBytes (f : Nat) : Nat := 4 * fmtBits f

/-- The header of a super-block: with a side list where the codebook escapes. -/
def sbHead (esc : Bool) : Nat := if esc then 136 else 8

/-- The bytes of a super-block. -/
def sbBytes (f : Nat) (esc : Bool) : Nat := sbHead esc + 64 * (1 + recBytes f)

/-! ### Codebooks (08 R252) -/

/-- A codebook record. -/
structure Codebook where
  kind    : Nat
  efmt    : Nat
  esc     : Bool
  scale   : Nat
  rsv     : Bool
  entries : Bytes
  deriving DecidableEq, Repr

/-- The bytes of the codebook of a format. -/
def cbSize (f : Nat) : Nat := 16 + 2 ^ fmtBits f

/-- Read the codebook that a descriptor names; the empty one where its format has none. -/
def readCb (s : State) (p : Nat) (d : Desc) : Codebook :=
  if isCb d.fmt then
    let b := tread s p d.cbAddr (cbSize d.fmt)
    { kind := uAt b 0 1, efmt := uAt b 1 1, esc := (byteAt b 2).getLsbD 0, scale := uAt b 4 4,
      rsv := decide (uAt b 2 1 ≤ 1) && rsvZero b 3 1 && rsvZero b 8 8, entries := b.drop 16 }
  else { kind := 0, efmt := 0, esc := false, scale := 0, rsv := true, entries := [] }

/-- A codebook that fits its descriptor. -/
def cbOk (d : Desc) (c : Codebook) : Bool :=
  !isCb d.fmt || (decide (c.kind = d.fmt - 8 ∧ c.efmt ≤ 2) && c.rsv && (!c.esc || decide (d.smode = 1)))

/-! ### The walk (07 R220) -/

/-- The extent of the walk along a dimension. -/
def Desc.ext (d : Desc) (x : Nat) : Nat := d.pb x + d.sz x + d.pa x

/-- The positions of the walk. -/
def Desc.total (d : Desc) : Nat := d.ext 0 * d.ext 1 * d.ext 2 * d.ext 3 * d.ext 4

/-- The data positions of the walk. -/
def Desc.dataCount (d : Desc) : Nat := d.sz 0 * d.sz 1 * d.sz 2 * d.sz 3 * d.sz 4

/-- The digits of a walk position, innermost dimension first. -/
def digits (k : Nat) : List Nat → List Nat
  | [] => []
  | e :: r => k % e :: digits (k / e) r

/-- The position of step k of the walk, by dimension. -/
def Desc.pos (d : Desc) (k : Nat) : List Nat :=
  let ds := digits k ((List.range 5).map (fun j => d.ext (d.pm j)))
  (List.range 5).map (fun x => nth 0 ds (d.perm.idxOf x))

/-- The index of a data position; none at a padding position. -/
def Desc.idxAt (d : Desc) (pos : List Nat) : Option (List Nat) :=
  if (List.range 5).all (fun x => decide (d.pb x ≤ nth 0 pos x) && decide (nth 0 pos x < d.pb x + d.sz x)) then
    some ((List.range 5).map (fun x => nth 0 pos x - d.pb x))
  else none

/-- The size of the tensor along a dimension: INDEX_LIMIT along INDEX_DIM (07 R217, R223; log 31). -/
def Desc.dim (d : Desc) (x : Nat) : Nat := if d.indexed && decide (x = d.idim) then d.ilim else d.sz x

/-- The element offset of an index (07 R219). -/
def Desc.elemOff (d : Desc) (i : List Nat) : Int :=
  let g := fun x => nth 0 i x
  let tail := fun (lo : Nat) => ((List.range 5).filter (fun x => decide (lo ≤ x))).foldl
    (fun (a : Int) x => a + (g x : Int) * d.st x) 0
  match d.layout with
  | 0 => tail 0
  | 1 => (((g 0 / 128) * d.dim 1 + g 1) * 128 + g 0 % 128 : Nat) + tail 2
  | _ => (((g 0 / 128) * ceilDiv (d.dim 1) 128 + g 1 / 128) * 16384 + (g 0 % 128) / 4 * 512 + g 1 % 128 * 4 + g 0 % 4 : Nat)
      + tail 2

/-- Where a step of the walk lies: a padding position, an index that does not resolve, or an element offset. -/
inductive El where
  | pad
  | oor
  | at_ (e : Int)
  deriving DecidableEq, Repr

/-- Resolve an index (07 R226). -/
def resolveIndex (d : Desc) (raw : Int) : Option Nat :=
  let i := if d.imode = 1 ∧ raw < 0 then raw + d.ilim else raw
  if i < 0 ∨ (d.ilim : Int) ≤ i then none else some i.toNat

/-- The index stream (07 R225). -/
def readIndexes (s : State) (p : Nat) (d : Desc) : List Int :=
  if d.indexed then
    let n := d.sz d.idim
    let b := tread s p d.idxBase (4 * n)
    (List.range n).map (fun k => sAt b (4 * k) 4)
  else []

/-- Step k of the walk. -/
def Desc.el (d : Desc) (raws : List Int) (k : Nat) : El :=
  match d.idxAt (d.pos k) with
  | none => .pad
  | some i =>
    if d.indexed then
      match resolveIndex d (nth 0 raws (nth 0 i d.idim)) with
      | none => .oor
      | some j => .at_ (d.elemOff (setNth i d.idim j))
    else .at_ (d.elemOff i)

/-- The whole walk. -/
def Desc.walk (d : Desc) (raws : List Int) : List El := (List.range d.total).map (d.el raws)

/-! ### Checks on the fields alone (07 R217, R218, R222, R224, R227, 08 R248, R251) -/

/-- Dimensions below NDIM are sized and permuted among themselves, the others are unused. -/
def dimsOk (d : Desc) : Bool :=
  (List.range 5).all (fun x =>
    if x < d.ndim then decide (1 ≤ d.sz x) && decide (d.pm x < d.ndim)
    else decide (d.sz x = 1 ∧ d.st x = 0 ∧ d.pb x = 0 ∧ d.pa x = 0 ∧ d.pm x = x))
    && noRepeats d.perm

/-- Fields that the operation or the format does not use are 0, and those that it uses are in range. -/
def usedOk (d : Desc) : Bool :=
  (if d.writes then decide (d.extSize ≠ 0 ∧ d.smode ≠ 2) else decide (d.extBase = 0 ∧ d.extSize = 0))
    && (if d.indexed then decide (d.imode ≤ 1 ∧ d.idim < d.ndim ∧ 1 ≤ d.ilim)
        else decide (d.imode = 0 ∧ d.idim = 0 ∧ d.ilim = 0 ∧ d.idxBase = 0))
    && (decide (d.smode = 2) || decide (d.scaleBase = 0)) && (isCb d.fmt || decide (d.cbAddr = 0))
    && (if d.record then decide (d.padV = 0) else decide (d.padV < 2 ^ fmtBits d.fmt))

/-- The form of a descriptor. -/
def formOk (d : Desc) : Bool :=
  d.rsv && decide (d.op ≤ 4 ∧ 1 ≤ d.ndim ∧ d.ndim ≤ 5 ∧ fmtBits d.fmt ≠ 0 ∧ d.layout ≤ 2 ∧ d.smode ≤ 2)
    && scaleOk d.fmt d.smode && dimsOk d && usedOk d
    && (decide (d.layout = 0) || decide (2 ≤ d.ndim ∧ d.st 0 = 0 ∧ d.st 1 = 0))
    && (decide (d.op ≠ 4) || decide (d.fmt = 4 ∨ d.fmt = 5))
    && (decide (d.pm 0 = 0) || !(decide (fmtBits d.fmt = 32) || d.record || decide (d.fmt = 8 ∧ d.smode = 0)))

/-! ### Runs (07 R218, 08 R251) -/

/-- The elements that must stay together: a block record, a super-block where one is written, a byte of CB4. -/
def Desc.runLen (d : Desc) : Nat :=
  if d.record then (if d.writes && decide (d.smode = 1) then 2048 else 32)
  else if d.fmt = 8 ∧ d.smode = 0 then 2 else 1

/-- The walk with every index 0, an index that always resolves: what the descriptor alone says of its runs. -/
def Desc.plainWalk (d : Desc) : List El := d.walk (List.replicate (d.sz d.idim) 0)

/-- A list of steps is one aligned run of n elements, or n padding positions. -/
def isRun (n : Nat) (l : List El) : Bool :=
  match l.head? with
  | some (.at_ e) => decide (e % n = 0) && (List.range n).all (fun k => decide (l[k]? = some (.at_ (e + k))))
  | _ => decide (l.length = n) && l.all (fun x => decide (x = .pad))

/-- A list in groups of n. -/
def groups {α : Type} (n : Nat) : (fuel : Nat) → List α → List (List α)
  | 0, _ => []
  | k + 1, l => if l.isEmpty then [] else l.take n :: groups n k (l.drop n)

/-- The position along INDEX_DIM of each data position of the walk. -/
def Desc.slices (d : Desc) : List Nat :=
  (List.range d.total).filterMap (fun k => (d.idxAt (d.pos k)).map (fun i => nth 0 i d.idim))

/-- The indexed dimension stays constant within a run of n, and a step along it moves by whole runs. -/
def indexRunsOk (n : Nat) (d : Desc) : Bool :=
  !d.indexed ||
    ((groups n d.total d.slices).all (fun g => g.all (fun x => decide (x = g.headD 0)))
      && decide (d.elemOff ((List.range 5).map (fun x => if x = d.idim then 1 else 0)) % n = 0))

/-- The data positions of a walk form aligned runs of n. -/
def dataRuns (n : Nat) (d : Desc) : Bool :=
  (groups n d.total (d.plainWalk.filter (fun x => decide (x ≠ .pad)))).all (isRun n) && indexRunsOk n d

/-- Every position of a walk, padding too, belongs to a whole run of n. -/
def wholeRuns (n : Nat) (d : Desc) : Bool := (groups n d.total d.plainWalk).all (isRun n) && indexRunsOk n d

/-- The walk touches whole records, super-blocks or bytes: a record format has its padding in whole records too, and CB4
where the padding is stored. -/
def runsOk (d : Desc) : Bool :=
  decide (d.runLen = 1) ||
    (dataRuns d.runLen d && (!d.record || (groups 32 d.total d.plainWalk).all (isRun 32))
      && (!(decide (d.runLen = 2) && d.writes) || wholeRuns 2 d))

/-! ### Byte addresses and footprints (07 R219, R222, R223, 08 R250) -/

/-- The least and the greatest element offset of the data positions. -/
def Desc.lohi (d : Desc) : Int × Int :=
  let from_ := match d.layout with | 0 => 0 | _ => 2
  let span := fun (f : Int → Int → Int) => ((List.range 5).filter (fun x => decide (from_ ≤ x))).foldl
    (fun (a : Int) x => a + f 0 (((d.dim x : Int) - 1) * d.st x)) 0
  let top := match d.layout with
    | 0 => 0
    | _ => d.elemOff [d.dim 0 - 1, d.dim 1 - 1, 0, 0, 0]
  (span min, top + span max)

/-- Offsets of the bytes of a super-block format: super-block, block record. -/
def sbStart (d : Desc) (esc : Bool) (e : Nat) : Nat := e / 2048 * sbBytes d.fmt esc
def recStart (d : Desc) (esc : Bool) (e : Nat) : Nat :=
  sbStart d esc e + sbHead esc + e % 2048 / 32 * (1 + recBytes d.fmt)

/-- The byte offsets from BASE that elements lo to hi span, the end excluded. -/
def byteSpan (d : Desc) (esc : Bool) (lo hi : Int) : Int × Int :=
  if d.smode = 1 then (sbStart d esc lo.toNat, (recStart d esc hi.toNat + 1 + recBytes d.fmt : Nat))
  else if 0x10 ≤ d.fmt then ((lo.toNat / 32 * recBytes d.fmt : Nat), ((hi.toNat / 32 + 1) * recBytes d.fmt : Nat))
  else if d.fmt = 8 then (Int.fdiv lo 2, Int.fdiv hi 2 + 1)
  else (lo * (fmtBits d.fmt / 8 : Nat), (hi + 1) * (fmtBits d.fmt / 8 : Nat))

/-- A footprint: a byte range of HBM or of one tile's scratch. -/
structure Foot where
  tile  : Option Nat
  lo    : Int
  hi    : Int
  write : Bool
  good  : Bool
  deriving DecidableEq, Repr

/-- The footprint of bytes lo to hi - 1 from an address. -/
def footAt (a : Nat) (lo hi : Int) (write : Bool) : Foot :=
  { tile := if isTileAddr a then some (tileOfAddr a) else none, lo := (addrOff a : Int) + lo, hi := (addrOff a : Int) + hi,
    write := write, good := addrGood a }

/-- Two footprints overlap. -/
def Foot.meets (a b : Foot) : Bool := decide (a.tile = b.tile) && decide (a.lo < b.hi) && decide (b.lo < a.hi)

/-- One list of footprints must wait for another: a write meets anything, or anything meets a write. -/
def hazard (mine theirs : List Foot) : Bool :=
  mine.any (fun a => theirs.any (fun b => (a.write || b.write) && a.meets b))

/-- The bytes of the data positions. -/
def Desc.dataFoot (d : Desc) (esc : Bool) : Foot :=
  let r := byteSpan d esc d.lohi.1 d.lohi.2
  footAt d.base r.1 r.2 d.writes

/-- The footprints of a descriptor. -/
def Desc.feet (d : Desc) (esc : Bool) : List Foot :=
  let b := Int.fdiv d.lohi.1 32
  let e := Int.fdiv d.lohi.2 32
  [if d.writes then footAt d.extBase 0 d.extSize true else d.dataFoot esc]
    ++ (if d.smode = 2 then [footAt d.scaleBase (Int.fdiv b 64 * 132) (Int.fdiv e 64 * 132 + 4 + 2 * Int.fmod e 64 + 2) false] else [])
    ++ (if isCb d.fmt then [footAt d.cbAddr 0 (cbSize d.fmt) false] else [])
    ++ (if d.indexed then [footAt d.idxBase 0 (4 * d.sz d.idim : Nat) false] else [])

/-- A write's data positions lie inside its extent; a record format has no negative offset. -/
def Desc.extOk (d : Desc) (esc : Bool) : Bool :=
  (!(d.record || decide (d.fmt = 8 ∧ d.smode = 0)) || decide (0 ≤ d.lohi.1))
    && (!d.writes ||
      (let f := d.dataFoot esc
       let x := footAt d.extBase 0 d.extSize true
       decide (f.tile = x.tile) && decide (x.lo ≤ f.lo) && decide (f.hi ≤ x.hi)))

/-- A footprint lies where partition p may reach it (07 R214, R216): mapped pages, writable for a write, or the scratch
of the tile that runs the command or of a tile dedicated to p. -/
def footReach (s : State) (p : Nat) (run : Option Nat) (f : Foot) : Bool :=
  f.good && decide (0 ≤ f.lo) &&
  match f.tile with
  | some t => (decide (run = some t) || s.tileMine p t) && decide (f.hi ≤ s.scratchBytes t)
  | none => decide (f.hi ≤ 2 ^ 48) && s.spanOk p f.lo.toNat (f.hi - f.lo).toNat f.write

/-- A footprint touches a WP page or a WP line. -/
def footWp (s : State) (p : Nat) (f : Foot) : Bool :=
  match f.tile with
  | some t => (linesOf (2 ^ 63 + t * 2 ^ 56 + f.lo.toNat) (f.hi - f.lo).toNat).any (fun k => (s.tline k).wp)
  | none => s.spanWp p f.lo.toNat (f.hi - f.lo).toNat

end Sys2Proof.Machine
end

