-- ==== Sys2Proof/Machine/Codec.lean ====
section
/-! DEFINITION. Element formats (08 R245 to R255, R259, R264): the exact value of a code, decoding an element to its
edge value, and encoding. -/

namespace Sys2Proof.Machine

/-! ### Values and codes (08 R245) -/

/-- The value of a code of a plain or packed format; a codebook code has no value of its own. -/
def fmtValue (f code : Nat) : Fl :=
  match f with
  | 0x00 => flInt (sxNat 8 code)
  | 0x01 => if code % 128 = 127 then .nan else magValue (code.testBit 7) 4 3 (code % 128)
  | 0x02 => ieeeValue 5 2 code
  | 0x03 => ieeeValue 8 7 code
  | 0x04 => flInt (sxNat 32 code)
  | 0x05 => f32Val code
  | 0x10 => flInt (sxNat 3 code)
  | 0x11 => flInt (sxNat 4 code)
  | 0x12 => flInt (sxNat 5 code)
  | 0x13 => flInt (sxNat 6 code)
  | 0x18 => magValue (code.testBit 5) 3 2 (code % 32)
  | 0x19 => magValue (code.testBit 5) 2 3 (code % 32)
  | 0x1a => magValue (code.testBit 3) 2 1 (code % 8)
  | _ => .nan

/-- An FP8 code of a value: nearest-even, held at the largest finite code `top`; whether it saturated. -/
def fp8Code (eb mb top : Nat) : Fl → Nat × Bool
  | .nan => (0x7f, false)
  | .inf s => (b2n s * 128 + top, true)
  | .fin s m e =>
    let c := magCode eb mb m e
    (b2n s * 128 + min c top, decide (top < c))

/-- An INT8 code of a value: rounded, ties to even, and clamped; whether it saturated. -/
def int8Code : Fl → Nat × Bool
  | .nan => (0, false)
  | .inf s => (if s then 0x80 else 0x7f, true)
  | .fin s m e =>
    let i := roundFin s m e
    (wrapU 8 (clampI i (-128) 127), decide (i < -128) || decide (127 < i))

/-- encode(out, y) (08 R264): the code, and whether it saturated. -/
def encodeOut (f : Nat) (y : Fl) : Nat × Bool :=
  match f with
  | 0x00 => int8Code y
  | 0x01 => fp8Code 4 3 0x7e y
  | 0x02 => fp8Code 5 2 0x7b y
  | 0x03 => (ieeeBits 8 7 y, false)
  | _ => (f32Bits y, false)

/-- The conversion of a COPY between plain formats (08 R259); none where the pair is not allowed. -/
def convert (src dst code : Nat) : Option Nat :=
  let isF := fun f => decide (f = 1 ∨ f = 2 ∨ f = 3 ∨ f = 5)
  if src = 0 ∧ dst = 4 then some (wrapU 32 (sxNat 8 code))
  else if src = 4 ∧ dst = 0 then some (wrapU 8 (clampI (sxNat 32 code) (-128) 127))
  else if (src = 0 ∨ src = 4) ∧ dst = 5 then some (f32Bits (fmtValue src code))
  else if src = 5 ∧ dst = 4 then some (wrapU 32 ((f32ToSat 32 code).getD 0))
  else if isF src ∧ isF dst then some (encodeOut dst (fmtValue src code)).1
  else none

/-! ### Scales (08 R247) -/

/-- The value of a block scale. -/
def blockScale (c : Nat) : Fl := magValue false 4 3 (c % 128)
/-- The value of a super-block scale. -/
def sbScale (v : Nat) : Fl := ieeeValue 5 10 v

/-! ### One element (08 R249 to R255) -/

/-- What reading an element gives: its code or edge bits, whether poisoned data was met, an escape beyond the side
list, and a scale out of sequence. -/
structure Rd where
  bits   : Nat
  poison : Bool := false
  overs  : Bool := false
  seqBad : Bool := false
  deriving DecidableEq, Repr

/-- The address at which the code of element e starts, and its bit there (08 R250, 07 R219). -/
def codeAt (d : Desc) (esc : Bool) (e : Int) : Nat × Nat :=
  let n := e.toNat
  let w := fmtBits d.fmt
  let b := n % 32 * w
  if d.smode = 1 then (addrPlus d.base (recStart d esc n + 1 + b / 8 : Nat), b % 8)
  else if 0x10 ≤ d.fmt then (addrPlus d.base (n / 32 * recBytes d.fmt + b / 8 : Nat), b % 8)
  else if w = 4 then (addrPlus d.base (Int.fdiv e 2), 4 * (Int.fmod e 2).toNat)
  else (addrPlus d.base (e * (w / 8 : Nat)), 0)

/-- The bytes that a code at a bit offset touches. -/
def codeBytes (w bit : Nat) : Nat := (bit + w + 7) / 8

/-- The code of element e. -/
def readCode (s : State) (p : Nat) (d : Desc) (esc : Bool) (e : Int) : Rd :=
  let (a, bit) := codeAt d esc e
  let w := fmtBits d.fmt
  let n := codeBytes w bit
  { bits := treadNat s p a n / 2 ^ bit % 2 ^ w, poison := tpoison s p a n }

/-- The escape code of a codebook format. -/
def escCode (f : Nat) : Nat := 2 ^ fmtBits f - 1

/-- The value of a codebook entry. -/
def cbValue (c : Codebook) (code : Nat) : Fl := (fmtValue c.efmt (byteAt c.entries code).toNat).mul (f32Val c.scale)

def Fl.abs : Fl → Fl
  | .nan => .nan
  | .inf _ => .inf false
  | .fin _ m e => .fin false m e

/-- The code of the entry of largest magnitude, the lowest on a tie; the escape code names no entry (log 32). -/
def extremeCode (f : Nat) (c : Codebook) : Nat :=
  (List.range (escCode f)).foldl (fun best k =>
    if ((fmtValue c.efmt (byteAt c.entries best).toNat).abs).lt (fmtValue c.efmt (byteAt c.entries k).toNat).abs then k
    else best) 0

/-- The escapes of a super-block before element e. -/
def escBefore (s : State) (p : Nat) (d : Desc) (e : Nat) : Nat :=
  ((List.range (e % 2048)).filter (fun k =>
    decide ((readCode s p d true (e / 2048 * 2048 + k : Nat)).bits = escCode d.fmt))).length

/-- The scales of element e: block scale, super-block scale, poison, and SPLIT's sequence check. -/
def scalesAt (s : State) (p : Nat) (d : Desc) (esc : Bool) (e : Int) : Fl × Fl × Bool × Bool :=
  if d.smode = 1 then
    let h := addrPlus d.base (sbStart d esc e.toNat)
    let r := addrPlus d.base (recStart d esc e.toNat)
    (blockScale (treadNat s p r 1), sbScale (treadNat s p h 2), tpoison s p h 3 || tpoison s p r 1, false)
  else
    let k := Int.fdiv e 32
    let g := addrPlus d.scaleBase (Int.fdiv k 64 * 132)
    let u := addrPlus g (4 + 2 * Int.fmod k 64)
    let v := treadNat s p u 2
    (blockScale v, sbScale (treadNat s p g 2), tpoison s p g 2 || tpoison s p u 2, decide ((v / 256 : Nat) ≠ Int.fmod k 256))

/-- The edge value of element e, as FP32 bits (08 R253). -/
def readEdge (s : State) (p : Nat) (d : Desc) (c : Codebook) (e : Int) : Rd :=
  let r := readCode s p d c.esc e
  let n := e.toNat
  if isCb d.fmt && c.esc && decide (r.bits = escCode d.fmt) then
    let h := addrPlus d.base (sbStart d c.esc n)
    let k := escBefore s p d n
    if k < min 64 (treadNat s p (h + 2) 1) then
      { bits := treadNat s p (h + 8 + 2 * k) 2 * 65536, poison := r.poison || tpoison s p (h + 8 + 2 * k) 2 }
    else
      let (bs, sb, bad, _) := scalesAt s p d c.esc e
      { bits := f32Bits (((cbValue c (extremeCode d.fmt c)).mul bs).mul sb), poison := r.poison || bad, overs := true }
  else
    let v := if isCb d.fmt then cbValue c r.bits else fmtValue d.fmt r.bits
    if d.smode = 0 then { r with bits := f32Bits v }
    else
      let (bs, sb, bad, seq) := scalesAt s p d c.esc e
      { bits := f32Bits ((v.mul bs).mul sb), poison := r.poison || bad, seqBad := seq }

/-- The code that a step of a plain read yields; of a split stream, with the check of its block's scale (08 R255). -/
def readStep (s : State) (p : Nat) (d : Desc) : El → Rd
  | .at_ e =>
    let r := readCode s p d false e
    if d.smode = 2 then { r with seqBad := (scalesAt s p d false e).2.2.2 } else r
  | _ => { bits := d.padV }

/-- The edge value that a step of a read yields: a padding position is PAD_VALUE, and zero in a record format (log 33). -/
def edgeStep (s : State) (p : Nat) (d : Desc) (c : Codebook) : El → Rd
  | .at_ e => readEdge s p d c e
  | _ =>
    if d.record then { bits := 0 }
    else { bits := f32Bits (if isCb d.fmt then cbValue c d.padV else fmtValue d.fmt d.padV) }

end Sys2Proof.Machine
end

