-- ==== Sys2Proof/Machine/Cache.lean ====
section
/-! DEFINITION. The stream cache and the TLB of a tile (07 R210, R212, R215, R244): what they hold, an access, and what
empties them; and the bytes that a stream reads, in walk order. What the manual leaves open of them is log 12. -/

namespace Sys2Proof.Machine

/-! ### What a tile's cache holds -/

def State.cache (s : State) (t : Nat) : TileCache := smGet {} s.tiles.caches t
def State.setCache (s : State) (t : Nat) (c : TileCache) : State :=
  { s with tiles := { s.tiles with caches := smSet s.tiles.caches t c } }

/-- The sets of tile t's stream cache: the lines beyond its scratch, 8 to a set. -/
def cacheSets (s : State) (t : Nat) : Nat := (32768 - s.scratchBytes t / 128) / 8

/-- A page that no tile command may write, so that its lines may be cached. -/
def cachedPage (s : State) (p v : Nat) : Bool := !(s.pagePerm p v).writable

/-- The translation of a page is in tile t's TLB: the least recently used of 256 leaves for one that was not. -/
def tlbTouch (t p v : Nat) (s : State) : State :=
  let c := s.cache t
  let rest := c.tlb.filter (fun e => decide (e ≠ (p, v)))
  let miss := decide (rest.length = c.tlb.length)
  let keep := if miss ∧ 256 ≤ rest.length then rest.drop 1 else rest
  let s := s.setCache t { c with tlb := keep ++ [(p, v)] }
  if miss then s.count (.tile t .tlbMiss) else s

/-- A line is in its set: the least recently used of 8 leaves for one that was not. A cache without sets holds none. -/
def cacheIn (sets : Nat) (x : Nat × Nat) (l : List (Nat × Nat)) : List (Nat × Nat) :=
  if sets = 0 then []
  else
    let rest := l.filter (fun e => decide (e ≠ x))
    let mine := rest.filter (fun e => decide (e.1 % sets = x.1 % sets))
    let out := if 8 ≤ mine.length then mine.head? else none
    rest.filter (fun e => decide (some e ≠ out)) ++ [x]

/-- A line that moves between a stack and a tile of different dies crosses the bridge (15 R454; log 109). -/
def lineCross (t p a : Nat) (towards : Bool) (s : State) : State :=
  match s.physAddr p a with
  | none => s
  | some x =>
    let d := x / (stackPages * pageBytes) / 3
    if towards then countBridge d (t / 16) 128 s else countBridge (t / 16) d 128 s

/-- A stream of tile t fetches the line of HBM at a multiple of 128: from the cache where it is there, and else from its
stack, which counts. Either way 128 bytes of tile memory move. -/
def lineFetch (t p a : Nat) (s : State) : State :=
  let s := (tlbTouch t p (a / pageBytes) s).count (.tile t .tmemBytes) 128
  match s.physAddr p a with
  | none => s
  | some x =>
    if cachedPage s p (a / pageBytes) then
      let c := s.cache t
      let e := (x / 128, p)
      let hit := c.lines.contains e
      let s := s.setCache t { c with lines := cacheIn (cacheSets s t) e c.lines }
      if hit then s.count (.tile t .cacheHit)
      else lineCross t p a true (countHbm (s.count (.tile t .cacheMiss)) p a 128 false)
    else lineCross t p a true (countHbm s p a 128 false)

/-! ### What empties it -/

/-- The lines of some physical pages leave every cache. -/
def dropPages (pages : List Nat) (s : State) : State :=
  let keep : Nat × Nat → Bool := fun e => !pages.contains (e.1 * 128 / pageBytes)
  { s with tiles := { s.tiles with caches := s.tiles.caches.map (fun e => (e.1, { e.2 with lines := e.2.lines.filter keep })) } }

/-- The lines of `n` virtual pages of a partition leave every cache. -/
def dropRun (p first n : Nat) (s : State) : State :=
  dropPages ((List.range n).filterMap (fun i => s.physPage p (first + i))) s

/-- The lines and translations of a partition leave every tile. -/
def dropPart (p : Nat) (s : State) : State :=
  { s with tiles := { s.tiles with caches := s.tiles.caches.map (fun e =>
      (e.1, { lines := e.2.lines.filter (fun x => decide (x.2 ≠ p)), tlb := e.2.tlb.filter (fun x => decide (x.1 ≠ p)) })) } }

/-- A partition's ranges have changed: no TLB keeps a translation of it (07 R215). -/
def dropTlb (p : Nat) (s : State) : State :=
  { s with tiles := { s.tiles with caches := s.tiles.caches.map (fun e =>
      (e.1, { e.2 with tlb := e.2.tlb.filter (fun x => decide (x.1 ≠ p)) })) } }

/-- A tile's stream cache is empty. -/
def dropCache (t : Nat) (s : State) : State := s.setCache t { s.cache t with lines := [] }

/-! ### Spans -/

/-- A byte range from an address on, as a stream reads or writes it. -/
abbrev Span := Nat × Nat

/-- The 128-byte lines of HBM that spans touch, in order, each change of line once. -/
def hbmLines (l : List Span) : List Nat :=
  ((l.filter (fun x => !isTileAddr x.1 && decide (0 < x.2))).flatMap (fun x =>
      (List.range ((x.1 + x.2 - 1) / 128 + 1 - x.1 / 128)).map (fun i => (x.1 / 128 + i) * 128))).foldl
    (fun acc a => if acc.head? = some a then acc else a :: acc) [] |>.reverse

/-- The lines of tile memory that another partition tags, among those that spans touch (07 R211; log 80). -/
def foreignOf (s : State) (p : Nat) (l : List Span) : List Nat :=
  (l.flatMap (fun x => foreignLines s p x.1 x.2)).eraseDups

/-- Count the tag misses, each on the tile whose memory holds the line (01 R32; log 80). -/
def countMisses (ks : List Nat) (s : State) : State := ks.foldl (fun s k => s.count (.tile (k / 32768) .tagMiss)) s

/-- Count the bytes that spans move in the scratch of the tiles. -/
def countTmem (l : List Span) (s : State) : State :=
  l.foldl (fun s x => if isTileAddr x.1 then s.count (.tile (tileOfAddr x.1) .tmemBytes) x.2 else s) s

/-- Count a host transfer's reads of HBM, in lines. -/
def countReads (p : Nat) (l : List Span) (s : State) : State :=
  (hbmLines l).foldl (fun s a => countHbm s p a 128 false) s

/-! ### What a descriptor reads -/

/-- The bytes of element e: its scales and its code. -/
def elemSpans (d : Desc) (esc : Bool) (e : Int) : List Span :=
  let c := codeAt d esc e
  let code := (c.1, codeBytes (fmtBits d.fmt) c.2)
  match d.smode with
  | 1 => [(addrPlus d.base (sbStart d esc e.toNat), 3), (addrPlus d.base (recStart d esc e.toNat), 1), code]
  | 2 =>
    let k := Int.fdiv e 32
    let g := addrPlus d.scaleBase (Int.fdiv k 64 * 132)
    [(g, 2), (addrPlus g (4 + 2 * Int.fmod k 64), 2), code]
  | _ => [code]

/-- The bytes of a walk's elements. Where codes may escape, entering a super-block reads it from its first record to the
element (08 R253). -/
def walkSpans (d : Desc) (esc : Bool) : (prev : Option Nat) → List El → List Span
  | _, [] => []
  | prev, .at_ e :: r =>
    let b := e.toNat / 2048
    let first := sbStart d esc e.toNat
    let enter := if esc ∧ prev ≠ some b then
        [(addrPlus d.base first, recStart d esc e.toNat - first + 1 + recBytes d.fmt)] else []
    enter ++ elemSpans d esc e ++ walkSpans d esc (some b) r
  | prev, _ :: r => walkSpans d esc prev r

/-- The codebook and the index stream of a descriptor. -/
def sideSpans (d : Desc) : List Span :=
  (if isCb d.fmt then [(d.cbAddr, cbSize d.fmt)] else []) ++ (if d.indexed then [(d.idxBase, 4 * d.sz d.idim)] else [])

end Sys2Proof.Machine
end

