-- ==== Sys2Proof/Machine/FieldOps.lean ====
section
/-! DEFINITION. Writing configuration fields (16 R482 to R486): who may write and read them, their ranges and rules,
the enables that lock STATIC fields, the budgets, and what a write does at once. -/

namespace Sys2Proof.Machine

/-! ### Rights (16 R485) -/

/-- A partition may write a field. -/
def mayWrite (s : State) (p : Nat) (r : FRow) (i : Nat) : Bool :=
  match r.who with
  | .p0 => decide (p = 0)
  | .port => decide (s.portOwner i = p)
  | .port8 => decide (s.portOwner (i / 8) = p)
  | .queue => decide (s.portOwner (i / 128) = p)
  | .group => decide (s.portOwner (i / 16) = p)
  | .slot => decide (s.slotOwner i = p)
  | .sketch => decide (bitsOf (s.fval .sketchKey i) 53 48 = p)
  | .part => decide (i = p)
  | .p0part => decide (p = 0) || decide (i = p)
  | .ro0 | .roPart | .roSlot => false

/-- A partition may read a field. -/
def mayRead (s : State) (p : Nat) (r : FRow) (i : Nat) : Bool :=
  mayWrite s p r i ||
  match r.who with
  | .ro0 => decide (p = 0)
  | .roPart => decide (p = 0) || decide (i = p)
  | .roSlot => decide (p = 0) || decide (s.slotOwner i = p)
  | _ => false

/-! ### Graph slots (03 R93) -/

/-- Some PORT_GRAPH, active or shadowed, or a live epoch's pin names graph slot g. -/
def graphNamed (s : State) (g : Nat) : Bool :=
  (List.range 32).any (fun p => decide (s.fval .portGraph p = g))
    || s.epochs.any (fun e => e.2.any (fun x => (List.range 32).any (fun p => decide (x.fval .portGraph p = g))))
    || s.intake.pkts.any (fun k => decide (k.graph = g))

/-- The graph that a slot holds: one that has been named holds only while it is named. -/
def State.graphSlot (s : State) (g : Nat) : Option GraphSlot :=
  match smFind s.intake.graphs g with
  | none => none
  | some x => if x.named && !graphNamed s g then none else some x

/-! ### Values -/

/-- Bits of an IEEE single: negative beyond zero, an infinity or a NaN. -/
def f32Exp (v : Nat) : Nat := bitsOf v 30 23
def f32Neg (v : Nat) : Bool := v.testBit 31 && decide (v % 2 ^ 31 ≠ 0)

/-- A number lies in a range. -/
def inR (v lo hi : Nat) : Bool := decide (lo ≤ v) && decide (v ≤ hi)

/-- The port of an instance of a per-port, per-queue or per-group field. -/
def portOfField (r : FRow) (i : Nat) : Option Nat :=
  match r.who with
  | .port => some i
  | .port8 => some (i / 8)
  | .queue => some (i / 128)
  | .group => some (i / 16)
  | _ => none

/-- Whether port mode 1 refuses writes of a field for the ports from 16 on (03 R86, 04 R156, 10 R341). -/
def modeLimited (n : FName) : Bool :=
  match n with
  | .portEn | .lrnEn | .lrnLimit | .lrnExcess | .qCfg | .qLimit | .portVlateAct | .portVinvAct | .portDefQueue
  | .portHostRing | .portEgrOvh | .gateEn | .grpCfg => true
  | _ => false

/-- The value's range or rule in its table; `new` gives the values that the whole write would leave (16 R483). -/
def valueOk (s : State) (new : FName → Nat → Nat) (r : FRow) (i v : Nat) : Bool :=
  decide (v = v &&& r.mask) &&
  (!modeLimited r.name || decide (s.fval .portMode = 0)
    || (match portOfField r i with | some p => decide (p < 16) | none => true)) &&
  match r.name with
  | .hbmRsvFloor => decide (v ≤ 48)
  | .portMaxFrame => inR v 1518 16383
  | .portGraph =>
    decide (v = 0) || (match s.graphSlot v with | some g => decide (g.owner = s.portOwner i) | none => false)
  | .portScanLen => decide (v ≤ 1024) && decide (v % 64 = 0)
  | .fragHoldTime => inR v 1 50000
  | .fragTimeout => inR v 1 1000
  | .fragHoldMax => inR v 1 64
  | .lkEmWords | .lkLrnWords => decide (popCount 48 v ≤ 8)
  | .lkRuleWords => decide (popCount 64 v ≤ 16)
  | .lkLpm => inR (bitsOf v 5 0) 16 60
  | .flowIdle => inR v 1 65535
  | .evEveryN => inR v 1 65535
  | .evTimer => inR v 100 65535
  | .holdCfg => !v.testBit 0 || (inR (bitsOf v 7 1) 1 64 && inR (bitsOf v 21 16) 1 50)
  | .flowSweep => inR v 100 10000
  | .placeCtrl => inR (bitsOf v 14 8) 1 100 && inR (bitsOf v 19 16) 1 15
  | .placePeriod => inR v 100 65535
  | .sketchKey => decide (popCount 48 v ≤ 8)
  | .wkBudget => decide (v ≤ 2048)
  | .wkThrTarget => inR v 1 1000000
  | .wkThrPeriod => inR v 1 10000
  | .tileScratch => inR v 4 16
  | .tilePfDepth => inR v 8 256
  | .batchMax => inR v 1 128
  | .batchWait => inR v 100 2000
  | .trainLr => decide (f32Exp v ≠ 255) && !f32Neg v
  | .trainMom => !f32Neg v && decide (f32Exp v < 127)
  | .recircMax => inR v 1 4
  | .qCfg => inR (bitsOf v 17 10) 1 255
  | .qLimit => inR v 4 1048575
  | .portVlateAct | .portVinvAct => decide (v ≤ 4)
  | .portEgrOvh => let o := sxNat 8 v; decide (-32 ≤ o) && decide (o ≤ 63)
  | .hmpSize => inR v 1 32 && decide (new .hmpHoldRsv 0 ≤ v)
  | .hmpHoldRsv => decide (v ≤ new .hmpSize 0)
  | .qSamplePeriod => inR v 1 65535
  | .grpCfg => inR (bitsOf v 10 3) 1 255
  | .mirror => let t := bitsOf v 25 12; decide (t = 0) || inR t 64 16383
  | .fabWeight => inR v 1 255
  | .fabRekeyAt => inR v 32 47
  | .fabGapTimeout => inR v 10 65535
  | .fabJoinTimeout => inR v 100 10000
  | .partEn => decide (i ≠ 0) && (let st := (s.part i).state; decide (st = 1) || decide (st = 2))
  | .rinseRate => inR v 1 1000
  | .darnTileWait | .darnWatchdog => inR v 100 65535
  | .pwrLimit => inR v 600 1450
  | .tjLimit => inR v 70 105
  | .tclkCtrl => let a := bitsOf v 4 0; let b := bitsOf v 12 8
                 decide (8 ≤ a) && decide (a ≤ b) && decide (b ≤ 16)
  | .ppsCtrl => inR (bitsOf v 10 2) 1 500
  | .traceBudget => inR v 1 30
  | _ => true

/-- The owning block of a STATIC field is enabled (00 R10). -/
def ownerEnabled (s : State) (r : FRow) (i : Nat) : Bool :=
  match r.name with
  | .portMode | .hmpSize => s.anyPortEn
  | .portMaxFrame | .portMacsec => s.portEn i
  | .sketchKey => decide (s.fval .sketchEn i = 1)
  | .tileScratch => decide (s.fval .tileEn i = 1)
  | .fabCredit | .fabTimeSrc => s.fab.joined
  | .partCmdSeal => decide (s.fval .partEn i = 1)
  | _ => false

/-- A tile is bound to a loaded model (09 R288). -/
def tileBound (s : State) (t : Nat) : Bool :=
  s.slots.any (fun e => decide (e.2.state ≠ 0) && (match e.2.tens with | some x => x.tiles.contains t | none => false))

/-- Some range of a partition is being scrubbed (12 R377). -/
def scrubbing (s : State) (p : Nat) : Bool :=
  (s.part p).regions.any (fun r => match smFind s.regions r with | some x => decide (x.state = 2) | none => false)

/-- The owning rule refuses the write while a resource is in use (16 R483). -/
def inUse (s : State) (r : FRow) (i : Nat) : Bool :=
  match r.name with
  | .tileOwner => tileBound s i
  | .partEn => scrubbing s i
  | _ => false

/-- A sum of fields over their instances. -/
def sumFields (f : Nat → Nat) (n : Nat) : Nat := (List.range n).foldl (fun a i => a + f i) 0

/-- The value breaks a budget (01 R34, 05 R181, 11 R370). -/
def overBudget (new : FName → Nat → Nat) (r : FRow) : Bool :=
  match r.name with
  | .hbmRsvFloor | .hbmTbRate =>
    decide (7200 * 64 < new .hbmRsvFloor 0 * 7200 + 64 * sumFields (new .hbmTbRate) 64)
  | .hhEntries => decide (4096 < sumFields (new .hhEntries) 64)
  | .fabCredit => decide (8192 < 3 * sumFields (new .fabCredit) 3)
  | _ => false

/-- The values that a write of `vals` from ID `id` on would leave (16 R483). -/
def newValues (s : State) (id : Nat) (vals : List DWord) (n : FName) (i : Nat) : Nat :=
  let f := fieldId n i
  if id ≤ f ∧ f < id + vals.length then (nth 0 vals (f - id)).toNat else s.fval n i

/-- The checks of 16 R483 on one field. -/
def fieldCheck (s : State) (p : Nat) (new : FName → Nat → Nat) (id v : Nat) : Option Status :=
  match fieldAt id with
  | none => some .badParam
  | some (r, i) =>
    firstFail [(!(if r.cls = .ro then mayRead s p r i else mayWrite s p r i), .noPermission),
      (decide (r.cls = .ro) || !valueOk s new r i v, .badParam),
      (decide (r.cls = .static) && ownerEnabled s r i, .refusedLocked),
      (inUse s r i, .busy), (overBudget new r, .capacity)]

/-- The first failure of a list, in order. -/
def firstSome {α : Type} (f : α → Option Status) : List α → Option Status
  | [] => none
  | a :: r => match f a with | some st => some st | none => firstSome f r

/-- The check of a whole FIELD_WRITE (16 R482, R483). -/
def fieldWriteCheck (s : State) (p id count : Nat) (vals : List DWord) : Option Status :=
  if vals.length ≠ count ∨ count = 0 ∨ 510 < count then some .badLength
  else firstSome (fun k => fieldCheck s p (newValues s id vals) (id + k) (nth 0 vals k).toNat) (List.range count)

/-! ### What a write does at once -/

/-- Zero a sketch on both dies (05 R180). -/
def clearSketch (k : Nat) (s : State) : State :=
  let l := s.flow.sketch.filter (fun e => decide (e.1 / (4 * 65536) % 4 ≠ k))
  { s with flow := { s.flow with sketch := l } }

/-- A laser cartridge follows LSR_EN (14 R452, R453): 0 turns its lasers off, 0 to 1 turns them on. -/
def laserEnable (c v : Nat) (old : Nat) (s : State) : State :=
  let x := s.laser c
  if v = 0 then s.setLaser c { x with on := false, locked := false }
  else if old = 0 ∧ x.present then s.setLaser c { x with on := true, fault := false, fresh := false }
  else s

/-- A port is enabled: its STATIC fields take effect, and with the first port those of all port engines and HAMPER
(00 R13). A link fault whose lane has been repaired ends (03 R81). -/
def enablePort (i : Nat) (s : State) : State :=
  let first := (List.range 32).all (fun p => decide (p = i) || !s.portEn p)
  let s := if first then (s.takeStored .portMode 0).takeStored .hmpSize 0 else s
  let s := (s.takeStored .portMaxFrame i).takeStored .portMacsec i
  if s.intake.repaired.contains i then
    { s with intake := { s.intake with portFault := s.intake.portFault.filter (fun p => decide (p ≠ i)),
                                       repaired := s.intake.repaired.filter (fun p => decide (p ≠ i)) } }
  else s

/-- The start and the length in seconds of a partition's present aging period (04 R143): periods run back to back, and a
new AGE_PERIOD takes effect at the end of the one in progress. -/
def agePhase (s : State) (p next : Nat) : Nat × Nat :=
  let start := (smGet 0 s.tabs.ageStart p).toNat
  let len := smGet 300 s.tabs.agePeriod p
  let stop := start + len * 1000000000
  if s.now.toNat < stop ∨ len = 0 ∨ next = 0 then (start, len)
  else (stop + (s.now.toNat - stop) / (next * 1000000000) * (next * 1000000000), next)

/-- The period in progress becomes the state's. -/
def rollAge (p next : Nat) (s : State) : State :=
  let (start, len) := agePhase s p next
  { s with tabs := { s.tabs with ageStart := smSet s.tabs.ageStart p (dw start),
                                 agePeriod := smSet s.tabs.agePeriod p len } }

/-- The effects of a field write beside storing the value. -/
def fieldEffect (r : FRow) (i v old : Nat) (s : State) : State :=
  match r.name with
  | .portEn => if v = 1 ∧ old = 0 then enablePort i s else s
  | .sketchEn => if v = 1 ∧ old = 0 then s.takeStored .sketchKey i else s
  | .tileEn =>
    if v = 1 ∧ old = 0 then
      let t := s.takeStored .tileScratch i
      if t.fact .tileScratch i = s.fact .tileScratch i then t else dropCache i t
    else s
  | .portGraph =>
    let mark : Nat × GraphSlot → Nat × GraphSlot := fun e => if e.1 = v then (e.1, { e.2 with named := true }) else e
    { s with intake := { s.intake with graphs := s.intake.graphs.map mark } }
  | .sketchClear => if v = 1 then clearSketch i s else s
  | .hhEntries => if v = old then s
      else { s with flow := { s.flow with hh := s.flow.hh.filter (fun e => decide (e.part ≠ i)) } }
  | .tileOwner =>
    if tileHeld s i then s else s.takeStored .tileOwner i
  | .agePeriod =>
    if v = 0 then s
    else if old = 0 then
      { s with tabs := { s.tabs with ageStart := smSet s.tabs.ageStart i s.now, agePeriod := smSet s.tabs.agePeriod i v } }
    else rollAge i old s
  | .gateEn => if (smFind s.egr.gcl i).isNone then s.takeStored .gateEn i else s
  | .partEn =>
    let s := if v = 1 ∧ old = 0 then s.takeStored .partCmdSeal i else s
    s.modPart i (fun p => { p with state := if v = 1 then 2 else 1 })
  | .lsrEn => laserEnable i v old s
  | .eqFreeze => if v = 1 ∧ old = 0 then { s with sys := { s.sys with eqHeld := smSet s.sys.eqHeld i s.clk.pk } } else s
  | .tclkCtrl => { s with clk := { s.clk with tclkOld := some (s.clk.pk / 4, old) } }
  | .traceBudget => settleTrace old s
  | .ppsCtrl => if v.testBit 0 ∧ ¬ old.testBit 0 then { s with clk := { s.clk with integ := 0 } } else s
  | _ => s

/-- Write one field whose checks have passed (16 R484). -/
def fieldStore (id v : Nat) (s : State) : State :=
  match fieldAt id with
  | none => s
  | some (r, i) =>
    let old := s.fval r.name i
    let s := if r.cls = .wo then s else s.setField r.name i v
    fieldEffect r i v old s

/-- Write fields in ascending ID (16 R484). -/
def fieldStoreAll (id : Nat) : List DWord → State → State
  | [], s => s
  | v :: r, s => fieldStoreAll (id + 1) r (fieldStore id v.toNat s)

/-- The check of a FIELD_READ: the first three checks with the read permission (16 R483). -/
def fieldReadCheck (s : State) (p id count : Nat) : Option Status :=
  if count = 0 ∨ 510 < count then some .badLength
  else firstSome (fun k => match fieldAt (id + k) with
    | none => some .badParam
    | some (r, i) => if mayRead s p r i then none else some .noPermission) (List.range count)

/-- The values of consecutive fields, as a source reads them. -/
def fieldValues (s : State) (src id count : Nat) : Bytes :=
  (List.range count).flatMap (fun k => leBytes 8 (match fieldAt (id + k) with | some (r, i) => s.readFieldBy src r i | none => 0))

/-- A source's write of consecutive fields is noted; a WO field has no value to keep (16 R486). -/
def noteWrites (src id : Nat) : List DWord → State → State
  | [], s => s
  | _ :: l, s =>
    noteWrites src (id + 1) l (match fieldAt id with
      | some (r, i) => if r.cls = .wo then s else s.noteWrite src id (s.fval r.name i)
      | none => s)

end Sys2Proof.Machine
end

