-- ==== Sys2Proof/Machine/Walk.lean ====
section
/-! DEFINITION. Parse graphs and the walk (03 R93 to R102): header lengths, built-in checks, transitions, extraction
ops, fragment detection, and the built-in graph of slot 0. -/

namespace Sys2Proof.Machine

/-! ### Outcomes (03 R103) -/

def outOk : Nat := 0
def outDepth : Nat := 1
def outLength : Nat := 2
def outUnknown : Nat := 3
def outOrphan : Nat := 4
def outTableFull : Nat := 5

/-! ### The built-in graph (03 R100) -/

/-- A descriptor with a selector and no length fields. -/
def bDesc (kind : Nat) (terminal csum : Bool) (selOff selWidth tf tc ef ec : Nat) : PDesc :=
  { kind := kind, terminal := terminal, csum := csum, fixedLen := 0, lenOff := 0, lenWidth := 0, lenShift := 0,
    lenAdd := 0, selOff := selOff, selWidth := selWidth, transFirst := tf, transCount := tc, extrFirst := ef,
    extrCount := ec, next := 0xffff }

/-- A transition on an exact value. -/
def bTrans (v n : Nat) : PTrans := { value := w32 v, mask := 0xffffffff, next := n }

/-- A FLOW_KEY op into a record word. -/
def bKey (off width index : Nat) : PExtr :=
  { off := off, width := width, feat := false, flowKey := true, index := index, op := 0 }

/-- An op into a record word or a feature slot. -/
def bExtr (off width : Nat) (feat : Bool) (index op shift : Nat) : PExtr :=
  { off := off, width := width, feat := feat, flowKey := false, index := index, op := op, shift := shift }

/-- The built-in graph: descriptors 0 ETHERNET, 1 and 2 VLAN, 3 IPV4, 4 IPV6, 5 IPV6_EXT, 6 IPV6_FRAG, 7 TCP, 8 UDP,
9 ICMP. Word 24 holds the last next header parsed. -/
def builtinGraph : Graph :=
  { start := 0
    descs := [bDesc 1 false false 96 16 0 4 0 0, bDesc 2 false false 16 16 4 4 0 1, bDesc 2 false false 16 16 8 2 1 1,
      bDesc 4 true true 72 8 10 3 2 4, bDesc 5 true false 48 8 13 7 6 10, bDesc 6 true false 0 8 13 7 16 1,
      bDesc 7 true false 0 8 13 7 16 1, bDesc 8 true false 0 0 0 0 17 4, bDesc 9 true false 0 0 0 0 21 1,
      bDesc 10 true false 0 0 0 0 22 0]
    trans := [bTrans 0x8100 1, bTrans 0x88a8 1, bTrans 0x0800 3, bTrans 0x86dd 4,
      bTrans 0x8100 2, bTrans 0x88a8 2, bTrans 0x0800 3, bTrans 0x86dd 4,
      bTrans 0x0800 3, bTrans 0x86dd 4,
      bTrans 6 7, bTrans 17 8, bTrans 1 9,
      bTrans 0 5, bTrans 43 5, bTrans 60 5, bTrans 44 6, bTrans 6 7, bTrans 17 8, bTrans 58 9]
    extrs := [bExtr 4 12 false 26 2 16, bExtr 4 12 false 26 2 0,
      bKey 96 32 16, bKey 128 32 20, bKey 72 8 24, bExtr 64 8 true 8 0 0,
      bKey 64 32 16, bKey 96 32 17, bKey 128 32 18, bKey 160 32 19, bKey 192 32 20, bKey 224 32 21, bKey 256 32 22,
      bKey 288 32 23, bKey 48 8 24, bExtr 56 8 true 8 0 0,
      bKey 0 8 24,
      bKey 0 32 25, bExtr 104 8 false 27 0 0, bExtr 112 16 true 9 0 0, bExtr 104 8 true 10 0 0,
      bKey 0 32 25]
    feats := [] }

/-- The graph of a slot. -/
def State.graph (s : State) (g : Nat) : Graph :=
  if g = 0 then builtinGraph
  else match smFind s.intake.graphs g with | some x => x.graph | none => builtinGraph

/-! ### FLOW_KEY words -/

/-- The FLOW_KEY record words of a graph, in ascending order. -/
def Graph.keyWords (g : Graph) : List Nat :=
  (List.range 64).filter (fun i => g.extrs.any (fun e => e.flowKey && decide (e.index = i)))

/-! ### The walk -/

/-- A fragmenting header (03 R109): whether the fragment is the first, MF, and the key without its partition. -/
structure FragInfo where
  first : Bool
  more  : Bool
  key   : Bytes
  deriving DecidableEq, Repr

/-- What a walk has found so far. `keys` holds the FLOW_KEY values, and `after` those of levels after the outermost
fragmenting header. -/
structure Walk where
  off      : Nat := 0
  bound    : Nat
  levels   : Nat := 0
  offs     : List Nat := []
  words    : List Word := List.replicate 64 0
  feats    : List Word := List.replicate 64 0
  keys     : SMap Word := []
  after    : SMap Word := []
  csumBad  : Bool := false
  ipKind   : Nat := 0
  nIp      : Nat := 0
  ip4      : Bool := false
  ip6      : Bytes := []
  tcpFlags : Option Byte := none
  frag     : Option FragInfo := none
  outcome  : Nat := 0
  deriving DecidableEq, Repr

/-- The minimum length of a kind (03 R95). -/
def kindMin (kind : Nat) : Nat := nth 0 [0, 14, 4, 4, 20, 40, 8, 8, 20, 8, 8, 4, 8] kind

/-- The bytes that hold a header's length and selector fields (03 R95). -/
def neededBytes (d : PDesc) : Nat :=
  if d.kind = 0 then d.fixedLen else max (kindMin d.kind) (ceilDiv (d.selOff + d.selWidth) 8)

/-- The header length (03 R95, R96). -/
def headerLen (d : PDesc) (f : Bytes) (off : Nat) : Nat :=
  let h := f.drop off
  match d.kind with
  | 0 => if d.lenWidth = 0 then d.fixedLen else (bitsBE h d.lenOff d.lenWidth + d.lenAdd) * 2 ^ d.lenShift
  | 4 => (byteAt h 0).toNat % 16 * 4
  | 6 => ((byteAt h 1).toNat + 1) * 8
  | 8 => (byteAt h 12).toNat / 16 * 4
  | 11 => let b := byteAt h 0
          4 + 4 * (b2n (b.getLsbD 7) + b2n (b.getLsbD 5) + b2n (b.getLsbD 4))
  | k => kindMin k

/-- The built-in check of a kind: a failure's outcome, or the new bound (03 R96). -/
def kindCheck (d : PDesc) (f : Bytes) (off len bound : Nat) : Except Nat Nat :=
  let h := f.drop off
  match d.kind with
  | 4 =>
    let total := beAt h 2 2
    if len < 20 ∨ total < len ∨ bound < off + total then .error outLength else .ok (off + total)
  | 5 =>
    let pl := beAt h 4 2
    if bound < off + 40 + pl ∨ (pl = 0 ∧ byteAt h 6 ≠ 59) then .error outLength else .ok (off + 40 + pl)
  | 8 => if len < 20 then .error outLength else .ok bound
  | 9 =>
    let l := beAt h 4 2
    if l < 8 ∨ bound < off + l then .error outLength else .ok (off + l)
  | 11 => if 1 < (byteAt h 1).toNat % 8 then .error outUnknown else .ok bound
  | _ => .ok bound

/-- The internet checksum of a header is right: its 16-bit words sum to all ones (03 R95). -/
def csumOk (h : Bytes) : Bool :=
  let rec go : Bytes → Nat
    | a :: b :: r => a.toNat * 256 + b.toNat + go r
    | [a] => a.toNat * 256
    | [] => 0
  let s := go h
  decide (s ≠ 0 ∧ s % 65535 = 0)

/-- The field of an extraction op: bits at or beyond the header's length read zero (03 R98). -/
def extractField (e : PExtr) (h : Bytes) : Nat := bitsBE h e.off e.width * 2 ^ e.shift

/-- An op on a u32 destination. -/
def opU32 (op : Nat) (old v : Word) : Word :=
  match op with
  | 0 => v
  | 1 => old + v
  | 2 => old ||| v
  | _ => if old.toNat < v.toNat then v else old

/-- An op on an S32 slot. -/
def opS32 (op : Nat) (old v : Word) : Word :=
  match op with
  | 3 => if old.toInt < v.toInt then v else old
  | k => opU32 k old v

/-- An op on an F32 slot with an unsigned field (03 R98). -/
def opF32 (op : Nat) (old : Word) (v : Nat) : Word :=
  let x := f32OfInt v
  match op with
  | 0 => w32 x
  | 1 => w32 (f32Add old.toNat x)
  | 2 => w32 (f32OfInt (f32ToU32 old.toNat ||| v : Nat))
  | _ => if (f32Val old.toNat).lt (f32Val x) then w32 x else old

/-- Apply one extraction op to the header `h` (03 R98). -/
def applyExtr (feats : List Nat) (h : Bytes) (w : Walk) (e : PExtr) : Walk :=
  let v := extractField e h
  if e.feat then
    let old := nth 0 w.feats e.index
    let new := match nth 0 feats (e.index - 8) with
      | 1 => opS32 e.op old (w32 (wrapU 32 (sxNat e.width v)))
      | 2 => opF32 e.op old v
      | _ => opU32 e.op old (w32 v)
    { w with feats := setNth w.feats e.index new }
  else
    let w := { w with words := setNth w.words e.index (opU32 e.op (nth 0 w.words e.index) (w32 v)) }
    if !e.flowKey then w
    else
      { w with keys := smSet w.keys e.index (w32 v),
               after := if w.frag.isSome then smSet w.after e.index (w32 v) else w.after }

/-- The extraction ops of a descriptor. -/
def Graph.extrOf (g : Graph) (d : PDesc) : List PExtr := (g.extrs.drop d.extrFirst).take d.extrCount
/-- The transitions of a descriptor. -/
def Graph.transOf (g : Graph) (d : PDesc) : List PTrans := (g.trans.drop d.transFirst).take d.transCount

/-- The next descriptor (03 R97, R101). -/
def nextDesc (g : Graph) (d : PDesc) (h : Bytes) : Nat :=
  if d.selWidth = 0 then d.next
  else
    let sel := w32 (bitsBE h d.selOff d.selWidth)
    match (g.transOf d).find? (fun t => decide (sel &&& t.mask = t.value &&& t.mask)) with
    | some t => t.next
    | none => d.next

/-- Fragment detection on a header that has passed its checks (03 R109): the outermost of the packet's IPV4 headers, or
an IPV6_FRAG header, unless an outer header fragments already. -/
def detectFrag (d : PDesc) (h : Bytes) (w : Walk) : Option FragInfo :=
  if w.frag.isSome then none
  else if d.kind = 4 ∧ !w.ip4 then
    let fo := beAt h 6 2
    if fo % 0x4000 = 0 then none
    else some { first := decide (fo % 0x2000 = 0), more := fo.testBit 13,
                key := [4] ++ slice h 12 8 ++ slice h 4 2 ++ slice h 9 1 }
  else if d.kind = 7 then
    let fo := beAt h 2 2
    some { first := decide (fo / 8 = 0), more := fo.testBit 0, key := [6] ++ fitTo 32 w.ip6 ++ slice h 4 4 }
  else none

/-- The walk notes a header parsed in full. -/
def noteHeader (d : PDesc) (f : Bytes) (off len : Nat) (w : Walk) : Walk :=
  let h := slice f off len
  let w := { w with levels := w.levels + 1, offs := w.offs ++ [off] }
  match d.kind with
  | 4 => { w with ip4 := true, ipKind := 4, nIp := w.nIp + 1, csumBad := w.csumBad || (d.csum && !csumOk h) }
  | 5 => { w with ipKind := 6, nIp := w.nIp + 1, ip6 := slice h 8 32 }
  | 8 => { w with tcpFlags := some (byteAt h 13) }
  | _ => w

/-- One level of the walk after its header has passed its checks: extractions, fragment detection and the carried
fields (03 R101, R111). `stops` says, of a fragmenting header that is met first, whether the walk ends after it, and
`carried` holds the values written there. -/
def levelUp (g : Graph) (f : Bytes) (stops : FragInfo → Bool) (carried : List (Nat × Word)) (d : PDesc) (len : Nat)
    (w : Walk) : Walk × Bool :=
  let h := slice f w.off len
  let fi := detectFrag d h w
  let w := (g.extrOf d).foldl (applyExtr g.feats h) w
  let w := noteHeader d f w.off len w
  match fi with
  | none => (w, false)
  | some x =>
    let w := { w with frag := some x }
    if stops x then
      ({ w with words := carried.foldl (fun l c => setNth l c.1 c.2) w.words,
                keys := carried.foldl (fun m c => smSet m c.1 c.2) w.keys }, true)
    else (w, false)

/-- The walk of 03 R101, with fuel for 17 levels. -/
def walkFrom (g : Graph) (f : Bytes) (stops : FragInfo → Bool) (carried : List (Nat × Word)) :
    (fuel d : Nat) → Walk → Walk
  | 0, _, w => { w with outcome := outDepth }
  | k + 1, di, w =>
    if w.levels = 16 then { w with outcome := outDepth }
    else
      match g.descs[di]? with
      | none => { w with outcome := outUnknown }
      | some d =>
        let need := neededBytes d
        if w.bound < w.off + need then { w with outcome := outLength }
        else if 256 < w.off + need then { w with outcome := outDepth }
        else
          let len := headerLen d f w.off
          if len = 0 ∨ w.bound < w.off + len then { w with outcome := outLength }
          else if 256 < w.off + len then { w with outcome := outDepth }
          else
            match kindCheck d f w.off len w.bound with
            | .error o => { w with outcome := o }
            | .ok b =>
              let next := nextDesc g d (f.drop w.off)
              let (w, stop) := levelUp g f stops carried d len { w with bound := b }
              let w := { w with off := w.off + len }
              if stop then { w with outcome := outOk }
              else if next = 0xffff then { w with outcome := if d.terminal then outOk else outUnknown }
              else walkFrom g f stops carried k next w

/-- Walk a frame of `f.length` bytes including FCS. -/
def walk (g : Graph) (f : Bytes) (stops : FragInfo → Bool) (carried : List (Nat × Word)) : Walk :=
  walkFrom g f stops carried 17 g.start { bound := f.length - 4 }

end Sys2Proof.Machine
end

