-- ==== Sys2Proof/Machine/PktOps.lean ====
section
/-! DEFINITION. Packets between stage 1 and stage 7: the packet list, epoch references (09 R294), HAMPER cells
(10 R323), flow keys and buckets (05 R157, R158), and entering a pipeline (05 R165, R171). -/

namespace Sys2Proof.Machine

/-! ### Ports and lasers -/

/-- The lasers of a cartridge light its engines (01 R16). -/
def State.laserUp (s : State) (c : Nat) : Bool := let x := s.laser c; x.present && x.on && !x.fault

/-- The port engine of a port (01 R18). -/
def State.engineOf (s : State) (p : Nat) : Nat := if s.fact .portMode = 0 then p / 8 else p / 4

/-- The active lane whose fibres a physical lane serves: the spare, lane 16 of its engine, serves the lane that has been moved
to it, and none before (01 R17). -/
def State.laneServed (s : State) (i : Nat) : Option Nat :=
  if i % 17 = 16 then s.darn.spares.find? (fun j => decide (j / 17 = i / 17) && decide (j % 17 ≠ 16)) else some i

/-- The port of an active lane of a port engine (01 R18): two lanes each in mode 0, four in mode 1. -/
def State.portOfLane (s : State) (i : Nat) : Nat :=
  if s.fact .portMode = 0 then 8 * (i / 17) + i % 17 / 2 else 4 * (i / 17) + i % 17 / 4

/-- DARN is moving a lane of a port, which is in link fault meanwhile (13 R406). -/
def State.portMoving (s : State) (p : Nat) : Bool :=
  match s.darn.proc with
  | some x => decide (x.action = 4) && decide (x.unit < laneUnit 68)
      && decide ((s.laneServed (x.unit - laneUnit 0)).map s.portOfLane = some p)
  | none => false

/-- Ports and links run: in RUNNING, and in step 9 of a start (14 R444, 03 R80). -/
def State.fabUp (s : State) : Bool :=
  s.up || (decide (s.sys.mode = .starting) && (match s.sys.start with | some j => j.joining | none => false))

/-- A port has its link (03 R80, R81, 01 R16). -/
def State.portLink (s : State) (p : Nat) : Bool :=
  s.fabUp && decide (p < s.portCount) && !s.intake.portFault.contains p && s.laserUp (s.engineOf p) && !s.portMoving p

/-! ### The packet list -/

def State.pkts (s : State) : List Packet := s.intake.pkts

/-- A packet is where it was: in its pipeline, place and pass. -/
def samePlace (a b : Packet) : Bool :=
  decide (a.id = b.id) && decide (a.pipe = b.pipe) && decide (a.place = b.place) && decide (a.pass = b.pass)

/-- The pipelines in which a packet comes, goes or moves on between two lists. -/
def movedPipes (l m : List Packet) : List Nat :=
  let news : List Packet → List Packet → List Packet := fun a b => b.filter (fun k => !a.any (samePlace k))
  ((news l m ++ news m l).map (·.pipe)).eraseDups

/-- The packet list changes; a pipeline in which a packet moves makes progress (13 R405). -/
def State.setPkts (s : State) (l : List Packet) : State :=
  { s with intake := { s.intake with pkts := l },
           progress := (movedPipes s.intake.pkts l).foldl (fun m k => smSet m k s.now) s.progress }
def State.findPkt (s : State) (id : Nat) : Option Packet := s.pkts.find? (fun k => decide (k.id = id))
def State.modPkt (s : State) (id : Nat) (f : Packet → Packet) : State :=
  s.setPkts (updFirst (fun k => decide (k.id = id)) f s.pkts)
def State.moveTo (s : State) (id : Nat) (p : Place) : State := s.modPkt id (fun k => { k with place := p })

/-- A packet enters stage 5 in its present form, behind every packet that has entered it (06 R197). -/
def State.enterWick (s : State) (k : Packet) : State :=
  s.setPkts (s.pkts.filter (fun x => decide (x.id ≠ k.id)) ++ [{ k with place := .wicker }])

/-- Change the reference count of an epoch (09 R294). -/
def modRefs (s : State) (p num : Nat) (f : Nat → Nat) : State :=
  s.setEps p ((s.eps p).map (fun e => if e.num = num then { e with refs := f e.refs } else e))
def addRef (p num : Nat) (s : State) : State := modRefs s p num (· + 1)
def dropRef (p num : Nat) (s : State) : State := modRefs s p num (· - 1)

/-- A packet leaves the packet path and releases its epoch reference. -/
def removePkt (k : Packet) (s : State) : State :=
  dropRef k.part k.epoch (s.setPkts (s.pkts.filter (fun x => decide (x.id ≠ k.id))))

/-- A COUNTER_READ or COUNTER_SAMPLE_RESET whose marker a test takes waits for packets ahead of it. -/
def State.someRead (s : State) (p : Nat → Bool) : Bool :=
  let waits : InFlight → Bool := fun e =>
    (e.opc == 0x700 || e.opc == 0x701) && e.reply.isNone && (match e.mark with | some m => p m | none => false)
  s.rings.any (fun r => r.2.inFlight.any waits) || s.parts.any (fun p => p.2.ibFlight.any waits)

def State.readWaits (s : State) : Bool := s.someRead (fun _ => true)

/-- Count an event of a packet at intake or steering: a counter read that waits meanwhile leaves out the packets behind its
marker (02 R71, 15 R490), so the event is kept with the packet's number. -/
def State.countFor (s : State) (k : Packet) (c : Ctr) : State :=
  let t := s.count c
  if s.readWaits then { t with obs := { t.obs with late := t.obs.late ++ [(k.id, c.key)] } } else t

/-- A packet is dropped and counted. -/
def dropPkt (r : DropCtr) (k : Packet) (s : State) : State := (removePkt k s).countFor k (.drop k.part r)

/-! ### HAMPER (10 R323) -/

/-- The 256-byte cells that hold `n` bytes. -/
def cellsFor (n : Nat) : Nat := ceilDiv n 256

/-- A place in which a packet waits in HAMPER. -/
def Place.held : Place → Bool
  | .flowHold _ | .bucketHold _ | .fragHold _ => true
  | _ => false

/-- The sum of a list. -/
def total (l : List Nat) : Nat := l.foldl (· + ·) 0

/-- Write `n` bytes into the banks of a FIFO (10 R320). An empty FIFO's bytes go to the draining bank; behind it the filling
bank fills, and each time it is full it spills as one unit. -/
def FifoBanks.put (size n : Nat) (b : FifoBanks) : FifoBanks :=
  let d := if b.drain = 0 then min size n else 0
  let m := b.fill + (n - d)
  { drain := b.drain + d, units := b.units + m / size, fill := m % size }

/-- Read `n` bytes: a draining bank that empties refills from the oldest spilled unit, and takes the filling bank where
none has spilled (10 R320). -/
def FifoBanks.take (size n : Nat) (b : FifoBanks) : FifoBanks :=
  let m := n - b.drain
  if n < b.drain then { b with drain := b.drain - n }
  else if m < b.units * size then { b with drain := size - m % size, units := b.units - m / size - 1 }
  else { drain := b.fill - (m - b.units * size) }

/-- The units that a FIFO of two banks has spilled when it holds `n` bytes and its draining bank is full (10 R320). -/
def spilledUnits (bank n : Nat) : Nat := (n - bank) / bank

/-- The cells of the units that a FIFO spills. -/
def spillCells (bank n : Nat) : Nat := spilledUnits bank n * cellsFor bank

/-- The bytes of one bank of an egress queue (10 R324). -/
def State.queueBank (s : State) : Nat := if s.fact .portMode = 0 then 2048 else 4096

/-- The bytes of the frames of the packets that a test picks. -/
def State.bytesWhere (s : State) (f : Packet → Bool) : Nat := total ((s.pkts.filter f).map (fun k => k.frame.length))

/-- The bytes in the intake FIFO of a port, and in the REED input FIFO of a pipeline. -/
def State.intakeBytes (s : State) (p : Nat) : Nat := s.bytesWhere (fun k => decide (k.place = .intake) && decide (k.port = p))
def State.reedBytes (s : State) (p : Nat) : Nat :=
  s.bytesWhere (fun k => decide (k.place = .reed) && decide (k.pipe = p) && decide (k.pass = 1))

/-- The bytes that wait in a port's barrier store and overflow (10 R312). -/
def State.barrierBytes (s : State) (p : Nat) : Nat :=
  total ((s.egr.barriers.filter (fun b => decide (b.port = p))).map (fun b => total (b.waiting.map (fun c => c.frame.length))))
    + total ((s.egr.overflow.filter (fun c => decide (c.port = p))).map (fun c => c.frame.length))

/-- The packets of a pipeline's reorder buffer that have spilled: all beyond the first 1,024 (09 R293). -/
def State.reorderSpilled (s : State) (p : Nat) : List Packet :=
  (s.pkts.filter (fun k => decide (k.place = .reorder) && decide (k.pipe = p))).drop 1024

/-- The cells of a partition: its holds, and the spills of its ports' queues, barrier stores and intake FIFOs (10 R323). -/
def State.partCells (s : State) (p : Nat) : Nat :=
  let mine : Nat → Bool := fun q => decide (s.portOwner q = p)
  let ports := (List.range 32).filter mine
  total ((s.pkts.filter (fun k => k.place.held && decide (k.part = p))).map (fun k => cellsFor k.frame.length))
    + total ((s.egr.queues.filter (fun q => mine (q.1 / 128))).map (fun q => q.2.banks.units * cellsFor s.queueBank))
    + total (ports.map (fun q => spillCells s.impl.barrierBank (s.barrierBytes q) + spillCells s.impl.intakeBank (s.intakeBytes q)))

/-- The cells of the stores that hold packets of several partitions: REED input FIFOs, reorder buffers and the fabric's
reorder store (11 R354). -/
def State.sharedCells (s : State) : Nat :=
  total ((List.range 16).map (fun p => spillCells s.impl.reedBank (s.reedBytes p)
      + total ((s.reorderSpilled p).map (fun k => cellsFor k.frame.length))))
    + spillCells s.impl.fabBank (total ((s.fab.reorder.filter (fun x => decide (x.2.hop = 0))).map
        (fun x => 16 + (pad8 x.2.body).length)))

/-- The cells in use. -/
def State.cells (s : State) : Nat :=
  total ((s.pkts.filter (fun k => k.place.held)).map (fun k => cellsFor k.frame.length))
    + total (s.egr.queues.map (fun q => q.2.banks.units * cellsFor s.queueBank))
    + total ((List.range 32).map (fun q =>
        spillCells s.impl.barrierBank (s.barrierBytes q) + spillCells s.impl.intakeBank (s.intakeBytes q)))
    + s.sharedCells

/-- The free cells. -/
def State.cellsFree (s : State) : Nat := s.fact .hmpSize * 2 ^ 22 - s.cells

/-- A hold of `n` bytes finds its cells. -/
def State.holdRoom (s : State) (n : Nat) : Bool := decide (cellsFor n ≤ s.cellsFree)

/-- A FIFO on the way in, of two banks and holding `have_` bytes, takes `n` more: its spill finds cells, of the reserve
too (10 R323). -/
def State.fifoTakes (s : State) (bank have_ n : Nat) : Bool :=
  decide (spillCells bank (have_ + n) - spillCells bank have_ ≤ s.cellsFree)

/-- A spill on the way out takes `n` cells: free cells beyond the reserve, within the partition's quota (10 R323). -/
def State.spillRoom (s : State) (p n : Nat) : Bool :=
  decide (n + s.fval .hmpHoldRsv * 2 ^ 22 ≤ s.cellsFree) && decide (s.partCells p + n ≤ s.fval .hmpQuota p * 4096)

/-! ### Flow keys (05 R157, R158) -/

/-- The flow key of a packet. -/
def flowKeyOf (part : Nat) (g : Graph) (keys : SMap Word) : Bytes :=
  let ws := g.keyWords
  let mask := ws.foldl (fun a i => a + 2 ^ (i - 16)) 0
  fitTo 64 (leBytes 1 part ++ [0] ++ leBytes 6 mask ++ ws.flatMap (fun i => leBytes 4 (smGet 0 keys i).toNat))

/-- The flow hash: h2 above h1; 1 in place of 0. -/
def flowHash (key : Bytes) : DWord :=
  let h := dw ((crc32c (key ++ [1])).toNat * 2 ^ 32 + (crc32c key).toNat)
  if h = 0 then 1 else h

/-- h1[31:16]. -/
def bucketOf (fh : DWord) : Nat := bitsOf fh.toNat 31 16
/-- The flow-table sets of a flow hash. -/
def setA (fh : DWord) : Nat := bitsOf fh.toNat 20 0
def setB (fh : DWord) : Nat := bitsOf fh.toNat 52 32
/-- The hot-cache set. -/
def hotSet (fh : DWord) : Nat := bitsOf fh.toNat 63 52

/-- The pipeline of a bucket (05 R169). -/
def State.pipeOf (s : State) (b : Nat) : Nat := smGet (b % 16) s.flow.pipeOf b

/-- The hot form of a flow in a slice. -/
def State.hotIn (s : State) (k : Nat) (fh : DWord) : Option HotForm :=
  s.flow.hots.find? (fun h => decide (h.slice = k) && decide (h.fh = fh))

/-- The hot form of a flow by its index. -/
def State.hotOf (s : State) (i : Nat) : Option HotForm := s.flow.hots.find? (fun h => decide (h.index = i))

/-- The packet's pinned epoch. -/
def Packet.ep (k : Packet) (s : State) : Epoch := s.epochOf k.part k.epoch
/-- A packet-epoch field of the packet's partition, as its epoch fixes it (09 R290). -/
def Packet.fv (k : Packet) (s : State) (n : FName) : Nat := (k.ep s).fval n k.part

/-- Ask the flow agent for the packet's flow after a hot-cache miss, unless its slice has asked already (05 R161,
R165). -/
def requestFlow (k : Packet) (s : State) : State :=
  if k.fv s .flowEn = 0 ∨ (s.hotIn k.pipe k.fh).isSome
      ∨ s.flow.reqs.any (fun r => decide (r.pipe = k.pipe) && decide (r.fh = k.fh)) then s
  else
    let r : FetchReq := { pipe := k.pipe, fh := k.fh, part := k.part, key := k.flowKey, intake := k.intake,
                          epoch := k.epoch, firstPass := decide (k.pass = 1), pkt := k.id, since := s.now }
    { s with flow := { s.flow with reqs := s.flow.reqs ++ [r] } }

/-- A packet enters the pipeline of its bucket, behind every packet there (03 R88, 05 R165, R170). -/
def enterPipe (k : Packet) (s : State) : State :=
  let p := s.pipeOf k.bucket
  let k := { k with pipe := p, place := .reed }
  let s := s.setPkts (s.pkts.filter (fun x => decide (x.id ≠ k.id)) ++ [k])
  let s := countBridge (s.engineOf k.port / 2) (dieOfPipe p) k.frame.length (s.countFor k (.pipe p .pkts))
  let s := { s with flow := { s.flow with load := smMod 0 s.flow.load p (· + 1),
                                           bload := smMod 0 s.flow.bload k.bucket (· + 1) } }
  requestFlow k s

/-- Packets of a bucket wait: it moves, or its pipeline is being fenced (05 R171, 13 R407). A move of bucket 65,536
stands for every bucket of its pipeline. -/
def State.bucketMoving (s : State) (b : Nat) : Bool :=
  s.flow.moves.any (fun m => decide (m.bucket = b) || (decide (m.bucket = 65536) && decide (m.from_ = s.pipeOf b)))

/-- Steering sends a packet to its pipeline, or into the hold queue of a bucket that moves (05 R171, 13 R407). The
packet is in the list already. -/
def steerPkt (k : Packet) (s : State) : State :=
  if s.bucketMoving k.bucket then
    if s.holdRoom k.frame.length then
      let k := { k with place := .bucketHold k.bucket }
      s.setPkts (s.pkts.filter (fun x => decide (x.id ≠ k.id)) ++ [k])
    else dropPkt .holdNobuf k s
  else enterPipe k s

/-- Form the flow key and bucket of a packet from its walk (03 R88). -/
def keyPkt (g : Graph) (w : Walk) (k : Packet) : Packet :=
  let key := flowKeyOf k.part g w.keys
  let fh := flowHash key
  { k with flowKey := key, fh := fh, bucket := bucketOf fh }

/-- The oldest packet of pipeline k in a place; a recirculated packet first at REED (10 R310). -/
def State.oldestAt (s : State) (k : Nat) (p : Place) : Option Packet :=
  let l := s.pkts.filter (fun x => decide (x.pipe = k) && decide (x.place = p))
  match l.find? (fun x => decide (p = .reed) && decide (1 < x.pass)) with
  | some x => some x
  | none => l.head?

end Sys2Proof.Machine
end

