-- ==== Sys2Proof/Machine/FabSend.lean ====
section
/-! DEFINITION. Messages of the fabric (11 R349 to R354): routing, sequence numbers, and delivery in order. -/

namespace Sys2Proof.Machine

/-- The bytes of a message's header and padded payload (11 R349). -/
def msgBytes (m : Msg) : Bytes :=
  leBytes 2 (m.dst + m.cls * 2 ^ 14) ++ leBytes 2 (m.src + m.hop * 2 ^ 14) ++ leBytes 2 m.mseq
    ++ leBytes 1 m.mtype ++ leBytes 1 (m.part % 64) ++ leBytes 2 m.body.length ++ [0, 0] ++ leBytes 4 m.arg.toNat
    ++ pad8 m.body

/-- The message of a header of 16 bytes and its payload. -/
def readMsg (b : Bytes) : Msg :=
  { dst := uAt b 0 2 % 2 ^ 14, cls := uAt b 0 2 / 2 ^ 14, src := uAt b 2 2 % 2 ^ 14, hop := uAt b 2 2 / 2 ^ 14,
    mseq := uAt b 4 2, mtype := uAt b 6 1, part := uAt b 7 1 % 64, arg := w32 (uAt b 12 4),
    body := slice b 16 (uAt b 8 2) }

/-- A link is UP. -/
def State.linkUp (s : State) (l : Nat) : Bool := decide ((s.link l).state = 3)

/-- The local node ID names this node (11 R353). -/
def State.isLocal (s : State) (node : Nat) : Bool := s.fab.joined && decide (node = s.fab.nodeId)

/-- The link of a message to another node (11 R353). -/
def routeLink (s : State) (dst src cls : Nat) : Option Nat :=
  let e := smGet {} s.tabs.routes dst
  let up := (e.links.take e.paths).filter (fun l => s.linkUp l)
  if up = [] then none else some (nth 0 up ((src + cls) % up.length))

/-- A message that came on link `came`, or starts here, waits for link l. -/
def enqueueMsg (came l : Nat) (m : Msg) (s : State) : State :=
  s.modLink l (fun x => { x with outQ := x.outQ ++ [(came, m)] })

/-- The credit buffer of a class and hop, as CR_SEL names it (11 R344). -/
def bufIx (cls hop : Nat) : Nat := cls + 4 * hop
/-- The buffers in ascending class and then hop. -/
def bufs : List Nat := (List.range 3).flatMap (fun c => [1, 2, 3].map (bufIx c))

/-- The bytes of a message on a link, and its credits (11 R351). -/
def msgSize (m : Msg) : Nat := 16 + (pad8 m.body).length
def msgCredits (m : Msg) : Nat := ceilDiv (msgSize m) 64

/-- The source of a message that has given its credits back already. -/
def noLink : Nat := 32

/-- The receiver of link l returns the credits of a message that came on it (11 R351). -/
def returnCredit (l : Nat) (m : Msg) (hop : Nat) (s : State) : State :=
  if l = noLink then s
  else s.modLink l (fun x => { x with crRet := smMod 0 x.crRet (bufIx m.cls hop) (· + h16 (msgCredits m)) })

/-- The key of the sequence maps. -/
def seqKey (node cls : Nat) : Nat := node * 4 + cls

/-- The class that the type of a message belongs to (11 R350). -/
def classOf (mtype : Nat) : Option Nat :=
  if 1 ≤ mtype ∧ mtype ≤ 6 then some 0
  else if 0x10 ≤ mtype ∧ mtype ≤ 0x16 then some 1
  else if mtype = 0x20 ∨ mtype = 0x21 then some 2
  else none

/-- Hand over a message that has its turn, and count it; one whose type is undefined or in the wrong class is
discarded (11 R350, R354). One that still holds credits of its last hop gives them back. -/
def handOver (l : Nat) (m : Msg) (s : State) : State :=
  let s := if 1 ≤ m.hop then returnCredit l m m.hop s else s
  let s := { s with fab := { s.fab with mseqRx := smSet s.fab.mseqRx (seqKey m.src m.cls) ((m.mseq + 1) % 65536) } }
  if classOf m.mtype = some m.cls then
    let s := s.count (.bytes m.part .fabricRx) (16 + (pad8 m.body).length)
    { s with fab := { s.fab with inbox := s.fab.inbox ++ [(l, m)] } }
  else s.count (.module_ .fabBadMsg)

/-- The expected sequence number of a source and class. -/
def State.expMseq (s : State) (src cls : Nat) : Nat := smGet 0 s.fab.mseqRx (seqKey src cls)

/-- A message of the reorder store that is expected. -/
def expected (s : State) (src cls : Nat) (x : Nat × Msg) : Bool :=
  decide (x.2.src = src) && decide (x.2.cls = cls) && decide (x.2.mseq = s.expMseq src cls)

/-- Deliver the messages of the reorder store that have become expected. -/
def drainReorder (src cls : Nat) : (fuel : Nat) → State → State
  | 0, s => s
  | k + 1, s =>
    match s.fab.reorder.find? (expected s src cls) with
    | none => s
    | some x =>
      let l := delFirst (expected s src cls) s.fab.reorder
      drainReorder src cls k (handOver x.1 x.2 { s with fab := { s.fab with reorder := l } })

/-- Some message of a source and class waits early. -/
def hasEarly (s : State) (src cls : Nat) : Bool :=
  s.fab.reorder.any (fun x => decide (x.2.src = src) && decide (x.2.cls = cls))

/-- The time since which a gap is open follows the reorder store. -/
def noteGap (src cls : Nat) (fresh : Bool) (s : State) : State :=
  let k := seqKey src cls
  let g := if !hasEarly s src cls then smDel s.fab.gapSince k
    else if fresh || (smFind s.fab.gapSince k).isNone then smSet s.fab.gapSince k s.now else s.fab.gapSince
  { s with fab := { s.fab with gapSince := g } }

/-- The bytes in the fabric's reorder store: the messages that hold no credits of a link any more. -/
def State.reorderBytes (s : State) : Nat := total ((s.fab.reorder.filter (fun x => decide (x.2.hop = 0))).map (fun x => msgSize x.2))

/-- A message that came early waits in the reorder store, which takes it from the link's receiver and gives its credits back;
while the store's spill finds no cell, the message goes on holding them (11 R351, R354, 10 R320; DESIGN CHOICE, log 84). -/
def storeEarly (l : Nat) (m : Msg) (s : State) : State :=
  let room := s.fifoTakes s.impl.fabBank s.reorderBytes (msgSize m)
  let s := if room && decide (1 ≤ m.hop) then returnCredit l m m.hop s else s
  { s with fab := { s.fab with reorder := s.fab.reorder ++ [(l, if room then { m with hop := 0 } else m)] } }

/-- Deliver a message at its destination in sequence order (11 R354); one that the destination has passed is
discarded. -/
def deliverMsg (l : Nat) (m : Msg) (s : State) : State :=
  let ahead := (m.mseq + 65536 - s.expMseq m.src m.cls) % 65536
  if ahead = 0 then
    let s := handOver l m s
    noteGap m.src m.cls true (drainReorder m.src m.cls s.fab.reorder.length s)
  else if ahead < 32768 then noteGap m.src m.cls false (storeEarly l m s)
  else if 1 ≤ m.hop then returnCredit l m m.hop s
  else s

/-- Route a message that has arrived on link `l` or is sent here (11 R353). -/
def routeMsg (l : Nat) (m : Msg) (s : State) : State :=
  if s.isLocal m.dst then deliverMsg l m s
  else if m.hop = 3 then s.count (.module_ .fabHopLimit)
  else match routeLink s m.dst m.src m.cls with
    | none => s.count (.module_ .fabNoRoute)
    | some x => enqueueMsg l x { m with hop := m.hop + 1 } s

/-- Send a message to a node: it takes the next sequence number where a path exists (11 R349). -/
def sendMsg (dst cls mtype part : Nat) (arg : Word) (body : Bytes) (s : State) : State :=
  if (routeLink s dst s.fab.nodeId cls).isNone then s.count (.module_ .fabNoRoute)
  else
    let k := seqKey dst cls
    let q := smGet 0 s.fab.mseqTx k
    let m : Msg := { dst := dst, cls := cls, src := s.fab.nodeId, hop := 0, mseq := q, mtype := mtype, part := part,
                     arg := arg, body := body }
    let s := { s with fab := { s.fab with mseqTx := smSet s.fab.mseqTx k ((q + 1) % 65536) } }
    routeMsg 0 m (s.count (.bytes part .fabricTx) (16 + (pad8 body).length))

/-- A message that a row handles leaves the inbox. -/
def takeMsg (m : Msg) (s : State) : State :=
  { s with fab := { s.fab with inbox := delFirst (fun x => decide (x.2 = m)) s.fab.inbox } }

end Sys2Proof.Machine
end

