-- ==== Sys2Proof/Machine/FabLink.lean ====
section
/-! DEFINITION. Shatiet links (11 R342 to R352, R360, R361): going down and coming up, frames sent and received, credits,
retry and rekey. Log 53 holds what the manual leaves open of HELLO, KEY_EXCH and a payload's unused end, log 54 what a
link that goes down does with its messages. -/

namespace Sys2Proof.Machine

/-! ### Links -/

def State.setFab (s : State) (f : Fab) : State := { s with fab := f }

/-- The node ID that this node has or is joining with. -/
def State.myNode (s : State) : Nat :=
  if s.fab.joined then s.fab.nodeId else match s.fab.join with | some j => j.node | none => s.fab.nodeId

def State.linksUp (s : State) : List Nat := (List.range 32).filter s.linkUp

/-- The lasers that light a link's engine are on (01 R16, R18). -/
def State.linkLit (s : State) (l : Nat) : Bool := s.laserUp (l / 8)

/-- The optical lanes of a link as unit indexes (11 R342, 13 R418). -/
def linkLanes (l : Nat) : List Nat := (List.range 4).map (fun i => 17 * (4 + l / 4) + 4 * (l % 4) + i)

/-- The bytes of a frame that lane j of the link's four carries: the 4-byte units u with u mod 4 = j (11 R342). -/
def laneBytes (f : Bytes) (j : Nat) : Bytes :=
  (List.range (ceilDiv f.length 4)).flatMap (fun u => if u % 4 = j then slice f (4 * u) (min 4 (f.length - 4 * u)) else [])

/-- DARN is moving a lane of a link (13 R406). -/
def laneMoving (s : State) (l : Nat) : Bool :=
  match s.darn.proc with
  | some p => decide (p.action = 4) && (linkLanes l).any (fun i => decide (p.unit = laneUnit i))
  | none => false

/-- A message to a link peer over one link (11 R364, R369): it takes a sequence number of its own. -/
def sendOnLink (l mtype : Nat) (arg : Word) (body : Bytes) (s : State) : State :=
  let d := (s.link l).peer
  let k := seqKey d 0
  let q := smGet 0 s.fab.mseqTx k
  let m : Msg := { dst := d, cls := 0, src := s.myNode, hop := 1, mseq := q, mtype := mtype, part := 0, arg := arg,
                   body := body }
  enqueueMsg l l m (s.setFab { s.fab with mseqTx := smSet s.fab.mseqTx k ((q + 1) % 65536) })

/-! ### Keys (11 R360, R361) -/

/-- The ephemeral share that a drawn key stands for. -/
def shareBytes (k : Nat) : Bytes := publicKey k

/-- The KEY_EXCH payload: the share, and its signature by the device identity key. -/
def keyExchBody (s : State) (k : Nat) : Bytes := shareBytes k ++ zeros 7 ++ signBytes s.identityKey (shareBytes k)

/-- The HELLO payload: node ID, link number, and certificates 0 to 2. -/
def helloBody (s : State) (l : Nat) : Bytes := leBytes 2 s.myNode ++ leBytes 1 l ++ zeros 5 ++ certList s 3

/-- The bring-up messages of a link, before it has a key. -/
def bringUp (l : Nat) (s : State) : State :=
  let (k, s) := drawKey s
  let m : Msg := { dst := 0, cls := 0, src := s.myNode, hop := 1, mseq := 0, mtype := 1, part := 0, arg := 0,
                   body := helloBody s l }
  s.modLink l (fun x => { x with share := k, lastOut := msgBytes m ++ msgBytes { m with mtype := 2, body := keyExchBody s k } })

/-- The key of one direction of a link: HKDF-SHA-384 over the shared secret of this end's share and the peer's, with the
sender's node ID and link number (11 R360). The salt is empty, and the label with both numbers is the info (log 53). -/
def linkKey (x : Link) (share : Bytes) (node l : Nat) : Nat :=
  let secret := (List.range 48).map (Config.ecdhByte x.share share)
  keyOfBytes (hkdf384 secret (asciiBytes "shatiet link" ++ leBytes 2 node ++ leBytes 1 l) 32)

/-- The GCM nonce of a frame: the sender's node ID and link, and the frame counter (11 R361). -/
def linkNonce (node l ctr : Nat) : Bytes := leBytes 2 node ++ leBytes 1 l ++ [0] ++ leBytes 8 ctr

/-! ### Up and down -/

/-- A link with no key, frames or credits, in a state. -/
def Link.cleared (x : Link) (st : Nat) : Link :=
  { state := st, wanted := x.wanted, peer := x.peer, peerLink := x.peerLink, peerChain := x.peerChain,
    keyGen := x.keyGen, sent := x.sent, retries := x.retries, authFail := x.authFail, hopNs := x.hopNs }

/-- The messages of a link that have started and that its peer has not acknowledged whole (11 R347). -/
def Link.sentMsgs (x : Link) : List (Nat × Msg) := x.retry.flatMap (·.ends) ++ x.begun.map (fun e => (e.1, e.2.1))

/-- The messages that a link which goes down still holds: those that have started gave their credits back as they did. -/
def Link.heldMsgs (x : Link) : List (Nat × Msg) := x.sentMsgs.map (fun e => (noLink, e.2)) ++ x.outQ

/-- A link leaves UP: no message is lost, so those that it holds are routed again (11 R354), and a LINK_REKEY of it completes
with ABORTED. A message for the link's own peer has no other way and counts as FAB_NO_ROUTE (log 54). -/
def linkDown (l st : Nat) (s : State) : State :=
  let x := s.link l
  let s := s.setLink l (x.cleared st)
  let s := match x.rekeyCtx with | some c => finish c .aborted [] 0 0 s | none => s
  x.heldMsgs.foldl (fun s e =>
    let m : Msg := { e.2 with hop := e.2.hop - 1 }
    let gone := decide (m.cls = 0) && decide (m.dst = x.peer)
    -- a message that came on a link and goes no further gives its credits back
    let lost := decide (1 ≤ m.hop) && (gone || (routeLink s m.dst m.src m.cls).isNone)
    let s := if lost then returnCredit e.1 m m.hop s else s
    if gone then s.count (.module_ .fabNoRoute) else routeMsg e.1 m s) s

/-- A link goes down and re-authenticates (11 R348, R361). -/
def reAuth (l : Nat) (s : State) : State := bringUp l (linkDown l 2 s)

/-- The sequence numbers of a node begin again when its first link comes up (log 54). -/
def freshPeer (n : Nat) (s : State) : State :=
  if s.linksUp.any (fun l => decide ((s.link l).peer = n)) then s
  else
    let s := s.setFab { s.fab with mseqTx := smDelRange s.fab.mseqTx (n * 4) (n * 4 + 4),
                                   mseqRx := smDelRange s.fab.mseqRx (n * 4) (n * 4 + 4) }
    let t := s.tiles
    { s with tiles := { t with collTo := smDelRange t.collTo (n * 128) (n * 128 + 128),
                               collFrom := smDelRange t.collFrom (n * 128) (n * 128 + 128) } }

/-- The fabric's STATIC fields take effect where the node comes to be joined (11 R370, 00 R13). -/
def enableFabric (s : State) : State :=
  if s.fab.joined then s
  else ([0, 1, 2].foldl (fun s c => s.takeStored .fabCredit c) s).takeStored .fabTimeSrc 0

/-- A link comes UP with the keys that the peer's share gives and full credits (11 R351, R360). -/
def linkUpNow (l : Nat) (share : Bytes) (s : State) : State :=
  let s := freshPeer (s.link l).peer (enableFabric s)
  s.modLink l (fun x => { x.cleared 3 with
    txKey := some (linkKey x share s.myNode l), rxKey := some (linkKey x share x.peer x.peerLink), keyGen := x.keyGen + 1,
    credits := bufs.foldl (fun m k => smSet m k (s.fact .fabCredit (k % 4))) [] })

/-! ### Sending (11 R344 to R347, R351, R352) -/

/-- The oldest message of a class, where the link holds its credits. -/
def Link.ready (x : Link) (cls : Nat) : Option Msg :=
  match x.outQ.find? (fun e => decide (e.2.cls = cls)) with
  | some e => if msgCredits e.2 ≤ smGet 0 x.credits (bufIx cls e.2.hop) then some e.2 else none
  | none => none

def Link.deficit (x : Link) (c : Nat) : Nat := if c = 1 then x.flowDef else x.collDef
def Link.setDeficit (x : Link) (c v : Nat) : Link := if c = 1 then { x with flowDef := v } else { x with collDef := v }

/-- Deficit round robin turns to the other class. -/
def Link.turn (x : Link) (quantum : Nat → Nat) : Link :=
  let o := 3 - x.drrAt
  { x.setDeficit o (x.deficit o + quantum o) with drrAt := o }

/-- The class that deficit round robin serves next. -/
def linkPick (quantum : Nat → Nat) : (fuel : Nat) → Link → Option (Nat × Link)
  | 0, _ => none
  | k + 1, x =>
    let c := x.drrAt
    match x.ready c with
    | some m =>
      if msgSize m ≤ x.deficit c then some (c, x.setDeficit c (x.deficit c - msgSize m))
      else linkPick quantum k (x.turn quantum)
    | none => if (x.ready (3 - c)).isSome then linkPick quantum k ((x.setDeficit c 0).turn quantum) else none

/-- The class whose message starts next: CTRL first. -/
def nextClass (quantum : Nat → Nat) (x : Link) : Option (Nat × Link) :=
  if (x.ready 0).isSome then some (0, x) else linkPick quantum 200 x

/-- The transmitter writes T1 of a TIME_REQ and T3 of a TIME_RESP as the message starts (11 R365). -/
def stamped (now : DWord) (m : Msg) : Msg :=
  if m.mtype = 3 then { m with body := splice m.body 0 (leBytes 8 now.toNat) }
  else if m.mtype = 4 then { m with body := splice m.body 16 (leBytes 8 now.toNat) }
  else m

/-- Messages start until a payload is full or none may start. -/
def fillTx (l : Nat) : (fuel : Nat) → State → State
  | 0, s => s
  | k + 1, s =>
    if 1968 ≤ (s.link l).txBuf.length then s
    else match nextClass (fun c => s.fval .fabWeight (c - 1) * 64) (s.link l) with
      | none => s
      | some (c, x) =>
        match x.outQ.find? (fun e => decide (e.2.cls = c)) with
        | none => s
        | some (came, m) =>
          let s := s.setLink l { x with
            outQ := delFirst (fun e => decide (e.2.cls = c)) x.outQ,
            credits := smMod 0 x.credits (bufIx c m.hop) (· - msgCredits m),
            txBuf := x.txBuf ++ msgBytes (stamped s.now m),
            begun := x.begun ++ [(came, m, x.txBuf.length + msgSize m)] }
          fillTx l k (if 2 ≤ m.hop then returnCredit came m (m.hop - 1) s else s)

/-- The buffer whose count the next frame tells: the next with unreported returns (11 R345). -/
def nextSel (x : Link) : Nat :=
  let i := (bufs.takeWhile (fun k => decide (k ≠ x.crSel))).length
  let due := fun k => decide (smGet 0 x.crRet k ≠ smGet 0 x.crTold k)
  ((bufs.drop (i + 1) ++ bufs.take (i + 1)).find? due).getD x.crSel

/-- The last frame under the old key: the new key is agreed, and the peer has acknowledged this end's share. -/
def isPhaseEnd (x : Link) (rest : Bytes) : Bool :=
  x.newTx.isSome && !x.switching && rest.isEmpty && (x.outQ ++ x.sentMsgs).all (fun e => decide (e.2.mtype ≠ 2))

/-- The 12 header bytes of a frame. -/
def frameHead (x : Link) (idle last : Bool) (sel : Nat) : Bytes :=
  leBytes 3 x.txCtr ++ leBytes 1 (b2n x.txPhase + b2n idle * 2 + b2n last * 4 + b2n x.expPhase * 8)
    ++ leBytes 3 x.expCtr ++ [x.nakCnt] ++ leBytes 2 (smGet 0 x.crRet sel).toNat ++ leBytes 1 sel ++ [0]

/-- A frame of 2,000 bytes: header, ciphertext, tag and CRC. -/
def frameBytes (node l : Nat) (x : Link) (idle last : Bool) (sel : Nat) (payload : Bytes) : Bytes :=
  let h := frameHead x idle last sel
  let b := h ++ gcmSeal (x.txKey.getD 0) (linkNonce node l x.txCtr) h (fitTo 1968 payload)
  b ++ leBytes 4 (crc32c b).toNat

/-- The transmitter sends a frame. -/
def sendBytes (l : Nat) (b : Bytes) (s : State) : State :=
  let s := s.modLink l (fun x => { x with lastOut := b, sent := x.sent + 1 })
  (s.count (.link l .txBytes) b.length).count (.link l .framesSent)

/-- The next new frame of a link. The reply of LINK_REKEY is the time of the first frame under the new key. -/
def sendNew (l : Nat) (s : State) : State :=
  let s := fillTx l 128 s
  let x := s.link l
  let rest := x.txBuf.drop 1968
  let sel := nextSel x
  let last := isPhaseEnd x rest
  let b := frameBytes s.myNode l x x.txBuf.isEmpty last sel x.txBuf
  let first := x.switching && decide (x.txCtr = 0)
  let x := { x with
    txBuf := rest, crSel := sel, crTold := smSet x.crTold sel (smGet 0 x.crRet sel),
    retry := x.retry ++ [{ phase := x.txPhase, ctr := x.txCtr, bytes := b,
                           ends := (x.begun.filter (fun e => decide (e.2.2 ≤ 1968))).map (fun e => (e.1, e.2.1)) }],
    begun := (x.begun.filter (fun e => decide (1968 < e.2.2))).map (fun e => (e.1, e.2.1, e.2.2 - 1968)),
    txCtr := x.txCtr + 1 }
  let x := if last then { x with txKey := x.newTx, newTx := none, txPhase := !x.txPhase, txCtr := 0, switching := true, keyGen := x.keyGen + 1 }
    else x
  let s := sendBytes l b (s.setLink l x)
  match first, x.rekeyCtx with
  | true, some c => finish c .ok (leBytes 8 s.now.toNat) 0 0 (s.modLink l (fun y => { y with rekeyCtx := none }))
  | _, _ => s

/-- The next frame of an up link: a frame to send again, or a new one while the retry buffer has room. -/
def linkSend (l : Nat) (s : State) : State :=
  match (s.link l).resend with
  | f :: r =>
    let s := s.modLink l (fun x => { x with resend := r, retries := x.retries + 1 })
    sendBytes l f.bytes (s.count (.link l .retries))
  | [] => if (s.link l).retry.length < 128 then sendNew l s else s

/-! ### Receiving (11 R345 to R348, R361) -/

/-- Every retry frame that the peer's ACK acknowledges leaves the buffer; a rekey whose old frames have all left is
complete. -/
def applyAck (ack : Nat) (phase : Bool) (x : Link) : Link :=
  let keep : LFrame → Bool := fun f =>
    if x.switching && decide (phase = x.txPhase) && decide (f.phase ≠ phase) then false
    else if f.phase ≠ phase then true
    else
      -- how far the acknowledged value lies beyond this frame
      let d := (ack + 2 ^ 24 - f.ctr % 2 ^ 24) % 2 ^ 24
      !(decide (0 < d) && decide (d ≤ 128))
  let r := x.retry.filter keep
  let done := x.switching && r.all (fun f => decide (f.phase = x.txPhase))
  { x with retry := r, resend := x.resend.filter (fun f => r.contains f),
           switching := x.switching && !done, rekey := x.rekey && !(done && x.newRx.isNone) }

/-- The header fields of an accepted frame act on a change of value. -/
def applyHead (h : Bytes) (x : Link) : Link :=
  let x := applyAck (uAt h 4 3) ((uAt h 3 1).testBit 3) x
  let x := if byteAt h 7 ≠ x.nakSeen then { x with nakSeen := byteAt h 7, resend := x.retry } else x
  let k := uAt h 10 1 % 16
  let c := h16 (uAt h 8 2)
  { x with credits := smMod 0 x.credits k (· + (c - smGet 0 x.crSeen k).toNat), crSeen := smSet x.crSeen k c }

/-- The messages at the front of a byte stream, and what is left of it; a header with HOP 0 is padding to the end of the
payload. -/
def parseStream : (fuel : Nat) → Bytes → List Msg × Bytes
  | 0, b => ([], b)
  | k + 1, b =>
    if b.length < 8 then ([], b)
    else if uAt b 2 2 / 2 ^ 14 = 0 then ([], [])
    else if b.length < 16 then ([], b)
    else
      let m := readMsg b
      if b.length < msgSize { m with body := zeros (uAt b 8 2) } then ([], b)
      else
        let (l, r) := parseStream k (b.drop (msgSize m))
        (m :: l, r)

/-- A message that has come whole on a link goes on, or is delivered; one of class 3 is discarded (11 R350, R353). The
arrival of a time message is that of the first byte of its frame (11 R364). -/
def arriveMsg (l : Nat) (at_ : DWord) (m : Msg) (s : State) : State :=
  let here := decide (m.dst = s.myNode)
  let s := if m.cls == 3 || (!here && (m.hop == 3 || (routeLink s m.dst m.src m.cls).isNone)) then returnCredit l m m.hop s else s
  if m.cls = 3 then s.count (.module_ .fabBadMsg)
  else if here then
    deliverMsg l m (if m.mtype = 3 ∨ m.mtype = 4 then s.setFab { s.fab with timeAt := s.fab.timeAt ++ [({ m with hop := 0 }, at_)] } else s)
  else routeMsg l m s

/-- The arrival of a time message. -/
def State.arrivalOf (s : State) (m : Msg) : DWord :=
  match s.fab.timeAt.find? (fun e => decide (e.1 = { m with hop := 0 })) with | some e => e.2 | none => s.now

/-- A time message that a row handles leaves the inbox. -/
def takeTime (m : Msg) (s : State) : State :=
  let s := takeMsg m s
  s.setFab { s.fab with timeAt := delFirst (fun e => decide (e.1 = { m with hop := 0 })) s.fab.timeAt }

/-- The messages of a byte stream arrive: the first, where some of it had come before, with an earlier frame. -/
def arriveAll (l : Nat) (first : DWord) : List Msg → State → State
  | [], s => s
  | m :: r, s => arriveAll l s.now r (arriveMsg l first m s)

/-- A frame fails: its receiver asks for a retry. No row says which lane's FEC flagged it. -/
def frameBad (l : Nat) (s : State) : State :=
  (s.modLink l (fun x => { x with nakCnt := x.nakCnt + 1, prevBad := true })).count (.link l .retryNolane)

/-- A frame whose tag fails: handled as a CRC failure, and the fourth in a row takes the link down. -/
def tagBad (l : Nat) (s : State) : State :=
  let s := s.modLink l (fun x => { x with authFail := x.authFail + 1, tagFails := x.tagFails + 1 })
  let s := frameBad l (s.count (.link l .authFail))
  if 4 ≤ (s.link l).tagFails then reAuth l s else s

/-- The receiver's expected pair moves to the new phase. -/
def Link.nextPhase (x : Link) : Link :=
  { x with expPhase := !x.expPhase, expCtr := 0, rxKey := x.newRx, newRx := none, ended := false,
           rekey := x.rekey && (x.switching || x.newTx.isSome) }

/-- An accepted frame. A PHASE_END moves the expected pair, at once or, where KEY_EXCH is still to be handled, behind it. -/
def acceptFrame (l : Nat) (h payload : Bytes) (s : State) : State :=
  let flags := uAt h 3 1
  let s := s.modLink l (fun x =>
    let x := { x with expCtr := x.expCtr + 1, prevBad := false, tagFails := 0 }
    let x := if flags.testBit 2 then (if x.newRx.isSome then x.nextPhase else { x with ended := true }) else x
    applyHead h x)
  if flags.testBit 1 then s
  else
    let x := s.link l
    let (ms, rest) := parseStream 400 (x.rxBuf ++ payload)
    let first := if x.rxBuf = [] then s.now else x.rxAt
    arriveAll l first ms (s.modLink l (fun x => { x with rxBuf := rest, rxAt := if ms = [] then first else s.now }))

/-- The counter that a frame of the expected phase names: bits [63:24] are those of the counter next to the expected one
(11 R348; DEDUCED, log 53). -/
def fullCtr (exp low : Nat) : Nat :=
  let d := (low + 2 ^ 24 - exp % 2 ^ 24) % 2 ^ 24
  if d < 2 ^ 23 then exp + d else exp + d - 2 ^ 24

/-- The key under which the tag of a frame is checked, with the frame's counter: none for a phase whose key is not known. -/
def Link.tagKey (x : Link) (h : Bytes) : Option (Nat × Nat) :=
  if (uAt h 3 1).testBit 0 = x.expPhase then some (x.rxKey.getD 0, fullCtr x.expCtr (uAt h 0 3))
  else x.newRx.map (fun k => (k, uAt h 0 3))

/-- A frame with a good CRC and tag that is not the expected one: after a bad frame, or where the key of its phase is still to
come, the receiver asks for a retry. -/
def unexpected (l : Nat) (s : State) : State :=
  let x := s.link l
  if x.prevBad || x.ended then (frameBad l s).modLink l (fun y => { y with prevBad := false }) else s

/-- A frame that arrives on an up link: its CRC is checked, then its tag, then its phase and counter (11 R348). -/
def linkReceive (l : Nat) (f : Bytes) (s : State) : State :=
  let s := s.count (.link l .rxBytes) f.length
  let x := s.link l
  let h := f.take 12
  if f.length ≠ 2000 ∨ uAt f 1996 4 ≠ (crc32c (f.take 1996)).toNat then frameBad l s
  else match x.tagKey h with
    | none => unexpected l s
    | some (k, ctr) =>
      match gcmOpen s k (linkNonce x.peer x.peerLink ctr) h (slice f 12 1984) with
      | none => tagBad l s
      | some p =>
        if (uAt h 3 1).testBit 0 = x.expPhase ∧ ctr = x.expCtr then acceptFrame l h p s else unexpected l s

/-! ### Rekeying (11 R361) -/

/-- This end sends its KEY_EXCH over an up link. -/
def sendKeyExch (l : Nat) (s : State) : State :=
  let (k, s) := drawKey s
  sendOnLink l 2 0 (keyExchBody s k) (s.modLink l (fun x => { x with rekey := true, share := k }))

/-- REKEY_THRESHOLD. -/
def rekeyThreshold (l : Nat) (s : State) : State :=
  let x := s.link l
  if s.fabUp && s.linkUp l && !x.rekey && decide (2 ^ s.fval .fabRekeyAt ≤ x.txCtr) then sendKeyExch l s else s

def execRekeyThreshold (link : Nat) (s : State) : Host.Outcome State Fault Refusal := .next (rekeyThreshold link s)

/-- KEY_COUNTER_EXHAUSTED: the counter has reached 2^48 − 1 without a completed rekey. -/
def counterExhausted (l : Nat) (s : State) : State :=
  if s.fabUp && s.linkUp l && decide (2 ^ 48 - 1 ≤ (s.link l).txCtr) then reAuth l s else s

def execKeyCounterExhausted (link : Nat) (s : State) : Host.Outcome State Fault Refusal := .next (counterExhausted link s)

/-- LINK_REKEY: the reply comes with the first frame under the new key. A link that is not UP gives NOT_READY. -/
def execLinkRekey (c : CmdCtx) (link : Nat) (s : State) : Host.Outcome State Fault Refusal :=
  .next (runCmd c 0x510
    (fun _ => firstFail [p0Only c, (decide (31 < link), .badParam)])
    (fun s =>
      if !s.linkUp link then finish c .notReady [] 0 0 s
      else if (s.link link).rekey then finish c .busy [] 0 0 s
      else sendKeyExch link (s.modLink link (fun x => { x with rekeyCtx := some c }))) s)

end Sys2Proof.Machine
end

