-- ==== Sys2Proof/Machine/Encode.lean ====
section
/-! DEFINITION. The encoder of super-blocks and their decoding as byte strings (08 R269, R274, R249, R253), for the formats
of one byte per element that training uses: INT8, FP8-E4M3, FP8-E5M2 and CB8, with SCALE_MODE 1. -/

namespace Sys2Proof.Machine

/-! ### Grids -/

/-- A format's grid: its values times 2^16 with their codes; the factor that scales them (CB_SCALE); whether ties go to
the even code (else to the lowest) and whether a negative zero has a code; the escape code, and the codes of the largest
and the smallest entry, where outliers escape. -/
structure Grid where
  pts    : List (Int × Nat)
  factor : Fl
  even   : Bool
  negZ   : Bool
  esc    : Option (Nat × Nat × Nat)
  deriving DecidableEq, Repr

/-- A finite value times 2^16. -/
def at16 : Fl → Option Int
  | .fin s m e => some (signedAt s m e (-16))
  | _ => none

/-- The grid of a plain format. -/
def plainGrid (f : Nat) : Grid :=
  let fp := decide (f ≠ 0)
  { pts := (List.range 256).filterMap (fun c => if fp && decide (c = 128) then none else (at16 (fmtValue f c)).map (fun v => (v, c))),
    factor := flInt 1, even := true, negZ := fp, esc := none }

/-- The code of the point that `better` prefers to every point before it. -/
def pickPt (better : Int → Int → Bool) (l : List (Int × Nat)) : Int × Nat :=
  match l with
  | [] => (0, 0)
  | x :: r => r.foldl (fun b y => if better y.1 b.1 then y else b) x

/-- The grid of a CB8 codebook; the escape code names no entry (log 32). -/
def cbGrid (c : Codebook) : Grid :=
  let n := if c.esc then 255 else 256
  let pts := (List.range n).filterMap (fun k => (at16 (fmtValue c.efmt (byteAt c.entries k).toNat)).map (fun v => (v, k)))
  { pts := pts, factor := f32Val c.scale, even := false, negZ := false,
    esc := if c.esc then some (255, (pickPt (fun a b => decide (b < a)) pts).2, (pickPt (fun a b => decide (a < b)) pts).2)
           else none }

/-- The largest finite magnitude of the grid. -/
def Grid.emax (g : Grid) : Fl :=
  ((Fl.fin false (g.pts.foldl (fun m x => max m x.1.natAbs) 0) (-16)).mul g.factor).abs

/-! ### Exact quotients -/

/-- x ÷ d as a signed numerator and a denominator; 0 where d is 0 or not finite. -/
def ratio : Fl → Fl → Int × Nat
  | .fin s m e, .fin t n f =>
    if n = 0 then (0, 1)
    else
      let (a, b) := if f ≤ e then (m * 2 ^ (e - f).toNat, n) else (m, n * 2 ^ (f - e).toNat)
      (if s != t then -(a : Int) else a, b)
  | _, _ => (0, 1)

/-- The nearest grid point to num ÷ den. -/
def nearestPt (g : Grid) (num : Int) (den : Nat) : Int × Nat :=
  let d := fun (x : Int × Nat) => (x.1 * den - num * 65536).natAbs
  let tie := fun (a b : Int × Nat) => if g.even then decide (a.2 % 2 = 0 ∧ b.2 % 2 = 1) else decide (a.2 < b.2)
  match g.pts with
  | [] => (0, 0)
  | x :: r => r.foldl (fun b y => if d y < d b ∨ (d y = d b ∧ tie y b) then y else b) x

/-- The grid point of a stochastic rounding with draw r (08 R274). -/
def drawnPt (g : Grid) (num : Int) (den r : Nat) : Int × Nat :=
  let t := num * 65536
  let below := g.pts.filter (fun x => decide (x.1 * den ≤ t))
  let above := g.pts.filter (fun x => decide (t ≤ x.1 * den))
  let lo := pickPt (fun a b => decide (b < a)) below
  let hi := pickPt (fun a b => decide (a < b)) above
  if below = [] then hi
  else if above = [] then lo
  else if (r : Int) * (hi.1 - lo.1) * den < (t - lo.1 * den) * 16777216 then hi else lo

/-- The quotient lies beyond the grid's ends. -/
def beyond (g : Grid) (num : Int) (den : Nat) : Bool :=
  g.pts.all (fun x => decide (x.1 * den < num * 65536)) || g.pts.all (fun x => decide (num * 65536 < x.1 * den))

/-! ### Draws (08 R274) -/

/-- One step of the LFSR: its new bit and its new state. -/
def lfsrStep (st : DWord) : Nat × DWord :=
  let b := (st.getLsbD 63 != st.getLsbD 62) != (st.getLsbD 60 != st.getLsbD 59)
  (b2n b, (st <<< 1) ||| (if b then 1#64 else 0#64))

/-- A draw: n steps, the first bit first. -/
def lfsrDraw : (n : Nat) → DWord → (r : Nat) → Nat × DWord
  | 0, st, r => (r, st)
  | n + 1, st, r => let (b, st) := lfsrStep st; lfsrDraw n st (2 * r + b)

/-- The draws of a super-block. -/
def lfsrDraws : (n : Nat) → DWord → List Nat
  | 0, _ => []
  | n + 1, st => let (r, st) := lfsrDraw 24 st 0; r :: lfsrDraws n st

/-- The LFSR at the start of super-block sb of tensor j. -/
def lfsrReload (seed : DWord) (j sb : Nat) : DWord :=
  let st := seed ^^^ dw (j * 2 ^ 48) ^^^ dw sb
  if st = 0 then 1#64 else st

/-! ### Encoding (08 R269) -/

/-- How an element is encoded: by the grid, into the side list, clamped, or with the code it has. -/
inductive Mark where
  | plain | side | clamp | keep (code : Nat)
  deriving DecidableEq, Repr

/-- The encoding of a super-block: its bytes, and the elements that were not finite, clipped and clamped. -/
structure SbEnc where
  bytes  : Bytes
  nonfin : Nat
  clip   : Nat
  clamp  : Nat
  deriving DecidableEq, Repr

/-- An input as step 1 leaves it. -/
def finiteIn (g : Grid) (x : Nat) : Fl × Bool :=
  match f32Val x with
  | .nan => (.fin false 0 0, true)
  | .inf s => (match (g.emax.mul (flInt (448 * 65504))) with | .fin _ m e => .fin s m e | _ => .fin s 0 0, true)
  | v => (v, false)

/-- The outliers of a block (08 R269 step 2). -/
def blockOutliers (l : List Fl) : List Bool :=
  let sum := f32Val (l.foldl (fun a x => f32Add a (f32Bits x.abs)) 0)
  l.map (fun x => sum.lt (x.abs.scale 3))

/-- The first 64 outliers of a super-block take side slots, and later ones are clamped. -/
def markOutliers : (left : Nat) → List Bool → List Mark
  | _, [] => []
  | n, false :: r => .plain :: markOutliers n r
  | 0, true :: r => .clamp :: markOutliers 0 r
  | n + 1, true :: r => .side :: markOutliers n r

/-- The marks of a super-block's elements. -/
def marksOf (g : Grid) (keep : List (Option Nat)) (vals : List Fl) : List Mark :=
  let m := match g.esc with
    | none => vals.map (fun _ => Mark.plain)
    | some _ => markOutliers 64 ((groups 32 vals.length vals).flatMap blockOutliers)
  List.zipWith (fun k x => match k with | some c => Mark.keep c | none => x) keep m

/-- The largest magnitude of the elements that the grid encodes. -/
def largest (l : List (Fl × Mark)) : Fl :=
  l.foldl (fun a x => if x.2 = .plain ∧ a.lt x.1.abs then x.1.abs else a) (.fin false 0 0)

/-- The smallest code of `bits` bits whose value times k is not below a, limited to `top`. -/
def smallestCode (bits top : Nat) (value : Nat → Fl) (k a : Fl) : Nat :=
  let low := fun c => ((value c).mul k).lt a
  if low 0 then
    min top (((List.range bits).reverse.foldl (fun c i => if low (c + 2 ^ i) then c + 2 ^ i else c) 0) + 1)
  else 0

/-- The code of one element with the scale of its block, and whether it is clipped. -/
def codeOf (g : Grid) (sc : Fl) (draw : Option Nat) (x : Fl) : Mark → Nat × Bool
  | .keep c => (c, false)
  | .side => (match g.esc with | some e => e.1 | none => 0, false)
  | .clamp => (match g.esc, x with
    | some e, .fin true _ _ => e.2.2
    | some e, _ => e.2.1
    | none, _ => 0, false)
  | .plain =>
    let (num, den) := ratio x sc
    let p : Int × Nat := match draw with | some r => drawnPt g num den r | none => nearestPt g num den
    let neg := match x with | .fin s _ _ => s | _ => false
    (if g.negZ && neg && decide (p.1 = (0 : Int)) then 128 else p.2, beyond g num den)

/-- The record of a block: its scale byte and its codes; and how many were clipped. -/
def encodeBlock (g : Grid) (sb : Fl) (draws : List (Option Nat)) (l : List (Fl × Mark)) : Bytes × Nat :=
  let a := largest l
  let b := smallestCode 7 127 blockScale (g.emax.mul sb) a
  let sc := ((blockScale b).mul sb).mul g.factor
  let cs := List.zipWith (fun r x => codeOf g sc r x.1 x.2) draws l
  (leBytes 1 b ++ cs.flatMap (fun c => leBytes 1 c.1), (cs.filter (·.2)).length)

/-- Encode a super-block of FP32 bits. `draws` holds a draw for each element where rounding is stochastic; `keep` the
codes that elements keep. -/
def encodeSb (g : Grid) (draws : List (Option Nat)) (keep : List (Option Nat)) (xs : List Nat) : SbEnc :=
  let ins := xs.map (finiteIn g)
  let vals := ins.map (·.1)
  let marks := marksOf g keep vals
  let els := List.zip vals marks
  let side := (els.filter (fun x => decide (x.2 = .side))).map (fun x => ieeeBits 8 7 x.1)
  let a := largest els
  let sbc := smallestCode 15 0x7bff sbScale (g.emax.mul (flInt 448)) a
  let head := leBytes 2 (match a with | .fin _ 0 _ => 0 | _ => sbc) ++ leBytes 1 side.length ++ zeros 5
    ++ (if g.esc.isSome then fitTo 128 (side.flatMap (leBytes 2)) else [])
  let zero := match a with | .fin _ 0 _ => true | _ => false
  let recs := if zero then [(zeros (64 * 33), 0)]
    else List.zipWith (encodeBlock g (sbScale sbc)) (groups 32 draws.length draws) (groups 32 els.length els)
  { bytes := head ++ recs.flatMap (·.1), nonfin := (ins.filter (·.2)).length,
    clip := (recs.map (·.2)).foldl (· + ·) 0, clamp := (marks.filter (fun m => decide (m = .clamp))).length }

/-- No draws and no kept codes. -/
def noneOf (n : Nat) : List (Option Nat) := List.replicate n none

/-! ### Decoding (08 R249, R253) -/

/-- The codes of a super-block with their block scales. -/
def sbCodes (esc : Bool) (b : Bytes) : List (Nat × Nat) :=
  (List.range 64).flatMap (fun r =>
    let rec_ := slice b (sbHead esc + 33 * r) 33
    (rec_.drop 1).map (fun c => (c.toNat, (byteAt rec_ 0).toNat)))

/-- Decode codes; `k` escapes have been met. It gives FP32 bits and the escapes beyond the side list. -/
def decodeCodes (v : Nat → Fl) (esc : Option Nat) (b : Bytes) (sb : Fl) : (k : Nat) → List (Nat × Nat) → List Nat × Nat
  | _, [] => ([], 0)
  | k, (c, bs) :: r =>
    let by_ := fun c => f32Bits (((v c).mul (blockScale bs)).mul sb)
    if esc.isSome && decide (c = 255) then
      let (l, n) := decodeCodes v esc b sb (k + 1) r
      if k < min 64 (uAt b 2 1) then (uAt b (8 + 2 * k) 2 * 65536 :: l, n) else (by_ (esc.getD 0) :: l, n + 1)
    else
      let (l, n) := decodeCodes v esc b sb k r
      (by_ c :: l, n)

/-- The FP32 bits of a super-block's elements. `esc` is the code that an escape beyond the side list takes. -/
def decodeSb (v : Nat → Fl) (esc : Option Nat) (b : Bytes) : List Nat × Nat :=
  decodeCodes v esc b (sbScale (uAt b 0 2)) 0 (sbCodes esc.isSome b)

end Sys2Proof.Machine
end

