-- ==== Sys2Proof/Machine/CommandDecode.lean ====
section
/-! DEFINITION. The command packet: its header (02 R53), the opcodes with their issuers (02 R77), and each opcode's
payload layout (02 R488 and the owning chapters), read into the command that it names. -/

namespace Sys2Proof.Machine

/-- The header of a command as read (02 R53). -/
structure CmdHead where
  ver   : Nat
  opc   : Nat
  flags : Half
  seq   : Word
  part  : Nat
  rsv   : Nat
  len   : Nat
  layer : Half
  oper  : Half
  tag   : DWord
  w6    : Nat
  crc   : Word
  deriving DecidableEq, Repr

/-- Read a 32-byte header. -/
def readHead (b : Bytes) : CmdHead :=
  let w0 := uAt b 0 4
  let w2 := uAt b 8 4
  let w3 := uAt b 12 4
  { ver := bitsOf w0 31 28, opc := bitsOf w0 27 16, flags := h16 w0, seq := w32 (uAt b 4 4), part := bitsOf w2 31 26,
    rsv := bitsOf w2 25 16, len := bitsOf w2 15 0, layer := h16 (bitsOf w3 31 16), oper := h16 w3,
    tag := dw (uAt b 16 8), w6 := uAt b 24 4, crc := w32 (uAt b 28 4) }

/-- The context of a command of a source. -/
def CmdHead.ctx (h : CmdHead) (x : Src) : CmdCtx :=
  { src := x, part := h.part, flags := h.flags, seq := h.seq, layer := h.layer, oper := h.oper, tag := h.tag }

/-- The CRC of a command: header and payload with word 7 as zero (02 R54). -/
def commandCrc (b : Bytes) : Word := crc32c (b.take 28 ++ zeros 4 ++ b.drop 32)

/-- The opcodes that only partition 0 may issue (02 R77). -/
def opcP0 : List Nat :=
  [0x010, 0x011, 0x020, 0x040, 0x041, 0x220, 0x221, 0x450, 0x500, 0x501, 0x502, 0x510, 0x520, 0x540, 0x600, 0x601,
   0x730, 0x731, 0x810, 0x820, 0x821, 0x830]

/-- The opcodes that any partition may issue on what it owns (02 R77). -/
def opcOwn : List Nat :=
  [0x001, 0x002, 0x003, 0x030, 0x031, 0x100, 0x101, 0x102, 0x103, 0x104, 0x105, 0x106, 0x110, 0x111, 0x120, 0x121,
   0x200, 0x201, 0x202, 0x210, 0x211, 0x300, 0x301, 0x310, 0x311, 0x320, 0x321, 0x322, 0x330, 0x331, 0x400, 0x401,
   0x410, 0x420, 0x421, 0x430, 0x440, 0x451, 0x530, 0x602, 0x603, 0x610, 0x611, 0x620, 0x630, 0x631, 0x700, 0x701,
   0x710, 0x711, 0x720, 0x800, 0x801]

/-- OPC is defined; ERROR_INJECT only where the debug fuse is intact (02 R77, 13 R421). -/
def opcDefined (s : State) (opc : Nat) : Bool :=
  (opcP0.contains opc || opcOwn.contains opc) && (opc != 0x830 || s.sys.fuses.debug)

/-- The result of reading a payload: a failed step 7 or 8 of 02 R62, or the command. -/
inductive Dec where
  | bad (st : Status)
  | cmd (i : Instr)
  deriving DecidableEq, Repr

/-- A payload of `n` units whose byte ranges `rsv` are Reserved (02 R62 steps 7 and 8). -/
def fixedLen (pay : Bytes) (n : Nat) (rsv : List (Nat × Nat)) (i : Instr) : Dec :=
  if rsv.any (fun r => !rsvZero pay r.1 r.2) then .bad .badParam
  else if pay.length ≠ 8 * n then .bad .badLength
  else .cmd i

/-- A payload of `a` units without its optional BREF, `b` units with it. -/
def optLen (pay : Bytes) (a b : Nat) (rsv : List (Nat × Nat)) (i : Option Bref → Instr) : Dec :=
  if pay.length = 8 * b then fixedLen pay b (rsv ++ [(8 * a + 14, 2)]) (i (some (brefAt pay (8 * a))))
  else fixedLen pay a rsv (i none)

/-- The records of a batch (04 R145). -/
def batchOf (pay : Bytes) : Batch :=
  if byteAt pay 2 = 1 then .bref (brefAt pay 8) else .inline (pay.drop 8)

/-- A batch command: SRC 0 or 1, Reserved byte 3, and with SRC 1 a payload of the header and one BREF. -/
def batchLen (pay : Bytes) (i : Batch → Instr) : Dec :=
  if byteAt pay 3 ≠ 0 then .bad .badParam
  else if byteAt pay 2 = 1 then fixedLen pay 3 [(22, 2)] (i (batchOf pay))
  else if pay.length < 8 then .bad .badLength
  else if byteAt pay 2 ≠ 0 then .bad .badParam
  else .cmd (i (batchOf pay))

/-- The selector of 05 R168 and the bytes after it; none where MODE is undefined. -/
def selOf (pay : Bytes) : Option (FlowSel × Nat) :=
  if byteAt pay 0 = 0 then some (.key (sliceZ pay 8 64), 9)
  else if byteAt pay 0 = 1 then some (.index (uAt pay 8 4), 2)
  else none

/-- The Reserved bytes of a selector. -/
def selRsv (pay : Bytes) : List (Nat × Nat) := if byteAt pay 0 = 1 then [(1, 7), (12, 4)] else [(1, 7)]

/-- The entries of a GCL_WRITE payload (10 R334). -/
def gclEntries (pay : Bytes) : (n off : Nat) → List (BitVec 128 × Nat)
  | 0, _ => []
  | n + 1, off => (BitVec.ofNat 128 (uAt pay off 16), uAt pay (off + 16) 4) :: gclEntries pay n (off + 24)

/-- GCL_WRITE: 24 bytes, then N entries of 24 bytes (10 R334). -/
def gclWriteDec (c : CmdCtx) (pay : Bytes) : Dec :=
  let n := uAt pay 4 4
  let body := pay.length / 24 - 1
  let rsv := [(1, 3), (20, 4)] ++ (List.range body).map (fun i => (24 + 24 * i + 20, 4))
  if rsv.any (fun r => !rsvZero pay r.1 r.2) then .bad .badParam
  else if pay.length ≠ 24 + 24 * n then .bad .badLength
  else .cmd (.gclWrite c (uAt pay 0 1) (dw (uAt pay 8 8)) (uAt pay 16 4) (gclEntries pay n 24))

/-- The values of a FIELD_WRITE or FLOW_WRITE. -/
def u64s (b : Bytes) : List DWord := (List.range (b.length / 8)).map (fun i => dw (uAt b (8 * i) 8))

/-- The payload of an opcode, read into its command (02 R488). -/
def readPayload (opc : Nat) (c : CmdCtx) (p : Bytes) : Dec :=
  let n8 := fun off => uAt p off 1
  let n16 := fun off => uAt p off 2
  let n32 := fun off => uAt p off 4
  match opc with
  | 0x001 => fixedLen p 0 [] (.nop c)
  | 0x002 => fixedLen p 0 [] (.getInfo c)
  | 0x003 => fixedLen p 0 [] (.getStatus c)
  | 0x010 => fixedLen p 1 [(1, 7)] (.start c (n8 0))
  | 0x011 => fixedLen p 0 [] (.shutdown c)
  | 0x020 => fixedLen p 1 [(2, 6)] (.ringBind c (n8 0) (n8 1))
  | 0x030 => fixedLen p 1 [(6, 2)] (.fieldRead c (n32 0) (n16 4))
  | 0x031 => if !rsvZero p 6 2 then .bad .badParam
             else if p.length < 8 then .bad .badLength
             else .cmd (.fieldWrite c (n32 0) (n16 4) (u64s (p.drop 8)))
  | 0x040 => fixedLen p 9 [(1, 7), (22, 2)] (.fwStage c (n8 0) (brefAt p 8) (sliceZ p 24 48))
  | 0x041 => fixedLen p 1 [(1, 7)] (.fwActivate c (n8 0))
  | 0x100 => batchLen p (.tableWrite c (n8 0) (n8 1) (n32 4))
  | 0x101 => batchLen p (.tableDelete c (n8 0) (n8 1) (n32 4))
  | 0x102 => optLen p 2 4 [(2, 2), (12, 4)] (.tableRead c (n8 0) (n8 1) (n32 4) (n32 8))
  | 0x103 => fixedLen p 1 [(1, 7)] (.tableRebuild c (n8 0))
  | 0x104 => fixedLen p 1 [(1, 7)] (.tableCommit c (n8 0))
  | 0x105 => fixedLen p 1 [(1, 7)] (.tableAbort c (n8 0))
  | 0x106 => fixedLen p 3 [(1, 7), (22, 2)] (.tableCompare c (n8 0) (brefAt p 8))
  | 0x110 => batchLen p (.ruleWrite c (n8 0) (n8 1) (n32 4))
  | 0x111 => if byteAt p 0 ≠ 0 then .bad .badParam else batchLen p (.ruleDelete c (n8 1) (n32 4))
  | 0x120 => fixedLen p 8 [(14, 2)] (.parseGraphLoad c (brefAt p 0) (sliceZ p 16 48))
  | 0x121 => fixedLen p 8 [(14, 2)] (.patternLoad c (brefAt p 0) (sliceZ p 16 48))
  | 0x200 => match selOf p with
    | none => .bad .badParam
    | some (sel, n) => fixedLen p n (selRsv p) (.flowRead c sel)
  | 0x201 => match selOf p with
    | none => .bad .badParam
    | some (sel, n) =>
      let mask := uAt p (8 * n) 8
      fixedLen p (n + 1 + popCount 64 mask) (selRsv p) (.flowWrite c sel (dw mask) (u64s (p.drop (8 * n + 8))))
  | 0x202 => match selOf p with
    | none => .bad .badParam
    | some (sel, n) => fixedLen p n (selRsv p) (.flowDelete c sel)
  | 0x210 => optLen p 2 4 [(2, 2), (12, 4)] (.sketchRead c (n8 0) (n8 1) (n32 4) (n32 8))
  | 0x211 => fixedLen p 1 [] (.heavyRead c (n32 0) (n32 4))
  | 0x220 => fixedLen p 1 [(4, 4)] (.bucketRead c (n16 0) (n16 2))
  | 0x221 => fixedLen p 1 [(3, 5)] (.bucketMove c (n16 0) (n8 2))
  | 0x300 => fixedLen p 3 [(1, 7), (22, 2)] (.modelLoad c (n8 0) (brefAt p 8))
  | 0x301 => fixedLen p 1 [(1, 7)] (.modelUnload c (n8 0))
  | 0x310 => if bitsOf (n8 12) 7 1 ≠ 0 then .bad .badParam
             else fixedLen p 2 [(1, 7), (13, 3)] (.epochCommit c (n8 0) (dw (uAt p 8 8)))
  | 0x311 => fixedLen p 0 [] (.epochStatus c)
  | 0x320 => fixedLen p 18 [(142, 2)] (.tensorWrite c (sliceZ p 0 128) (brefAt p 128))
  | 0x321 => fixedLen p 18 [(142, 2)] (.tensorRead c (sliceZ p 0 128) (brefAt p 128))
  | 0x322 => fixedLen p 3 [(14, 2), (18, 6)] (.tileRun c (brefAt p 0) (n16 16))
  | 0x330 => fixedLen p 4 [(1, 7), (22, 2)] (.trainStep c (n8 0) (brefAt p 8) (dw (uAt p 24 8)))
  | 0x331 => fixedLen p 1 [(1, 7)] (.threshRead c (n8 0))
  | 0x400 => if bitsOf (n8 2) 7 4 ≠ 0 then .bad .badParam
             else fixedLen p 3 [(3, 1), (20, 4)] (.meterWrite c (n16 0) (byteAt p 2) (n32 4) (n32 8) (n32 12) (n32 16))
  | 0x401 => fixedLen p 1 [(2, 6)] (.meterRead c (n16 0))
  | 0x410 => fixedLen p 2 [(3, 1), (12, 4)] (.shaperWrite c (n16 0) (sAt p 2 1) (n32 4) (n32 8))
  | 0x420 => gclWriteDec c p
  | 0x421 => optLen p 1 3 [(2, 2)] (.gclRead c (n8 0) (n8 1) (n32 4))
  | 0x430 => fixedLen p 1 [(4, 4)] (.queueSample c (n16 0) (n16 2))
  | 0x440 => fixedLen p 4 [(1, 7), (22, 2), (28, 4)] (.hostpktRing c (n8 0) (brefAt p 8) (n32 24))
  | 0x450 => fixedLen p 2 [(12, 4)] (.timeAdjust c (sAt p 0 8) (sAt p 8 4))
  | 0x451 => fixedLen p 0 [] (.timeRead c)
  | 0x500 => fixedLen p 1 [(2, 2)] (.fabricJoin c (n16 0) (w32 (n32 4)))
  | 0x501 => fixedLen p 0 [] (.fabricLeave c)
  | 0x502 => fixedLen p 0 [] (.fabricStatus c)
  | 0x510 => fixedLen p 1 [(1, 7)] (.linkRekey c (n8 0))
  | 0x520 => fixedLen p 1 [(6, 2)] (.flowHomeSet c (n16 0) (n16 2) (n16 4))
  | 0x530 => fixedLen p 19 [(1, 7), (22, 2)] (.collectiveRun c (n8 0) (brefAt p 8) (sliceZ p 24 128))
  | 0x540 => fixedLen p 1 [(4, 4)] (.timeOffsets c (n16 0) (n16 2))
  | 0x600 => fixedLen p 9 [(1, 7), (70, 2)] (.partCreate c (n8 0) (sliceZ p 8 48) (brefAt p 56))
  | 0x601 => fixedLen p 1 [(1, 7)] (.partDestroy c (n8 0))
  | 0x602 => fixedLen p 1 [(1, 7)] (.partReset c (n8 0))
  | 0x603 => fixedLen p 1 [(1, 7)] (.partQuery c (n8 0))
  | 0x610 => fixedLen p 1 [(1, 7)] (.keyRotate c (n8 0))
  | 0x611 => fixedLen p 1 [(1, 7)] (.keyStatus c (n8 0))
  | 0x620 =>
    if p.length < 320 then .bad .badLength
    else fixedLen p (ceilDiv (320 + n32 8) 8) [(7, 1), (12, 4), (113, 7), (217, 7)] (.cmdKeySet c p)
  | 0x630 => fixedLen p 6 [(46, 2)] (.attestReport c (sliceZ p 0 32) (brefAt p 32))
  | 0x631 => fixedLen p 2 [(14, 2)] (.certChain c (brefAt p 0))
  | 0x700 => fixedLen p 2 [(2, 2), (10, 6)] (.counterRead c (n16 0) (n32 4) (n16 8))
  | 0x701 => fixedLen p 2 [(2, 2), (10, 6)] (.counterSampleReset c (n16 0) (n32 4) (n16 8))
  | 0x710 => fixedLen p 3 [(22, 2)] (.traceConfig c (dw (uAt p 0 8)) (brefAt p 8))
  | 0x711 => fixedLen p 2 [(14, 2)] (.traceRead c (brefAt p 0))
  | 0x720 => fixedLen p 1 [] (.profileRead c (dw (uAt p 0 8)))
  | 0x730 => fixedLen p 1 [(1, 7)] (.wringStop c (n8 0))
  | 0x731 => fixedLen p 2 [(14, 2)] (.wringScanout c (brefAt p 0))
  | 0x800 => fixedLen p 1 [(6, 2)] (.errorRead c (n32 0) (n16 4))
  | 0x801 => fixedLen p 1 [(4, 4)] (.errorAck c (n32 0))
  | 0x810 => fixedLen p 2 [(2, 2), (12, 4)] (.windowSet c (n16 0) (n32 4) (n32 8))
  | 0x820 => fixedLen p 1 [(2, 6)] (.unitFence c (n16 0))
  | 0x821 => fixedLen p 1 [(2, 6)] (.unitUnfence c (n16 0))
  | 0x830 => fixedLen p 1 [(3, 5)] (.errorInject c (n16 0) (n8 2))
  | _ => .bad .badOpcode

/-- Steps 5 to 8 of 02 R62 for a command whose bytes, seal and SEQ are right. -/
def decodeCommand (s : State) (h : CmdHead) (c : CmdCtx) (part : Nat) (pay : Bytes) : Dec :=
  if !opcDefined s h.opc then .bad .badOpcode
  else if h.part ≠ part ∨ (opcP0.contains h.opc ∧ part ≠ 0) then .bad .noPermission
  else if h.rsv ≠ 0 ∨ h.w6 ≠ 0 ∨ h.flags.toNat / 64 ≠ 0 then .bad .badParam
  else readPayload h.opc c pay

end Sys2Proof.Machine
end

