-- ==== Sys2Proof/Machine/Rinse.lean ====
section
/-! DEFINITION. Encryption regions and RINSE's walks (12 R387 to R392). HBM is held in plain (log 14); what a page that is
not yet scrubbed reads as is log 57. -/

namespace Sys2Proof.Machine

def State.region (s : State) (r : Nat) : Option Region := smFind s.regions r
def State.setRegion (s : State) (r : Nat) (x : Region) : State := { s with regions := smSet s.regions r x }

/-- The pages of a region: region 1 holds what no tenant and no platform page takes (12 R388). -/
def regionPages (s : State) (r : Nat) (x : Region) : Nat :=
  if r = 1 then
    6 * (stackPages - platformPages)
      - (s.parts.filter (fun e => decide (0 < e.1) && decide (e.2.state ≠ 0))).foldl
          (fun a e => a + (e.2.ranges.map (·.2)).foldl (· + ·) 0) 0
  else x.pages

/-- The bytes of a region's walk. -/
def walkBytes (s : State) (r : Nat) (x : Region) : Nat := regionPages s r x * pageBytes

/-- The walks in progress over regions. -/
def walks (s : State) : List (Nat × Region) := s.regions.filter (fun e => decide (e.2.state ≠ 0))

/-- The walks in progress over the weight regions of models that unload. -/
def wipes (s : State) : List (Nat × Slot) := s.slots.filter (fun e => e.2.wipe.isSome)

/-- The number of walks, which share RINSE_RATE. -/
def walkCount (s : State) : Nat := (walks s).length + (wipes s).length

/-- The bytes that a walk adds between a time and now: RINSE_RATE is shared evenly among the walks in progress (12 R389). -/
def walkSince (s : State) (mark : DWord) : Nat := (s.now.toNat - mark.toNat) * s.fval .rinseRate / walkCount s

/-- The bytes that a walk has done by now. -/
def walkDone (s : State) (r : Nat) (x : Region) : Nat :=
  if x.state = 0 then x.done else min (walkBytes s r x) (x.done + walkSince s x.mark)

/-- The weight pages of a model, in order, as partition-virtual pages. -/
def Slot.weightPages (x : Slot) : List Nat :=
  (x.runs.filter (·.2.2)).flatMap (fun r => (List.range r.2.1).map (fun i => r.1 + i))

/-- The bytes of a model's weight region, and those that its walk has done by now. -/
def Slot.wipeBytes (x : Slot) : Nat := x.weightPages.length * pageBytes
def wipeDone (s : State) (x : Slot) : Nat :=
  match x.wipe with
  | some w => min x.wipeBytes (w.done + walkSince s w.mark)
  | none => 0

/-- Bring every walk up to date, before the number of walks or their rate changes. -/
def settleWalks (s : State) : State :=
  { s with
    regions := s.regions.map (fun e =>
      if e.2.state = 0 then e else (e.1, { e.2 with done := walkDone s e.1 e.2, mark := s.now })),
    slots := s.slots.map (fun e => match e.2.wipe with
      | some w => (e.1, { e.2 with wipe := some { w with done := wipeDone s e.2, mark := s.now } })
      | none => e) }

/-- The time at which a walk ends if the walks in progress go on as they are. -/
def walkEnd (s : State) (r : Nat) (x : Region) : Nat :=
  let left := walkBytes s r x - walkDone s r x
  s.now.toNat + ceilDiv
    (((walks s).map (fun e => min left (walkBytes s e.1 e.2 - walkDone s e.1 e.2))).foldl (· + ·) 0
      + ((wipes s).map (fun e => min left (e.2.wipeBytes - wipeDone s e.2))).foldl (· + ·) 0)
    (s.fval .rinseRate)

/-- Start a walk of a region in a state. -/
def startWalk (r st : Nat) (x : Region) (s : State) : State :=
  (settleWalks s).setRegion r { x with state := st, started := s.now, done := 0, mark := s.now, charged := 0 }

/-! ### What a walk moves (12 R389) -/

/-- The pages of a region below a physical page. -/
def regionBelow (s : State) (r : Nat) (x : Region) (pg : Nat) : Nat :=
  let general := pg / stackPages * (stackPages - platformPages) + min (pg % stackPages) (stackPages - platformPages)
  match r with
  | 0 => pg - general
  | 1 => general - (s.parts.filter (fun e => decide (0 < e.1) && decide (e.2.state ≠ 0))).foldl
      (fun a e => a + (e.2.ranges.map (fun g => min g.2 (pg - g.1))).foldl (· + ·) 0) 0
  | _ => min x.pages (pg - x.first)

/-- Count bytes that a walk reads and writes at a stack, to the region's owner. -/
def chargeWalk (p k n : Nat) (s : State) : State :=
  if n = 0 then s else ((s.count (.bytes p .hbm) (2 * n)).count (.mem k 0) n).count (.mem k 1) n

/-- The bytes between two positions of a walk that lie between two others. -/
def shareOf (a b lo hi : Nat) : Nat := min b hi - max a lo

/-- Charge what a region's walk has done since it was last charged, stack by stack. -/
def chargeRegion (s : State) (e : Nat × Region) : State :=
  let d := walkDone s e.1 e.2
  let at_ := fun k => regionBelow s e.1 e.2 (k * stackPages) * pageBytes
  ((List.range 6).foldl (fun s' k => chargeWalk e.2.part k (shareOf e.2.charged d (at_ k) (at_ (k + 1))) s') s).setRegion e.1
    { e.2 with charged := d }

/-- The same of a walk over a weight region. -/
def chargeWipe (s : State) (e : Nat × Slot) : State :=
  match e.2.wipe with
  | none => s
  | some w =>
    let d := wipeDone s e.2
    let p := s.slotOwner e.1
    let stack := fun i => ((s.physPage p (nth 0 e.2.weightPages i)).getD 0) / stackPages
    let first := w.charged / pageBytes
    let s' := (List.range (ceilDiv d pageBytes - first)).foldl (fun s' i =>
      chargeWalk p (stack (first + i)) (shareOf w.charged d ((first + i) * pageBytes) ((first + i + 1) * pageBytes)) s') s
    { s' with slots := smSet s'.slots e.1 { e.2 with wipe := some { w with charged := d } } }

/-- The traffic of every walk in progress is counted as it goes. -/
def chargeWalks (s : State) : State := (wipes s).foldl chargeWipe ((walks s).foldl chargeRegion s)

/-! ### Keys and epoch bits (12 R387) -/

/-- The key of a region's slot. -/
def Region.key (x : Region) (k : Nat) : Option Nat := if k = 0 then x.key0 else x.key1
def Region.setKey (x : Region) (k : Nat) (v : Option Nat) : Region := if k = 0 then { x with key0 := v } else { x with key1 := v }

/-- The units of a region are written under one slot again: no bit names another. -/
def clearEpoch (r : Nat) (s : State) : State :=
  { s with epochNew := s.epochNew.filter (fun u => decide (s.regionOf (u.1 * 64 / pageBytes) ≠ r)) }

/-- The epoch bit of a 64-byte unit: while its region is ROTATING, the old slot where neither the walk nor a write has reached
it, and else ACTIVE_SLOT. -/
def epochBit (s : State) (u : Nat) : Nat :=
  let pg := u * 64 / pageBytes
  let r := s.regionOf pg
  match s.region r with
  | none => 0
  | some x =>
    let pos := regionBelow s r x pg * pageBytes + u * 64 % pageBytes
    let new := s.epochNew.any (fun e => decide (e.1 ≤ u) && decide (u < e.1 + e.2))
    if x.state = 1 ∧ walkDone s r x < pos + 64 ∧ !new then 1 - x.active else x.active

/-- The key that a read of a unit decrypts with: that of the slot its epoch bit names. -/
def readKey (s : State) (u : Nat) : Option Nat :=
  match s.region (s.regionOf (u * 64 / pageBytes)) with
  | some x => x.key (epochBit s u)
  | none => none

/-- The key that a write to a unit encrypts with. -/
def writeKey (s : State) (u : Nat) : Option Nat :=
  match s.region (s.regionOf (u * 64 / pageBytes)) with
  | some x => x.key x.active
  | none => none

/-- Replace a region's keys by a fresh key in slot 0; the other slot is zeroised, and a walk of a rotation stops (12 R379). -/
def freshKeys (r : Nat) (s : State) : State :=
  let (k, s) := drawKey (clearEpoch r (settleWalks s))
  match s.region r with
  | none => s
  | some x => s.setRegion r { x with key0 := some k, key1 := none, active := 0, state := if x.state = 1 then 0 else x.state }

/-- The content of a run of physical pages is gone: it reads as zero, and sound. -/
def wipePages (first n : Nat) (s : State) : State :=
  let lo := first * pageBytes
  let hi := (first + n) * pageBytes
  { s with hbm := memClear s.hbm lo hi,
           darn := { s.darn with poisonHbm := s.darn.poisonHbm.filter (fun u => decide (u < lo / 64 ∨ hi / 64 ≤ u)) } }

end Sys2Proof.Machine
end

