-- ==== Sys2Proof/Machine/TabOps.lean ====
section
/-! DEFINITION. The hash stores of stage 3 (04 R118 to R152): entries and their banks, units and capacities, inserting
and removing, action records, and what a lookup finds. -/

namespace Sys2Proof.Machine

/-! ### Action records (04 R124) -/

/-- Read a 16-byte action record. -/
def actionOf (b : Bytes) : Action :=
  let w0 := uAt b 0 4
  let w1 := uAt b 4 4
  let w2 := uAt b 8 4
  { kind := bitsOf w0 2 0, mirrorSet := w0.testBit 3, mirror := bitsOf w0 9 4, port := bitsOf w0 20 16,
    queue := bitsOf w1 6 0, queueSet := w1.testBit 7, meter := bitsOf w1 23 8, meterSet := w1.testBit 24,
    trigger := bitsOf w2 7 0, triggerSet := w2.testBit 8, hostRing := bitsOf w2 21 16, hostRingSet := w2.testBit 22,
    cookie := w32 (uAt b 12 4) }

/-- The Reserved bits of an action record are zero. -/
def actionRsv (b : Bytes) : Bool :=
  let w0 := uAt b 0 4
  let w1 := uAt b 4 4
  let w2 := uAt b 8 4
  decide (bitsOf w0 15 10 = 0 ∧ w0 / 2 ^ 21 = 0 ∧ w1 / 2 ^ 25 = 0 ∧ bitsOf w2 15 9 = 0 ∧ w2 / 2 ^ 23 = 0)

/-- An action record that a write accepts: KIND 0 to 4, and a port of the present mode for FORWARD kinds. -/
def actionOk (s : State) (b : Bytes) : Bool :=
  let a := actionOf b
  actionRsv b && decide (a.kind ≤ 4)
    && (!(decide (a.kind = 2) || decide (a.kind = 4)) || decide (a.port < s.portCount))

/-! ### Banks (04 R149) -/

/-- The table whose bank state a table uses. -/
def bankTable (t : Nat) : Nat := if t = 5 then 4 else t
def bankKey (p t : Nat) : Nat := p * 8 + bankTable t
/-- The active bank of a table of a partition. -/
def State.activeBank (s : State) (p t : Nat) : Nat := smGet 0 s.tabs.active (bankKey p t)
def State.bankState (s : State) (p t : Nat) : BankState := smGet .steady s.tabs.bankState (bankKey p t)

/-- An entry is held by a bank. -/
def TEntry.inBank (e : TEntry) (b : Nat) : Bool := if b = 0 then e.bank0 else e.bank1

/-- A pair of banks as flags. -/
structure Banks where
  b0 : Bool
  b1 : Bool
  deriving DecidableEq, Repr

def bothBanks : Banks := ⟨true, true⟩
def oneBank (b : Nat) : Banks := ⟨decide (b = 0), decide (b ≠ 0)⟩

/-- An entry left with the banks that a change does not touch. -/
def TEntry.without (e : TEntry) (t : Banks) : TEntry := { e with bank0 := e.bank0 && !t.b0, bank1 := e.bank1 && !t.b1 }
def TEntry.live (e : TEntry) : Bool := e.bank0 || e.bank1
def TEntry.touched (e : TEntry) (t : Banks) : Bool := (e.bank0 && t.b0) || (e.bank1 && t.b1)

/-- The old copies of the entries that are being relocated: they are valid until the next PKCLK cycle (04 R128). -/
def State.oldCopies (s : State) (t : Nat) : List TEntry :=
  if s.tabs.copyAt = s.clk.pk then s.tabs.copies.filter (fun e => decide (e.table = t)) else []

/-- Of two valid copies of a key a lookup uses the one whose move version is one step newer modulo 4 (04 R129). -/
def newerCopy (e c : TEntry) : TEntry := if c.version = (e.version + 1) % 4 then c else e

/-- An entry's content: what neither its place nor its move version is. The copies of one entry have the same. -/
def TEntry.content (e : TEntry) : TEntry := { e with slot := 0, version := 0 }

/-- The entry of a key in a bank, as a lookup finds it. -/
def State.tfind (s : State) (t p : Nat) (key : Bytes) (b : Nat) : Option TEntry :=
  let is : TEntry → Bool := fun e => decide (e.table = t) && decide (e.part = p) && e.inBank b && e.key == key
  (s.tabs.entries.find? is).map (fun e => ((s.oldCopies t).filter (fun c => decide (c.content = e.content))).foldl newerCopy e)

/-- An entry of a key is being relocated. -/
def State.relocating (s : State) (t p : Nat) (key : Bytes) : Bool :=
  (s.oldCopies t).any (fun e => decide (e.part = p) && e.key == key)

/-- The entries of a partition in a bank of a table. -/
def State.tbank (s : State) (t p b : Nat) : List TEntry :=
  s.tabs.entries.filter (fun e => decide (e.table = t) && decide (e.part = p) && e.inBank b)

/-- The banks that a learn, a station move or aging changes (04 R149, R150, R152). -/
def State.ownBanks (s : State) (p t : Nat) : Banks :=
  match s.bankState p t with
  | .draining => oneBank (s.activeBank p t)
  | _ => bothBanks

/-! ### Sizes (04 R118 to R120) -/

/-- The capacity of a table. -/
def tableCap (t : Nat) : Nat :=
  match t with
  | 1 | 2 => 1048576
  | 3 => 524288
  | 4 => 262144
  | 5 => 64
  | 0x20 => 1152
  | 0x30 => 16384
  | _ => 0

/-- The number of words of a byte string up to its last word that is not zero. -/
def usedWords (b : Bytes) : Nat := ceilDiv ((b.reverse.dropWhile (fun x => x == 0)).length) 4

/-- The words that a mask touches. -/
def maskWords (m : Bytes) : Nat := ((List.range 16).filter (fun i => !rsvZero m (4 * i) 4)).length

/-- The mask of a rule's group in a bank that holds the rule. -/
def State.groupMask (s : State) (e : TEntry) : Bytes :=
  ((s.tabs.entries.find? (fun g => decide (g.table = 5) && decide (g.part = e.part) && decide (g.group = e.group)
    && ((g.bank0 && e.bank0) || (g.bank1 && e.bank1)))).map (·.value)).getD []

/-- A length-0 LPM entry (04 R131). -/
def TEntry.isDefault (e : TEntry) : Bool := (decide (e.table = 2) || decide (e.table = 3)) && e.key.getLastD 1 == 0

/-- The entry-pool units of an entry (04 R120). -/
def entryUnits (s : State) (e : TEntry) : Nat :=
  if e.isDefault then 0
  else match e.table with
    | 1 => 1 + ceilDiv (max 1 (usedWords e.key)) 2
    | 2 => 2
    | 3 => 3
    | 4 => 2 + ceilDiv (maskWords (s.groupMask e)) 2
    | _ => 0

def poolUnits (s : State) : Nat := (s.tabs.entries.map (entryUnits s)).foldl (· + ·) 0

/-- The distinct action records of each partition (04 R120). -/
def actionRecords (s : State) : Nat :=
  ((s.tabs.entries.filter (fun e => decide (e.table ≤ 4))).map (fun e => (e.part, e.action))).eraseDups.length

def tableCount (s : State) (t : Nat) (p : Nat → Bool) : Nat :=
  (s.tabs.entries.filter (fun e => decide (e.table = t) && p e.part)).length

/-- The quota of a partition in a table. -/
def tableQuota (s : State) (t p : Nat) : Nat :=
  match t with
  | 1 => s.fval .tblQuotaEm p
  | 2 => s.fval .tblQuotaLpm4 p
  | 3 => s.fval .tblQuotaLpm6 p
  | 4 => s.fval .tblQuotaRule p
  | t => tableCap t

/-- A count grew past its limit. -/
def grewPast (before after limit : Nat) : Bool := decide (limit < after) && decide (before < after)

/-- A change of the stores breaks a limit (04 R119). -/
def overLimits (s s' : State) (t p : Nat) : Bool :=
  grewPast (tableCount s t (fun _ => true)) (tableCount s' t (fun _ => true)) (tableCap t)
    || grewPast (tableCount s t (· == p)) (tableCount s' t (· == p)) (tableQuota s t p)
    || grewPast (poolUnits s) (poolUnits s') 3670016
    || grewPast (actionRecords s) (actionRecords s') 262144

/-! ### The LPM length filters (04 R132) -/

/-- The counters of a prefix: one for each of 4 hash functions, among 8 for each entry of its family's capacity; each key
is a partition with a prefix and its length. LPM6's lie behind LPM4's. -/
def bloomCells (v6 : Bool) (key : Bytes) : List Nat :=
  (List.range 4).map (fun i =>
    if v6 then 8 * tableCap 2 + Config.bloomHash true key i % (8 * tableCap 3) else Config.bloomHash false key i % (8 * tableCap 2))

/-- The prefixes that the filters hold: those of both banks, but for length 0. -/
def bloomKeys (l : List TEntry) : List (Bool × Bytes) :=
  ((l.filter (fun e => (decide (e.table = 2) || decide (e.table = 3)) && !e.isDefault)).map
    (fun e => (decide (e.table = 3), BitVec.ofNat 8 e.part :: e.key))).eraseDups

/-- A prefix comes or goes; a counter that has reached 15 stays there. -/
def bloomAdd (m : SMap Nat) (k : Bool × Bytes) : SMap Nat :=
  (bloomCells k.1 k.2).foldl (fun m i => smSet m i (min 15 (smGet 0 m i + 1))) m
def bloomDrop (m : SMap Nat) (k : Bool × Bytes) : SMap Nat :=
  (bloomCells k.1 k.2).foldl (fun m i =>
    let n := smGet 0 m i
    if n = 15 then m else if n ≤ 1 then smDel m i else smSet m i (n - 1)) m

/-- The counters as the entries change. -/
def bloomSync (m : SMap Nat) (was now : List TEntry) : SMap Nat :=
  let a := bloomKeys was
  let b := bloomKeys now
  (b.filter (fun k => !a.contains k)).foldl bloomAdd ((a.filter (fun k => !b.contains k)).foldl bloomDrop m)

/-- The filter of a length hits for a prefix. -/
def filterHit (s : State) (v6 : Bool) (p : Nat) (key : Bytes) : Bool :=
  (bloomCells v6 (BitVec.ofNat 8 p :: key)).all (fun i => decide (0 < smGet 0 s.tabs.bloom i))

/-! ### Inserting and removing -/

/-- A free slot number of a table, for an entry that lies in no bucket: free, else the lowest (log 10). -/
def freshSlot (s : State) (t : Nat) : Nat × State :=
  let used := (s.tabs.entries.filter (fun e => decide (e.table = t))).map (·.slot)
  let (x, s) := drawBelow s (tableCap t)
  (if used.contains x then (lowestFree 0 (tableCap t + 1) (sortBy (fun a b => decide (a < b)) used)).getD 0 else x, s)

/-- The tables' entries change, and the length filters with them. -/
def State.setEntries (s : State) (l : List TEntry) : State :=
  { s with tabs := { s.tabs with entries := l, bloom := bloomSync s.tabs.bloom s.tabs.entries l } }

/-! ### Placing and relocating (04 R127 to R129; log 10) -/

/-- The bytes whose hash places an entry: its partition with its key, or with its group and VALUE for a rule. -/
def TEntry.hashKey (e : TEntry) : Bytes :=
  BitVec.ofNat 8 e.part :: (if e.table = 4 then leBytes 1 e.group ++ e.value else e.key)

/-- The candidate bucket of an entry in a way. Each way has half of the table's slots, in buckets of 4. -/
def TEntry.bucket (e : TEntry) (way : Nat) : Nat :=
  let n := tableCap e.table / 8
  way * n + Config.storeHash e.table way e.hashKey % n

def bucketSlots (b : Nat) : List Nat := (List.range 4).map (fun i => 4 * b + i)

/-- The slots that an entry may take, and those of the bucket to which a relocation takes it. -/
def TEntry.homes (e : TEntry) : List Nat := bucketSlots (e.bucket 0) ++ bucketSlots (e.bucket 1)
def TEntry.moveTo (e : TEntry) : List Nat := bucketSlots (e.bucket (if e.slot / 4 = e.bucket 0 then 1 else 0))

/-- The slots in use of a table, old copies among them. -/
def usedSlots (s : State) (t : Nat) : List Nat :=
  ((s.tabs.entries.filter (fun e => decide (e.table = t))) ++ s.oldCopies t).map (·.slot)

/-- The entries that may be moved out of slots. -/
def entriesAt (s : State) (t : Nat) (slots : List Nat) : List TEntry :=
  s.tabs.entries.filter (fun e => decide (e.table = t) && !e.isDefault && slots.contains e.slot)

/-- The free slots into which the last entry of a path moves. A path lists its entries from the last on. -/
def openEnd (used : List Nat) (p : List TEntry) : List Nat :=
  match p with
  | [] => []
  | e :: _ => e.moveTo.filter (fun k => !used.contains k)

/-- A path with one more relocation. -/
def longerPaths (s : State) (p : List TEntry) : List (List TEntry) :=
  match p with
  | [] => []
  | e :: _ => ((entriesAt s e.table e.moveTo).filter (fun x => !p.contains x)).map (fun x => x :: p)

/-- Breadth first: the shortest paths that free a slot, of as many relocations as the level goes. -/
def findPaths (s : State) (used : List Nat) : (level : Nat) → List (List TEntry) → List (List TEntry)
  | 0, _ => []
  | n + 1, l =>
    let ok := l.filter (fun p => !(openEnd used p).isEmpty)
    if ok = [] then findPaths s used n (l.flatMap (longerPaths s)) else ok

/-- Relocate an entry: its copy takes the slot with the next move version, and the old copy stays valid for this cycle. An
entry has two valid copies at most. -/
def relocate (e : TEntry) (slot : Nat) (s : State) : State :=
  let l := updFirst (fun x => decide (x = e)) (fun x => { x with slot := slot, version := (x.version + 1) % 4 }) s.tabs.entries
  let old := (if s.tabs.copyAt = s.clk.pk then s.tabs.copies else []).filter (fun c => decide (c.content ≠ e.content))
  { s with tabs := { s.tabs with entries := l, copies := old ++ [e], copyAt := s.clk.pk } }

/-- Move the entries of a path, the last one first into a slot: the slot that this frees. -/
def movePath : (slot : Nat) → List TEntry → State → Nat × State
  | k, [], s => (k, s)
  | k, e :: r, s => movePath e.slot r (relocate e k s)

/-- The slot of a new entry: a free one of its two buckets (there is one while fewer than 8 slots are in use), or that which a
path of at most 8 relocations frees. Which of several slots or shortest paths is free. -/
def storeSlot (e : TEntry) (s : State) : Option Nat × State :=
  let used := usedSlots s e.table
  let free := e.homes.filter (fun k => !used.contains k)
  if used.length < 8 ∨ free ≠ [] then
    let (i, s) := drawBelow s free.length
    (some (nth 0 free i), s)
  else
    let ps := findPaths s used 8 ((entriesAt s e.table e.homes).map (fun x => [x]))
    if ps = [] then (none, s)
    else
      let (i, s) := drawBelow s ps.length
      let path := nth [] ps i
      let ends := openEnd used path
      let (j, s) := drawBelow s ends.length
      let (k, s) := movePath (nth 0 ends j) path s
      (some k, s)

/-- The entries of one key of a partition. -/
def sameKey (t p : Nat) (key : Bytes) (e : TEntry) : Bool :=
  decide (e.table = t) && decide (e.part = p) && e.key == key

/-- Remove a key from banks: what it changed, and whether some bank of them held it. -/
def removeKey (t p : Nat) (key : Bytes) (b : Banks) (s : State) : Bool × State :=
  let hit := s.tabs.entries.any (fun e => sameKey t p key e && e.touched b)
  (hit, s.setEntries ((s.tabs.entries.map (fun e => if sameKey t p key e then e.without b else e)).filter TEntry.live))

/-- The slot and move version of an entry that is put: those of the entry that it replaces where its hash is the same, else
a new place. -/
def placeFor (n : TEntry) (old : Option TEntry) (s : State) : Option (Nat × Nat) × State :=
  let fresh : Option (Nat × Nat) × State :=
    if n.table = 5 then (some (n.group, 0), s)
    else if n.isDefault then (some ((freshSlot s n.table).1, 0), (freshSlot s n.table).2)
    else ((storeSlot n s).1.map (fun k => (k, 0)), (storeSlot n s).2)
  match old with
  | some o => if o.hashKey = n.hashKey then (some (o.slot, o.version), s) else fresh
  | none => fresh

/-- Put an entry into banks (04 R119, R127, R130, R136, R146, R152): it replaces those banks' entry of its key and keeps its
slot, and a copy that another bank still holds splits off. HIT and the sweeper's visits go on with the entry that the active
bank held. None where a limit or the store has no room. -/
def putEntry (n : TEntry) (b : Banks) (s : State) : Option State × State :=
  let act := s.activeBank n.part n.table
  let mine := s.tabs.entries.filter (fun e => sameKey n.table n.part n.key e && e.touched b)
  let own := mine.filter (fun e => !(e.without b).live)
  let old := (own.find? (·.inBank act)).or own.head?
  let n := match mine.find? (·.inBank act) with
    | some o => { n with hit := o.hit, hitAt := o.hitAt, born := o.born, seen := o.seen }
    | none => { n with born := s.now }
  match placeFor n old (removeKey n.table n.part n.key b s).2 with
  | (none, s1) => (none, { s with free := s1.free })
  | (some (slot, version), s1) =>
    let e := { n with bank0 := b.b0, bank1 := b.b1, slot := slot, version := version }
    let s2 := s1.setEntries (s1.tabs.entries ++ [e])
    (if overLimits s s2 n.table n.part then none else some s2, { s with free := s2.free })

/-- An entry is invalidated in both banks (13 R411). -/
def invalidate (e : TEntry) (s : State) : State :=
  s.setEntries (s.tabs.entries.filter (fun x => decide (¬(x.table = e.table ∧ x.part = e.part ∧ x.key = e.key))))

/-- A hit sets HIT (04 R139, R143); it wins over a removal by the sweeper in the same cycle (R144). -/
def setHit (e : TEntry) (s : State) : State :=
  let mark : TEntry → TEntry := fun x => { x with hit := true, hitAt := if x.hit then x.hitAt else some s.clk.pk, leaving := false }
  s.setEntries (updFirst (fun x => decide (x = e)) mark s.tabs.entries)

/-- The end of a cycle: the entries that the sweeper removes in it, and that no lookup has hit, are gone (04 R143, R144). -/
def dropAged (s : State) : State :=
  (s.tabs.entries.filter (·.leaving)).foldl
    (fun s e => ((removeKey 1 e.part e.key (s.ownBanks e.part 1) s).2).count (.ev e.part .emAged)) s

/-! ### What a lookup finds -/

/-- A key of selected words: word base + i for each bit i of a mask, in ascending order, padded to n bytes (04 R121). -/
def wordKey (words : List Word) (mask base n : Nat) : Bytes :=
  fitTo n (((List.range 64).filter (fun i => mask.testBit i)).flatMap (fun i => leBytes 4 (nth 0 words (base + i)).toNat))

/-- The prefix length of an LPM entry. -/
def TEntry.lpmLen (e : TEntry) : Nat := (e.key.getLastD 0).toNat

/-- The KEY bytes of an address's prefix. -/
def prefixKey (v6 : Bool) (addr len : Nat) : Bytes :=
  if v6 then
    let x := addr / 2 ^ (128 - len) * 2 ^ (128 - len)
    leBytes 4 (x / 2 ^ 96) ++ leBytes 4 (x / 2 ^ 64) ++ leBytes 4 (x / 2 ^ 32) ++ leBytes 4 x ++ leBytes 1 len
  else leBytes 4 (addr / 2 ^ (32 - len) * 2 ^ (32 - len)) ++ leBytes 1 len

/-- The longest prefix of a bank that matches (04 R133). -/
def lpmBest (s : State) (v6 : Bool) (p b addr : Nat) : Option TEntry :=
  let l := (s.tbank (if v6 then 3 else 2) p b).filter (fun e => e.key == prefixKey v6 addr e.lpmLen)
  minBy (fun e => 128 - e.lpmLen) l

/-- The probes of an LPM lookup, one for each candidate length down to the match, and the false ones among them: the
longer present lengths whose filter hits (04 R132, R134; log 11). -/
def lpmProbes (s : State) (v6 : Bool) (p b addr : Nat) (best : Option TEntry) : Nat × Nat :=
  let t := if v6 then 3 else 2
  let m := match best with | some e => e.lpmLen | none => 0
  let lens := (((s.tbank t p b).map TEntry.lpmLen).eraseDups).filter (fun l => decide (m < l))
  let fp := (lens.filter (fun l => filterHit s v6 p (prefixKey v6 addr l))).length
  (fp + (if m = 0 then 0 else 1), fp)

/-- Bytes of a rule key vector under a mask. -/
def maskAnd (a b : Bytes) : Bytes := List.zipWith (· &&& ·) a b

/-- A better match of two rules: the higher PRIORITY, then the lower RULE_ID (04 R137). -/
def betterRule (a b : TEntry) : Bool :=
  decide (b.prio < a.prio) || (decide (a.prio = b.prio) && decide (leNat a.key < leNat b.key))

def bestRule (l : List TEntry) : Option TEntry :=
  l.foldl (fun m e => match m with | none => some e | some x => if betterRule e x then some e else some x) none

/-- MAXPRI of a group in a bank, where it holds rules (04 R138). -/
def maxPri (rules : List TEntry) (g : Nat) : Option Nat :=
  match (rules.filter (fun e => decide (e.group = g))).map (·.prio) with
  | [] => none
  | x :: r => some (r.foldl max x)

/-- The probe order of groups: descending MAXPRI, ties in ascending number. -/
def probeOrder (groups rules : List TEntry) : List (Nat × TEntry) :=
  sortBy (fun a b => decide (b.1 < a.1) || (decide (a.1 = b.1) && decide (a.2.group < b.2.group)))
    (groups.filterMap (fun g => (maxPri rules g.group).map (fun m => (m, g))))

/-- Probe groups in order until the best match beats the next MAXPRI: the match and the probes spent. -/
def probeRules (rules : List TEntry) (vec : Bytes) : List (Nat × TEntry) → Option TEntry → Nat → Option TEntry × Nat
  | [], best, n => (best, n)
  | (m, g) :: r, best, n =>
    if (match best with | some b => decide (m < b.prio) | none => false) then (best, n)
    else
      let hits := rules.filter (fun e => decide (e.group = g.group) && maskAnd vec g.value == e.value)
      probeRules rules vec r (bestRule (best.toList ++ hits)) (n + 1)

/-- The rule lookup of a bank. -/
def ruleLookup (s : State) (p b : Nat) (vec : Bytes) : Option TEntry × Nat :=
  let rules := s.tbank 4 p b
  probeRules rules vec (probeOrder (sortBy (fun a b => decide (a.group < b.group)) (s.tbank 5 p b)) rules) none 0

end Sys2Proof.Machine
end

