-- ==== Sys2Proof/Machine/Rings.lean ====
section
/-! DEFINITION. The host window: ring registers and ring service (02 R46 to R50, R61, R62, R65, R489, 16 R472 to
R481), which command of a ring may start, and the tick of the clock. -/

namespace Sys2Proof.Machine

/-! ### Ring registers -/

/-- The seal generation of a partition advances and ring n takes it (02 R65). -/
def nextGen (n : Nat) (s : State) : State :=
  let p := (s.ring n).part
  let g := (s.part p).sealGen + 1
  (s.modPart p (fun q => { q with sealGen := g })).modRing n (fun r => { r with ringGen := g })

/-- The seal generation of a partition is exhausted under its command key (02 R65). -/
def genExhausted (s : State) (p : Nat) : Bool := (s.part p).cmdKey.isSome && decide ((s.part p).sealGen = 0xffff)

/-- A RESET of ring n while EN is 0 (02 R46, R65). Commands in flight stay, and their replies come later from the offsets
of the RESET on (DESIGN CHOICE, log 99). -/
def ringResetApply (n : Nat) (s : State) : State :=
  if genExhausted s (s.ring n).part then s.modRing n (fun r => { r with genFull := true })
  else nextGen n (s.modRing n (fun r =>
    { r with crTail := 0, crHead := 0, rpHead := 0, rpWrite := 0, expSeq := 0, wraps := 0, rpCount := 0,
             halted := false }))

/-- An address range of a ring lies in writable pages without WP (16 R479). -/
def ringPagesOk (s : State) (p base size : Nat) : Bool := s.spanOk p base size true && !s.spanWp p base size

/-- The enable checks (16 R479). -/
def enableOk (n : Nat) (s : State) : Bool :=
  let r := s.ring n
  decide (12 ≤ r.crSizeLog) && decide (r.crSizeLog ≤ 24) && decide (13 ≤ r.rpSizeLog) && decide (r.rpSizeLog ≤ 24)
    && decide (r.crBase.toNat % r.crSize = 0) && decide (r.rpBase.toNat % r.rpSize = 0)
    && decide (r.rhwAddr.toNat % 8 = 0)
    && (!r.crLoc || ringPagesOk s r.part r.crBase.toNat r.crSize)
    && (!r.rpLoc || ringPagesOk s r.part r.rpBase.toNat r.rpSize)

/-- DEVSTAT.RING_REFUSED sets (16 R476). -/
def refuseRing (s : State) : State := { s with sys := { s.sys with ringRefused := true } }

/-- One write to RING_CTRL, in the order of 02 R489: every write while EN stays 1 has its STATIC bits ignored, whatever they
are, and is refused. -/
def ringCtrlWrite (n : Nat) (en crLoc rpLoc reset : Bool) (s : State) : State :=
  let s := if en then s else s.modRing n (fun r => { r with en := false })
  let s := if (s.ring n).en then refuseRing s else s.modRing n (fun r => { r with crLoc := crLoc, rpLoc := rpLoc })
  let s := if !reset then s else if (s.ring n).en then refuseRing s else ringResetApply n s
  if en && !(s.ring n).en then
    if enableOk n s then s.modRing n (fun r => { r with en := true }) else refuseRing s
  else s

/-- A write to CR_TAIL (02 R47). -/
def crTailStore (n : Nat) (v : Word) (s : State) : State :=
  let r := s.ring n
  if r.crSize < dist r.crHead v ∨ r.crSize < dist r.crTail v then s.setRing n { r with tailFault := true }
  else s.setRing n { r with crTail := v }

/-- A write to RP_HEAD (02 R49, 16 R477). -/
def rpHeadStore (n : Nat) (v : Word) (s : State) : State := s.modRing n (fun r => { r.keepPend s.clk.pk with rpHead := v })

/-- A write to a STATIC register of ring n (02 R46). -/
def staticStore (n : Nat) (f : Ring → Ring) (s : State) : State :=
  if (s.ring n).en then refuseRing s else s.modRing n f

/-- Replace a half of a 64-bit register. -/
def setLo (d : DWord) (v : Word) : DWord := (d >>> 32 <<< 32) ||| v.setWidth 64
def setHi (d : DWord) (v : Word) : DWord := (v.setWidth 64 <<< 32) ||| (d.setWidth 32).setWidth 64

/-! ### The status mirror (16 R478) -/

/-- The mirror's content: DEVSTAT and RING_PEND. -/
def mirrorContent (s : State) : Word × DWord := (s.devstat, dw s.ringPend)

/-- The mirror is on: its address is not 0 and is aligned. -/
def mirrorOn (s : State) : Bool := decide (s.sys.dsmAddr ≠ 0) && decide (s.sys.dsmAddr.toNat % 16 = 0)

/-- Write the 16 mirror bytes. -/
def mirrorWrite (s : State) : State :=
  let c := mirrorContent s
  let s := s.hostWrite s.sys.dsmAddr.toNat (leBytes 4 c.1.toNat ++ zeros 4 ++ leBytes 8 c.2.toNat)
  { s with sys := { s.sys with dsmSeen := some c, dsmLast := some s.now } }

/-- 1 µs has passed since the mirror was last written. -/
def mirrorFree (s : State) : Bool := match s.sys.dsmLast with | none => true | some t => decide (t.toNat + 1000 ≤ s.now.toNat)

/-- A write to DSM_ADDR_HI puts the pair in force, and the mirror is written: at once, or within the 1 µs that the last write
of it leaves. -/
def dsmHiStore (v : Word) (s : State) : State :=
  let s := { s with sys := { s.sys with dsmHi := v, dsmAddr := setHi (s.sys.dsmLo.setWidth 64) v, dsmSeen := none } }
  if mirrorOn s && mirrorFree s then mirrorWrite s else s

/-- A write to a BAR0 register (02 R46, 16 R474 to R478): RO and undefined offsets ignore it. -/
def bar0Store (offset : Nat) (v : Word) (s : State) : State :=
  if offset = 0x100 then
    (if v.getLsbD 9 then { s with sys := { s.sys with ringRefused := false } } else s)
  else if offset = 0x200 then { s with sys := { s.sys with dsmLo := v } }
  else if offset = 0x204 then dsmHiStore v s
  else if 0x10000 ≤ offset ∧ offset < 0x11000 then
    let n := (offset - 0x10000) / 64
    match (offset - 0x10000) % 64 with
    | 0x00 => staticStore n (fun r => { r with crBase := setLo r.crBase v }) s
    | 0x04 => staticStore n (fun r => { r with crBase := setHi r.crBase v }) s
    | 0x08 => staticStore n (fun r => { r with rpBase := setLo r.rpBase v }) s
    | 0x0c => staticStore n (fun r => { r with rpBase := setHi r.rpBase v }) s
    | 0x10 => staticStore n
        (fun r => { r with crSizeLog := bitsOf v.toNat 4 0, rpSizeLog := bitsOf v.toNat 12 8 }) s
    | 0x14 => ringCtrlWrite n (v.getLsbD 0) (v.getLsbD 1) (v.getLsbD 2) (v.getLsbD 3) s
    | 0x18 => crTailStore n v s
    | 0x20 => rpHeadStore n v s
    | 0x28 => staticStore n (fun r => { r with rhwAddr := setLo r.rhwAddr v }) s
    | 0x2c => staticStore n (fun r => { r with rhwAddr := setHi r.rhwAddr v }) s
    | 0x30 => s.modRing n (fun r => { r with tailFault := r.tailFault && !v.getLsbD 8,
                                             genFull := r.genFull && !v.getLsbD 9 })
    | 0x34 => s.modRing n (fun r => { r with cmdTimeout := v.setWidth 16 })
    | _ => s
  else s

/-- The halves of a 64-bit register. -/
def loHalf (d : DWord) : Word := d.setWidth 32
def hiHalf (d : DWord) : Word := (d >>> 32).setWidth 32

/-- What an aligned 4-byte read of a ring register returns (00 R7, 02 R46): RESET and Reserved bits read zero. -/
def Ring.word (r : Ring) (o : Nat) : Word :=
  match o with
  | 0x00 => loHalf r.crBase
  | 0x04 => hiHalf r.crBase
  | 0x08 => loHalf r.rpBase
  | 0x0c => hiHalf r.rpBase
  | 0x10 => w32 (r.crSizeLog + r.rpSizeLog * 2 ^ 8)
  | 0x14 => r.ctrl
  | 0x18 => r.crTail
  | 0x1c => r.crHead
  | 0x20 => r.rpHead
  | 0x24 => r.rpWrite
  | 0x28 => loHalf r.rhwAddr
  | 0x2c => hiHalf r.rhwAddr
  | 0x30 => r.status
  | 0x34 => r.cmdTimeout.setWidth 32
  | 0x38 => r.expSeq
  | 0x3c => r.ringGen.setWidth 32
  | _ => 0

/-- What an aligned 4-byte read of BAR0 returns (00 R7, 16 R473 to R478); an undefined offset reads zero. -/
def State.bar0Word (s : State) (offset : Nat) : Word :=
  match offset with
  | 0x00 => 0x38454158
  | 0x04 => s.sys.fuses.order
  | 0x08 => w32 (0x00a1 + 0x0100 * 2 ^ 16)
  | 0x0c => 1
  | 0x10 => w32 s.sys.slotId
  | 0x14 => 64
  | 0x18 => loHalf s.now
  | 0x1c => s.sys.timeHi
  | 0x20 => w32 s.sys.fuses.serial.toNat
  | 0x24 => w32 (s.sys.fuses.serial.toNat / 2 ^ 32)
  | 0x28 => w32 (s.sys.fuses.serial.toNat / 2 ^ 64)
  | 0x2c => w32 (s.sys.fuses.serial.toNat / 2 ^ 96)
  | 0x100 => s.devstatRead
  | 0x108 => w32 s.ringPendRead
  | 0x10c => w32 (s.ringPendRead / 2 ^ 32)
  | 0x200 => s.sys.dsmLo
  | 0x204 => s.sys.dsmHi
  | _ => if 0x10000 ≤ offset ∧ offset < 0x11000 then (s.ring ((offset - 0x10000) / 64)).word ((offset - 0x10000) % 64) else 0

/-- A host access reaches the function only while the host link is up (14 R431, R434). -/
def viaHost (f : State → State) (s : State) : State := if s.sys.mode.hasHost then f s else s

def execCrTailWrite (ring : Nat) (value : Word) (s : State) : Host.Outcome State Fault Refusal :=
  .next (viaHost (crTailStore ring value) s)

def execRingEnable (ring : Nat) (crLoc rpLoc : Bool) (s : State) : Host.Outcome State Fault Refusal :=
  .next (viaHost (ringCtrlWrite ring true crLoc rpLoc false) s)

def execRingDisable (ring : Nat) (crLoc rpLoc : Bool) (s : State) : Host.Outcome State Fault Refusal :=
  .next (viaHost (ringCtrlWrite ring false crLoc rpLoc false) s)

def execRingReset (ring : Nat) (en crLoc rpLoc : Bool) (s : State) : Host.Outcome State Fault Refusal :=
  .next (viaHost (ringCtrlWrite ring en crLoc rpLoc true) s)

def execRpHeadWrite (ring : Nat) (value : Word) (s : State) : Host.Outcome State Fault Refusal :=
  .next (viaHost (rpHeadStore ring value) s)

def execRegisterWrite (offset : Nat) (value : Word) (s : State) : Host.Outcome State Fault Refusal :=
  .next (viaHost (bar0Store offset value) s)

/-- TIME_LO (16 R475). -/
def execTimeLoRead (s : State) : Host.Outcome State Fault Refusal :=
  .next (viaHost (fun s => { s with sys := { s.sys with
    timeHi := hiHalf s.now, bus := some (.data (leBytes 4 (s.bar0Word 0x18).toNat)) } }) s)

def execDsmAddrHiWrite (value : Word) (s : State) : Host.Outcome State Fault Refusal :=
  .next (viaHost (dsmHiStore value) s)

/-- A mirror write is due: the mirror is on, its content has changed, and 1 µs has passed since the last. -/
def mirrorDue (s : State) : Bool :=
  mirrorOn s && decide (s.sys.dsmSeen ≠ some (mirrorContent s)) && mirrorFree s

def execStatusMirrorWrite (s : State) : Host.Outcome State Fault Refusal :=
  .next (viaHost (fun s => if mirrorDue s then mirrorWrite s else s) s)

/-- A misaligned or wrongly sized access (16 R473). -/
def execBar0UnsupportedAccess (_isWrite : Bool) (_offset _size : Nat) (s : State) : Host.Outcome State Fault Refusal :=
  .next (viaHost (fun s => { s with sys := { s.sys with bus := some .unsupported, aer := s.sys.aer + 1 } }) s)

/-- The partition-virtual address that a BAR2 byte maps, for a write or a read (16 R480). -/
def bar2Addr (s : State) (off : Nat) (isWrite : Bool) : Option (Nat × Nat) :=
  let r := s.ring (off / 2 ^ 25)
  let o := off % 2 ^ 25
  if !r.en then none
  else if o < 2 ^ 24 then
    (if r.crLoc && decide (o < r.crSize) then some (r.part, r.crBase.toNat + o) else none)
  else if !isWrite && r.rpLoc && decide (o - 2 ^ 24 < r.rpSize) then some (r.part, r.rpBase.toNat + (o - 2 ^ 24))
  else none

/-- Write BAR2 bytes one by one where they map; the traffic is partition 0's (16 R480). -/
def bar2Store (s : State) : (off : Nat) → Bytes → Mem → Mem
  | _, [], m => m
  | off, b :: bs, m =>
    bar2Store s (off + 1) bs (match bar2Addr s off true with
      | some (p, a) => hbmPut s p a [b] m
      | none => m)

/-- The physical addresses of the bytes that an access maps. -/
def bar2Phys (s : State) (offset size : Nat) (isWrite : Bool) : List Nat :=
  (List.range size).filterMap (fun i => (bar2Addr s (offset + i) isWrite).bind (fun (p, a) => s.physAddr p a))

/-- Every byte of a 64-byte unit is among some physical addresses. -/
def wholeIn (l : List Nat) (u : Nat) : Bool := (List.range 64).all (fun i => l.contains (u * 64 + i))

def execBar2Access (offset : Nat) (write : Option Bytes) (size : Nat) (s : State) : Host.Outcome State Fault Refusal :=
  .next (viaHost (fun s =>
    let l := bar2Phys s offset size write.isSome
    let s := l.foldl (fun s x =>
      (s.count (.bytes 0 .hbm)).count (.mem (x / (stackPages * pageBytes)) (b2n write.isSome))) s
    match write with
    | some b =>
      let s := s.noteEpoch ((l.map (fun x => (x / 64, 1))).eraseDups)
      { s with hbm := bar2Store s offset b s.hbm, sys := { s.sys with bus := some .done },
               darn := { s.darn with poisonHbm := s.darn.poisonHbm.filter (fun u => !wholeIn l u) } }
    | none =>
      let b := (List.range size).map (fun i => match bar2Addr s (offset + i) false with
        | some (p, a) => byteAt (s.hbmRead p a 1) 0
        | none => 0)
      { s with sys := { s.sys with bus := some (.data b) } }) s)

/-! ### Fetching a command (02 R49, R62 to R65) -/

/-- EXP_SEQ becomes SEQ + 1, counting its wraps (02 R58, R62). -/
def advanceSeq (r : Ring) (seq : Word) : Ring :=
  { r with expSeq := seq + 1, wraps := if seq = 0xffffffff then (r.wraps + 1) % 2 ^ 24 else r.wraps }

/-- The reply of a CMD_KEY_SET of a partition has not been written: no later command of the partition is checked
(12 R386). -/
def keySetting (s : State) (p : Nat) : Bool :=
  let waits : InFlight → Bool := fun e => decide (e.opc = 0x620)
  s.rings.any (fun r => decide (r.2.part = p) && r.2.inFlight.any waits) || (s.part p).ibFlight.any waits

/-- Ring n may be fetched from now: enabled, not halted nor moving, with room for a reply and fewer than 32 commands
in flight, no start running, and its memory up (02 R48, R49, R79, 14 R443). -/
def fetchable (n : Nat) (s : State) : Bool :=
  let r := s.ring n
  s.sys.mode.hasHost && decide (s.sys.mode ≠ .starting) && !heldCmd s 0x010
    && r.en && !r.halted && !r.fencedCp && r.hasSpace && decide (r.inFlight.length < 32) && decide (r.crTail ≠ r.crHead)
    && (decide (s.sys.mode = .running) || (!r.crLoc && !r.rpLoc)) && !keySetting s r.part

/-- The ring's seal: command and reply nonces of a command ID (02 R65). -/
def ringNonce (n : Nat) (gen : Half) (id : DWord) (reply : Bool) : Bytes :=
  leBytes 4 (n + gen.toNat * 256 + b2n reply * 2 ^ 31) ++ leBytes 8 (id.toNat % 2 ^ 56)

/-- Add a finished or waiting entry to ring n and write what may be written. -/
def pushEntry (n : Nat) (e : InFlight) (s : State) : State :=
  let s := s.setFlight (.ring n) ((s.ring n).inFlight ++ [e])
  flushReplies (.ring n) (s.ring n).inFlight.length s

/-- A reply that a check before execution gives, with the prefix alone. -/
def checkReply (st : Status) (s : State) : Reply :=
  { status := st.code, rflags := 0, ft := s.now, order := 0, body := [] }

/-- Fetch the next command of ring n and take it through steps 1 to 8 of 02 R62. The halting reply takes its place behind
every command in flight, so it carries no flag of the header as read (R64). -/
def fetchOne (n : Nat) (s : State) : State :=
  if !fetchable n s then s
  else
    let r := s.ring n
    let get := fun k => ringGet s r.crLoc r.part r.crBase.toNat r.crSize r.crHead k
    let pos := r.crBase.toNat + r.crHead.toNat % r.crSize
    let avail := dist r.crHead r.crTail
    let h := readHead (get 32)
    let size := 32 + 8 * h.len
    let slots := ceilDiv size 32 * 32
    let c := h.ctx (.ring n)
    if h.ver ≠ 1 ∨ 8188 < h.len ∨ avail < slots ∨ (r.crLoc ∧ s.hbmPoison r.part pos 32) then
      pushEntry n { ctx := { c with flags := 0 }, opc := h.opc, reply := some (checkReply .badLength s) }
        (s.setRing n { r with halted := true })
    else
      let b := get size
      let id := s.commandId (.ring n) h.seq
      let r := { r with crHead := r.crHead + w32 slots }
      let isSealed := decide (s.fact .partCmdSeal r.part = 1)
      let key := (s.part r.part).cmdKey.getD 0
      let aad := b.take 28 ++ zeros 4
      let pay := if isSealed then gcmOpen s key (ringNonce n r.ringGen id false) aad (b.drop 32) else some (b.drop 32)
      let sk := if isSealed then some (key, ringNonce n r.ringGen id true) else none
      let early := fun (st : Status) =>
        pushEntry n { ctx := c, opc := h.opc, id := id, reply := some (checkReply st s) }
          (s.setRing n (if isSealed then r else advanceSeq r h.seq))
      if commandCrc b ≠ h.crc then early .integrityFail
      else if r.crLoc ∧ s.hbmPoison r.part pos size then
        pushEntry n { ctx := c, opc := h.opc, id := id, reply := some (checkReply .dataPoisoned s) }
          (s.setRing n (advanceSeq r h.seq))
      else
        match pay with
        | none => early .authFail
        | some p =>
          if h.seq ≠ r.expSeq then early .badParam
          else
            let e : InFlight := { ctx := c, opc := h.opc, id := id, sealKey := sk, fetched := if c.fence then some s.now else none }
            let s := s.setRing n (advanceSeq r h.seq)
            match decodeCommand s h c r.part p with
            | .bad st => pushEntry n { e with reply := some (checkReply st s) } s
            | .cmd i => pushEntry n { e with cmd := some i } s

def execCommandFetch (ring : Nat) (s : State) : Host.Outcome State Fault Refusal := .next (fetchOne ring s)

/-- A command that waits has waited longer than CMD_TIMEOUT (02 R61). A marker that follows earlier packets through the
packet path is no such wait, and a wait is over once the command has started. -/
def waitedOut (r : Ring) (now : DWord) (seq : Word) (e : InFlight) : Bool :=
  decide (e.ctx.seq = seq) && e.reply.isNone && e.mark.isNone && e.cmd.isSome && decide (r.cmdTimeout ≠ 0)
    && (match e.waitFrom with
        | none => false
        | some t => decide (t.toNat + r.cmdTimeout.toNat * 1000000 < now.toNat))

/-! ### Which fetched command may start (02, Execution order) -/

/-- The block that an opcode targets: opcodes that share all but their last digit share one (log 25). -/
def blockOf (opc : Nat) : Nat := opc / 16

/-- Whether a fetched command may start behind the entries before it in its ring. A command that waits under WAIT_DRAIN with
UNORDERED holds back no later one, of its own block too (DEDUCED from 02 R61, log 25). -/
def mayStart (before : List InFlight) (e : InFlight) : Bool :=
  before.all (fun b =>
    !b.ctx.fence && !e.ctx.fence
      && (b.reply.isSome
          || (b.cmd.isSome && b.waitFrom.isSome && b.ctx.unordered)
          || (b.cmd.isNone && decide (blockOf b.opc ≠ blockOf e.opc) && (b.waitFrom.isNone || b.ctx.unordered))))

/-- The first command of a source that may start. -/
def firstStart : (before : List InFlight) → List InFlight → Option Instr
  | _, [] => none
  | before, e :: r =>
    match e.cmd with
    | some i => if e.waitFrom.isNone && mayStart before e then some i else firstStart (before ++ [e]) r
    | none => firstStart (before ++ [e]) r

/-- The first element of a list that a function answers for. -/
def firstOf {α β : Type} (f : α → Option β) : List α → Option β
  | [] => none
  | a :: r => match f a with | some b => some b | none => firstOf f r

/-- The command that starts next, of the rings and then of the in-band streams. -/
def nextStart (s : State) : Option Instr :=
  if !s.sys.mode.hasHost then none
  else match firstOf (fun e => firstStart [] e.2.inFlight) s.rings with
    | some i => some i
    | none => firstOf (fun e => firstStart [] e.2.ibFlight) s.parts

/-- The commands that wait (02 R61). -/
def waiting (s : State) : List Instr :=
  (s.rings.flatMap (fun e => e.2.inFlight) ++ s.parts.flatMap (fun e => e.2.ibFlight)).filterMap
    (fun e => if e.waitFrom.isSome then e.cmd else none)

/-! ### Time (14 R439) -/

/-- The rate of the fractional adder, clamped (14 R439). -/
def adderRate (s : State) : Int := clampI (s.clk.hostRate + s.clk.ppsRate + s.clk.fabRate) (-1048576) 1048576

/-- The increment of one PKCLK cycle in units of 2^-32 ns (14 R439). -/
def adderInc (s : State) : Nat := (2684354560 + divT (adderRate s * 5) 8).toNat

/-- PPS_OUT falls once its width has passed (14 R442). -/
def ppsFall (s : State) : State :=
  match s.clk.ppsOff with
  | some t => if t ≤ s.clk.pk then { s with clk := { s.clk with ppsOff := none }, sys := { s.sys with ppsOut := false } } else s
  | none => s

/-- A frame whose transmission has ended is counted (15 R454). -/
def endFrame (s : State) (e : Nat × Tx) : State :=
  let g := { s.egr with tx := smDel s.egr.tx e.1, txEnd := smSet s.egr.txEnd e.1 e.2.endPs }
  (({ s with egr := g }).count (.port e.1 .txPkts)).count (.port e.1 .txBytes) e.2.frame.length

/-- The transmissions that are over by now. -/
def endTx (s : State) : State := (s.egr.tx.filter (fun e => decide (e.2.endPs ≤ s.pkPs))).foldl endFrame s

/-- A packet is in a stage of its pipeline, and in none of its buffers. -/
def Packet.inStage (k : Packet) : Bool :=
  match k.place with
  | .reed | .scan | .lookup | .flow | .wicker | .merge | .action => true
  | _ => false

/-- The cycle counts for every pipeline of which a stage holds a packet (15 R454; log 109). -/
def countBusy (s : State) : State :=
  if s.up then (((s.pkts.filter Packet.inStage).map (·.pipe)).eraseDups).foldl (fun s p => s.count (.pipe p .busyCycles)) s else s

/-- One PKCLK cycle ends, and the time counter advances. -/
def tick (s : State) : State :=
  let s := countBusy (dropAged s)
  let t := s.clk.ft.toNat * 2 ^ 32 + s.clk.frac.toNat + adderInc s
  endTx (chargeWalks (ppsFall { s with clk := { s.clk with ft := dw (t / 2 ^ 32), frac := w32 t, pk := s.clk.pk + 1 } }))

end Sys2Proof.Machine
end

