-- ==== Sys2Proof/Machine/Intake.lean ====
section
/-! DEFINITION. Packet intake (03 R82 to R92, R106 to R117): the MAC, MACsec, in-band commands (02 R66, R67), fragments,
steering, REED and the pattern engine. -/

namespace Sys2Proof.Machine

/-! ### Receive capture at a stop (15 R466) -/

/-- Arriving bytes at a port (unit 0 to 31) or link (32 to 63) after a stop; a FATAL stop has taken it down
(13 R415). -/
def captureRx (unit : Nat) (b : Bytes) (s : State) : State :=
  match s.obs.stop with
  | none => s
  | some st =>
    let c := smGet {} st.caps unit
    let put := b.take (4096 - c.bytes.length)
    let chunks := ceilDiv (c.bytes.length + put.length) 64 - ceilDiv c.bytes.length 64
    let full := decide (4096 ≤ c.bytes.length + put.length)
    let c := if st.cause.testBit 1 then c
      else if c.ended then (if c.bytes.length = 4096 then { c with after := c.after + b.length } else c)
      else { bytes := c.bytes ++ put, times := c.times ++ List.replicate chunks ((s.now.toNat : Int) - st.ft.toNat),
             after := c.after + (b.length - put.length), last := some s.now, ended := full }
    { s with obs := { s.obs with stop := some { st with caps := smSet st.caps unit c } } }

/-! ### MAC control frames (03 R83, 10 R326) -/

/-- The EtherType of a frame. -/
def etherType (f : Bytes) : Nat := beAt f 12 2

/-- The pause time in ns, rounded up: a quantum is 512 bit times. -/
def pauseNs (s : State) (q : Nat) : Nat := ceilDiv (q * (if s.fact .portMode = 0 then 128 else 64)) 100

/-- The pauses after a PFC frame sets priority x, where its vector enables it; a time of 0 ends the pause. -/
def pfcOne (s : State) (port : Nat) (f : Bytes) (m : SMap DWord) (x : Nat) : SMap DWord :=
  let q := beAt f (18 + 2 * x) 2
  if !(beAt f 16 2).testBit x then m
  else if q = 0 then smDel m (port * 8 + x)
  else smSet m (port * 8 + x) (s.now + dw (pauseNs s q))

/-- A PFC frame pauses each priority that its vector enables. -/
def pfcPause (port : Nat) (f : Bytes) (s : State) : State :=
  let m := (List.range 8).foldl (pfcOne s port f) s.egr.pauseUntil
  { s with egr := { s.egr with pauseUntil := m } }

/-- A MAC Control frame is consumed. -/
def macControl (port : Nat) (f : Bytes) (s : State) : State :=
  match beAt f 14 2 with
  | 0x0001 => s.count (.port port .pauseRx)
  | 0x0101 => pfcPause port f (s.count (.port port .pfcRx))
  | _ => s.count (.port port .macctlOther)

/-! ### MACsec on reception (03 R84, R85) -/

/-- The key of a MACSEC_SA entry in Tabs.sa: its fixed place (03 R85). -/
def saIndex (port chan an : Nat) : Nat := (port * 9 + chan) * 4 + an

/-- A valid SA. -/
def State.saAt (s : State) (port chan an : Nat) : Option Bytes :=
  match smFind s.tabs.sa (saIndex port chan an) with
  | some e => if (byteAt e 3).getLsbD 0 then some e else none
  | none => none

/-- The bytes of a protected frame before its user data: addresses and SecTAG (802.1AE). -/
def secTagLen (f : Bytes) : Nat := if (byteAt f 14).getLsbD 5 then 28 else 20

/-- The length of a received frame for RX_OVERSIZE: after MACsec removal where the port has it, as the SecTAG fixes it: SL, or
the frame's length where SL is 0 (03 R82). -/
def countedLen (s : State) (port : Nat) (f : Bytes) : Nat :=
  if s.fact .portMacsec port = 1 ∧ etherType f = 0x88e5 then
    let sl := (byteAt f 15).toNat
    if sl = 0 then f.length - (secTagLen f - 12) - 16 else 12 + sl + 4
  else f.length

/-- The GCM nonce of XPN: SSCI and packet number, each most significant byte first, XOR the salt. SALT, as SCI, is a byte
string of IEEE 802.1AE and stands in its entry in frame order; SSCI and NEXT_PN are numbers and little-endian (DEDUCED from
00 R4, log 102). -/
def xpnNonce (e : Bytes) (pn : Nat) : Bytes :=
  List.zipWith (· ^^^ ·) (beBytes 4 (uAt e 12 4) ++ beBytes 8 pn) (slice e 16 12)

/-- The packet number of 64 bits from the low 32 bits and the lowest acceptable number. -/
def recoverPn (lowest low : Nat) : Nat :=
  let hi := lowest / 2 ^ 32
  let l := lowest % 2 ^ 32
  (if low < l ∧ 2 ^ 31 ≤ l ∧ low < 2 ^ 31 then hi + 1 else hi) * 2 ^ 32 + low

/-- The receive channel of a protected frame: by its SCI, by its source address with ES, or the only one (log 28). -/
def rxChannel (s : State) (port : Nat) (f : Bytes) : Option (Nat × Bytes) :=
  let tci := byteAt f 14
  let an := tci.toNat % 4
  let l := (List.range 8).filterMap (fun c => (s.saAt port c an).map (fun e => (c, e)))
  let sci := if tci.getLsbD 5 then slice f 20 8 else slice f 6 6 ++ [0, 1]
  if tci.getLsbD 5 || tci.getLsbD 6 then l.find? (fun x => slice x.2 4 8 == sci)
  else match l with | [x] => some x | _ => none

/-- Validate and strip a protected frame: the frame without SecTAG and ICV and with a new FCS, and the SA's new lowest
packet number. -/
def macsecOpen (s : State) (port : Nat) (f : Bytes) : Option (Bytes × Nat × Nat) :=
  let tci := byteAt f 14
  let h := secTagLen f
  let sl := (byteAt f 15).toNat
  let n := if sl = 0 then f.length - h - 20 else sl
  let conf := tci.getLsbD 3
  if etherType f ≠ 0x88e5 ∨ tci.getLsbD 7 ∨ (tci.getLsbD 5 ∧ (tci.getLsbD 6 ∨ tci.getLsbD 4)) ∨ conf ≠ tci.getLsbD 2 ∨ 47 < sl ∨ f.length < h + n + 20
      ∨ (sl = 0 ∧ n < 48) then none
  else
    match rxChannel s port f with
    | none => none
    | some (c, e) =>
      let lowest := uAt e 32 8
      let pn := recoverPn lowest (beAt f 16 4)
      let data := slice f h n
      let icv := slice f (h + n) 16
      let aad := if conf then f.take h else f.take h ++ data
      if pn < lowest then none
      else
        match gcmOpen s (keyOfBytes (slice e 40 32)) (xpnNonce e pn) aad (if conf then data ++ icv else icv) with
        | none => none
        | some p =>
          let g := f.take 12 ++ (if conf then p else data)
          some (g ++ leBytes 4 (crc32eth g).toNat, saIndex port c (tci.toNat % 4),
            max lowest (pn + 1 - uAt e 28 4))

/-! ### In-band commands (02 R66, R67) -/

/-- Add an entry to a partition's in-band stream and write what may be written. -/
def pushInband (p : Nat) (e : InFlight) (s : State) : State :=
  let s := s.modPart p (fun q => { q with ibFlight := q.ibFlight ++ [e] })
  flushReplies e.ctx.src (s.part p).ibFlight.length s

/-- An authenticated in-band command goes through steps 2 to 8 of 02 R62. A body that is not the header and LEN × 8 bytes of
payload fails step 2, since the CRC covers just those (log 29). -/
def inbandCommand (p port : Nat) (mac b : Bytes) (s : State) : State :=
  let x : Src := .inband p port mac
  let q := s.part p
  let h := readHead b
  let c := h.ctx x
  let e : InFlight := { ctx := c, opc := h.opc, id := s.commandId x h.seq, ibKey := q.cmdKey.getD 0 }
  let early := fun (st : Status) (body : Bytes) (s : State) =>
    pushInband p { e with reply := some { checkReply st s with body := body } } s
  if b.length ≠ 32 + 8 * h.len ∨ commandCrc b ≠ h.crc then early .integrityFail [] s
  else if h.seq ≠ q.ibExp then early .badParam (leBytes 4 q.ibExp.toNat) s
  else
    let s := s.setPart p { q with ibExp := h.seq + 1, ibWraps := if h.seq = 0xffffffff then (q.ibWraps + 1) % 2 ^ 24
                                                               else q.ibWraps }
    match decodeCommand s h c p (b.drop 32) with
    | .bad st => early st [] s
    | .cmd i => pushInband p { e with cmd := some i } s

/-- An in-band frame: authenticated and accepted, or counted in IB_REJECT of its target partition; of the port's owner
where it names none. Its Reserved bytes 2 and 3 are not checked: 02 R67 does not name them among the causes of a drop
(log 29). -/
def inbandFrame (port : Nat) (f : Bytes) (s : State) : State :=
  let b := (f.drop 14).take (f.length - 18)
  let p := (byteAt b 1).toNat
  let seq := dw (uAt b 4 8)
  let q := s.part p
  let plain := match q.cmdKey with
    | some k => gcmOpen s k (leBytes 4 0x40000000 ++ leBytes 8 seq.toNat) (b.take 12) (b.drop 12)
    | none => none
  if 63 < p ∨ s.portOwner port ≠ p ∨ byteAt b 0 ≠ 1 ∨ seq.getLsbD 63 ∨ seq.toNat ≤ q.ibLast.toNat ∨ plain.isNone then
    s.count (.ev (if 63 < p then s.portOwner port else p) .ibReject)
  else
    inbandCommand p port (slice f 6 6) (plain.getD []) (s.setPart p { q with ibLast := seq })

/-! ### Fragments (03 R109 to R116) -/

def State.setFrag (s : State) (i : Nat) (e : FragEntry) : State :=
  { s with intake := { s.intake with frags := smSet s.intake.frags i e } }

/-- A place for a new entry: the lowest free one of the key's die, within the partition's quota (03 R110, R114). -/
def fragPlace (s : State) (p : Nat) (key : Bytes) : Option Nat :=
  let base := if Config.fragDie key then 32768 else 0
  let used := (s.intake.frags.map (·.1)).filter (fun i => decide (base ≤ i) && decide (i < base + 32768))
  if s.fval .fragQuota p ≤ (s.intake.frags.filter (fun e => decide (e.2.part = p))).length then none
  else lowestFree base (base + 32768) used

/-- An entry is due to be freed (03 R115). -/
def fragDue (s : State) (e : FragEntry) : Bool :=
  decide (e.created.toNat + s.fval .fragTimeout * 1000000 ≤ s.now.toNat)
    || (match e.endAt with
        | some t => decide (t.toNat + s.fval .fragHoldTime * 1000 ≤ s.now.toNat)
        | none => false)

/-- A hit on an entry that is due refreshes it (03 R115). -/
def fragHit (s : State) (e : FragEntry) : FragEntry :=
  if fragDue s e then { e with created := s.now, endAt := none } else e

/-- A fragment passes its entry: the first with MF clear starts the time after which the entry is freed. -/
def fragPass (i : Nat) (more : Bool) (s : State) : State :=
  match smFind s.intake.frags i with
  | some e => if more then s else s.setFrag i { e with endAt := some (e.endAt.getD s.now) }
  | none => s

/-- Fragment handling decides a packet's outcome, and with it the default action (03 R104). -/
def force (o : Nat) (k : Packet) (s : State) : Packet :=
  { k with forced := o, outAct := if o = 0 then 0 else s.fval .portOutcomeAct (k.port * 8 + o) }

/-- The fragments that an entry holds, in arrival order. -/
def State.fragHeld (s : State) (i : Nat) : List Packet := s.pkts.filter (fun k => decide (k.place = .fragHold i))

/-- Release a held fragment with carried fields and a forced outcome. -/
def fragRelease (i : Nat) (carried : List (Nat × Word)) (forced : Nat) (s : State) (k : Packet) : State :=
  let g := s.graph k.graph
  let w := walk g k.frame (fun x => !x.first) carried
  let more := match w.frag with | some x => x.more | none => true
  fragPass i more (steerPkt (keyPkt g w { force forced k s with carried := carried }) s)

/-- Release every fragment that an entry holds. -/
def fragReleaseAll (i : Nat) (carried : List (Nat × Word)) (forced : Nat) (s : State) : State :=
  (s.fragHeld i).foldl (fragRelease i carried forced) s

/-- A first fragment finds its entry, or makes it (03 R111, R112, R116). -/
def firstFragment (i : Nat) (e : FragEntry) (g : Graph) (w : Walk) (more : Bool) (k : Packet) (s : State) : State :=
  if e.first then fragPass i more (steerPkt (keyPkt g w k) (s.setFrag i e))
  else
    let s := s.setFrag i { e with first := true, carried := w.after, holdAt := none }
    let s := fragPass i more (steerPkt (keyPkt g w { k with fragEntry := some i }) s)
    fragReleaseAll i w.after 0 s

/-- A later fragment finds its entry, or makes it (03 R111 to R113). An entry whose hold has expired stays without a first
fragment, and a fragment that comes then is held anew for a FRAG_HOLD_TIME of its own (DEDUCED, log 103). -/
def laterFragment (i : Nat) (e : FragEntry) (g : Graph) (w : Walk) (more : Bool) (k : Packet) (s : State) : State :=
  if e.first then
    let s := s.setFrag i e
    if e.drop then dropPkt .fragFollowDrop k s
    else
      let w := walk g k.frame (fun x => !x.first) e.carried
      fragPass i more (steerPkt (keyPkt g w { k with carried := e.carried }) s)
  else if s.fval .fragHoldMax ≤ (s.fragHeld i).length then
    fragPass i more (steerPkt (keyPkt g w (force outOrphan k s)) (s.setFrag i e))
  else if s.holdRoom k.frame.length then
    (s.setFrag i { e with holdAt := some (e.holdAt.getD s.now) }).moveTo k.id (.fragHold i)
  else dropPkt .holdNobuf k (s.setFrag i e)

/-- A fragment at the fragment table. -/
def trackFragment (g : Graph) (w : Walk) (x : FragInfo) (k : Packet) (s : State) : State :=
  let key : Bytes := BitVec.ofNat 8 k.part :: x.key
  let k := { k with frag := true, fragFirst := x.first }
  let s := s.modPkt k.id (fun _ => k)
  let at_ : Option (Nat × FragEntry) := match s.intake.frags.find? (fun e => e.2.key == key) with
    | some (i, e) => some (i, fragHit s e)
    | none => (fragPlace s k.part key).map (fun i =>
        (i, { key := key, part := k.part, carried := [], first := false, drop := false, created := s.now,
              endAt := none, holdAt := none }))
  match at_ with
  | none => steerPkt (keyPkt g w (force outTableFull k s)) s
  | some (i, e) => if x.first then firstFragment i e g w x.more k s else laterFragment i e g w x.more k s

/-! ### FRAME_RECEIVE -/

/-- A packet leaves its port's intake FIFO: it is walked and steered (03 R88, R109). -/
def steerIn (k : Packet) (s : State) : State :=
  let g := s.graph k.graph
  let w := walk g k.frame (fun x => !x.first) []
  match w.frag with
  | none => steerPkt (keyPkt g w k) s
  | some x => trackFragment g w x k s

/-- The bucket that steering will give a packet, with the carried fields of a fragment whose first is known. -/
def bucketFor (k : Packet) (s : State) : Nat :=
  let g := s.graph k.graph
  let w := walk g k.frame (fun x => !x.first) []
  let carried := match w.frag with
    | some x => if x.first then [] else
        match s.intake.frags.find? (fun e => e.2.key == BitVec.ofNat 8 k.part :: x.key) with
        | some (_, e) => e.carried
        | none => []
    | none => []
  (keyPkt g (if carried.isEmpty then w else walk g k.frame (fun x => !x.first) carried) k).bucket

/-- The REED input FIFO of the packet's pipeline takes it; a bucket that moves holds its packets in HAMPER instead
(03 R91). -/
def reedTakes (k : Packet) (s : State) : Bool :=
  let b := bucketFor k s
  s.bucketMoving b || s.fifoTakes s.impl.reedBank (s.reedBytes (s.pipeOf b)) k.frame.length

/-- The head of a port's intake FIFO. -/
def intakeHead (port : Nat) (s : State) : Option Packet :=
  s.pkts.find? (fun k => decide (k.place = .intake) && decide (k.port = port))

def headOfPort (k : Packet) (s : State) : Bool := decide ((intakeHead k.port s).map (·.id) = some k.id)

/-- The packets of a port's intake FIFO go on, in order, as far as the pipelines take them (03 R91, R92). -/
def pullIntake (port : Nat) : (fuel : Nat) → State → State
  | 0, s => s
  | n + 1, s =>
    match intakeHead port s with
    | some k => if reedTakes k s then pullIntake port n (steerIn k s) else s
    | none => s

/-- The same of every port, ascending: a REED input FIFO has got room (log 84). -/
def pullAll (s : State) : State :=
  if s.pkts.any (fun k => decide (k.place = .intake)) then
    (List.range 32).foldl (fun s p => pullIntake p s.pkts.length s) s
  else s

/-- A frame enters stage 1: it is stamped with its epoch and joins its port's intake FIFO, which steering empties
(03 R88, R91, 09 R291). -/
def intakeFrame (port : Nat) (f : Bytes) (macsec : Bool) (s : State) : State :=
  let part := s.portOwner port
  let ep := s.curEpoch part
  let gi := ep.fval .portGraph port
  let k : Packet := { id := s.intake.nextPkt, pipe := 0, place := .intake, port := port, part := part, epoch := ep.num,
                      graph := gi, frame := f, macsec := macsec, intake := s.now, flowKey := [], fh := 0, bucket := 0,
                      frag := false, fragFirst := false, fragEntry := none, carried := [], forced := 0 }
  let s := addRef part ep.num s
  let s := { s with intake := { s.intake with nextPkt := s.intake.nextPkt + 1, pkts := s.intake.pkts ++ [k] } }
  pullIntake port s.pkts.length s

/-- A frame after the MAC and MACsec. -/
def cleanFrame (port : Nat) (f : Bytes) (macsec : Bool) (s : State) : State :=
  if etherType f = 0x8808 then macControl port f s
  else if etherType f = 0x88b5 ∧ s.fval .portInbandEn port = 1 then inbandFrame port f s
  else intakeFrame port f macsec s

/-- A frame whose FCS is wrong, or with an error marked inside it. -/
def badFcs (f : Bytes) (marked : Bool) : Bool :=
  marked || decide (uAt f (f.length - 4) 4 ≠ (crc32eth (f.take (f.length - 4))).toNat)

/-- A port takes no frames in: it is disabled, its partition is not ACTIVE (12 R378, R379), or a SHUTDOWN has stopped intake
(14 R451). -/
def intakeOff (s : State) (port : Nat) : Bool :=
  !s.portEn port || decide ((s.part (s.portOwner port)).state ≠ 2) || heldCmd s 0x011

/-- The port's intake FIFO takes a frame: its spill finds cells (03 R92). -/
def State.intakeTakes (s : State) (port n : Nat) : Bool := s.fifoTakes s.impl.intakeBank (s.intakeBytes port) n

/-- The drop of 03 R82 that a frame meets first. It stands before the MAC Control frames are told apart, so PAUSE and PFC
frames meet it too, RX_OVERRUN included (DEDUCED, log 84). -/
def macDrop (port : Nat) (f : Bytes) (marked : Bool) (s : State) : Option PortCtr :=
  if intakeOff s port then some .rxDisabled
  else if f.length < 64 then some .rxRunt
  else if badFcs f marked then some .rxFcs
  else if s.fact .portMaxFrame port < countedLen s port f then some .rxOversize
  else if s.intakeTakes port f.length then none
  else some .rxOverrun

/-- A frame that passed the MAC drops: MACsec where the port has it (03 R84). An EAPOL frame (EtherType 0x888e) passes
unprotected, as an ordinary packet: R84 drops unprotected frames and says of EAPOL that its frames reach the host by the
copy-to-host path (DEDUCED, log 104). -/
def secureFrame (port : Nat) (f : Bytes) (s : State) : State :=
  if s.fact .portMacsec port = 0 ∨ etherType f = 0x888e then cleanFrame port f false s
  else if etherType f = 0x8808 ∧ (beAt f 14 2 = 0x0001 ∨ beAt f 14 2 = 0x0101) then macControl port f s
  else
    match macsecOpen s port f with
    | none => s.count (.port port .macsecDrop)
    | some (g, sa, lowest) =>
      let e := smGet [] s.tabs.sa sa
      cleanFrame port g true { s with tabs := { s.tabs with sa := smSet s.tabs.sa sa (splice e 32 (leBytes 8 lowest)) } }

/-- FRAME_RECEIVE: a frame arrives at a port that has its link (03 R80, R82); a stopped port captures it
(15 R466). -/
def receiveFrame (port : Nat) (f : Bytes) (marked : Bool) (s : State) : State :=
  if s.obs.stop.isSome then captureRx port f s
  else if !s.portLink port then s
  else
    let s := (s.count (.port port .rxPkts)).count (.port port .rxBytes) f.length
    match macDrop port f marked s with
    | some r => s.count (.port port r)
    | none => secureFrame port f s

def execFrameReceive (port : Nat) (frame : Bytes) (fcsBad : Bool) (s : State) : Host.Outcome State Fault Refusal :=
  .next (receiveFrame port frame fcsBad s)

/-- FRAG_HOLD_EXPIRE: the held fragments leave as orphans (03 R113). -/
def fragExpire (i : Nat) (s : State) : State :=
  match smFind s.intake.frags i with
  | some e =>
    match e.holdAt with
    | some t =>
      if s.up ∧ e.first = false ∧ t.toNat + s.fval .fragHoldTime * 1000 ≤ s.now.toNat then
        fragReleaseAll i [] outOrphan (s.setFrag i { e with holdAt := none })
      else s
    | none => s
  | none => s

def execFragHoldExpire (entry : Nat) (s : State) : Host.Outcome State Fault Refusal := .next (fragExpire entry s)

/-- FRAG_ENTRY_FREE: an entry that is due is freed (03 R115). -/
def fragFree (i : Nat) (s : State) : State :=
  match smFind s.intake.frags i with
  | some e =>
    if s.up && fragDue s e then
      let s := fragReleaseAll i [] outOrphan s
      let l := s.intake.pkts.map (fun k => if k.fragEntry = some i then { k with fragEntry := none } else k)
      { s with intake := { s.intake with frags := smDel s.intake.frags i, pkts := l } }
    else s
  | none => s

def execFragEntryFree (entry : Nat) (s : State) : Host.Outcome State Fault Refusal := .next (fragFree entry s)

/-! ### REED (03 R89, R99 to R104) -/

/-- Words 0 to 15 of the parse record, but for what the scan writes. -/
def recordHead (k : Packet) : List Word :=
  let w0 := k.outcome + k.levels * 2 ^ 4 + b2n k.frag * 2 ^ 9 + b2n k.fragFirst * 2 ^ 10 + b2n k.short * 2 ^ 11
    + b2n k.csumBad * 2 ^ 12 + b2n k.macsec * 2 ^ 13 + k.graph * 2 ^ 16 + k.port * 2 ^ 24
  let w1 := k.frame.length % 2 ^ 14 + k.payload * 2 ^ 16
  let ids := k.matches_ ++ List.replicate (8 - k.matches_.length) 0
  let pair := fun i => w32 (nth 0 ids (2 * i) + nth 0 ids (2 * i + 1) * 2 ^ 16)
  [w32 w0, w32 w1, 0, w32 (min k.nMatch 255 + k.matches_.length * 2 ^ 8), pair 0, pair 1, pair 2, pair 3,
   w32 k.groups.toNat, w32 (k.groups.toNat / 2 ^ 32), w32 k.intake.toNat, w32 (k.intake.toNat / 2 ^ 32), 0, 0, 0, 0]

/-- The fixed feature slots 0 to 7 (03 R100). -/
def fixedFeats (k : Packet) : List Word :=
  [w32 k.frame.length, w32 (k.frame.length - 4 - k.payload), w32 k.outcome, w32 k.levels, w32 (min k.nMatch 255),
   w32 k.port, w32 k.nIp, 0]

/-- The record and features with their fixed parts as they now are. -/
def sealRecord (k : Packet) : Packet :=
  { k with words := recordHead k ++ k.words.drop 16, feats := fixedFeats k ++ k.feats.drop 8 }

/-- The bytes that await the pattern engine of a pipeline (03 R107). -/
def State.scanBacklog (s : State) (k : Nat) : Nat :=
  ((s.pkts.filter (fun x => decide (x.pipe = k) && decide (x.place = .scan))).map (·.scan)).foldl (· + ·) 0

/-- SCAN_SHORT mode of a pipeline starts and ends with its backlog. -/
def noteBacklog (k : Nat) (s : State) : State :=
  let b := s.scanBacklog k
  let l := s.intake.short
  let l := if 32768 < b then (if l.contains k then l else k :: l)
    else if b ≤ 16384 then l.filter (fun x => decide (x ≠ k)) else l
  { s with intake := { s.intake with short := l } }

/-- The parse of a packet: its walk, and what the default action of its outcome is now (03 R104), where fragment handling has
not decided it before. A later pass repeats the walk, and fragment handling belongs to first intake (R102). In short mode a
packet of a port with PORT_SCAN_LEN 0 has no scan to shorten: it neither sets SCAN_SHORT nor counts (DEDUCED, log 105). -/
def parsePacket (k : Packet) (s : State) : Packet :=
  let stops : FragInfo → Bool := fun x => if k.pass = 1 then !x.first else k.frag && !k.fragFirst
  let w := walk (s.graph k.graph) k.frame stops k.carried
  let o := if k.pass = 1 ∧ k.forced ≠ 0 then k.forced else w.outcome
  let len := min (w.off + s.fval .portScanLen k.port) (k.frame.length - 4) - w.off
  let short := decide (s.fval .portScanLen k.port ≠ 0) && s.intake.short.contains k.pipe
  { k with outcome := o, outAct := if k.pass = 1 ∧ k.forced ≠ 0 then k.outAct else if o = 0 then 0
             else s.fval .portOutcomeAct (k.port * 8 + o), levels := w.levels,
           offs := w.offs, payload := w.off, csumBad := w.csumBad, ipKind := w.ipKind, nIp := w.nIp,
           tcpFlags := w.tcpFlags, words := w.words, feats := w.feats, matches_ := [], nMatch := 0, groups := 0,
           short := short, scan := if short then min 64 len else len }

/-- PARSE: the next packet at REED of pipeline p. -/
def parseStage (k : Packet) (s : State) : State :=
  let s := if (parsePacket k s).short then s.count (.pipe k.pipe .scanShort) else s
  pullAll (noteBacklog k.pipe (s.modPkt k.id (fun _ => { parsePacket k s with place := .scan })))

/-- A packet is behind the marker of a command that waits for earlier packets (02 R68, R71, 15 R490). -/
def behindMark (s : State) (id : Nat) : Bool :=
  let waits : InFlight → Bool := fun e => e.reply.isNone && (match e.mark with | some m => decide (m ≤ id) | none => false)
  s.rings.any (fun r => r.2.inFlight.any waits) || s.parts.any (fun p => p.2.ibFlight.any waits)

/-- A stage of pipeline p takes its oldest packet, while the packet path runs. -/
def atStage (p : Nat) (pl : Place) (f : Packet → State → State) (s : State) : State :=
  if !s.up then s
  else match s.oldestAt p pl with
    | some k => if behindMark s k.id then s else f k s
    | none => s

def execParse (pipeline : Nat) (s : State) : Host.Outcome State Fault Refusal :=
  .next (atStage pipeline .reed parseStage s)

/-! ### The pattern engine (03 R105, R106) -/

/-- A byte as a NOCASE comparison reads it. -/
def foldCase (b : Byte) : Byte := if 0x41 ≤ b.toNat ∧ b.toNat ≤ 0x5a then b + 0x20 else b

/-- The pattern equals the bytes at the front of `x`. -/
def patEqual (p : Pattern) (x : Bytes) : Bool :=
  let y := x.take p.bytes.length
  if p.nocase then y.map foldCase == p.bytes.map foldCase else y == p.bytes

/-- The pattern matches at payload position i, of `n` scanned bytes whose rest from i on is `x`. -/
def patMatch (p : Pattern) (i n : Nat) (x : Bytes) : Bool :=
  (!p.anchor || decide (i = p.minOff)) && decide (p.minOff ≤ i) && decide (i ≤ p.maxOff)
    && decide (i + p.bytes.length ≤ n) && patEqual p x

/-- Every match in the scanned bytes from position i on, as end position, ID and group. -/
def scanFrom (ps : List Pattern) (n : Nat) : (i : Nat) → Bytes → List (Nat × Nat × Nat)
  | _, [] => []
  | i, x :: xs =>
    (ps.filter (fun p => patMatch p i n (x :: xs))).map (fun p => (i + p.bytes.length, p.id, p.group))
      ++ scanFrom ps n (i + 1) xs

/-- PATTERN_SCAN of a packet: matches in ascending end position, equal ends in ascending ID. -/
def scanStage (k : Packet) (s : State) : State :=
  let l := scanFrom (k.ep s).patterns k.scan 0 (slice k.frame k.payload k.scan)
  let l := sortBy (fun a b => decide (a.1 < b.1) || (decide (a.1 = b.1) && decide (a.2.1 < b.2.1))) l
  let k := { k with nMatch := l.length, matches_ := (l.take 8).map (·.2.1),
                    groups := l.foldl (fun g m => g ||| dw (2 ^ m.2.2)) 0, place := .lookup }
  noteBacklog k.pipe (s.modPkt k.id (fun _ => sealRecord k))

def execPatternScan (pipeline : Nat) (s : State) : Host.Outcome State Fault Refusal :=
  .next (atStage pipeline .scan scanStage s)

end Sys2Proof.Machine
end

