-- ==== Sys2Proof/Machine/Flow.lean ====
section
/-! DEFINITION. Flow contexts and hot forms (05 R160 to R167, R177 to R179, 11 R356): layout, the merged view, carries
and eviction, holds, the flow agent, fills, and the sweeper's expiry. A context leased from another node has an index
from 2^24 on that names its home and its index there. -/

namespace Sys2Proof.Machine

/-! ### Layout (05 R162) -/

/-- Eight counters of 4 bits in a word. -/
def nibbles (l : List Nat) : Nat := l.foldr (fun x a => x % 16 + 16 * a) 0
def nibblesOf (w : Nat) : List Nat := (List.range 8).map (fun i => bitsOf w (4 * i + 3) (4 * i))

/-- VBYTE: VKIND, VVALID, VINVALID. -/
def vbyteOf (kind : Nat) (valid invalid : Bool) : Nat := kind % 8 + b2n valid * 8 + b2n invalid * 16

/-- LASTQ with its valid bit. -/
def lastqWord (q : Option Nat) : Nat := match q with | some x => x % 4096 + 4096 | none => 0

/-- The 256 bytes of a context. -/
def ctxBytes (c : FlowCtx) : Bytes :=
  leBytes 4 (b2n c.valid + b2n c.hot * 2 + b2n c.noExpire * 4 + b2n c.closing * 8 + c.part % 64 * 2 ^ 10
      + c.gen.toNat * 2 ^ 16)
    ++ leBytes 2 c.eventCnt.toNat ++ leBytes 2 c.epoch.toNat ++ leBytes 8 c.fh.toNat ++ leBytes 8 c.first.toNat
    ++ leBytes 8 c.last.toNat ++ leBytes 8 c.nextTimer.toNat ++ leBytes 8 c.pkts.toNat ++ leBytes 8 c.bytes.toNat
    ++ leBytes 4 c.iat.toNat ++ zeros 4 ++ c.hist.flatMap (fun x => leBytes 4 x.toNat)
    ++ c.tcpf.flatMap (fun x => leBytes 2 x.toNat) ++ leBytes 4 (nibbles c.entA) ++ leBytes 4 (nibbles c.entB)
    ++ leBytes 4 c.ff0.toNat ++ leBytes 4 c.ff1.toNat
    ++ leBytes 4 (vbyteOf c.vkind c.vvalid c.vinvalid + c.vslot % 256 * 2 ^ 8 + c.vepoch.toNat * 2 ^ 16)
    ++ leBytes 4 c.vclass.toNat ++ leBytes 4 c.vscore.toNat ++ leBytes 4 (lastqWord c.lastq) ++ leBytes 8 c.vtime.toNat
    ++ zeros 40 ++ fitTo 64 c.key

/-- The context of 256 bytes. -/
def ctxOfBytes (b : Bytes) : FlowCtx :=
  let ctrl := uAt b 0 4
  let v := uAt b 128 4
  let q := uAt b 140 4
  { valid := ctrl.testBit 0, hot := ctrl.testBit 1, noExpire := ctrl.testBit 2, closing := ctrl.testBit 3,
    part := bitsOf ctrl 15 10, gen := h16 (bitsOf ctrl 31 16), eventCnt := h16 (uAt b 4 2), epoch := h16 (uAt b 6 2),
    fh := dw (uAt b 8 8), first := dw (uAt b 16 8), last := dw (uAt b 24 8), nextTimer := dw (uAt b 32 8),
    pkts := dw (uAt b 40 8), bytes := dw (uAt b 48 8), iat := w32 (uAt b 56 4),
    hist := (List.range 8).map (fun i => w32 (uAt b (64 + 4 * i) 4)),
    tcpf := (List.range 8).map (fun i => h16 (uAt b (96 + 2 * i) 2)), entA := nibblesOf (uAt b 112 4),
    entB := nibblesOf (uAt b 116 4), ff0 := w32 (uAt b 120 4), ff1 := w32 (uAt b 124 4), vkind := bitsOf v 2 0,
    vvalid := v.testBit 3, vinvalid := v.testBit 4, vslot := bitsOf v 15 8, vepoch := h16 (bitsOf v 31 16),
    vclass := h16 (uAt b 132 4), vscore := w32 (uAt b 136 4), lastq := if q.testBit 12 then some (q % 4096) else none,
    vtime := dw (uAt b 144 8), key := slice b 192 64 }

/-! ### Leased contexts (11 R356) -/

/-- The index under which a node keeps a context that it leases from another home. -/
def leasedIdx (home i : Nat) : Nat := (home + 1) * 2 ^ 24 + i
def isLeasedIdx (i : Nat) : Bool := decide (2 ^ 24 ≤ i)
def homeOfIdx (i : Nat) : Nat := i / 2 ^ 24 - 1
/-- The 24-bit flow index. -/
def flowIndex (i : Nat) : Nat := i % 2 ^ 24
/-- The HBM stack of a context (05 R160). -/
def stackOfIdx (i : Nat) : Nat := flowIndex i / 8 % 6

/-- The other node that is the home of a bucket (11 R355). -/
def State.homeOf (s : State) (b : Nat) : Option Nat :=
  let h := smGet 0xffff s.flow.home b
  if h = 0xffff || s.isLocal h then none else some h

/-! ### The merged view (05 R164, R166) -/

/-- The carries of a field that the agent has not applied. -/
def pendingCarries (s : State) (i f : Nat) : Nat :=
  (s.flow.carries.filter (fun c => decide (c.index = i) && decide (c.field = f))).length

/-- A counter with its low `w` bits from the hot form and its pending carries added. -/
def mergeLow (old lo w carries : Nat) : Nat := old / 2 ^ w * 2 ^ w + lo + carries * 2 ^ w

/-- LAST_TIME from its low 32 bits. -/
def fullLast (now : DWord) (lo : Word) : DWord := now - (now.setWidth 32 - lo).setWidth 64

/-- A context with its hot form merged in. -/
def mergeHot (s : State) (c : FlowCtx) (h : HotForm) : FlowCtx :=
  let p := pendingCarries s h.index
  { c with
    vkind := h.vkind, vvalid := h.vvalid, vinvalid := h.vinvalid, eventCnt := h.eventCnt,
    last := fullLast s.now h.lastLo,
    bytes := dw (mergeLow c.bytes.toNat h.bytesLo.toNat 32 (p 1)),
    pkts := dw (mergeLow c.pkts.toNat h.pktsLo.toNat 16 (p 0)), lastq := h.lastq, iat := h.iat,
    hist := (List.range 8).map (fun k => w32 (mergeLow (nth 0 c.hist k).toNat (nth 0 h.sizeLo k).toNat 8 (p (2 + k)))),
    tcpf := (List.range 8).map (fun k => h16 (mergeLow (nth 0 c.tcpf k).toNat (nth 0 h.tcpfLo k).toNat 8 (p (10 + k)))),
    entA := h.entA, entB := h.entB, ff0 := h.ff0, ff1 := h.ff1 }

/-- A context as it is now, hot or not. -/
def State.merged (s : State) (i : Nat) : FlowCtx :=
  match s.hotOf i with | some h => mergeHot s (s.ctx i) h | none => s.ctx i

/-- The bytes that a hot form holds, from a context. -/
def hotBytes (c : FlowCtx) (h : HotForm) : HotForm :=
  { h with vkind := c.vkind, vvalid := c.vvalid, vinvalid := c.vinvalid, eventCnt := c.eventCnt,
           lastLo := c.last.setWidth 32, bytesLo := c.bytes.setWidth 32, pktsLo := c.pkts.setWidth 16, lastq := c.lastq,
           iat := c.iat, sizeLo := c.hist.map (fun x => x.setWidth 8), tcpfLo := c.tcpf.map (fun x => x.setWidth 8),
           entA := c.entA, entB := c.entB, ff0 := c.ff0, ff1 := c.ff1 }

/-- The fields whose low part wrapped between two views of a context. -/
def wrapped (a b : FlowCtx) : List Nat :=
  (if a.pkts >>> 16 = b.pkts >>> 16 then [] else [0]) ++ (if a.bytes >>> 32 = b.bytes >>> 32 then [] else [1])
    ++ (List.range 8).filterMap (fun k =>
        if (nth 0 a.hist k) >>> 8 = (nth 0 b.hist k) >>> 8 then none else some (2 + k))
    ++ (List.range 8).filterMap (fun k =>
        if (nth 0 a.tcpf k) >>> 8 = (nth 0 b.tcpf k) >>> 8 then none else some (10 + k))

def State.setHots (s : State) (l : List HotForm) : State := { s with flow := { s.flow with hots := l } }
def State.modHot (s : State) (i : Nat) (f : HotForm → HotForm) : State :=
  s.setHots (updFirst (fun h => decide (h.index = i)) f s.flow.hots)

/-- CLOSING: FIN or RST counted. -/
def closingOf (c : FlowCtx) : Bool := c.closing || nth 0 c.tcpf 0 != 0 || nth 0 c.tcpf 2 != 0

/-- Store the new view of a flow: through its hot form with carries, or in its context (05 R166, R167). -/
def storeView (i : Nat) (old new : FlowCtx) (s : State) : State :=
  match s.hotOf i with
  | some _ =>
    let s := s.modHot i (hotBytes new)
    { s with flow := { s.flow with carries := s.flow.carries ++ (wrapped old new).map (fun f => { index := i, field := f }) } }
  | none => s.setCtx i { new with closing := closingOf new }

/-- A carry of `n` wraps reaches the context (05 R166). -/
def applyCarry (f n : Nat) (c : FlowCtx) : FlowCtx :=
  if f = 0 then { c with pkts := c.pkts + dw (n * 2 ^ 16) }
  else if f = 1 then { c with bytes := c.bytes + dw (n * 2 ^ 32) }
  else if f < 10 then { c with hist := setNth c.hist (f - 2) (nth 0 c.hist (f - 2) + w32 (n * 2 ^ 8)) }
  else
    let c := { c with tcpf := setNth c.tcpf (f - 10) (nth 0 c.tcpf (f - 10) + h16 (n * 2 ^ 8)) }
    { c with closing := closingOf c }

/-- LOW_PART_CARRY: the agent of a stack applies its oldest carry; for a homed flow the home does too (11 R356). -/
def carryStep (stack : Nat) (s : State) : State :=
  let mine : Carry → Bool := fun c => decide (stackOfIdx c.index = stack)
  match s.up, s.flow.carries.find? mine with
  | true, some c =>
    let s := { s with flow := { s.flow with carries := delFirst mine s.flow.carries } }
    let x := s.ctx c.index
    let s := s.setCtx c.index (applyCarry c.field 1 x)
    if isLeasedIdx c.index then
      sendMsg (homeOfIdx c.index) 1 0x14 x.part (x.fh.setWidth 32) (leBytes 8 x.fh.toNat ++ leBytes 4 c.field ++ leBytes 4 1) s
    else s
  | _, _ => s

def execLowPartCarry (stack : Nat) (s : State) : Host.Outcome State Fault Refusal := .next (carryStep stack s)

/-! ### Eviction (05 R167) -/

/-- A hot form of 64 bytes is read or written in the flow cache of its die (15 R454; log 109). -/
def cacheBytes (slice : Nat) (rd wr : Bool) (s : State) : State :=
  let i := 6 + dieOfPipe slice
  (s.count (.mem i 0) (64 * b2n rd)).count (.mem i 1) (64 * b2n wr)

/-- Take a hot form out of its slice without writing it back. -/
def dropHot (i : Nat) (s : State) : State :=
  { s with flow := { s.flow with hots := s.flow.hots.filter (fun h => decide (h.index ≠ i)),
                                 carries := s.flow.carries.filter (fun c => decide (c.index ≠ i)) } }

/-- Forget a context that this node leased. -/
def endHeld (i : Nat) (s : State) : State :=
  { s with flow := { s.flow with held := s.flow.held.filter (fun l => decide (l.index ≠ i)), ctxs := smDel s.flow.ctxs i } }

/-- Evict a hot form: its bytes, the full LAST_TIME and CTRL are written back, at the flow's home (11 R356). -/
def evictHot (h : HotForm) (s : State) : State :=
  let m := mergeHot s (s.ctx h.index) h
  let c := { m with hot := false, closing := closingOf m, poison := m.poison || h.poison }
  let s := cacheBytes h.slice true false (dropHot h.index s)
  if isLeasedIdx h.index then
    sendMsg (homeOfIdx h.index) 1 0x13 c.part (c.fh.setWidth 32) (ctxBytes c) (endHeld h.index s)
  else s.setCtx h.index c

/-- The age of a hot form: (now[31:0] − LAST_LO) mod 2^32. -/
def hotAge (s : State) (h : HotForm) : Nat := (s.now.setWidth 32 - h.lastLo).toNat

/-- HOT_CACHE_IDLE_EVICT: an entry not hit for 2^31 ns, whose HOLD is 0. -/
def idleEvict (slice set way : Nat) (s : State) : State :=
  match s.flow.hots.find? (fun h => decide (h.slice = slice ∧ h.set = set ∧ h.way = way)) with
  | some h => if s.up && !h.hold && decide (2 ^ 31 ≤ hotAge s h) then evictHot h s else s
  | none => s

def execHotCacheIdleEvict (slice set way : Nat) (s : State) : Host.Outcome State Fault Refusal :=
  .next (idleEvict slice set way s)

/-! ### Holds (05 R176, R177) -/

def State.holdOf (s : State) (i : Nat) : Option Hold := s.flow.holds.find? (fun h => decide (h.index = i))

/-- A hold closes: its packets enter stage 6, oldest first, with the cause. -/
def closeHold (i : Nat) (how : HoldClose) (s : State) : State :=
  let s := s.setPkts (s.pkts.map (fun k => if k.place = .flowHold i then { k with place := .merge, close := how } else k))
  let s := s.modHot i (fun h => { h with hold := false })
  { s with flow := { s.flow with holds := s.flow.holds.filter (fun h => decide (h.index ≠ i)) } }

/-- HOLD_TIMEOUT: HOLD_TIME has passed since the first packet was held. -/
def holdTimeout (i : Nat) (s : State) : State :=
  match s.holdOf i with
  | some h =>
    if s.up && decide (0 < h.count) && decide (h.since.toNat + h.time * 1000 ≤ s.now.toNat) then closeHold i .late s
    else s
  | none => s

def execHoldTimeout (flow : Nat) (s : State) : Host.Outcome State Fault Refusal := .next (holdTimeout flow s)

/-! ### The flow agent (05 R160, R161) -/

/-- The context indexes of a set. -/
def setIdx (x : Nat) : List Nat := (List.range 8).map (fun w => x * 8 + w)

/-- The context that holds a flow hash. -/
def findFlow (s : State) (fh : DWord) : Option Nat :=
  (setIdx (setA fh) ++ setIdx (setB fh)).find? (fun i => (s.ctx i).valid && decide ((s.ctx i).fh = fh))

/-- The empty ways of a set. -/
def emptyWays (s : State) (x : Nat) : List Nat := (setIdx x).filter (fun i => !(s.ctx i).valid)

/-- The way in which a new flow is created. -/
def freeWay (s : State) (fh : DWord) : Option Nat :=
  let a := emptyWays s (setA fh)
  let b := emptyWays s (setB fh)
  if a.length < b.length then b.head? else a.head?

/-- The flows that a partition holds. -/
def flowCount (s : State) (p : Nat) : Nat :=
  (s.flow.ctxs.filter (fun e => decide (e.1 < 2 ^ 24) && e.2.valid && decide (e.2.part = p))).length

/-- Clear a context as expiry does: tag and VALID (05 R178). A request that it had answered is served anew. -/
def clearFlow (i : Nat) (s : State) : State :=
  let again : FetchReq → FetchReq := fun r =>
    if !r.waiting && decide (r.found = some i) then { r with waiting := true, remote := false, found := none, created := false }
    else r
  let s := { s with flow := { s.flow with reqs := s.flow.reqs.map again } }
  (dropHot i s).setCtx i { valid := false, gen := (s.ctx i).gen }

/-- The first timer time of a flow created at `t` under an epoch (05 R178). -/
def firstTimer (s : State) (p : Nat) (e : Epoch) (t : DWord) : DWord :=
  if (e.fval .evCfg p).testBit 10 then t + dw (s.fval .evTimer p * 1000000) else 0

/-- A new context. -/
def newCtx (s : State) (i : Nat) (r : FetchReq) : FlowCtx :=
  let e := s.epochOf r.part r.epoch
  { valid := true, part := r.part, gen := (s.ctx i).gen + 1, eventCnt := h16 (e.fval .evEveryN r.part),
    epoch := h16 r.epoch, fh := r.fh, first := r.intake, last := r.intake,
    nextTimer := firstTimer s r.part e r.intake, key := fitTo 64 r.key }

/-- The agent serves a request at the flow's own home: the context it finds or creates, and whether it created it. A
poisoned context is cleared first (13 R411). -/
def serveFlow (r : FetchReq) (s : State) : Option Nat × Bool × State :=
  let s := match findFlow s r.fh with
    | some i => if (s.ctx i).poison then (clearFlow i s).count (.ev (s.ctx i).part .flowPoisoned) else s
    | none => s
  match findFlow s r.fh with
  | some i => (some i, false, s)
  | none =>
    match freeWay s r.fh with
    | some i =>
      if r.firstPass && decide (flowCount s r.part < s.fval .flowQuota r.part) then
        (some i, true, s.setCtx i (newCtx s i r))
      else (none, false, s)
    | none => (none, false, s)

def State.setReqs (s : State) (l : List FetchReq) : State := { s with flow := { s.flow with reqs := l } }

/-- A request has its answer. -/
def answerReq (r : FetchReq) (found : Option Nat) (created : Bool) (s : State) : State :=
  s.setReqs (updFirst (fun x => decide (x.pkt = r.pkt) && decide (x.fh = r.fh))
    (fun x => { x with waiting := false, found := found, created := created }) s.flow.reqs)

/-- The lease of a context at its home. -/
def State.leaseOf (s : State) (i : Nat) : Option Lease := s.flow.leases.find? (fun l => decide (l.index = i))

/-- The home asks the holder of a lease to give it back (11 R357). -/
def recallLease (i : Nat) (s : State) : State :=
  match s.leaseOf i with
  | none => s
  | some l =>
    if l.recalled then s
    else
      let c := s.ctx i
      let s := sendMsg l.holder 1 0x12 c.part (c.fh.setWidth 32) (leBytes 8 c.fh.toNat) s
      let ls := updFirst (fun x => decide (x.index = i)) (fun x => { x with recalled := true }) s.flow.leases
      { s with flow := { s.flow with leases := ls } }

/-- The payload of FLOW_FETCH (11 R356). -/
def fetchBody (r : FetchReq) : Bytes :=
  leBytes 8 r.fh.toNat ++ fitTo 64 r.key ++ leBytes 8 r.intake.toNat ++ leBytes 2 r.epoch ++ leBytes 1 (b2n r.firstPass)
    ++ zeros 5

/-- A request for a flow whose home is another node (11 R356). -/
def fetchRemote (h : Nat) (r : FetchReq) (s : State) : State :=
  if (routeLink s h s.fab.nodeId 1).isNone then (answerReq r none false s).count (.ev r.part .fhUnreachable)
  else
    let s := s.setReqs (updFirst (fun x => decide (x.pkt = r.pkt) && decide (x.fh = r.fh))
      (fun x => { x with remote := true }) s.flow.reqs)
    sendMsg h 1 0x10 r.part (r.fh.setWidth 32) (fetchBody r) s

/-- The agent serves one request; a flow that another node holds is recalled first. -/
def serveReq (r : FetchReq) (s : State) : State :=
  match s.homeOf (bucketOf r.fh) with
  | some h => fetchRemote h r s
  | none =>
    match (findFlow s r.fh).bind (fun i => (s.leaseOf i).map (fun _ => i)) with
    | some i => recallLease i s
    | none =>
      let (found, created, s) := serveFlow r s
      answerReq r found created s

/-- A request that has gone to a home which no route reaches any more. -/
def cutOff (s : State) (r : FetchReq) : Bool :=
  match s.homeOf (bucketOf r.fh) with | some h => (routeLink s h s.fab.nodeId 1).isNone | none => true

/-- FLOW_AGENT_FETCH: the agent of a stack serves its oldest request; one that waits for a home which has become unreachable
is served anew. -/
def agentStep (stack : Nat) (s : State) : State :=
  match s.up, s.flow.reqs.find? (fun r => r.waiting && (!r.remote || cutOff s r) && decide (setA r.fh % 6 = stack)) with
  | true, some r => serveReq r s
  | _, _ => s

def execFlowAgentFetch (stack : Nat) (s : State) : Host.Outcome State Fault Refusal := .next (agentStep stack s)

/-! ### Fills (05 R164, R165, R167, R177) -/

/-- The packets that wait for a flow in the miss buffer go back to stage 4. -/
def wakeMiss (pipe : Nat) (fh : DWord) (s : State) : State :=
  s.setPkts (s.pkts.map (fun k =>
    if k.pipe = pipe ∧ k.fh = fh ∧ k.place = .miss then { k with place := .flow } else k))

/-- The hot forms of a set of a slice. -/
def hotWays (s : State) (slice set : Nat) : List HotForm :=
  s.flow.hots.filter (fun h => decide (h.slice = slice) && decide (h.set = set))

/-- The victim of a full set: the oldest form without HOLD, the lowest way on a tie. -/
def victim (s : State) (l : List HotForm) : Option HotForm :=
  minBy (fun h => (2 ^ 32 - 1 - hotAge s h) * 16 + h.way) (l.filter (fun h => !h.hold))

/-- Make the hot form of a context in a way. -/
def makeHot (i slice way : Nat) (s : State) : State :=
  let c := s.ctx i
  let h : HotForm :=
    { slice := slice, set := hotSet c.fh, way := way, fh := c.fh, index := i, part := c.part,
      hold := (s.holdOf i).isSome, vkind := 0, vvalid := false, vinvalid := false, eventCnt := 0, lastLo := 0,
      bytesLo := 0, pktsLo := 0, lastq := none, iat := 0, sizeLo := [], tcpfLo := [], entA := [], entB := [],
      ff0 := 0, ff1 := 0 }
  cacheBytes slice false true ((s.setHots (s.flow.hots ++ [hotBytes c h])).setCtx i { c with hot := true })

/-- A fetched context fills a new hot form; false when every way of its set holds. -/
def fillHot (i slice : Nat) (s : State) : Bool × State :=
  let l := hotWays s slice (hotSet (s.ctx i).fh)
  if (s.hotOf i).isSome then (true, s)
  else
    match lowestFree 0 16 (sortBy (fun a b => decide (a < b)) (l.map (·.way))) with
    | some w => (true, makeHot i slice w s)
    | none =>
      match victim s l with
      | some v => (true, makeHot i slice v.way (evictHot v s))
      | none => (false, s)

/-- HOT_CACHE_FILL: the oldest answered request of a pipeline. -/
def fillStep (p : Nat) (s : State) : State :=
  let mine : FetchReq → Bool := fun r => decide (r.pipe = p) && !r.waiting
  match s.up, s.flow.reqs.find? mine with
  | true, some r =>
    let s := s.setReqs (delFirst mine s.flow.reqs)
    let s := match r.found with
      | none => s.modPkt r.pkt (fun k => { k with track := 1 })
      | some i =>
        match fillHot i p s with
        | (true, s) => s.modPkt r.pkt (fun k => { k with isNew := k.isNew || r.created })
        | (false, s) => s.modPkt r.pkt (fun k => { k with isNew := k.isNew || r.created, track := 2, flowIdx := some i })
    wakeMiss p r.fh s
  | _, _ => s

def execHotCacheFill (pipeline : Nat) (s : State) : Host.Outcome State Fault Refusal := .next (fillStep pipeline s)

/-- Remove a flow as expiry does, releasing its hold as a late verdict (05 R168, R176). -/
def removeFlow (i : Nat) (s : State) : State := clearFlow i (closeHold i .late s)

end Sys2Proof.Machine
end

