-- ==== Sys2Proof/Machine/Press.lean ====
section
/-! DEFINITION. PRESS (08 R260 to R268): its record, one output element, the counts of a run and the running scale. -/

namespace Sys2Proof.Machine

/-- A PRESS record (08 R260). Exponents are integers, FP32 fields bits. -/
structure Press where
  zpEn     : Bool
  biasEn   : Bool
  adapt    : Bool
  wideEn   : Bool
  flagsOk  : Bool
  actMode  : Nat
  shift    : Int
  calExp   : Int
  za       : Int
  zb       : Int
  colsum   : Nat
  bias     : Nat
  act      : Nat
  xmin     : Nat
  segExp   : Int
  inRef    : Nat
  wideBase : Nat
  wideExt  : Nat
  rsvOk    : Bool
  runExp   : Int
  usedExp  : Int
  lowSteps : Nat
  usedWide : Nat
  narrow   : Nat
  deriving DecidableEq, Repr

/-- Read a record of 352 bytes. -/
def pressOf (b : Bytes) : Press :=
  let f := uAt b 0 1
  { zpEn := f.testBit 0, biasEn := f.testBit 1, adapt := f.testBit 2, wideEn := f.testBit 3, flagsOk := decide (f < 16),
    actMode := uAt b 1 1, shift := sAt b 2 1, calExp := sAt b 3 1, za := sAt b 4 4, zb := sAt b 8 4, colsum := uAt b 16 8,
    bias := uAt b 24 8, act := uAt b 32 8, xmin := uAt b 40 4, segExp := sAt b 44 1, inRef := uAt b 48 8,
    wideBase := uAt b 56 8, wideExt := uAt b 64 4, rsvOk := rsvZero b 12 4 && rsvZero b 45 3 && rsvZero b 68 4,
    runExp := sAt b 72 1, usedExp := sAt b 73 1, lowSteps := uAt b 74 1, usedWide := uAt b 75 1, narrow := uAt b 80 8 }

def readPress (s : State) (p a : Nat) : Press := pressOf (tread s p a 352)

/-- The exponent of a run (08 R262). -/
def Press.exp (r : Press) : Int := clampI r.runExp (r.calExp - 8) (r.calExp + 8)

/-- The memory operands of a record: column sums, biases and the activation table. -/
structure PressMem where
  colsum : List Int
  bias   : List Nat
  act    : List (Nat × Nat)
  deriving DecidableEq, Repr

/-- Read what a record names, for n columns. -/
def readPressMem (s : State) (p : Nat) (r : Press) (n : Nat) : PressMem :=
  let u := fun a k => treadNat s p (a + 4 * k) 4
  { colsum := if r.zpEn then (List.range n).map (fun k => sxNat 32 (u r.colsum k)) else [],
    bias := if r.biasEn then (List.range n).map (u r.bias) else [],
    act := if r.actMode = 2 then (List.range 64).map (fun k => (u r.act (2 * k), u r.act (2 * k + 1))) else [] }

/-- floor(d × 2^(−e)) held between 0 and 63, with d = t − xmin (08 R263); for a NaN it is free (log 34). -/
def segIndex (t xmin d : Nat) (e : Int) : Nat :=
  match f32Val d with
  | .nan => Config.nanSegment t xmin % 64
  | .inf s => if s then 0 else 63
  | .fin s m x => (clampI (floorFin s m (x - e)) 0 63).toNat

/-- The activation (08 R263), on FP32 bits. -/
def activation (r : Press) (pm : PressMem) (t : Nat) : Nat :=
  match r.actMode with
  | 0 => t
  | 1 =>
    match f32Val t with
    | .nan => t
    | .inf s => if s then 0 else t
    | .fin s _ _ => if s then 0 else t
  | _ =>
    if (f32Val t).isNan then f32Bits .nan
    else
      let d := f32Add t (f32Bits (f32Val r.xmin).neg)
      let (sl, ic) := nth (0, 0) pm.act (segIndex t r.xmin d r.segExp)
      f32Add (f32Mul sl t) ic

/-- The accumulator: INT32 as an integer, or FP32 bits. -/
inductive Acc where
  | int (i : Int)
  | f32 (b : Nat)
  deriving DecidableEq, Repr

/-- The value of an accumulator after zero points and bias, exactly (08 R262). -/
def pressIn (r : Press) (pm : PressMem) (k : Nat) (rowsum : Int) (n : Nat) : Acc → Fl
  | .int i =>
    let v := if r.zpEn then wrapS 32 (i - r.zb * rowsum - r.za * nth 0 pm.colsum n + (k : Int) * r.za * r.zb) else i
    flInt (if r.biasEn then wrapS 32 (v + sxNat 32 (nth 0 pm.bias n)) else v)
  | .f32 b => f32Val (if r.biasEn then f32Add b (nth 0 pm.bias n) else b)

/-- y of one element, as FP32 bits (08 R262). -/
def pressY (r : Press) (pm : PressMem) (inExp e : Int) (k : Nat) (rowsum : Int) (n : Nat) (a : Acc) : Nat :=
  let t := f32Bits ((pressIn r pm k rowsum n a).scale (inExp - r.shift))
  f32Bits ((f32Val (activation r pm t)).scale (-e))

/-! ### Counts (08 R265, R266) -/

/-- The counts of a run; `big` counts the elements above 1/16 of the range. -/
structure Counts where
  zero : Nat := 0
  nan  : Nat := 0
  sat  : Nat := 0
  big  : Nat := 0
  hist : List Nat := List.replicate 64 0
  deriving DecidableEq, Repr

/-- The largest magnitude of an output format that adapts; 0 for the others. -/
def rangeOf (f : Nat) : Nat := match f with | 0 => 127 | 1 => 448 | 2 => 57344 | _ => 0

/-- The histogram bin of y. -/
def histBin : Fl → Option Nat
  | .nan => none
  | .inf _ => some 63
  | .fin _ m e => if m = 0 then none else some (clampI (flLog2 m e + 32) 0 63).toNat

/-- |y| × 16 > RANGE. -/
def isBig (f : Nat) : Fl → Bool
  | .nan => false
  | .inf _ => true
  | .fin _ m e => (Fl.fin false (rangeOf f) 0).lt (.fin false (16 * m) e)

/-- The encoded value is zero of either sign. -/
def codeZero (f code : Nat) : Bool :=
  match fmtValue f code with
  | .fin _ m _ => decide (m = 0)
  | _ => false

/-- Count one element. -/
def countY (f : Nat) (y : Fl) (c : Counts) : Counts :=
  let (code, sat) := encodeOut f y
  let hist := match histBin y with | some b => setNth c.hist b (nth 0 c.hist b + 1) | none => c.hist
  { zero := c.zero + b2n (codeZero f code), nan := c.nan + b2n y.isNan, sat := c.sat + b2n sat,
    big := c.big + b2n (isBig f y), hist := hist }

/-- A count as the record keeps it. -/
def sat32 (n : Nat) : Nat := min n (2 ^ 32 - 1)

/-- RUN_EXP and LOW_STEPS after a run (08 R266). -/
def adaptExp (r : Press) (f nEl : Nat) (c : Counts) : Int × Nat :=
  let e := r.exp
  if !r.adapt || decide (rangeOf f = 0) then (r.runExp, r.lowSteps)
  else if nEl < c.sat * 512 then (min (e + 1) (r.calExp + 8), 0)
  else if c.big = 0 then
    (if (r.lowSteps + 1) % 256 = 4 then (max (e - 1) (r.calExp - 8), 0) else (e, (r.lowSteps + 1) % 256))
  else (e, 0)

/-- Bytes 72 to 351 of the record after a run. -/
def pressState (r : Press) (f nEl : Nat) (c : Counts) (outBase : Nat) (wide : Bool) : Bytes :=
  let (re, ls) := adaptExp r f nEl c
  leBytesI 1 re ++ leBytesI 1 r.exp ++ leBytes 1 ls ++ leBytes 1 (b2n wide) ++ leBytes 4 (sat32 (nth 0 c.hist 0))
    ++ leBytes 8 outBase ++ leBytes 4 (sat32 c.zero) ++ leBytes 4 (sat32 c.nan) ++ leBytes 4 (sat32 c.sat)
    ++ (c.hist.drop 1).flatMap (fun x => leBytes 4 (sat32 x))

end Sys2Proof.Machine
end

