-- ==== Sys2Proof/Machine/TileExec.lean ====
section
/-! DEFINITION. What a tile command does (07 R208, R209, R216, R228 to R232, 08 R256 to R268): its header, its checks and
footprints, COPY and MATMUL with PRESS, and its cycles. -/

namespace Sys2Proof.Machine

/-! ### The header (07 R228) -/

/-- A tile command: header fields and descriptors. -/
structure TileCmd where
  kind   : Nat
  sync   : Bool
  accF   : Bool
  rsv    : Bool
  tile   : Nat
  ndesc  : Nat
  layer  : Half
  oper   : Half
  m      : Nat
  k      : Nat
  n      : Nat
  press  : Nat
  descs  : List Desc
  deriving DecidableEq, Repr

/-- Read a tile command. -/
def tileCmdOf (b : Bytes) : TileCmd :=
  let f := uAt b 1 1
  let nd := uAt b 3 1
  { kind := uAt b 0 1, sync := f.testBit 0, accF := f.testBit 1, rsv := decide (f < 4) && rsvZero b 20 4 && rsvZero b 32 32,
    tile := uAt b 2 1, ndesc := nd, layer := h16 (uAt b 4 2), oper := h16 (uAt b 6 2), m := uAt b 8 4, k := uAt b 12 4,
    n := uAt b 16 4, press := uAt b 24 8, descs := (records 128 nd (b.drop 64)).map descOf }

def Desc.empty : Desc := descOf (zeros 128)
def TileCmd.desc (t : TileCmd) (i : Nat) : Desc := nth Desc.empty t.descs i

/-- The list form of a command: KIND and N_DESC agree, its tile number and its Reserved bits. -/
def headOk (t : TileCmd) : Bool :=
  t.rsv && decide (t.tile < 32 ∨ t.tile = 0xff)
    && decide ((t.kind = 0 ∧ t.ndesc = 0) ∨ (t.kind = 1 ∧ t.ndesc = 3) ∨ (t.kind = 2 ∧ t.ndesc = 2))

/-! ### Form (07 R229, R232, 08 R256, R259) -/

/-- Formats that a MATMUL reads. -/
def matA (d : Desc) : Bool := decide (d.fmt ≤ 3)
def matB (d : Desc) : Bool := decide (d.fmt ≠ 4 ∧ d.fmt ≠ 5)

/-- An operand pair and its accumulator (08 R256). -/
def pairOk (a b : Desc) (accF : Bool) : Bool :=
  matA a && matB b && (accF || decide (a.fmt = 0 ∧ a.smode = 0 ∧ b.fmt = 0 ∧ b.smode = 0))

/-- A MATMUL descriptor: 2 dimensions of the given sizes, without padding. -/
def matDim (d : Desc) (op x y : Nat) : Bool :=
  decide (d.op = op ∧ d.ndim = 2 ∧ d.sz 0 = x ∧ d.sz 1 = y ∧ d.total = d.dataCount)

/-- The form of a MATMUL. -/
def matmulForm (t : TileCmd) : Bool :=
  let a := t.desc 0
  let b := t.desc 1
  let o := t.desc 2
  decide (1 ≤ t.m ∧ t.m ≤ 1048576 ∧ 1 ≤ t.k ∧ t.k ≤ 65536 ∧ 1 ≤ t.n ∧ t.n ≤ 65536)
    && matDim a 0 t.k t.m && (decide (a.layout = 1) || decide (a.layout = 0 ∧ a.st 0 = 1))
    && matDim b 0 t.n t.k && decide (b.layout = 2)
    && matDim o 1 t.n t.m && decide (o.layout ≤ 1) && pairOk a b t.accF
    && (if t.press = 0 then decide (o.smode = 0 ∧ (o.fmt = 4 ∨ o.fmt = 5))
        else decide (o.smode = 0 ∧ (o.fmt ≤ 3 ∨ o.fmt = 5)))

/-- How a COPY moves its elements. -/
inductive CopyWay where
  | codes | raw | convert | edges
  deriving DecidableEq, Repr

/-- The way of a COPY; none where its formats do not pair. A split stream of a plain format takes the row of its format, and
its scales count towards a floating-point result (log 106). -/
def copyWay (src dst : Desc) : Option CopyWay :=
  if src.fmt = dst.fmt ∧ src.smode = dst.smode then some (if src.record then .raw else .codes)
  else if src.record ∨ isCb src.fmt then
    if dst.smode = 0 ∧ (dst.fmt = 3 ∨ dst.fmt = 5) then some .edges
    else if src.fmt = dst.fmt ∧ !src.record ∧ !dst.record then some .codes
    else none
  else if dst.record then none
  else if src.fmt = dst.fmt then some .codes
  else if (convert src.fmt dst.fmt 0).isSome then some (if src.smode = 2 ∧ dst.fmt ≠ 4 then .edges else .convert)
  else none

/-- The form of a COPY. -/
def copyForm (src dst : Desc) : Bool :=
  decide (src.op = 0 ∨ src.op = 2) && dst.writes && decide (src.total = dst.dataCount) && (copyWay src dst).isSome

/-- The walk of a descriptor touches whole records; a MATMUL reads the interleaved layouts by whole groups and blocks
(07 R218, R219; log 35). -/
def walkRunsOk (t : TileCmd) (d : Desc) : Bool := (decide (t.kind = 1) && decide (d.layout ≠ 0)) || runsOk d

/-- The form of a command, from its own bytes alone. -/
def tcForm (t : TileCmd) : Bool :=
  headOk t && t.descs.all (fun d => formOk d && walkRunsOk t d)
    && (match t.kind with
        | 1 => matmulForm t
        | 2 => copyForm (t.desc 0) (t.desc 1)
        | _ => true)

/-! ### PRESS of a command (08 R261, R267, R268) -/

/-- The record of a command, where it has one. -/
def tcPress (s : State) (p : Nat) (t : TileCmd) : Option Press :=
  if t.kind = 1 ∧ t.press ≠ 0 then some (readPress s p t.press) else none

/-- OUT of a wide re-run: BF16 at WIDE_BASE in OUT's layout. -/
def wideOut (r : Press) (o : Desc) : Desc :=
  { o with base := r.wideBase, fmt := 3, extBase := r.wideBase, extSize := r.wideExt, padV := 0 }

/-- The form of a record (08 R261). -/
def pressOk (r : Press) (t : TileCmd) : Bool :=
  let o := t.desc 2
  r.flagsOk && r.rsvOk && decide (r.actMode ≤ 2 ∧ -31 ≤ r.shift ∧ r.shift ≤ 31 ∧ -32 ≤ r.calExp ∧ r.calExp ≤ 31)
    && !(r.zpEn && t.accF) && (!r.wideEn || (decide (o.fmt = 1 ∨ o.fmt = 2) && (wideOut r o).extOk false))

/-- A of a command: the wide output of its producer where that replaced the narrow one (08 R268). -/
def tcA (s : State) (p : Nat) (t : TileCmd) (pr : Option Press) : Desc :=
  let a := t.desc 0
  match pr with
  | some r =>
    if r.inRef = 0 then a
    else
      let q := readPress s p r.inRef
      if q.usedWide = 1 ∧ a.base = q.narrow then
        { a with base := q.wideBase, fmt := 3, smode := 0, scaleBase := 0, cbAddr := 0 }
      else a
  | none => a

/-- The descriptors that a command runs on. -/
def tcDescs (s : State) (p : Nat) (t : TileCmd) (pr : Option Press) : List Desc :=
  match t.kind with
  | 1 => [tcA s p t pr, t.desc 1, t.desc 2]
  | _ => t.descs

/-- The footprints of a record (08 R261). -/
def pressFeet (t : TileCmd) (r : Press) : List Foot :=
  [footAt t.press 0 352 true]
    ++ (if r.zpEn then [footAt r.colsum 0 (4 * t.n : Nat) false] else [])
    ++ (if r.biasEn then [footAt r.bias 0 (4 * t.n : Nat) false] else [])
    ++ (if r.actMode = 2 then [footAt r.act 0 512 false] else [])
    ++ (if r.inRef ≠ 0 then [footAt r.inRef 0 352 false] else [])
    ++ (if r.wideEn then [footAt r.wideBase 0 r.wideExt true] else [])

/-- The footprints of a command (07 R223, 08 R261). -/
def tcFeet (s : State) (p : Nat) (t : TileCmd) : List Foot :=
  let pr := tcPress s p t
  (tcDescs s p t pr).flatMap (fun d => d.feet (readCb s p d).esc)
    ++ (match pr with | some r => pressFeet t r | none => [])

/-- The records that the checks of a command read: its PRESS record and its codebooks. -/
def tcRefs (t : TileCmd) : List Foot :=
  (if t.kind = 1 ∧ t.press ≠ 0 then [footAt t.press 0 352 true] else [])
    ++ (t.descs.filter (fun d => isCb d.fmt)).map (fun d => footAt d.cbAddr 0 (cbSize d.fmt) false)

/-- The codebooks and extents of the descriptors. -/
def descsOk (s : State) (p : Nat) (l : List Desc) : Bool :=
  l.all (fun d => let c := readCb s p d; cbOk d c && d.extOk c.esc)

/-- A COPY that moves super-blocks byte for byte reads them whole, and they have one size (08 R251). -/
def rawOk (s : State) (p : Nat) (t : TileCmd) : Bool :=
  decide (t.kind ≠ 2) || decide (copyWay (t.desc 0) (t.desc 1) ≠ some .raw)
    || (wholeRuns 2048 (t.desc 0) && decide ((readCb s p (t.desc 0)).esc = (readCb s p (t.desc 1)).esc))

/-- The pair that a MATMUL really multiplies: A may be the wide output of its producer (08 R256, R268). -/
def widePairOk (s : State) (p : Nat) (t : TileCmd) : Bool :=
  decide (t.kind ≠ 1) || pairOk (tcA s p t (tcPress s p t)) (t.desc 1) t.accF

/-- The checks at a command's start (07 R216, R217, 08 R252, R261), for a command that runs on tile `run`. -/
def tcCheck (s : State) (p : Nat) (host : Bool) (run : Option Nat) (t : TileCmd) : Option Status :=
  let reach := fun (f : Foot) => footReach s p run f && !(host && footWp s p f)
  firstFail [(!tcForm t, .badParam), (!(tcRefs t).all reach, .rangeFault),
    (!(match tcPress s p t with | some r => pressOk r t | none => true) || !descsOk s p t.descs || !rawOk s p t
        || !widePairOk s p t, .badParam),
    (!(tcFeet s p t).all reach, .rangeFault)]

/-! ### The result of a run -/

/-- What running a command gives beside the memory it wrote: `missed` are the foreign lines that it read, `reads` and
`writes` the bytes that it moved, in order. -/
structure TileRes where
  status : Status := .ok
  oor    : Bool := false
  missed : List Nat := []
  wide   : Bool := false
  blocks : Nat := 0
  overs  : Nat := 0
  counts : Option Counts := none
  reads  : List Span := []
  writes : List Span := []
  deriving DecidableEq, Repr

/-- The tag misses of a run. -/
def TileRes.miss (r : TileRes) : Nat := r.missed.length

/-- The bytes that writes store. -/
def spansOf (ws : List TWrite) : List Span := ws.map (fun w => (w.addr, w.bytes.length))

/-! ### COPY (07 R231, R232) -/

/-- The address and bytes that store a code at element e; a code of 4 bits keeps the other half of its byte. -/
def storeCode (s : State) (p : Nat) (d : Desc) (e : Int) (code : Nat) (poison : Bool) : TWrite :=
  let (a, bit) := codeAt d false e
  let w := fmtBits d.fmt
  if w = 4 then
    let old := treadNat s p a 1
    let v := if bit = 0 then old / 16 * 16 + code % 16 else old % 16 + code % 16 * 16
    { addr := a, bytes := leBytes 1 v, poison := poison }
  else { addr := a, bytes := leBytes (w / 8) code, poison := poison }

/-- The sum that a SCATTER_ADD leaves. -/
def scatterSum (d : Desc) (old new : Nat) : Nat := if d.fmt = 4 then (old + new) % 2 ^ 32 else f32Add old new

/-- The element offset of a padding position of a write, by the layout (07 R222). -/
def Desc.padOff (d : Desc) (pos : List Nat) : Int :=
  let g := fun x => ((nth 0 pos x : Nat) : Int) - (d.pb x : Int)
  let tail := fun (lo : Nat) => ((List.range 5).filter (fun x => decide (lo ≤ x))).foldl (fun (a : Int) x => a + g x * d.st x) 0
  match d.layout with
  | 0 => tail 0
  | 1 => (Int.fdiv (g 0) 128 * d.dim 1 + g 1) * 128 + Int.fmod (g 0) 128 + tail 2
  | _ => (Int.fdiv (g 0) 128 * ceilDiv (d.dim 1) 128 + Int.fdiv (g 1) 128) * 16384 + Int.fdiv (Int.fmod (g 0) 128) 4 * 512
      + Int.fmod (g 1) 128 * 4 + Int.fmod (g 0) 4 + tail 2

/-- The bytes of a padding position lie inside the extent. -/
def inExtent (d : Desc) (e : Int) : Bool :=
  let r := byteSpan d false e e
  let f := footAt d.base r.1 r.2 true
  let x := footAt d.extBase 0 d.extSize true
  (!decide (d.fmt = 8) || decide (0 ≤ e)) && decide (f.tile = x.tile ∧ x.lo ≤ f.lo ∧ f.hi ≤ x.hi)

/-- Write the steps of a destination walk from `k` on, data positions taking the given elements in order; stop after
`lim` positions. -/
def copyOut (p : Nat) (own : Bool) (d : Desc) (raws : List Int) : (lim k : Nat) → List Rd → State × List TWrite → State × List TWrite
  | 0, _, _, x => x
  | lim + 1, k, xs, (s, ws) =>
    let put := fun (w : TWrite) => (twrite1 p own w s, w :: ws)
    match d.el raws k with
    | .pad =>
      let e := d.padOff (d.pos k)
      copyOut p own d raws lim (k + 1) xs (if d.record || !inExtent d e then (s, ws) else put (storeCode s p d e d.padV false))
    | .oor => copyOut p own d raws lim (k + 1) (xs.drop 1) (s, ws)
    | .at_ e =>
      match xs with
      | [] => (s, ws)
      | r :: rest =>
        let old := if d.op = 4 then readCode s p d false e else { bits := 0 }
        let v := if d.op = 4 then scatterSum d old.bits r.bits else r.bits
        copyOut p own d raws lim (k + 1) rest (put (storeCode s p d e v (r.poison || old.poison)))

/-- The element that a COPY makes of a source step. -/
def copyIn (s : State) (p : Nat) (src dst : Desc) (c : Codebook) (way : CopyWay) (x : El) : Rd :=
  match way with
  | .edges =>
    let r := edgeStep s p src c x
    { r with bits := (encodeOut dst.fmt (f32Val r.bits)).1 }
  | .convert =>
    let r := readStep s p src x
    { r with bits := (convert src.fmt dst.fmt r.bits).getD 0 }
  | _ => readStep s p src x

/-- `size` bytes of record or super-block `k` of a tensor; zeros for padding (log 33). -/
def rawUnit (s : State) (p : Nat) (d : Desc) (size : Nat) : Option Nat → Bytes × Bool
  | some k =>
    let a := addrPlus d.base (k * size : Nat)
    (tread s p a size, tpoison s p a size)
  | none => (zeros size, false)

/-- The number of the unit of n elements that a step lies in; none for padding. -/
def unitOf (n : Nat) : El → Option Nat
  | .at_ e => some (e.toNat / n)
  | _ => none

/-- The super-blocks that a walk of block records passes: 64 records at most, as long as they stay in one. -/
def sbPassed (l : List (Option Nat)) : List (Option Nat) :=
  ((l.foldl (fun (acc : List (Option Nat × Nat)) k => match acc with
    | (j, n) :: r => if k = j ∧ n < 64 then (j, n + 1) :: r else (k, 1) :: acc
    | [] => [(k, 1)]) []).reverse).map (·.1)

/-- The runs of a raw move: records of a split stream, else the super-blocks that the walk passes (08 R251). -/
def rawRuns (s : State) (p : Nat) (d : Desc) (esc : Bool) : List (Bytes × Bool) :=
  let l := (groups 32 d.total (d.walk (readIndexes s p d))).map (fun g => g.headD .pad)
  if d.smode = 1 then (sbPassed (l.map (unitOf 2048))).map (rawUnit s p d (sbBytes d.fmt esc))
  else (l.map (unitOf 32)).map (rawUnit s p d (recBytes d.fmt))

/-- The write of a padding record of a record format: its block record is zero, where the extent holds it (log 33). -/
def padRecord (d : Desc) (esc : Bool) (k : Nat) : Option TWrite :=
  let e := d.padOff (d.pos k)
  let a := addrPlus d.base (recStart d esc e.toNat : Nat)
  let f := footAt a 0 (1 + recBytes d.fmt : Nat) true
  let x := footAt d.extBase 0 d.extSize true
  if 0 ≤ e ∧ f.tile = x.tile ∧ x.lo ≤ f.lo ∧ f.hi ≤ x.hi then
    some { addr := a, bytes := zeros (1 + recBytes d.fmt), poison := false }
  else none

/-- The writes of a raw move in walk order: a super-block for each 64 records of data positions, and the padding. -/
def rawWrites (s : State) (p : Nat) (d : Desc) (esc : Bool) (xs : List (Bytes × Bool)) : List TWrite :=
  let raws := readIndexes s p d
  (((groups 32 d.total (List.range d.total)).map (fun g => g.headD 0)).foldl (fun (acc : List TWrite × Nat) k =>
    match d.el raws k with
    | .pad => ((padRecord d esc k).toList ++ acc.1, acc.2)
    | .oor => (acc.1, acc.2 + 1)
    | .at_ e =>
      match (if acc.2 % 64 = 0 then xs[acc.2 / 64]? else none) with
      | some (b, bad) =>
        ({ addr := addrPlus d.base (e.toNat / 2048 * sbBytes d.fmt esc : Nat), bytes := b, poison := bad } :: acc.1, acc.2 + 1)
      | none => (acc.1, acc.2 + 1)) (([] : List TWrite), 0)).1.reverse

/-- The bytes that a COPY reads: its codebooks and indexes, the source walk, and the destination of SCATTER_ADD. -/
def copyReads (s : State) (p : Nat) (src dst : Desc) : List Span :=
  let esc := (readCb s p src).esc
  let w := src.walk (readIndexes s p src)
  let units := fun n size => ((groups 32 src.total w).map (fun g => unitOf n (g.headD .pad))).filterMap
    (fun k => k.map (fun k => (addrPlus src.base (k * size : Nat), size)))
  sideSpans src ++ sideSpans dst
    ++ (if copyWay src dst = some .raw then
          (if src.smode = 1 then units 2048 (sbBytes src.fmt esc) else units 32 (recBytes src.fmt))
        else walkSpans src esc none w)
    ++ (if dst.op = 4 then walkSpans dst false none (dst.walk (readIndexes s p dst)) else [])

/-- The number of leading steps of a destination walk that hold n data positions. -/
def stepsFor (d : Desc) (n : Nat) : Nat :=
  ((List.range d.total).find? (fun k =>
    (d.idxAt (d.pos k)).isSome &&
      decide (((List.range k).filter (fun j => (d.idxAt (d.pos j)).isSome)).length = n))).getD d.total

/-- Run a COPY whose checks have passed. -/
def runCopy (p : Nat) (own : Bool) (src dst : Desc) (s : State) : TileRes × State :=
  let cs := readCb s p src
  let cd := readCb s p dst
  let ri := readIndexes s p src
  let ro := readIndexes s p dst
  let sw := src.walk ri
  let oor := sw.any (fun x => decide (x = .oor)) || (dst.walk ro).any (fun x => decide (x = .oor))
  match (copyWay src dst).getD .codes with
  | .raw =>
    let xs := rawRuns s p src cs.esc
    let bad := xs.any (·.2)
    ({ status := if bad then .dataPoisoned else .ok, oor := oor, blocks := ceilDiv dst.total 4096,
       reads := copyReads s p src dst, writes := spansOf (rawWrites s p dst cd.esc xs) },
      twrites p own (rawWrites s p dst cd.esc xs) s)
  | way =>
    let xs := sw.map (copyIn s p src dst cs way)
    let seq := xs.findIdx? (·.seqBad)
    let lim := match seq with
      | some k => stepsFor dst (k / 32 * 32) / 4096 * 4096
      | none => dst.total
    let (s', ws) := copyOut p own dst ro lim 0 xs (s, [])
    let bad := xs.any (·.poison)
    ({ status := if seq.isSome then .scaleSeqMismatch else if bad then .dataPoisoned else .ok, oor := oor,
       blocks := ceilDiv lim 4096, overs := (xs.filter (·.overs)).length, reads := copyReads s p src dst,
       writes := spansOf ws.reverse }, markPoison p ws.reverse s')

/-! ### MATMUL (07 R209, R230, 08 R257, R258) -/

/-- The operand elements of a column or row: element k at index (k, m) of A, or (n, k) of B. -/
def operand (s : State) (p : Nat) (d : Desc) (c : Codebook) (accF : Bool) (i : List Nat) : Rd :=
  if accF then readEdge s p d c (d.elemOff (i ++ [0, 0, 0])) else readCode s p d false (d.elemOff (i ++ [0, 0, 0]))

/-- Add a product to a sum. -/
def macStep (accF : Bool) (sum : Acc) (a b : Nat) : Acc :=
  match sum with
  | .f32 x => .f32 (f32Add x (f32Mul a b))
  | .int i => if accF then .int i else .int (wrapS 32 (i + sxNat 8 a * sxNat 8 b))

/-- Add a block sum to an accumulator. -/
def addAcc (x y : Acc) : Acc :=
  match x, y with
  | .f32 a, .f32 b => .f32 (f32Add a b)
  | .int a, .int b => .int (wrapS 32 (a + b))
  | a, _ => a

def accZero (accF : Bool) : Acc := if accF then .f32 0 else .int 0

/-- One accumulator: block sums of 128 products each, added in ascending k-block order. -/
def dot (accF : Bool) (a b : List Nat) : Acc :=
  ((groups 128 a.length (List.zip a b)).map (fun g =>
    g.foldl (fun x (u, v) => macStep accF x u v) (accZero accF))).foldl addAcc (accZero accF)

/-- The code that a MATMUL writes for an element without PRESS. -/
def accCode : Acc → Nat
  | .int i => wrapU 32 i
  | .f32 b => b

/-- The output blocks in order: chunk of 256 rows, then n-block of 128 columns; each with its rows and columns. -/
def outBlocks (m n : Nat) : List (List Nat × List Nat) :=
  (List.range (ceilDiv m 256)).flatMap (fun c => (List.range (ceilDiv n 128)).map (fun b =>
    ((List.range (min 256 (m - 256 * c))).map (256 * c + ·), (List.range (min 128 (n - 128 * b))).map (128 * b + ·))))

/-- The elements of an output block, row by row. -/
def blockEls (blk : List Nat × List Nat) : List (Nat × Nat) := blk.1.flatMap (fun r => blk.2.map (fun c => (r, c)))

/-- What a MATMUL computes: rows of A, columns of B, and the y of each element where PRESS works. -/
structure MatData where
  rows   : List (List Rd)
  cols   : List (List Rd)
  accF   : Bool
  press  : Option (Press × PressMem)
  inExp  : Int
  k      : Nat
  deriving DecidableEq, Repr

def rdBits (l : List Rd) : List Nat := l.map (·.bits)

/-- The row sum of zero-point correction (08 R258). -/
def rowSum (l : List Rd) : Int := wrapS 32 (l.foldl (fun a x => a + sxNat 8 x.bits) 0)

/-- The accumulator of an element. -/
def MatData.acc (d : MatData) (m n : Nat) : Acc := dot d.accF (rdBits (nth [] d.rows m)) (rdBits (nth [] d.cols n))

/-- y of an element, as FP32 bits; the accumulator itself without PRESS. -/
def MatData.y (d : MatData) (m n : Nat) : Nat :=
  match d.press with
  | some (r, pm) => pressY r pm d.inExp r.exp d.k (rowSum (nth [] d.rows m)) n (d.acc m n)
  | none => accCode (d.acc m n)

/-- An element depends on poisoned data. -/
def MatData.bad (d : MatData) (m n : Nat) : Bool := (nth [] d.rows m).any (·.poison) || (nth [] d.cols n).any (·.poison)

/-- A block depends on a scale out of sequence. -/
def MatData.seqBad (d : MatData) (blk : List Nat × List Nat) : Bool :=
  blk.1.any (fun m => (nth [] d.rows m).any (·.seqBad)) || blk.2.any (fun n => (nth [] d.cols n).any (·.seqBad))

/-- The write of an element through a descriptor. -/
def MatData.put (d : MatData) (s : State) (p : Nat) (o : Desc) (x : Nat × Nat) : TWrite :=
  let y := d.y x.1 x.2
  let code := match d.press with | some _ => (encodeOut o.fmt (f32Val y)).1 | none => y
  storeCode s p o (o.elemOff [x.2, x.1, 0, 0, 0]) code (d.bad x.1 x.2)

/-- A run ends with a wide re-run (08 R267). -/
def wideRun (t : TileCmd) (d : MatData) (c : Counts) (done : Bool) : Bool :=
  match d.press with
  | none => false
  | some (r, _) => done && r.wideEn && decide (t.m * t.n < c.sat * 64)

/-- The writes after a run: the BF16 output of a wide re-run, and the PRESS state. -/
def pressWrites (p : Nat) (t : TileCmd) (d : MatData) (els : List (Nat × Nat)) (c : Counts) (wide : Bool) (s : State) :
    List TWrite :=
  match d.press with
  | none => []
  | some (r, _) =>
    let o := t.desc 2
    (if wide then els.map (d.put s p (wideOut r o)) else [])
      ++ [{ addr := t.press + 72, bytes := pressState r o.fmt (t.m * t.n) c o.base wide, poison := false }]

/-- The bytes that a MATMUL reads: codebooks, its PRESS record and what that names, and then by steps of R230 the weight
block, groups of 4 columns by rows, and the vectors. -/
def matReads (s : State) (p : Nat) (t : TileCmd) : List Span :=
  let pr := tcPress s p t
  let a := tcA s p t pr
  let b := t.desc 1
  let ca := (readCb s p a).esc
  let cb := (readCb s p b).esc
  let rec_ := match pr with
    | none => []
    | some r => [(t.press, 352)] ++ (if r.inRef ≠ 0 then [(r.inRef, 352)] else []) ++ (if r.zpEn then [(r.colsum, 4 * t.n)] else [])
        ++ (if r.biasEn then [(r.bias, 4 * t.n)] else []) ++ (if r.actMode = 2 then [(r.act, 512)] else [])
  let els := fun (d : Desc) (esc : Bool) (l : List (List Nat)) =>
    walkSpans d esc none (l.map (fun i => .at_ (d.elemOff (i ++ [0, 0, 0]))))
  sideSpans a ++ sideSpans b ++ rec_
    ++ (outBlocks t.m t.n).flatMap (fun blk => (groups 128 t.k (List.range t.k)).flatMap (fun ks =>
        els b cb ((groups 4 128 blk.2).flatMap (fun g => ks.flatMap (fun k => g.map (fun n => [n, k]))))
          ++ els a ca (blk.1.flatMap (fun m => ks.map (fun k => [k, m])))))

/-- The operands of a MATMUL. -/
def matData (s : State) (p : Nat) (t : TileCmd) : MatData :=
  let pr := tcPress s p t
  let a := tcA s p t pr
  let b := t.desc 1
  let ca := readCb s p a
  let cb := readCb s p b
  { rows := (List.range t.m).map (fun m => (List.range t.k).map (fun k => operand s p a ca t.accF [k, m])),
    cols := (List.range t.n).map (fun n => (List.range t.k).map (fun k => operand s p b cb t.accF [n, k])),
    accF := t.accF, press := pr.map (fun r => (r, readPressMem s p r t.n)),
    inExp := (match pr with | some r => if r.inRef = 0 then 0 else (readPress s p r.inRef).usedExp | none => 0), k := t.k }

/-- Run a MATMUL whose checks have passed. -/
def runMatmul (p : Nat) (own : Bool) (t : TileCmd) (s : State) : TileRes × State :=
  let d := matData s p t
  let o := t.desc 2
  let blks := (outBlocks t.m t.n).takeWhile (fun b => !d.seqBad b)
  let all := decide (blks.length = (outBlocks t.m t.n).length)
  let els := blks.flatMap blockEls
  let counts := els.foldl (fun c x => countY o.fmt (f32Val (d.y x.1 x.2)) c) ({} : Counts)
  let bad := els.any (fun x => d.bad x.1 x.2)
  let wide := wideRun t d counts all
  let ws := els.map (d.put s p o)
  let s' := twrites p own ws s
  let ps := pressWrites p t d els counts wide s'
  let rd := matReads s p t
  ({ status := if !all then .scaleSeqMismatch else if bad then .dataPoisoned else .ok, wide := wide, blocks := blks.length,
     overs := ((d.rows ++ d.cols).map (fun l => (l.filter (·.overs)).length)).foldl (· + ·) 0,
     counts := if t.press = 0 then none else some counts, reads := if wide then rd ++ rd else rd,
     writes := spansOf (ws ++ ps) }, twrites p own ps s')

/-- Run a command whose checks have passed. -/
def runTile (p : Nat) (own : Bool) (t : TileCmd) (s : State) : TileRes × State :=
  let (r, s') := match t.kind with
    | 1 => runMatmul p own t s
    | 2 => runCopy p own (t.desc 0) (t.desc 1) s
    | _ => ({}, s)
  ({ r with missed := foreignOf s p r.reads }, s')

/-! ### Cycles (07 R207, R208, R230, 08 R256) -/

/-- TCLK cycles of a MATMUL that meets no memory stall. -/
def matCycles (t : TileCmd) (a : Desc) (wide : Bool) : Nat :=
  let b := t.desc 1
  let v := if a.fmt = 3 ∨ b.fmt = 3 ∨ a.pm 0 ≠ 0 then 4 else 1
  let l := if b.fmt = 3 then 256 else 128
  let steps := (List.range (ceilDiv t.m 256)).flatMap (fun c =>
    List.replicate (ceilDiv t.n 128 * ceilDiv t.k 128) (v * min 256 (t.m - 256 * c)))
  let one := 32 + l + (steps.dropLast.map (fun x => max x l)).foldl (· + ·) 0 + steps.getLastD 0 + 144
  if wide then 2 * one else one

end Sys2Proof.Machine
end

