-- ==== Sys2Proof/Machine/Tiles.lean ====
section
/-! DEFINITION. Running tile commands (07 R223, R228, R231 to R238): TENSOR_WRITE, TENSOR_READ and TILE_RUN, the
hazards between live commands, the pool scheduler, and a command's start and completion on a tile. -/

namespace Sys2Proof.Machine

/-! ### The list of commands -/

def State.setCmds (s : State) (l : List TCmd) : State := { s with tiles := { s.tiles with cmds := l } }
def State.modCmd (s : State) (id : Nat) (f : TCmd → TCmd) : State :=
  s.setCmds (updFirst (fun x => decide (x.id = id)) f s.tiles.cmds)

/-- The commands of a partition that have not ended, in issue order. -/
def openCmds (s : State) (p : Nat) : List TCmd := s.tiles.cmds.filter (fun x => decide (x.part = p) && decide (x.state < 2))

/-- The descriptor of a collective as a write: one that reads takes the extent that its data positions span (log 52). -/
def collWrite (d : Desc) : Desc :=
  if d.writes then d
  else
    let r := byteSpan d false d.lohi.1 d.lohi.2
    { d with op := 1, extBase := addrPlus d.base r.1, extSize := (r.2 - r.1).toNat, padB := [0, 0, 0, 0, 0],
             padA := [0, 0, 0, 0, 0], padV := 0 }

/-- The footprints of a host transfer or a collective. -/
def xferFeet (s : State) (p : Nat) (coll : Bool) (desc : Bytes) : List Foot :=
  let d := if coll then collWrite (descOf desc) else descOf desc
  d.feet (readCb s p d).esc

def TCmd.feet (x : TCmd) (s : State) : List Foot :=
  match x.xfer with
  | some e => xferFeet s x.part e.2 x.bytes
  | none => tcFeet s x.part (tileCmdOf x.bytes)

/-- The command that a tile runs. -/
def runningOn (s : State) (t : Nat) : Option TCmd :=
  s.tiles.cmds.find? (fun x => decide (x.state = 1) && decide (x.tile = t))

/-- A tile takes a new command (07 R235, R244, 13 R406). -/
def tileFree (s : State) (t : Nat) : Bool :=
  !s.isFenced (tileUnit t) && decide (s.fval .tileEn t = 1) && (runningOn s t).isNone

/-- A hazard of footprints with the commands before it (07 R223). -/
def blockedBy (s : State) (fs : List Foot) (before : List TCmd) : Option TCmd :=
  before.find? (fun y => hazard fs (y.feet s))

/-- The commands of its partition that were issued before it and are live. -/
def cmdsBefore (s : State) (x : TCmd) : List TCmd := (openCmds s x.part).takeWhile (fun y => decide (y.id ≠ x.id))

/-- The commands before it in its list allow it (07 R233): each has started, and with SYNC each has ended. -/
def listAllows (s : State) (x : TCmd) : Bool :=
  let l := s.tiles.cmds.filter (fun y => decide (y.job = x.job) && decide (y.idx < x.idx))
  if (tileCmdOf x.bytes).sync then l.all (fun y => decide (y.state = 2)) else l.all (fun y => decide (1 ≤ y.state))

/-- A command waits on nothing but its tile. -/
def cmdReady (s : State) (x : TCmd) : Bool :=
  decide (x.state = 0) && x.issued && x.xfer.isNone && listAllows s x
    && (blockedBy s (x.feet s) (cmdsBefore s x)).isNone

/-! ### The issue order (07 R223) -/

/-- The live commands of a partition. -/
def liveCmds (s : State) (p : Nat) : List TCmd := (openCmds s p).filter (·.issued)

/-- A command takes its place behind all others: issued at once where fewer than 64 are live and none waits for issue. -/
def placeCmd (x : TCmd) (s : State) : TCmd :=
  let l := openCmds s x.part
  let late := l.any (fun y => !y.issued)
  if late then { x with issued := false }
  else if 64 ≤ l.length then { x with issued := false, behind := l.head?.map (·.id) }
  else if (blockedBy s (x.feet s) l).isSome then { x with wait := some (s.clk.pk, s.now) }
  else x

def addCmd (x : TCmd) (s : State) : State := s.setCmds (s.tiles.cmds ++ [placeCmd x s])

/-- The first command of a partition that waits for issue is issued once the command that it waits for has ended and fewer
than 64 are live; false where it must wait on. -/
def issueOne (p : Nat) (s : State) : Option State :=
  match (openCmds s p).find? (fun y => !y.issued) with
  | none => none
  | some y =>
    let l := liveCmds s p
    if (match y.behind with | some k => l.any (fun z => decide (z.id = k)) | none => false) then none
    else if 64 ≤ l.length then some (s.modCmd y.id (fun z => { z with behind := l.head?.map (·.id) }))
    else some (s.modCmd y.id (fun z => { z with issued := true, behind := none }))

/-- Issue as many commands as may be. -/
def issueMore (p : Nat) : (fuel : Nat) → State → State
  | 0, s => s
  | k + 1, s => match issueOne p s with | some t => issueMore p k t | none => s

/-- A command's hazard wait begins or ends. -/
def noteWait (s : State) (y : TCmd) : TCmd :=
  if decide (y.state = 0) && y.issued then
    match (blockedBy s (y.feet s) (cmdsBefore s y)).isSome, y.wait with
    | true, none => { y with wait := some (s.clk.pk, s.now) }
    | false, some w => { y with wait := none, waited := y.waited + (s.clk.pk - w.1) }
    | _, _ => y
  else y

/-- After a command of a partition has ended, others are issued and their waits begin or end. -/
def settleCmds (p : Nat) (s : State) : State :=
  let s := issueMore p (2 * s.tiles.cmds.length) s
  s.setCmds (s.tiles.cmds.map (fun y => if y.part = p then noteWait s y else y))

/-- The ready commands of a partition that may run on a tile: those that name it, and those that name none. -/
def readyFor (s : State) (p t : Nat) : List TCmd :=
  (openCmds s p).filter (fun x => cmdReady s x && (let n := (tileCmdOf x.bytes).tile; decide (n = t ∨ n = 0xff)))

/-- The lowest free tile dedicated to a partition. -/
def freeDedicated (s : State) (p : Nat) : Option Nat := (List.range 32).find? (fun t => s.tileMine p t && tileFree s t)

/-! ### The pool scheduler (07 R237) -/

/-- A partition has a ready command with TILE 0xff that no dedicated tile takes. -/
def poolReady (s : State) (p : Nat) : Bool :=
  (freeDedicated s p).isNone && (openCmds s p).any (fun x => decide ((tileCmdOf x.bytes).tile = 0xff) && cmdReady s x)

/-- A scheduler round ends: TILE_SHARE takes effect and every partition has its share. -/
def poolRound (s : State) : State :=
  let s := s.takeShadows .tileShare
  let cr := (List.range 64).foldl (fun m p => smSet m p (s.fact .tileShare p)) ([] : SMap Nat)
  { s with tiles := { s.tiles with credit := cr } }

/-- One pass over the partitions from rr_next on. -/
def poolPass (s : State) : Option (Nat × State) :=
  ((List.range 64).map (fun j => (s.tiles.rrNext + j) % 64)).findSome? (fun p =>
    let c := smGet 0 s.tiles.credit p
    if poolReady s p && decide (0 < c) then
      let rr := if 0 < c - 1 then p else (p + 1) % 64
      some (p, { s with tiles := { s.tiles with credit := smSet s.tiles.credit p (c - 1), rrNext := rr } })
    else none)

/-- pool_pick: the partition that an idle pool tile takes, and the state after it. -/
def poolPick (s : State) : Option Nat × State :=
  match poolPass s with
  | some (p, s') => (some p, s')
  | none =>
    let s := poolRound s
    match poolPass s with
    | some (p, s') => (some p, s')
    | none => (none, poolRound s)

/-- Some pool tile is idle, and no partition is ready: a round ends. -/
def poolIdle (s : State) : State :=
  if (List.range 32).any (fun t => s.tilePool t && tileFree s t) && !(List.range 64).any (poolReady s) then poolRound s
  else s

/-! ### The end of a command and of its list (07 R233) -/

/-- The status word (07 R233). -/
def statusWord (st : Status) (r : TileRes) (tile cycles : Nat) : DWord :=
  dw (st.code + 2 ^ 8 + b2n r.oor * 2 ^ 9 + b2n (decide (0 < r.miss)) * 2 ^ 10 + b2n r.wide * 2 ^ 11 + tile % 32 * 2 ^ 12
    + min r.blocks 32767 * 2 ^ 17 + min cycles (2 ^ 32 - 1) * 2 ^ 32)

/-- What a run gives the summary: its counts, its highest and its lowest bin. -/
def statsOf (r : TileRes) : List Nat :=
  match r.counts with
  | none => []
  | some c =>
    let bins := (List.range 64).filter (fun b => decide (0 < nth 0 c.hist b))
    [sat32 c.zero, sat32 c.nan, sat32 c.sat, bins.getLastD 0xff, bins.headD 0xff]

/-- The 16 bytes of the summary. -/
def summaryBytes (l : List TCmd) : Bytes :=
  let xs := (l.map (·.stats)).filter (fun x => decide (x ≠ []))
  let sum := fun k => sat32 ((xs.map (fun x => nth 0 x k)).foldl (· + ·) 0)
  let bins := xs.filter (fun x => decide (nth 0xff x 3 ≠ 0xff))
  let hi := (bins.map (fun x => nth 0 x 3)).foldl max 0
  let lo := (bins.map (fun x => nth 0 x 4)).foldl min 63
  leBytes 4 (sum 0) ++ leBytes 4 (sum 1) ++ leBytes 4 (sum 2) ++ leBytes 1 (if bins = [] then 0xff else hi)
    ++ leBytes 1 (if bins = [] then 0xff else lo) ++ zeros 2

/-- The commands of a job, in list order. -/
def jobCmds (s : State) (j : Nat) : List TCmd := s.tiles.cmds.filter (fun x => decide (x.job = j))

/-- The first status of a list that is not OK. -/
def jobStatus (l : List TCmd) : Nat := ((l.map (·.status)).find? (fun x => decide (x ≠ 0))).getD 0

def statusOfCode (n : Nat) : Status :=
  ([.ok, .noPermission, .badParam, .badLength, .aborted, .scaleSeqMismatch, .dataPoisoned, .rangeFault].find?
    (fun (x : Status) => decide (x.code = n))).getD .ok

/-- A job and its commands are gone. -/
def forgetJob (j : Nat) (s : State) : State :=
  { s with tiles := { s.tiles with jobs := s.tiles.jobs.filter (fun x => decide (x.id ≠ j)),
                                   cmds := s.tiles.cmds.filter (fun x => decide (x.job ≠ j)) } }

/-- A TILE_RUN whose every command has ended or will not start replies; one that has replied before is forgotten. -/
def endJob (j : TJob) (s : State) : State :=
  let l := jobCmds s j.id
  match j.ctx with
  | none => if j.slot.isNone && l.all (fun x => decide (x.state = 2)) then forgetJob j.id s else s
  | some c =>
    if l.all (fun x => decide (x.state = 2)) then
      let s := forgetJob j.id s
      let wide := l.any (fun x => x.word.getLsbD 11)
      finish c (statusOfCode (jobStatus l)) (summaryBytes l ++ l.flatMap (fun x => leBytes 8 x.word.toNat)) 0 (b2n wide) s
    else s

/-- A command has ended. After a status other than OK no later command of its list starts. -/
def endCmd (x : TCmd) (st : Status) (word : DWord) (stats : List Nat) (s : State) : State :=
  let s := s.modCmd x.id (fun y => { y with state := 2, status := st.code, word := word, stats := stats })
  let s := if st = .ok then s
    else s.setCmds (s.tiles.cmds.map (fun y => if y.job = x.job ∧ y.state = 0 then { y with state := 2 } else y))
  let s := ownerDue (if x.state = 1 then x.tile else uAt x.bytes 2 1) (settleCmds x.part s)
  match s.tiles.jobs.find? (fun j => decide (j.id = x.job)) with
  | some j => poolIdle (endJob j s)
  | none => poolIdle s

/-- A command that has not started ends without effect (07 R233, R234). -/
def abortCmd (st : Status) (s : State) (x : TCmd) : State := endCmd x st 0 [] s

/-! ### Starting (07 R216, R233, R236) -/

/-- The command ID that a tile command works for: that of its TILE_RUN, or 0. -/
def jobCommand (s : State) (x : TCmd) : DWord :=
  match (s.tiles.jobs.find? (fun j => decide (j.id = x.job))).bind (·.ctx) with
  | some c => s.idOf c
  | none => 0

/-- The command whose TILE_RUN a tile command belongs to. -/
def ownerOf (s : State) (x : TCmd) : Option CmdCtx := (s.tiles.jobs.find? (fun j => decide (j.id = x.job))).bind (·.ctx)

/-- What a tile has done for a tile command goes to the profile of its TILE_RUN. -/
def profileRun (x : TCmd) (before after : State) : State :=
  match ownerOf before x with | some c => profileOf c before after | none => after

/-- The first command of a model's batch starts: the batch's wait for the model's tiles is over (15 R461). -/
def batchStarts (x : TCmd) (s : State) : State :=
  match (s.tiles.jobs.find? (fun j => decide (j.id = x.job))).bind (·.slot) with
  | none => s
  | some n =>
    match decide (x.idx = 0), (s.slot n).tens, (s.slot n).batchAt with
    | true, some t, a :: _ =>
      let h := tileCmdOf x.bytes
      traceWait x.part { unit := 0x1c00 + n, partner := nth 0 t.tiles 0, layer := h.layer, oper := h.oper, kind := 3, since := a,
                         command := 0 } s
    | _, _, _ => s

/-- The pages of HBM that the checks of a command touch: those of the records it reads first, and of its footprints where
its form and those records stand (07 R215, R216). -/
def checkPages (s : State) (p : Nat) (t : TileCmd) : List Nat :=
  let pages := fun (fs : List Foot) => (fs.flatMap (fun f =>
    if f.tile.isSome ∨ f.lo < 0 ∨ 2 ^ 48 < f.hi then [] else pagesOf f.lo.toNat (f.hi - f.lo).toNat)).filter
      (fun v => (s.physPage p v).isSome)
  if !tcForm t then []
  else if (tcRefs t).all (footReach s p none) || (tcRefs t).all (fun f => f.tile.isSome) then pages (tcRefs t ++ tcFeet s p t)
  else pages (tcRefs t)

/-- A command starts on a tile: its checks refuse it, or it runs. -/
def beginCmdOn (x : TCmd) (t : Nat) (s : State) : State :=
  let h := tileCmdOf x.bytes
  let w : Wait := { unit := tileUnit t, partner := 0xffff, layer := h.layer, oper := h.oper, kind := 2, since := x.since,
                    command := jobCommand s x }
  let s := batchStarts x (if h.tile = 0xff then traceWait x.part w s else s)
  let s := profileRun x s ((checkPages s x.part h).foldl (fun s v => tlbTouch t x.part v s) s)
  match tcCheck s x.part x.host (some t) h with
  | some st => let (n, s) := drawBelow s (2 ^ 32); endCmd x st (statusWord st {} t (32 + n)) [] s
  | none =>
    let s := profileRun x s (s.count (.tile t .hazardWait) (x.waited * 8 / s.tileDivider t))
    poolIdle (s.modCmd x.id (fun y => { y with state := 1, tile := t, since := s.now }))

/-- TILE_COMMAND_START of a command on a tile: the command is the first that may run there. -/
def tileStart (id t : Nat) (s : State) : State :=
  match s.up, s.tiles.cmds.find? (fun x => decide (x.id = id)) with
  | true, some x =>
    let n := (tileCmdOf x.bytes).tile
    let first := fun (s : State) => decide (((readyFor s x.part t).head?.map (·.id)) = some id)
    if !cmdReady s x then s
    else if decide (n ≠ 0xff) && decide (31 < n) then abortCmd .badParam s x
    else if decide (n ≠ 0xff) && decide (n ≠ t) then s
    else if decide (n ≠ 0xff) && !s.tileMine x.part t then abortCmd .noPermission s x
    else if !tileFree s t || !first s then s
    else if s.tileMine x.part t then
      (if decide (n = t) || decide (freeDedicated s x.part = some t) then beginCmdOn x t s else s)
    else if s.tilePool t then
      match poolPick s with
      | (some p, s') => if p = x.part then beginCmdOn x t s' else s
      | (none, s') => s'
    else s
  | _, _ => s

def execTileCommandStart (cmd tile : Nat) (s : State) : Host.Outcome State Fault Refusal := .next (tileStart cmd tile s)

/-! ### Completing (07 R230, R231) -/

/-- The cycles of a run that R230 counts. -/
def runBase (x : TCmd) (t : TileCmd) (wide : Bool) (s : State) : Nat :=
  if t.kind = 1 then matCycles t (tcA s x.part t (tcPress s x.part t)) wide else 0

/-- The cycles of a run: R230's count where nothing can stall, and a free number beyond it elsewhere (log 13). -/
def runCycles (x : TCmd) (t : TileCmd) (wide : Bool) (s : State) : Nat × State :=
  let fs := x.feet s
  let base := runBase x t wide s
  if decide (t.kind = 1) && fs.all (fun f => decide (f.tile = some x.tile)) then (base, s)
  else
    let (n, s) := drawBelow s (2 ^ 32)
    (base + n, s)

/-- Count a run on its tile, and on the tiles whose scratch it moved bytes of; its streams fetch their lines, and its
writes to HBM pass the TLB (07 R212 to R215, R244). -/
def countRun (x : TCmd) (r : TileRes) (cycles : Nat) (s : State) : State :=
  let t := x.tile
  let s := (countMisses r.missed (s.count (.tile t .busy) cycles)).count (.tile t .escOverflow) r.overs
  let s := (hbmLines r.reads).foldl (fun s a => lineFetch t x.part a s) s
  let s := (hbmLines r.writes).foldl (fun s a => lineCross t x.part a false (tlbTouch t x.part (a / pageBytes) s)) s
  countTmem (r.reads ++ r.writes) s

/-- A run's array waited for its streams as long as it ran beyond R230's count: the command's profile, and the trace record,
whose stream is free (15 R460, R461; log 36). -/
def streamWait (x : TCmd) (c : Option CmdCtx) (id : DWord) (stall : Nat) (s : State) : State :=
  if stall = 0 then s
  else
    let h := tileCmdOf x.bytes
    let s := match c with | some c => profileStream c stall s | none => s
    let ns := stall * s.tileDivider x.tile * 5 / 64
    let (k, s) := drawBelow s 16
    traceWait x.part { unit := tileUnit x.tile, partner := k, layer := h.layer, oper := h.oper, kind := 0, since := s.now - dw ns,
                       command := id } s

/-- The tile reaches a command boundary: its owner takes effect and its divider may step at once (07 R235, R238). -/
def tileBoundary (t : Nat) (s : State) : State :=
  let s := ownerDue t s
  { s with tiles := { s.tiles with divAt := smDel s.tiles.divAt t } }

/-- The waiting commands whose last hazard was with x end their wait: their trace records (15 R461; log 36). -/
def hazardEnds (x : TCmd) (before after : State) : State :=
  ((openCmds before x.part).filter (fun y => decide (y.state = 0)
      && decide ((blockedBy before (y.feet before) (cmdsBefore before y)).map (·.id) = some x.id)
      && (blockedBy after (y.feet after) (cmdsBefore after y)).isNone)).foldl (fun s y =>
    let h := tileCmdOf y.bytes
    if y.xfer.isSome then s
    else traceWait y.part { unit := tileUnit (if h.tile = 0xff then x.tile else h.tile), partner := x.tile, layer := h.layer,
                            oper := h.oper, kind := 1, since := match y.wait with | some w => w.2 | none => y.since,
                            command := jobCommand s y } s) after

/-- The output of a command that an uncorrectable error hit is poisoned (07 R234, 13 R411). -/
def poisonFeet (x : TCmd) (s : State) : State :=
  ((x.feet s).filter (·.write)).foldl (fun s f =>
    let lo := f.lo.toNat
    let n := f.hi.toNat - lo
    match f.tile with
    | some t =>
      let ks := (List.range (ceilDiv (lo + n) 128 - lo / 128)).map (fun i => lineKey t (128 * (lo / 128 + i)))
      let lines := ks.foldl (fun m k => smMod {} m k (fun l => { l with poison := true })) s.tiles.lines
      { s with tiles := { s.tiles with lines := lines } }
    | none =>
      let us := (s.unitsOf x.part lo n).filter (fun u => !s.darn.poisonHbm.contains u)
      { s with darn := { s.darn with poisonHbm := s.darn.poisonHbm ++ us } }) s

/-- TILE_COMMAND_COMPLETE: the running command commits its output. -/
def tileComplete (t : Nat) (s : State) : State :=
  match s.up, runningOn s t with
  | true, some x =>
    let h := tileCmdOf x.bytes
    let (r, s') := runTile x.part (!x.host) h s
    let base := runBase x h r.wide s'
    let (cycles, s') := runCycles x h r.wide s'
    let s' := streamWait x (ownerOf s x) (jobCommand s x) (cycles - base) (profileRun x s (countRun x r cycles s'))
    let hit := decide (x.status ≠ 0)
    let st := if hit && decide (r.status = .ok) then Status.dataPoisoned else r.status
    let s' := if hit then poisonFeet x s' else s'
    hazardEnds x s (tileBoundary t (endCmd x st (statusWord st r t cycles) (statsOf r) s'))
  | _, _ => s

def execTileCommandComplete (tile : Nat) (s : State) : Host.Outcome State Fault Refusal := .next (tileComplete tile s)

/-- POOL_ROUND_TIMER: with no pool tile in service the scheduler ends a round every 1 µs. -/
def execPoolRoundTimer (s : State) : Host.Outcome State Fault Refusal :=
  .next (if (List.range 32).any (fun t => s.tilePool t && !s.isFenced (tileUnit t) && decide (s.fval .tileEn t = 1)) then s
    else if s.up then poolRound s else s)

/-- TILE_DIVIDER_STEP: a tile at a boundary moves one step towards the target, an idle tile at most once a µs (07 R238,
01 R26). -/
def dividerStep (t : Nat) (s : State) : State :=
  let d := s.tileDivider t
  let last := smFind s.tiles.divAt t
  let due := match last with | some x => decide (x.toNat + 1000 ≤ s.now.toNat) | none => true
  if s.up && (runningOn s t).isNone && due && decide (d ≠ s.clk.target) then
    let n := if d < s.clk.target then d + 1 else d - 1
    { s with clk := { s.clk with tileDiv := smSet s.clk.tileDiv t n },
             tiles := { s.tiles with divAt := smSet s.tiles.divAt t s.now } }
  else s

def execTileDividerStep (tile : Nat) (s : State) : Host.Outcome State Fault Refusal := .next (dividerStep tile s)

/-! ### TILE_RUN (07 R228, R233) -/

/-- Cut a list into commands by each header's N_DESC; none where the bytes do not hold the count exactly. -/
def splitCmds : (n : Nat) → Bytes → Option (List Bytes)
  | 0, b => if b.isEmpty then some [] else none
  | n + 1, b =>
    let size := 64 + 128 * uAt b 3 1
    if b.length < size then none else (splitCmds n (b.drop size)).map (fun r => b.take size :: r)

/-- Put a list of commands behind those already issued. -/
def issueList (ctx : Option CmdCtx) (slot : Option Nat) (p : Nat) (host : Bool) (l : List Bytes) (s : State) : State :=
  let j := s.tiles.nextId
  let cmds : List TCmd := (List.range l.length).map (fun i =>
    { id := j + 1 + i, job := j, idx := i, part := p, host := host, bytes := nth [] l i, state := 0, tile := 0,
      since := s.now })
  let s := cmds.foldl (fun s x => addCmd x s) s
  { s with tiles := { s.tiles with jobs := s.tiles.jobs ++ [{ id := j, ctx := ctx, slot := slot, part := p }],
                                   nextId := j + 1 + l.length } }

/-- The unstarted tile commands of a command that ends go; those that run stay until they end (02 R61, R75). -/
def dropJob (c : CmdCtx) (s : State) : State :=
  let js := s.tiles.jobs.filter (fun j => decide (j.ctx = some c))
  js.foldl (fun s j =>
    let s := s.setCmds (s.tiles.cmds.filter (fun x => decide (x.job ≠ j.id) || decide (x.state ≠ 0)))
    let s := { s with tiles := { s.tiles with jobs := updFirst (fun x => decide (x.id = j.id)) (fun x => { x with ctx := none }) s.tiles.jobs } }
    ownersDue (settleCmds j.part (endJob { j with ctx := none } s))) s

def tileRunCheck (c : CmdCtx) (b : Bref) (count : Nat) (_s : State) : Option Status :=
  firstFail [(decide (count = 0 ∨ 508 < count) || !brefForm c b 0, .badParam)]

/-- Issue a TILE_RUN list. -/
def tileRunWork (c : CmdCtx) (b : Bref) (count : Nat) (s : State) : State :=
  match brefStatus c b 0 b.size s with
  | some st => finish c st [] 0 0 s
  | none =>
    match splitCmds count (brefRead c b b.size s) with
    | none => finish c .badLength [] 0 0 s
    | some l => issueList (some c) none c.part true l (brefCharge c b b.size s)

def execTileRun (c : CmdCtx) (bref : Bref) (count : Nat) (s : State) : Host.Outcome State Fault Refusal :=
  .next (runCmd c 0x322 (tileRunCheck c bref count) (tileRunWork c bref count) s)

/-! ### TENSOR_WRITE and TENSOR_READ (07 R232) -/

/-- The packed bytes of `n` positions of a descriptor. -/
def packedSize (d : Desc) (esc : Bool) (n : Nat) : Nat :=
  if d.smode = 1 then n / 2048 * sbBytes d.fmt esc
  else if 0x10 ≤ d.fmt then n / 32 * recBytes d.fmt
  else ceilDiv (n * fmtBits d.fmt) 8

/-- The packed bytes of a host transfer: the data positions written, or every position read, with each super-block that
the walk passes whole (07 R232, 08 R251). -/
def transferSize (s : State) (p : Nat) (d : Desc) (wr : Bool) : Nat :=
  let esc := (readCb s p d).esc
  if wr then packedSize d esc d.dataCount
  else if d.smode = 1 then (rawRuns s p d esc).length * sbBytes d.fmt esc
  else packedSize d esc d.total

/-- Unpack codes of w bits, w 4 or a whole number of bytes. -/
def unpackCodes (w n : Nat) (bad : Bool) (b : Bytes) : List Rd :=
  (List.range n).map (fun i =>
    { bits := if w = 4 then bitsOf (uAt b (i / 2) 1) (4 * (i % 2) + 3) (4 * (i % 2)) else uAt b (w / 8 * i) (w / 8),
      poison := bad })

/-- Pack codes of w bits; a poisoned element packs as zero (13 R411). -/
def packCodes (w : Nat) (l : List Rd) : Bytes :=
  let v := fun (r : Rd) => if r.poison then 0 else r.bits
  if w = 4 then (groups 2 l.length l).flatMap (fun g => leBytes 1 ((g.map v).foldr (fun x a => x + 16 * a) 0))
  else l.flatMap (fun r => leBytes (w / 8) (v r))

/-- A descriptor's checks for a host transfer (07 R214, R216): form, reach, codebook, and weight protection. -/
def hostDescCheck (s : State) (p : Nat) (d : Desc) : Option Status :=
  let refs := if isCb d.fmt then [footAt d.cbAddr 0 (cbSize d.fmt) false] else []
  let fs := d.feet (readCb s p d).esc
  let wp := fun (f : Foot) => footWp s p f && footReach s p none { f with write := false }
  firstFail [(!formOk d || !runsOk d, .badParam), (!refs.all (footReach s p none), .rangeFault),
    (!descsOk s p [d], .badParam), (d.writes && !fs.all (footReach s p none), .rangeFault),
    ((refs ++ fs).any wp, .noPermission), (!fs.all (footReach s p none), .rangeFault)]

/-- The place of a host transfer in the issue order, where it waits in it. -/
def xferOf (s : State) (c : CmdCtx) : Option TCmd :=
  s.tiles.cmds.find? (fun x => match x.xfer with | some e => decide (e.1 = c) | none => false)

/-- A host transfer waits until it is issued and no live command before it is a hazard (07 R223). -/
def tensorWaits (s : State) (c : CmdCtx) (fs : List Foot) : Bool :=
  match xferOf s c with
  | some x => !x.issued || (blockedBy s fs (cmdsBefore s x)).isSome
  | none =>
    let l := openCmds s c.part
    l.any (fun y => !y.issued) || decide (64 ≤ l.length) || (blockedBy s fs l).isSome

/-- A host transfer that waits takes its place in the issue order. -/
def listXfer (c : CmdCtx) (coll : Bool) (desc : Bytes) (s : State) : State :=
  if (xferOf s c).isSome then s
  else
    let k := s.tiles.nextId
    let x : TCmd := { id := k, job := k, idx := 0, part := c.part, host := true, bytes := desc, state := 0, tile := 0,
                      since := s.now, xfer := some (c, coll) }
    let s := addCmd x s
    { s with tiles := { s.tiles with nextId := k + 1 } }

/-- A host transfer leaves the issue order: it has run, or it ends. -/
def unlistXfer (c : CmdCtx) (s : State) : State :=
  match xferOf s c with
  | none => s
  | some x => settleCmds x.part (s.setCmds (s.tiles.cmds.filter (fun y => decide (y.id ≠ x.id))))

/-- The wait of a host transfer has ended: its trace record, which names the command processor (15 R461; log 36). -/
def tensorResume (c : CmdCtx) (s : State) : State :=
  match (s.entryOf c).bind (·.waitFrom) with
  | some t => traceWait c.part { cmdWait c t s with kind := 1, partner := 0xffff } s
  | none => s

/-- Write the packed bytes of a BREF through a descriptor; poisoned bytes carry their mark (13 R401). -/
def tensorPut (p : Nat) (d : Desc) (b : Bytes) (bad : Bool) (s : State) : State :=
  let c := readCb s p d
  if d.record then
    let size := sbBytes d.fmt c.esc
    twrites p false (rawWrites s p d c.esc ((records size (d.dataCount / 2048) b).map (fun x => (x, bad)))) s
  else
    let (s', ws) := copyOut p false d (readIndexes s p d) d.total 0 (unpackCodes (fmtBits d.fmt) d.dataCount bad b) (s, [])
    markPoison p ws.reverse s'

/-- The packed bytes that a descriptor reads, and whether poisoned data was met. -/
def tensorGet (s : State) (p : Nat) (d : Desc) : Bytes × Bool :=
  let c := readCb s p d
  if d.record then
    let xs := rawRuns s p d c.esc
    (xs.flatMap (fun x => if x.2 then zeros x.1.length else x.1), xs.any (·.2))
  else
    let xs := (d.walk (readIndexes s p d)).map (readStep s p d)
    (packCodes (fmtBits d.fmt) xs, xs.any (·.poison))

/-- The bytes that a host transfer reads beside its BREF. -/
def transferReads (s : State) (p : Nat) (d : Desc) : List Span :=
  let esc := (readCb s p d).esc
  let w := d.walk (readIndexes s p d)
  let unit := fun n size => ((groups 32 d.total w).map (fun g => unitOf n (g.headD .pad))).filterMap
    (fun k => k.map (fun k => (addrPlus d.base (k * size : Nat), size)))
  sideSpans d ++ (if d.writes then (if d.op = 4 then walkSpans d false none w else [])
    else if d.record then (if d.smode = 1 then unit 2048 (sbBytes d.fmt esc) else unit 32 (recBytes d.fmt))
    else walkSpans d esc none w)

/-- Count what a host transfer reads: tag misses, scratch bytes and HBM traffic. -/
def countTransfer (p : Nat) (d : Desc) (s : State) : State :=
  let l := transferReads s p d
  countReads p l (countTmem l (countMisses (foreignOf s p l) s))

/-- The first step of a split stream's read whose block is out of sequence (08 R255). -/
def splitBad (s : State) (p : Nat) (d : Desc) : Option Nat :=
  if d.smode = 2 then
    (d.walk (readIndexes s p d)).findIdx? (fun x => match x with
      | .at_ e => (scalesAt s p d false e).2.2.2
      | _ => false)
  else none

/-- The parameters of TENSOR_WRITE and TENSOR_READ by themselves (02 R62 step 9). -/
def tensorForm (c : CmdCtx) (wr : Bool) (desc : Bytes) (b : Bref) (_s : State) : Option Status :=
  let d := descOf desc
  firstFail [(d.writes != wr || !formOk d || !runsOk d || !brefForm c b (b2n (!wr)), .badParam)]

/-- TENSOR_WRITE and TENSOR_READ share their work; `wr` tells which. -/
def tensorWork (c : CmdCtx) (wr : Bool) (desc : Bytes) (b : Bref) (i : Instr) (s : State) : State :=
  let d := descOf desc
  let p := c.part
  let n := transferSize s p d wr
  match hostDescCheck s p d with
  | some st => finish c st [] 0 0 (unlistXfer c s)
  | none =>
    if b.size ≠ n then finish c .badLength [] 0 0 (unlistXfer c s)
    else match brefStatus c b (b2n (!wr)) n s with
      | some st => finish c st [] 0 0 (unlistXfer c s)
      | none =>
        if tensorWaits s c (xferFeet s p false desc) then waitCmd c i (listXfer c false desc s)
        else
          let s := tensorResume c (unlistXfer c s)
          if wr then
            let bad := decide (b.loc = 1) && s.hbmPoison p b.addr.toNat n
            finish c (if bad then .dataPoisoned else .ok) [] 0 0
              (profiled c (tensorPut p d (brefRead c b n s) bad) (profiled c (countTransfer p d) (brefCharge c b n s)))
          else
            let (x, bad) := tensorGet s p d
            let s := profiled c (countTransfer p d) s
            match splitBad s p d with
            | some k =>
              finish c .scaleSeqMismatch [] 0 0 (brefWrite c b (x.take (packedSize d false (k / 4096 * 4096))) s)
            | none => finish c (if bad then .dataPoisoned else .ok) [] 0 0 (brefWrite c b x s)

def execTensorWrite (c : CmdCtx) (desc : Bytes) (bref : Bref) (s : State) : Host.Outcome State Fault Refusal :=
  .next (runCmd c 0x320 (tensorForm c true desc bref) (tensorWork c true desc bref (.tensorWrite c desc bref)) s)

def execTensorRead (c : CmdCtx) (desc : Bytes) (bref : Bref) (s : State) : Host.Outcome State Fault Refusal :=
  .next (runCmd c 0x321 (tensorForm c false desc bref) (tensorWork c false desc bref (.tensorRead c desc bref)) s)

end Sys2Proof.Machine
end

