-- ==== Sys2Proof/Machine/Events.lean ====
section
/-! DEFINITION. Evaluating ensembles (06 R193 to R199), the standing verdict (05 R175, 09 R302, 11 R358), flow events and
batchers (05 R174, 07 R239 to R241, 09 R280, R284, R285), and the threshold loop (06 R204). -/

namespace Sys2Proof.Machine

/-! ### Trees (06 R193 to R195) -/

/-- The walk of a tree: the leaf's value, the visits, whether a NaN was met, and whether a poisoned node was read. -/
structure TreeRun where
  value  : Int
  cost   : Nat
  nan    : Bool
  poison : Bool
  deriving DecidableEq, Repr

/-- Whether the walk goes left at a split node, and whether it met a NaN. -/
def goesLeft (n : Node) (f : Word) : Bool × Bool :=
  match n.kind with
  | 0 => (decide (f.toNat < n.value.toNat), false)
  | 1 => (decide (f.toInt < n.value.toInt), false)
  | _ => if (f32Val f.toNat).isNan then (false, true) else ((f32Val f.toNat).lt (f32Val n.value.toNat), false)

/-- Walk a tree from node n. Children lie behind their parents, so a tree ends within its number of nodes. -/
def walkTree (nodes : List Node) (feat : List Word) : (fuel n : Nat) → TreeRun → TreeRun
  | 0, _, r => r
  | k + 1, n, r =>
    match nodes[n]? with
    | none => r
    | some d =>
      let r := { r with poison := r.poison || d.poison }
      if d.kind = 3 then { r with value := d.value.toInt }
      else
        let (left, nan) := goesLeft d (nth 0 feat d.feature)
        walkTree nodes feat k (if left then d.left else d.right) { r with cost := r.cost + 1, nan := r.nan || nan }

/-- The result of an evaluation (06 R195). -/
structure Eval where
  sums   : List Int := [0, 0, 0, 0, 0, 0, 0, 0]
  used   : Nat := 0
  cut    : Bool := false
  nan    : Bool := false
  poison : Bool := false
  deriving DecidableEq, Repr

/-- Evaluate trees in ascending order until one does not fit the share. -/
def evalTrees (e : Ensemble) (feat : List Word) (share : Nat) : List (Nat × Nat) → Eval → Eval
  | [], x => x
  | (root, out) :: r, x =>
    let t := walkTree e.nodes feat (e.nodes.length + 1) root { value := 0, cost := 0, nan := false, poison := false }
    if share < x.used + t.cost then { x with cut := true }
    else evalTrees e feat share r
      { x with used := x.used + t.cost, sums := setNth x.sums out (nth 0 x.sums out + t.value), nan := x.nan || t.nan,
               poison := x.poison || t.poison }

def evaluate (e : Ensemble) (feat : List Word) (share : Nat) : Eval := evalTrees e feat share e.roots {}

/-- The class and the score (06 R199). -/
def decideClass (sums : List Int) (nOut : Nat) (theta : Int) (shift : Nat) : Nat × Int :=
  let best := (List.range nOut).foldl (fun b i => if nth 0 sums b < nth 0 sums i then i else b) 0
  let cls := if nOut = 1 then (if theta ≤ nth 0 sums 0 then 1 else 0) else best
  let x := if nOut = 1 then nth 0 sums 0 else nth 0 sums cls
  (cls, clampI (sra x shift) (-2147483648) 2147483647)

/-- The KIND of CLASS_ACT, and its ESC bit. -/
def classKind (acts : List Byte) (cls : Nat) : Nat := bitsOf (nth 0 acts cls).toNat 2 0
def classEsc (acts : List Byte) (cls : Nat) : Bool := (nth 0 acts cls).getLsbD 3

/-- Count an evaluation's effects on its slot: NAN_FEATURE, a poisoned node, and the threshold loop (06 R194, R204,
13 R411). -/
def countEval (slot part : Nat) (e : Ensemble) (x : Eval) (cls : Nat) (loop : Bool) (s : State) : State :=
  let s := if x.nan && !e.nanTrap then s.count (.slot slot .nanFeature) else s
  let s := if x.poison then s.count (.ev part .nodePoisoned) else s
  if loop && !(x.poison || (x.nan && e.nanTrap)) then
    s.modSlot slot (fun y => { y with thr := { y.thr with n := y.thr.n + 1, a := y.thr.a + b2n (decide (cls = 1)) } })
  else s

/-! ### Verdicts (05 R175, 09 R302, 11 R358) -/

/-- A result on its way to a flow's context. -/
structure Verdict where
  part    : Nat
  index   : Nat
  fh      : DWord
  gen     : Half
  epoch   : Nat
  slot    : Nat
  kind    : Nat
  invalid : Bool
  cls     : Nat
  score   : Int
  time    : DWord
  deriving DecidableEq, Repr

/-- The VBYTE of a verdict. -/
def Verdict.vbyte (v : Verdict) : Nat := vbyteOf v.kind true v.invalid

/-- A result is stale: another generation of the flow, or an older epoch than the verdict that stands. -/
def staleVerdict (s : State) (c : FlowCtx) (v : Verdict) : Bool :=
  decide (c.gen ≠ v.gen) ||
    (match s.eps v.part with
     | [old, new] => decide (v.epoch = old.num) && (c.vvalid || c.vinvalid) && decide (c.vepoch = h16 new.num)
     | _ => false)

/-- The body of VERDICT_WRITE (11 R358; log 30). -/
def verdictBody (v : Verdict) : Bytes :=
  leBytes 8 v.fh.toNat ++ leBytes 2 v.gen.toNat ++ leBytes 2 v.epoch ++ leBytes 1 v.vbyte ++ leBytes 1 v.slot
    ++ leBytes 2 v.cls ++ leBytesI 4 v.score ++ zeros 4 ++ leBytes 8 v.time.toNat

/-- Write a verdict into a context and the hot form, and close the hold that waits for it. -/
def storeVerdict (v : Verdict) (s : State) : State :=
  let c := s.ctx v.index
  let s := s.setCtx v.index { c with
    vkind := v.kind, vvalid := true, vinvalid := v.invalid, vslot := v.slot, vepoch := h16 v.epoch, vclass := h16 v.cls,
    vscore := w32 (wrapU 32 v.score), vtime := v.time }
  let s := s.modHot v.index (fun h => { h with vkind := v.kind, vvalid := true, vinvalid := v.invalid })
  match s.holdOf v.index with
  | some h => if h.slot = v.slot then closeHold v.index (if v.invalid then .invalid else .none) s else s
  | none => s

/-- Write a result at the home of its flow, which this module is; the holder of a lease learns the new VBYTE. -/
def verdictAtHome (v : Verdict) (s : State) : State :=
  let c := s.ctx v.index
  if staleVerdict s c v then s.count (.slot v.slot .verdictStale)
  else
    let s := storeVerdict v s
    match s.leaseOf v.index with
    | some l => sendMsg l.holder 1 0x16 v.part (v.fh.setWidth 32)
        (leBytes 8 v.fh.toNat ++ leBytes 1 v.vbyte ++ leBytes 1 v.slot) s
    | none => s

/-- Write a result: here, or at the flow's home node. -/
def writeVerdict (v : Verdict) (s : State) : State :=
  if isLeasedIdx v.index then sendMsg (homeOfIdx v.index) 1 0x15 v.part (v.fh.setWidth 32) (verdictBody v) s
  else verdictAtHome v s

/-! ### Relocating a model's lists (07 R229, 09 R283) -/

/-- Where the bundle addresses of a run resolve. -/
structure Reloc where
  weight : Nat
  work   : Nat
  state  : Nat
  input  : Nat
  tiles  : List Nat
  shares : List Nat
  deriving DecidableEq, Repr

/-- The tile-local address of an offset in a tile's scratch. -/
def tileAddr (t off : Nat) : Nat := 2 ^ 63 + t * 2 ^ 56 + off

/-- The address that a bundle address stands for. -/
def relocAddr (r : Reloc) (a : Nat) : Nat :=
  if isTileAddr a then a
  else
    let off := a % 2 ^ 48
    match bitsOf a 62 60 with
    | 1 => r.weight + off
    | 2 => r.work + off
    | 3 => r.state + off
    | 4 => r.input + off
    | 5 => tileAddr (nth 0 r.tiles (bitsOf a 52 48)) (nth 0 r.shares (bitsOf a 52 48) + a % 2 ^ 22)
    | _ => a

/-- Relocate the 8-byte address at an offset. -/
def relocAt (r : Reloc) (off : Nat) (b : Bytes) : Bytes := splice b off (leBytes 8 (relocAddr r (uAt b off 8)))

/-- A SIZE or M of 0 stands for the vector count. -/
def sizeAt (m off : Nat) (b : Bytes) : Bytes := if uAt b off 4 = 0 then splice b off (leBytes 4 m) else b

/-- Relocate the addresses of a descriptor. -/
def relocDesc (r : Reloc) (b : Bytes) : Bytes := [0, 88, 104, 112, 120].foldl (fun b off => relocAt r off b) b

/-- Put the vector count in place of each SIZE of 0. -/
def sizeDesc (m : Nat) (b : Bytes) : Bytes := (List.range 5).foldl (fun b d => sizeAt m (24 + 8 * d) b) b

/-- Relocate a command: its tile, its addresses and, where its M is 0, its vector count. -/
def relocCmd (r : Reloc) (m : Nat) (b : Bytes) : Bytes :=
  let h := relocAt r 24 (b.take 64)
  let free := decide (uAt h 8 4 = 0)
  let h := if uAt h 0 1 = 1 then sizeAt m 8 h else h
  let h := splice h 2 (leBytes 1 (nth 0 r.tiles (uAt h 2 1)))
  h ++ ((records 128 (uAt b 3 1) (b.drop 64)).map (fun d => (if free then sizeDesc m else id) (relocDesc r d))).flatten

/-- The commands of a model's list; a model's list was checked when it was loaded. -/
def listCmds (b : Bytes) : (fuel : Nat) → List Bytes
  | 0 => []
  | k + 1 => if b.length < 64 then [] else
      let n := 64 + 128 * uAt b 3 1
      b.take n :: listCmds (b.drop n) k

/-- The relocation of a slot's tensor part, with the inputs at an address. -/
def Slot.reloc (x : Slot) (t : Tensor) (input : Nat) : Reloc :=
  { weight := nth 0 t.wReg x.copy, work := t.workReg, state := t.stateReg, input := input, tiles := t.tiles,
    shares := t.shares }

/-- The address of the batch input buffer: behind the input tile's share (09 R288; log 38). -/
def Tensor.inputAddr (t : Tensor) : Nat := tileAddr (nth 0 t.tiles 0) t.inBase

/-! ### Input vectors (09 R284) -/

/-- The bytes of an input element. -/
def inBytes (f : Nat) : Nat := if f = 3 then 2 else 1

/-- Element k of the input map. -/
def inputElement (map : Bytes) (k : Nat) (words : List Word) (fmt : Nat) : Nat :=
  let q := slice map (16 * k) 16
  let w := (nth 0 words (uAt q 0 1)).toNat
  let v : Fl := match uAt q 1 1 with
    | 0 => flInt w
    | 1 => flInt (sxNat 32 w)
    | 2 => f32Val w
    | _ => .fin false 0 0
  let d := f32Round (v.add (f32Val (uAt q 4 4)).neg)
  (encodeOut fmt (f32Round (d.mul (f32Val (uAt q 8 4))))).1

/-- The writes of row m of an ILV-A tensor of `n` vectors. -/
def vectorWrites (t : Tensor) (base n m : Nat) (words : List Word) : List TWrite :=
  (List.range t.kIn).map (fun k =>
    { addr := base + ((k / 128 * n + m) * 128 + k % 128) * inBytes t.inFmt,
      bytes := leBytes (inBytes t.inFmt) (inputElement t.inputMap k words t.inFmt), poison := false })

/-- Write the vectors of a batch. -/
def writeVectors (p : Nat) (t : Tensor) (base : Nat) (rows : List (List Word)) (s : State) : State :=
  twrites p true ((List.range rows.length).flatMap (fun m => vectorWrites t base rows.length m (nth [] rows m))) s

/-! ### Batches (07 R239 to R241) -/

/-- The oldest dispatched batch of a slot runs, when none does. -/
def startBatch (n : Nat) (s : State) : State :=
  let x := s.slot n
  match x.tens, x.batches with
  | some t, b :: _ =>
    if x.running then s
    else
      let p := s.slotOwner n
      let s := writeVectors p t t.inputAddr (b.map (·.words)) s
      let l := (listCmds t.fwd t.fwd.length).map (relocCmd (x.reloc t t.inputAddr) b.length)
      (issueList none (some n) p false l s).modSlot n (fun y => { y with running := true })
  | _, _ => s

/-- Dispatch the filling batch, where a place is free; `why` is the counter of its cause. -/
def dispatchBatch (n : Nat) (why : Option SlotCtr) (s : State) : State :=
  let x := s.slot n
  if x.filling = [] ∨ 3 ≤ x.batches.length then s
  else
    let s := s.setSlot n { x with batches := x.batches ++ [x.filling], batchAt := x.batchAt ++ [s.now], filling := [] }
    startBatch n (match why with | some w => s.count (.slot n w) | none => s)

/-- Dispatch the filling batch where it is full or its time has passed. -/
def dispatchDue (n : Nat) (s : State) : State :=
  let x := s.slot n
  if x.filling = [] then s
  else if s.fval .batchMax n ≤ x.filling.length then dispatchBatch n (some .batchFull) s
  else if x.fillAt.toNat ≤ s.now.toNat then dispatchBatch n (some .batchTimeout) s
  else s

/-- The slots whose BATCH_MAX is now at or below the filling batch (07 R241). -/
def batchSettle (s : State) : State :=
  s.slots.foldl (fun s e =>
    if (s.slot e.1).filling ≠ [] ∧ s.fval .batchMax e.1 ≤ (s.slot e.1).filling.length then
      dispatchBatch e.1 (some .batchFull) s
    else s) s

/-! ### Raising events (05 R174, 09 R280, R294, 13 R408) -/

/-- The engine of a slot's EVENT-mode ensemble has no evaluator group in service. -/
def engineFenced (s : State) (k : Nat) : Bool :=
  s.isFenced (pipeUnit k) || (List.range 16).all (fun g => s.isFenced (wickUnit (16 * k + g)))

/-- A slot takes events of a partition, which must be ACTIVE (12 R378). -/
def takesEvents (s : State) (n p : Nat) : Bool :=
  let x := s.slot n
  decide (n < 256) && decide (x.state = 2 ∨ x.state = 3) && decide (s.slotOwner n = p) && decide ((s.part p).state = 2)
    && (match x.tens, x.ens with
        | some t, _ => !t.tiles.any (fun i => s.isFenced (tileUnit i))
        | none, some e => e.event && !engineFenced s (x.bank.getD 0)
        | none, none => false)

/-- Discard an event that a full queue turns away. -/
def queueDrop (n : Nat) (s : State) : State := (s.count (.ev (s.slotOwner n) .evDrop)).count (.slot n .slotEvDrop)

/-- Put an event into a batcher; false when it is discarded. -/
def batchEvent (n : Nat) (e : Event) (s : State) : Bool × State :=
  let s := if (s.slot n).filling.any (fun y => decide (y.epoch ≠ e.epoch)) then dispatchBatch n none s else s
  let s := if s.fval .batchMax n ≤ (s.slot n).filling.length then dispatchDue n s else s
  let x := s.slot n
  if x.filling.any (fun y => decide (y.epoch ≠ e.epoch)) || decide (s.fval .batchMax n ≤ x.filling.length) then
    (false, queueDrop n s)
  else
    let at_ := if x.filling = [] then s.now + dw (s.fval .batchWait n) else x.fillAt
    let s := addRef e.part e.epoch (s.setSlot n { x with filling := x.filling ++ [e], fillAt := at_ })
    (true, if s.fval .batchMax n ≤ x.filling.length + 1 then dispatchBatch n (some .batchFull) s else s)

/-- Raise an event to a slot; false when it is discarded. -/
def raiseEvent (n : Nat) (e : Event) (s : State) : Bool × State :=
  if !takesEvents s n e.part then (false, s.count (.ev e.part .evDrop))
  else
    let x := s.slot n
    match x.tens with
    | some _ => batchEvent n e s
    | none =>
      if 256 ≤ x.evq.length then (false, queueDrop n s)
      else
        let s := s.setSlot n { x with evq := x.evq ++ [{ e with order := s.flow.evNext }] }
        (true, addRef e.part e.epoch { s with flow := { s.flow with evNext := s.flow.evNext + 1 } })

/-- The event of a flow with its words: the merged context and the packet's feature slots. -/
def makeEvent (part i : Nat) (c : FlowCtx) (mask : Nat) (ft : DWord) (epoch : Nat) (feats : List Word) : Event :=
  let b := ctxBytes c
  { part := part, index := i, gen := c.gen, mask := mask, ft := ft, epoch := epoch,
    words := (List.range 64).map (fun k => w32 (uAt b (4 * k) 4)) ++ (List.range 64).map (fun k => nth 0 feats k) }

/-- FH64 of an event: context words 2 and 3. -/
def Event.fh (e : Event) : DWord := dw ((nth 0 e.words 2).toNat + (nth 0 e.words 3).toNat * 2 ^ 32)

/-- The verdict of an event's result. -/
def Event.verdict (e : Event) (slot kind : Nat) (invalid : Bool) (cls : Nat) (score : Int) (now : DWord) : Verdict :=
  { part := e.part, index := e.index, fh := e.fh, gen := e.gen, epoch := e.epoch, slot := slot, kind := kind,
    invalid := invalid, cls := cls, score := score, time := now }

/-- An event's result is written, and its reference released. -/
def settleEvent (e : Event) (v : Verdict) (s : State) : State := dropRef e.part e.epoch (writeVerdict v s)

/-! ### EVENT-mode ensembles (06 R202, R203) -/

/-- No slot of the same home engine has an event that arrived earlier (06 R202). -/
def firstAtHome (s : State) (x : Slot) (ev : Event) : Bool :=
  s.slots.all (fun e => match e.2.ens, e.2.evq with
    | some _, f :: _ => decide (e.2.bank ≠ x.bank) || decide (ev.order ≤ f.order)
    | _, _ => true)

/-- EVENT_ENSEMBLE_EVAL: the home engine of a slot evaluates the oldest event of its slots, where that is the slot's. -/
def eventEval (n : Nat) (s : State) : State :=
  let x := s.slot n
  match s.up && (match x.evq with | ev :: _ => firstAtHome s x ev | [] => true), x.ens, x.evq with
  | true, some e, ev :: q =>
    let r := evaluate e ev.words (2 ^ 32 - 1)
    let (cls, score) := decideClass r.sums e.nOut x.thr.theta e.outShift
    let invalid := r.poison || (r.nan && e.nanTrap)
    let s := countEval n ev.part e r cls (decide (e.nOut = 1)) (s.setSlot n { x with evq := q })
    settleEvent ev (ev.verdict n (classKind e.classAct cls) invalid cls score s.now) s
  | _, _, _ => s

/-! ### Results of a batch (07 R241, 09 R285) -/

/-- The output of a vector as a sum: none for a NaN. -/
def outSum (f v : Nat) : Option Int :=
  match f with
  | 0x00 => some (sxNat 8 v)
  | 0x04 => some (sxNat 32 v)
  | _ => f32ToSat 64 v

/-- The class, the score and whether it is invalid, of row m of a batch's output. A NaN leaves its sum open (log 9), and a
poisoned row is invalid (13 R411). -/
def rowResult (x : Slot) (t : Tensor) (p m : Nat) (s : State) : Nat × Int × Bool × State :=
  let o := t.outMap
  let f := uAt o 8 1
  let w := if f = 0 then 1 else 4
  let nOut := uAt o 9 1
  let base := relocAddr (x.reloc t t.inputAddr) (uAt o 0 8)
  let row := base + m * uAt o 12 4 * w
  let vals := (List.range nOut).map (fun i => outSum f (treadNat s p (row + i * w) w))
  let (sums, s) := vals.foldl (fun (acc, s) v => match v with
    | some i => (acc ++ [i], s)
    | none => let (k, s) := drawBelow s (2 ^ 64); (acc ++ [sxNat 64 k], s)) (([] : List Int), s)
  let theta := if x.kind = 2 then sAt o 16 8 else x.thr.theta
  let (cls, score) := decideClass sums nOut theta (uAt o 10 1)
  (cls, score, vals.any (·.isNone) || tpoison s p row (nOut * w), s)

/-- Write the verdicts of a batch in the order of its events; all are invalid where `inv` says that no row was computed. -/
def batchVerdicts (n : Nat) (x : Slot) (t : Tensor) (inv : Bool) : List Event → (m : Nat) → State → State
  | [], _, s => s
  | e :: r, m, s =>
    let (cls, score, nan, s) := rowResult x t e.part m s
    let bad := nan || inv
    let acts := (List.range 8).map (fun i => byteAt t.outMap (52 + i))
    let s := if !bad && decide (x.kind = 1) && decide (uAt t.outMap 9 1 = 1) then
        s.modSlot n (fun y => { y with thr := { y.thr with n := y.thr.n + 1, a := y.thr.a + b2n (decide (cls = 1)) } })
      else s
    batchVerdicts n x t inv r (m + 1) (settleEvent e (e.verdict n (classKind acts cls) bad cls score s.now) s)

/-- The job of a slot's batch. -/
def batchJob (s : State) (n : Nat) : Option TJob := s.tiles.jobs.find? (fun j => decide (j.slot = some n))

/-- Discard the events of a list, releasing their references. -/
def discardEvents (l : List Event) (s : State) : State := l.foldl (fun s e => dropRef e.part e.epoch s) s

/-- BATCH_COMPLETE: the running batch of a slot has run its list; its results become verdicts, and the next batch runs.
A list that met poisoned data writes its verdicts, the poisoned rows invalid, and all of them where its last command did not
run; one that ended otherwise writes none (13 R408, R411; log 37). -/
def batchComplete (n : Nat) (s : State) : State :=
  let x := s.slot n
  match s.up, x.tens, x.batches, batchJob s n with
  | true, some t, b :: rest, some j =>
    let l := jobCmds s j.id
    if x.running && l.all (fun c => decide (c.state = 2)) then
      let s := (forgetJob j.id s).setSlot n { x with batches := rest, batchAt := x.batchAt.drop 1, running := false }
      let poison := decide (jobStatus l = Status.dataPoisoned.code)
      let cut := decide ((l.getLast?.map (·.word)).getD 0 = 0)
      let s := if jobStatus l = 0 || poison then batchVerdicts n x t (poison && cut) b 0 s else discardEvents b s
      dispatchDue n (startBatch n s)
    else s
  | _, _, _, _ => s

/-- BATCH_TIMEOUT: BATCH_WAIT has passed since the filling batch's first vector. -/
def batchTimeout (n : Nat) (s : State) : State :=
  if s.up ∧ (s.slot n).filling ≠ [] ∧ (s.slot n).fillAt.toNat ≤ s.now.toNat then dispatchBatch n (some .batchTimeout) s
  else s

def execBatchTimeout (slot : Nat) (s : State) : Host.Outcome State Fault Refusal := .next (batchTimeout slot s)

/-! ### The threshold loop (06 R204) -/

/-- The bounds of a slot's threshold: minimum, maximum and initial step, where it has one (06 R186, 09 R285). -/
def thrBounds (x : Slot) : Option (Int × Int × Nat) :=
  match x.ens, x.tens with
  | some e, _ => if e.nOut = 1 then some (e.thrMin, e.thrMax, e.stepInit) else none
  | none, some t => if uAt t.outMap 9 1 = 1 then some (sAt t.outMap 24 8, sAt t.outMap 32 8, uAt t.outMap 40 4) else none
  | none, none => none

/-- thr_period: the threshold after a period of n evaluations, a of them alarms. -/
def thrMove (lo hi : Int) (stepInit target : Nat) (t : Thr) : Thr :=
  let want := t.n * target
  let got := t.a * 1000000
  let dir : Int := if want * 5 < got * 4 then 1 else if got * 5 < want * 4 then -1 else 0
  if t.n < 1024 ∨ dir = 0 then t
  else
    let step := if dir = t.dir then min (t.step * 2) (stepInit * 256) else if t.dir ≠ 0 then max (t.step / 2) 1 else t.step
    { t with step := step, theta := clampI (wrapS 64 (t.theta + dir * step)) lo hi, dir := dir }

/-- THRESHOLD_PERIOD: the period in progress of a slot ends. -/
def thresholdPeriod (n : Nat) (s : State) : State :=
  let x := s.slot n
  let t := x.thr
  match s.up, thrBounds x with
  | true, some (lo, hi, si) =>
    if x.state < 2 ∨ s.now.toNat < t.since.toNat + t.period * 1000000 then s
    else
      let c := s.fval .wkThrCtrl n
      let m := if c = 1 then thrMove lo hi si (s.fval .wkThrTarget n) t else t
      s.setSlot n { x with thr := { m with n := 0, a := 0, lastN := t.n, lastA := t.a,
                                           since := t.since + dw (t.period * 1000000), period := s.fval .wkThrPeriod n } }
  | _, _ => s

def execThresholdPeriod (slot : Nat) (s : State) : Host.Outcome State Fault Refusal := .next (thresholdPeriod slot s)

end Sys2Proof.Machine
end

