-- ==== Sys2Proof/Machine/Bundle.lean ====
section
/-! DEFINITION. The model bundle (09 R281 to R286) and the ensemble image (06 R186 to R189): their layout and limits. -/

namespace Sys2Proof.Machine

/-! ### The ensemble image (06 R186 to R189) -/

/-- The CLASS_ACT entries of an image: KIND at most 4, the upper bits Reserved. -/
def classActOk (l : Bytes) : Bool := l.all (fun b => decide (b.toNat < 16) && decide (bitsOf b.toNat 2 0 ≤ 4))

/-- A node. -/
def nodeAt (b : Bytes) : Node :=
  let w := uAt b 0 4
  { kind := bitsOf w 9 8, feature := bitsOf w 6 0, value := w32 (uAt b 4 4), left := uAt b 8 4, right := uAt b 12 4 }

/-- Node i of `n` keeps its limits; `nf` features are in range. -/
def nodeOk (b : Bytes) (i n nf : Nat) : Bool :=
  let w := uAt b 0 4
  let d := nodeAt b
  let child := fun c => decide (i < c) && decide (c < n)
  !w.testBit 7 && decide (w < 1024)
    && (if d.kind = 3 then decide (d.feature = 0 ∧ d.left = 0 ∧ d.right = 0)
        else decide (d.feature < nf) && child d.left && child d.right
          && (decide (d.kind ≠ 2) || !(f32Val d.value.toNat).isNan))

/-- The split nodes on the longest path from each node of a list that starts at index i. -/
def nodeDepths : (i : Nat) → List Node → List Nat
  | _, [] => []
  | i, n :: r =>
    let t := nodeDepths (i + 1) r
    (if n.kind = 3 then 0 else 1 + max (nth 0 t (n.left - i - 1)) (nth 0 t (n.right - i - 1))) :: t

/-- The ensemble of an image, where the image keeps every limit. -/
def ensembleOf (b : Bytes) : Option Ensemble :=
  let event := decide (uAt b 6 1 = 1)
  let nt := uAt b 8 2
  let nOut := uAt b 11 1
  let nn := uAt b 12 4
  let at_ := 64 + ceilDiv (4 * nt) 16 * 16
  let rb := records 4 nt (b.drop 64)
  let nb := records 16 nn (b.drop at_)
  let nodes := nb.map nodeAt
  let depth := nodeDepths 0 nodes
  let roots := rb.map (fun r => (bitsOf (uAt r 0 4) 20 0, bitsOf (uAt r 0 4) 23 21))
  if decide (64 ≤ b.length) && decide (uAt b 0 4 = 0x54524545) && decide (uAt b 4 2 = 1) && decide (uAt b 6 1 ≤ 1)
      && decide (uAt b 7 1 < 4) && !(event && (byteAt b 7).getLsbD 1) && decide (1 ≤ nt)
      && decide (nt ≤ if event then 4096 else 512) && inR (uAt b 10 1) 1 16 && inR nOut 1 8 && inR nn 1 98304
      && (if event then decide (uAt b 16 2 = 0) else inR (uAt b 16 2) 1 2048) && decide (uAt b 18 1 ≤ 31)
      && decide (sAt b 28 8 ≤ sAt b 36 8) && decide (1 ≤ uAt b 44 4) && rsvZero b 52 4 && classActOk (slice b 56 8)
      && decide (b.length = at_ + 16 * nn) && rsvZero b (64 + 4 * nt) (at_ - 64 - 4 * nt)
      && rb.all (fun r => decide (uAt r 3 1 = 0)) && roots.all (fun r => decide (r.1 < nn) && decide (r.2 < nOut))
      && (List.range nn).all (fun i => nodeOk (nth [] nb i) i nn (if event then 128 else 72))
      && roots.all (fun r => decide (nth 0 depth r.1 ≤ uAt b 10 1)) then
    some { event := event, nanTrap := (byteAt b 7).getLsbD 0, escEn := (byteAt b 7).getLsbD 1, nOut := nOut,
           budget := uAt b 16 2, outShift := uAt b 18 1, escSlot := uAt b 19 1, thrInit := sAt b 20 8, thrMin := sAt b 28 8,
           thrMax := sAt b 36 8, stepInit := uAt b 44 4, escMargin := uAt b 48 4, classAct := slice b 56 8,
           roots := roots, nodes := nodes }
  else none

/-! ### Header and section table (09 R281, R282) -/

/-- The header of a bundle. -/
structure BHead where
  kind      : Nat
  trainable : Bool
  wp        : Bool
  nSect     : Nat
  nTiles    : Nat
  inFmt     : Nat
  kIn       : Nat
  wSize     : Nat
  workSize  : Nat
  need      : Nat
  stateSize : Nat
  deriving DecidableEq, Repr

def bheadOf (b : Bytes) : BHead :=
  { kind := uAt b 6 1, trainable := (byteAt b 7).getLsbD 0, wp := (byteAt b 7).getLsbD 1, nSect := uAt b 8 2,
    nTiles := uAt b 10 1, inFmt := uAt b 11 1, kIn := uAt b 12 2, wSize := uAt b 16 4, workSize := uAt b 20 4,
    need := uAt b 24 4, stateSize := uAt b 28 4 }

def bheadOk (b : Bytes) : Bool :=
  let h := bheadOf b
  let tree := decide (h.kind = 0)
  decide (uAt b 0 4 = 0x4c444f4d) && decide (uAt b 4 2 = 1) && decide (h.kind ≤ 2) && decide (uAt b 7 1 < 4)
    && !(h.trainable && tree) && inR h.nSect 1 64 && (if tree then decide (h.nTiles = 0) else inR h.nTiles 1 32)
    && (if tree then decide (h.inFmt = 0 ∧ h.kIn = 0) else decide (h.inFmt ≤ 3) && inR h.kIn 1 1024)
    && rsvZero b 14 2 && decide (h.need % 128 = 0) && (h.trainable || decide (h.stateSize = 0)) && rsvZero b 80 48

/-- A section. -/
structure Sect where
  type : Nat
  off  : Nat
  size : Nat
  dest : Nat
  deriving DecidableEq, Repr

def Sect.bytes (x : Sect) (b : Bytes) : Bytes := slice b x.off x.size

/-- The sections of a bundle. -/
def sectsOf (b : Bytes) : List Sect :=
  (records 16 (bheadOf b).nSect (b.drop 128)).map (fun r =>
    { type := uAt r 0 1, off := uAt r 4 4, size := uAt r 8 4, dest := uAt r 12 4 })

/-- Two sections share no byte. -/
def Sect.apart (x y : Sect) : Bool :=
  decide (x.size = 0 ∨ y.size = 0 ∨ x.off + x.size ≤ y.off ∨ y.off + y.size ≤ x.off)

def apartAll : List Sect → Bool
  | [] => true
  | x :: r => r.all (fun y => x.apart y) && apartAll r

/-- How many sections of a type a bundle holds; none where any number is allowed. -/
def sectCount (h : BHead) (t : Nat) : Option Nat :=
  let tens := b2n (decide (h.kind ≠ 0))
  match t with
  | 1 => some (b2n (decide (h.kind ≠ 1)))
  | 2 | 6 | 7 => some tens
  | 8 | 9 => some (b2n h.trainable)
  | _ => none

/-- A copy section lies inside its region; the other sections have DEST 0. -/
def destOk (h : BHead) (x : Sect) : Bool :=
  match x.type with
  | 3 => decide (x.dest + x.size ≤ h.wSize)
  | 4 => decide (x.dest + x.size ≤ h.workSize)
  | 5 => decide (bitsOf x.dest 28 24 < h.nTiles) && decide (bitsOf x.dest 31 29 = 0 ∧ bitsOf x.dest 23 22 = 0)
      && decide (x.dest % 2 ^ 22 + x.size ≤ h.need)
  | _ => decide (x.dest = 0)

def sectsOk (b : Bytes) : Bool :=
  let h := bheadOf b
  let l := sectsOf b
  decide (128 + 16 * h.nSect ≤ b.length)
    && (records 16 h.nSect (b.drop 128)).all (fun r => rsvZero r 1 3)
    && l.all (fun x => inR x.type 1 9 && decide (x.off % 8 = 0) && decide (x.off + x.size ≤ b.length) && destOk h x)
    && apartAll l
    && (List.range 10).all (fun t => match sectCount h t with
        | some n => decide ((l.filter (fun x => decide (x.type = t))).length = n)
        | none => true)

/-- The one section of a type, or no bytes. -/
def sectOne (b : Bytes) (t : Nat) : Bytes :=
  match (sectsOf b).find? (fun x => decide (x.type = t)) with | some x => x.bytes b | none => []

/-! ### Command lists (09 R283) -/

/-- The kind of a bundle address: 0 where it is none. -/
def bundleKind (a : Nat) : Nat := if isTileAddr a then 0 else bitsOf a 62 60

/-- An address of a list is none, or of a kind that exists, on a tile of the model. -/
def listAddrOk (nt a : Nat) : Bool :=
  let k := bundleKind a
  decide (k ≤ 5) && (decide (k ≠ 5) || decide (bitsOf a 52 48 < nt))

/-- A descriptor of a list: its addresses, and where it writes. -/
def listDescOk (nt : Nat) (b : Bytes) : Bool :=
  [0, 88, 104, 112, 120].all (fun off => listAddrOk nt (uAt b off 8))
    && (!(descOf b).writes || inR (bundleKind (uAt b 0 8)) 2 5)

/-- A command of a list. -/
def listCmdOk (nt : Nat) (b : Bytes) : Bool :=
  let t := tileCmdOf b
  t.rsv && decide (t.tile < nt) && decide (b.length = 64 + 128 * t.ndesc)
    && decide ((t.kind = 0 ∧ t.ndesc = 0) ∨ (t.kind = 1 ∧ t.ndesc = 3) ∨ (t.kind = 2 ∧ t.ndesc = 2))
    && (decide (t.kind ≠ 1) || (decide (t.m ≤ 1048576) && inR t.k 1 65536 && inR t.n 1 65536))
    && decide (t.press = 0 ∨ bundleKind t.press = 2)
    && (decide (t.kind ≠ 1 ∨ t.press ≠ 0) || decide ((t.desc 2).fmt = 4 ∨ (t.desc 2).fmt = 5))
    && (records 128 t.ndesc (b.drop 64)).all (listDescOk nt)

/-- A list is whole commands, 1 to 508 of them, each within its rules. -/
def listOk (nt : Nat) (b : Bytes) : Bool :=
  let l := listCmds b b.length
  inR l.length 1 508 && decide (((l.map List.length).foldl (· + ·) 0) = b.length) && l.all (listCmdOk nt)

/-! ### Maps and training (09 R284 to R286) -/

def inputMapOk (h : BHead) (b : Bytes) : Bool :=
  decide (b.length = 16 * h.kIn)
    && (records 16 h.kIn b).all (fun q => decide (uAt q 0 1 ≤ 127 ∧ uAt q 1 1 ≤ 3) && rsvZero q 2 2 && rsvZero q 12 4)

def outputMapOk (nt : Nat) (b : Bytes) : Bool :=
  decide (b.length = 64) && inR (bundleKind (uAt b 0 8)) 1 5 && listAddrOk nt (uAt b 0 8)
    && [0, 4, 5].contains (uAt b 8 1) && inR (uAt b 9 1) 1 8 && decide (uAt b 10 1 ≤ 31) && rsvZero b 11 1
    && decide (sAt b 24 8 ≤ sAt b 32 8) && decide (1 ≤ uAt b 40 4) && rsvZero b 44 8 && classActOk (slice b 52 8)
    && rsvZero b 60 4

/-- An entry of the training descriptor. -/
def trainEntryOk (r : Bytes) : Bool :=
  decide (bundleKind (uAt r 0 8) = 1 ∧ bundleKind (uAt r 8 8) = 2 ∧ bundleKind (uAt r 16 8) = 3 ∧ uAt r 24 4 % 2048 = 0)
    && rsvZero r 28 4

def trainOk (b : Bytes) : Bool :=
  decide (16 ≤ b.length) && decide (b.length = 16 + 32 * uAt b 0 2) && rsvZero b 2 6 && decide (bundleKind (uAt b 8 8) = 1)
    && (records 32 (uAt b 0 2) (b.drop 16)).all trainEntryOk

/-- The ensemble of a bundle keeps its limits, and is in PACKET mode in a HYBRID. -/
def bundleEnsOk (h : BHead) (b : Bytes) : Bool :=
  match ensembleOf (sectOne b 1) with
  | some e => decide (h.kind = 0) || !e.event
  | none => false

/-- A bundle keeps 09 R281 to R286 and 06 R189. -/
def bundleOk (b : Bytes) : Bool :=
  let h := bheadOf b
  bheadOk b && sectsOk b && (decide (h.kind = 1) || bundleEnsOk h b)
    && (decide (h.kind = 0)
        || (inputMapOk h (sectOne b 2) && listOk h.nTiles (sectOne b 6) && outputMapOk h.nTiles (sectOne b 7)))
    && (!h.trainable || (trainOk (sectOne b 8) && listOk h.nTiles (sectOne b 9)))

end Sys2Proof.Machine
end

