-- ==== Sys2Proof/Machine/Envelope.lean ====
section
/-! DEFINITION. Sealed envelopes (12 R384, R385): what a partition's owner seals to the module. -/

namespace Sys2Proof.Machine

/-- The bytes of an envelope before its ciphertext. -/
def envHead : Nat := 320

/-- ASCII "xaern-xe8". -/
def envInfo : Bytes := [0x78, 0x61, 0x65, 0x72, 0x6e, 0x2d, 0x78, 0x65, 0x38]

/-- The form of an envelope: its magic, its Reserved bytes and its length (log 47). -/
def envForm (b : Bytes) : Bool :=
  decide (envHead ≤ b.length) && decide (uAt b 0 4 = 0x4b504845) && rsvZero b 7 1 && rsvZero b 12 4 && rsvZero b 113 7
    && rsvZero b 217 7 && decide (envHead + uAt b 8 4 ≤ b.length)

/-- The ciphertext. -/
def envCt (b : Bytes) : Bytes := slice b envHead (uAt b 8 4)

/-- The owner's signature stands: for partition 0 the key and the signature are zero and are not checked. -/
def envSigned (s : State) (p : Nat) (b : Bytes) : Bool :=
  let pub := slice b 120 97
  let sig := slice b 224 96
  if p = 0 then allZero pub && allZero sig
  else decide (sha384 pub = (s.part p).ownerHash) && sigVerifies s pub (sha384 (b.take 224 ++ envCt b)) sig

/-- The plaintext of an envelope of a kind for a partition and slot; none where a check fails (12 R385). -/
def openEnvelope (s : State) (kind p slot : Nat) (b : Bytes) : Option Bytes :=
  if envForm b && decide (uAt b 4 1 = kind) && decide (uAt b 5 1 = p) && decide (uAt b 6 1 = slot) && envSigned s p b then
    hpkeOpen s (envInfo ++ b.take 16) (slice b 16 97) (envCt b)
  else none

end Sys2Proof.Machine
end

