-- ==== Sys2Proof/Machine/GraphCmds.lean ====
section
/-! DEFINITION. PARSE_GRAPH_LOAD and PATTERN_LOAD (03 R93 to R98, R105, R108, R110). -/

namespace Sys2Proof.Machine

/-! ### Graph images (03 R94 to R98) -/

/-- A descriptor of an image. -/
def descAt (b : Bytes) : PDesc :=
  { kind := uAt b 2 1, terminal := (byteAt b 3).getLsbD 0, csum := (byteAt b 3).getLsbD 1, fixedLen := uAt b 4 2,
    lenOff := uAt b 6 2, lenWidth := uAt b 8 1, lenShift := uAt b 9 1, lenAdd := uAt b 10 1, selOff := uAt b 12 2,
    selWidth := uAt b 14 1, transFirst := uAt b 16 2, transCount := uAt b 18 2, extrFirst := uAt b 20 2,
    extrCount := uAt b 22 2, next := uAt b 24 2 }

/-- Whether a descriptor index is one of the image, or none. -/
def nextOk (n nDesc : Nat) : Bool := decide (n < nDesc) || decide (n = 0xffff)

/-- A descriptor keeps the limits of 03 R95 and R96. A range of transitions or ops lies within its table also where it is
empty: FIRST is at most the table's count then (DESIGN CHOICE, log 45). -/
def descOk (b : Bytes) (i nDesc nTrans nExtr : Nat) : Bool :=
  let d := descAt b
  decide (uAt b 0 2 = i) && decide (d.kind ≤ 12) && decide (uAt b 3 1 < 4) && decide (d.lenWidth ≤ 16)
    && decide (d.lenShift ≤ 4) && decide (d.lenAdd ≤ 15) && rsvZero b 11 1 && rsvZero b 15 1 && rsvZero b 26 6
    && decide (d.selWidth ≤ 32) && decide (d.transCount ≤ 64) && decide (d.transFirst + d.transCount ≤ nTrans)
    && decide (d.extrCount ≤ 16) && decide (d.extrFirst + d.extrCount ≤ nExtr) && nextOk d.next nDesc
    && (!d.csum || decide (d.kind = 4))
    && (decide (d.kind ≠ 0) || (decide (d.lenOff + d.lenWidth ≤ 8 * d.fixedLen) && decide (d.selOff + d.selWidth ≤ 8 * d.fixedLen)))

/-- A transition and its limits (03 R97). -/
def transAt (b : Bytes) : PTrans := { value := w32 (uAt b 0 4), mask := w32 (uAt b 4 4), next := uAt b 8 2 }
def transOk (b : Bytes) (nDesc : Nat) : Bool := rsvZero b 10 6 && nextOk (uAt b 8 2) nDesc

/-- An extraction op and its limits (03 R98). -/
def extrAt (b : Bytes) : PExtr :=
  { off := uAt b 0 2, width := uAt b 2 1, feat := (byteAt b 3).getLsbD 0, flowKey := (byteAt b 3).getLsbD 2,
    index := uAt b 4 2, op := uAt b 6 1 }
def extrOk (b : Bytes) : Bool :=
  let e := extrAt b
  decide (e.off ≤ 2047) && decide (1 ≤ e.width) && decide (e.width ≤ 32) && decide (uAt b 3 1 < 8)
    && !(byteAt b 3).getLsbD 1 && decide ((if e.feat then 8 else 16) ≤ e.index) && decide (e.index ≤ 63)
    && decide (e.op ≤ 3) && rsvZero b 7 1 && (!e.flowKey || (!e.feat && decide (e.op = 0)))

/-- The successors of a descriptor. -/
def Graph.succ (g : Graph) (d : PDesc) : List Nat :=
  ((if d.selWidth = 0 then [] else (g.transOf d).map (·.next)) ++ [d.next]).filter (fun n => decide (n < g.descs.length))

/-- The record words that a descriptor's FLOW_KEY ops write, as a mask. -/
def Graph.keyMask (g : Graph) (d : PDesc) : Nat :=
  ((g.extrOf d).filter (fun e => e.flowKey)).foldl (fun m e => m ||| 2 ^ e.index) 0

/-- For each descriptor, the sets of FLOW_KEY words that a walk of `n` levels from it can extract. -/
def Graph.keySets (g : Graph) : (n : Nat) → List (List Nat)
  | 0 => g.descs.map (fun _ => [0])
  | n + 1 =>
    let prev := g.keySets n
    g.descs.map (fun d =>
      ((0 :: (g.succ d).flatMap (nth [] prev)).map (fun m => g.keyMask d ||| m)).eraseDups)

/-- The words of a mask. -/
def keyWordCount (m : Nat) : Nat := ((List.range 64).filter (fun i => m.testBit i)).length

/-- The descriptors that a walk can reach `n` levels behind START_DESC. -/
def Graph.reach (g : Graph) : (n : Nat) → List Nat
  | 0 => [g.start]
  | n + 1 => ((g.reach n).flatMap (fun i => ((g.descs[i]?).map g.succ).getD [])).eraseDups

/-- No walk of 16 levels from START_DESC extracts more than 8 FLOW_KEY values, one for each word, behind a fragmenting header
(03 R110; log 44). -/
def Graph.carriedOk (g : Graph) : Bool :=
  (List.range 16).all (fun k =>
    let m := g.keySets (15 - k)
    (g.reach k).all (fun i => match g.descs[i]? with
      | none => true
      | some d => !(decide (d.kind = 4) || decide (d.kind = 7))
          || (g.succ d).all (fun n => (nth [] m n).all (fun x => decide (keyWordCount x ≤ 8)))))

/-- The graph of an image, where the image keeps every limit (03 R94 to R98, 05 R157). -/
def graphOf (b : Bytes) : Option Graph :=
  let nd := uAt b 6 2
  let nt := uAt b 8 2
  let ne := uAt b 10 2
  let nf := uAt b 14 1
  let ds := records 32 nd (b.drop 64)
  let ts := records 16 nt (b.drop (64 + 32 * nd))
  let es := records 8 ne (b.drop (64 + 32 * nd + 16 * nt))
  let g : Graph := { start := uAt b 12 2, descs := ds.map descAt, trans := ts.map transAt, extrs := es.map extrAt,
                     feats := (slice b (64 + 32 * nd + 16 * nt + 8 * ne) nf).map (·.toNat) }
  if b.length = 64 + 32 * nd + 16 * nt + 8 * ne + nf && uAt b 0 4 == 0x47504552 && uAt b 4 2 == 1 && decide (1 ≤ nd)
      && decide (g.start < nd) && rsvZero b 15 49
      && (List.range nd).all (fun i => descOk (nth [] ds i) i nd nt ne) && ts.all (fun t => transOk t nd) && es.all extrOk
      && g.feats.all (fun t => decide (t ≤ 2)) && decide (g.keyWords.length ≤ 14) && g.carriedOk then some g
  else none

/-- A count above its limit (03 R94). -/
def graphTooBig (b : Bytes) : Bool :=
  decide (262144 < b.length) || decide (1024 < uAt b 6 2) || decide (4096 < uAt b 8 2) || decide (16384 < uAt b 10 2)
    || decide (56 < uAt b 14 1)

/-! ### Graph slots (03 R93) -/

/-- A slot is named by a PORT_GRAPH field, active or shadowed, or pinned by a live epoch. -/
def graphInUse (s : State) (n : Nat) : Bool :=
  (List.range 32).any (fun p => decide (s.fval .portGraph p = n))
    || s.epochs.any (fun e => e.2.any (fun x => x.prof.any (fun f =>
        decide (fieldId .portGraph 0 ≤ f.1) && decide (f.1 < fieldId .portGraph 32) && decide (f.2.toNat = n))))

/-- Slots that have been named and no longer are become free. -/
def freeGraphs (s : State) : State :=
  { s with intake := { s.intake with graphs := s.intake.graphs.filter (fun e => !e.2.named || graphInUse s e.1) } }

/-- PARSE_GRAPH_LOAD. -/
def graphLoadWork (c : CmdCtx) (bref : Bref) (digest : Bytes) (s : State) : State :=
  let b := brefRead c bref bref.size s
  let s := freeGraphs (brefCharge c bref bref.size s)
  if sha384 b ≠ digest then finish c .integrityFail [] 0 0 s
  else if graphTooBig b then finish c .capacity [] 0 0 s
  else match lowestFree 1 8 (s.intake.graphs.map (·.1)), graphOf b with
    | none, _ => finish c .capacity [] 0 0 s
    | some _, none => finish c .badParam [] 0 0 s
    | some n, some g =>
      let x : GraphSlot := { owner := c.part, graph := g, named := false }
      finish c .ok (leBytes 1 n) 0 0 { s with intake := { s.intake with graphs := smSet s.intake.graphs n x } }

def execParseGraphLoad (c : CmdCtx) (bref : Bref) (digest : Bytes) (s : State) : Host.Outcome State Fault Refusal :=
  .next (runCmd c 0x120 (brefStatus c bref 0 bref.size) (graphLoadWork c bref digest) s)

/-! ### Pattern sets (03 R105, R108) -/

/-- A pattern record. -/
def patternAt (b : Bytes) : Pattern :=
  { id := uAt b 0 2, nocase := (byteAt b 3).getLsbD 0, anchor := (byteAt b 3).getLsbD 1, group := uAt b 4 1,
    minOff := uAt b 8 2, maxOff := uAt b 10 2, bytes := slice b 16 (uAt b 2 1) }

def patternOk (b : Bytes) : Bool :=
  let p := patternAt b
  decide (1 ≤ uAt b 2 1) && decide (uAt b 2 1 ≤ 64) && decide (uAt b 3 1 < 4) && decide (p.group ≤ 63) && rsvZero b 5 3
    && decide (p.minOff ≤ p.maxOff) && decide (p.maxOff ≤ 1023) && rsvZero b 12 4 && allZero (b.drop (16 + uAt b 2 1))

/-- The patterns of an image. -/
def patternsOf (b : Bytes) : Option (List Pattern) :=
  let n := uAt b 6 4
  let l := records 80 n (b.drop 16)
  if uAt b 0 4 == 0x50415453 && uAt b 4 2 == 1 && rsvZero b 10 6 && decide (b.length = 16 + 80 * n) && l.all patternOk then
    some (l.map patternAt)
  else none

/-- The patterns of the sets of a partition's live epochs; epochs that share a loaded set count it once. -/
def livePatterns : (last : Option Nat) → List Epoch → Nat
  | _, [] => 0
  | k, e :: r => (if k = some e.patId then 0 else e.patterns.length) + livePatterns (some e.patId) r

/-- The patterns of every loaded set, live and pending, but for the pending set of a partition. -/
def patternTotal (s : State) (p : Nat) : Nat :=
  let live := s.epochs.map (fun e => livePatterns none e.2)
  let pend := (s.intake.patPend.filter (fun e => decide (e.1 ≠ p))).map (fun e => e.2.length)
  live.foldl (· + ·) 0 + pend.foldl (· + ·) 0

/-- PATTERN_LOAD fills the pending set. -/
def patternLoadWork (c : CmdCtx) (bref : Bref) (digest : Bytes) (s : State) : State :=
  let b := brefRead c bref bref.size s
  let s := brefCharge c bref bref.size s
  if sha384 b ≠ digest then finish c .integrityFail [] 0 0 s
  else match patternsOf b with
    | none => finish c .badParam [] 0 0 s
    | some l =>
      if 65536 < patternTotal s c.part + l.length then finish c .capacity [] 0 0 s
      else finish c .ok (leBytes 4 l.length) 0 0
        { s with intake := { s.intake with patPend := smSet s.intake.patPend c.part l } }

def execPatternLoad (c : CmdCtx) (bref : Bref) (digest : Bytes) (s : State) : Host.Outcome State Fault Refusal :=
  .next (runCmd c 0x121 (brefStatus c bref 0 bref.size) (patternLoadWork c bref digest) s)

end Sys2Proof.Machine
end

