-- ==== Sys2Proof/Machine/Lookup.lean ====
section
/-! DEFINITION. Stage 3 (04 R121 to R144): the exact-match, LPM and rule lookups of a packet and its rule action,
learning, and the aging sweeper. -/

namespace Sys2Proof.Machine

/-! ### The rule action (04 R125) -/

/-- A later source takes precedence. -/
def overlay (a s : Action) : Action :=
  let a := if s.kind = 0 then a
    else { a with kind := s.kind, port := if s.kind = 2 ∨ s.kind = 4 then s.port else a.port }
  let a := if s.mirrorSet then { a with mirrorSet := true, mirror := s.mirror } else a
  let a := if s.queueSet then { a with queueSet := true, queue := s.queue } else a
  let a := if s.meterSet then { a with meterSet := true, meter := s.meter } else a
  let a := if s.triggerSet then { a with triggerSet := true, trigger := s.trigger } else a
  let a := if s.hostRingSet then { a with hostRingSet := true, hostRing := s.hostRing } else a
  if s.cookie = 0 then a else { a with cookie := s.cookie }

def ruleAction (em lpm rule : Action) (lrnDrop : Bool) : Action :=
  let a := overlay (overlay lpm em) rule
  if lrnDrop then { a with kind := 1 } else a

/-- The action of a lookup's result; a miss is CONTINUE (04 R123). -/
def actOf (e : Option TEntry) : Action := match e with | some x => actionOf x.action | none => {}

/-! ### The three lookups -/

/-- The bank that a packet uses of a table: that of its pinned epoch (09 R290). -/
def Packet.bank (k : Packet) (s : State) (t : Nat) : Nat := nth 0 (k.ep s).banks (bankTable t)

/-- A result that is poisoned invalidates the entry in both banks, and marks the packet (13 R411). -/
def useEntry (e : Option TEntry) (s : State) : Option TEntry × Bool × State :=
  match e with
  | none => (none, false, s)
  | some x => if x.poison then (none, true, invalidate x s) else (some x, false, s)

/-- The exact-match lookup; a hit sets HIT. -/
def exactLookup (k : Packet) (s : State) : Option TEntry × Bool × State :=
  let m := k.fv s .lkEmWords
  if m = 0 then (none, false, s)
  else
    let (e, bad, s) := useEntry (s.tfind 1 k.part (wordKey k.words m 16 32) (k.bank s 1)) s
    match e with
    | some x => (some { x with hit := true }, bad, setHit x s)
    | none => (none, bad, s)

/-- The LPM table of a packet: its family, and none where it performs no lookup (04 R122). -/
def lpmFamily (k : Packet) (s : State) : Option Bool :=
  match bitsOf (k.fv s .lkLpm) 9 8 with
  | 1 => some false
  | 2 => some true
  | 3 => if k.ipKind = 4 then some false else if k.ipKind = 6 then some true else none
  | _ => none

/-- The LPM address of a packet. -/
def lpmAddr (k : Packet) (s : State) (v6 : Bool) : Nat :=
  let w := bitsOf (k.fv s .lkLpm) 5 0
  let x := fun i => (nth 0 k.words (w + i)).toNat
  if v6 then x 0 * 2 ^ 96 + x 1 * 2 ^ 64 + x 2 * 2 ^ 32 + x 3 else x 0

/-- The LPM lookup with its probes. -/
def lpmLookup (k : Packet) (s : State) : Option TEntry × Bool × Nat × State :=
  match lpmFamily k s with
  | none => (none, false, 0, s)
  | some v6 =>
    let b := k.bank s (if v6 then 3 else 2)
    let a := lpmAddr k s v6
    let best := lpmBest s v6 k.part b a
    let (n, fp) := lpmProbes s v6 k.part b a best
    let s := if fp = 0 then s else s.count (.ev k.part .lpmFilterFp) fp
    let (e, bad, s) := useEntry best s
    (e, bad, n, s)

/-- The rule lookup with its probes. -/
def ruleStage (k : Packet) (s : State) : Option TEntry × Bool × Nat × State :=
  let m := k.fv s .lkRuleWords
  if m = 0 then (none, false, 0, s)
  else
    let (best, n) := ruleLookup s k.part (k.bank s 4) (wordKey k.words m 0 64)
    let (e, bad, s) := useEntry best s
    (e, bad, n, s)

/-! ### Learning (04 R139 to R142) -/

/-- LEARNED entries that forward to a port, and its pending requests (04 R141). -/
def learnedCount (s : State) (port : Nat) : Nat :=
  (s.tabs.entries.filter (fun e => decide (e.table = 1) && e.learned && decide ((actionOf e.action).port = port))).length
    + ((s.tabs.learnQ.flatMap (·.2)).filter (fun r => decide (r.port = port))).length

/-- The packet is a learning candidate. -/
def learnCandidate (k : Packet) (s : State) : Bool :=
  decide (s.fval .lrnEn k.port = 1) && decide (k.fv s .lkLrnWords ≠ 0) && decide (k.pass = 1) && decide (k.outcome = 0)

/-- What a request of a packet adds to its port's count: nothing where the port has a pending request for the key,
into which it merges (04 R140, R141). -/
def learnAdds (s : State) (k : Packet) (key : Bytes) : Nat :=
  let same : LearnReq → Bool := fun r => decide (r.part = k.part) && decide (r.port = k.port) && r.key == key
  if (s.tabs.learnQ.flatMap (·.2)).any same then 0 else 1

/-- A learn or move request, unless the port has no room for it: then the packet is an excess packet. -/
def wantLearn (k : Packet) (key : Bytes) (s : State) : Packet × State :=
  if s.fval .lrnLimit k.port ≤ learnedCount s k.port + learnAdds s k key then
    if s.fval .lrnExcess k.port = 0 then ({ k with lrnDrop := true }, s)
    else (k, s.count (.ev k.part .lrnLimitPass))
  else ({ k with learn := some { part := k.part, key := key, port := k.port } }, s)

/-- The learn-key lookup and what follows from it; a packet keeps its request through its later passes (04 R140). -/
def learnLookup (k : Packet) (s : State) : Packet × State :=
  let k := { k with lrnDrop := false, learn := if k.pass = 1 then none else k.learn }
  if !learnCandidate k s then (k, s)
  else
    let key := wordKey k.words (k.fv s .lkLrnWords) 16 32
    match useEntry (s.tfind 1 k.part key (k.bank s 1)) s with
    | (_, true, s) => ({ k with entryBad := true }, s)
    | (none, _, s) => wantLearn k key s
    | (some e, _, s) =>
      let s := setHit e s
      if !e.learned || decide ((actionOf e.action).port = k.port) then (k, s) else wantLearn k key s

/-- Stage 3 of a packet (04 R121 to R126, R139). -/
def lookupStage (k : Packet) (s : State) : State :=
  let (em, bad1, s) := exactLookup k s
  let (lpm, bad2, n, s) := lpmLookup k s
  let (rule, bad3, g, s) := ruleStage k s
  let (k, s) := learnLookup { k with entryBad := k.entryBad || bad1 || bad2 || bad3 } s
  let cycles := max 1 (max (ceilDiv n 4) (ceilDiv g 16))
  let s := if cycles = 1 then s else s.count (.pipe k.pipe .lkpExtra) (cycles - 1)
  let a := ruleAction (actOf em) (actOf lpm) (actOf rule) k.lrnDrop
  s.modPkt k.id (fun _ => { k with rule := a, place := .flow })

def execLookup (pipeline : Nat) (s : State) : Host.Outcome State Fault Refusal :=
  .next (atStage pipeline .lookup lookupStage s)

/-- The action record that learning writes: FORWARD to the port. -/
def learnedAction (port : Nat) : Bytes := leBytes 4 (2 + port * 2 ^ 16) ++ zeros 12

/-- Queue a learn request after stage 7: a pending request of its key takes the later port; a full queue drops it
(04 R140). -/
def queueLearn (r : LearnReq) (s : State) : State :=
  let die := if Config.learnDie (BitVec.ofNat 8 r.part :: r.key) then 1 else 0
  let q := smGet [] s.tabs.learnQ die
  let same := fun (x : LearnReq) => decide (x.part = r.part) && x.key == r.key
  if q.any same then
    let q := updFirst same (fun x => { x with port := r.port }) q
    { s with tabs := { s.tabs with learnQ := smSet s.tabs.learnQ die q } }
  else if q.length < 1024 then { s with tabs := { s.tabs with learnQ := smSet s.tabs.learnQ die (q ++ [r]) } }
  else s.count (.die die 0)

/-- Apply a request: a host-written entry discards it; a learned entry is repointed; else an entry is inserted. -/
def applyLearn (r : LearnReq) (s : State) : State :=
  let b := s.ownBanks r.part 1
  let act := s.activeBank r.part 1
  let n : TEntry := { table := 1, part := r.part, key := r.key, action := learnedAction r.port, ageable := true,
                      learned := true }
  match s.tfind 1 r.part r.key act with
  | none =>
    match putEntry n b s with
    | (some s', _) => s'
    | (none, s) => s.count (.ev r.part .lrnFail)
  | some e =>
    if !e.learned then s
    else if (actionOf e.action).port = r.port then s
    else
      match putEntry { n with ageable := e.ageable } b s with
      | (some s', _) => s'.count (.ev r.part .lrnMove)
      | (none, s) => s.count (.ev r.part .lrnFail)

/-- LEARN_APPLY: a die's learn engine applies its oldest request; one for an entry that is being relocated waits
(04 R129). -/
def learnStep (die : Nat) (s : State) : State :=
  if !s.up then s
  else match smGet [] s.tabs.learnQ die with
    | [] => s
    | r :: q =>
      if s.relocating 1 r.part r.key then s else applyLearn r { s with tabs := { s.tabs with learnQ := smSet s.tabs.learnQ die q } }

def execLearnApply (die : Nat) (s : State) : Host.Outcome State Fault Refusal := .next (learnStep die s)

/-! ### Aging (04 R143, R144) -/

/-- The point of an entry's visit within a period of p seconds, in ns. -/
def visitPoint (key : Bytes) (p : Nat) : Nat := (crc32c key).toNat * p * 1000000000 / 2 ^ 32

/-- The entry's visit in the period that began at `start` is due: its point has come, the active bank held the entry then,
and the sweeper has not visited it in this period. -/
def visitDue (s : State) (start len : Nat) (e : TEntry) : Bool :=
  let t := start + visitPoint e.key len
  decide (t ≤ s.now.toNat) && decide (e.born.toNat ≤ t) && decide (e.seen ≠ some (dw start))

/-- The sweeper visits an entry: it clears HIT, or removes an AGEABLE entry whose HIT is clear at the end of the cycle. An
entry whose HIT a lookup has set in this very cycle is skipped (04 R144). -/
def ageVisit (start : DWord) (e : TEntry) (s : State) : State :=
  let skip := e.hit && decide (e.hitAt = some s.clk.pk)
  let visit : TEntry → TEntry := fun x =>
    if skip then { x with seen := some start } else { x with hit := false, hitAt := none, leaving := !e.hit && e.ageable, seen := some start }
  s.setEntries (updFirst (fun x => decide (x = e)) visit s.tabs.entries)

/-- AGE_SWEEP_VISIT of the EXACT entry in a slot, for a partition whose sweeper runs and in its active bank. -/
def ageSweep (part slot : Nat) (s : State) : State :=
  if !s.up || decide (s.fval .agePeriod part = 0) then s
  else
    let s := rollAge part (s.fval .agePeriod part) s
    let (start, len) := agePhase s part (s.fval .agePeriod part)
    match (s.tbank 1 part (s.activeBank part 1)).find? (fun e => decide (e.slot = slot) && visitDue s start len e) with
    | some e => ageVisit (dw start) e s
    | none => s

def execAgeSweepVisit (part slot : Nat) (s : State) : Host.Outcome State Fault Refusal := .next (ageSweep part slot s)

end Sys2Proof.Machine
end

