-- ==== Sys2Proof/Machine/FlowStage.lean ====
section
/-! DEFINITION. Stage 4 (05 R161, R163, R165, R167, R173, R176, R180, R181) and the flow sweeper (05 R178). -/

namespace Sys2Proof.Machine

/-! ### The per-packet update (05 R163) -/

/-- The bin of a frame length. -/
def sizeBin (len : Nat) : Nat :=
  ([128, 256, 512, 1024, 1519, 2048, 4096].filter (fun e => decide (e ≤ len))).length

/-- Count a value in an entropy estimator. -/
def entAdd (c : List Nat) (v : Word) : List Nat :=
  let k := (crc32c (leBytes 4 v.toNat)).toNat % 8
  let c := if nth 0 c k = 15 then c.map (· / 2) else c
  setNth c k (nth 0 c k + 1)

/-- round(8,192 × n × log2 n), halves rounded up. -/
def nlog (n : Nat) : Nat := if n < 2 then 0 else (Nat.log2 (n ^ (16384 * n)) + 1) / 2

/-- The entropy of an estimator. -/
def entropy (c : List Nat) : Nat :=
  let n := c.foldl (· + ·) 0
  if n = 0 then 0
  else wrapU 16 (divT ((nlog n : Int) - ((c.map nlog).foldl (· + ·) 0 : Nat)) n)

/-- v is less than w by a feature type: U32, S32 or F32 (03 R100). -/
def featLess (ty : Nat) (v w : Word) : Bool :=
  match ty with
  | 0 => decide (v.toNat < w.toNat)
  | 1 => decide (v.toInt < w.toInt)
  | _ => (f32Val v.toNat).lt (f32Val w.toNat)

/-- Apply a flow feature op: SET, ADD, MIN, MAX; the first packet sets MIN and MAX. -/
def ffApply (cur : Word) (op ty : Nat) (first : Bool) (v : Word) : Word :=
  match op with
  | 0 => v
  | 1 => cur + v
  | 2 => if first || featLess ty v cur then v else cur
  | _ => if first || featLess ty cur v then v else cur

/-- The type of feature slot j of a graph. -/
def featType (g : Graph) (j : Nat) : Nat := if j < 8 then 0 else nth 0 g.feats (j - 8)

/-- The smoothed inter-arrival time after a packet. -/
def iatNext (c : FlowCtx) (now : DWord) : Word :=
  if c.pkts = 0 then c.iat
  else
    let d := min (now - c.last).toNat 0x7fffffff
    if c.pkts = 1 then w32 d
    else w32 (wrapU 32 (c.iat.toInt + sra ((d : Int) - c.iat.toInt) 4))

/-- flow_update: a flow's statistics after a packet. -/
def flowUpdate (k : Packet) (s : State) (c : FlowCtx) : FlowCtx :=
  let len := k.frame.length
  let ent := k.fv s .entCfg
  let ff := k.fv s .ffCfg
  let g := s.graph k.graph
  let feat := fun i => nth 0 k.feats i
  let first := decide (c.pkts = 0)
  let b := sizeBin len
  { c with
    iat := iatNext c k.intake, last := k.intake, pkts := c.pkts + 1, bytes := c.bytes + dw len,
    hist := setNth c.hist b (nth 0 c.hist b + 1),
    tcpf := (match k.tcpFlags with
      | some f => (List.range 8).map (fun i => nth 0 c.tcpf i + if f.getLsbD i then 1 else 0)
      | none => c.tcpf),
    entA := entAdd c.entA (feat (bitsOf ent 5 0)), entB := entAdd c.entB (feat (bitsOf ent 13 8)),
    ff0 := ffApply c.ff0 (bitsOf ff 7 6) (featType g (bitsOf ff 5 0)) first (feat (bitsOf ff 5 0)),
    ff1 := ffApply c.ff1 (bitsOf ff 15 14) (featType g (bitsOf ff 13 8)) first (feat (bitsOf ff 13 8)) }

/-! ### Sketches and heavy hitters (05 R180, R181) -/

/-- The index of a key in row r. -/
def sketchIndex (key : Bytes) (r : Nat) : Nat := (crc32c (key ++ [BitVec.ofNat 8 (0x10 + r)])).toNat % 65536
/-- The place of a counter in Flow.sketch. -/
def sketchKeyOf (die k r i : Nat) : Nat := ((die * 4 + k) * 4 + r) * 65536 + i

/-- Add a packet to sketch k, when it counts its owner's packets. -/
def sketchAdd (p : Packet) (s : State) (k : Nat) : State :=
  let cfg := s.fact .sketchKey k
  if s.fval .sketchEn k = 0 ∨ bitsOf cfg 53 48 ≠ p.part then s
  else
    let key := leBytes 1 p.part ++ wordKey p.words (cfg % 2 ^ 48) 16 32
    let n := if cfg.testBit 56 then p.frame.length else 1
    let m := (List.range 4).foldl (fun m r =>
      smMod 0 m (sketchKeyOf (dieOfPipe p.pipe) k r (sketchIndex key r)) (fun v => w32 (min (v.toNat + n) (2 ^ 32 - 1))))
      s.flow.sketch
    { s with flow := { s.flow with sketch := m } }

/-- Add w to a flow of partition p's heavy hitters. -/
def hhUpdate (p : Nat) (fh : DWord) (i : Nat) (w : Nat) (s : State) : State :=
  let l := s.flow.hh
  let mine := l.filter (fun e => decide (e.part = p))
  let l' :=
    if mine.any (fun e => decide (e.fh = fh)) then
      updFirst (fun e => decide (e.part = p) && decide (e.fh = fh)) (fun e => { e with count := e.count + dw w }) l
    else if mine.length < s.fval .hhEntries p then
      l ++ [{ part := p, fh := fh, index := flowIndex i, count := dw w, error := 0 }]
    else match minBy (fun e => e.count.toNat) mine with
      | none => l
      | some m => updFirst (fun e => decide (e = m))
          (fun _ => { part := p, fh := fh, index := flowIndex i, count := m.count + dw w, error := m.count }) l
  { s with flow := { s.flow with hh := l' } }

/-! ### Triggers (05 R173, R176) -/

/-- Add a trigger bit to a packet's events; none where three events name other slots. -/
def addEv (slot bit : Nat) (l : List (Nat × Nat)) : Option (List (Nat × Nat)) :=
  if l.any (fun e => decide (e.1 = slot)) then
    some (l.map (fun e => if e.1 = slot then (e.1, if e.2.testBit bit then e.2 else e.2 + 2 ^ bit) else e))
  else if 3 ≤ l.length then none
  else some (l ++ [(slot, 2 ^ bit)])

def addEvIf (b : Bool) (slot bit : Nat) (l : List (Nat × Nat)) : List (Nat × Nat) :=
  if b then (addEv slot bit l).getD l else l

/-- The FLAGS trigger: a TCP header parsed in full matches EV_FLAG. -/
def flagsHit (k : Packet) (s : State) : Bool :=
  match k.tcpFlags with
  | some f => let v := k.fv s .evFlag; decide (f.toNat &&& bitsOf v 7 0 = bitsOf v 15 8)
  | none => false

/-- The events of a first-pass packet of a tracked flow, but for escalations; `every` is the EVERY_N trigger. -/
def packetEvents (k : Packet) (s : State) (created every : Bool) : List (Nat × Nat) :=
  let ev := k.fv s .evCfg
  let hold := k.fv s .holdCfg
  let slot := bitsOf ev 7 0
  let held := created && hold.testBit 0
  let l := addEvIf held (bitsOf hold 15 8) 0 []
  let l := addEvIf (created && !held && ev.testBit 8) slot 0 l
  let l := addEvIf every slot 1 l
  let l := addEvIf (ev.testBit 11 && flagsHit k s) slot 3 l
  addEvIf k.rule.triggerSet k.rule.trigger 4 l

/-- The hold of a flow that a packet creates (05 R176). -/
def openHold (k : Packet) (i : Nat) (s : State) : State :=
  let cfg := k.fv s .holdCfg
  let h : Hold := { index := i, fh := k.fh, part := k.part, slot := bitsOf cfg 15 8, since := 0, count := 0,
                    limit := bitsOf cfg 7 1, time := bitsOf cfg 21 16 }
  let s := s.modHot i (fun x => { x with hold := true })
  { s with flow := { s.flow with holds := s.flow.holds ++ [h] } }

/-! ### Stage 4 -/

/-- Flow words 64 to 71 of a tracked packet (06 R190). -/
def flowWords (c : FlowCtx) (created hold : Bool) : List Word :=
  [c.iat, w32 (entropy c.entA), w32 (entropy c.entB), c.ff0, c.ff1, (c.pkts.setWidth 16).setWidth 32,
   w32 (vbyteOf c.vkind c.vvalid c.vinvalid), w32 (b2n created * 2 + b2n hold * 4)]

/-- The 64 words of a context. -/
def ctxWords (c : FlowCtx) : List Word := let b := ctxBytes c; (List.range 64).map (fun i => w32 (uAt b (4 * i) 4))

/-- An untracked packet passes stage 4. -/
def passUntracked (k : Packet) (s : State) : State :=
  let s := if k.pass = 1 then s.count (.ev k.part .flowUntracked) else s
  s.enterWick { k with track := 1, flowIdx := none, fw := [0, 0, 0, 0, 0, 0, 0, 1] }

/-- The update of a tracked flow by a first-pass packet; whether EVERY_N fires. -/
def trackedUpdate (k : Packet) (i : Nat) (s : State) : Bool × State :=
  let old := s.merged i
  let c := flowUpdate k s old
  let on := (k.fv s .evCfg).testBit 9
  let cnt := c.eventCnt - 1
  let every := on && decide (cnt = 0)
  let c := if on then { c with eventCnt := if cnt = 0 then h16 (k.fv s .evEveryN) else cnt } else c
  let s := storeView i old c s
  (every, if old.bytes >>> 16 = c.bytes >>> 16 then s else hhUpdate k.part k.fh i 65536 s)

/-- A tracked packet passes stage 4. -/
def passTracked (k : Packet) (i : Nat) (s : State) : State :=
  let first := decide (k.pass = 1)
  let created := k.isNew && first
  let (every, s) := if first then trackedUpdate k i s else (false, s)
  let s := if created && (k.fv s .holdCfg).testBit 0 then openHold k i s else s
  let c := s.merged i
  s.enterWick { k with
    track := 3, flowIdx := some i, flowGen := c.gen.toNat, fw := flowWords c k.isNew (s.holdOf i).isSome,
    snap := ctxWords c, evs := if first then packetEvents k s created every else [] }

/-- A packet waits in the miss buffer of its stage (05 R165). -/
def toMiss (k : Packet) (s : State) : State := (requestFlow k s).moveTo k.id .miss

/-- The 256 places of a pipeline's miss buffer are taken. -/
def missFull (s : State) (p : Nat) : Bool :=
  decide (256 ≤ (s.pkts.filter (fun x => decide (x.pipe = p) && decide (x.place = .miss))).length)

/-- FLOW_STAGE of a packet: while the miss buffer is full, stage 4 takes none. -/
def flowStage (k : Packet) (s : State) : State :=
  let sk := fun (s : State) => if k.pass = 1 then (List.range 4).foldl (sketchAdd k) s else s
  if missFull s k.pipe then s
  else if k.fv s .flowEn = 0 ∨ k.track = 1 then passUntracked k (sk s)
  else match s.hotIn k.pipe k.fh, k.track, k.flowIdx with
    | some h, _, _ => passTracked k h.index (cacheBytes h.slice true (decide (k.pass = 1)) (sk s))
    | none, 2, some i => passTracked k i (sk s)
    | none, _, _ => toMiss k s

def execFlowStage (pipeline : Nat) (s : State) : Host.Outcome State Fault Refusal :=
  .next (atStage pipeline .flow flowStage s)

/-! ### The sweeper (05 R178, R179) -/

/-- The first time after now on a timer's raster. -/
def nextTimer (t now period : Nat) : Nat := if period = 0 ∨ now < t then t else t + ((now - t) / period + 1) * period

/-- The TIMER event of a flow: to EV_SLOT of the newest epoch, with zeros for the features. -/
def timerEvent (i : Nat) (s : State) : State :=
  let c := s.merged i
  let e := s.curEpoch c.part
  let ev := makeEvent c.part i c 4 s.now e.num []
  let s := (raiseEvent (bitsOf (e.fval .evCfg c.part) 7 0) ev s).2
  let x := s.ctx i
  s.setCtx i { x with nextTimer := dw (nextTimer x.nextTimer.toNat s.now.toNat (s.fval .evTimer c.part * 1000000)) }

/-- A flow has been idle for longer than its limit. -/
def idleFlow (s : State) (c : FlowCtx) : Bool :=
  let lim := if c.closing then s.fval .flowCloseIdle c.part else s.fval .flowIdle c.part
  !c.hot && !c.noExpire && decide (lim * 1000000000 < (s.now - c.last).toNat)

/-- A walk of the table that has lasted FLOW_SWEEP is over, and the next begins (05 R178; log 107). -/
def sweepRoll (s : State) : State :=
  let p := s.fval .flowSweep 0 * 1000000
  let t := s.flow.sweepFrom.toNat
  if t + p ≤ s.now.toNat then
    { s with flow := { s.flow with sweepFrom := dw (t + (s.now.toNat - t) / p * p), swept := [] } }
  else s

/-- A fill of a context has been read and is to become hot (05 R179). -/
def fillPending (s : State) (i : Nat) : Bool := s.flow.reqs.any (fun r => !r.waiting && decide (r.found = some i))

/-- The TIMER event of a context whose time has passed. -/
def timerDue (i : Nat) (s : State) : State :=
  let c := s.ctx i
  if c.nextTimer ≠ 0 ∧ c.nextTimer.toNat < s.now.toNat then timerEvent i s else s

/-- The sweeper's visit of index i: a context of this module's table, unless a node that holds it raises its events, and
those of other homes that this module holds under that index (11 R358). A poisoned context is the agent's concern. -/
def sweepVisit (i : Nat) (s : State) : State :=
  let c := s.ctx i
  let s := if c.valid && (s.leaseOf i).isNone then timerDue i s else s
  let s := (s.flow.held.filter (fun l => decide (flowIndex l.index = i))).foldl (fun s l => timerDue l.index s) s
  if c.valid && idleFlow s c && !fillPending s i then (removeFlow i s).count (.ev c.part .flowExpired) else s

/-- FLOW_SWEEP: the sweeper visits an index that it has not visited in its present walk. -/
def flowSweep (i : Nat) (s : State) : State :=
  if !s.up || decide (2 ^ 24 ≤ i) then s
  else
    let s := sweepRoll s
    if s.flow.swept.contains i then s
    else sweepVisit i { s with flow := { s.flow with swept := s.flow.swept ++ [i] } }

def execFlowSweep (index : Nat) (s : State) : Host.Outcome State Fault Refusal := .next (flowSweep index s)

end Sys2Proof.Machine
end

