-- ==== Sys2Proof/Machine/Wicker.lean ====
section
/-! DEFINITION. Stage 5 (06 R183, R185, R190, R196 to R201): the per-packet ensembles of a packet, escalations, the
release of its flow events (05 R174), and its hold (05 R176, R177). -/

namespace Sys2Proof.Machine

/-- The evaluators in service of an engine (06 R185). -/
def State.evaluators (s : State) (k : Nat) : Nat :=
  512 - 32 * ((List.range 16).filter (fun g => s.isFenced (wickUnit (16 * k + g)))).length

/-- What stage 5 gathers over a packet's ensembles. -/
structure WkRun where
  results : List WkResult
  evs     : List (Nat × Nat)
  left    : Nat
  used    : Nat
  deriving DecidableEq, Repr

/-- The evaluation asks for an escalation (06 R201). -/
def escalates (e : Ensemble) (theta : Int) (r : Eval) (cls : Nat) : Bool :=
  e.escEn && (classEsc e.classAct cls
    || (decide (e.nOut = 1) && decide (theta - e.escMargin ≤ nth 0 r.sums 0) && decide (nth 0 r.sums 0 < theta)))

/-- Evaluate one per-packet ensemble for a packet (06 R196, R199 to R201). -/
def evalSlot (k : Packet) (feat : List Word) (w : WkRun) (n : Nat) (s : State) : WkRun × State :=
  let x := s.slot n
  match x.ens with
  | none => (w, s)
  | some e =>
    let r := evaluate e feat (min e.budget w.left)
    let (cls, score) := decideClass r.sums e.nOut x.thr.theta e.outShift
    let invalid := r.poison || (r.nan && e.nanTrap)
    let first := decide (k.pass = 1)
    let s := countEval n k.part e r cls (first && decide (e.nOut = 1)) s
    let s := if r.cut then s.count (.slot n .wkCut) else s
    let res : WkResult := { slot := n, valid := !invalid, invalid := invalid, cut := r.cut,
                            kind := classKind e.classAct cls, cls := cls, score := score }
    let w := { w with results := w.results ++ [res], left := w.left - r.used, used := w.used + r.used }
    if first && decide (k.track ≠ 1) && !invalid && escalates e x.thr.theta r cls then
      match addEv e.escSlot 5 w.evs with
      | some l => ({ w with evs := l }, s)
      | none => (w, s.count (.slot n .escDrop))
    else (w, s)

/-- Evaluate the slots that the packet's epoch names, in ascending order. -/
def evalSlots (k : Packet) (feat : List Word) : List Nat → WkRun → State → WkRun × State
  | [], w, s => (w, s)
  | n :: r, w, s => let (w, s) := evalSlot k feat w n s; evalSlots k feat r w s

/-- The per-packet slots of an epoch, ascending. -/
def Epoch.wkSlots (e : Epoch) : List Nat := sortBy (fun a b => decide (a < b)) (e.slots.filter (fun n => decide (n < 255)))

/-- The event of a packet for a slot. -/
def packetEvent (k : Packet) (mask : Nat) (now : DWord) : Event :=
  { part := k.part, index := k.flowIdx.getD 0, gen := h16 k.flowGen, mask := mask, ft := now, epoch := k.epoch,
    words := k.snap ++ (List.range 64).map (fun j => nth 0 k.feats j) }

/-- Release a packet's events; a discarded NEW event for the hold's slot closes the hold (05 R176). -/
def releaseEvents (k : Packet) : List (Nat × Nat) → State → State
  | [], s => s
  | (n, mask) :: r, s =>
    let (took, s) := raiseEvent n (packetEvent k mask s.now) s
    let i := k.flowIdx.getD 0
    let s := match s.holdOf i with
      | some h => if !took && decide (h.slot = n) && mask.testBit 0 then closeHold i .late s else s
      | none => s
    releaseEvents k r s

/-- A first-pass packet of a flow whose hold is open waits in it, or closes it as packet HOLD_N + 1 (05 R176). -/
def holdPacket (k : Packet) (i : Nat) (h : Hold) (s : State) : State :=
  if h.count < h.limit then
    let since := if h.count = 0 then s.now else h.since
    let hs := updFirst (fun x => decide (x.index = i)) (fun x => { x with count := h.count + 1, since := since }) s.flow.holds
    let s := { s with flow := { s.flow with holds := hs } }
    if s.holdRoom k.frame.length then s.moveTo k.id (.flowHold i) else dropPkt .holdNobuf k s
  else
    (closeHold i .late s).moveTo k.id .merge

/-- Where a packet goes from stage 5. -/
def leaveWicker (k : Packet) (s : State) : State :=
  match k.pass, k.flowIdx with
  | 1, some i => match s.holdOf i with
    | some h => holdPacket k i h s
    | none => s.moveTo k.id .merge
  | _, _ => s.moveTo k.id .merge

/-- WICKER_EVAL of a packet. -/
def wickerStage (k : Packet) (s : State) : State :=
  let start : WkRun := { results := [], evs := k.evs, left := k.fv s .wkBudget, used := 0 }
  let (w, s) := evalSlots k (k.feats.take 64 ++ k.fw) (k.ep s).wkSlots start s
  let cycles := max 1 (ceilDiv w.used (s.evaluators k.pipe))
  let s := if cycles = 1 then s else s.count (.pipe k.pipe .wkExtra) (cycles - 1)
  let k := { k with wk := w.results, evs := [] }
  let s := s.modPkt k.id (fun _ => k)
  releaseEvents k (if k.pass = 1 then w.evs else []) (leaveWicker k s)

def execWickerEval (pipeline : Nat) (s : State) : Host.Outcome State Fault Refusal :=
  .next (atStage pipeline .wicker wickerStage s)

end Sys2Proof.Machine
end

