-- ==== Sys2Proof/Machine/Merge.lean ====
section
/-! DEFINITION. Stages 6 and 7 (10 R305 to R317, 09 R292, R293): the verdict merge, the resolved action, its copies,
and host packet rings. -/

namespace Sys2Proof.Machine

/-! ### Stage 6 (10 R305, R306) -/

/-- The rank of a KIND: CONTINUE, FORWARD, FORWARD_HOST, HOST, DROP. -/
def kindRank (k : Nat) : Nat := nth 0 [0, 4, 1, 3, 2] k

/-- The stronger of two kinds. -/
def stricter (x y : Nat) : Nat := if kindRank x < kindRank y then y else x

/-- The packet's flow is still there. -/
def standingFlow (k : Packet) (s : State) : Bool :=
  match k.flowIdx with
  | some i => decide (k.track ≠ 1) && (s.ctx i).valid && decide ((s.ctx i).gen = h16 k.flowGen)
  | none => false

/-- The standing verdict as a packet reads it: none for an untracked packet, or once its flow has gone. -/
def standing (k : Packet) (s : State) : Option FlowCtx :=
  match k.flowIdx with
  | some i =>
    let c := s.merged i
    if standingFlow k s && c.vvalid then some c else none
  | none => none

/-- The models' opinion. -/
def modelKind (k : Packet) (s : State) : Nat :=
  let vinv := s.fval .portVinvAct k.port
  let mk := k.wk.foldl (fun m r =>
    if r.invalid then stricter m vinv else if r.valid then stricter m r.kind else m) 0
  match k.close, standing k s with
  | .late, _ => stricter mk (s.fval .portVlateAct k.port)
  | .invalid, _ => stricter mk vinv
  | .none, some c => stricter mk (if c.vinvalid then vinv else c.vkind)
  | .none, none => mk

/-- The merged kind and CAUSE under the default of the parse outcome (03 R104). -/
def outcomeKind (outAct kind : Nat) : Nat × Nat :=
  match outAct with
  | 1 => (1, 0)
  | 2 => (3, 1)
  | 3 => if kind = 2 then (4, 1) else if kind = 0 ∨ kind = 1 then (3, 1) else (kind, 0)
  | _ => (kind, 0)

/-- VERDICT_MERGE of a packet. -/
def mergeStage (k : Packet) (s : State) : State :=
  let final := (k.fv s .mergeCfg).testBit 0 && decide (k.rule.kind ≠ 0)
  let kind := if final then k.rule.kind else stricter k.rule.kind (modelKind k s)
  let (kind, cause) := outcomeKind (if k.outcome = 0 then 0 else k.outAct) kind
  s.modPkt k.id (fun _ => { k with merged := { k.rule with kind := kind }, cause := cause, place := .action })

def execVerdictMerge (pipeline : Nat) (s : State) : Host.Outcome State Fault Refusal :=
  .next (atStage pipeline .merge mergeStage s)

/-! ### Drops at stage 7 (03 R111) -/

/-- The action of a first fragment is a drop: its entry takes the DROP mark (03 R111). -/
def markFrag (k : Packet) (s : State) : State :=
  match k.fragEntry with
  | some i => match smFind s.intake.frags i with
    | some e => s.setFrag i { e with drop := true }
    | none => s
  | none => s

/-- A packet is dropped at stage 7. -/
def dropAct (r : DropCtr) (k : Packet) (s : State) : State := markFrag k (dropPkt r k s)

/-! ### Recirculation (10 R310, 09 R292, R293) -/

/-- A frame with its FCS made anew over its other bytes. -/
def withFcs (b : Bytes) : Bytes := b ++ leBytes 4 (crc32eth b).toNat

/-- The pass asks for another. -/
def recirculates (k : Packet) (s : State) : Bool :=
  let cfg := k.fv s .recircCfg
  cfg.testBit 5 && k.merged.cookie.getLsbD (bitsOf cfg 4 0) && decide (k.merged.kind ≠ 1)

/-- Put a packet of a new pass ahead of the packets that wait at REED of its pipeline. -/
def aheadOf (k : Packet) : List Packet → List Packet
  | [] => [k]
  | x :: r => if x.pipe = k.pipe ∧ x.place = .reed ∧ x.pass = 1 then k :: x :: r else x :: aheadOf k r

/-- The packet goes round again without its first S bytes; at REED its flow is looked up anew (05 R165). -/
def nextPass (k : Packet) (strip : Nat) (s : State) : State :=
  let f := (k.frame.take (k.frame.length - 4)).drop strip
  let k := { k with frame := withFcs f, pass := k.pass + 1, place := .reed, track := 0, flowIdx := none,
                    wk := [], evs := [], close := .none }
  requestFlow k (s.setPkts (aheadOf k (s.pkts.filter (fun x => decide (x.id ≠ k.id)))))

def recirculate (k : Packet) (s : State) : State :=
  let n := bitsOf (k.fv s .recircCfg) 11 8
  if k.fv s .recircMax ≤ k.pass then dropAct .recircLimit k s
  else if k.levels ≤ n then dropAct .recircStrip k s
  else nextPass k (if n = 0 then 0 else nth 0 k.offs n) s

/-- An earlier packet of the flow is on a recirculation pass. -/
def mustWait (k : Packet) (s : State) : Bool :=
  s.pkts.any (fun x => decide (x.id < k.id) && decide (x.fh = k.fh) && decide (1 < x.pass))

/-! ### Forwarded copies (10 R308, R312, R327) -/

/-- Whether a packet's destination port takes a forwarded copy, or why not. -/
def destination (k : Packet) (s : State) : Option DropCtr :=
  if k.rule.kind ≠ 2 ∧ k.rule.kind ≠ 4 then some .noRoute
  else if s.portOwner k.merged.port ≠ k.part then some .portForeign
  else if s.portCount ≤ k.merged.port ∨ !s.portEn k.merged.port then some .portDown
  else none

/-- The pre-colour of a packet: 0 green, 1 yellow, 2 red. -/
def preColour (k : Packet) (s : State) : Nat :=
  let cfg := k.fv s .mtrColorSrc
  if cfg.testBit 6 then min (nth 0 k.feats (bitsOf cfg 5 0)).toNat 2 else 0

/-- LASTQ of the packet's flow becomes Q; the queue that a barrier must name. -/
def takeLastq (k : Packet) (q : Nat) (s : State) : Option Nat × State :=
  match (if (standingFlow k s) then k.flowIdx else none), k.track with
  | some i, 3 =>
    let c := s.merged i
    let b := match c.lastq with | some o => if o ≠ q ∧ o / 128 = q / 128 then some o else none | none => none
    (b, match s.hotOf i with
        | some _ => s.modHot i (fun h => { h with lastq := some q })
        | none => s.setCtx i { s.ctx i with lastq := some q })
  | some i, 2 =>
    let c := s.ctx i
    let b := match c.lastq with | some o => if o ≠ q ∧ o / 128 = q / 128 then some o else none | none => none
    (b, s.setCtx i { c with lastq := some q })
  | _, _ => (none, s)

/-- A copy leaves for its port, over the bridge where that is on the other die. -/
def pushCopy (k : Packet) (c : Copy) (s : State) : State :=
  let s := countBridge (dieOfPipe k.pipe) (s.engineOf c.port / 2) c.frame.length s
  { s with egr := { s.egr with copies := s.egr.copies ++ [c] } }

/-- Send the forwarded copy. -/
def forwardCopy (k : Packet) (s : State) : State :=
  let a := k.merged
  let q := a.port * 128 + (if a.queueSet then a.queue else s.fval .portDefQueue a.port)
  let (b, s) := takeLastq k q s
  let c : Copy := { port := a.port, queue := q, meter := if a.meterSet then some a.meter else none, pre := preColour k s,
                    frame := k.frame, part := k.part, fh := k.fh, tracked := decide (k.track ≠ 1), mirror := false,
                    barrier := b.toList, poison := k.poison }
  pushCopy k c s

/-- Step 2: whether a forwarded copy goes out. -/
def stepForward (k : Packet) (s : State) : Bool × State :=
  if k.merged.kind ≠ 2 ∧ k.merged.kind ≠ 4 then (false, s)
  else match destination k s with
    | some r => (false, s.dropped k.part r)
    | none => (true, forwardCopy k s)

/-! ### Host copies (10 R313 to R315) -/

/-- The record of a host copy. -/
def hostRecord (k : Packet) (snap : Nat) (fwd : Bool) : Bytes :=
  let len := k.frame.length
  let cap := min len snap
  let b := leBytes 8 k.intake.toNat ++ leBytes 2 cap ++ leBytes 2 len ++ leBytes 1 k.port
    ++ leBytes 1 (k.part % 64 + b2n fwd * 64 + b2n (decide (cap < len)) * 128) ++ leBytes 1 k.outcome ++ leBytes 1 k.cause
    ++ leBytes 4 k.merged.cookie.toNat
    ++ leBytes 4 (match k.flowIdx with | some i => flowIndex i | none => 0xffffffff) ++ leBytes 2 k.epoch ++ zeros 6
    ++ k.frame.take cap
  fitTo (ceilDiv b.length 32 * 32) b

/-- Write a word of a ring's control block. -/
def hringPut (h : HostRing) (off : Nat) (v : Word) (s : State) : State :=
  let a := h.bref.addr.toNat + off
  if h.bref.loc = 1 then s.hbmWrite (h.part.getD 0) a (leBytes 4 v.toNat) else s.hostWrite a (leBytes 4 v.toNat)

/-- A copy dropped for lack of space in its ring or FIFO. -/
def hostFull (n part : Nat) (s : State) : State :=
  let h := s.hring n
  let h := { h with fullDrops := h.fullDrops + 1 }
  (hringPut h 4 h.fullDrops (s.setHring n h)).dropped part .hostpktFull

/-- A host copy enters the FIFO of its ring on the pipeline's die. -/
def hostCopy (k : Packet) (n : Nat) (fwd : Bool) (s : State) : State :=
  let h := s.hring n
  if h.part ≠ some k.part ∨ h.closing then s.dropped k.part .hostpktNoring
  else if k.poison then s.dropped k.part .poison
  else
    let rec_ := hostRecord k h.snap fwd
    let die := dieOfPipe k.pipe
    let used := ((h.fifo.filter (fun x => decide (x.die = die))).map (fun x => x.data.length)).foldl (· + ·) 0
    if 262144 < used + rec_.length then hostFull n k.part s
    else s.setHring n { h with fifo := h.fifo ++ [{ die := die, part := k.part, data := rec_ }] }

/-- Step 3: the host copy of a packet. -/
def stepHost (k : Packet) (fwd : Bool) (s : State) : State :=
  if k.merged.kind ≠ 3 ∧ k.merged.kind ≠ 4 then s
  else
    let v := s.fval .portHostRing k.port
    if k.merged.hostRingSet then hostCopy k k.merged.hostRing fwd s
    else if v.testBit 6 then hostCopy k (bitsOf v 5 0) fwd s
    else s.dropped k.part .hostpktNoring

/-! ### Mirror copies (10 R316) -/

/-- Step 4: the mirror copy. -/
def stepMirror (k : Packet) (s : State) : State :=
  if !k.merged.mirrorSet then s
  else
    let m := s.fval .mirror k.merged.mirror
    let port := bitsOf m 4 0
    let owner := bitsOf m 31 26
    let trunc := bitsOf m 25 12
    if !m.testBit 32 || decide (owner ≠ k.part) || decide (s.portOwner port ≠ owner) then s.dropped k.part .mirrorForeign
    else if s.portCount ≤ port ∨ !s.portEn port then s.dropped k.part .portDown
    else
      let body := k.frame.take (k.frame.length - 4)
      let c : Copy := { port := port, queue := port * 128 + bitsOf m 11 5, meter := none, pre := 0,
                        frame := withFcs (if trunc = 0 then body else body.take trunc), part := k.part, fh := k.fh,
                        tracked := true, mirror := true, barrier := [], poison := k.poison }
      pushCopy k c s

/-! ### Stage 7 (10 R308, R309, R317) -/

/-- The drop reason of a parse outcome. -/
def outcomeDrop (o : Nat) : DropCtr :=
  match o with
  | 1 => .depthExceeded
  | 2 => .lengthConflict
  | 3 => .unknownHeader
  | 4 => .fragOrphan
  | _ => .fragTableFull

/-- Why a packet of kind DROP is dropped. -/
def dropReason (k : Packet) : DropCtr :=
  if k.outcome ≠ 0 ∧ k.outAct = 1 then outcomeDrop k.outcome
  else if k.lrnDrop then .lrnLimitDrop
  else if k.rule.kind = 1 then .ruleDrop
  else .modelDrop

/-- What follows a packet's last pass: the mark of a dropped first fragment, or the learn request (03 R111,
04 R140). -/
def afterAct (k : Packet) (gone : Bool) (s : State) : State :=
  if gone then markFrag k s
  else match k.learn with
    | some r => queueLearn r s
    | none => s

/-- Steps 2 to 4 on a packet's last pass. -/
def lastPass (k : Packet) (s : State) : State :=
  let s := match k.merged.kind with
    | 0 => s.dropped k.part .noRoute
    | 1 => s.dropped k.part (dropReason k)
    | _ => s
  let (fwd, s) := stepForward k s
  let gone := decide (k.merged.kind = 0) || decide (k.merged.kind = 1) || (decide (k.merged.kind = 2) && !fwd)
  afterAct k gone (removePkt k (stepMirror k (stepHost k fwd s)))

/-- The reorder buffer takes a packet: among its 1,024, or with HAMPER's cells (09 R293, 10 R323). -/
def reorderRoom (k : Packet) (s : State) : Bool :=
  let n := (s.pkts.filter (fun x => decide (x.place = .reorder) && decide (x.pipe = k.pipe))).length
  decide (n < 1024) || s.spillRoom k.part (cellsFor k.frame.length)

/-- PACKET_ACTION of a packet; one that hit a poisoned entry is dropped at once (13 R411). A packet for
which the reorder buffer is full stays, and stage 7 with it (log 85). -/
def actStage (k : Packet) (s : State) : State :=
  if k.entryBad then dropAct .poison k s
  else if recirculates k s then recirculate k s
  else if mustWait k s then (if reorderRoom k s then s.moveTo k.id .reorder else s)
  else lastPass k s

/-- The packet that stage 7 takes: the first that is not waiting for an earlier one of its flow. -/
def nextAction (p : Nat) (s : State) : Option Packet :=
  s.pkts.find? (fun k => decide (k.pipe = p) && !behindMark s k.id
    && (decide (k.place = .action) || (decide (k.place = .reorder) && !mustWait k s)))

def execPacketAction (pipeline : Nat) (s : State) : Host.Outcome State Fault Refusal :=
  .next (if !s.up then s else match nextAction pipeline s with | some k => actStage k s | none => s)

/-! ### Writing host copies (10 R315) -/

/-- Write bytes into the data area of a host packet ring, wrapping. -/
def hringData (h : HostRing) (b : Bytes) (s : State) : State :=
  ringPut s (decide (h.bref.loc = 1)) (h.part.getD 0) (h.bref.addr.toNat + 64) (h.bref.size - 64) h.write b

/-- The space of a ring as the cached READ shows it. -/
def hringSpace (h : HostRing) : Nat := h.bref.size - 64 - dist h.read h.write

/-- Read READ again, when it is due and the ring shows too little space. -/
def refreshRead (n need : Nat) (s : State) : State :=
  let h := s.hring n
  let due := match h.readAt with | none => true | some t => decide (t.toNat + 1000 ≤ s.now.toNat)
  if decide (hringSpace h < need) && due then
    let a := h.bref.addr.toNat + 8
    let b := if h.bref.loc = 1 then s.hbmRead (h.part.getD 0) a 4 else s.hostRead a 4
    s.setHring n { h with read := w32 (leNat b), readAt := some s.now }
  else s

/-- The record and then WRITE, or a drop for lack of space. -/
def hringWrite (n : Nat) (x : HostCopy) (s : State) : State :=
  let s := refreshRead n x.data.length s
  let h := s.hring n
  if hringSpace h < x.data.length then hostFull n x.part s
  else
    let w := h.write + w32 x.data.length
    hringPut h 0 w ((hringData h x.data s).setHring n { h with write := w })

/-- HOST_COPY_WRITE: the oldest copy of a ring's FIFOs is written, or dropped where it is poisoned (13 R411); an emptied ring
that closes is unbound. -/
def hostCopyWrite (n : Nat) (s : State) : State :=
  let h := s.hring n
  match s.up, h.fifo with
  | true, x :: r =>
    let s := s.setHring n { h with fifo := r }
    let s := if x.poison then s.dropped x.part .poison else hringWrite n x (countBridge x.die 0 x.data.length s)
    if h.closing && r.isEmpty then s.setHring n {} else s
  | _, _ => s

def execHostCopyWrite (ring : Nat) (s : State) : Host.Outcome State Fault Refusal := .next (hostCopyWrite ring s)

end Sys2Proof.Machine
end

