-- ==== Sys2Proof/Machine/Egress.lean ====
section
/-! DEFINITION. Stage 8 (10 R323 to R340): meters, admission, barriers, shapers, time gates, selection and
transmission, and queue samples. -/

namespace Sys2Proof.Machine

def State.setEgr (s : State) (e : Egress) : State := { s with egr := e }

/-! ### Meters (10 R327 to R329) -/

/-- The units of a token level: 1/8,000,000 byte. -/
def tok : Nat := 8000000

def State.meter (s : State) (m : Nat) : Meter := smGet {} s.egr.meters m
def State.setMeter (s : State) (m : Nat) (x : Meter) : State := s.setEgr { s.egr with meters := smSet s.egr.meters m x }

/-- The buckets of a meter at a time. -/
def Meter.refill (m : Meter) (now : DWord) : Meter :=
  let dt := (now - m.last).toNat
  if m.mode.getLsbD 0 then
    { m with tc := min (m.tc + m.cir * dt) (m.cbs * tok), te := min (m.te + m.eir * dt) (m.ebs * tok), last := now }
  else
    let t := m.tc + m.cir * dt
    let tc := min t (m.cbs * tok)
    { m with tc := tc, te := min (m.te + (t - tc)) (m.ebs * tok), last := now }

/-- The colour of a frame of cost units, and the buckets after it: 0 green, 1 yellow, 2 red. -/
def Meter.spend (m : Meter) (pre cost : Nat) : Nat × Meter :=
  let pre := if m.mode.getLsbD 1 then pre else 0
  if m.mode.getLsbD 0 then
    if pre = 2 ∨ m.te < cost then (2, m)
    else if pre = 1 ∨ m.tc < cost then (1, { m with te := m.te - cost })
    else (0, { m with te := m.te - cost, tc := m.tc - cost })
  else if pre = 0 ∧ cost ≤ m.tc then (0, { m with tc := m.tc - cost })
  else if pre ≠ 2 ∧ cost ≤ m.te then (1, { m with te := m.te - cost })
  else (2, m)

/-- Count a frame of a colour: packets, then bytes. -/
def Meter.note (m : Meter) (colour bytes : Nat) : Meter :=
  let c := setNth m.counts colour (nth 0 m.counts colour + 1)
  { m with counts := setNth c (3 + colour) (nth 0 c (3 + colour) + dw bytes) }

/-- The colour of a copy; a meter of another partition is ignored. -/
def meterCopy (c : Copy) (s : State) : Nat × State :=
  match c.meter with
  | none => (0, s)
  | some m =>
    if s.meterOwner m ≠ c.part then (0, s.count (.ev c.part .meterForeign))
    else
      let (col, x) := ((s.meter m).refill s.now).spend c.pre (c.frame.length * tok)
      (col, s.setMeter m (x.note col c.frame.length))

/-! ### Queues and time gates (10 R334 to R338) -/

/-- The frames of a queue. -/
def Queue.frames (q : Queue) : List QItem := q.items.filter (fun i => i.marker.isNone)
def Queue.depth (q : Queue) : Nat := (q.frames.map (fun i => i.frame.length)).foldl (· + ·) 0
def Queue.head? (q : Queue) : Option QItem := q.items.head?

/-- The length of a gate cycle's segments: the masks in order, cut at the cycle's end; the last lasts until it. -/
def gateSegs : (left : Nat) → List (BitVec 128 × Nat) → List (BitVec 128 × Nat)
  | _, [] => []
  | left, [(m, _)] => [(m, left)]
  | left, (m, n) :: r => if left ≤ n then [(m, left)] else (m, n) :: gateSegs (left - n) r

/-- The mask at an offset of the cycle. -/
def maskAt : (off : Nat) → List (BitVec 128 × Nat) → BitVec 128
  | _, [] => 0
  | off, (m, n) :: r => if off < n then m else maskAt (off - n) r

/-- Queue q's gate of a list is open at a time in ns. -/
def Gcl.openAt (g : Gcl) (q t : Nat) : Bool :=
  (maskAt ((t - g.takeover.toNat) % g.cycle) (gateSegs g.cycle g.entries)).getLsbD q

/-- The list in force at a time: a pending list from its takeover on. -/
def gclAt (s : State) (port t : Nat) : Option Gcl :=
  match smFind s.egr.gclPend port with
  | some g => if g.takeover.toNat ≤ t then some g else smFind s.egr.gcl port
  | none => smFind s.egr.gcl port

/-- Gates apply to a port. -/
def gatesOn (s : State) (port : Nat) : Bool := decide (s.fact .gateEn port = 1)

/-- The gate of a port's queue q is open at a time. -/
def gateOpen (s : State) (port q t : Nat) : Bool :=
  !gatesOn s port || (match gclAt s port t with | some g => g.openAt q t | none => true)

/-- The longest run of open segments, with the run in progress. -/
def longestRun (q : Nat) : List (BitVec 128 × Nat) → (run best : Nat) → Nat
  | [], run, best => max run best
  | (m, n) :: r, run, best => if m.getLsbD q then longestRun q r (run + n) best else longestRun q r 0 (max run best)

/-- W(q) of a list in ns: none for infinite. -/
def Gcl.window (g : Gcl) (q : Nat) : Option Nat :=
  let l := gateSegs g.cycle g.entries
  if l.all (fun x => x.1.getLsbD q) then none else some (longestRun q (l ++ l) 0 0)

/-! ### Shapers (10 R330 to R332) -/

def groupNode (port g : Nat) : Nat := 4096 + 16 * port + g
def portNode (port : Nat) : Nat := 4608 + port
/-- The port of a node. -/
def nodePort (n : Nat) : Nat := if n < 4096 then n / 128 else if n < 4608 then (n - 4096) / 16 else n - 4608

def State.shaper (s : State) (n : Nat) : Shaper := smGet {} s.egr.shapers n
def State.setShaper (s : State) (n : Nat) (x : Shaper) : State := s.setEgr { s.egr with shapers := smSet s.egr.shapers n x }

/-- A node is open: unshaped, or with no debt. -/
def nodeOpen (s : State) (n : Nat) : Bool := let x := s.shaper n; decide (x.rate = 0) || decide (0 ≤ x.tokens)

/-- A refill of a node. -/
def Shaper.refill (x : Shaper) : Shaper :=
  if x.rate = 0 then x else { x with tokens := min (x.tokens + x.rate * 40) (x.burst * tok) }

/-- The shaping length of a frame on a port. -/
def shapeLen (s : State) (port len : Nat) : Nat := (max 1 ((len : Int) + sxNat 8 (s.fact .portEgrOvh port))).toNat

/-- The time of a byte on a port in ps. -/
def bytePs (s : State) : Nat := if s.fact .portMode = 0 then 20 else 10

/-- The transmission time of a frame in ps. -/
def frameTime (s : State) (port len : Nat) : Nat := shapeLen s port len * bytePs s

/-- Sending takes units from the queue, its group and its port. -/
def chargeNode (n units : Nat) (s : State) : State :=
  let x := s.shaper n
  if x.rate = 0 then s else s.setShaper n { x with tokens := x.tokens - units }

/-- SHAPER_REFILL: 64 PKCLK cycles have passed since the last refill. -/
def shaperRefill (s : State) : State :=
  if s.up && decide ((s.egr.refills + 1) * 64 ≤ s.clk.pk) then
    s.setEgr { s.egr with refills := s.egr.refills + 1, shapers := s.egr.shapers.map (fun e => (e.1, e.2.refill)) }
  else s

def execShaperRefill (s : State) : Host.Outcome State Fault Refusal := .next (shaperRefill s)

/-- A written node takes its rate and burst, with its bucket at BURST. -/
def Shaper.take (x : Shaper) : Shaper :=
  match x.pend with | some (r, b) => { rate := r, burst := b, tokens := b * tok, pend := none } | none => x

/-- The group of a queue. -/
def groupOf (s : State) (q : Nat) : Nat := bitsOf (s.fact .qCfg q) 6 3

/-- The queues of a group that hold a frame. -/
def groupHolds (s : State) (port g : Nat) : Bool :=
  s.egr.queues.any (fun e => decide (e.1 / 128 = port) && decide (groupOf s e.1 = g) && !e.2.frames.isEmpty)

/-- The deficits of a port's groups that hold no frame are 0 (10 R333). -/
def emptyGroups (port : Nat) (s : State) : State :=
  let empty : Nat → Bool := fun n =>
    decide (groupNode port 0 ≤ n) && decide (n < groupNode port 16) && !groupHolds s port (n - groupNode port 0)
  s.setEgr { s.egr with deficit := s.egr.deficit.filter (fun e => !empty e.1) }

/-- PORT_SCHEDULER_ROUND: a round of 1,024 PKCLK cycles ends; writes of the port's nodes and fields take effect. -/
def schedulerRound (port : Nat) (s : State) : State :=
  let n := smGet 0 s.egr.rounds port
  if s.up && decide ((n + 1) * 1024 ≤ s.clk.pk) && decide (port < 32) then
    let f : Nat × Shaper → Nat × Shaper := fun e => if nodePort e.1 = port then (e.1, e.2.take) else e
    let s := s.setEgr { s.egr with rounds := smSet s.egr.rounds port (n + 1), shapers := s.egr.shapers.map f }
    let s := (List.range 128).foldl (fun s i => s.takeShadow .qCfg (port * 128 + i)) s
    let s := (List.range 16).foldl (fun s i => s.takeShadow .grpCfg (port * 16 + i)) s
    emptyGroups port (s.takeShadow .portEgrOvh port)
  else s

def execPortSchedulerRound (port : Nat) (s : State) : Host.Outcome State Fault Refusal := .next (schedulerRound port s)

/-! ### Leaving a queue (10 R312, R333, R338) -/

/-- The level and weight of a queue. -/
def queueSp (s : State) (q : Nat) : Nat := bitsOf (s.fact .qCfg q) 9 7
def queueWeight (s : State) (q : Nat) : Nat := bitsOf (s.fact .qCfg q) 17 10


/-- The deficits of an empty queue and of a group without frames are 0. -/
def clearDeficit (q : Nat) (s : State) : State :=
  if (s.queue q).frames ≠ [] then s
  else
    let s := s.setEgr { s.egr with deficit := smSet s.egr.deficit q 0 }
    let n := groupNode (q / 128) (groupOf s q)
    if groupHolds s (q / 128) (groupOf s q) then s else s.setEgr { s.egr with deficit := smSet s.egr.deficit n 0 }

/-- A marker has reached the head of a queue. -/
def reachMarker (id q : Nat) (s : State) : State :=
  let f : Barrier → Barrier := fun b => if b.id = id then { b with left := b.left.filter (fun x => decide (x ≠ q)) } else b
  s.setEgr { s.egr with barriers := s.egr.barriers.map f }

/-- The head of a queue is too long for every window of the list in force, whatever GATE_EN is (10 R338). -/
def oversize (s : State) (q : Nat) (i : QItem) : Bool :=
  let port := q / 128
  match gclAt s port s.now.toNat with
  | some g => (match g.window (q % 128) with
      | some w => decide (0 < w) && decide (w * 1000 < frameTime s port i.frame.length)
      | none => false)
  | none => false

/-- The banks of a queue without its head frame (10 R320). -/
def Queue.behead (x : Queue) (bank : Nat) : Queue :=
  { x with items := x.items.drop 1, banks := x.banks.take bank (match x.items with | i :: _ => i.frame.length | [] => 0) }

/-- Markers and oversize frames leave the head of a queue. -/
def settleHead (q : Nat) : (fuel : Nat) → State → State
  | 0, s => s
  | k + 1, s =>
    let x := s.queue q
    match x.items with
    | [] => s
    | i :: r =>
      match i.marker with
      | some id => settleHead q k (reachMarker id q (s.setQueue q { x with items := r }))
      | none =>
        if oversize s q i then
          settleHead q k (clearDeficit q ((s.setQueue q (x.behead s.queueBank)).dropped i.part .gateOversize))
        else s

/-- Take the head frame out of a queue. -/
def popHead (q : Nat) (s : State) : State :=
  let x := s.queue q
  let s := clearDeficit q (s.setQueue q (x.behead s.queueBank))
  settleHead q x.items.length s

/-! ### Admission (10 R323, R325) -/

/-- The most a queue may hold for a copy of a colour. -/
def colourLimit (s : State) (q colour : Nat) : Nat := s.fval .qLimit q * 1024 * (nth 2 [4, 3, 2] colour) / 4

/-- The queue of a copy with its frame in the banks (10 R320, R324). -/
def banksWith (c : Copy) (s : State) : FifoBanks := (s.queue c.queue).banks.put s.queueBank c.frame.length

/-- The cells of the units that a copy makes its queue spill. -/
def cellsNeeded (c : Copy) (s : State) : Nat :=
  ((banksWith c s).units - (s.queue c.queue).banks.units) * cellsFor s.queueBank

/-- Put a copy into its queue. -/
def enqueueCopy (c : Copy) (s : State) : State :=
  let x := s.queue c.queue
  let i : QItem := { marker := none, frame := c.frame, part := c.part, fh := c.fh, tracked := c.tracked, enq := s.now,
                     poison := c.poison }
  let s := s.setQueue c.queue { x with items := x.items ++ [i], banks := banksWith c s }
  if x.items = [] then settleHead c.queue 1 s else s

/-- A copy meets its meter and admission. -/
def admitCopy (c : Copy) (s : State) : State :=
  let (colour, s) := meterCopy c s
  let mode : Byte := match c.meter with | some m => if s.meterOwner m = c.part then (s.meter m).mode else 0 | none => 0
  let after := (s.queue c.queue).depth + c.frame.length
  if colour = 1 ∧ mode.getLsbD 2 then s.dropped c.part .meterYellow
  else if colour = 2 ∧ mode.getLsbD 3 then s.dropped c.part .meterRed
  else if colourLimit s c.queue colour < after then s.dropped c.part .queueFull
  else if decide (cellsNeeded c s ≠ 0) && !s.spillRoom c.part (cellsNeeded c s) then s.dropped c.part .hamperFull
  else enqueueCopy c s

/-! ### Barriers (10 R312) -/

/-- The queues that a copy's barrier names. -/
def barrierOf (c : Copy) (s : State) : List Nat :=
  if c.mirror then []
  else if c.tracked then c.barrier
  else (s.egr.queues.filter (fun e => decide (e.1 / 128 = c.port) && decide (e.1 ≠ c.queue)
    && e.2.frames.any (fun i => !i.tracked))).map (·.1)

/-- The barrier entries of a port in use. -/
def barriersOf (s : State) (port : Nat) : List Barrier := s.egr.barriers.filter (fun b => decide (b.port = port))

/-- Open an entry for a copy, with copies that wait behind it: a marker at the tail of each named queue. -/
def openBarrier (c : Copy) (names : List Nat) (behind : List Copy) (s : State) : State :=
  let id := s.egr.nextBar
  let m : QItem := { marker := some id, frame := [], part := c.part, fh := c.fh, tracked := true, enq := s.now,
                     poison := false }
  let left := names.filter (fun q => decide ((s.queue q).items ≠ []))
  let s := left.foldl (fun s q => let x := s.queue q; s.setQueue q { x with items := x.items ++ [m] }) s
  let b : Barrier := { id := id, port := c.port, left := left, waiting := c :: behind }
  (s.setEgr { s.egr with barriers := s.egr.barriers ++ [b], nextBar := id + 1 }).count (.port c.port .qchangeBarrier)

/-- A port's barrier store and overflow take a copy: they follow the FIFO model, and a spill that finds no cell drops the copy
(10 R312, R323). -/
def waitRoom (c : Copy) (s : State) : Bool :=
  let have_ := s.barrierBytes c.port
  let need := spillCells s.impl.barrierBank (have_ + c.frame.length) - spillCells s.impl.barrierBank have_
  decide (need = 0) || s.spillRoom c.part need

/-- A copy waits in an entry of its port. -/
def joins (c : Copy) (b : Barrier) : Bool := decide (b.port = c.port) && b.waiting.any (fun x => decide (x.fh = c.fh))

/-- A copy reaches its port's egress. -/
def receiveCopy (c : Copy) (s : State) : State :=
  let joined := s.egr.barriers.any (joins c)
  let behind := s.egr.overflow.any (fun x => decide (x.port = c.port) && decide (x.fh = c.fh))
  let names := barrierOf c s
  if c.mirror then admitCopy c s
  else if (joined || behind || decide (names ≠ [])) && !waitRoom c s then s.dropped c.part .hamperFull
  else if joined then
    s.setEgr { s.egr with barriers := updFirst (joins c) (fun b => { b with waiting := b.waiting ++ [c] }) s.egr.barriers }
  else if behind then s.setEgr { s.egr with overflow := s.egr.overflow ++ [c] }
  else
    if names = [] then admitCopy c s
    else if (barriersOf s c.port).length < 1024 then openBarrier c names [] s
    else (s.setEgr { s.egr with overflow := s.egr.overflow ++ [c] }).count (.port c.port .barrierFull)

/-- EGRESS_ADMISSION: the oldest copy on its way to a port. -/
def egressAdmission (port : Nat) (s : State) : State :=
  let mine : Copy → Bool := fun c => decide (c.port = port)
  match s.up, s.egr.copies.find? mine with
  | true, some c => receiveCopy c (s.setEgr { s.egr with copies := delFirst mine s.egr.copies })
  | _, _ => s

def execEgressAdmission (port : Nat) (s : State) : Host.Outcome State Fault Refusal := .next (egressAdmission port s)

/-- The copies behind the first of a released entry: one that carries a barrier of its own opens it, and the others go
on waiting behind it. -/
def releaseRest : List Copy → State → State
  | [], s => s
  | c :: r, s =>
    let names := barrierOf c s
    if names = [] then releaseRest r (admitCopy c s) else openBarrier c names r s

/-- Copies of a port's overflow take entries that are free, each with the later copies of its flow. -/
def drainOverflow (port : Nat) : (fuel : Nat) → State → State
  | 0, s => s
  | k + 1, s =>
    match s.egr.overflow.find? (fun c => decide (c.port = port)) with
    | none => s
    | some c =>
      if 1024 ≤ (barriersOf s port).length then s
      else
        let same : Copy → Bool := fun x => decide (x.port = port) && decide (x.fh = c.fh)
        let flow := s.egr.overflow.filter same
        let s := s.setEgr { s.egr with overflow := s.egr.overflow.filter (fun x => !same x) }
        drainOverflow port k (releaseRest flow s)

/-- BARRIER_RELEASE: the oldest entry of a port whose markers have all reached the heads of their queues. -/
def barrierRelease (port : Nat) (s : State) : State :=
  let ready : Barrier → Bool := fun b => decide (b.port = port) && b.left.isEmpty
  match s.up, s.egr.barriers.find? ready with
  | true, some b =>
    let s := s.setEgr { s.egr with barriers := delFirst ready s.egr.barriers }
    let s := match b.waiting with
      | c :: r => releaseRest r (admitCopy c s)
      | [] => s
    drainOverflow port s.egr.overflow.length s
  | _, _ => s

def execBarrierRelease (port : Nat) (s : State) : Host.Outcome State Fault Refusal := .next (barrierRelease port s)

/-! ### Selection (10 R333, R337) -/

/-- Fabric time in ps. -/
def nowPs (s : State) : Nat := s.now.toNat * 1000 + s.clk.frac.toNat * 1000 / 2 ^ 32

/-- The gate of a queue is open throughout a span of ps: its state changes at whole ns only. -/
def gateSpan (s : State) (port q x t : Nat) : Bool :=
  (List.range ((x + t - 1) / 1000 + 1 - x / 1000)).all (fun i => gateOpen s port q (x / 1000 + i))

/-- A queue is eligible at a start time in ps. -/
def eligible (s : State) (q x : Nat) : Bool :=
  let port := q / 128
  match (s.queue q).head? with
  | none => false
  | some i => i.marker.isNone
      && decide ((smGet 0 s.egr.pauseUntil (port * 8 + bitsOf (s.fact .qCfg q) 2 0)).toNat ≤ s.now.toNat)
      && gateSpan s port (q % 128) x (frameTime s port i.frame.length) && nodeOpen s q

/-- The deficits and pointers of the schedulers. -/
structure Drr where
  deficit : SMap Nat
  ptr     : SMap Nat
  deriving DecidableEq, Repr

/-- The member at or after a number, wrapping; the next one after a member. -/
def atOrAfter (l : List Nat) (n : Nat) : Nat := (l.find? (fun x => decide (n ≤ x))).getD (l.headD 0)

/-- drr_pick over members in ascending number. -/
def drrPick (members : List Nat) (set : Nat) (len weight : Nat → Nat) : (fuel : Nat) → Drr → Option (Nat × Drr)
  | 0, _ => none
  | k + 1, d =>
    if members = [] then none
    else
      let x := atOrAfter members (smGet 0 d.ptr set)
      let c := smGet 0 d.deficit x
      if len x ≤ c then some (x, d)
      else drrPick members set len weight k
        { deficit := smSet d.deficit x (c + weight x * 512), ptr := smSet d.ptr set (atOrAfter members (x + 1)) }

/-- Rounds enough for the longest frame over every member. -/
def drrFuel : Nat := 5000

/-- The head's shaping length. -/
def headLen (s : State) (q : Nat) : Nat :=
  match (s.queue q).head? with | some i => shapeLen s (q / 128) i.frame.length | none => 0

/-- The first answer of levels 7 to 0. -/
def firstLevel {α : Type} (f : Nat → Option α) : (n : Nat) → Option α
  | 0 => none
  | k + 1 => match f k with | some a => some a | none => firstLevel f k

/-- The queue that a group sends from. -/
def pickQueue (s : State) (port g : Nat) (ready : List Nat) (d : Drr) : Option (Nat × Drr) :=
  firstLevel (fun l =>
    drrPick (ready.filter (fun q => decide (groupOf s q = g) && decide (queueSp s q = l))) (20000 + groupNode port g * 8 + l)
      (headLen s) (queueWeight s) drrFuel d) 8

/-- The queue that a port sends from, and its scheduler's state. -/
def pickPort (s : State) (port x : Nat) : Option (Nat × Drr) :=
  let ready := ((s.egr.queues.map (·.1)).filter (fun q => decide (q / 128 = port))).filter (fun q => eligible s q x)
  let d : Drr := { deficit := s.egr.deficit, ptr := s.egr.ptr }
  if !nodeOpen s (portNode port) then none
  else
    let groups := (List.range 16).filter (fun g => nodeOpen s (groupNode port g) && ready.any (fun q => decide (groupOf s q = g)))
    let cfg := fun n => s.fact .grpCfg (n - 4096)
    let len := fun n => match pickQueue s port (n - groupNode port 0) ready d with | some (q, _) => headLen s q | none => 0
    (firstLevel (fun l =>
      drrPick ((groups.map (groupNode port)).filter (fun n => decide (bitsOf (cfg n) 2 0 = l))) (10000 + port * 8 + l) len
        (fun n => bitsOf (cfg n) 10 3) drrFuel d) 8).bind
      (fun (n, d) => pickQueue s port (n - groupNode port 0) ready d)

/-! ### Transmission (10 R310, R333, R340, 03 R84, R85) -/

/-- The active transmit association of a port: its place and entry. -/
def txSa (s : State) (port : Nat) : Option (Nat × Bytes) :=
  ((List.range 4).map (fun an => (an, s.saAt port 8 an))).findSome? (fun (an, e) => match e with
    | some e => if (byteAt e 3).getLsbD 1 then some (an, e) else none
    | none => none)

/-- A frame protected under an association: SecTAG with explicit SCI, ciphertext, ICV and a new FCS (log 28). -/
def macsecSeal (an : Nat) (e f : Bytes) : Bytes :=
  let pn := uAt e 32 8
  let data := (f.take (f.length - 4)).drop 12
  let sl := if data.length < 48 then data.length else 0
  let head := f.take 12 ++ [0x88, 0xe5, BitVec.ofNat 8 (0x2c + an), BitVec.ofNat 8 sl] ++ beBytes 4 pn ++ slice e 4 8
  withFcs (head ++ gcmSeal (keyOfBytes (slice e 40 32)) (xpnNonce e pn) head data)

/-- A short frame is padded to 64 bytes. -/
def padFrame (f : Bytes) : Bytes := if 64 ≤ f.length then f else withFcs (fitTo 60 (f.take (f.length - 4)))

/-- The frame as it leaves a port, and the association's next packet number; none while the port cannot send. -/
def protectFrame (s : State) (port : Nat) (f : Bytes) : Option (Bytes × State) :=
  if s.fact .portMacsec port = 0 then some (padFrame f, s)
  else match txSa s port with
    | none => none
    | some (an, e) =>
      let pn := uAt e 32 8
      if pn = 2 ^ 64 - 1 then none
      else
        let sa := smSet s.tabs.sa (saIndex port 8 an) (splice e 32 (leBytes 8 (pn + 1)))
        some (macsecSeal an e (padFrame f), { s with tabs := { s.tabs with sa := sa } })

/-- The transmit association of a port has used its last packet number. -/
def pnExhausted (s : State) (port : Nat) : Bool :=
  decide (s.fact .portMacsec port = 1) && (match txSa s port with | some (_, e) => decide (uAt e 32 8 = 2 ^ 64 - 1) | none => false)

/-- Queue q of a port sends its head, from a PKCLK time on that is x in ps of fabric time. -/
def sendHead (q start x : Nat) (i : QItem) (d : Drr) (s : State) : State :=
  let port := q / 128
  let len := shapeLen s port i.frame.length
  match protectFrame s port i.frame with
  | none => if pnExhausted s port then s.count (.port port .macsecPnExhausted) else s
  | some (f, s) =>
    let g := groupNode port (groupOf s q)
    let sub := fun (m : SMap Nat) n => smMod 0 m n (· - len)
    let s := s.setEgr { s.egr with deficit := sub (sub d.deficit g) q, ptr := d.ptr,
                                   tx := smSet s.egr.tx port { frame := f, queue := q, endPs := start + len * bytePs s } }
    let s := [q, g, portNode port].foldl (fun s n => chargeNode n (len * tok) s) s
    let y := s.queue q
    popHead q (s.setQueue q { y with maxDelay := max y.maxDelay (x / 1000 - i.enq.toNat) })

/-- FRAME_TRANSMIT: a port that is not sending starts its next frame, at the end of the one before it when that ended
within this PKCLK cycle. A poisoned frame is dropped before its first byte leaves (13 R411). -/
def frameTransmit (port : Nat) (s : State) : State :=
  let last := smGet 0 s.egr.txEnd port
  if !s.portLink port || (smFind s.egr.tx port).isSome then s
  else
    let start := if s.pkPs < last + 625 then last else s.pkPs
    let x := nowPs s - (s.pkPs - start)
    match pickPort s port x with
    | none => s
    | some (q, d) => match (s.queue q).head? with
      | none => s
      | some i => if i.poison then popHead q (s.dropped i.part .poison) else sendHead q start x i d s

def execFrameTransmit (port : Nat) (s : State) : Host.Outcome State Fault Refusal := .next (frameTransmit port s)

/-! ### Pauses, takeovers and cycles (10 R326, R335, R339) -/

/-- PFC_PAUSE_END: the pause of a priority has run out. -/
def pauseEnd (port pri : Nat) (s : State) : State :=
  let k := port * 8 + pri
  match smFind s.egr.pauseUntil k with
  | some t => if s.up ∧ pri < 8 ∧ t.toNat ≤ s.now.toNat then s.setEgr { s.egr with pauseUntil := smDel s.egr.pauseUntil k } else s
  | none => s

def execPfcPauseEnd (port priority : Nat) (s : State) : Host.Outcome State Fault Refusal := .next (pauseEnd port priority s)

/-- The heads of a port's queues meet the check of R338 again. -/
def recheckHeads (port : Nat) (s : State) : State :=
  (s.egr.queues.filter (fun e => decide (e.1 / 128 = port))).foldl (fun s e => settleHead e.1 (e.2.items.length + 1) s) s

/-- GCL_TAKEOVER: the pending list of a port takes over. -/
def gclTakeover (port : Nat) (s : State) : State :=
  match smFind s.egr.gclPend port with
  | some g =>
    if s.up && decide (g.takeover.toNat ≤ s.now.toNat) then
      let s := s.setEgr { s.egr with gcl := smSet s.egr.gcl port g, gclPend := smDel s.egr.gclPend port }
      recheckHeads port (s.takeShadow .gateEn port)
    else s
  | none => s

def execGclTakeover (port : Nat) (s : State) : Host.Outcome State Fault Refusal := .next (gclTakeover port s)

/-- GATE_CYCLE_START: a cycle of the list in force starts, and GATE_EN takes effect. -/
def gateCycleStart (port : Nat) (s : State) : State :=
  match smFind s.egr.gcl port with
  | some g =>
    if s.up && decide (g.takeover.toNat ≤ s.now.toNat) && decide ((s.now.toNat - g.takeover.toNat) % g.cycle = 0) then
      s.takeShadow .gateEn port
    else s
  | none => s

def execGateCycleStart (port : Nat) (s : State) : Host.Outcome State Fault Refusal := .next (gateCycleStart port s)

/-! ### Samples (10 R340) -/

/-- HEAD_DELAY of a queue in ns. -/
def headDelay (s : State) (q : Queue) : Nat :=
  match q.frames with | i :: _ => (s.now - i.enq).toNat | [] => 0

/-- QUEUE_SAMPLE_PERIOD: every queue records its depth and head delay. -/
def queueSamplePeriod (s : State) : State :=
  let due := s.egr.sampleAt.toNat + s.fval .qSamplePeriod * 1000
  if !s.up || decide (s.now.toNat < due) then s
  else
    let f : Nat × Queue → Nat × Queue := fun e =>
      (e.1, { e.2 with sBytes := e.2.depth, sPkts := e.2.frames.length, sDelay := headDelay s e.2 })
    s.setEgr { s.egr with queues := s.egr.queues.map f, sampleAt := s.now }

def execQueueSamplePeriod (s : State) : Host.Outcome State Fault Refusal := .next (queueSamplePeriod s)

end Sys2Proof.Machine
end

