-- ==== Sys2Proof/Machine/Order.lean ====
section
/-! DEFINITION. The ordering point of a command that reads or changes packet-path state (02 R68, R71, 15 R490): the
packets ahead of its marker pass the stage that owns the state, then the command acts. Packets behind the marker wait
for it. -/

namespace Sys2Proof.Machine

/-- The points of the packet path that a marker travels to: behind stage 3, stage 4, or stage 8's admission. -/
inductive Point where
  | lookup | flow | egress
  deriving DecidableEq, Repr

/-- A packet has passed a point. -/
def passedPoint (x : Point) (k : Packet) : Bool :=
  match x with
  | .egress => false
  | .flow => decide (1 < k.pass) || (match k.place with | .intake | .reed | .scan | .lookup | .flow | .miss | .bucketHold _ | .fragHold _ => false | _ => true)
  | .lookup => decide (1 < k.pass) || (match k.place with | .intake | .reed | .scan | .lookup | .bucketHold _ | .fragHold _ => false | _ => true)

/-- The packets ahead of a marker that have not passed its point. -/
def ahead (x : Point) (m : Nat) (s : State) : List Packet :=
  s.pkts.filter (fun k => decide (k.id < m) && !passedPoint x k)

/-- One stage of a packet, where it is not held. -/
def advance (k : Packet) (s : State) : Option State :=
  match k.place with
  | .intake => if headOfPort k s && reedTakes k s then some (steerIn k s) else none
  | .reed => some (parseStage k s)
  | .scan => some (scanStage k s)
  | .lookup => some (lookupStage k s)
  | .flow => some (flowStage k s)
  | .wicker => some (wickerStage k s)
  | .merge => some (mergeStage k s)
  | .action => some (actStage k s)
  | .reorder => if mustWait k s then none else some (actStage k s)
  | _ => none

/-- The first packet of a list that can move, one stage further. -/
def advanceFirst (s : State) : List Packet → Option State
  | [] => none
  | k :: r => match advance k s with | some s' => some s' | none => advanceFirst s r

/-- The packets ahead of a marker pass its point, as far as none holds them. -/
def drainTo (x : Point) (m : Nat) : (fuel : Nat) → State → State
  | 0, s => s
  | n + 1, s => match advanceFirst s (ahead x m s) with | some s' => drainTo x m n s' | none => s

/-- The copies on their way to admission meet it. -/
def drainCopies : (fuel : Nat) → State → State
  | 0, s => s
  | n + 1, s =>
    match s.egr.copies with
    | [] => s
    | c :: r => drainCopies n (receiveCopy c (s.setEgr { s.egr with copies := r }))

/-- Change the entry of a command that has not replied. -/
def modEntry (c : CmdCtx) (f : InFlight → InFlight) (s : State) : State :=
  s.setFlight c.src (updFirst (isOpen c) f (s.flight c.src))

/-- Bring a command to its ordering point: its work, with the point's time, once the packets ahead have passed; until
then it waits. -/
def atPoint (c : CmdCtx) (i : Instr) (x : Point) (work : DWord → State → State) (s : State) : State :=
  let e := s.entryOf c
  let m := (e.bind (·.mark)).getD s.intake.nextPkt
  let t := match e with | some e => if e.mark.isSome then e.markAt else s.now | none => s.now
  let s := drainTo x m (200 * s.pkts.length + 1) s
  let s := if x = .egress then drainCopies (s.egr.copies.length + 1) s else s
  if ahead x m s = [] then work t (modEntry c (fun e => { e with mark := none }) s)
  else waitCmd c i (modEntry c (fun e => { e with mark := some m, markAt := t }) s)

end Sys2Proof.Machine
end

