-- ==== Sys2Proof/Machine/Placement.lean ====
section
/-! DEFINITION. Buckets and their pipelines: BUCKET_READ, BUCKET_MOVE, the placement loop, moves and changes of home
(05 R169 to R172, 11 R355), and where the buckets of a fenced pipeline go (13 R407). -/

namespace Sys2Proof.Machine

/-! ### Moves (05 R171, R172) -/

/-- Start a move of a bucket. While its pipeline is being fenced, the fence chooses where it goes. A move of a bucket
that moves already waits behind that move. -/
def startMove (b dst : Nat) (ctx : Option CmdCtx) (home : Option Nat) (s : State) : State :=
  let k := s.pipeOf b
  let fence := s.flow.moves.any (fun m => decide (m.bucket = 65536) && decide (m.from_ = k))
  let m : Move := { bucket := b, from_ := k, dst := if fence then 16 + k else dst, since := s.now, drained := false,
                    fence := fence, ctx := ctx, home := home, pk := s.clk.pk }
  { s with flow := { s.flow with moves := s.flow.moves ++ [m] } }

def State.moveOf (s : State) (b : Nat) : Option Move := s.flow.moves.find? (fun m => decide (m.bucket = b))

/-- Every packet of a bucket has left the old pipeline; held flows continue across the move (05 R171, R177). -/
def bucketDrained (s : State) (m : Move) : Bool :=
  s.pkts.all (fun k => decide (k.pipe ≠ m.from_) || decide (k.bucket ≠ m.bucket) || k.place.held)

/-- A move has run its 20 µs, 32,000 cycles of PKCLK. A move that a fence took over is never abandoned. -/
def moveLate (s : State) (m : Move) : Bool := !m.fence && decide (m.pk + 32000 < s.clk.pk)

/-- BUCKET_MOVE_DRAINED. -/
def moveDrained (b : Nat) (s : State) : State :=
  match s.moveOf b with
  | some m =>
    if s.up && !m.drained && !moveLate s m && bucketDrained s m then
      let ms := updFirst (fun x => decide (x.bucket = b)) (fun x => { x with drained := true }) s.flow.moves
      { s with flow := { s.flow with moves := ms } }
    else s
  | none => s

def execBucketMoveDrained (bucket : Nat) (s : State) : Host.Outcome State Fault Refusal := .next (moveDrained bucket s)

/-- The walk: the slice evicts every hot form that a test picks. -/
def evictWhere (p : HotForm → Bool) (s : State) : State := (s.flow.hots.filter p).foldl (fun s h => evictHot h s) s

/-- The walk of a bucket's move: its forms, and its fills on their way to the old slice. -/
def walkBucket (m : Move) (s : State) : State :=
  let s := evictWhere (fun h => decide (h.slice = m.from_) && decide (bucketOf h.fh = m.bucket)) s
  s.setReqs (s.flow.reqs.filter (fun r => decide (r.pipe ≠ m.from_) || decide (bucketOf r.fh ≠ m.bucket)))

/-- The table names pipeline k for a bucket, and its held packets enter there, oldest first. -/
def placeBucket (b k : Nat) (s : State) : State :=
  let s := { s with flow := { s.flow with pipeOf := smSet s.flow.pipeOf b k } }
  let s := s.setPkts (s.pkts.map (fun x =>
    match x.place with | .flowHold _ => if x.bucket = b then { x with pipe := k } else x | _ => x))
  (s.pkts.filter (fun x => decide (x.place = .bucketHold b))).foldl (fun s x => enterPipe x s) s

/-- The number of buckets of a pipeline. -/
def bucketCount (s : State) (k : Nat) : Nat :=
  -- a bucket that is not listed is at b mod 16
  4096 - (s.flow.pipeOf.filter (fun e => decide (e.1 % 16 = k) && decide (e.2 ≠ k))).length
    + (s.flow.pipeOf.filter (fun e => decide (e.1 % 16 ≠ k) && decide (e.2 = k))).length

/-- The pipeline that takes a bucket of fenced pipeline k: on its die, else on the other, the one with the fewest
buckets (13 R407). -/
def fewestOn (s : State) (k : Nat) : Nat :=
  let near := s.pipesUp.filter (fun j => decide (j ≠ k) && decide (dieOfPipe j = dieOfPipe k))
  let far := s.pipesUp.filter (fun j => decide (j ≠ k))
  (minBy (bucketCount s) (if near = [] then far else near)).getD k

/-- The move of a bucket that waited behind one that has ended begins, at the bucket's present pipeline. -/
def nextMove (b : Nat) (s : State) : State :=
  let k := s.pipeOf b
  let f : Move → Move := fun m => { m with since := s.now, pk := s.clk.pk, from_ := k, dst := if m.dst < 16 then k else m.dst }
  { s with flow := { s.flow with moves := updFirst (fun m => decide (m.bucket = b)) f s.flow.moves } }

/-- A move ends: its bucket goes to a pipeline, its home changes, and its command replies. -/
def endMove (m : Move) (s : State) : State :=
  let s := { s with flow := { s.flow with moves := delFirst (fun x => decide (x.bucket = m.bucket)) s.flow.moves } }
  let s := match m.home with
    | some h => { s with flow := { s.flow with home := smSet s.flow.home m.bucket h } }
    | none => s
  let s := nextMove m.bucket (placeBucket m.bucket (if m.dst < 16 then m.dst else fewestOn s (m.dst - 16)) s)
  match m.ctx with
  | some c => if m.home.isSome then s else finish c .ok (leBytes 8 s.now.toNat) m.since 0 s
  | none => s

/-- A FLOW_HOME_SET replies once the moves of all its buckets have ended. -/
def endHomeSet (m : Move) (s : State) : State :=
  match m.ctx, m.home with
  | some c, some _ => if s.flow.moves.any (fun x => decide (x.ctx = some c)) then s else finish c .ok [] m.since 0 s
  | _, _ => s

/-- BUCKET_MOVE_DONE. -/
def moveDone (b : Nat) (s : State) : State :=
  match s.moveOf b with
  | some m =>
    if s.up && m.drained && !moveLate s m && decide (b < 65536) then endHomeSet m (endMove m (walkBucket m s)) else s
  | none => s

def execBucketMoveDone (bucket : Nat) (s : State) : Host.Outcome State Fault Refusal := .next (moveDone bucket s)

/-- BUCKET_MOVE_ABANDON: the bucket stays on its pipeline and at its home. -/
def moveAbandon (b : Nat) (s : State) : State :=
  match s.moveOf b with
  | some m =>
    if s.up && moveLate s m then
      let s := { s with flow := { s.flow with moves := delFirst (fun x => decide (x.bucket = b)) s.flow.moves } }
      let s := nextMove b (placeBucket b m.from_ (s.count (.module_ .placeAbort)))
      match m.ctx, m.home with
      | some c, none => finish c .busy [] 0 0 s
      | _, _ => endHomeSet m s
    else s
  | none => s

def execBucketMoveAbandon (bucket : Nat) (s : State) : Host.Outcome State Fault Refusal := .next (moveAbandon bucket s)

/-! ### The placement loop (05 R170) -/

/-- The loads as the loop changes them, and the moves made. -/
structure PlaceRun where
  load  : SMap Nat
  moves : List (Nat × Nat)
  deriving DecidableEq, Repr

/-- The bucket of a pipeline with the largest load that may move. -/
def heaviest (s : State) (x : PlaceRun) (src : Nat) : Option (Nat × Nat) :=
  let l := s.flow.bload.filter (fun e => decide (s.pipeOf e.1 = src) && decide (0 < e.2) && !s.flow.pinned.contains e.1
    && !s.bucketMoving e.1 && !x.moves.any (fun m => decide (m.1 = e.1)))
  l.foldl (fun m e => match m with | none => some e | some y => if y.2 < e.2 then some e else some y) none

/-- The least loaded pipeline of a die other than src. -/
def leastOn (s : State) (x : PlaceRun) (src die : Nat) : Option Nat :=
  minBy (fun k => smGet 0 x.load k) (s.pipesUp.filter (fun k => decide (dieOfPipe k = die) && decide (k ≠ src)))

/-- Move a bucket off src to the first die where that helps. -/
def relieve (s : State) (src b n : Nat) (x : PlaceRun) : List Nat → PlaceRun
  | [] => x
  | d :: r =>
    match leastOn s x src d with
    | some dst =>
      if smGet 0 x.load dst + n < smGet 0 x.load src then
        { load := smMod 0 (smMod 0 x.load src (· - n)) dst (· + n), moves := x.moves ++ [(b, dst)] }
      else relieve s src b n x r
    | none => relieve s src b n x r

/-- The loop over the pipelines by descending load. -/
def placeLoop (s : State) (mean trigger most : Nat) : List Nat → PlaceRun → PlaceRun
  | [], x => x
  | src :: r, x =>
    if x.moves.length = most ∨ smGet 0 x.load src * 100 ≤ mean * (100 + trigger) then x
    else match heaviest s x src with
      | none => placeLoop s mean trigger most r x
      | some (b, n) => placeLoop s mean trigger most r (relieve s src b n x [dieOfPipe src, 1 - dieOfPipe src])

/-- The moves of a period. -/
def placeMoves (s : State) : List (Nat × Nat) :=
  let up := s.pipesUp
  let ctrl := s.fval .placeCtrl
  let load := fun k => smGet 0 s.flow.load k
  let mean := (up.map load).foldl (· + ·) 0 / up.length
  let order := sortBy (fun a b => decide (load b < load a) || (decide (load a = load b) && decide (a < b))) up
  if ctrl.testBit 0 then
    (placeLoop s mean (bitsOf ctrl 14 8) (bitsOf ctrl 19 16) order { load := s.flow.load, moves := [] }).moves
  else []

/-- PLACEMENT_PERIOD: a period ends. -/
def placementPeriod (s : State) : State :=
  let stop := s.flow.placeAt.toNat + s.fval .placePeriod * 1000
  if !s.up || decide (s.now.toNat < stop) then s
  else
    let s' := (placeMoves s).foldl (fun s m => startMove m.1 m.2 none none s) s
    { s' with flow := { s'.flow with load := [], bload := [], placeAt := dw stop } }

def execPlacementPeriod (s : State) : Host.Outcome State Fault Refusal := .next (placementPeriod s)

/-! ### Commands (05 R169, 02 R77, 11 R355) -/

/-- The body of a list reply and its TRUNCATED flag: as many whole entries as fit in 4,080 bytes (02 R57). -/
def fitBody (w : Nat) (l : List Bytes) : Bytes × Nat :=
  let n := 4080 / w
  ((l.take n).flatten, if n < l.length then 2 else 0)

/-- BUCKET_READ. -/
def execBucketRead (c : CmdCtx) (start count : Nat) (s : State) : Host.Outcome State Fault Refusal :=
  .next (runCmd c 0x220
    (fun _ => firstFail [p0Only c, (decide (count = 0) || decide (65536 < start + count), .badParam)])
    (fun s =>
      let (body, fl) := fitBody 1 ((List.range (min count 4081)).map (fun i => leBytes 1 (s.pipeOf (start + i))))
      finish c .ok body s.now fl s) s)

/-- Change the PINNED mark of a bucket. -/
def setPinned (b : Nat) (on : Bool) (s : State) : State :=
  let l := s.flow.pinned.filter (fun x => decide (x ≠ b))
  { s with flow := { s.flow with pinned := if on then sortBy (fun a b => decide (a < b)) (l ++ [b]) else l } }

/-- BUCKET_MOVE: the reply of a move comes at its end. -/
def bucketMoveWork (c : CmdCtx) (b k : Nat) (s : State) : State :=
  if k = 0xff then finish c .ok (leBytes 8 s.now.toNat) s.now 0 (setPinned b false s)
  else if s.bucketMoving b then
    if c.waitDrain then drainCmd c (.bucketMove c b k) s else finish c .busy [] 0 0 s
  else
    let was := s.flow.pinned.contains b
    let s := drainEnds c s
    let n := s.flow.moves.length
    let s := startMove b k (some c) none (setPinned b true s)
    { s with flow := { s.flow with moves := s.flow.moves.take n ++ (s.flow.moves.drop n).map (fun m => { m with pin := some was }) } }

def execBucketMove (c : CmdCtx) (bucket pipeline : Nat) (s : State) : Host.Outcome State Fault Refusal :=
  .next (runCmd c 0x221
    (fun s => firstFail [p0Only c, (decide (pipeline ≠ 0xff) && (decide (15 < pipeline) || decide (65535 < bucket)
      || s.isFenced (pipeUnit pipeline)), .badParam)])
    (bucketMoveWork c bucket pipeline) s)

/-- FLOW_HOME_SET: each bucket moves to its present pipeline and takes its new home; the change of a bucket that moves
already waits for that move's end (log 39). -/
def homeSetWork (c : CmdCtx) (first n home : Nat) (s : State) : State :=
  (List.range n).foldl (fun s i => startMove (first + i) (s.pipeOf (first + i)) (some c) (some home) s) s

def execFlowHomeSet (c : CmdCtx) (first count home : Nat) (s : State) : Host.Outcome State Fault Refusal :=
  let n := if count = 0 then 65536 else count
  .next (runCmd c 0x520
    (fun _ => firstFail [p0Only c, (decide (65536 < first + n), .badParam)])
    (homeSetWork c first n home) s)

end Sys2Proof.Machine
end

