-- ==== Sys2Proof/Machine/TableCmds.lean ====
section
/-! DEFINITION. The table commands (04 R130 to R136, R145 to R154, 03 R85, 11 R353). -/

namespace Sys2Proof.Machine

/-! ### Records -/

/-- The bytes of an entry in the records of a write or a read (04 R118), and in those of a delete. -/
def recSize (t : Nat) : Nat :=
  match t with | 1 => 64 | 2 => 24 | 3 => 40 | 4 => 88 | 5 => 72 | 0x20 => 96 | 0x30 => 8 | _ => 0
def delSize (t : Nat) : Nat := match t with | 1 => 32 | 2 => 24 | 3 => 40 | 5 => 8 | _ => 0

/-- The bytes of a record area. -/
def areaSize (t n : Nat) (del : Bool) : Nat := if t = 4 ∧ del then ceilDiv n 2 * 8 else n * (if del then delSize t else recSize t)

/-- The group of a number that another partition holds. -/
def foreignGroup (s : State) (p g : Nat) : Bool :=
  s.tabs.entries.any (fun e => decide (e.table = 5) && decide (e.group = g) && decide (e.part ≠ p))

/-- The group of a partition in a bank. -/
def groupIn (s : State) (p g b : Nat) : Option TEntry := (s.tbank 5 p b).find? (fun e => decide (e.group = g))

/-- A bank's rules of a group. -/
def rulesIn (s : State) (p g b : Nat) : Bool := (s.tbank 4 p b).any (fun e => decide (e.group = g))

/-- A test on each bank of a target. -/
def Banks.every (t : Banks) (f : Nat → Bool) : Bool := (!t.b0 || f 0) && (!t.b1 || f 1)

/-- An entry is put, or there is no room. -/
def putOr (n : TEntry) (b : Banks) (s : State) : Option Status × State :=
  match putEntry n b s with
  | (some s', _) => (none, s')
  | (none, s) => (some .capacity, s)

/-- The key of a prefix record: the bits below its length are zero. -/
def prefixOk (v6 : Bool) (key : Bytes) : Bool :=
  let n := if v6 then 128 else 32
  let len := (key.getLastD 0).toNat
  let addr := if v6 then uAt key 0 4 * 2 ^ 96 + uAt key 4 4 * 2 ^ 64 + uAt key 8 4 * 2 ^ 32 + uAt key 12 4 else uAt key 0 4
  decide (len ≤ n) && decide (addr % 2 ^ (n - len) = 0)

/-- Write an EXACT record (04 R130). -/
def putExact (p : Nat) (b : Banks) (r : Bytes) (s : State) : Option Status × State :=
  if bitsOf (uAt r 48 1) 7 3 ≠ 0 ∨ !rsvZero r 49 3 ∨ !rsvZero r 56 8 ∨ !actionOk s (slice r 32 16) then (some .badParam, s)
  else putOr { table := 1, part := p, key := r.take 32, action := slice r 32 16, ageable := (byteAt r 48).getLsbD 0 } b s

/-- Write an LPM record (04 R131). -/
def putLpm (t p : Nat) (b : Banks) (r : Bytes) (s : State) : Option Status × State :=
  let n := if t = 2 then 5 else 17
  let a := if t = 2 then 8 else 24
  if !rsvZero r n (a - n) ∨ !prefixOk (decide (t = 3)) (r.take n) ∨ !actionOk s (slice r a 16) then (some .badParam, s)
  else putOr { table := t, part := p, key := r.take n, action := slice r a 16 } b s

/-- The key of a group's entry: its number. -/
def groupKey (g : Nat) : Bytes := leBytes 8 g

/-- Write a RULE_GROUP record (04 R135). -/
def putGroup (p : Nat) (b : Banks) (r : Bytes) (s : State) : Option Status × State :=
  let g := uAt r 0 1
  let valid := (byteAt r 1).getLsbD 0
  let mask := slice r 8 64
  if 63 < g ∨ bitsOf (uAt r 1 1) 7 1 ≠ 0 ∨ !rsvZero r 2 6 then (some .badParam, s)
  else if foreignGroup s p g then (some .noPermission, s)
  else if !valid then
    if b.every (fun x => !rulesIn s p g x) then (none, (removeKey 5 p (groupKey g) b s).2) else (some .badParam, s)
  else if !b.every (fun x => !rulesIn s p g x || (match groupIn s p g x with | some e => e.value == mask | none => true)) then
    (some .badParam, s)
  else putOr { table := 5, part := p, key := groupKey g, action := [], group := g, value := mask } b s

/-- Write a rule of a group (04 R135, R136). -/
def putRule (p g : Nat) (b : Banks) (r : Bytes) (s : State) : Option Status × State :=
  let value := slice r 24 64
  if !rsvZero r 6 2 ∨ !actionOk s (slice r 8 16) then (some .badParam, s)
  else if foreignGroup s p g then (some .noPermission, s)
  else if !b.every (fun x => match groupIn s p g x with | some e => maskAnd value e.value == value | none => false) then
    (some .badParam, s)
  else putOr { table := 4, part := p, key := r.take 4, action := slice r 8 16, prio := uAt r 4 2, group := g, value := value } b s

/-- Write a MACSEC_SA record (03 R85); an association made active for transmission takes the place of the port's
active one (log 43). -/
def putSa (p : Nat) (r : Bytes) (s : State) : Option Status × State :=
  let port := uAt r 0 1
  let chan := uAt r 1 1
  let fl := uAt r 3 1
  if 31 < port ∨ 8 < chan ∨ 3 < uAt r 2 1 ∨ 3 < fl ∨ (fl.testBit 1 ∧ chan ≠ 8) ∨ !rsvZero r 72 24 then (some .badParam, s)
  else if s.portOwner port ≠ p then (some .noPermission, s)
  else
    let off : Nat × Bytes → Nat × Bytes := fun e =>
      if fl.testBit 1 ∧ e.1 / 4 = port * 9 + 8 then (e.1, splice e.2 3 [byteAt e.2 3 &&& 1]) else e
    (none, { s with tabs := { s.tabs with sa := smSet (s.tabs.sa.map off) (saIndex port chan (uAt r 2 1)) r } })

/-- Write a FABRIC_ROUTE record (11 R353). -/
def putRoute (r : Bytes) (s : State) : Option Status × State :=
  let n := uAt r 2 1
  let links := (List.range 4).map (fun i => uAt r (4 + i) 1)
  if 16383 < uAt r 0 2 ∨ 4 < n ∨ !rsvZero r 3 1 ∨ links.any (fun l => decide (31 < l)) then (some .badParam, s)
  else (none, { s with tabs := { s.tabs with routes := smSet s.tabs.routes (uAt r 0 2) { paths := n, links := links } } })

/-- Write one record of a table, or of a group's rules. -/
def putRecord (t p g : Nat) (b : Banks) (r : Bytes) (s : State) : Option Status × State :=
  match t with
  | 1 => putExact p b r s
  | 2 | 3 => putLpm t p b r s
  | 4 => putRule p g b r s
  | 5 => putGroup p b r s
  | 0x20 => putSa p r s
  | 0x30 => putRoute r s
  | _ => (some .badParam, s)

/-- Delete by one record: whether it removed something. -/
def delRecord (t p : Nat) (b : Banks) (r : Bytes) (s : State) : Option Status × Nat × State :=
  let gone := fun key => let (hit, s) := removeKey t p key b s; (none, b2n hit, s)
  match t with
  | 1 => gone r
  | 2 => if !rsvZero r 5 3 ∨ !prefixOk false (r.take 5) then (some .badParam, 0, s) else gone (r.take 5)
  | 3 => if !rsvZero r 17 7 ∨ !prefixOk true (r.take 17) then (some .badParam, 0, s) else gone (r.take 17)
  | 4 => gone r
  | 5 =>
    let g := uAt r 0 8
    if 63 < g then (some .badParam, 0, s)
    else if foreignGroup s p g then (some .noPermission, 0, s)
    else if b.every (fun x => !rulesIn s p g x) then gone (groupKey g) else (some .badParam, 0, s)
  | _ => (some .badParam, 0, s)

/-- Write the records of a batch until one fails. -/
def putAll (t p g : Nat) (b : Banks) : List Bytes → State → Option Status × State
  | [], s => (none, s)
  | r :: l, s => match putRecord t p g b r s with
    | (none, s) => putAll t p g b l s
    | (some st, s) => (some st, s)

/-- Delete by the records of a batch until one fails. -/
def delAll (t p : Nat) (b : Banks) : List Bytes → (n : Nat) → State → Option Status × Nat × State
  | [], n, s => (none, n, s)
  | r :: l, n, s => match delRecord t p b r s with
    | (none, k, s) => delAll t p b l (n + k) s
    | (some st, _, s) => (some st, 0, s)

/-! ### Batches (04 R145, R146, R149, R150, R154) -/

/-- Where a write to a bank goes in the present bank state. -/
inductive Target where
  | banks (b : Banks)
  | refuse (st : Status)
  | later
  deriving DecidableEq, Repr

/-- Wait, or refuse. -/
def waitOr (c : CmdCtx) (st : Status) : Target := if c.waitDrain then .later else .refuse st

/-- A compare of a table and partition runs. -/
def comparing (s : State) (p t : Nat) : Bool :=
  s.tabs.compares.any (fun x => decide (x.part = p) && decide (x.table = t))

/-- The target of a host write. -/
def writeTarget (c : CmdCtx) (t bank : Nat) (s : State) : Target :=
  if t = 0x20 ∨ t = 0x30 then .banks bothBanks
  else
    let act := s.activeBank c.part t
    if bank = 1 ∧ s.bankState c.part t ≠ .rebuild then .refuse .badParam
    else if comparing s c.part t then waitOr c .busy
    else match s.bankState c.part t with
      | .steady => .banks bothBanks
      | .rebuild =>
        if bank = 1 then .banks (oneBank (1 - act)) else if c.mirror then .banks bothBanks else waitOr c .tableRebuildActive
      | .draining => .banks (oneBank act)

/-- The records of a batch. -/
def batchBytes (c : CmdCtx) (x : Batch) (n : Nat) (s : State) : Bytes × State :=
  match x with
  | .inline b => (b, s)
  | .bref b => (brefRead c b n s, brefCharge c b n s)

/-- The checks of a batch's header and size: permission, length, parameters, buffer. -/
def batchCheck (c : CmdCtx) (t bank count : Nat) (x : Batch) (del : Bool) (ok : Bool) (s : State) : Option Status :=
  let size := areaSize t count del
  let len := match x with | .inline b => b.length | .bref b => b.size
  match firstFail [(decide (t = 0x30) && decide (c.part ≠ 0), .noPermission), (ok && decide (len ≠ size), .badLength),
    (!ok || decide (1 < bank) || (decide (5 < t) && decide (bank ≠ 0)), .badParam)], x with
  | some st, _ => some st
  | none, .bref b => brefStatus c b 0 size s
  | none, .inline _ => none

/-- COUNT is 1 to 65,536. -/
def countOk (n : Nat) : Bool := decide (1 ≤ n) && decide (n ≤ 65536)

/-- The bytes of a record that are its entry's key. -/
def keySize (t : Nat) : Nat := match t with | 1 => 32 | 2 => 5 | 3 => 17 | 4 => 4 | _ => 0

/-- A batch names an entry that is being relocated (04 R129). -/
def batchMoves (c : CmdCtx) (t count : Nat) (x : Batch) (del : Bool) (s : State) : Bool :=
  !(s.oldCopies t).isEmpty
    && (records (if del then (if t = 4 then 4 else delSize t) else recSize t) count (batchBytes c x (areaSize t count del) s).1).any
        (fun r => s.relocating t c.part (r.take (keySize t)))

/-- Bring a batch to its point and its target; a write or delete of an entry that is being relocated waits until the move
ends. -/
def onTarget (c : CmdCtx) (i : Instr) (t bank count : Nat) (x : Batch) (del : Bool) (work : Banks → DWord → State → State)
    (s : State) : State :=
  atPoint c i .lookup (fun at_ s =>
    match writeTarget c t bank s with
    | .banks b => if batchMoves c t count x del s then waitCmd c i s else work b at_ s
    | .refuse st => finish c st (leBytes 4 0) at_ 0 s
    | .later => drainCmd c i s) s

/-- A batch of writes: all or none (04 R146). -/
def writeBatch (c : CmdCtx) (t g count : Nat) (x : Batch) (b : Banks) (at_ : DWord) (s : State) : State :=
  let (area, s) := batchBytes c x (areaSize t count false) s
  match putAll t c.part g b (records (recSize t) count area) s with
  | (none, s') => finish c .ok (leBytes 4 count) at_ 0 s'
  | (some st, s') => finish c st (leBytes 4 0) at_ 0 { s with free := s'.free }

/-- A batch of deletes; with an odd COUNT of rules the last 4 bytes are Reserved (04 R145). -/
def deleteBatch (c : CmdCtx) (t count : Nat) (x : Batch) (b : Banks) (at_ : DWord) (s : State) : State :=
  let (area, s) := batchBytes c x (areaSize t count true) s
  if t = 4 ∧ count % 2 = 1 ∧ !rsvZero area (4 * count) 4 then finish c .badParam (leBytes 4 0) at_ 0 s
  else match delAll t c.part b (records (if t = 4 then 4 else delSize t) count area) 0 s with
  | (none, n, s') => finish c .ok (leBytes 4 n) at_ 0 s'
  | (some st, _, _) => finish c st (leBytes 4 0) at_ 0 s

/-- TABLE_WRITE. -/
def execTableWrite (c : CmdCtx) (table bank count : Nat) (batch : Batch) (s : State) : Host.Outcome State Fault Refusal :=
  .next (runCmd c 0x100
    (batchCheck c table bank count batch false (countOk count && [1, 2, 3, 5, 0x20, 0x30].contains table))
    (onTarget c (.tableWrite c table bank count batch) table bank count batch false (writeBatch c table 0 count batch)) s)

/-- Empty banks of a table: the rules with their groups for table 5. -/
def emptyBank (t p : Nat) (b : Banks) (s : State) : Nat × State :=
  let mine : TEntry → Bool := fun e => decide (e.part = p) && (decide (e.table = t) || (decide (t = 5) && decide (e.table = 4)))
  let n := (s.tabs.entries.filter (fun e => mine e && e.touched b)).length
  (n, s.setEntries ((s.tabs.entries.map (fun e => if mine e then e.without b else e)).filter TEntry.live))

/-- The records of a TABLE_DELETE may be none: it empties the inactive bank. -/
def emptying (t bank count : Nat) (x : Batch) : Bool :=
  decide (count = 0) && decide (bank = 1) && decide (x = .inline []) && decide (1 ≤ t) && decide (t ≤ 5)

/-- TABLE_DELETE. -/
def execTableDelete (c : CmdCtx) (table bank count : Nat) (batch : Batch) (s : State) : Host.Outcome State Fault Refusal :=
  .next (runCmd c 0x101
    (batchCheck c table bank count batch true
      (emptying table bank count batch || (countOk count && [1, 2, 3, 5].contains table)))
    (onTarget c (.tableDelete c table bank count batch) table bank count batch true (fun b at_ s =>
      if count = 0 then
        let (n, s) := emptyBank table c.part b s
        finish c .ok (leBytes 4 n) at_ 0 s
      else deleteBatch c table count batch b at_ s)) s)

/-- RULE_WRITE. -/
def execRuleWrite (c : CmdCtx) (group bank count : Nat) (batch : Batch) (s : State) : Host.Outcome State Fault Refusal :=
  .next (runCmd c 0x110 (batchCheck c 4 bank count batch false (countOk count && decide (group ≤ 63)))
    (onTarget c (.ruleWrite c group bank count batch) 4 bank count batch false (writeBatch c 4 group count batch)) s)

/-- With an odd COUNT the last 4 bytes of a RULE_DELETE's records are Reserved. -/
def oddRsv (count : Nat) (x : Batch) : Bool :=
  match x with | .inline b => decide (count % 2 = 0) || rsvZero b (4 * count) 4 | .bref _ => true

/-- RULE_DELETE. -/
def execRuleDelete (c : CmdCtx) (bank count : Nat) (batch : Batch) (s : State) : Host.Outcome State Fault Refusal :=
  .next (runCmd c 0x111 (batchCheck c 4 bank count batch true (countOk count && oddRsv count batch))
    (onTarget c (.ruleDelete c bank count batch) 4 bank count batch true (deleteBatch c 4 count batch)) s)

/-! ### TABLE_READ (04 R148) -/

/-- The record of an entry as a read returns it. -/
def entryRecord (e : TEntry) : Bytes :=
  match e.table with
  | 1 => e.key ++ e.action ++ leBytes 1 (b2n e.ageable + 2 * b2n e.learned + 4 * b2n e.hit) ++ zeros 3 ++ leBytes 4 e.slot ++ zeros 8
  | 2 => e.key ++ zeros 3 ++ e.action
  | 3 => e.key ++ zeros 7 ++ e.action
  | 4 => e.key ++ leBytes 2 e.prio ++ zeros 2 ++ e.action ++ e.value
  | _ => leBytes 1 e.group ++ [1] ++ zeros 6 ++ e.value

/-- The slots and records of a partition in a bank of a table, in slot order; SAK and SALT read as zero (03 R85). -/
def tableRecords (s : State) (t p bank : Nat) : List (Nat × Bytes) :=
  match t with
  | 0x20 => (s.tabs.sa.filter (fun e => decide (s.portOwner (e.1 / 36) = p))).map
      (fun e => (e.1, splice (splice e.2 16 (zeros 12)) 40 (zeros 32)))
  | 0x30 => if p ≠ 0 then [] else s.tabs.routes.map (fun e =>
      (e.1, fitTo 8 (leBytes 2 e.1 ++ leBytes 1 e.2.paths ++ [0] ++ e.2.links.flatMap (leBytes 1))))
  | _ =>
    let b := if bank = 0 then s.activeBank p t else 1 - s.activeBank p t
    sortBy (fun a b => decide (a.1 < b.1)) ((s.tbank t p b).map (fun e => (e.slot, entryRecord e)))

/-- The slot at which the next read starts. -/
def nextSlot (t start : Nat) (all got : List (Nat × Bytes)) : Nat :=
  if got.length = all.length then tableCap t
  else match got.getLast? with | some x => x.1 + 1 | none => start

def tableReadWork (c : CmdCtx) (t bank start count : Nat) (out : Option Bref) (at_ : DWord) (s : State) : State :=
  let all := (tableRecords s t c.part bank).filter (fun x => decide (start ≤ x.1))
  let room := match out with | some b => b.size / recSize t | none => 4072 / recSize t
  let want := all.take count
  let got := want.take room
  let tail := leBytes 4 (nextSlot t start all got) ++ leBytes 4 got.length
  let fl := if got.length < want.length then 2 else 0
  let data := (got.map (·.2)).flatten
  match out with
  | none => finish c .ok (data ++ tail) at_ fl s
  | some b => match brefStatus c b 1 data.length s with
    | some st => finish c st [] at_ 0 s
    | none => finish c .ok tail at_ fl (brefWrite c b data s)

def tableReadCheck (c : CmdCtx) (t bank start count : Nat) (out : Option Bref) : Option Status :=
  firstFail [(decide (recSize t = 0) || decide (1 < bank) || (decide (5 < t) && decide (bank ≠ 0)) || decide (tableCap t < start)
    || decide (count = 0) || (match out with | some b => !brefForm c b 1 | none => false), .badParam)]

def execTableRead (c : CmdCtx) (table bank start count : Nat) (out : Option Bref) (s : State) :
    Host.Outcome State Fault Refusal :=
  .next (runCmd c 0x102 (fun _ => tableReadCheck c table bank start count out)
    (atPoint c (.tableRead c table bank start count out) .lookup (tableReadWork c table bank start count out)) s)

/-! ### Rebuild and abort (04 R149) -/

/-- The tables that an event names, of those whose state allows it: 0xff names all four. -/
def eventTables (s : State) (p t : Nat) (from_ : BankState) : List Nat :=
  (if t = 0xff then [1, 2, 3, 4] else [bankTable t]).filter (fun x => decide (s.bankState p x = from_))

/-- The table IDs of an event. -/
def eventTable (t : Nat) : Bool := (decide (1 ≤ t) && decide (t ≤ 5)) || decide (t = 0xff)

def State.setBankState (s : State) (p t : Nat) (x : BankState) : State :=
  { s with tabs := { s.tabs with bankState := smSet s.tabs.bankState (bankKey p t) x } }

/-- The two banks of a table of a partition become equal: the inactive bank takes the active bank's entries. -/
def syncBanks (p t : Nat) (s : State) : State :=
  let act := s.activeBank p t
  let mine : TEntry → Bool := fun e => decide (e.part = p) && decide (bankTable e.table = t) && decide (e.table ≤ 5)
  let l := (s.tabs.entries.filter (fun e => !mine e || e.inBank act)).map
    (fun e => if mine e then { e with bank0 := true, bank1 := true } else e)
  (s.setEntries l).setBankState p t .steady

/-- TABLE_REBUILD. -/
def execTableRebuild (c : CmdCtx) (table : Nat) (s : State) : Host.Outcome State Fault Refusal :=
  .next (runCmd c 0x103
    (fun s => firstFail [(!eventTable table || (decide (table = 0xff) && (eventTables s c.part table .steady).isEmpty), .badParam)])
    (fun s =>
      let l := eventTables s c.part table .steady
      if l = [] then finish c .busy [] 0 0 s
      else finish c .ok [] s.now 0 (l.foldl (fun s t => s.setBankState c.part t .rebuild) s)) s)

/-- TABLE_ABORT. -/
def execTableAbort (c : CmdCtx) (table : Nat) (s : State) : Host.Outcome State Fault Refusal :=
  .next (runCmd c 0x105
    (fun s => firstFail [(!eventTable table || (eventTables s c.part table .rebuild).isEmpty, .badParam)])
    (fun s => finish c .ok [] s.now 0 ((eventTables s c.part table .rebuild).foldl (fun s t => syncBanks c.part t s) s)) s)

/-! ### Compare (04 R153, R154) -/

/-- TABLE_COMPARE: the walk of the bank begins. -/
def execTableCompare (c : CmdCtx) (table : Nat) (shadow : Bref) (s : State) : Host.Outcome State Fault Refusal :=
  .next (runCmd c 0x106
    (fun s => (firstFail [(decide (shadow.size ≠ 2048), .badLength), (decide (table < 1) || decide (4 < table), .badParam)])
      <|> brefStatus c shadow 0 2048 s)
    (fun s =>
      if comparing s c.part table then finish c .busy [] 0 0 s
      else
        let b := brefRead c shadow 2048 s
        let x : Compare := { ctx := c, table := table, part := c.part,
                             shadow := (List.range 256).map (fun r => dw (uAt b (8 * r) 8)) }
        let s := brefCharge c shadow 2048 s
        { s with tabs := { s.tabs with compares := s.tabs.compares ++ [x] } }) s)

/-- The hash of a compared entry, with its read-only fields zero. -/
def entryHash (e : TEntry) : DWord :=
  let r := entryRecord { e with hit := false, learned := false, slot := 0 }
  dw ((crc32c (r ++ [1])).toNat * 2 ^ 32 + (crc32c r).toNat)

/-- The digest of a range. -/
def rangeDigest (l : List TEntry) (r : Nat) : DWord :=
  ((l.filter (fun e => decide (bitsOf (crc32c e.key).toNat 31 24 = r))).map entryHash).foldl (· + ·) 0

/-- TABLE_COMPARE_END: the walk is over, and the mismatched ranges are listed. -/
def compareEnd (table part : Nat) (s : State) : State :=
  match s.up, s.tabs.compares.find? (fun x => decide (x.table = table) && decide (x.part = part)) with
  | true, some x =>
    let l := (s.tbank table part (s.activeBank part table)).filter (fun e => !(decide (table = 1) && (e.learned || e.ageable)))
    let bad := (List.range 256).filter (fun r => decide (rangeDigest l r ≠ nth 0 x.shadow r))
    let s := { s with tabs := { s.tabs with compares := delFirst (fun y => decide (y = x)) s.tabs.compares } }
    finish x.ctx .ok (leBytes 2 (min bad.length 255) ++ (bad.take 255).flatMap (fun r => leBytes 1 r)) 0
      (if bad.length = 256 then 2 else 0) s
  | _, _ => s

def execTableCompareEnd (table part : Nat) (s : State) : Host.Outcome State Fault Refusal := .next (compareEnd table part s)

end Sys2Proof.Machine
end

