-- ==== Sys2Proof/Machine/Epochs.lean ====
section
/-! DEFINITION. Epochs (09 R289 to R300, 04 R151): which slots an epoch names, retirement, commits and their reading. -/

namespace Sys2Proof.Machine

/-! ### The slots that an epoch names (09 R279) -/

/-- The ESC_SLOT of a per-packet slot's ensemble, whatever its ESC_EN. -/
def escSlotOf (s : State) (n : Nat) : List Nat := ((s.slot n).ens.map (·.escSlot)).toList

/-- The slots that EV_CFG and HOLD_CFG values name. -/
def cfgSlots (ev hold : Nat) : List Nat :=
  (if bitsOf ev 11 8 = 0 then [] else [bitsOf ev 7 0]) ++ (if hold.testBit 0 then [bitsOf hold 15 8] else [])

/-- The per-packet slots of a slot map. -/
def pktSlots (map : List Nat) : List Nat := map.filter (fun n => decide (n < 255))

/-- The slots that an epoch would name for events, given its slot map and the values of its fields. -/
def eventSlots (s : State) (map : List Nat) (ev hold : Nat) : List Nat :=
  (pktSlots map).flatMap (escSlotOf s) ++ cfgSlots ev hold

/-- An epoch of partition p names slot n. -/
def epochNames (s : State) (p : Nat) (e : Epoch) (n : Nat) : Bool :=
  (pktSlots e.slots).contains n || (eventSlots s e.slots (e.fval .evCfg p) (e.fval .holdCfg p)).contains n

/-- Slots of a partition are IN_SERVICE while a live epoch names them, and LOADED otherwise (09 R279). -/
def restateSlots (p : Nat) (s : State) : State :=
  { s with slots := s.slots.map (fun e =>
      if s.slotOwner e.1 = p ∧ (e.2.state = 2 ∨ e.2.state = 3) then
        (e.1, { e.2 with state := if (s.eps p).any (fun x => epochNames s p x e.1) then 3 else 2 })
      else e) }

/-! ### Retirement (09 R295) -/

/-- The older of two live epochs retires once its count is zero. -/
def retireDue (p : Nat) (s : State) : State :=
  match s.eps p with
  | [old, new] =>
    if old.refs ≠ 0 then s
    else
      let s := freeGraphs (s.setEps p [new])
      restateSlots p ((eventTables s p 0xff .draining).foldl (fun s t => syncBanks p t s) s)
  | _ => s

/-- EPOCH_RETIRE. -/
def execEpochRetire (part : Nat) (s : State) : Host.Outcome State Fault Refusal := .next (retireDue part s)

/-! ### Commits (09 R290, R296 to R298) -/

/-- The fields with the packet epoch as boundary that a partition numbers. -/
def epochFields : List FName := (fieldRows.filter (fun r => decide (r.cls = .epoch ∧ r.who = .part))).map (·.name)

/-- The values that a commit takes: the partition's fields, and PORT_GRAPH of its ports. -/
def takenProfile (p : Nat) (s : State) : SMap DWord :=
  let own := epochFields.map (fun n => (fieldId n p, dw (s.fval n p)))
  let ports := ((List.range 32).filter (fun k => decide (s.portOwner k = p))).map
    (fun k => (fieldId .portGraph k, dw (s.fval .portGraph k)))
  (own ++ ports).foldl (fun m e => smSet m e.1 e.2) []

/-- The next epoch of a partition, with the tables `swap` on their other banks. -/
def newEpoch (p : Nat) (map swap : List Nat) (s : State) : Epoch :=
  let old := s.curEpoch p
  { num := (old.num + 1) % 65536, swapAt := s.now, refs := 0, slots := map,
    banks := (List.range 5).map (fun t => let b := s.activeBank p t; if swap.contains t then 1 - b else b),
    prof := takenProfile p s,
    patterns := (smFind s.intake.patPend p).getD old.patterns,
    patId := if (smFind s.intake.patPend p).isSome then old.patId + 1 else old.patId }

/-- A table's banks swap. -/
def swapBanks (p : Nat) (s : State) (t : Nat) : State :=
  let b := 1 - s.activeBank p t
  -- the sweeper's visits begin for the entries that were inactive (04 R143)
  let fresh : TEntry → TEntry := fun e =>
    if e.table = t ∧ e.part = p ∧ e.inBank b ∧ !e.inBank (1 - b) then { e with born := s.now, seen := none } else e
  ({ s with tabs := { s.tabs with active := smSet s.tabs.active (bankKey p t) b, entries := s.tabs.entries.map fresh } }).setBankState
    p t .draining

/-- The commit: the new epoch is live from the present time on, and an older one that nothing holds retires. -/
def commitEpoch (p : Nat) (map swap : List Nat) (s : State) : State :=
  let e := newEpoch p map swap s
  let s := swap.foldl (swapBanks p) s
  let s := (s.setEps p (s.eps p ++ [e]))
  retireDue p (restateSlots p { s with intake := { s.intake with patPend := smDel s.intake.patPend p } })

/-- A slot that a new epoch may name: owned, LOADED or IN_SERVICE. -/
def slotUsable (s : State) (p n : Nat) : Bool :=
  decide (s.slotOwner n = p) && (let x := (s.slot n).state; decide (x = 2 ∨ x = 3))

/-- A slot holds a PACKET-mode ensemble. -/
def holdsPacket (s : State) (n : Nat) : Bool := match (s.slot n).ens with | some e => !e.event | none => false

/-- A slot holds a tensor part or an EVENT-mode ensemble. -/
def holdsEvent (s : State) (n : Nat) : Bool :=
  (s.slot n).tens.isSome || (match (s.slot n).ens with | some e => e.event | none => false)

/-- The slots of a commit are such as 09 R298 asks (log 46). -/
def commitSlotsOk (p : Nat) (map : List Nat) (s : State) : Bool :=
  let l := pktSlots map
  noRepeats l && l.all (fun n => slotUsable s p n && holdsPacket s n)
    && (eventSlots s map (s.fval .evCfg p) (s.fval .holdCfg p)).all (fun n => slotUsable s p n && holdsEvent s n)

/-- The tables of a commit that a compare holds. -/
def compareHolds (s : State) (p : Nat) (swap : List Nat) : Bool := swap.any (fun t => comparing s p t)

/-- The slot map of EPOCH_COMMIT, with KEEP_PKT resolved. -/
def commitMap (p : Nat) (map : DWord) (s : State) : List Nat :=
  if map.getLsbD 32 then (s.curEpoch p).slots
  else (List.range 4).map (fun i => bitsOf map.toNat (8 * i + 7) (8 * i))

/-- The tables that EPOCH_COMMIT swaps. -/
def commitSwap (p ruleset : Nat) (s : State) : List Nat := if ruleset = 1 then eventTables s p 0xff .rebuild else []

def epochCommitCheck (c : CmdCtx) (ruleset : Nat) (map : DWord) (s : State) : Option Status :=
  let s := retireDue c.part s
  firstFail [(decide (1 < ruleset) || decide (bitsOf map.toNat 63 33 ≠ 0)
      || (decide (ruleset = 1) && (commitSwap c.part ruleset s).isEmpty)
      || !commitSlotsOk c.part (commitMap c.part map s) s, .badParam)]

/-- EPOCH_COMMIT. -/
def epochCommitWork (c : CmdCtx) (ruleset : Nat) (map : DWord) (s : State) : State :=
  let p := c.part
  let s := retireDue p s
  let swap := commitSwap p ruleset s
  let full := decide (2 ≤ (s.eps p).length)
  if compareHolds s p swap ∨ full then
    if c.waitDrain then drainCmd c (.epochCommit c ruleset map) s
    else finish c (if compareHolds s p swap then .busy else .epochLimit) [] 0 0 s
  else
    let t := s.now
    let s := commitEpoch p (commitMap p map s) swap s
    finish c .ok (leBytes 8 (s.curEpoch p).num ++ leBytes 8 t.toNat) t 0 s

def execEpochCommit (c : CmdCtx) (ruleset : Nat) (map : DWord) (s : State) : Host.Outcome State Fault Refusal :=
  .next (runCmd c 0x310 (epochCommitCheck c ruleset map) (epochCommitWork c ruleset map) s)

def tableCommitCheck (c : CmdCtx) (table : Nat) (s : State) : Option Status :=
  let s := retireDue c.part s
  firstFail [(!eventTable table || (eventTables s c.part table .rebuild).isEmpty
      || !commitSlotsOk c.part (s.curEpoch c.part).slots s, .badParam)]

/-- TABLE_COMMIT (04 R151, 09 R297). -/
def tableCommitWork (c : CmdCtx) (table : Nat) (s : State) : State :=
  let p := c.part
  let s := retireDue p s
  let swap := eventTables s p table .rebuild
  if compareHolds s p swap then finish c .busy [] 0 0 s
  else if 2 ≤ (s.eps p).length then finish c .epochLimit [] 0 0 s
  else
    let t := s.now
    finish c .ok (leBytes 8 t.toNat) t 0 (commitEpoch p (s.curEpoch p).slots swap s)

def execTableCommit (c : CmdCtx) (table : Nat) (s : State) : Host.Outcome State Fault Refusal :=
  .next (runCmd c 0x104 (tableCommitCheck c table) (tableCommitWork c table) s)

/-! ### EPOCH_STATUS (09 R299) -/

/-- The entry of a live epoch. -/
def epochEntry (draining : Nat) (e : Epoch) : Bytes :=
  leBytes 2 e.num ++ leBytes 1 draining ++ [0] ++ leBytes 4 e.refs ++ leBytes 8 e.swapAt.toNat
    ++ (List.range 4).flatMap (fun i => leBytes 1 (nth 255 e.slots i)) ++ zeros 4

/-- The reply of EPOCH_STATUS: newest first. -/
def epochBody (l : List Epoch) : Bytes :=
  leBytes 8 l.length ++ (match l.reverse with
    | [] => []
    | new :: old => epochEntry 0 new ++ old.flatMap (epochEntry 1))

def execEpochStatus (c : CmdCtx) (s : State) : Host.Outcome State Fault Refusal :=
  .next (runCmd c 0x311 (fun _ => none) (fun s => finish c .ok (epochBody (s.eps c.part)) s.now 0 s) s)

end Sys2Proof.Machine
end

