-- ==== Sys2Proof/Machine/Models.lean ====
section
/-! DEFINITION. Model slots (09 R278 to R288, R303, 06 R184, R205): placing, loading and unloading models. -/

namespace Sys2Proof.Machine

/-! ### Free ranges -/

/-- The gaps from `at_` to `lim` between used ranges in rising order. -/
def gapsIn (lim : Nat) : (at_ : Nat) → List (Nat × Nat) → List (Nat × Nat)
  | at_, [] => if at_ < lim then [(at_, lim - at_)] else []
  | at_, (o, n) :: r => (if at_ < o then [(at_, min o lim - at_)] else []) ++ gapsIn lim (max at_ (o + n)) r

/-- The gaps below `lim` that used ranges leave. -/
def freeGaps (lim : Nat) (used : List (Nat × Nat)) : List (Nat × Nat) := gapsIn lim 0 (sortBy (fun a b => decide (a.1 < b.1)) used)

/-- The lowest gap that is long enough. -/
def lowestFit (n : Nat) (l : List (Nat × Nat)) : Option Nat := (l.find? (fun g => decide (n ≤ g.2))).map (·.1)

/-! ### Node memory (06 R184) -/

/-- Nodes of one bank. -/
def bankNodes : Nat := 98304

/-- The ranges used in a bank. -/
def usedNodes (s : State) (bank : Option Nat) : List (Nat × Nat) :=
  s.slots.filterMap (fun e => match e.2.ens with
    | some x => if bank = none ∨ e.2.bank = none ∨ e.2.bank = bank then some (e.2.nodeOff, x.nodes.length) else none
    | none => none)

/-- The nodes that an ensemble takes of the total. -/
def ensNodes (e : Ensemble) : Nat := if e.event then e.nodes.length else 16 * e.nodes.length

/-- The nodes that a partition holds. -/
def nodesOf (s : State) (p : Nat) : Nat :=
  (s.slots.map (fun e => match e.2.ens with
    | some x => if s.slotOwner e.1 = p then ensNodes x else 0
    | none => 0)).foldl (· + ·) 0

/-- The largest free range of a bank. -/
def largestGap (s : State) (b : Nat) : Nat := (freeGaps bankNodes (usedNodes s (some b))).foldl (fun m g => max m g.2) 0

/-- The bank with the largest free range, the lowest on a tie. -/
def widestBank (s : State) : Nat :=
  (List.range 16).foldl (fun b k => if largestGap s b < largestGap s k then k else b) 0

/-- The bank (none for all 16) and offset of an ensemble. -/
def placeEns (s : State) (p : Nat) (e : Ensemble) : Option (Option Nat × Nat) :=
  if s.fval .wkNodeQuota p < nodesOf s p + ensNodes e then none
  else
    let b := if e.event then some (widestBank s) else none
    (lowestFit e.nodes.length (freeGaps bankNodes (usedNodes s b))).map (fun o => (b, o))

/-! ### HBM pages (09 R288) -/

/-- The pages of a region of `n` bytes. -/
def pagesFor (n : Nat) : Nat := ceilDiv n pageBytes

/-- The virtual pages that a partition cannot give: its models' and, for partition 0, those that are not its own. -/
def usedPages (s : State) (p : Nat) : List (Nat × Nat) :=
  let models := (s.slots.filter (fun e => decide (s.slotOwner e.1 = p))).flatMap (fun e => e.2.runs.map (fun r => (r.1, r.2.1)))
  if p = 0 then
    models ++ (List.range 6).map (fun k => (stackPages * k + (stackPages - platformPages), platformPages))
      ++ (s.parts.filter (fun e => decide (0 < e.1) && decide (e.2.state ≠ 0))).flatMap (fun e => e.2.ranges)
  else models

/-- The end of a partition's virtual pages. -/
def pageLimit (s : State) (p : Nat) : Nat :=
  if p = 0 then 6 * stackPages else (((s.part p).ranges.map (·.2)).foldl (· + ·) 0)

/-- The first pages of runs of the given lengths, each the lowest free one; an empty run is at 0. -/
def placeRuns (lim : Nat) : (used : List (Nat × Nat)) → List Nat → Option (List Nat)
  | _, [] => some []
  | used, n :: r =>
    match if n = 0 then some 0 else lowestFit n (freeGaps lim used) with
    | none => none
    | some f => (placeRuns lim (if n = 0 then used else (f, n) :: used) r).map (f :: ·)

/-! ### Tiles (09 R288) -/

/-- Bytes of the batch input buffers, and of the training input region. -/
def inBufBytes (fmt k n : Nat) : Nat := n * 128 * ceilDiv k 128 * inBytes fmt

/-- The scratch ranges that models use on tile t. -/
def usedScratch (s : State) (t : Nat) : List (Nat × Nat) :=
  s.slots.flatMap (fun e => match e.2.tens with
    | some x => (List.range x.tiles.length).filterMap (fun j =>
        if nth 32 x.tiles j = t then some (nth 0 x.shares j, x.need + if j = 0 then inBufBytes x.inFmt x.kIn 512 else 0)
        else none)
    | none => [])

/-- The scratch offset of a share of `n` bytes on tile t. -/
def shareOn (s : State) (t n : Nat) : Option Nat :=
  if n = 0 then some 0 else lowestFit n (freeGaps (s.scratchBytes t) (usedScratch s t))

/-- The tiles that can hold a partition's share of `n` bytes, with its offset. -/
def shareTiles (s : State) (p n : Nat) : List (Nat × Nat) :=
  (List.range 32).filterMap (fun t =>
    if s.tileMine p t && !s.isFenced (tileUnit t) then (shareOn s t n).map (fun o => (t, o)) else none)

/-- The tiles and offsets of a tensor part: the input tile is the lowest with room for the batch buffers too, and the
others follow it in ascending order. -/
def placeTiles (s : State) (p nt need buf : Nat) : Option (List (Nat × Nat)) :=
  match shareTiles s p (need + buf) with
  | [] => none
  | x :: _ =>
    let rest := ((shareTiles s p need).filter (fun y => decide (x.1 < y.1))).take (nt - 1)
    if rest.length = nt - 1 then some (x :: rest) else none

/-! ### Loading -/

/-- The places of a bundle: its ensemble's, its page runs' and its tiles'. -/
structure Places where
  ens   : Option (Option Nat × Nat)
  runs  : List Nat
  tiles : List (Nat × Nat)
  deriving DecidableEq, Repr

/-- The lengths of a bundle's regions in pages: weights, the second copy, work, state, training input. -/
def runLengths (h : BHead) : List Nat :=
  [pagesFor h.wSize, if h.trainable then pagesFor h.wSize else 0, pagesFor h.workSize, pagesFor h.stateSize,
   if h.trainable then pagesFor (inBufBytes h.inFmt h.kIn 1024) else 0]

/-- The places of a bundle, where there is room. -/
def placesFor (s : State) (p : Nat) (h : BHead) (e : Option Ensemble) : Option Places :=
  let ens := match e with | some x => (placeEns s p x).map some | none => some none
  let tiles := if h.kind = 0 then some [] else placeTiles s p h.nTiles h.need (inBufBytes h.inFmt h.kIn 512)
  match ens, placeRuns (pageLimit s p) (usedPages s p) (runLengths h), tiles with
  | some a, some b, some c => some { ens := a, runs := b, tiles := c }
  | _, _, _ => none

/-- The tensor part of a placed bundle. -/
def tensorOf (b : Bytes) (h : BHead) (x : Places) : Tensor :=
  let base := fun i => nth 0 x.runs i * pageBytes
  { inFmt := h.inFmt, kIn := h.kIn, tiles := x.tiles.map (·.1), shares := x.tiles.map (·.2), need := h.need,
    inBase := nth 0 (x.tiles.map (·.2)) 0 + h.need, wReg := if h.trainable then [base 0, base 1] else [base 0],
    wSize := h.wSize, workReg := base 2, workSize := h.workSize, stateReg := base 3, stateSize := h.stateSize,
    trainReg := base 4, inputMap := sectOne b 2, fwd := sectOne b 6, bwd := sectOne b 9, outMap := sectOne b 7,
    train := sectOne b 8 }

/-- The threshold of a newly loaded slot (06 R204, 09 R285). -/
def firstThr (s : State) (n : Nat) (e : Option Ensemble) (outMap : Bytes) : Thr :=
  let (th, st) := match e with | some x => (x.thrInit, x.stepInit) | none => (sAt outMap 16 8, uAt outMap 40 4)
  { theta := th, step := st, since := s.now, period := s.fval .wkThrPeriod n }

/-- Map weight pages read-only, and WP where the model is weight-protected (09 R288). -/
def protectRun (p : Nat) (wp : Bool) (first n : Nat) (s : State) : State :=
  { s with pages := (List.range n).foldl (fun m i => smSet m (p * 2 ^ 27 + first + i) { writable := false, wp := wp }) s.pages }

/-- Set the WP bit of the lines that a span of a tile's scratch touches (07 R211). -/
def markWpLines (t off n : Nat) (s : State) : State :=
  let ks := linesOf (tileAddr t off) n
  { s with tiles := { s.tiles with lines := ks.foldl (fun m k => smSet m k { smGet {} m k with wp := true }) s.tiles.lines } }

/-- Copy one section to where it belongs. -/
def copySect (p : Nat) (b : Bytes) (h : BHead) (x : Places) (c : Sect) (s : State) : State :=
  let at_ := fun i => nth 0 x.runs i * pageBytes + c.dest
  match c.type with
  | 3 =>
    let s := s.hbmWrite p (at_ 0) (c.bytes b)
    if h.trainable then s.hbmWrite p (at_ 1) (c.bytes b) else s
  | 4 => s.hbmWrite p (at_ 2) (c.bytes b)
  | 5 =>
    let (t, o) := nth (0, 0) x.tiles (bitsOf c.dest 28 24)
    let off := o + c.dest % 2 ^ 22
    let s := tilePutN p h.wp t off (c.bytes b) s
    if h.wp then markWpLines t off c.size s else s
  | _ => s

/-- The commands of both lists of a tensor part. -/
def Tensor.cmds (t : Tensor) : List Bytes := listCmds t.fwd t.fwd.length ++ listCmds t.bwd t.bwd.length

/-- The relocation of a weight copy, with the batch input buffer as input. -/
def Tensor.reloc (t : Tensor) (copy : Nat) : Reloc :=
  { weight := nth 0 t.wReg copy, work := t.workReg, state := t.stateReg, input := t.inputAddr, tiles := t.tiles,
    shares := t.shares }

/-- Fill the COLSUM array of a command's PRESS record for a weight copy (08 R260, 09 R288). -/
def fillColsum (p : Nat) (t : Tensor) (copy : Nat) (s : State) (cmd : Bytes) : State :=
  let r := t.reloc copy
  let x := tileCmdOf (relocCmd r 1 cmd)
  let raw := s.hbmRead p x.press 352
  let d := x.desc 1
  if x.kind = 1 ∧ x.press ≠ 0 ∧ (byteAt raw 0).getLsbD 0 ∧ d.fmt = 0 ∧ d.smode = 0 then
    let sums := (List.range x.n).map (fun n =>
      (List.range x.k).foldl (fun a k => a + sxNat 8 (readCode s p d false (d.elemOff [n, k, 0, 0, 0])).bits) 0)
    twrites p true [{ addr := relocAddr r (uAt raw 16 8), bytes := sums.flatMap (leBytesI 4), poison := false }] s
  else s

/-- The offsets of the addresses in a PRESS record. -/
def pressAddrs : List Nat := [16, 24, 32, 48, 56]

/-- Relocate the PRESS record of a command (09 R283). -/
def relocPress (p : Nat) (t : Tensor) (s : State) (cmd : Bytes) : State :=
  let r := t.reloc 0
  let a := uAt cmd 24 8
  if uAt cmd 0 1 = 1 ∧ a ≠ 0 then
    let raw := s.hbmRead p (relocAddr r a) 352
    s.hbmWrite p (relocAddr r a) (pressAddrs.foldl (fun b off => relocAt r off b) raw)
  else s

/-- The runs that a bundle holds. -/
def heldRuns (h : BHead) (x : Places) : List (Nat × Nat × Bool) :=
  ((List.range 5).map (fun i => (nth 0 x.runs i, nth 0 (runLengths h) i, decide (i < 2)))).filter (fun r => decide (r.2.1 ≠ 0))

/-- Place a bundle in a slot: copy its sections, relocate, fill the column sums and protect the weights. -/
def installModel (n p : Nat) (b : Bytes) (x : Places) (s : State) : State :=
  let h := bheadOf b
  let e := if h.kind = 1 then none else ensembleOf (sectOne b 1)
  let s := (sectsOf b).foldl (fun s c => copySect p b h x c s) s
  let t := if h.kind = 0 then none else some (tensorOf b h x)
  let s := match t with
    | none => s
    | some t =>
      let s := (List.range t.wReg.length).foldl (fun s c => t.cmds.foldl (fillColsum p t c) s) s
      t.cmds.foldl (relocPress p t) s
  let runs := heldRuns h x
  let s := runs.foldl (fun s r => dropRun p r.1 r.2.1 s) s
  let s := (runs.filter (fun r => r.2.2)).foldl (fun s r => protectRun p h.wp r.1 r.2.1 s) s
  s.setSlot n { state := 2, kind := h.kind, trainable := h.trainable, wp := h.wp, digest := sha384 b, ens := e,
                bank := x.ens.bind (·.1), nodeOff := (x.ens.map (·.2)).getD 0, tens := t, runs := runs,
                thr := firstThr s n e (sectOne b 7) }

/-- The status of an opened bundle, or its places (09 R287 steps 4 to 6). -/
def bundleStatus (s : State) (p : Nat) (b : Bytes) : Except Status Places :=
  if b.length < 128 || slice b 32 48 != sha384 (b.drop 128) then .error .integrityFail
  else if !bundleOk b then .error .badParam
  else
    let h := bheadOf b
    match placesFor s p h (if h.kind = 1 then none else ensembleOf (sectOne b 1)) with
    | none => .error .capacity
    | some x => .ok x

/-- A slot of the caller (09 R278). -/
def slotCheck (c : CmdCtx) (slot : Nat) (s : State) : Option Status :=
  firstFail [(decide (255 < slot), .badParam), (decide (s.slotOwner slot ≠ c.part), .noPermission)]

/-- MODEL_LOAD (09 R287). -/
def modelLoadWork (c : CmdCtx) (slot : Nat) (bref : Bref) (s : State) : State :=
  let p := c.part
  if (s.slot slot).state ≠ 0 then finish c .busy [] 0 0 s
  else match brefStatus c bref 0 bref.size s with
    | some st => finish c st [] 0 0 s
    | none =>
      let b := brefRead c bref bref.size s
      let s := brefCharge c bref bref.size s
      match openEnvelope s 0 p slot b with
      | none => finish c .authFail [] 0 0 s
      | some m => match bundleStatus s p m with
        | .error st => finish c st [] 0 0 s
        | .ok x => finish c .ok (sha384 m) 0 0 (installModel slot p m x s)

def execModelLoad (c : CmdCtx) (slot : Nat) (bref : Bref) (s : State) : Host.Outcome State Fault Refusal :=
  .next (runCmd c 0x300 (fun s => slotCheck c slot s <|> firstFail [(!brefForm c bref 0, .badParam)]) (modelLoadWork c slot bref) s)

/-! ### Unloading (09 R303) -/

/-- Zero the physical bytes of a run of pages, which makes them sound. -/
def zeroPages (p first n : Nat) (s : State) : State :=
  (List.range n).foldl (fun s i => match s.physPage p (first + i) with
    | none => s
    | some g =>
      let lo := g * pageBytes
      let hi := lo + pageBytes
      { s.noteEpoch [(lo / 64, pageBytes / 64)] with
               hbm := memClear s.hbm lo hi,
               darn := { s.darn with poisonHbm := s.darn.poisonHbm.filter (fun u => decide (u < lo / 64 ∨ hi / 64 ≤ u)) } }) s

/-- Zero the WP lines of a model's shares. -/
def zeroWpLines (p : Nat) (t : Tensor) (s : State) : State :=
  let mine : Nat → Line → Bool := fun k l => l.wp && decide (l.part = p)
    && (List.range t.tiles.length).any (fun j =>
        let a := lineKey (nth 0 t.tiles j) (nth 0 t.shares j)
        decide (a ≤ k) && decide (k < a + t.need / 128))
  let gone := (s.tiles.lines.filter (fun e => mine e.1 e.2)).map (·.1)
  { s with tiles := { s.tiles with
      mem := gone.foldl (fun m k => memClear m (k * 128) (k * 128 + 128)) s.tiles.mem,
      lines := s.tiles.lines.map (fun e => if gone.contains e.1 then (e.1, { e.2 with wp := false, poison := false }) else e) } }

/-- RINSE zeroes the weight region of a model; the content is gone from the walk's start on (log 57). -/
def zeroWeights (n : Nat) (s : State) : State :=
  let x := s.slot n
  if x.wp then (x.runs.filter (fun r => r.2.2)).foldl (fun s r => zeroPages (s.slotOwner n) r.1 r.2.1 s) s else s

/-- The walk over a model's weight region starts. -/
def startWipe (n : Nat) (s : State) : State :=
  (settleWalks (zeroWeights n s)).modSlot n (fun x => { x with wipe := some { done := 0, mark := s.now, charged := 0 } })

/-- Free what a slot holds; the slot becomes EMPTY. -/
def emptySlot (n : Nat) (s : State) : State :=
  let x := s.slot n
  let p := s.slotOwner n
  let s := zeroWeights n (settleWalks s)
  let s := match x.wp, x.tens with | true, some t => zeroWpLines p t s | _, _ => s
  let s := x.runs.foldl (fun s r => dropRun p r.1 r.2.1 s) s
  let pages := x.runs.foldl (fun m r => smDelRange m (p * 2 ^ 27 + r.1) (p * 2 ^ 27 + r.1 + r.2.1)) s.pages
  { s with pages := pages, slots := smDel s.slots n }

/-- An unloading slot whose events and batches are done becomes EMPTY, and MODEL_UNLOAD replies; where the model is WP, RINSE
walks its weight region first. -/
def unloadDue (n : Nat) (s : State) : State :=
  let x := s.slot n
  if x.state = 4 ∧ x.evq = [] ∧ x.filling = [] ∧ x.batches = [] ∧ !x.training then
    if x.wp ∧ x.wipeBytes ≠ 0 ∧ x.wipe = none then startWipe n s
    else if x.wp ∧ wipeDone s x < x.wipeBytes then s
    else
      let s := emptySlot n s
      match x.unloadCtx with | some c => finish c .ok [] 0 0 s | none => s
  else s

/-- MODEL_UNLOAD: a filling batch is dispatched in its time and completes (log 48). -/
def modelUnloadWork (c : CmdCtx) (slot : Nat) (s : State) : State :=
  let s := retireDue c.part s
  let x := s.slot slot
  match x.state with
  | 0 => finish c .badParam [] 0 0 s
  | 2 => unloadDue slot (s.setSlot slot { x with state := 4, unloadCtx := some c })
  | _ => finish c .busy [] 0 0 s

def execModelUnload (c : CmdCtx) (slot : Nat) (s : State) : Host.Outcome State Fault Refusal :=
  .next (runCmd c 0x301 (slotCheck c slot) (modelUnloadWork c slot) s)

/-! ### What ends a slot's work -/

/-- EVENT_ENSEMBLE_EVAL. -/
def execEventEnsembleEval (slot : Nat) (s : State) : Host.Outcome State Fault Refusal := .next (unloadDue slot (eventEval slot s))

/-- BATCH_COMPLETE. -/
def execBatchComplete (slot : Nat) (s : State) : Host.Outcome State Fault Refusal := .next (unloadDue slot (batchComplete slot s))

/-! ### THRESH_READ (06 R205) -/

/-- a ÷ n in parts per million; with n 0 the manual gives no value, and it is free (log 9). -/
def alarmRate (t : Thr) (s : State) : Nat × State :=
  if t.lastN = 0 then drawBelow s (2 ^ 32) else (t.lastA * 1000000 / t.lastN, s)

def threshReadCheck (c : CmdCtx) (slot : Nat) (s : State) : Option Status :=
  slotCheck c slot s <|> firstFail [((thrBounds (s.slot slot)).isNone, .badParam)]

def threshReadWork (c : CmdCtx) (slot : Nat) (s : State) : State :=
  let s := thresholdPeriod slot s
  let t := (s.slot slot).thr
  let (r, s) := alarmRate t s
  finish c .ok (leBytesI 8 t.theta ++ leBytes 8 t.step ++ leBytes 8 t.lastN ++ leBytes 8 t.lastA ++ leBytes 4 r) 0 0 s

def execThreshRead (c : CmdCtx) (slot : Nat) (s : State) : Host.Outcome State Fault Refusal :=
  .next (runCmd c 0x331 (threshReadCheck c slot) (threshReadWork c slot) s)

end Sys2Proof.Machine
end

