-- ==== Sys2Proof/Machine/Train.lean ====
section
/-! DEFINITION. In-place learning (08 R270 to R276): a training step of a model slot. Its command lists run to their end
within the command (log 13). -/

namespace Sys2Proof.Machine

/-! ### The batch record (08 R270) -/

/-- The nodes of a record. -/
def trainGroup (b : Bytes) : List Nat := (List.range (uAt b 4 2)).map (fun i => uAt b (8 + 2 * i) 2)

/-- The bytes before the vectors, and of the whole record. -/
def trainHead (b : Bytes) : Nat := 8 + ceilDiv (2 * uAt b 4 2) 8 * 8
def trainSize (b : Bytes) : Nat := trainHead b + 512 * uAt b 0 4

/-- A list of node IDs that names a group with this node (07 R242). -/
def groupOk (s : State) (g : List Nat) : Bool :=
  inR g.length 2 16384 && strictRising g && g.all (fun n => decide (n < 16384)) && s.fab.joined && g.contains s.fab.nodeId

/-- The record's own limits. -/
def trainRecOk (s : State) (b : Bytes) : Bool :=
  inR (uAt b 0 4) 1 1024 && rsvZero b 6 2 && (decide (uAt b 4 2 = 0) || groupOk s (trainGroup b))
    && rsvZero b (8 + 2 * uAt b 4 2) (trainHead b - 8 - 2 * uAt b 4 2)

/-- The words of each vector. -/
def trainRows (b : Bytes) : List (List Word) :=
  (records 512 (uAt b 0 4) (b.drop (trainHead b))).map (fun r => (List.range 128).map (fun k => w32 (uAt r (4 * k) 4)))

/-! ### Tensors of the training descriptor (09 R286) -/

/-- A trainable tensor: its weights, gradient and momentum as offsets in their regions, and its elements. -/
structure TrainTens where
  w : Nat
  g : Nat
  m : Nat
  n : Nat
  deriving DecidableEq, Repr

def Tensor.trainTens (t : Tensor) : List TrainTens :=
  (records 32 (uAt t.train 0 2) (t.train.drop 16)).map (fun r =>
    { w := uAt r 0 8 % 2 ^ 48, g := uAt r 8 8 % 2 ^ 48, m := uAt r 16 8 % 2 ^ 48, n := uAt r 24 4 })

/-- The descriptor of a trained tensor's super-blocks at an address. -/
def trainDesc (fmt base cb : Nat) : Desc := { Desc.empty with base := base, fmt := fmt, smode := 1, cbAddr := cb }

/-- The momentum codebook in the weight copy in service. -/
def Tensor.codebook (t : Tensor) (copy p : Nat) (s : State) : Codebook :=
  readCb s p (trainDesc 9 0 (nth 0 t.wReg copy + uAt t.train 8 8 % 2 ^ 48))

/-- Every span of the training descriptor lies in its region (log 49). -/
def Tensor.trainFits (t : Tensor) (esc : Bool) : Bool :=
  decide (uAt t.train 8 8 % 2 ^ 48 + cbSize 9 ≤ t.wSize)
    && t.trainTens.all (fun x => decide (x.w + x.n / 2048 * sbBytes 0 false ≤ t.wSize) && decide (x.g + 4 * x.n ≤ t.workSize)
        && decide (x.m + x.n / 2048 * sbBytes 9 esc ≤ t.stateSize))

/-- The format of a trained weight tensor: that of the first descriptor of the model's lists on it; where none names it,
it is free (log 49). -/
def Tensor.weightFmt (t : Tensor) (x : TrainTens) (s : State) : Nat × State :=
  let ds := t.cmds.flatMap (fun c => (records 128 (uAt c 3 1) (c.drop 64)).map descOf)
  match ds.find? (fun d => decide (d.base = 2 ^ 60 + x.w) && decide (d.smode = 1) && decide (d.fmt ≤ 1)) with
  | some d => (d.fmt, s)
  | none => let (b, s) := drawBool s; (b2n b, s)

/-! ### Running the lists (08 R271 step 2) -/

/-- Run one command on its tile, with its counts. -/
def trainCmd (c : CmdCtx) (b : Bytes) (s : State) : Status × State :=
  let p := c.part
  let t := tileCmdOf b
  if s.isFenced (tileUnit t.tile) then (.aborted, s)
  else match tcCheck s p false (some t.tile) t with
    | some st => (st, s)
    | none =>
      let x : TCmd := { id := 0, job := 0, idx := 0, part := p, host := false, bytes := b, state := 1, tile := t.tile, since := s.now }
      let (r, u) := runTile p true t s
      let base := runBase x t r.wide u
      let (n, u) := runCycles x t r.wide u
      (r.status, streamWait x (some c) (s.idOf c) (n - base) (profileOf c s (countRun x r n u)))

/-- Run commands in order until one does not end with OK. -/
def trainCmds (c : CmdCtx) : List Bytes → State → Status × State
  | [], s => (.ok, s)
  | b :: r, s => match trainCmd c b s with
    | (.ok, s) => trainCmds c r s
    | x => x

/-! ### Gradients (08 R271 step 3) -/

/-- The FP32 bits of n elements at an address. -/
def wordsAt (s : State) (p a n : Nat) : List Nat := (records 4 n (tread s p a (4 * n))).map (fun b => uAt b 0 4)

/-- Encode FP32 values by super-blocks. -/
def encodeAll (g : Grid) (xs : List Nat) : List SbEnc :=
  (groups 2048 xs.length xs).map (encodeSb g (noneOf 2048) (noneOf 2048))

def encBytes (l : List SbEnc) : Bytes := l.flatMap (·.bytes)
def encClip (l : List SbEnc) : Nat := (l.map (fun e => e.nonfin + e.clip)).foldl (· + ·) 0

/-- Decode the E5M2 super-blocks of n elements. -/
def gradValues (n : Nat) (b : Bytes) : List Nat :=
  (records (sbBytes 2 false) (n / 2048) b).flatMap (fun x => (decodeSb (fmtValue 2) none x).1)

/-- Encode the gradients of every tensor. -/
def gradients (p : Nat) (t : Tensor) (s : State) : List (List SbEnc) :=
  t.trainTens.map (fun x => encodeAll (plainGrid 2) (wordsAt s p (t.workReg + x.g) x.n))

/-- Some gradient is poisoned. -/
def gradPoison (p : Nat) (t : Tensor) (s : State) : Bool := t.trainTens.any (fun x => tpoison s p (t.workReg + x.g) (4 * x.n))

/-- The header of a contribution (08 R272; log 50): the step number and each tensor's element count. -/
def gradHeader (x : Slot) (t : Tensor) : Bytes :=
  pad8 (leBytes 4 x.step ++ leBytes 4 t.trainTens.length ++ t.trainTens.flatMap (fun e => leBytes 4 e.n))

/-! ### The update (08 R273, R274) -/

/-- What the update of a tensor gives: new momentum and weights, the counts, and escapes beyond a side list. -/
structure Update where
  mom   : Bytes
  wts   : Bytes
  clamp : Nat
  sat   : Nat
  overs : Nat
  deriving DecidableEq, Repr

/-- Finite FP32 bits. -/
def isFinite (v : Nat) : Bool := match f32Val v with | .fin _ _ _ => true | _ => false

/-- Update one super-block: gradient, momentum and weight bytes in, new ones out. -/
def updateSb (lr mom : Nat) (cb : Codebook) (fmt : Nat) (draws : List Nat) (g : List Nat) (m w : Bytes) : Update :=
  let cg := cbGrid cb
  let ext := extremeCode 9 cb
  let esc := if cb.esc then some ext else none
  let (m0, overs) := decodeSb (cbValue cb) esc m
  let m1 := List.zipWith (fun a b => f32Add (f32Mul mom a) b) m0 g
  let me := encodeSb cg (noneOf 2048) (noneOf 2048) m1
  let mh := (decodeSb (cbValue cb) esc me.bytes).1
  let w0 := (decodeSb (fmtValue fmt) none w).1
  let w1 := List.zipWith (fun a b => f32Bits ((f32Val a).add (f32Val (f32Mul lr b)).neg)) w0 mh
  let keep := List.zipWith (fun v c => if isFinite v then none else some c.1) w1 (sbCodes false w)
  let we := encodeSb (plainGrid fmt) (draws.map some) keep (w1.map (fun v => if isFinite v then v else 0))
  { mom := me.bytes, wts := we.bytes, clamp := me.clamp, sat := (keep.filter (·.isSome)).length, overs := overs }

/-- Join the updates of a tensor's super-blocks. -/
def Update.join (a b : Update) : Update :=
  { mom := a.mom ++ b.mom, wts := a.wts ++ b.wts, clamp := a.clamp + b.clamp, sat := a.sat + b.sat, overs := a.overs + b.overs }

def Update.nothing : Update := { mom := [], wts := [], clamp := 0, sat := 0, overs := 0 }

/-- Update tensor j. -/
def updateTensor (p : Nat) (t : Tensor) (copy lr mom : Nat) (seed : DWord) (cb : Codebook) (j fmt : Nat) (x : TrainTens)
    (g : List Nat) (s : State) : Update :=
  let k := x.n / 2048
  let ms := records (sbBytes 9 cb.esc) k (tread s p (t.stateReg + x.m) (k * sbBytes 9 cb.esc))
  let ws := records (sbBytes 0 false) k (tread s p (nth 0 t.wReg copy + x.w) (k * sbBytes 0 false))
  let gs := groups 2048 g.length g
  (List.range k).foldl (fun u i => u.join
    (updateSb lr mom cb fmt (lfsrDraws 2048 (lfsrReload seed j i)) (nth [] gs i) (nth [] ms i) (nth [] ws i))) Update.nothing

/-- Poison in the momentum or the weights. -/
def statePoison (p : Nat) (t : Tensor) (copy : Nat) (esc : Bool) (s : State) : Bool :=
  t.trainTens.any (fun x => tpoison s p (t.stateReg + x.m) (x.n / 2048 * sbBytes 9 esc)
    || tpoison s p (nth 0 t.wReg copy + x.w) (x.n / 2048 * sbBytes 0 false))

/-! ### Putting the new copy in service (08 R275) -/

/-- Shift the addresses of a command's PRESS record that lie in `n` bytes from one address to another. -/
def shiftPress (p : Nat) (t : Tensor) (from_ n to_ : Nat) (s : State) (cmd : Bytes) : State :=
  let a := relocAddr (t.reloc 0) (uAt cmd 24 8)
  if uAt cmd 0 1 = 1 ∧ uAt cmd 24 8 ≠ 0 then
    let move := fun (b : Bytes) (off : Nat) =>
      let v := uAt b off 8
      if from_ ≤ v ∧ v < from_ + n then splice b off (leBytes 8 (v - from_ + to_)) else b
    s.hbmWrite p a (pressAddrs.foldl move (s.hbmRead p a 352))
  else s

/-- The INPUT addresses of the PRESS records move from the batch input buffer to the training input region, or back
(09 R283; log 51). -/
def shiftInputs (p : Nat) (t : Tensor) (training : Bool) (s : State) : State :=
  let n := inBufBytes t.inFmt t.kIn 1024
  t.cmds.foldl (if training then shiftPress p t t.inputAddr n t.trainReg else shiftPress p t t.trainReg n t.inputAddr) s

/-- A running batch whose first command has not started takes the new copy. -/
def restartBatch (n : Nat) (s : State) : State :=
  match batchJob s n with
  | some j =>
    if (jobCmds s j.id).all (fun c => decide (c.state = 0)) then
      startBatch n ((forgetJob j.id s).modSlot n (fun x => { x with running := false }))
    else s
  | none => s

/-- The weight copies swap, and the step number rises. -/
def swapCopies (n p : Nat) (t : Tensor) (s : State) : State :=
  let old := (s.slot n).copy
  let s := t.cmds.foldl (shiftPress p t (nth 0 t.wReg old) t.wSize (nth 0 t.wReg (1 - old))) s
  let s := dropRun p (nth 0 t.wReg (1 - old) / pageBytes) (pagesFor t.wSize) s
  restartBatch n (s.modSlot n (fun x => { x with copy := 1 - old, step := x.step + 1 }))

/-! ### The end of a step (08 R276) -/

/-- A step ends without effect on the model. -/
def trainFail (c : CmdCtx) (n : Nat) (st : Status) (s : State) : State :=
  unloadDue n (finish c st [] 0 0 (s.modSlot n (fun x => { x with training := false })))

/-- Steps 5 to 7 with the gradients of the group. -/
def trainEnd (c : CmdCtx) (n : Nat) (seed : DWord) (clip : Nat) (grads : List (List Nat)) (s : State) : State :=
  let p := c.part
  let x := s.slot n
  match x.tens with
  | none => trainFail c n .aborted s
  | some t =>
    let cb := t.codebook x.copy p s
    if statePoison p t x.copy cb.esc s then trainFail c n .dataPoisoned s
    else
      let lr := s.fact .trainLr n
      let mom := s.fact .trainMom n
      let step := fun (acc : List Update × State) (e : (TrainTens × List Nat) × Nat) =>
        let (f, s) := t.weightFmt e.1.1 acc.2
        (acc.1 ++ [updateTensor p t x.copy lr mom seed cb e.2 f e.1.1 e.1.2 s], s)
      let (us, s) := ((List.zip t.trainTens grads).zipIdx).foldl step ([], s)
      let s := profiled c (fun s => (List.zip t.trainTens us).foldl (fun s e => twrites p true
        [{ addr := t.stateReg + e.1.m, bytes := e.2.mom, poison := false },
         { addr := nth 0 t.wReg (1 - x.copy) + e.1.w, bytes := e.2.wts, poison := false }] s) s) s
      let all := us.foldl Update.join Update.nothing
      let s := s.count (.tile (nth 0 t.tiles 0) .escOverflow) all.overs
      let s := swapCopies n p t (s.modSlot n (fun y => { y with training := false }))
      unloadDue n (finish c .ok (leBytes 4 (s.slot n).step ++ leBytes 4 clip ++ leBytes 4 all.clamp ++ leBytes 4 all.sat) 0 0 s)

/-! ### Steps 1 to 3 -/

/-- Run the lists of a step on a record; the status that ends it early, or the encoded gradients. -/
def trainRun (c : CmdCtx) (n : Nat) (t : Tensor) (b : Bytes) (s : State) : Except Status (List (List SbEnc)) × State :=
  let p := c.part
  let x := s.slot n
  let cb := t.codebook x.copy p s
  if !cbOk (trainDesc 9 0 0) cb then (.error .badParam, s)
  else if !t.trainFits cb.esc then (.error .rangeFault, s)
  else
    let s := (s.takeShadow .trainLr n).takeShadow .trainMom n
    let s := profiled c (writeVectors p t t.trainReg (trainRows b)) s
    let (st, s) := trainCmds c (t.cmds.map (relocCmd (x.reloc t t.trainReg) (uAt b 0 4))) (shiftInputs p t true s)
    let s := shiftInputs p t false s
    if st ≠ .ok then (.error st, s)
    else if gradPoison p t s then (.error .dataPoisoned, s)
    else (.ok (gradients p t s), s)

/-- The record of a TRAIN_STEP, read and checked: BUSY while a step or an unload runs. -/
def trainRecord (c : CmdCtx) (slot : Nat) (b : Bref) (s : State) : Except Status Bytes :=
  let x := s.slot slot
  if x.training ∨ x.state = 4 then .error .busy
  else match brefStatus c b 0 (min b.size 8) s with
    | some st => .error st
    | none =>
      let h := brefRead c b 8 s
      if b.size < 8 ∨ b.size < trainSize h then .error .badLength
      else match brefStatus c b 0 (trainSize h) s with
        | some st => .error st
        | none =>
          let r := brefRead c b (trainSize h) s
          if trainRecOk s r then .ok r else .error .badParam

/-- TRAIN_STEP needs a TRAINABLE model in a slot of the caller (08 R270). -/
def trainCheck (c : CmdCtx) (slot : Nat) (b : Bref) (s : State) : Option Status :=
  slotCheck c slot s <|> firstFail [(!(s.slot slot).trainable || !brefForm c b 0, .badParam)]

end Sys2Proof.Machine
end

