-- ==== Sys2Proof/Machine/Collect.lean ====
section
/-! DEFINITION. Collectives and gradient exchange (07 R242, R243, 08 R272, 11 R359): COLLECTIVE_RUN, TRAIN_STEP, COLL_SEG,
GRAD_SEG and what a command's timeout ends. -/

namespace Sys2Proof.Machine

/-! ### Pieces -/

/-- Bytes of a segment. -/
def segBytes : Nat := 4096

/-- The segments of n bytes, and segment k of a stream. -/
def segCount (n : Nat) : Nat := ceilDiv n segBytes
def segOf (b : Bytes) (k : Nat) : Bytes := slice b (segBytes * k) segBytes

/-- The segment index of an announcement (log 52). -/
def announceIdx : Nat := 0xffffffff

/-- A segment that a collective has received. -/
def Coll.seg (x : Coll) (src k : Nat) : Option Bytes :=
  (x.got.find? (fun g => decide (g.1 = src) && decide (g.2.1 = k))).map (·.2.2)

/-- The segments from a source that have come without a gap, up to n. -/
def Coll.run (x : Coll) (src : Nat) : (n k : Nat) → Nat
  | 0, k => k
  | n + 1, k => if (x.seg src k).isSome then x.run src n (k + 1) else k

/-- Every segment of a stream of n bytes from a source has come. -/
def Coll.whole (x : Coll) (src n : Nat) : Bool := (List.range (segCount n)).all (fun k => (x.seg src k).isSome)

/-- The bytes of a stream of n bytes from a source. -/
def Coll.stream (x : Coll) (src n : Nat) : Bytes := fitTo n ((List.range (segCount n)).flatMap (fun k => (x.seg src k).getD []))

def State.setColls (s : State) (l : List Coll) : State := { s with tiles := { s.tiles with colls := l } }
def State.modColl (s : State) (c : CmdCtx) (f : Coll → Coll) : State :=
  s.setColls (updFirst (fun x => decide (x.ctx = c)) f s.tiles.colls)
def State.dropColl (s : State) (c : CmdCtx) : State := s.setColls (delFirst (fun x => decide (x.ctx = c)) s.tiles.colls)

/-- The other members of a group. -/
def Coll.others (x : Coll) (s : State) : List Nat := x.group.filter (fun n => decide (n ≠ s.fab.nodeId))

/-! ### Sums (07 R243) -/

/-- The bytes of an element of a chain stream: a BF16 tensor travels the chain as FP32 (log 52). -/
def widen (fmt : Nat) (b : Bytes) : Bytes :=
  if fmt = 3 then (records 2 (b.length / 2) b).flatMap (fun x => leBytes 4 (uAt x 0 2 * 65536)) else b

/-- The element stream of a chain stream. -/
def narrow (fmt : Nat) (b : Bytes) : Bytes :=
  if fmt = 3 then (records 4 (b.length / 4) b).flatMap (fun x => leBytes 2 (ieeeBits 8 7 (f32Val (uAt x 0 4)))) else b

/-- The sum of two pieces of a chain stream. -/
def addPiece (fmt : Nat) (a b : Bytes) : Bytes :=
  (List.zipWith (fun x y =>
    let u := uAt x 0 4
    let v := uAt y 0 4
    leBytes 4 (if fmt = 4 then (u + v) % 2 ^ 32 else f32Add u v)) (records 4 (a.length / 4) a) (records 4 (b.length / 4) b)).flatten

/-! ### The tensor of a collective -/

/-- The descriptor as a read of its data positions. -/
def collRead (d : Desc) : Desc := { collWrite d with op := 0, padB := [0, 0, 0, 0, 0], padA := [0, 0, 0, 0, 0] }

/-- The bytes of the smallest part of a tensor that moves whole: an element, two CB4 codes, or a super-block. -/
def collUnit (d : Desc) (esc : Bool) : Nat := if d.record then sbBytes d.fmt esc else ceilDiv (fmtBits d.fmt) 8

/-- Slice i of n units over g members (log 52), as a byte offset and length. -/
def sliceOf (unit n g i : Nat) : Nat × Nat := (i * n / g * unit, ((i + 1) * n / g - i * n / g) * unit)

/-- The formats of a kind: sums take FP32, BF16 and INT32. -/
def collFmtOk (kind : Nat) (d : Desc) : Bool :=
  decide (d.op ≤ 1) && (decide (2 ≤ kind) || (decide (d.smode = 0) && [3, 4, 5].contains d.fmt))

/-- The position of this node in a group. -/
def Coll.me (x : Coll) (s : State) : Nat := (x.group.takeWhile (fun n => decide (n ≠ s.fab.nodeId))).length
def Coll.size (x : Coll) : Nat := x.group.length
def Coll.node (x : Coll) (i : Nat) : Nat := nth 0 x.group i
def Coll.fmt (x : Coll) : Nat := (descOf x.desc).fmt

/-- Slice i of a collective. -/
def Coll.share (x : Coll) (s : State) (i : Nat) : Nat × Nat :=
  let d := descOf x.desc
  let u := collUnit d (readCb s x.part d).esc
  sliceOf u (x.own.length / u) x.size i

/-! ### Calls (11 R359)

A call is named by what it belongs to, COLLECTIVE_RUN or TRAIN_STEP, by its group and by its number among those calls: the k-th
call of a partition with a group list meets the k-th such call on every other member. A segment's ARG holds its index alone, so
a member announces a call to another before the first segment of it, and again before one that follows segments of another
call (log 52). -/

/-- What the calls of a group are counted under. -/
def callGroup (train : Bool) (group : List Nat) : Bytes := leBytes 1 (b2n train) ++ sha384 (group.flatMap (leBytes 2))

/-- The calls of a partition with a group that this member has made. -/
def callsMade (s : State) (p : Nat) (g : Bytes) : Nat :=
  match s.tiles.collCalls.find? (fun e => decide (e.1 = leBytes 1 p ++ g)) with | some e => e.2 | none => 0

/-- The name of a partition's next call with a group, which is then made. -/
def newCall (train : Bool) (p : Nat) (group : List Nat) (s : State) : Bytes × State :=
  let g := callGroup train group
  let n := callsMade s p g
  let k : Bytes := leBytes 1 p ++ g
  (g ++ leBytes 8 n, { s with tiles := { s.tiles with
    collCalls := s.tiles.collCalls.filter (fun e => decide (e.1 ≠ k)) ++ [(k, n + 1)] } })

/-- A call that this member has made already. -/
def callOver (s : State) (p : Nat) (call : Bytes) : Bool := decide (leNat (call.drop 49) < callsMade s p (call.take 49))

/-- The key of a node and a partition. -/
def peerKey (node p : Nat) : Nat := node * 128 + p

/-- The kind of a call as its announcement names it. -/
def Coll.kindCode (x : Coll) : Nat := if x.train.isSome then 4 else x.kind

/-- The message type of a call's segments. -/
def Coll.mtype (x : Coll) : Nat := if x.train.isSome then 0x21 else 0x20

/-- What every member must agree on (07 R242): the kind, the format and the number of elements; and the call's name. -/
def agreeBody (x : Coll) : Bytes :=
  if x.train.isSome then leBytes 1 4 ++ zeros 15
  else
    let d := collRead (descOf x.desc)
    leBytes 1 x.kind ++ leBytes 1 d.fmt ++ zeros 6 ++ leBytes 8 d.dataCount
def announceBody (x : Coll) : Bytes := agreeBody x ++ x.call

/-- Announce a call to a node. -/
def announce (x : Coll) (dst : Nat) (s : State) : State :=
  if (routeLink s dst s.fab.nodeId 2).isNone then sendMsg dst 2 x.mtype x.part (w32 announceIdx) (announceBody x) s
  else
    let s := sendMsg dst 2 x.mtype x.part (w32 announceIdx) (announceBody x) s
    { s with tiles := { s.tiles with collTo := smSet s.tiles.collTo (peerKey dst x.part) x.call } }

/-- Send segment k of a stream to a node. -/
def sendSeg (x : Coll) (dst : Nat) (b : Bytes) (s : State) (k : Nat) : State :=
  let s := if smFind s.tiles.collTo (peerKey dst x.part) = some x.call then s else announce x dst s
  sendMsg dst 2 x.mtype x.part (w32 k) (segOf b k) s

/-- Send segments to several nodes. -/
def sendSegs (x : Coll) (dsts : List Nat) (b : Bytes) (ks : List Nat) (s : State) : State :=
  ks.foldl (fun s k => dsts.foldl (fun s d => sendSeg x d b s k) s) s

/-- Every other member has announced the call. -/
def Coll.announced (x : Coll) (s : State) : Bool := (x.others s).all (fun n => (x.seg n announceIdx).isSome)

/-- Some member's announcement differs. -/
def Coll.mismatch (x : Coll) : Bool :=
  x.got.any (fun g => decide (g.2.1 = announceIdx) && decide (g.2.2.take 16 ≠ agreeBody x))

/-- The segments that have come for a call early go to it. -/
def takeEarly (x : Coll) (s : State) : Coll × State :=
  let mine : CollIn → Bool := fun e => decide (e.part = x.part) && decide (e.call = x.call)
  ({ x with got := (s.tiles.collIn.filter mine).map (fun e => (e.src, e.idx, e.body)) },
   { s with tiles := { s.tiles with collIn := s.tiles.collIn.filter (fun e => !mine e) } })

/-! ### The chain (11 R359) -/

/-- The bytes of the chain stream. -/
def Coll.chain (x : Coll) : Nat := (widen x.fmt x.own).length

/-- The chain segments that this member can sum. -/
def Coll.ready (x : Coll) (s : State) : Nat :=
  let n := segCount x.chain
  if x.me s = 0 then n else x.run (x.node (x.me s - 1)) n 0

/-- The first n segments of the chain's sum up to this member. -/
def Coll.sum (x : Coll) (s : State) (n : Nat) : Bytes :=
  let w := widen x.fmt x.own
  (List.range n).flatMap (fun k =>
    if x.me s = 0 then segOf w k
    else addPiece x.fmt ((x.seg (x.node (x.me s - 1)) k).getD []) (segOf w k))

/-- The numbers from a to b - 1. -/
def spanOf (a b : Nat) : List Nat := (List.range (b - a)).map (fun i => a + i)

/-- Pass on what the chain has made ready: the next member's segments, or at the chain's end the finished ones. -/
def chainSend (x : Coll) (s : State) : State :=
  let n := x.ready s
  let b := x.sum s n
  let sendSegs := fun (x : Coll) (dsts : List Nat) (b : Bytes) (ks : List Nat) (s : State) => profiled x.ctx (sendSegs x dsts b ks) s
  let mark := fun (k : Nat) (s : State) => s.modColl x.ctx (fun y => { y with sent := k })
  if x.me s + 1 < x.size then
    mark n (sendSegs x [x.node (x.me s + 1)] b (spanOf x.sent n) s)
  else
    let f := narrow x.fmt b
    let all := decide (n = segCount x.chain)
    if x.kind = 0 then
      let k := if all then segCount x.own.length else f.length / segBytes
      mark k (sendSegs x (x.others s) f (spanOf x.sent k) s)
    else if all && decide (x.sent = 0) then
      mark 1 ((List.range (x.size - 1)).foldl (fun s i =>
        let (o, l) := x.share s i
        let b := slice f o l
        sendSegs x [x.node i] b (List.range (segCount l)) s) s)
    else s

/-- What a collective sends at its start beside its announcement. -/
def startSend (x : Coll) (s : State) : State :=
  let sendSegs := fun (x : Coll) (dsts : List Nat) (b : Bytes) (ks : List Nat) (s : State) => profiled x.ctx (sendSegs x dsts b ks) s
  match x.kind with
  | 0 | 1 => chainSend x s
  | 2 =>
    let (o, l) := x.share s (x.me s)
    sendSegs x (x.others s) (slice x.own o l) (List.range (segCount l)) s
  | _ => if x.me s = 0 then sendSegs x (x.others s) x.own (List.range (segCount x.own.length)) s else s

/-- The tensor that a collective leaves here, once every segment has come. -/
def Coll.result (x : Coll) (s : State) : Option Bytes :=
  let last := x.node (x.size - 1)
  let atEnd := decide (x.me s + 1 = x.size)
  let whole := decide (x.ready s = segCount x.chain)
  match x.kind with
  | 0 =>
    if atEnd then (if whole then some (narrow x.fmt (x.sum s (segCount x.chain))) else none)
    else if x.whole last x.own.length then some (x.stream last x.own.length) else none
  | 1 =>
    let (o, l) := x.share s (x.me s)
    if atEnd then (if whole then some (splice x.own o (slice (narrow x.fmt (x.sum s (segCount x.chain))) o l)) else none)
    else if x.whole last l then some (splice x.own o (x.stream last l)) else none
  | 2 =>
    let is := (List.range x.size).filter (fun i => decide (i ≠ x.me s))
    if is.all (fun i => x.whole (x.node i) (x.share s i).2) then
      some (is.foldl (fun b i => splice b (x.share s i).1 (x.stream (x.node i) (x.share s i).2)) x.own)
    else none
  | _ =>
    if x.me s = 0 then some x.own
    else if x.whole (x.node 0) x.own.length then some (x.stream (x.node 0) x.own.length) else none

/-- A collective that has every segment and every announcement commits its result and replies (11 R359); one of whose members
runs another call ends with BAD_PARAM (07 R242). -/
def collDue (x : Coll) (s : State) : State :=
  if x.mismatch then finish x.ctx .badParam [] 0 0 (s.dropColl x.ctx)
  else match x.result s, x.announced s with
  | none, _ | _, false => s
  | some b, true =>
    let s := profiled x.ctx (tensorPut x.part (collWrite (descOf x.desc)) b false) (s.dropColl x.ctx)
    finish x.ctx .ok (leBytes 8 s.now.toNat) 0 0 s

/-- The present form of a collective. -/
def State.coll (s : State) (c : CmdCtx) : Option Coll := s.tiles.colls.find? (fun x => decide (x.ctx = c))

/-- Pass on and finish what can be. -/
def collGo (c : CmdCtx) (s : State) : State :=
  match s.coll c with
  | none => s
  | some x =>
    let s := if x.kind ≤ 1 && !x.mismatch then chainSend x s else s
    match s.coll c with | some y => collDue y s | none => s

/-! ### COLLECTIVE_RUN (07 R242) -/

/-- Whether this member's own data goes to others, in a range of bytes. -/
def collGives (x : Coll) (s : State) : Nat × Nat :=
  match x.kind with
  | 2 => x.share s (x.me s)
  | 3 => if x.me s = 0 then (0, x.own.length) else (0, 0)
  | _ => (0, x.own.length)

/-- The bytes of the tensor, and the byte ranges of its poisoned units. -/
def collData (s : State) (p : Nat) (d : Desc) : Bytes × List (Nat × Nat) :=
  let c := readCb s p d
  let u := collUnit d c.esc
  let us : List (Bytes × Bool) :=
    if d.record then rawRuns s p d c.esc
    else
      let l := (d.walk (readIndexes s p d)).map (readStep s p d)
      (groups (if d.fmt = 8 then 2 else 1) l.length l).map (fun g => (packCodes (fmtBits d.fmt) g, g.any (·.poison)))
  (us.flatMap (·.1), (us.zipIdx.filter (fun e => e.1.2)).map (fun e => (e.2 * u, u)))

/-- The group of a BREF. -/
def collGroup (b : Bytes) : List Nat := (List.range (uAt b 0 2)).map (fun i => uAt b (2 + 2 * i) 2)

/-- The call itself, its descriptor checked. -/
def collStart (c : CmdCtx) (kind : Nat) (group : List Nat) (desc : Bytes) (s : State) : State :=
  let d := collRead (descOf desc)
  let (own, bad) := collData s c.part d
  let x : Coll := { ctx := c, part := c.part, train := none, kind := kind, group := group, desc := desc, own := own, seed := 0,
                    clip := 0, got := [], since := s.now, lastAt := s.now }
  let (o, l) := collGives x s
  if bad.any (fun r => decide (r.1 < o + l) && decide (o < r.1 + r.2)) then finish c .dataPoisoned [] 0 0 s
  else
    let (k, s) := newCall false c.part group s
    let (x, s) := takeEarly { x with call := k } s
    let s := s.setColls (s.tiles.colls ++ [x])
    let s := profiled c (fun s => (x.others s).foldl (fun s n => announce x n s) s) s
    let s := if 2 ≤ kind then startSend x s else s
    collGo c s

/-- The parameters of COLLECTIVE_RUN by themselves (02 R62 step 9); a group in host memory is among them. -/
def collCheck (c : CmdCtx) (kind : Nat) (group : Bref) (desc : Bytes) (s : State) : Option Status :=
  let d := descOf desc
  let n := 2 + 2 * uAt (brefRead c group 2 s) 0 2
  let host := decide (group.loc = 0)
  firstFail [(!brefForm c group 0, .badParam),
    (decide (group.size < 2) || (host && decide (group.size < n)), .badLength),
    ((host && !groupOk s (collGroup (brefRead c group n s))) || decide (3 < kind) || !formOk d || !collFmtOk kind d, .badParam)]

def collWork (c : CmdCtx) (kind : Nat) (group : Bref) (desc : Bytes) (s : State) : State :=
  let p := c.part
  let d := descOf desc
  match brefStatus c group 0 (min group.size 2) s with
  | some st => finish c st [] 0 0 s
  | none =>
    let n := 2 + 2 * uAt (brefRead c group 2 s) 0 2
    if group.size < 2 ∨ group.size < n then finish c .badLength [] 0 0 s
    else match brefStatus c group 0 n s with
      | some st => finish c st [] 0 0 s
      | none =>
        let g := collGroup (brefRead c group n s)
        if !groupOk s g then finish c .badParam [] 0 0 s
        else match (hostDescCheck s p d).orElse (fun _ => hostDescCheck s p (collWrite d)) with
          | some st => finish c st [] 0 0 (unlistXfer c s)
          | none =>
            if tensorWaits s c (xferFeet s p true desc) then waitCmd c (.collectiveRun c kind group desc) (listXfer c true desc s)
            else collStart c kind g desc (tensorResume c (unlistXfer c s))

/-- COLLECTIVE_RUN. -/
def execCollectiveRun (c : CmdCtx) (kind : Nat) (group : Bref) (desc : Bytes) (s : State) :
    Host.Outcome State Fault Refusal :=
  .next (runCmd c 0x530 (collCheck c kind group desc) (collWork c kind group desc) s)

/-! ### Receiving -/

/-- The call to which a message belongs: an announcement names it, and any other follows the last announcement from its
source. -/
def callOf (s : State) (m : Msg) : Bytes :=
  if m.arg.toNat = announceIdx then m.body.drop 16 else smGet [] s.tiles.collFrom (peerKey m.src m.part)

/-- The collective of a call. -/
def State.collCall (s : State) (p : Nat) (call : Bytes) : Option Coll :=
  s.tiles.colls.find? (fun x => decide (x.part = p) && decide (x.call = call))

/-- A call's wait for a segment is over: its trace record (15 R461), and the segment's bytes in the command's profile. -/
def segWait (x : Coll) (m : Msg) (s : State) : State :=
  let s := addCounts x.ctx (s.idOf x.ctx) (setNth (List.replicate 16 0) 11 (dw (16 + (pad8 m.body).length))) s
  if m.arg.toNat = announceIdx then s
  else
    let (unit, kind) := match x.train with | some n => (0x1c00 + n, 5) | none => (0, 4)
    traceWait x.part { cmdWait x.ctx x.lastAt s with unit := unit, partner := m.src, kind := kind } s

/-- A segment that this member lacks goes to its collective, or is kept for a call still to be made; any other is discarded. -/
def keepSeg (m : Msg) (s : State) : Option CmdCtx × State :=
  let call := callOf s m
  let s := takeMsg m s
  let s := { s with tiles := { s.tiles with collFrom := smSet s.tiles.collFrom (peerKey m.src m.part) call } }
  match s.collCall m.part call with
  | some x =>
    if (x.others s).contains m.src && (x.seg m.src m.arg.toNat).isNone then
      let now := if m.arg.toNat = announceIdx then x.lastAt else s.now
      (some x.ctx, (segWait x m s).modColl x.ctx (fun y => { y with got := y.got ++ [(m.src, m.arg.toNat, m.body)], lastAt := now }))
    else (none, s)
  | none =>
    let e : CollIn := { part := m.part, call := call, src := m.src, idx := m.arg.toNat, body := m.body }
    let old := decide (call.length ≠ 57) || callOver s m.part call
      || s.tiles.collIn.any (fun z => decide (z.part = e.part) && decide (z.call = call) && decide (z.src = e.src) && decide (z.idx = e.idx))
    (none, if old then s else { s with tiles := { s.tiles with collIn := s.tiles.collIn ++ [e] } })

/-- COLL_SEG. -/
def collSeg (m : Msg) (s : State) : State :=
  if s.up && s.fab.joined then
    match keepSeg m s with
    | (some c, s) => collGo c s
    | (none, s) => s
  else s

def execCollSeg (m : Msg) (s : State) : Host.Outcome State Fault Refusal := .next (collSeg m s)

/-! ### Gradient exchange (08 R272) -/

/-- The encoded gradient of a contribution, cut into its tensors' FP32 values. -/
def gradOf (t : Tensor) (head : Nat) (b : Bytes) : List (List Nat) :=
  (t.trainTens.foldl (fun acc x =>
    let n := x.n / 2048 * sbBytes 2 false
    (acc.1 ++ [gradValues x.n (slice b acc.2 n)], acc.2 + n)) (([] : List (List Nat)), head)).1

/-- The sum of contributions in ascending node ID. -/
def gradSum (l : List (List (List Nat))) : List (List Nat) :=
  match l with
  | [] => []
  | g :: r => r.foldl (fun a b => List.zipWith (List.zipWith f32Add) a b) g

/-- A step whose contributions have all come ends. -/
def trainDue (x : Coll) (n : Nat) (s : State) : State :=
  match (s.slot n).tens with
  | none => s
  | some t =>
    if (x.others s).all (fun k => x.whole k x.own.length) then
      let of_ := fun k => gradOf t x.desc.length (if k = s.fab.nodeId then x.own else x.stream k x.own.length)
      let enc := (gradSum (x.group.map of_)).map (encodeAll (plainGrid 2))
      let clip := x.clip + (enc.map encClip).foldl (· + ·) 0
      let g := List.zipWith (fun (e : TrainTens) l => gradValues e.n (encBytes l)) t.trainTens enc
      trainEnd x.ctx n x.seed clip g (s.dropColl x.ctx)
    else s

/-- The part of a contribution's header that segment k holds is this step's own. -/
def headerAgrees (x : Coll) (k : Nat) (b : Bytes) : Bool :=
  let n := min segBytes (x.desc.length - segBytes * k)
  decide (slice b 0 n = slice x.desc (segBytes * k) n)

/-- A step goes on: a contribution whose step number or counts differ ends it (08 R272). -/
def trainGo (c : CmdCtx) (s : State) : State :=
  match s.coll c with
  | none => s
  | some x =>
    let n := x.train.getD 0
    if x.got.all (fun g => decide (g.2.1 = announceIdx) || headerAgrees x g.2.1 g.2.2) then trainDue x n s
    else trainFail x.ctx n .badParam (s.dropColl x.ctx)

/-- GRAD_SEG. -/
def gradSeg (m : Msg) (s : State) : State :=
  if s.up && s.fab.joined then
    match keepSeg m s with
    | (some c, s) => trainGo c s
    | (none, s) => s
  else s

def execGradSeg (m : Msg) (s : State) : Host.Outcome State Fault Refusal := .next (gradSeg m s)

/-! ### TRAIN_STEP (08 R270 to R272) -/

/-- The exchange begins: the contribution goes to every other member. -/
def trainExchange (c : CmdCtx) (n : Nat) (t : Tensor) (group : List Nat) (seed : DWord) (enc : List (List SbEnc)) (s : State) : State :=
  let h := gradHeader (s.slot n) t
  let x : Coll := { ctx := c, part := c.part, train := some n, kind := 0, group := group, desc := h, own := h ++ enc.flatMap encBytes,
                    seed := seed, clip := (enc.map encClip).foldl (· + ·) 0, got := [], since := s.now, lastAt := s.now }
  let (k, s) := newCall true c.part group s
  let (x, s) := takeEarly { x with call := k } s
  let s := (s.modSlot n (fun y => { y with training := true })).setColls (s.tiles.colls ++ [x])
  trainGo c (profiled c (sendSegs x (x.others s) x.own (List.range (segCount x.own.length))) s)

def trainWork (c : CmdCtx) (slot : Nat) (b : Bref) (seed : DWord) (s : State) : State :=
  match trainRecord c slot b s, (s.slot slot).tens with
  | .error st, _ => finish c st [] 0 0 s
  | .ok _, none => finish c .badParam [] 0 0 s
  | .ok r, some t =>
    match trainRun c slot t r (brefCharge c b r.length s) with
    | (.error st, s) => trainFail c slot st s
    | (.ok enc, s) =>
      if uAt r 4 2 = 0 then
        let g := List.zipWith (fun (e : TrainTens) l => gradValues e.n (encBytes l)) t.trainTens enc
        trainEnd c slot seed ((enc.map encClip).foldl (· + ·) 0) g s
      else trainExchange c slot t (trainGroup r) seed enc s

/-- TRAIN_STEP. -/
def execTrainStep (c : CmdCtx) (slot : Nat) (bref : Bref) (seed : DWord) (s : State) : Host.Outcome State Fault Refusal :=
  .next (runCmd c 0x330 (trainCheck c slot bref) (trainWork c slot bref seed) s)

/-! ### CMD_TIMEOUT (02 R61, 11 R359, 08 R272) -/

/-- A collective of an entry has waited longer than its ring's CMD_TIMEOUT. -/
def collTimedOut (s : State) (r : Ring) (seq : Word) (e : InFlight) : Bool :=
  decide (e.ctx.seq = seq) && e.reply.isNone && decide (r.cmdTimeout ≠ 0)
    && s.tiles.colls.any (fun x => decide (x.ctx = e.ctx) && decide (x.since.toNat + r.cmdTimeout.toNat * 1000000 < s.now.toNat))

/-- A tile command of an entry's TILE_RUN has waited on a hazard for longer than its ring's CMD_TIMEOUT (07 R223). -/
def tileTimedOut (s : State) (r : Ring) (seq : Word) (e : InFlight) : Bool :=
  decide (e.ctx.seq = seq) && e.reply.isNone && decide (r.cmdTimeout ≠ 0)
    && s.tiles.jobs.any (fun j => decide (j.ctx = some e.ctx) && (jobCmds s j.id).any (fun x => decide (x.state = 0)
        && (match x.wait with | some w => decide (w.2.toNat + r.cmdTimeout.toNat * 1000000 < s.now.toNat) | none => false)))

/-- COMMAND_TIMEOUT: a wait, a collective or a gradient exchange of the command ends with TIMEOUT. -/
def commandTimeout (n : Nat) (seq : Word) (s : State) : State :=
  let r := s.ring n
  match r.inFlight.find? (fun e => waitedOut r s.now seq e || collTimedOut s r seq e || tileTimedOut s r seq e) with
  | none => s
  | some e =>
    match s.coll e.ctx with
    | some x =>
      let s := s.dropColl x.ctx
      match x.train with
      | some k => trainFail x.ctx k .timeout s
      | none => finish x.ctx .timeout [] 0 0 s
    | none => finish e.ctx .timeout [] 0 0 (unlistXfer e.ctx (dropJob e.ctx s))

def execCommandTimeout (ring : Nat) (seq : Word) (s : State) : Host.Outcome State Fault Refusal :=
  .next (commandTimeout ring seq s)

end Sys2Proof.Machine
end

