-- ==== Sys2Proof/Machine/Abort.lean ====
section
/-! DEFINITION. What an aborted command leaves behind: nothing (02 R75). -/

namespace Sys2Proof.Machine

/-- The moves of a command end as if they had not begun: each bucket stays where it is, and BUCKET_MOVE's mark is as it was
before. A move that a fence has taken over goes on without the command. -/
def dropMove (m : Move) (s : State) : State :=
  if m.fence then { s with flow := { s.flow with moves := updFirst (fun x => decide (x = m)) (fun x => { x with ctx := none }) s.flow.moves } }
  else
    let first := decide (s.moveOf m.bucket = some m)
    let s := { s with flow := { s.flow with moves := delFirst (fun x => decide (x = m)) s.flow.moves } }
    let s := match m.pin with | some was => setPinned m.bucket was s | none => s
    if first then nextMove m.bucket (placeBucket m.bucket m.from_ s) else s

/-- The collective or training step of a command is gone. -/
def dropExchange (c : CmdCtx) (s : State) : State :=
  match s.coll c with
  | none => s
  | some x =>
    let s := s.dropColl c
    match x.train with | some n => s.modSlot n (fun y => { y with training := false }) | none => s

/-- What a command had in progress beside its entry is gone: tile commands that have not started, its place in the issue
order, a collective, moves, an unloading, a reset, a comparison, a join and a leave. -/
def dropWork (c : CmdCtx) (s : State) : State :=
  let s := dropExchange c (unlistXfer c (dropJob c s))
  let s := (s.flow.moves.filter (fun m => decide (m.ctx = some c))).foldl (fun s m => dropMove m s) s
  -- an unloading whose weights RINSE zeroes already goes on without its command
  let slots := s.slots.map (fun e => if e.2.unloadCtx = some c then
      (e.1, { e.2 with state := if e.2.wipe.isSome then 4 else 2, unloadCtx := none }) else e)
  let parts := s.parts.map (fun e =>
    if e.2.resetCtx = some c then (e.1, { e.2 with state := 1 + s.fval .partEn e.1, resetCtx := none }) else e)
  let f := s.fab
  { s with
    slots := slots, parts := parts,
    tabs := { s.tabs with compares := s.tabs.compares.filter (fun x => decide (x.ctx ≠ c)) },
    fab := { f with join := f.join.filter (fun j => decide (j.ctx ≠ some c)),
                    leaving := f.leaving.filter (fun l => decide (l.1 ≠ c)) } }

/-- The running tile commands of a command end with ABORTED, and nothing of them is committed. -/
def dropRunning (c : CmdCtx) (s : State) : State :=
  let js := (s.tiles.jobs.filter (fun j => decide (j.ctx = some c))).map (·.id)
  let s := dropJob c s
  (s.tiles.cmds.filter (fun x => js.contains x.job && decide (x.state = 1))).foldl (fun s x => endCmd x .aborted 0 [] s) s

/-- The commands in flight of a source that a test picks complete with ABORTED, with what they had in progress (02 R75). -/
def abortWork (p : InFlight → Bool) (x : Src) (s : State) : State :=
  ((s.flight x).filter (fun e => e.reply.isNone && p e)).foldl (fun s e => finish e.ctx .aborted [] 0 0 (dropWork e.ctx s)) s

end Sys2Proof.Machine
end

