-- ==== Sys2Proof/Machine/EgressCmds.lean ====
section
/-! DEFINITION. The commands of stage 8 (10 R313, R328, R331, R334, R335, R340). -/

namespace Sys2Proof.Machine

/-! ### Meters (10 R328) -/

def meterWriteCheck (c : CmdCtx) (meter : Nat) (mode : Byte) (cir cbs eir : Nat) (s : State) : Option Status :=
  firstFail [(decide (s.meterOwner meter ≠ c.part), .noPermission),
    (decide (65535 < meter) || decide (16 ≤ mode.toNat) || decide (cbs < 64)
      || (if mode.getLsbD 0 then decide (eir < cir) else decide (eir ≠ 0)), .badParam)]

/-- METER_WRITE: both buckets full; the colour counts go on. -/
def execMeterWrite (c : CmdCtx) (meter : Nat) (mode : Byte) (cir cbs eirPir ebsPbs : Nat) (s : State) :
    Host.Outcome State Fault Refusal :=
  .next (runCmd c 0x400 (meterWriteCheck c meter mode cir cbs eirPir)
    (atPoint c (.meterWrite c meter mode cir cbs eirPir ebsPbs) .egress (fun t s =>
      let m := s.meter meter
      finish c .ok [] t 0 (s.setMeter meter { m with
        mode := mode, cir := cir, cbs := cbs, eir := eirPir, ebs := ebsPbs, tc := cbs * tok, te := ebsPbs * tok,
        last := s.now }))) s)

/-- The METER_READ payload. -/
def meterBody (n : Nat) (m : Meter) : Bytes :=
  leBytes 2 n ++ [m.mode, 0] ++ leBytes 4 m.cir ++ leBytes 4 m.cbs ++ leBytes 4 m.eir ++ leBytes 4 m.ebs ++ zeros 4
    ++ leBytes 8 (m.tc / tok) ++ leBytes 8 (m.te / tok) ++ m.counts.flatMap (fun x => leBytes 8 x.toNat)

def execMeterRead (c : CmdCtx) (meter : Nat) (s : State) : Host.Outcome State Fault Refusal :=
  .next (runCmd c 0x401
    (fun s => firstFail [(decide (s.meterOwner meter ≠ c.part), .noPermission), (decide (65535 < meter), .badParam)])
    (atPoint c (.meterRead c meter) .egress (fun t s =>
      finish c .ok (meterBody meter ((s.meter meter).refill s.now)) t 0 s)) s)

/-! ### Shapers (10 R331) -/

def shaperWriteCheck (c : CmdCtx) (node : Nat) (ovh : Int) (burst : Nat) (s : State) : Option Status :=
  firstFail [(decide (s.portOwner (nodePort node) ≠ c.part), .noPermission),
    (decide (4639 < node) || decide (s.portCount ≤ nodePort node) || decide (burst < 2048) || decide (16777216 < burst)
      || (if node < 4608 then decide (ovh ≠ 0) else decide (ovh < -32) || decide (63 < ovh)), .badParam)]

/-- SHAPER_WRITE: the node takes it at the port's next scheduler round. -/
def execShaperWrite (c : CmdCtx) (node : Nat) (ovh : Int) (rate burst : Nat) (s : State) :
    Host.Outcome State Fault Refusal :=
  .next (runCmd c 0x410 (shaperWriteCheck c node ovh burst)
    (fun s =>
      let s := s.setShaper node { s.shaper node with pend := some (rate, burst) }
      let i := node - 4608
      let s := if node < 4608 then s
        else (s.noteWrite c.src.code (fieldId .portEgrOvh i) (s.fval .portEgrOvh i)).setField .portEgrOvh i (wrapU 8 ovh)
      finish c .ok [] s.now 0 s) s)

/-! ### Gate control lists (10 R334, R335) -/

/-- The takeover time of a list written at `now`. -/
def takeoverAt (now base cycle : Nat) : Nat :=
  if now + 1000 ≤ base then base else base + ceilDiv (now + 1000 - base) cycle * cycle

def gclWriteCheck (c : CmdCtx) (port cycle : Nat) (entries : List (BitVec 128 × Nat)) (s : State) : Option Status :=
  firstFail [(decide (s.portOwner port ≠ c.part), .noPermission),
    (decide (s.portCount ≤ port) || decide (cycle < 1000) || decide (1000000000 < cycle) || entries.isEmpty
      || decide (256 < entries.length) || entries.any (fun e => decide (e.2 = 0)), .badParam)]

/-- GCL_WRITE: the list becomes the port's pending list. -/
def execGclWrite (c : CmdCtx) (port : Nat) (base : DWord) (cycle : Nat) (entries : List (BitVec 128 × Nat)) (s : State) :
    Host.Outcome State Fault Refusal :=
  .next (runCmd c 0x420 (gclWriteCheck c port cycle entries)
    (fun s =>
      let s := gclTakeover port s
      let t := dw (takeoverAt s.now.toNat base.toNat cycle)
      let g : Gcl := { takeover := t, cycle := cycle, entries := entries }
      finish c .ok (leBytes 8 t.toNat) s.now 0 (s.setEgr { s.egr with gclPend := smSet s.egr.gclPend port g })) s)

/-- The 24-byte header of a list, and its entries. -/
def gclHeader (port : Nat) (g : Option Gcl) : Bytes :=
  match g with
  | some g => leBytes 1 port ++ zeros 3 ++ leBytes 4 g.entries.length ++ leBytes 8 g.takeover.toNat ++ leBytes 4 g.cycle ++ zeros 4
  | none => leBytes 1 port ++ zeros 23

def gclEntry (e : BitVec 128 × Nat) : Bytes := leBytes 16 e.1.toNat ++ leBytes 4 e.2 ++ zeros 4

/-- GCL_READ: at most 168 entries in a reply, or all of them to a BREF. A LIST above 1, as a list that is not there, has no
entries. -/
def gclReadWork (c : CmdCtx) (port list first : Nat) (out : Option Bref) (s : State) : State :=
  let g := if list = 0 then smFind s.egr.gcl port else if list = 1 then smFind s.egr.gclPend port else none
  let l := ((match g with | some x => x.entries | none => []).drop first).map gclEntry
  let head := gclHeader port g
  let next := fun n => leBytes 8 (first + n)
  match out with
  | some b =>
    let x := head ++ l.flatten
    if b.size < x.length then finish c .capacity [] s.now 0 s
    else match brefStatus c b 1 x.length s with
      | some st => finish c st [] s.now 0 s
      | none => finish c .ok (head ++ next l.length) s.now 0 (brefWrite c b x s)
  | none =>
    let k := min 168 l.length
    finish c .ok (head ++ (l.take k).flatten ++ next k) s.now (if k < l.length then 2 else 0) s

def execGclRead (c : CmdCtx) (port list first : Nat) (out : Option Bref) (s : State) : Host.Outcome State Fault Refusal :=
  .next (runCmd c 0x421
    (fun s => firstFail [(decide (s.portOwner port ≠ c.part), .noPermission),
      (decide (s.portCount ≤ port)
        || (match out with | some b => !brefForm c b 1 | none => false), .badParam)])
    (gclReadWork c port list first out) s)

/-! ### Queue samples (10 R340) -/

/-- The entry of a queue. -/
def sampleEntry (s : State) (q : Nat) : Bytes :=
  let x := s.queue q
  leBytes 8 s.egr.sampleAt.toNat ++ leBytes 4 x.sBytes ++ leBytes 4 x.sPkts ++ leBytes 4 x.sDelay ++ leBytes 4 x.maxDelay

/-- The read clears MAX_DELAY of the queues that it returns. -/
def clearDelays (first n : Nat) (s : State) : State :=
  let f : Nat × Queue → Nat × Queue := fun e => if first ≤ e.1 ∧ e.1 < first + n then (e.1, { e.2 with maxDelay := 0 }) else e
  s.setEgr { s.egr with queues := s.egr.queues.map f }

def execQueueSample (c : CmdCtx) (first count : Nat) (s : State) : Host.Outcome State Fault Refusal :=
  .next (runCmd c 0x430
    (fun s => firstFail [
      ((List.range (ceilDiv (first + count) 128 - first / 128)).any (fun i => decide (s.portOwner (first / 128 + i) ≠ c.part)),
        .noPermission),
      (decide (count = 0) || decide (s.portCount * 128 < first + count), .badParam)])
    (fun s =>
      let n := min 169 count
      let body := leBytes 8 (first + n) ++ (List.range n).flatMap (fun i => sampleEntry s (first + i))
      finish c .ok body s.now (if n < count then 2 else 0) (clearDelays first n s)) s)

/-! ### Host packet rings (10 R313) -/

/-- The sizes of a host packet ring's area. -/
def hringSize (n : Nat) : Bool := (List.range 15).any (fun i => decide (n = 64 + 2 ^ (16 + i)))

def hostpktCheck (c : CmdCtx) (ring : Nat) (b : Bref) (snap : Nat) (s : State) : Option Status :=
  firstFail [
    (match (s.hring ring).part with | some p => decide (p ≠ c.part) | none => false, .noPermission),
    (decide (63 < ring) || (decide (b.size ≠ 0) && (!hringSize b.size || !brefForm c b 1 || decide (snap < 64)
      || decide (16383 < snap))), .badParam)]

/-- Unbind a ring, once its accepted copies are written. -/
def unbindRing (n : Nat) (s : State) : State :=
  let h := s.hring n
  if h.fifo = [] then s.setHring n {} else s.setHring n { h with closing := true }

/-- HOSTPKT_RING. -/
def execHostpktRing (c : CmdCtx) (ring : Nat) (bref : Bref) (snap : Nat) (s : State) : Host.Outcome State Fault Refusal :=
  .next (runCmd c 0x440 (hostpktCheck c ring bref snap)
    (fun s =>
      if bref.size = 0 then finish c .ok [] s.now 0 (unbindRing ring s)
      else match brefStatus c bref 1 bref.size s with
        | some st => finish c st [] s.now 0 s
        | none => finish c .ok [] s.now 0 (s.setHring ring
            { part := some c.part, bref := bref, snap := snap, fifo := (s.hring ring).fifo })) s)

end Sys2Proof.Machine
end

