-- ==== Sys2Proof/Machine/SystemCmds.lean ====
section
/-! DEFINITION. System commands (02 R77): NOP, identification, ring binding, fields and firmware images. -/

namespace Sys2Proof.Machine

/-- NOP (02 R77): a reply of the prefix alone. -/
def execNop (c : CmdCtx) (s : State) : Host.Outcome State Fault Refusal :=
  .next (runCmd c 0x001 (fun _ => none) (fun s => finish c .ok [] 0 0 s) s)

/-- The silicon and module revisions (00 R1, 16 R474). -/
def siliconRev : Nat := 0x00a1
def moduleRev : Nat := 0x0100

/-- The GET_INFO payload (02 R488); the firmware versions are the security versions of the running images of kinds 1
to 4 (log 26). -/
def infoBody (s : State) : Bytes :=
  leBytes 4 s.sys.fuses.order.toNat ++ leBytes 2 siliconRev ++ leBytes 2 moduleRev ++ leBytes 2 s.fab.nodeId ++ zeros 6
    ++ leBytes 16 s.sys.fuses.serial.toNat ++ (List.range 4).flatMap (fun i => leBytes 4 (nth {} s.sys.fw (i + 1)).svn)
    ++ leBytes 1 s.sys.slotId

def execGetInfo (c : CmdCtx) (s : State) : Host.Outcome State Fault Refusal :=
  .next (runCmd c 0x002 (fun _ => none) (fun s => finish c .ok (infoBody s) 0 0 s) s)

/-- GET_STATUS (02 R488, 16 R476). -/
def execGetStatus (c : CmdCtx) (s : State) : Host.Outcome State Fault Refusal :=
  .next (runCmd c 0x003 (fun _ => none) (fun s => finish c .ok
    (leBytes 4 s.devstatRead.toNat ++ leBytes 1 s.sys.lastStart ++ leBytes 1 s.sys.failedStarts
      ++ leBytes 1 (b2n (decide (s.sys.mode = .safe)))) 0 0 s) s)

/-- RING_BIND (02 R43, R65). -/
def ringBindCheck (c : CmdCtx) (ring part : Nat) (s : State) : Option Status :=
  firstFail [p0Only c,
    (decide (63 < ring) || decide (63 < part) || decide ((s.part part).state = 0) || decide ((s.part part).state = 4),
      .badParam),
    ((s.ring ring).en, .refusedLocked), (genExhausted s part, .capacity)]

/-- Bind a ring and give it the partition's next seal generation. -/
def bindRing (ring part : Nat) (s : State) : State :=
  let g := (s.part part).sealGen + 1
  (s.modPart part (fun q => { q with sealGen := g })).modRing ring (fun r => { r with part := part, ringGen := g })

def execRingBind (c : CmdCtx) (ring part : Nat) (s : State) : Host.Outcome State Fault Refusal :=
  .next (runCmd c 0x020 (ringBindCheck c ring part) (fun s => finish c .ok [] 0 0 (bindRing ring part s)) s)

/-- FIELD_READ (16 R482 to R485). -/
def execFieldRead (c : CmdCtx) (id count : Nat) (s : State) : Host.Outcome State Fault Refusal :=
  .next (runCmd c 0x030 (fun s => fieldReadCheck s c.part id count)
    (fun s => finish c .ok (fieldValues s c.src.code id count) s.now 0 s) s)

/-- FW_STAGE (12 R394): the image must have the digest of the command. -/
def fwStageWork (c : CmdCtx) (kind : Nat) (bref : Bref) (digest : Bytes) (s : State) : State :=
  let s := brefCharge c bref bref.size s
  if sha384 (brefRead c bref bref.size s) ≠ digest then finish c .integrityFail [] 0 0 s
  else
    let x := nth {} s.sys.fw kind
    let y := { x with state := 1, pending := BitVec.ofNat 384 (leNat digest) }
    finish c .ok digest 0 0 { s with sys := { s.sys with fw := setNth s.sys.fw kind y } }

def execFwStage (c : CmdCtx) (kind : Nat) (bref : Bref) (digest : Bytes) (s : State) :
    Host.Outcome State Fault Refusal :=
  .next (runCmd c 0x040 (fun s => firstFail [p0Only c, (!inR kind 1 4, .badParam)] <|>
      brefStatus c bref 0 bref.size s) (fwStageWork c kind bref digest) s)

/-- FW_ACTIVATE (12 R394): a kind with no staged image gives BAD_PARAM (log 26). -/
def execFwActivate (c : CmdCtx) (kind : Nat) (s : State) : Host.Outcome State Fault Refusal :=
  .next (runCmd c 0x041
    (fun s => firstFail [p0Only c, (!inR kind 1 4 || decide ((nth {} s.sys.fw kind).state = 0), .badParam)])
    (fun s =>
      let y := { nth {} s.sys.fw kind with state := 2 }
      finish c .ok [] 0 0 { s with sys := { s.sys with fw := setNth s.sys.fw kind y } }) s)

end Sys2Proof.Machine
end

