-- ==== Sys2Proof/Machine/Parts.lean ====
section
/-! DEFINITION. Partitions (12 R375 to R381, R386 to R392, R396): creation, reset, destruction, queries, key rotation and
the ends of RINSE's walks. Logs 57 and 58. -/

namespace Sys2Proof.Machine

/-! ### A partition's entry (12 R394) -/

/-- The numbers below n that a test picks, as a mask. -/
def maskOf (n : Nat) (p : Nat → Bool) : Nat := (List.range n).foldl (fun a i => if p i then a + 2 ^ i else a) 0

/-- The regions of a partition: partition 0's are regions 0 and 1. -/
def State.partRegions (s : State) (p : Nat) : List Nat := if p = 0 then [0, 1] else (s.part p).regions

def regionEntry (s : State) (r : Nat) : Bytes :=
  match s.region r with
  | none => []
  | some x => leBytes 1 r ++ leBytes 1 x.state ++ leBytes 1 x.active ++ [0] ++ leBytes 4 (regionPages s r x) ++ leBytes 8 x.first

def modelEntry (n : Nat) (x : Slot) : Bytes :=
  leBytes 1 n ++ leBytes 1 x.state ++ leBytes 1 x.kind ++ leBytes 1 (b2n x.trainable + 2 * b2n x.wp) ++ leBytes 4 x.step
    ++ fitTo 48 x.digest

/-- The slots of a partition that are not EMPTY. -/
def partModels (s : State) (p : Nat) : List (Nat × Slot) :=
  s.slots.filter (fun e => decide (e.2.state ≠ 0) && decide (s.slotOwner e.1 = p))

/-- The first meter and the number of meters; of partition 0, 0 and the number that it holds (log 58). -/
def partMeters (s : State) (p : Nat) : Nat × Nat :=
  if p = 0 then (0, 65536 - (s.parts.filter (fun e => decide (0 < e.1) && decide (e.2.state ≠ 0))).foldl (fun a e => a + e.2.meterCount) 0)
  else ((s.part p).meterFirst, (s.part p).meterCount)

/-- The entry of a partition; a redacted one gives neither the owner's key hash nor the models (12 R395). -/
def partEntry (s : State) (p : Nat) (redacted : Bool) : Bytes :=
  let x := s.part p
  let rs := s.partRegions p
  let ms := if redacted then [] else partModels s p
  leBytes 1 p ++ leBytes 1 x.state
    ++ leBytes 2 (s.fval .partCmdSeal p + 2 * b2n x.cmdKey.isSome + 4 * s.fval .partPreserveOk p + 2 ^ 15 * b2n redacted)
    ++ leBytes 2 (s.curEpoch p).num ++ leBytes 1 rs.length ++ leBytes 1 ms.length
    ++ (if redacted || p == 0 then zeros 48 else fitTo 48 x.ownerHash)
    ++ leBytes 4 (maskOf 32 (fun i => decide (s.portOwner i = p)))
    ++ leBytes 4 (maskOf 32 (fun t => decide (s.fact .tileOwner t = p)))
    ++ leBytes 4 (partMeters s p).1 ++ leBytes 4 (partMeters s p).2
    ++ leBytes 8 (maskOf 64 (fun r => decide ((s.ring r).part = p)))
    ++ rs.flatMap (regionEntry s) ++ ms.flatMap (fun e => modelEntry e.1 e.2)

/-! ### Clearing (12 R377, R379) -/

/-- A field of a port of a partition. -/
def fieldOfPorts (s : State) (p id : Nat) : Bool :=
  match fieldAt id with
  | none => false
  | some (r, i) => match portOfField r i with | some q => decide (s.portOwner q = p) | none => false

/-- A field that belongs to a partition: by its number, its ports or its slots. -/
def fieldOfPart (s : State) (p : Nat) (keep : List FName) (id : Nat) : Bool :=
  match fieldAt id with
  | none => false
  | some (r, i) =>
    (decide (r.count = 64) && decide (r.name ≠ .mirror) && decide (i = p) && !keep.contains r.name)
      || fieldOfPorts s p id
      || ((decide (r.who = .slot) || decide (r.who = .roSlot)) && decide (s.slotOwner i = p))

/-- The fields that a test picks take their reset values, active and shadow alike. -/
def clearFields (f : Nat → Bool) (s : State) : State :=
  { s with fields := { val := s.fields.val.filter (fun e => !f e.1), act := s.fields.act.filter (fun e => !f e.1),
                       last := s.fields.last.filter (fun e => !f e.1), wrote := s.fields.wrote.filter (fun e => !f e.1) } }

/-- The fields of a partition take their reset values. -/
def resetFields (p : Nat) (keep : List FName) (s : State) : State := clearFields (fieldOfPart s p keep) s

/-- The ports of a partition return to partition 0 (03 R87, 12 R380): their fields take their reset values, and no epoch of
partition 0 gives them a graph of an earlier time. -/
def returnPorts (p : Nat) (s : State) : State :=
  let mine : Nat → Bool := fun id => fieldOfPorts s p id && inR id (fieldId .portGraph 0) (fieldId .portGraph 31)
  let s' := s.setEps 0 ((s.eps 0).map (fun (e : Epoch) => { e with prof := e.prof.filter (fun f => !mine f.1) }))
  clearFields (fieldOfPorts s p) s'

/-- The counters and interval IDs of a partition and of its slots become zero (12 R377). -/
def clearCounters (p : Nat) (s : State) : State :=
  let mine : Nat → Nat → Bool := fun g i =>
    (decide (g = 2) && decide (i / 25 = p)) || (decide (g = 3) && decide (i / 15 = p)) || (decide (g = 4) && decide (i / 6 = p))
      || (decide (g = 5) && decide (s.slotOwner (i / 7) = p))
  let inst : Nat → Nat → Bool := fun g i => (inR g 2 4 && decide (i = p)) || (decide (g = 5) && decide (s.slotOwner i = p))
  { s with obs := { s.obs with
      cnt := s.obs.cnt.filter (fun e => !mine (e.1 / 1048576) (e.1 % 1048576)),
      ival := s.obs.ival.filter (fun e => !inst (e.1 / 1048576) (e.1 % 1048576)) } }

/-- The flows of a partition are gone, with their forms, holds, requests and leases. -/
def clearFlows (p : Nat) (s : State) : State :=
  let f := s.flow
  let gone : Nat → Bool := fun i => decide ((s.ctx i).part = p)
  { s with flow := { f with
      ctxs := f.ctxs.map (fun e => if e.2.part = p then (e.1, { gen := e.2.gen }) else e),
      hots := f.hots.filter (fun h => decide (h.part ≠ p)), reqs := f.reqs.filter (fun r => decide (r.part ≠ p)),
      carries := f.carries.filter (fun c => !gone c.index), holds := f.holds.filter (fun h => decide (h.part ≠ p)),
      hh := f.hh.filter (fun h => decide (h.part ≠ p)), leases := f.leases.filter (fun l => !gone l.index),
      held := f.held.filter (fun l => !gone l.index) } }

/-- Every tile-memory line tagged with a partition is zeroed, those of the stream caches too. -/
def clearLines (p : Nat) (s : State) : State :=
  let s := dropPart p s
  let mine := s.tiles.lines.filter (fun e => decide (e.2.part = p))
  { s with tiles := { s.tiles with
      mem := mine.foldl (fun m e => memClear m (e.1 * 128) (e.1 * 128 + 128)) s.tiles.mem,
      lines := s.tiles.lines.filter (fun e => decide (e.2.part ≠ p)) } }


/-- Step 4 of 12 R379: tables, flows, measurements, graphs, patterns and tile lines of a partition are removed. -/
def clearPart (p : Nat) (s : State) : State :=
  let t := s.tabs
  let l := t.entries.filter (fun e => decide (e.part ≠ p))
  let t := { t with
    entries := l, bloom := bloomSync t.bloom t.entries l, copies := t.copies.filter (fun e => decide (e.part ≠ p)), active := smDelRange t.active (p * 8) (p * 8 + 8),
    bankState := smDelRange t.bankState (p * 8) (p * 8 + 8), compares := t.compares.filter (fun x => decide (x.part ≠ p)),
    learnQ := t.learnQ.map (fun e => (e.1, e.2.filter (fun r => decide (r.part ≠ p)))), ageStart := smDel t.ageStart p,
    agePeriod := smDel t.agePeriod p }
  let s := clearFlows p { s with tabs := t }
  let s := (List.range 4).foldl (fun s k => if bitsOf (s.fval .sketchKey k) 53 48 = p then clearSketch k s else s) s
  let i := s.intake
  let i := { i with graphs := i.graphs.filter (fun e => decide (e.2.owner ≠ p)), patPend := smDel i.patPend p,
                    frags := i.frags.filter (fun e => decide (e.2.part ≠ p)) }
  let s := { s with intake := i, obs := { s.obs with traces := smDel s.obs.traces p } }
  clearLines p s

/-! ### PART_CREATE (12 R376, R377) -/

/-- The ranges of a resource list. -/
def listRanges (b : Bytes) : List (Nat × Nat) :=
  (List.range (uAt b 48 1)).map (fun j => (uAt b (56 + 8 * j) 4, uAt b (60 + 8 * j) 4))

/-- Two runs of numbers meet. -/
def runsMeet (a b : Nat × Nat) : Bool := decide (a.1 < b.1 + b.2) && decide (b.1 < a.1 + a.2)

/-- The physical pages that partition 0 uses itself: models, and its command, reply and host packet rings in HBM (log 58). -/
def ownUse (s : State) : List (Nat × Nat) :=
  (partModels s 0).flatMap (fun e => e.2.runs.map (fun r => (r.1, r.2.1)))
    ++ (List.range 64).flatMap (fun n =>
        let r := s.ring n
        if r.en && decide (r.part = 0) then
          (if r.crLoc then [(r.crBase.toNat / pageBytes, ceilDiv r.crSize pageBytes)] else [])
            ++ (if r.rpLoc then [(r.rpBase.toNat / pageBytes, ceilDiv r.rpSize pageBytes)] else [])
        else [])
    ++ (s.egr.hrings.filter (fun e => decide (e.2.part = some 0) && decide (e.2.bref.loc = 1))).map (fun e =>
        (e.2.bref.addr.toNat / pageBytes, ceilDiv (e.2.bref.addr.toNat % pageBytes + e.2.bref.size) pageBytes))

/-- A range lies in pages that partition 0 holds for no use of its own. -/
def rangeFree (s : State) (r : Nat × Nat) : Bool :=
  decide (0 < r.2) && decide (r.1 + r.2 ≤ 6 * stackPages)
    -- each stack's platform pages are its highest
    && (List.range 6).all (fun k => !runsMeet r (k * stackPages + (stackPages - platformPages), platformPages))
    && (s.parts.all (fun e => e.1 == 0 || e.2.state == 0 || e.2.ranges.all (fun x => !runsMeet r x)))
    && (ownUse s).all (fun x => !runsMeet r x)

/-- No two ranges of a list meet. -/
def apart : List (Nat × Nat) → Bool
  | [] => true
  | r :: l => l.all (fun x => !runsMeet r x) && apart l

/-- The list names only what partition 0 holds. -/
def listHeld (s : State) (b : Bytes) : Bool :=
  let m := uAt b 40 4
  let n := uAt b 44 4
  rsvZero b 4 4 && rsvZero b 49 7 && inR (uAt b 48 1) 1 8
    && (List.range 32).all (fun i => !(uAt b 0 4).testBit i || decide (s.portOwner i = 0))
    && (List.range 256).all (fun i => !(uAt b 8 32).testBit i || decide (s.slotOwner i = 0))
    && decide (m < 65536) && decide (m + n ≤ 65536)
    && s.parts.all (fun e => n == 0 || e.1 == 0 || e.2.state == 0 || !runsMeet (m, n) (e.2.meterFirst, e.2.meterCount))
    && (listRanges b).all (rangeFree s) && apart (listRanges b)

/-- A port of the list is enabled, or a slot of it is not EMPTY. -/
def listBusy (s : State) (b : Bytes) : Bool :=
  (List.range 32).any (fun i => (uAt b 0 4).testBit i && s.portEn i)
    || s.slots.any (fun e => (uAt b 8 32).testBit e.1 && decide (e.2.state ≠ 0))

/-- Create the region of one range under the lowest free region ID, and start its scrub. -/
def addRegion (p : Nat) (r : Nat × Nat) (s : State) : State :=
  match lowestFree 0 256 (s.regions.map (·.1)) with
  | none => s
  | some id =>
    let (k, s) := drawKey s
    let x : Region := { part := p, first := r.1, pages := r.2, key0 := some k, key1 := none, active := 0, state := 0, started := 0,
                        done := 0, rotations := 0 }
    startWalk id 2 x ((wipePages r.1 r.2 s).modPart p (fun q => { q with regions := q.regions ++ [id] }))

/-- The partition comes into being. -/
def createPart (p : Nat) (hash b : Bytes) (s : State) : State :=
  let s := s.setPart p
    { state := 1, ownerHash := hash, ports := w32 (uAt b 0 4), slots := BitVec.ofNat 256 (uAt b 8 32),
      meterFirst := uAt b 40 4, meterCount := uAt b 44 4, ranges := listRanges b }
  let s := (listRanges b).foldl (fun s r => addRegion p r s) s
  clearCounters p (resetFields p [] (dropTlb 0 (dropPart p { s with epochs := smDel s.epochs p })))

def partCreateWork (c : CmdCtx) (p : Nat) (hash : Bytes) (list : Bref) (s : State) : State :=
  let st := match brefStatus c list 0 (min list.size 56) s with
    | some st => some st
    | none =>
      let n := 56 + 8 * uAt (brefRead c list (min list.size 56) s) 48 1
      if list.size < 56 ∨ list.size < n then some .badLength else brefStatus c list 0 n s
  match st with
  | some st => finish c st [] 0 0 s
  | none =>
    let b := brefRead c list (56 + 8 * uAt (brefRead c list 56 s) 48 1) s
    if !listHeld s b then finish c .badParam [] 0 0 s
    else if listBusy s b then finish c .busy [] 0 0 s
    else if 256 - s.regions.length < uAt b 48 1 then finish c .capacity [] 0 0 s
    else finish c .ok [] 0 0 (createPart p hash b (brefCharge c list b.length s))

/-- PART_CREATE. -/
def execPartCreate (c : CmdCtx) (part : Nat) (ownerHash : Bytes) (list : Bref) (s : State) :
    Host.Outcome State Fault Refusal :=
  .next (runCmd c 0x600
    (fun s => firstFail [p0Only c, (decide (part = 0) || decide (63 < part) || decide ((s.part part).state ≠ 0)
      || allZero ownerHash || !brefForm c list 0, .badParam)])
    (partCreateWork c part ownerHash list) s)

/-! ### PART_RESET (12 R379) -/

/-- The commands of a partition's other sources, rings and in-band stream, complete with ABORTED, with what they had
waiting; those of the source that carries the command stay. -/
def abortPart (p : Nat) (c : CmdCtx) (s : State) : State :=
  let s := (List.range 64).foldl (fun s n =>
    if (s.ring n).part = p ∧ c.src ≠ .ring n then abortWork (fun _ => true) (.ring n) s else s) s
  let s := match c.src with
    | .inband q _ _ => if q = p then s else abortWork (fun _ => true) (.inband p 0 []) s
    | .ring _ => abortWork (fun _ => true) (.inband p 0 []) s
  let s := (s.tiles.cmds.filter (fun t => decide (t.part = p) && decide (t.state = 0) && t.xfer.isNone)).foldl (abortCmd .aborted) s
  let s := s.setColls (s.tiles.colls.filter (fun x => decide (x.part ≠ p) || (s.entryOf x.ctx).isSome))
  let live := fun n => s.tiles.colls.any (fun x => decide (x.train = some n))
  let slots := s.slots.map (fun e =>
    if s.slotOwner e.1 = p ∧ !live e.1 then (e.1, { e.2 with training := false }) else e)
  { s with slots := slots }

/-- Nothing of a partition is on its way: no packet past stage 1 and no running tile command. -/
def partQuiet (p : Nat) (s : State) : Bool :=
  s.pkts.all (fun k => decide (k.part ≠ p)) && s.tiles.cmds.all (fun t => decide (t.part ≠ p) || decide (t.state ≠ 1))

/-- Every model slot of a partition unloads, one in service too. -/
def unloadAll (p : Nat) (s : State) : State :=
  ((partModels s p).map (·.1)).foldl (fun s n => unloadDue n (s.modSlot n (fun x => { x with state := 4 }))) s

/-- Steps 4 to 6: the partition is as it was just after its creation. -/
def resetEnd (p : Nat) (s : State) : State :=
  let s := clearPart p s
  let s := (s.part p).regions.foldl (fun s r => freshKeys r s) s
  let s := (s.part p).ranges.foldl (fun s r => wipePages r.1 r.2 s) s
  let s := resetFields p [.partCmdSeal, .partPreserveOk] s
  let s := { s with epochs := smDel s.epochs p, pages := smDelRange s.pages (p * 2 ^ 27) ((p + 1) * 2 ^ 27) }
  s.modPart p (fun x => { x with state := 1 + s.fval .partEn p, resetCtx := none, ibExp := 0, ibWraps := 0 })

/-- PART_RESET goes on as far as the partition's work lets it; it waits meanwhile. -/
def resetGo (c : CmdCtx) (p : Nat) (s : State) : State :=
  let wait := fun (s : State) => waitCmd c (.partReset c p) (modEntry c (fun e => { e with mark := some 0 }) s)
  let s := drainTo .egress s.intake.nextPkt (200 * s.pkts.length + 1) s
  if !partQuiet p s then wait s
  else
    let s := unloadAll p s
    if partModels s p ≠ [] then wait s else finish c .ok [] 0 0 (resetEnd p s)

def partResetWork (c : CmdCtx) (p : Nat) (s : State) : State :=
  if (s.part p).resetCtx = some c then resetGo c p s
  else if (s.part p).state = 3 ∨ (s.part p).state = 4 then
    (if c.waitDrain then drainCmd c (.partReset c p) s else finish c .busy [] 0 0 s)
  else resetGo c p (abortPart p c ((drainEnds c s).modPart p (fun x => { x with state := 3, resetCtx := some c })))

/-- PART_RESET. -/
def execPartReset (c : CmdCtx) (part : Nat) (s : State) : Host.Outcome State Fault Refusal :=
  .next (runCmd c 0x602
    (fun s => firstFail [(decide (c.part ≠ 0) && decide (part ≠ c.part), .noPermission),
      (decide (part = 0) || decide (63 < part) || decide ((s.part part).state = 0), .badParam)])
    (partResetWork c part) s)

/-! ### PART_DESTROY (12 R380) -/

/-- What tenants' resources partition 0 takes back at once. -/
def takeBack (p : Nat) (s : State) : State :=
  let s := (List.range 64).foldl (fun s n =>
    if (s.ring n).part = p then bindRing n 0 (s.modRing n (fun r => { r with en := false })) else s) s
  let s := (List.range 32).foldl (fun s t =>
    if s.fval .tileOwner t = p then (s.setField .tileOwner t 64).takeStored .tileOwner t else s) s
  let s := (List.range 4).foldl (fun s k =>
    if bitsOf (s.fval .sketchKey k) 53 48 = p then
      (s.setField .sketchEn k 0).setField .sketchKey k (s.fval .sketchKey k % 2 ^ 48 + s.fval .sketchKey k / 2 ^ 54 * 2 ^ 54)
    else s) s
  let s := (List.range 64).foldl (fun s k =>
    if bitsOf (s.fval .mirror k) 31 26 = p then s.setField .mirror k (s.fval .mirror k % 2 ^ 26) else s) s
  (List.range 64).foldl (fun s n => if (s.hring n).part = some p then s.setHring n {} else s) s

/-- The scrub of a region of a partition that goes. -/
def finalScrub (s : State) (r : Nat) : State :=
  match s.region r with
  | some x => startWalk r 2 { x with key0 := none, key1 := none } (clearEpoch r s)
  | none => s

/-- The partition goes: its work ends, its resources are cleared, its keys are zeroised and its ranges are scrubbed. -/
def destroyPart (c : CmdCtx) (p : Nat) (s : State) : State :=
  let s := abortPart p c s
  let s := s.setPkts (s.pkts.filter (fun k => decide (k.part ≠ p)))
  let s := { s with tiles := { s.tiles with cmds := s.tiles.cmds.filter (fun t => decide (t.part ≠ p)) } }
  let s := ((partModels s p).map (·.1)).foldl (fun s n => emptySlot n s) s
  let s := takeBack p (clearPart p s)
  let s := (s.part p).ranges.foldl (fun s r => wipePages r.1 r.2 s) s
  let s := s.modPart p (fun x => { x with state := 4, cmdKey := none })
  (s.part p).regions.foldl finalScrub s

/-- The time at which the scrub of a partition ends at the present rate. -/
def scrubEndAt (s : State) (p : Nat) : Nat :=
  (s.part p).regions.foldl (fun a r => match s.region r with
    | some x => if x.state = 2 then max a (walkEnd s r x) else a
    | none => a) 0

/-- PART_DESTROY. -/
def execPartDestroy (c : CmdCtx) (part : Nat) (s : State) : Host.Outcome State Fault Refusal :=
  .next (runCmd c 0x601
    (fun s => firstFail [p0Only c,
      (decide (part = 0) || decide (63 < part) || decide ((s.part part).state = 0), .badParam)])
    (fun s =>
      if (s.part part).state ≠ 1 then finish c .busy [] 0 0 s
      else
        let s := destroyPart c part s
        finish c .ok (leBytes 8 (scrubEndAt s part)) 0 0 s) s)

/-- PART_QUERY. -/
def execPartQuery (c : CmdCtx) (part : Nat) (s : State) : Host.Outcome State Fault Refusal :=
  .next (runCmd c 0x603
    (fun _ => firstFail [(decide (c.part ≠ 0) && decide (part ≠ c.part), .noPermission), (decide (63 < part), .badParam)])
    (fun s =>
      let t := if scrubEndAt s part = 0 then (s.part part).scrubEnd.toNat else scrubEndAt s part
      finish c .ok (partEntry s part false ++ leBytes 8 t) 0 0 s) s)

/-! ### Keys (12 R386, R390 to R392) -/

/-- A region of the caller; any other use gives NO_PERMISSION (12 R390). -/
def regionCheck (c : CmdCtx) (r : Nat) (s : State) : Option Status :=
  match s.region r with
  | none => some .noPermission
  | some x => if x.part ≠ c.part then some .noPermission else none

/-- A region in state STEADY takes a fresh key in its other slot, which is active at once. -/
def rotateKey (r : Nat) (x : Region) (s : State) : State :=
  let (k, s) := drawKey (clearEpoch r s)
  let y := x.setKey (1 - x.active) (some k)
  startWalk r 1 { y with active := 1 - x.active, rotations := x.rotations + 1 } s

/-- The end of a walk that has passed its region's last page: the old slot is zeroised. -/
def endWalk (r : Nat) (x : Region) (s : State) : State :=
  let s := settleWalks s
  let done := walkBytes s r x
  let y := { x with state := 0, done := done, mark := s.now }
  if x.state = 1 then (clearEpoch r s).setRegion r (y.setKey (1 - x.active) none)
  else
    let s := (s.setRegion r y).modPart x.part (fun q => { q with scrubEnd := s.now })
    let p := s.part x.part
    if p.state = 4 ∧ p.regions.all (fun i => match s.region i with | some z => decide (z.state = 0) | none => true) then
      -- what the partition held is partition 0's again
      let s := { s with regions := s.regions.filter (fun e => !p.regions.contains e.1),
                        pages := smDelRange s.pages (x.part * 2 ^ 27) ((x.part + 1) * 2 ^ 27) }
      (returnPorts x.part (dropTlb 0 (dropPart x.part s))).setPart x.part { scrubEnd := s.now }
    else s

/-- A region's own walk that has passed its last page ends. -/
def walkComplete (r : Nat) (s : State) : State :=
  match s.region r with
  | some x => if s.up && decide (x.state ≠ 0) && decide (walkBytes s r x ≤ walkDone s r x) then endWalk r x s else s
  | none => s

/-- The walks over weight regions of the region's partition that have passed their last page end: their slots become EMPTY
(09 R303; log 57). -/
def wipesComplete (r : Nat) (s : State) : State :=
  match s.region r with
  | some x =>
    if s.up then ((wipes s).filter (fun e => decide (s.slotOwner e.1 = x.part))).foldl (fun s e => unloadDue e.1 s) s else s
  | none => s

/-- RINSE_WALK_COMPLETE. -/
def execRinseWalkComplete (region : Nat) (s : State) : Host.Outcome State Fault Refusal :=
  .next (wipesComplete region (walkComplete region s))

/-- KEY_ROTATE: a walk that ends now ends first (12 R391). -/
def keyRotateWork (c : CmdCtx) (r : Nat) (s : State) : State :=
  let s := walkComplete r s
  match s.region r with
  | none => finish c .noPermission [] 0 0 s
  | some x =>
    if x.state = 1 then finish c .keyRotatePending [] 0 0 s
    else if x.state = 2 then (if c.waitDrain then drainCmd c (.keyRotate c r) s else finish c .busy [] 0 0 s)
    else finish c .ok [] 0 0 (rotateKey r x s)

def execKeyRotate (c : CmdCtx) (region : Nat) (s : State) : Host.Outcome State Fault Refusal :=
  .next (runCmd c 0x610 (regionCheck c region) (keyRotateWork c region) s)

/-- KEY_STATUS. -/
def keyStatusBody (s : State) (r : Nat) : Bytes :=
  match s.region r with
  | none => []
  | some x =>
    leBytes 1 x.active ++ leBytes 1 x.state ++ zeros 6 ++ leBytes 4 (walkDone s r x / pageBytes)
      ++ leBytes 4 (regionPages s r x) ++ leBytes 8 x.started.toNat ++ leBytes 4 x.rotations.toNat

def execKeyStatus (c : CmdCtx) (region : Nat) (s : State) : Host.Outcome State Fault Refusal :=
  .next (runCmd c 0x611 (regionCheck c region) (fun s => finish c .ok (keyStatusBody s region) 0 0 s) s)

/-- CMD_KEY_SET: the seal generations of the partition and its rings become 0, and so does the expected SEQ of its in-band
stream (02 R67). The reply keeps the key under which the command came. -/
def setCmdKey (p : Nat) (key : Bytes) (s : State) : State :=
  let s := s.modPart p (fun x => { x with cmdKey := some (keyOfBytes key), sealGen := 0, ibExp := 0, ibWraps := 0 })
  (List.range 64).foldl (fun s n => if (s.ring n).part = p then s.modRing n (fun r => { r with ringGen := 0 }) else s) s

def execCmdKeySet (c : CmdCtx) (envelope : Bytes) (s : State) : Host.Outcome State Fault Refusal :=
  .next (runCmd c 0x620 (fun _ => none)
    (fun s => match openEnvelope s 1 c.part 0 envelope with
      | none => finish c .authFail [] 0 0 s
      | some k => if k.length ≠ 32 then finish c .authFail [] 0 0 s else setCmdKey c.part k (finish c .ok [] 0 0 s)) s)

end Sys2Proof.Machine
end

