-- ==== Sys2Proof/Machine/Attest.lean ====
section
/-! DEFINITION. Attestation (12 R373, R393 to R397): the report, the certificate chain and SPDM. -/

namespace Sys2Proof.Machine

/-- The 128-byte header of a report of a length and number of partition entries. -/
def reportHead (s : State) (nonce : Bytes) (len n : Nat) : Bytes :=
  let y := s.sys
  let pending := y.fw.any (fun x => decide (x.state ≠ 0))
  let flags := b2n pending + 2 * b2n y.fuses.debug + 4 * b2n (decide (y.mode = .safe)) + 8 * b2n y.warm + 16 * b2n y.preserved
  leBytes 4 0x54525441 ++ leBytes 2 1 ++ leBytes 2 flags ++ leBytes 4 len ++ leBytes 4 y.fuses.order.toNat
    ++ leBytes 2 siliconRev ++ leBytes 2 moduleRev ++ leBytes 2 s.nodeOr ++ leBytes 1 n ++ [0]
    ++ leBytes 16 y.fuses.serial.toNat ++ fitTo 32 nonce ++ leBytes 8 s.now.toNat ++ leBytes 4 y.starts
    ++ leBytes 4 (3 * b2n (!y.fuses.debug)) ++ y.fuses.minSvn.flatMap (leBytes 2) ++ leBytes 1 y.failedStarts ++ zeros 31

/-- A component entry. -/
def compEntry (k : Nat) (x : FwComp) : Bytes :=
  leBytes 1 k ++ leBytes 1 x.state ++ zeros 2 ++ leBytes 4 x.svn ++ leBytes 48 x.running.toNat
    ++ (if x.state = 0 then zeros 48 else leBytes 48 x.pending.toNat)

/-- The partitions that a report lists: partition 0 and every one that is not FREE. -/
def reportParts (s : State) : List Nat := (List.range 64).filter (fun p => decide ((s.part p).state ≠ 0))

/-- A report: `open_` says which entries are not redacted. -/
def reportBytes (s : State) (nonce : Bytes) (open_ : Nat → Bool) : Bytes :=
  let ps := reportParts s
  let rest := (List.range 5).flatMap (fun k => compEntry k (nth {} s.sys.fw k))
    ++ ps.flatMap (fun p => partEntry s p (!open_ p))
  let b := reportHead s nonce (128 + rest.length + 96) ps.length ++ rest
  b ++ signBytes s.attestKey b

/-- ATTEST_REPORT: redacted for a tenant in every entry but its own. -/
def attestWork (c : CmdCtx) (nonce : Bytes) (bref : Bref) (s : State) : State :=
  let b := reportBytes s nonce (fun p => c.part == 0 || p == c.part)
  let len := leBytes 4 b.length
  if bref.size < b.length then finish c .capacity len 0 0 s
  else match brefStatus c bref 1 b.length s with
    | some st => finish c st [] 0 0 s
    | none => finish c .ok len 0 0 (brefWrite c bref b s)

def execAttestReport (c : CmdCtx) (nonce : Bytes) (bref : Bref) (s : State) : Host.Outcome State Fault Refusal :=
  .next (runCmd c 0x630 (fun s => brefStatus c bref 1 0 s) (attestWork c nonce bref) s)

/-- The certificate chain (12 R373). -/
def chainBytes (s : State) : Bytes := leBytes 2 5 ++ zeros 2 ++ certList s 5

/-- CERT_CHAIN. -/
def certWork (c : CmdCtx) (bref : Bref) (s : State) : State :=
  let b := chainBytes s
  let len := leBytes 4 b.length
  if bref.size < b.length then finish c .capacity len 0 0 s
  else match brefStatus c bref 1 b.length s with
    | some st => finish c st [] 0 0 s
    | none => finish c .ok len 0 0 (brefWrite c bref b s)

def execCertChain (c : CmdCtx) (bref : Bref) (s : State) : Host.Outcome State Fault Refusal :=
  .next (runCmd c 0x631 (fun s => brefStatus c bref 1 0 s) (certWork c bref) s)

/-! ### SPDM (12 R397); what its encoding needs from outside the manual is log 16 -/

/-- The response code to a supported request code. -/
def spdmAnswer : Nat → Option Nat
  | 0x81 => some 0x01 | 0x82 => some 0x02 | 0x83 => some 0x03 | 0x84 => some 0x04
  | 0xe0 => some 0x60 | 0xe1 => some 0x61 | 0xe3 => some 0x63
  | _ => none

/-- An ERROR response. -/
def spdmError (code data : Nat) : Bytes := [0x13, 0x7f] ++ leBytes 1 code ++ leBytes 1 data

/-- The slot that a request names: GET_CERTIFICATE and CHALLENGE in Param1, signed GET_MEASUREMENTS behind its nonce. -/
def spdmSlot (q : Bytes) : Nat :=
  match uAt q 1 1 with
  | 0x82 | 0x83 => uAt q 2 1
  | 0xe0 => if uAt q 2 1 % 2 = 1 then uAt q 36 1 % 16 else 0
  | _ => 0

/-- The nonce of a request. -/
def spdmNonce (q : Bytes) : Bytes := fitTo 32 (slice q 4 32)

/-- A measurement: indexes 1 to 5 are the running digests of kinds 0 to 4, index 6 is the whole report with every tenant entry
redacted. -/
def spdmMeasure (s : State) (q : Bytes) (i : Nat) : Bytes :=
  if inR i 1 5 then s.fwDigest (i - 1) else if i = 6 then reportBytes s (spdmNonce q) (fun p => p == 0) else []

/-- What a response carries: the chain of slot 0, its digest, or the measurements that the request names; number 0 asks for
their number, number 255 for all. -/
def spdmContent (s : State) (q : Bytes) : Bytes :=
  match uAt q 1 1 with
  | 0x81 => sha384 (chainBytes s)
  | 0x82 | 0x83 => chainBytes s
  | 0xe0 =>
    let i := uAt q 3 1
    if i = 0 then [6] else if i = 255 then (List.range 6).flatMap (fun k => spdmMeasure s q (k + 1)) else spdmMeasure s q i
  | _ => []

/-- The refusal of a request: too short, of another version, not supported, before GET_VERSION, or of a slot or measurement that
does not exist. -/
def spdmRefused (s : State) (q : Bytes) : Option Bytes :=
  let code := uAt q 1 1
  let i := uAt q 3 1
  if q.length < 4 then some (spdmError 0x01 0)
  else if (spdmAnswer code).isNone then some (spdmError 0x07 code)
  else if code = 0x84 then none
  else if uAt q 0 1 ≠ 0x13 then some (spdmError 0x41 0)
  else if s.sys.spdmLog = [] then some (spdmError 0x04 0)
  else if spdmSlot q ≠ 0 ∨ (code = 0xe0 ∧ 6 < i ∧ i ≠ 255) then some (spdmError 0x01 0)
  else none

/-- A response is signed: CHALLENGE, and GET_MEASUREMENTS that asks for it. -/
def spdmSigned (q : Bytes) : Bool := decide (uAt q 1 1 = 0x83) || (decide (uAt q 1 1 = 0xe0) && decide (uAt q 2 1 % 2 = 1))

/-- A request that is answered, with the messages since GET_VERSION, which a signature covers. -/
def spdmReply (q : Bytes) (s : State) : State :=
  let code := uAt q 1 1
  let rsp := (spdmAnswer code).getD 0x7f
  let log := (if code = 0x84 then [] else s.sys.spdmLog) ++ q
  let b := [if code = 0x84 then 0x10 else 0x13] ++ leBytes 1 rsp ++ Config.spdmBody rsp q (spdmContent s q)
  let b := if spdmSigned q then b ++ signBytes s.attestKey (log ++ b) else b
  { s with sys := { s.sys with spdmOut := b, spdmLog := log ++ b } }

/-- SPDM_REQUEST: a request over the DOE mailbox of a module whose PCIe link is there. -/
def execSpdmRequest (request : Bytes) (s : State) : Host.Outcome State Fault Refusal :=
  .next (if !s.sys.mode.hasHost then s
    else match spdmRefused s request with
      | some e => { s with sys := { s.sys with spdmOut := e } }
      | none => spdmReply request s)

end Sys2Proof.Machine
end

