-- ==== Sys2Proof/Machine/Counters.lean ====
section
/-! DEFINITION. Reading and resetting counters, profiles and traces (15 R454 to R463, R490, R491). -/

namespace Sys2Proof.Machine

/-! ### Counters -/

/-- The instance and member counts of a group. -/
def groupOfCtr (g : Nat) : Option (Nat × Nat) := (counterGroups.find? (fun x => decide (x.1 = g))).map (·.2)

/-- A partition may read an instance of a group (15 R454). -/
def mayReadCtr (s : State) (p g i : Nat) : Bool :=
  match g with
  | 0x0001 => p == 0 || decide (s.portOwner i = p)
  | 0x0002 | 0x0003 | 0x0004 => p == 0 || decide (i = p)
  | 0x0005 => decide (s.slotOwner i = p)
  | 0x0011 => p == 0 || decide (s.fact .tileOwner i = p)
  | _ => p == 0

/-- A partition may reset an instance that it may read: partition 0 never those of a tenant (15 R457). -/
def mayResetCtr (p g i : Nat) : Bool := p != 0 || !inR g 2 4 || i == 0

/-- A member of a group is counted behind intake on the packet path, where a marker passes it later than the ordering point
(15 R490). The marker passes intake, with the counts of the MAC, at the ordering point itself. -/
def onPath (g m : Nat) : Bool :=
  match g with
  | 0x0001 => m == 13 || m == 14
  | 0x0002 => !([22, 23] : List Nat).contains m
  | 0x0003 => [1, 4, 6, 8, 9, 10, 12, 13].contains m
  | 0x0005 => [0, 1, 2, 6].contains m
  | 0x0010 => true
  | 0x0015 => m == 0
  | _ => false

def counterCheck (c : CmdCtx) (reset : Bool) (g first count : Nat) (s : State) : Option Status :=
  match groupOfCtr g with
  | none => some .badParam
  | some (n, w) =>
    let i := first / w
    firstFail [(decide (n * w ≤ first), .badParam),
      (!mayReadCtr s c.part g i || (reset && !mayResetCtr c.part g i), .noPermission),
      (decide (count = 0) || decide ((first + count - 1) / w ≠ i), .badParam)]

/-- The value of a counter as a read takes it: the counters of a port that the mode does not have read 0 (03 R80). -/
def ctrValue (s : State) (g i : Nat) : DWord := if g = 1 ∧ s.portCount ≤ i / 16 then 0 else s.cntAt (ctrKey g i)

/-- The values of a range. -/
def ctrValues (s : State) (g first n : Nat) : List DWord := (List.range n).map (fun k => ctrValue s g (first + k))

/-- What packets behind a marker have counted meanwhile (02 R71). -/
def lateCount (s : State) (m key : Nat) : DWord := dw (s.obs.late.filter (fun e => decide (m ≤ e.1) && decide (e.2 = key))).length

/-- The number of values that a reply holds. -/
def ctrFit (count : Nat) : Nat := min count 509

/-- The values that a read with marker `m` takes: on the packet path as the marker passes, without the packets behind it, and
elsewhere as they stood at the ordering point. -/
def ctrTaken (s : State) (w g first n m : Nat) (snap : List DWord) : List DWord :=
  ((ctrValues s g first n).zip snap).zipIdx.map (fun x =>
    if onPath g ((first + x.2) % w) then x.1.1 - lateCount s m (ctrKey g (first + x.2)) else x.1.2)

/-- The values of a range that are taken behind intake, or at the ordering point; the others are left out. -/
def takenAt (path : Bool) (w g first : Nat) (l : List DWord) : List DWord :=
  l.zipIdx.map (fun x => if onPath g ((first + x.2) % w) = path then x.1 else 0)

/-- Take the values away from the counters: an event after the instant of a value stays counted. -/
def ctrReset (g first : Nat) (taken : List DWord) (s : State) : State :=
  let cnt := taken.zipIdx.foldl (fun m x => smMod 0 m (ctrKey g (first + x.2)) (fun v => v - x.1)) s.obs.cnt
  { s with obs := { s.obs with cnt := cnt } }

/-- The reply, with the interval ID from before; a reset makes the command the instance's interval. What was taken at the
ordering point has been reset there. -/
def counterReply (c : CmdCtx) (reset : Bool) (w g first count m : Nat) (snap : List DWord) (t : DWord) (s : State) : State :=
  let n := ctrFit count
  let k := ctrKey g (first / w)
  let taken := ctrTaken s w g first n m snap
  let s := if s.readWaits then s else { s with obs := { s.obs with late := [] } }
  let body := leBytes 8 (smGet 0 s.obs.ival k).toNat ++ taken.flatMap (fun v => leBytes 8 v.toNat)
  let fl := if n < count then 2 else 0
  if reset then
    let id := s.idOf c
    let s := ctrReset g first (takenAt true w g first taken) s
    finish c .ok body t fl { s with obs := { s.obs with ival := smSet s.obs.ival k id } }
  else finish c .ok body t fl s

/-- The ordering point of a read: its marker enters the pipelines, and what it takes there is taken, and reset there
(15 R457, R490). -/
def counterPoint (c : CmdCtx) (reset : Bool) (w g first count : Nat) (s : State) : State :=
  let old := ctrValues s g first (ctrFit count)
  let m := s.intake.nextPkt
  modEntry c (fun e => { e with mark := some m, markAt := s.now, snap := old })
    (if reset then ctrReset g first (takenAt false w g first old) s else s)

/-- A read or sampling reset: its marker follows the packets before it to admission, behind the markers of earlier reads. -/
def counterWork (c : CmdCtx) (i : Instr) (reset : Bool) (g first count : Nat) (s : State) : State :=
  let w := match groupOfCtr g with | some x => x.2 | none => 1
  let s := if ((s.entryOf c).bind (·.mark)).isSome then s else counterPoint c reset w g first count s
  match s.entryOf c with
  | none => s
  | some e =>
    let m := e.mark.getD 0
    if s.someRead (fun k => decide (k < m)) then waitCmd c i s
    else atPoint c i .egress (fun t s => counterReply c reset w g first count m e.snap t s) s

/-- COUNTER_READ. -/
def execCounterRead (c : CmdCtx) (group first count : Nat) (s : State) : Host.Outcome State Fault Refusal :=
  .next (runCmd c 0x700 (counterCheck c false group first count)
    (counterWork c (.counterRead c group first count) false group first count) s)

/-- COUNTER_SAMPLE_RESET. -/
def execCounterSampleReset (c : CmdCtx) (group first count : Nat) (s : State) : Host.Outcome State Fault Refusal :=
  .next (runCmd c 0x701 (counterCheck c true group first count)
    (counterWork c (.counterSampleReset c group first count) true group first count) s)

/-! ### Profiles (15 R460) -/

/-- The record of a profile entry. -/
def profileBytes (e : Profile) : Bytes :=
  leBytes 8 e.id.toNat ++ leBytes 4 (b2n e.complete) ++ leBytes 2 e.layer.toNat ++ leBytes 2 e.oper.toNat
    ++ leBytes 8 e.begin_.toNat ++ leBytes 8 e.end_.toNat ++ e.counts.flatMap (fun v => leBytes 8 v.toNat)

/-- An entry as PROFILE_READ sees it: on the MGCLK cycle on which the reply is written, incomplete, with the counts from before
that cycle. -/
def profileSeen (s : State) (e : Profile) : Profile :=
  let now := s.clk.pk / 4
  if e.doneAt = some now then { e with complete := false, end_ := 0, counts := if e.cycle = now then e.before else e.counts }
  else e

/-- PROFILE_READ. -/
def execProfileRead (c : CmdCtx) (id : DWord) (s : State) : Host.Outcome State Fault Refusal :=
  let n := id.toNat / 2 ^ 56
  .next (runCmd c 0x720
    (fun s => firstFail [(decide (n < 64) && decide ((s.ring n).part ≠ c.part), .noPermission),
      (decide (63 < n) || ((s.ring n).profiles.find? (fun e => decide (e.id = id))).isNone, .badParam)])
    (fun s => match (s.ring n).profiles.find? (fun e => decide (e.id = id)) with
      | some e => finish c .ok (profileBytes (profileSeen s e)) 0 0 s
      | none => finish c .badParam [] 0 0 s) s)

/-! ### Traces (15 R461, R462) -/

/-- The form of a trace buffer. -/
def traceBufOk (c : CmdCtx) (b : Bref) : Bool :=
  brefForm c b 1 && decide (b.loc = 1) && decide (65536 ≤ b.size) && decide (b.size ≤ 2 ^ 30) && decide (popCount 32 b.size = 1)

/-- TRACE_CONFIG: a new buffer discards the old one's records. -/
def execTraceConfig (c : CmdCtx) (mask : DWord) (bref : Bref) (s : State) : Host.Outcome State Fault Refusal :=
  .next (runCmd c 0x710
    (fun _ => firstFail [(!traceBufOk c bref || decide (256 ≤ mask.toNat), .badParam)])
    (fun s => match brefStatus c bref 1 bref.size s with
      | some st => finish c st [] 0 0 s
      | none =>
        let t := s.trace c.part
        let t := if t.addr = bref.addr ∧ t.size = bref.size then { t with mask := mask }
          else { mask := mask, addr := bref.addr, size := bref.size }
        finish c .ok [] 0 0 (s.setTrace c.part t)) s)

/-- The oldest unread records, at most n. -/
def traceUnread (s : State) (p n : Nat) : Bytes :=
  let t := s.trace p
  (List.range n).flatMap (fun k => s.hbmRead p (t.addr.toNat + (t.read + 32 * k) % t.size) 32)

/-- TRACE_READ: records are copied and freed. -/
def execTraceRead (c : CmdCtx) (bref : Bref) (s : State) : Host.Outcome State Fault Refusal :=
  .next (runCmd c 0x711 (fun s => brefStatus c bref 1 0 s)
    (fun s =>
      let t := s.trace c.part
      let n := min (bref.size / 32) ((t.write - t.read) / 32)
      match brefStatus c bref 1 (32 * n) s with
      | some st => finish c st [] 0 0 s
      | none =>
        let b := traceUnread s c.part n
        let s := profiled c (fun s => (List.range n).foldl (fun s k =>
          countHbm s c.part (t.addr.toNat + (t.read + 32 * k) % t.size) 32 false) s) s
        finish c .ok (leBytes 4 n) 0 0 ((brefWrite c bref b s).setTrace c.part { t with read := t.read + 32 * n })) s)

end Sys2Proof.Machine
end

