-- ==== Sys2Proof/Machine/FabCmds.lean ====
section
/-! DEFINITION. Joining and leaving the fabric, bring-up messages, the time exchange and the fabric's commands
(11 R354, R360 to R369). Logs 53 to 56. -/

namespace Sys2Proof.Machine

/-! ### Time of the fabric (11 R363 to R365) -/

/-- The counter is stepped, and the PPS integrator starts again (14 R441). -/
def stepCounter (d : Int) (s : State) : State :=
  { s with clk := { s.clk with ft := dw (wrapU 64 (s.clk.ft.toNat + d)), integ := 0 } }

/-- The advertisement that this node sends. -/
def advBody (s : State) : Bytes :=
  let q := if s.fab.master = s.fab.nodeId then s.fab.advSeq else smGet 0 s.fab.seqHigh s.fab.master
  leBytes 2 s.fab.master ++ leBytes 1 s.fab.dist ++ [0] ++ leBytes 4 q.toNat ++ zeros 8

/-- An advertisement heard on a link, and the highest ADV_SEQ of its master with the time of its rise. -/
def hearAdv (l : Nat) (b : Bytes) (s : State) : State :=
  let a : Adv := { master := uAt b 0 2, dist := uAt b 2 1, seq := w32 (uAt b 4 4) }
  let f := { s.fab with peerAdv := smSet s.fab.peerAdv l a }
  let rose := match smFind f.seqHigh a.master with | some q => decide (q.toNat < a.seq.toNat) | none => true
  if decide (a.master ≠ 0xffff) && rose then
    s.setFab { f with seqHigh := smSet f.seqHigh a.master a.seq, seqAt := smSet f.seqAt a.master s.now }
  else s.setFab f

/-- An advertisement is current: the highest sequence number of its master, risen within the last 3 s. -/
def currentAdv (s : State) (a : Adv) : Bool :=
  decide (a.master ≠ 0xffff) && decide (smGet 0 s.fab.seqHigh a.master = a.seq)
    && decide (s.now.toNat ≤ (smGet 0 s.fab.seqAt a.master).toNat + 3000000000)

/-- Order of (master, distance, via). -/
def advLt (a b : Nat × Nat × Nat) : Bool :=
  decide (a.1 < b.1) || (decide (a.1 = b.1) && (decide (a.2.1 < b.2.1) || (decide (a.2.1 = b.2.1) && decide (a.2.2 < b.2.2))))

/-- The choice of master, distance and parent. -/
def chooseMaster (s : State) : Nat × Nat × Nat :=
  let own := if s.fact .fabTimeSrc = 1 then (s.fab.nodeId, 0, 0xffff) else (0xffff, 255, 0xffff)
  s.linksUp.foldl (fun best l =>
    match smFind s.fab.peerAdv l with
    | some a =>
      let x := (a.master, a.dist + 1, (s.link l).peer)
      if currentAdv s a && decide (a.dist < 254) && advLt x best then x else best
    | none => best) own

def choose (s : State) : State :=
  let (m, d, v) := chooseMaster s
  s.setFab { s.fab with master := m, dist := d, via := v }

/-- This node is the time master. -/
def State.isMaster (s : State) : Bool := s.fab.joined && decide (s.fab.master = s.fab.nodeId)

/-- Send a TIME_REQ on a link. -/
def sendTimeReq (l : Nat) (s : State) : State := sendOnLink l 3 0 (zeros 8 ++ advBody s) s

/-- TIME_EXCHANGE_TIMER: once a second. -/
def timeExchange (s : State) : State :=
  if !s.fabUp || !s.fab.joined || decide (s.now.toNat < s.fab.timerAt.toNat + 1000000000) then s
  else
    let s := s.setFab { s.fab with timerAt := s.now, advSeq := if s.isMaster then s.fab.advSeq + 1 else s.fab.advSeq }
    let s := choose s
    s.linksUp.foldl (fun s l => sendTimeReq l s) s

def execTimeExchangeTimer (s : State) : Host.Outcome State Fault Refusal := .next (timeExchange s)

/-- TIME_REQ: the answer carries T1, the arrival time and the departure time. -/
def timeReq (l : Nat) (m : Msg) (s : State) : State :=
  if s.fabUp && s.linkUp l then
    let t2 := s.arrivalOf m
    let s := hearAdv l (slice m.body 8 16) (takeTime m s)
    sendOnLink l 4 0 (fitTo 8 m.body ++ leBytes 8 t2.toNat ++ zeros 8 ++ advBody s) s
  else s

def execTimeReq (link : Nat) (m : Msg) (s : State) : Host.Outcome State Fault Refusal := .next (timeReq link m s)

/-- Half of a difference of differences, rounded toward zero, as signed 64-bit numbers. -/
def halfOf (x : DWord) : Int := divT x.toInt 2

/-! ### Joining (11 R366 to R368) -/

/-- The links of a mask. -/
def maskLinks (m : Word) : List Nat := (List.range 32).filter (fun l => m.getLsbD l)

/-- The periods of the module's timers begin with RUNNING (14 R444). -/
def beginTimers (s : State) : State :=
  let k := s.clk.pk
  { s with
    egr := { s.egr with refills := k / 64, rounds := (List.range 32).foldl (fun m p => smSet m p (k / 1024)) [], sampleAt := s.now },
    flow := { s.flow with placeAt := s.now }, clk := { s.clk with periods := k / 160000 },
    arb := (List.range 6).foldl (fun m i => smMod {} m i (fun a => { a with refills := k / 1600 })) s.arb,
    tabs := { s.tabs with ageStart := (List.range 64).foldl (fun m p => smSet m p s.now) [],
                          agePeriod := (List.range 64).foldl (fun m p => smSet m p (s.fval .agePeriod p)) [] } }

/-- The last step of a start is over: the module runs, and START replies (14 R443, R444, R449). -/
def startEnd (s : State) : State :=
  match s.sys.start with
  | some j =>
    if j.joining then
      let y := { s.sys with mode := .running, start := none, lastStart := b2n j.warm, warm := j.warm,
                            preserved := j.warm && j.preserve, failedStarts := 0, coldOnly := false, hbmSaved := true,
                            eqAt := s.clk.pk }
      finish j.ctx .ok (leBytes 4 (b2n j.warm) ++ leBytes 4 ((s.clk.pk - s.clk.startPk) / 1600000)) 0 0 (beginTimers { s with sys := y })
    else s
  | none => s

/-- The join ends: the links up and the step; the node ID and mask are kept for START_JOIN (14 R445). -/
def joinDone (j : JoinJob) (s : State) : State :=
  let s := (s.setFab { s.fab with join := none })
  let s := { s with sys := { s.sys with lastJoin := some (j.node, j.mask) } }
  match j.ctx with
  | some c =>
    let up := s.linksUp.foldl (fun a l => a + 2 ^ l) 0
    finish c .ok (leBytes 4 up ++ zeros 4 ++ leBytesI 8 (j.step.getD 0)) 0 0 s
  | none => startEnd s

/-- A join ends early once every link of its mask is UP and the step has been made. -/
def joinGo (s : State) : State :=
  match s.fab.join with
  | some j => if s.fab.joined && j.step.isSome && (maskLinks j.mask).all s.linkUp then joinDone j s else s
  | none => s

/-- The first exchange of a join steps the counter by the parent's offset; a node that is master itself makes no step. -/
def joinStep (l : Nat) (d : Int) (s : State) : State :=
  match s.fab.join with
  | some j =>
    if j.step.isSome then s
    else
      let s := choose s
      if s.isMaster then s.setFab { s.fab with join := some { j with step := some 0 } }
      else if s.fab.via = (s.link l).peer then (stepCounter d s).setFab { s.fab with join := some { j with step := some d } }
      else s
  | none => s

/-- The rate that the fabric's servo gives the adder for an offset of the parent: the manual states no law for it
(log 56). -/
def fabServo (s : State) : State :=
  let (n, s) := drawBelow s 2097153
  { s with clk := { s.clk with fabRate := (n : Int) - 1048576 } }

/-- TIME_RESP. -/
def timeResp (l : Nat) (m : Msg) (s : State) : State :=
  if s.fabUp && s.linkUp l then
    let t1 := dw (uAt m.body 0 8)
    let t2 := dw (uAt m.body 8 8)
    let t3 := dw (uAt m.body 16 8)
    let t4 := s.arrivalOf m
    let d := halfOf ((t2 - t1) - (t4 - t3))
    let delay := halfOf ((t2 - t1) + (t4 - t3))
    let s := hearAdv l (slice m.body 24 16) (takeTime m s)
    let s := s.modLink l (fun x => { x with offset := some d, hopNs := w32 (wrapU 32 delay) })
    let late := match s.fab.join with | some j => j.step.isSome | none => true
    let s := if late && s.fab.joined && !s.isMaster && decide (s.fab.via = (s.link l).peer) then fabServo s else joinStep l d s
    joinGo s
  else s

def execTimeResp (link : Nat) (m : Msg) (s : State) : Host.Outcome State Fault Refusal := .next (timeResp link m s)

/-- The first UP link of a join: the node is joined, with fresh sequence numbers, and asks its peer for the time. -/
def firstUp (l : Nat) (s : State) : State :=
  match s.fab.join with
  | some j =>
    if s.fab.joined then s
    else
      let s := s.setFab { s.fab with joined := true, nodeId := j.node, mseqTx := [], mseqRx := [], reorder := [], gapSince := [],
                                     timerAt := s.now }
      let s := { s with tiles := { s.tiles with collCalls := [], collTo := [], collFrom := [], collIn := [] } }
      sendTimeReq l (choose s)
  | none => s

/-- A refused peer: its link stays DOWN (11 R360). -/
def refusePeer (l : Nat) (s : State) : State :=
  (linkDown l 0 (s.modLink l (fun x => { x with wanted := false }))).count (.link l .peerRefused)

/-- The node ID that a peer announces is in use by another node: this one, or the peer of another up link with another
identity. -/
def nodeTaken (s : State) (l n : Nat) (chain : Bytes) : Bool :=
  decide (n = s.myNode) || s.linksUp.any (fun k => decide (k ≠ l) && decide ((s.link k).peer = n)
    && (s.link k).peerChain != chain)

/-- HELLO: the peer's chain must verify to the Frakan root. -/
def hello (l : Nat) (m : Msg) (s : State) : State :=
  if s.fabUp && decide ((s.link l).state = 2) then
    let chain := m.body.drop 8
    let n := uAt m.body 0 2
    if sigVerifies s (leBytes 48 s.sys.fuses.rootHash.toNat) chain [] && !nodeTaken s l n chain && decide (n < 2 ^ 14) then
      s.modLink l (fun x => { x with peer := n, peerLink := uAt m.body 2 1, peerChain := chain })
    else refusePeer l s
  else s

def execHello (link : Nat) (m : Msg) (s : State) : Host.Outcome State Fault Refusal := .next (hello link m s)

/-- KEY_EXCH: at bring-up the link comes UP; on an up link both directions get their next keys, and an end that has not
sent its own share does so. -/
def keyExch (l : Nat) (m : Msg) (s : State) : State :=
  let x := s.link l
  let good := sigVerifies s x.peerChain (fitTo 97 m.body) (slice m.body 104 96)
  let share := fitTo 97 m.body
  if !s.fabUp then s
  else if x.state = 2 ∧ x.peerChain ≠ [] then
    (if good then joinGo (firstUp l (linkUpNow l share s)) else refusePeer l s)
  else if x.state = 3 then
    let s := takeMsg m s
    if !good then refusePeer l s
    else if x.newRx.isSome ∨ x.switching then s
    else
      let s := if x.rekey then s else sendKeyExch l s
      s.modLink l (fun y =>
        let y := { y with newTx := some (linkKey y share s.myNode l), newRx := some (linkKey y share y.peer y.peerLink) }
        if y.ended then y.nextPhase else y)
  else s

def execKeyExch (link : Nat) (m : Msg) (s : State) : Host.Outcome State Fault Refusal := .next (keyExch link m s)

/-- LINK_TRAINING_COMPLETE: a link that trains, or that a join named and left DOWN, goes on to HELLO and KEY_EXCH. -/
def linkTrained (l : Nat) (s : State) : State :=
  let x := s.link l
  if s.fabUp && s.linkLit l && (decide (x.state = 1) || (decide (x.state = 0) && x.wanted)) then
    bringUp l (s.setLink l ({ x.cleared 2 with peerChain := [], peer := 0xffff }))
  else s

def execLinkTrainingComplete (link : Nat) (s : State) : Host.Outcome State Fault Refusal := .next (linkTrained link s)

/-- A join begins: the down links of the mask start training (11 R367, R368). -/
def joinStart (ctx : Option CmdCtx) (node : Nat) (mask : Word) (s : State) : State :=
  let down := (maskLinks mask).filter (fun l => let x := s.link l; decide (x.state = 0) || decide (x.state = 4))
  let s := down.foldl (fun s l => s.setLink l { (s.link l).cleared 1 with wanted := true }) s
  let j : JoinJob := { ctx := ctx, node := node, mask := mask, since := s.now, step := if s.fab.joined then some 0 else none }
  joinGo (s.setFab { s.fab with join := some j })

/-- A command's join is in progress, or a start's while it lasts. -/
def joinBusy (s : State) : Bool :=
  match s.fab.join with | some j => j.ctx.isSome || s.sys.start.isSome | none => false

/-- FABRIC_JOIN. -/
def execFabricJoin (c : CmdCtx) (node : Nat) (mask : Word) (s : State) : Host.Outcome State Fault Refusal :=
  .next (runCmd c 0x500
    (fun s => firstFail [p0Only c, (decide (2 ^ 14 ≤ node) || (s.fab.joined && decide (node ≠ s.fab.nodeId)), .badParam)])
    (fun s => if joinBusy s ∨ s.fab.leaving.isSome then finish c .busy [] 0 0 s else joinStart (some c) node mask s) s)

/-- A node that is joined no longer. -/
def Fab.alone (f : Fab) : Fab :=
  { f with joined := false, nodeId := 0, leaving := none, join := none, master := 0xffff, dist := 255, via := 0xffff,
           peerAdv := [], inbox := [], timeAt := [] }

/-- FAB_JOIN_TIMEOUT_EXPIRE: the links that are not UP are left DOWN; with no link UP the join fails and the node is not joined. A start's join that has no
link UP does not fail the start, and goes on behind it (14 R445). -/
def joinTimeout (s : State) : State :=
  match s.fab.join with
  | some j =>
    if s.fabUp && (j.ctx.isSome || s.sys.start.isSome) && decide (j.since.toNat + s.fval .fabJoinTimeout * 1000000 ≤ s.now.toNat) then
      let ok := !s.linksUp.isEmpty
      let late := (maskLinks j.mask).filter (fun l => !s.linkUp l)
      let s := late.foldl (fun s l => s.setLink l { (s.link l).cleared 0 with wanted := ok || j.ctx.isNone }) s
      if ok then joinDone j s
      else
        match j.ctx with
        | some c => finish c .timeout [] 0 0 (s.setFab s.fab.alone)
        | none => startEnd s
    else s
  | none => s

def execFabJoinTimeoutExpire (s : State) : Host.Outcome State Fault Refusal := .next (joinTimeout s)

/-! ### Leaving (11 R369) -/

/-- The holder writes a leased flow back to its home: from its hot form, or as it stands. -/
def returnLease (i : Nat) (s : State) : State :=
  match s.hotOf i with
  | some h => evictHot h s
  | none =>
    let c := s.ctx i
    sendMsg (homeOfIdx i) 1 0x13 c.part (c.fh.setWidth 32) (ctxBytes c) (endHeld i s)

/-- Messages are served while the node is joined. -/
def State.fabOn (s : State) : Bool := s.up && s.fab.joined

/-- The holder may evict a recalled flow: it has held it for FH_LEASE_MIN, its hold is closed, and no packet is between
its grant and stage 4. -/
def mayReturn (s : State) (l : Lease) : Bool :=
  l.recalled && decide (l.since.toNat + s.fval .fhLeaseMin * 1000 ≤ s.now.toNat) && (s.holdOf l.index).isNone
    && s.flow.reqs.all (fun r => decide (r.found ≠ some l.index))
    && s.pkts.all (fun k => decide (k.flowIdx ≠ some l.index) || decide (k.place ≠ .flow))

/-- A recalled flow goes back where it may. -/
def recallEvict (i : Nat) (s : State) : State :=
  match s.flow.held.find? (fun l => decide (l.index = i)) with
  | some l => if s.fabOn && mayReturn s l then returnLease i s else s
  | none => s

/-- Step 3 of leaving may begin: no lease is out or held, and no collective is in progress. -/
def mayLeave (s : State) : Bool := s.flow.leases.isEmpty && s.flow.held.isEmpty && s.tiles.colls.isEmpty

/-- The node takes its links down and is joined no longer. -/
def leaveEnd (c : CmdCtx) (s : State) : State :=
  let s := (List.range 32).foldl (fun s l => (linkDown l 0 s).modLink l (fun x => { x with wanted := false })) s
  let s := s.setFab s.fab.alone
  finish c .ok (leBytes 8 s.now.toNat) 0 0 s

/-- Every lease of this node's flows is recalled, and every lease that it holds goes back (11 R369 step 1). -/
def recallAll (s : State) : State :=
  let s := (s.flow.leases.map (·.index)).foldl (fun s i => recallLease i s) s
  let s := { s with flow := { s.flow with held := s.flow.held.map (fun (l : Lease) => { l with recalled := true }) } }
  (s.flow.held.map (·.index)).foldl (fun s i => recallEvict i s) s

/-- A FABRIC_LEAVE goes on: the leases that have come since, LEAVE to every peer, then the end once everything sent has been
acknowledged. -/
def leaveGo (s : State) : State :=
  match s.fab.leaving with
  | none => s
  | some (c, sent) =>
    let s := if sent then s else recallAll s
    let s := if !sent && mayLeave s then
        s.linksUp.foldl (fun s l => sendOnLink l 5 0 [] s) (s.setFab { s.fab with leaving := some (c, true) })
      else s
    match s.fab.leaving with
    | some (_, true) =>
      if s.linksUp.all (fun l => let x := s.link l; x.retry.isEmpty && x.outQ.isEmpty && x.txBuf.isEmpty) then leaveEnd c s
      else s
    | _ => s

/-- FABRIC_LEAVE: leases are recalled and returned first, by 11 R357. A node that is not joined gives NOT_READY. -/
def leaveStart (c : CmdCtx) (s : State) : State := leaveGo (s.setFab { s.fab with leaving := some (c, false), join := none })

def execFabricLeave (c : CmdCtx) (s : State) : Host.Outcome State Fault Refusal :=
  .next (runCmd c 0x501 (fun _ => firstFail [p0Only c])
    (fun s =>
      if !s.fab.joined then finish c .notReady [] 0 0 s
      else if joinBusy s ∨ s.fab.leaving.isSome then finish c .busy [] 0 0 s
      else leaveStart c s) s)

/-- LEAVE: the peer marks the link DOWN. -/
def leave (l : Nat) (m : Msg) (s : State) : State :=
  if s.fabUp && s.linkUp l then linkDown l 0 ((takeMsg m s).modLink l (fun x => { x with wanted := false })) else s

def execLeave (link : Nat) (m : Msg) (s : State) : Host.Outcome State Fault Refusal := .next (leave link m s)

/-! ### Reports (11 R364, R366) -/

/-- An entry of FABRIC_STATUS. -/
def statusEntry (s : State) (l : Nat) : Bytes :=
  let x := s.link l
  let spare := (linkLanes l).any (fun i => s.darn.spares.contains i)
  leBytes 1 x.state ++ leBytes 1 (b2n spare) ++ leBytes 2 x.peer ++ leBytes 4 x.keyGen ++ leBytes 8 x.sent.toNat
    ++ leBytes 4 x.retries.toNat ++ leBytes 4 x.authFail.toNat ++ leBytes 4 x.hopNs.toNat ++ zeros 4
    ++ [0, 1, 2, 3].flatMap (fun c => leBytes 2 (smGet 0 x.credits (bufIx c 1)))

def execFabricStatus (c : CmdCtx) (s : State) : Host.Outcome State Fault Refusal :=
  .next (runCmd c 0x502 (fun _ => firstFail [p0Only c])
    (fun s => finish c .ok ((List.range 32).flatMap (statusEntry s)) 0 0 s) s)

/-- The offset of a node: 0x8000_0000 where it is no up link peer, or no exchange with it has ended (log 56). -/
def offsetOf (s : State) (n : Nat) : Int :=
  match s.linksUp.find? (fun l => decide ((s.link l).peer = n) && (s.link l).offset.isSome) with
  | some l => clampI ((s.link l).offset.getD 0) (-2147483648) 2147483647
  | none => -2147483648

/-- The offsets of a range. -/
def offsetsWork (c : CmdCtx) (first count : Nat) (s : State) : State :=
  let n := min count 1020
  finish c .ok ((List.range n).flatMap (fun i => leBytesI 4 (offsetOf s (first + i)))) 0 (if n < count then 2 else 0) s

def execTimeOffsets (c : CmdCtx) (first count : Nat) (s : State) : Host.Outcome State Fault Refusal :=
  .next (runCmd c 0x540
    (fun _ => firstFail [p0Only c, (decide (count = 0) || decide (2 ^ 14 < first + count), .badParam)])
    (offsetsWork c first count) s)

/-! ### Delivered messages (11 R350) -/

/-- The command that handles a delivered message which came on a link. -/
def inboxCmd (l : Nat) (m : Msg) : Option Instr :=
  match m.mtype with
  | 2 => some (.keyExch l m)
  | 3 => some (.timeReq l m)
  | 4 => some (.timeResp l m)
  | 5 => some (.leave l m)
  | 6 => some (.stop l m)
  | 0x10 => some (.flowFetch m)
  | 0x11 => some (.flowGrant m)
  | 0x12 => some (.flowRecall m)
  | 0x13 => some (.flowWriteback m)
  | 0x14 => some (.flowCarry m)
  | 0x15 => some (.verdictWrite m)
  | 0x16 => some (.vbyteUpdate m)
  | 0x20 => some (.collSeg m)
  | 0x21 => some (.gradSeg m)
  | _ => none

/-- The delivered messages in the order in which they are handled: those of class FLOW that have come on the same cycle in
ascending source node ID (11 R357), each source's in their order of delivery. -/
def inboxOrder (s : State) : List (Nat × Msg) :=
  let flow : Nat × Msg → Bool := fun e => decide (e.2.cls = 1)
  sortBy (fun a b => decide (a.2.src < b.2.src)) (s.fab.inbox.filter flow) ++ s.fab.inbox.filter (fun e => !flow e)

/-- The commands of the delivered messages. -/
def inboxCmds (s : State) : List Instr := (inboxOrder s).filterMap (fun e => inboxCmd e.1 e.2)

/-! ### Frames and gaps -/

/-- FABRIC_FRAME_SEND: the next frame of an up link that is not re-aligning; a FABRIC_LEAVE then goes on. -/
def frameSend (l : Nat) (s : State) : State :=
  if s.fabUp then leaveGo (if s.linkUp l && s.linkLit l && !laneMoving s l then linkSend l s else s) else s

/-- The messages of a gap are skipped: the earliest waiting one has its turn. -/
def skipGap (src cls : Nat) (s : State) : State :=
  let e := s.expMseq src cls
  let mine := s.fab.reorder.filter (fun x => decide (x.2.src = src) && decide (x.2.cls = cls))
  match minBy (fun q => (q + 65536 - e) % 65536) (mine.map (·.2.mseq)) with
  | none => s
  | some q =>
    let s := s.setFab { s.fab with mseqRx := smSet s.fab.mseqRx (seqKey src cls) q }
    noteGap src cls true (drainReorder src cls s.fab.reorder.length (s.count (.module_ .fabSeqGap)))

/-- FAB_GAP_TIMEOUT_EXPIRE. -/
def gapExpire (src cls : Nat) (s : State) : State :=
  match smFind s.fab.gapSince (seqKey src cls) with
  | some t =>
    if s.fabUp && decide (t.toNat + s.fval .fabGapTimeout * 1000 ≤ s.now.toNat) then skipGap src cls s else s
  | none => s

def execFabGapTimeoutExpire (src cls : Nat) (s : State) : Host.Outcome State Fault Refusal := .next (gapExpire src cls s)

end Sys2Proof.Machine
end

