-- ==== Sys2Proof/Machine/Fifo.lean ====
section
/-! DEFINITION. The words of FIFOs (10 R318, R319, R321): how packets and records lie in them, what a read returns, and the
whole-packet count. Log 73. -/

namespace Sys2Proof.Machine

/-- A FIFO word: its data and its control field, where `valid` is the number of valid bytes of an END word. -/
structure FWord where
  data   : Bytes
  last   : Bool := false
  poison : Bool := false
  idle   : Bool := false
  valid  : Nat := 1
  deriving DecidableEq, Repr

/-- The control field: END, POISON, IDLE and VLEN, which is 0 but in an END word. -/
def FWord.control (x : FWord) : Nat :=
  b2n x.last + 2 * b2n x.poison + 4 * b2n x.idle + (if x.last then 8 * (x.valid - 1) else 0)

/-- What a read of an empty FIFO of a width returns. -/
def idleWord (w : Nat) : FWord := { data := zeros w, idle := true }

/-- The words of a packet or record, with fuel for its length. The last word is the END word, and carries the mark of data
that could not be corrected. -/
def wordsGo (w : Nat) (bad : Bool) : (fuel : Nat) → Bytes → List FWord
  | 0, _ => []
  | k + 1, b =>
    if b.length ≤ w then [{ data := fitTo w b, last := true, poison := bad, valid := b.length }]
    else { data := b.take w } :: wordsGo w bad k (b.drop w)

def wordsOf (w : Nat) (b : Bytes) (bad : Bool) : List FWord := wordsGo w bad (b.length + 1) b

/-- A read: the oldest word, or the idle word. -/
def fifoRead (w : Nat) : List FWord → FWord × List FWord
  | [] => (idleWord w, [])
  | x :: r => (x, r)

/-- The whole-packet count: the END words written and not yet read. -/
def fifoCount (l : List FWord) : Nat := (l.filter (·.last)).length

/-- Read words up to the next END word: the packet, and whether any word of it is poisoned. -/
def fifoPacket (bad : Bool) : List FWord → Option (Bytes × Bool × List FWord)
  | [] => none
  | x :: r =>
    let bad := bad || x.poison
    if x.last then some (x.data.take x.valid, bad, r)
    else (fifoPacket bad r).map (fun (y : Bytes × Bool × List FWord) => (x.data ++ y.1, y.2.1, y.2.2))

/-- The words of the packets that a test picks, in the order in which they entered. -/
def packetWords (s : State) (f : Packet → Bool) : List FWord :=
  (s.pkts.filter f).flatMap (fun k => wordsOf s.impl.width k.frame k.poison)

/-- The words that a FIFO holds, for the FIFOs whose packets and records State holds (15 R455). -/
def State.fifoWords (s : State) (n : Nat) : Option (List FWord) :=
  if n < 32 then some (packetWords s (fun k => decide (k.place = .intake) && decide (k.port = n)))
  else if n < 48 then some (packetWords s (fun k => decide (k.place = .reed) && decide (k.pipe = n - 32) && decide (k.pass = 1)))
  else if n < 64 then some (packetWords s (fun k => decide (k.place = .reorder) && decide (k.pipe = n - 48)))
  else if n < 192 then
    some (((s.hring ((n - 64) / 2)).fifo.filter (fun x => decide (x.die = (n - 64) % 2))).flatMap
      (fun x => wordsOf s.impl.width x.data x.poison))
  else none

/-- The words of an egress queue's frames. -/
def Queue.words (w : Nat) (q : Queue) : List FWord :=
  (q.items.filter (fun i => i.marker.isNone)).flatMap (fun i => wordsOf w i.frame i.poison)

end Sys2Proof.Machine
end

