-- ==== Sys2Proof/Machine/Wring.lean ====
section
/-! DEFINITION. The global stop and the scan-out (15 R464 to R470), and the frames of a link before and after a stop.
The contents that the manual does not lay out are log 21, the skews log 59. -/

namespace Sys2Proof.Machine

/-! ### A stop -/

/-- The causes of a stop, as bits of CAUSE (15 R469). -/
def causeCommand : Nat := 1
def causeFatal : Nat := 2
def causePin : Nat := 4
def causeFabric : Nat := 8

/-- The time counter 12 PKCLK cycles from now: FT64 of S. -/
def stopFt (s : State) : DWord := dw ((s.clk.ft.toNat * 2 ^ 32 + s.clk.frac.toNat + 12 * adderInc s) / 2 ^ 32)

/-- The skew of each halted unit: free below its period in root cycles, and 0 for a tile at ÷8. -/
def drawSkews (s : State) : List Nat × State :=
  let step : List Nat × State → Nat → List Nat × State := fun (l, s) x =>
    let (v, s) := drawBelow s (max x 1)
    (l ++ [v * (if x = 0 then 0 else 1)], s)
  let tiles := (List.range 32).map (fun t => if s.tileDivider t = 8 then 0 else s.tileDivider t)
  tiles.foldl step ([], s)

/-- The skews of the six HBM controllers and of the MGCLK units, in steps of a PKCLK cycle. -/
def drawSlowSkews (x : List Nat × State) : List Nat × State :=
  ([2, 2, 2, 2, 2, 2, 4, 4] : List Nat).foldl (fun (l, s) n =>
    let (v, s) := drawBelow s n
    (l ++ [8 * v], s)) x

/-- A link's one frame after S that holds only the STOP message (15 R466, R468). -/
def sendStop (l origin : Nat) (ft : DWord) (s : State) : State :=
  let x := s.link l
  let m : Msg := { dst := x.peer, cls := 0, src := s.fab.nodeId, hop := 1, mseq := smGet 0 s.fab.mseqTx (seqKey x.peer 0),
                   mtype := 6, part := 0, arg := ft.setWidth 32, body := leBytes 2 origin ++ zeros 6 ++ leBytes 8 ft.toNat }
  let b := frameBytes s.fab.nodeId l x false false x.crSel (msgBytes m)
  sendBytes l b (s.modLink l (fun y => { y with txCtr := y.txCtr + 1 }))

/-- The frames in the midst of transmission end with an error code; how much of each was sent is free. -/
def cutTx (s : State) : State :=
  let s := s.egr.tx.foldl (fun s e =>
    let (n, s) := drawBelow s (e.2.frame.length + 1)
    (s.count (.port e.1 .txPkts)).count (.port e.1 .txBytes) n) s
  { s with egr := { s.egr with tx := [] } }

/-- Every command in flight but one completes with ABORTED, in ring order (15 R467). -/
def abortAll (keep : InFlight → Bool) (s : State) : State :=
  let s := (List.range 64).foldl (fun s n => abortWhere (fun e => !keep e) (.ring n) s) s
  (List.range 64).foldl (fun s p => abortWhere (fun e => !keep e) (.inband p 0 []) s) s

/-- A stop: causes, propagation, origin, the link that it came on, and the command that is not aborted. -/
def takeStop (cause prop : Nat) (origin : Option (Nat × DWord)) (came : Option Nat) (keep : InFlight → Bool) (s : State) : State :=
  let ft := stopFt s
  let (sk, s) := drawSlowSkews (drawSkews s)
  let o := origin.getD (s.nodeOr, ft)
  let st : Stop := { cause := cause, pk := s.clk.pk - s.clk.startPk + 12, ft := ft, origin := o.1, originFt := o.2, skews := sk }
  let s := cutTx s
  let s := if prop.testBit 0 then
      (s.linksUp.filter (fun l => decide (came ≠ some l))).foldl (fun s l => sendStop l o.1 o.2 s) s
    else s
  let y := { s.sys with mode := .fatal, stopCause := BitVec.ofNat 4 cause, stopOut := s.sys.stopOut || prop.testBit 1 }
  abortAll keep { s with sys := y, obs := { s.obs with stop := some st } }

/-- A cause that asserts on the PKCLK cycle of a stop is recorded with it; a later one is ignored (15 R464). -/
def joinStop (cause : Nat) (s : State) : State :=
  match s.obs.stop with
  | some st =>
    if st.pk = s.clk.pk - s.clk.startPk + 12 then
      { s with sys := { s.sys with stopCause := s.sys.stopCause ||| BitVec.ofNat 4 cause },
               obs := { s.obs with stop := some { st with cause := st.cause ||| cause } } }
    else s
  | none => s

/-- Every link is down; its retry buffer stays as the stop found it. -/
def linksOff (s : State) : State :=
  (List.range 32).foldl (fun s l => s.modLink l (fun x => { x with state := 0, wanted := false })) s

/-- A FATAL event: a stop without propagation, and every port and link down (13 R415). A removal goes first (14 R432). -/
def fatalStop (s : State) : State :=
  if s.up then linksOff (takeStop causeFatal 0 none none (fun _ => false) s)
  else
    let t := joinStop causeFatal s
    if t.sys.stopCause = s.sys.stopCause then s else linksOff t

/-- WRING_STOP: the local stop time, of this stop or of the one that has been taken. -/
def execWringStop (c : CmdCtx) (propagate : Nat) (s : State) : Host.Outcome State Fault Refusal :=
  .next (runCmd c 0x730
    (fun _ => firstFail [p0Only c, (decide (3 < propagate), .badParam)])
    (fun s =>
      let s := if s.obs.stop.isSome then joinStop causeCommand s
        else takeStop causeCommand propagate none none (fun e => decide (e.ctx = c)) s
      match s.obs.stop with
      | some st => finish c .ok (leBytes 8 st.ft.toNat) 0 0 s
      | none => s) s)

/-- STOP: it starts a stop while STOP_CTRL.FAB_EN is 1, and goes on over the other links. -/
def stopMsg (l : Nat) (m : Msg) (s : State) : State :=
  if s.up && s.linkUp l then
    let s := takeMsg m s
    if (s.fval .stopCtrl).testBit 3 then
      takeStop causeFabric 1 (some (uAt m.body 0 2, dw (uAt m.body 8 8))) (some l) (fun _ => false) s
    else s
  else s

def execStop (link : Nat) (m : Msg) (s : State) : Host.Outcome State Fault Refusal := .next (stopMsg link m s)

/-- STOP_IN_EDGE. -/
def stopIn (s : State) : State :=
  let k := s.fval .stopCtrl
  if !k.testBit 0 then s
  else if s.up then takeStop causePin (bitsOf k 2 1) none none (fun _ => false) s
  else joinStop causePin s

def execStopInEdge (s : State) : Host.Outcome State Fault Refusal := .next (stopIn s)

/-- STOP_CAPTURE_END: the buffer is full, or 10 µs have passed without a non-idle frame. -/
def captureEnd (unit : Nat) (s : State) : State :=
  match s.obs.stop with
  | none => s
  | some st =>
    let c := smGet {} st.caps unit
    if c.bytes.length = 4096 ∨ (c.last.getD st.ft).toNat + 10000 ≤ s.now.toNat then
      { s with obs := { s.obs with stop := some { st with caps := smSet st.caps unit { c with ended := true } } } }
    else s

def execStopCaptureEnd (unit : Nat) (s : State) : Host.Outcome State Fault Refusal := .next (captureEnd unit s)

/-! ### Frames of a link (11 R344, R348, 15 R466) -/

/-- After a stop a link sends IDLE frames and retries nothing. -/
def sendIdle (l : Nat) (s : State) : State :=
  let x := s.link l
  sendBytes l (frameBytes s.fab.nodeId l x true false x.crSel []) (s.modLink l (fun y => { y with txCtr := y.txCtr + 1 }))

/-- FABRIC_FRAME_SEND. -/
def frameOut (l : Nat) (s : State) : State :=
  match s.obs.stop with
  | some _ => if s.linkUp l && s.linkLit l then sendIdle l s else s
  | none => frameSend l s

def execFabricFrameSend (link : Nat) (s : State) : Host.Outcome State Fault Refusal := .next (frameOut link s)

/-- FABRIC_FRAME_RECEIVE; after a stop the payload of a frame that is not IDLE is captured as it came. -/
def frameIn (l : Nat) (f : Bytes) (s : State) : State :=
  match s.obs.stop with
  | some _ => if s.linkUp l && !(uAt f 3 1).testBit 1 then captureRx (32 + l) (slice f 12 1968) s else s
  | none => if s.fabUp && s.linkUp l && s.linkLit l && !laneMoving s l then leaveGo (linkReceive l f s) else s

def execFabricFrameReceive (link : Nat) (frame : Bytes) (s : State) : Host.Outcome State Fault Refusal :=
  .next (frameIn link frame s)

/-! ### Scan-out (15 R469, R470) -/

/-- A section of the scan-out: type, unit, flags and body length. -/
structure Section where
  type  : Nat
  unit  : Nat
  flags : Nat
  len   : Nat
  deriving DecidableEq, Repr

/-- The stream-cache line that line `i` of tile t's memory holds, as its physical line and partition: set by set behind the
scratch, the lines of a set from the least recently used on (log 12). -/
def cacheLineAt (s : State) (t i : Nat) : Option (Nat × Nat) :=
  let k := i - s.scratchBytes t / 128
  let l := (s.cache t).lines.filter (fun e => decide (e.1 % cacheSets s t = k / 8))
  if s.scratchBytes t / 128 ≤ i then l[k % 8]? else none

/-- A cached line is of a WP page. -/
def cachedWp (s : State) (e : Nat × Nat) : Bool :=
  s.pages.any (fun x => x.2.wp && decide (x.1 / 2 ^ 27 = e.2) && decide (s.physPage e.2 (x.1 % 2 ^ 27) = some (e.1 * 128 / pageBytes)))

/-- A tile-memory line holds protected weights: its WP bit, or of a cached line its page's. -/
def lineWp (s : State) (t i : Nat) : Bool :=
  match cacheLineAt s t i with
  | some e => cachedWp s e
  | none => (smGet {} s.tiles.lines (t * 32768 + i)).wp

/-- A tile-memory line is masked: WP on XE8-A1 (12 R383). -/
def lineMasked (s : State) (t i : Nat) : Bool := !s.sys.fuses.debug && lineWp s t i

/-- Some line of a tile is masked. -/
def tileMasked (s : State) (t : Nat) : Bool :=
  !s.sys.fuses.debug && (s.tiles.lines.any (fun e => decide (e.1 / 32768 = t) && e.2.wp) || (s.cache t).lines.any (cachedWp s))

/-- The bytes of a capture section. -/
def captureBody (c : Capture) : Bytes :=
  leBytes 4 c.bytes.length ++ leBytes 4 c.after ++ c.times.flatMap (leBytesI 4) ++ c.bytes

/-- The UNIT_STATE units: pipelines, tiles, command processors, DARN and HBM controllers (log 21). -/
def stateUnits : List Nat :=
  (List.range 16).map pipeUnit ++ (List.range 32).map tileUnit ++ (List.range 4).map cpUnit ++ [0x1c00]
    ++ (List.range 6).map (fun i => 0x1c01 + i)

def openSection (type unit : Nat) : Section := { type := type, unit := unit, flags := 0, len := Config.scanLen type unit }

/-- The key registers of an HBM controller, two keys of AES-256-XTS for each region, are zeros in every scan-out (12 R383).
They come first among its registers (DESIGN CHOICE, log 21). -/
def keyRegisters : Nat := 256 * 2 * 64

/-- The key registers among the registers of a unit. -/
def unitKeys (unit : Nat) : Nat := if 0x1c01 ≤ unit then keyRegisters else 0

/-- The section of a unit's registers: masked where it has key registers. -/
def unitSection (unit : Nat) : Section :=
  { type := 5, unit := unit, flags := b2n (decide (unitKeys unit ≠ 0)), len := unitKeys unit + Config.scanLen 5 unit }

/-- The body of a FIFO's section: its number, 6 bytes of pointers and flags, which are free, then every word with its
control field (DESIGN CHOICE, log 21). -/
def fifoBody (n : Nat) (l : List FWord) : Bytes :=
  leBytes 2 n ++ (List.range 6).map (Config.scanByte 4 n) ++ l.flatMap (fun x => x.data ++ leBytes 2 x.control)

/-- The section of a FIFO; of one whose words the manual does not describe it is free. -/
def fifoSection (s : State) (n : Nat) : Section :=
  match s.fifoWords n with
  | some l => { type := 4, unit := n, flags := 0, len := (fifoBody n l).length }
  | none => openSection 4 n

/-- The sections, in order of their types. -/
def scanSections (s : State) (st : Stop) : List Section :=
  [{ type := 1, unit := 0, flags := 0, len := 72 }]
    ++ (List.range 576).map (openSection 2)
    ++ (List.range 32).map (fun t =>
        { type := 3, unit := tileUnit t, flags := b2n (tileMasked s t), len := 4096 + 32768 * 129 })
    ++ (List.range 270).map (fifoSection s)
    ++ stateUnits.map unitSection
    ++ (List.range 32).map (fun l => { type := 6, unit := l, flags := 0, len := 2000 * (s.link l).retry.length })
    ++ (List.range 64).map (fun u =>
        let c := smGet {} st.caps u
        { type := 7, unit := u, flags := if c.after = 0 then 0 else 2, len := (captureBody c).length })

/-- The 4 KiB bitmap of a tile's masked lines. -/
def maskBitmap (s : State) (t : Nat) : Bytes :=
  (List.range 4096).map (fun b => BitVec.ofNat 8 (maskOf8 (fun i => lineMasked s t (8 * b + i))))
where
  maskOf8 (p : Nat → Bool) : Nat := (List.range 8).foldl (fun a i => if p i then a + 2 ^ i else a) 0

/-- A line with its partition tag; a masked line is zeros. -/
def scanLine (s : State) (t i : Nat) : Bytes :=
  match cacheLineAt s t i with
  | some e => (if lineMasked s t i then zeros 128 else memReadN s.hbm (e.1 * 128) 128) ++ leBytes 1 e.2
  | none =>
    (if lineMasked s t i then zeros 128 else memReadN s.tiles.mem (t * 2 ^ 22 + i * 128) 128)
      ++ leBytes 1 (smGet {} s.tiles.lines (t * 32768 + i)).part

/-- The body of a section. -/
def scanBody (s : State) (st : Stop) (x : Section) : Bytes :=
  match x.type with
  | 1 => st.skews.flatMap (leBytes 1) ++ (List.range 32).flatMap (fun t => leBytes 1 (s.tileDivider t))
  | 3 => maskBitmap s (x.unit % 1024) ++ (List.range 32768).flatMap (scanLine s (x.unit % 1024))
  | 4 => match s.fifoWords x.unit with
    | some l => fifoBody x.unit l
    | none => (List.range x.len).map (Config.scanByte 4 x.unit)
  | 5 => zeros (unitKeys x.unit) ++ (List.range (x.len - unitKeys x.unit)).map (Config.scanByte 5 x.unit)
  | 6 => (s.link x.unit).retry.flatMap (·.bytes)
  | 7 => captureBody (smGet {} st.caps x.unit)
  | _ => (List.range x.len).map (Config.scanByte x.type x.unit)

/-- The length of the whole scan-out. -/
def scanLength (s : State) (st : Stop) : Nat :=
  128 + ((scanSections s st).map (fun x => 16 + ceilDiv x.len 8 * 8)).foldl (· + ·) 0

/-- The 128-byte header. -/
def scanHead (s : State) (st : Stop) : Bytes :=
  leBytes 4 0x4e414353 ++ leBytes 2 1 ++ leBytes 2 (if s.sys.fuses.debug then 2 else 1) ++ leBytes 2 st.cause
    ++ leBytes 2 s.nodeOr ++ leBytes 2 st.origin ++ leBytes 2 (scanSections s st).length ++ leBytes 8 st.ft.toNat
    ++ leBytes 8 st.originFt.toNat ++ leBytes 8 st.pk ++ leBytes 8 (scanLength s st) ++ zeros 80

def scanSection (s : State) (st : Stop) (x : Section) : Bytes :=
  leBytes 2 x.type ++ leBytes 2 x.unit ++ leBytes 4 x.flags ++ leBytes 8 x.len ++ pad8 (scanBody s st x)

/-- The scan-out. -/
def scanBytes (s : State) (st : Stop) : Bytes := scanHead s st ++ (scanSections s st).flatMap (scanSection s st)

/-- WRING_SCANOUT. -/
def scanoutWork (c : CmdCtx) (bref : Bref) (s : State) : State :=
  match s.obs.stop with
  | none => finish c .notReady [] 0 0 s
  | some st =>
    let n := scanLength s st
    if bref.size < n then finish c .capacity (leBytes 8 n) 0 0 s
    else finish c .ok (leBytes 8 n) 0 0 (s.hostWrite bref.addr.toNat (scanBytes s st))

def execWringScanout (c : CmdCtx) (bref : Bref) (s : State) : Host.Outcome State Fault Refusal :=
  .next (runCmd c 0x731
    (fun _ => firstFail [p0Only c, (!brefForm c bref 1 || decide (bref.loc ≠ 0), .badParam)])
    (scanoutWork c bref) s)

end Sys2Proof.Machine
end

