-- ==== Sys2Proof/Machine/DarnOps.lean ====
section
/-! DEFINITION. DARN's sources, windows, records, poison and the fences of units (13 R400 to R411, R417, R418). Log 60. -/

namespace Sys2Proof.Machine

def State.setDarn (s : State) (d : Darn) : State := { s with darn := d }

/-! ### Sources (13 R402, R403) -/

/-- The instances, T and W in µs of a class. -/
def classOfSource (c : Nat) : Option (Nat × Nat × Nat) :=
  match c with
  | 0x01 => some (576, 8, 1000000)
  | 0x02 => some (270, 8, 1000000)
  | 0x03 => some (6, 4, 10000000)
  | 0x04 => some (68, 16, 100000)
  | 0x05 => some (136, 64, 100000)
  | 0x06 => some (16, 2, 1000000)
  | 0x07 => some (512, 2, 1000000)
  | 0x08 => some (256, 2, 1000000)
  | 0x09 => some (32, 4, 1000000)
  | 0x0a => some (4, 1, 1000000)
  | 0x0b => some (1, 2, 60000000)
  | 0x0c => some (2, 1024, 1000000)
  | _ => none

/-- A source ID is defined. -/
def sourceOk (src : Nat) : Bool := match classOfSource (src / 1024) with | some x => decide (src % 1024 < x.1) | none => false

/-- The window of a source: its own, or its class's default. -/
def State.win (s : State) (src : Nat) : Win :=
  (smFind s.darn.wins src).getD
    (let x := (classOfSource (src / 1024)).getD (0, 0, 8)
     { t := x.2.1, w := x.2.2, subs := [], subNo := 0 })

/-- The number of the present sub-window. -/
def subNow (s : State) (w : Win) : Nat := s.now.toNat * 8 / (w.w * 1000)

/-- A window as it stands now: the counts of the present sub-window and the seven before it. -/
def winNow (s : State) (w : Win) : Win :=
  let n := subNow s w
  { w with subs := (List.replicate (min 8 (n - w.subNo)) 0 ++ w.subs).take 8, subNo := n }

def winCount (w : Win) : Nat := w.subs.foldl (· + ·) 0

/-- An event's window is that of one row of an HBM stack, which its address names. -/
def ofRow (e : ErrIn) (x : RowWin) : Bool := decide (x.source = e.source) && decide (x.row = e.address)

/-- The window that an event counts in: its source's, or its row's under the source's T and W. -/
def winOf (e : ErrIn) (s : State) : Win :=
  if e.source / 1024 = 3 then
    match s.darn.hbmRows.find? (ofRow e) with
    | some x => x.win
    | none => { s.win e.source with subs := [], subNo := 0 }
  else s.win e.source

/-- Keep an event's window. A stack tracks 256 rows: a new one replaces the row whose last error is oldest (13 R403). -/
def setWin (e : ErrIn) (w : Win) (s : State) : State :=
  if e.source / 1024 = 3 then
    let l := s.darn.hbmRows.filter (fun x => !ofRow e x)
    let stack : RowWin → Bool := fun x => decide (x.source = e.source)
    let l := if 256 ≤ (l.filter stack).length then delFirst stack l else l
    s.setDarn { s.darn with hbmRows := l ++ [⟨e.source, e.address, w⟩] }
  else s.setDarn { s.darn with wins := smSet s.darn.wins e.source w }

/-- An event in its window: the count, and whether the source is lasting, which sets the counter to 0. -/
def winBump (e : ErrIn) (s : State) : Nat × Bool × State :=
  let w := winNow s (winOf e s)
  let w := { w with subs := (w.subs.headD 0 + 1) :: w.subs.drop 1 }
  let n := winCount w
  let last := decide (w.t < n)
  (n, last, setWin e (if last then { w with subs := [] } else w) s)

/-! ### Units (13 R418) -/

/-- The unit that owns an error source, or 0. -/
def sourceUnit (src : Nat) : Nat :=
  let i := src % 1024
  match src / 1024 with
  | 0x01 => if i < 256 then tileUnit (i / 8) else if i < 384 then pipeUnit ((i - 256) / 8)
            else if 464 ≤ i ∧ i < 512 then pipeUnit ((i - 464) / 3) else if 544 ≤ i ∧ i < 560 then pipeUnit (i - 544) else 0
  | 0x02 => if 32 ≤ i ∧ i < 64 then pipeUnit (i % 16) else if 192 ≤ i ∧ i < 256 then tileUnit ((i - 192) / 2)
            else if 256 ≤ i ∧ i < 264 then cpUnit ((i - 256) / 2) else 0
  | 0x04 => laneUnit i
  | 0x05 => laneUnit (68 + i)
  | 0x06 => pipeUnit i
  | 0x07 => reedUnit i
  | 0x08 => wickUnit i
  | 0x09 => tileUnit i
  | 0x0a => cpUnit i
  | _ => 0

/-- A defined unit ID. -/
def unitOk (u : Nat) : Bool :=
  match u / 1024 with
  | 1 => decide (u % 1024 < 16)
  | 2 => decide (u % 1024 < 512)
  | 3 => decide (u % 1024 < 256)
  | 4 => decide (u % 1024 < 32)
  | 5 => decide (u % 1024 < 4)
  | 6 => decide (u % 1024 < 204)
  | _ => false

/-- An optical lane. -/
def isLane (u : Nat) : Bool := decide (u / 1024 = 6)
/-- The engine of a lane serves another lane with its spare. -/
def spareUsed (s : State) (u : Nat) : Bool := s.darn.spares.any (fun i => decide (i / 17 = u % 1024 / 17))
/-- A unit is out of service: fenced, or a lane that has been moved to its spare. -/
def outOfService (s : State) (u : Nat) : Bool := s.isFenced u || (isLane u && s.darn.spares.contains (u % 1024))

/-- A fence of a unit would leave none of its kind (13 R410). -/
def leavesNone (s : State) (u : Nat) : Bool :=
  let others : Nat → Nat → Bool := fun base n => ((List.range n).map (base + ·)).all (fun v => decide (v = u) || s.isFenced v)
  match u / 1024 with
  | 1 => others (pipeUnit 0) 16
  | 2 => others (reedUnit (u % 1024 / 32 * 32)) 32
  | 3 => others (wickUnit (u % 1024 / 16 * 16)) 16
  | 5 => others (cpUnit 0) 4
  | _ => false

/-! ### Records (13 R417, R419) -/

/-- Write a record into a partition's log; a full log replaces its oldest CORRECTED record, or drops the new one. -/
def addRec (p : Nat) (r : ErrRec) (s : State) : State :=
  let l := smGet {} s.darn.logs p
  let r := { r with index := l.next }
  let cap := if p = 0 then 4096 else 256
  let nx := (l.next + 1) % 2 ^ 32
  let l := if l.recs.length < cap then { l with recs := l.recs ++ [r], next := nx }
    else if l.recs.any (fun x => decide (x.severity = 0)) then
      { recs := delFirst (fun x => decide (x.severity = 0)) l.recs ++ [r], next := nx, lost := l.lost + 1 }
    else { l with next := nx, lost := l.lost + 1 }
  s.setDarn { s.darn with logs := smSet s.darn.logs p l }

/-- The index that partition 0's next record will carry. -/
def nextRec (s : State) : Nat := (smGet {} s.darn.logs 0).next

/-- Change a record of partition 0's log. -/
def modRec (i : Nat) (f : ErrRec → ErrRec) (s : State) : State :=
  let l := smGet {} s.darn.logs 0
  s.setDarn { s.darn with logs := smSet s.darn.logs 0 { l with recs := updFirst (fun x => decide (x.index = i)) f l.recs } }

/-- The record of a procedure that has been escalated away, and those folded into it, are SUBSUMED (13 R412). -/
def subsume (i by_ : Nat) (s : State) : State :=
  let l := smGet {} s.darn.logs 0
  let f : ErrRec → ErrRec := fun x =>
    if x.index = i then { x with action := 8, parent := by_ }
    else if x.parent = i ∧ x.flags.testBit 1 then { x with action := 8 } else x
  s.setDarn { s.darn with logs := smSet s.darn.logs 0 { l with recs := l.recs.map f } }

/-- Make the records of an event: one in partition 0's log, without a tenant's detail, and one in the log of a tenant that
it affects. -/
def record (e : ErrIn) (sev action flags unit count parent : Nat) (s : State) : State :=
  let r : ErrRec := {
    index := 0, severity := sev, action := action, flags := flags, time := s.now, source := e.source,
    unit := unit, part := e.part, kind := e.kind, window := count, parent := parent, address := e.address,
    command := e.command, layer := e.layer, oper := e.oper, detail := e.detail }
  let tenant := decide (0 < e.part) && decide (e.part < 64)
  let s := addRec 0 (if tenant then { r with command := 0, layer := 0, oper := 0, detail := 0 } else r) s
  if tenant then addRec e.part { r with parent := 0xffffffff } s else s

/-! ### Poison (13 R401, R411) -/

/-- Change an element of a list. -/
def modNth {α : Type} (f : α → α) (l : List α) (k : Nat) : List α :=
  match l[k]? with
  | some x => l.set k (f x)
  | none => l

/-- The hit data is poisoned. A packet, copy or record is poisoned as a whole with any word of it (10 R321). -/
def poisonAt (x : PoisonAt) (s : State) : State :=
  match x with
  | .nothing => s
  | .packet id => s.modPkt id (fun k => { k with poison := true })
  | .flow i => if (s.hotOf i).isSome then s.modHot i (fun h => { h with poison := true })
               else s.setCtx i { s.ctx i with poison := true }
  | .entry t k =>
    let l := updFirst (fun (e : TEntry) => decide (e.table = t) && decide (e.slot = k)) (fun e => { e with poison := true }) s.tabs.entries
    { s with tabs := { s.tabs with entries := l } }
  | .node n k =>
    let d : Node := { kind := 3, feature := 0, value := 0, left := 0, right := 0 }
    let hit : Ensemble → Ensemble := fun e => { e with nodes := e.nodes.set k { nth d e.nodes k with poison := true } }
    s.modSlot n (fun x => { x with ens := x.ens.map hit })
  | .tileLine t l =>
    { s with tiles := { s.tiles with lines := smMod {} s.tiles.lines (t * 32768 + l) (fun x => { x with poison := true }) } }
  | .hbmUnit u => if s.darn.poisonHbm.contains u then s else s.setDarn { s.darn with poisonHbm := s.darn.poisonHbm ++ [u] }
  | .command n =>
    match (s.ring n).inFlight.find? (fun e => e.cmd.isSome && e.waitFrom.isNone && e.reply.isNone) with
    | some e => finish e.ctx .dataPoisoned [] 0 0 s
    | none => s
  | .queued q k =>
    let x := s.queue q
    s.setQueue q { x with items := modNth (fun i => { i with poison := true }) x.items k }
  | .barrierCopy b k =>
    let hit : Barrier → Barrier := fun x => { x with waiting := modNth (fun c => { c with poison := true }) x.waiting k }
    s.setEgr { s.egr with barriers := updFirst (fun x => decide (x.id = b)) hit s.egr.barriers }
  | .hostCopy n k =>
    let h := s.hring n
    s.setHring n { h with fifo := modNth (fun x => { x with poison := true }) h.fifo k }

/-! ### Fences (13 R406 to R408) -/

/-- The events of a slot that have not run are discarded and counted (13 R408). -/
def loseEvents (n : Nat) (s : State) : State :=
  let x := s.slot n
  let gone := x.evq ++ x.filling ++ (if x.running then x.batches.drop 1 else x.batches).flatten
  let s := s.setSlot n { x with
    evq := [], filling := [], batches := if x.running then x.batches.take 1 else [],
    batchAt := if x.running then x.batchAt.take 1 else [] }
  gone.foldl (fun s e => dropRef e.part e.epoch (s.count (.ev e.part .evDrop))) s

/-- The slots that a test picks lose their events. -/
def loseWhere (f : Slot → Bool) (s : State) : State :=
  (s.slots.filter (fun e => f e.2)).foldl (fun s e => unloadDue e.1 (loseEvents e.1 s)) s

/-- A tile takes no more commands: its waiting ones complete with ABORTED, and a model on it loses its events. -/
def fenceTile (t : Nat) (s : State) : State :=
  let waits := s.tiles.cmds.filter (fun c => decide (c.state = 0) && c.xfer.isNone && decide ((tileCmdOf c.bytes).tile = t))
  let s := waits.foldl (abortCmd .aborted) s
  loseWhere (fun x => match x.tens with | some y => y.tiles.contains t | none => false) s

/-- An engine without groups loses the events of its ensembles. -/
def fenceEngine (k : Nat) (s : State) : State :=
  if engineFenced s k then
    loseWhere (fun x => x.tens.isNone && (match x.ens with | some e => e.event | none => false) && decide (x.bank.getD 0 = k)) s
  else s

/-- The command processor that serves a ring (02 R48). -/
def servedBy (s : State) (n : Nat) : Nat :=
  if s.isFenced (cpUnit (n % 4)) then (((List.range 4).find? (fun c => !s.isFenced (cpUnit c))).getD (n % 4)) else n % 4

/-- The rings that a processor serves. -/
def ringsOf (s : State) (c : Nat) : List Nat := (List.range 64).filter (fun n => decide (servedBy s n = c))

/-- The rings of a fenced processor stop, and their commands in flight complete with ABORTED; their running tile commands
end uncommitted, since an aborted command has no partial effect (02 R75). -/
def fenceCp (c : Nat) (keep : InFlight → Bool) (s : State) : State :=
  (ringsOf s c).foldl (fun s n =>
    let s := s.modRing n (fun r => { r with fencedCp := true })
    let gone := (s.flight (.ring n)).filter (fun e => e.reply.isNone && !keep e)
    abortWork (fun e => !keep e) (.ring n) (gone.foldl (fun s e => dropRunning e.ctx s) s)) s

/-- Steering stops sending to a pipeline; a move from or to it ends by the fence (13 R407). -/
def fencePipe (k : Nat) (s : State) : State :=
  let take : Move → Move := fun m =>
    if (m.from_ = k ∨ m.dst = k) ∧ !m.fence then { m with fence := true, dst := 16 + k } else m
  let m : Move := { bucket := 65536, from_ := k, dst := 16 + k, since := s.now, drained := false, fence := true, ctx := none,
                    home := none, pk := s.clk.pk }
  { s with flow := { s.flow with moves := s.flow.moves.map take ++ [m] } }

/-- The packets in a pipeline; held flows continue. -/
def inPipe (s : State) (k : Nat) : List Packet := s.pkts.filter (fun x => decide (x.pipe = k) && decide (x.place ≠ .intake) && !x.place.held)

/-- A slice writes back its forms at a fence; one that cannot be corrected is discarded, its hold closing as late. -/
def fenceEvict (s : State) (h : HotForm) : State :=
  if h.poison then
    let s := dropHot h.index (if h.hold then closeHold h.index .late s else s)
    (s.setCtx h.index { s.ctx h.index with hot := false }).count (.ev h.part .flowHotLost)
  else evictHot h s

/-- The buckets of a pipeline, ascending. -/
def bucketsOf (s : State) (k : Nat) : List Nat :=
  ((List.range 4096).map (fun i => 16 * i + k)).filter (fun b => decide (s.pipeOf b = k))
    ++ (s.flow.pipeOf.filter (fun e => decide (e.2 = k) && decide (e.1 % 16 ≠ k))).map (·.1)

/-- The end of a pipeline's fence: its slice is written back, and its buckets go to other pipelines in ascending order. -/
def fencePipeEnd (k : Nat) (s : State) : State :=
  let s := (s.flow.hots.filter (fun h => decide (h.slice = k))).foldl fenceEvict s
  let s := s.setReqs (s.flow.reqs.filter (fun r => decide (r.pipe ≠ k)))
  let s := { s with flow := { s.flow with moves := s.flow.moves.filter (fun m => !(decide (m.bucket = 65536) && decide (m.from_ = k))) } }
  let mine := s.flow.moves.filter (fun m => m.fence && decide (m.dst = 16 + k))
  let s := (sortBy (fun a b => decide (a < b)) (bucketsOf s k)).foldl (fun s b => placeBucket b (fewestOn s k) s) s
  mine.foldl (fun s m => endHomeSet m (endMove { m with dst := if s.pipeOf m.bucket = k then fewestOn s k else s.pipeOf m.bucket } s)) s

/-- A pipeline may leave service: nothing is in it. -/
def pipeQuiet (s : State) (k : Nat) : Bool := (inPipe s k).isEmpty

/-- A tile is at its command boundary. -/
def tileQuiet (s : State) (t : Nat) : Bool := (runningOn s t).isNone

end Sys2Proof.Machine
end

