-- ==== Sys2Proof/Machine/Darn.lean ====
section
/-! DEFINITION. DARN's procedures and its commands (13 R402 to R421). Log 60. -/

namespace Sys2Proof.Machine

/-! ### Procedures (13 R406, R412 to R414) -/

/-- What a procedure acts on: its unit, or its source where the unit has no ID. -/
def procKey (u src : Nat) : Nat := if u = 0 then 65536 + src else u

/-- The commands of a procedure, as entries in flight that an abort leaves alone. -/
def keepsCtx (l : List CmdCtx) (e : InFlight) : Bool := l.contains e.ctx

/-- A procedure starts: a fence takes effect as far as it does so at once. -/
def procStart (p : Proc) (s : State) : State :=
  let s := s.setDarn { s.darn with proc := some { p with pk := s.clk.pk } }
  let i := p.unit % 1024
  if p.action = 6 then { s with sys := { s.sys with rotBusy := true } }
  else if p.action ≠ 5 then s
  else match p.unit / 1024 with
    | 1 => fencePipe i s
    | 4 => fenceTile i (s.setDarn { s.darn with fenced := s.darn.fenced ++ [p.unit] })
    | 5 => fenceCp i (keepsCtx p.ctxs) s
    | _ => s

/-- A FATAL event acts at once. -/
def goFatal (s : State) : State := fatalStop s

/-- DARN is asked for a procedure whose record is in partition 0's log already (13 R412, R414). -/
def procAsk (e : ErrIn) (p : Proc) (s : State) : State :=
  let k := procKey p.unit p.source
  match s.darn.proc with
  | none => procStart p s
  | some r =>
    if procKey r.unit r.source = k then
      if p.severity ≤ r.severity then
        let s := modRec p.recIdx (fun x => { x with flags := x.flags ||| 2, parent := r.recIdx }) s
        s.setDarn { s.darn with proc := some { r with ctxs := r.ctxs ++ p.ctxs } }
      else
        let s := subsume r.recIdx p.recIdx s
        procStart { p with ctxs := r.ctxs ++ p.ctxs } (modRec p.recIdx (fun x => { x with flags := x.flags ||| 4 }) s)
    else if s.darn.pend.any (fun q => decide (procKey q.unit q.source = k)) then
      let merge : Proc → Proc := fun q =>
        { (if q.severity < p.severity then p else q) with ctxs := q.ctxs ++ p.ctxs }
      s.setDarn { s.darn with pend := updFirst (fun q => decide (procKey q.unit q.source = k)) merge s.darn.pend }
    else if s.darn.pend.length < 16 then s.setDarn { s.darn with pend := s.darn.pend ++ [p] }
    else goFatal (record { e with kind := 7 } 3 7 (64 + p.inj) p.unit 0 0xffffffff s)

/-! ### What an event calls for (13 R403, R405, R409, R410) -/

/-- The action of a lasting source, and whether its spares are exhausted. -/
def lastingAction (s : State) (src : Nat) : Nat × Bool :=
  let u := sourceUnit src
  let fence := if u = 0 then 0 else 5
  match src / 1024 with
  | 0x01 => if smGet 0 s.darn.rows src < 32 then (2, false)
            else (if decide (u / 1024 = 4) || inR (src % 1024) 256 511 then fence else 0, true)
  | 0x02 => (fence, false)
  | 0x03 => if smGet 0 s.darn.rows src < 256 then (3, false) else (0, true)
  | 0x04 | 0x05 => if spareUsed s u then (0, true) else (4, false)
  | 0x0b | 0x0c => (7, false)
  | _ => (5, false)

/-- The link of an active fabric lane (11 R342). -/
def linkOfLane (i : Nat) : Nat := 4 * (i / 17 - 4) + i % 17 / 4

/-- A port is in link fault, and no repair has been made (03 R81). -/
def portLost (p : Nat) (s : State) : State :=
  let i := s.intake
  { s with intake := { i with portFault := if i.portFault.contains p then i.portFault else i.portFault ++ [p],
                              repaired := i.repaired.filter (fun q => decide (q ≠ p)) } }

/-- A lane without a spare takes the port or link that it serves down; a spare serves the lane that it replaced, and an
unused one none (01 R17, 03 R81, 11 R343). -/
def laneLost (s : State) (u : Nat) : State :=
  match s.laneServed (u % 1024) with
  | none => s
  | some i =>
    if i < 68 then portLost (s.portOfLane i) s
    else (linkDown (linkOfLane i) 4 s).modLink (linkOfLane i) (fun x => { x with wanted := false })

/-- DARN_AUTO lets a lasting action run: repairs, or fences. -/
def autoOk (s : State) (action : Nat) : Bool :=
  let a := s.fval .darnAuto
  if inR action 2 4 then a.testBit 0 else if action = 5 then a.testBit 1 else true

/-- Carry out an action on a unit for an event: its records, and its procedure or stop. -/
def act (e : ErrIn) (unit sev action flags count : Nat) (ctxs : List CmdCtx) (s : State) : State :=
  let fatal := decide (action = 7) || (decide (action = 5) && leavesNone s unit && !s.isFenced unit)
  if fatal then goFatal (record e 3 7 flags unit count 0xffffffff s)
  else if decide (action = 5) && s.isFenced unit then record e sev 8 flags unit count 0xffffffff s
  else
    let i := nextRec s
    let s := record e sev action flags unit count 0xffffffff s
    if inR action 2 6 then
      procAsk e { unit := unit, severity := sev, action := action, source := e.source, recIdx := i,
                  ctxs := ctxs, inj := bitsOf flags 4 4 * 16 } s
    else s

/-- A source has become lasting. -/
def lasting (e : ErrIn) (count inj : Nat) (s : State) : State :=
  let (a, out) := lastingAction s e.source
  let u := sourceUnit e.source
  let fl := 1 + inj + (if out then 8 else 0)
  if !autoOk s a then record e e.severity 0 fl u count 0xffffffff s
  else
    let s := act e u (if a = 5 then max 2 e.severity else e.severity) a fl count [] s
    if out && isLane u then laneLost s u else s

/-- An event counts in its source's window: the corrected errors of a storage source, every event of another. -/
def inWindow (e : ErrIn) : Bool := decide (3 < e.source / 1024) || decide (e.kind = 0)

/-- A uncorrectable error hits what a tile is running (07 R234). -/
def hitTile (e : ErrIn) (s : State) : State :=
  if e.unit / 1024 = 4 then
    match runningOn s (e.unit % 1024) with
    | some x => s.modCmd x.id (fun y => { y with status := Status.dataPoisoned.code })
    | none => s
  else s

/-- What DARN does with an event whose source is not lasting. -/
def handle (e : ErrIn) (count inj : Nat) (s : State) : State :=
  match e.severity with
  | 0 => s
  | 1 => record e 1 1 inj e.unit count 0xffffffff s
  | 2 => act e e.unit 2 (if e.source / 1024 = 0x0b then 6 else 5) inj count [] (hitTile e s)
  | _ => act e e.unit 3 7 inj count [] s

/-- An event of FENCED severity that makes its source lasting: FATAL where that is the source's lasting action, and else its
fence, which DARN_AUTO does not stop. -/
def lastingFenced (e : ErrIn) (count inj : Nat) (s : State) : State :=
  if (lastingAction s e.source).1 = 7 then act e (sourceUnit e.source) 3 7 (1 + inj) count [] s else handle e count (1 + inj) s

/-- An event reaches DARN: counted, its data poisoned, and handled by its severity. -/
def darnEvent (e : ErrIn) (inj : Nat) (s : State) : State :=
  let s := s.count (.errors e.source)
  let s := if e.source / 1024 = 2 ∧ e.kind = 0 then s.count (.fifo (e.source % 1024)) else s
  let s := if e.severity = 1 then poisonAt e.at_ s else s
  if !inWindow e then handle e 0 inj s
  else
    let (n, last, s) := winBump e s
    if !last then handle e n inj s
    else if e.severity < 2 then lasting e n inj (if e.severity = 1 then record e 1 1 inj e.unit n 0xffffffff s else s)
    else if e.severity = 2 then lastingFenced e n inj s
    else handle e n (1 + inj) s

/-- ERROR_EVENT: of a defined source. A FATAL one may join a stop. -/
def execErrorEvent (e : ErrIn) (s : State) : Host.Outcome State Fault Refusal :=
  .next (if !sourceOk e.source then s
    else if s.up then darnEvent e 0 s
    else if e.severity = 3 then fatalStop s
    else s)

/-! ### Procedures end (13 R406, R413) -/

/-- A procedure may end: a tile is at its boundary, a pipeline is drained. -/
def procDue (s : State) (p : Proc) : Bool :=
  if p.action ≠ 5 then true
  else match p.unit / 1024 with
    | 1 => pipeQuiet s (p.unit % 1024)
    | 4 => tileQuiet s (p.unit % 1024)
    | _ => true

/-- A unit is fenced. -/
def addFence (u : Nat) (s : State) : State :=
  if s.isFenced u then s else s.setDarn { s.darn with fenced := s.darn.fenced ++ [u] }

/-- What a procedure leaves. -/
def procEffect (p : Proc) (s : State) : State :=
  let i := p.unit % 1024
  match p.action with
  | 2 | 3 => s.setDarn { s.darn with rows := smMod 0 s.darn.rows p.source (· + 1) }
  | 4 => s.setDarn { s.darn with spares := s.darn.spares ++ [i] }
  | 5 =>
    match p.unit / 1024 with
    | 1 => fenceEngine i (addFence p.unit (fencePipeEnd i s))
    | 3 => fenceEngine (i / 16) (addFence p.unit s)
    | 5 =>
      let rs := ringsOf s i
      rs.foldl (fun s n => s.modRing n (fun r => { r with fencedCp := false })) (addFence p.unit s)
    | _ => addFence p.unit s
  | 6 => { s with sys := { s.sys with rotBusy := false } }
  | _ => s

/-- The event that a lasting source makes again. -/
def againEvent (p : Proc) : ErrIn :=
  { source := p.source, kind := 0, severity := p.severity, unit := p.unit, part := 0xff, address := 0, command := 0, layer := 0,
    oper := 0, detail := 0, at_ := .nothing }

/-- After a procedure whose source is above its threshold again: the next stronger action, a fence after a repair and FATAL
after a fence or a reset of the root-of-trust core. -/
def procAgain (p : Proc) (s : State) : State :=
  let w := winNow s (s.win p.source)
  if p.source = 0 ∨ winCount w ≤ w.t then s
  else
    let s := s.setDarn { s.darn with wins := smSet s.darn.wins p.source { w with subs := [] } }
    if p.action = 5 ∨ p.action = 6 then act (againEvent p) p.unit 3 7 (1 + p.inj) (winCount w) [] s
    else if isLane p.unit then laneLost (record (againEvent p) p.severity 0 (9 + p.inj) p.unit (winCount w) 0xffffffff s) p.unit
    else if p.unit = 0 then s
    else if !autoOk s 5 then record (againEvent p) p.severity 0 (1 + p.inj) p.unit (winCount w) 0xffffffff s
    else act (againEvent p) p.unit 2 5 (1 + p.inj) (winCount w) [] s

/-- The commands that asked for a procedure complete. -/
def finishAll (l : List CmdCtx) (s : State) : State := l.foldl (fun s c => finish c .ok [] 0 0 s) s

/-- DARN takes the next entry of its queue; one whose unit has been fenced meanwhile runs no procedure. -/
def procNext : (fuel : Nat) → State → State
  | 0, s => s
  | k + 1, s =>
    match s.darn.proc, s.darn.pend with
    | none, p :: r =>
      let s := s.setDarn { s.darn with pend := r }
      if s.isFenced p.unit then
        let s := modRec p.recIdx (fun x => { x with action := 8 }) s
        procNext k (finishAll p.ctxs s)
      else procStart p s
    | _, _ => s

/-- PROCEDURE_END. -/
def procEnd (s : State) : State :=
  match s.up, s.darn.proc with
  | true, some p =>
    if procDue s p then
      let s := procEffect p (s.setDarn { s.darn with proc := none })
      let s := finishAll p.ctxs s
      procNext 17 (procAgain p s)
    else s
  | _, _ => s

def execProcedureEnd (s : State) : Host.Outcome State Fault Refusal := .next (procEnd s)

/-! ### Limits (13 R405, R407, R408) -/

/-- A unit holds work. -/
def holdsWork (s : State) (u : Nat) : Bool :=
  let i := u % 1024
  match u / 1024 with
  | 1 => !pipeQuiet s i
  | 2 => !pipeQuiet s (i / 32)
  | 3 => !pipeQuiet s (i / 16)
  | 4 => !tileQuiet s i
  | 5 => (ringsOf s i).any (fun n => (s.ring n).inFlight.any (fun e => e.cmd.isNone && e.reply.isNone))
  | _ => false

/-- The source of a unit's own state. -/
def unitSource (u : Nat) : Nat :=
  let i := u % 1024
  match u / 1024 with
  | 1 => 0x06 * 1024 + i
  | 2 => 0x07 * 1024 + i
  | 3 => 0x08 * 1024 + i
  | 4 => 0x09 * 1024 + i
  | _ => 0x0a * 1024 + i

/-- The time of a unit's last progress: a pipeline's, which its cores and groups share; the start of a tile's running command;
and the last change of the commands in flight of a processor's rings (DEDUCED, log 60). -/
def movedAt (s : State) (u : Nat) : DWord :=
  let i := u % 1024
  match u / 1024 with
  | 1 => smGet 0 s.progress i
  | 2 => smGet 0 s.progress (i / 32)
  | 3 => smGet 0 s.progress (i / 16)
  | 4 => match runningOn s i with | some x => x.since | none => s.now
  | _ => (ringsOf s i).foldl (fun a n => if a.toNat < (s.ring n).movedAt.toNat then (s.ring n).movedAt else a) 0

/-- A unit that holds work has made no progress for DARN_WATCHDOG. -/
def stuck (s : State) (u : Nat) : Bool :=
  holdsWork s u && decide ((movedAt s u).toNat + s.fval .darnWatchdog * 1000 ≤ s.now.toNat)

/-- DARN_WATCHDOG_EXPIRE: the unit made no progress while it held work, and is fenced. -/
def watchdog (u : Nat) (s : State) : State :=
  if s.up && unitOk u && stuck s u && !s.isFenced u then
    darnEvent { source := unitSource u, kind := 5, severity := 2, unit := u, part := 0xff, address := 0, command := 0, layer := 0,
                oper := 0, detail := 0, at_ := .nothing } 0 s
  else s

def execDarnWatchdogExpire (unit : Nat) (s : State) : Host.Outcome State Fault Refusal := .next (watchdog unit s)

/-- The running procedure fences a unit. -/
def fencing (s : State) (u : Nat) : Option Proc :=
  match s.darn.proc with
  | some p => if p.action = 5 ∧ p.unit = u then some p else none
  | none => none

/-- PIPELINE_FENCE_DRAIN_LIMIT: the packets still in the pipeline at 20 µs are discarded. -/
def drainLimit (k : Nat) (s : State) : State :=
  match s.up, fencing s (pipeUnit k) with
  | true, some p =>
    if p.pk + 32000 ≤ s.clk.pk ∧ inPipe s k ≠ [] then
      let e : ErrIn := { againEvent p with kind := 5 }
      (inPipe s k).foldl (fun s x => dropPkt .fenceDrop x s) (record e 2 9 p.inj p.unit 0 p.recIdx s)
    else s
  | _, _ => s

def execPipelineFenceDrainLimit (pipeline : Nat) (s : State) : Host.Outcome State Fault Refusal := .next (drainLimit pipeline s)

/-- TILE_FENCE_FORCED: a command that has not reached its boundary within DARN_TILE_WAIT ends with ABORTED. -/
def tileForced (t : Nat) (s : State) : State :=
  match s.up, fencing s (tileUnit t), runningOn s t with
  | true, some p, some x =>
    if p.pk + s.fval .darnTileWait * 1600 ≤ s.clk.pk then
      tileBoundary t (endCmd x .aborted (statusWord .aborted {} t 0) [] s)
    else s
  | _, _, _ => s

def execTileFenceForced (tile : Nat) (s : State) : Host.Outcome State Fault Refusal := .next (tileForced tile s)

/-! ### Commands (13 R404, R419 to R421) -/

/-- The 64 bytes of a record. -/
def recBytes64 (r : ErrRec) : Bytes :=
  leBytes 4 r.index ++ leBytes 1 r.severity ++ leBytes 1 r.action ++ leBytes 2 r.flags ++ leBytes 8 r.time.toNat
    ++ leBytes 2 r.source ++ leBytes 2 r.unit ++ leBytes 1 r.part ++ leBytes 1 r.kind ++ zeros 2 ++ leBytes 4 r.window
    ++ leBytes 4 r.parent ++ leBytes 8 r.address.toNat ++ leBytes 8 r.command.toNat ++ leBytes 2 r.layer.toNat
    ++ leBytes 2 r.oper.toNat ++ leBytes 4 r.detail.toNat ++ zeros 8

/-- An index is at or after another, in serial order modulo 2^32. -/
def serialFrom (i j : Nat) : Bool := decide ((i + 2 ^ 32 - j) % 2 ^ 32 < 2 ^ 31)

/-- ERROR_READ. -/
def errorReadWork (c : CmdCtx) (first count : Nat) (s : State) : State :=
  let l := smGet {} s.darn.logs c.part
  let want := (l.recs.filter (fun r => serialFrom r.index first)).take count
  let got := want.take 63
  let next := match got.getLast? with | some r => (r.index + 1) % 2 ^ 32 | none => l.next
  finish c .ok (leBytes 4 next ++ leBytes 4 l.lost ++ got.flatMap recBytes64) 0 (if got.length < want.length then 2 else 0) s

def execErrorRead (c : CmdCtx) (first count : Nat) (s : State) : Host.Outcome State Fault Refusal :=
  .next (runCmd c 0x800 (fun _ => none) (errorReadWork c first count) s)

/-- ERROR_ACK. -/
def ackLog (p upTo : Nat) (s : State) : State :=
  let l := smGet {} s.darn.logs p
  s.setDarn { s.darn with logs := smSet s.darn.logs p { l with recs := l.recs.filter (fun r => !serialFrom upTo r.index) } }

def execErrorAck (c : CmdCtx) (upTo : Nat) (s : State) : Host.Outcome State Fault Refusal :=
  .next (runCmd c 0x801 (fun _ => none) (fun s => finish c .ok [] 0 0 (ackLog c.part upTo s)) s)

/-- The sources that WINDOW_SET names: one, or every one of a class. -/
def windowSources (src : Nat) : List Nat :=
  match classOfSource (src / 1024) with
  | none => []
  | some x => if src % 1024 = 0x3ff then (List.range x.1).map (src / 1024 * 1024 + ·)
              else if src % 1024 < x.1 then [src] else []

/-- WINDOW_SET. -/
def execWindowSet (c : CmdCtx) (source t w : Nat) (s : State) : Host.Outcome State Fault Refusal :=
  .next (runCmd c 0x810
    (fun _ => firstFail [p0Only c, (windowSources source = [] || !inR w 1000 3600000000, .badParam)])
    (fun s =>
      let ws := (windowSources source).foldl (fun m k => smSet m k { t := t, w := w, subs := [], subNo := 0 }) s.darn.wins
      let rows := s.darn.hbmRows.filter (fun x => !(windowSources source).contains x.source)
      finish c .ok [] 0 0 (s.setDarn { s.darn with wins := ws, hbmRows := rows })) s)

/-- The event of a fence by command. -/
def fenceEvent (u : Nat) : ErrIn :=
  { source := 0, kind := 0, severity := 2, unit := u, part := 0xff, address := 0, command := 0, layer := 0, oper := 0, detail := 0,
    at_ := .nothing }

/-- UNIT_FENCE: the reply comes at the end of the procedure; a lane is moved to its engine's spare. -/
def execUnitFence (c : CmdCtx) (unit : Nat) (s : State) : Host.Outcome State Fault Refusal :=
  .next (runCmd c 0x820
    (fun s => firstFail [p0Only c, (!unitOk unit || outOfService s unit, .badParam),
      (leavesNone s unit || (isLane unit && spareUsed s unit), .capacity)])
    (fun s => act (fenceEvent unit) unit 2 (if isLane unit then 4 else 5) 32 0 [c] s) s)

/-- UNIT_UNFENCE: the unit is in service again, and its sources' counters are 0. -/
def unfence (u : Nat) (s : State) : State :=
  let d := s.darn
  let s := s.setDarn { d with
    fenced := d.fenced.filter (fun x => decide (x ≠ u)),
    spares := if isLane u then d.spares.filter (fun i => decide (i ≠ u % 1024)) else d.spares,
    wins := d.wins.map (fun e => if sourceUnit e.1 = u then (e.1, { e.2 with subs := [] }) else e) }
  if u / 1024 = 4 then s.takeShadow .tileOwner (u % 1024) else s

def execUnitUnfence (c : CmdCtx) (unit : Nat) (s : State) : Host.Outcome State Fault Refusal :=
  .next (runCmd c 0x821
    (fun s => firstFail [p0Only c, (!unitOk unit || !outOfService s unit, .badParam)])
    (fun s => finish c .ok [] 0 0 (unfence unit s)) s)

/-- The event that ERROR_INJECT makes (log 60). -/
def injected (src kind : Nat) : ErrIn :=
  let k := src / 1024
  let sev := if kind = 1 then (if k ≤ 3 then 1 else if 6 ≤ k ∧ k ≤ 11 then 2 else 0) else 0
  let kd := if kind = 1 then (if k ≤ 3 then 1 else if k = 4 then 4 else if k = 5 ∨ k = 12 then 3 else 2) else 0
  { source := src, kind := kd, severity := sev, unit := sourceUnit src, part := 0xff, address := 0, command := 0, layer := 0, oper := 0,
    detail := 0, at_ := .nothing }

/-- Kind 2: as many corrected events as bring the source to its threshold come before the last; of a FIFO, each is counted
(10 R321). -/
def fillWindow (e : ErrIn) (s : State) : State :=
  let w := winNow s (winOf e s)
  let more := w.t - winCount w
  let s := (setWin e { w with subs := (w.subs.headD 0 + more) :: w.subs.drop 1 } s).count (.errors e.source) more
  if e.source / 1024 = 2 ∧ e.kind = 0 then s.count (.fifo (e.source % 1024)) more else s

/-- ERROR_INJECT: only on XE8-A1D. -/
def execErrorInject (c : CmdCtx) (source kind : Nat) (s : State) : Host.Outcome State Fault Refusal :=
  .next (runCmd c 0x830
    (fun s => firstFail [(!s.sys.fuses.debug, .badOpcode), p0Only c, (!sourceOk source || decide (2 < kind), .badParam)])
    (fun s =>
      let s := if kind = 2 then fillWindow (injected source kind) s else s
      finish c .ok [] 0 0 (darnEvent (injected source kind) 16 s)) s)

end Sys2Proof.Machine
end

