-- ==== Sys2Proof/Machine/TimeOps.lean ====
section
/-! DEFINITION. Time (14 R439 to R442): TIME_ADJUST, TIME_READ, PPS_IN and PPS_OUT. Log 62. -/

namespace Sys2Proof.Machine

def State.setClk (s : State) (c : Clk) : State := { s with clk := c }

/-- TIME_ADJUST at its ordering point: a step where the node is not joined, a slew at the time master. -/
def timeAdjust (offset rate : Int) (s : State) : State :=
  if s.isMaster then s.setClk { s.clk with hostRate := rate, slew := wrapS 64 (s.clk.slew + offset) }
  else if s.fab.joined then s.setClk { s.clk with hostRate := rate }
  else
    let s := s.setClk { s.clk with hostRate := rate }
    if offset = 0 then s else stepCounter offset s

def execTimeAdjust (c : CmdCtx) (offset rate : Int) (s : State) : Host.Outcome State Fault Refusal :=
  .next (runCmd c 0x450
    (fun s => firstFail [p0Only c, (s.fab.joined && !s.isMaster && (decide (offset ≠ 0) || decide (rate ≠ 0)), .badParam)])
    (fun s => finish c .ok [] s.now 0 (timeAdjust offset rate s)) s)

/-- TIME_READ: the time at the ordering point, and the last captured edge. -/
def execTimeRead (c : CmdCtx) (s : State) : Host.Outcome State Fault Refusal :=
  .next (runCmd c 0x451 (fun _ => none)
    (fun s => finish c .ok (leBytes 8 s.now.toNat ++ leBytes 8 s.clk.ppsEdge.toNat) s.now 0 s) s)

/-- The error of an edge captured at FT64 c, in ns: local time minus true time, with the slew that TIME_ADJUST left. -/
def ppsError (c : DWord) (slew : Int) : Int :=
  let e : Int := (c.toNat % 1000000000 : Nat)
  let e := if 500000000 ≤ e then e - 1000000000 else e
  wrapS 64 (e + slew)

/-- The servo on an accepted edge (14 R441). -/
def ppsServo (s : State) : State :=
  let e := ppsError s.now s.clk.slew
  let s := s.setClk { s.clk with slew := 0 }
  if !s.fab.joined && (decide (1000 ≤ e) || decide (e ≤ -1000)) then stepCounter (-e) s
  else
    let u := wrapS 32 (divT (wrapS 64 (e * 4295)) 1000)
    let integ := clampI (s.clk.integ - divT u 16) (-1048576) 1048576
    s.setClk { s.clk with integ := integ, ppsRate := integ - divT u 2 }

/-- The servo runs: DISC is set, and the node is the time master or not joined. -/
def servoOn (s : State) : Bool := (s.fval .ppsCtrl).testBit 0 && (!s.fab.joined || s.isMaster)

/-- PPS_IN_EDGE: an edge less than 0.9 s (1,440,000,000 PKCLK cycles) after the last accepted one is a glitch. -/
def ppsIn (s : State) : State :=
  if !s.sys.mode.hasHost then s
  else if (match s.clk.ppsLast with | some t => decide (s.clk.pk < t + 1440000000) | none => false) then
    s.count (.module_ .ppsGlitch)
  else
    let s := s.setClk { s.clk with ppsEdge := s.now, ppsLast := some s.clk.pk }
    if servoOn s then ppsServo s else s

def execPpsInEdge (s : State) : Host.Outcome State Fault Refusal := .next (ppsIn s)

/-- This is the first PKCLK edge at or after an FT64 whole second. -/
def atSecond (s : State) : Bool :=
  decide ((s.clk.ft.toNat * 2 ^ 32 + s.clk.frac.toNat) % (1000000000 * 2 ^ 32) < adderInc s)

/-- PPS_OUT_PULSE: PPS_OUT rises, and stays high for OUT_WIDTH ms. -/
def ppsPulse (s : State) : State :=
  let k := s.fval .ppsCtrl
  if s.sys.mode.hasHost && k.testBit 1 && atSecond s then
    { s.setClk { s.clk with ppsOff := some (s.clk.pk + bitsOf k 10 2 * 1600000) } with sys := { s.sys with ppsOut := true } }
  else s

def execPpsOutPulse (s : State) : Host.Outcome State Fault Refusal := .next (ppsPulse s)

end Sys2Proof.Machine
end

