-- ==== Sys2Proof/Machine/Starts.lean ====
section
/-! DEFINITION. START and SHUTDOWN, the end of a start and its failure (14 R443 to R451). What a start clears, and what
stays open of it, is log 63. -/

namespace Sys2Proof.Machine

def State.setSys (s : State) (y : Sys) : State := { s with sys := y }

/-! ### What a start clears (12 R396, 14 R444, R446, 15 R491) -/

/-- The partitions that a warm start with PRESERVE keeps. -/
def keptParts (s : State) : List Nat :=
  (List.range 64).filter (fun p => inR (s.part p).state 1 2 && decide (s.fval .partPreserveOk p = 1))

/-- A field that belongs to a kept partition, or START_JOIN, which flash keeps. -/
def fieldKept (s : State) (kept : List Nat) (id : Nat) : Bool :=
  match fieldAt id with
  | none => false
  | some (r, i) =>
    match r.name with
    | .startJoin => true
    | .tileOwner | .tileEn | .tileScratch | .tilePfDepth => kept.contains (s.fval .tileOwner i)
    | .sketchKey | .sketchEn => kept.contains (bitsOf (s.fval .sketchKey i) 53 48)
    | .mirror => kept.contains (bitsOf (s.fval .mirror i) 31 26)
    | _ => kept.any (fun p => fieldOfPart s p [] id)

def keptFields (kept : List Nat) (s : State) : Fields :=
  { val := s.fields.val.filter (fun e => fieldKept s kept e.1), act := s.fields.act.filter (fun e => fieldKept s kept e.1),
    last := s.fields.last.filter (fun e => fieldKept s kept e.1), wrote := s.fields.wrote.filter (fun e => fieldKept s kept e.1) }

/-- The tables; an entry that stays is visited anew. -/
def keptTabs (kept : List Nat) (s : State) : Tabs :=
  let t := s.tabs
  let l := (t.entries.filter (fun e => kept.contains e.part)).map (fun e => { e with seen := none, hitAt := none, leaving := false })
  { entries := l, bloom := if kept = [] then [] else bloomSync t.bloom t.entries l,
    active := t.active.filter (fun e => kept.contains (e.1 / 8)), bankState := t.bankState.filter (fun e => kept.contains (e.1 / 8)),
    sa := t.sa.filter (fun e => kept.contains (s.portOwner (e.1 / 36))), routes := if kept.contains 0 then t.routes else [] }

/-- The flow state; the hot forms have been written back, and every bucket is at its first pipeline (05 R169). -/
def keptFlow (kept : List Nat) (s : State) : Flow :=
  { ctxs := if kept = [] then [] else
      (s.flow.ctxs.filter (fun e => !e.2.valid || kept.contains e.2.part)).map (fun e => (e.1, { e.2 with hot := false })),
    sketch := s.flow.sketch.filter (fun e => kept.contains (bitsOf (s.fval .sketchKey (e.1 / (4 * 65536) % 4)) 53 48)),
    hh := s.flow.hh.filter (fun h => kept.contains h.part) }

/-- The model slots, with no event waiting. -/
def keptSlots (kept : List Nat) (s : State) : SMap Slot :=
  (s.slots.filter (fun e => kept.contains (s.slotOwner e.1))).map (fun e =>
    (e.1, { e.2 with evq := [], filling := [], batches := [], batchAt := [], running := false, training := false, unloadCtx := none }))

/-- Tile memory, by the tags of its lines. -/
def keptTiles (kept : List Nat) (s : State) : Tiles :=
  let t := s.tiles
  { mem := t.mem.filter (fun e => kept.contains (smGet {} t.lines (e.1 / 128)).part),
    lines := t.lines.filter (fun e => kept.contains e.2.part), nextId := t.nextId }

/-- Meters, shapers, gate lists and host packet rings. -/
def keptEgress (kept : List Nat) (s : State) : Egress :=
  let g := s.egr
  let byPort : Nat → Bool := fun p => kept.contains (s.portOwner p)
  { meters := g.meters.filter (fun e => kept.contains (s.meterOwner e.1)), shapers := g.shapers.filter (fun e => byPort (nodePort e.1)),
    gcl := g.gcl.filter (fun e => byPort e.1), gclPend := g.gclPend.filter (fun e => byPort e.1),
    hrings := (g.hrings.filter (fun e => match e.2.part with | some p => kept.contains p | none => false)).map
      (fun e => (e.1, { e.2 with fifo := [], closing := false })) }

/-- A physical page of a kept partition. -/
def pageKept (s : State) (kept : List Nat) (pg : Nat) : Bool :=
  match s.pageTenant pg with
  | some p => kept.contains p
  | none => !isPlatform pg && kept.contains 0

/-- Counters and interval IDs (15 R491), and the trace configurations of kept partitions. -/
def keptObs (kept : List Nat) (s : State) : Obs :=
  let own : Nat → Nat → Bool := fun g i =>
    (inR g 2 4 && kept.contains i) || (decide (g = 5) && kept.contains (s.slotOwner i))
  let size : Nat → Nat := fun g => if g = 2 then 25 else if g = 3 then 15 else if g = 4 then 6 else 7
  { cnt := s.obs.cnt.filter (fun e => own (e.1 / 1048576) (e.1 % 1048576 / size (e.1 / 1048576))),
    ival := s.obs.ival.filter (fun e => own (e.1 / 1048576) (e.1 % 1048576)),
    traces := s.obs.traces.filter (fun e => kept.contains e.1), budgetAt := s.clk.pk }

/-- A kept partition's one live epoch is its newest (09 R289). -/
def oneEpoch (s : State) (p : Nat) : State :=
  let s := s.setEps p [{ s.curEpoch p with refs := 0 }]
  restateSlots p ((eventTables s p 0xff .draining).foldl (fun s t => syncBanks p t s) s)

/-- A cold start leaves partition 0 alone: tenants' rings are disabled and bound to it (14 R446). -/
def onlyPartition0 (s : State) : State :=
  let q := s.part 0
  let s := (List.range 64).foldl (fun s n =>
    if (s.ring n).part ≠ 0 then bindRing n 0 (s.modRing n (fun r => { r with en := false })) else s) s
  { s with parts := [(0, { state := 2, sealGen := (s.part 0).sealGen, ibFlight := q.ibFlight })],
           regions := s.regions.filter (fun e => decide (e.1 < 2)) }

/-- A warm start keeps every definition; a partition that it does not preserve is disabled (14 R446). -/
def partsAfterWarm (kept : List Nat) (s : State) : State :=
  { s with parts := s.parts.map (fun e =>
      if e.1 ≠ 0 ∧ !kept.contains e.1 ∧ (inR e.2.state 1 3) then (e.1, { e.2 with state := 1, resetCtx := none }) else e) }

/-- Fresh keys for every region that is not kept (12 R388, R396). -/
def startKeys (kept : List Nat) (s : State) : State :=
  let rs := (s.regions.filter (fun e => !kept.contains e.2.part)).map (·.1)
  let s := rs.foldl (fun s r => freshKeys r s) s
  { s with regions := s.regions.map (fun e => (e.1, { e.2 with mark := s.now })),
           slots := s.slots.map (fun e => (e.1, { e.2 with wipe := e.2.wipe.map (fun w => { w with mark := s.now }) })) }

/-- Steps 4 to 8 of a start on the module's memory. -/
def startClear (kept : List Nat) (warm : Bool) (s : State) : State :=
  let s := (s.flow.hots.filter (fun h => kept.contains h.part)).foldl (fun s h => evictHot h s) (settleWalks s)
  let i := s.intake
  let d := s.darn
  let s := { s with
    fields := keptFields kept s, tabs := keptTabs kept s, flow := keptFlow kept s, slots := keptSlots kept s,
    tiles := keptTiles kept s, egr := keptEgress kept s, obs := keptObs kept s, fab := {}, arb := [],
    epochs := s.epochs.filter (fun e => kept.contains e.1), pages := s.pages.filter (fun e => kept.contains (e.1 / 2 ^ 27)),
    hbm := s.hbm.filter (fun e => pageKept s kept (e.1 / pageBytes)),
    intake := { graphs := i.graphs.filter (fun e => kept.contains e.2.owner), patPend := i.patPend.filter (fun e => kept.contains e.1),
                nextPkt := i.nextPkt, portFault := i.portFault, repaired := i.repaired },
    darn := { spares := d.spares, rows := d.rows,
              poisonHbm := d.poisonHbm.filter (fun u => pageKept s kept (u * 64 / pageBytes)) } }
  let s := if warm then partsAfterWarm kept s else onlyPartition0 s
  let s := kept.foldl oneEpoch s
  let s := (s.slots.map (·.1)).foldl (fun s n => unloadDue n s) (freeGraphs (startKeys kept s))
  { s with clk := { s.clk with target := bitsOf (s.fval .tclkCtrl) 4 0, freqHold := 0, tclkOld := none, tileDiv := [] } }

/-- ACTIVATED images take over; their security versions are free, from the least that a start accepts on (log 26). -/
def takeImages (s : State) : State :=
  [1, 2, 3, 4].foldl (fun s k =>
    let x := nth {} s.sys.fw k
    if x.state = 2 then
      let least := nth 0 s.sys.fuses.minSvn (k - 1)
      let (v, s) := drawBelow s (2 ^ 32 - least)
      s.setSys { s.sys with fw := setNth s.sys.fw k { state := 0, svn := least + v, running := x.pending, pending := 0 } }
    else s) s

/-- The lasers of every cartridge that is in place, enabled and sound, and not newly inserted (R452), are on and settled. -/
def lightLasers (s : State) : State :=
  let f : Nat × Laser → Nat × Laser := fun e =>
    if e.2.present && !e.2.fault && !e.2.fresh && decide (s.fval .lsrEn e.1 = 1) then (e.1, { e.2 with on := true, locked := true }) else e
  s.setSys { s.sys with lasers := s.sys.lasers.map f }

/-! ### START (14 R443) -/

/-- A warm START is refused. -/
def coldAsked (s : State) : Bool :=
  s.sys.coldOnly || decide (s.sys.mode = .waitStart) || decide (s.sys.mode = .safe) || decide (s.sys.mode = .fatal)

/-- Another command has not replied. -/
def othersOpen (c : CmdCtx) (x : InFlight → Bool) (s : State) : Bool :=
  let other : InFlight → Bool := fun e => decide (e.ctx ≠ c) && e.reply.isNone && x e
  s.rings.any (fun r => r.2.inFlight.any other) || s.parts.any (fun p => p.2.ibFlight.any other)

/-- The start begins. A cold START from WAIT_START begins at step 3 (14 R444). -/
def startBegin (c : CmdCtx) (kind : Nat) (s : State) : State :=
  let m := s.sys.mode
  let s := if m = .waitStart then s else takeImages s
  let j : StartJob := { ctx := c, warm := kind == 1, preserve := c.preserve, fromSafe := decide (m = .safe) }
  let y := { s.sys with mode := .starting, start := some j, starts := s.sys.starts + 1, stopCause := 0, stopOut := false,
                        fuseLatched := true, keysLive := true, rotBusy := false }
  { s with sys := y, obs := { s.obs with stop := none }, clk := { s.clk with startPk := s.clk.pk } }

/-- START waits until every other command has replied. -/
def startWork (c : CmdCtx) (kind : Nat) (s : State) : State :=
  if othersOpen c (fun e => decide (e.opc = 0x010) && e.mark.isSome) s then finish c .busy [] 0 0 s
  else if othersOpen c (fun _ => true) s then
    waitCmd c (.start c kind) (modEntry c (fun e => { e with mark := some 0 }) s)
  else startBegin c kind s

def execStart (c : CmdCtx) (kind : Nat) (s : State) : Host.Outcome State Fault Refusal :=
  .next (runCmd c 0x010
    (fun s => firstFail [p0Only c, (decide (1 < kind) || (decide (kind = 1) && coldAsked s), .badParam)])
    (startWork c kind) s)

/-- START_COMPLETE: steps 1 to 8 are over; step 9 joins the fabric where START_JOIN is 1 (14 R445). -/
def startComplete (s : State) : State :=
  match s.sys.mode, s.sys.start with
  | .starting, some j =>
    if j.joining then s
    else
      let s := lightLasers (startClear (if j.warm && j.preserve then keptParts s else []) j.warm s)
      let s := s.setSys { s.sys with start := some { j with joining := true } }
      match decide (s.fval .startJoin = 1), s.sys.lastJoin with
      | true, some (node, mask) => joinStart none node mask s
      | _, _ => startEnd s
  | _, _ => s

def execStartComplete (s : State) : Host.Outcome State Fault Refusal := .next (startComplete s)

/-! ### Failure (14 R447 to R450) -/

/-- The module enters SAFE: HBM, engines and lasers are off, and START replies NOT_READY with kind 0. -/
def enterSafe (j : StartJob) (s : State) : State :=
  let s := startClear [] false s
  let dark := s.sys.lasers.map (fun e => (e.1, { e.2 with on := false, locked := false }))
  let s := s.setSys { s.sys with mode := .safe, start := none, lastStart := 0, warm := false, preserved := false, coldOnly := true,
                                 lasers := dark }
  finish j.ctx .notReady (leBytes 4 0 ++ leBytes 4 ((s.clk.pk - s.clk.startPk) / 1600000)) 0 0 s

/-- START_FAILED: a warm start goes on as a cold one; a cold one counts, and is tried again until the third failure in a
row, but from SAFE only once. -/
def startFailed (s : State) : State :=
  match s.sys.mode, s.sys.start with
  | .starting, some j =>
    if j.joining then s
    else if j.warm then s.setSys { s.sys with start := some { j with warm := false, preserve := false } }
    else
      let n := min (s.sys.failedStarts + 1) 255
      let s := s.setSys { s.sys with failedStarts := n }
      if j.fromSafe || decide (3 ≤ n) then enterSafe j s else s
  | _, _ => s

def execStartFailed (s : State) : Host.Outcome State Fault Refusal := .next (startFailed s)

/-! ### SHUTDOWN (14 R451) -/

/-- The PKCLK count whose equalisation and bias values the lanes of engine e hold: that of its freezing, or now (14 R436). -/
def State.eqTime (s : State) (e : Nat) : Nat := if s.fval .eqFreeze e = 1 then smGet 0 s.sys.eqHeld e else s.clk.pk

/-- Save the values of every engine's lanes to module flash (14 R438). -/
def saveEq (s : State) : State :=
  s.setSys { s.sys with eqSaved := true, eqAt := s.clk.pk, eqFlash := (List.range 12).map (fun e => (e, s.eqTime e)) }

/-- No packet is on its way, from stage 1 to the wire or the host. -/
def packetsGone (s : State) : Bool :=
  s.pkts.isEmpty && s.egr.copies.isEmpty && s.egr.barriers.isEmpty && s.egr.overflow.isEmpty && s.egr.tx.isEmpty
    && s.egr.queues.all (fun e => e.2.items.isEmpty) && s.egr.hrings.all (fun e => e.2.fifo.isEmpty)

/-- Ports and links go down, the values of R438 are saved, and HBM is in self-refresh. -/
def shutDown (s : State) : State :=
  let s := saveEq ((List.range 32).foldl (fun s l => s.setLink l { (s.link l).cleared 0 with wanted := false }) s)
  s.setSys { s.sys with mode := .stopped }

def shutdownWork (c : CmdCtx) (s : State) : State :=
  if othersOpen c (fun e => decide (e.opc = 0x011) && e.mark.isSome) s then finish c .busy [] 0 0 s
  else
    let s := modEntry c (fun e => { e with mark := some 0 }) s
    let s := drainCopies (s.egr.copies.length + 1) (drainTo .egress s.intake.nextPkt (200 * s.pkts.length + 1) s)
    if othersOpen c (fun e => decide (e.opc ≠ 0x010)) s || !packetsGone s || !s.tiles.cmds.isEmpty then waitCmd c (.shutdown c) s
    else finish c .ok [] 0 0 (shutDown s)

def execShutdown (c : CmdCtx) (s : State) : Host.Outcome State Fault Refusal :=
  .next (runCmd c 0x011 (fun _ => firstFail [p0Only c]) (shutdownWork c) s)

end Sys2Proof.Machine
end

