-- ==== Sys2Proof/Machine/Loops.lean ====
section
/-! DEFINITION. The hardware loops and the laser cartridges (14 R435 to R438, R452, 01 R16). Log 65. -/

namespace Sys2Proof.Machine

/-- PLL_LOSS_OF_LOCK is a FATAL event. -/
def execPllLossOfLock (s : State) : Host.Outcome State Fault Refusal := .next (fatalStop s)

/-! ### Voltage (14 R429, R436) -/

/-- The window of an adjustable rail in mV: VDD_PK0, VDD_PK1, VDD_T0, VDD_T1. -/
def railLow (r : Nat) : Nat := if r < 2 then 650 else 600
def railHigh : Nat := 850

/-- The loop moves a rail by 5 mV. -/
def moveRail (r mv : Nat) (s : State) : State :=
  s.setClk { s.clk with railMv := setNth s.clk.railMv r mv, railAt := smSet s.clk.railAt r s.clk.pk, railTop := smDel s.clk.railTop r }

/-- Negative margin at the top of a rail's window; after 1 ms it counts once. -/
def railAtTop (r : Nat) (s : State) : State :=
  match smFind s.clk.railTop r with
  | none => s.setClk { s.clk with railTop := smSet s.clk.railTop r (s.clk.pk, false) }
  | some (t, counted) =>
    if !counted ∧ t + 1600000 ≤ s.clk.pk then
      (s.count (.vmargin r)).setClk { s.clk with railTop := smSet s.clk.railTop r (t, true) }
    else s

/-- The voltage loop may step a rail: not frozen, and 10 µs after its last step. -/
def mayStep (s : State) (r : Nat) : Bool :=
  s.sys.mode.hasHost && s.obs.stop.isNone && decide (s.fval .vloopCtrl = 0)
    && (match smFind s.clk.railAt r with | some t => decide (t + 16000 ≤ s.clk.pk) | none => true)

/-- VOLTAGE_LOOP_STEP. -/
def voltageStep (r : Nat) (up : Bool) (s : State) : State :=
  let mv := nth 0 s.clk.railMv r
  if !mayStep s r then s
  else if up then (if mv + 5 ≤ railHigh then moveRail r (mv + 5) s else railAtTop r s)
  else if railLow r + 5 ≤ mv then moveRail r (mv - 5) s
  else s

def execVoltageLoopStep (rail : Nat) (up : Bool) (s : State) : Host.Outcome State Fault Refusal :=
  .next (voltageStep rail up s)

/-! ### Frequency (14 R437) -/

/-- TCLK_CTRL as a period end sees it: the value before a write on the same MGCLK cycle. -/
def tclkCtrl (s : State) : Nat :=
  match s.clk.tclkOld with
  | some (t, v) => if t = s.clk.pk / 4 then v else s.fval .tclkCtrl
  | none => s.fval .tclkCtrl

/-- The target divider and the quiet periods after a period. -/
def freqPeriod (s : State) (p tj : Nat) (low : Bool) : Nat × Nat :=
  let k := tclkCtrl s
  let lo := bitsOf k 4 0
  let hi := bitsOf k 12 8
  let t := s.clk.target
  let clampN : Nat → Nat := fun x => if x < lo then lo else if hi < x then hi else x
  if k.testBit 16 then (t, s.clk.freqHold)
  else if s.fval .pwrLimit < p ∨ s.fval .tjLimit < tj ∨ low then (clampN (min (t + 1) hi), 0)
  else if p + 25 < s.fval .pwrLimit ∧ tj + 5 < s.fval .tjLimit then
    if 9 ≤ s.clk.freqHold then (clampN (max (t - 1) lo), 0) else (clampN t, s.clk.freqHold + 1)
  else (clampN t, 0)

/-- FREQUENCY_PERIOD: every 100 µs, that is 160,000 PKCLK cycles. -/
def frequencyPeriod (p tj : Nat) (low : Bool) (s : State) : State :=
  if s.up && decide ((s.clk.periods + 1) * 160000 ≤ s.clk.pk) then
    let x := freqPeriod s p tj low
    (s.setClk { s.clk with target := x.1, freqHold := x.2, periods := s.clk.periods + 1 }).setSys { s.sys with i3cPin := h16 p }
  else s

def execFrequencyPeriod (power tj : Nat) (marginLow : Bool) (s : State) : Host.Outcome State Fault Refusal :=
  .next (frequencyPeriod power tj marginLow s)

/-! ### Saved values (14 R438) -/

/-- CTLE peaking, FFE tap i and modulator bias of a lane, and the current of a cartridge's lasers (14 R436; free values, log 65). -/
def laneCtle (s : State) (lane : Nat) : Nat := Config.eqValue lane (s.eqTime (lane / 17)) 0 % 16
def laneTap (s : State) (lane i : Nat) : Int := (Config.eqValue lane (s.eqTime (lane / 17)) (1 + i) % 256 : Nat) - 128
def laneBias (s : State) (lane : Nat) : Nat := Config.eqValue lane (s.eqTime (lane / 17)) 12
def laserCurrent (s : State) (c : Nat) : Nat := if (s.laser c).on then Config.laserBias c s.clk.pk % 301 else 0

/-- The values that module flash holds for a lane. -/
def savedCtle (s : State) (lane : Nat) : Nat := Config.eqValue lane (smGet 0 s.sys.eqFlash (lane / 17)) 0 % 16
def savedTap (s : State) (lane i : Nat) : Int := (Config.eqValue lane (smGet 0 s.sys.eqFlash (lane / 17)) (1 + i) % 256 : Nat) - 128
def savedBias (s : State) (lane : Nat) : Nat := Config.eqValue lane (smGet 0 s.sys.eqFlash (lane / 17)) 12

/-- EQ_SAVE: every 60 s while RUNNING. -/
def eqSave (s : State) : State :=
  if s.up && decide (s.sys.eqAt + 60 * 1600000000 ≤ s.clk.pk) then saveEq s else s

def execEqSave (s : State) : Host.Outcome State Fault Refusal := .next (eqSave s)

/-! ### Lasers (14 R436, R452, 01 R16) -/

/-- The links whose engine has no light go down, until a FABRIC_JOIN names them again. -/
def darkLinks (s : State) : State :=
  (List.range 32).foldl (fun s l =>
    if (s.link l).state ≠ 0 ∧ !s.linkLit l then linkDown l 0 (s.modLink l (fun x => { x with wanted := false })) else s) s

/-- CARTRIDGE_LATCH_OPEN. -/
def execCartridgeLatchOpen (c : Nat) (s : State) : Host.Outcome State Fault Refusal :=
  .next (darkLinks (s.setLaser c {}))

/-- A new cartridge repairs the lanes of its engine; a port in link fault then waits for its re-enabling (03 R81, log 108). -/
def repairLanes (c : Nat) (s : State) : State :=
  let mine := s.intake.portFault.filter (fun p => decide (s.engineOf p = c) && !s.intake.repaired.contains p)
  { s with intake := { s.intake with repaired := s.intake.repaired ++ mine } }

/-- CARTRIDGE_LATCH_CLOSE: the cartridge stays dark, at a start too, until LSR_EN is written from 0 to 1. -/
def execCartridgeLatchClose (c : Nat) (s : State) : Host.Outcome State Fault Refusal :=
  .next (if (s.laser c).present then s else repairLanes c (s.setLaser c { present := true, fresh := true }))

/-- LASER_LOCKED: lasers that are on have settled. -/
def execLaserLocked (c : Nat) (s : State) : Host.Outcome State Fault Refusal :=
  .next (let x := s.laser c
         if x.present && x.on && !x.fault then s.setLaser c { x with locked := true } else s)

/-- LASER_FAULT: of a cartridge whose lasers are on. -/
def execLaserFault (c : Nat) (s : State) : Host.Outcome State Fault Refusal :=
  .next (let x := s.laser c
         if x.present && x.on then darkLinks (s.setLaser c { x with locked := false, fault := true }) else s)

end Sys2Proof.Machine
end

