-- ==== Sys2Proof/Machine/FieldCmds.lean ====
section
/-! DEFINITION. FIELD_WRITE and the two actions that are field writes (16 R482 to R484), with what a write sets going in the
block that owns the field. -/

namespace Sys2Proof.Machine

/-- WK_THR_SET: a period that ends now ends first; then θ is set, clamped, and a new period starts (06 R205). -/
def setTheta (n : Nat) (v : Int) (s : State) : State :=
  let s := thresholdPeriod n s
  match thrBounds (s.slot n) with
  | none => s
  | some (lo, hi, step) => s.modSlot n (fun x =>
      { x with thr := { x.thr with theta := clampI v lo hi, step := step, dir := 0, n := 0, a := 0, since := s.now,
                                   period := s.fval .wkThrPeriod n } })

/-- What a written field sets going. -/
def fieldAfter (id v : Nat) (s : State) : State :=
  match fieldAt id with
  | none => s
  | some (r, i) =>
    match r.name with
    | .wkThrSet => setTheta i (sxNat 64 v) s
    | .batchMax => batchSettle s
    | .tileShare | .tileOwner | .tileEn => poolIdle s
    | .portGraph => freeGraphs s
    | .lsrEn => darkLinks s
    | _ => s

/-- The same of consecutive fields. -/
def fieldsAfter (id : Nat) : List DWord → State → State
  | [], s => s
  | v :: r, s => fieldsAfter (id + 1) r (fieldAfter id v.toNat s)

/-- The write at its ordering point `t`; RINSE's walks are brought up to date before their rate can change (12 R389). -/
def fieldWriteWork (c : CmdCtx) (id count : Nat) (vals : List DWord) (t : DWord) (s : State) : State :=
  finish c .ok (leBytes 2 count) t 0 (fieldsAfter id vals (fieldStoreAll id vals (noteWrites c.src.code id vals (settleWalks s))))

/-- A write that clears a sketch acts behind the packets ahead of it (05 R180). -/
def clearsSketch (id : Nat) (vals : List DWord) : Bool :=
  (List.range vals.length).any (fun k => match fieldAt (id + k) with
    | some (r, _) => decide (r.name = .sketchClear) && decide (nth 0 vals k = 1)
    | none => false)

/-- A FIELD_WRITE as instruction `i`; a failed write replies 0 fields written. -/
def fieldWriteCmd (c : CmdCtx) (i : Instr) (id count : Nat) (vals : List DWord) (s : State) : State :=
  if !s.sys.mode.hasHost then s
  else
    let s := beginCmd c 0x031 s
    let fail := fun st => finish c st (leBytes 2 0) 0 0 s
    match fieldWriteCheck s c.part id count vals with
    | some st => fail (refusal c 0x031 s st)
    | none =>
      match stateGate c 0x031 s with
      | some st => fail st
      | none =>
        if clearsSketch id vals then atPoint c i .flow (fieldWriteWork c id count vals) s
        else fieldWriteWork c id count vals s.now s

def execFieldWrite (c : CmdCtx) (id count : Nat) (values : List DWord) (s : State) :
    Host.Outcome State Fault Refusal :=
  .next (fieldWriteCmd c (.fieldWrite c id count values) id count values s)

/-- A write of SKETCH_CLEAR[sketch] (05 R180). -/
def execSketchClear (c : CmdCtx) (sketch : Nat) (value : DWord) (s : State) : Host.Outcome State Fault Refusal :=
  .next (fieldWriteCmd c (.sketchClear c sketch value) (0x1b10 + sketch) 1 [value] s)

/-- A write of WK_THR_SET[slot] (06 R205). -/
def execWkThrSet (c : CmdCtx) (slot : Nat) (value : DWord) (s : State) : Host.Outcome State Fault Refusal :=
  .next (fieldWriteCmd c (.wkThrSet c slot value) (0x2000 + slot) 1 [value] s)

end Sys2Proof.Machine
end

