-- ==== Sys2Proof/Machine/FlowCmds.lean ====
section
/-! DEFINITION. The commands of flow state (05 R168, R180, R181, 11 R357). -/

namespace Sys2Proof.Machine

/-! ### Selecting a flow -/

/-- What a selector names: a context's index, an absent flow, or a flow that is not here. -/
inductive Sel where
  | at_ (i : Nat)
  | absent
  | elsewhere
  deriving DecidableEq, Repr

/-- Whether the bucket of a flow hash has its home on another node. -/
def homedAway (s : State) (fh : DWord) : Bool := (s.homeOf (bucketOf fh)).isSome

/-- The flow of a selector (05 R158, R160, 11 R357). -/
def selectFlow (s : State) (sel : FlowSel) : Sel :=
  match sel with
  | .key k =>
    if homedAway s (flowHash k) then .elsewhere
    else match findFlow s (flowHash k) with | some i => .at_ i | none => .absent
  | .index i =>
    if !(s.ctx i).valid then .absent else if homedAway s (s.ctx i).fh then .elsewhere else .at_ i

/-- The checks of a selector: an index of the flow table, or a key of the caller's partition. -/
def selCheck (c : CmdCtx) (sel : FlowSel) : Option Status :=
  match sel with
  | .key k => firstFail [(decide ((byteAt k 0).toNat % 64 ≠ c.part), .noPermission),
      (decide (64 ≤ (byteAt k 0).toNat) || !rsvZero k 1 1, .badParam)]
  | .index i => if 2 ^ 24 ≤ i then some .badParam else none

/-- Act on the flow of a selector at the ordering point; a leased flow is recalled first, and the command waits. -/
def onFlow (c : CmdCtx) (i : Instr) (sel : FlowSel) (t : DWord) (absent : State → State) (act : Nat → State → State)
    (s : State) : State :=
  match selectFlow s sel with
  | .absent => absent s
  | .elsewhere => finish c .badParam [] t 0 s
  | .at_ k =>
    if (s.ctx k).part ≠ c.part then finish c .noPermission [] t 0 s
    else if (s.leaseOf k).isSome then waitCmd c i (recallLease k s)
    else act k s

/-- FLOW_READ. -/
def execFlowRead (c : CmdCtx) (sel : FlowSel) (s : State) : Host.Outcome State Fault Refusal :=
  .next (runCmd c 0x200 (fun _ => selCheck c sel)
    (atPoint c (.flowRead c sel) .flow (fun t s =>
      onFlow c (.flowRead c sel) sel t (finish c .ok (zeros 256) t 0)
        (fun k s => finish c .ok (ctxBytes (s.merged k)) t 0 s) s)) s)

/-! ### FLOW_WRITE -/

/-- The bits that a mask may set. -/
def flowMaskOk (mask : DWord) : Bool :=
  (List.range 64).all (fun i => !mask.getLsbD i || [0, 4, 15, 16, 17, 18].contains i)

/-- The bits of a mask, with their values, in ascending order. -/
def maskedValues (mask : DWord) (values : List DWord) : List (Nat × DWord) :=
  ((List.range 64).filter (fun i => mask.getLsbD i)).zip values

/-- A value without Reserved bits or a refused KIND. -/
def flowValueOk (x : Nat × DWord) : Bool :=
  let v := x.2.toNat
  match x.1 with
  | 0 => decide (bitsOf v 9 4 = 0)
  | 16 => decide (bitsOf v 7 5 = 0) && decide (v / 2 ^ 48 = 0) && decide (bitsOf v 2 0 ≤ 4)
  | 17 => decide (v / 2 ^ 45 = 0)
  | _ => true

/-- Write one masked value into a context; LASTQ and the other CTRL bits and EVT are kept. -/
def writeMasked (c : FlowCtx) (x : Nat × DWord) : FlowCtx :=
  let v := x.2.toNat
  match x.1 with
  | 0 => { c with noExpire := v.testBit 2 }
  | 4 => { c with nextTimer := x.2 }
  | 15 => { c with ff0 := w32 v, ff1 := w32 (v / 2 ^ 32) }
  | 16 => { c with vkind := bitsOf v 2 0, vvalid := v.testBit 3, vinvalid := v.testBit 4, vslot := bitsOf v 15 8,
                   vepoch := h16 (v / 2 ^ 16), vclass := h16 (v / 2 ^ 32) }
  | 17 => { c with vscore := w32 v }
  | 18 => { c with vtime := x.2 }
  | _ => c

/-- Apply a write to both forms of a flow. -/
def writeFlow (k : Nat) (l : List (Nat × DWord)) (s : State) : State :=
  let new := l.foldl writeMasked (s.merged k)
  let s := s.modHot k (hotBytes new)
  s.setCtx k (l.foldl writeMasked (s.ctx k))

/-- FLOW_WRITE; one to an absent flow gives BAD_PARAM (log 42). -/
def execFlowWrite (c : CmdCtx) (sel : FlowSel) (mask : DWord) (values : List DWord) (s : State) :
    Host.Outcome State Fault Refusal :=
  .next (runCmd c 0x201
    (fun _ => match selCheck c sel with
      | some st => some st
      | none => firstFail [(!flowMaskOk mask || !(maskedValues mask values).all flowValueOk, .badParam)])
    (atPoint c (.flowWrite c sel mask values) .flow (fun t s =>
      onFlow c (.flowWrite c sel mask values) sel t (finish c .badParam [] t 0)
        (fun k s => finish c .ok [] t 0 (writeFlow k (maskedValues mask values) s)) s)) s)

/-- FLOW_DELETE: the flow goes as by expiry, its hold released as late; an absent flow is no error. -/
def execFlowDelete (c : CmdCtx) (sel : FlowSel) (s : State) : Host.Outcome State Fault Refusal :=
  .next (runCmd c 0x202 (fun _ => selCheck c sel)
    (atPoint c (.flowDelete c sel) .flow (fun t s =>
      onFlow c (.flowDelete c sel) sel t (finish c .ok [] t 0)
        (fun k s => finish c .ok [] t 0 (removeFlow k s)) s)) s)

/-! ### Sketches and heavy hitters -/

/-- The sum of the two dies' counters, saturated. -/
def sketchCount (s : State) (k r i : Nat) : Nat :=
  min ((smGet 0 s.flow.sketch (sketchKeyOf 0 k r i)).toNat + (smGet 0 s.flow.sketch (sketchKeyOf 1 k r i)).toNat) (2 ^ 32 - 1)

def sketchReadCheck (c : CmdCtx) (sketch row start count : Nat) (out : Option Bref) (s : State) : Option Status :=
  firstFail [(decide (sketch < 4) && decide (bitsOf (s.fval .sketchKey sketch) 53 48 ≠ c.part), .noPermission),
    (decide (3 < sketch) || decide (3 < row) || decide (count = 0) || decide (65536 < start + count)
      || (match out with | some b => !brefForm c b 1 | none => false), .badParam)]

/-- SKETCH_READ: the counters in the reply, or in a BREF. -/
def execSketchRead (c : CmdCtx) (sketch row start count : Nat) (out : Option Bref) (s : State) :
    Host.Outcome State Fault Refusal :=
  .next (runCmd c 0x210 (sketchReadCheck c sketch row start count out)
    (atPoint c (.sketchRead c sketch row start count out) .flow (fun t s =>
      let word := fun i => leBytes 4 (sketchCount s sketch row (start + i))
      match out with
      | none =>
        let (body, fl) := fitBody 4 ((List.range (min count 1021)).map word)
        finish c .ok body t fl s
      | some b =>
        if b.size < 4 * count then finish c .capacity [] t 0 s
        else match brefStatus c b 1 (4 * count) s with
          | some st => finish c st [] t 0 s
          | none => finish c .ok [] t 0 (brefWrite c b ((List.range count).flatMap word) s))) s)

/-- The entries of a partition in descending COUNT, ties in entry order. -/
def heavyOrder (s : State) (p : Nat) : List HeavyEntry :=
  sortBy (fun a b => decide (b.count.toNat < a.count.toNat)) (s.flow.hh.filter (fun e => decide (e.part = p)))

def heavyBytes (e : HeavyEntry) : Bytes :=
  leBytes 8 e.fh.toNat ++ leBytes 4 e.index ++ zeros 4 ++ leBytes 8 e.count.toNat ++ leBytes 8 e.error.toNat

/-- HEAVY_READ. -/
def execHeavyRead (c : CmdCtx) (start count : Nat) (s : State) : Host.Outcome State Fault Refusal :=
  .next (runCmd c 0x211 (fun _ => firstFail [(decide (count = 0), .badParam)])
    (atPoint c (.heavyRead c start count) .flow (fun t s =>
      let (body, fl) := fitBody 32 ((((heavyOrder s c.part).drop start).take count).map heavyBytes)
      finish c .ok body t fl s)) s)

end Sys2Proof.Machine
end

