-- ==== Sys2Proof/Machine/FlowHomes.lean ====
section
/-! DEFINITION. Flow homes (11 R355 to R358): leases between the home of a bucket and the node that holds one of its
flows. Log 30 holds the layouts of the messages. -/

namespace Sys2Proof.Machine

/-! ### At the home -/

/-- The request of a FLOW_FETCH. -/
def fetchOf (m : Msg) : FetchReq :=
  { pipe := 0, fh := dw (uAt m.body 0 8), part := m.part, key := slice m.body 8 64, intake := dw (uAt m.body 72 8),
    epoch := uAt m.body 80 2, firstPass := (uAt m.body 82 1).testBit 0, pkt := 0, since := 0 }

def State.setLeases (s : State) (l : List Lease) : State := { s with flow := { s.flow with leases := l } }
def State.modLease (s : State) (i : Nat) (f : Lease → Lease) : State :=
  s.setLeases (updFirst (fun l => decide (l.index = i)) f s.flow.leases)

/-- Grant a context to a node: HOT is set, and the node holds it. -/
def grantFlow (i node : Nat) (s : State) : State :=
  let c := { s.ctx i with hot := true }
  let l : Lease := { index := i, holder := node, since := s.now, recalled := false, waiting := [] }
  let s := (s.setCtx i c).setLeases (s.flow.leases.filter (fun l => decide (l.index ≠ i)) ++ [l])
  sendMsg node 1 0x11 c.part (w32 i) (ctxBytes c) s

/-- The agent serves a FLOW_FETCH that no other holder delays. -/
def serveFetch (m : Msg) (s : State) : State :=
  match serveFlow (fetchOf m) s with
  | (some i, _, s) => grantFlow i m.src s
  | (none, _, s) => sendMsg m.src 1 0x11 m.part (w32 (uAt m.body 0 8)) [] s

/-- A FLOW_FETCH at the home: a flow that another node holds is recalled first, and one that is hot here is evicted once
its hold is closed. -/
def fetchAtHome (m : Msg) (s : State) : State :=
  match findFlow s (fetchOf m).fh with
  | none => serveFetch m (takeMsg m s)
  | some i =>
    match s.leaseOf i with
    | some l =>
      if l.holder = m.src then serveFetch m (takeMsg m s)
      else (recallLease i (takeMsg m s)).modLease i (fun l => { l with waiting := l.waiting ++ [m] })
    | none =>
      match s.hotOf i with
      | some h => if h.hold then s else serveFetch m (evictHot h (takeMsg m s))
      | none => serveFetch m (takeMsg m s)

/-- FLOW_FETCH. -/
def execFlowFetch (m : Msg) (s : State) : Host.Outcome State Fault Refusal :=
  .next (if s.fabOn then fetchAtHome m s else s)

/-- The requests that waited for a flow to come back. -/
def serveWaiting (l : List Msg) (s : State) : State := l.foldl (fun s m => fetchAtHome m s) s

/-- The bytes that an eviction writes back (05 R167), and NEXT_TIMER as the holder left it (log 30). -/
def writtenBack (c w : FlowCtx) : FlowCtx :=
  { c with vkind := w.vkind, vvalid := w.vvalid, vinvalid := w.vinvalid, eventCnt := w.eventCnt, last := w.last,
           bytes := w.bytes, pkts := w.pkts, lastq := w.lastq, iat := w.iat, hist := w.hist, tcpf := w.tcpf, entA := w.entA, nextTimer := w.nextTimer,
           entB := w.entB, ff0 := w.ff0, ff1 := w.ff1, closing := c.closing || w.closing, hot := false }

/-- FLOW_WRITEBACK: the write is applied, HOT is cleared and the lease ends. -/
def flowWriteback (m : Msg) (s : State) : State :=
  let w := ctxOfBytes m.body
  match findFlow s w.fh with
  | none => takeMsg m s
  | some i =>
    match s.leaseOf i with
    | some l =>
      let s := takeMsg m s
      if l.holder ≠ m.src then s
      else
        let s := (s.setCtx i (writtenBack (s.ctx i) w)).setLeases (s.flow.leases.filter (fun x => decide (x.index ≠ i)))
        serveWaiting l.waiting s
    | none => takeMsg m s

def execFlowWriteback (m : Msg) (s : State) : Host.Outcome State Fault Refusal :=
  .next (if s.fabOn then flowWriteback m s else s)

/-- FLOW_CARRY. -/
def flowCarry (m : Msg) (s : State) : State :=
  match findFlow s (dw (uAt m.body 0 8)) with
  | some i => (takeMsg m s).setCtx i (applyCarry (uAt m.body 8 4) (uAt m.body 12 4) (s.ctx i))
  | none => takeMsg m s

def execFlowCarry (m : Msg) (s : State) : Host.Outcome State Fault Refusal :=
  .next (if s.fabOn then flowCarry m s else s)

/-- The result that a VERDICT_WRITE carries for a flow. -/
def verdictOf (m : Msg) (i : Nat) : Verdict :=
  let b := m.body
  let v := uAt b 12 1
  { part := m.part, index := i, fh := dw (uAt b 0 8), gen := h16 (uAt b 8 2), epoch := uAt b 10 2, slot := uAt b 13 1,
    kind := v % 8, invalid := v.testBit 4, cls := uAt b 14 2, score := sAt b 16 4, time := dw (uAt b 24 8) }

/-- VERDICT_WRITE: a result for a flow that is gone is stale. -/
def verdictWrite (m : Msg) (s : State) : State :=
  let s := takeMsg m s
  match findFlow s (dw (uAt m.body 0 8)) with
  | some i => verdictAtHome (verdictOf m i) s
  | none => s.count (.slot (uAt m.body 13 1) .verdictStale)

def execVerdictWrite (m : Msg) (s : State) : Host.Outcome State Fault Refusal :=
  .next (if s.fabOn then verdictWrite m s else s)

/-! ### At the holder -/

/-- The index of a flow that is leased from a home. -/
def heldIdx (s : State) (home : Nat) (fh : DWord) : Option Nat :=
  (s.flow.held.find? (fun l => decide (l.holder = home) && decide ((s.ctx l.index).fh = fh))).map (·.index)

/-- The request that a grant answers. -/
def answers (s : State) (m : Msg) (r : FetchReq) : Bool :=
  r.waiting && r.remote && decide (s.homeOf (bucketOf r.fh) = some m.src)
    && (if m.body = [] then decide (r.fh.setWidth 32 = m.arg) else decide (r.fh = dw (uAt m.body 8 8)))

/-- FLOW_GRANT: the context is kept under its home and index, and the request is answered; an empty grant leaves the
packet untracked. A context that no request waits for goes back. -/
def flowGrant (m : Msg) (s : State) : State :=
  let s := takeMsg m s
  let i := leasedIdx m.src m.arg.toNat
  let keep := fun (s : State) =>
    let l : Lease := { index := i, holder := m.src, since := s.now, recalled := s.fab.leaving.isSome, waiting := [] }
    { (s.setCtx i { ctxOfBytes m.body with hot := false }) with
        flow := { (s.setCtx i { ctxOfBytes m.body with hot := false }).flow with
          held := s.flow.held.filter (fun l => decide (l.index ≠ i)) ++ [l] } }
  match s.flow.reqs.find? (answers s m) with
  | some r =>
    let s := traceWait r.part { unit := pipeUnit r.pipe, partner := m.src, layer := 0, oper := 0, kind := 6, since := r.since,
                                command := 0 } s
    if m.body = [] then answerReq r none false s
    else answerReq r (some i) (decide ((ctxOfBytes m.body).pkts = 0)) (keep s)
  | none => if m.body = [] then s else returnLease i (keep s)

def execFlowGrant (m : Msg) (s : State) : Host.Outcome State Fault Refusal :=
  .next (if s.fabOn then flowGrant m s else s)

/-- RECALL_EVICT. -/
def execRecallEvict (index : Nat) (s : State) : Host.Outcome State Fault Refusal := .next (recallEvict index s)

/-- FLOW_RECALL: the flow goes back at once where it may. -/
def flowRecall (m : Msg) (s : State) : State :=
  let s := takeMsg m s
  match heldIdx s m.src (dw (uAt m.body 0 8)) with
  | some i =>
    let h := updFirst (fun l => decide (l.index = i)) (fun l => { l with recalled := true }) s.flow.held
    recallEvict i { s with flow := { s.flow with held := h } }
  | none => s

def execFlowRecall (m : Msg) (s : State) : Host.Outcome State Fault Refusal :=
  .next (if s.fabOn then flowRecall m s else s)

/-- VBYTE_UPDATE: the hot form takes the VBYTE, and the hold that waits for the slot's verdict closes. -/
def vbyteUpdate (m : Msg) (s : State) : State :=
  let s := takeMsg m s
  let v := uAt m.body 8 1
  match heldIdx s m.src (dw (uAt m.body 0 8)) with
  | some i =>
    let c := s.ctx i
    let s := s.setCtx i { c with vkind := v % 8, vvalid := v.testBit 3, vinvalid := v.testBit 4 }
    let s := s.modHot i (fun h => { h with vkind := v % 8, vvalid := v.testBit 3, vinvalid := v.testBit 4 })
    match s.holdOf i with
    | some h => if h.slot = uAt m.body 9 1 then closeHold i (if v.testBit 4 then .invalid else .none) s else s
    | none => s
  | none => s

def execVbyteUpdate (m : Msg) (s : State) : Host.Outcome State Fault Refusal :=
  .next (if s.fabOn then vbyteUpdate m s else s)

end Sys2Proof.Machine
end

