-- ==== Sys2Proof/Machine/Hbm.lean ====
section
/-! DEFINITION. The HBM arbiters (01 R35, R36): refills and grants. What the manual leaves open of them is log 61. -/

namespace Sys2Proof.Machine

def State.arbOf (s : State) (k : Nat) : Arb := smGet {} s.arb k
def State.setArb (s : State) (k : Nat) (a : Arb) : State := { s with arb := smSet s.arb k a }

/-- The bucket depth of a partition in one stack, in bytes. -/
def bucketDepth (s : State) (p : Nat) : Nat := s.fval .hbmTbBurst p * 1024 / 6

/-- A refill of one stack: the floor credit anew, and every bucket up to its depth. -/
def refillArb (s : State) (a : Arb) : Arb :=
  { a with
    floor := s.fval .hbmRsvFloor * 1200000 / 64,
    tokens := (List.range 64).foldl (fun m p =>
      smSet m p (min (smGet 0 a.tokens p + s.fval .hbmTbRate p * 1000 / 6) (bucketDepth s p))) [] }

/-- The 1 µs refill of one stack; the state before it is kept for a grant on the same HCLK cycle. -/
def refillStack (s : State) (k : Nat) : State :=
  let a := s.arbOf k
  s.setArb k { refillArb s a with refills := a.refills + 1, prior := some (s.clk.pk / 2, a.floor, a.tokens) }

/-- HBM_TOKEN_REFILL: every 1 µs, that is 1,600 PKCLK cycles. -/
def tokenRefill (s : State) : State :=
  (List.range 6).foldl (fun s k =>
    if s.up && decide (((s.arbOf k).refills + 1) * 1600 ≤ s.clk.pk) then refillStack s k else s) s

def execHbmTokenRefill (s : State) : Host.Outcome State Fault Refusal := .next (tokenRefill s)

/-- The oldest request of the floor, or of a partition. -/
def oldestReq (l : List HbmReq) (who : Option Nat) : Option HbmReq := l.find? (fun r => decide (r.part = who))

/-- The partitions in round robin after one. -/
def robinFrom (p : Nat) : List Nat := (List.range 64).map (fun i => (p + 1 + i) % 64)

/-- The first partition in round robin whose oldest request a test takes, with that request. -/
def robinPick (l : List HbmReq) (after : Nat) (ok : Nat → HbmReq → Bool) : Option (Nat × HbmReq) :=
  match (robinFrom after).find? (fun p => match oldestReq l (some p) with | some q => ok p q | none => false) with
  | some p => (oldestReq l (some p)).map (fun q => (p, q))
  | none => none

/-- A request leaves the list that waits. -/
def Arb.serve (a : Arb) (q : HbmReq) : Arb :=
  { a with waiting := delFirst (fun r => decide (r = q)) a.waiting, granted := some q }

/-- One grant: the floor within its credit, a partition within its tokens, the floor beyond its credit, and then a
partition that may borrow. -/
def grantOne (s : State) (a : Arb) : Arb :=
  let f := oldestReq a.waiting none
  let within := robinPick a.waiting a.lastPart (fun p q => decide (q.bytes ≤ smGet 0 a.tokens p))
  let borrow := robinPick a.waiting a.lastBor (fun p _ => decide (s.fval .hbmTbCap p = 0))
  match f, decide (0 < a.floor), within, borrow with
  | some q, true, _, _ => { a.serve q with floor := a.floor - q.bytes }
  | _, _, some (p, q), _ => { a.serve q with tokens := smSet a.tokens p (smGet 0 a.tokens p - q.bytes), lastPart := p }
  | some q, _, none, _ => a.serve q
  | none, _, none, some (p, q) => { a.serve q with lastBor := p }
  | none, _, none, none => { a with granted := none }

/-- A grant that falls on the cycle of a refill is charged before the refill (01 R36). -/
def grantNow (s : State) (a : Arb) : Arb :=
  match a.prior with
  | some (t, floor, tokens) =>
    if t = s.clk.pk / 2 then
      let b := grantOne s { a with floor := floor, tokens := tokens }
      { refillArb s b with prior := some (t, b.floor, b.tokens) }
    else grantOne s a
  | none => grantOne s a

/-- The partitions with a request that waits although no depth of their bucket could serve it and they may not borrow. -/
def starved (s : State) (a : Arb) : List Nat :=
  (List.range 64).filter (fun p => decide (s.fval .hbmTbCap p = 1)
    && a.waiting.any (fun q => decide (q.part = some p) && decide (bucketDepth s p < q.bytes)))

/-- The bytes of a granted request of the floor, which reads or writes (15 R454; log 109). -/
def floorBytes (k : Nat) (g : Option HbmReq) (s : State) : State :=
  match g with
  | some q =>
    if q.part.isNone then
      let (w, s) := drawBool s
      (s.count (.mem k 2) q.bytes).count (.mem k (b2n w)) q.bytes
    else s
  | none => s

/-- HBM_GRANT: one HCLK cycle of a stack's arbiter, with the requests that arrive. -/
def hbmGrant (k : Nat) (reqs : List HbmReq) (s : State) : State :=
  if !s.up then s
  else
    let a := s.arbOf k
    let b := grantNow s { a with waiting := a.waiting ++ reqs }
    floorBytes k b.granted ((starved s b).foldl (fun s p => s.count (.ev p .hbmStarved)) (s.setArb k b))

def execHbmGrant (stack : Nat) (requests : List HbmReq) (s : State) : Host.Outcome State Fault Refusal :=
  .next (hbmGrant stack requests s)

end Sys2Proof.Machine
end

