-- ==== Sys2Proof/Machine/Power.lean ====
section
/-! DEFINITION. Input power, hot plug and removal (14 R424 to R434). The whole removal sequence acts at its detection, and
what is lost with the rails is lost then (log 64). -/

namespace Sys2Proof.Machine

/-- What the module keeps without its rails: fuses, flash, pins, its implementation, and what stands outside it. -/
def volatileLost (m : Mode) (s : State) : State :=
  let y := s.sys
  { pending := s.pending, free := s.free, crypto := s.crypto, impl := s.impl, host := s.host, clk := s.clk,
    regions := State.reset.regions, fields := { val := s.fields.val.filter (fun e => decide (e.1 = fieldId .startJoin 0)) },
    sys := {
      mode := m, fuses := y.fuses, fuseLatched := false, slotId := y.slotId, failedStarts := y.failedStarts, starts := y.starts,
      fw := y.fw, keysLive := false, inputPresent := y.inputPresent, inputHarmed := y.inputHarmed, pwrEn := y.pwrEn, perstN := y.perstN, mainPath := y.mainPath,
      pcieUp := false, lastJoin := y.lastJoin, i3cAddr := y.i3cAddr, i3cVin := y.i3cVin, i3cIin := y.i3cIin, i3cPin := y.i3cPin,
      i3cTj := y.i3cTj, eqSaved := y.eqSaved, eqFlash := y.eqFlash, hbmSaved := y.hbmSaved, lasers := y.lasers.map (fun e => (e.1, { present := e.2.present })) } }

/-! ### Coming up (14 R430, R433, R434) -/

/-- The input stage passes its input on: always while it is whole; where it is damaged, free (log 98). -/
def inputPasses (s : State) : Bool × State := if s.sys.inputHarmed then drawBool s else (true, s)

/-- INPUT_POWER_PRESENT: VDD_AON comes up, and SLOT_ID is read. -/
def inputPresent (slotId : Nat) (s : State) : State :=
  let (ok, s) := inputPasses s
  if !ok then s
  else if s.sys.mode = .off then
    s.setSys { s.sys with mode := .standby, inputPresent := true, mainPath := true, slotId := slotId }
  else s.setSys { s.sys with inputPresent := true }

def execInputPowerPresent (slotId : Nat) (s : State) : Host.Outcome State Fault Refusal := .next (inputPresent slotId s)

/-- STANDBY is left for BOOT once PWR_EN and PERST_N are both high. -/
def tryBoot (s : State) : State :=
  if s.sys.mode = .standby ∧ s.sys.pwrEn ∧ s.sys.perstN then { volatileLost .boot s with clk := {} } else s

def execPwrEnRise (s : State) : Host.Outcome State Fault Refusal := .next (tryBoot (s.setSys { s.sys with pwrEn := true }))

def execPerstNRise (s : State) : Host.Outcome State Fault Refusal := .next (tryBoot (s.setSys { s.sys with perstN := true }))

/-- BOOT_DONE: the fuses are latched, ACTIVATED images have taken over, the keys are derived and the PCIe link is up: steps 1
and 2 of a start (14 R434, R444). -/
def bootDone (s : State) : State :=
  if s.sys.mode = .boot then
    let s := takeImages s
    s.setSys { s.sys with mode := if 3 ≤ s.sys.failedStarts then .safe else .waitStart, fuseLatched := true, keysLive := true,
                          pcieUp := true }
  else s

def execBootDone (s : State) : Host.Outcome State Fault Refusal := .next (bootDone s)

/-! ### Removal (14 R424, R426, R427, R429, R431, R432) -/

/-- A removal is detected: the input is lost, the main path opens, or it counts against a start that runs. One that is in
progress takes the cause in. -/
def removeNow (lost opens fails : Bool) (s : State) : State :=
  let s := s.setSys { s.sys with inputPresent := s.sys.inputPresent && !lost }
  match s.sys.mode with
  | .off => s
  | .removing =>
    s.setSys { s.sys with removal := s.sys.removal.map (fun r => { r with mainPathOff := r.mainPathOff || opens }) }
  | m =>
    let n := if fails && decide (m = .starting) then min (s.sys.failedStarts + 1) 255 else s.sys.failedStarts
    let s := volatileLost .removing s
    s.setSys { s.sys with failedStarts := n, removal := some { since := s.now, mainPathOff := opens } }

def execPrsntNBreak (s : State) : Host.Outcome State Fault Refusal := .next (removeNow false false false s)

def execVinUnderVoltage (s : State) : Host.Outcome State Fault Refusal := .next (removeNow true false false s)

/-- Above 72 V the input stage may be damaged; whether it is, is free (log 98). -/
def mayHarm (s : State) : State :=
  let (d, s) := drawBool s
  s.setSys { s.sys with inputHarmed := s.sys.inputHarmed || d }

/-- VIN_OVER_VOLTAGE: above 63 V removal, then main power off; above 72 V the input stage may be damaged besides. -/
def execVinOverVoltage (mv : Nat) (s : State) : Host.Outcome State Fault Refusal :=
  let s := s.setSys { s.sys with i3cVin := h16 (mv / 10) }
  let s := if 72000 < mv then mayHarm s else s
  .next (if 63000 < mv then removeNow false true false s else s)

def execCurrentTrip (s : State) : Host.Outcome State Fault Refusal := .next (removeNow false true true s)

/-- RAIL_FAULT: while the module is up. -/
def execRailFault (s : State) : Host.Outcome State Fault Refusal :=
  .next (if s.sys.mode = .standby then s else removeNow false false true s)

def execThermalTrip (s : State) : Host.Outcome State Fault Refusal := .next (removeNow false false false s)

def execPwrEnFall (s : State) : Host.Outcome State Fault Refusal :=
  .next (removeNow false false false (s.setSys { s.sys with pwrEn := false }))

/-- PERST_N falls: every ring register and the host window's own registers take their reset values (16 R476). -/
def perstFall (s : State) : State :=
  let s := { s with
    rings := [],
    sys := { s.sys with perstN := false, ringRefused := false, dsmLo := 0, dsmHi := 0, dsmAddr := 0, dsmSeen := none, dsmLast := none } }
  if s.sys.mode = .standby then s else removeNow false false false s

def execPerstNFall (s : State) : Host.Outcome State Fault Refusal := .next (perstFall s)

/-- REMOVAL_COMPLETE: 1 ms after detection. -/
def removalComplete (s : State) : State :=
  match s.sys.mode, s.sys.removal with
  | .removing, some r =>
    if r.since.toNat + 1000000 ≤ s.now.toNat then
      let stays := s.sys.inputPresent && !r.mainPathOff
      s.setSys { s.sys with mode := if stays then .standby else .off, removal := none, mainPath := s.sys.mainPath && !r.mainPathOff,
                            i3cAddr := if stays then s.sys.i3cAddr else none }
    else s
  | _, _ => s

def execRemovalComplete (s : State) : Host.Outcome State Fault Refusal := .next (removalComplete s)

/-- The 48-bit provisioned ID, with SLOT_ID in bits [5:0] (14 R425). -/
def provisionedId (s : State) : Nat := Config.i3cMaker % 2 ^ 42 * 64 + s.sys.slotId % 64

/-- The read-only telemetry over I3C (14 R425): the value at an offset. -/
def i3cRead (s : State) (off : Nat) : Option Nat :=
  match off with
  | 0x00 => some s.sys.mode.code
  | 0x02 => some s.sys.i3cVin.toNat
  | 0x04 => some s.sys.i3cIin.toNat
  | 0x06 => some s.sys.i3cPin.toNat
  | 0x08 => some s.sys.i3cTj.toNat
  | 0x0a => some s.sys.failedStarts
  | _ => none

/-- ENTDAA: the target answers in every state except OFF (14 R425). -/
def execEntdaa (address : Nat) (s : State) : Host.Outcome State Fault Refusal :=
  .next (if s.sys.mode = .off then s else s.setSys { s.sys with i3cAddr := some address })

end Sys2Proof.Machine
end

