-- ==== Sys2Proof/Machine/Dispatch.lean ====
section
/-! DEFINITION. exec: one arm for each command, each one direct call of its meaning. -/

namespace Sys2Proof.Machine

/-- The effect of a command on everything but the queue. -/
def exec (i : Instr) (s : State) : Host.Outcome State Fault Refusal :=
  match i with
  | .nop c => Sys2Proof.Machine.execNop c s
  | .getInfo c => Sys2Proof.Machine.execGetInfo c s
  | .getStatus c => Sys2Proof.Machine.execGetStatus c s
  | .start c kind => Sys2Proof.Machine.execStart c kind s
  | .shutdown c => Sys2Proof.Machine.execShutdown c s
  | .ringBind c ring part => Sys2Proof.Machine.execRingBind c ring part s
  | .fieldRead c id count => Sys2Proof.Machine.execFieldRead c id count s
  | .fieldWrite c id count values => Sys2Proof.Machine.execFieldWrite c id count values s
  | .sketchClear c sketch value => Sys2Proof.Machine.execSketchClear c sketch value s
  | .wkThrSet c slot value => Sys2Proof.Machine.execWkThrSet c slot value s
  | .fwStage c kind bref digest => Sys2Proof.Machine.execFwStage c kind bref digest s
  | .fwActivate c kind => Sys2Proof.Machine.execFwActivate c kind s
  | .tableWrite c table bank count batch => Sys2Proof.Machine.execTableWrite c table bank count batch s
  | .tableDelete c table bank count batch => Sys2Proof.Machine.execTableDelete c table bank count batch s
  | .tableRead c table bank start count out => Sys2Proof.Machine.execTableRead c table bank start count out s
  | .tableRebuild c table => Sys2Proof.Machine.execTableRebuild c table s
  | .tableCommit c table => Sys2Proof.Machine.execTableCommit c table s
  | .tableAbort c table => Sys2Proof.Machine.execTableAbort c table s
  | .tableCompare c table shadow => Sys2Proof.Machine.execTableCompare c table shadow s
  | .ruleWrite c group bank count batch => Sys2Proof.Machine.execRuleWrite c group bank count batch s
  | .ruleDelete c bank count batch => Sys2Proof.Machine.execRuleDelete c bank count batch s
  | .parseGraphLoad c bref digest => Sys2Proof.Machine.execParseGraphLoad c bref digest s
  | .patternLoad c bref digest => Sys2Proof.Machine.execPatternLoad c bref digest s
  | .flowRead c sel => Sys2Proof.Machine.execFlowRead c sel s
  | .flowWrite c sel mask values => Sys2Proof.Machine.execFlowWrite c sel mask values s
  | .flowDelete c sel => Sys2Proof.Machine.execFlowDelete c sel s
  | .sketchRead c sketch row start count out => Sys2Proof.Machine.execSketchRead c sketch row start count out s
  | .heavyRead c start count => Sys2Proof.Machine.execHeavyRead c start count s
  | .bucketRead c start count => Sys2Proof.Machine.execBucketRead c start count s
  | .bucketMove c bucket pipeline => Sys2Proof.Machine.execBucketMove c bucket pipeline s
  | .modelLoad c slot bref => Sys2Proof.Machine.execModelLoad c slot bref s
  | .modelUnload c slot => Sys2Proof.Machine.execModelUnload c slot s
  | .epochCommit c ruleset map => Sys2Proof.Machine.execEpochCommit c ruleset map s
  | .epochStatus c => Sys2Proof.Machine.execEpochStatus c s
  | .tensorWrite c desc bref => Sys2Proof.Machine.execTensorWrite c desc bref s
  | .tensorRead c desc bref => Sys2Proof.Machine.execTensorRead c desc bref s
  | .tileRun c bref count => Sys2Proof.Machine.execTileRun c bref count s
  | .trainStep c slot bref seed => Sys2Proof.Machine.execTrainStep c slot bref seed s
  | .threshRead c slot => Sys2Proof.Machine.execThreshRead c slot s
  | .meterWrite c meter mode cir cbs eirPir ebsPbs => Sys2Proof.Machine.execMeterWrite c meter mode cir cbs eirPir ebsPbs s
  | .meterRead c meter => Sys2Proof.Machine.execMeterRead c meter s
  | .shaperWrite c node ovh rate burst => Sys2Proof.Machine.execShaperWrite c node ovh rate burst s
  | .gclWrite c port base cycle entries => Sys2Proof.Machine.execGclWrite c port base cycle entries s
  | .gclRead c port list first out => Sys2Proof.Machine.execGclRead c port list first out s
  | .queueSample c first count => Sys2Proof.Machine.execQueueSample c first count s
  | .hostpktRing c ring bref snap => Sys2Proof.Machine.execHostpktRing c ring bref snap s
  | .timeAdjust c offset rate => Sys2Proof.Machine.execTimeAdjust c offset rate s
  | .timeRead c => Sys2Proof.Machine.execTimeRead c s
  | .fabricJoin c node mask => Sys2Proof.Machine.execFabricJoin c node mask s
  | .fabricLeave c => Sys2Proof.Machine.execFabricLeave c s
  | .fabricStatus c => Sys2Proof.Machine.execFabricStatus c s
  | .linkRekey c link => Sys2Proof.Machine.execLinkRekey c link s
  | .flowHomeSet c first count home => Sys2Proof.Machine.execFlowHomeSet c first count home s
  | .collectiveRun c kind group desc => Sys2Proof.Machine.execCollectiveRun c kind group desc s
  | .timeOffsets c first count => Sys2Proof.Machine.execTimeOffsets c first count s
  | .partCreate c part ownerHash list => Sys2Proof.Machine.execPartCreate c part ownerHash list s
  | .partDestroy c part => Sys2Proof.Machine.execPartDestroy c part s
  | .partReset c part => Sys2Proof.Machine.execPartReset c part s
  | .partQuery c part => Sys2Proof.Machine.execPartQuery c part s
  | .keyRotate c region => Sys2Proof.Machine.execKeyRotate c region s
  | .keyStatus c region => Sys2Proof.Machine.execKeyStatus c region s
  | .cmdKeySet c envelope => Sys2Proof.Machine.execCmdKeySet c envelope s
  | .attestReport c nonce bref => Sys2Proof.Machine.execAttestReport c nonce bref s
  | .certChain c bref => Sys2Proof.Machine.execCertChain c bref s
  | .counterRead c group first count => Sys2Proof.Machine.execCounterRead c group first count s
  | .counterSampleReset c group first count => Sys2Proof.Machine.execCounterSampleReset c group first count s
  | .traceConfig c mask bref => Sys2Proof.Machine.execTraceConfig c mask bref s
  | .traceRead c bref => Sys2Proof.Machine.execTraceRead c bref s
  | .profileRead c id => Sys2Proof.Machine.execProfileRead c id s
  | .wringStop c propagate => Sys2Proof.Machine.execWringStop c propagate s
  | .wringScanout c bref => Sys2Proof.Machine.execWringScanout c bref s
  | .errorRead c first count => Sys2Proof.Machine.execErrorRead c first count s
  | .errorAck c upTo => Sys2Proof.Machine.execErrorAck c upTo s
  | .windowSet c source t w => Sys2Proof.Machine.execWindowSet c source t w s
  | .unitFence c unit => Sys2Proof.Machine.execUnitFence c unit s
  | .unitUnfence c unit => Sys2Proof.Machine.execUnitUnfence c unit s
  | .errorInject c source kind => Sys2Proof.Machine.execErrorInject c source kind s
  | .crTailWrite ring value => Sys2Proof.Machine.execCrTailWrite ring value s
  | .commandFetch ring => Sys2Proof.Machine.execCommandFetch ring s
  | .commandTimeout ring seq => Sys2Proof.Machine.execCommandTimeout ring seq s
  | .ringEnable ring crLoc rpLoc => Sys2Proof.Machine.execRingEnable ring crLoc rpLoc s
  | .ringDisable ring crLoc rpLoc => Sys2Proof.Machine.execRingDisable ring crLoc rpLoc s
  | .ringReset ring en crLoc rpLoc => Sys2Proof.Machine.execRingReset ring en crLoc rpLoc s
  | .rpHeadWrite ring value => Sys2Proof.Machine.execRpHeadWrite ring value s
  | .registerWrite offset value => Sys2Proof.Machine.execRegisterWrite offset value s
  | .timeLoRead => Sys2Proof.Machine.execTimeLoRead s
  | .dsmAddrHiWrite value => Sys2Proof.Machine.execDsmAddrHiWrite value s
  | .statusMirrorWrite => Sys2Proof.Machine.execStatusMirrorWrite s
  | .bar0UnsupportedAccess isWrite offset size => Sys2Proof.Machine.execBar0UnsupportedAccess isWrite offset size s
  | .bar2Access offset write size => Sys2Proof.Machine.execBar2Access offset write size s
  | .frameReceive port frame fcsBad => Sys2Proof.Machine.execFrameReceive port frame fcsBad s
  | .parse pipeline => Sys2Proof.Machine.execParse pipeline s
  | .patternScan pipeline => Sys2Proof.Machine.execPatternScan pipeline s
  | .lookup pipeline => Sys2Proof.Machine.execLookup pipeline s
  | .flowStage pipeline => Sys2Proof.Machine.execFlowStage pipeline s
  | .flowAgentFetch stack => Sys2Proof.Machine.execFlowAgentFetch stack s
  | .hotCacheFill pipeline => Sys2Proof.Machine.execHotCacheFill pipeline s
  | .lowPartCarry stack => Sys2Proof.Machine.execLowPartCarry stack s
  | .hotCacheIdleEvict slice set way => Sys2Proof.Machine.execHotCacheIdleEvict slice set way s
  | .wickerEval pipeline => Sys2Proof.Machine.execWickerEval pipeline s
  | .verdictMerge pipeline => Sys2Proof.Machine.execVerdictMerge pipeline s
  | .packetAction pipeline => Sys2Proof.Machine.execPacketAction pipeline s
  | .learnApply die => Sys2Proof.Machine.execLearnApply die s
  | .egressAdmission port => Sys2Proof.Machine.execEgressAdmission port s
  | .barrierRelease port => Sys2Proof.Machine.execBarrierRelease port s
  | .hostCopyWrite ring => Sys2Proof.Machine.execHostCopyWrite ring s
  | .frameTransmit port => Sys2Proof.Machine.execFrameTransmit port s
  | .pfcPauseEnd port priority => Sys2Proof.Machine.execPfcPauseEnd port priority s
  | .shaperRefill => Sys2Proof.Machine.execShaperRefill s
  | .portSchedulerRound port => Sys2Proof.Machine.execPortSchedulerRound port s
  | .gclTakeover port => Sys2Proof.Machine.execGclTakeover port s
  | .gateCycleStart port => Sys2Proof.Machine.execGateCycleStart port s
  | .queueSamplePeriod => Sys2Proof.Machine.execQueueSamplePeriod s
  | .fragHoldExpire entry => Sys2Proof.Machine.execFragHoldExpire entry s
  | .fragEntryFree entry => Sys2Proof.Machine.execFragEntryFree entry s
  | .ageSweepVisit part slot => Sys2Proof.Machine.execAgeSweepVisit part slot s
  | .flowSweep index => Sys2Proof.Machine.execFlowSweep index s
  | .placementPeriod => Sys2Proof.Machine.execPlacementPeriod s
  | .bucketMoveDrained bucket => Sys2Proof.Machine.execBucketMoveDrained bucket s
  | .bucketMoveDone bucket => Sys2Proof.Machine.execBucketMoveDone bucket s
  | .bucketMoveAbandon bucket => Sys2Proof.Machine.execBucketMoveAbandon bucket s
  | .holdTimeout flow => Sys2Proof.Machine.execHoldTimeout flow s
  | .batchTimeout slot => Sys2Proof.Machine.execBatchTimeout slot s
  | .batchComplete slot => Sys2Proof.Machine.execBatchComplete slot s
  | .eventEnsembleEval slot => Sys2Proof.Machine.execEventEnsembleEval slot s
  | .thresholdPeriod slot => Sys2Proof.Machine.execThresholdPeriod slot s
  | .epochRetire part => Sys2Proof.Machine.execEpochRetire part s
  | .tileCommandStart cmd tile => Sys2Proof.Machine.execTileCommandStart cmd tile s
  | .tileCommandComplete tile => Sys2Proof.Machine.execTileCommandComplete tile s
  | .poolRoundTimer => Sys2Proof.Machine.execPoolRoundTimer s
  | .tileDividerStep tile => Sys2Proof.Machine.execTileDividerStep tile s
  | .hbmTokenRefill => Sys2Proof.Machine.execHbmTokenRefill s
  | .hbmGrant stack requests => Sys2Proof.Machine.execHbmGrant stack requests s
  | .fabricFrameSend link => Sys2Proof.Machine.execFabricFrameSend link s
  | .fabricFrameReceive link frame => Sys2Proof.Machine.execFabricFrameReceive link frame s
  | .rekeyThreshold link => Sys2Proof.Machine.execRekeyThreshold link s
  | .keyCounterExhausted link => Sys2Proof.Machine.execKeyCounterExhausted link s
  | .fabGapTimeoutExpire src cls => Sys2Proof.Machine.execFabGapTimeoutExpire src cls s
  | .hello link m => Sys2Proof.Machine.execHello link m s
  | .keyExch link m => Sys2Proof.Machine.execKeyExch link m s
  | .timeExchangeTimer => Sys2Proof.Machine.execTimeExchangeTimer s
  | .timeReq link m => Sys2Proof.Machine.execTimeReq link m s
  | .timeResp link m => Sys2Proof.Machine.execTimeResp link m s
  | .leave link m => Sys2Proof.Machine.execLeave link m s
  | .stop link m => Sys2Proof.Machine.execStop link m s
  | .flowFetch m => Sys2Proof.Machine.execFlowFetch m s
  | .flowGrant m => Sys2Proof.Machine.execFlowGrant m s
  | .flowRecall m => Sys2Proof.Machine.execFlowRecall m s
  | .recallEvict index => Sys2Proof.Machine.execRecallEvict index s
  | .flowWriteback m => Sys2Proof.Machine.execFlowWriteback m s
  | .flowCarry m => Sys2Proof.Machine.execFlowCarry m s
  | .verdictWrite m => Sys2Proof.Machine.execVerdictWrite m s
  | .vbyteUpdate m => Sys2Proof.Machine.execVbyteUpdate m s
  | .collSeg m => Sys2Proof.Machine.execCollSeg m s
  | .gradSeg m => Sys2Proof.Machine.execGradSeg m s
  | .fabJoinTimeoutExpire => Sys2Proof.Machine.execFabJoinTimeoutExpire s
  | .errorEvent e => Sys2Proof.Machine.execErrorEvent e s
  | .procedureEnd => Sys2Proof.Machine.execProcedureEnd s
  | .darnWatchdogExpire unit => Sys2Proof.Machine.execDarnWatchdogExpire unit s
  | .pipelineFenceDrainLimit pipeline => Sys2Proof.Machine.execPipelineFenceDrainLimit pipeline s
  | .tileFenceForced tile => Sys2Proof.Machine.execTileFenceForced tile s
  | .rinseWalkComplete region => Sys2Proof.Machine.execRinseWalkComplete region s
  | .inputPowerPresent slotId => Sys2Proof.Machine.execInputPowerPresent slotId s
  | .pwrEnRise => Sys2Proof.Machine.execPwrEnRise s
  | .perstNRise => Sys2Proof.Machine.execPerstNRise s
  | .bootDone => Sys2Proof.Machine.execBootDone s
  | .startComplete => Sys2Proof.Machine.execStartComplete s
  | .startFailed => Sys2Proof.Machine.execStartFailed s
  | .prsntNBreak => Sys2Proof.Machine.execPrsntNBreak s
  | .vinUnderVoltage => Sys2Proof.Machine.execVinUnderVoltage s
  | .vinOverVoltage mv => Sys2Proof.Machine.execVinOverVoltage mv s
  | .currentTrip => Sys2Proof.Machine.execCurrentTrip s
  | .railFault => Sys2Proof.Machine.execRailFault s
  | .thermalTrip => Sys2Proof.Machine.execThermalTrip s
  | .pwrEnFall => Sys2Proof.Machine.execPwrEnFall s
  | .perstNFall => Sys2Proof.Machine.execPerstNFall s
  | .removalComplete => Sys2Proof.Machine.execRemovalComplete s
  | .pllLossOfLock => Sys2Proof.Machine.execPllLossOfLock s
  | .voltageLoopStep rail up => Sys2Proof.Machine.execVoltageLoopStep rail up s
  | .frequencyPeriod power tj marginLow => Sys2Proof.Machine.execFrequencyPeriod power tj marginLow s
  | .eqSave => Sys2Proof.Machine.execEqSave s
  | .cartridgeLatchOpen c => Sys2Proof.Machine.execCartridgeLatchOpen c s
  | .ppsInEdge => Sys2Proof.Machine.execPpsInEdge s
  | .ppsOutPulse => Sys2Proof.Machine.execPpsOutPulse s
  | .stopInEdge => Sys2Proof.Machine.execStopInEdge s
  | .stopCaptureEnd unit => Sys2Proof.Machine.execStopCaptureEnd unit s
  | .tableCompareEnd table part => Sys2Proof.Machine.execTableCompareEnd table part s
  | .linkTrainingComplete link => Sys2Proof.Machine.execLinkTrainingComplete link s
  | .spdmRequest request => Sys2Proof.Machine.execSpdmRequest request s
  | .entdaa address => Sys2Proof.Machine.execEntdaa address s
  | .cartridgeLatchClose c => Sys2Proof.Machine.execCartridgeLatchClose c s
  | .laserLocked c => Sys2Proof.Machine.execLaserLocked c s
  | .laserFault c => Sys2Proof.Machine.execLaserFault c s

end Sys2Proof.Machine
end

