-- ==== Sys2Proof/Machine/Step.lean ====
section
/-! DEFINITION. The step: the command at the front of the queue is executed with the queue's rest; on an empty queue
the block starts a fetched command that may start, or lets one PKCLK cycle pass, tries the waiting commands again and
handles the delivered fabric messages (log 2). -/

namespace Sys2Proof.Machine

/-- Run commands one after another while each answers a next state. -/
def runAll : List Instr → State → Host.Outcome State Fault Refusal
  | [], s => .next s
  | i :: r, s =>
    match exec i s with
    | .next s' => runAll r s'
    | .fault f => .fault f
    | .refused f => .refused f

/-- The step on an empty queue (log 2). -/
def idle (s : State) : Host.Outcome State Fault Refusal :=
  match nextStart s with
  | some i => exec i s
  | none => runAll (waiting (tick s) ++ inboxCmds (tick s)) (tick s)

/-- Take the command at the front of the queue and execute it. -/
def step (s : State) : Host.Outcome State Fault Refusal :=
  match s.pending with
  | i :: r => exec i { s with pending := r }
  | [] => idle s

/-- The state with the command that a word spells at the front of its queue; unchanged where it spells none. -/
def State.withFetchWord (s : State) (nbits w : Nat) : State :=
  match decodeTableWord nbits w with
  | some i => { s with pending := i :: s.pending }
  | none => s

end Sys2Proof.Machine
end

