-- ==== Sys2Proof/Machine/CommandEncode.lean ====
section
/-! DEFINITION. The payload of a command, written from the layouts of 02 R488 and the owning chapters: the opcode and the
bytes that name the command. Reserved bytes are zero (00 R5). -/

namespace Sys2Proof.Machine

/-- A u8, u16, u32 and u64 field. -/
def b1 (n : Nat) : Bytes := leBytes 1 n
def b2 (n : Nat) : Bytes := leBytes 2 n
def b4 (n : Nat) : Bytes := leBytes 4 n
def b8 (n : Nat) : Bytes := leBytes 8 n

/-- One unit that holds a byte, then zeros. -/
def unit1 (n : Nat) : Bytes := b1 n ++ zeros 7

/-- A list of u64 values. -/
def valueBytes (vs : List DWord) : Bytes := vs.flatMap (fun v => b8 v.toNat)

/-- The 8-byte head of a batch and what follows it (04 R145). -/
def batchLaid (a b count : Nat) : Batch → Bytes
  | .inline recs => b1 a ++ b1 b ++ b1 0 ++ b1 0 ++ b4 count ++ recs
  | .bref r => b1 a ++ b1 b ++ b1 1 ++ b1 0 ++ b4 count ++ brefBytes r

/-- An optional BREF at the payload's end. -/
def optBytes : Option Bref → Bytes
  | none => []
  | some r => brefBytes r

/-- A flow selector: its units (05 R168). -/
def selBytes : FlowSel → Bytes
  | .key k => unit1 0 ++ k
  | .index i => unit1 1 ++ b4 i ++ zeros 4

/-- The entries of a GCL_WRITE (10 R334). -/
def gclBytes (es : List (BitVec 128 × Nat)) : Bytes := es.flatMap (fun e => leBytes 16 e.1.toNat ++ b4 e.2 ++ zeros 4)

/-- The opcode and the payload of a command; none for an event and for the two commands that a FIELD_WRITE carries. -/
def encodePayload : Instr → Option (Nat × Bytes)
  | .nop _ => some (0x001, [])
  | .getInfo _ => some (0x002, [])
  | .getStatus _ => some (0x003, [])
  | .start _ kind => some (0x010, unit1 kind)
  | .shutdown _ => some (0x011, [])
  | .ringBind _ ring part => some (0x020, b1 ring ++ b1 part ++ zeros 6)
  | .fieldRead _ id count => some (0x030, b4 id ++ b2 count ++ zeros 2)
  | .fieldWrite _ id count values => some (0x031, b4 id ++ b2 count ++ zeros 2 ++ valueBytes values)
  | .fwStage _ kind bref digest => some (0x040, unit1 kind ++ brefBytes bref ++ digest)
  | .fwActivate _ kind => some (0x041, unit1 kind)
  | .tableWrite _ table bank count batch => some (0x100, batchLaid table bank count batch)
  | .tableDelete _ table bank count batch => some (0x101, batchLaid table bank count batch)
  | .tableRead _ table bank first count out =>
    some (0x102, b1 table ++ b1 bank ++ zeros 2 ++ b4 first ++ b4 count ++ zeros 4 ++ optBytes out)
  | .tableRebuild _ table => some (0x103, unit1 table)
  | .tableCommit _ table => some (0x104, unit1 table)
  | .tableAbort _ table => some (0x105, unit1 table)
  | .tableCompare _ table shadow => some (0x106, unit1 table ++ brefBytes shadow)
  | .ruleWrite _ group bank count batch => some (0x110, batchLaid group bank count batch)
  | .ruleDelete _ bank count batch => some (0x111, batchLaid 0 bank count batch)
  | .parseGraphLoad _ bref digest => some (0x120, brefBytes bref ++ digest)
  | .patternLoad _ bref digest => some (0x121, brefBytes bref ++ digest)
  | .flowRead _ sel => some (0x200, selBytes sel)
  | .flowWrite _ sel mask values => some (0x201, selBytes sel ++ b8 mask.toNat ++ valueBytes values)
  | .flowDelete _ sel => some (0x202, selBytes sel)
  | .sketchRead _ sketch row first count out =>
    some (0x210, b1 sketch ++ b1 row ++ zeros 2 ++ b4 first ++ b4 count ++ zeros 4 ++ optBytes out)
  | .heavyRead _ first count => some (0x211, b4 first ++ b4 count)
  | .bucketRead _ first count => some (0x220, b2 first ++ b2 count ++ zeros 4)
  | .bucketMove _ bucket pipeline => some (0x221, b2 bucket ++ b1 pipeline ++ zeros 5)
  | .modelLoad _ slot bref => some (0x300, unit1 slot ++ brefBytes bref)
  | .modelUnload _ slot => some (0x301, unit1 slot)
  | .epochCommit _ ruleset map => some (0x310, unit1 ruleset ++ b8 map.toNat)
  | .epochStatus _ => some (0x311, [])
  | .tensorWrite _ desc bref => some (0x320, desc ++ brefBytes bref)
  | .tensorRead _ desc bref => some (0x321, desc ++ brefBytes bref)
  | .tileRun _ bref count => some (0x322, brefBytes bref ++ b2 count ++ zeros 6)
  | .trainStep _ slot bref seed => some (0x330, unit1 slot ++ brefBytes bref ++ b8 seed.toNat)
  | .threshRead _ slot => some (0x331, unit1 slot)
  | .meterWrite _ meter mode cir cbs e x =>
    some (0x400, b2 meter ++ [mode] ++ zeros 1 ++ b4 cir ++ b4 cbs ++ b4 e ++ b4 x ++ zeros 4)
  | .meterRead _ meter => some (0x401, b2 meter ++ zeros 6)
  | .shaperWrite _ node ovh rate burst =>
    some (0x410, b2 node ++ leBytesI 1 ovh ++ zeros 1 ++ b4 rate ++ b4 burst ++ zeros 4)
  | .gclWrite _ port base cycle entries =>
    some (0x420, b1 port ++ zeros 3 ++ b4 entries.length ++ b8 base.toNat ++ b4 cycle ++ zeros 4 ++ gclBytes entries)
  | .gclRead _ port list first out => some (0x421, b1 port ++ b1 list ++ zeros 2 ++ b4 first ++ optBytes out)
  | .queueSample _ first count => some (0x430, b2 first ++ b2 count ++ zeros 4)
  | .hostpktRing _ ring bref snap => some (0x440, unit1 ring ++ brefBytes bref ++ b4 snap ++ zeros 4)
  | .timeAdjust _ offset rate => some (0x450, leBytesI 8 offset ++ leBytesI 4 rate ++ zeros 4)
  | .timeRead _ => some (0x451, [])
  | .fabricJoin _ node mask => some (0x500, b2 node ++ zeros 2 ++ b4 mask.toNat)
  | .fabricLeave _ => some (0x501, [])
  | .fabricStatus _ => some (0x502, [])
  | .linkRekey _ link => some (0x510, unit1 link)
  | .flowHomeSet _ first count home => some (0x520, b2 first ++ b2 count ++ b2 home ++ zeros 2)
  | .collectiveRun _ kind group desc => some (0x530, unit1 kind ++ brefBytes group ++ desc)
  | .timeOffsets _ first count => some (0x540, b2 first ++ b2 count ++ zeros 4)
  | .partCreate _ part hash list => some (0x600, unit1 part ++ hash ++ brefBytes list)
  | .partDestroy _ part => some (0x601, unit1 part)
  | .partReset _ part => some (0x602, unit1 part)
  | .partQuery _ part => some (0x603, unit1 part)
  | .keyRotate _ region => some (0x610, unit1 region)
  | .keyStatus _ region => some (0x611, unit1 region)
  | .cmdKeySet _ envelope => some (0x620, envelope)
  | .attestReport _ nonce bref => some (0x630, nonce ++ brefBytes bref)
  | .certChain _ bref => some (0x631, brefBytes bref)
  | .counterRead _ group first count => some (0x700, b2 group ++ zeros 2 ++ b4 first ++ b2 count ++ zeros 6)
  | .counterSampleReset _ group first count => some (0x701, b2 group ++ zeros 2 ++ b4 first ++ b2 count ++ zeros 6)
  | .traceConfig _ mask bref => some (0x710, b8 mask.toNat ++ brefBytes bref)
  | .traceRead _ bref => some (0x711, brefBytes bref)
  | .profileRead _ id => some (0x720, b8 id.toNat)
  | .wringStop _ propagate => some (0x730, unit1 propagate)
  | .wringScanout _ bref => some (0x731, brefBytes bref)
  | .errorRead _ first count => some (0x800, b4 first ++ b2 count ++ zeros 2)
  | .errorAck _ upTo => some (0x801, b4 upTo ++ zeros 4)
  | .windowSet _ source t w => some (0x810, b2 source ++ zeros 2 ++ b4 t ++ b4 w ++ zeros 4)
  | .unitFence _ unit => some (0x820, b2 unit ++ zeros 6)
  | .unitUnfence _ unit => some (0x821, b2 unit ++ zeros 6)
  | .errorInject _ source kind => some (0x830, b2 source ++ b1 kind ++ zeros 5)
  | _ => none

/-- The operands lie within what the layout can say, beyond their widths: a value for each bit of a write mask (05 R168),
MAP's defined bits (09 R306), METER_WRITE's defined mode bits (10 R321), and a CMD_KEY_SET envelope laid out as 12 R384 says. -/
def operandsLaid : Instr → Bool
  | .flowWrite _ _ mask values => decide (values.length = popCount 64 mask.toNat)
  | .epochCommit _ _ map => decide (map.toNat < 2 ^ 33)
  | .meterWrite _ _ mode _ _ _ _ => decide (mode.toNat < 16)
  | .gclWrite _ _ _ _ entries => decide (entries.length < 2 ^ 32)
  | .cmdKeySet _ e =>
    decide (e.length = 8 * ceilDiv (320 + uAt e 8 4) 8) && rsvZero e 7 1 && rsvZero e 12 4 && rsvZero e 113 7
      && rsvZero e 217 7
  | _ => true

/-- The 32 bytes of a header (02 R53). -/
def headBytes (h : CmdHead) : Bytes :=
  b4 (h.ver * 2 ^ 28 + h.opc * 2 ^ 16 + h.flags.toNat) ++ b4 h.seq.toNat
    ++ b4 (h.part * 2 ^ 26 + h.rsv * 2 ^ 16 + h.len) ++ b4 (h.layer.toNat * 2 ^ 16 + h.oper.toNat) ++ b8 h.tag.toNat
    ++ b4 h.w6 ++ b4 h.crc.toNat

/-- Every number of a header fits its field (02 R53). -/
def CmdHead.wf (h : CmdHead) : Bool :=
  decide (h.ver < 16) && decide (h.opc < 4096) && decide (h.part < 64) && decide (h.rsv < 1024) && decide (h.len < 65536)
    && decide (h.w6 < 2 ^ 32)

end Sys2Proof.Machine
end

