-- ==== Sys2Proof/Safety.lean ====
section
/-! DEFINITION. The terms in which claims about the XE8 are stated: when an opcode runs, when nothing is on its way through
the packet path, and what a module without a host link holds. -/

namespace Sys2Proof.Machine

/-- Opcodes that run in a module state (02 R79, 13 R415, 15 R467): all of them in RUNNING; NOP, GET_INFO, GET_STATUS, START,
FW_STAGE, FW_ACTIVATE, ATTEST_REPORT, CERT_CHAIN and ERROR_READ in WAIT_START, STOPPED, SAFE and FATAL, where FATAL runs
WRING_STOP and WRING_SCANOUT too. -/
def opcodeRuns (m : Mode) (opc : Nat) : Bool :=
  let few := [0x001, 0x002, 0x003, 0x010, 0x040, 0x041, 0x630, 0x631, 0x800]
  match m with
  | .running => true
  | .waitStart | .stopped | .safe => few.contains opc
  | .fatal => (few ++ [0x730, 0x731]).contains opc
  | .off | .standby | .boot | .starting | .removing => false

/-- A command of an opcode may run: the module state takes the opcode, and the root-of-trust core is up. -/
abbrev Ready (opc : Nat) (s : State) : Prop := opcodeRuns s.sys.mode opc = true ∧ s.sys.rotBusy = false

/-- No command in flight of a command's source waits at an ordering point. -/
abbrev Fresh (c : CmdCtx) (s : State) : Prop := ∀ e ∈ s.flight c.src, e.mark = none

/-- A command that has started and that no earlier packet holds at its ordering point. -/
def begun (c : CmdCtx) (opc : Nat) (s : State) : State := modEntry c (fun e => { e with mark := none }) (beginCmd c opc s)

/-- No packet is between stage 1 and stage 8's admission. -/
abbrev PathEmpty (s : State) : Prop := s.intake.pkts = [] ∧ s.egr.copies = []

/-- A module without a host link is quiet: no command is in flight, no packet or message is on its way, nothing is in HBM,
and no key is held. -/
structure Quiet (s : State) : Prop where
  noHost   : s.sys.mode.hasHost = false
  rings    : ∀ e ∈ s.rings, e.2.inFlight = []
  inband   : ∀ e ∈ s.parts, e.2.ibFlight = []
  cmdKeys  : ∀ e ∈ s.parts, e.2.cmdKey = none
  regions  : ∀ e ∈ s.regions, e.2.key0 = none ∧ e.2.key1 = none
  coreKeys : s.sys.keysLive = false
  hbm      : s.hbm = []
  packets  : s.intake.pkts = []
  fabric   : s.fab = {}
  noSa     : s.tabs.sa = []

/-- The item that a copy becomes in its queue. -/
def Copy.item (c : Copy) (now : DWord) : QItem :=
  { marker := none, frame := c.frame, part := c.part, fh := c.fh, tracked := c.tracked, enq := now, poison := c.poison }

/-- An unmetered copy that its queue takes without spilling (10 R323, R325), on a port without a gate list. -/
structure Fits (c : Copy) (s : State) : Prop where
  unmetered : c.meter = none
  ungated   : gclAt s (c.queue / 128) s.now.toNat = none
  limit     : (s.queue c.queue).depth + c.frame.length ≤ colourLimit s c.queue 0
  banks     : cellsNeeded c s = 0

/-- Every byte memory of the module is in its canonical form. -/
abbrev MemsWf (s : State) : Prop := Mem.wf s.host = true ∧ Mem.wf s.hbm = true ∧ Mem.wf s.tiles.mem = true

end Sys2Proof.Machine
end

