-- ==== Sys2Proof/WellFormed.lean ====
section
/-! DEFINITION. Well-formed commands: every operand fits the field, pin, unit number or message in which the manual
carries it. A command that is not well-formed cannot be sent. -/

namespace Sys2Proof

/-- The source exists (02 R43, R58). -/
def Src.wf : Src → Bool
  | .ring n => decide (n < 64)
  | .inband p q m => decide (p < 64) && decide (q < 32) && decide (m.length = 6)

/-- PART is a 6-bit field (02 R53). -/
def CmdCtx.wf (c : CmdCtx) : Bool := c.src.wf && decide (c.part < 64)

/-- SIZE is u32, LOC and DIR are bytes (02 R56). -/
def Bref.wf (b : Bref) : Bool := decide (b.size < 2 ^ 32) && decide (b.loc < 256) && decide (b.dir < 256)

/-- A batch lies inline or behind a buffer reference (04 R145). -/
def Batch.wf : Batch → Bool
  | .inline r => decide (r.length ≤ 65504)
  | .bref b => b.wf

/-- A selector of 05 R168. -/
def FlowSel.wf : FlowSel → Bool
  | .key k => decide (k.length = 64)
  | .index i => decide (i < 2 ^ 32)

/-- The message fields fit their widths (11 R349). -/
def Msg.wf (m : Msg) : Bool :=
  decide (m.dst < 16384) && decide (m.cls < 4) && decide (m.src < 16384) && decide (m.hop < 4)
    && decide (m.mseq < 2 ^ 32) && decide (m.mtype < 256) && decide (m.part < 64) && decide (m.body.length < 65536)

/-- The event's numbers fit the error record (13 R417). -/
def ErrIn.wf (e : ErrIn) : Bool :=
  decide (e.source < 65536) && decide (e.kind < 8) && decide (e.severity < 4) && decide (e.unit < 65536)
    && decide (e.part < 256)

def u8 (n : Nat) : Bool := decide (n < 256)
def u16 (n : Nat) : Bool := decide (n < 65536)
def u32 (n : Nat) : Bool := decide (n < 2 ^ 32)
def s32 (i : Int) : Bool := decide (-2 ^ 31 ≤ i) && decide (i < 2 ^ 31)
def s64 (i : Int) : Bool := decide (-2 ^ 63 ≤ i) && decide (i < 2 ^ 63)
def optWf (o : Option Bref) : Bool := match o with | none => true | some b => b.wf

/-- A command whose every operand fits. -/
def Instr.wf : Instr → Bool
  | .nop c | .getInfo c | .getStatus c | .shutdown c | .epochStatus c | .timeRead c | .fabricLeave c
  | .fabricStatus c => c.wf
  | .start c kind => c.wf && u8 kind
  | .ringBind c ring part => c.wf && u8 ring && u8 part
  | .fieldRead c id count => c.wf && u32 id && u16 count
  | .fieldWrite c id count values => c.wf && u32 id && u16 count && decide (values.length ≤ 8187)
  | .sketchClear c sketch _ => c.wf && u8 sketch
  | .wkThrSet c slot _ => c.wf && u8 slot
  | .fwStage c kind bref digest => c.wf && u8 kind && bref.wf && decide (digest.length = 48)
  | .fwActivate c kind => c.wf && u8 kind
  | .tableWrite c table bank count batch | .tableDelete c table bank count batch =>
    c.wf && u8 table && u8 bank && u32 count && batch.wf
  | .tableRead c table bank first count out => c.wf && u8 table && u8 bank && u32 first && u32 count && optWf out
  | .tableRebuild c table | .tableCommit c table | .tableAbort c table => c.wf && u8 table
  | .tableCompare c table shadow => c.wf && u8 table && shadow.wf
  | .ruleWrite c group bank count batch => c.wf && u8 group && u8 bank && u32 count && batch.wf
  | .ruleDelete c bank count batch => c.wf && u8 bank && u32 count && batch.wf
  | .parseGraphLoad c bref digest | .patternLoad c bref digest =>
    c.wf && bref.wf && decide (digest.length = 48)
  | .flowRead c sel | .flowDelete c sel => c.wf && sel.wf
  | .flowWrite c sel _ values => c.wf && sel.wf && decide (values.length ≤ 8187)
  | .sketchRead c sketch row first count out => c.wf && u8 sketch && u8 row && u32 first && u32 count && optWf out
  | .heavyRead c first count => c.wf && u32 first && u32 count
  | .bucketRead c first count => c.wf && u16 first && u16 count
  | .bucketMove c bucket pipeline => c.wf && u16 bucket && u8 pipeline
  | .modelLoad c slot bref => c.wf && u8 slot && bref.wf
  | .modelUnload c slot | .threshRead c slot => c.wf && u8 slot
  | .epochCommit c ruleset _ => c.wf && u8 ruleset
  | .tensorWrite c desc bref | .tensorRead c desc bref => c.wf && decide (desc.length = 128) && bref.wf
  | .tileRun c bref count => c.wf && bref.wf && u16 count
  | .trainStep c slot bref _ => c.wf && u8 slot && bref.wf
  | .meterWrite c meter _ cir cbs e x => c.wf && u16 meter && u32 cir && u32 cbs && u32 e && u32 x
  | .meterRead c meter => c.wf && u16 meter
  | .shaperWrite c node ovh rate burst =>
    c.wf && u16 node && decide (-128 ≤ ovh) && decide (ovh < 128) && u32 rate && u32 burst
  | .gclWrite c port _ cycle entries => c.wf && u8 port && u32 cycle && entries.all (fun e => u32 e.2)
  | .gclRead c port list first out => c.wf && u8 port && u8 list && u32 first && optWf out
  | .queueSample c first count => c.wf && u16 first && u16 count
  | .hostpktRing c ring bref snap => c.wf && u8 ring && bref.wf && u32 snap
  | .timeAdjust c offset rate => c.wf && s64 offset && s32 rate
  | .fabricJoin c node _ => c.wf && u16 node
  | .linkRekey c link => c.wf && u8 link
  | .flowHomeSet c first count home => c.wf && u16 first && u16 count && u16 home
  | .collectiveRun c kind group desc => c.wf && u8 kind && group.wf && decide (desc.length = 128)
  | .timeOffsets c first count => c.wf && u16 first && u16 count
  | .partCreate c part hash list => c.wf && u8 part && decide (hash.length = 48) && list.wf
  | .partDestroy c part | .partReset c part | .partQuery c part => c.wf && u8 part
  | .keyRotate c region | .keyStatus c region => c.wf && u8 region
  | .cmdKeySet c envelope => c.wf && decide (envelope.length ≤ 65504)
  | .attestReport c nonce bref => c.wf && decide (nonce.length = 32) && bref.wf
  | .certChain c bref | .traceRead c bref | .wringScanout c bref => c.wf && bref.wf
  | .counterRead c group first count | .counterSampleReset c group first count =>
    c.wf && u16 group && u32 first && u16 count
  | .traceConfig c _ bref => c.wf && bref.wf
  | .profileRead c _ => c.wf
  | .wringStop c propagate => c.wf && u8 propagate
  | .errorRead c first count => c.wf && u32 first && u16 count
  | .errorAck c upTo => c.wf && u32 upTo
  | .windowSet c source t w => c.wf && u16 source && u32 t && u32 w
  | .unitFence c unit | .unitUnfence c unit => c.wf && u16 unit
  | .errorInject c source kind => c.wf && u16 source && u8 kind
  | .crTailWrite ring _ | .commandTimeout ring _ | .rpHeadWrite ring _ => decide (ring < 64)
  | .commandFetch ring | .hostCopyWrite ring => decide (ring < 64)
  | .ringEnable ring _ _ | .ringDisable ring _ _ => decide (ring < 64)
  | .ringReset ring _ _ _ => decide (ring < 64)
  | .registerWrite offset _ => decide (offset < 131072) && decide (offset % 4 = 0)
  | .timeLoRead | .dsmAddrHiWrite _ | .statusMirrorWrite => true
  | .bar0UnsupportedAccess _ offset size =>
    decide (offset < 131072) && decide (0 < size) && !((size == 4 || size == 8) && offset % size == 0)
  | .bar2Access offset write size =>
    decide (offset < 2 ^ 31) && (match write with | some b => decide (b.length = size) | none => true)
  | .frameReceive port frame _ => decide (port < 32) && decide (frame.length < 65536)
  | .parse k | .patternScan k | .lookup k | .flowStage k | .hotCacheFill k | .wickerEval k | .verdictMerge k
  | .packetAction k | .pipelineFenceDrainLimit k => decide (k < 16)
  | .flowAgentFetch st | .lowPartCarry st => decide (st < 6)
  | .hotCacheIdleEvict slice set way => decide (slice < 16) && decide (set < 4096) && decide (way < 16)
  | .learnApply die => decide (die < 2)
  | .egressAdmission p | .barrierRelease p | .frameTransmit p | .portSchedulerRound p | .gclTakeover p
  | .gateCycleStart p => decide (p < 32)
  | .pfcPauseEnd p x => decide (p < 32) && decide (x < 8)
  | .shaperRefill | .queueSamplePeriod | .placementPeriod | .poolRoundTimer | .hbmTokenRefill
  | .timeExchangeTimer | .fabJoinTimeoutExpire | .procedureEnd => true
  | .fragHoldExpire e | .fragEntryFree e => decide (e < 65536)
  | .ageSweepVisit part slot => decide (part < 64) && decide (slot < 2097152)
  | .flowSweep i => decide (i < 16777216)
  -- a context of this node, or one leased from a home (11 R356)
  | .holdTimeout i | .recallEvict i => decide (i < 16385 * 16777216)
  | .bucketMoveDrained b | .bucketMoveDone b | .bucketMoveAbandon b => decide (b < 65536)
  | .batchTimeout n | .batchComplete n | .eventEnsembleEval n | .thresholdPeriod n => decide (n < 256)
  | .epochRetire p => decide (p < 64)
  | .tileCommandStart _ t | .tileCommandComplete t | .tileDividerStep t | .tileFenceForced t => decide (t < 32)
  | .hbmGrant st reqs => decide (st < 6) &&
      reqs.all (fun r => match r.part with | none => true | some p => decide (p < 64))
  | .fabricFrameSend l | .rekeyThreshold l | .keyCounterExhausted l | .linkTrainingComplete l => decide (l < 32)
  | .fabricFrameReceive l f => decide (l < 32) && decide (f.length < 65536)
  | .fabGapTimeoutExpire src cls => decide (src < 16384) && decide (cls < 4)
  | .hello l m | .keyExch l m | .timeReq l m | .timeResp l m | .leave l m | .stop l m => decide (l < 32) && m.wf
  | .flowFetch m | .flowGrant m | .flowRecall m | .flowWriteback m | .flowCarry m | .verdictWrite m
  | .vbyteUpdate m | .collSeg m | .gradSeg m => m.wf
  | .errorEvent e => e.wf
  | .darnWatchdogExpire u => u16 u
  | .rinseWalkComplete r => u8 r
  | .inputPowerPresent slotId => decide (slotId < 64)
  | .pwrEnRise | .perstNRise | .bootDone | .startComplete | .startFailed | .prsntNBreak | .vinUnderVoltage
  | .currentTrip | .railFault | .thermalTrip | .pwrEnFall | .perstNFall | .removalComplete | .pllLossOfLock
  | .eqSave | .ppsInEdge | .ppsOutPulse | .stopInEdge => true
  | .vinOverVoltage mv => u32 mv
  | .voltageLoopStep rail _ => decide (rail < 4)
  | .frequencyPeriod power tj _ => u16 power && u8 tj
  | .cartridgeLatchOpen c | .cartridgeLatchClose c | .laserLocked c | .laserFault c => decide (c < 4)
  | .stopCaptureEnd u => decide (u < 64)
  | .tableCompareEnd table part => u8 table && decide (part < 64)
  | .spdmRequest r => decide (r.length ≤ 65536)
  | .entdaa a => decide (a < 128)

end Sys2Proof
end

