-- ==== Sys2Proof/Certificates/Slice0/Obligations.lean ====
section
/-! DEFINITION. The statements about the XE8 for the provers: what its commands and events do, what they leave as it was,
where they stop, and what every step keeps. -/

open Sys2Proof Sys2Proof.Machine

/-! ### The step -/

/-- The step is first in, first out: it runs the command at the front of the queue on the state with the queue's rest (the
block's own rule; log 2 says what it does on an empty queue). -/
def Obligations.StepRunsFront : Prop :=
  ∀ (i : Instr) (rest : List Instr) (s : State), s.pending = i :: rest → step s = exec i { s with pending := rest }

/-- On an empty queue, with no fetched command that may start, none that waits and no delivered message, one PKCLK cycle
passes: the count of cycles rises by one, and only the time, PPS_OUT, the frames that end their transmission, aged entries, the
counters and the marks of background walks can change. Where no entry ages out, no walk runs and no packet is in a pipeline
stage, only the time and PPS_OUT change until a frame ends; such a frame counts in its port's TX_PKTS and TX_BYTES (log 2;
14 R439, R442, 15 R454). -/
def Obligations.IdleTicks : Prop :=
  ∀ s : State, s.pending = [] → nextStart s = none → waiting (tick s) = [] → s.fab.inbox = [] →
    ∃ t, step s = .next t ∧ t.clk.pk = s.clk.pk + 1 ∧
      t.clk.ft.toNat * 2 ^ 32 + t.clk.frac.toNat
        = (s.clk.ft.toNat * 2 ^ 32 + s.clk.frac.toNat + adderInc s) % 2 ^ 96 ∧
      t = { s with clk := t.clk, sys := { s.sys with ppsOut := t.sys.ppsOut }, egr := t.egr, obs := t.obs, tabs := t.tabs,
                   regions := t.regions, slots := t.slots } ∧
      ((∀ e ∈ s.tabs.entries, e.leaving = false) → walks s = [] → wipes s = [] →
        (s.up = false ∨ ∀ k ∈ s.pkts, k.inStage = false) →
        t.tabs = s.tabs ∧ t.regions = s.regions ∧ t.slots = s.slots ∧
        ((∀ e ∈ s.egr.tx, t.pkPs < e.2.endPs) → t.egr = s.egr ∧ t.obs = s.obs) ∧
        ∀ p w, p < 32 → s.egr.tx = [(p, w)] → w.endPs ≤ t.pkPs → t.egr = { s.egr with tx := [], txEnd := t.egr.txEnd } ∧
          t.cntAt (Ctr.port p .txPkts).key = s.cntAt (Ctr.port p .txPkts).key + 1 ∧
          t.cntAt (Ctr.port p .txBytes).key = s.cntAt (Ctr.port p .txBytes).key + BitVec.ofNat 64 w.frame.length)

/-! ### Commands and replies -/

/-- NOP, GET_INFO and GET_STATUS run in every state that takes commands, and reply OK with the prefix alone, the payload of
R488 and the payload of R488 (02 R77, R79, R488).
An opcode that the module state does not take completes with NOT_READY, whatever its parameters, once its checks have
passed; and while the root-of-trust core resets, a command that needs it completes with RETRY (02 R79, 12 R374). Stated of
NOP, FIELD_READ, EPOCH_STATUS, KEY_STATUS and ATTEST_REPORT. -/
def Obligations.IdentifyAndNotReady : Prop :=
  ((∀ (c : CmdCtx) (s : State), Ready 0x001 s → exec (.nop c) s = .next (finish c .ok [] 0 0 (beginCmd c 0x001 s))) ∧
   (∀ (c : CmdCtx) (s : State), Ready 0x002 s →
     exec (.getInfo c) s = .next (finish c .ok
       (leBytes 4 s.sys.fuses.order.toNat ++ leBytes 2 0x00a1 ++ leBytes 2 0x0100 ++ leBytes 2 s.fab.nodeId ++ zeros 6
         ++ leBytes 16 s.sys.fuses.serial.toNat ++ [1, 2, 3, 4].flatMap (fun k => leBytes 4 (nth {} s.sys.fw k).svn)
         ++ leBytes 1 s.sys.slotId) 0 0 (beginCmd c 0x002 s))) ∧
   (∀ (c : CmdCtx) (s : State), Ready 0x003 s →
     exec (.getStatus c) s = .next (finish c .ok
       (leBytes 4 (beginCmd c 0x003 s).devstatRead.toNat ++ leBytes 1 s.sys.lastStart ++ leBytes 1 s.sys.failedStarts
         ++ leBytes 1 (if s.sys.mode = .safe then 1 else 0)) 0 0 (beginCmd c 0x003 s)))) ∧
  ((∀ (c : CmdCtx) (s : State), s.sys.mode.hasHost = true → opcodeRuns s.sys.mode 0x311 = false →
     exec (.epochStatus c) s = .next (finish c .notReady [] 0 0 (beginCmd c 0x311 s))) ∧
   (∀ (c : CmdCtx) (id count : Nat) (s : State), s.sys.mode.hasHost = true → opcodeRuns s.sys.mode 0x030 = false →
     fieldReadCheck (beginCmd c 0x030 s) c.part id count = none →
     exec (.fieldRead c id count) s = .next (finish c .notReady [] 0 0 (beginCmd c 0x030 s))) ∧
   (∀ (c : CmdCtx) (r : Nat) (s : State), s.sys.mode = .running → s.sys.rotBusy = true →
     regionCheck c r (beginCmd c 0x611 s) = none →
     exec (.keyStatus c r) s = .next (finish c .retry [] 0 0 (beginCmd c 0x611 s))) ∧
   (∀ (c : CmdCtx) (s : State), s.sys.mode.hasHost = false → exec (.nop c) s = .next s))


/-- RING_BIND binds a disabled ring to a partition and gives it the partition's next seal generation; no other ring and no
other partition changes by the binding (02 R43, R65).
FW_STAGE of an image whose bytes have the digest of the command leaves it STAGED with that digest, and FW_ACTIVATE of a
staged image leaves it ACTIVATED; no other kind of image changes (12 R394). -/
def Obligations.RingBindAndFirmware : Prop :=
  (∀ (c : CmdCtx) (n p : Nat) (s : State), Ready 0x020 s → c.part = 0 → n ≤ 63 → p ≤ 63 → (s.part p).state ≠ 0 →
     (s.part p).state ≠ 4 → (s.ring n).en = false → ¬ ((s.part p).cmdKey.isSome = true ∧ (s.part p).sealGen = 0xffff) →
     let b := beginCmd c 0x020 s
     let u := bindRing n p b
     exec (.ringBind c n p) s = .next (finish c .ok [] 0 0 u) ∧
       (u.ring n).part = p ∧ (u.part p).sealGen = (s.part p).sealGen + 1 ∧ (u.ring n).ringGen = (s.part p).sealGen + 1 ∧
       (∀ k, k ≠ n → u.ring k = b.ring k) ∧ (∀ q, q ≠ p → u.part q = b.part q)) ∧
  ((∀ (c : CmdCtx) (k : Nat) (d : Bref) (dig : Bytes) (s : State), Ready 0x040 s → c.part = 0 → 1 ≤ k → k ≤ 4 →
     s.sys.fw.length = 5 → brefStatus c d 0 d.size (beginCmd c 0x040 s) = none →
     sha384 (brefRead c d d.size (brefCharge c d d.size (beginCmd c 0x040 s))) = dig →
     ∃ t, exec (.fwStage c k d dig) s = .next t ∧ (nth {} t.sys.fw k).state = 1 ∧
       (nth {} t.sys.fw k).pending = BitVec.ofNat 384 (leNat dig) ∧ (nth {} t.sys.fw k).running = (nth {} s.sys.fw k).running ∧
       ∀ j, j ≠ k → nth {} t.sys.fw j = nth {} s.sys.fw j) ∧
   (∀ (c : CmdCtx) (k : Nat) (s : State), Ready 0x041 s → c.part = 0 → 1 ≤ k → k ≤ 4 → s.sys.fw.length = 5 →
     (nth {} s.sys.fw k).state ≠ 0 →
     ∃ t, exec (.fwActivate c k) s = .next t ∧ (nth {} t.sys.fw k).state = 2 ∧
       (nth {} t.sys.fw k).pending = (nth {} s.sys.fw k).pending ∧ ∀ j, j ≠ k → nth {} t.sys.fw j = nth {} s.sys.fw j))


/-- The reply of a command that is alone in flight on a ring whose reply ring is in host memory: it is written at RP_WRITE in
whole slots, RP_WRITE and RP_COUNT advance, the ring's pending bit reads from the next cycle on by the offsets (16 R477), the entry is gone, and every byte of host memory outside the slots and the
reply-head word, HBM and every other ring stay as they were (02 R50, R51, R70). -/
def Obligations.ReplyIsWritten : Prop :=
  ∀ (c : CmdCtx) (n : Nat) (s : State) (e : InFlight) (st : Status) (body : Bytes) (ord : DWord) (fl : Nat),
    c.src = .ring n → (s.ring n).inFlight = [e] → e.ctx = c → e.reply = none → e.drainAt = none → (s.ring n).rpLoc = false →
    let r := s.ring n
    let changed := if (s.curEpoch c.part).num = e.epoch0 ∨ e.opc = 0x310 ∨ e.opc = 0x104 then 0 else 4
    let b := replyBytes e { status := st.code, rflags := fl + changed, ft := s.now, order := ord, body := body }
    let slots := ceilDiv b.length 32 * 32
    let t := finish c st body ord fl s
    (t.ring n).inFlight = [] ∧ (t.ring n).rpWrite = r.rpWrite + w32 slots ∧ (t.ring n).rpCount = r.rpCount + 1 ∧
      (t.ring n).rpHead = r.rpHead ∧ (t.ring n).crHead = r.crHead ∧ (t.ring n).pendRead s.clk.pk = r.pendRead s.clk.pk ∧
      (∀ k, k ≠ s.clk.pk → (t.ring n).pendRead k = decide (r.rpWrite + w32 slots ≠ r.rpHead)) ∧ t.hbm = s.hbm ∧ (∀ k, k ≠ n → t.ring k = s.ring k) ∧
      ∀ a, ¬ (r.rpBase.toNat ≤ a ∧ a < r.rpBase.toNat + r.rpSize ∧ (a - r.rpBase.toNat + r.rpSize - r.rpWrite.toNat % r.rpSize) % r.rpSize < slots) →
        (r.rhwAddr = 0 ∨ a < r.rhwAddr.toNat ∨ r.rhwAddr.toNat + 8 ≤ a) → slots ≤ r.rpSize →
        memRead t.host a = memRead s.host a

/-- Promise 2: a reply behind an older unreplied command of its source is not written before it, unless it carries
UNORDERED and no unreplied FENCE command stands before it; where it may not be written, the finished entry keeps its place
(02 R70). -/
def Obligations.RepliesKeepOrder : Prop :=
  ∀ (c : CmdCtx) (s : State) (first e : InFlight) (st : Status) (body : Bytes) (ord : DWord) (fl : Nat),
    s.flight c.src = [first, e] → first.reply = none → first.ctx ≠ c → e.ctx = c → e.reply = none → e.drainAt = none →
    (c.unordered = false ∨ first.ctx.fence = true) →
    ∃ r, (finish c st body ord fl s).flight c.src = [first, { e with cmd := none, waitFrom := none, reply := some r }] ∧
      (finish c st body ord fl s).host = s.host ∧ (finish c st body ord fl s).hbm = s.hbm ∧ r.status = st.code ∧ r.body = body

/-! ### The host window -/

/-- R47: a CR_TAIL write that runs too far ahead of CR_HEAD, or that moves backwards, is ignored and sets TAIL_FAULT; any
other takes its value. A write of RP_HEAD takes its value; the ring's pending bit reads on this cycle as before and from the
next on by the two offsets (16 R477). Nothing else of the module changes (02 R45, R47, R49). -/
def Obligations.OffsetWrites : Prop :=
  ∀ (n : Nat) (v : Word) (s : State), s.sys.mode.hasHost = true →
    (∃ t, exec (.crTailWrite n v) s = .next t ∧ t = { s with rings := t.rings } ∧ (∀ k, k ≠ n → t.ring k = s.ring k) ∧
      let r := s.ring n
      let far := decide ((v - r.crHead).toNat > 2 ^ r.crSizeLog) || decide ((v - r.crTail).toNat > 2 ^ r.crSizeLog)
      t.ring n = if far then { r with tailFault := true } else { r with crTail := v }) ∧
    ∃ t, exec (.rpHeadWrite n v) s = .next t ∧ t = { s with rings := t.rings } ∧ (∀ k, k ≠ n → t.ring k = s.ring k) ∧
      t.ring n = { s.ring n with rpHead := v, pendAt := some s.clk.pk, pendOld := (s.ring n).pendRead s.clk.pk } ∧
      (t.ring n).pendRead s.clk.pk = (s.ring n).pendRead s.clk.pk ∧
      ∀ k, k ≠ s.clk.pk → (t.ring n).pendRead k = decide ((s.ring n).rpWrite ≠ v)

/-- One write to RING_CTRL (02 R46, R65, R489, 16 R479): it enables a disabled ring that passes the enable checks and leaves
one that does not as it was, with RING_REFUSED set; on an enabled ring it changes nothing and sets RING_REFUSED, its location
bits being STATIC; it disables a ring; and a RESET of a disabled ring clears the four
offsets, EXP_SEQ and HALTED and takes the partition's next seal generation, but is refused while EN stays 1. -/
def Obligations.RingControl : Prop :=
  ∀ (n : Nat) (cl rl : Bool) (s : State), s.sys.mode.hasHost = true →
    let located := { s.ring n with crLoc := cl, rpLoc := rl }
    ((s.ring n).en = false → ∃ t, exec (.ringEnable n cl rl) s = .next t ∧
      (∀ k, k ≠ n → t.ring k = s.ring k) ∧
      (enableOk n (s.setRing n located) = true →
        t.ring n = { located with en := true } ∧ t = { s with rings := t.rings }) ∧
      (enableOk n (s.setRing n located) = false →
        t.ring n = located ∧ t = { s with rings := t.rings, sys := { s.sys with ringRefused := true } })) ∧
    (∃ t, exec (.ringDisable n cl rl) s = .next t ∧ t.ring n = { located with en := false } ∧
      (∀ k, k ≠ n → t.ring k = s.ring k) ∧ t = { s with rings := t.rings }) ∧
    (genExhausted s (s.ring n).part = false → ∃ t, exec (.ringReset n false cl rl) s = .next t ∧
      t.ring n = { located with
        en := false, crTail := 0, crHead := 0, rpHead := 0, rpWrite := 0, expSeq := 0, wraps := 0, rpCount := 0,
        halted := false, ringGen := (s.part (s.ring n).part).sealGen + 1 } ∧
      t.part (s.ring n).part
        = { s.part (s.ring n).part with sealGen := (s.part (s.ring n).part).sealGen + 1 } ∧
      (∀ k, k ≠ n → t.ring k = s.ring k) ∧ (∀ q, q ≠ (s.ring n).part → t.part q = s.part q) ∧
      t = { s with rings := t.rings, parts := t.parts }) ∧
    ((s.ring n).en = true →
      exec (.ringReset n true cl rl) s = .next { s with sys := { s.sys with ringRefused := true } } ∧
      exec (.ringEnable n cl rl) s = .next { s with sys := { s.sys with ringRefused := true } })

/-- A write to a BAR0 register (02 R46, 16 R473, R476): a STATIC ring register takes it only while the ring is disabled and
otherwise sets RING_REFUSED; RING_CTRL, CR_TAIL, RP_HEAD and the upper mirror register act as the commands of their names; a
1 clears a bit of RING_STATUS and, in DEVSTAT[9], RING_REFUSED; CMD_TIMEOUT takes it at once; an RO register and an offset that
the map does not name ignore it. A register that took a write reads back what was written. A read of TIME_LO returns the low half of the time and latches its high half; an
access of another size or alignment is an Unsupported Request that AER logs (16 R473, R475). -/
def Obligations.RegisterAccesses : Prop :=
  ∀ (n : Nat) (v : Word) (s : State), s.sys.mode.hasHost = true → n ≤ 63 →
    ((s.ring n).en = true → ∀ o ∈ [0x00, 0x04, 0x08, 0x0c, 0x10, 0x28, 0x2c],
      exec (.registerWrite (0x10000 + 64 * n + o) v) s = .next { s with sys := { s.sys with ringRefused := true } }) ∧
    ((s.ring n).en = false → ∃ t, exec (.registerWrite (0x10000 + 64 * n + 0x10) v) s = .next t ∧
      t.ring n = { s.ring n with crSizeLog := v.toNat % 32, rpSizeLog := v.toNat / 256 % 32 } ∧
      (∀ k, k ≠ n → t.ring k = s.ring k) ∧ t = { s with rings := t.rings }) ∧
    ((s.ring n).en = false → ∃ t, exec (.registerWrite (0x10000 + 64 * n + 0x04) v) s = .next t ∧
      (t.ring n).crBase = v ++ (s.ring n).crBase.setWidth 32 ∧
      t.ring n = { s.ring n with crBase := (t.ring n).crBase } ∧ t = { s with rings := t.rings }) ∧
    ((s.ring n).en = false → ∀ o ∈ [0x00, 0x04, 0x08, 0x0c, 0x28, 0x2c], ∃ t,
      exec (.registerWrite (0x10000 + 64 * n + o) v) s = .next t ∧ t.bar0Word (0x10000 + 64 * n + o) = v ∧
      (∀ q, q ≤ 63 → ∀ k ∈ [0x00, 0x04, 0x08, 0x0c, 0x10, 0x14, 0x18, 0x1c, 0x20, 0x24, 0x28, 0x2c, 0x30, 0x34, 0x38, 0x3c],
        ¬ (q = n ∧ k = o) → t.bar0Word (0x10000 + 64 * q + k) = s.bar0Word (0x10000 + 64 * q + k)) ∧
      t = { s with rings := t.rings }) ∧
    (∃ t, exec (.registerWrite (0x10000 + 64 * n + 0x34) v) s = .next t ∧
      t.ring n = { s.ring n with cmdTimeout := v.setWidth 16 } ∧ t = { s with rings := t.rings }) ∧
    (∃ t, exec (.registerWrite (0x10000 + 64 * n + 0x30) v) s = .next t ∧
      t.ring n = { s.ring n with
        tailFault := (s.ring n).tailFault && !v.getLsbD 8, genFull := (s.ring n).genFull && !v.getLsbD 9 } ∧
      t = { s with rings := t.rings }) ∧
    (exec (.registerWrite (0x10000 + 64 * n + 0x14) v) s
      = if v.getLsbD 3 then exec (.ringReset n (v.getLsbD 0) (v.getLsbD 1) (v.getLsbD 2)) s
        else if v.getLsbD 0 then exec (.ringEnable n (v.getLsbD 1) (v.getLsbD 2)) s
        else exec (.ringDisable n (v.getLsbD 1) (v.getLsbD 2)) s) ∧
    exec (.registerWrite (0x10000 + 64 * n + 0x18) v) s = exec (.crTailWrite n v) s ∧
    exec (.registerWrite (0x10000 + 64 * n + 0x20) v) s = exec (.rpHeadWrite n v) s ∧
    exec (.registerWrite 0x200 v) s = .next { s with sys := { s.sys with dsmLo := v } } ∧
    exec (.registerWrite 0x204 v) s = exec (.dsmAddrHiWrite v) s ∧
    (∀ o ∈ [0x1c, 0x24, 0x38, 0x3c], exec (.registerWrite (0x10000 + 64 * n + o) v) s = .next s) ∧
    (v.getLsbD 9 = true →
      exec (.registerWrite 0x100 v) s = .next { s with sys := { s.sys with ringRefused := false } }) ∧
    (v.getLsbD 9 = false → exec (.registerWrite 0x100 v) s = .next s) ∧
    (∀ o, o < 0x10000 → o ≠ 0x100 → o ≠ 0x200 → o ≠ 0x204 → exec (.registerWrite o v) s = .next s) ∧
    (exec .timeLoRead s = .next { s with sys := { s.sys with
      timeHi := (s.now >>> 32).setWidth 32, bus := some (.data (leBytes 4 (s.now.toNat % 2 ^ 32))) } }) ∧
    ∀ (w : Bool) (o n : Nat), exec (.bar0UnsupportedAccess w o n) s
      = .next { s with sys := { s.sys with bus := some .unsupported, aer := s.sys.aer + 1 } }

/-- The status mirror (16 R478): a write of DSM_ADDR_HI puts the whole address in force, and the mirror is written there at
once where the address is not 0 and 16-byte aligned and 1 µs has passed since the last write of the mirror; within that 1 µs
the write stays due; a due mirror write puts DEVSTAT and RING_PEND at the address and
nothing elsewhere in memory; one that is not due changes nothing.
A BAR2 write (16 R480) changes HBM only where the window of an enabled ring maps its command ring in HBM; a BAR2 read
changes no memory, and a byte that no window maps reads as zero. -/
def Obligations.MirrorAndWindow : Prop :=
  (∀ (v : Word) (s : State), s.sys.mode.hasHost = true → Mem.wf s.host = true →
     (let a : DWord := v ++ s.sys.dsmLo
      ∃ t, exec (.dsmAddrHiWrite v) s = .next t ∧ t.sys.dsmAddr = a ∧ t.sys.dsmHi = v ∧ t.rings = s.rings ∧
       (a = 0 ∨ a.toNat % 16 ≠ 0 → t.host = s.host) ∧
       (mirrorFree s = false → t.host = s.host ∧ t.sys.dsmSeen = none) ∧
       (a ≠ 0 → a.toNat % 16 = 0 → mirrorFree s = true → memReadN t.host a.toNat 16
         = leBytes 4 s.devstat.toNat ++ [0, 0, 0, 0] ++ leBytes 8 (s.ringPend % 2 ^ 64))) ∧
     (mirrorDue s = true → ∃ t, exec .statusMirrorWrite s = .next t ∧
       memReadN t.host s.sys.dsmAddr.toNat 16 = leBytes 4 s.devstat.toNat ++ [0, 0, 0, 0] ++ leBytes 8 (s.ringPend % 2 ^ 64) ∧
       (∀ x, x < s.sys.dsmAddr.toNat ∨ s.sys.dsmAddr.toNat + 16 ≤ x → memRead t.host x = memRead s.host x) ∧
       t = { s with host := t.host, sys := { s.sys with dsmSeen := t.sys.dsmSeen, dsmLast := some s.now } }) ∧
     (mirrorDue s = false → exec .statusMirrorWrite s = .next s)) ∧
  (∀ (o n : Nat) (s : State), s.sys.mode.hasHost = true →
     (∀ b : Bytes, b.length = n → ∃ t, exec (.bar2Access o (some b) n) s = .next t ∧ t.sys.bus = some .done ∧
       t.host = s.host ∧ t.rings = s.rings ∧
       ∀ x, (∀ i p a, i < n → bar2Addr s (o + i) true = some (p, a) → s.physAddr p a ≠ some x) →
         memRead t.hbm x = memRead s.hbm x) ∧
     ∃ t b, exec (.bar2Access o none n) s = .next t ∧ t.sys.bus = some (.data b) ∧ b.length = n ∧ t.hbm = s.hbm ∧
       t.host = s.host ∧ t.rings = s.rings ∧
       ∀ i, i < n → bar2Addr s (o + i) false = none → byteAt b i = 0)


/-- Fetching (02 R58, R62): a well-formed unsealed command at the front of a fetchable ring in host memory that is alone in
flight there, whose CRC and SEQ are right and whose payload decodes, is taken in flight; CR_HEAD passes its slots and EXP_SEQ becomes SEQ + 1.
One whose CRC or SEQ is wrong is answered
at once and leaves nothing in flight. -/
def Obligations.FetchTakesCommand : Prop :=
  ∀ (n : Nat) (s : State), fetchable n s = true → (s.ring n).inFlight = [] → (s.ring n).crLoc = false → (s.ring n).rpLoc = false →
    s.fact .partCmdSeal (s.ring n).part ≠ 1 →
    let r := s.ring n
    let h := readHead (ringGet s false r.part r.crBase.toNat r.crSize r.crHead 32)
    let slots := ceilDiv (32 + 8 * h.len) 32 * 32
    let b := ringGet s false r.part r.crBase.toNat r.crSize r.crHead (32 + 8 * h.len)
    h.ver = 1 → h.len ≤ 8188 → slots ≤ (r.crTail - r.crHead).toNat →
    ∃ t, exec (.commandFetch n) s = .next t ∧
      (t.ring n).crHead = r.crHead + BitVec.ofNat 32 slots ∧ (t.ring n).crTail = r.crTail ∧ (∀ k, k ≠ n → t.ring k = s.ring k) ∧
      (∀ i, commandCrc b = h.crc → h.seq = r.expSeq →
        decodeCommand s h (h.ctx (.ring n)) r.part (b.drop 32) = .cmd i →
        t.ring n = { r with
          crHead := r.crHead + BitVec.ofNat 32 slots, expSeq := h.seq + 1,
          wraps := if h.seq = 0xffffffff then (r.wraps + 1) % 2 ^ 24 else r.wraps,
          inFlight := [{ ctx := h.ctx (.ring n), opc := h.opc, id := s.commandId (.ring n) h.seq, cmd := some i,
                         fetched := if (h.ctx (.ring n)).fence then some s.now else none }],
          movedAt := s.now } ∧
        t = { s with rings := t.rings }) ∧
      (commandCrc b ≠ h.crc → (t.ring n).rpCount = r.rpCount + 1 ∧ (t.ring n).inFlight = [] ∧
        (t.ring n).expSeq = h.seq + 1) ∧
      (commandCrc b = h.crc → h.seq ≠ r.expSeq → (t.ring n).rpCount = r.rpCount + 1 ∧ (t.ring n).inFlight = [] ∧
        (t.ring n).expSeq = h.seq + 1)


/-! ### Configuration fields -/

/-- R483 and R484: a FIELD_WRITE whose checks pass, behind the packets ahead of it where it clears a sketch, replies with the
number of its fields, gives each of them that is not WO its value, and leaves every other field as it was. Where none of its
fields sets anything else going, every value in force and every block stay as they were too (RINSE's walks are brought up to
date, 12 R389).
A FIELD_WRITE whose checks fail writes nothing and replies with 0 fields written and the first failure's status: an
undefined ID, a caller without the right, a bit outside the field, a STATIC field of an enabled block; and a FIELD_WRITE
that names no field or too many has a bad length (16 R482, R483). -/
def Obligations.FieldWritesAllOrNone : Prop :=
  (∀ (c : CmdCtx) (id count : Nat) (vals : List DWord) (s : State), Ready 0x031 s →
     fieldWriteCheck (beginCmd c 0x031 s) c.part id count vals = none →
     (clearsSketch id vals = false ∨ (PathEmpty s ∧ Fresh c s)) →
     ∃ u, exec (.fieldWrite c id count vals) s = .next (finish c .ok (leBytes 2 count) s.now 0 u) ∧
       (∀ k < count, ∀ r i, fieldAt (id + k) = some (r, i) →
         smFind u.fields.val (id + k) = if r.cls = .wo then smFind s.fields.val (id + k) else some (nth 0 vals k)) ∧
       (∀ j, j < id ∨ id + count ≤ j → smFind u.fields.val j = smFind s.fields.val j)) ∧
  (∀ (c : CmdCtx) (id count : Nat) (vals : List DWord) (s : State), Ready 0x031 s →
     fieldWriteCheck (beginCmd c 0x031 s) c.part id count vals = none →
     (∀ k < count, ∀ r i, fieldAt (id + k) = some (r, i) → r.cls ≠ .wo ∧ r.name ∉ [FName.portEn, .portGraph, .hhEntries,
       .tileOwner, .agePeriod, .gateEn, .partEn, .lsrEn, .tclkCtrl, .ppsCtrl, .batchMax, .tileShare, .tileEn, .sketchEn,
       .eqFreeze, .traceBudget]) →
     let b := beginCmd c 0x031 s
     ∃ u, exec (.fieldWrite c id count vals) s = .next (finish c .ok (leBytes 2 count) s.now 0 u) ∧
       (∀ k < count, smFind u.fields.val (id + k) = some (nth 0 vals k)) ∧
       (∀ j, j < id ∨ id + count ≤ j → smFind u.fields.val j = smFind s.fields.val j) ∧
       u.fields.act = s.fields.act ∧ u = { b with fields := u.fields, regions := (settleWalks b).regions, slots := (settleWalks b).slots }) ∧
  (∀ (c : CmdCtx) (id count : Nat) (vals : List DWord) (s : State), s.sys.mode.hasHost = true →
     let b := beginCmd c 0x031 s
     let failed := fun st => Host.Outcome.next (finish c st (leBytes 2 0) 0 0 b)
     (vals.length ≠ count ∨ count = 0 ∨ 510 < count → exec (.fieldWrite c id count vals) s = failed .badLength) ∧
     (vals.length = 1 → count = 1 → fieldAt id = none → exec (.fieldWrite c id count vals) s = failed .badParam) ∧
     ∀ r i, vals.length = 1 → count = 1 → fieldAt id = some (r, i) → r.cls ≠ .ro →
       (mayWrite b c.part r i = false → exec (.fieldWrite c id count vals) s = failed .noPermission) ∧
       (mayWrite b c.part r i = true → (nth 0 vals 0).toNat &&& r.mask ≠ (nth 0 vals 0).toNat →
         exec (.fieldWrite c id count vals) s = failed .badParam) ∧
       (mayWrite b c.part r i = true → valueOk b (newValues b id vals) r i (nth 0 vals 0).toNat = true → r.cls = .static →
         ownerEnabled b r i = true → Ready 0x031 s → exec (.fieldWrite c id count vals) s = failed .refusedLocked))


/-- The writes of single fields that set something going: PART_EN makes its partition ACTIVE or CREATED (12 R378), an
LSR_EN of 0 turns a cartridge's lasers off and leaves the other cartridges (14 R452), and PORT_EN from 0 to 1 clears the
port's fault where its lane has been repaired, and only there (03 R81). -/
def Obligations.FieldWriteActs : Prop :=
  ∀ (c : CmdCtx) (i : Nat) (v : DWord) (s : State), Ready 0x031 s →
    let b := beginCmd c 0x031 s
    (i ≤ 63 → fieldWriteCheck b c.part (fieldId .partEn i) 1 [v] = none →
      ∃ u, exec (.fieldWrite c (fieldId .partEn i) 1 [v]) s = .next (finish c .ok (leBytes 2 1) s.now 0 u) ∧
        (u.part i).state = (if v = 1 then 2 else 1) ∧ (∀ q, q ≠ i → u.part q = b.part q) ∧ u.fval .partEn i = v.toNat) ∧
    (i ≤ 31 → fieldWriteCheck b c.part (fieldId .portEn i) 1 [v] = none → s.fval .portEn i = 0 → v = 1 →
      ∃ u, exec (.fieldWrite c (fieldId .portEn i) 1 [v]) s = .next (finish c .ok (leBytes 2 1) s.now 0 u) ∧
        u.portEn i = true ∧ (i ∈ s.intake.repaired → i ∉ u.intake.portFault) ∧
        (i ∉ s.intake.repaired → u.intake.portFault = s.intake.portFault) ∧ u.intake.pkts = s.intake.pkts) ∧
    (i ≤ 3 → fieldWriteCheck b c.part (fieldId .lsrEn i) 1 [v] = none → v = 0 →
      ∃ u, exec (.fieldWrite c (fieldId .lsrEn i) 1 [v]) s = .next (finish c .ok (leBytes 2 1) s.now 0 u) ∧
        (u.laser i).on = false ∧ (u.laser i).locked = false ∧ ∀ j, j ≠ i → u.laser j = s.laser j)

/-- A write of SKETCH_CLEAR, behind the packets that came before it, zeroes every counter of its sketch where it writes 1
and no other sketch's; a write of WK_THR_SET ends a period that is over and sets the slot's threshold, clamped to its
bounds, with a new period from now on (05 R180, 06 R205).
FIELD_READ, with its checks passed, replies with the value of every named field and changes nothing beside its reply; it
reads 0 from a WO field, and the value most recently written from an RW field, but on the cycle of another source's write the
value from before that cycle (16 R482, R484, R486, 00 R12). -/
def Obligations.FieldActionsAndReads : Prop :=
  ((∀ (c : CmdCtx) (k : Nat) (v : DWord) (s : State), Ready 0x031 s → PathEmpty s → Fresh c s → k ≤ 3 →
     fieldWriteCheck (beginCmd c 0x031 s) c.part (0x1b10 + k) 1 [v] = none →
     ∃ u, exec (.sketchClear c k v) s = .next (finish c .ok (leBytes 2 1) s.now 0 u) ∧
       (∀ r i, r ≤ 3 → i < 65536 → sketchCount u k r i = if v = 1 then 0 else sketchCount s k r i) ∧
       (∀ j r i, j ≤ 3 → j ≠ k → r ≤ 3 → i < 65536 → sketchCount u j r i = sketchCount s j r i) ∧
       u.fields = s.fields ∧ u.tabs = s.tabs ∧ u.slots = (settleWalks s).slots ∧ u.tiles = s.tiles ∧ u.egr = s.egr) ∧
   (∀ (c : CmdCtx) (n : Nat) (v : DWord) (s : State) (lo hi : Int) (step : Nat), Ready 0x031 s → n ≤ 255 →
     fieldWriteCheck (beginCmd c 0x031 s) c.part (0x2000 + n) 1 [v] = none → thrBounds (s.slot n) = some (lo, hi, step) →
     ∃ u, exec (.wkThrSet c n v) s = .next (finish c .ok (leBytes 2 1) s.now 0 u) ∧
       (u.slot n).thr.theta = clampI (sxNat 64 v.toNat) lo hi ∧ (u.slot n).thr.n = 0 ∧ (u.slot n).thr.a = 0 ∧
       (u.slot n).thr.dir = 0 ∧ (u.slot n).thr.step = step ∧ (u.slot n).thr.since = s.now ∧
       (u.slot n).ens = (s.slot n).ens ∧ (∀ m, m ≠ n → u.slot m = (settleWalks s).slot m) ∧ u.fields = s.fields)) ∧
  (∀ (c : CmdCtx) (id count : Nat) (s : State), Ready 0x030 s → fieldReadCheck (beginCmd c 0x030 s) c.part id count = none →
     ∃ body, exec (.fieldRead c id count) s = .next (finish c .ok body s.now 0 (beginCmd c 0x030 s)) ∧
       body.length = 8 * count ∧
       ∀ k < count, ∀ r i, fieldAt (id + k) = some (r, i) →
         (r.cls = .wo → (body.drop (8 * k)).take 8 = [0, 0, 0, 0, 0, 0, 0, 0]) ∧
         (r.cls ≠ .wo → r.cls ≠ .ro →
           (smFind s.fields.wrote (id + k) = none → (body.drop (8 * k)).take 8 = leBytes 8 (s.fval r.name i)) ∧
           ∀ t o v, smFind s.fields.wrote (id + k) = some (t, o, v) →
             (body.drop (8 * k)).take 8 = leBytes 8 (if t = s.clk.pk ∧ o ≠ c.src.code then v.toNat else s.fval r.name i)))



/-! ### Lookup tables, graphs and epochs -/

/-- R146: a TABLE_WRITE or RULE_WRITE that passes its checks and reaches its ordering point, while no entry is being relocated,
writes all its records or none.
Where every record is accepted it replies with their number; where one fails it replies 0 with that record's status, and
every table is as it was.
TABLE_DELETE and RULE_DELETE remove the keys of their records from the banks they name and reply with the number of
records that removed something; a record that is refused fails the batch whole. A TABLE_DELETE of no records empties the
inactive bank (04 R146, R150). -/
def Obligations.TableWritesAndDeletes : Prop :=
  ((∀ (c : CmdCtx) (t bank count : Nat) (x : Batch) (s : State) (b : Banks), Ready 0x100 s → PathEmpty s → Fresh c s →
     s.oldCopies t = [] →
     batchCheck c t bank count x false (countOk count && [1, 2, 3, 5, 0x20, 0x30].contains t) (beginCmd c 0x100 s) = none →
     writeTarget c t bank s = .banks b →
     let a := batchBytes c x (areaSize t count false) (begun c 0x100 s)
     let w := putAll t c.part 0 b (records (recSize t) count a.1) a.2
     (w.1 = none → exec (.tableWrite c t bank count x) s = .next (finish c .ok (leBytes 4 count) s.now 0 w.2)) ∧
     (∀ st, w.1 = some st → exec (.tableWrite c t bank count x) s
       = .next (finish c st (leBytes 4 0) s.now 0 { a.2 with free := w.2.free }))) ∧
   (∀ (c : CmdCtx) (g bank count : Nat) (x : Batch) (s : State) (b : Banks), Ready 0x110 s → PathEmpty s → Fresh c s →
     s.oldCopies 4 = [] →
     batchCheck c 4 bank count x false (countOk count && decide (g ≤ 63)) (beginCmd c 0x110 s) = none →
     writeTarget c 4 bank s = .banks b →
     let a := batchBytes c x (areaSize 4 count false) (begun c 0x110 s)
     let w := putAll 4 c.part g b (records 88 count a.1) a.2
     (w.1 = none → exec (.ruleWrite c g bank count x) s = .next (finish c .ok (leBytes 4 count) s.now 0 w.2)) ∧
     (∀ st, w.1 = some st → exec (.ruleWrite c g bank count x) s
       = .next (finish c st (leBytes 4 0) s.now 0 { a.2 with free := w.2.free })))) ∧
  ((∀ (c : CmdCtx) (t bank count : Nat) (x : Batch) (s : State) (b : Banks), Ready 0x101 s → PathEmpty s → Fresh c s →
     s.oldCopies t = [] →
     batchCheck c t bank count x true (emptying t bank count x || (countOk count && [1, 2, 3, 5].contains t))
       (beginCmd c 0x101 s) = none → writeTarget c t bank s = .banks b → count ≠ 0 →
     let a := batchBytes c x (areaSize t count true) (begun c 0x101 s)
     let w := delAll t c.part b (records (if t = 4 then 4 else delSize t) count a.1) 0 a.2
     (w.1 = none → exec (.tableDelete c t bank count x) s = .next (finish c .ok (leBytes 4 w.2.1) s.now 0 w.2.2)) ∧
     (∀ st, w.1 = some st → exec (.tableDelete c t bank count x) s = .next (finish c st (leBytes 4 0) s.now 0 a.2))) ∧
   (∀ (c : CmdCtx) (t : Nat) (s : State), Ready 0x101 s → PathEmpty s → Fresh c s → 1 ≤ t → t ≤ 5 →
     s.bankState c.part t = .rebuild → comparing s c.part t = false →
     ∃ n u, exec (.tableDelete c t 1 0 (.inline [])) s = .next (finish c .ok (leBytes 4 n) s.now 0 u) ∧
       (∀ k, u.tfind t c.part k (1 - s.activeBank c.part t) = none) ∧
       (∀ q k x y, q ≠ c.part → u.tfind y q k x = s.tfind y q k x)) ∧
   (∀ (c : CmdCtx) (bank count : Nat) (x : Batch) (s : State) (b : Banks), Ready 0x111 s → PathEmpty s → Fresh c s →
     s.oldCopies 4 = [] →
     batchCheck c 4 bank count x true (countOk count && oddRsv count x) (beginCmd c 0x111 s) = none →
     writeTarget c 4 bank s = .banks b →
     let a := batchBytes c x (areaSize 4 count true) (begun c 0x111 s)
     let w := delAll 4 c.part b (records 4 count a.1) 0 a.2
     (count % 2 = 1 → rsvZero a.1 (4 * count) 4 = true) → w.1 = none ∧ exec (.ruleDelete c bank count x) s = .next (finish c .ok (leBytes 4 w.2.1) s.now 0 w.2.2)) ∧
   ∀ (t p : Nat) (key : Bytes) (b : Banks) (s : State),
     let w := removeKey t p key b s
     (b.b0 = true → w.2.tfind t p key 0 = none) ∧ (b.b1 = true → w.2.tfind t p key 1 = none) ∧
       ∀ t' p' k x, (t' ≠ t ∨ p' ≠ p ∨ k ≠ key) → w.2.tfind t' p' k x = s.tfind t' p' k x)

/-- An EXACT record that a write accepts is found in every bank that it was written to, with its action; the other bank finds
its action as before, and every other key of every table finds an entry of the same content as before, wherever a relocation
has put it (04 R128 to R130, R146, R149).
TABLE_READ returns the records from a slot on, in slot order, as many as it asked for and as fit into the reply or the named
buffer, with the next slot and their number; TABLE_COMPARE starts one walk of a table of a partition with the shadow's 256
digests, is BUSY while one runs, and its end lists the ranges whose digest is not the shadow's (04 R148, R153, R154). -/
def Obligations.TablesReadAndCompare : Prop :=
  (∀ (p : Nat) (b : Banks) (r : Bytes) (s v : State), putExact p b r s = (none, v) →
     (∀ x, (x = 0 ∧ b.b0 = true) ∨ (x = 1 ∧ b.b1 = true) →
       ∃ e, v.tfind 1 p (r.take 32) x = some e ∧ e.action = slice r 32 16 ∧ e.ageable = (byteAt r 48).getLsbD 0 ∧
         e.learned = false) ∧
     (∀ x, (x = 0 ∧ b.b0 = false) ∨ (x = 1 ∧ b.b1 = false) →
       (v.tfind 1 p (r.take 32) x).map (·.action) = (s.tfind 1 p (r.take 32) x).map (·.action)) ∧
     (∀ t q k x, (t ≠ 1 ∨ q ≠ p ∨ k ≠ r.take 32) →
       (v.tfind t q k x).map TEntry.content = (s.tfind t q k x).map TEntry.content)) ∧
  ((∀ (c : CmdCtx) (t bank start count : Nat) (s : State), Ready 0x102 s → PathEmpty s → Fresh c s →
     tableReadCheck c t bank start count none = none →
     let b := begun c 0x102 s
     let all := (tableRecords s t c.part bank).filter (fun x => decide (start ≤ x.1))
     let got := (all.take count).take (4072 / recSize t)
     exec (.tableRead c t bank start count none) s = .next (finish c .ok
       ((got.map (·.2)).flatten ++ leBytes 4 (nextSlot t start all got) ++ leBytes 4 got.length) s.now
       (if got.length < (all.take count).length then 2 else 0) b)) ∧
   (∀ (c : CmdCtx) (t bank start count : Nat) (o : Bref) (s : State), Ready 0x102 s → PathEmpty s → Fresh c s →
     tableReadCheck c t bank start count (some o) = none →
     let b := begun c 0x102 s
     let all := (tableRecords s t c.part bank).filter (fun x => decide (start ≤ x.1))
     let got := (all.take count).take (o.size / recSize t)
     let data := (got.map (·.2)).flatten
     brefStatus c o 1 data.length b = none →
     exec (.tableRead c t bank start count (some o)) s = .next (finish c .ok
       (leBytes 4 (nextSlot t start all got) ++ leBytes 4 got.length) s.now
       (if got.length < (all.take count).length then 2 else 0) (brefWrite c o data b))) ∧
   (∀ (c : CmdCtx) (t : Nat) (sh : Bref) (s : State), Ready 0x106 s → sh.size = 2048 → 1 ≤ t → t ≤ 4 →
     brefStatus c sh 0 2048 (beginCmd c 0x106 s) = none →
     let b := beginCmd c 0x106 s
     let x : Compare := ⟨c, t, c.part, (List.range 256).map (fun r => dw (uAt (brefRead c sh 2048 b) (8 * r) 8))⟩
     (comparing s c.part t = true → exec (.tableCompare c t sh) s = .next (finish c .busy [] 0 0 b)) ∧
     (comparing s c.part t = false → exec (.tableCompare c t sh) s
       = .next { brefCharge c sh 2048 b with tabs := { s.tabs with compares := s.tabs.compares ++ [x] } })) ∧
   ∀ (t p : Nat) (x : Compare) (s : State), s.sys.mode = .running →
     s.tabs.compares.find? (fun y => decide (y.table = t) && decide (y.part = p)) = some x →
     let l := (s.tbank t p (s.activeBank p t)).filter (fun e => !(decide (t = 1) && (e.learned || e.ageable)))
     let bad := (List.range 256).filter (fun r => decide (rangeDigest l r ≠ nth 0 x.shadow r))
     ∃ u, exec (.tableCompareEnd t p) s = .next (finish x.ctx .ok
         (leBytes 2 (min bad.length 255) ++ (bad.take 255).flatMap (fun r => leBytes 1 r)) 0
         (if bad.length = 256 then 2 else 0) u) ∧
       u.tabs.entries = s.tabs.entries ∧ u.tabs.compares.length + 1 = s.tabs.compares.length)



/-- The states of a table's banks (04 R149): TABLE_REBUILD opens the inactive banks of the STEADY tables it names and
TABLE_ABORT closes those of the tables in REBUILD, whose two banks then find the same; neither changes what the active bank
finds. -/
def Obligations.BankStates : Prop :=
  ∀ (c : CmdCtx) (t : Nat) (s : State), eventTable t = true →
    (Ready 0x103 s → eventTables s c.part t .steady ≠ [] →
      ∃ u, exec (.tableRebuild c t) s = .next (finish c .ok [] s.now 0 u) ∧
        (∀ x, 1 ≤ x → x ≤ 4 → u.bankState c.part x
          = if x ∈ eventTables s c.part t .steady then .rebuild else s.bankState c.part x) ∧
        u.tabs.entries = s.tabs.entries ∧ u.tabs.active = s.tabs.active) ∧
    (Ready 0x103 s → eventTables s c.part t .steady = [] → exec (.tableRebuild c t) s
      = .next (finish c (if t = 0xff then .badParam else .busy) [] 0 0 (beginCmd c 0x103 s))) ∧
    (Ready 0x105 s → eventTables s c.part t .rebuild ≠ [] →
      ∃ u, exec (.tableAbort c t) s = .next (finish c .ok [] s.now 0 u) ∧
        u.tabs.active = s.tabs.active ∧
        ∀ x ∈ eventTables s c.part t .rebuild, u.bankState c.part x = .steady ∧
          ∀ k y, y ≤ 1 → (u.tfind x c.part k y).map (·.action)
            = (s.tfind x c.part k (s.activeBank c.part x)).map (·.action))

/-- PARSE_GRAPH_LOAD puts the graph of an image with the right digest into the lowest free slot, and PATTERN_LOAD puts the
patterns of such an image into the partition's pending set; an image with another digest loads nothing (03 R93, R105,
R108). -/
def Obligations.GraphAndPatternLoads : Prop :=
  ∀ (c : CmdCtx) (x : Bref) (dig : Bytes) (s : State),
    (Ready 0x120 s → brefStatus c x 0 x.size (beginCmd c 0x120 s) = none →
      let b := beginCmd c 0x120 s
      let img := brefRead c x x.size b
      let f := freeGraphs (brefCharge c x x.size b)
      (sha384 img ≠ dig → exec (.parseGraphLoad c x dig) s = .next (finish c .integrityFail [] 0 0 f)) ∧
      ∀ n g, sha384 img = dig → graphTooBig img = false → lowestFree 1 8 (f.intake.graphs.map (·.1)) = some n →
        graphOf img = some g →
        ∃ u, exec (.parseGraphLoad c x dig) s = .next (finish c .ok (leBytes 1 n) 0 0 u) ∧
          smFind u.intake.graphs n = some { owner := c.part, graph := g, named := false } ∧
          (∀ j, j ≠ n → smFind u.intake.graphs j = smFind f.intake.graphs j) ∧ u.intake.patPend = s.intake.patPend ∧
          u.fields = s.fields ∧ u.epochs = s.epochs) ∧
    (Ready 0x121 s → brefStatus c x 0 x.size (beginCmd c 0x121 s) = none →
      let b := beginCmd c 0x121 s
      let img := brefRead c x x.size b
      (sha384 img ≠ dig →
        exec (.patternLoad c x dig) s = .next (finish c .integrityFail [] 0 0 (brefCharge c x x.size b))) ∧
      ∀ l, sha384 img = dig → patternsOf img = some l → patternTotal s c.part + l.length ≤ 65536 →
        ∃ u, exec (.patternLoad c x dig) s = .next (finish c .ok (leBytes 4 l.length) 0 0 u) ∧
          smFind u.intake.patPend c.part = some l ∧
          (∀ q, q ≠ c.part → smFind u.intake.patPend q = smFind s.intake.patPend q) ∧
          u.intake.graphs = s.intake.graphs ∧ u.epochs = s.epochs ∧ u.intake.pkts = s.intake.pkts)

/-- A commit in a partition with one live epoch (09 R290, R296, R297, 04 R149, R151): the new epoch follows the old one's
number, swaps the banks of the tables in REBUILD that it names and no others, and takes the slot map; the old epoch stays
live while a packet or event counts in it.
The older of two live epochs retires once nothing counts in it, and not before; EPOCH_STATUS lists the live epochs, newest
first, and changes nothing (09 R289, R295, R299). -/
def Obligations.EpochsCommitAndRetire : Prop :=
  (∀ (c : CmdCtx) (s : State) (old : Epoch), s.eps c.part = [old] → old.refs ≠ 0 →
     (∀ (r : Nat) (map : DWord), Ready 0x310 s → epochCommitCheck c r map (beginCmd c 0x310 s) = none →
       let swap := commitSwap c.part r s
       compareHolds s c.part swap = false →
       ∃ u e, exec (.epochCommit c r map) s
           = .next (finish c .ok (leBytes 8 ((old.num + 1) % 65536) ++ leBytes 8 s.now.toNat) s.now 0 u) ∧
         u.eps c.part = [old, e] ∧ e.num = (old.num + 1) % 65536 ∧ e.swapAt = s.now ∧ e.refs = 0 ∧
         e.slots = commitMap c.part map s ∧ (∀ q, q ≠ c.part → u.eps q = s.eps q) ∧
         (∀ x, 1 ≤ x → x ≤ 4 → u.activeBank c.part x = if x ∈ swap then 1 - s.activeBank c.part x else s.activeBank c.part x) ∧
         (∀ x ∈ swap, u.bankState c.part x = .draining) ∧
         u.tabs.entries.map (fun x => { x with born := 0, seen := none })
           = s.tabs.entries.map (fun x => { x with born := 0, seen := none }) ∧ u.fields = s.fields) ∧
     (∀ t : Nat, Ready 0x104 s → tableCommitCheck c t (beginCmd c 0x104 s) = none →
       let swap := eventTables s c.part t .rebuild
       compareHolds s c.part swap = false →
       ∃ u e, exec (.tableCommit c t) s = .next (finish c .ok (leBytes 8 s.now.toNat) s.now 0 u) ∧
         u.eps c.part = [old, e] ∧ e.num = (old.num + 1) % 65536 ∧ e.slots = old.slots ∧
         (∀ x, 1 ≤ x → x ≤ 4 → u.activeBank c.part x = if x ∈ swap then 1 - s.activeBank c.part x else s.activeBank c.part x) ∧
         u.tabs.entries.map (fun x => { x with born := 0, seen := none })
           = s.tabs.entries.map (fun x => { x with born := 0, seen := none }))) ∧
  ((∀ (p : Nat) (s : State) (a b : Epoch), s.eps p = [a, b] →
     (a.refs ≠ 0 → exec (.epochRetire p) s = .next s) ∧
     (a.refs = 0 → ∃ t, exec (.epochRetire p) s = .next t ∧ t.eps p = [b] ∧ (∀ q, q ≠ p → t.eps q = s.eps q) ∧
       t.fields = s.fields ∧ t.rings = s.rings ∧ t.flow = s.flow ∧ t.intake.pkts = s.intake.pkts ∧
       ∀ x, 1 ≤ x → x ≤ 4 → s.bankState p x = .draining → t.bankState p x = .steady)) ∧
   (∀ (p : Nat) (s : State) (a : Epoch), s.eps p = [a] → exec (.epochRetire p) s = .next s) ∧
   ∀ (c : CmdCtx) (s : State), Ready 0x311 s →
     exec (.epochStatus c) s = .next (finish c .ok (epochBody (s.eps c.part)) s.now 0 (beginCmd c 0x311 s)))


/-! ### Counters, profiles and traces -/

/-- R456 and R457: COUNTER_READ, with no packet in the path and none counted behind a mark, replies with the interval ID and the counters' values and
changes none; COUNTER_SAMPLE_RESET replies the same, zeroes those counters and no others, and becomes the interval.
TRACE_CONFIG sets the mask and, with another buffer, starts an empty one; TRACE_READ copies the oldest unread records
and frees them; PROFILE_READ returns the profile of its command, on the MGCLK cycle of that command's reply incomplete and with
the counts from before that cycle (15 R460 to R462). No read with a marker ahead waits meanwhile. -/
def Obligations.CountersTracesAndProfiles : Prop :=
  (∀ (c : CmdCtx) (g first count n w : Nat) (s : State), PathEmpty s → Fresh c s → groupOfCtr g = some (n, w) →
     (∀ e ∈ s.obs.late, e.1 < s.intake.nextPkt) → s.someRead (fun m => decide (m < s.intake.nextPkt)) = false →
     let k := min count 509
     let fl := if k < count then 2 else 0
     let body := fun b : State => leBytes 8 (smGet 0 b.obs.ival (ctrKey g (first / w))).toNat
       ++ (List.range k).flatMap (fun i => leBytes 8 (ctrValue b g (first + i)).toNat)
     (Ready 0x700 s → counterCheck c false g first count (beginCmd c 0x700 s) = none →
       let b := beginCmd c 0x700 s
       ∃ u, exec (.counterRead c g first count) s = .next (finish c .ok (body b) s.now fl u) ∧
         u.obs = { b.obs with late := u.obs.late } ∧ u = { b with rings := u.rings, parts := u.parts, obs := u.obs }) ∧
     (Ready 0x701 s → counterCheck c true g first count (beginCmd c 0x701 s) = none →
       let b := beginCmd c 0x701 s
       ∃ u, exec (.counterSampleReset c g first count) s = .next (finish c .ok (body b) s.now fl u) ∧
         (∀ i < k, ctrValue u g (first + i) = 0) ∧
         (∀ j, j < ctrKey g first ∨ ctrKey g first + k ≤ j → u.cntAt j = b.cntAt j) ∧
         smGet 0 u.obs.ival (ctrKey g (first / w)) = b.idOf c ∧
         (∀ j, j ≠ ctrKey g (first / w) → smGet 0 u.obs.ival j = smGet 0 b.obs.ival j) ∧
         u.obs.traces = b.obs.traces ∧ u = { b with rings := u.rings, parts := u.parts, obs := u.obs })) ∧
  ((∀ (c : CmdCtx) (mask : DWord) (x : Bref) (s : State), Ready 0x710 s → traceBufOk c x = true → mask.toNat < 256 →
     brefStatus c x 1 x.size (beginCmd c 0x710 s) = none →
     let b := beginCmd c 0x710 s
     ∃ u, exec (.traceConfig c mask x) s = .next (finish c .ok [] 0 0 u) ∧ (u.trace c.part).mask = mask ∧
       (u.trace c.part).addr = x.addr ∧ (u.trace c.part).size = x.size ∧
       ((b.trace c.part).addr = x.addr → (b.trace c.part).size = x.size →
         (u.trace c.part).write = (b.trace c.part).write ∧ (u.trace c.part).read = (b.trace c.part).read) ∧
       ((b.trace c.part).addr ≠ x.addr ∨ (b.trace c.part).size ≠ x.size →
         (u.trace c.part).write = 0 ∧ (u.trace c.part).read = 0) ∧
       (∀ q, q ≠ c.part → u.trace q = b.trace q) ∧ u = { b with obs := { b.obs with traces := u.obs.traces } }) ∧
   (∀ (c : CmdCtx) (x : Bref) (s : State), Ready 0x711 s → brefStatus c x 1 0 (beginCmd c 0x711 s) = none →
     let b := beginCmd c 0x711 s
     let t := b.trace c.part
     let n := min (x.size / 32) ((t.write - t.read) / 32)
     brefStatus c x 1 (32 * n) b = none →
     ∃ u, exec (.traceRead c x) s = .next (finish c .ok (leBytes 4 n) 0 0 u) ∧
       u.trace c.part = { t with read := t.read + 32 * n } ∧ (∀ q, q ≠ c.part → u.trace q = b.trace q)) ∧
   ∀ (c : CmdCtx) (id : DWord) (e : Profile) (s : State), Ready 0x720 s → id.toNat / 2 ^ 56 < 64 →
     ((beginCmd c 0x720 s).ring (id.toNat / 2 ^ 56)).part = c.part →
     ((beginCmd c 0x720 s).ring (id.toNat / 2 ^ 56)).profiles.find? (fun e => decide (e.id = id)) = some e →
     let now := s.clk.pk / 4
     let old := { e with complete := false, end_ := 0, counts := if e.cycle = now then e.before else e.counts }
     (e.doneAt ≠ some now → exec (.profileRead c id) s = .next (finish c .ok (profileBytes e) 0 0 (beginCmd c 0x720 s))) ∧
     (e.doneAt = some now → exec (.profileRead c id) s = .next (finish c .ok (profileBytes old) 0 0 (beginCmd c 0x720 s))))



/-! ### Flow state -/

/-- R168: the flow commands on a flow that is here, belongs to the caller and is leased to no one. FLOW_READ replies with
its context, its hot form merged in, and changes nothing; FLOW_WRITE changes the masked fields of that context and no other
context; FLOW_DELETE clears it as expiry does, with its hot form, its pending carries and its hold. An absent flow reads as
zeros, and deleting it is no error.
SKETCH_READ replies with the saturated sums of the two dies' counters, 1,020 at most, and HEAVY_READ with the
partition's heavy hitters from a rank on in descending count, 127 at most; neither changes a counter (02 R57, 05 R180,
R181). -/
def Obligations.FlowAndSketchCommands : Prop :=
  (∀ (c : CmdCtx) (sel : FlowSel) (k : Nat) (s : State), PathEmpty s → Fresh c s → selCheck c sel = none →
     (selectFlow s sel = .at_ k → (s.ctx k).part = c.part → s.leaseOf k = none →
       (Ready 0x200 s → exec (.flowRead c sel) s
         = .next (finish c .ok (ctxBytes (s.merged k)) s.now 0 (begun c 0x200 s))) ∧
       (∀ mask vals, Ready 0x201 s → flowMaskOk mask = true → (maskedValues mask vals).all flowValueOk = true →
         ∃ u, exec (.flowWrite c sel mask vals) s = .next (finish c .ok [] s.now 0 u) ∧
           u.ctx k = (maskedValues mask vals).foldl writeMasked (s.ctx k) ∧ (∀ j, j ≠ k → u.ctx j = s.ctx j) ∧
           (mask = 1 → ∀ v, vals = [v] → u.ctx k = { s.ctx k with noExpire := v.getLsbD 2 }) ∧
           (∀ h, s.hotOf k = some h → ∃ g, u.hotOf k = some g ∧ g.hold = h.hold ∧ g.slice = h.slice ∧ g.way = h.way) ∧
           u = { begun c 0x201 s with flow := u.flow }) ∧
       (Ready 0x202 s → ∃ u, exec (.flowDelete c sel) s = .next (finish c .ok [] s.now 0 u) ∧
         (u.ctx k).valid = false ∧ (u.ctx k).gen = (s.ctx k).gen ∧ u.hotOf k = none ∧ u.holdOf k = none ∧
         pendingCarries u k 0 = 0 ∧ (∀ j, j ≠ k → u.ctx j = s.ctx j ∧ u.hotOf j = s.hotOf j) ∧
         u = { begun c 0x202 s with flow := u.flow })) ∧
     (selectFlow s sel = .absent →
       (Ready 0x200 s → exec (.flowRead c sel) s = .next (finish c .ok (zeros 256) s.now 0 (begun c 0x200 s))) ∧
       (Ready 0x202 s → exec (.flowDelete c sel) s = .next (finish c .ok [] s.now 0 (begun c 0x202 s))))) ∧
  ((∀ (c : CmdCtx) (k r start count : Nat) (s : State), Ready 0x210 s → PathEmpty s → Fresh c s →
     sketchReadCheck c k r start count none s = none →
     exec (.sketchRead c k r start count none) s = .next (finish c .ok
       ((List.range (min count 1020)).flatMap (fun i => leBytes 4 (sketchCount s k r (start + i)))) s.now
       (if 1020 < count then 2 else 0) (begun c 0x210 s))) ∧
   (∀ (c : CmdCtx) (k r start count : Nat) (o : Bref) (s : State), Ready 0x210 s → PathEmpty s → Fresh c s →
     sketchReadCheck c k r start count (some o) s = none →
     let b := begun c 0x210 s
     (o.size < 4 * count → exec (.sketchRead c k r start count (some o)) s = .next (finish c .capacity [] s.now 0 b)) ∧
     (4 * count ≤ o.size → brefStatus c o 1 (4 * count) b = none → exec (.sketchRead c k r start count (some o)) s
       = .next (finish c .ok [] s.now 0
           (brefWrite c o ((List.range count).flatMap (fun i => leBytes 4 (sketchCount s k r (start + i)))) b)))) ∧
   ∀ (c : CmdCtx) (start count : Nat) (s : State), Ready 0x211 s → PathEmpty s → Fresh c s → count ≠ 0 →
     let l := ((heavyOrder s c.part).drop start).take count
     exec (.heavyRead c start count) s = .next (finish c .ok ((l.take 127).flatMap heavyBytes) s.now
       (if 127 < l.length then 2 else 0) (begun c 0x211 s)))


/-- The bucket commands (05 R169 to R171, 11 R355): BUCKET_READ lists pipelines; BUCKET_MOVE pins a bucket and starts its
move, unpins it with pipeline 0xff, and is BUSY while the bucket moves; FLOW_HOME_SET starts one move a bucket, each with
the new home, and with a count of 0 of every bucket. None of them changes where a bucket is now.
A bucket's move (05 R170 to R172): it is drained once its old pipeline holds none of the bucket's packets; then its end
sends the bucket to its destination and changes its home, and no other bucket's pipeline; one that took too long leaves the
bucket where it was and counts PLACE_ABORT. A placement period's end clears the loads and only adds moves. -/
def Obligations.BucketsMove : Prop :=
  ((∀ (c : CmdCtx) (start count : Nat) (s : State), Ready 0x220 s → c.part = 0 → count ≠ 0 → start + count ≤ 65536 →
     exec (.bucketRead c start count) s = .next (finish c .ok
       ((List.range (min count 4080)).map (fun i => BitVec.ofNat 8 (s.pipeOf (start + i)))) s.now
       (if 4080 < count then 2 else 0) (beginCmd c 0x220 s))) ∧
   (∀ (c : CmdCtx) (b k : Nat) (s : State), Ready 0x221 s → c.part = 0 → k ≤ 15 → b ≤ 65535 → s.isFenced (pipeUnit k) = false →
     (∀ m ∈ s.flow.moves, m.bucket < 65536) →
     (s.bucketMoving b = false → ∃ u m, exec (.bucketMove c b k) s = .next u ∧ b ∈ u.flow.pinned ∧
       u.flow.moves = s.flow.moves ++ [m] ∧ m.bucket = b ∧ m.from_ = s.pipeOf b ∧ m.dst = k ∧ m.ctx = some c ∧
       m.drained = false ∧ m.home = none ∧ m.pin = some (s.flow.pinned.contains b) ∧ (∀ j, u.pipeOf j = s.pipeOf j) ∧
       u.flow.ctxs = s.flow.ctxs ∧ u = { drainEnds c (beginCmd c 0x221 s) with flow := u.flow }) ∧
     (s.bucketMoving b = true → c.waitDrain = false →
       exec (.bucketMove c b k) s = .next (finish c .busy [] 0 0 (beginCmd c 0x221 s)))) ∧
   (∀ (c : CmdCtx) (b : Nat) (s : State), Ready 0x221 s → c.part = 0 →
     ∃ u, exec (.bucketMove c b 0xff) s = .next (finish c .ok (leBytes 8 s.now.toNat) s.now 0 u) ∧ b ∉ u.flow.pinned ∧
       (∀ j, j ≠ b → (j ∈ u.flow.pinned ↔ j ∈ s.flow.pinned)) ∧ u.flow.moves = s.flow.moves) ∧
   ∀ (c : CmdCtx) (first count home : Nat) (s : State), Ready 0x520 s → c.part = 0 →
     let n := if count = 0 then 65536 else count
     first + n ≤ 65536 →
     ∃ u, exec (.flowHomeSet c first count home) s = .next u ∧ u.flow.moves.take s.flow.moves.length = s.flow.moves ∧
       (u.flow.moves.drop s.flow.moves.length).map (fun m => (m.bucket, m.home, m.ctx, m.drained))
         = (List.range n).map (fun i => (first + i, some home, some c, false)) ∧
       u.flow.home = s.flow.home ∧ u = { beginCmd c 0x520 s with flow := u.flow }) ∧
  ((∀ (b : Nat) (m : Move) (s : State), s.sys.mode = .running → s.moveOf b = some m →
     (m.drained = false → moveLate s m = false → bucketDrained s m = true →
       ∃ t, exec (.bucketMoveDrained b) s = .next t ∧ t.moveOf b = some { m with drained := true } ∧
         (∀ j, j ≠ b → t.moveOf j = s.moveOf j) ∧ (∀ j, t.pipeOf j = s.pipeOf j) ∧ t = { s with flow := t.flow }) ∧
     (m.drained = true → moveLate s m = false → b < 65536 → m.dst < 16 →
       ∃ t, exec (.bucketMoveDone b) s = .next t ∧ t.pipeOf b = m.dst ∧ (∀ j, j ≠ b → t.pipeOf j = s.pipeOf j) ∧
         t.flow.moves.length + 1 = s.flow.moves.length ∧ (∀ h, m.home = some h → smFind t.flow.home b = some h) ∧
         (m.home = none → t.flow.home = s.flow.home) ∧ t.fields = s.fields ∧ t.tabs = s.tabs) ∧
     (moveLate s m = true → ∃ t, exec (.bucketMoveAbandon b) s = .next t ∧ t.pipeOf b = m.from_ ∧
       (∀ j, j ≠ b → t.pipeOf j = s.pipeOf j) ∧ t.flow.moves.length + 1 = s.flow.moves.length ∧
       t.flow.home = s.flow.home ∧
       (m.ctx = none → s.intake.pkts = [] →
         t.cntAt (Ctr.module_ .placeAbort).key = s.cntAt (Ctr.module_ .placeAbort).key + 1))) ∧
   ∀ s : State, s.sys.mode = .running →
     let stop := s.flow.placeAt.toNat + s.fval .placePeriod * 1000
     (s.now.toNat < stop → exec .placementPeriod s = .next s) ∧
     (stop ≤ s.now.toNat → ∃ t, exec .placementPeriod s = .next t ∧ t.flow.load = [] ∧ t.flow.bload = [] ∧
       t.flow.placeAt.toNat = stop % 2 ^ 64 ∧ t.flow.moves.take s.flow.moves.length = s.flow.moves ∧
       (∀ j, t.pipeOf j = s.pipeOf j) ∧ t = { s with flow := t.flow }))


/-- R166: while a flow is hot, a carry on its way to the context is no part of what software sees: the agent's applying it
changes neither the packet count nor the byte count of any hot flow, and takes exactly one carry off the queue. -/
def Obligations.CarriesAreInvisible : Prop :=
  ∀ (stack : Nat) (s : State) (c : Carry), s.sys.mode = .running →
    s.flow.carries.find? (fun x => decide (stackOfIdx x.index = stack)) = some c →
    ∃ t, exec (.lowPartCarry stack) s = .next t ∧ t.ctx c.index = applyCarry c.field 1 (s.ctx c.index) ∧
      (∀ j, j ≠ c.index → t.ctx j = s.ctx j) ∧ t.flow.carries.length + 1 = s.flow.carries.length ∧
      (∀ i, (s.hotOf i).isSome = true →
        (t.merged i).pkts = (s.merged i).pkts ∧ (t.merged i).bytes = (s.merged i).bytes) ∧
      t = { s with flow := t.flow, fab := t.fab, obs := t.obs }

/-- The hot cache and holds (05 R164, R167, R177): a form without HOLD that has not been hit for 2^31 ns is written back to
its context; a hold whose time is over closes, and its packets enter stage 6 as late ones. -/
def Obligations.EvictionAndHolds : Prop :=
  (∀ (sl st w : Nat) (h : HotForm) (s : State), s.sys.mode = .running →
    s.flow.hots.find? (fun h => decide (h.slice = sl ∧ h.set = st ∧ h.way = w)) = some h → h.index < 2 ^ 24 →
    (h.hold = true ∨ hotAge s h < 2 ^ 31 → exec (.hotCacheIdleEvict sl st w) s = .next s) ∧
    (h.hold = false → 2 ^ 31 ≤ hotAge s h → ∃ t, exec (.hotCacheIdleEvict sl st w) s = .next t ∧
      t.hotOf h.index = none ∧ (t.ctx h.index).hot = false ∧
      (t.ctx h.index).pkts = (mergeHot s (s.ctx h.index) h).pkts ∧
      (t.ctx h.index).bytes = (mergeHot s (s.ctx h.index) h).bytes ∧
      (∀ j, j ≠ h.index → t.ctx j = s.ctx j ∧ t.hotOf j = s.hotOf j) ∧ t = { s with flow := t.flow, obs := t.obs })) ∧
  ∀ (i : Nat) (h : Hold) (s : State), s.sys.mode = .running → s.holdOf i = some h →
    (h.count = 0 ∨ s.now.toNat < h.since.toNat + h.time * 1000 → exec (.holdTimeout i) s = .next s) ∧
    (0 < h.count → h.since.toNat + h.time * 1000 ≤ s.now.toNat → ∃ t, exec (.holdTimeout i) s = .next t ∧
      t.holdOf i = none ∧ (∀ j, j ≠ i → t.holdOf j = s.holdOf j) ∧
      t.intake.pkts = s.intake.pkts.map (fun k =>
        if k.place = .flowHold i then { k with place := .merge, close := .late } else k) ∧
      t.flow.ctxs = s.flow.ctxs ∧ t = { s with flow := t.flow, intake := t.intake, progress := t.progress })

/-- The flow agent and the fill (05 R160, R161, R165): the agent of a stack creates the context of a new flow in a free way
of its sets while its partition's quota has room, and otherwise leaves the packet untracked; a fill makes the found context
hot and lets the packets that waited for it enter stage 4. -/
def Obligations.FlowsAreCreatedAndFilled : Prop :=
  (∀ (stack : Nat) (r : FetchReq) (s : State), s.sys.mode = .running →
    s.flow.reqs.find? (fun r => r.waiting && (!r.remote || cutOff s r) && decide (setA r.fh % 6 = stack)) = some r →
    s.homeOf (bucketOf r.fh) = none → findFlow s r.fh = none →
    (∀ i, freeWay s r.fh = some i → r.firstPass = true → flowCount s r.part < s.fval .flowQuota r.part →
      ∃ t, exec (.flowAgentFetch stack) s = .next t ∧ t.ctx i = newCtx s i r ∧ (t.ctx i).fh = r.fh ∧
        (t.ctx i).valid = true ∧ (t.ctx i).gen = (s.ctx i).gen + 1 ∧ (t.ctx i).pkts = 0 ∧
        (∀ j, j ≠ i → t.ctx j = s.ctx j) ∧ t = { s with flow := t.flow }) ∧
    (freeWay s r.fh = none ∨ r.firstPass = false ∨ s.fval .flowQuota r.part ≤ flowCount s r.part →
      ∃ t, exec (.flowAgentFetch stack) s = .next t ∧ t.flow.ctxs = s.flow.ctxs ∧
        (∃ x ∈ t.flow.reqs, x.waiting = false ∧ x.found = none ∧ x.pkt = r.pkt ∧ x.fh = r.fh) ∧
        t = { s with flow := t.flow })) ∧
  ∀ (p i : Nat) (r : FetchReq) (s : State), s.sys.mode = .running →
    s.flow.reqs.find? (fun r => decide (r.pipe = p) && !r.waiting) = some r → r.found = some i → s.hotOf i = none →
    hotWays s p (hotSet (s.ctx i).fh) = [] →
    ∃ t h, exec (.hotCacheFill p) s = .next t ∧ t.hotOf i = some h ∧ h.slice = p ∧ h.way = 0 ∧ h.fh = (s.ctx i).fh ∧
      t.ctx i = { s.ctx i with hot := true } ∧ (∀ j, j ≠ i → t.ctx j = s.ctx j) ∧
      t.flow.reqs.length + 1 = s.flow.reqs.length ∧
      (∀ k ∈ t.intake.pkts, k.pipe = p → k.fh = r.fh → k.place ≠ .miss) ∧
      t = { s with flow := t.flow, intake := t.intake, obs := t.obs, progress := t.progress }

/-- Stage 4 and the sweeper (05 R161, R163, R165, R178, R179): while the miss buffer is full stage 4 passes no packet; else an
untracked packet passes with UNTRACKED in its flow words and is counted, and a first-pass packet of a hot flow adds one to the
flow's packets and its length to its bytes, and goes on. The sweeper visits an index once in a walk of FLOW_SWEEP; there a flow
idle for longer than its limit, not hot and not on its way to be, and with no timer set, expires and is counted. -/
def Obligations.FlowStageAndSweep : Prop :=
  (∀ (p : Nat) (k : Packet) (s : State), s.sys.mode = .running → s.oldestAt p .flow = some k →
    behindMark s k.id = false → s.findPkt k.id = some k →
    (missFull s k.pipe = true → exec (.flowStage p) s = .next s) ∧
    (missFull s k.pipe = false → k.pass = 1 → k.fv s .flowEn = 0 → (∀ j ≤ 3, s.fval .sketchEn j = 0) → ∃ t, exec (.flowStage p) s = .next t ∧
      t.findPkt k.id = some { k with track := 1, flowIdx := none, fw := [0, 0, 0, 0, 0, 0, 0, 1], place := .wicker } ∧
      t.cntAt (Ctr.ev k.part .flowUntracked).key = s.cntAt (Ctr.ev k.part .flowUntracked).key + 1 ∧
      t.flow = s.flow ∧ t = { s with intake := t.intake, obs := t.obs, progress := t.progress }) ∧
    (∀ h, missFull s k.pipe = false → k.pass = 1 → k.fv s .flowEn ≠ 0 → k.frame.length < 2 ^ 32 → k.track ≠ 1 → s.hotIn k.pipe k.fh = some h → s.hotOf h.index = some h →
      ∃ t k', exec (.flowStage p) s = .next t ∧ t.findPkt k.id = some k' ∧ k'.place = .wicker ∧ k'.track = 3 ∧
        k'.flowIdx = some h.index ∧ k'.frame = k.frame ∧ k'.epoch = k.epoch ∧
        (t.merged h.index).pkts = (s.merged h.index).pkts + 1 ∧
        (t.merged h.index).bytes = (s.merged h.index).bytes + BitVec.ofNat 64 k.frame.length ∧
        t.flow.ctxs = s.flow.ctxs ∧
        t = { s with flow := t.flow, intake := t.intake, obs := t.obs, progress := t.progress })) ∧
  ∀ (i : Nat) (s : State), s.sys.mode = .running → i < 2 ^ 24 → (s.ctx i).valid = true → (s.ctx i).nextTimer = 0 →
    (∀ l ∈ s.flow.held, flowIndex l.index ≠ i) →
    let w := sweepRoll s
    (i ∈ w.flow.swept → exec (.flowSweep i) s = .next w) ∧
    (i ∉ w.flow.swept → idleFlow s (s.ctx i) = false ∨ fillPending s i = true →
      exec (.flowSweep i) s = .next { w with flow := { w.flow with swept := w.flow.swept ++ [i] } }) ∧
    (i ∉ w.flow.swept → idleFlow s (s.ctx i) = true → fillPending s i = false → ∃ t, exec (.flowSweep i) s = .next t ∧ (t.ctx i).valid = false ∧
      (t.ctx i).gen = (s.ctx i).gen ∧ (∀ j, j ≠ i → t.ctx j = s.ctx j) ∧ t.holdOf i = none ∧
      t.cntAt (Ctr.ev (s.ctx i).part .flowExpired).key = s.cntAt (Ctr.ev (s.ctx i).part .flowExpired).key + 1 ∧
      t.flow.swept = w.flow.swept ++ [i] ∧
      t = { s with flow := t.flow, intake := t.intake, obs := t.obs, progress := t.progress })

/-- The messages of flow homes at the home node (11 R356 to R358): a fetch leases the flow's context to the fetching node and
marks it HOT; the holder's write-back ends the lease and is applied; a carry is applied; a verdict for a flow that is gone
is counted as stale and writes no context.
The messages of flow homes at the node that holds a lease (11 R356 to R358): a grant that a request waits for is kept and
answers it; a verdict byte reaches the context; a recalled flow that may go back does, with its context and hot form gone
from this node; one that may not is marked. -/
def Obligations.FlowsAcrossNodes : Prop :=
  (∀ (m : Msg) (s : State), s.sys.mode = .running → s.fab.joined = true →
     (∀ i, findFlow s (dw (uAt m.body 0 8)) = some i → s.leaseOf i = none → s.hotOf i = none → (s.ctx i).poison = false →
       ∃ t l, exec (.flowFetch m) s = .next t ∧ t.leaseOf i = some l ∧ l.holder = m.src ∧ l.since = s.now ∧
         l.recalled = false ∧ t.ctx i = { s.ctx i with hot := true } ∧ (∀ j, j ≠ i → t.ctx j = s.ctx j) ∧
         (∀ j, j ≠ i → t.leaseOf j = s.leaseOf j) ∧ t = { s with flow := t.flow, fab := t.fab, obs := t.obs }) ∧
     (∀ i l, findFlow s (ctxOfBytes m.body).fh = some i → s.leaseOf i = some l → l.waiting = [] →
       ∃ t, exec (.flowWriteback m) s = .next t ∧ t = { s with flow := t.flow, fab := t.fab } ∧
         (l.holder ≠ m.src → t.flow = s.flow) ∧
         (l.holder = m.src → t.leaseOf i = none ∧ t.ctx i = writtenBack (s.ctx i) (ctxOfBytes m.body) ∧
           (t.ctx i).hot = false ∧ ∀ j, j ≠ i → t.ctx j = s.ctx j ∧ t.leaseOf j = s.leaseOf j)) ∧
     (∀ i, findFlow s (dw (uAt m.body 0 8)) = some i →
       ∃ t, exec (.flowCarry m) s = .next t ∧ t.ctx i = applyCarry (uAt m.body 8 4) (uAt m.body 12 4) (s.ctx i) ∧
         (∀ j, j ≠ i → t.ctx j = s.ctx j) ∧ t = { s with flow := t.flow, fab := t.fab }) ∧
     (findFlow s (dw (uAt m.body 0 8)) = none →
       ∃ t, exec (.verdictWrite m) s = .next t ∧ t.flow = s.flow ∧
         t.cntAt (Ctr.slot (uAt m.body 13 1) .verdictStale).key = s.cntAt (Ctr.slot (uAt m.body 13 1) .verdictStale).key + 1 ∧
         t = { s with fab := t.fab, obs := t.obs }) ∧
     (∀ i, findFlow s (dw (uAt m.body 0 8)) = some i → staleVerdict s (s.ctx i) (verdictOf m i) = false →
       s.holdOf i = none → ∃ t, exec (.verdictWrite m) s = .next t ∧ (t.ctx i).vvalid = true ∧
         (t.ctx i).vkind = uAt m.body 12 1 % 8 ∧ (t.ctx i).vslot = uAt m.body 13 1 ∧ (t.ctx i).pkts = (s.ctx i).pkts ∧
         (∀ j, j ≠ i → t.ctx j = s.ctx j) ∧ t = { s with flow := t.flow, fab := t.fab, obs := t.obs })) ∧
  (∀ (m : Msg) (s : State), s.sys.mode = .running → s.fab.joined = true →
     (∀ r, s.flow.reqs.find? (answers s m) = some r → m.body ≠ [] →
       let i := leasedIdx m.src m.arg.toNat
       ∃ t, exec (.flowGrant m) s = .next t ∧ t.ctx i = { ctxOfBytes m.body with hot := false } ∧
         (∃ l ∈ t.flow.held, l.index = i ∧ l.holder = m.src ∧ l.since = s.now) ∧
         (∃ x ∈ t.flow.reqs, x.waiting = false ∧ x.found = some i) ∧ (∀ j, j ≠ i → t.ctx j = s.ctx j) ∧
         t = { s with flow := t.flow, fab := t.fab, obs := t.obs, hbm := t.hbm, darn := t.darn, epochNew := t.epochNew }) ∧
     (∀ i, heldIdx s m.src (dw (uAt m.body 0 8)) = some i →
       (∃ t, exec (.vbyteUpdate m) s = .next t ∧ (t.ctx i).vkind = uAt m.body 8 1 % 8 ∧
         (t.ctx i).vvalid = (uAt m.body 8 1).testBit 3 ∧ (t.ctx i).vinvalid = (uAt m.body 8 1).testBit 4 ∧
         (t.ctx i).pkts = (s.ctx i).pkts ∧ (∀ j, j ≠ i → t.ctx j = s.ctx j) ∧
         t = { s with flow := t.flow, fab := t.fab, intake := t.intake, progress := t.progress }) ∧
       ∃ t, exec (.flowRecall m) s = .next t ∧
         (∀ l, t.flow.held.find? (fun l => decide (l.index = i)) = some l → l.recalled = true) ∧
         t = { s with flow := t.flow, fab := t.fab, obs := t.obs }) ∧
     ∀ i l, s.flow.held.find? (fun l => decide (l.index = i)) = some l → 2 ^ 24 ≤ i →
       (mayReturn s l = false → exec (.recallEvict i) s = .next s) ∧
       (mayReturn s l = true → ∃ t, exec (.recallEvict i) s = .next t ∧
         t.flow.held.find? (fun l => decide (l.index = i)) = none ∧ smFind t.flow.ctxs i = none ∧ t.hotOf i = none ∧
         (∀ j, j ≠ i → t.ctx j = s.ctx j) ∧ t = { s with flow := t.flow, fab := t.fab, obs := t.obs }))



/-! ### The packet path -/

/-- A frame arrives at a port that has its link (03 R82, R88, 05 R157, R169, 09 R291): it is counted; a disabled port drops
it, and an enabled one drops a runt, one whose FCS is wrong, one that is too long and one that its intake FIFO has no room for;
a good frame of an open port without MACsec, that is no MAC control, in-band or fragment frame and whose bucket does not move,
enters REED of its bucket's pipeline behind every packet there where the FIFOs have room, pinned to the newest epoch of the
port's owner.
A fragment entry (03 R113, R115): when its early arrivals have waited for FRAG_HOLD_TIME they all leave the hold, and
the entry waits anew; an entry that is due is freed, and one that is not stays. -/
def Obligations.FramesAndFragments : Prop :=
  (∀ (p : Nat) (f : Bytes) (s : State), s.obs.stop = none →
     (s.portLink p = false → exec (.frameReceive p f false) s = .next s) ∧
     (s.portLink p = true → ∃ t, exec (.frameReceive p f false) s = .next t ∧
       let counted := t.cntAt (Ctr.port p .rxPkts).key = s.cntAt (Ctr.port p .rxPkts).key + 1 ∧
         t.cntAt (Ctr.port p .rxBytes).key = s.cntAt (Ctr.port p .rxBytes).key + BitVec.ofNat 64 f.length
       (intakeOff s p = true → counted ∧ t = { s with obs := t.obs } ∧
         t.cntAt (Ctr.port p .rxDisabled).key = s.cntAt (Ctr.port p .rxDisabled).key + 1) ∧
       (intakeOff s p = false → f.length < 64 → counted ∧ t = { s with obs := t.obs } ∧
         t.cntAt (Ctr.port p .rxRunt).key = s.cntAt (Ctr.port p .rxRunt).key + 1) ∧
       (intakeOff s p = false → 64 ≤ f.length → badFcs f false = true → counted ∧ t = { s with obs := t.obs } ∧
         t.cntAt (Ctr.port p .rxFcs).key = s.cntAt (Ctr.port p .rxFcs).key + 1) ∧
       (intakeOff s p = false → 64 ≤ f.length → badFcs f false = false → s.fact .portMaxFrame p < countedLen s p f → counted ∧
         t = { s with obs := t.obs } ∧ t.cntAt (Ctr.port p .rxOversize).key = s.cntAt (Ctr.port p .rxOversize).key + 1) ∧
       (intakeOff s p = false → 64 ≤ f.length → badFcs f false = false → countedLen s p f ≤ s.fact .portMaxFrame p →
         s.intakeTakes p f.length = false → counted ∧ t = { s with obs := t.obs } ∧
         t.cntAt (Ctr.port p .rxOverrun).key = s.cntAt (Ctr.port p .rxOverrun).key + 1) ∧
       let o := s.portOwner p
       let g := s.graph ((s.curEpoch o).fval .portGraph p)
       let w := walk g f (fun x => !x.first) []
       let fh := flowHash (flowKeyOf o g w.keys)
       (intakeOff s p = false → 64 ≤ f.length → badFcs f false = false → countedLen s p f ≤ s.fact .portMaxFrame p →
         s.intakeTakes p f.length = true → (∀ x ∈ s.intake.pkts, x.port = p → x.place ≠ .intake) →
         s.reedBytes (s.pipeOf (bucketOf fh)) + f.length < 2 * s.impl.reedBank → s.fact .portMacsec p = 0 → etherType f ≠ 0x8808 →
         (etherType f ≠ 0x88b5 ∨ s.fval .portInbandEn p ≠ 1) → w.frag = none → s.bucketMoving (bucketOf fh) = false →
         (∀ x ∈ s.intake.pkts, x.id < s.intake.nextPkt) →
         ∃ k, counted ∧ t.intake.pkts = s.intake.pkts ++ [k] ∧ k.id = s.intake.nextPkt ∧ t.intake.nextPkt = s.intake.nextPkt + 1 ∧
           k.place = .reed ∧ k.frame = f ∧ k.port = p ∧ k.part = o ∧ k.epoch = (s.curEpoch o).num ∧ k.intake = s.now ∧
           k.fh = fh ∧ k.bucket = bucketOf fh ∧ k.pipe = s.pipeOf (bucketOf fh) ∧ k.pass = 1 ∧
           t.eps o = (s.eps o).map (fun e => if e.num = k.epoch then { e with refs := e.refs + 1 } else e) ∧
           t = { s with
             intake := t.intake, flow := t.flow, epochs := t.epochs, obs := t.obs, progress := t.progress }))) ∧
  (∀ (i : Nat) (e : FragEntry) (s : State), s.sys.mode = .running → smFind s.intake.frags i = some e →
     (∀ t0, e.holdAt = some t0 → e.first = false →
       (s.now.toNat < t0.toNat + s.fval .fragHoldTime * 1000 → exec (.fragHoldExpire i) s = .next s) ∧
       (t0.toNat + s.fval .fragHoldTime * 1000 ≤ s.now.toNat → ∃ t e', exec (.fragHoldExpire i) s = .next t ∧
         (∀ k ∈ t.intake.pkts, k.place ≠ .fragHold i) ∧ smFind t.intake.frags i = some e' ∧ e'.holdAt = none ∧
         e'.key = e.key ∧ (∀ j, j ≠ i → smFind t.intake.frags j = smFind s.intake.frags j) ∧ t.fields = s.fields ∧
         t.tabs = s.tabs ∧ t.egr = s.egr)) ∧
     (fragDue s e = false → exec (.fragEntryFree i) s = .next s) ∧
     (fragDue s e = true → ∃ t, exec (.fragEntryFree i) s = .next t ∧ smFind t.intake.frags i = none ∧
       (∀ j, j ≠ i → smFind t.intake.frags j = smFind s.intake.frags j) ∧ (∀ k ∈ t.intake.pkts, k.place ≠ .fragHold i) ∧
       t.fields = s.fields ∧ t.tabs = s.tabs ∧ t.egr = s.egr))


/-- REED, the pattern engine and stage 3 each take the oldest packet that stands at them, with none waiting in an intake FIFO,
and pass it on: the parse record is
that of the packet's walk; the scan counts every match; a packet whose epoch asks for no lookup takes CONTINUE, and one with
a sound exact match alone takes that entry's action (03 R89, R105, R106, 04 R121, R123, R125). -/
def Obligations.StagesOneToThree : Prop :=
  ∀ (p : Nat) (k : Packet) (s : State), s.sys.mode = .running → behindMark s k.id = false → s.findPkt k.id = some k →
    (s.oldestAt p .reed = some k → (∀ x ∈ s.pkts, x.place ≠ .intake) → ∃ t, exec (.parse p) s = .next t ∧
      t.findPkt k.id = some { parsePacket k s with place := .scan } ∧ (parsePacket k s).frame = k.frame ∧
      (parsePacket k s).epoch = k.epoch ∧ t.intake.nextPkt = s.intake.nextPkt ∧
      t = { s with intake := t.intake, obs := t.obs, progress := t.progress }) ∧
    (s.oldestAt p .scan = some k → ∃ t k', exec (.patternScan p) s = .next t ∧ t.findPkt k.id = some k' ∧
      k'.place = .lookup ∧ k'.frame = k.frame ∧ k'.epoch = k.epoch ∧ k'.outcome = k.outcome ∧
      k'.nMatch = (scanFrom (k.ep s).patterns k.scan 0 (slice k.frame k.payload k.scan)).length ∧
      k'.matches_.length = min 8 k'.nMatch ∧ ((k.ep s).patterns = [] → k'.groups = 0) ∧
      k'.words.take 16 = recordHead k' ∧ t = { s with intake := t.intake, progress := t.progress }) ∧
    (s.oldestAt p .lookup = some k → lpmFamily k s = none → k.fv s .lkRuleWords = 0 → learnCandidate k s = false →
      (k.fv s .lkEmWords = 0 → ∃ t k', exec (.lookup p) s = .next t ∧ t.findPkt k.id = some k' ∧ k'.place = .flow ∧
        k'.rule = {} ∧ (k.pass = 1 → k'.learn = none) ∧ k'.frame = k.frame ∧
        t = { s with intake := t.intake, progress := t.progress }) ∧
      ∀ e ∈ s.tabs.entries, k.fv s .lkEmWords ≠ 0 → e.poison = false →
        s.tfind 1 k.part (wordKey k.words (k.fv s .lkEmWords) 16 32) (k.bank s 1) = some e →
        ∃ t k', exec (.lookup p) s = .next t ∧ t.findPkt k.id = some k' ∧ k'.place = .flow ∧
          k'.rule.kind = (actionOf e.action).kind ∧ k'.rule.cookie = (actionOf e.action).cookie ∧
          k'.rule.mirrorSet = (actionOf e.action).mirrorSet ∧ k'.frame = k.frame ∧
          t.tabs.entries.length = s.tabs.entries.length ∧ (∃ x ∈ t.tabs.entries, x.key = e.key ∧ x.hit = true) ∧
          t = { s with intake := t.intake, tabs := t.tabs, progress := t.progress })

/-- Learning and aging of EXACT entries (04 R140, R143, R144): a request for a key that nothing holds and no relocation moves
puts in, where there is room, an ageable learned entry that forwards to its port; a host-written entry is left alone. The
sweeper's due visit marks an AGEABLE entry whose HIT is clear, and the end of the cycle removes and counts it; it clears HIT
where it was set before this cycle, and leaves it where a lookup set it in this cycle. -/
def Obligations.LearningAndAging : Prop :=
  (∀ (die : Nat) (r : LearnReq) (q : List LearnReq) (s : State), s.sys.mode = .running →
    smGet [] s.tabs.learnQ die = r :: q →
    let s1 := { s with tabs := { s.tabs with learnQ := smSet s.tabs.learnQ die q } }
    let n : TEntry := { table := 1, part := r.part, key := r.key, action := learnedAction r.port, ageable := true,
                        learned := true }
    s.relocating 1 r.part r.key = false →
    (∀ v w, s.tfind 1 r.part r.key (s.activeBank r.part 1) = none → putEntry n (s.ownBanks r.part 1) s1 = (some v, w) →
      r.port < 32 → ∃ t e, exec (.learnApply die) s = .next t ∧
        t.tfind 1 r.part r.key (s.activeBank r.part 1) = some e ∧ e.learned = true ∧ e.ageable = true ∧
        (actionOf e.action).kind = 2 ∧ (actionOf e.action).port = r.port ∧ smGet [] t.tabs.learnQ die = q ∧
        t = { s with tabs := t.tabs, free := t.free }) ∧
    (∀ e, s.tfind 1 r.part r.key (s.activeBank r.part 1) = some e → e.learned = false →
      exec (.learnApply die) s = .next s1)) ∧
  (∀ (part slot : Nat) (e : TEntry) (s : State), s.sys.mode = .running → s.fval .agePeriod part ≠ 0 →
    let p := s.fval .agePeriod part
    let r := rollAge part p s
    let ph := agePhase r part p
    let start : DWord := BitVec.ofNat 64 ph.1
    (r.tbank 1 part (r.activeBank part 1)).find? (fun e => decide (e.slot = slot) && visitDue r ph.1 ph.2 e) = some e →
    ∃ t x, exec (.ageSweepVisit part slot) s = .next t ∧ x ∈ t.tabs.entries ∧
      t.tabs.entries.length = s.tabs.entries.length ∧
      (e.hit = false → x = { e with hitAt := none, leaving := e.ageable, seen := some start }) ∧
      (e.hit = true → e.hitAt ≠ some s.clk.pk → x = { e with hit := false, hitAt := none, leaving := false, seen := some start }) ∧
      (e.hit = true → e.hitAt = some s.clk.pk → x = { e with seen := some start }) ∧ t = { s with tabs := t.tabs }) ∧
  ∀ (e : TEntry) (s : State), s.tabs.entries.filter (·.leaving) = [e] →
    let t := dropAged s
    t.tfind 1 e.part e.key (s.activeBank e.part 1) = none ∧
      t.cntAt (Ctr.ev e.part .emAged).key = s.cntAt (Ctr.ev e.part .emAged).key + 1 ∧
      (∀ x q y b, (x ≠ 1 ∨ q ≠ e.part ∨ y ≠ e.key) → t.tfind x q y b = s.tfind x q y b) ∧
      t = { s with tabs := t.tabs, obs := t.obs }

/-- Stage 5 without escalations or events (06 R196, R199, R200): a packet whose epoch names no ensemble passes with no
result; one whose epoch names one ensemble takes that ensemble's class, score and KIND; either goes on to stage 6 where no
hold of its flow is open.
Stage 6 (10 R305, R306): the merged kind is the rule's where MERGE_CFG makes a rule final, and else the stricter of the
rule's and the models'; a rule's DROP stands whatever the models say, and a model's DROP unless the rule is final. -/
def Obligations.StagesFiveAndSix : Prop :=
  (∀ (p : Nat) (k : Packet) (s : State), s.sys.mode = .running → behindMark s k.id = false → s.findPkt k.id = some k →
     s.oldestAt p .wicker = some k → k.evs = [] → (∀ i, k.flowIdx = some i → s.holdOf i = none) →
     ((k.ep s).wkSlots = [] → ∃ t, exec (.wickerEval p) s = .next t ∧
       t.findPkt k.id = some { k with wk := [], place := .merge } ∧
       t = { s with intake := t.intake, progress := t.progress }) ∧
     ∀ n e, (k.ep s).wkSlots = [n] → (s.slot n).ens = some e → e.escEn = false →
       let r := evaluate e (k.feats.take 64 ++ k.fw) (min e.budget (k.fv s .wkBudget))
       let d := decideClass r.sums e.nOut (s.slot n).thr.theta e.outShift
       let bad := r.poison || (r.nan && e.nanTrap)
       ∃ t, exec (.wickerEval p) s = .next t ∧
         t.findPkt k.id = some { k with
           wk := [⟨n, !bad, bad, r.cut, classKind e.classAct d.1, d.1, d.2⟩], place := .merge } ∧
         (s.slot n).ens = (t.slot n).ens ∧ (∀ m, m ≠ n → t.slot m = s.slot m) ∧
         (t.slot n).thr.n = (s.slot n).thr.n + (if k.pass = 1 ∧ e.nOut = 1 ∧ bad = false then 1 else 0) ∧
         t.flow = s.flow ∧ t = { s with intake := t.intake, slots := t.slots, obs := t.obs, progress := t.progress }) ∧
  (∀ (p : Nat) (k : Packet) (s : State), s.sys.mode = .running → behindMark s k.id = false → s.findPkt k.id = some k →
     s.oldestAt p .merge = some k → k.rule.kind ≤ 4 →
     let final := (k.fv s .mergeCfg).testBit 0 && decide (k.rule.kind ≠ 0)
     ∃ t k', exec (.verdictMerge p) s = .next t ∧ t.findPkt k.id = some k' ∧ k'.place = .action ∧
       k'.merged = { k.rule with kind := k'.merged.kind } ∧ k'.frame = k.frame ∧ k'.rule = k.rule ∧
       (k.outcome = 0 → final = true → k'.merged.kind = k.rule.kind) ∧
       (k.outcome = 0 → final = false → k'.merged.kind = stricter k.rule.kind (modelKind k s)) ∧
       (k.outcome = 0 → k.rule.kind = 1 → k'.merged.kind = 1) ∧
       (k.outcome = 0 → final = false → modelKind k s = 1 → k'.merged.kind = 1) ∧
       (k.outcome ≠ 0 → k.outAct = 1 → k'.merged.kind = 1) ∧
       t = { s with intake := t.intake, progress := t.progress })


/-- Stage 7 and the host FIFOs (10 R307 to R315, 09 R294): a packet on its last pass that drops is counted under its reason
and leaves no copy; one that forwards to an enabled port of its partition leaves one copy for that port's queue; either
leaves the packet path and releases its epoch. The oldest host copy is written where its ring has space, and WRITE passes it. -/
def Obligations.StageSevenAndHostCopies : Prop :=
  (∀ (p : Nat) (k : Packet) (s : State), s.sys.mode = .running → nextAction p s = some k → k.entryBad = false →
    recirculates k s = false → mustWait k s = false → k.merged.mirrorSet = false → k.learn = none → k.fragEntry = none →
    (k.merged.kind = 1 → ∃ t, exec (.packetAction p) s = .next t ∧ t.findPkt k.id = none ∧ t.egr = s.egr ∧
      t.cntAt (Ctr.drop k.part (dropReason k)).key = s.cntAt (Ctr.drop k.part (dropReason k)).key + 1 ∧
      t.eps k.part = (s.eps k.part).map (fun e => if e.num = k.epoch then { e with refs := e.refs - 1 } else e) ∧
      (∀ j, j ≠ k.id → t.findPkt j = s.findPkt j) ∧
      t = { s with intake := t.intake, epochs := t.epochs, obs := t.obs, progress := t.progress }) ∧
    (k.merged.kind = 2 → destination k s = none → ∃ t c, exec (.packetAction p) s = .next t ∧ t.findPkt k.id = none ∧
      t.egr.copies = s.egr.copies ++ [c] ∧ c.port = k.merged.port ∧ c.frame = k.frame ∧ c.part = k.part ∧
      c.mirror = false ∧
      c.queue = k.merged.port * 128 + (if k.merged.queueSet then k.merged.queue else s.fval .portDefQueue k.merged.port) ∧
      c.meter = (if k.merged.meterSet then some k.merged.meter else none) ∧
      t.obs = (countBridge (dieOfPipe k.pipe) (s.engineOf k.merged.port / 2) k.frame.length s).obs ∧
      t.eps k.part = (s.eps k.part).map (fun e => if e.num = k.epoch then { e with refs := e.refs - 1 } else e) ∧
      t = { s with
        intake := t.intake, epochs := t.epochs, egr := { s.egr with copies := t.egr.copies }, flow := t.flow, obs := t.obs,
        progress := t.progress })) ∧
  ∀ (n : Nat) (x : HostCopy) (r : List HostCopy) (s : State), s.sys.mode = .running → (s.hring n).fifo = x :: r →
    (s.hring n).closing = false → x.poison = false → (s.hring n).bref.loc ≠ 1 → x.data.length ≤ hringSpace (s.hring n) →
    ∃ t, exec (.hostCopyWrite n) s = .next t ∧
      t.hring n = { s.hring n with fifo := r, write := (s.hring n).write + BitVec.ofNat 32 x.data.length } ∧
      (∀ j, j ≠ n → t.hring j = s.hring j) ∧
      t = { s with host := t.host, egr := { s.egr with hrings := t.egr.hrings }, obs := t.obs }


/-! ### Egress, gates and time -/

/-- The timers of the egress path. A refill adds 40 times its rate to every shaped node, up to its burst, and no other node
changes (10 R330). A scheduler round of a port puts written nodes of the port in force with a full bucket, and its queue and
group fields, but for a value written in the cycle of the boundary, which waits for the next (R331, 00 R11). A queue sample records every queue's depth, frames and head delay (R340). A pause that has run
out ends (R326). A pending gate list that is due takes over with GATE_EN (R335), and a cycle's start takes GATE_EN. -/
def Obligations.EgressTimers : Prop :=
  ∀ s : State, s.sys.mode = .running →
    ((s.egr.refills + 1) * 64 ≤ s.clk.pk → ∃ t, exec .shaperRefill s = .next t ∧ t.egr.refills = s.egr.refills + 1 ∧
      (∀ n, t.shaper n = (if (s.shaper n).rate = 0 then s.shaper n else { s.shaper n with
        tokens := min ((s.shaper n).tokens + (s.shaper n).rate * 40) ((s.shaper n).burst * 8000000) })) ∧
      t = { s with egr := { s.egr with refills := t.egr.refills, shapers := t.egr.shapers } }) ∧
    (∀ p, p < 32 → (smGet 0 s.egr.rounds p + 1) * 1024 ≤ s.clk.pk → ∃ t, exec (.portSchedulerRound p) s = .next t ∧
      smGet 0 t.egr.rounds p = smGet 0 s.egr.rounds p + 1 ∧
      (∀ n r b, nodePort n = p → (s.shaper n).pend = some (r, b) →
        t.shaper n = { rate := r, burst := b, tokens := (b * 8000000 : Nat), pend := none }) ∧
      (∀ n, nodePort n ≠ p ∨ (s.shaper n).pend = none → t.shaper n = s.shaper n) ∧
      (∀ q, q < 128 → t.fact .qCfg (p * 128 + q) = s.fvalBefore .qCfg (p * 128 + q)) ∧
      (∀ g, g < 16 → t.fact .grpCfg (p * 16 + g) = s.fvalBefore .grpCfg (p * 16 + g)) ∧
      t.fact .portEgrOvh p = s.fvalBefore .portEgrOvh p ∧ (∀ q, q < 4096 → q / 128 ≠ p → t.fact .qCfg q = s.fact .qCfg q) ∧
      (∀ n k, smFind s.fields.last (fieldId n k) = none → s.fvalBefore n k = s.fval n k) ∧
      t = { s with egr := { s.egr with rounds := t.egr.rounds, shapers := t.egr.shapers, deficit := t.egr.deficit },
                   fields := { s.fields with act := t.fields.act } }) ∧
    (s.egr.sampleAt.toNat + s.fval .qSamplePeriod * 1000 ≤ s.now.toNat → ∃ t, exec .queueSamplePeriod s = .next t ∧
      t.egr.sampleAt = s.now ∧
      (∀ q, t.queue q = { s.queue q with sBytes := (s.queue q).depth, sPkts := (s.queue q).frames.length,
                                          sDelay := headDelay s (s.queue q) }) ∧
      t = { s with egr := { s.egr with queues := t.egr.queues, sampleAt := t.egr.sampleAt } }) ∧
    (∀ p pri t0, pri < 8 → smFind s.egr.pauseUntil (p * 8 + pri) = some t0 →
      (s.now.toNat < t0.toNat → exec (.pfcPauseEnd p pri) s = .next s) ∧
      (t0.toNat ≤ s.now.toNat → ∃ t, exec (.pfcPauseEnd p pri) s = .next t ∧
        smFind t.egr.pauseUntil (p * 8 + pri) = none ∧
        (∀ j, j ≠ p * 8 + pri → smFind t.egr.pauseUntil j = smFind s.egr.pauseUntil j) ∧
        t = { s with egr := { s.egr with pauseUntil := t.egr.pauseUntil } })) ∧
    (∀ p g, smFind s.egr.gclPend p = some g →
      (s.now.toNat < g.takeover.toNat → exec (.gclTakeover p) s = .next s) ∧
      (g.takeover.toNat ≤ s.now.toNat → ∃ t, exec (.gclTakeover p) s = .next t ∧ smFind t.egr.gcl p = some g ∧
        smFind t.egr.gclPend p = none ∧ t.fact .gateEn p = s.fvalBefore .gateEn p ∧
        (∀ j, j ≠ p → smFind t.egr.gcl j = smFind s.egr.gcl j ∧ smFind t.egr.gclPend j = smFind s.egr.gclPend j) ∧
        t = { s with egr := t.egr, obs := t.obs, fields := { s.fields with act := t.fields.act } })) ∧
    ∀ p g, smFind s.egr.gcl p = some g → g.takeover.toNat ≤ s.now.toNat →
      ((s.now.toNat - g.takeover.toNat) % g.cycle ≠ 0 → exec (.gateCycleStart p) s = .next s) ∧
      ((s.now.toNat - g.takeover.toNat) % g.cycle = 0 → ∃ t, exec (.gateCycleStart p) s = .next t ∧
        t.fact .gateEn p = s.fvalBefore .gateEn p ∧ t = { s with fields := { s.fields with act := t.fields.act } })

/-- Admission, barriers and transmission (10 R312, R323, R325, R333, 03 R84). The oldest copy for a port joins the tail of
its queue where it fits and waits for no barrier, and is dropped as QUEUE_FULL where it passes the queue's limit. The copy
that waits in a released barrier entry does the same. A port that is not sending starts the frame that its scheduler picks:
the frame leaves its queue, padded to 64 bytes, and every shaped node above it pays its shaping length. -/
def Obligations.CopiesAndFramesLeave : Prop :=
  (∀ (p : Nat) (c : Copy) (s : State), s.sys.mode = .running →
    s.egr.copies.find? (fun x => decide (x.port = p)) = some c → (∀ b ∈ s.egr.barriers, b.port ≠ p) →
    (∀ x ∈ s.egr.overflow, x.port ≠ p) → barrierOf c s = [] →
    let rest := delFirst (fun x : Copy => decide (x.port = p)) s.egr.copies
    (Fits c s → ∃ t, exec (.egressAdmission p) s = .next t ∧ t.egr.copies = rest ∧
      t.queue c.queue = { s.queue c.queue with
        items := (s.queue c.queue).items ++ [c.item s.now], banks := banksWith c s } ∧
      (∀ q, q ≠ c.queue → t.queue q = s.queue q) ∧
      t = { s with egr := { s.egr with copies := t.egr.copies, queues := t.egr.queues } }) ∧
    (c.meter = none → colourLimit s c.queue 0 < (s.queue c.queue).depth + c.frame.length →
      ∃ t, exec (.egressAdmission p) s = .next t ∧ t.egr.copies = rest ∧
        t.cntAt (Ctr.drop c.part .queueFull).key = s.cntAt (Ctr.drop c.part .queueFull).key + 1 ∧
        t = { s with egr := { s.egr with copies := t.egr.copies }, obs := t.obs })) ∧
  (∀ (p : Nat) (s : State), s.sys.mode = .running →
    (s.egr.barriers.find? (fun b => decide (b.port = p) && b.left.isEmpty) = none →
      exec (.barrierRelease p) s = .next s) ∧
    ∀ b c, s.egr.barriers.find? (fun b => decide (b.port = p) && b.left.isEmpty) = some b → b.waiting = [c] →
      (∀ x ∈ s.egr.overflow, x.port ≠ p) → Fits c s → ∃ t, exec (.barrierRelease p) s = .next t ∧
        t.egr.barriers = delFirst (fun b : Barrier => decide (b.port = p) && b.left.isEmpty) s.egr.barriers ∧
        t.queue c.queue = { s.queue c.queue with
        items := (s.queue c.queue).items ++ [c.item s.now], banks := banksWith c s } ∧
        (∀ q, q ≠ c.queue → t.queue q = s.queue q) ∧
        t = { s with egr := { s.egr with barriers := t.egr.barriers, queues := t.egr.queues } }) ∧
  ∀ (p : Nat) (s : State), p < 32 → smGet 0 s.egr.txEnd p + 625 ≤ s.pkPs →
    (s.portLink p = false ∨ smFind s.egr.tx p ≠ none ∨ pickPort s p (nowPs s) = none → exec (.frameTransmit p) s = .next s) ∧
    ∀ q d i r, s.portLink p = true → smFind s.egr.tx p = none → pickPort s p (nowPs s) = some (q, d) → q / 128 = p → (s.queue q).items = i :: r →
      i.marker = none → (∀ x ∈ r, x.marker = none) → gclAt s p s.now.toNat = none → s.fact .portMacsec p = 0 →
      (i.poison = true → ∃ t, exec (.frameTransmit p) s = .next t ∧ (t.queue q).items = r ∧ t.egr.tx = s.egr.tx ∧
        t.cntAt (Ctr.drop i.part .poison).key = s.cntAt (Ctr.drop i.part .poison).key + 1 ∧
        t = { s with egr := t.egr, obs := t.obs }) ∧
      (i.poison = false → ∃ t, exec (.frameTransmit p) s = .next t ∧ (t.queue q).items = r ∧
        (∀ k, k ≠ q → t.queue k = s.queue k) ∧
        smFind t.egr.tx p = some ⟨padFrame i.frame, q, s.pkPs + frameTime s p i.frame.length⟩ ∧
        (∀ n ∈ [q, groupNode p (groupOf s q), portNode p], t.shaper n = (if (s.shaper n).rate = 0 then s.shaper n
          else { s.shaper n with tokens := (s.shaper n).tokens - (shapeLen s p i.frame.length * 8000000 : Nat) })) ∧
        t = { s with egr := t.egr })

/-- The commands of stage 8 and of time (10 R313, R328, R331, R334, R335, R340, 14 R440, R441): METER_WRITE leaves both
buckets full and the colour counts as they were; SHAPER_WRITE and GCL_WRITE leave what the port's next round or the takeover
puts in force; the reads reply with what they read, QUEUE_SAMPLE clearing the largest delays that it returns; HOSTPKT_RING
binds an empty ring and unbinds one with nothing waiting; TIME_ADJUST steps a node that is not joined; TIME_READ replies
with the time and the last captured edge. -/
def Obligations.EgressAndTimeCommands : Prop :=
  (∀ (c : CmdCtx) (m : Nat) (mode : Byte) (cir cbs eir ebs : Nat) (s : State), Ready 0x400 s → PathEmpty s → Fresh c s →
    meterWriteCheck c m mode cir cbs eir (beginCmd c 0x400 s) = none →
    ∃ u, exec (.meterWrite c m mode cir cbs eir ebs) s = .next (finish c .ok [] s.now 0 u) ∧
      u.meter m = { mode := mode, cir := cir, cbs := cbs, eir := eir, ebs := ebs, tc := cbs * 8000000, te := ebs * 8000000,
                    last := s.now, counts := (s.meter m).counts } ∧
      (∀ k, k ≠ m → u.meter k = s.meter k) ∧
      u = { begun c 0x400 s with egr := { s.egr with meters := u.egr.meters } }) ∧
  (∀ (c : CmdCtx) (m : Nat) (s : State), Ready 0x401 s → PathEmpty s → Fresh c s → m ≤ 65535 →
    (beginCmd c 0x401 s).meterOwner m = c.part →
    exec (.meterRead c m) s
      = .next (finish c .ok (meterBody m ((s.meter m).refill s.now)) s.now 0 (begun c 0x401 s))) ∧
  (∀ (c : CmdCtx) (node : Nat) (ovh : Int) (rate burst : Nat) (s : State), Ready 0x410 s →
    shaperWriteCheck c node ovh burst (beginCmd c 0x410 s) = none →
    ∃ u, exec (.shaperWrite c node ovh rate burst) s = .next (finish c .ok [] s.now 0 u) ∧
      u.shaper node = { s.shaper node with pend := some (rate, burst) } ∧
      (∀ k, k ≠ node → u.shaper k = s.shaper k) ∧ (node < 4608 → u.fields = s.fields) ∧
      (4608 ≤ node → u.fval .portEgrOvh (node - 4608) = wrapU 8 ovh) ∧
      u = { beginCmd c 0x410 s with egr := { s.egr with shapers := u.egr.shapers }, fields := u.fields }) ∧
  (∀ (c : CmdCtx) (p : Nat) (base : DWord) (cycle : Nat) (l : List (BitVec 128 × Nat)) (s : State), Ready 0x420 s →
    gclWriteCheck c p cycle l (beginCmd c 0x420 s) = none →
    (∀ g, smFind s.egr.gclPend p = some g → s.now.toNat < g.takeover.toNat) →
    let t := BitVec.ofNat 64 (takeoverAt s.now.toNat base.toNat cycle)
    ∃ u, exec (.gclWrite c p base cycle l) s = .next (finish c .ok (leBytes 8 t.toNat) s.now 0 u) ∧
      smFind u.egr.gclPend p = some ⟨t, cycle, l⟩ ∧ (∀ k, k ≠ p → smFind u.egr.gclPend k = smFind s.egr.gclPend k) ∧
      u = { beginCmd c 0x420 s with egr := { s.egr with gclPend := u.egr.gclPend } }) ∧
  (∀ (c : CmdCtx) (p list first : Nat) (s : State), Ready 0x421 s → (beginCmd c 0x421 s).portOwner p = c.part →
    p < s.portCount →
    let g := if list = 0 then smFind s.egr.gcl p else if list = 1 then smFind s.egr.gclPend p else none
    let l := ((match g with | some x => x.entries | none => []).drop first).map gclEntry
    let k := min 168 l.length
    let b := beginCmd c 0x421 s
    exec (.gclRead c p list first none) s = .next (finish c .ok
      (gclHeader p g ++ (l.take k).flatten ++ leBytes 8 (first + k)) s.now (if k < l.length then 2 else 0) b) ∧
    ∀ o : Bref, brefForm c o 1 = true →
      let x := gclHeader p g ++ l.flatten
      (o.size < x.length → exec (.gclRead c p list first (some o)) s = .next (finish c .capacity [] s.now 0 b)) ∧
      (x.length ≤ o.size → brefStatus c o 1 x.length b = none → exec (.gclRead c p list first (some o)) s
        = .next (finish c .ok (gclHeader p g ++ leBytes 8 (first + l.length)) s.now 0 (brefWrite c o x b)))) ∧
  (∀ (c : CmdCtx) (first count : Nat) (s : State), Ready 0x430 s → count ≠ 0 → first + count ≤ s.portCount * 128 →
    (∀ i, i * 128 < first + count → (beginCmd c 0x430 s).portOwner i = c.part) →
    let n := min 169 count
    ∃ u, exec (.queueSample c first count) s = .next (finish c .ok
        (leBytes 8 (first + n) ++ (List.range n).flatMap (fun i => sampleEntry s (first + i))) s.now
        (if n < count then 2 else 0) u) ∧
      (∀ q, first ≤ q → q < first + n → u.queue q = { s.queue q with maxDelay := 0 }) ∧
      (∀ q, q < first ∨ first + n ≤ q → u.queue q = s.queue q) ∧
      u = { beginCmd c 0x430 s with egr := { s.egr with queues := u.egr.queues } }) ∧
  (∀ (c : CmdCtx) (n : Nat) (x : Bref) (snap : Nat) (s : State), Ready 0x440 s →
    hostpktCheck c n x snap (beginCmd c 0x440 s) = none →
    (x.size ≠ 0 → brefStatus c x 1 x.size (beginCmd c 0x440 s) = none →
      ∃ u, exec (.hostpktRing c n x snap) s = .next (finish c .ok [] s.now 0 u) ∧
        u.hring n = { part := some c.part, bref := x, snap := snap, fifo := (s.hring n).fifo } ∧
        (∀ k, k ≠ n → u.hring k = s.hring k) ∧
        u = { beginCmd c 0x440 s with egr := { s.egr with hrings := u.egr.hrings } }) ∧
    (x.size = 0 → (s.hring n).fifo = [] →
      ∃ u, exec (.hostpktRing c n x snap) s = .next (finish c .ok [] s.now 0 u) ∧ u.hring n = {} ∧
        (∀ k, k ≠ n → u.hring k = s.hring k) ∧
        u = { beginCmd c 0x440 s with egr := { s.egr with hrings := u.egr.hrings } })) ∧
  (∀ (c : CmdCtx) (offset rate : Int) (s : State), Ready 0x450 s → c.part = 0 → s.fab.joined = false →
    ∃ u, exec (.timeAdjust c offset rate) s = .next (finish c .ok [] s.now 0 u) ∧ u.clk.hostRate = rate ∧
      (offset = 0 → u.clk = { s.clk with hostRate := rate }) ∧
      (offset ≠ 0 → u.clk.ft = BitVec.ofNat 64 (wrapU 64 (s.clk.ft.toNat + offset)) ∧ u.clk.integ = 0) ∧
      u = { beginCmd c 0x450 s with clk := { s.clk with hostRate := rate, ft := u.clk.ft, integ := u.clk.integ } }) ∧
  ∀ (c : CmdCtx) (s : State), Ready 0x451 s → exec (.timeRead c) s
    = .next (finish c .ok (leBytes 8 s.now.toNat ++ leBytes 8 s.clk.ppsEdge.toNat) s.now 0 (beginCmd c 0x451 s))


/-! ### Models, events and thresholds -/

/-- Loading and unloading a model (09 R287, R288, R303). A bundle that opens, passes its checks and has places leaves its
slot LOADED with the bundle's digest and its threshold at the initial value, and no other slot changed; one whose envelope
does not open fails AUTH_FAIL, and one that a check refuses fails with that check's status, both leaving the slot EMPTY. A
LOADED slot with no work left is EMPTY after MODEL_UNLOAD; one with work left waits as UNLOADING and does not reply yet; and
so does one of a WP model, whose weights read as zero from then on, until RINSE's walk over them is complete (12 R389). -/
def Obligations.ModelsLoadAndUnload : Prop :=
  (∀ (c : CmdCtx) (n : Nat) (x : Bref) (s : State), Ready 0x300 s → slotCheck c n (beginCmd c 0x300 s) = none →
    ((s.slot n).state ≠ 0 → exec (.modelLoad c n x) s = .next (finish c .busy [] 0 0 (beginCmd c 0x300 s))) ∧
    ((s.slot n).state = 0 → brefStatus c x 0 x.size (beginCmd c 0x300 s) = none →
      let b := brefCharge c x x.size (beginCmd c 0x300 s)
      let e := openEnvelope b 0 c.part n (brefRead c x x.size (beginCmd c 0x300 s))
      (e = none → exec (.modelLoad c n x) s = .next (finish c .authFail [] 0 0 b)) ∧
      (∀ m st, e = some m → bundleStatus b c.part m = .error st →
        exec (.modelLoad c n x) s = .next (finish c st [] 0 0 b)) ∧
      ∀ m y, e = some m → bundleStatus b c.part m = .ok y →
        ∃ u, exec (.modelLoad c n x) s = .next (finish c .ok (sha384 m) 0 0 u) ∧ (u.slot n).state = 2 ∧
          (u.slot n).digest = sha384 m ∧ (u.slot n).thr.n = 0 ∧ (u.slot n).thr.a = 0 ∧ (u.slot n).evq = [] ∧
          (∀ z, (u.slot n).ens = some z → (u.slot n).thr.theta = z.thrInit ∧ (u.slot n).thr.step = z.stepInit) ∧
          (∀ k, k ≠ n → u.slot k = s.slot k) ∧ u.fields = s.fields ∧ u.flow = s.flow ∧ u.egr = s.egr ∧ u.tabs = s.tabs)) ∧
  (∀ (c : CmdCtx) (n : Nat) (s : State), Ready 0x301 s → slotCheck c n (beginCmd c 0x301 s) = none →
    let r := retireDue c.part (beginCmd c 0x301 s)
    let x := r.slot n
    (x.state = 0 → exec (.modelUnload c n) s = .next (finish c .badParam [] 0 0 r)) ∧
    (x.state = 2 → x.evq = [] → x.filling = [] → x.batches = [] → x.training = false →
      (x.wp = false ∨ x.wipeBytes = 0 →
        ∃ u, exec (.modelUnload c n) s = .next (finish c .ok [] 0 0 u) ∧ (u.slot n).state = 0 ∧ (u.slot n).ens = none ∧
          (u.slot n).tens = none ∧ (∀ k, k ≠ n → (r.slot k).wipe = none → u.slot k = r.slot k) ∧ (x.wp = false → u.hbm = r.hbm) ∧
          u.fields = r.fields ∧ u.flow = r.flow ∧ u.egr = r.egr) ∧
      (x.wp = true → x.wipeBytes ≠ 0 → x.wipe = none → ∃ u, exec (.modelUnload c n) s = .next u ∧
          u.slot n = { x with state := 4, unloadCtx := some c, wipe := some { done := 0, mark := s.now, charged := 0 } } ∧
          (∀ v g i, v ∈ x.weightPages → r.physPage (r.slotOwner n) v = some g → i < pageBytes →
            memRead u.hbm (g * pageBytes + i) = 0) ∧
          (∀ k, k ≠ n → (r.slot k).wipe = none → u.slot k = r.slot k) ∧ u.fields = r.fields ∧ u.flow = r.flow ∧
          u.egr = r.egr)) ∧
    (x.state = 2 → x.evq ≠ [] ∨ x.filling ≠ [] ∨ x.batches ≠ [] → ∃ u, exec (.modelUnload c n) s = .next u ∧
      u.slot n = { x with state := 4, unloadCtx := some c } ∧ (∀ k, k ≠ n → u.slot k = r.slot k) ∧
      u = { r with slots := u.slots }) ∧
    (x.state = 3 ∨ x.state = 4 → exec (.modelUnload c n) s = .next (finish c .busy [] 0 0 r))) ∧
  ∀ (g n : Nat) (z : Region) (x : Slot) (c : CmdCtx) (s : State), s.sys.mode = .running → s.region g = some z → z.state = 0 →
    z.part = s.slotOwner n → wipes s = [(n, x)] → s.slot n = x → x.state = 4 → x.unloadCtx = some c → x.wp = true →
    x.evq = [] → x.filling = [] → x.batches = [] → x.training = false →
    (wipeDone s x < x.wipeBytes → exec (.rinseWalkComplete g) s = .next s) ∧
    (x.wipeBytes ≤ wipeDone s x → ∃ u, exec (.rinseWalkComplete g) s = .next (finish c .ok [] 0 0 u) ∧
      (u.slot n).state = 0 ∧ (u.slot n).tens = none ∧ (∀ k, k ≠ n → u.slot k = s.slot k))

/-- Events (05 R174, R175, 06 R202, R203, 07 R239 to R241, 09 R302, 13 R411). An event ensemble takes the oldest event of its
slot, where no slot of the same engine holds an older one, and writes the class of its words into the flow's context as the
standing verdict, unless the flow's generation has changed. A filling batch whose wait is over is dispatched and counted. A
batch that has run its list gives each event the verdict of its row of the output, invalid where the row is poisoned or a
poisoned list did not reach its end; one whose list failed gives none. In each case the events' epoch references are
released. -/
def Obligations.EventsBecomeVerdicts : Prop :=
  let released := fun (s t : State) (e : Event) =>
    t.eps e.part = (s.eps e.part).map (fun x => if x.num = e.epoch then { x with refs := x.refs - 1 } else x)
  let plain := fun (s : State) (n : Nat) (e : Event) => isLeasedIdx e.index = false ∧ s.leaseOf e.index = none ∧
    s.holdOf e.index = none ∧ staleVerdict s (s.ctx e.index) (e.verdict n 0 false 0 0 0) = false
  (∀ (n : Nat) (e : Ensemble) (ev : Event) (q : List Event) (s : State), s.sys.mode = .running → (s.slot n).state ≠ 4 →
    (s.slot n).ens = some e → (s.slot n).evq = ev :: q →
    (firstAtHome s (s.slot n) ev = false → exec (.eventEnsembleEval n) s = .next s) ∧ (firstAtHome s (s.slot n) ev = true →
    let r := evaluate e ev.words (2 ^ 32 - 1)
    let d := decideClass r.sums e.nOut (s.slot n).thr.theta e.outShift
    let bad := r.poison || (r.nan && e.nanTrap)
    (plain s n ev → ∃ t, exec (.eventEnsembleEval n) s = .next t ∧ (t.slot n).evq = q ∧ released s t ev ∧
      t.ctx ev.index = { s.ctx ev.index with vkind := classKind e.classAct d.1, vvalid := true, vinvalid := bad, vslot := n,
                                             vepoch := BitVec.ofNat 16 ev.epoch, vclass := BitVec.ofNat 16 d.1,
                                             vscore := BitVec.ofNat 32 (wrapU 32 d.2), vtime := s.now } ∧
      (∀ j, j ≠ ev.index → t.ctx j = s.ctx j) ∧ (∀ m, m ≠ n → t.slot m = s.slot m) ∧
      (t.slot n).thr.n = (s.slot n).thr.n + (if e.nOut = 1 ∧ bad = false then 1 else 0) ∧
      t = { s with flow := t.flow, slots := t.slots, epochs := t.epochs, obs := t.obs }) ∧
    (isLeasedIdx ev.index = false → (s.ctx ev.index).gen ≠ ev.gen → n < 256 → ev.part < 64 → ∃ t, exec (.eventEnsembleEval n) s = .next t ∧
      (t.slot n).evq = q ∧ released s t ev ∧ t.flow = s.flow ∧
      t.cntAt (Ctr.slot n .verdictStale).key = s.cntAt (Ctr.slot n .verdictStale).key + 1))) ∧
  (∀ (n : Nat) (s : State), s.sys.mode = .running → (s.slot n).filling ≠ [] →
    (s.now.toNat < (s.slot n).fillAt.toNat → exec (.batchTimeout n) s = .next s) ∧
    ((s.slot n).fillAt.toNat ≤ s.now.toNat → (s.slot n).batches.length < 3 → (s.slot n).running = true →
      ∃ t, exec (.batchTimeout n) s = .next t ∧
        t.slot n = { s.slot n with batches := (s.slot n).batches ++ [(s.slot n).filling],
                                   batchAt := (s.slot n).batchAt ++ [s.now], filling := [] } ∧
        (∀ m, m ≠ n → t.slot m = s.slot m) ∧
        t.cntAt (Ctr.slot n .batchTimeout).key = s.cntAt (Ctr.slot n .batchTimeout).key + 1 ∧
        t = { s with slots := t.slots, obs := t.obs })) ∧
  ∀ (n : Nat) (x : Tensor) (e : Event) (j : TJob) (s : State), s.sys.mode = .running → (s.slot n).state ≠ 4 →
    (s.slot n).tens = some x → (s.slot n).batches = [[e]] → (s.slot n).filling = [] → (s.slot n).running = true →
    batchJob s n = some j → (∀ k ∈ jobCmds s j.id, k.state = 2) →
    let poisoned := decide (jobStatus (jobCmds s j.id) = Status.dataPoisoned.code)
    let cut := decide (((jobCmds s j.id).getLast?.map (·.word)).getD 0 = 0)
    (jobStatus (jobCmds s j.id) ≠ 0 → poisoned = false → ∃ t, exec (.batchComplete n) s = .next t ∧
      t.slot n = { s.slot n with batches := [], batchAt := (s.slot n).batchAt.drop 1, running := false } ∧ released s t e ∧
      t.flow = s.flow ∧ t.obs = s.obs) ∧
    (jobStatus (jobCmds s j.id) = 0 ∨ poisoned = true → plain s n e → uAt x.outMap 8 1 = 4 →
      let r := rowResult (s.slot n) x e.part 0 s
      ∃ t, exec (.batchComplete n) s = .next t ∧ (t.slot n).batches = [] ∧ (t.slot n).running = false ∧ released s t e ∧
        t.ctx e.index = { s.ctx e.index with
          vkind := classKind ((List.range 8).map (fun i => byteAt x.outMap (52 + i))) r.1, vvalid := true,
          vinvalid := r.2.2.1 || (poisoned && cut), vslot := n, vepoch := BitVec.ofNat 16 e.epoch,
          vclass := BitVec.ofNat 16 r.1, vscore := BitVec.ofNat 32 (wrapU 32 r.2.1), vtime := s.now } ∧
        (∀ i, i ≠ e.index → t.ctx i = s.ctx i) ∧ t.egr = s.egr ∧ t.tabs = s.tabs)

/-- Thresholds (06 R204, R205): the end of a period keeps its counts for THRESH_READ and starts the next; the threshold
moves only where the loop is on and 1,024 evaluations were made, by a doubled step where it moves the same way again, and it
stays within its bounds. THRESH_READ replies with the threshold, its step, the last period's counts and its alarms in parts
per million, which are a free value where the period had no evaluation (log 9). -/
def Obligations.ThresholdsMove : Prop :=
  (∀ (n : Nat) (lo hi : Int) (si : Nat) (s : State), s.sys.mode = .running → thrBounds (s.slot n) = some (lo, hi, si) →
    2 ≤ (s.slot n).state →
    let t0 := (s.slot n).thr
    let x := t0.n * s.fval .wkThrTarget n
    let y := t0.a * 1000000
    (s.now.toNat < t0.since.toNat + t0.period * 1000000 → exec (.thresholdPeriod n) s = .next s) ∧
    (t0.since.toNat + t0.period * 1000000 ≤ s.now.toNat → ∃ t, exec (.thresholdPeriod n) s = .next t ∧
      let t1 := (t.slot n).thr
      t1.n = 0 ∧ t1.a = 0 ∧ t1.lastN = t0.n ∧ t1.lastA = t0.a ∧ t1.since = t0.since + BitVec.ofNat 64 (t0.period * 1000000) ∧
      t1.period = s.fval .wkThrPeriod n ∧
      (s.fval .wkThrCtrl n ≠ 1 ∨ t0.n < 1024 → t1.theta = t0.theta ∧ t1.step = t0.step ∧ t1.dir = t0.dir) ∧
      (s.fval .wkThrCtrl n = 1 → 1024 ≤ t0.n → x * 5 < y * 4 → t0.dir = 1 →
        t1.step = min (t0.step * 2) (si * 256) ∧ t1.theta = clampI (wrapS 64 (t0.theta + t1.step)) lo hi ∧ t1.dir = 1) ∧
      (s.fval .wkThrCtrl n = 1 → 1024 ≤ t0.n → y * 5 < x * 4 → t0.dir = 1 →
        t1.step = max (t0.step / 2) 1 ∧ t1.theta = clampI (wrapS 64 (t0.theta - t1.step)) lo hi ∧ t1.dir = -1) ∧
      (lo ≤ t0.theta → t0.theta ≤ hi → lo ≤ t1.theta ∧ t1.theta ≤ hi) ∧
      t = { s with slots := t.slots } ∧ ∀ m, m ≠ n → t.slot m = s.slot m)) ∧
  ∀ (c : CmdCtx) (n : Nat) (s : State), Ready 0x331 s → threshReadCheck c n (beginCmd c 0x331 s) = none →
    let r := thresholdPeriod n (beginCmd c 0x331 s)
    let t := (r.slot n).thr
    let body := leBytesI 8 t.theta ++ leBytes 8 t.step ++ leBytes 8 t.lastN ++ leBytes 8 t.lastA
    (t.lastN ≠ 0 → exec (.threshRead c n) s
      = .next (finish c .ok (body ++ leBytes 4 (t.lastA * 1000000 / t.lastN)) 0 0 r)) ∧
    (t.lastN = 0 → ∃ k, k < 2 ^ 32 ∧ exec (.threshRead c n) s
      = .next (finish c .ok (body ++ leBytes 4 k) 0 0 { r with free := r.free + 1 }))


/-! ### Tensor tiles -/

/-- Host transfers and lists (07 R223, R228, R232, R233). A TENSOR_WRITE whose checks pass and that nothing delays puts the
packed bytes of its buffer through its descriptor, and TENSOR_READ writes the packed bytes that its descriptor reads to its
buffer; poison among them is DATA_POISONED, and a split stream whose scales do not fit SCALE_SEQ_MISMATCH. A buffer of another
size is BAD_LENGTH. One that a hazard or the 64 commands of its partition delay takes its place among those. TILE_RUN puts its commands, in list order, behind those already issued, and does not
reply yet; a list that its bytes do not hold exactly is BAD_LENGTH. -/
def Obligations.TensorsMoveAndListsIssue : Prop :=
  (∀ (c : CmdCtx) (wr : Bool) (desc : Bytes) (x : Bref) (s : State),
    let opc := if wr then 0x320 else 0x321
    let i : Instr := if wr then .tensorWrite c desc x else .tensorRead c desc x
    let b := beginCmd c opc s
    let d := descOf desc
    let n := transferSize b c.part d wr
    Ready opc s → tensorForm c wr desc x b = none → hostDescCheck b c.part d = none →
    (x.size ≠ n → xferOf b c = none → exec i s = .next (finish c .badLength [] 0 0 b)) ∧
    (x.size = n → brefStatus c x (b2n (!wr)) n b = none →
      (tensorWaits b c (xferFeet b c.part false desc) = true → exec i s = .next (waitCmd c i (listXfer c false desc b))) ∧
      (tensorWaits b c (xferFeet b c.part false desc) = false → xferOf b c = none → (b.entryOf c).bind (·.waitFrom) = none →
        (wr = true → let bad := decide (x.loc = 1) && b.hbmPoison c.part x.addr.toNat n
          ∃ u, exec i s = .next (finish c (if bad then .dataPoisoned else .ok) [] 0 0 u) ∧
            u = profiled c (tensorPut c.part d (brefRead c x n b) bad) (profiled c (countTransfer c.part d) (brefCharge c x n b)) ∧
            u.flow = s.flow ∧ u.egr = s.egr ∧ u.fields = s.fields ∧ u.host = s.host ∧ u.tabs = s.tabs ∧ u.slots = s.slots) ∧
        (wr = false → let r := tensorGet b c.part d
          let u := profiled c (countTransfer c.part d) b
          (splitBad u c.part d = none →
            exec i s = .next (finish c (if r.2 then .dataPoisoned else .ok) [] 0 0 (brefWrite c x r.1 u))) ∧
          (∀ k, splitBad u c.part d = some k → exec i s = .next (finish c .scaleSeqMismatch [] 0 0
            (brefWrite c x (r.1.take (packedSize d false (k / 4096 * 4096))) u))))))) ∧
  ∀ (c : CmdCtx) (x : Bref) (count : Nat) (s : State), Ready 0x322 s → count ≠ 0 → count ≤ 508 →
    brefStatus c x 0 x.size (beginCmd c 0x322 s) = none →
    let b := brefRead c x x.size (beginCmd c 0x322 s)
    (splitCmds count b = none → exec (.tileRun c x count) s = .next (finish c .badLength [] 0 0 (beginCmd c 0x322 s))) ∧
    ∀ l, splitCmds count b = some l → ∃ u cs, exec (.tileRun c x count) s = .next u ∧ l.flatten = b ∧ l.length = count ∧
      u.tiles.cmds = s.tiles.cmds ++ cs ∧
      cs.map (fun k => (k.bytes, k.idx, k.part, k.host, k.state, k.job))
        = (List.range l.length).map (fun i => (nth [] l i, i, c.part, true, 0, s.tiles.nextId)) ∧
      ((∀ y ∈ s.tiles.cmds, y.issued = true) → (openCmds s c.part).length + l.length ≤ 64 → ∀ y ∈ cs, y.issued = true) ∧
      u.tiles.jobs = s.tiles.jobs ++ [⟨s.tiles.nextId, some c, none, c.part⟩] ∧
      u = { brefCharge c x x.size (beginCmd c 0x322 s) with tiles := u.tiles } ∧ u.tiles.mem = s.tiles.mem

/-- A tile's commands (07 R230, R233 to R238). A ready command that names a free tile of its partition starts there and runs
where its checks pass; where they do not, or where the tile belongs to another partition, it ends with that status and
nothing is written. A running command that completes leaves the memory that running it leaves, ends with its status, and its
tile's owner takes effect. A round of a pool without tiles gives every partition its share; a tile without a command moves its
divider one step towards the target. -/
def Obligations.TileCommandsRun : Prop :=
  (∀ (t : Nat) (x : TCmd) (s : State), s.sys.mode = .running → t < 32 →
    s.tiles.cmds.find? (fun y => decide (y.id = x.id)) = some x →
    (∀ j ∈ s.tiles.jobs, j.id = x.job → j.ctx = none ∧ j.slot.isSome = true) → (s.trace x.part).mask = 0 →
    let h := tileCmdOf x.bytes
    (cmdReady s x = true → h.tile = t →
      (s.tileMine x.part t = true → tileFree s t = true → (readyFor s x.part t).head?.map (·.id) = some x.id →
        tcCheck s x.part x.host (some t) h = none → ∃ u, exec (.tileCommandStart x.id t) s = .next u ∧
          u.tiles.cmds.find? (fun y => decide (y.id = x.id)) = some { x with state := 1, tile := t, since := s.now } ∧
          u.tiles.cmds.length = s.tiles.cmds.length ∧ u.tiles.jobs = s.tiles.jobs ∧ u.tiles.mem = s.tiles.mem ∧
          u.cntAt (Ctr.tile t .hazardWait).key
            = s.cntAt (Ctr.tile t .hazardWait).key + BitVec.ofNat 64 (x.waited * 8 / s.tileDivider t) ∧
          u = { s with tiles := u.tiles, fields := { s.fields with act := u.fields.act }, obs := u.obs }) ∧
      (s.tileMine x.part t = true → tileFree s t = true → (readyFor s x.part t).head?.map (·.id) = some x.id →
        ∀ st, tcCheck s x.part x.host (some t) h = some st →
        ∃ u y, exec (.tileCommandStart x.id t) s = .next u ∧
          u.tiles.cmds.find? (fun y => decide (y.id = x.id)) = some y ∧ y.state = 2 ∧ y.status = st.code ∧
          u.tiles.mem = s.tiles.mem ∧ u.hbm = s.hbm) ∧
      (s.tileMine x.part t = false → ∃ u y, exec (.tileCommandStart x.id t) s = .next u ∧
          u.tiles.cmds.find? (fun y => decide (y.id = x.id)) = some y ∧ y.state = 2 ∧ y.status = Status.noPermission.code ∧
          u.tiles.mem = s.tiles.mem ∧ u.hbm = s.hbm)) ∧
    (runningOn s t = some x → x.status = 0 → openCmds s x.part = [x] →
      s.tiles.cmds.filter (fun y => decide ((y.state = 1 ∧ y.tile = t) ∨ (y.state = 0 ∧ uAt y.bytes 2 1 = t))) = [x] →
      let r := runTile x.part (!x.host) h s
      ∃ u y, exec (.tileCommandComplete t) s = .next u ∧
        u.tiles.cmds.find? (fun y => decide (y.id = x.id)) = some y ∧ y.state = 2 ∧ y.status = r.1.status.code ∧
        y.bytes = x.bytes ∧ u.tiles.mem = r.2.tiles.mem ∧ u.tiles.lines = r.2.tiles.lines ∧ u.hbm = r.2.hbm ∧
        u.fact .tileOwner t = s.fvalBefore .tileOwner t ∧ smFind u.tiles.divAt t = none ∧ u.flow = s.flow ∧ u.egr = s.egr ∧
        u.tabs = s.tabs ∧ u.fields.val = s.fields.val)) ∧
  (∀ s : State, s.sys.mode = .running →
    ((∀ t, t < 32 → s.tilePool t = true → s.isFenced (tileUnit t) = true ∨ s.fval .tileEn t ≠ 1) →
      ∃ u, exec .poolRoundTimer s = .next u ∧ (∀ p, p < 64 → smGet 0 u.tiles.credit p = u.fact .tileShare p) ∧
        u = { s with tiles := { s.tiles with credit := u.tiles.credit }, fields := { s.fields with act := u.fields.act } }) ∧
    (∀ t, t < 32 → s.tilePool t = true → s.isFenced (tileUnit t) = false → s.fval .tileEn t = 1 →
      exec .poolRoundTimer s = .next s)) ∧
  (∀ (t : Nat) (s : State), s.sys.mode = .running → runningOn s t = none →
    (s.tileDivider t = s.clk.target → exec (.tileDividerStep t) s = .next s) ∧
    (s.tileDivider t ≠ s.clk.target → (∀ x, smFind s.tiles.divAt t = some x → x.toNat + 1000 ≤ s.now.toNat) →
      ∃ u, exec (.tileDividerStep t) s = .next u ∧ (s.tileDivider t < s.clk.target → u.tileDivider t = s.tileDivider t + 1) ∧
        (s.clk.target < s.tileDivider t → u.tileDivider t + 1 = s.tileDivider t) ∧ smFind u.tiles.divAt t = some s.now ∧
        (∀ k, k ≠ t → u.tileDivider k = s.tileDivider k) ∧
        u = { s with clk := { s.clk with tileDiv := u.clk.tileDiv }, tiles := { s.tiles with divAt := u.tiles.divAt } }))

/-- An INT8 accumulator (07 R230, 08 R257): the block sums of 128 products each, added in order, give the sum of all
products modulo 2^32, whatever the number of products. -/
def Obligations.IntegerDotIsTheSum : Prop :=
  ∀ a b : List Nat, a.length = b.length →
    dot false a b = .int (wrapS 32 (((List.zip a b).map (fun x => sxNat 8 x.1 * sxNat 8 x.2)).foldl (· + ·) 0))


/-! ### Training, collectives and timeouts -/

/-- In-place learning (08 R270 to R276). A TRAIN_STEP without a group whose record, lists and data are sound puts the other
weight copy in service, counts the step and replies OK with the new step number; one whose lists or checks fail ends with that
status and leaves every slot as it was. A contribution that completes nothing is kept; one whose header is not this step's
ends the step with BAD_PARAM. -/
def Obligations.TrainingSteps : Prop :=
  (∀ (c : CmdCtx) (n : Nat) (x : Bref) (seed : DWord) (rec : Bytes) (t : Tensor) (s : State), Ready 0x330 s →
    trainCheck c n x (beginCmd c 0x330 s) = none → trainRecord c n x (beginCmd c 0x330 s) = .ok rec →
    (s.slot n).tens = some t →
    let r := trainRun c n t rec (brefCharge c x rec.length (beginCmd c 0x330 s))
    (∀ st, r.1 = .error st → ∃ u, exec (.trainStep c n x seed) s = .next (finish c st [] 0 0 u) ∧
      (∀ k, u.slot k = s.slot k) ∧ u.fields.val = s.fields.val ∧ u.flow = s.flow ∧ u.egr = s.egr ∧ u.tabs = s.tabs) ∧
    (∀ enc, r.1 = .ok enc → uAt rec 4 2 = 0 →
      statePoison c.part t (s.slot n).copy (t.codebook (s.slot n).copy c.part r.2).esc r.2 = false →
      ∃ u rest, exec (.trainStep c n x seed) s
          = .next (finish c .ok (leBytes 4 ((s.slot n).step + 1) ++ rest) 0 0 u) ∧
        rest.length = 12 ∧ (u.slot n).step = (s.slot n).step + 1 ∧ (u.slot n).copy = 1 - (s.slot n).copy ∧
        (u.slot n).training = false ∧ (u.slot n).thr = (s.slot n).thr ∧ (u.slot n).ens = (s.slot n).ens ∧
        (∀ k, k ≠ n → u.slot k = s.slot k) ∧ u.flow = s.flow ∧ u.egr = s.egr ∧ u.tabs = s.tabs)) ∧
  ∀ (m : Msg) (x : Coll) (n : Nat) (s : State), s.sys.mode = .running → s.fab.joined = true → s.tiles.colls = [x] →
    x.train = some n →
    let y := { x with got := x.got ++ [(m.src, m.arg.toNat, m.body)],
                      lastAt := if m.arg.toNat = announceIdx then x.lastAt else s.now }
    let agrees := fun (g : Nat × Nat × Bytes) => g.2.1 = announceIdx ∨ headerAgrees x g.2.1 g.2.2 = true
    m.part = x.part → callOf s m = x.call → m.src ∈ x.others s → x.seg m.src m.arg.toNat = none →
    ((∀ g ∈ y.got, agrees g) → (∃ k ∈ x.others s, y.whole k x.own.length = false) →
      ∃ u, exec (.gradSeg m) s = .next u ∧ u.tiles.colls = [y] ∧ u.tiles.mem = s.tiles.mem ∧ u.slots = s.slots ∧
        u.fab = { s.fab with inbox := u.fab.inbox } ∧ u.flow = s.flow ∧ u.egr = s.egr ∧ u.tabs = s.tabs ∧
        u.fields = s.fields) ∧
    ((∃ g ∈ y.got, ¬ agrees g) → (s.slot n).state ≠ 4 →
      ∃ u, exec (.gradSeg m) s = .next (finish x.ctx .badParam [] 0 0 u) ∧ u.tiles.colls = [] ∧
        (u.slot n) = { s.slot n with training := false } ∧ (∀ k, k ≠ n → u.slot k = s.slot k) ∧
        u.tiles.mem = s.tiles.mem ∧ ((s.trace x.ctx.part).mask = 0 → u.hbm = s.hbm))

/-- Collectives (07 R242, 11 R359) and CMD_TIMEOUT (02 R61). A COLLECTIVE_RUN whose checks pass and that nothing delays is
announced to the other members and waits for their announcements; one that a hazard delays takes its place among the tile
commands. Stated of a broadcast, kind 3: the first member replies with the time where every other has announced the same call
already; another member waits until it has every segment from the first and every announcement, and then writes its tensor and
replies; an announcement that differs ends the call with BAD_PARAM. A segment that the call has, or whose source is no member,
is discarded, and one of a call still to be made is kept. A command that has waited on a ring longer than the ring's
CMD_TIMEOUT completes with TIMEOUT. -/
def Obligations.CollectivesRun : Prop :=
  (∀ (c : CmdCtx) (kind : Nat) (x : Bref) (desc : Bytes) (s : State), Ready 0x530 s →
    let b := beginCmd c 0x530 s
    let size := 2 + 2 * uAt (brefRead c x 2 b) 0 2
    let g := collGroup (brefRead c x size b)
    let d := descOf desc
    let own := (collData b c.part (collRead d)).1
    collCheck c kind x desc b = none → brefStatus c x 0 (min x.size 2) b = none → 2 ≤ x.size →
    (x.size < size → exec (.collectiveRun c kind x desc) s = .next (finish c .badLength [] 0 0 b)) ∧
    (size ≤ x.size → brefStatus c x 0 size b = none →
      (groupOk b g = false → exec (.collectiveRun c kind x desc) s = .next (finish c .badParam [] 0 0 b)) ∧
      (groupOk b g = true → hostDescCheck b c.part d = none → hostDescCheck b c.part (collWrite d) = none →
        (tensorWaits b c (xferFeet b c.part true desc) = true → exec (.collectiveRun c kind x desc) s
          = .next (waitCmd c (.collectiveRun c kind x desc) (listXfer c true desc b))) ∧
        (tensorWaits b c (xferFeet b c.part true desc) = false → xferOf b c = none → (b.entryOf c).bind (·.waitFrom) = none →
          (collData b c.part (collRead d)).2 = [] → s.tiles.colls = [] →
          ((∀ e ∈ s.tiles.collIn, e.part ≠ c.part) → ∃ u y, exec (.collectiveRun c kind x desc) s = .next u ∧
            u.tiles.colls = [y] ∧ y.ctx = c ∧ y.group = g ∧ y.own = own ∧ y.got = [] ∧ y.kind = kind ∧
            y.call = (newCall false c.part g b).1 ∧ u.tiles.mem = s.tiles.mem ∧ u.slots = s.slots ∧ u.flow = s.flow) ∧
          (kind = 3 → g.head? = some s.fab.nodeId →
            (∀ k ∈ g, k ≠ s.fab.nodeId → ∃ e ∈ s.tiles.collIn, e.part = c.part ∧ e.call = (newCall false c.part g b).1 ∧
              e.src = k ∧ e.idx = announceIdx) →
            (∀ e ∈ s.tiles.collIn, e.part = c.part → e.idx = announceIdx →
              e.body.take 16 = leBytes 1 3 ++ leBytes 1 d.fmt ++ zeros 6 ++ leBytes 8 (collRead d).dataCount) →
            ∃ u, exec (.collectiveRun c kind x desc) s = .next (finish c .ok (leBytes 8 s.now.toNat) 0 0 u) ∧
              u.tiles.colls = [] ∧ u.slots = s.slots ∧ u.flow = s.flow))))) ∧
  (∀ (m : Msg) (x : Coll) (s : State), s.sys.mode = .running → s.fab.joined = true → s.tiles.colls = [x] →
    x.train = none → x.kind = 3 → x.me s ≠ 0 → m.part = x.part → callOf s m = x.call → m.src ∈ x.others s →
    x.seg m.src m.arg.toNat = none →
    let y := { x with got := x.got ++ [(m.src, m.arg.toNat, m.body)],
                      lastAt := if m.arg.toNat = announceIdx then x.lastAt else s.now }
    let d := collWrite (descOf x.desc)
    (y.mismatch = true → ∃ u, exec (.collSeg m) s = .next (finish x.ctx .badParam [] 0 0 u) ∧ u.tiles.colls = [] ∧
      u.tiles.mem = s.tiles.mem ∧ ((s.trace x.ctx.part).mask = 0 → u.hbm = s.hbm)) ∧
    (y.mismatch = false →
      (y.whole (y.node 0) x.own.length = false ∨ y.announced s = false → ∃ u, exec (.collSeg m) s = .next u ∧
        u.tiles.colls = [y] ∧ u.tiles.mem = s.tiles.mem ∧ ((s.trace x.ctx.part).mask = 0 → u.hbm = s.hbm) ∧
        u.fab = { s.fab with inbox := u.fab.inbox } ∧ u.slots = s.slots ∧ u.flow = s.flow) ∧
      (y.whole (y.node 0) x.own.length = true → y.announced s = true → ∃ v, exec (.collSeg m) s
          = .next (finish x.ctx .ok (leBytes 8 s.now.toNat) 0 0
              (profiled x.ctx (tensorPut x.part d (y.stream (y.node 0) x.own.length) false) v)) ∧
        v.tiles.colls = [] ∧ v.tiles.mem = s.tiles.mem ∧ v.slots = s.slots ∧ v.flow = s.flow ∧
        ((s.trace x.ctx.part).mask = 0 → v.hbm = s.hbm)))) ∧
  (∀ (train : Bool) (m : Msg) (x : Coll) (s : State), s.sys.mode = .running → s.fab.joined = true → s.tiles.colls = [x] →
    let i : Instr := if train then .gradSeg m else .collSeg m
    (m.part = x.part → callOf s m = x.call → m.src ∉ x.others s ∨ x.seg m.src m.arg.toNat ≠ none →
      ∃ u, exec i s = .next u ∧ u.tiles.colls = [x] ∧
        u = { s with tiles := { s.tiles with collFrom := u.tiles.collFrom }, fab := { s.fab with inbox := u.fab.inbox } }) ∧
    (m.part ≠ x.part ∨ callOf s m ≠ x.call → (callOf s m).length = 57 → callOver s m.part (callOf s m) = false →
      s.tiles.collIn = [] → ∃ u, exec i s = .next u ∧
        u.tiles.collIn = [{ part := m.part, call := callOf s m, src := m.src, idx := m.arg.toNat, body := m.body }] ∧
        u = { s with tiles := { s.tiles with collFrom := u.tiles.collFrom, collIn := u.tiles.collIn },
                     fab := { s.fab with inbox := u.fab.inbox } })) ∧
  ∀ (n : Nat) (e : InFlight) (t : DWord) (s : State), (s.ring n).inFlight = [e] → e.reply = none → e.mark = none →
    e.cmd.isSome = true → e.waitFrom = some t → s.coll e.ctx = none → (∀ j ∈ s.tiles.jobs, j.ctx ≠ some e.ctx) →
    ((s.ring n).cmdTimeout ≠ 0 → t.toNat + (s.ring n).cmdTimeout.toNat * 1000000 < s.now.toNat →
      exec (.commandTimeout n e.ctx.seq) s = .next (finish e.ctx .timeout [] 0 0 (unlistXfer e.ctx s))) ∧
    ((s.ring n).cmdTimeout = 0 ∨ s.now.toNat ≤ t.toNat + (s.ring n).cmdTimeout.toNat * 1000000 →
      exec (.commandTimeout n e.ctx.seq) s = .next s)


/-! ### The fabric -/

/-- A Shatiet link (11 R342, R360, R361). A lit link that has trained enters AUTH with no key; a HELLO whose chain verifies
leaves the peer's node, link and chain, and any other takes the link down as refused; a good KEY_EXCH brings the link UP
with the keys of the two directions, the next key generation and full credits. An UP link starts a rekey at its threshold or on LINK_REKEY, which
does not reply yet; a link whose counter is used up leaves UP and loses its keys. -/
def Obligations.LinksComeUpAndDown : Prop :=
  (∀ (l : Nat) (s : State), s.sys.mode = .running → l < 32 →
    (s.linkLit l = true → (s.link l).state = 1 → ∃ t, exec (.linkTrainingComplete l) s = .next t ∧ (t.link l).state = 2 ∧
      (t.link l).txKey = none ∧ (t.link l).rxKey = none ∧ (∀ k, k ≠ l → t.link k = s.link k) ∧ t.free = s.free + 1 ∧
      t = { s with fab := { s.fab with links := t.fab.links }, free := t.free }) ∧
    (s.linkLit l = false ∨ (s.link l).state = 3 → exec (.linkTrainingComplete l) s = .next s) ∧
    ∀ m : Msg, (s.link l).heldMsgs = [] → (s.link l).rekeyCtx = none →
      ((s.link l).state ≠ 2 → exec (.hello l m) s = .next s) ∧
      ((s.link l).state = 2 →
        let n := uAt m.body 0 2
        let good := sigVerifies s (leBytes 48 s.sys.fuses.rootHash.toNat) (m.body.drop 8) []
        (good = true → nodeTaken s l n (m.body.drop 8) = false → n < 2 ^ 14 → ∃ t, exec (.hello l m) s = .next t ∧
          t.link l = { s.link l with peer := n, peerLink := uAt m.body 2 1, peerChain := m.body.drop 8 } ∧
          (∀ k, k ≠ l → t.link k = s.link k) ∧ t = { s with fab := { s.fab with links := t.fab.links } }) ∧
        (good = false ∨ nodeTaken s l n (m.body.drop 8) = true ∨ 2 ^ 14 ≤ n → ∃ t, exec (.hello l m) s = .next t ∧
          (t.link l).state = 0 ∧ (t.link l).wanted = false ∧ (∀ k, k ≠ l → t.link k = s.link k) ∧
          t.cntAt (Ctr.link l .peerRefused).key = s.cntAt (Ctr.link l .peerRefused).key + 1 ∧
          t = { s with fab := { s.fab with links := t.fab.links }, obs := t.obs })) ∧
      (let good := sigVerifies s (s.link l).peerChain (fitTo 97 m.body) (slice m.body 104 96)
       ((s.link l).state = 2 → (s.link l).peerChain ≠ [] → s.fab.joined = true → s.fab.join = none →
          (good = true → ∃ t, exec (.keyExch l m) s = .next t ∧ (t.link l).state = 3 ∧
            (t.link l).keyGen = (s.link l).keyGen + 1 ∧
            (t.link l).txKey = some (linkKey (s.link l) (fitTo 97 m.body) s.myNode l) ∧
            (t.link l).rxKey = some (linkKey (s.link l) (fitTo 97 m.body) (s.link l).peer (s.link l).peerLink) ∧
            (∀ cls hop, cls < 3 → 1 ≤ hop → hop ≤ 3 → smGet 0 (t.link l).credits (bufIx cls hop) = s.fact .fabCredit cls) ∧
            (t.link l).retry = [] ∧ (∀ k, k ≠ l → t.link k = s.link k) ∧
            t = { s with fab := t.fab, tiles := { s.tiles with collTo := t.tiles.collTo, collFrom := t.tiles.collFrom } }) ∧
          (good = false → ∃ t, exec (.keyExch l m) s = .next t ∧ (t.link l).state = 0 ∧ (t.link l).wanted = false ∧
            (∀ k, k ≠ l → t.link k = s.link k) ∧
            t = { s with fab := { s.fab with links := t.fab.links }, obs := t.obs })) ∧
        ((s.link l).state = 3 → good = true → (s.link l).newRx = none → (s.link l).switching = false →
          (s.link l).rekey = true →
          let tx := some (linkKey (s.link l) (fitTo 97 m.body) s.myNode l)
          let rx := some (linkKey (s.link l) (fitTo 97 m.body) (s.link l).peer (s.link l).peerLink)
          ∃ t, exec (.keyExch l m) s = .next t ∧ (t.link l).state = 3 ∧ (t.link l).newTx = tx ∧
            (t.link l).txKey = (s.link l).txKey ∧
            ((s.link l).ended = false → (t.link l).newRx = rx ∧ (t.link l).rxKey = (s.link l).rxKey) ∧
            ((s.link l).ended = true → (t.link l).newRx = none ∧ (t.link l).rxKey = rx ∧ (t.link l).expCtr = 0) ∧
            (∀ k, k ≠ l → t.link k = s.link k) ∧ t = { s with fab := t.fab }))) ∧
  (∀ (l : Nat) (s : State), s.sys.mode = .running → (s.link l).state = 3 →
    ((s.link l).rekey = true ∨ (s.link l).txCtr < 2 ^ s.fval .fabRekeyAt → exec (.rekeyThreshold l) s = .next s) ∧
    ((s.link l).rekey = false → 2 ^ s.fval .fabRekeyAt ≤ (s.link l).txCtr → ∃ t m, exec (.rekeyThreshold l) s = .next t ∧
      (t.link l).rekey = true ∧ (t.link l).outQ = (s.link l).outQ ++ [(l, m)] ∧ m.mtype = 2 ∧ m.dst = (s.link l).peer ∧
      (∀ k, k ≠ l → t.link k = s.link k) ∧ t = { s with fab := t.fab, free := s.free + 1 }) ∧
    ((s.link l).txCtr < 2 ^ 48 - 1 → exec (.keyCounterExhausted l) s = .next s) ∧
    (2 ^ 48 - 1 ≤ (s.link l).txCtr → (s.link l).heldMsgs = [] → (s.link l).rekeyCtx = none →
      ∃ t, exec (.keyCounterExhausted l) s = .next t ∧ (t.link l).state = 2 ∧ (t.link l).txKey = none ∧
        (t.link l).rxKey = none ∧ (∀ k, k ≠ l → t.link k = s.link k) ∧ t = { s with fab := t.fab, free := s.free + 1 })) ∧
  ∀ (c : CmdCtx) (l : Nat) (s : State), Ready 0x510 s → c.part = 0 → l ≤ 31 →
    let b := beginCmd c 0x510 s
    ((s.link l).state ≠ 3 → exec (.linkRekey c l) s = .next (finish c .notReady [] 0 0 b)) ∧
    ((s.link l).state = 3 → (s.link l).rekey = true → exec (.linkRekey c l) s = .next (finish c .busy [] 0 0 b)) ∧
    ((s.link l).state = 3 → (s.link l).rekey = false → ∃ u m, exec (.linkRekey c l) s = .next u ∧
      (u.link l).rekey = true ∧ (u.link l).rekeyCtx = some c ∧ (u.link l).outQ = (s.link l).outQ ++ [(l, m)] ∧ m.mtype = 2 ∧
      (∀ k, k ≠ l → u.link k = s.link k) ∧ u = { b with fab := u.fab, free := s.free + 1 })

/-- Frames of an UP link (11 R344 to R348, R354). A frame to send again goes first and counts as a retry; else, while the
retry buffer has room, a new frame of 2,000 bytes goes out, IDLE where nothing waits, and is kept for retry. A frame that
fails its length or CRC asks for a retry; one whose tag fails counts AUTH_FAIL, whatever its counter; a good IDLE frame
advances the expected counter, and one that is not the expected frame is discarded. A gap in the sequence that has lasted its time is skipped, and the earliest waiting message is delivered. -/
def Obligations.FramesTravel : Prop :=
  (∀ (l : Nat) (s : State), s.sys.mode = .running → s.obs.stop = none → s.fab.leaving = none →
    let x := s.link l
    (s.linkUp l = false ∨ s.linkLit l = false → exec (.fabricFrameSend l) s = .next s) ∧
    (s.linkUp l = true → s.linkLit l = true → laneMoving s l = false →
      (∀ f r, x.resend = f :: r → ∃ t, exec (.fabricFrameSend l) s = .next t ∧
        t.link l = { x with resend := r, retries := x.retries + 1, lastOut := f.bytes, sent := x.sent + 1 } ∧
        (∀ k, k ≠ l → t.link k = s.link k) ∧
        t.cntAt (Ctr.link l .retries).key = s.cntAt (Ctr.link l .retries).key + 1 ∧
        t.cntAt (Ctr.link l .framesSent).key = s.cntAt (Ctr.link l .framesSent).key + 1 ∧
        t = { s with fab := { s.fab with links := t.fab.links }, obs := t.obs }) ∧
      (x.resend = [] → 128 ≤ x.retry.length → exec (.fabricFrameSend l) s = .next s) ∧
      (x.resend = [] → x.retry.length < 128 → x.outQ = [] → x.txBuf = [] → x.newTx = none → x.switching = false →
        x.begun = [] → ∃ t b, exec (.fabricFrameSend l) s = .next t ∧ (t.link l).lastOut = b ∧ b.length = 2000 ∧
          (t.link l).retry = x.retry ++ [⟨x.txPhase, x.txCtr, b, []⟩] ∧ (t.link l).txCtr = x.txCtr + 1 ∧
          (uAt b 3 1).testBit 1 = true ∧ uAt b 1996 4 = (crc32c (b.take 1996)).toNat ∧
          t.cntAt (Ctr.link l .framesSent).key = s.cntAt (Ctr.link l .framesSent).key + 1 ∧
          (∀ k, k ≠ l → t.link k = s.link k) ∧
          t = { s with fab := { s.fab with links := t.fab.links }, obs := t.obs }))) ∧
  (∀ (l : Nat) (f : Bytes) (s : State), s.sys.mode = .running → s.obs.stop = none → s.fab.leaving = none →
    s.linkUp l = true → s.linkLit l = true → laneMoving s l = false →
    let x := s.link l
    let crcGood := f.length = 2000 ∧ uAt f 1996 4 = (crc32c (f.take 1996)).toNat
    (¬ crcGood → ∃ t, exec (.fabricFrameReceive l f) s = .next t ∧
      t.link l = { x with nakCnt := x.nakCnt + 1, prevBad := true } ∧ (∀ k, k ≠ l → t.link k = s.link k) ∧
      t.cntAt (Ctr.link l .rxBytes).key = s.cntAt (Ctr.link l .rxBytes).key + BitVec.ofNat 64 f.length ∧
      t = { s with fab := { s.fab with links := t.fab.links }, obs := t.obs }) ∧
    (∀ k ctr, crcGood → x.tagKey (f.take 12) = some (k, ctr) →
      let opened := gcmOpen s k (linkNonce x.peer x.peerLink ctr) (f.take 12) (slice f 12 1984)
      let expected := (uAt (f.take 12) 3 1).testBit 0 = x.expPhase ∧ ctr = x.expCtr
      (opened = none → x.tagFails < 3 → ∃ t, exec (.fabricFrameReceive l f) s = .next t ∧
        t.link l = { x with authFail := x.authFail + 1, tagFails := x.tagFails + 1, nakCnt := x.nakCnt + 1, prevBad := true } ∧
        t.cntAt (Ctr.link l .authFail).key = s.cntAt (Ctr.link l .authFail).key + 1 ∧
        t = { s with fab := { s.fab with links := t.fab.links }, obs := t.obs }) ∧
      (∀ p, opened = some p → expected → (uAt (f.take 12) 3 1).testBit 1 = true → (uAt (f.take 12) 3 1).testBit 2 = false →
        ∃ t, exec (.fabricFrameReceive l f) s = .next t ∧ (t.link l).expCtr = x.expCtr + 1 ∧ (t.link l).state = 3 ∧
          (t.link l).rxKey = x.rxKey ∧ (t.link l).tagFails = 0 ∧ (t.link l).rxBuf = x.rxBuf ∧
          (∀ k, k ≠ l → t.link k = s.link k) ∧
          t = { s with fab := { s.fab with links := t.fab.links }, obs := t.obs }) ∧
      (∀ p, opened = some p → ¬ expected → x.prevBad = false → x.ended = false →
        ∃ t, exec (.fabricFrameReceive l f) s = .next t ∧ t = { s with obs := t.obs }))) ∧
  ∀ (src cls : Nat) (t0 : DWord) (s : State), s.sys.mode = .running → smFind s.fab.gapSince (seqKey src cls) = some t0 →
    (s.now.toNat < t0.toNat + s.fval .fabGapTimeout * 1000 → exec (.fabGapTimeoutExpire src cls) s = .next s) ∧
    ∀ (l : Nat) (m : Msg), t0.toNat + s.fval .fabGapTimeout * 1000 ≤ s.now.toNat → s.fab.reorder = [(l, m)] → m.src = src →
      m.cls = cls → classOf m.mtype = some cls → ∃ t, exec (.fabGapTimeoutExpire src cls) s = .next t ∧
        t.fab.inbox = s.fab.inbox ++ [(l, m)] ∧ t.fab.reorder = [] ∧ t.expMseq src cls = (m.mseq + 1) % 65536 ∧
        smFind t.fab.gapSince (seqKey src cls) = none ∧ t = { s with fab := t.fab, obs := t.obs }

/-- A node in the fabric (11 R363 to R369). FABRIC_JOIN starts the training of the mask's down links and waits; its timeout
leaves the late links DOWN, and fails the join with no link UP, so that the node is not joined. FABRIC_LEAVE of a node without leases, collectives and up links
ends at once, with every link DOWN; a LEAVE takes its link down. FABRIC_STATUS and TIME_OFFSETS reply with what they read.
The time exchange sends a TIME_REQ on every up link; a TIME_REQ is answered with its T1 and the time its frame arrived; a
TIME_RESP leaves half the difference of the two ways as the link's offset. -/
def Obligations.NodesJoinAndLeave : Prop :=
  (∀ (c : CmdCtx) (node : Nat) (mask : Word) (s : State), Ready 0x500 s → c.part = 0 → node < 2 ^ 14 → s.fab.joined = false →
    s.fab.join = none → s.fab.leaving = none → ∃ u, exec (.fabricJoin c node mask) s = .next u ∧
      u.fab.join = some ⟨some c, node, mask, s.now, none⟩ ∧
      (∀ l, l < 32 → mask.getLsbD l = true → (s.link l).state = 0 ∨ (s.link l).state = 4 →
        (u.link l).state = 1 ∧ (u.link l).wanted = true) ∧
      (∀ l, mask.getLsbD l = false ∨ 32 ≤ l ∨ ((s.link l).state ≠ 0 ∧ (s.link l).state ≠ 4) → u.link l = s.link l) ∧
      u = { beginCmd c 0x500 s with fab := { s.fab with links := u.fab.links, join := u.fab.join } }) ∧
  (∀ (j : JoinJob) (c : CmdCtx) (s : State), s.sys.mode = .running → s.fab.join = some j → j.ctx = some c →
    (s.now.toNat < j.since.toNat + s.fval .fabJoinTimeout * 1000000 → exec .fabJoinTimeoutExpire s = .next s) ∧
    (j.since.toNat + s.fval .fabJoinTimeout * 1000000 ≤ s.now.toNat →
      (s.linksUp = [] → ∃ u, exec .fabJoinTimeoutExpire s
          = .next (finish c .timeout [] 0 0 u) ∧ u.fab.join = none ∧ u.fab.joined = false ∧ u.fab.nodeId = 0 ∧
        (∀ l, l < 32 → j.mask.getLsbD l = true → (u.link l).state = 0 ∧ (u.link l).wanted = false) ∧
        u = { s with fab := u.fab }) ∧
      (s.linksUp ≠ [] → ∃ u body, exec .fabJoinTimeoutExpire s
          = .next (finish c .ok body 0 0 u) ∧ u.fab.join = none ∧ u.sys.lastJoin = some (j.node, j.mask) ∧
        (∀ l, s.linkUp l = true → u.link l = s.link l) ∧
        (∀ l, l < 32 → j.mask.getLsbD l = true → s.linkUp l = false → (u.link l).state = 0)))) ∧
  (∀ (c : CmdCtx) (s : State), Ready 0x501 s → c.part = 0 →
    (s.fab.joined = false → exec (.fabricLeave c) s = .next (finish c .notReady [] 0 0 (beginCmd c 0x501 s))) ∧
    (s.fab.joined = true → s.fab.join = none → s.fab.leaving = none → s.flow.leases = [] → s.flow.held = [] →
      s.tiles.colls = [] → s.linksUp = [] → (∀ l, l < 32 → (s.link l).heldMsgs = [] ∧ (s.link l).rekeyCtx = none) →
      ∃ u, exec (.fabricLeave c) s = .next (finish c .ok (leBytes 8 s.now.toNat) 0 0 u) ∧
        u.fab.joined = false ∧ u.fab.nodeId = 0 ∧ (∀ l, l < 32 → (u.link l).state = 0) ∧
        u = { beginCmd c 0x501 s with fab := u.fab })) ∧
  (∀ (l : Nat) (m : Msg) (s : State), s.sys.mode = .running → s.linkUp l = true → (s.link l).heldMsgs = [] →
    (s.link l).rekeyCtx = none → ∃ t, exec (.leave l m) s = .next t ∧ (t.link l).state = 0 ∧ (t.link l).wanted = false ∧
      (∀ k, k ≠ l → t.link k = s.link k) ∧
      t = { s with fab := { s.fab with links := t.fab.links, inbox := t.fab.inbox } }) ∧
  (∀ (c : CmdCtx) (s : State), Ready 0x502 s → c.part = 0 → exec (.fabricStatus c) s
    = .next (finish c .ok ((List.range 32).flatMap (statusEntry s)) 0 0 (beginCmd c 0x502 s))) ∧
  (∀ (c : CmdCtx) (first count : Nat) (s : State), Ready 0x540 s → c.part = 0 → count ≠ 0 → first + count ≤ 2 ^ 14 →
    exec (.timeOffsets c first count) s = .next (finish c .ok
      ((List.range (min count 1020)).flatMap (fun i => leBytesI 4 (offsetOf s (first + i)))) 0
      (if min count 1020 < count then 2 else 0) (beginCmd c 0x540 s))) ∧
  (∀ s : State, s.sys.mode = .running → s.fab.joined = true →
    (s.now.toNat < s.fab.timerAt.toNat + 1000000000 → exec .timeExchangeTimer s = .next s) ∧
    (s.fab.timerAt.toNat + 1000000000 ≤ s.now.toNat → ∃ t, exec .timeExchangeTimer s = .next t ∧ t.fab.timerAt = s.now ∧
      t.fab.advSeq = (if s.isMaster = true then s.fab.advSeq + 1 else s.fab.advSeq) ∧
      (∀ l, l < 32 → s.linkUp l = true → ∃ m, (t.link l).outQ = (s.link l).outQ ++ [(l, m)] ∧ m.mtype = 3 ∧
        m.dst = (s.link l).peer) ∧
      (∀ l, s.linkUp l = false → t.link l = s.link l) ∧ t = { s with fab := t.fab })) ∧
  ∀ (l : Nat) (m : Msg) (s : State), s.sys.mode = .running → s.linkUp l = true →
    (∃ t n, exec (.timeReq l m) s = .next t ∧ (t.link l).outQ = (s.link l).outQ ++ [(l, n)] ∧ n.mtype = 4 ∧
      n.body.take 16 = fitTo 8 m.body ++ leBytes 8 (s.arrivalOf m).toNat ∧ (∀ k, k ≠ l → t.link k = s.link k) ∧
      t = { s with fab := t.fab }) ∧
    (s.fab.joined = true → s.fab.join = none → s.isMaster = true ∨ s.fab.via ≠ (s.link l).peer →
      let t1 := BitVec.ofNat 64 (uAt m.body 0 8)
      let t2 := BitVec.ofNat 64 (uAt m.body 8 8)
      let t3 := BitVec.ofNat 64 (uAt m.body 16 8)
      ∃ t, exec (.timeResp l m) s = .next t ∧ (t.link l).offset = some (Int.tdiv ((t2 - t1) - (s.arrivalOf m - t3)).toInt 2) ∧
        (∀ k, k ≠ l → t.link k = s.link k) ∧ t = { s with fab := t.fab })


/-! ### Partitions, keys and reports -/

/-- Partitions (12 R376 to R381). PART_CREATE gives a FREE number its owner, ports, slots and ranges, a region in scrub for
each range, and one fresh epoch, and changes no other partition; it refuses a list that is too short, that names what
partition 0 does not hold, or that names what is in use. PART_RESET of a partition with nothing on its way removes its tables'
entries and flows, and leaves it CREATED with a fresh epoch; while a tile command of the partition runs it waits in state
RESETTING, and one for a partition that resets or goes is BUSY or waits. PART_DESTROY of a CREATED partition leaves it
DESTROYING without keys, its regions in scrub and its rings partition 0's; any other is BUSY. PART_QUERY replies with its
entry. -/
def Obligations.PartitionsComeAndGo : Prop :=
  (∀ (c : CmdCtx) (p : Nat) (hash : Bytes) (x : Bref) (s : State), Ready 0x600 s → c.part = 0 → p ≠ 0 → p ≤ 63 →
    (s.part p).state = 0 → allZero hash = false →
    let b := beginCmd c 0x600 s
    (brefStatus c x 0 (min x.size 56) b = none → x.size < 56 ∨ x.size < 56 + 8 * uAt (brefRead c x (min x.size 56) b) 48 1 →
      exec (.partCreate c p hash x) s = .next (finish c .badLength [] 0 0 b)) ∧
    let size := 56 + 8 * uAt (brefRead c x 56 b) 48 1
    let l := brefRead c x size b
    56 ≤ x.size → size ≤ x.size → brefStatus c x 0 56 b = none → brefStatus c x 0 size b = none →
    (listHeld b l = false → exec (.partCreate c p hash x) s = .next (finish c .badParam [] 0 0 b)) ∧
    (listHeld b l = true → listBusy b l = true → exec (.partCreate c p hash x) s = .next (finish c .busy [] 0 0 b)) ∧
    (listHeld b l = true → listBusy b l = false → 256 < uAt l 48 1 + s.regions.length →
      exec (.partCreate c p hash x) s = .next (finish c .capacity [] 0 0 b)) ∧
    (listHeld b l = true → listBusy b l = false → uAt l 48 1 + s.regions.length ≤ 256 →
      ∃ u, exec (.partCreate c p hash x) s = .next (finish c .ok [] 0 0 u) ∧ (u.part p).state = 1 ∧
        (u.part p).ownerHash = hash ∧ (u.part p).ports = BitVec.ofNat 32 (uAt l 0 4) ∧
        (u.part p).slots = BitVec.ofNat 256 (uAt l 8 32) ∧ (u.part p).ranges = listRanges l ∧ (u.part p).cmdKey = none ∧
        (u.part p).regions.length = (listRanges l).length ∧
        (∀ r ∈ (u.part p).regions, ∃ y, u.region r = some y ∧ y.part = p ∧ y.state = 2 ∧ y.key0.isSome = true) ∧
        u.eps p = [Epoch.initial] ∧ (∀ q, q ≠ p → u.part q = b.part q ∧ u.eps q = s.eps q) ∧ u.flow = s.flow ∧
        u.tabs = s.tabs ∧ u.egr = s.egr)) ∧
  (∀ (c : CmdCtx) (p : Nat) (s : State), Ready 0x602 s → c.part = 0 ∨ c.part = p → p ≠ 0 → p ≤ 63 →
    ((s.part p).state = 3 ∨ (s.part p).state = 4 → (s.part p).resetCtx = none → c.waitDrain = false →
      exec (.partReset c p) s = .next (finish c .busy [] 0 0 (beginCmd c 0x602 s))) ∧
    ((s.part p).state = 3 ∨ (s.part p).state = 4 → (s.part p).resetCtx = none → c.waitDrain = true →
      exec (.partReset c p) s = .next (drainCmd c (.partReset c p) (beginCmd c 0x602 s))) ∧
    ((s.part p).state = 1 ∨ (s.part p).state = 2 → (s.part p).resetCtx = none → PathEmpty s →
      (∀ x ∈ s.tiles.cmds, x.part = p ∧ x.state = 1) → s.tiles.cmds ≠ [] →
      ∃ u, exec (.partReset c p) s = .next u ∧ (u.part p).state = 3 ∧ (u.part p).resetCtx = some c ∧
        u.tabs.entries = s.tabs.entries ∧ u.flow.ctxs = s.flow.ctxs) ∧
    ((s.part p).state = 1 ∨ (s.part p).state = 2 → (s.part p).resetCtx = none → PathEmpty s → s.tiles.cmds = [] →
      s.slots = [] → ∃ u, exec (.partReset c p) s = .next (finish c .ok [] 0 0 u) ∧ (u.part p).state = 1 ∧
        (u.part p).resetCtx = none ∧ u.eps p = [Epoch.initial] ∧
        u.tabs.entries = s.tabs.entries.filter (fun e => decide (e.part ≠ p)) ∧ (∀ i, (u.ctx i).part ≠ p) ∧
        (∀ i, (s.ctx i).part ≠ p → u.ctx i = s.ctx i))) ∧
  (∀ (c : CmdCtx) (p : Nat) (s : State), Ready 0x601 s → c.part = 0 → p ≠ 0 → p ≤ 63 →
    ((s.part p).state ≠ 0 → (s.part p).state ≠ 1 →
      exec (.partDestroy c p) s = .next (finish c .busy [] 0 0 (beginCmd c 0x601 s))) ∧
    ((s.part p).state = 1 → ∃ u, exec (.partDestroy c p) s = .next (finish c .ok (leBytes 8 (scrubEndAt u p)) 0 0 u) ∧
      (u.part p).state = 4 ∧ (u.part p).cmdKey = none ∧ (u.part p).regions = (s.part p).regions ∧
      (∀ r ∈ (u.part p).regions, ∀ y, u.region r = some y → y.state = 2 ∧ y.key0 = none ∧ y.key1 = none) ∧
      u.tabs.entries = s.tabs.entries.filter (fun e => decide (e.part ≠ p)) ∧
      (∀ n, n < 64 → (u.ring n).part ≠ p) ∧ (∀ k ∈ u.intake.pkts, k.part ≠ p))) ∧
  ∀ (c : CmdCtx) (p : Nat) (s : State), Ready 0x603 s → c.part = 0 ∨ c.part = p → p ≤ 63 →
    let b := beginCmd c 0x603 s
    let t := if scrubEndAt b p = 0 then (b.part p).scrubEnd.toNat else scrubEndAt b p
    exec (.partQuery c p) s = .next (finish c .ok (partEntry b p false ++ leBytes 8 t) 0 0 b)

/-- Keys and reports (12 R386 to R397). A region that is not the caller's is refused with NO_PERMISSION. KEY_ROTATE of a
STEADY region of the caller gives it a fresh key in its other slot, active at once, keeps the old one and starts a walk; a
region that rotates is KEY_ROTATE_PENDING. The end of that walk zeroises the old key and no other. KEY_STATUS replies with the walk. CMD_KEY_SET whose envelope opens to 32 bytes sets the
caller's command key and clears its seal generations. ATTEST_REPORT and CERT_CHAIN write what they report to their buffer,
or say how long it must be; SPDM_REQUEST leaves the DOE mailbox's answer (log 16). -/
def Obligations.KeysAndReports : Prop :=
  (∀ (c : CmdCtx) (r : Nat) (x : Region) (s : State), Ready 0x610 s → regionCheck c r (beginCmd c 0x610 s) = none →
    s.region r = some x →
    (x.state = 0 → ∃ u y, exec (.keyRotate c r) s = .next (finish c .ok [] 0 0 u) ∧ u.region r = some y ∧
      y.active = 1 - x.active ∧ y.key (1 - x.active) = some s.free ∧ y.key x.active = x.key x.active ∧ y.state = 1 ∧
      y.rotations = x.rotations + 1 ∧ y.started = s.now ∧ y.done = 0 ∧
      (∀ k z, k ≠ r → s.region k = some z → ∃ w, u.region k = some w ∧ w.key0 = z.key0 ∧ w.key1 = z.key1 ∧
        w.state = z.state) ∧
      u = { beginCmd c 0x610 s with
        regions := u.regions, free := s.free + 1, slots := (settleWalks s).slots, epochNew := u.epochNew }) ∧
    (x.state = 1 → walkDone (beginCmd c 0x610 s) r x < walkBytes (beginCmd c 0x610 s) r x →
      exec (.keyRotate c r) s = .next (finish c .keyRotatePending [] 0 0 (beginCmd c 0x610 s))) ∧
    (x.state = 2 → walkDone (beginCmd c 0x610 s) r x < walkBytes (beginCmd c 0x610 s) r x →
      (c.waitDrain = false → exec (.keyRotate c r) s = .next (finish c .busy [] 0 0 (beginCmd c 0x610 s))) ∧
      (c.waitDrain = true → exec (.keyRotate c r) s = .next (drainCmd c (.keyRotate c r) (beginCmd c 0x610 s))))) ∧
  (∀ (c : CmdCtx) (r : Nat) (s : State), Ready 0x610 s → (∀ x, s.region r = some x → x.part ≠ c.part) →
    exec (.keyRotate c r) s = .next (finish c .noPermission [] 0 0 (beginCmd c 0x610 s)) ∧
    exec (.keyStatus c r) s = .next (finish c .noPermission [] 0 0 (beginCmd c 0x611 s))) ∧
  (∀ (c : CmdCtx) (r : Nat) (s : State), Ready 0x611 s → regionCheck c r (beginCmd c 0x611 s) = none →
    exec (.keyStatus c r) s
      = .next (finish c .ok (keyStatusBody (beginCmd c 0x611 s) r) 0 0 (beginCmd c 0x611 s))) ∧
  (∀ (r : Nat) (x : Region) (s : State), s.sys.mode = .running → s.region r = some x → x.state ≠ 0 → wipes s = [] →
    (walkDone s r x < walkBytes s r x → exec (.rinseWalkComplete r) s = .next s) ∧
    (walkBytes s r x ≤ walkDone s r x →
      (x.state = 1 → ∃ t y, exec (.rinseWalkComplete r) s = .next t ∧ t.region r = some y ∧ y.state = 0 ∧
        y.active = x.active ∧ y.key (1 - x.active) = none ∧ (x.active ≤ 1 → y.key x.active = x.key x.active) ∧
        (∀ k z, k ≠ r → s.region k = some z → ∃ w, t.region k = some w ∧ w.key0 = z.key0 ∧ w.key1 = z.key1 ∧
          w.state = z.state) ∧ t = { s with regions := t.regions, epochNew := t.epochNew }) ∧
      (x.state = 2 → (s.part x.part).state ≠ 4 → ∃ t y, exec (.rinseWalkComplete r) s = .next t ∧ t.region r = some y ∧
        y.state = 0 ∧ y.key0 = x.key0 ∧ y.key1 = x.key1 ∧ (t.part x.part).scrubEnd = s.now ∧
        (∀ q, q ≠ x.part → t.part q = s.part q) ∧ t = { s with regions := t.regions, parts := t.parts }))) ∧
  (∀ (c : CmdCtx) (e : Bytes) (s : State), Ready 0x620 s →
    (openEnvelope (beginCmd c 0x620 s) 1 c.part 0 e = none →
      exec (.cmdKeySet c e) s = .next (finish c .authFail [] 0 0 (beginCmd c 0x620 s))) ∧
    (∀ k, openEnvelope (beginCmd c 0x620 s) 1 c.part 0 e = some k → k.length ≠ 32 →
      exec (.cmdKeySet c e) s = .next (finish c .authFail [] 0 0 (beginCmd c 0x620 s))) ∧
    ∀ k, openEnvelope (beginCmd c 0x620 s) 1 c.part 0 e = some k → k.length = 32 → ∃ t, exec (.cmdKeySet c e) s = .next t ∧
      (t.part c.part).cmdKey = some (keyOfBytes k) ∧ (t.part c.part).sealGen = 0 ∧ (t.part c.part).ibExp = 0 ∧
      ∀ n, n < 64 → (t.ring n).part = c.part → (t.ring n).ringGen = 0) ∧
  (∀ (c : CmdCtx) (nonce : Bytes) (x : Bref) (s : State), Ready 0x630 s →
    let b := beginCmd c 0x630 s
    let rep := reportBytes b nonce (fun p => c.part == 0 || p == c.part)
    brefStatus c x 1 0 b = none →
    (x.size < rep.length → exec (.attestReport c nonce x) s
      = .next (finish c .capacity (leBytes 4 rep.length) 0 0 b)) ∧
    (rep.length ≤ x.size → brefStatus c x 1 rep.length b = none → exec (.attestReport c nonce x) s
      = .next (finish c .ok (leBytes 4 rep.length) 0 0 (brefWrite c x rep b)))) ∧
  (∀ (c : CmdCtx) (x : Bref) (s : State), Ready 0x631 s →
    let b := beginCmd c 0x631 s
    let chain := chainBytes b
    brefStatus c x 1 0 b = none →
    (x.size < chain.length → exec (.certChain c x) s = .next (finish c .capacity (leBytes 4 chain.length) 0 0 b)) ∧
    (chain.length ≤ x.size → brefStatus c x 1 chain.length b = none → exec (.certChain c x) s
      = .next (finish c .ok (leBytes 4 chain.length) 0 0 (brefWrite c x chain b)))) ∧
  ∀ (q : Bytes) (s : State),
    (s.sys.mode.hasHost = false → exec (.spdmRequest q) s = .next s) ∧
    (q.length < 4 → spdmRefused s q = some [0x13, 0x7f, 0x01, 0x00]) ∧
    (s.sys.mode.hasHost = true → ∀ e, spdmRefused s q = some e →
      exec (.spdmRequest q) s = .next { s with sys := { s.sys with spdmOut := e } }) ∧
    (s.sys.mode.hasHost = true → spdmRefused s q = none → ∃ t a x, exec (.spdmRequest q) s = .next t ∧
      let log := (if uAt q 1 1 = 0x84 then [] else s.sys.spdmLog) ++ q
      spdmAnswer (uAt q 1 1) = some a ∧ x.take 2 = [if uAt q 1 1 = 0x84 then 0x10 else 0x13, BitVec.ofNat 8 a] ∧
      t.sys.spdmOut = (if spdmSigned q then x ++ signBytes s.attestKey (log ++ x) else x) ∧
      t.sys.spdmLog = log ++ t.sys.spdmOut ∧
      t = { s with sys := { s.sys with spdmOut := t.sys.spdmOut, spdmLog := t.sys.spdmLog } })


/-! ### Stops and errors -/

/-- Stops (15 R464 to R470). WRING_STOP, the STOP_IN pin and a STOP message take a stop where they may: the module is FATAL
from then on, with the cause in STOP_CAUSE, S twelve PKCLK cycles on and no frame in transmission, and its flows, tables,
models and tiles stay as they were. WRING_STOP replies with S, and with that of the stop that stands. A capture that is full
or has been idle ends. WRING_SCANOUT writes the scan-out where it fits its buffer. -/
def Obligations.StopsHaltTheModule : Prop :=
  let halted := fun (s t : State) (cause : Nat) (o : Nat × DWord) => t.sys.mode = .fatal ∧
    t.sys.stopCause = BitVec.ofNat 4 cause ∧ t.egr.tx = [] ∧ t.flow = s.flow ∧ t.tabs = s.tabs ∧ t.slots = s.slots ∧
    t.tiles = s.tiles ∧ t.fields = s.fields ∧ ∃ st, t.obs.stop = some st ∧ st.cause = cause ∧ st.ft = stopFt s ∧
      st.pk = s.clk.pk - s.clk.startPk + 12 ∧ (st.origin, st.originFt) = o ∧ st.caps = []
  (∀ (c : CmdCtx) (k : Nat) (s : State), c.part = 0 → k ≤ 3 →
    (Ready 0x730 s → s.obs.stop = none → ∃ u, exec (.wringStop c k) s
        = .next (finish c .ok (leBytes 8 (stopFt s).toNat) 0 0 u) ∧ halted s u 1 (s.nodeOr, stopFt s) ∧
      u.sys.stopOut = (s.sys.stopOut || k.testBit 1)) ∧
    (∀ st, Ready 0x730 s → s.obs.stop = some st → st.pk ≠ s.clk.pk - s.clk.startPk + 12 → exec (.wringStop c k) s
        = .next (finish c .ok (leBytes 8 st.ft.toNat) 0 0 (beginCmd c 0x730 s)))) ∧
  (∀ (l : Nat) (m : Msg) (s : State), s.sys.mode = .running → s.linkUp l = true →
    ((s.fval .stopCtrl).testBit 3 = false → exec (.stop l m) s
      = .next { s with fab := { s.fab with inbox := delFirst (fun x => decide (x.2 = m)) s.fab.inbox } }) ∧
    ((s.fval .stopCtrl).testBit 3 = true → ∃ t, exec (.stop l m) s = .next t ∧
      halted s t 8 (uAt m.body 0 2, BitVec.ofNat 64 (uAt m.body 8 8)))) ∧
  (∀ s : State, s.sys.mode = .running →
    ((s.fval .stopCtrl).testBit 0 = false → exec .stopInEdge s = .next s) ∧
    ((s.fval .stopCtrl).testBit 0 = true → ∃ t, exec .stopInEdge s = .next t ∧ halted s t 4 (s.nodeOr, stopFt s))) ∧
  (∀ (n : Nat) (s : State), (s.obs.stop = none → exec (.stopCaptureEnd n) s = .next s) ∧
    ∀ st, s.obs.stop = some st →
      let x := smGet {} st.caps n
      (x.bytes.length ≠ 4096 → s.now.toNat < (x.last.getD st.ft).toNat + 10000 → exec (.stopCaptureEnd n) s = .next s) ∧
      (x.bytes.length = 4096 ∨ (x.last.getD st.ft).toNat + 10000 ≤ s.now.toNat → ∃ t caps,
        exec (.stopCaptureEnd n) s = .next t ∧ smGet {} caps n = { x with ended := true } ∧
        (∀ k, k ≠ n → smFind caps k = smFind st.caps k) ∧
        t = { s with obs := { s.obs with stop := some { st with caps := caps } } })) ∧
  ∀ (c : CmdCtx) (x : Bref) (s : State), Ready 0x731 s → c.part = 0 → brefForm c x 1 = true → x.loc = 0 →
    let b := beginCmd c 0x731 s
    (s.obs.stop = none → exec (.wringScanout c x) s = .next (finish c .notReady [] 0 0 b)) ∧
    ∀ st, s.obs.stop = some st →
      let n := scanLength b st
      (x.size < n → exec (.wringScanout c x) s = .next (finish c .capacity (leBytes 8 n) 0 0 b)) ∧
      (n ≤ x.size → exec (.wringScanout c x) s = .next (finish c .ok (leBytes 8 n) 0 0
        { b with host := memWriteN s.host x.addr.toNat (scanBytes b st) }))

/-- Error events and fences (13 R400 to R414). A corrected event below its source's threshold counts and makes no record. A
poisoning event marks its line and is recorded. A FATAL event is recorded and stops the module with every link down. An event
of severity 2 starts the fence of its unit where DARN is idle. The end of a procedure moves a lane to its spare or fences its
unit, and replies to the commands that asked for it; a watchdog that expires on a unit which holds work and has made no
progress asks for its fence; at the limits a draining pipeline's packets are dropped and a tile's command ends with ABORTED. -/
def Obligations.DarnHandlesErrors : Prop :=
  let log := fun (s : State) => (smGet {} s.darn.logs 0).recs
  (∀ (e : ErrIn) (s : State), s.sys.mode = .running → sourceOk e.source = true →
    let w := winNow s (winOf e s)
    (e.severity = 0 → e.kind = 0 → e.source / 1024 ≠ 2 → winCount w < w.t → ∃ t, exec (.errorEvent e) s = .next t ∧
      winCount (winNow t (winOf e t)) = winCount w + 1 ∧ t.darn.logs = s.darn.logs ∧
      t.cntAt (Ctr.errors e.source).key = s.cntAt (Ctr.errors e.source).key + 1 ∧
      (∀ a : ErrIn, a.source ≠ e.source → winOf a t = winOf a s) ∧ (∀ k, k ≠ e.source → t.win k = s.win k) ∧
      t = { s with darn := { s.darn with wins := t.darn.wins, hbmRows := t.darn.hbmRows }, obs := t.obs }) ∧
    (e.severity = 1 → e.source / 1024 = 1 → e.kind = 1 → e.part = 0xff → (log s).length < 4096 → ∀ n l, e.at_ = .tileLine n l →
      ∃ t r, exec (.errorEvent e) s = .next t ∧ log t = log s ++ [r] ∧ r.severity = 1 ∧ r.action = 1 ∧ r.source = e.source ∧
        (smGet {} t.tiles.lines (n * 32768 + l)).poison = true ∧ t.tiles.mem = s.tiles.mem ∧ t.sys = s.sys) ∧
    (e.severity = 3 → e.part = 0xff → (log s).length < 4096 → ∃ t r, exec (.errorEvent e) s = .next t ∧
      log t = log s ++ [r] ∧ r.severity = 3 ∧ r.action = 7 ∧ r.source = e.source ∧ t.sys.mode = .fatal ∧
      t.sys.stopCause = 2 ∧ (∀ l, l < 32 → (t.link l).state = 0) ∧ t.flow = s.flow ∧ t.slots = s.slots) ∧
    (e.severity = 2 → e.source / 1024 = 7 → e.unit / 1024 = 2 → e.part = 0xff → s.isFenced e.unit = false →
      leavesNone s e.unit = false → s.darn.proc = none → (log s).length < 4096 → ∃ t r p, exec (.errorEvent e) s = .next t ∧
        log t = log s ++ [r] ∧ r.severity = 2 ∧ r.action = 5 ∧ r.unit = e.unit ∧ t.darn.proc = some p ∧ p.unit = e.unit ∧
        p.action = 5 ∧ p.ctxs = [] ∧ p.pk = s.clk.pk ∧ t.darn.fenced = s.darn.fenced ∧
        t = { s with darn := t.darn, obs := t.obs })) ∧
  (∀ s : State, s.sys.mode = .running → (s.darn.proc = none → exec .procedureEnd s = .next s) ∧
    ∀ p, s.darn.proc = some p → p.source = 0 → s.darn.pend = [] →
      (p.action = 4 → ∃ u, exec .procedureEnd s = .next (finishAll p.ctxs u) ∧
        u = { s with darn := { s.darn with proc := none, spares := s.darn.spares ++ [p.unit % 1024] } }) ∧
      (p.action = 5 → p.unit / 1024 = 2 → s.isFenced p.unit = false → ∃ u, exec .procedureEnd s = .next (finishAll p.ctxs u) ∧
        u = { s with darn := { s.darn with proc := none, fenced := s.darn.fenced ++ [p.unit] } }) ∧
      (p.action = 5 → p.unit / 1024 = 1 → inPipe s (p.unit % 1024) ≠ [] → exec .procedureEnd s = .next s)) ∧
  (∀ (u : Nat) (s : State), s.sys.mode = .running →
    (stuck s u = false ∨ s.isFenced u = true → exec (.darnWatchdogExpire u) s = .next s) ∧
    (holdsWork s u = false ∨ s.now.toNat < (movedAt s u).toNat + s.fval .darnWatchdog * 1000 → stuck s u = false) ∧
    (unitOk u = true → u / 1024 = 2 → stuck s u = true → s.isFenced u = false → leavesNone s u = false →
      s.darn.proc = none → ∃ t p, exec (.darnWatchdogExpire u) s = .next t ∧ t.darn.proc = some p ∧ p.unit = u ∧
        p.action = 5 ∧ t = { s with darn := t.darn, obs := t.obs })) ∧
  (∀ (k : Nat) (p : Proc) (x : Packet) (s : State), s.sys.mode = .running → fencing s (pipeUnit k) = some p →
    inPipe s k = [x] → (s.clk.pk < p.pk + 32000 → exec (.pipelineFenceDrainLimit k) s = .next s) ∧
    (p.pk + 32000 ≤ s.clk.pk → ∃ t, exec (.pipelineFenceDrainLimit k) s = .next t ∧ inPipe t k = [] ∧
      t.cntAt (Ctr.drop x.part .fenceDrop).key = s.cntAt (Ctr.drop x.part .fenceDrop).key + 1 ∧
      t.eps x.part = (s.eps x.part).map (fun e => if e.num = x.epoch then { e with refs := e.refs - 1 } else e) ∧
      t.egr = s.egr ∧ t.flow = s.flow)) ∧
  ∀ (n : Nat) (p : Proc) (x : TCmd) (s : State), s.sys.mode = .running → fencing s (tileUnit n) = some p → n < 32 →
    runningOn s n = some x → s.tiles.cmds.find? (fun y => decide (y.id = x.id)) = some x →
    (∀ j ∈ s.tiles.jobs, j.id = x.job → j.ctx = none ∧ j.slot.isSome = true) →
    s.tiles.cmds.filter (fun y => decide ((y.state = 1 ∧ y.tile = n) ∨ (y.state = 0 ∧ uAt y.bytes 2 1 = n))) = [x] →
    (s.clk.pk < p.pk + s.fval .darnTileWait * 1600 → exec (.tileFenceForced n) s = .next s) ∧
    (p.pk + s.fval .darnTileWait * 1600 ≤ s.clk.pk → ∃ t y, exec (.tileFenceForced n) s = .next t ∧
      t.tiles.cmds.find? (fun z => decide (z.id = x.id)) = some y ∧ y.state = 2 ∧ y.status = Status.aborted.code ∧
      t.tiles.mem = s.tiles.mem ∧ t.hbm = s.hbm ∧ t.fact .tileOwner n = s.fvalBefore .tileOwner n)

/-- DARN's commands (13 R404, R419 to R421). ERROR_READ replies with the caller's records from an index on and changes
nothing; ERROR_ACK removes the caller's records up to its index; WINDOW_SET gives its sources a window with nothing counted;
UNIT_FENCE makes its record and asks for the procedure, which will reply; UNIT_UNFENCE puts a unit in service again;
ERROR_INJECT is BAD_OPCODE unless the module is XE8-A1D, where kind 2 first fills the source's window up to its threshold. -/
def Obligations.DarnCommands : Prop :=
  (∀ (c : CmdCtx) (first count : Nat) (s : State), Ready 0x800 s →
    let l := smGet {} s.darn.logs c.part
    let want := (l.recs.filter (fun r => serialFrom r.index first)).take count
    let got := want.take 63
    exec (.errorRead c first count) s = .next (finish c .ok
      (leBytes 4 (match got.getLast? with | some r => (r.index + 1) % 2 ^ 32 | none => l.next) ++ leBytes 4 l.lost
        ++ got.flatMap recBytes64) 0 (if got.length < want.length then 2 else 0) (beginCmd c 0x800 s))) ∧
  (∀ (c : CmdCtx) (n : Nat) (s : State), Ready 0x801 s → ∃ u, exec (.errorAck c n) s = .next (finish c .ok [] 0 0 u) ∧
    (∀ r, r ∈ (smGet {} u.darn.logs c.part).recs ↔
      (r ∈ (smGet {} s.darn.logs c.part).recs ∧ serialFrom n r.index = false)) ∧
    (∀ p, p ≠ c.part → smGet {} u.darn.logs p = smGet {} s.darn.logs p) ∧
    u = { beginCmd c 0x801 s with darn := { s.darn with logs := u.darn.logs } }) ∧
  (∀ (c : CmdCtx) (src t w : Nat) (s : State), Ready 0x810 s → c.part = 0 → windowSources src ≠ [] → 1000 ≤ w →
    w ≤ 3600000000 → ∃ u, exec (.windowSet c src t w) s = .next (finish c .ok [] 0 0 u) ∧
      (∀ k ∈ windowSources src, u.win k = ⟨t, w, [], 0⟩) ∧ (∀ k, k ∉ windowSources src → u.win k = s.win k) ∧
      (∀ e : ErrIn, e.source ∈ windowSources src → winOf e u = ⟨t, w, [], 0⟩) ∧
      (∀ e : ErrIn, e.source ∉ windowSources src → winOf e u = winOf e s) ∧
      u = { beginCmd c 0x810 s with darn := { s.darn with wins := u.darn.wins, hbmRows := u.darn.hbmRows } }) ∧
  (∀ (c : CmdCtx) (n : Nat) (s : State), Ready 0x820 s → c.part = 0 → unitOk n = true → outOfService s n = false →
    (leavesNone s n = true → exec (.unitFence c n) s = .next (finish c .capacity [] 0 0 (beginCmd c 0x820 s))) ∧
    (leavesNone s n = false → (isLane n = true → spareUsed s n = false) → s.darn.proc = none →
      (smGet {} s.darn.logs 0).recs.length < 4096 → ∃ u p r, exec (.unitFence c n) s = .next u ∧ u.darn.proc = some p ∧
        p.unit = n ∧ p.ctxs = [c] ∧ p.action = (if isLane n = true then 4 else 5) ∧
        (smGet {} u.darn.logs 0).recs = (smGet {} s.darn.logs 0).recs ++ [r] ∧ r.flags = 32 ∧ r.unit = n ∧
        (isLane n = true → u = { beginCmd c 0x820 s with darn := u.darn }))) ∧
  (∀ (c : CmdCtx) (n : Nat) (s : State), Ready 0x821 s → c.part = 0 → unitOk n = true → outOfService s n = true →
    ∃ u, exec (.unitUnfence c n) s = .next (finish c .ok [] 0 0 u) ∧ outOfService u n = false ∧
      (∀ k, k ≠ n → u.isFenced k = s.isFenced k) ∧
      u = { beginCmd c 0x821 s with darn := u.darn, fields := { s.fields with act := u.fields.act } }) ∧
  ∀ (c : CmdCtx) (src kind : Nat) (s : State), Ready 0x830 s →
    (s.sys.fuses.debug = false → exec (.errorInject c src kind) s = .next (finish c .badOpcode [] 0 0 (beginCmd c 0x830 s))) ∧
    (s.sys.fuses.debug = true → c.part = 0 → sourceOk src = true →
      (kind < 2 → exec (.errorInject c src kind) s
        = .next (finish c .ok [] 0 0 (darnEvent (injected src kind) 16 (beginCmd c 0x830 s)))) ∧
      (kind = 2 → ∃ t, exec (.errorInject c src kind) s = .next (finish c .ok [] 0 0 (darnEvent (injected src 2) 16 t)) ∧
        winCount (winNow t (winOf (injected src 2) t))
          = max (winCount (winNow s (winOf (injected src 2) s))) (winNow s (winOf (injected src 2) s)).t ∧
        (∀ k, k ≠ src → t.win k = s.win k)))


/-! ### Power, starts and loops -/

/-- Power (14 R424 to R434). Input power brings the module from OFF to STANDBY; PWR_EN and PERST_N, both high, start BOOT,
which ends in WAIT_START, or in SAFE after three failed starts. Every removal cause leaves the module REMOVING with nothing of
its volatile state (log 64), keeps its images and fuses, and notes whether the main path opens; 1 ms later it is in STANDBY,
or OFF where the input is lost or the path open. Above 72 V the input stage may be damaged besides; a module whose input stage
is damaged may not come up (log 98). BOOT_DONE puts the activated images in service. -/
def Obligations.PowerComesAndGoes : Prop :=
  let removed := fun (s : State) (o : Host.Outcome State Fault Refusal) (lost opens : Bool) => ∃ t, o = .next t ∧
    t.sys.mode = .removing ∧ t.sys.removal = some ⟨s.now, opens⟩ ∧ t.sys.inputPresent = (s.sys.inputPresent && !lost) ∧
    Quiet t ∧ t.sys.fw = s.sys.fw ∧ t.sys.fuses = s.sys.fuses ∧ t.sys.starts = s.sys.starts ∧ t.clk = s.clk ∧ t.host = s.host ∧
    t.pending = s.pending ∧ t.impl = s.impl
  let booted := fun (s t : State) => t.sys.mode = .boot ∧ Quiet t ∧ t.clk = {} ∧ t.sys.fw = s.sys.fw ∧
    t.sys.failedStarts = s.sys.failedStarts ∧ t.sys.fuses = s.sys.fuses ∧ t.pending = s.pending ∧ t.impl = s.impl
  ∀ s : State,
    (∀ n, let up := if s.sys.mode = .off then
          { s.sys with mode := .standby, inputPresent := true, mainPath := true, slotId := n }
        else { s.sys with inputPresent := true }
      (s.sys.inputHarmed = false → exec (.inputPowerPresent n) s = .next { s with sys := up }) ∧
      (s.sys.inputHarmed = true → exec (.inputPowerPresent n) s = .next { s with free := s.free + 1 } ∨
        exec (.inputPowerPresent n) s = .next { s with free := s.free + 1, sys := up })) ∧
    (s.sys.mode = .standby → s.sys.perstN = true → ∃ t, exec .pwrEnRise s = .next t ∧ booted s t) ∧
    (s.sys.mode ≠ .standby ∨ s.sys.perstN = false → exec .pwrEnRise s = .next { s with sys := { s.sys with pwrEn := true } }) ∧
    (s.sys.mode = .standby → s.sys.pwrEn = true → ∃ t, exec .perstNRise s = .next t ∧ booted s t) ∧
    (s.sys.mode ≠ .standby ∨ s.sys.pwrEn = false → exec .perstNRise s = .next { s with sys := { s.sys with perstN := true } }) ∧
    (s.sys.mode ≠ .boot → exec .bootDone s = .next s) ∧
    (s.sys.mode = .boot → ∃ t, exec .bootDone s = .next t ∧
      (∀ k, 1 ≤ k → k ≤ 4 → k < s.sys.fw.length → (nth {} s.sys.fw k).state = 2 →
        (nth {} t.sys.fw k).state = 0 ∧ (nth {} t.sys.fw k).running = (nth {} s.sys.fw k).pending) ∧
      (∀ k, k = 0 ∨ (nth {} s.sys.fw k).state ≠ 2 → nth {} t.sys.fw k = nth {} s.sys.fw k) ∧
      t = { s with free := t.free, sys := t.sys } ∧
      t.sys = { s.sys with
        fw := t.sys.fw, mode := if 3 ≤ s.sys.failedStarts then .safe else .waitStart, fuseLatched := true, keysLive := true,
        pcieUp := true }) ∧
    (s.sys.mode ≠ .off → s.sys.mode ≠ .removing →
      removed s (exec .prsntNBreak s) false false ∧ removed s (exec .thermalTrip s) false false ∧
      removed s (exec .pwrEnFall s) false false ∧ removed s (exec .vinUnderVoltage s) true false ∧
      removed s (exec .currentTrip s) false true ∧
      (s.sys.mode ≠ .standby → removed s (exec .perstNFall s) false false ∧ removed s (exec .railFault s) false false) ∧
      ∀ mv, 63000 < mv → removed s (exec (.vinOverVoltage mv) s) false true) ∧
    (s.sys.mode = .standby → exec .railFault s = .next s ∧ ∃ t, exec .perstNFall s = .next t ∧ t.rings = [] ∧
      t.sys.perstN = false ∧ t.sys.mode = .standby ∧ t = { s with rings := [], sys := t.sys }) ∧
    (s.sys.mode = .off → exec .prsntNBreak s = .next s ∧ exec .thermalTrip s = .next s ∧ exec .railFault s = .next s) ∧
    (s.sys.mode = .removing → ∀ r, s.sys.removal = some r →
      exec .currentTrip s = .next { s with sys := { s.sys with removal := some { r with mainPathOff := true } } } ∧
      (s.now.toNat < r.since.toNat + 1000000 → exec .removalComplete s = .next s) ∧
      (r.since.toNat + 1000000 ≤ s.now.toNat → ∃ t, exec .removalComplete s = .next t ∧ t.sys.removal = none ∧
        (s.sys.inputPresent = true → r.mainPathOff = false → t.sys.mode = .standby ∧ t.sys.i3cAddr = s.sys.i3cAddr) ∧
        (s.sys.inputPresent = false ∨ r.mainPathOff = true → t.sys.mode = .off ∧ t.sys.i3cAddr = none) ∧
        t = { s with sys := t.sys })) ∧
    (∀ mv, mv ≤ 63000 → exec (.vinOverVoltage mv) s
      = .next { s with sys := { s.sys with i3cVin := BitVec.ofNat 16 (mv / 10) } }) ∧
    (∀ mv, 63000 < mv → ∃ t, exec (.vinOverVoltage mv) s = .next t ∧ t.sys.i3cVin = BitVec.ofNat 16 (mv / 10) ∧
      (mv ≤ 72000 ∨ s.sys.inputHarmed = true → t.sys.inputHarmed = s.sys.inputHarmed)) ∧
    ∀ a, (s.sys.mode = .off → exec (.entdaa a) s = .next s) ∧
      (s.sys.mode ≠ .off → exec (.entdaa a) s = .next { s with sys := { s.sys with i3cAddr := some a } })

/-- Starts (14 R443 to R451). START with no other command open enters STARTING and replies nothing yet; with another open it
waits. A cold start that completes leaves partition 0 alone, its regions with fresh keys, no table entry, flow, model, packet
or message, HBM zero, and the module RUNNING. A failed warm start goes on as a cold one; a failed cold one counts, and the
third in a row enters SAFE and replies NOT_READY. SHUTDOWN with nothing on its way leaves the module STOPPED with its links
down. -/
def Obligations.StartsAndShutdown : Prop :=
  (∀ (c : CmdCtx) (k : Nat) (s : State), Ready 0x010 s → c.part = 0 →
    let b := beginCmd c 0x010 s
    (1 < k ∨ (k = 1 ∧ coldAsked s = true) → exec (.start c k) s = .next (finish c .badParam [] 0 0 b)) ∧
    (k = 0 ∨ (k = 1 ∧ coldAsked s = false) →
      (othersOpen c (fun _ => true) b = false → ∃ u, exec (.start c k) s = .next u ∧ u.sys.mode = .starting ∧
        u.sys.start = some { ctx := c, warm := k == 1, preserve := c.preserve, fromSafe := decide (s.sys.mode = .safe) } ∧
        u.sys.starts = s.sys.starts + 1 ∧ u.sys.stopCause = 0 ∧ u.obs.stop = none ∧ u.clk.startPk = s.clk.pk ∧
        u.flow = s.flow ∧ u.tabs = s.tabs ∧ u.fields = s.fields ∧ u.hbm = s.hbm ∧
        (s.sys.mode = .waitStart → u.sys.fw = s.sys.fw)) ∧
      (othersOpen c (fun _ => true) b = true → othersOpen c (fun e => decide (e.opc = 0x010) && e.mark.isSome) b = false →
        ∃ u, exec (.start c k) s = .next u ∧ u.sys = s.sys ∧ u = { b with rings := u.rings, parts := u.parts }))) ∧
  (∀ (j : StartJob) (s : State), s.sys.mode = .starting → s.sys.start = some j → j.joining = false →
    (j.warm = false → s.fval .startJoin ≠ 1 → ∃ u body, exec .startComplete s = .next (finish j.ctx .ok body 0 0 u) ∧
      body.take 4 = zeros 4 ∧ u.sys.mode = .running ∧ u.sys.start = none ∧ u.sys.lastStart = 0 ∧ u.sys.failedStarts = 0 ∧
      u.tabs.entries = [] ∧ u.flow.ctxs = [] ∧ u.flow.hots = [] ∧ u.slots = [] ∧ u.intake.pkts = [] ∧ u.fab = {} ∧
      u.hbm = [] ∧ u.tiles.mem = [] ∧ u.tiles.cmds = [] ∧ u.egr.copies = [] ∧ u.egr.queues = [] ∧ u.darn.fenced = [] ∧
      (∀ p, p ≠ 0 → (u.part p).state = 0) ∧ (u.part 0).state = 2 ∧ (∀ p, u.eps p = [Epoch.initial]) ∧
      (∀ r x, u.region r = some x → x.key0.isSome = true ∧ x.key1 = none) ∧
      (∀ n, n < 64 → (s.ring n).part ≠ 0 → (u.ring n).part = 0 ∧ (u.ring n).en = false)) ∧
    (j.warm = true → exec .startFailed s
      = .next { s with sys := { s.sys with start := some { j with warm := false, preserve := false } } }) ∧
    (j.warm = false → j.fromSafe = false → s.sys.failedStarts + 1 < 3 → exec .startFailed s
      = .next { s with sys := { s.sys with failedStarts := s.sys.failedStarts + 1 } }) ∧
    (j.warm = false → j.fromSafe = true ∨ 2 ≤ s.sys.failedStarts → ∃ u body, exec .startFailed s
      = .next (finish j.ctx .notReady body 0 0 u) ∧ u.sys.mode = .safe ∧ u.sys.start = none ∧ u.hbm = [] ∧
      (∀ n, (u.laser n).on = false))) ∧
  ∀ (c : CmdCtx) (s : State), Ready 0x011 s → c.part = 0 → othersOpen c (fun _ => true) (beginCmd c 0x011 s) = false →
    packetsGone s = true → s.tiles.cmds = [] → ∃ u, exec (.shutdown c) s = .next (finish c .ok [] 0 0 u) ∧
      u.sys.mode = .stopped ∧ u.sys.eqSaved = true ∧ (∀ l, l < 32 → (u.link l).state = 0) ∧ u.flow = s.flow ∧ u.tabs = s.tabs ∧
      u.hbm = s.hbm ∧ u.slots = s.slots ∧ u.fields = s.fields

/-- Loops, lasers, PPS and the HBM arbiters (14 R435 to R442, R452, 01 R16, R35, R36). A PLL that loses lock stops a running
module. A rail moves 5 mV within its window, and not while the loop is frozen. The target divider stays within TCLK_CTRL's
bounds and moves one step a period. Lasers follow their cartridge, and a link whose engine has no light is DOWN. A glitch on
PPS_IN counts, and another edge is captured. A refill fills the floor and every bucket up to its depth; a grant takes the
oldest request of the floor while it has credit, and else one that a partition's tokens cover. -/
def Obligations.LoopsLasersAndArbiters : Prop :=
  (∀ s : State, (s.sys.mode ≠ .running → (∀ st, s.obs.stop = some st → st.pk ≠ s.clk.pk - s.clk.startPk + 12) →
      exec .pllLossOfLock s = .next s) ∧
    (s.sys.mode = .running → ∃ t, exec .pllLossOfLock s = .next t ∧ t.sys.mode = .fatal ∧ t.sys.stopCause = 2 ∧
      (∀ l, l < 32 → (t.link l).state = 0) ∧ t.flow = s.flow) ∧
    (s.sys.mode = .running → s.sys.eqAt + 60 * 1600000000 ≤ s.clk.pk → exec .eqSave s
      = .next { s with sys := { s.sys with eqSaved := true, eqAt := s.clk.pk,
                                           eqFlash := (List.range 12).map (fun e => (e, s.eqTime e)) } }) ∧
    (s.clk.pk < s.sys.eqAt + 60 * 1600000000 → exec .eqSave s = .next s)) ∧
  (∀ (r : Nat) (up : Bool) (s : State), r < s.clk.railMv.length →
    let mv := nth 0 s.clk.railMv r
    (mayStep s r = false → exec (.voltageLoopStep r up) s = .next s) ∧
    (mayStep s r = true → (up = true ∧ mv + 5 ≤ 850) ∨ (up = false ∧ railLow r + 5 ≤ mv) →
      ∃ t, exec (.voltageLoopStep r up) s = .next t ∧ nth 0 t.clk.railMv r = (if up = true then mv + 5 else mv - 5) ∧
        (∀ k, k ≠ r → nth 0 t.clk.railMv k = nth 0 s.clk.railMv k) ∧
        t = { s with clk := { s.clk with railMv := t.clk.railMv, railAt := t.clk.railAt, railTop := t.clk.railTop } }) ∧
    (mayStep s r = true → up = false → mv < railLow r + 5 → exec (.voltageLoopStep r up) s = .next s) ∧
    (mayStep s r = true → up = true → 850 < mv + 5 → ∃ t, exec (.voltageLoopStep r up) s = .next t ∧
      t.clk.railMv = s.clk.railMv ∧ t = { s with clk := { s.clk with railTop := t.clk.railTop }, obs := t.obs })) ∧
  (∀ (p tj : Nat) (low : Bool) (s : State), s.sys.mode = .running → s.clk.tclkOld = none →
    let k := s.fval .tclkCtrl
    let lo := bitsOf k 4 0
    let hi := bitsOf k 12 8
    (s.clk.pk < (s.clk.periods + 1) * 160000 → exec (.frequencyPeriod p tj low) s = .next s) ∧
    ((s.clk.periods + 1) * 160000 ≤ s.clk.pk → ∃ t, exec (.frequencyPeriod p tj low) s = .next t ∧
      t.clk.periods = s.clk.periods + 1 ∧
      (k.testBit 16 = true → t.clk.target = s.clk.target ∧ t.clk.freqHold = s.clk.freqHold) ∧
      (k.testBit 16 = false → lo ≤ hi → lo ≤ t.clk.target ∧ t.clk.target ≤ hi) ∧
      (k.testBit 16 = false → s.fval .pwrLimit < p ∨ s.fval .tjLimit < tj ∨ low = true → lo ≤ s.clk.target →
        s.clk.target < hi → t.clk.target = s.clk.target + 1 ∧ t.clk.freqHold = 0) ∧
      (k.testBit 16 = false → p + 25 < s.fval .pwrLimit → tj + 5 < s.fval .tjLimit → low = false → 9 ≤ s.clk.freqHold →
        lo < s.clk.target → s.clk.target ≤ hi → t.clk.target + 1 = s.clk.target ∧ t.clk.freqHold = 0) ∧
      t = { s with clk := { s.clk with target := t.clk.target, freqHold := t.clk.freqHold, periods := t.clk.periods },
                   sys := { s.sys with i3cPin := BitVec.ofNat 16 p } })) ∧
  (∀ (n : Nat) (s : State),
    (∃ t, exec (.cartridgeLatchOpen n) s = .next t ∧ t.laser n = {} ∧ (∀ k, k ≠ n → t.laser k = s.laser k) ∧
      ∀ l, l < 32 → (t.link l).state = 0 ∨ t.linkLit l = true) ∧
    ((s.laser n).present = false → ∃ t, exec (.cartridgeLatchClose n) s = .next t ∧ t.laser n = { present := true, fresh := true } ∧
      (∀ k, k ≠ n → t.laser k = s.laser k) ∧
      (∀ p, p ∈ t.intake.repaired ↔ p ∈ s.intake.repaired ∨ (p ∈ s.intake.portFault ∧ s.engineOf p = n)) ∧
      t = { s with sys := { s.sys with lasers := t.sys.lasers }, intake := { s.intake with repaired := t.intake.repaired } }) ∧
    ((s.laser n).present = true → (s.laser n).on = true → (s.laser n).fault = false →
      ∃ t, exec (.laserLocked n) s = .next t ∧ t.laser n = { s.laser n with locked := true } ∧
        (∀ k, k ≠ n → t.laser k = s.laser k) ∧ t = { s with sys := { s.sys with lasers := t.sys.lasers } }) ∧
    ((s.laser n).on = false → exec (.laserLocked n) s = .next s ∧ exec (.laserFault n) s = .next s) ∧
    ((s.laser n).present = true → (s.laser n).on = true → ∃ t, exec (.laserFault n) s = .next t ∧
      t.laser n = { s.laser n with locked := false, fault := true } ∧
      ∀ l, l < 32 → (t.link l).state = 0 ∨ t.linkLit l = true)) ∧
  (∀ s : State, s.sys.mode.hasHost = true →
    (∀ t0, s.clk.ppsLast = some t0 → s.clk.pk < t0 + 1440000000 → ∃ t, exec .ppsInEdge s = .next t ∧
      t.cntAt (Ctr.module_ .ppsGlitch).key = s.cntAt (Ctr.module_ .ppsGlitch).key + 1 ∧ t = { s with obs := t.obs }) ∧
    ((∀ t0, s.clk.ppsLast = some t0 → t0 + 1440000000 ≤ s.clk.pk) → ∃ t, exec .ppsInEdge s = .next t ∧
      t.clk.ppsEdge = s.now ∧ t.clk.ppsLast = some s.clk.pk ∧
      (servoOn s = false → t.clk = { s.clk with ppsEdge := s.now, ppsLast := some s.clk.pk }) ∧
      (servoOn s = true → t.clk.slew = 0) ∧ t = { s with clk := t.clk }) ∧
    ((s.fval .ppsCtrl).testBit 1 = true → atSecond s = true → ∃ t, exec .ppsOutPulse s = .next t ∧ t.sys.ppsOut = true ∧
      t.clk.ppsOff = some (s.clk.pk + bitsOf (s.fval .ppsCtrl) 10 2 * 1600000) ∧
      t = { s with clk := { s.clk with ppsOff := t.clk.ppsOff }, sys := { s.sys with ppsOut := true } }) ∧
    ((s.fval .ppsCtrl).testBit 1 = false ∨ atSecond s = false → exec .ppsOutPulse s = .next s)) ∧
  ∀ s : State, s.sys.mode = .running →
    (∃ t, exec .hbmTokenRefill s = .next t ∧ (∀ k, k < 6 → ((s.arbOf k).refills + 1) * 1600 ≤ s.clk.pk →
      (t.arbOf k).floor = s.fval .hbmRsvFloor * 1200000 / 64 ∧ (t.arbOf k).refills = (s.arbOf k).refills + 1 ∧
      ∀ p, p < 64 → smGet 0 (t.arbOf k).tokens p
        = min (smGet 0 (s.arbOf k).tokens p + s.fval .hbmTbRate p * 1000 / 6) (bucketDepth s p)) ∧
      (∀ k, s.clk.pk < ((s.arbOf k).refills + 1) * 1600 → t.arbOf k = s.arbOf k) ∧ t = { s with arb := t.arb }) ∧
    ∀ (k : Nat) (q : HbmReq), (s.arbOf k).prior = none → (s.arbOf k).waiting = [] →
      (q.part = none → 0 < (s.arbOf k).floor → ∃ t, exec (.hbmGrant k [q]) s = .next t ∧
        t.arbOf k = { s.arbOf k with floor := (s.arbOf k).floor - q.bytes, granted := some q } ∧
        (∀ j, j ≠ k → t.arbOf j = s.arbOf j) ∧ (k < 6 → t.cntAt (Ctr.mem k 2).key
          = s.cntAt (Ctr.mem k 2).key + BitVec.ofNat 64 q.bytes) ∧ t = { s with arb := t.arb, obs := t.obs, free := s.free + 1 }) ∧
      ∀ p, q.part = some p → p < 64 → q.bytes ≤ smGet 0 (s.arbOf k).tokens p → ∃ t, exec (.hbmGrant k [q]) s = .next t ∧
        (t.arbOf k).granted = some q ∧ (t.arbOf k).waiting = [] ∧ (t.arbOf k).lastPart = p ∧
        (t.arbOf k).floor = (s.arbOf k).floor ∧
        smGet 0 (t.arbOf k).tokens p = smGet 0 (s.arbOf k).tokens p - q.bytes ∧
        (∀ j, j ≠ p → smGet 0 (t.arbOf k).tokens j = smGet 0 (s.arbOf k).tokens j) ∧ (∀ j, j ≠ k → t.arbOf j = s.arbOf j) ∧
        t = { s with arb := t.arb }


/-! ### Reset, encodings and an invariant -/

/-- The reset state (log 1: the model starts after BOOT_DONE): no command waits or is in flight, every field holds its reset
value (16 R482), only partition 0 exists, no flow, table entry, model or fabric link does, time is zero (01 R10), and every byte
memory is canonical. From it a removal (14 R431) leaves a quiet module. -/
def Obligations.ResetAndRemoval : Prop :=
  State.reset.pending = [] ∧ State.reset.sys.mode = .waitStart ∧ MemsWf State.reset ∧
  (∀ n i, State.reset.fval n i = fieldReset (rowOf n) i) ∧
  (∀ n, (State.reset.ring n).inFlight = [] ∧ (State.reset.ring n).en = false) ∧
  (∀ p, p ≠ 0 → (State.reset.part p).state = 0) ∧ (State.reset.part 0).state ≠ 0 ∧
  (∀ i, (State.reset.ctx i).valid = false ∧ State.reset.hotOf i = none) ∧ State.reset.tabs.entries = [] ∧
  (∀ n, (State.reset.slot n).state = 0) ∧ (∀ l, State.reset.linkUp l = false) ∧ State.reset.now = 0 ∧
  (∀ p, (State.reset.eps p).length = 1) ∧
  ∃ t, exec .prsntNBreak State.reset = .next t ∧ t.sys.mode = .removing ∧ Quiet t

/-- Reading back what was laid out (02 R53, R488, and each command's owning chapter): a header whose numbers fit its fields is
read from its 32 bytes as it was, and the payload of every command that a packet carries, written with its Reserved bytes zero,
is read as exactly that command. -/
def Obligations.CommandsReadBack : Prop :=
  (∀ h : CmdHead, h.wf = true → readHead (headBytes h) = h) ∧
  ∀ (i : Instr) (opc : Nat) (pay : Bytes), i.wf = true → operandsLaid i = true → encodePayload i = some (opc, pay) →
    ∃ c : CmdCtx, readPayload opc c pay = .cmd i

/-- The invariant of a module without a host link (14 R430, R431, R433): from every quiet state, whatever command waits at the
front of its queue but BOOT_DONE, a step leaves the module quiet. Only BOOT_DONE brings the host link up. -/
def Obligations.QuietIsKept : Prop :=
  ∀ s t : State, Quiet s → s.pending.head? ≠ some .bootDone → step s = .next t → Quiet t

/-! ### Rules stated whole -/

/-- R158: the flow hash of a 64-byte key is crc32c of the key and a byte 0x01 above crc32c of the key, or 1 where that is 0;
the bucket is h1[31:16], the flow-table sets are h1[20:0] and h2[20:0], and the hot-cache set is h2[31:20]. -/
def Obligations.FlowHashOfKey : Prop :=
  ∀ key : Bytes, key.length = 64 →
    let h1 := (crc32c key).toNat
    let h2 := (crc32c (key ++ [0x01])).toNat
    (flowHash key).toNat = (if h2 * 2 ^ 32 + h1 = 0 then 1 else h2 * 2 ^ 32 + h1) ∧
      bucketOf (flowHash key) = h1 / 2 ^ 16 ∧ setA (flowHash key) = h1 % 2 ^ 21 ∧ setB (flowHash key) = h2 % 2 ^ 21 ∧
      hotSet (flowHash key) = h2 / 2 ^ 20

/-- R299: EPOCH_STATUS replies with the number of the partition's live epochs in 8 bytes, then for each, newest first, its
number, 0 for the current epoch and 1 for a draining one, a zero byte, its count of packets and events, its swap time and its
slot map: the four per-packet slots as taken, and zeros. Nothing but the reply changes. -/
def Obligations.EpochStatusReply : Prop :=
  ∀ (c : CmdCtx) (s : State), Ready 0x311 s →
    let entry := fun (draining : Nat) (e : Epoch) => leBytes 2 e.num ++ leBytes 1 draining ++ [0] ++ leBytes 4 e.refs
      ++ leBytes 8 e.swapAt.toNat ++ ([0, 1, 2, 3].flatMap (fun i => leBytes 1 (nth 255 e.slots i)) ++ [0, 0, 0, 0])
    (∀ e, s.eps c.part = [e] → exec (.epochStatus c) s
      = .next (finish c .ok (leBytes 8 1 ++ entry 0 e) s.now 0 (beginCmd c 0x311 s))) ∧
    ∀ old new, s.eps c.part = [old, new] → exec (.epochStatus c) s
      = .next (finish c .ok (leBytes 8 2 ++ entry 0 new ++ entry 1 old) s.now 0 (beginCmd c 0x311 s))

/-- R278: on a slot that the calling partition does not own, MODEL_LOAD, MODEL_UNLOAD and TRAIN_STEP complete with
NO_PERMISSION; nothing but the reply changes. -/
def Obligations.ForeignSlotsRefused : Prop :=
  ∀ (c : CmdCtx) (n : Nat) (s : State), s.sys.mode.hasHost = true → n ≤ 255 →
    let refused := fun (opc : Nat) => Host.Outcome.next (finish c .noPermission [] 0 0 (beginCmd c opc s))
    (∀ b, (beginCmd c 0x300 s).slotOwner n ≠ c.part → exec (.modelLoad c n b) s = refused 0x300) ∧
    ((beginCmd c 0x301 s).slotOwner n ≠ c.part → exec (.modelUnload c n) s = refused 0x301) ∧
    ∀ b seed, (beginCmd c 0x330 s).slotOwner n ≠ c.part → exec (.trainStep c n b seed) s = refused 0x330
end

