-- ==== Sys2Proof/Laws/State.lean ====
section
/-! SUPPORT. What the named updates of State leave as it was: one lemma for each update and each part of State that it does not
write. -/

namespace Sys2Proof.Machine


@[simp] theorem State.setColls_pending (s : State) (l : List Coll) : (s.setColls l).pending = s.pending := rfl
@[simp] theorem State.setColls_free (s : State) (l : List Coll) : (s.setColls l).free = s.free := rfl
@[simp] theorem State.setColls_crypto (s : State) (l : List Coll) : (s.setColls l).crypto = s.crypto := rfl
@[simp] theorem State.setColls_impl (s : State) (l : List Coll) : (s.setColls l).impl = s.impl := rfl
@[simp] theorem State.setColls_sys (s : State) (l : List Coll) : (s.setColls l).sys = s.sys := rfl
@[simp] theorem State.setColls_clk (s : State) (l : List Coll) : (s.setColls l).clk = s.clk := rfl
@[simp] theorem State.setColls_host (s : State) (l : List Coll) : (s.setColls l).host = s.host := rfl
@[simp] theorem State.setColls_hbm (s : State) (l : List Coll) : (s.setColls l).hbm = s.hbm := rfl
@[simp] theorem State.setColls_rings (s : State) (l : List Coll) : (s.setColls l).rings = s.rings := rfl
@[simp] theorem State.setColls_fields (s : State) (l : List Coll) : (s.setColls l).fields = s.fields := rfl
@[simp] theorem State.setColls_intake (s : State) (l : List Coll) : (s.setColls l).intake = s.intake := rfl
@[simp] theorem State.setColls_tabs (s : State) (l : List Coll) : (s.setColls l).tabs = s.tabs := rfl
@[simp] theorem State.setColls_flow (s : State) (l : List Coll) : (s.setColls l).flow = s.flow := rfl
@[simp] theorem State.setColls_slots (s : State) (l : List Coll) : (s.setColls l).slots = s.slots := rfl
@[simp] theorem State.setColls_progress (s : State) (l : List Coll) : (s.setColls l).progress = s.progress := rfl
@[simp] theorem State.setColls_epochs (s : State) (l : List Coll) : (s.setColls l).epochs = s.epochs := rfl
@[simp] theorem State.setColls_egr (s : State) (l : List Coll) : (s.setColls l).egr = s.egr := rfl
@[simp] theorem State.setColls_fab (s : State) (l : List Coll) : (s.setColls l).fab = s.fab := rfl
@[simp] theorem State.setColls_parts (s : State) (l : List Coll) : (s.setColls l).parts = s.parts := rfl
@[simp] theorem State.setColls_regions (s : State) (l : List Coll) : (s.setColls l).regions = s.regions := rfl
@[simp] theorem State.setColls_epochNew (s : State) (l : List Coll) : (s.setColls l).epochNew = s.epochNew := rfl
@[simp] theorem State.setColls_pages (s : State) (l : List Coll) : (s.setColls l).pages = s.pages := rfl
@[simp] theorem State.setColls_arb (s : State) (l : List Coll) : (s.setColls l).arb = s.arb := rfl
@[simp] theorem State.setColls_darn (s : State) (l : List Coll) : (s.setColls l).darn = s.darn := rfl
@[simp] theorem State.setColls_obs (s : State) (l : List Coll) : (s.setColls l).obs = s.obs := rfl

@[simp] theorem State.modColl_pending (s : State) (c : CmdCtx) (f : Coll → Coll) : (s.modColl c f).pending = s.pending := rfl
@[simp] theorem State.modColl_free (s : State) (c : CmdCtx) (f : Coll → Coll) : (s.modColl c f).free = s.free := rfl
@[simp] theorem State.modColl_crypto (s : State) (c : CmdCtx) (f : Coll → Coll) : (s.modColl c f).crypto = s.crypto := rfl
@[simp] theorem State.modColl_impl (s : State) (c : CmdCtx) (f : Coll → Coll) : (s.modColl c f).impl = s.impl := rfl
@[simp] theorem State.modColl_sys (s : State) (c : CmdCtx) (f : Coll → Coll) : (s.modColl c f).sys = s.sys := rfl
@[simp] theorem State.modColl_clk (s : State) (c : CmdCtx) (f : Coll → Coll) : (s.modColl c f).clk = s.clk := rfl
@[simp] theorem State.modColl_host (s : State) (c : CmdCtx) (f : Coll → Coll) : (s.modColl c f).host = s.host := rfl
@[simp] theorem State.modColl_hbm (s : State) (c : CmdCtx) (f : Coll → Coll) : (s.modColl c f).hbm = s.hbm := rfl
@[simp] theorem State.modColl_rings (s : State) (c : CmdCtx) (f : Coll → Coll) : (s.modColl c f).rings = s.rings := rfl
@[simp] theorem State.modColl_fields (s : State) (c : CmdCtx) (f : Coll → Coll) : (s.modColl c f).fields = s.fields := rfl
@[simp] theorem State.modColl_intake (s : State) (c : CmdCtx) (f : Coll → Coll) : (s.modColl c f).intake = s.intake := rfl
@[simp] theorem State.modColl_tabs (s : State) (c : CmdCtx) (f : Coll → Coll) : (s.modColl c f).tabs = s.tabs := rfl
@[simp] theorem State.modColl_flow (s : State) (c : CmdCtx) (f : Coll → Coll) : (s.modColl c f).flow = s.flow := rfl
@[simp] theorem State.modColl_slots (s : State) (c : CmdCtx) (f : Coll → Coll) : (s.modColl c f).slots = s.slots := rfl
@[simp] theorem State.modColl_progress (s : State) (c : CmdCtx) (f : Coll → Coll) : (s.modColl c f).progress = s.progress := rfl
@[simp] theorem State.modColl_epochs (s : State) (c : CmdCtx) (f : Coll → Coll) : (s.modColl c f).epochs = s.epochs := rfl
@[simp] theorem State.modColl_egr (s : State) (c : CmdCtx) (f : Coll → Coll) : (s.modColl c f).egr = s.egr := rfl
@[simp] theorem State.modColl_fab (s : State) (c : CmdCtx) (f : Coll → Coll) : (s.modColl c f).fab = s.fab := rfl
@[simp] theorem State.modColl_parts (s : State) (c : CmdCtx) (f : Coll → Coll) : (s.modColl c f).parts = s.parts := rfl
@[simp] theorem State.modColl_regions (s : State) (c : CmdCtx) (f : Coll → Coll) : (s.modColl c f).regions = s.regions := rfl
@[simp] theorem State.modColl_epochNew (s : State) (c : CmdCtx) (f : Coll → Coll) : (s.modColl c f).epochNew = s.epochNew := rfl
@[simp] theorem State.modColl_pages (s : State) (c : CmdCtx) (f : Coll → Coll) : (s.modColl c f).pages = s.pages := rfl
@[simp] theorem State.modColl_arb (s : State) (c : CmdCtx) (f : Coll → Coll) : (s.modColl c f).arb = s.arb := rfl
@[simp] theorem State.modColl_darn (s : State) (c : CmdCtx) (f : Coll → Coll) : (s.modColl c f).darn = s.darn := rfl
@[simp] theorem State.modColl_obs (s : State) (c : CmdCtx) (f : Coll → Coll) : (s.modColl c f).obs = s.obs := rfl

@[simp] theorem State.setCache_pending (s : State) (t : Nat) (c : TileCache) : (s.setCache t c).pending = s.pending := rfl
@[simp] theorem State.setCache_free (s : State) (t : Nat) (c : TileCache) : (s.setCache t c).free = s.free := rfl
@[simp] theorem State.setCache_crypto (s : State) (t : Nat) (c : TileCache) : (s.setCache t c).crypto = s.crypto := rfl
@[simp] theorem State.setCache_impl (s : State) (t : Nat) (c : TileCache) : (s.setCache t c).impl = s.impl := rfl
@[simp] theorem State.setCache_sys (s : State) (t : Nat) (c : TileCache) : (s.setCache t c).sys = s.sys := rfl
@[simp] theorem State.setCache_clk (s : State) (t : Nat) (c : TileCache) : (s.setCache t c).clk = s.clk := rfl
@[simp] theorem State.setCache_host (s : State) (t : Nat) (c : TileCache) : (s.setCache t c).host = s.host := rfl
@[simp] theorem State.setCache_hbm (s : State) (t : Nat) (c : TileCache) : (s.setCache t c).hbm = s.hbm := rfl
@[simp] theorem State.setCache_rings (s : State) (t : Nat) (c : TileCache) : (s.setCache t c).rings = s.rings := rfl
@[simp] theorem State.setCache_fields (s : State) (t : Nat) (c : TileCache) : (s.setCache t c).fields = s.fields := rfl
@[simp] theorem State.setCache_intake (s : State) (t : Nat) (c : TileCache) : (s.setCache t c).intake = s.intake := rfl
@[simp] theorem State.setCache_tabs (s : State) (t : Nat) (c : TileCache) : (s.setCache t c).tabs = s.tabs := rfl
@[simp] theorem State.setCache_flow (s : State) (t : Nat) (c : TileCache) : (s.setCache t c).flow = s.flow := rfl
@[simp] theorem State.setCache_slots (s : State) (t : Nat) (c : TileCache) : (s.setCache t c).slots = s.slots := rfl
@[simp] theorem State.setCache_progress (s : State) (t : Nat) (c : TileCache) : (s.setCache t c).progress = s.progress := rfl
@[simp] theorem State.setCache_epochs (s : State) (t : Nat) (c : TileCache) : (s.setCache t c).epochs = s.epochs := rfl
@[simp] theorem State.setCache_egr (s : State) (t : Nat) (c : TileCache) : (s.setCache t c).egr = s.egr := rfl
@[simp] theorem State.setCache_fab (s : State) (t : Nat) (c : TileCache) : (s.setCache t c).fab = s.fab := rfl
@[simp] theorem State.setCache_parts (s : State) (t : Nat) (c : TileCache) : (s.setCache t c).parts = s.parts := rfl
@[simp] theorem State.setCache_regions (s : State) (t : Nat) (c : TileCache) : (s.setCache t c).regions = s.regions := rfl
@[simp] theorem State.setCache_epochNew (s : State) (t : Nat) (c : TileCache) : (s.setCache t c).epochNew = s.epochNew := rfl
@[simp] theorem State.setCache_pages (s : State) (t : Nat) (c : TileCache) : (s.setCache t c).pages = s.pages := rfl
@[simp] theorem State.setCache_arb (s : State) (t : Nat) (c : TileCache) : (s.setCache t c).arb = s.arb := rfl
@[simp] theorem State.setCache_darn (s : State) (t : Nat) (c : TileCache) : (s.setCache t c).darn = s.darn := rfl
@[simp] theorem State.setCache_obs (s : State) (t : Nat) (c : TileCache) : (s.setCache t c).obs = s.obs := rfl

@[simp] theorem State.dropColl_pending (s : State) (c : CmdCtx) : (s.dropColl c).pending = s.pending := rfl
@[simp] theorem State.dropColl_free (s : State) (c : CmdCtx) : (s.dropColl c).free = s.free := rfl
@[simp] theorem State.dropColl_crypto (s : State) (c : CmdCtx) : (s.dropColl c).crypto = s.crypto := rfl
@[simp] theorem State.dropColl_impl (s : State) (c : CmdCtx) : (s.dropColl c).impl = s.impl := rfl
@[simp] theorem State.dropColl_sys (s : State) (c : CmdCtx) : (s.dropColl c).sys = s.sys := rfl
@[simp] theorem State.dropColl_clk (s : State) (c : CmdCtx) : (s.dropColl c).clk = s.clk := rfl
@[simp] theorem State.dropColl_host (s : State) (c : CmdCtx) : (s.dropColl c).host = s.host := rfl
@[simp] theorem State.dropColl_hbm (s : State) (c : CmdCtx) : (s.dropColl c).hbm = s.hbm := rfl
@[simp] theorem State.dropColl_rings (s : State) (c : CmdCtx) : (s.dropColl c).rings = s.rings := rfl
@[simp] theorem State.dropColl_fields (s : State) (c : CmdCtx) : (s.dropColl c).fields = s.fields := rfl
@[simp] theorem State.dropColl_intake (s : State) (c : CmdCtx) : (s.dropColl c).intake = s.intake := rfl
@[simp] theorem State.dropColl_tabs (s : State) (c : CmdCtx) : (s.dropColl c).tabs = s.tabs := rfl
@[simp] theorem State.dropColl_flow (s : State) (c : CmdCtx) : (s.dropColl c).flow = s.flow := rfl
@[simp] theorem State.dropColl_slots (s : State) (c : CmdCtx) : (s.dropColl c).slots = s.slots := rfl
@[simp] theorem State.dropColl_progress (s : State) (c : CmdCtx) : (s.dropColl c).progress = s.progress := rfl
@[simp] theorem State.dropColl_epochs (s : State) (c : CmdCtx) : (s.dropColl c).epochs = s.epochs := rfl
@[simp] theorem State.dropColl_egr (s : State) (c : CmdCtx) : (s.dropColl c).egr = s.egr := rfl
@[simp] theorem State.dropColl_fab (s : State) (c : CmdCtx) : (s.dropColl c).fab = s.fab := rfl
@[simp] theorem State.dropColl_parts (s : State) (c : CmdCtx) : (s.dropColl c).parts = s.parts := rfl
@[simp] theorem State.dropColl_regions (s : State) (c : CmdCtx) : (s.dropColl c).regions = s.regions := rfl
@[simp] theorem State.dropColl_epochNew (s : State) (c : CmdCtx) : (s.dropColl c).epochNew = s.epochNew := rfl
@[simp] theorem State.dropColl_pages (s : State) (c : CmdCtx) : (s.dropColl c).pages = s.pages := rfl
@[simp] theorem State.dropColl_arb (s : State) (c : CmdCtx) : (s.dropColl c).arb = s.arb := rfl
@[simp] theorem State.dropColl_darn (s : State) (c : CmdCtx) : (s.dropColl c).darn = s.darn := rfl
@[simp] theorem State.dropColl_obs (s : State) (c : CmdCtx) : (s.dropColl c).obs = s.obs := rfl

@[simp] theorem State.takeStored_pending (s : State) (n : FName) (i : Nat) : (s.takeStored n i).pending = s.pending := rfl
@[simp] theorem State.takeStored_free (s : State) (n : FName) (i : Nat) : (s.takeStored n i).free = s.free := rfl
@[simp] theorem State.takeStored_crypto (s : State) (n : FName) (i : Nat) : (s.takeStored n i).crypto = s.crypto := rfl
@[simp] theorem State.takeStored_impl (s : State) (n : FName) (i : Nat) : (s.takeStored n i).impl = s.impl := rfl
@[simp] theorem State.takeStored_sys (s : State) (n : FName) (i : Nat) : (s.takeStored n i).sys = s.sys := rfl
@[simp] theorem State.takeStored_clk (s : State) (n : FName) (i : Nat) : (s.takeStored n i).clk = s.clk := rfl
@[simp] theorem State.takeStored_host (s : State) (n : FName) (i : Nat) : (s.takeStored n i).host = s.host := rfl
@[simp] theorem State.takeStored_hbm (s : State) (n : FName) (i : Nat) : (s.takeStored n i).hbm = s.hbm := rfl
@[simp] theorem State.takeStored_rings (s : State) (n : FName) (i : Nat) : (s.takeStored n i).rings = s.rings := rfl
@[simp] theorem State.takeStored_intake (s : State) (n : FName) (i : Nat) : (s.takeStored n i).intake = s.intake := rfl
@[simp] theorem State.takeStored_tabs (s : State) (n : FName) (i : Nat) : (s.takeStored n i).tabs = s.tabs := rfl
@[simp] theorem State.takeStored_flow (s : State) (n : FName) (i : Nat) : (s.takeStored n i).flow = s.flow := rfl
@[simp] theorem State.takeStored_slots (s : State) (n : FName) (i : Nat) : (s.takeStored n i).slots = s.slots := rfl
@[simp] theorem State.takeStored_progress (s : State) (n : FName) (i : Nat) : (s.takeStored n i).progress = s.progress := rfl
@[simp] theorem State.takeStored_epochs (s : State) (n : FName) (i : Nat) : (s.takeStored n i).epochs = s.epochs := rfl
@[simp] theorem State.takeStored_tiles (s : State) (n : FName) (i : Nat) : (s.takeStored n i).tiles = s.tiles := rfl
@[simp] theorem State.takeStored_egr (s : State) (n : FName) (i : Nat) : (s.takeStored n i).egr = s.egr := rfl
@[simp] theorem State.takeStored_fab (s : State) (n : FName) (i : Nat) : (s.takeStored n i).fab = s.fab := rfl
@[simp] theorem State.takeStored_parts (s : State) (n : FName) (i : Nat) : (s.takeStored n i).parts = s.parts := rfl
@[simp] theorem State.takeStored_regions (s : State) (n : FName) (i : Nat) : (s.takeStored n i).regions = s.regions := rfl
@[simp] theorem State.takeStored_epochNew (s : State) (n : FName) (i : Nat) : (s.takeStored n i).epochNew = s.epochNew := rfl
@[simp] theorem State.takeStored_pages (s : State) (n : FName) (i : Nat) : (s.takeStored n i).pages = s.pages := rfl
@[simp] theorem State.takeStored_arb (s : State) (n : FName) (i : Nat) : (s.takeStored n i).arb = s.arb := rfl
@[simp] theorem State.takeStored_darn (s : State) (n : FName) (i : Nat) : (s.takeStored n i).darn = s.darn := rfl
@[simp] theorem State.takeStored_obs (s : State) (n : FName) (i : Nat) : (s.takeStored n i).obs = s.obs := rfl

@[simp] theorem State.moveTo_pending (s : State) (id : Nat) (p : Place) : (s.moveTo id p).pending = s.pending := rfl
@[simp] theorem State.moveTo_free (s : State) (id : Nat) (p : Place) : (s.moveTo id p).free = s.free := rfl
@[simp] theorem State.moveTo_crypto (s : State) (id : Nat) (p : Place) : (s.moveTo id p).crypto = s.crypto := rfl
@[simp] theorem State.moveTo_impl (s : State) (id : Nat) (p : Place) : (s.moveTo id p).impl = s.impl := rfl
@[simp] theorem State.moveTo_sys (s : State) (id : Nat) (p : Place) : (s.moveTo id p).sys = s.sys := rfl
@[simp] theorem State.moveTo_clk (s : State) (id : Nat) (p : Place) : (s.moveTo id p).clk = s.clk := rfl
@[simp] theorem State.moveTo_host (s : State) (id : Nat) (p : Place) : (s.moveTo id p).host = s.host := rfl
@[simp] theorem State.moveTo_hbm (s : State) (id : Nat) (p : Place) : (s.moveTo id p).hbm = s.hbm := rfl
@[simp] theorem State.moveTo_rings (s : State) (id : Nat) (p : Place) : (s.moveTo id p).rings = s.rings := rfl
@[simp] theorem State.moveTo_fields (s : State) (id : Nat) (p : Place) : (s.moveTo id p).fields = s.fields := rfl
@[simp] theorem State.moveTo_tabs (s : State) (id : Nat) (p : Place) : (s.moveTo id p).tabs = s.tabs := rfl
@[simp] theorem State.moveTo_flow (s : State) (id : Nat) (p : Place) : (s.moveTo id p).flow = s.flow := rfl
@[simp] theorem State.moveTo_slots (s : State) (id : Nat) (p : Place) : (s.moveTo id p).slots = s.slots := rfl
@[simp] theorem State.moveTo_epochs (s : State) (id : Nat) (p : Place) : (s.moveTo id p).epochs = s.epochs := rfl
@[simp] theorem State.moveTo_tiles (s : State) (id : Nat) (p : Place) : (s.moveTo id p).tiles = s.tiles := rfl
@[simp] theorem State.moveTo_egr (s : State) (id : Nat) (p : Place) : (s.moveTo id p).egr = s.egr := rfl
@[simp] theorem State.moveTo_fab (s : State) (id : Nat) (p : Place) : (s.moveTo id p).fab = s.fab := rfl
@[simp] theorem State.moveTo_parts (s : State) (id : Nat) (p : Place) : (s.moveTo id p).parts = s.parts := rfl
@[simp] theorem State.moveTo_regions (s : State) (id : Nat) (p : Place) : (s.moveTo id p).regions = s.regions := rfl
@[simp] theorem State.moveTo_epochNew (s : State) (id : Nat) (p : Place) : (s.moveTo id p).epochNew = s.epochNew := rfl
@[simp] theorem State.moveTo_pages (s : State) (id : Nat) (p : Place) : (s.moveTo id p).pages = s.pages := rfl
@[simp] theorem State.moveTo_arb (s : State) (id : Nat) (p : Place) : (s.moveTo id p).arb = s.arb := rfl
@[simp] theorem State.moveTo_darn (s : State) (id : Nat) (p : Place) : (s.moveTo id p).darn = s.darn := rfl
@[simp] theorem State.moveTo_obs (s : State) (id : Nat) (p : Place) : (s.moveTo id p).obs = s.obs := rfl

@[simp] theorem State.setDarn_pending (s : State) (d : Darn) : (s.setDarn d).pending = s.pending := rfl
@[simp] theorem State.setDarn_free (s : State) (d : Darn) : (s.setDarn d).free = s.free := rfl
@[simp] theorem State.setDarn_crypto (s : State) (d : Darn) : (s.setDarn d).crypto = s.crypto := rfl
@[simp] theorem State.setDarn_impl (s : State) (d : Darn) : (s.setDarn d).impl = s.impl := rfl
@[simp] theorem State.setDarn_sys (s : State) (d : Darn) : (s.setDarn d).sys = s.sys := rfl
@[simp] theorem State.setDarn_clk (s : State) (d : Darn) : (s.setDarn d).clk = s.clk := rfl
@[simp] theorem State.setDarn_host (s : State) (d : Darn) : (s.setDarn d).host = s.host := rfl
@[simp] theorem State.setDarn_hbm (s : State) (d : Darn) : (s.setDarn d).hbm = s.hbm := rfl
@[simp] theorem State.setDarn_rings (s : State) (d : Darn) : (s.setDarn d).rings = s.rings := rfl
@[simp] theorem State.setDarn_fields (s : State) (d : Darn) : (s.setDarn d).fields = s.fields := rfl
@[simp] theorem State.setDarn_intake (s : State) (d : Darn) : (s.setDarn d).intake = s.intake := rfl
@[simp] theorem State.setDarn_tabs (s : State) (d : Darn) : (s.setDarn d).tabs = s.tabs := rfl
@[simp] theorem State.setDarn_flow (s : State) (d : Darn) : (s.setDarn d).flow = s.flow := rfl
@[simp] theorem State.setDarn_slots (s : State) (d : Darn) : (s.setDarn d).slots = s.slots := rfl
@[simp] theorem State.setDarn_progress (s : State) (d : Darn) : (s.setDarn d).progress = s.progress := rfl
@[simp] theorem State.setDarn_epochs (s : State) (d : Darn) : (s.setDarn d).epochs = s.epochs := rfl
@[simp] theorem State.setDarn_tiles (s : State) (d : Darn) : (s.setDarn d).tiles = s.tiles := rfl
@[simp] theorem State.setDarn_egr (s : State) (d : Darn) : (s.setDarn d).egr = s.egr := rfl
@[simp] theorem State.setDarn_fab (s : State) (d : Darn) : (s.setDarn d).fab = s.fab := rfl
@[simp] theorem State.setDarn_parts (s : State) (d : Darn) : (s.setDarn d).parts = s.parts := rfl
@[simp] theorem State.setDarn_regions (s : State) (d : Darn) : (s.setDarn d).regions = s.regions := rfl
@[simp] theorem State.setDarn_epochNew (s : State) (d : Darn) : (s.setDarn d).epochNew = s.epochNew := rfl
@[simp] theorem State.setDarn_pages (s : State) (d : Darn) : (s.setDarn d).pages = s.pages := rfl
@[simp] theorem State.setDarn_arb (s : State) (d : Darn) : (s.setDarn d).arb = s.arb := rfl
@[simp] theorem State.setDarn_obs (s : State) (d : Darn) : (s.setDarn d).obs = s.obs := rfl

@[simp] theorem State.setEgr_pending (s : State) (e : Egress) : (s.setEgr e).pending = s.pending := rfl
@[simp] theorem State.setEgr_free (s : State) (e : Egress) : (s.setEgr e).free = s.free := rfl
@[simp] theorem State.setEgr_crypto (s : State) (e : Egress) : (s.setEgr e).crypto = s.crypto := rfl
@[simp] theorem State.setEgr_impl (s : State) (e : Egress) : (s.setEgr e).impl = s.impl := rfl
@[simp] theorem State.setEgr_sys (s : State) (e : Egress) : (s.setEgr e).sys = s.sys := rfl
@[simp] theorem State.setEgr_clk (s : State) (e : Egress) : (s.setEgr e).clk = s.clk := rfl
@[simp] theorem State.setEgr_host (s : State) (e : Egress) : (s.setEgr e).host = s.host := rfl
@[simp] theorem State.setEgr_hbm (s : State) (e : Egress) : (s.setEgr e).hbm = s.hbm := rfl
@[simp] theorem State.setEgr_rings (s : State) (e : Egress) : (s.setEgr e).rings = s.rings := rfl
@[simp] theorem State.setEgr_fields (s : State) (e : Egress) : (s.setEgr e).fields = s.fields := rfl
@[simp] theorem State.setEgr_intake (s : State) (e : Egress) : (s.setEgr e).intake = s.intake := rfl
@[simp] theorem State.setEgr_tabs (s : State) (e : Egress) : (s.setEgr e).tabs = s.tabs := rfl
@[simp] theorem State.setEgr_flow (s : State) (e : Egress) : (s.setEgr e).flow = s.flow := rfl
@[simp] theorem State.setEgr_slots (s : State) (e : Egress) : (s.setEgr e).slots = s.slots := rfl
@[simp] theorem State.setEgr_progress (s : State) (e : Egress) : (s.setEgr e).progress = s.progress := rfl
@[simp] theorem State.setEgr_epochs (s : State) (e : Egress) : (s.setEgr e).epochs = s.epochs := rfl
@[simp] theorem State.setEgr_tiles (s : State) (e : Egress) : (s.setEgr e).tiles = s.tiles := rfl
@[simp] theorem State.setEgr_fab (s : State) (e : Egress) : (s.setEgr e).fab = s.fab := rfl
@[simp] theorem State.setEgr_parts (s : State) (e : Egress) : (s.setEgr e).parts = s.parts := rfl
@[simp] theorem State.setEgr_regions (s : State) (e : Egress) : (s.setEgr e).regions = s.regions := rfl
@[simp] theorem State.setEgr_epochNew (s : State) (e : Egress) : (s.setEgr e).epochNew = s.epochNew := rfl
@[simp] theorem State.setEgr_pages (s : State) (e : Egress) : (s.setEgr e).pages = s.pages := rfl
@[simp] theorem State.setEgr_arb (s : State) (e : Egress) : (s.setEgr e).arb = s.arb := rfl
@[simp] theorem State.setEgr_darn (s : State) (e : Egress) : (s.setEgr e).darn = s.darn := rfl
@[simp] theorem State.setEgr_obs (s : State) (e : Egress) : (s.setEgr e).obs = s.obs := rfl

@[simp] theorem State.setMeter_pending (s : State) (m : Nat) (x : Meter) : (s.setMeter m x).pending = s.pending := rfl
@[simp] theorem State.setMeter_free (s : State) (m : Nat) (x : Meter) : (s.setMeter m x).free = s.free := rfl
@[simp] theorem State.setMeter_crypto (s : State) (m : Nat) (x : Meter) : (s.setMeter m x).crypto = s.crypto := rfl
@[simp] theorem State.setMeter_impl (s : State) (m : Nat) (x : Meter) : (s.setMeter m x).impl = s.impl := rfl
@[simp] theorem State.setMeter_sys (s : State) (m : Nat) (x : Meter) : (s.setMeter m x).sys = s.sys := rfl
@[simp] theorem State.setMeter_clk (s : State) (m : Nat) (x : Meter) : (s.setMeter m x).clk = s.clk := rfl
@[simp] theorem State.setMeter_host (s : State) (m : Nat) (x : Meter) : (s.setMeter m x).host = s.host := rfl
@[simp] theorem State.setMeter_hbm (s : State) (m : Nat) (x : Meter) : (s.setMeter m x).hbm = s.hbm := rfl
@[simp] theorem State.setMeter_rings (s : State) (m : Nat) (x : Meter) : (s.setMeter m x).rings = s.rings := rfl
@[simp] theorem State.setMeter_fields (s : State) (m : Nat) (x : Meter) : (s.setMeter m x).fields = s.fields := rfl
@[simp] theorem State.setMeter_intake (s : State) (m : Nat) (x : Meter) : (s.setMeter m x).intake = s.intake := rfl
@[simp] theorem State.setMeter_tabs (s : State) (m : Nat) (x : Meter) : (s.setMeter m x).tabs = s.tabs := rfl
@[simp] theorem State.setMeter_flow (s : State) (m : Nat) (x : Meter) : (s.setMeter m x).flow = s.flow := rfl
@[simp] theorem State.setMeter_slots (s : State) (m : Nat) (x : Meter) : (s.setMeter m x).slots = s.slots := rfl
@[simp] theorem State.setMeter_progress (s : State) (m : Nat) (x : Meter) : (s.setMeter m x).progress = s.progress := rfl
@[simp] theorem State.setMeter_epochs (s : State) (m : Nat) (x : Meter) : (s.setMeter m x).epochs = s.epochs := rfl
@[simp] theorem State.setMeter_tiles (s : State) (m : Nat) (x : Meter) : (s.setMeter m x).tiles = s.tiles := rfl
@[simp] theorem State.setMeter_fab (s : State) (m : Nat) (x : Meter) : (s.setMeter m x).fab = s.fab := rfl
@[simp] theorem State.setMeter_parts (s : State) (m : Nat) (x : Meter) : (s.setMeter m x).parts = s.parts := rfl
@[simp] theorem State.setMeter_regions (s : State) (m : Nat) (x : Meter) : (s.setMeter m x).regions = s.regions := rfl
@[simp] theorem State.setMeter_epochNew (s : State) (m : Nat) (x : Meter) : (s.setMeter m x).epochNew = s.epochNew := rfl
@[simp] theorem State.setMeter_pages (s : State) (m : Nat) (x : Meter) : (s.setMeter m x).pages = s.pages := rfl
@[simp] theorem State.setMeter_arb (s : State) (m : Nat) (x : Meter) : (s.setMeter m x).arb = s.arb := rfl
@[simp] theorem State.setMeter_darn (s : State) (m : Nat) (x : Meter) : (s.setMeter m x).darn = s.darn := rfl
@[simp] theorem State.setMeter_obs (s : State) (m : Nat) (x : Meter) : (s.setMeter m x).obs = s.obs := rfl

@[simp] theorem State.setShaper_pending (s : State) (n : Nat) (x : Shaper) : (s.setShaper n x).pending = s.pending := rfl
@[simp] theorem State.setShaper_free (s : State) (n : Nat) (x : Shaper) : (s.setShaper n x).free = s.free := rfl
@[simp] theorem State.setShaper_crypto (s : State) (n : Nat) (x : Shaper) : (s.setShaper n x).crypto = s.crypto := rfl
@[simp] theorem State.setShaper_impl (s : State) (n : Nat) (x : Shaper) : (s.setShaper n x).impl = s.impl := rfl
@[simp] theorem State.setShaper_sys (s : State) (n : Nat) (x : Shaper) : (s.setShaper n x).sys = s.sys := rfl
@[simp] theorem State.setShaper_clk (s : State) (n : Nat) (x : Shaper) : (s.setShaper n x).clk = s.clk := rfl
@[simp] theorem State.setShaper_host (s : State) (n : Nat) (x : Shaper) : (s.setShaper n x).host = s.host := rfl
@[simp] theorem State.setShaper_hbm (s : State) (n : Nat) (x : Shaper) : (s.setShaper n x).hbm = s.hbm := rfl
@[simp] theorem State.setShaper_rings (s : State) (n : Nat) (x : Shaper) : (s.setShaper n x).rings = s.rings := rfl
@[simp] theorem State.setShaper_fields (s : State) (n : Nat) (x : Shaper) : (s.setShaper n x).fields = s.fields := rfl
@[simp] theorem State.setShaper_intake (s : State) (n : Nat) (x : Shaper) : (s.setShaper n x).intake = s.intake := rfl
@[simp] theorem State.setShaper_tabs (s : State) (n : Nat) (x : Shaper) : (s.setShaper n x).tabs = s.tabs := rfl
@[simp] theorem State.setShaper_flow (s : State) (n : Nat) (x : Shaper) : (s.setShaper n x).flow = s.flow := rfl
@[simp] theorem State.setShaper_slots (s : State) (n : Nat) (x : Shaper) : (s.setShaper n x).slots = s.slots := rfl
@[simp] theorem State.setShaper_progress (s : State) (n : Nat) (x : Shaper) : (s.setShaper n x).progress = s.progress := rfl
@[simp] theorem State.setShaper_epochs (s : State) (n : Nat) (x : Shaper) : (s.setShaper n x).epochs = s.epochs := rfl
@[simp] theorem State.setShaper_tiles (s : State) (n : Nat) (x : Shaper) : (s.setShaper n x).tiles = s.tiles := rfl
@[simp] theorem State.setShaper_fab (s : State) (n : Nat) (x : Shaper) : (s.setShaper n x).fab = s.fab := rfl
@[simp] theorem State.setShaper_parts (s : State) (n : Nat) (x : Shaper) : (s.setShaper n x).parts = s.parts := rfl
@[simp] theorem State.setShaper_regions (s : State) (n : Nat) (x : Shaper) : (s.setShaper n x).regions = s.regions := rfl
@[simp] theorem State.setShaper_epochNew (s : State) (n : Nat) (x : Shaper) : (s.setShaper n x).epochNew = s.epochNew := rfl
@[simp] theorem State.setShaper_pages (s : State) (n : Nat) (x : Shaper) : (s.setShaper n x).pages = s.pages := rfl
@[simp] theorem State.setShaper_arb (s : State) (n : Nat) (x : Shaper) : (s.setShaper n x).arb = s.arb := rfl
@[simp] theorem State.setShaper_darn (s : State) (n : Nat) (x : Shaper) : (s.setShaper n x).darn = s.darn := rfl
@[simp] theorem State.setShaper_obs (s : State) (n : Nat) (x : Shaper) : (s.setShaper n x).obs = s.obs := rfl

@[simp] theorem State.setFab_pending (s : State) (f : Fab) : (s.setFab f).pending = s.pending := rfl
@[simp] theorem State.setFab_free (s : State) (f : Fab) : (s.setFab f).free = s.free := rfl
@[simp] theorem State.setFab_crypto (s : State) (f : Fab) : (s.setFab f).crypto = s.crypto := rfl
@[simp] theorem State.setFab_impl (s : State) (f : Fab) : (s.setFab f).impl = s.impl := rfl
@[simp] theorem State.setFab_sys (s : State) (f : Fab) : (s.setFab f).sys = s.sys := rfl
@[simp] theorem State.setFab_clk (s : State) (f : Fab) : (s.setFab f).clk = s.clk := rfl
@[simp] theorem State.setFab_host (s : State) (f : Fab) : (s.setFab f).host = s.host := rfl
@[simp] theorem State.setFab_hbm (s : State) (f : Fab) : (s.setFab f).hbm = s.hbm := rfl
@[simp] theorem State.setFab_rings (s : State) (f : Fab) : (s.setFab f).rings = s.rings := rfl
@[simp] theorem State.setFab_fields (s : State) (f : Fab) : (s.setFab f).fields = s.fields := rfl
@[simp] theorem State.setFab_intake (s : State) (f : Fab) : (s.setFab f).intake = s.intake := rfl
@[simp] theorem State.setFab_tabs (s : State) (f : Fab) : (s.setFab f).tabs = s.tabs := rfl
@[simp] theorem State.setFab_flow (s : State) (f : Fab) : (s.setFab f).flow = s.flow := rfl
@[simp] theorem State.setFab_slots (s : State) (f : Fab) : (s.setFab f).slots = s.slots := rfl
@[simp] theorem State.setFab_progress (s : State) (f : Fab) : (s.setFab f).progress = s.progress := rfl
@[simp] theorem State.setFab_epochs (s : State) (f : Fab) : (s.setFab f).epochs = s.epochs := rfl
@[simp] theorem State.setFab_tiles (s : State) (f : Fab) : (s.setFab f).tiles = s.tiles := rfl
@[simp] theorem State.setFab_egr (s : State) (f : Fab) : (s.setFab f).egr = s.egr := rfl
@[simp] theorem State.setFab_parts (s : State) (f : Fab) : (s.setFab f).parts = s.parts := rfl
@[simp] theorem State.setFab_regions (s : State) (f : Fab) : (s.setFab f).regions = s.regions := rfl
@[simp] theorem State.setFab_epochNew (s : State) (f : Fab) : (s.setFab f).epochNew = s.epochNew := rfl
@[simp] theorem State.setFab_pages (s : State) (f : Fab) : (s.setFab f).pages = s.pages := rfl
@[simp] theorem State.setFab_arb (s : State) (f : Fab) : (s.setFab f).arb = s.arb := rfl
@[simp] theorem State.setFab_darn (s : State) (f : Fab) : (s.setFab f).darn = s.darn := rfl
@[simp] theorem State.setFab_obs (s : State) (f : Fab) : (s.setFab f).obs = s.obs := rfl

@[simp] theorem State.setField_pending (s : State) (n : FName) (i v : Nat) : (s.setField n i v).pending = s.pending := rfl
@[simp] theorem State.setField_free (s : State) (n : FName) (i v : Nat) : (s.setField n i v).free = s.free := rfl
@[simp] theorem State.setField_crypto (s : State) (n : FName) (i v : Nat) : (s.setField n i v).crypto = s.crypto := rfl
@[simp] theorem State.setField_impl (s : State) (n : FName) (i v : Nat) : (s.setField n i v).impl = s.impl := rfl
@[simp] theorem State.setField_sys (s : State) (n : FName) (i v : Nat) : (s.setField n i v).sys = s.sys := rfl
@[simp] theorem State.setField_clk (s : State) (n : FName) (i v : Nat) : (s.setField n i v).clk = s.clk := rfl
@[simp] theorem State.setField_host (s : State) (n : FName) (i v : Nat) : (s.setField n i v).host = s.host := rfl
@[simp] theorem State.setField_hbm (s : State) (n : FName) (i v : Nat) : (s.setField n i v).hbm = s.hbm := rfl
@[simp] theorem State.setField_rings (s : State) (n : FName) (i v : Nat) : (s.setField n i v).rings = s.rings := rfl
@[simp] theorem State.setField_intake (s : State) (n : FName) (i v : Nat) : (s.setField n i v).intake = s.intake := rfl
@[simp] theorem State.setField_tabs (s : State) (n : FName) (i v : Nat) : (s.setField n i v).tabs = s.tabs := rfl
@[simp] theorem State.setField_flow (s : State) (n : FName) (i v : Nat) : (s.setField n i v).flow = s.flow := rfl
@[simp] theorem State.setField_slots (s : State) (n : FName) (i v : Nat) : (s.setField n i v).slots = s.slots := rfl
@[simp] theorem State.setField_progress (s : State) (n : FName) (i v : Nat) : (s.setField n i v).progress = s.progress := rfl
@[simp] theorem State.setField_epochs (s : State) (n : FName) (i v : Nat) : (s.setField n i v).epochs = s.epochs := rfl
@[simp] theorem State.setField_tiles (s : State) (n : FName) (i v : Nat) : (s.setField n i v).tiles = s.tiles := rfl
@[simp] theorem State.setField_egr (s : State) (n : FName) (i v : Nat) : (s.setField n i v).egr = s.egr := rfl
@[simp] theorem State.setField_fab (s : State) (n : FName) (i v : Nat) : (s.setField n i v).fab = s.fab := rfl
@[simp] theorem State.setField_parts (s : State) (n : FName) (i v : Nat) : (s.setField n i v).parts = s.parts := rfl
@[simp] theorem State.setField_regions (s : State) (n : FName) (i v : Nat) : (s.setField n i v).regions = s.regions := rfl
@[simp] theorem State.setField_epochNew (s : State) (n : FName) (i v : Nat) : (s.setField n i v).epochNew = s.epochNew := rfl
@[simp] theorem State.setField_pages (s : State) (n : FName) (i v : Nat) : (s.setField n i v).pages = s.pages := rfl
@[simp] theorem State.setField_arb (s : State) (n : FName) (i v : Nat) : (s.setField n i v).arb = s.arb := rfl
@[simp] theorem State.setField_darn (s : State) (n : FName) (i v : Nat) : (s.setField n i v).darn = s.darn := rfl
@[simp] theorem State.setField_obs (s : State) (n : FName) (i v : Nat) : (s.setField n i v).obs = s.obs := rfl

@[simp] theorem State.setAct_pending (s : State) (n : FName) (i v : Nat) : (s.setAct n i v).pending = s.pending := rfl
@[simp] theorem State.setAct_free (s : State) (n : FName) (i v : Nat) : (s.setAct n i v).free = s.free := rfl
@[simp] theorem State.setAct_crypto (s : State) (n : FName) (i v : Nat) : (s.setAct n i v).crypto = s.crypto := rfl
@[simp] theorem State.setAct_impl (s : State) (n : FName) (i v : Nat) : (s.setAct n i v).impl = s.impl := rfl
@[simp] theorem State.setAct_sys (s : State) (n : FName) (i v : Nat) : (s.setAct n i v).sys = s.sys := rfl
@[simp] theorem State.setAct_clk (s : State) (n : FName) (i v : Nat) : (s.setAct n i v).clk = s.clk := rfl
@[simp] theorem State.setAct_host (s : State) (n : FName) (i v : Nat) : (s.setAct n i v).host = s.host := rfl
@[simp] theorem State.setAct_hbm (s : State) (n : FName) (i v : Nat) : (s.setAct n i v).hbm = s.hbm := rfl
@[simp] theorem State.setAct_rings (s : State) (n : FName) (i v : Nat) : (s.setAct n i v).rings = s.rings := rfl
@[simp] theorem State.setAct_intake (s : State) (n : FName) (i v : Nat) : (s.setAct n i v).intake = s.intake := rfl
@[simp] theorem State.setAct_tabs (s : State) (n : FName) (i v : Nat) : (s.setAct n i v).tabs = s.tabs := rfl
@[simp] theorem State.setAct_flow (s : State) (n : FName) (i v : Nat) : (s.setAct n i v).flow = s.flow := rfl
@[simp] theorem State.setAct_slots (s : State) (n : FName) (i v : Nat) : (s.setAct n i v).slots = s.slots := rfl
@[simp] theorem State.setAct_progress (s : State) (n : FName) (i v : Nat) : (s.setAct n i v).progress = s.progress := rfl
@[simp] theorem State.setAct_epochs (s : State) (n : FName) (i v : Nat) : (s.setAct n i v).epochs = s.epochs := rfl
@[simp] theorem State.setAct_tiles (s : State) (n : FName) (i v : Nat) : (s.setAct n i v).tiles = s.tiles := rfl
@[simp] theorem State.setAct_egr (s : State) (n : FName) (i v : Nat) : (s.setAct n i v).egr = s.egr := rfl
@[simp] theorem State.setAct_fab (s : State) (n : FName) (i v : Nat) : (s.setAct n i v).fab = s.fab := rfl
@[simp] theorem State.setAct_parts (s : State) (n : FName) (i v : Nat) : (s.setAct n i v).parts = s.parts := rfl
@[simp] theorem State.setAct_regions (s : State) (n : FName) (i v : Nat) : (s.setAct n i v).regions = s.regions := rfl
@[simp] theorem State.setAct_epochNew (s : State) (n : FName) (i v : Nat) : (s.setAct n i v).epochNew = s.epochNew := rfl
@[simp] theorem State.setAct_pages (s : State) (n : FName) (i v : Nat) : (s.setAct n i v).pages = s.pages := rfl
@[simp] theorem State.setAct_arb (s : State) (n : FName) (i v : Nat) : (s.setAct n i v).arb = s.arb := rfl
@[simp] theorem State.setAct_darn (s : State) (n : FName) (i v : Nat) : (s.setAct n i v).darn = s.darn := rfl
@[simp] theorem State.setAct_obs (s : State) (n : FName) (i v : Nat) : (s.setAct n i v).obs = s.obs := rfl

@[simp] theorem State.takeShadow_pending (s : State) (n : FName) (i : Nat) : (s.takeShadow n i).pending = s.pending := rfl
@[simp] theorem State.takeShadow_free (s : State) (n : FName) (i : Nat) : (s.takeShadow n i).free = s.free := rfl
@[simp] theorem State.takeShadow_crypto (s : State) (n : FName) (i : Nat) : (s.takeShadow n i).crypto = s.crypto := rfl
@[simp] theorem State.takeShadow_impl (s : State) (n : FName) (i : Nat) : (s.takeShadow n i).impl = s.impl := rfl
@[simp] theorem State.takeShadow_sys (s : State) (n : FName) (i : Nat) : (s.takeShadow n i).sys = s.sys := rfl
@[simp] theorem State.takeShadow_clk (s : State) (n : FName) (i : Nat) : (s.takeShadow n i).clk = s.clk := rfl
@[simp] theorem State.takeShadow_host (s : State) (n : FName) (i : Nat) : (s.takeShadow n i).host = s.host := rfl
@[simp] theorem State.takeShadow_hbm (s : State) (n : FName) (i : Nat) : (s.takeShadow n i).hbm = s.hbm := rfl
@[simp] theorem State.takeShadow_rings (s : State) (n : FName) (i : Nat) : (s.takeShadow n i).rings = s.rings := rfl
@[simp] theorem State.takeShadow_intake (s : State) (n : FName) (i : Nat) : (s.takeShadow n i).intake = s.intake := rfl
@[simp] theorem State.takeShadow_tabs (s : State) (n : FName) (i : Nat) : (s.takeShadow n i).tabs = s.tabs := rfl
@[simp] theorem State.takeShadow_flow (s : State) (n : FName) (i : Nat) : (s.takeShadow n i).flow = s.flow := rfl
@[simp] theorem State.takeShadow_slots (s : State) (n : FName) (i : Nat) : (s.takeShadow n i).slots = s.slots := rfl
@[simp] theorem State.takeShadow_progress (s : State) (n : FName) (i : Nat) : (s.takeShadow n i).progress = s.progress := rfl
@[simp] theorem State.takeShadow_epochs (s : State) (n : FName) (i : Nat) : (s.takeShadow n i).epochs = s.epochs := rfl
@[simp] theorem State.takeShadow_tiles (s : State) (n : FName) (i : Nat) : (s.takeShadow n i).tiles = s.tiles := rfl
@[simp] theorem State.takeShadow_egr (s : State) (n : FName) (i : Nat) : (s.takeShadow n i).egr = s.egr := rfl
@[simp] theorem State.takeShadow_fab (s : State) (n : FName) (i : Nat) : (s.takeShadow n i).fab = s.fab := rfl
@[simp] theorem State.takeShadow_parts (s : State) (n : FName) (i : Nat) : (s.takeShadow n i).parts = s.parts := rfl
@[simp] theorem State.takeShadow_regions (s : State) (n : FName) (i : Nat) : (s.takeShadow n i).regions = s.regions := rfl
@[simp] theorem State.takeShadow_epochNew (s : State) (n : FName) (i : Nat) : (s.takeShadow n i).epochNew = s.epochNew := rfl
@[simp] theorem State.takeShadow_pages (s : State) (n : FName) (i : Nat) : (s.takeShadow n i).pages = s.pages := rfl
@[simp] theorem State.takeShadow_arb (s : State) (n : FName) (i : Nat) : (s.takeShadow n i).arb = s.arb := rfl
@[simp] theorem State.takeShadow_darn (s : State) (n : FName) (i : Nat) : (s.takeShadow n i).darn = s.darn := rfl
@[simp] theorem State.takeShadow_obs (s : State) (n : FName) (i : Nat) : (s.takeShadow n i).obs = s.obs := rfl

@[simp] theorem State.setHots_pending (s : State) (l : List HotForm) : (s.setHots l).pending = s.pending := rfl
@[simp] theorem State.setHots_free (s : State) (l : List HotForm) : (s.setHots l).free = s.free := rfl
@[simp] theorem State.setHots_crypto (s : State) (l : List HotForm) : (s.setHots l).crypto = s.crypto := rfl
@[simp] theorem State.setHots_impl (s : State) (l : List HotForm) : (s.setHots l).impl = s.impl := rfl
@[simp] theorem State.setHots_sys (s : State) (l : List HotForm) : (s.setHots l).sys = s.sys := rfl
@[simp] theorem State.setHots_clk (s : State) (l : List HotForm) : (s.setHots l).clk = s.clk := rfl
@[simp] theorem State.setHots_host (s : State) (l : List HotForm) : (s.setHots l).host = s.host := rfl
@[simp] theorem State.setHots_hbm (s : State) (l : List HotForm) : (s.setHots l).hbm = s.hbm := rfl
@[simp] theorem State.setHots_rings (s : State) (l : List HotForm) : (s.setHots l).rings = s.rings := rfl
@[simp] theorem State.setHots_fields (s : State) (l : List HotForm) : (s.setHots l).fields = s.fields := rfl
@[simp] theorem State.setHots_intake (s : State) (l : List HotForm) : (s.setHots l).intake = s.intake := rfl
@[simp] theorem State.setHots_tabs (s : State) (l : List HotForm) : (s.setHots l).tabs = s.tabs := rfl
@[simp] theorem State.setHots_slots (s : State) (l : List HotForm) : (s.setHots l).slots = s.slots := rfl
@[simp] theorem State.setHots_progress (s : State) (l : List HotForm) : (s.setHots l).progress = s.progress := rfl
@[simp] theorem State.setHots_epochs (s : State) (l : List HotForm) : (s.setHots l).epochs = s.epochs := rfl
@[simp] theorem State.setHots_tiles (s : State) (l : List HotForm) : (s.setHots l).tiles = s.tiles := rfl
@[simp] theorem State.setHots_egr (s : State) (l : List HotForm) : (s.setHots l).egr = s.egr := rfl
@[simp] theorem State.setHots_fab (s : State) (l : List HotForm) : (s.setHots l).fab = s.fab := rfl
@[simp] theorem State.setHots_parts (s : State) (l : List HotForm) : (s.setHots l).parts = s.parts := rfl
@[simp] theorem State.setHots_regions (s : State) (l : List HotForm) : (s.setHots l).regions = s.regions := rfl
@[simp] theorem State.setHots_epochNew (s : State) (l : List HotForm) : (s.setHots l).epochNew = s.epochNew := rfl
@[simp] theorem State.setHots_pages (s : State) (l : List HotForm) : (s.setHots l).pages = s.pages := rfl
@[simp] theorem State.setHots_arb (s : State) (l : List HotForm) : (s.setHots l).arb = s.arb := rfl
@[simp] theorem State.setHots_darn (s : State) (l : List HotForm) : (s.setHots l).darn = s.darn := rfl
@[simp] theorem State.setHots_obs (s : State) (l : List HotForm) : (s.setHots l).obs = s.obs := rfl

@[simp] theorem State.modHot_pending (s : State) (i : Nat) (f : HotForm → HotForm) : (s.modHot i f).pending = s.pending := rfl
@[simp] theorem State.modHot_free (s : State) (i : Nat) (f : HotForm → HotForm) : (s.modHot i f).free = s.free := rfl
@[simp] theorem State.modHot_crypto (s : State) (i : Nat) (f : HotForm → HotForm) : (s.modHot i f).crypto = s.crypto := rfl
@[simp] theorem State.modHot_impl (s : State) (i : Nat) (f : HotForm → HotForm) : (s.modHot i f).impl = s.impl := rfl
@[simp] theorem State.modHot_sys (s : State) (i : Nat) (f : HotForm → HotForm) : (s.modHot i f).sys = s.sys := rfl
@[simp] theorem State.modHot_clk (s : State) (i : Nat) (f : HotForm → HotForm) : (s.modHot i f).clk = s.clk := rfl
@[simp] theorem State.modHot_host (s : State) (i : Nat) (f : HotForm → HotForm) : (s.modHot i f).host = s.host := rfl
@[simp] theorem State.modHot_hbm (s : State) (i : Nat) (f : HotForm → HotForm) : (s.modHot i f).hbm = s.hbm := rfl
@[simp] theorem State.modHot_rings (s : State) (i : Nat) (f : HotForm → HotForm) : (s.modHot i f).rings = s.rings := rfl
@[simp] theorem State.modHot_fields (s : State) (i : Nat) (f : HotForm → HotForm) : (s.modHot i f).fields = s.fields := rfl
@[simp] theorem State.modHot_intake (s : State) (i : Nat) (f : HotForm → HotForm) : (s.modHot i f).intake = s.intake := rfl
@[simp] theorem State.modHot_tabs (s : State) (i : Nat) (f : HotForm → HotForm) : (s.modHot i f).tabs = s.tabs := rfl
@[simp] theorem State.modHot_slots (s : State) (i : Nat) (f : HotForm → HotForm) : (s.modHot i f).slots = s.slots := rfl
@[simp] theorem State.modHot_progress (s : State) (i : Nat) (f : HotForm → HotForm) : (s.modHot i f).progress = s.progress := rfl
@[simp] theorem State.modHot_epochs (s : State) (i : Nat) (f : HotForm → HotForm) : (s.modHot i f).epochs = s.epochs := rfl
@[simp] theorem State.modHot_tiles (s : State) (i : Nat) (f : HotForm → HotForm) : (s.modHot i f).tiles = s.tiles := rfl
@[simp] theorem State.modHot_egr (s : State) (i : Nat) (f : HotForm → HotForm) : (s.modHot i f).egr = s.egr := rfl
@[simp] theorem State.modHot_fab (s : State) (i : Nat) (f : HotForm → HotForm) : (s.modHot i f).fab = s.fab := rfl
@[simp] theorem State.modHot_parts (s : State) (i : Nat) (f : HotForm → HotForm) : (s.modHot i f).parts = s.parts := rfl
@[simp] theorem State.modHot_regions (s : State) (i : Nat) (f : HotForm → HotForm) : (s.modHot i f).regions = s.regions := rfl
@[simp] theorem State.modHot_epochNew (s : State) (i : Nat) (f : HotForm → HotForm) : (s.modHot i f).epochNew = s.epochNew := rfl
@[simp] theorem State.modHot_pages (s : State) (i : Nat) (f : HotForm → HotForm) : (s.modHot i f).pages = s.pages := rfl
@[simp] theorem State.modHot_arb (s : State) (i : Nat) (f : HotForm → HotForm) : (s.modHot i f).arb = s.arb := rfl
@[simp] theorem State.modHot_darn (s : State) (i : Nat) (f : HotForm → HotForm) : (s.modHot i f).darn = s.darn := rfl
@[simp] theorem State.modHot_obs (s : State) (i : Nat) (f : HotForm → HotForm) : (s.modHot i f).obs = s.obs := rfl

@[simp] theorem State.setReqs_pending (s : State) (l : List FetchReq) : (s.setReqs l).pending = s.pending := rfl
@[simp] theorem State.setReqs_free (s : State) (l : List FetchReq) : (s.setReqs l).free = s.free := rfl
@[simp] theorem State.setReqs_crypto (s : State) (l : List FetchReq) : (s.setReqs l).crypto = s.crypto := rfl
@[simp] theorem State.setReqs_impl (s : State) (l : List FetchReq) : (s.setReqs l).impl = s.impl := rfl
@[simp] theorem State.setReqs_sys (s : State) (l : List FetchReq) : (s.setReqs l).sys = s.sys := rfl
@[simp] theorem State.setReqs_clk (s : State) (l : List FetchReq) : (s.setReqs l).clk = s.clk := rfl
@[simp] theorem State.setReqs_host (s : State) (l : List FetchReq) : (s.setReqs l).host = s.host := rfl
@[simp] theorem State.setReqs_hbm (s : State) (l : List FetchReq) : (s.setReqs l).hbm = s.hbm := rfl
@[simp] theorem State.setReqs_rings (s : State) (l : List FetchReq) : (s.setReqs l).rings = s.rings := rfl
@[simp] theorem State.setReqs_fields (s : State) (l : List FetchReq) : (s.setReqs l).fields = s.fields := rfl
@[simp] theorem State.setReqs_intake (s : State) (l : List FetchReq) : (s.setReqs l).intake = s.intake := rfl
@[simp] theorem State.setReqs_tabs (s : State) (l : List FetchReq) : (s.setReqs l).tabs = s.tabs := rfl
@[simp] theorem State.setReqs_slots (s : State) (l : List FetchReq) : (s.setReqs l).slots = s.slots := rfl
@[simp] theorem State.setReqs_progress (s : State) (l : List FetchReq) : (s.setReqs l).progress = s.progress := rfl
@[simp] theorem State.setReqs_epochs (s : State) (l : List FetchReq) : (s.setReqs l).epochs = s.epochs := rfl
@[simp] theorem State.setReqs_tiles (s : State) (l : List FetchReq) : (s.setReqs l).tiles = s.tiles := rfl
@[simp] theorem State.setReqs_egr (s : State) (l : List FetchReq) : (s.setReqs l).egr = s.egr := rfl
@[simp] theorem State.setReqs_fab (s : State) (l : List FetchReq) : (s.setReqs l).fab = s.fab := rfl
@[simp] theorem State.setReqs_parts (s : State) (l : List FetchReq) : (s.setReqs l).parts = s.parts := rfl
@[simp] theorem State.setReqs_regions (s : State) (l : List FetchReq) : (s.setReqs l).regions = s.regions := rfl
@[simp] theorem State.setReqs_epochNew (s : State) (l : List FetchReq) : (s.setReqs l).epochNew = s.epochNew := rfl
@[simp] theorem State.setReqs_pages (s : State) (l : List FetchReq) : (s.setReqs l).pages = s.pages := rfl
@[simp] theorem State.setReqs_arb (s : State) (l : List FetchReq) : (s.setReqs l).arb = s.arb := rfl
@[simp] theorem State.setReqs_darn (s : State) (l : List FetchReq) : (s.setReqs l).darn = s.darn := rfl
@[simp] theorem State.setReqs_obs (s : State) (l : List FetchReq) : (s.setReqs l).obs = s.obs := rfl

@[simp] theorem State.setLeases_pending (s : State) (l : List Lease) : (s.setLeases l).pending = s.pending := rfl
@[simp] theorem State.setLeases_free (s : State) (l : List Lease) : (s.setLeases l).free = s.free := rfl
@[simp] theorem State.setLeases_crypto (s : State) (l : List Lease) : (s.setLeases l).crypto = s.crypto := rfl
@[simp] theorem State.setLeases_impl (s : State) (l : List Lease) : (s.setLeases l).impl = s.impl := rfl
@[simp] theorem State.setLeases_sys (s : State) (l : List Lease) : (s.setLeases l).sys = s.sys := rfl
@[simp] theorem State.setLeases_clk (s : State) (l : List Lease) : (s.setLeases l).clk = s.clk := rfl
@[simp] theorem State.setLeases_host (s : State) (l : List Lease) : (s.setLeases l).host = s.host := rfl
@[simp] theorem State.setLeases_hbm (s : State) (l : List Lease) : (s.setLeases l).hbm = s.hbm := rfl
@[simp] theorem State.setLeases_rings (s : State) (l : List Lease) : (s.setLeases l).rings = s.rings := rfl
@[simp] theorem State.setLeases_fields (s : State) (l : List Lease) : (s.setLeases l).fields = s.fields := rfl
@[simp] theorem State.setLeases_intake (s : State) (l : List Lease) : (s.setLeases l).intake = s.intake := rfl
@[simp] theorem State.setLeases_tabs (s : State) (l : List Lease) : (s.setLeases l).tabs = s.tabs := rfl
@[simp] theorem State.setLeases_slots (s : State) (l : List Lease) : (s.setLeases l).slots = s.slots := rfl
@[simp] theorem State.setLeases_progress (s : State) (l : List Lease) : (s.setLeases l).progress = s.progress := rfl
@[simp] theorem State.setLeases_epochs (s : State) (l : List Lease) : (s.setLeases l).epochs = s.epochs := rfl
@[simp] theorem State.setLeases_tiles (s : State) (l : List Lease) : (s.setLeases l).tiles = s.tiles := rfl
@[simp] theorem State.setLeases_egr (s : State) (l : List Lease) : (s.setLeases l).egr = s.egr := rfl
@[simp] theorem State.setLeases_fab (s : State) (l : List Lease) : (s.setLeases l).fab = s.fab := rfl
@[simp] theorem State.setLeases_parts (s : State) (l : List Lease) : (s.setLeases l).parts = s.parts := rfl
@[simp] theorem State.setLeases_regions (s : State) (l : List Lease) : (s.setLeases l).regions = s.regions := rfl
@[simp] theorem State.setLeases_epochNew (s : State) (l : List Lease) : (s.setLeases l).epochNew = s.epochNew := rfl
@[simp] theorem State.setLeases_pages (s : State) (l : List Lease) : (s.setLeases l).pages = s.pages := rfl
@[simp] theorem State.setLeases_arb (s : State) (l : List Lease) : (s.setLeases l).arb = s.arb := rfl
@[simp] theorem State.setLeases_darn (s : State) (l : List Lease) : (s.setLeases l).darn = s.darn := rfl
@[simp] theorem State.setLeases_obs (s : State) (l : List Lease) : (s.setLeases l).obs = s.obs := rfl

@[simp] theorem State.modLease_pending (s : State) (i : Nat) (f : Lease → Lease) : (s.modLease i f).pending = s.pending := rfl
@[simp] theorem State.modLease_free (s : State) (i : Nat) (f : Lease → Lease) : (s.modLease i f).free = s.free := rfl
@[simp] theorem State.modLease_crypto (s : State) (i : Nat) (f : Lease → Lease) : (s.modLease i f).crypto = s.crypto := rfl
@[simp] theorem State.modLease_impl (s : State) (i : Nat) (f : Lease → Lease) : (s.modLease i f).impl = s.impl := rfl
@[simp] theorem State.modLease_sys (s : State) (i : Nat) (f : Lease → Lease) : (s.modLease i f).sys = s.sys := rfl
@[simp] theorem State.modLease_clk (s : State) (i : Nat) (f : Lease → Lease) : (s.modLease i f).clk = s.clk := rfl
@[simp] theorem State.modLease_host (s : State) (i : Nat) (f : Lease → Lease) : (s.modLease i f).host = s.host := rfl
@[simp] theorem State.modLease_hbm (s : State) (i : Nat) (f : Lease → Lease) : (s.modLease i f).hbm = s.hbm := rfl
@[simp] theorem State.modLease_rings (s : State) (i : Nat) (f : Lease → Lease) : (s.modLease i f).rings = s.rings := rfl
@[simp] theorem State.modLease_fields (s : State) (i : Nat) (f : Lease → Lease) : (s.modLease i f).fields = s.fields := rfl
@[simp] theorem State.modLease_intake (s : State) (i : Nat) (f : Lease → Lease) : (s.modLease i f).intake = s.intake := rfl
@[simp] theorem State.modLease_tabs (s : State) (i : Nat) (f : Lease → Lease) : (s.modLease i f).tabs = s.tabs := rfl
@[simp] theorem State.modLease_slots (s : State) (i : Nat) (f : Lease → Lease) : (s.modLease i f).slots = s.slots := rfl
@[simp] theorem State.modLease_progress (s : State) (i : Nat) (f : Lease → Lease) : (s.modLease i f).progress = s.progress := rfl
@[simp] theorem State.modLease_epochs (s : State) (i : Nat) (f : Lease → Lease) : (s.modLease i f).epochs = s.epochs := rfl
@[simp] theorem State.modLease_tiles (s : State) (i : Nat) (f : Lease → Lease) : (s.modLease i f).tiles = s.tiles := rfl
@[simp] theorem State.modLease_egr (s : State) (i : Nat) (f : Lease → Lease) : (s.modLease i f).egr = s.egr := rfl
@[simp] theorem State.modLease_fab (s : State) (i : Nat) (f : Lease → Lease) : (s.modLease i f).fab = s.fab := rfl
@[simp] theorem State.modLease_parts (s : State) (i : Nat) (f : Lease → Lease) : (s.modLease i f).parts = s.parts := rfl
@[simp] theorem State.modLease_regions (s : State) (i : Nat) (f : Lease → Lease) : (s.modLease i f).regions = s.regions := rfl
@[simp] theorem State.modLease_epochNew (s : State) (i : Nat) (f : Lease → Lease) : (s.modLease i f).epochNew = s.epochNew := rfl
@[simp] theorem State.modLease_pages (s : State) (i : Nat) (f : Lease → Lease) : (s.modLease i f).pages = s.pages := rfl
@[simp] theorem State.modLease_arb (s : State) (i : Nat) (f : Lease → Lease) : (s.modLease i f).arb = s.arb := rfl
@[simp] theorem State.modLease_darn (s : State) (i : Nat) (f : Lease → Lease) : (s.modLease i f).darn = s.darn := rfl
@[simp] theorem State.modLease_obs (s : State) (i : Nat) (f : Lease → Lease) : (s.modLease i f).obs = s.obs := rfl

@[simp] theorem State.setArb_pending (s : State) (k : Nat) (a : Arb) : (s.setArb k a).pending = s.pending := rfl
@[simp] theorem State.setArb_free (s : State) (k : Nat) (a : Arb) : (s.setArb k a).free = s.free := rfl
@[simp] theorem State.setArb_crypto (s : State) (k : Nat) (a : Arb) : (s.setArb k a).crypto = s.crypto := rfl
@[simp] theorem State.setArb_impl (s : State) (k : Nat) (a : Arb) : (s.setArb k a).impl = s.impl := rfl
@[simp] theorem State.setArb_sys (s : State) (k : Nat) (a : Arb) : (s.setArb k a).sys = s.sys := rfl
@[simp] theorem State.setArb_clk (s : State) (k : Nat) (a : Arb) : (s.setArb k a).clk = s.clk := rfl
@[simp] theorem State.setArb_host (s : State) (k : Nat) (a : Arb) : (s.setArb k a).host = s.host := rfl
@[simp] theorem State.setArb_hbm (s : State) (k : Nat) (a : Arb) : (s.setArb k a).hbm = s.hbm := rfl
@[simp] theorem State.setArb_rings (s : State) (k : Nat) (a : Arb) : (s.setArb k a).rings = s.rings := rfl
@[simp] theorem State.setArb_fields (s : State) (k : Nat) (a : Arb) : (s.setArb k a).fields = s.fields := rfl
@[simp] theorem State.setArb_intake (s : State) (k : Nat) (a : Arb) : (s.setArb k a).intake = s.intake := rfl
@[simp] theorem State.setArb_tabs (s : State) (k : Nat) (a : Arb) : (s.setArb k a).tabs = s.tabs := rfl
@[simp] theorem State.setArb_flow (s : State) (k : Nat) (a : Arb) : (s.setArb k a).flow = s.flow := rfl
@[simp] theorem State.setArb_slots (s : State) (k : Nat) (a : Arb) : (s.setArb k a).slots = s.slots := rfl
@[simp] theorem State.setArb_progress (s : State) (k : Nat) (a : Arb) : (s.setArb k a).progress = s.progress := rfl
@[simp] theorem State.setArb_epochs (s : State) (k : Nat) (a : Arb) : (s.setArb k a).epochs = s.epochs := rfl
@[simp] theorem State.setArb_tiles (s : State) (k : Nat) (a : Arb) : (s.setArb k a).tiles = s.tiles := rfl
@[simp] theorem State.setArb_egr (s : State) (k : Nat) (a : Arb) : (s.setArb k a).egr = s.egr := rfl
@[simp] theorem State.setArb_fab (s : State) (k : Nat) (a : Arb) : (s.setArb k a).fab = s.fab := rfl
@[simp] theorem State.setArb_parts (s : State) (k : Nat) (a : Arb) : (s.setArb k a).parts = s.parts := rfl
@[simp] theorem State.setArb_regions (s : State) (k : Nat) (a : Arb) : (s.setArb k a).regions = s.regions := rfl
@[simp] theorem State.setArb_epochNew (s : State) (k : Nat) (a : Arb) : (s.setArb k a).epochNew = s.epochNew := rfl
@[simp] theorem State.setArb_pages (s : State) (k : Nat) (a : Arb) : (s.setArb k a).pages = s.pages := rfl
@[simp] theorem State.setArb_darn (s : State) (k : Nat) (a : Arb) : (s.setArb k a).darn = s.darn := rfl
@[simp] theorem State.setArb_obs (s : State) (k : Nat) (a : Arb) : (s.setArb k a).obs = s.obs := rfl

@[simp] theorem State.setFrag_pending (s : State) (i : Nat) (e : FragEntry) : (s.setFrag i e).pending = s.pending := rfl
@[simp] theorem State.setFrag_free (s : State) (i : Nat) (e : FragEntry) : (s.setFrag i e).free = s.free := rfl
@[simp] theorem State.setFrag_crypto (s : State) (i : Nat) (e : FragEntry) : (s.setFrag i e).crypto = s.crypto := rfl
@[simp] theorem State.setFrag_impl (s : State) (i : Nat) (e : FragEntry) : (s.setFrag i e).impl = s.impl := rfl
@[simp] theorem State.setFrag_sys (s : State) (i : Nat) (e : FragEntry) : (s.setFrag i e).sys = s.sys := rfl
@[simp] theorem State.setFrag_clk (s : State) (i : Nat) (e : FragEntry) : (s.setFrag i e).clk = s.clk := rfl
@[simp] theorem State.setFrag_host (s : State) (i : Nat) (e : FragEntry) : (s.setFrag i e).host = s.host := rfl
@[simp] theorem State.setFrag_hbm (s : State) (i : Nat) (e : FragEntry) : (s.setFrag i e).hbm = s.hbm := rfl
@[simp] theorem State.setFrag_rings (s : State) (i : Nat) (e : FragEntry) : (s.setFrag i e).rings = s.rings := rfl
@[simp] theorem State.setFrag_fields (s : State) (i : Nat) (e : FragEntry) : (s.setFrag i e).fields = s.fields := rfl
@[simp] theorem State.setFrag_tabs (s : State) (i : Nat) (e : FragEntry) : (s.setFrag i e).tabs = s.tabs := rfl
@[simp] theorem State.setFrag_flow (s : State) (i : Nat) (e : FragEntry) : (s.setFrag i e).flow = s.flow := rfl
@[simp] theorem State.setFrag_slots (s : State) (i : Nat) (e : FragEntry) : (s.setFrag i e).slots = s.slots := rfl
@[simp] theorem State.setFrag_progress (s : State) (i : Nat) (e : FragEntry) : (s.setFrag i e).progress = s.progress := rfl
@[simp] theorem State.setFrag_epochs (s : State) (i : Nat) (e : FragEntry) : (s.setFrag i e).epochs = s.epochs := rfl
@[simp] theorem State.setFrag_tiles (s : State) (i : Nat) (e : FragEntry) : (s.setFrag i e).tiles = s.tiles := rfl
@[simp] theorem State.setFrag_egr (s : State) (i : Nat) (e : FragEntry) : (s.setFrag i e).egr = s.egr := rfl
@[simp] theorem State.setFrag_fab (s : State) (i : Nat) (e : FragEntry) : (s.setFrag i e).fab = s.fab := rfl
@[simp] theorem State.setFrag_parts (s : State) (i : Nat) (e : FragEntry) : (s.setFrag i e).parts = s.parts := rfl
@[simp] theorem State.setFrag_regions (s : State) (i : Nat) (e : FragEntry) : (s.setFrag i e).regions = s.regions := rfl
@[simp] theorem State.setFrag_epochNew (s : State) (i : Nat) (e : FragEntry) : (s.setFrag i e).epochNew = s.epochNew := rfl
@[simp] theorem State.setFrag_pages (s : State) (i : Nat) (e : FragEntry) : (s.setFrag i e).pages = s.pages := rfl
@[simp] theorem State.setFrag_arb (s : State) (i : Nat) (e : FragEntry) : (s.setFrag i e).arb = s.arb := rfl
@[simp] theorem State.setFrag_darn (s : State) (i : Nat) (e : FragEntry) : (s.setFrag i e).darn = s.darn := rfl
@[simp] theorem State.setFrag_obs (s : State) (i : Nat) (e : FragEntry) : (s.setFrag i e).obs = s.obs := rfl

@[simp] theorem State.setRing_pending (s : State) (n : Nat) (r : Ring) : (s.setRing n r).pending = s.pending := rfl
@[simp] theorem State.setRing_free (s : State) (n : Nat) (r : Ring) : (s.setRing n r).free = s.free := rfl
@[simp] theorem State.setRing_crypto (s : State) (n : Nat) (r : Ring) : (s.setRing n r).crypto = s.crypto := rfl
@[simp] theorem State.setRing_impl (s : State) (n : Nat) (r : Ring) : (s.setRing n r).impl = s.impl := rfl
@[simp] theorem State.setRing_sys (s : State) (n : Nat) (r : Ring) : (s.setRing n r).sys = s.sys := rfl
@[simp] theorem State.setRing_clk (s : State) (n : Nat) (r : Ring) : (s.setRing n r).clk = s.clk := rfl
@[simp] theorem State.setRing_host (s : State) (n : Nat) (r : Ring) : (s.setRing n r).host = s.host := rfl
@[simp] theorem State.setRing_hbm (s : State) (n : Nat) (r : Ring) : (s.setRing n r).hbm = s.hbm := rfl
@[simp] theorem State.setRing_fields (s : State) (n : Nat) (r : Ring) : (s.setRing n r).fields = s.fields := rfl
@[simp] theorem State.setRing_intake (s : State) (n : Nat) (r : Ring) : (s.setRing n r).intake = s.intake := rfl
@[simp] theorem State.setRing_tabs (s : State) (n : Nat) (r : Ring) : (s.setRing n r).tabs = s.tabs := rfl
@[simp] theorem State.setRing_flow (s : State) (n : Nat) (r : Ring) : (s.setRing n r).flow = s.flow := rfl
@[simp] theorem State.setRing_slots (s : State) (n : Nat) (r : Ring) : (s.setRing n r).slots = s.slots := rfl
@[simp] theorem State.setRing_progress (s : State) (n : Nat) (r : Ring) : (s.setRing n r).progress = s.progress := rfl
@[simp] theorem State.setRing_epochs (s : State) (n : Nat) (r : Ring) : (s.setRing n r).epochs = s.epochs := rfl
@[simp] theorem State.setRing_tiles (s : State) (n : Nat) (r : Ring) : (s.setRing n r).tiles = s.tiles := rfl
@[simp] theorem State.setRing_egr (s : State) (n : Nat) (r : Ring) : (s.setRing n r).egr = s.egr := rfl
@[simp] theorem State.setRing_fab (s : State) (n : Nat) (r : Ring) : (s.setRing n r).fab = s.fab := rfl
@[simp] theorem State.setRing_parts (s : State) (n : Nat) (r : Ring) : (s.setRing n r).parts = s.parts := rfl
@[simp] theorem State.setRing_regions (s : State) (n : Nat) (r : Ring) : (s.setRing n r).regions = s.regions := rfl
@[simp] theorem State.setRing_epochNew (s : State) (n : Nat) (r : Ring) : (s.setRing n r).epochNew = s.epochNew := rfl
@[simp] theorem State.setRing_pages (s : State) (n : Nat) (r : Ring) : (s.setRing n r).pages = s.pages := rfl
@[simp] theorem State.setRing_arb (s : State) (n : Nat) (r : Ring) : (s.setRing n r).arb = s.arb := rfl
@[simp] theorem State.setRing_darn (s : State) (n : Nat) (r : Ring) : (s.setRing n r).darn = s.darn := rfl
@[simp] theorem State.setRing_obs (s : State) (n : Nat) (r : Ring) : (s.setRing n r).obs = s.obs := rfl

@[simp] theorem State.modRing_pending (s : State) (n : Nat) (f : Ring → Ring) : (s.modRing n f).pending = s.pending := rfl
@[simp] theorem State.modRing_free (s : State) (n : Nat) (f : Ring → Ring) : (s.modRing n f).free = s.free := rfl
@[simp] theorem State.modRing_crypto (s : State) (n : Nat) (f : Ring → Ring) : (s.modRing n f).crypto = s.crypto := rfl
@[simp] theorem State.modRing_impl (s : State) (n : Nat) (f : Ring → Ring) : (s.modRing n f).impl = s.impl := rfl
@[simp] theorem State.modRing_sys (s : State) (n : Nat) (f : Ring → Ring) : (s.modRing n f).sys = s.sys := rfl
@[simp] theorem State.modRing_clk (s : State) (n : Nat) (f : Ring → Ring) : (s.modRing n f).clk = s.clk := rfl
@[simp] theorem State.modRing_host (s : State) (n : Nat) (f : Ring → Ring) : (s.modRing n f).host = s.host := rfl
@[simp] theorem State.modRing_hbm (s : State) (n : Nat) (f : Ring → Ring) : (s.modRing n f).hbm = s.hbm := rfl
@[simp] theorem State.modRing_fields (s : State) (n : Nat) (f : Ring → Ring) : (s.modRing n f).fields = s.fields := rfl
@[simp] theorem State.modRing_intake (s : State) (n : Nat) (f : Ring → Ring) : (s.modRing n f).intake = s.intake := rfl
@[simp] theorem State.modRing_tabs (s : State) (n : Nat) (f : Ring → Ring) : (s.modRing n f).tabs = s.tabs := rfl
@[simp] theorem State.modRing_flow (s : State) (n : Nat) (f : Ring → Ring) : (s.modRing n f).flow = s.flow := rfl
@[simp] theorem State.modRing_slots (s : State) (n : Nat) (f : Ring → Ring) : (s.modRing n f).slots = s.slots := rfl
@[simp] theorem State.modRing_progress (s : State) (n : Nat) (f : Ring → Ring) : (s.modRing n f).progress = s.progress := rfl
@[simp] theorem State.modRing_epochs (s : State) (n : Nat) (f : Ring → Ring) : (s.modRing n f).epochs = s.epochs := rfl
@[simp] theorem State.modRing_tiles (s : State) (n : Nat) (f : Ring → Ring) : (s.modRing n f).tiles = s.tiles := rfl
@[simp] theorem State.modRing_egr (s : State) (n : Nat) (f : Ring → Ring) : (s.modRing n f).egr = s.egr := rfl
@[simp] theorem State.modRing_fab (s : State) (n : Nat) (f : Ring → Ring) : (s.modRing n f).fab = s.fab := rfl
@[simp] theorem State.modRing_parts (s : State) (n : Nat) (f : Ring → Ring) : (s.modRing n f).parts = s.parts := rfl
@[simp] theorem State.modRing_regions (s : State) (n : Nat) (f : Ring → Ring) : (s.modRing n f).regions = s.regions := rfl
@[simp] theorem State.modRing_epochNew (s : State) (n : Nat) (f : Ring → Ring) : (s.modRing n f).epochNew = s.epochNew := rfl
@[simp] theorem State.modRing_pages (s : State) (n : Nat) (f : Ring → Ring) : (s.modRing n f).pages = s.pages := rfl
@[simp] theorem State.modRing_arb (s : State) (n : Nat) (f : Ring → Ring) : (s.modRing n f).arb = s.arb := rfl
@[simp] theorem State.modRing_darn (s : State) (n : Nat) (f : Ring → Ring) : (s.modRing n f).darn = s.darn := rfl
@[simp] theorem State.modRing_obs (s : State) (n : Nat) (f : Ring → Ring) : (s.modRing n f).obs = s.obs := rfl

@[simp] theorem State.setPart_pending (s : State) (p : Nat) (x : Part) : (s.setPart p x).pending = s.pending := rfl
@[simp] theorem State.setPart_free (s : State) (p : Nat) (x : Part) : (s.setPart p x).free = s.free := rfl
@[simp] theorem State.setPart_crypto (s : State) (p : Nat) (x : Part) : (s.setPart p x).crypto = s.crypto := rfl
@[simp] theorem State.setPart_impl (s : State) (p : Nat) (x : Part) : (s.setPart p x).impl = s.impl := rfl
@[simp] theorem State.setPart_sys (s : State) (p : Nat) (x : Part) : (s.setPart p x).sys = s.sys := rfl
@[simp] theorem State.setPart_clk (s : State) (p : Nat) (x : Part) : (s.setPart p x).clk = s.clk := rfl
@[simp] theorem State.setPart_host (s : State) (p : Nat) (x : Part) : (s.setPart p x).host = s.host := rfl
@[simp] theorem State.setPart_hbm (s : State) (p : Nat) (x : Part) : (s.setPart p x).hbm = s.hbm := rfl
@[simp] theorem State.setPart_rings (s : State) (p : Nat) (x : Part) : (s.setPart p x).rings = s.rings := rfl
@[simp] theorem State.setPart_fields (s : State) (p : Nat) (x : Part) : (s.setPart p x).fields = s.fields := rfl
@[simp] theorem State.setPart_intake (s : State) (p : Nat) (x : Part) : (s.setPart p x).intake = s.intake := rfl
@[simp] theorem State.setPart_tabs (s : State) (p : Nat) (x : Part) : (s.setPart p x).tabs = s.tabs := rfl
@[simp] theorem State.setPart_flow (s : State) (p : Nat) (x : Part) : (s.setPart p x).flow = s.flow := rfl
@[simp] theorem State.setPart_slots (s : State) (p : Nat) (x : Part) : (s.setPart p x).slots = s.slots := rfl
@[simp] theorem State.setPart_progress (s : State) (p : Nat) (x : Part) : (s.setPart p x).progress = s.progress := rfl
@[simp] theorem State.setPart_epochs (s : State) (p : Nat) (x : Part) : (s.setPart p x).epochs = s.epochs := rfl
@[simp] theorem State.setPart_tiles (s : State) (p : Nat) (x : Part) : (s.setPart p x).tiles = s.tiles := rfl
@[simp] theorem State.setPart_egr (s : State) (p : Nat) (x : Part) : (s.setPart p x).egr = s.egr := rfl
@[simp] theorem State.setPart_fab (s : State) (p : Nat) (x : Part) : (s.setPart p x).fab = s.fab := rfl
@[simp] theorem State.setPart_regions (s : State) (p : Nat) (x : Part) : (s.setPart p x).regions = s.regions := rfl
@[simp] theorem State.setPart_epochNew (s : State) (p : Nat) (x : Part) : (s.setPart p x).epochNew = s.epochNew := rfl
@[simp] theorem State.setPart_pages (s : State) (p : Nat) (x : Part) : (s.setPart p x).pages = s.pages := rfl
@[simp] theorem State.setPart_arb (s : State) (p : Nat) (x : Part) : (s.setPart p x).arb = s.arb := rfl
@[simp] theorem State.setPart_darn (s : State) (p : Nat) (x : Part) : (s.setPart p x).darn = s.darn := rfl
@[simp] theorem State.setPart_obs (s : State) (p : Nat) (x : Part) : (s.setPart p x).obs = s.obs := rfl

@[simp] theorem State.modPart_pending (s : State) (p : Nat) (f : Part → Part) : (s.modPart p f).pending = s.pending := rfl
@[simp] theorem State.modPart_free (s : State) (p : Nat) (f : Part → Part) : (s.modPart p f).free = s.free := rfl
@[simp] theorem State.modPart_crypto (s : State) (p : Nat) (f : Part → Part) : (s.modPart p f).crypto = s.crypto := rfl
@[simp] theorem State.modPart_impl (s : State) (p : Nat) (f : Part → Part) : (s.modPart p f).impl = s.impl := rfl
@[simp] theorem State.modPart_sys (s : State) (p : Nat) (f : Part → Part) : (s.modPart p f).sys = s.sys := rfl
@[simp] theorem State.modPart_clk (s : State) (p : Nat) (f : Part → Part) : (s.modPart p f).clk = s.clk := rfl
@[simp] theorem State.modPart_host (s : State) (p : Nat) (f : Part → Part) : (s.modPart p f).host = s.host := rfl
@[simp] theorem State.modPart_hbm (s : State) (p : Nat) (f : Part → Part) : (s.modPart p f).hbm = s.hbm := rfl
@[simp] theorem State.modPart_rings (s : State) (p : Nat) (f : Part → Part) : (s.modPart p f).rings = s.rings := rfl
@[simp] theorem State.modPart_fields (s : State) (p : Nat) (f : Part → Part) : (s.modPart p f).fields = s.fields := rfl
@[simp] theorem State.modPart_intake (s : State) (p : Nat) (f : Part → Part) : (s.modPart p f).intake = s.intake := rfl
@[simp] theorem State.modPart_tabs (s : State) (p : Nat) (f : Part → Part) : (s.modPart p f).tabs = s.tabs := rfl
@[simp] theorem State.modPart_flow (s : State) (p : Nat) (f : Part → Part) : (s.modPart p f).flow = s.flow := rfl
@[simp] theorem State.modPart_slots (s : State) (p : Nat) (f : Part → Part) : (s.modPart p f).slots = s.slots := rfl
@[simp] theorem State.modPart_progress (s : State) (p : Nat) (f : Part → Part) : (s.modPart p f).progress = s.progress := rfl
@[simp] theorem State.modPart_epochs (s : State) (p : Nat) (f : Part → Part) : (s.modPart p f).epochs = s.epochs := rfl
@[simp] theorem State.modPart_tiles (s : State) (p : Nat) (f : Part → Part) : (s.modPart p f).tiles = s.tiles := rfl
@[simp] theorem State.modPart_egr (s : State) (p : Nat) (f : Part → Part) : (s.modPart p f).egr = s.egr := rfl
@[simp] theorem State.modPart_fab (s : State) (p : Nat) (f : Part → Part) : (s.modPart p f).fab = s.fab := rfl
@[simp] theorem State.modPart_regions (s : State) (p : Nat) (f : Part → Part) : (s.modPart p f).regions = s.regions := rfl
@[simp] theorem State.modPart_epochNew (s : State) (p : Nat) (f : Part → Part) : (s.modPart p f).epochNew = s.epochNew := rfl
@[simp] theorem State.modPart_pages (s : State) (p : Nat) (f : Part → Part) : (s.modPart p f).pages = s.pages := rfl
@[simp] theorem State.modPart_arb (s : State) (p : Nat) (f : Part → Part) : (s.modPart p f).arb = s.arb := rfl
@[simp] theorem State.modPart_darn (s : State) (p : Nat) (f : Part → Part) : (s.modPart p f).darn = s.darn := rfl
@[simp] theorem State.modPart_obs (s : State) (p : Nat) (f : Part → Part) : (s.modPart p f).obs = s.obs := rfl

@[simp] theorem State.setSlot_pending (s : State) (n : Nat) (x : Slot) : (s.setSlot n x).pending = s.pending := rfl
@[simp] theorem State.setSlot_free (s : State) (n : Nat) (x : Slot) : (s.setSlot n x).free = s.free := rfl
@[simp] theorem State.setSlot_crypto (s : State) (n : Nat) (x : Slot) : (s.setSlot n x).crypto = s.crypto := rfl
@[simp] theorem State.setSlot_impl (s : State) (n : Nat) (x : Slot) : (s.setSlot n x).impl = s.impl := rfl
@[simp] theorem State.setSlot_sys (s : State) (n : Nat) (x : Slot) : (s.setSlot n x).sys = s.sys := rfl
@[simp] theorem State.setSlot_clk (s : State) (n : Nat) (x : Slot) : (s.setSlot n x).clk = s.clk := rfl
@[simp] theorem State.setSlot_host (s : State) (n : Nat) (x : Slot) : (s.setSlot n x).host = s.host := rfl
@[simp] theorem State.setSlot_hbm (s : State) (n : Nat) (x : Slot) : (s.setSlot n x).hbm = s.hbm := rfl
@[simp] theorem State.setSlot_rings (s : State) (n : Nat) (x : Slot) : (s.setSlot n x).rings = s.rings := rfl
@[simp] theorem State.setSlot_fields (s : State) (n : Nat) (x : Slot) : (s.setSlot n x).fields = s.fields := rfl
@[simp] theorem State.setSlot_intake (s : State) (n : Nat) (x : Slot) : (s.setSlot n x).intake = s.intake := rfl
@[simp] theorem State.setSlot_tabs (s : State) (n : Nat) (x : Slot) : (s.setSlot n x).tabs = s.tabs := rfl
@[simp] theorem State.setSlot_flow (s : State) (n : Nat) (x : Slot) : (s.setSlot n x).flow = s.flow := rfl
@[simp] theorem State.setSlot_progress (s : State) (n : Nat) (x : Slot) : (s.setSlot n x).progress = s.progress := rfl
@[simp] theorem State.setSlot_epochs (s : State) (n : Nat) (x : Slot) : (s.setSlot n x).epochs = s.epochs := rfl
@[simp] theorem State.setSlot_tiles (s : State) (n : Nat) (x : Slot) : (s.setSlot n x).tiles = s.tiles := rfl
@[simp] theorem State.setSlot_egr (s : State) (n : Nat) (x : Slot) : (s.setSlot n x).egr = s.egr := rfl
@[simp] theorem State.setSlot_fab (s : State) (n : Nat) (x : Slot) : (s.setSlot n x).fab = s.fab := rfl
@[simp] theorem State.setSlot_parts (s : State) (n : Nat) (x : Slot) : (s.setSlot n x).parts = s.parts := rfl
@[simp] theorem State.setSlot_regions (s : State) (n : Nat) (x : Slot) : (s.setSlot n x).regions = s.regions := rfl
@[simp] theorem State.setSlot_epochNew (s : State) (n : Nat) (x : Slot) : (s.setSlot n x).epochNew = s.epochNew := rfl
@[simp] theorem State.setSlot_pages (s : State) (n : Nat) (x : Slot) : (s.setSlot n x).pages = s.pages := rfl
@[simp] theorem State.setSlot_arb (s : State) (n : Nat) (x : Slot) : (s.setSlot n x).arb = s.arb := rfl
@[simp] theorem State.setSlot_darn (s : State) (n : Nat) (x : Slot) : (s.setSlot n x).darn = s.darn := rfl
@[simp] theorem State.setSlot_obs (s : State) (n : Nat) (x : Slot) : (s.setSlot n x).obs = s.obs := rfl

@[simp] theorem State.modSlot_pending (s : State) (n : Nat) (f : Slot → Slot) : (s.modSlot n f).pending = s.pending := rfl
@[simp] theorem State.modSlot_free (s : State) (n : Nat) (f : Slot → Slot) : (s.modSlot n f).free = s.free := rfl
@[simp] theorem State.modSlot_crypto (s : State) (n : Nat) (f : Slot → Slot) : (s.modSlot n f).crypto = s.crypto := rfl
@[simp] theorem State.modSlot_impl (s : State) (n : Nat) (f : Slot → Slot) : (s.modSlot n f).impl = s.impl := rfl
@[simp] theorem State.modSlot_sys (s : State) (n : Nat) (f : Slot → Slot) : (s.modSlot n f).sys = s.sys := rfl
@[simp] theorem State.modSlot_clk (s : State) (n : Nat) (f : Slot → Slot) : (s.modSlot n f).clk = s.clk := rfl
@[simp] theorem State.modSlot_host (s : State) (n : Nat) (f : Slot → Slot) : (s.modSlot n f).host = s.host := rfl
@[simp] theorem State.modSlot_hbm (s : State) (n : Nat) (f : Slot → Slot) : (s.modSlot n f).hbm = s.hbm := rfl
@[simp] theorem State.modSlot_rings (s : State) (n : Nat) (f : Slot → Slot) : (s.modSlot n f).rings = s.rings := rfl
@[simp] theorem State.modSlot_fields (s : State) (n : Nat) (f : Slot → Slot) : (s.modSlot n f).fields = s.fields := rfl
@[simp] theorem State.modSlot_intake (s : State) (n : Nat) (f : Slot → Slot) : (s.modSlot n f).intake = s.intake := rfl
@[simp] theorem State.modSlot_tabs (s : State) (n : Nat) (f : Slot → Slot) : (s.modSlot n f).tabs = s.tabs := rfl
@[simp] theorem State.modSlot_flow (s : State) (n : Nat) (f : Slot → Slot) : (s.modSlot n f).flow = s.flow := rfl
@[simp] theorem State.modSlot_progress (s : State) (n : Nat) (f : Slot → Slot) : (s.modSlot n f).progress = s.progress := rfl
@[simp] theorem State.modSlot_epochs (s : State) (n : Nat) (f : Slot → Slot) : (s.modSlot n f).epochs = s.epochs := rfl
@[simp] theorem State.modSlot_tiles (s : State) (n : Nat) (f : Slot → Slot) : (s.modSlot n f).tiles = s.tiles := rfl
@[simp] theorem State.modSlot_egr (s : State) (n : Nat) (f : Slot → Slot) : (s.modSlot n f).egr = s.egr := rfl
@[simp] theorem State.modSlot_fab (s : State) (n : Nat) (f : Slot → Slot) : (s.modSlot n f).fab = s.fab := rfl
@[simp] theorem State.modSlot_parts (s : State) (n : Nat) (f : Slot → Slot) : (s.modSlot n f).parts = s.parts := rfl
@[simp] theorem State.modSlot_regions (s : State) (n : Nat) (f : Slot → Slot) : (s.modSlot n f).regions = s.regions := rfl
@[simp] theorem State.modSlot_epochNew (s : State) (n : Nat) (f : Slot → Slot) : (s.modSlot n f).epochNew = s.epochNew := rfl
@[simp] theorem State.modSlot_pages (s : State) (n : Nat) (f : Slot → Slot) : (s.modSlot n f).pages = s.pages := rfl
@[simp] theorem State.modSlot_arb (s : State) (n : Nat) (f : Slot → Slot) : (s.modSlot n f).arb = s.arb := rfl
@[simp] theorem State.modSlot_darn (s : State) (n : Nat) (f : Slot → Slot) : (s.modSlot n f).darn = s.darn := rfl
@[simp] theorem State.modSlot_obs (s : State) (n : Nat) (f : Slot → Slot) : (s.modSlot n f).obs = s.obs := rfl

@[simp] theorem State.setLink_pending (s : State) (l : Nat) (x : Link) : (s.setLink l x).pending = s.pending := rfl
@[simp] theorem State.setLink_free (s : State) (l : Nat) (x : Link) : (s.setLink l x).free = s.free := rfl
@[simp] theorem State.setLink_crypto (s : State) (l : Nat) (x : Link) : (s.setLink l x).crypto = s.crypto := rfl
@[simp] theorem State.setLink_impl (s : State) (l : Nat) (x : Link) : (s.setLink l x).impl = s.impl := rfl
@[simp] theorem State.setLink_sys (s : State) (l : Nat) (x : Link) : (s.setLink l x).sys = s.sys := rfl
@[simp] theorem State.setLink_clk (s : State) (l : Nat) (x : Link) : (s.setLink l x).clk = s.clk := rfl
@[simp] theorem State.setLink_host (s : State) (l : Nat) (x : Link) : (s.setLink l x).host = s.host := rfl
@[simp] theorem State.setLink_hbm (s : State) (l : Nat) (x : Link) : (s.setLink l x).hbm = s.hbm := rfl
@[simp] theorem State.setLink_rings (s : State) (l : Nat) (x : Link) : (s.setLink l x).rings = s.rings := rfl
@[simp] theorem State.setLink_fields (s : State) (l : Nat) (x : Link) : (s.setLink l x).fields = s.fields := rfl
@[simp] theorem State.setLink_intake (s : State) (l : Nat) (x : Link) : (s.setLink l x).intake = s.intake := rfl
@[simp] theorem State.setLink_tabs (s : State) (l : Nat) (x : Link) : (s.setLink l x).tabs = s.tabs := rfl
@[simp] theorem State.setLink_flow (s : State) (l : Nat) (x : Link) : (s.setLink l x).flow = s.flow := rfl
@[simp] theorem State.setLink_slots (s : State) (l : Nat) (x : Link) : (s.setLink l x).slots = s.slots := rfl
@[simp] theorem State.setLink_progress (s : State) (l : Nat) (x : Link) : (s.setLink l x).progress = s.progress := rfl
@[simp] theorem State.setLink_epochs (s : State) (l : Nat) (x : Link) : (s.setLink l x).epochs = s.epochs := rfl
@[simp] theorem State.setLink_tiles (s : State) (l : Nat) (x : Link) : (s.setLink l x).tiles = s.tiles := rfl
@[simp] theorem State.setLink_egr (s : State) (l : Nat) (x : Link) : (s.setLink l x).egr = s.egr := rfl
@[simp] theorem State.setLink_parts (s : State) (l : Nat) (x : Link) : (s.setLink l x).parts = s.parts := rfl
@[simp] theorem State.setLink_regions (s : State) (l : Nat) (x : Link) : (s.setLink l x).regions = s.regions := rfl
@[simp] theorem State.setLink_epochNew (s : State) (l : Nat) (x : Link) : (s.setLink l x).epochNew = s.epochNew := rfl
@[simp] theorem State.setLink_pages (s : State) (l : Nat) (x : Link) : (s.setLink l x).pages = s.pages := rfl
@[simp] theorem State.setLink_arb (s : State) (l : Nat) (x : Link) : (s.setLink l x).arb = s.arb := rfl
@[simp] theorem State.setLink_darn (s : State) (l : Nat) (x : Link) : (s.setLink l x).darn = s.darn := rfl
@[simp] theorem State.setLink_obs (s : State) (l : Nat) (x : Link) : (s.setLink l x).obs = s.obs := rfl

@[simp] theorem State.modLink_pending (s : State) (l : Nat) (f : Link → Link) : (s.modLink l f).pending = s.pending := rfl
@[simp] theorem State.modLink_free (s : State) (l : Nat) (f : Link → Link) : (s.modLink l f).free = s.free := rfl
@[simp] theorem State.modLink_crypto (s : State) (l : Nat) (f : Link → Link) : (s.modLink l f).crypto = s.crypto := rfl
@[simp] theorem State.modLink_impl (s : State) (l : Nat) (f : Link → Link) : (s.modLink l f).impl = s.impl := rfl
@[simp] theorem State.modLink_sys (s : State) (l : Nat) (f : Link → Link) : (s.modLink l f).sys = s.sys := rfl
@[simp] theorem State.modLink_clk (s : State) (l : Nat) (f : Link → Link) : (s.modLink l f).clk = s.clk := rfl
@[simp] theorem State.modLink_host (s : State) (l : Nat) (f : Link → Link) : (s.modLink l f).host = s.host := rfl
@[simp] theorem State.modLink_hbm (s : State) (l : Nat) (f : Link → Link) : (s.modLink l f).hbm = s.hbm := rfl
@[simp] theorem State.modLink_rings (s : State) (l : Nat) (f : Link → Link) : (s.modLink l f).rings = s.rings := rfl
@[simp] theorem State.modLink_fields (s : State) (l : Nat) (f : Link → Link) : (s.modLink l f).fields = s.fields := rfl
@[simp] theorem State.modLink_intake (s : State) (l : Nat) (f : Link → Link) : (s.modLink l f).intake = s.intake := rfl
@[simp] theorem State.modLink_tabs (s : State) (l : Nat) (f : Link → Link) : (s.modLink l f).tabs = s.tabs := rfl
@[simp] theorem State.modLink_flow (s : State) (l : Nat) (f : Link → Link) : (s.modLink l f).flow = s.flow := rfl
@[simp] theorem State.modLink_slots (s : State) (l : Nat) (f : Link → Link) : (s.modLink l f).slots = s.slots := rfl
@[simp] theorem State.modLink_progress (s : State) (l : Nat) (f : Link → Link) : (s.modLink l f).progress = s.progress := rfl
@[simp] theorem State.modLink_epochs (s : State) (l : Nat) (f : Link → Link) : (s.modLink l f).epochs = s.epochs := rfl
@[simp] theorem State.modLink_tiles (s : State) (l : Nat) (f : Link → Link) : (s.modLink l f).tiles = s.tiles := rfl
@[simp] theorem State.modLink_egr (s : State) (l : Nat) (f : Link → Link) : (s.modLink l f).egr = s.egr := rfl
@[simp] theorem State.modLink_parts (s : State) (l : Nat) (f : Link → Link) : (s.modLink l f).parts = s.parts := rfl
@[simp] theorem State.modLink_regions (s : State) (l : Nat) (f : Link → Link) : (s.modLink l f).regions = s.regions := rfl
@[simp] theorem State.modLink_epochNew (s : State) (l : Nat) (f : Link → Link) : (s.modLink l f).epochNew = s.epochNew := rfl
@[simp] theorem State.modLink_pages (s : State) (l : Nat) (f : Link → Link) : (s.modLink l f).pages = s.pages := rfl
@[simp] theorem State.modLink_arb (s : State) (l : Nat) (f : Link → Link) : (s.modLink l f).arb = s.arb := rfl
@[simp] theorem State.modLink_darn (s : State) (l : Nat) (f : Link → Link) : (s.modLink l f).darn = s.darn := rfl
@[simp] theorem State.modLink_obs (s : State) (l : Nat) (f : Link → Link) : (s.modLink l f).obs = s.obs := rfl

@[simp] theorem State.setQueue_pending (s : State) (q : Nat) (x : Queue) : (s.setQueue q x).pending = s.pending := rfl
@[simp] theorem State.setQueue_free (s : State) (q : Nat) (x : Queue) : (s.setQueue q x).free = s.free := rfl
@[simp] theorem State.setQueue_crypto (s : State) (q : Nat) (x : Queue) : (s.setQueue q x).crypto = s.crypto := rfl
@[simp] theorem State.setQueue_impl (s : State) (q : Nat) (x : Queue) : (s.setQueue q x).impl = s.impl := rfl
@[simp] theorem State.setQueue_sys (s : State) (q : Nat) (x : Queue) : (s.setQueue q x).sys = s.sys := rfl
@[simp] theorem State.setQueue_clk (s : State) (q : Nat) (x : Queue) : (s.setQueue q x).clk = s.clk := rfl
@[simp] theorem State.setQueue_host (s : State) (q : Nat) (x : Queue) : (s.setQueue q x).host = s.host := rfl
@[simp] theorem State.setQueue_hbm (s : State) (q : Nat) (x : Queue) : (s.setQueue q x).hbm = s.hbm := rfl
@[simp] theorem State.setQueue_rings (s : State) (q : Nat) (x : Queue) : (s.setQueue q x).rings = s.rings := rfl
@[simp] theorem State.setQueue_fields (s : State) (q : Nat) (x : Queue) : (s.setQueue q x).fields = s.fields := rfl
@[simp] theorem State.setQueue_intake (s : State) (q : Nat) (x : Queue) : (s.setQueue q x).intake = s.intake := rfl
@[simp] theorem State.setQueue_tabs (s : State) (q : Nat) (x : Queue) : (s.setQueue q x).tabs = s.tabs := rfl
@[simp] theorem State.setQueue_flow (s : State) (q : Nat) (x : Queue) : (s.setQueue q x).flow = s.flow := rfl
@[simp] theorem State.setQueue_slots (s : State) (q : Nat) (x : Queue) : (s.setQueue q x).slots = s.slots := rfl
@[simp] theorem State.setQueue_progress (s : State) (q : Nat) (x : Queue) : (s.setQueue q x).progress = s.progress := rfl
@[simp] theorem State.setQueue_epochs (s : State) (q : Nat) (x : Queue) : (s.setQueue q x).epochs = s.epochs := rfl
@[simp] theorem State.setQueue_tiles (s : State) (q : Nat) (x : Queue) : (s.setQueue q x).tiles = s.tiles := rfl
@[simp] theorem State.setQueue_fab (s : State) (q : Nat) (x : Queue) : (s.setQueue q x).fab = s.fab := rfl
@[simp] theorem State.setQueue_parts (s : State) (q : Nat) (x : Queue) : (s.setQueue q x).parts = s.parts := rfl
@[simp] theorem State.setQueue_regions (s : State) (q : Nat) (x : Queue) : (s.setQueue q x).regions = s.regions := rfl
@[simp] theorem State.setQueue_epochNew (s : State) (q : Nat) (x : Queue) : (s.setQueue q x).epochNew = s.epochNew := rfl
@[simp] theorem State.setQueue_pages (s : State) (q : Nat) (x : Queue) : (s.setQueue q x).pages = s.pages := rfl
@[simp] theorem State.setQueue_arb (s : State) (q : Nat) (x : Queue) : (s.setQueue q x).arb = s.arb := rfl
@[simp] theorem State.setQueue_darn (s : State) (q : Nat) (x : Queue) : (s.setQueue q x).darn = s.darn := rfl
@[simp] theorem State.setQueue_obs (s : State) (q : Nat) (x : Queue) : (s.setQueue q x).obs = s.obs := rfl

@[simp] theorem State.setHring_pending (s : State) (n : Nat) (x : HostRing) : (s.setHring n x).pending = s.pending := rfl
@[simp] theorem State.setHring_free (s : State) (n : Nat) (x : HostRing) : (s.setHring n x).free = s.free := rfl
@[simp] theorem State.setHring_crypto (s : State) (n : Nat) (x : HostRing) : (s.setHring n x).crypto = s.crypto := rfl
@[simp] theorem State.setHring_impl (s : State) (n : Nat) (x : HostRing) : (s.setHring n x).impl = s.impl := rfl
@[simp] theorem State.setHring_sys (s : State) (n : Nat) (x : HostRing) : (s.setHring n x).sys = s.sys := rfl
@[simp] theorem State.setHring_clk (s : State) (n : Nat) (x : HostRing) : (s.setHring n x).clk = s.clk := rfl
@[simp] theorem State.setHring_host (s : State) (n : Nat) (x : HostRing) : (s.setHring n x).host = s.host := rfl
@[simp] theorem State.setHring_hbm (s : State) (n : Nat) (x : HostRing) : (s.setHring n x).hbm = s.hbm := rfl
@[simp] theorem State.setHring_rings (s : State) (n : Nat) (x : HostRing) : (s.setHring n x).rings = s.rings := rfl
@[simp] theorem State.setHring_fields (s : State) (n : Nat) (x : HostRing) : (s.setHring n x).fields = s.fields := rfl
@[simp] theorem State.setHring_intake (s : State) (n : Nat) (x : HostRing) : (s.setHring n x).intake = s.intake := rfl
@[simp] theorem State.setHring_tabs (s : State) (n : Nat) (x : HostRing) : (s.setHring n x).tabs = s.tabs := rfl
@[simp] theorem State.setHring_flow (s : State) (n : Nat) (x : HostRing) : (s.setHring n x).flow = s.flow := rfl
@[simp] theorem State.setHring_slots (s : State) (n : Nat) (x : HostRing) : (s.setHring n x).slots = s.slots := rfl
@[simp] theorem State.setHring_progress (s : State) (n : Nat) (x : HostRing) : (s.setHring n x).progress = s.progress := rfl
@[simp] theorem State.setHring_epochs (s : State) (n : Nat) (x : HostRing) : (s.setHring n x).epochs = s.epochs := rfl
@[simp] theorem State.setHring_tiles (s : State) (n : Nat) (x : HostRing) : (s.setHring n x).tiles = s.tiles := rfl
@[simp] theorem State.setHring_fab (s : State) (n : Nat) (x : HostRing) : (s.setHring n x).fab = s.fab := rfl
@[simp] theorem State.setHring_parts (s : State) (n : Nat) (x : HostRing) : (s.setHring n x).parts = s.parts := rfl
@[simp] theorem State.setHring_regions (s : State) (n : Nat) (x : HostRing) : (s.setHring n x).regions = s.regions := rfl
@[simp] theorem State.setHring_epochNew (s : State) (n : Nat) (x : HostRing) : (s.setHring n x).epochNew = s.epochNew := rfl
@[simp] theorem State.setHring_pages (s : State) (n : Nat) (x : HostRing) : (s.setHring n x).pages = s.pages := rfl
@[simp] theorem State.setHring_arb (s : State) (n : Nat) (x : HostRing) : (s.setHring n x).arb = s.arb := rfl
@[simp] theorem State.setHring_darn (s : State) (n : Nat) (x : HostRing) : (s.setHring n x).darn = s.darn := rfl
@[simp] theorem State.setHring_obs (s : State) (n : Nat) (x : HostRing) : (s.setHring n x).obs = s.obs := rfl

@[simp] theorem State.setEps_pending (s : State) (p : Nat) (l : List Epoch) : (s.setEps p l).pending = s.pending := rfl
@[simp] theorem State.setEps_free (s : State) (p : Nat) (l : List Epoch) : (s.setEps p l).free = s.free := rfl
@[simp] theorem State.setEps_crypto (s : State) (p : Nat) (l : List Epoch) : (s.setEps p l).crypto = s.crypto := rfl
@[simp] theorem State.setEps_impl (s : State) (p : Nat) (l : List Epoch) : (s.setEps p l).impl = s.impl := rfl
@[simp] theorem State.setEps_sys (s : State) (p : Nat) (l : List Epoch) : (s.setEps p l).sys = s.sys := rfl
@[simp] theorem State.setEps_clk (s : State) (p : Nat) (l : List Epoch) : (s.setEps p l).clk = s.clk := rfl
@[simp] theorem State.setEps_host (s : State) (p : Nat) (l : List Epoch) : (s.setEps p l).host = s.host := rfl
@[simp] theorem State.setEps_hbm (s : State) (p : Nat) (l : List Epoch) : (s.setEps p l).hbm = s.hbm := rfl
@[simp] theorem State.setEps_rings (s : State) (p : Nat) (l : List Epoch) : (s.setEps p l).rings = s.rings := rfl
@[simp] theorem State.setEps_fields (s : State) (p : Nat) (l : List Epoch) : (s.setEps p l).fields = s.fields := rfl
@[simp] theorem State.setEps_intake (s : State) (p : Nat) (l : List Epoch) : (s.setEps p l).intake = s.intake := rfl
@[simp] theorem State.setEps_tabs (s : State) (p : Nat) (l : List Epoch) : (s.setEps p l).tabs = s.tabs := rfl
@[simp] theorem State.setEps_flow (s : State) (p : Nat) (l : List Epoch) : (s.setEps p l).flow = s.flow := rfl
@[simp] theorem State.setEps_slots (s : State) (p : Nat) (l : List Epoch) : (s.setEps p l).slots = s.slots := rfl
@[simp] theorem State.setEps_progress (s : State) (p : Nat) (l : List Epoch) : (s.setEps p l).progress = s.progress := rfl
@[simp] theorem State.setEps_tiles (s : State) (p : Nat) (l : List Epoch) : (s.setEps p l).tiles = s.tiles := rfl
@[simp] theorem State.setEps_egr (s : State) (p : Nat) (l : List Epoch) : (s.setEps p l).egr = s.egr := rfl
@[simp] theorem State.setEps_fab (s : State) (p : Nat) (l : List Epoch) : (s.setEps p l).fab = s.fab := rfl
@[simp] theorem State.setEps_parts (s : State) (p : Nat) (l : List Epoch) : (s.setEps p l).parts = s.parts := rfl
@[simp] theorem State.setEps_regions (s : State) (p : Nat) (l : List Epoch) : (s.setEps p l).regions = s.regions := rfl
@[simp] theorem State.setEps_epochNew (s : State) (p : Nat) (l : List Epoch) : (s.setEps p l).epochNew = s.epochNew := rfl
@[simp] theorem State.setEps_pages (s : State) (p : Nat) (l : List Epoch) : (s.setEps p l).pages = s.pages := rfl
@[simp] theorem State.setEps_arb (s : State) (p : Nat) (l : List Epoch) : (s.setEps p l).arb = s.arb := rfl
@[simp] theorem State.setEps_darn (s : State) (p : Nat) (l : List Epoch) : (s.setEps p l).darn = s.darn := rfl
@[simp] theorem State.setEps_obs (s : State) (p : Nat) (l : List Epoch) : (s.setEps p l).obs = s.obs := rfl

@[simp] theorem State.setCtx_pending (s : State) (i : Nat) (c : FlowCtx) : (s.setCtx i c).pending = s.pending := rfl
@[simp] theorem State.setCtx_free (s : State) (i : Nat) (c : FlowCtx) : (s.setCtx i c).free = s.free := rfl
@[simp] theorem State.setCtx_crypto (s : State) (i : Nat) (c : FlowCtx) : (s.setCtx i c).crypto = s.crypto := rfl
@[simp] theorem State.setCtx_impl (s : State) (i : Nat) (c : FlowCtx) : (s.setCtx i c).impl = s.impl := rfl
@[simp] theorem State.setCtx_sys (s : State) (i : Nat) (c : FlowCtx) : (s.setCtx i c).sys = s.sys := rfl
@[simp] theorem State.setCtx_clk (s : State) (i : Nat) (c : FlowCtx) : (s.setCtx i c).clk = s.clk := rfl
@[simp] theorem State.setCtx_host (s : State) (i : Nat) (c : FlowCtx) : (s.setCtx i c).host = s.host := rfl
@[simp] theorem State.setCtx_hbm (s : State) (i : Nat) (c : FlowCtx) : (s.setCtx i c).hbm = s.hbm := rfl
@[simp] theorem State.setCtx_rings (s : State) (i : Nat) (c : FlowCtx) : (s.setCtx i c).rings = s.rings := rfl
@[simp] theorem State.setCtx_fields (s : State) (i : Nat) (c : FlowCtx) : (s.setCtx i c).fields = s.fields := rfl
@[simp] theorem State.setCtx_intake (s : State) (i : Nat) (c : FlowCtx) : (s.setCtx i c).intake = s.intake := rfl
@[simp] theorem State.setCtx_tabs (s : State) (i : Nat) (c : FlowCtx) : (s.setCtx i c).tabs = s.tabs := rfl
@[simp] theorem State.setCtx_slots (s : State) (i : Nat) (c : FlowCtx) : (s.setCtx i c).slots = s.slots := rfl
@[simp] theorem State.setCtx_progress (s : State) (i : Nat) (c : FlowCtx) : (s.setCtx i c).progress = s.progress := rfl
@[simp] theorem State.setCtx_epochs (s : State) (i : Nat) (c : FlowCtx) : (s.setCtx i c).epochs = s.epochs := rfl
@[simp] theorem State.setCtx_tiles (s : State) (i : Nat) (c : FlowCtx) : (s.setCtx i c).tiles = s.tiles := rfl
@[simp] theorem State.setCtx_egr (s : State) (i : Nat) (c : FlowCtx) : (s.setCtx i c).egr = s.egr := rfl
@[simp] theorem State.setCtx_fab (s : State) (i : Nat) (c : FlowCtx) : (s.setCtx i c).fab = s.fab := rfl
@[simp] theorem State.setCtx_parts (s : State) (i : Nat) (c : FlowCtx) : (s.setCtx i c).parts = s.parts := rfl
@[simp] theorem State.setCtx_regions (s : State) (i : Nat) (c : FlowCtx) : (s.setCtx i c).regions = s.regions := rfl
@[simp] theorem State.setCtx_epochNew (s : State) (i : Nat) (c : FlowCtx) : (s.setCtx i c).epochNew = s.epochNew := rfl
@[simp] theorem State.setCtx_pages (s : State) (i : Nat) (c : FlowCtx) : (s.setCtx i c).pages = s.pages := rfl
@[simp] theorem State.setCtx_arb (s : State) (i : Nat) (c : FlowCtx) : (s.setCtx i c).arb = s.arb := rfl
@[simp] theorem State.setCtx_darn (s : State) (i : Nat) (c : FlowCtx) : (s.setCtx i c).darn = s.darn := rfl
@[simp] theorem State.setCtx_obs (s : State) (i : Nat) (c : FlowCtx) : (s.setCtx i c).obs = s.obs := rfl

@[simp] theorem State.setLaser_pending (s : State) (c : Nat) (x : Laser) : (s.setLaser c x).pending = s.pending := rfl
@[simp] theorem State.setLaser_free (s : State) (c : Nat) (x : Laser) : (s.setLaser c x).free = s.free := rfl
@[simp] theorem State.setLaser_crypto (s : State) (c : Nat) (x : Laser) : (s.setLaser c x).crypto = s.crypto := rfl
@[simp] theorem State.setLaser_impl (s : State) (c : Nat) (x : Laser) : (s.setLaser c x).impl = s.impl := rfl
@[simp] theorem State.setLaser_clk (s : State) (c : Nat) (x : Laser) : (s.setLaser c x).clk = s.clk := rfl
@[simp] theorem State.setLaser_host (s : State) (c : Nat) (x : Laser) : (s.setLaser c x).host = s.host := rfl
@[simp] theorem State.setLaser_hbm (s : State) (c : Nat) (x : Laser) : (s.setLaser c x).hbm = s.hbm := rfl
@[simp] theorem State.setLaser_rings (s : State) (c : Nat) (x : Laser) : (s.setLaser c x).rings = s.rings := rfl
@[simp] theorem State.setLaser_fields (s : State) (c : Nat) (x : Laser) : (s.setLaser c x).fields = s.fields := rfl
@[simp] theorem State.setLaser_intake (s : State) (c : Nat) (x : Laser) : (s.setLaser c x).intake = s.intake := rfl
@[simp] theorem State.setLaser_tabs (s : State) (c : Nat) (x : Laser) : (s.setLaser c x).tabs = s.tabs := rfl
@[simp] theorem State.setLaser_flow (s : State) (c : Nat) (x : Laser) : (s.setLaser c x).flow = s.flow := rfl
@[simp] theorem State.setLaser_slots (s : State) (c : Nat) (x : Laser) : (s.setLaser c x).slots = s.slots := rfl
@[simp] theorem State.setLaser_progress (s : State) (c : Nat) (x : Laser) : (s.setLaser c x).progress = s.progress := rfl
@[simp] theorem State.setLaser_epochs (s : State) (c : Nat) (x : Laser) : (s.setLaser c x).epochs = s.epochs := rfl
@[simp] theorem State.setLaser_tiles (s : State) (c : Nat) (x : Laser) : (s.setLaser c x).tiles = s.tiles := rfl
@[simp] theorem State.setLaser_egr (s : State) (c : Nat) (x : Laser) : (s.setLaser c x).egr = s.egr := rfl
@[simp] theorem State.setLaser_fab (s : State) (c : Nat) (x : Laser) : (s.setLaser c x).fab = s.fab := rfl
@[simp] theorem State.setLaser_parts (s : State) (c : Nat) (x : Laser) : (s.setLaser c x).parts = s.parts := rfl
@[simp] theorem State.setLaser_regions (s : State) (c : Nat) (x : Laser) : (s.setLaser c x).regions = s.regions := rfl
@[simp] theorem State.setLaser_epochNew (s : State) (c : Nat) (x : Laser) : (s.setLaser c x).epochNew = s.epochNew := rfl
@[simp] theorem State.setLaser_pages (s : State) (c : Nat) (x : Laser) : (s.setLaser c x).pages = s.pages := rfl
@[simp] theorem State.setLaser_arb (s : State) (c : Nat) (x : Laser) : (s.setLaser c x).arb = s.arb := rfl
@[simp] theorem State.setLaser_darn (s : State) (c : Nat) (x : Laser) : (s.setLaser c x).darn = s.darn := rfl
@[simp] theorem State.setLaser_obs (s : State) (c : Nat) (x : Laser) : (s.setLaser c x).obs = s.obs := rfl

@[simp] theorem State.setPkts_pending (s : State) (l : List Packet) : (s.setPkts l).pending = s.pending := rfl
@[simp] theorem State.setPkts_free (s : State) (l : List Packet) : (s.setPkts l).free = s.free := rfl
@[simp] theorem State.setPkts_crypto (s : State) (l : List Packet) : (s.setPkts l).crypto = s.crypto := rfl
@[simp] theorem State.setPkts_impl (s : State) (l : List Packet) : (s.setPkts l).impl = s.impl := rfl
@[simp] theorem State.setPkts_sys (s : State) (l : List Packet) : (s.setPkts l).sys = s.sys := rfl
@[simp] theorem State.setPkts_clk (s : State) (l : List Packet) : (s.setPkts l).clk = s.clk := rfl
@[simp] theorem State.setPkts_host (s : State) (l : List Packet) : (s.setPkts l).host = s.host := rfl
@[simp] theorem State.setPkts_hbm (s : State) (l : List Packet) : (s.setPkts l).hbm = s.hbm := rfl
@[simp] theorem State.setPkts_rings (s : State) (l : List Packet) : (s.setPkts l).rings = s.rings := rfl
@[simp] theorem State.setPkts_fields (s : State) (l : List Packet) : (s.setPkts l).fields = s.fields := rfl
@[simp] theorem State.setPkts_tabs (s : State) (l : List Packet) : (s.setPkts l).tabs = s.tabs := rfl
@[simp] theorem State.setPkts_flow (s : State) (l : List Packet) : (s.setPkts l).flow = s.flow := rfl
@[simp] theorem State.setPkts_slots (s : State) (l : List Packet) : (s.setPkts l).slots = s.slots := rfl
@[simp] theorem State.setPkts_epochs (s : State) (l : List Packet) : (s.setPkts l).epochs = s.epochs := rfl
@[simp] theorem State.setPkts_tiles (s : State) (l : List Packet) : (s.setPkts l).tiles = s.tiles := rfl
@[simp] theorem State.setPkts_egr (s : State) (l : List Packet) : (s.setPkts l).egr = s.egr := rfl
@[simp] theorem State.setPkts_fab (s : State) (l : List Packet) : (s.setPkts l).fab = s.fab := rfl
@[simp] theorem State.setPkts_parts (s : State) (l : List Packet) : (s.setPkts l).parts = s.parts := rfl
@[simp] theorem State.setPkts_regions (s : State) (l : List Packet) : (s.setPkts l).regions = s.regions := rfl
@[simp] theorem State.setPkts_epochNew (s : State) (l : List Packet) : (s.setPkts l).epochNew = s.epochNew := rfl
@[simp] theorem State.setPkts_pages (s : State) (l : List Packet) : (s.setPkts l).pages = s.pages := rfl
@[simp] theorem State.setPkts_arb (s : State) (l : List Packet) : (s.setPkts l).arb = s.arb := rfl
@[simp] theorem State.setPkts_darn (s : State) (l : List Packet) : (s.setPkts l).darn = s.darn := rfl
@[simp] theorem State.setPkts_obs (s : State) (l : List Packet) : (s.setPkts l).obs = s.obs := rfl

@[simp] theorem State.modPkt_pending (s : State) (id : Nat) (f : Packet → Packet) : (s.modPkt id f).pending = s.pending := rfl
@[simp] theorem State.modPkt_free (s : State) (id : Nat) (f : Packet → Packet) : (s.modPkt id f).free = s.free := rfl
@[simp] theorem State.modPkt_crypto (s : State) (id : Nat) (f : Packet → Packet) : (s.modPkt id f).crypto = s.crypto := rfl
@[simp] theorem State.modPkt_impl (s : State) (id : Nat) (f : Packet → Packet) : (s.modPkt id f).impl = s.impl := rfl
@[simp] theorem State.modPkt_sys (s : State) (id : Nat) (f : Packet → Packet) : (s.modPkt id f).sys = s.sys := rfl
@[simp] theorem State.modPkt_clk (s : State) (id : Nat) (f : Packet → Packet) : (s.modPkt id f).clk = s.clk := rfl
@[simp] theorem State.modPkt_host (s : State) (id : Nat) (f : Packet → Packet) : (s.modPkt id f).host = s.host := rfl
@[simp] theorem State.modPkt_hbm (s : State) (id : Nat) (f : Packet → Packet) : (s.modPkt id f).hbm = s.hbm := rfl
@[simp] theorem State.modPkt_rings (s : State) (id : Nat) (f : Packet → Packet) : (s.modPkt id f).rings = s.rings := rfl
@[simp] theorem State.modPkt_fields (s : State) (id : Nat) (f : Packet → Packet) : (s.modPkt id f).fields = s.fields := rfl
@[simp] theorem State.modPkt_tabs (s : State) (id : Nat) (f : Packet → Packet) : (s.modPkt id f).tabs = s.tabs := rfl
@[simp] theorem State.modPkt_flow (s : State) (id : Nat) (f : Packet → Packet) : (s.modPkt id f).flow = s.flow := rfl
@[simp] theorem State.modPkt_slots (s : State) (id : Nat) (f : Packet → Packet) : (s.modPkt id f).slots = s.slots := rfl
@[simp] theorem State.modPkt_epochs (s : State) (id : Nat) (f : Packet → Packet) : (s.modPkt id f).epochs = s.epochs := rfl
@[simp] theorem State.modPkt_tiles (s : State) (id : Nat) (f : Packet → Packet) : (s.modPkt id f).tiles = s.tiles := rfl
@[simp] theorem State.modPkt_egr (s : State) (id : Nat) (f : Packet → Packet) : (s.modPkt id f).egr = s.egr := rfl
@[simp] theorem State.modPkt_fab (s : State) (id : Nat) (f : Packet → Packet) : (s.modPkt id f).fab = s.fab := rfl
@[simp] theorem State.modPkt_parts (s : State) (id : Nat) (f : Packet → Packet) : (s.modPkt id f).parts = s.parts := rfl
@[simp] theorem State.modPkt_regions (s : State) (id : Nat) (f : Packet → Packet) : (s.modPkt id f).regions = s.regions := rfl
@[simp] theorem State.modPkt_epochNew (s : State) (id : Nat) (f : Packet → Packet) : (s.modPkt id f).epochNew = s.epochNew := rfl
@[simp] theorem State.modPkt_pages (s : State) (id : Nat) (f : Packet → Packet) : (s.modPkt id f).pages = s.pages := rfl
@[simp] theorem State.modPkt_arb (s : State) (id : Nat) (f : Packet → Packet) : (s.modPkt id f).arb = s.arb := rfl
@[simp] theorem State.modPkt_darn (s : State) (id : Nat) (f : Packet → Packet) : (s.modPkt id f).darn = s.darn := rfl
@[simp] theorem State.modPkt_obs (s : State) (id : Nat) (f : Packet → Packet) : (s.modPkt id f).obs = s.obs := rfl

@[simp] theorem State.setRegion_pending (s : State) (r : Nat) (x : Region) : (s.setRegion r x).pending = s.pending := rfl
@[simp] theorem State.setRegion_free (s : State) (r : Nat) (x : Region) : (s.setRegion r x).free = s.free := rfl
@[simp] theorem State.setRegion_crypto (s : State) (r : Nat) (x : Region) : (s.setRegion r x).crypto = s.crypto := rfl
@[simp] theorem State.setRegion_impl (s : State) (r : Nat) (x : Region) : (s.setRegion r x).impl = s.impl := rfl
@[simp] theorem State.setRegion_sys (s : State) (r : Nat) (x : Region) : (s.setRegion r x).sys = s.sys := rfl
@[simp] theorem State.setRegion_clk (s : State) (r : Nat) (x : Region) : (s.setRegion r x).clk = s.clk := rfl
@[simp] theorem State.setRegion_host (s : State) (r : Nat) (x : Region) : (s.setRegion r x).host = s.host := rfl
@[simp] theorem State.setRegion_hbm (s : State) (r : Nat) (x : Region) : (s.setRegion r x).hbm = s.hbm := rfl
@[simp] theorem State.setRegion_rings (s : State) (r : Nat) (x : Region) : (s.setRegion r x).rings = s.rings := rfl
@[simp] theorem State.setRegion_fields (s : State) (r : Nat) (x : Region) : (s.setRegion r x).fields = s.fields := rfl
@[simp] theorem State.setRegion_intake (s : State) (r : Nat) (x : Region) : (s.setRegion r x).intake = s.intake := rfl
@[simp] theorem State.setRegion_tabs (s : State) (r : Nat) (x : Region) : (s.setRegion r x).tabs = s.tabs := rfl
@[simp] theorem State.setRegion_flow (s : State) (r : Nat) (x : Region) : (s.setRegion r x).flow = s.flow := rfl
@[simp] theorem State.setRegion_slots (s : State) (r : Nat) (x : Region) : (s.setRegion r x).slots = s.slots := rfl
@[simp] theorem State.setRegion_progress (s : State) (r : Nat) (x : Region) : (s.setRegion r x).progress = s.progress := rfl
@[simp] theorem State.setRegion_epochs (s : State) (r : Nat) (x : Region) : (s.setRegion r x).epochs = s.epochs := rfl
@[simp] theorem State.setRegion_tiles (s : State) (r : Nat) (x : Region) : (s.setRegion r x).tiles = s.tiles := rfl
@[simp] theorem State.setRegion_egr (s : State) (r : Nat) (x : Region) : (s.setRegion r x).egr = s.egr := rfl
@[simp] theorem State.setRegion_fab (s : State) (r : Nat) (x : Region) : (s.setRegion r x).fab = s.fab := rfl
@[simp] theorem State.setRegion_parts (s : State) (r : Nat) (x : Region) : (s.setRegion r x).parts = s.parts := rfl
@[simp] theorem State.setRegion_epochNew (s : State) (r : Nat) (x : Region) : (s.setRegion r x).epochNew = s.epochNew := rfl
@[simp] theorem State.setRegion_pages (s : State) (r : Nat) (x : Region) : (s.setRegion r x).pages = s.pages := rfl
@[simp] theorem State.setRegion_arb (s : State) (r : Nat) (x : Region) : (s.setRegion r x).arb = s.arb := rfl
@[simp] theorem State.setRegion_darn (s : State) (r : Nat) (x : Region) : (s.setRegion r x).darn = s.darn := rfl
@[simp] theorem State.setRegion_obs (s : State) (r : Nat) (x : Region) : (s.setRegion r x).obs = s.obs := rfl

@[simp] theorem State.setSys_pending (s : State) (y : Sys) : (s.setSys y).pending = s.pending := rfl
@[simp] theorem State.setSys_free (s : State) (y : Sys) : (s.setSys y).free = s.free := rfl
@[simp] theorem State.setSys_crypto (s : State) (y : Sys) : (s.setSys y).crypto = s.crypto := rfl
@[simp] theorem State.setSys_impl (s : State) (y : Sys) : (s.setSys y).impl = s.impl := rfl
@[simp] theorem State.setSys_clk (s : State) (y : Sys) : (s.setSys y).clk = s.clk := rfl
@[simp] theorem State.setSys_host (s : State) (y : Sys) : (s.setSys y).host = s.host := rfl
@[simp] theorem State.setSys_hbm (s : State) (y : Sys) : (s.setSys y).hbm = s.hbm := rfl
@[simp] theorem State.setSys_rings (s : State) (y : Sys) : (s.setSys y).rings = s.rings := rfl
@[simp] theorem State.setSys_fields (s : State) (y : Sys) : (s.setSys y).fields = s.fields := rfl
@[simp] theorem State.setSys_intake (s : State) (y : Sys) : (s.setSys y).intake = s.intake := rfl
@[simp] theorem State.setSys_tabs (s : State) (y : Sys) : (s.setSys y).tabs = s.tabs := rfl
@[simp] theorem State.setSys_flow (s : State) (y : Sys) : (s.setSys y).flow = s.flow := rfl
@[simp] theorem State.setSys_slots (s : State) (y : Sys) : (s.setSys y).slots = s.slots := rfl
@[simp] theorem State.setSys_progress (s : State) (y : Sys) : (s.setSys y).progress = s.progress := rfl
@[simp] theorem State.setSys_epochs (s : State) (y : Sys) : (s.setSys y).epochs = s.epochs := rfl
@[simp] theorem State.setSys_tiles (s : State) (y : Sys) : (s.setSys y).tiles = s.tiles := rfl
@[simp] theorem State.setSys_egr (s : State) (y : Sys) : (s.setSys y).egr = s.egr := rfl
@[simp] theorem State.setSys_fab (s : State) (y : Sys) : (s.setSys y).fab = s.fab := rfl
@[simp] theorem State.setSys_parts (s : State) (y : Sys) : (s.setSys y).parts = s.parts := rfl
@[simp] theorem State.setSys_regions (s : State) (y : Sys) : (s.setSys y).regions = s.regions := rfl
@[simp] theorem State.setSys_epochNew (s : State) (y : Sys) : (s.setSys y).epochNew = s.epochNew := rfl
@[simp] theorem State.setSys_pages (s : State) (y : Sys) : (s.setSys y).pages = s.pages := rfl
@[simp] theorem State.setSys_arb (s : State) (y : Sys) : (s.setSys y).arb = s.arb := rfl
@[simp] theorem State.setSys_darn (s : State) (y : Sys) : (s.setSys y).darn = s.darn := rfl
@[simp] theorem State.setSys_obs (s : State) (y : Sys) : (s.setSys y).obs = s.obs := rfl

@[simp] theorem State.setEntries_pending (s : State) (l : List TEntry) : (s.setEntries l).pending = s.pending := rfl
@[simp] theorem State.setEntries_free (s : State) (l : List TEntry) : (s.setEntries l).free = s.free := rfl
@[simp] theorem State.setEntries_crypto (s : State) (l : List TEntry) : (s.setEntries l).crypto = s.crypto := rfl
@[simp] theorem State.setEntries_impl (s : State) (l : List TEntry) : (s.setEntries l).impl = s.impl := rfl
@[simp] theorem State.setEntries_sys (s : State) (l : List TEntry) : (s.setEntries l).sys = s.sys := rfl
@[simp] theorem State.setEntries_clk (s : State) (l : List TEntry) : (s.setEntries l).clk = s.clk := rfl
@[simp] theorem State.setEntries_host (s : State) (l : List TEntry) : (s.setEntries l).host = s.host := rfl
@[simp] theorem State.setEntries_hbm (s : State) (l : List TEntry) : (s.setEntries l).hbm = s.hbm := rfl
@[simp] theorem State.setEntries_rings (s : State) (l : List TEntry) : (s.setEntries l).rings = s.rings := rfl
@[simp] theorem State.setEntries_fields (s : State) (l : List TEntry) : (s.setEntries l).fields = s.fields := rfl
@[simp] theorem State.setEntries_intake (s : State) (l : List TEntry) : (s.setEntries l).intake = s.intake := rfl
@[simp] theorem State.setEntries_flow (s : State) (l : List TEntry) : (s.setEntries l).flow = s.flow := rfl
@[simp] theorem State.setEntries_slots (s : State) (l : List TEntry) : (s.setEntries l).slots = s.slots := rfl
@[simp] theorem State.setEntries_progress (s : State) (l : List TEntry) : (s.setEntries l).progress = s.progress := rfl
@[simp] theorem State.setEntries_epochs (s : State) (l : List TEntry) : (s.setEntries l).epochs = s.epochs := rfl
@[simp] theorem State.setEntries_tiles (s : State) (l : List TEntry) : (s.setEntries l).tiles = s.tiles := rfl
@[simp] theorem State.setEntries_egr (s : State) (l : List TEntry) : (s.setEntries l).egr = s.egr := rfl
@[simp] theorem State.setEntries_fab (s : State) (l : List TEntry) : (s.setEntries l).fab = s.fab := rfl
@[simp] theorem State.setEntries_parts (s : State) (l : List TEntry) : (s.setEntries l).parts = s.parts := rfl
@[simp] theorem State.setEntries_regions (s : State) (l : List TEntry) : (s.setEntries l).regions = s.regions := rfl
@[simp] theorem State.setEntries_epochNew (s : State) (l : List TEntry) : (s.setEntries l).epochNew = s.epochNew := rfl
@[simp] theorem State.setEntries_pages (s : State) (l : List TEntry) : (s.setEntries l).pages = s.pages := rfl
@[simp] theorem State.setEntries_arb (s : State) (l : List TEntry) : (s.setEntries l).arb = s.arb := rfl
@[simp] theorem State.setEntries_darn (s : State) (l : List TEntry) : (s.setEntries l).darn = s.darn := rfl
@[simp] theorem State.setEntries_obs (s : State) (l : List TEntry) : (s.setEntries l).obs = s.obs := rfl

@[simp] theorem State.setBankState_pending (s : State) (p t : Nat) (x : BankState) : (s.setBankState p t x).pending = s.pending := rfl
@[simp] theorem State.setBankState_free (s : State) (p t : Nat) (x : BankState) : (s.setBankState p t x).free = s.free := rfl
@[simp] theorem State.setBankState_crypto (s : State) (p t : Nat) (x : BankState) : (s.setBankState p t x).crypto = s.crypto := rfl
@[simp] theorem State.setBankState_impl (s : State) (p t : Nat) (x : BankState) : (s.setBankState p t x).impl = s.impl := rfl
@[simp] theorem State.setBankState_sys (s : State) (p t : Nat) (x : BankState) : (s.setBankState p t x).sys = s.sys := rfl
@[simp] theorem State.setBankState_clk (s : State) (p t : Nat) (x : BankState) : (s.setBankState p t x).clk = s.clk := rfl
@[simp] theorem State.setBankState_host (s : State) (p t : Nat) (x : BankState) : (s.setBankState p t x).host = s.host := rfl
@[simp] theorem State.setBankState_hbm (s : State) (p t : Nat) (x : BankState) : (s.setBankState p t x).hbm = s.hbm := rfl
@[simp] theorem State.setBankState_rings (s : State) (p t : Nat) (x : BankState) : (s.setBankState p t x).rings = s.rings := rfl
@[simp] theorem State.setBankState_fields (s : State) (p t : Nat) (x : BankState) : (s.setBankState p t x).fields = s.fields := rfl
@[simp] theorem State.setBankState_intake (s : State) (p t : Nat) (x : BankState) : (s.setBankState p t x).intake = s.intake := rfl
@[simp] theorem State.setBankState_flow (s : State) (p t : Nat) (x : BankState) : (s.setBankState p t x).flow = s.flow := rfl
@[simp] theorem State.setBankState_slots (s : State) (p t : Nat) (x : BankState) : (s.setBankState p t x).slots = s.slots := rfl
@[simp] theorem State.setBankState_progress (s : State) (p t : Nat) (x : BankState) : (s.setBankState p t x).progress = s.progress := rfl
@[simp] theorem State.setBankState_epochs (s : State) (p t : Nat) (x : BankState) : (s.setBankState p t x).epochs = s.epochs := rfl
@[simp] theorem State.setBankState_tiles (s : State) (p t : Nat) (x : BankState) : (s.setBankState p t x).tiles = s.tiles := rfl
@[simp] theorem State.setBankState_egr (s : State) (p t : Nat) (x : BankState) : (s.setBankState p t x).egr = s.egr := rfl
@[simp] theorem State.setBankState_fab (s : State) (p t : Nat) (x : BankState) : (s.setBankState p t x).fab = s.fab := rfl
@[simp] theorem State.setBankState_parts (s : State) (p t : Nat) (x : BankState) : (s.setBankState p t x).parts = s.parts := rfl
@[simp] theorem State.setBankState_regions (s : State) (p t : Nat) (x : BankState) : (s.setBankState p t x).regions = s.regions := rfl
@[simp] theorem State.setBankState_epochNew (s : State) (p t : Nat) (x : BankState) : (s.setBankState p t x).epochNew = s.epochNew := rfl
@[simp] theorem State.setBankState_pages (s : State) (p t : Nat) (x : BankState) : (s.setBankState p t x).pages = s.pages := rfl
@[simp] theorem State.setBankState_arb (s : State) (p t : Nat) (x : BankState) : (s.setBankState p t x).arb = s.arb := rfl
@[simp] theorem State.setBankState_darn (s : State) (p t : Nat) (x : BankState) : (s.setBankState p t x).darn = s.darn := rfl
@[simp] theorem State.setBankState_obs (s : State) (p t : Nat) (x : BankState) : (s.setBankState p t x).obs = s.obs := rfl

@[simp] theorem State.setCmds_pending (s : State) (l : List TCmd) : (s.setCmds l).pending = s.pending := rfl
@[simp] theorem State.setCmds_free (s : State) (l : List TCmd) : (s.setCmds l).free = s.free := rfl
@[simp] theorem State.setCmds_crypto (s : State) (l : List TCmd) : (s.setCmds l).crypto = s.crypto := rfl
@[simp] theorem State.setCmds_impl (s : State) (l : List TCmd) : (s.setCmds l).impl = s.impl := rfl
@[simp] theorem State.setCmds_sys (s : State) (l : List TCmd) : (s.setCmds l).sys = s.sys := rfl
@[simp] theorem State.setCmds_clk (s : State) (l : List TCmd) : (s.setCmds l).clk = s.clk := rfl
@[simp] theorem State.setCmds_host (s : State) (l : List TCmd) : (s.setCmds l).host = s.host := rfl
@[simp] theorem State.setCmds_hbm (s : State) (l : List TCmd) : (s.setCmds l).hbm = s.hbm := rfl
@[simp] theorem State.setCmds_rings (s : State) (l : List TCmd) : (s.setCmds l).rings = s.rings := rfl
@[simp] theorem State.setCmds_fields (s : State) (l : List TCmd) : (s.setCmds l).fields = s.fields := rfl
@[simp] theorem State.setCmds_intake (s : State) (l : List TCmd) : (s.setCmds l).intake = s.intake := rfl
@[simp] theorem State.setCmds_tabs (s : State) (l : List TCmd) : (s.setCmds l).tabs = s.tabs := rfl
@[simp] theorem State.setCmds_flow (s : State) (l : List TCmd) : (s.setCmds l).flow = s.flow := rfl
@[simp] theorem State.setCmds_slots (s : State) (l : List TCmd) : (s.setCmds l).slots = s.slots := rfl
@[simp] theorem State.setCmds_progress (s : State) (l : List TCmd) : (s.setCmds l).progress = s.progress := rfl
@[simp] theorem State.setCmds_epochs (s : State) (l : List TCmd) : (s.setCmds l).epochs = s.epochs := rfl
@[simp] theorem State.setCmds_egr (s : State) (l : List TCmd) : (s.setCmds l).egr = s.egr := rfl
@[simp] theorem State.setCmds_fab (s : State) (l : List TCmd) : (s.setCmds l).fab = s.fab := rfl
@[simp] theorem State.setCmds_parts (s : State) (l : List TCmd) : (s.setCmds l).parts = s.parts := rfl
@[simp] theorem State.setCmds_regions (s : State) (l : List TCmd) : (s.setCmds l).regions = s.regions := rfl
@[simp] theorem State.setCmds_epochNew (s : State) (l : List TCmd) : (s.setCmds l).epochNew = s.epochNew := rfl
@[simp] theorem State.setCmds_pages (s : State) (l : List TCmd) : (s.setCmds l).pages = s.pages := rfl
@[simp] theorem State.setCmds_arb (s : State) (l : List TCmd) : (s.setCmds l).arb = s.arb := rfl
@[simp] theorem State.setCmds_darn (s : State) (l : List TCmd) : (s.setCmds l).darn = s.darn := rfl
@[simp] theorem State.setCmds_obs (s : State) (l : List TCmd) : (s.setCmds l).obs = s.obs := rfl

@[simp] theorem State.modCmd_pending (s : State) (id : Nat) (f : TCmd → TCmd) : (s.modCmd id f).pending = s.pending := rfl
@[simp] theorem State.modCmd_free (s : State) (id : Nat) (f : TCmd → TCmd) : (s.modCmd id f).free = s.free := rfl
@[simp] theorem State.modCmd_crypto (s : State) (id : Nat) (f : TCmd → TCmd) : (s.modCmd id f).crypto = s.crypto := rfl
@[simp] theorem State.modCmd_impl (s : State) (id : Nat) (f : TCmd → TCmd) : (s.modCmd id f).impl = s.impl := rfl
@[simp] theorem State.modCmd_sys (s : State) (id : Nat) (f : TCmd → TCmd) : (s.modCmd id f).sys = s.sys := rfl
@[simp] theorem State.modCmd_clk (s : State) (id : Nat) (f : TCmd → TCmd) : (s.modCmd id f).clk = s.clk := rfl
@[simp] theorem State.modCmd_host (s : State) (id : Nat) (f : TCmd → TCmd) : (s.modCmd id f).host = s.host := rfl
@[simp] theorem State.modCmd_hbm (s : State) (id : Nat) (f : TCmd → TCmd) : (s.modCmd id f).hbm = s.hbm := rfl
@[simp] theorem State.modCmd_rings (s : State) (id : Nat) (f : TCmd → TCmd) : (s.modCmd id f).rings = s.rings := rfl
@[simp] theorem State.modCmd_fields (s : State) (id : Nat) (f : TCmd → TCmd) : (s.modCmd id f).fields = s.fields := rfl
@[simp] theorem State.modCmd_intake (s : State) (id : Nat) (f : TCmd → TCmd) : (s.modCmd id f).intake = s.intake := rfl
@[simp] theorem State.modCmd_tabs (s : State) (id : Nat) (f : TCmd → TCmd) : (s.modCmd id f).tabs = s.tabs := rfl
@[simp] theorem State.modCmd_flow (s : State) (id : Nat) (f : TCmd → TCmd) : (s.modCmd id f).flow = s.flow := rfl
@[simp] theorem State.modCmd_slots (s : State) (id : Nat) (f : TCmd → TCmd) : (s.modCmd id f).slots = s.slots := rfl
@[simp] theorem State.modCmd_progress (s : State) (id : Nat) (f : TCmd → TCmd) : (s.modCmd id f).progress = s.progress := rfl
@[simp] theorem State.modCmd_epochs (s : State) (id : Nat) (f : TCmd → TCmd) : (s.modCmd id f).epochs = s.epochs := rfl
@[simp] theorem State.modCmd_egr (s : State) (id : Nat) (f : TCmd → TCmd) : (s.modCmd id f).egr = s.egr := rfl
@[simp] theorem State.modCmd_fab (s : State) (id : Nat) (f : TCmd → TCmd) : (s.modCmd id f).fab = s.fab := rfl
@[simp] theorem State.modCmd_parts (s : State) (id : Nat) (f : TCmd → TCmd) : (s.modCmd id f).parts = s.parts := rfl
@[simp] theorem State.modCmd_regions (s : State) (id : Nat) (f : TCmd → TCmd) : (s.modCmd id f).regions = s.regions := rfl
@[simp] theorem State.modCmd_epochNew (s : State) (id : Nat) (f : TCmd → TCmd) : (s.modCmd id f).epochNew = s.epochNew := rfl
@[simp] theorem State.modCmd_pages (s : State) (id : Nat) (f : TCmd → TCmd) : (s.modCmd id f).pages = s.pages := rfl
@[simp] theorem State.modCmd_arb (s : State) (id : Nat) (f : TCmd → TCmd) : (s.modCmd id f).arb = s.arb := rfl
@[simp] theorem State.modCmd_darn (s : State) (id : Nat) (f : TCmd → TCmd) : (s.modCmd id f).darn = s.darn := rfl
@[simp] theorem State.modCmd_obs (s : State) (id : Nat) (f : TCmd → TCmd) : (s.modCmd id f).obs = s.obs := rfl

@[simp] theorem State.setClk_pending (s : State) (c : Clk) : (s.setClk c).pending = s.pending := rfl
@[simp] theorem State.setClk_free (s : State) (c : Clk) : (s.setClk c).free = s.free := rfl
@[simp] theorem State.setClk_crypto (s : State) (c : Clk) : (s.setClk c).crypto = s.crypto := rfl
@[simp] theorem State.setClk_impl (s : State) (c : Clk) : (s.setClk c).impl = s.impl := rfl
@[simp] theorem State.setClk_sys (s : State) (c : Clk) : (s.setClk c).sys = s.sys := rfl
@[simp] theorem State.setClk_host (s : State) (c : Clk) : (s.setClk c).host = s.host := rfl
@[simp] theorem State.setClk_hbm (s : State) (c : Clk) : (s.setClk c).hbm = s.hbm := rfl
@[simp] theorem State.setClk_rings (s : State) (c : Clk) : (s.setClk c).rings = s.rings := rfl
@[simp] theorem State.setClk_fields (s : State) (c : Clk) : (s.setClk c).fields = s.fields := rfl
@[simp] theorem State.setClk_intake (s : State) (c : Clk) : (s.setClk c).intake = s.intake := rfl
@[simp] theorem State.setClk_tabs (s : State) (c : Clk) : (s.setClk c).tabs = s.tabs := rfl
@[simp] theorem State.setClk_flow (s : State) (c : Clk) : (s.setClk c).flow = s.flow := rfl
@[simp] theorem State.setClk_slots (s : State) (c : Clk) : (s.setClk c).slots = s.slots := rfl
@[simp] theorem State.setClk_progress (s : State) (c : Clk) : (s.setClk c).progress = s.progress := rfl
@[simp] theorem State.setClk_epochs (s : State) (c : Clk) : (s.setClk c).epochs = s.epochs := rfl
@[simp] theorem State.setClk_tiles (s : State) (c : Clk) : (s.setClk c).tiles = s.tiles := rfl
@[simp] theorem State.setClk_egr (s : State) (c : Clk) : (s.setClk c).egr = s.egr := rfl
@[simp] theorem State.setClk_fab (s : State) (c : Clk) : (s.setClk c).fab = s.fab := rfl
@[simp] theorem State.setClk_parts (s : State) (c : Clk) : (s.setClk c).parts = s.parts := rfl
@[simp] theorem State.setClk_regions (s : State) (c : Clk) : (s.setClk c).regions = s.regions := rfl
@[simp] theorem State.setClk_epochNew (s : State) (c : Clk) : (s.setClk c).epochNew = s.epochNew := rfl
@[simp] theorem State.setClk_pages (s : State) (c : Clk) : (s.setClk c).pages = s.pages := rfl
@[simp] theorem State.setClk_arb (s : State) (c : Clk) : (s.setClk c).arb = s.arb := rfl
@[simp] theorem State.setClk_darn (s : State) (c : Clk) : (s.setClk c).darn = s.darn := rfl
@[simp] theorem State.setClk_obs (s : State) (c : Clk) : (s.setClk c).obs = s.obs := rfl

@[simp] theorem State.setTrace_pending (s : State) (p : Nat) (t : Trace) : (s.setTrace p t).pending = s.pending := rfl
@[simp] theorem State.setTrace_free (s : State) (p : Nat) (t : Trace) : (s.setTrace p t).free = s.free := rfl
@[simp] theorem State.setTrace_crypto (s : State) (p : Nat) (t : Trace) : (s.setTrace p t).crypto = s.crypto := rfl
@[simp] theorem State.setTrace_impl (s : State) (p : Nat) (t : Trace) : (s.setTrace p t).impl = s.impl := rfl
@[simp] theorem State.setTrace_sys (s : State) (p : Nat) (t : Trace) : (s.setTrace p t).sys = s.sys := rfl
@[simp] theorem State.setTrace_clk (s : State) (p : Nat) (t : Trace) : (s.setTrace p t).clk = s.clk := rfl
@[simp] theorem State.setTrace_host (s : State) (p : Nat) (t : Trace) : (s.setTrace p t).host = s.host := rfl
@[simp] theorem State.setTrace_hbm (s : State) (p : Nat) (t : Trace) : (s.setTrace p t).hbm = s.hbm := rfl
@[simp] theorem State.setTrace_rings (s : State) (p : Nat) (t : Trace) : (s.setTrace p t).rings = s.rings := rfl
@[simp] theorem State.setTrace_fields (s : State) (p : Nat) (t : Trace) : (s.setTrace p t).fields = s.fields := rfl
@[simp] theorem State.setTrace_intake (s : State) (p : Nat) (t : Trace) : (s.setTrace p t).intake = s.intake := rfl
@[simp] theorem State.setTrace_tabs (s : State) (p : Nat) (t : Trace) : (s.setTrace p t).tabs = s.tabs := rfl
@[simp] theorem State.setTrace_flow (s : State) (p : Nat) (t : Trace) : (s.setTrace p t).flow = s.flow := rfl
@[simp] theorem State.setTrace_slots (s : State) (p : Nat) (t : Trace) : (s.setTrace p t).slots = s.slots := rfl
@[simp] theorem State.setTrace_progress (s : State) (p : Nat) (t : Trace) : (s.setTrace p t).progress = s.progress := rfl
@[simp] theorem State.setTrace_epochs (s : State) (p : Nat) (t : Trace) : (s.setTrace p t).epochs = s.epochs := rfl
@[simp] theorem State.setTrace_tiles (s : State) (p : Nat) (t : Trace) : (s.setTrace p t).tiles = s.tiles := rfl
@[simp] theorem State.setTrace_egr (s : State) (p : Nat) (t : Trace) : (s.setTrace p t).egr = s.egr := rfl
@[simp] theorem State.setTrace_fab (s : State) (p : Nat) (t : Trace) : (s.setTrace p t).fab = s.fab := rfl
@[simp] theorem State.setTrace_parts (s : State) (p : Nat) (t : Trace) : (s.setTrace p t).parts = s.parts := rfl
@[simp] theorem State.setTrace_regions (s : State) (p : Nat) (t : Trace) : (s.setTrace p t).regions = s.regions := rfl
@[simp] theorem State.setTrace_epochNew (s : State) (p : Nat) (t : Trace) : (s.setTrace p t).epochNew = s.epochNew := rfl
@[simp] theorem State.setTrace_pages (s : State) (p : Nat) (t : Trace) : (s.setTrace p t).pages = s.pages := rfl
@[simp] theorem State.setTrace_arb (s : State) (p : Nat) (t : Trace) : (s.setTrace p t).arb = s.arb := rfl
@[simp] theorem State.setTrace_darn (s : State) (p : Nat) (t : Trace) : (s.setTrace p t).darn = s.darn := rfl

@[simp] theorem State.count_pending (s : State) (c : Ctr) (n : Nat) : (s.count c n).pending = s.pending := rfl
@[simp] theorem State.count_free (s : State) (c : Ctr) (n : Nat) : (s.count c n).free = s.free := rfl
@[simp] theorem State.count_crypto (s : State) (c : Ctr) (n : Nat) : (s.count c n).crypto = s.crypto := rfl
@[simp] theorem State.count_impl (s : State) (c : Ctr) (n : Nat) : (s.count c n).impl = s.impl := rfl
@[simp] theorem State.count_sys (s : State) (c : Ctr) (n : Nat) : (s.count c n).sys = s.sys := rfl
@[simp] theorem State.count_clk (s : State) (c : Ctr) (n : Nat) : (s.count c n).clk = s.clk := rfl
@[simp] theorem State.count_host (s : State) (c : Ctr) (n : Nat) : (s.count c n).host = s.host := rfl
@[simp] theorem State.count_hbm (s : State) (c : Ctr) (n : Nat) : (s.count c n).hbm = s.hbm := rfl
@[simp] theorem State.count_rings (s : State) (c : Ctr) (n : Nat) : (s.count c n).rings = s.rings := rfl
@[simp] theorem State.count_fields (s : State) (c : Ctr) (n : Nat) : (s.count c n).fields = s.fields := rfl
@[simp] theorem State.count_intake (s : State) (c : Ctr) (n : Nat) : (s.count c n).intake = s.intake := rfl
@[simp] theorem State.count_tabs (s : State) (c : Ctr) (n : Nat) : (s.count c n).tabs = s.tabs := rfl
@[simp] theorem State.count_flow (s : State) (c : Ctr) (n : Nat) : (s.count c n).flow = s.flow := rfl
@[simp] theorem State.count_slots (s : State) (c : Ctr) (n : Nat) : (s.count c n).slots = s.slots := rfl
@[simp] theorem State.count_progress (s : State) (c : Ctr) (n : Nat) : (s.count c n).progress = s.progress := rfl
@[simp] theorem State.count_epochs (s : State) (c : Ctr) (n : Nat) : (s.count c n).epochs = s.epochs := rfl
@[simp] theorem State.count_tiles (s : State) (c : Ctr) (n : Nat) : (s.count c n).tiles = s.tiles := rfl
@[simp] theorem State.count_egr (s : State) (c : Ctr) (n : Nat) : (s.count c n).egr = s.egr := rfl
@[simp] theorem State.count_fab (s : State) (c : Ctr) (n : Nat) : (s.count c n).fab = s.fab := rfl
@[simp] theorem State.count_parts (s : State) (c : Ctr) (n : Nat) : (s.count c n).parts = s.parts := rfl
@[simp] theorem State.count_regions (s : State) (c : Ctr) (n : Nat) : (s.count c n).regions = s.regions := rfl
@[simp] theorem State.count_epochNew (s : State) (c : Ctr) (n : Nat) : (s.count c n).epochNew = s.epochNew := rfl
@[simp] theorem State.count_pages (s : State) (c : Ctr) (n : Nat) : (s.count c n).pages = s.pages := rfl
@[simp] theorem State.count_arb (s : State) (c : Ctr) (n : Nat) : (s.count c n).arb = s.arb := rfl
@[simp] theorem State.count_darn (s : State) (c : Ctr) (n : Nat) : (s.count c n).darn = s.darn := rfl

@[simp] theorem State.dropped_pending (s : State) (p : Nat) (r : DropCtr) : (s.dropped p r).pending = s.pending := rfl
@[simp] theorem State.dropped_free (s : State) (p : Nat) (r : DropCtr) : (s.dropped p r).free = s.free := rfl
@[simp] theorem State.dropped_crypto (s : State) (p : Nat) (r : DropCtr) : (s.dropped p r).crypto = s.crypto := rfl
@[simp] theorem State.dropped_impl (s : State) (p : Nat) (r : DropCtr) : (s.dropped p r).impl = s.impl := rfl
@[simp] theorem State.dropped_sys (s : State) (p : Nat) (r : DropCtr) : (s.dropped p r).sys = s.sys := rfl
@[simp] theorem State.dropped_clk (s : State) (p : Nat) (r : DropCtr) : (s.dropped p r).clk = s.clk := rfl
@[simp] theorem State.dropped_host (s : State) (p : Nat) (r : DropCtr) : (s.dropped p r).host = s.host := rfl
@[simp] theorem State.dropped_hbm (s : State) (p : Nat) (r : DropCtr) : (s.dropped p r).hbm = s.hbm := rfl
@[simp] theorem State.dropped_rings (s : State) (p : Nat) (r : DropCtr) : (s.dropped p r).rings = s.rings := rfl
@[simp] theorem State.dropped_fields (s : State) (p : Nat) (r : DropCtr) : (s.dropped p r).fields = s.fields := rfl
@[simp] theorem State.dropped_intake (s : State) (p : Nat) (r : DropCtr) : (s.dropped p r).intake = s.intake := rfl
@[simp] theorem State.dropped_tabs (s : State) (p : Nat) (r : DropCtr) : (s.dropped p r).tabs = s.tabs := rfl
@[simp] theorem State.dropped_flow (s : State) (p : Nat) (r : DropCtr) : (s.dropped p r).flow = s.flow := rfl
@[simp] theorem State.dropped_slots (s : State) (p : Nat) (r : DropCtr) : (s.dropped p r).slots = s.slots := rfl
@[simp] theorem State.dropped_progress (s : State) (p : Nat) (r : DropCtr) : (s.dropped p r).progress = s.progress := rfl
@[simp] theorem State.dropped_epochs (s : State) (p : Nat) (r : DropCtr) : (s.dropped p r).epochs = s.epochs := rfl
@[simp] theorem State.dropped_tiles (s : State) (p : Nat) (r : DropCtr) : (s.dropped p r).tiles = s.tiles := rfl
@[simp] theorem State.dropped_egr (s : State) (p : Nat) (r : DropCtr) : (s.dropped p r).egr = s.egr := rfl
@[simp] theorem State.dropped_fab (s : State) (p : Nat) (r : DropCtr) : (s.dropped p r).fab = s.fab := rfl
@[simp] theorem State.dropped_parts (s : State) (p : Nat) (r : DropCtr) : (s.dropped p r).parts = s.parts := rfl
@[simp] theorem State.dropped_regions (s : State) (p : Nat) (r : DropCtr) : (s.dropped p r).regions = s.regions := rfl
@[simp] theorem State.dropped_epochNew (s : State) (p : Nat) (r : DropCtr) : (s.dropped p r).epochNew = s.epochNew := rfl
@[simp] theorem State.dropped_pages (s : State) (p : Nat) (r : DropCtr) : (s.dropped p r).pages = s.pages := rfl
@[simp] theorem State.dropped_arb (s : State) (p : Nat) (r : DropCtr) : (s.dropped p r).arb = s.arb := rfl
@[simp] theorem State.dropped_darn (s : State) (p : Nat) (r : DropCtr) : (s.dropped p r).darn = s.darn := rfl

@[simp] theorem State.hostWrite_pending (s : State) (a : Nat) (b : Bytes) : (s.hostWrite a b).pending = s.pending := rfl
@[simp] theorem State.hostWrite_free (s : State) (a : Nat) (b : Bytes) : (s.hostWrite a b).free = s.free := rfl
@[simp] theorem State.hostWrite_crypto (s : State) (a : Nat) (b : Bytes) : (s.hostWrite a b).crypto = s.crypto := rfl
@[simp] theorem State.hostWrite_impl (s : State) (a : Nat) (b : Bytes) : (s.hostWrite a b).impl = s.impl := rfl
@[simp] theorem State.hostWrite_sys (s : State) (a : Nat) (b : Bytes) : (s.hostWrite a b).sys = s.sys := rfl
@[simp] theorem State.hostWrite_clk (s : State) (a : Nat) (b : Bytes) : (s.hostWrite a b).clk = s.clk := rfl
@[simp] theorem State.hostWrite_hbm (s : State) (a : Nat) (b : Bytes) : (s.hostWrite a b).hbm = s.hbm := rfl
@[simp] theorem State.hostWrite_rings (s : State) (a : Nat) (b : Bytes) : (s.hostWrite a b).rings = s.rings := rfl
@[simp] theorem State.hostWrite_fields (s : State) (a : Nat) (b : Bytes) : (s.hostWrite a b).fields = s.fields := rfl
@[simp] theorem State.hostWrite_intake (s : State) (a : Nat) (b : Bytes) : (s.hostWrite a b).intake = s.intake := rfl
@[simp] theorem State.hostWrite_tabs (s : State) (a : Nat) (b : Bytes) : (s.hostWrite a b).tabs = s.tabs := rfl
@[simp] theorem State.hostWrite_flow (s : State) (a : Nat) (b : Bytes) : (s.hostWrite a b).flow = s.flow := rfl
@[simp] theorem State.hostWrite_slots (s : State) (a : Nat) (b : Bytes) : (s.hostWrite a b).slots = s.slots := rfl
@[simp] theorem State.hostWrite_progress (s : State) (a : Nat) (b : Bytes) : (s.hostWrite a b).progress = s.progress := rfl
@[simp] theorem State.hostWrite_epochs (s : State) (a : Nat) (b : Bytes) : (s.hostWrite a b).epochs = s.epochs := rfl
@[simp] theorem State.hostWrite_tiles (s : State) (a : Nat) (b : Bytes) : (s.hostWrite a b).tiles = s.tiles := rfl
@[simp] theorem State.hostWrite_egr (s : State) (a : Nat) (b : Bytes) : (s.hostWrite a b).egr = s.egr := rfl
@[simp] theorem State.hostWrite_fab (s : State) (a : Nat) (b : Bytes) : (s.hostWrite a b).fab = s.fab := rfl
@[simp] theorem State.hostWrite_parts (s : State) (a : Nat) (b : Bytes) : (s.hostWrite a b).parts = s.parts := rfl
@[simp] theorem State.hostWrite_regions (s : State) (a : Nat) (b : Bytes) : (s.hostWrite a b).regions = s.regions := rfl
@[simp] theorem State.hostWrite_epochNew (s : State) (a : Nat) (b : Bytes) : (s.hostWrite a b).epochNew = s.epochNew := rfl
@[simp] theorem State.hostWrite_pages (s : State) (a : Nat) (b : Bytes) : (s.hostWrite a b).pages = s.pages := rfl
@[simp] theorem State.hostWrite_arb (s : State) (a : Nat) (b : Bytes) : (s.hostWrite a b).arb = s.arb := rfl
@[simp] theorem State.hostWrite_darn (s : State) (a : Nat) (b : Bytes) : (s.hostWrite a b).darn = s.darn := rfl
@[simp] theorem State.hostWrite_obs (s : State) (a : Nat) (b : Bytes) : (s.hostWrite a b).obs = s.obs := rfl

end Sys2Proof.Machine
end

