-- ==== Sys2Proof/Laws/Reply.lean ====
section
/-! SUPPORT. What starting a command and writing its reply leave as they were: everything but the rings, the partitions'
in-band streams, host memory, HBM with its poison, its counters and the units of a key that rotates, the traces, and the
in-band frames that wait to leave. -/

namespace Sys2Proof.Machine

/-- The parts of the state that replies never write. -/
structure Kept (s t : State) : Prop where
  pending : t.pending = s.pending
  free : t.free = s.free
  crypto : t.crypto = s.crypto
  impl : t.impl = s.impl
  sys : t.sys = s.sys
  clk : t.clk = s.clk
  fields : t.fields = s.fields
  intake : t.intake = s.intake
  tabs : t.tabs = s.tabs
  flow : t.flow = s.flow
  slots : t.slots = s.slots
  progress : t.progress = s.progress
  epochs : t.epochs = s.epochs
  tiles : t.tiles = s.tiles
  fab : t.fab = s.fab
  regions : t.regions = s.regions
  pages : t.pages = s.pages
  arb : t.arb = s.arb

theorem Kept.refl (s : State) : Kept s s := by constructor <;> rfl

theorem Kept.trans {s t u : State} (a : Kept s t) (b : Kept t u) : Kept s u := by
  constructor
  · rw [b.pending, a.pending]
  · rw [b.free, a.free]
  · rw [b.crypto, a.crypto]
  · rw [b.impl, a.impl]
  · rw [b.sys, a.sys]
  · rw [b.clk, a.clk]
  · rw [b.fields, a.fields]
  · rw [b.intake, a.intake]
  · rw [b.tabs, a.tabs]
  · rw [b.flow, a.flow]
  · rw [b.slots, a.slots]
  · rw [b.progress, a.progress]
  · rw [b.epochs, a.epochs]
  · rw [b.tiles, a.tiles]
  · rw [b.fab, a.fab]
  · rw [b.regions, a.regions]
  · rw [b.pages, a.pages]
  · rw [b.arb, a.arb]

theorem setFlight_kept (s : State) (x : Src) (l : List InFlight) : Kept s (s.setFlight x l) := by
  cases x <;> constructor <;> rfl

theorem hostWrite_kept (s : State) (a : Nat) (b : Bytes) : Kept s (s.hostWrite a b) := by constructor <;> rfl

theorem countHbm_kept (s : State) (p a n : Nat) (w : Bool) : Kept s (countHbm s p a n w) := by
  unfold countHbm
  split <;> constructor <;> rfl

theorem noteEpoch_kept (s : State) (l : List (Nat × Nat)) : Kept s (s.noteEpoch l) := by
  unfold State.noteEpoch
  split <;> constructor <;> rfl

theorem hbmWrite_kept (s : State) (p a : Nat) (b : Bytes) : Kept s (s.hbmWrite p a b) :=
  ((countHbm_kept ..).trans (noteEpoch_kept _ (s.unitRuns p a b.length))).trans (by constructor <;> rfl)

theorem shiftRecs_kept (p addr size n pos : Nat) (s : State) : Kept s (shiftRecs p addr size n pos s) := by
  induction n generalizing pos s with
  | zero => exact Kept.refl s
  | succ n ih => exact Kept.trans (by constructor <;> rfl) (ih ..)

theorem obs_kept (s : State) (o : Obs) : Kept s { s with obs := o } := by constructor <;> rfl

theorem traceWait_kept (p : Nat) (w : Wait) (s : State) : Kept s (traceWait p w s) := by
  unfold traceWait
  dsimp only
  split
  · exact Kept.refl s
  · split
    · exact obs_kept ..
    · split
      · exact obs_kept ..
      · exact ((((obs_kept ..).trans (obs_kept ..)).trans (shiftRecs_kept ..)).trans (hbmWrite_kept ..)).trans (obs_kept ..)

theorem ringPut_kept (s : State) (loc : Bool) (part base size : Nat) (off : Word) (b : Bytes) :
    Kept s (ringPut s loc part base size off b) := by
  unfold ringPut
  split
  · exact (hbmWrite_kept ..).trans (hbmWrite_kept ..)
  · exact (hostWrite_kept ..).trans (hostWrite_kept ..)

theorem setRing_kept (s : State) (n : Nat) (r : Ring) : Kept s (s.setRing n r) := by constructor <;> rfl
theorem modRing_kept (s : State) (n : Nat) (f : Ring → Ring) : Kept s (s.modRing n f) := by constructor <;> rfl

theorem ringReply_kept (n : Nat) (b : Bytes) (s : State) : Kept s (ringReply n b s) := by
  unfold ringReply
  dsimp only
  split
  · exact (ringPut_kept ..).trans (setRing_kept ..)
  · exact ((ringPut_kept ..).trans (setRing_kept ..)).trans (hostWrite_kept ..)

theorem inbandReply_kept (p port : Nat) (mac : Bytes) (key : Nat) (b : Bytes) (s : State) :
    Kept s (inbandReply p port mac key b s) := by
  constructor <;> rfl

theorem endProfile_kept (x : InFlight) (s : State) : Kept s (endProfile x s) := by
  unfold endProfile
  split
  · exact Kept.refl s
  · split
    · exact Kept.refl s
    · exact modRing_kept ..

theorem flushReplies_kept (x : Src) (k : Nat) (s : State) : Kept s (flushReplies x k s) := by
  induction k generalizing s with
  | zero => exact Kept.refl s
  | succ k ih =>
    unfold flushReplies
    split
    · exact Kept.refl s
    · refine Kept.trans ?_ (ih _)
      split
      · exact ((setFlight_kept ..).trans (endProfile_kept ..)).trans (ringReply_kept ..)
      · exact ((setFlight_kept ..).trans (endProfile_kept ..)).trans (inbandReply_kept ..)

theorem takeProfile_kept (c : CmdCtx) (s : State) : Kept s (takeProfile c s) := by
  unfold takeProfile
  split
  · exact Kept.refl s
  · split
    · exact Kept.refl s
    · exact modRing_kept ..

theorem fenceEnds_kept (c : CmdCtx) (s : State) : Kept s (fenceEnds c s) := by
  unfold fenceEnds
  split
  · exact (setFlight_kept ..).trans (traceWait_kept ..)
  · exact Kept.refl s

theorem drainEnds_kept (c : CmdCtx) (s : State) : Kept s (drainEnds c s) := by
  unfold drainEnds
  split
  · exact (setFlight_kept ..).trans (traceWait_kept ..)
  · exact Kept.refl s

/-- A command's start leaves everything as it was but its source's entries, its profile and the trace of its wait. -/
theorem beginCmd_kept (c : CmdCtx) (opc : Nat) (s : State) : Kept s (beginCmd c opc s) := by
  unfold beginCmd
  dsimp only
  split <;> split <;>
    first
    | exact (setFlight_kept ..).trans (fenceEnds_kept ..)
    | exact ((setFlight_kept ..).trans (fenceEnds_kept ..)).trans (takeProfile_kept ..)

/-- The end of a command leaves everything as it was but its source and what its reply writes. -/
theorem finish_kept (c : CmdCtx) (st : Status) (body : Bytes) (order : DWord) (fl : Nat) (s : State) :
    Kept s (finish c st body order fl s) := by
  unfold finish
  split
  · exact Kept.refl s
  · exact ((drainEnds_kept c s).trans (setFlight_kept ..)).trans (flushReplies_kept ..)

theorem waitCmd_kept (c : CmdCtx) (i : Instr) (s : State) : Kept s (waitCmd c i s) := setFlight_kept ..

theorem modEntry_kept (c : CmdCtx) (f : InFlight → InFlight) (s : State) : Kept s (modEntry c f s) := setFlight_kept ..

@[simp] theorem setFlight_pending (s : State) (x : Src) (l : List InFlight) : (s.setFlight x l).pending = s.pending := (setFlight_kept s x l).pending
@[simp] theorem setFlight_free (s : State) (x : Src) (l : List InFlight) : (s.setFlight x l).free = s.free := (setFlight_kept s x l).free
@[simp] theorem setFlight_crypto (s : State) (x : Src) (l : List InFlight) : (s.setFlight x l).crypto = s.crypto := (setFlight_kept s x l).crypto
@[simp] theorem setFlight_impl (s : State) (x : Src) (l : List InFlight) : (s.setFlight x l).impl = s.impl := (setFlight_kept s x l).impl
@[simp] theorem setFlight_sys (s : State) (x : Src) (l : List InFlight) : (s.setFlight x l).sys = s.sys := (setFlight_kept s x l).sys
@[simp] theorem setFlight_clk (s : State) (x : Src) (l : List InFlight) : (s.setFlight x l).clk = s.clk := (setFlight_kept s x l).clk
@[simp] theorem setFlight_fields (s : State) (x : Src) (l : List InFlight) : (s.setFlight x l).fields = s.fields := (setFlight_kept s x l).fields
@[simp] theorem setFlight_intake (s : State) (x : Src) (l : List InFlight) : (s.setFlight x l).intake = s.intake := (setFlight_kept s x l).intake
@[simp] theorem setFlight_tabs (s : State) (x : Src) (l : List InFlight) : (s.setFlight x l).tabs = s.tabs := (setFlight_kept s x l).tabs
@[simp] theorem setFlight_flow (s : State) (x : Src) (l : List InFlight) : (s.setFlight x l).flow = s.flow := (setFlight_kept s x l).flow
@[simp] theorem setFlight_slots (s : State) (x : Src) (l : List InFlight) : (s.setFlight x l).slots = s.slots := (setFlight_kept s x l).slots
@[simp] theorem setFlight_progress (s : State) (x : Src) (l : List InFlight) : (s.setFlight x l).progress = s.progress := (setFlight_kept s x l).progress
@[simp] theorem setFlight_epochs (s : State) (x : Src) (l : List InFlight) : (s.setFlight x l).epochs = s.epochs := (setFlight_kept s x l).epochs
@[simp] theorem setFlight_tiles (s : State) (x : Src) (l : List InFlight) : (s.setFlight x l).tiles = s.tiles := (setFlight_kept s x l).tiles
@[simp] theorem setFlight_fab (s : State) (x : Src) (l : List InFlight) : (s.setFlight x l).fab = s.fab := (setFlight_kept s x l).fab
@[simp] theorem setFlight_regions (s : State) (x : Src) (l : List InFlight) : (s.setFlight x l).regions = s.regions := (setFlight_kept s x l).regions
@[simp] theorem setFlight_pages (s : State) (x : Src) (l : List InFlight) : (s.setFlight x l).pages = s.pages := (setFlight_kept s x l).pages
@[simp] theorem setFlight_arb (s : State) (x : Src) (l : List InFlight) : (s.setFlight x l).arb = s.arb := (setFlight_kept s x l).arb

@[simp] theorem beginCmd_pending (c : CmdCtx) (opc : Nat) (s : State) : (beginCmd c opc s).pending = s.pending := (beginCmd_kept c opc s).pending
@[simp] theorem beginCmd_free (c : CmdCtx) (opc : Nat) (s : State) : (beginCmd c opc s).free = s.free := (beginCmd_kept c opc s).free
@[simp] theorem beginCmd_crypto (c : CmdCtx) (opc : Nat) (s : State) : (beginCmd c opc s).crypto = s.crypto := (beginCmd_kept c opc s).crypto
@[simp] theorem beginCmd_impl (c : CmdCtx) (opc : Nat) (s : State) : (beginCmd c opc s).impl = s.impl := (beginCmd_kept c opc s).impl
@[simp] theorem beginCmd_sys (c : CmdCtx) (opc : Nat) (s : State) : (beginCmd c opc s).sys = s.sys := (beginCmd_kept c opc s).sys
@[simp] theorem beginCmd_clk (c : CmdCtx) (opc : Nat) (s : State) : (beginCmd c opc s).clk = s.clk := (beginCmd_kept c opc s).clk
@[simp] theorem beginCmd_fields (c : CmdCtx) (opc : Nat) (s : State) : (beginCmd c opc s).fields = s.fields := (beginCmd_kept c opc s).fields
@[simp] theorem beginCmd_intake (c : CmdCtx) (opc : Nat) (s : State) : (beginCmd c opc s).intake = s.intake := (beginCmd_kept c opc s).intake
@[simp] theorem beginCmd_tabs (c : CmdCtx) (opc : Nat) (s : State) : (beginCmd c opc s).tabs = s.tabs := (beginCmd_kept c opc s).tabs
@[simp] theorem beginCmd_flow (c : CmdCtx) (opc : Nat) (s : State) : (beginCmd c opc s).flow = s.flow := (beginCmd_kept c opc s).flow
@[simp] theorem beginCmd_slots (c : CmdCtx) (opc : Nat) (s : State) : (beginCmd c opc s).slots = s.slots := (beginCmd_kept c opc s).slots
@[simp] theorem beginCmd_progress (c : CmdCtx) (opc : Nat) (s : State) : (beginCmd c opc s).progress = s.progress := (beginCmd_kept c opc s).progress
@[simp] theorem beginCmd_epochs (c : CmdCtx) (opc : Nat) (s : State) : (beginCmd c opc s).epochs = s.epochs := (beginCmd_kept c opc s).epochs
@[simp] theorem beginCmd_tiles (c : CmdCtx) (opc : Nat) (s : State) : (beginCmd c opc s).tiles = s.tiles := (beginCmd_kept c opc s).tiles
@[simp] theorem beginCmd_fab (c : CmdCtx) (opc : Nat) (s : State) : (beginCmd c opc s).fab = s.fab := (beginCmd_kept c opc s).fab
@[simp] theorem beginCmd_regions (c : CmdCtx) (opc : Nat) (s : State) : (beginCmd c opc s).regions = s.regions := (beginCmd_kept c opc s).regions
@[simp] theorem beginCmd_pages (c : CmdCtx) (opc : Nat) (s : State) : (beginCmd c opc s).pages = s.pages := (beginCmd_kept c opc s).pages
@[simp] theorem beginCmd_arb (c : CmdCtx) (opc : Nat) (s : State) : (beginCmd c opc s).arb = s.arb := (beginCmd_kept c opc s).arb

@[simp] theorem finish_pending (c : CmdCtx) (st : Status) (body : Bytes) (order : DWord) (fl : Nat) (s : State) : (finish c st body order fl s).pending = s.pending := (finish_kept c st body order fl s).pending
@[simp] theorem finish_free (c : CmdCtx) (st : Status) (body : Bytes) (order : DWord) (fl : Nat) (s : State) : (finish c st body order fl s).free = s.free := (finish_kept c st body order fl s).free
@[simp] theorem finish_crypto (c : CmdCtx) (st : Status) (body : Bytes) (order : DWord) (fl : Nat) (s : State) : (finish c st body order fl s).crypto = s.crypto := (finish_kept c st body order fl s).crypto
@[simp] theorem finish_impl (c : CmdCtx) (st : Status) (body : Bytes) (order : DWord) (fl : Nat) (s : State) : (finish c st body order fl s).impl = s.impl := (finish_kept c st body order fl s).impl
@[simp] theorem finish_sys (c : CmdCtx) (st : Status) (body : Bytes) (order : DWord) (fl : Nat) (s : State) : (finish c st body order fl s).sys = s.sys := (finish_kept c st body order fl s).sys
@[simp] theorem finish_clk (c : CmdCtx) (st : Status) (body : Bytes) (order : DWord) (fl : Nat) (s : State) : (finish c st body order fl s).clk = s.clk := (finish_kept c st body order fl s).clk
@[simp] theorem finish_fields (c : CmdCtx) (st : Status) (body : Bytes) (order : DWord) (fl : Nat) (s : State) : (finish c st body order fl s).fields = s.fields := (finish_kept c st body order fl s).fields
@[simp] theorem finish_intake (c : CmdCtx) (st : Status) (body : Bytes) (order : DWord) (fl : Nat) (s : State) : (finish c st body order fl s).intake = s.intake := (finish_kept c st body order fl s).intake
@[simp] theorem finish_tabs (c : CmdCtx) (st : Status) (body : Bytes) (order : DWord) (fl : Nat) (s : State) : (finish c st body order fl s).tabs = s.tabs := (finish_kept c st body order fl s).tabs
@[simp] theorem finish_flow (c : CmdCtx) (st : Status) (body : Bytes) (order : DWord) (fl : Nat) (s : State) : (finish c st body order fl s).flow = s.flow := (finish_kept c st body order fl s).flow
@[simp] theorem finish_slots (c : CmdCtx) (st : Status) (body : Bytes) (order : DWord) (fl : Nat) (s : State) : (finish c st body order fl s).slots = s.slots := (finish_kept c st body order fl s).slots
@[simp] theorem finish_progress (c : CmdCtx) (st : Status) (body : Bytes) (order : DWord) (fl : Nat) (s : State) : (finish c st body order fl s).progress = s.progress := (finish_kept c st body order fl s).progress
@[simp] theorem finish_epochs (c : CmdCtx) (st : Status) (body : Bytes) (order : DWord) (fl : Nat) (s : State) : (finish c st body order fl s).epochs = s.epochs := (finish_kept c st body order fl s).epochs
@[simp] theorem finish_tiles (c : CmdCtx) (st : Status) (body : Bytes) (order : DWord) (fl : Nat) (s : State) : (finish c st body order fl s).tiles = s.tiles := (finish_kept c st body order fl s).tiles
@[simp] theorem finish_fab (c : CmdCtx) (st : Status) (body : Bytes) (order : DWord) (fl : Nat) (s : State) : (finish c st body order fl s).fab = s.fab := (finish_kept c st body order fl s).fab
@[simp] theorem finish_regions (c : CmdCtx) (st : Status) (body : Bytes) (order : DWord) (fl : Nat) (s : State) : (finish c st body order fl s).regions = s.regions := (finish_kept c st body order fl s).regions
@[simp] theorem finish_pages (c : CmdCtx) (st : Status) (body : Bytes) (order : DWord) (fl : Nat) (s : State) : (finish c st body order fl s).pages = s.pages := (finish_kept c st body order fl s).pages
@[simp] theorem finish_arb (c : CmdCtx) (st : Status) (body : Bytes) (order : DWord) (fl : Nat) (s : State) : (finish c st body order fl s).arb = s.arb := (finish_kept c st body order fl s).arb

@[simp] theorem waitCmd_pending (c : CmdCtx) (i : Instr) (s : State) : (waitCmd c i s).pending = s.pending := (waitCmd_kept c i s).pending
@[simp] theorem waitCmd_free (c : CmdCtx) (i : Instr) (s : State) : (waitCmd c i s).free = s.free := (waitCmd_kept c i s).free
@[simp] theorem waitCmd_crypto (c : CmdCtx) (i : Instr) (s : State) : (waitCmd c i s).crypto = s.crypto := (waitCmd_kept c i s).crypto
@[simp] theorem waitCmd_impl (c : CmdCtx) (i : Instr) (s : State) : (waitCmd c i s).impl = s.impl := (waitCmd_kept c i s).impl
@[simp] theorem waitCmd_sys (c : CmdCtx) (i : Instr) (s : State) : (waitCmd c i s).sys = s.sys := (waitCmd_kept c i s).sys
@[simp] theorem waitCmd_clk (c : CmdCtx) (i : Instr) (s : State) : (waitCmd c i s).clk = s.clk := (waitCmd_kept c i s).clk
@[simp] theorem waitCmd_fields (c : CmdCtx) (i : Instr) (s : State) : (waitCmd c i s).fields = s.fields := (waitCmd_kept c i s).fields
@[simp] theorem waitCmd_intake (c : CmdCtx) (i : Instr) (s : State) : (waitCmd c i s).intake = s.intake := (waitCmd_kept c i s).intake
@[simp] theorem waitCmd_tabs (c : CmdCtx) (i : Instr) (s : State) : (waitCmd c i s).tabs = s.tabs := (waitCmd_kept c i s).tabs
@[simp] theorem waitCmd_flow (c : CmdCtx) (i : Instr) (s : State) : (waitCmd c i s).flow = s.flow := (waitCmd_kept c i s).flow
@[simp] theorem waitCmd_slots (c : CmdCtx) (i : Instr) (s : State) : (waitCmd c i s).slots = s.slots := (waitCmd_kept c i s).slots
@[simp] theorem waitCmd_progress (c : CmdCtx) (i : Instr) (s : State) : (waitCmd c i s).progress = s.progress := (waitCmd_kept c i s).progress
@[simp] theorem waitCmd_epochs (c : CmdCtx) (i : Instr) (s : State) : (waitCmd c i s).epochs = s.epochs := (waitCmd_kept c i s).epochs
@[simp] theorem waitCmd_tiles (c : CmdCtx) (i : Instr) (s : State) : (waitCmd c i s).tiles = s.tiles := (waitCmd_kept c i s).tiles
@[simp] theorem waitCmd_fab (c : CmdCtx) (i : Instr) (s : State) : (waitCmd c i s).fab = s.fab := (waitCmd_kept c i s).fab
@[simp] theorem waitCmd_regions (c : CmdCtx) (i : Instr) (s : State) : (waitCmd c i s).regions = s.regions := (waitCmd_kept c i s).regions
@[simp] theorem waitCmd_pages (c : CmdCtx) (i : Instr) (s : State) : (waitCmd c i s).pages = s.pages := (waitCmd_kept c i s).pages
@[simp] theorem waitCmd_arb (c : CmdCtx) (i : Instr) (s : State) : (waitCmd c i s).arb = s.arb := (waitCmd_kept c i s).arb

@[simp] theorem modEntry_pending (c : CmdCtx) (f : InFlight → InFlight) (s : State) : (modEntry c f s).pending = s.pending := (modEntry_kept c f s).pending
@[simp] theorem modEntry_free (c : CmdCtx) (f : InFlight → InFlight) (s : State) : (modEntry c f s).free = s.free := (modEntry_kept c f s).free
@[simp] theorem modEntry_crypto (c : CmdCtx) (f : InFlight → InFlight) (s : State) : (modEntry c f s).crypto = s.crypto := (modEntry_kept c f s).crypto
@[simp] theorem modEntry_impl (c : CmdCtx) (f : InFlight → InFlight) (s : State) : (modEntry c f s).impl = s.impl := (modEntry_kept c f s).impl
@[simp] theorem modEntry_sys (c : CmdCtx) (f : InFlight → InFlight) (s : State) : (modEntry c f s).sys = s.sys := (modEntry_kept c f s).sys
@[simp] theorem modEntry_clk (c : CmdCtx) (f : InFlight → InFlight) (s : State) : (modEntry c f s).clk = s.clk := (modEntry_kept c f s).clk
@[simp] theorem modEntry_fields (c : CmdCtx) (f : InFlight → InFlight) (s : State) : (modEntry c f s).fields = s.fields := (modEntry_kept c f s).fields
@[simp] theorem modEntry_intake (c : CmdCtx) (f : InFlight → InFlight) (s : State) : (modEntry c f s).intake = s.intake := (modEntry_kept c f s).intake
@[simp] theorem modEntry_tabs (c : CmdCtx) (f : InFlight → InFlight) (s : State) : (modEntry c f s).tabs = s.tabs := (modEntry_kept c f s).tabs
@[simp] theorem modEntry_flow (c : CmdCtx) (f : InFlight → InFlight) (s : State) : (modEntry c f s).flow = s.flow := (modEntry_kept c f s).flow
@[simp] theorem modEntry_slots (c : CmdCtx) (f : InFlight → InFlight) (s : State) : (modEntry c f s).slots = s.slots := (modEntry_kept c f s).slots
@[simp] theorem modEntry_progress (c : CmdCtx) (f : InFlight → InFlight) (s : State) : (modEntry c f s).progress = s.progress := (modEntry_kept c f s).progress
@[simp] theorem modEntry_epochs (c : CmdCtx) (f : InFlight → InFlight) (s : State) : (modEntry c f s).epochs = s.epochs := (modEntry_kept c f s).epochs
@[simp] theorem modEntry_tiles (c : CmdCtx) (f : InFlight → InFlight) (s : State) : (modEntry c f s).tiles = s.tiles := (modEntry_kept c f s).tiles
@[simp] theorem modEntry_fab (c : CmdCtx) (f : InFlight → InFlight) (s : State) : (modEntry c f s).fab = s.fab := (modEntry_kept c f s).fab
@[simp] theorem modEntry_regions (c : CmdCtx) (f : InFlight → InFlight) (s : State) : (modEntry c f s).regions = s.regions := (modEntry_kept c f s).regions
@[simp] theorem modEntry_pages (c : CmdCtx) (f : InFlight → InFlight) (s : State) : (modEntry c f s).pages = s.pages := (modEntry_kept c f s).pages
@[simp] theorem modEntry_arb (c : CmdCtx) (f : InFlight → InFlight) (s : State) : (modEntry c f s).arb = s.arb := (modEntry_kept c f s).arb

end Sys2Proof.Machine
end

