-- ==== Sys2Proof/Laws/Commands.lean ====
section
/-! SUPPORT. The frame that every command's meaning shares, once: what runCmd does with a command whose checks pass, with one
that a check refuses, and with one that the module state does not take. -/

namespace Sys2Proof.Machine

theorem hasHost_of_opcodeRuns {m : Mode} {opc : Nat} (h : opcodeRuns m opc = true) : m.hasHost = true := by
  cases m <;> simp_all [opcodeRuns, Mode.hasHost]

/-- A ready opcode passes the gate. -/
theorem stateGate_of_ready {c : CmdCtx} {opc : Nat} {s : State} (h : Ready opc s) : stateGate c opc s = none := by
  obtain ⟨h1, h2⟩ := h
  unfold stateGate
  simp only [h2, Bool.false_and]
  cases hm : s.sys.mode <;> simp_all [opcodeRuns, r79]
  omega

theorem ready_begin {c : CmdCtx} {opc o : Nat} {s : State} : Ready o (beginCmd c opc s) ↔ Ready o s := by
  simp [Ready]

/-- A command that is ready and passes its checks does its work on the state in which it has started. -/
theorem runCmd_ready {c : CmdCtx} {opc : Nat} {check : State → Option Status} {work : State → State} {s : State}
    (h : Ready opc s) (hc : check (beginCmd c opc s) = none) :
    runCmd c opc check work s = work (beginCmd c opc s) := by
  unfold runCmd
  simp [hasHost_of_opcodeRuns h.1, hc, stateGate_of_ready (ready_begin.mpr h)]

/-- A check of steps 6 to 9 that fails decides the status. -/
theorem refusal_early {c : CmdCtx} {opc : Nat} {s : State} {st : Status} (h : st.early = true) :
    refusal c opc s st = st := by
  simp [refusal, h]

/-- Where the opcode may run, the failing check decides the status. -/
theorem refusal_ready {c : CmdCtx} {opc : Nat} {s : State} {st : Status} (h : Ready opc s) : refusal c opc s st = st := by
  simp [refusal, stateGate_of_ready h]

/-- A command that a check refuses replies with the refusal's status and does nothing else. -/
theorem runCmd_refused {c : CmdCtx} {opc : Nat} {check : State → Option Status} {work : State → State} {s : State}
    {st : Status} (h : s.sys.mode.hasHost = true) (hc : check (beginCmd c opc s) = some st) :
    runCmd c opc check work s = finish c (refusal c opc (beginCmd c opc s) st) [] 0 0 (beginCmd c opc s) := by
  unfold runCmd
  simp [h, hc]

/-- Without a host link a command changes nothing. -/
theorem runCmd_noHost {c : CmdCtx} {opc : Nat} {check : State → Option Status} {work : State → State} {s : State}
    (h : s.sys.mode.hasHost = false) : runCmd c opc check work s = s := by
  unfold runCmd
  simp [h]

/-- The first failing check of a list is none exactly when every check passes. -/
theorem firstFail_none (l : List (Bool × Status)) : firstFail l = none ↔ ∀ x ∈ l, x.1 = false := by
  induction l with
  | nil => simp [firstFail]
  | cons x r ih =>
    obtain ⟨b, st⟩ := x
    cases b <;> simp [firstFail, ih]

end Sys2Proof.Machine
end

