-- ==== Sys2Proof/Laws/Fifo.lean ====
section
/-! SUPPORT. Laws of FIFO words (10 R318, R319, R321): a packet read from its words is the packet written, and the
whole-packet count of a FIFO is the number of its packets. -/

namespace Sys2Proof.Laws

open Sys2Proof.Machine

@[simp] theorem fifoCount_nil : fifoCount [] = 0 := rfl

theorem fifoCount_append (a b : List FWord) : fifoCount (a ++ b) = fifoCount a + fifoCount b := by simp [fifoCount]

@[simp] theorem fifoRead_nil (w : Nat) : fifoRead w [] = (idleWord w, []) := rfl

theorem wordsGo_count {w : Nat} (hw : 0 < w) (bad : Bool) :
    ∀ (k : Nat) (b : Bytes), b.length < k → fifoCount (wordsGo w bad k b) = 1
  | 0, _, h => by omega
  | k + 1, b, h => by
    unfold wordsGo
    split
    · rfl
    · have := wordsGo_count hw bad k (b.drop w) (by simp; omega)
      simpa [fifoCount] using this

/-- The words of a packet count as one packet. -/
theorem wordsOf_count {w : Nat} (hw : 0 < w) (b : Bytes) (bad : Bool) : fifoCount (wordsOf w b bad) = 1 :=
  wordsGo_count hw bad _ b (by omega)

/-- The whole-packet count of the words of a list of packets is its length. -/
theorem count_flatMap {α : Type} {w : Nat} (hw : 0 < w) (f : α → Bytes) (p : α → Bool) :
    ∀ l : List α, fifoCount (l.flatMap (fun x => wordsOf w (f x) (p x))) = l.length
  | [] => rfl
  | x :: l => by
    rw [List.flatMap_cons, fifoCount_append, wordsOf_count hw, count_flatMap hw f p l, List.length_cons, Nat.add_comm]

/-- The whole-packet count that gates an egress queue is the number of its frames. -/
theorem queue_count {w : Nat} (hw : 0 < w) (q : Queue) : fifoCount (q.words w) = q.frames.length :=
  count_flatMap hw _ _ _

theorem fitTo_take (n : Nat) (b : Bytes) (h : b.length ≤ n) : (fitTo n b).take b.length = b := by
  simp [fitTo, sliceZ, slice, List.take_of_length_le h]

theorem wordsGo_packet {w : Nat} (hw : 0 < w) (bad : Bool) (rest : List FWord) :
    ∀ (k : Nat) (b : Bytes), b.length < k → fifoPacket false (wordsGo w bad k b ++ rest) = some (b, bad, rest)
  | 0, _, h => by omega
  | k + 1, b, h => by
    unfold wordsGo
    split
    · rename_i hb
      simp [fifoPacket, fitTo_take w b hb]
    · have ih := wordsGo_packet hw bad rest k (b.drop w) (by simp; omega)
      simp [fifoPacket, ih]

/-- What is read up to the END word is the packet that was written, poisoned where it was. -/
theorem wordsOf_packet {w : Nat} (hw : 0 < w) (b : Bytes) (bad : Bool) (rest : List FWord) :
    fifoPacket false (wordsOf w b bad ++ rest) = some (b, bad, rest) :=
  wordsGo_packet hw bad rest _ b (by omega)

end Sys2Proof.Laws
end

