-- ==== Sys2Proof/Laws/Memory.lean ====
section
/-! SUPPORT. Sparse maps and byte memories: what is read after a write, and that every operation on a memory keeps its
canonical form. -/

namespace Sys2Proof.Machine

variable {α : Type}

theorem smFind_smSet_self (m : SMap α) (k : Nat) (v : α) : smFind (smSet m k v) k = some v := by
  induction m with
  | nil => simp [smSet, smFind]
  | cons e r ih =>
    obtain ⟨a, w⟩ := e
    simp only [smSet]
    split
    · simp [smFind]
    · split
      · simp [smFind]
      · simp [smFind, *]
        omega

theorem smFind_smSet_ne (m : SMap α) {k j : Nat} (v : α) (h : j ≠ k) : smFind (smSet m k v) j = smFind m j := by
  induction m with
  | nil => simp [smSet, smFind, h.symm]
  | cons e r ih =>
    obtain ⟨a, w⟩ := e
    simp only [smSet]
    split
    · simp [smFind, h.symm]
    · split
      · rename_i h2
        subst h2
        simp [smFind, h.symm]
      · simp [smFind, ih]

@[simp] theorem smGet_smSet_self (d : α) (m : SMap α) (k : Nat) (v : α) : smGet d (smSet m k v) k = v := by
  simp [smGet, smFind_smSet_self]

theorem smGet_smSet_ne (d : α) (m : SMap α) {k j : Nat} (v : α) (h : j ≠ k) : smGet d (smSet m k v) j = smGet d m j := by
  simp [smGet, smFind_smSet_ne m v h]

/-- The canonical form as a statement about all entries. -/
theorem mem_wf_iff (m : Mem) : Mem.wf m = true ↔ m.Pairwise (fun a b => a.1 < b.1) ∧ ∀ e ∈ m, e.2 ≠ 0 := by
  induction m with
  | nil => simp [Mem.wf]
  | cons e r ih =>
    cases r with
    | nil => simp [Mem.wf]
    | cons f r =>
      simp only [Mem.wf, Bool.and_eq_true, bne_iff_ne, ne_eq, decide_eq_true_eq, ih, List.pairwise_cons, List.mem_cons,
        forall_eq_or_imp]
      constructor
      · rintro ⟨⟨h1, h2⟩, ⟨⟨h3, h4⟩, h5, h6⟩⟩
        exact ⟨⟨⟨h2, fun a ha => Nat.lt_trans h2 (h3 a ha)⟩, h3, h4⟩, h1, h5, h6⟩
      · rintro ⟨⟨⟨h2, _⟩, h3, h4⟩, h1, h5, h6⟩
        exact ⟨⟨h1, h2⟩, ⟨h3, h4⟩, h5, h6⟩

theorem mem_filter_wf (m : Mem) (p : Host.Cell → Bool) (h : Mem.wf m = true) : Mem.wf (m.filter p) = true := by
  rw [mem_wf_iff] at *
  exact ⟨h.1.filter _, fun e he => h.2 e (List.mem_filter.mp he).1⟩

theorem memClear_wf (m : Mem) (lo hi : Nat) (h : Mem.wf m = true) : Mem.wf (memClear m lo hi) = true :=
  mem_filter_wf m _ h

/-- Every entry of a memory after a write is an old one or the one written. -/
theorem mem_memWrite (m : Mem) (a : Nat) (b : Byte) (e : Host.Cell) (h : e ∈ memWrite m a b) :
    e ∈ m ∨ (e = (a, b) ∧ b ≠ 0) := by
  induction m with
  | nil =>
    simp only [memWrite] at h
    split at h <;> simp_all
  | cons c r ih =>
    obtain ⟨k, v⟩ := c
    simp only [memWrite] at h
    split at h
    · split at h
      · exact .inl h
      · rcases List.mem_cons.mp h with h | h
        · exact .inr ⟨h, ‹_›⟩
        · exact .inl h
    · split at h
      · split at h
        · exact .inl (List.mem_cons_of_mem _ h)
        · rcases List.mem_cons.mp h with h | h
          · exact .inr ⟨h, ‹_›⟩
          · exact .inl (List.mem_cons_of_mem _ h)
      · rcases List.mem_cons.mp h with h | h
        · exact .inl (h ▸ List.mem_cons_self ..)
        · rcases ih h with h | h
          · exact .inl (List.mem_cons_of_mem _ h)
          · exact .inr h

/-- Writing a byte keeps the canonical form. -/
theorem memWrite_wf (m : Mem) (a : Nat) (b : Byte) (h : Mem.wf m = true) : Mem.wf (memWrite m a b) = true := by
  rw [mem_wf_iff] at *
  obtain ⟨hp, hz⟩ := h
  induction m with
  | nil =>
    simp only [memWrite]
    split <;> simp_all
  | cons c r ih =>
    obtain ⟨k, v⟩ := c
    obtain ⟨h1, h2⟩ := List.pairwise_cons.mp hp
    have hz' : ∀ e ∈ r, e.2 ≠ 0 := fun e he => hz e (List.mem_cons_of_mem _ he)
    simp only [memWrite]
    split
    · rename_i hlt
      split
      · exact ⟨hp, hz⟩
      · refine ⟨List.pairwise_cons.mpr ⟨fun e he => ?_, hp⟩, fun e he => ?_⟩
        · rcases List.mem_cons.mp he with he | he
          · exact he ▸ hlt
          · exact Nat.lt_trans hlt (h1 e he)
        · rcases List.mem_cons.mp he with he | he
          · simpa [he]
          · exact hz e he
    · split
      · rename_i heq
        subst heq
        split
        · exact ⟨h2, hz'⟩
        · refine ⟨List.pairwise_cons.mpr ⟨fun e he => h1 e he, h2⟩, fun e he => ?_⟩
          rcases List.mem_cons.mp he with he | he
          · simpa [he]
          · exact hz' e he
      · obtain ⟨ip, iz⟩ := ih h2 hz'
        refine ⟨List.pairwise_cons.mpr ⟨fun e he => ?_, ip⟩, fun e he => ?_⟩
        · rcases mem_memWrite r a b e he with he | ⟨he, _⟩
          · exact h1 e he
          · subst he
            show k < a
            omega
        · rcases List.mem_cons.mp he with he | he
          · exact he ▸ hz (k, v) (List.mem_cons_self ..)
          · exact iz e he

theorem memWriteN_wf (m : Mem) (a : Nat) (l : Bytes) (h : Mem.wf m = true) : Mem.wf (memWriteN m a l) = true := by
  induction l generalizing m a with
  | nil => exact h
  | cons b bs ih => exact ih _ _ (memWrite_wf m a b h)

theorem hbmPut_wf (s : State) (p a : Nat) (l : Bytes) (m : Mem) (h : Mem.wf m = true) : Mem.wf (hbmPut s p a l m) = true := by
  induction l generalizing a m with
  | nil => exact h
  | cons b bs ih =>
    simp only [hbmPut]
    apply ih
    split
    · exact memWrite_wf _ _ _ h
    · exact h

theorem bar2Store_wf (s : State) (off : Nat) (l : Bytes) (m : Mem) (h : Mem.wf m = true) :
    Mem.wf (bar2Store s off l m) = true := by
  induction l generalizing off m with
  | nil => exact h
  | cons b bs ih =>
    simp only [bar2Store]
    apply ih
    split
    · exact hbmPut_wf _ _ _ _ _ h
    · exact h

/-- In a sorted memory nothing below the first entry is listed. -/
theorem memRead_below (m : Mem) (a : Nat) (h : ∀ e ∈ m, a < e.1) : memRead m a = 0 := by
  induction m with
  | nil => rfl
  | cons c r ih =>
    obtain ⟨k, v⟩ := c
    have hk : a < k := h (k, v) (List.mem_cons_self ..)
    simp only [memRead]
    rw [if_neg (by omega)]
    exact ih (fun e he => h e (List.mem_cons_of_mem _ he))

/-- A byte reads as it was written. -/
theorem memRead_memWrite_self (m : Mem) (a : Nat) (b : Byte) (h : Mem.wf m = true) : memRead (memWrite m a b) a = b := by
  rw [mem_wf_iff] at h
  obtain ⟨hp, hz⟩ := h
  induction m with
  | nil =>
    simp only [memWrite]
    split <;> simp_all [memRead]
  | cons c r ih =>
    obtain ⟨k, v⟩ := c
    obtain ⟨h1, h2⟩ := List.pairwise_cons.mp hp
    simp only [memWrite]
    split
    · rename_i hlt
      split
      · rename_i hb
        rw [hb]
        refine memRead_below _ _ (fun e he => ?_)
        rcases List.mem_cons.mp he with he | he
        · exact he ▸ hlt
        · exact Nat.lt_trans hlt (h1 e he)
      · simp [memRead]
    · split
      · rename_i heq
        subst heq
        split
        · rename_i hb
          rw [hb]
          exact memRead_below _ _ (fun e he => h1 e he)
        · simp [memRead]
      · simp only [memRead]
        rw [if_neg (by omega)]
        exact ih h2 (fun e he => hz e (List.mem_cons_of_mem _ he))

/-- Every other byte reads as before. -/
theorem memRead_memWrite_ne (m : Mem) {a x : Nat} (b : Byte) (h : x ≠ a) : memRead (memWrite m a b) x = memRead m x := by
  induction m with
  | nil =>
    simp only [memWrite]
    split
    · rfl
    · simp [memRead, h.symm]
  | cons c r ih =>
    obtain ⟨k, v⟩ := c
    simp only [memWrite]
    split
    · split
      · rfl
      · simp [memRead, h.symm]
    · split
      · rename_i heq
        subst heq
        split <;> simp [memRead, h.symm]
      · simp [memRead, ih]

/-- A byte outside a written string reads as before. -/
theorem memRead_memWriteN_out (m : Mem) (a x : Nat) (l : Bytes) (h : x < a ∨ a + l.length ≤ x) :
    memRead (memWriteN m a l) x = memRead m x := by
  induction l generalizing m a with
  | nil => rfl
  | cons b bs ih =>
    simp only [List.length_cons] at h
    simp only [memWriteN]
    rw [ih _ _ (by omega), memRead_memWrite_ne _ _ (by omega)]

/-- A written string reads back. -/
theorem memReadN_memWriteN (m : Mem) (a : Nat) (l : Bytes) (h : Mem.wf m = true) : memReadN (memWriteN m a l) a l.length = l := by
  induction l generalizing m a with
  | nil => rfl
  | cons b bs ih =>
    simp only [List.length_cons, memReadN, memWriteN]
    rw [memRead_memWriteN_out _ _ _ _ (by omega), memRead_memWrite_self _ _ _ h, ih _ _ (memWrite_wf _ _ _ h)]

end Sys2Proof.Machine
end

