-- ==== Sys2Proof/Laws/Operands.lean ====
section
/-! SUPPORT. What the byte-string operations of Machine/Operands.lean do: lengths, fields of a concatenation, and a number
written little-endian reads back. -/

namespace Sys2Proof.Machine

@[simp] theorem zeros_length (k : Nat) : (zeros k).length = k := by simp [zeros]

@[simp] theorem leBytes_length : (k n : Nat) → (leBytes k n).length = k
  | 0, _ => rfl
  | k + 1, n => by simp [leBytes, leBytes_length k]

@[simp] theorem leBytesI_length (k : Nat) (i : Int) : (leBytesI k i).length = k := by simp [leBytesI]

/-- A number written in k bytes reads back modulo 2^(8k). -/
theorem leNat_leBytes : (k n : Nat) → leNat (leBytes k n) = n % 256 ^ k
  | 0, n => by simp [leBytes, leNat, Nat.mod_one]
  | k + 1, n => by
    have h : leNat (leBytes (k + 1) n) = n % 256 + 256 * (n / 256 % 256 ^ k) := by
      simp only [leBytes, leNat, leNat_leBytes k, BitVec.toNat_ofNat, Nat.reducePow]
    rw [h, Nat.pow_succ', Nat.mod_mul]

/-- A number that k bytes hold reads back. -/
theorem leNat_leBytes_lt {k n : Nat} (h : n < 256 ^ k) : leNat (leBytes k n) = n := by
  rw [leNat_leBytes, Nat.mod_eq_of_lt h]

/-- The value of k bytes is below 2^(8k). -/
theorem leNat_lt : (b : Bytes) → leNat b < 256 ^ b.length
  | [] => by simp [leNat]
  | x :: b => by
    have h1 := leNat_lt b
    have h2 := x.isLt
    simp only [leNat, List.length_cons, Nat.pow_succ]
    omega

/-- Bytes written from their own value are the same bytes. -/
theorem leBytes_leNat : (b : Bytes) → leBytes b.length (leNat b) = b
  | [] => rfl
  | x :: b => by
    have h2 := x.isLt
    have h3 : (x.toNat + 256 * leNat b) / 256 = leNat b := by omega
    simp only [List.length_cons, leBytes, leNat, h3, leBytes_leNat b]
    congr 1
    apply BitVec.eq_of_toNat_eq
    simp only [BitVec.toNat_ofNat]
    omega

/-- A slice that lies in the first part of a concatenation. -/
theorem slice_append_left {a b : Bytes} {off n : Nat} (h : off + n ≤ a.length) : slice (a ++ b) off n = slice a off n := by
  simp only [slice]
  rw [List.drop_append_of_le_length (by omega), List.take_append_of_le_length (by simp; omega)]

/-- A slice that lies in the second part of a concatenation. -/
theorem slice_append_right {a b : Bytes} {off n : Nat} (h : a.length ≤ off) :
    slice (a ++ b) off n = slice b (off - a.length) n := by
  simp [slice, List.drop_append, List.drop_eq_nil_of_le h]

/-- The whole of a byte string. -/
theorem slice_zero {b : Bytes} {n : Nat} (h : b.length ≤ n) : slice b 0 n = b := by
  simp [slice, List.take_of_length_le h]

/-- The field of k bytes that a number's k bytes hold at the head of a string. -/
theorem uAt_leBytes (k n : Nat) (b : Bytes) : uAt (leBytes k n ++ b) 0 k = n % 256 ^ k := by
  rw [uAt, slice_append_left (by simp), slice_zero (by simp), leNat_leBytes]

/-- A field behind the first part of a concatenation. -/
theorem uAt_append_right {a b : Bytes} {off n : Nat} (h : a.length ≤ off) : uAt (a ++ b) off n = uAt b (off - a.length) n := by
  rw [uAt, slice_append_right h, uAt]

/-- A field in the first part of a concatenation. -/
theorem uAt_append_left {a b : Bytes} {off n : Nat} (h : off + n ≤ a.length) : uAt (a ++ b) off n = uAt a off n := by
  rw [uAt, slice_append_left h, uAt]

end Sys2Proof.Machine
end

