-- ==== Sys2Proof/Laws/PerInstr.lean ====
section
/-! SUPPORT. A fact about every command, one lemma a constructor: the opcode that a command's packet carries is one that 02 R77
lists, for partition 0 or for any partition. -/

namespace Sys2Proof.Laws.Opcode

open Sys2Proof.Machine

/-- The opcode that a command's packet carries is listed. -/
def Statement (i : Instr) : Prop :=
  ∀ o p, encodePayload i = some (o, p) → (opcP0.contains o || opcOwn.contains o) = true

/-- A command that carries the listed opcode `n`. -/
theorem of_some {i : Instr} {n : Nat} {b : Bytes} (h : encodePayload i = some (n, b))
    (k : (opcP0.contains n || opcOwn.contains n) = true) : Statement i := by
  intro o p e
  rw [h] at e
  cases e
  exact k

/-- A command that no packet carries. -/
theorem of_none {i : Instr} (h : encodePayload i = none) : Statement i := by
  intro o p e
  rw [h] at e
  cases e

theorem nop (c : CmdCtx) : Statement (.nop c) := of_some rfl (by decide)
theorem getInfo (c : CmdCtx) : Statement (.getInfo c) := of_some rfl (by decide)
theorem getStatus (c : CmdCtx) : Statement (.getStatus c) := of_some rfl (by decide)
theorem start (c : CmdCtx) (kind : Nat) : Statement (.start c kind) := of_some rfl (by decide)
theorem shutdown (c : CmdCtx) : Statement (.shutdown c) := of_some rfl (by decide)
theorem ringBind (c : CmdCtx) (ring part : Nat) : Statement (.ringBind c ring part) := of_some rfl (by decide)
theorem fieldRead (c : CmdCtx) (id count : Nat) : Statement (.fieldRead c id count) := of_some rfl (by decide)
theorem fieldWrite (c : CmdCtx) (id count : Nat) (values : List DWord) : Statement (.fieldWrite c id count values) := of_some rfl (by decide)
theorem sketchClear (c : CmdCtx) (sketch : Nat) (value : DWord) : Statement (.sketchClear c sketch value) := of_none rfl
theorem wkThrSet (c : CmdCtx) (slot : Nat) (value : DWord) : Statement (.wkThrSet c slot value) := of_none rfl
theorem fwStage (c : CmdCtx) (kind : Nat) (bref : Bref) (digest : Bytes) : Statement (.fwStage c kind bref digest) := of_some rfl (by decide)
theorem fwActivate (c : CmdCtx) (kind : Nat) : Statement (.fwActivate c kind) := of_some rfl (by decide)
theorem tableWrite (c : CmdCtx) (table bank count : Nat) (batch : Batch) : Statement (.tableWrite c table bank count batch) := of_some rfl (by decide)
theorem tableDelete (c : CmdCtx) (table bank count : Nat) (batch : Batch) : Statement (.tableDelete c table bank count batch) := of_some rfl (by decide)
theorem tableRead (c : CmdCtx) (table bank start count : Nat) (out : Option Bref) : Statement (.tableRead c table bank start count out) := of_some rfl (by decide)
theorem tableRebuild (c : CmdCtx) (table : Nat) : Statement (.tableRebuild c table) := of_some rfl (by decide)
theorem tableCommit (c : CmdCtx) (table : Nat) : Statement (.tableCommit c table) := of_some rfl (by decide)
theorem tableAbort (c : CmdCtx) (table : Nat) : Statement (.tableAbort c table) := of_some rfl (by decide)
theorem tableCompare (c : CmdCtx) (table : Nat) (shadow : Bref) : Statement (.tableCompare c table shadow) := of_some rfl (by decide)
theorem ruleWrite (c : CmdCtx) (group bank count : Nat) (batch : Batch) : Statement (.ruleWrite c group bank count batch) := of_some rfl (by decide)
theorem ruleDelete (c : CmdCtx) (bank count : Nat) (batch : Batch) : Statement (.ruleDelete c bank count batch) := of_some rfl (by decide)
theorem parseGraphLoad (c : CmdCtx) (bref : Bref) (digest : Bytes) : Statement (.parseGraphLoad c bref digest) := of_some rfl (by decide)
theorem patternLoad (c : CmdCtx) (bref : Bref) (digest : Bytes) : Statement (.patternLoad c bref digest) := of_some rfl (by decide)
theorem flowRead (c : CmdCtx) (sel : FlowSel) : Statement (.flowRead c sel) := of_some rfl (by decide)
theorem flowWrite (c : CmdCtx) (sel : FlowSel) (mask : DWord) (values : List DWord) : Statement (.flowWrite c sel mask values) := of_some rfl (by decide)
theorem flowDelete (c : CmdCtx) (sel : FlowSel) : Statement (.flowDelete c sel) := of_some rfl (by decide)
theorem sketchRead (c : CmdCtx) (sketch row start count : Nat) (out : Option Bref) : Statement (.sketchRead c sketch row start count out) := of_some rfl (by decide)
theorem heavyRead (c : CmdCtx) (start count : Nat) : Statement (.heavyRead c start count) := of_some rfl (by decide)
theorem bucketRead (c : CmdCtx) (start count : Nat) : Statement (.bucketRead c start count) := of_some rfl (by decide)
theorem bucketMove (c : CmdCtx) (bucket pipeline : Nat) : Statement (.bucketMove c bucket pipeline) := of_some rfl (by decide)
theorem modelLoad (c : CmdCtx) (slot : Nat) (bref : Bref) : Statement (.modelLoad c slot bref) := of_some rfl (by decide)
theorem modelUnload (c : CmdCtx) (slot : Nat) : Statement (.modelUnload c slot) := of_some rfl (by decide)
theorem epochCommit (c : CmdCtx) (ruleset : Nat) (map : DWord) : Statement (.epochCommit c ruleset map) := of_some rfl (by decide)
theorem epochStatus (c : CmdCtx) : Statement (.epochStatus c) := of_some rfl (by decide)
theorem tensorWrite (c : CmdCtx) (desc : Bytes) (bref : Bref) : Statement (.tensorWrite c desc bref) := of_some rfl (by decide)
theorem tensorRead (c : CmdCtx) (desc : Bytes) (bref : Bref) : Statement (.tensorRead c desc bref) := of_some rfl (by decide)
theorem tileRun (c : CmdCtx) (bref : Bref) (count : Nat) : Statement (.tileRun c bref count) := of_some rfl (by decide)
theorem trainStep (c : CmdCtx) (slot : Nat) (bref : Bref) (seed : DWord) : Statement (.trainStep c slot bref seed) := of_some rfl (by decide)
theorem threshRead (c : CmdCtx) (slot : Nat) : Statement (.threshRead c slot) := of_some rfl (by decide)
theorem meterWrite (c : CmdCtx) (meter : Nat) (mode : Byte) (cir cbs eirPir ebsPbs : Nat) : Statement (.meterWrite c meter mode cir cbs eirPir ebsPbs) := of_some rfl (by decide)
theorem meterRead (c : CmdCtx) (meter : Nat) : Statement (.meterRead c meter) := of_some rfl (by decide)
theorem shaperWrite (c : CmdCtx) (node : Nat) (ovh : Int) (rate burst : Nat) : Statement (.shaperWrite c node ovh rate burst) := of_some rfl (by decide)
theorem gclWrite (c : CmdCtx) (port : Nat) (base : DWord) (cycle : Nat) (entries : List (BitVec 128 × Nat)) : Statement (.gclWrite c port base cycle entries) := of_some rfl (by decide)
theorem gclRead (c : CmdCtx) (port list first : Nat) (out : Option Bref) : Statement (.gclRead c port list first out) := of_some rfl (by decide)
theorem queueSample (c : CmdCtx) (first count : Nat) : Statement (.queueSample c first count) := of_some rfl (by decide)
theorem hostpktRing (c : CmdCtx) (ring : Nat) (bref : Bref) (snap : Nat) : Statement (.hostpktRing c ring bref snap) := of_some rfl (by decide)
theorem timeAdjust (c : CmdCtx) (offset rate : Int) : Statement (.timeAdjust c offset rate) := of_some rfl (by decide)
theorem timeRead (c : CmdCtx) : Statement (.timeRead c) := of_some rfl (by decide)
theorem fabricJoin (c : CmdCtx) (node : Nat) (mask : Word) : Statement (.fabricJoin c node mask) := of_some rfl (by decide)
theorem fabricLeave (c : CmdCtx) : Statement (.fabricLeave c) := of_some rfl (by decide)
theorem fabricStatus (c : CmdCtx) : Statement (.fabricStatus c) := of_some rfl (by decide)
theorem linkRekey (c : CmdCtx) (link : Nat) : Statement (.linkRekey c link) := of_some rfl (by decide)
theorem flowHomeSet (c : CmdCtx) (first count home : Nat) : Statement (.flowHomeSet c first count home) := of_some rfl (by decide)
theorem collectiveRun (c : CmdCtx) (kind : Nat) (group : Bref) (desc : Bytes) : Statement (.collectiveRun c kind group desc) := of_some rfl (by decide)
theorem timeOffsets (c : CmdCtx) (first count : Nat) : Statement (.timeOffsets c first count) := of_some rfl (by decide)
theorem partCreate (c : CmdCtx) (part : Nat) (ownerHash : Bytes) (list : Bref) : Statement (.partCreate c part ownerHash list) := of_some rfl (by decide)
theorem partDestroy (c : CmdCtx) (part : Nat) : Statement (.partDestroy c part) := of_some rfl (by decide)
theorem partReset (c : CmdCtx) (part : Nat) : Statement (.partReset c part) := of_some rfl (by decide)
theorem partQuery (c : CmdCtx) (part : Nat) : Statement (.partQuery c part) := of_some rfl (by decide)
theorem keyRotate (c : CmdCtx) (region : Nat) : Statement (.keyRotate c region) := of_some rfl (by decide)
theorem keyStatus (c : CmdCtx) (region : Nat) : Statement (.keyStatus c region) := of_some rfl (by decide)
theorem cmdKeySet (c : CmdCtx) (envelope : Bytes) : Statement (.cmdKeySet c envelope) := of_some rfl (by decide)
theorem attestReport (c : CmdCtx) (nonce : Bytes) (bref : Bref) : Statement (.attestReport c nonce bref) := of_some rfl (by decide)
theorem certChain (c : CmdCtx) (bref : Bref) : Statement (.certChain c bref) := of_some rfl (by decide)
theorem counterRead (c : CmdCtx) (group first count : Nat) : Statement (.counterRead c group first count) := of_some rfl (by decide)
theorem counterSampleReset (c : CmdCtx) (group first count : Nat) : Statement (.counterSampleReset c group first count) := of_some rfl (by decide)
theorem traceConfig (c : CmdCtx) (mask : DWord) (bref : Bref) : Statement (.traceConfig c mask bref) := of_some rfl (by decide)
theorem traceRead (c : CmdCtx) (bref : Bref) : Statement (.traceRead c bref) := of_some rfl (by decide)
theorem profileRead (c : CmdCtx) (id : DWord) : Statement (.profileRead c id) := of_some rfl (by decide)
theorem wringStop (c : CmdCtx) (propagate : Nat) : Statement (.wringStop c propagate) := of_some rfl (by decide)
theorem wringScanout (c : CmdCtx) (bref : Bref) : Statement (.wringScanout c bref) := of_some rfl (by decide)
theorem errorRead (c : CmdCtx) (first count : Nat) : Statement (.errorRead c first count) := of_some rfl (by decide)
theorem errorAck (c : CmdCtx) (upTo : Nat) : Statement (.errorAck c upTo) := of_some rfl (by decide)
theorem windowSet (c : CmdCtx) (source t w : Nat) : Statement (.windowSet c source t w) := of_some rfl (by decide)
theorem unitFence (c : CmdCtx) (unit : Nat) : Statement (.unitFence c unit) := of_some rfl (by decide)
theorem unitUnfence (c : CmdCtx) (unit : Nat) : Statement (.unitUnfence c unit) := of_some rfl (by decide)
theorem errorInject (c : CmdCtx) (source kind : Nat) : Statement (.errorInject c source kind) := of_some rfl (by decide)
theorem crTailWrite (ring : Nat) (value : Word) : Statement (.crTailWrite ring value) := of_none rfl
theorem commandFetch (ring : Nat) : Statement (.commandFetch ring) := of_none rfl
theorem commandTimeout (ring : Nat) (seq : Word) : Statement (.commandTimeout ring seq) := of_none rfl
theorem ringEnable (ring : Nat) (crLoc rpLoc : Bool) : Statement (.ringEnable ring crLoc rpLoc) := of_none rfl
theorem ringDisable (ring : Nat) (crLoc rpLoc : Bool) : Statement (.ringDisable ring crLoc rpLoc) := of_none rfl
theorem ringReset (ring : Nat) (en crLoc rpLoc : Bool) : Statement (.ringReset ring en crLoc rpLoc) := of_none rfl
theorem rpHeadWrite (ring : Nat) (value : Word) : Statement (.rpHeadWrite ring value) := of_none rfl
theorem registerWrite (offset : Nat) (value : Word) : Statement (.registerWrite offset value) := of_none rfl
theorem timeLoRead : Statement (.timeLoRead) := of_none rfl
theorem dsmAddrHiWrite (value : Word) : Statement (.dsmAddrHiWrite value) := of_none rfl
theorem statusMirrorWrite : Statement (.statusMirrorWrite) := of_none rfl
theorem bar0UnsupportedAccess (isWrite : Bool) (offset size : Nat) : Statement (.bar0UnsupportedAccess isWrite offset size) := of_none rfl
theorem bar2Access (offset : Nat) (write : Option Bytes) (size : Nat) : Statement (.bar2Access offset write size) := of_none rfl
theorem frameReceive (port : Nat) (frame : Bytes) (fcsBad : Bool) : Statement (.frameReceive port frame fcsBad) := of_none rfl
theorem parse (pipeline : Nat) : Statement (.parse pipeline) := of_none rfl
theorem patternScan (pipeline : Nat) : Statement (.patternScan pipeline) := of_none rfl
theorem lookup (pipeline : Nat) : Statement (.lookup pipeline) := of_none rfl
theorem flowStage (pipeline : Nat) : Statement (.flowStage pipeline) := of_none rfl
theorem flowAgentFetch (stack : Nat) : Statement (.flowAgentFetch stack) := of_none rfl
theorem hotCacheFill (pipeline : Nat) : Statement (.hotCacheFill pipeline) := of_none rfl
theorem lowPartCarry (stack : Nat) : Statement (.lowPartCarry stack) := of_none rfl
theorem hotCacheIdleEvict (slice set way : Nat) : Statement (.hotCacheIdleEvict slice set way) := of_none rfl
theorem wickerEval (pipeline : Nat) : Statement (.wickerEval pipeline) := of_none rfl
theorem verdictMerge (pipeline : Nat) : Statement (.verdictMerge pipeline) := of_none rfl
theorem packetAction (pipeline : Nat) : Statement (.packetAction pipeline) := of_none rfl
theorem learnApply (die : Nat) : Statement (.learnApply die) := of_none rfl
theorem egressAdmission (port : Nat) : Statement (.egressAdmission port) := of_none rfl
theorem barrierRelease (port : Nat) : Statement (.barrierRelease port) := of_none rfl
theorem hostCopyWrite (ring : Nat) : Statement (.hostCopyWrite ring) := of_none rfl
theorem frameTransmit (port : Nat) : Statement (.frameTransmit port) := of_none rfl
theorem pfcPauseEnd (port priority : Nat) : Statement (.pfcPauseEnd port priority) := of_none rfl
theorem shaperRefill : Statement (.shaperRefill) := of_none rfl
theorem portSchedulerRound (port : Nat) : Statement (.portSchedulerRound port) := of_none rfl
theorem gclTakeover (port : Nat) : Statement (.gclTakeover port) := of_none rfl
theorem gateCycleStart (port : Nat) : Statement (.gateCycleStart port) := of_none rfl
theorem queueSamplePeriod : Statement (.queueSamplePeriod) := of_none rfl
theorem fragHoldExpire (entry : Nat) : Statement (.fragHoldExpire entry) := of_none rfl
theorem fragEntryFree (entry : Nat) : Statement (.fragEntryFree entry) := of_none rfl
theorem ageSweepVisit (part slot : Nat) : Statement (.ageSweepVisit part slot) := of_none rfl
theorem flowSweep (index : Nat) : Statement (.flowSweep index) := of_none rfl
theorem placementPeriod : Statement (.placementPeriod) := of_none rfl
theorem bucketMoveDrained (bucket : Nat) : Statement (.bucketMoveDrained bucket) := of_none rfl
theorem bucketMoveDone (bucket : Nat) : Statement (.bucketMoveDone bucket) := of_none rfl
theorem bucketMoveAbandon (bucket : Nat) : Statement (.bucketMoveAbandon bucket) := of_none rfl
theorem holdTimeout (flow : Nat) : Statement (.holdTimeout flow) := of_none rfl
theorem batchTimeout (slot : Nat) : Statement (.batchTimeout slot) := of_none rfl
theorem batchComplete (slot : Nat) : Statement (.batchComplete slot) := of_none rfl
theorem eventEnsembleEval (slot : Nat) : Statement (.eventEnsembleEval slot) := of_none rfl
theorem thresholdPeriod (slot : Nat) : Statement (.thresholdPeriod slot) := of_none rfl
theorem epochRetire (part : Nat) : Statement (.epochRetire part) := of_none rfl
theorem tileCommandStart (cmd tile : Nat) : Statement (.tileCommandStart cmd tile) := of_none rfl
theorem tileCommandComplete (tile : Nat) : Statement (.tileCommandComplete tile) := of_none rfl
theorem poolRoundTimer : Statement (.poolRoundTimer) := of_none rfl
theorem tileDividerStep (tile : Nat) : Statement (.tileDividerStep tile) := of_none rfl
theorem hbmTokenRefill : Statement (.hbmTokenRefill) := of_none rfl
theorem hbmGrant (stack : Nat) (requests : List HbmReq) : Statement (.hbmGrant stack requests) := of_none rfl
theorem fabricFrameSend (link : Nat) : Statement (.fabricFrameSend link) := of_none rfl
theorem fabricFrameReceive (link : Nat) (frame : Bytes) : Statement (.fabricFrameReceive link frame) := of_none rfl
theorem rekeyThreshold (link : Nat) : Statement (.rekeyThreshold link) := of_none rfl
theorem keyCounterExhausted (link : Nat) : Statement (.keyCounterExhausted link) := of_none rfl
theorem fabGapTimeoutExpire (src cls : Nat) : Statement (.fabGapTimeoutExpire src cls) := of_none rfl
theorem hello (link : Nat) (m : Msg) : Statement (.hello link m) := of_none rfl
theorem keyExch (link : Nat) (m : Msg) : Statement (.keyExch link m) := of_none rfl
theorem timeExchangeTimer : Statement (.timeExchangeTimer) := of_none rfl
theorem timeReq (link : Nat) (m : Msg) : Statement (.timeReq link m) := of_none rfl
theorem timeResp (link : Nat) (m : Msg) : Statement (.timeResp link m) := of_none rfl
theorem leave (link : Nat) (m : Msg) : Statement (.leave link m) := of_none rfl
theorem stop (link : Nat) (m : Msg) : Statement (.stop link m) := of_none rfl
theorem flowFetch (m : Msg) : Statement (.flowFetch m) := of_none rfl
theorem flowGrant (m : Msg) : Statement (.flowGrant m) := of_none rfl
theorem flowRecall (m : Msg) : Statement (.flowRecall m) := of_none rfl
theorem recallEvict (index : Nat) : Statement (.recallEvict index) := of_none rfl
theorem flowWriteback (m : Msg) : Statement (.flowWriteback m) := of_none rfl
theorem flowCarry (m : Msg) : Statement (.flowCarry m) := of_none rfl
theorem verdictWrite (m : Msg) : Statement (.verdictWrite m) := of_none rfl
theorem vbyteUpdate (m : Msg) : Statement (.vbyteUpdate m) := of_none rfl
theorem collSeg (m : Msg) : Statement (.collSeg m) := of_none rfl
theorem gradSeg (m : Msg) : Statement (.gradSeg m) := of_none rfl
theorem fabJoinTimeoutExpire : Statement (.fabJoinTimeoutExpire) := of_none rfl
theorem errorEvent (e : ErrIn) : Statement (.errorEvent e) := of_none rfl
theorem procedureEnd : Statement (.procedureEnd) := of_none rfl
theorem darnWatchdogExpire (unit : Nat) : Statement (.darnWatchdogExpire unit) := of_none rfl
theorem pipelineFenceDrainLimit (pipeline : Nat) : Statement (.pipelineFenceDrainLimit pipeline) := of_none rfl
theorem tileFenceForced (tile : Nat) : Statement (.tileFenceForced tile) := of_none rfl
theorem rinseWalkComplete (region : Nat) : Statement (.rinseWalkComplete region) := of_none rfl
theorem inputPowerPresent (slotId : Nat) : Statement (.inputPowerPresent slotId) := of_none rfl
theorem pwrEnRise : Statement (.pwrEnRise) := of_none rfl
theorem perstNRise : Statement (.perstNRise) := of_none rfl
theorem bootDone : Statement (.bootDone) := of_none rfl
theorem startComplete : Statement (.startComplete) := of_none rfl
theorem startFailed : Statement (.startFailed) := of_none rfl
theorem prsntNBreak : Statement (.prsntNBreak) := of_none rfl
theorem vinUnderVoltage : Statement (.vinUnderVoltage) := of_none rfl
theorem vinOverVoltage (mv : Nat) : Statement (.vinOverVoltage mv) := of_none rfl
theorem currentTrip : Statement (.currentTrip) := of_none rfl
theorem railFault : Statement (.railFault) := of_none rfl
theorem thermalTrip : Statement (.thermalTrip) := of_none rfl
theorem pwrEnFall : Statement (.pwrEnFall) := of_none rfl
theorem perstNFall : Statement (.perstNFall) := of_none rfl
theorem removalComplete : Statement (.removalComplete) := of_none rfl
theorem pllLossOfLock : Statement (.pllLossOfLock) := of_none rfl
theorem voltageLoopStep (rail : Nat) (up : Bool) : Statement (.voltageLoopStep rail up) := of_none rfl
theorem frequencyPeriod (power tj : Nat) (marginLow : Bool) : Statement (.frequencyPeriod power tj marginLow) := of_none rfl
theorem eqSave : Statement (.eqSave) := of_none rfl
theorem cartridgeLatchOpen (c : Nat) : Statement (.cartridgeLatchOpen c) := of_none rfl
theorem ppsInEdge : Statement (.ppsInEdge) := of_none rfl
theorem ppsOutPulse : Statement (.ppsOutPulse) := of_none rfl
theorem stopInEdge : Statement (.stopInEdge) := of_none rfl
theorem stopCaptureEnd (unit : Nat) : Statement (.stopCaptureEnd unit) := of_none rfl
theorem tableCompareEnd (table part : Nat) : Statement (.tableCompareEnd table part) := of_none rfl
theorem linkTrainingComplete (link : Nat) : Statement (.linkTrainingComplete link) := of_none rfl
theorem spdmRequest (request : Bytes) : Statement (.spdmRequest request) := of_none rfl
theorem entdaa (address : Nat) : Statement (.entdaa address) := of_none rfl
theorem cartridgeLatchClose (c : Nat) : Statement (.cartridgeLatchClose c) := of_none rfl
theorem laserLocked (c : Nat) : Statement (.laserLocked c) := of_none rfl
theorem laserFault (c : Nat) : Statement (.laserFault c) := of_none rfl

end Sys2Proof.Laws.Opcode
end

