-- ==== Sys2Proof/Tests/Slice0.lean ====
section
/-! SUPPORT. Tests of the model on small states: ill-formed commands that WellFormed refuses, and for every statement of
Certificates/Slice0/Obligations.lean states and operands that meet its hypotheses, clause by clause. -/

namespace Sys2Proof.Tests
open Sys2Proof.Machine

set_option Elab.async false

/-! ### States -/

/-- The state that an outcome leads to, if it is a next state. -/
def out (o : Host.Outcome State Fault Refusal) : Option State := match o with | .next s => some s | _ => none

/-- The reset state in another module state. -/
def modeSt (m : Mode) : State := { State.reset with sys := { State.reset.sys with mode := m } }

/-- The running module. -/
def run : State := modeSt .running

/-- A command of partition p on ring n with flags f. -/
def ctxOf (n p : Nat) (f : Half) : CmdCtx := ⟨.ring n, p, f, 0, 0, 0, 0⟩

/-- A plain command of partition 0 on ring 0. -/
def c0 : CmdCtx := ctxOf 0 0 0

/-- The state at another time. -/
def atTime (t : Nat) (s : State) : State := { s with clk := { s.clk with ft := BitVec.ofNat 64 t } }

/-- The state with a command in flight. -/
def flying (c : CmdCtx) (opc : Nat) (s : State) : State :=
  s.setFlight c.src (s.flight c.src ++ [{ ctx := c, opc := opc }])

/-- A buffer in host memory at 0x1000 that the XE8 reads (0) or writes (1). -/
def hostBuf (n dir : Nat) : Bref := ⟨0x1000, n, 0, dir⟩

/-- The state with bytes in host memory at 0x1000. -/
def withHost (b : Bytes) (s : State) : State := { s with host := memWriteN s.host 0x1000 b }

/-! ### Well-formed commands

One ill-formed command for each check of WellFormed, and a well-formed one at the edge of each. -/

def badBref : Bref := ⟨0, 2 ^ 32, 0, 0⟩
def okBref : Bref := ⟨0, 2 ^ 32 - 1, 255, 255⟩
def okMsg : Msg := ⟨16383, 3, 16383, 3, 2 ^ 32 - 1, 255, 63, 0xffffffff, []⟩
def okErr : ErrIn := ⟨65535, 7, 3, 65535, 255, 0, 0, 0, 0, 0, .nothing⟩
def d48 : Bytes := List.replicate 48 0
def d128 : Bytes := List.replicate 128 0

theorem test_wf_parts_refused :
    (∀ x ∈ [Src.ring 64, .inband 64 0 (zeros 6), .inband 0 32 (zeros 6), .inband 0 0 (zeros 5)], x.wf = false) ∧
    (ctxOf 0 64 0).wf = false ∧ (ctxOf 64 0 0).wf = false ∧
    (∀ b ∈ [badBref, ⟨0, 0, 256, 0⟩, ⟨0, 0, 0, 256⟩], b.wf = false) ∧ Batch.wf (.bref badBref) = false ∧
    Batch.wf (.inline (List.replicate 65505 0)) = false ∧ FlowSel.wf (.key (zeros 63)) = false ∧
    FlowSel.wf (.index (2 ^ 32)) = false ∧
    (∀ m ∈ [{ okMsg with dst := 16384 }, { okMsg with cls := 4 }, { okMsg with src := 16384 }, { okMsg with hop := 4 },
        { okMsg with mseq := 2 ^ 32 }, { okMsg with mtype := 256 }, { okMsg with part := 64 },
        { okMsg with body := List.replicate 65536 0 }], m.wf = false) ∧
    (∀ e ∈ [{ okErr with source := 65536 }, { okErr with kind := 8 }, { okErr with severity := 4 },
        { okErr with unit := 65536 }, { okErr with part := 256 }], e.wf = false) := by decide +kernel

theorem test_wf_parts_accepted :
    (∀ x ∈ [Src.ring 63, .inband 63 31 (zeros 6)], x.wf = true) ∧ (ctxOf 63 63 0xffff).wf = true ∧ okBref.wf = true ∧
    Batch.wf (.bref okBref) = true ∧ Batch.wf (.inline []) = true ∧ FlowSel.wf (.key (zeros 64)) = true ∧
    FlowSel.wf (.index (2 ^ 32 - 1)) = true ∧ okMsg.wf = true ∧ okErr.wf = true := by decide +kernel

def illFormed1 : List Instr :=
    [.nop (ctxOf 64 0 0), .getInfo (ctxOf 64 0 0), .getStatus (ctxOf 64 0 0), .shutdown (ctxOf 64 0 0),
      .epochStatus (ctxOf 64 0 0), .timeRead (ctxOf 64 0 0), .fabricLeave (ctxOf 64 0 0),
      .fabricStatus (ctxOf 64 0 0), .start (ctxOf 64 0 0) 0, .start c0 256, .ringBind (ctxOf 64 0 0) 0 0,
      .ringBind c0 256 0, .ringBind c0 0 256, .fieldRead (ctxOf 64 0 0) 0 0, .fieldRead c0 (2 ^ 32) 0,
      .fieldRead c0 0 65536, .fieldWrite (ctxOf 64 0 0) 0 0 [], .fieldWrite c0 (2 ^ 32) 0 [],
      .fieldWrite c0 0 65536 [], .fieldWrite c0 0 0 (List.replicate 8188 0), .sketchClear (ctxOf 64 0 0) 0 0,
      .sketchClear c0 256 0, .wkThrSet (ctxOf 64 0 0) 0 0, .wkThrSet c0 256 0, .fwStage (ctxOf 64 0 0) 0 okBref d48,
      .fwStage c0 0 badBref d48, .fwStage c0 256 okBref d48, .fwStage c0 0 okBref (zeros 47),
      .fwActivate (ctxOf 64 0 0) 0, .fwActivate c0 256, .tableRead (ctxOf 64 0 0) 0 0 0 0 none,
      .tableRead c0 256 0 0 0 none, .tableRead c0 0 256 0 0 none, .tableRead c0 0 0 (2 ^ 32) 0 none,
      .tableRead c0 0 0 0 (2 ^ 32) none, .tableRead c0 0 0 0 0 (some badBref), .tableRebuild (ctxOf 64 0 0) 0,
      .tableRebuild c0 256, .tableCommit (ctxOf 64 0 0) 0, .tableCommit c0 256, .tableAbort (ctxOf 64 0 0) 0,
      .tableAbort c0 256, .tableCompare (ctxOf 64 0 0) 0 okBref, .tableCompare c0 0 badBref,
      .tableCompare c0 256 okBref, .ruleWrite (ctxOf 64 0 0) 0 0 0 (.inline []), .ruleWrite c0 0 0 0 (.bref badBref),
      .ruleWrite c0 256 0 0 (.inline []), .ruleWrite c0 0 256 0 (.inline []),
      .ruleWrite c0 0 0 (2 ^ 32) (.inline []), .ruleDelete (ctxOf 64 0 0) 0 0 (.inline []),
      .ruleDelete c0 0 0 (.bref badBref), .ruleDelete c0 256 0 (.inline []), .ruleDelete c0 0 (2 ^ 32) (.inline []),
      .flowRead (ctxOf 64 0 0) (.index 3), .flowRead c0 (.index (2 ^ 32)), .flowDelete (ctxOf 64 0 0) (.index 3),
      .flowDelete c0 (.index (2 ^ 32)), .flowWrite (ctxOf 64 0 0) (.index 3) 0 [],
      .flowWrite c0 (.index (2 ^ 32)) 0 [], .flowWrite c0 (.index 3) 0 (List.replicate 8188 0),
      .sketchRead (ctxOf 64 0 0) 0 0 0 0 none, .sketchRead c0 256 0 0 0 none, .sketchRead c0 0 256 0 0 none,
      .sketchRead c0 0 0 (2 ^ 32) 0 none, .sketchRead c0 0 0 0 (2 ^ 32) none, .sketchRead c0 0 0 0 0 (some badBref),
      .heavyRead (ctxOf 64 0 0) 0 0, .heavyRead c0 (2 ^ 32) 0, .heavyRead c0 0 (2 ^ 32)]

def illFormed2 : List Instr :=
    [.bucketRead (ctxOf 64 0 0) 0 0, .bucketRead c0 65536 0, .bucketRead c0 0 65536, .bucketMove (ctxOf 64 0 0) 0 0,
      .bucketMove c0 65536 0, .bucketMove c0 0 256, .modelLoad (ctxOf 64 0 0) 0 okBref, .modelLoad c0 0 badBref,
      .modelLoad c0 256 okBref, .modelUnload (ctxOf 64 0 0) 0, .modelUnload c0 256, .threshRead (ctxOf 64 0 0) 0,
      .threshRead c0 256, .epochCommit (ctxOf 64 0 0) 0 0, .epochCommit c0 256 0,
      .tensorWrite (ctxOf 64 0 0) d128 okBref, .tensorWrite c0 d128 badBref, .tensorWrite c0 (zeros 127) okBref,
      .tensorRead (ctxOf 64 0 0) d128 okBref, .tensorRead c0 d128 badBref, .tensorRead c0 (zeros 127) okBref,
      .tileRun (ctxOf 64 0 0) okBref 0, .tileRun c0 badBref 0, .tileRun c0 okBref 65536,
      .trainStep (ctxOf 64 0 0) 0 okBref 0, .trainStep c0 0 badBref 0, .trainStep c0 256 okBref 0,
      .meterWrite (ctxOf 64 0 0) 0 0 0 0 0 0, .meterWrite c0 65536 0 0 0 0 0, .meterWrite c0 0 0 (2 ^ 32) 0 0 0,
      .meterWrite c0 0 0 0 (2 ^ 32) 0 0, .meterWrite c0 0 0 0 0 (2 ^ 32) 0, .meterWrite c0 0 0 0 0 0 (2 ^ 32),
      .meterRead (ctxOf 64 0 0) 0, .meterRead c0 65536, .gclWrite (ctxOf 64 0 0) 0 0 0 [], .gclWrite c0 256 0 0 [],
      .gclWrite c0 0 0 (2 ^ 32) [], .gclWrite c0 0 0 0 [(0, 2 ^ 32)], .gclRead (ctxOf 64 0 0) 0 0 0 none,
      .gclRead c0 256 0 0 none, .gclRead c0 0 256 0 none, .gclRead c0 0 0 (2 ^ 32) none,
      .gclRead c0 0 0 0 (some badBref), .queueSample (ctxOf 64 0 0) 0 0, .queueSample c0 65536 0,
      .queueSample c0 0 65536, .hostpktRing (ctxOf 64 0 0) 0 okBref 0, .hostpktRing c0 0 badBref 0,
      .hostpktRing c0 256 okBref 0, .hostpktRing c0 0 okBref (2 ^ 32), .timeAdjust (ctxOf 64 0 0) 0 0,
      .timeAdjust c0 (2 ^ 63) 0, .timeAdjust c0 (-2 ^ 63 - 1) 0, .timeAdjust c0 0 (2 ^ 31),
      .timeAdjust c0 0 (-2 ^ 31 - 1), .fabricJoin (ctxOf 64 0 0) 0 0, .fabricJoin c0 65536 0,
      .linkRekey (ctxOf 64 0 0) 0, .linkRekey c0 256, .flowHomeSet (ctxOf 64 0 0) 0 0 0, .flowHomeSet c0 65536 0 0,
      .flowHomeSet c0 0 65536 0, .flowHomeSet c0 0 0 65536, .collectiveRun (ctxOf 64 0 0) 0 okBref d128,
      .collectiveRun c0 0 badBref d128, .collectiveRun c0 256 okBref d128, .collectiveRun c0 0 okBref (zeros 127),
      .timeOffsets (ctxOf 64 0 0) 0 0, .timeOffsets c0 65536 0]

def illFormed3 : List Instr :=
    [.timeOffsets c0 0 65536, .partCreate (ctxOf 64 0 0) 0 d48 okBref, .partCreate c0 0 d48 badBref,
      .partCreate c0 256 d48 okBref, .partCreate c0 0 (zeros 47) okBref, .partDestroy (ctxOf 64 0 0) 0,
      .partDestroy c0 256, .partReset (ctxOf 64 0 0) 0, .partReset c0 256, .partQuery (ctxOf 64 0 0) 0,
      .partQuery c0 256, .keyRotate (ctxOf 64 0 0) 0, .keyRotate c0 256, .keyStatus (ctxOf 64 0 0) 0,
      .keyStatus c0 256, .cmdKeySet (ctxOf 64 0 0) [], .cmdKeySet c0 (List.replicate 65505 0),
      .attestReport (ctxOf 64 0 0) (zeros 32) okBref, .attestReport c0 (zeros 32) badBref,
      .attestReport c0 (zeros 31) okBref, .certChain (ctxOf 64 0 0) okBref, .certChain c0 badBref,
      .traceRead (ctxOf 64 0 0) okBref, .traceRead c0 badBref, .wringScanout (ctxOf 64 0 0) okBref,
      .wringScanout c0 badBref, .traceConfig (ctxOf 64 0 0) 0 okBref, .traceConfig c0 0 badBref,
      .profileRead (ctxOf 64 0 0) 0, .wringStop (ctxOf 64 0 0) 0, .wringStop c0 256, .errorRead (ctxOf 64 0 0) 0 0,
      .errorRead c0 (2 ^ 32) 0, .errorRead c0 0 65536, .errorAck (ctxOf 64 0 0) 0, .errorAck c0 (2 ^ 32),
      .windowSet (ctxOf 64 0 0) 0 0 0, .windowSet c0 65536 0 0, .windowSet c0 0 (2 ^ 32) 0,
      .windowSet c0 0 0 (2 ^ 32), .unitFence (ctxOf 64 0 0) 0, .unitFence c0 65536, .unitUnfence (ctxOf 64 0 0) 0,
      .unitUnfence c0 65536, .errorInject (ctxOf 64 0 0) 0 0, .errorInject c0 65536 0, .errorInject c0 0 256,
      .crTailWrite 64 0, .commandTimeout 64 0, .rpHeadWrite 64 0, .commandFetch 64, .hostCopyWrite 64,
      .ringEnable 64 true true, .ringDisable 64 true true, .ringReset 64 true true true, .registerWrite 131072 0,
      .registerWrite 2 0, .frameReceive 32 [] true, .frameReceive 0 (List.replicate 65536 0) true, .parse 16,
      .patternScan 16, .lookup 16, .flowStage 16, .hotCacheFill 16, .wickerEval 16, .verdictMerge 16,
      .packetAction 16, .pipelineFenceDrainLimit 16, .flowAgentFetch 6, .lowPartCarry 6]

def illFormed4 : List Instr :=
    [.hotCacheIdleEvict 16 0 0, .hotCacheIdleEvict 0 4096 0, .hotCacheIdleEvict 0 0 16, .learnApply 2,
      .egressAdmission 32, .barrierRelease 32, .frameTransmit 32, .portSchedulerRound 32, .gclTakeover 32,
      .gateCycleStart 32, .pfcPauseEnd 32 0, .pfcPauseEnd 0 8, .fragHoldExpire 65536, .fragEntryFree 65536,
      .ageSweepVisit 64 0, .ageSweepVisit 0 2097152, .flowSweep 16777216, .holdTimeout (2 ^ 39),
      .recallEvict (2 ^ 39), .bucketMoveDrained 65536, .bucketMoveDone 65536, .bucketMoveAbandon 65536,
      .batchTimeout 256, .batchComplete 256, .eventEnsembleEval 256, .thresholdPeriod 256, .epochRetire 64,
      .tileCommandStart 0 32, .tileCommandComplete 32, .tileDividerStep 32, .tileFenceForced 32, .hbmGrant 6 [],
      .hbmGrant 0 [⟨some 64, 1⟩], .fabricFrameSend 32, .rekeyThreshold 32, .keyCounterExhausted 32,
      .linkTrainingComplete 32, .fabricFrameReceive 32 [], .fabricFrameReceive 0 (List.replicate 65536 0),
      .fabGapTimeoutExpire 16384 0, .fabGapTimeoutExpire 0 4, .hello 0 { okMsg with cls := 4 }, .hello 32 okMsg,
      .keyExch 0 { okMsg with cls := 4 }, .keyExch 32 okMsg, .timeReq 0 { okMsg with cls := 4 }, .timeReq 32 okMsg,
      .timeResp 0 { okMsg with cls := 4 }, .timeResp 32 okMsg, .leave 0 { okMsg with cls := 4 }, .leave 32 okMsg,
      .stop 0 { okMsg with cls := 4 }, .stop 32 okMsg, .flowFetch { okMsg with cls := 4 },
      .flowGrant { okMsg with cls := 4 }, .flowRecall { okMsg with cls := 4 },
      .flowWriteback { okMsg with cls := 4 }, .flowCarry { okMsg with cls := 4 },
      .verdictWrite { okMsg with cls := 4 }, .vbyteUpdate { okMsg with cls := 4 }, .collSeg { okMsg with cls := 4 },
      .gradSeg { okMsg with cls := 4 }, .errorEvent { okErr with kind := 8 }, .darnWatchdogExpire 65536,
      .rinseWalkComplete 256, .inputPowerPresent 64, .vinOverVoltage (2 ^ 32), .voltageLoopStep 4 true,
      .frequencyPeriod 65536 0 true]

def illFormed5 : List Instr :=
    [.frequencyPeriod 0 256 true, .cartridgeLatchOpen 4, .cartridgeLatchClose 4, .laserLocked 4, .laserFault 4,
      .stopCaptureEnd 64, .tableCompareEnd 256 0, .tableCompareEnd 0 64, .spdmRequest (List.replicate 65537 0),
      .entdaa 128]

def wellFormed1 : List Instr :=
    [.nop c0, .getInfo c0, .getStatus c0, .shutdown c0, .epochStatus c0, .timeRead c0, .fabricLeave c0,
      .fabricStatus c0, .start c0 0, .ringBind c0 0 0, .fieldRead c0 0 0, .fieldWrite c0 0 0 [], .sketchClear c0 0 0,
      .wkThrSet c0 0 0, .fwStage c0 0 okBref d48, .fwActivate c0 0, .tableRead c0 0 0 0 0 none, .tableRebuild c0 0,
      .tableCommit c0 0, .tableAbort c0 0, .tableCompare c0 0 okBref, .ruleWrite c0 0 0 0 (.inline []),
      .ruleDelete c0 0 0 (.inline []), .flowRead c0 (.index 3), .flowDelete c0 (.index 3),
      .flowWrite c0 (.index 3) 0 [], .sketchRead c0 0 0 0 0 none, .heavyRead c0 0 0, .bucketRead c0 0 0,
      .bucketMove c0 0 0, .modelLoad c0 0 okBref, .modelUnload c0 0, .threshRead c0 0, .epochCommit c0 0 0,
      .tensorWrite c0 d128 okBref, .tensorRead c0 d128 okBref, .tileRun c0 okBref 0, .trainStep c0 0 okBref 0,
      .meterWrite c0 0 0 0 0 0 0, .meterRead c0 0, .gclWrite c0 0 0 0 [], .gclRead c0 0 0 0 none,
      .queueSample c0 0 0, .hostpktRing c0 0 okBref 0, .timeAdjust c0 0 0, .fabricJoin c0 0 0, .linkRekey c0 0,
      .flowHomeSet c0 0 0 0, .collectiveRun c0 0 okBref d128, .timeOffsets c0 0 0, .partCreate c0 0 d48 okBref,
      .partDestroy c0 0, .partReset c0 0, .partQuery c0 0, .keyRotate c0 0, .keyStatus c0 0, .cmdKeySet c0 [],
      .attestReport c0 (zeros 32) okBref, .certChain c0 okBref, .traceRead c0 okBref, .wringScanout c0 okBref,
      .traceConfig c0 0 okBref, .profileRead c0 0, .wringStop c0 0, .errorRead c0 0 0, .errorAck c0 0,
      .windowSet c0 0 0 0, .unitFence c0 0, .unitUnfence c0 0, .errorInject c0 0 0]

def wellFormed2 : List Instr :=
    [.crTailWrite 0 0, .commandTimeout 0 0, .rpHeadWrite 0 0, .commandFetch 0, .hostCopyWrite 0,
      .ringEnable 0 true true, .ringDisable 0 true true, .ringReset 0 true true true, .registerWrite 0 0,
      .timeLoRead, .dsmAddrHiWrite 0, .statusMirrorWrite, .frameReceive 0 [] true, .parse 0, .patternScan 0,
      .lookup 0, .flowStage 0, .hotCacheFill 0, .wickerEval 0, .verdictMerge 0, .packetAction 0,
      .pipelineFenceDrainLimit 0, .flowAgentFetch 0, .lowPartCarry 0, .hotCacheIdleEvict 0 0 0, .learnApply 0,
      .egressAdmission 0, .barrierRelease 0, .frameTransmit 0, .portSchedulerRound 0, .gclTakeover 0,
      .gateCycleStart 0, .pfcPauseEnd 0 0, .shaperRefill, .queueSamplePeriod, .placementPeriod, .poolRoundTimer,
      .hbmTokenRefill, .timeExchangeTimer, .fabJoinTimeoutExpire, .procedureEnd, .fragHoldExpire 0, .fragEntryFree 0,
      .ageSweepVisit 0 0, .flowSweep 0, .holdTimeout 0, .recallEvict 0, .bucketMoveDrained 0, .bucketMoveDone 0,
      .bucketMoveAbandon 0, .batchTimeout 0, .batchComplete 0, .eventEnsembleEval 0, .thresholdPeriod 0,
      .epochRetire 0, .tileCommandStart 0 0, .tileCommandComplete 0, .tileDividerStep 0, .tileFenceForced 0,
      .hbmGrant 0 [], .fabricFrameSend 0, .rekeyThreshold 0, .keyCounterExhausted 0, .linkTrainingComplete 0,
      .fabricFrameReceive 0 [], .fabGapTimeoutExpire 0 0, .hello 0 okMsg, .keyExch 0 okMsg, .timeReq 0 okMsg,
      .timeResp 0 okMsg]

def wellFormed3 : List Instr :=
    [.leave 0 okMsg, .stop 0 okMsg, .flowFetch okMsg, .flowGrant okMsg, .flowRecall okMsg, .flowWriteback okMsg,
      .flowCarry okMsg, .verdictWrite okMsg, .vbyteUpdate okMsg, .collSeg okMsg, .gradSeg okMsg, .errorEvent okErr,
      .darnWatchdogExpire 0, .rinseWalkComplete 0, .inputPowerPresent 0, .pwrEnRise, .perstNRise, .bootDone,
      .startComplete, .startFailed, .prsntNBreak, .vinUnderVoltage, .currentTrip, .railFault, .thermalTrip,
      .pwrEnFall, .perstNFall, .removalComplete, .pllLossOfLock, .eqSave, .ppsInEdge, .ppsOutPulse, .stopInEdge,
      .vinOverVoltage 0, .voltageLoopStep 0 true, .frequencyPeriod 0 0 true, .cartridgeLatchOpen 0,
      .cartridgeLatchClose 0, .laserLocked 0, .laserFault 0, .stopCaptureEnd 0, .tableCompareEnd 0 0,
      .spdmRequest [], .entdaa 0]

def illFormed6 : List Instr :=
    [.patternLoad (ctxOf 64 0 0) okBref d48, .patternLoad c0 badBref d48, .patternLoad c0 okBref [],
      .parseGraphLoad (ctxOf 64 0 0) okBref d48, .parseGraphLoad c0 badBref d48, .parseGraphLoad c0 okBref (zeros 49),
      .tableWrite (ctxOf 64 0 0) 0 0 0 (.inline []), .tableWrite c0 256 0 0 (.inline []), .tableWrite c0 0 256 0 (.inline []),
      .tableDelete c0 0 0 (2 ^ 32) (.inline []), .tableDelete c0 0 0 0 (.bref badBref),
      .counterRead (ctxOf 64 0 0) 0 0 0, .counterRead c0 65536 0 0, .counterRead c0 0 (2 ^ 32) 0,
      .counterSampleReset c0 0 0 65536, .shaperWrite (ctxOf 64 0 0) 0 0 0 0, .shaperWrite c0 65536 0 0 0,
      .shaperWrite c0 0 128 0 0, .shaperWrite c0 0 (-129) 0 0, .shaperWrite c0 0 0 (2 ^ 32) 0, .shaperWrite c0 0 0 0 (2 ^ 32),
      .bar0UnsupportedAccess true 131072 3, .bar0UnsupportedAccess true 0 0, .bar0UnsupportedAccess true 8 4,
      .bar0UnsupportedAccess true 8 8, .bar2Access (2 ^ 31) none 4, .bar2Access 0 (some [1]) 2]

def wellFormed4 : List Instr :=
    [.patternLoad c0 okBref d48, .parseGraphLoad c0 okBref d48, .tableWrite c0 255 255 (2 ^ 32 - 1) (.inline []),
      .tableDelete c0 255 255 (2 ^ 32 - 1) (.bref okBref), .counterRead c0 65535 (2 ^ 32 - 1) 65535,
      .counterSampleReset c0 65535 (2 ^ 32 - 1) 65535, .shaperWrite c0 65535 (-128) (2 ^ 32 - 1) (2 ^ 32 - 1),
      .shaperWrite c0 0 127 0 0, .bar0UnsupportedAccess true 131071 3, .bar0UnsupportedAccess true 4 8,
      .bar2Access (2 ^ 31 - 1) (some [1]) 1]

theorem test_wf_refuses :
    ∀ i ∈ illFormed1 ++ illFormed2 ++ illFormed3 ++ illFormed4 ++ illFormed5 ++ illFormed6, i.wf = false := by decide +kernel

theorem test_wf_accepts :
    ∀ i ∈ wellFormed1 ++ wellFormed2 ++ wellFormed3 ++ wellFormed4, i.wf = true := by decide +kernel

/-! ### Witnesses: the step, commands and replies -/

theorem test_hyp_StepRunsFront : ∃ (i : Instr) (rest : List Instr) (s : State), s.pending = i :: rest :=
  ⟨.eqSave, [.pwrEnFall], { run with pending := [.eqSave, .pwrEnFall] }, rfl⟩

theorem test_hyp_IdleTicks : ∃ s : State, s.pending = [] ∧ nextStart s = none ∧ waiting (tick s) = [] ∧ s.fab.inbox = [] ∧
    (∀ e ∈ s.tabs.entries, e.leaving = false) ∧ walks s = [] ∧ wipes s = [] ∧ (∀ k ∈ s.pkts, k.inStage = false) ∧
    s.egr.tx = [(3, ⟨zeros 64, 384, 625⟩)] ∧ (625 : Nat) ≤ (tick s).pkPs :=
  ⟨{ run with egr := { run.egr with tx := [(3, ⟨zeros 64, 384, 625⟩)] } }, by decide +kernel⟩

theorem test_hyp_IdentifyAndNotReady :
    (Ready 0x001 (modeSt .waitStart) ∧ Ready 0x002 (modeSt .safe) ∧ Ready 0x003 (modeSt .fatal)) ∧
    ((modeSt .waitStart).sys.mode.hasHost = true ∧ opcodeRuns (modeSt .waitStart).sys.mode 0x311 = false) ∧
    (∃ (c : CmdCtx) (id count : Nat) (s : State), s.sys.mode.hasHost = true ∧ opcodeRuns s.sys.mode 0x030 = false ∧
      fieldReadCheck (beginCmd c 0x030 s) c.part id count = none) ∧
    (∃ (c : CmdCtx) (r : Nat) (s : State), s.sys.mode = .running ∧ s.sys.rotBusy = true ∧
      regionCheck c r (beginCmd c 0x611 s) = none) ∧
    (modeSt .boot).sys.mode.hasHost = false :=
  ⟨by decide +kernel, by decide +kernel, ⟨c0, fieldId .placePeriod 0, 1, modeSt .stopped, by decide +kernel⟩,
    ⟨c0, 0, { run with sys := { run.sys with rotBusy := true } }, by decide +kernel⟩, by decide +kernel⟩

theorem test_hyp_RingBindAndFirmware :
    (∃ (c : CmdCtx) (n p : Nat) (s : State), Ready 0x020 s ∧ c.part = 0 ∧ n ≤ 63 ∧ p ≤ 63 ∧ (s.part p).state ≠ 0 ∧
      (s.part p).state ≠ 4 ∧ (s.ring n).en = false ∧ ¬ ((s.part p).cmdKey.isSome = true ∧ (s.part p).sealGen = 0xffff)) ∧
    (∃ (c : CmdCtx) (k : Nat) (d : Bref) (dig : Bytes) (s : State), Ready 0x040 s ∧ c.part = 0 ∧ 1 ≤ k ∧ k ≤ 4 ∧
      s.sys.fw.length = 5 ∧ brefStatus c d 0 d.size (beginCmd c 0x040 s) = none ∧
      sha384 (brefRead c d d.size (brefCharge c d d.size (beginCmd c 0x040 s))) = dig) ∧
    ∃ (c : CmdCtx) (k : Nat) (s : State), Ready 0x041 s ∧ c.part = 0 ∧ 1 ≤ k ∧ k ≤ 4 ∧ s.sys.fw.length = 5 ∧
      (nth {} s.sys.fw k).state ≠ 0 :=
  ⟨⟨c0, 63, 63, run.modPart 63 (fun x => { x with state := 1 }), by decide +kernel⟩,
    ⟨c0, 4, hostBuf 3 0, sha384 [1, 2, 3], withHost [1, 2, 3] run, by decide +kernel⟩,
    ⟨c0, 1, { run with sys := { run.sys with fw := [{}, { state := 1 }, {}, {}, {}] } }, by decide +kernel⟩⟩

/-- A ring whose reply ring lies in host memory, with a command alone in flight. -/
def oneFlying : State := flying c0 1 (run.setRing 0 { rpBase := 0x8000, rhwAddr := 0x4000, rpWrite := 0x1fe0 })

theorem test_hyp_ReplyIsWritten : ∃ (c : CmdCtx) (n : Nat) (s : State) (e : InFlight) (st : Status) (body : Bytes),
    c.src = .ring n ∧ (s.ring n).inFlight = [e] ∧ e.ctx = c ∧ e.reply = none ∧ e.drainAt = none ∧ (s.ring n).rpLoc = false ∧
    ceilDiv (replyBytes e { status := st.code, rflags := 0, ft := s.now, order := 0, body := body }).length 32 * 32
      ≤ (s.ring n).rpSize :=
  ⟨c0, 0, oneFlying, { ctx := c0, opc := 1 }, .ok, zeros 40, by decide +kernel⟩

theorem test_hyp_RepliesKeepOrder : ∃ (c : CmdCtx) (s : State) (first e : InFlight), s.flight c.src = [first, e] ∧
    first.reply = none ∧ first.ctx ≠ c ∧ e.ctx = c ∧ e.reply = none ∧ e.drainAt = none ∧ (c.unordered = false ∨ first.ctx.fence = true) :=
  ⟨{ c0 with seq := 1 }, flying { c0 with seq := 1 } 1 oneFlying, { ctx := c0, opc := 1 }, { ctx := { c0 with seq := 1 }, opc := 1 },
    by decide +kernel⟩

/-! ### Witnesses: the host window -/

theorem test_hyp_OffsetWrites : (modeSt .fatal).sys.mode.hasHost = true := by decide +kernel

/-- A command ring of 4 KiB in host memory; its partition is active. -/
def ringSt : State := run.setRing 5 { crBase := 0x20000, rpBase := 0x30000 }

theorem test_hyp_RingControl :
    (∃ (n : Nat) (s : State), s.sys.mode.hasHost = true ∧ (s.ring n).en = false ∧
      enableOk n (s.setRing n { s.ring n with crLoc := false, rpLoc := false }) = true) ∧
    (∃ (n : Nat) (s : State), s.sys.mode.hasHost = true ∧ (s.ring n).en = false ∧
      enableOk n (s.setRing n { s.ring n with crLoc := false, rpLoc := false }) = false) ∧
    (∃ (n : Nat) (s : State), s.sys.mode.hasHost = true ∧ genExhausted s (s.ring n).part = false) ∧
    ∃ (n : Nat) (s : State), s.sys.mode.hasHost = true ∧ (s.ring n).en = true :=
  ⟨⟨5, ringSt, by decide +kernel⟩, ⟨5, ringSt.setRing 5 { crSizeLog := 31 }, by decide +kernel⟩, ⟨5, ringSt, by decide +kernel⟩,
    ⟨5, ringSt.setRing 5 { en := true }, by decide +kernel⟩⟩

theorem test_hyp_RegisterAccesses : ∃ (n : Nat) (v : Word) (s : State), s.sys.mode.hasHost = true ∧ n ≤ 63 ∧ (s.ring n).en = true ∧
    v.getLsbD 9 = true ∧ (State.reset.ring n).en = false ∧ (0 : Word).getLsbD 9 = false :=
  ⟨63, 0x200, run.setRing 63 { en := true }, by decide +kernel⟩

/-- The status mirror at 0x5000. -/
def mirrorSt : State := { run with sys := { run.sys with dsmAddr := 0x5000, dsmLo := 0x5000 } }

theorem test_hyp_MirrorAndWindow :
    (∃ s : State, s.sys.mode.hasHost = true ∧ Mem.wf s.host = true ∧ mirrorDue s = true) ∧
    (∃ s : State, s.sys.mode.hasHost = true ∧ Mem.wf s.host = true ∧ mirrorDue s = false) ∧
    (∃ s : State, s.sys.mode.hasHost = true ∧ Mem.wf s.host = true ∧ mirrorFree s = false) ∧
    mirrorFree run = true ∧
    (∃ (o n : Nat) (b : Bytes) (s : State), s.sys.mode.hasHost = true ∧ b.length = n ∧ bar2Addr s o true ≠ none) ∧
    ∃ (o : Nat) (s : State), s.sys.mode.hasHost = true ∧ bar2Addr s o false = none :=
  ⟨⟨mirrorSt, by decide +kernel⟩, ⟨run, by decide +kernel⟩,
    ⟨atTime 500 { run with sys := { run.sys with dsmLast := some 0 } }, by decide +kernel⟩, by decide +kernel,
    ⟨0, 4, [1, 2, 3, 4], run.setRing 0 { crLoc := true, en := true }, by decide +kernel⟩,
    ⟨8192, run.setRing 0 { crLoc := true, en := true }, by decide +kernel⟩⟩

/-- A NOP command with a sequence number. -/
def nopBytes (seq : Nat) (badCrc : Bool) : Bytes :=
  let h : CmdHead := ⟨1, 1, 0, BitVec.ofNat 32 seq, 0, 0, 0, 0, 0, 0, 0, 0⟩
  headBytes { h with crc := commandCrc (headBytes h) + (if badCrc then 1 else 0) }

/-- Ring 5 with one command at its front. -/
def fetchSt (b : Bytes) : State :=
  { (run.setRing 5 { crBase := 0x20000, rpBase := 0x30000, en := true, crTail := 32 }) with host := memWriteN [] 0x20000 b }

/-- What FetchTakesCommand asks of ring 5. -/
def fetchHyp (s : State) : Bool :=
  let r := s.ring 5
  let h := readHead (ringGet s false r.part r.crBase.toNat r.crSize r.crHead 32)
  fetchable 5 s && r.inFlight.isEmpty && !r.crLoc && !r.rpLoc && s.fact .partCmdSeal r.part != 1 && h.ver == 1
    && decide (h.len ≤ 8188) && decide (ceilDiv (32 + 8 * h.len) 32 * 32 ≤ (r.crTail - r.crHead).toNat)

theorem test_hyp_FetchTakesCommand :
    (fetchHyp (fetchSt (nopBytes 0 false)) = true ∧ commandCrc (nopBytes 0 false) = (readHead (nopBytes 0 false)).crc ∧
      (readHead (nopBytes 0 false)).seq = ((fetchSt (nopBytes 0 false)).ring 5).expSeq ∧
      decodeCommand (fetchSt (nopBytes 0 false)) (readHead (nopBytes 0 false)) (ctxOf 5 0 0) 0 [] = .cmd (.nop (ctxOf 5 0 0))) ∧
    (fetchHyp (fetchSt (nopBytes 0 true)) = true ∧ commandCrc (nopBytes 0 true) ≠ (readHead (nopBytes 0 true)).crc) ∧
    (fetchHyp (fetchSt (nopBytes 7 false)) = true ∧ commandCrc (nopBytes 7 false) = (readHead (nopBytes 7 false)).crc ∧
      (readHead (nopBytes 7 false)).seq ≠ ((fetchSt (nopBytes 7 false)).ring 5).expSeq) := by decide +kernel

/-! ### Witnesses: configuration fields -/

/-- Field IDs used below. -/
def idHold : Nat := fieldId .fragHoldTime 0

theorem test_hyp_FieldWritesAllOrNone :
    (∃ (c : CmdCtx) (id count : Nat) (vals : List DWord) (s : State), Ready 0x031 s ∧
      fieldWriteCheck (beginCmd c 0x031 s) c.part id count vals = none ∧ clearsSketch id vals = false ∧
      (∀ k < count, ∀ x ∈ fieldAt (id + k), x.1.cls ≠ .wo ∧ x.1.name ∉ [FName.portEn, .portGraph, .hhEntries,
       .tileOwner, .agePeriod, .gateEn, .partEn, .lsrEn, .tclkCtrl, .ppsCtrl, .batchMax, .tileShare, .tileEn, .sketchEn,
       .eqFreeze])) ∧
    (∃ (c : CmdCtx) (id count : Nat) (vals : List DWord) (s : State), Ready 0x031 s ∧
      fieldWriteCheck (beginCmd c 0x031 s) c.part id count vals = none ∧ clearsSketch id vals = true ∧ PathEmpty s ∧ Fresh c s) ∧
    ([] : List DWord).length ≠ 511 ∧ fieldAt 0 = none ∧
    (∃ (c : CmdCtx) (s : State) (id : Nat) (r : FRow) (i : Nat), s.sys.mode.hasHost = true ∧ fieldAt id = some (r, i) ∧
      r.cls ≠ .ro ∧ mayWrite (beginCmd c 0x031 s) c.part r i = false) ∧
    (∃ (c : CmdCtx) (s : State) (id : Nat) (r : FRow) (i : Nat) (v : DWord), s.sys.mode.hasHost = true ∧
      fieldAt id = some (r, i) ∧ r.cls ≠ .ro ∧ mayWrite (beginCmd c 0x031 s) c.part r i = true ∧
      v.toNat &&& r.mask ≠ v.toNat) ∧
    ∃ (c : CmdCtx) (s : State) (id : Nat) (r : FRow) (i : Nat) (v : DWord), s.sys.mode.hasHost = true ∧
      fieldAt id = some (r, i) ∧ r.cls = .static ∧ mayWrite (beginCmd c 0x031 s) c.part r i = true ∧
      valueOk (beginCmd c 0x031 s) (newValues (beginCmd c 0x031 s) id [v]) r i v.toNat = true ∧
      ownerEnabled (beginCmd c 0x031 s) r i = true ∧ Ready 0x031 s :=
  ⟨⟨c0, idHold, 3, [1, 30, 0x40], run, by decide +kernel⟩, ⟨c0, fieldId .sketchClear 3, 1, [1], run, by decide +kernel⟩, by decide +kernel, by decide +kernel,
    ⟨ctxOf 1 3 0, run, idHold, rowOf .fragHoldTime, 0, by decide +kernel⟩,
    ⟨c0, run, idHold, rowOf .fragHoldTime, 0, 0x10000, by decide +kernel⟩,
    ⟨c0, run.setField .portEn 3 1, fieldId .portMaxFrame 3, rowOf .portMaxFrame, 3, 2000, by decide +kernel⟩⟩

theorem test_hyp_FieldWriteActs :
    (Ready 0x031 (run.modPart 63 (fun x => { x with state := 1 })) ∧
      fieldWriteCheck (beginCmd c0 0x031 (run.modPart 63 (fun x => { x with state := 1 }))) 0 (fieldId .partEn 63) 1 [1] = none) ∧
    (Ready 0x031 run ∧ fieldWriteCheck (beginCmd c0 0x031 run) 0 (fieldId .portEn 31) 1 [1] = none ∧ run.fval .portEn 31 = 0 ∧
      31 ∉ run.intake.repaired ∧ 31 ∈ (State.intake { run with intake := { run.intake with repaired := [31] } }).repaired) ∧
    fieldWriteCheck (beginCmd c0 0x031 run) 0 (fieldId .lsrEn 3) 1 [0] = none := by decide +kernel

/-- A slot with a per-packet ensemble of one output whose threshold moves between -100 and 100. -/
def wkEns : Ensemble :=
  { event := false, nanTrap := false, escEn := false, nOut := 1, budget := 64, outShift := 0, escSlot := 0, thrInit := 0,
    thrMin := -100, thrMax := 100, stepInit := 4, escMargin := 0, classAct := [0, 1], roots := [(0, 0)],
    nodes := [{ kind := 3, feature := 0, value := 5, left := 0, right := 0 }] }

/-- The running module with that ensemble in slot n. -/
def wkSt (n : Nat) : State :=
  run.setSlot n { state := 2, kind := 1, ens := some wkEns, thr := { theta := 0, step := 4, dir := 1, n := 2048, a := 2048, period := 100 } }

theorem test_hyp_FieldActionsAndReads :
    (Ready 0x031 run ∧ PathEmpty run ∧ Fresh c0 run ∧ fieldWriteCheck (beginCmd c0 0x031 run) 0 (0x1b10 + 3) 1 [1] = none) ∧
    (Ready 0x031 (wkSt 0) ∧ fieldWriteCheck (beginCmd c0 0x031 (wkSt 0)) 0 (0x2000 + 0) 1 [0x7fffffff] = none ∧
      thrBounds ((wkSt 0).slot 0) = some (-100, 100, 4)) ∧
    (Ready 0x030 run ∧ fieldReadCheck (beginCmd c0 0x030 run) 0 (fieldId .sketchClear 0) 3 = none) ∧
    (let s := run.noteWrite 5 (fieldId .pwrLimit 0) 1450
     Ready 0x030 s ∧ fieldReadCheck (beginCmd c0 0x030 s) 0 (fieldId .pwrLimit 0) 1 = none ∧
       smFind s.fields.wrote (fieldId .pwrLimit 0) = some (s.clk.pk, 5, 1450)) := by decide +kernel

/-! ### Witnesses: tables, graphs and epochs -/

/-- An EXACT record with a key of one byte k. -/
def exRec (k : Byte) (bad : Bool) : Bytes := [k] ++ zeros 31 ++ zeros 16 ++ [if bad then 8 else 1] ++ zeros 15
def exBatch : Batch := .inline (exRec 1 false ++ exRec 2 false)

/-- Table 1 of partition 0 holds the keys 1 and 2. -/
def exEnt (k : Byte) (slot : Nat) : TEntry := { table := 1, part := 0, key := [k] ++ zeros 31, action := zeros 16, ageable := true, slot := slot }
def exSt : State := run.setEntries [exEnt 1 40, exEnt 2 8]

/-- A rule record with a RULE_ID, matching everything, and a group record. -/
def ruleRec (bad : Bool) : Bytes := leBytes 4 7 ++ leBytes 4 1 ++ [if bad then 0xff else 0] ++ zeros 79
def grpRec : Bytes := [0, 1] ++ zeros 6 ++ zeros 64
def grpSt : State := run.setEntries [{ table := 5, part := 0, key := groupKey 0, action := [], value := zeros 64 }]

theorem test_hyp_TableWritesAndDeletes :
    (batchCheck c0 1 0 2 exBatch false true (beginCmd c0 0x100 run) = none ∧ writeTarget c0 1 0 run = .banks bothBanks ∧
      Ready 0x100 run ∧ PathEmpty run ∧ Fresh c0 run ∧ run.oldCopies 1 = [] ∧
      (putAll 1 0 0 bothBanks [exRec 1 false, exRec 2 false] run).1 = none ∧
      (putAll 1 0 0 bothBanks [exRec 1 false, exRec 2 true] run).1 = some .badParam) ∧
    (Ready 0x110 grpSt ∧ PathEmpty grpSt ∧ Fresh c0 grpSt ∧ grpSt.oldCopies 4 = [] ∧
      batchCheck c0 4 0 1 (.inline (ruleRec false)) false true (beginCmd c0 0x110 grpSt) = none ∧
      writeTarget c0 4 0 grpSt = .banks bothBanks ∧ (putAll 4 0 0 bothBanks [ruleRec false] grpSt).1 = none ∧
      (putAll 4 0 0 bothBanks [ruleRec true] grpSt).1 = some .badParam) ∧
    (Ready 0x101 exSt ∧ PathEmpty exSt ∧ Fresh c0 exSt ∧ exSt.oldCopies 1 = [] ∧ writeTarget c0 1 0 exSt = .banks bothBanks ∧
      batchCheck c0 1 0 2 (.inline (leBytes 32 1 ++ leBytes 32 9)) true true (beginCmd c0 0x101 exSt) = none ∧
      (delAll 1 0 bothBanks [leBytes 32 1, leBytes 32 9] 0 exSt).1 = none ∧
      (delAll 1 0 bothBanks [leBytes 32 1, leBytes 32 9] 0 exSt).2.1 = 1) ∧
    ((exSt.setBankState 0 1 .rebuild).bankState 0 1 = .rebuild ∧ comparing (exSt.setBankState 0 1 .rebuild) 0 1 = false) ∧
    (Ready 0x111 run ∧ PathEmpty run ∧ Fresh c0 run ∧ writeTarget c0 4 0 run = .banks bothBanks ∧ rsvZero (leBytes 8 7) 4 4 = true) ∧
    batchCheck c0 4 0 1 (.inline (leBytes 8 7)) true (countOk 1 && oddRsv 1 (.inline (leBytes 8 7))) (beginCmd c0 0x111 run) = none := by
  decide +kernel

theorem test_hyp_TablesReadAndCompare :
    (∃ v, putExact 0 bothBanks (exRec 1 false) run = (none, v)) ∧
    (Ready 0x102 exSt ∧ PathEmpty exSt ∧ Fresh c0 exSt ∧ tableReadCheck c0 1 1 0 1 none = none) ∧
    (tableReadCheck c0 1 0 0 2 (some (hostBuf 4096 1)) = none ∧ brefStatus c0 (hostBuf 4096 1) 1 128 (begun c0 0x102 exSt) = none) ∧
    (Ready 0x106 exSt ∧ brefStatus c0 (hostBuf 2048 0) 0 2048 (beginCmd c0 0x106 exSt) = none ∧ comparing exSt 0 1 = false ∧
      comparing { exSt with tabs := { exSt.tabs with compares := [⟨c0, 4, 0, []⟩] } } 0 4 = true) ∧
    ({ exSt with tabs := { exSt.tabs with compares := [⟨c0, 1, 0, []⟩] } }.tabs.compares.find?
      (fun (y : Compare) => decide (y.table = 1) && decide (y.part = 0)) = some ⟨c0, 1, 0, []⟩) :=
  ⟨⟨_, Prod.ext (by decide +kernel) rfl⟩, by decide +kernel⟩

theorem test_hyp_BankStates :
    eventTable 0xff = true ∧ eventTable 5 = true ∧ Ready 0x103 exSt ∧ eventTables exSt 0 0xff .steady ≠ [] ∧
    eventTables (exSt.setBankState 0 1 .draining) 0 1 .steady = [] ∧
    eventTables (exSt.setBankState 0 1 .rebuild) 0 1 .rebuild ≠ [] := by decide +kernel

/-- A parse graph image of one terminal descriptor, and a pattern image of one pattern. -/
def graphImg : Bytes := leBytes 4 0x47504552 ++ leBytes 2 1 ++ leBytes 2 1 ++ zeros 56 ++ (zeros 4 ++ [14] ++ zeros 27)
def patImg : Bytes :=
  leBytes 4 0x50415453 ++ leBytes 2 1 ++ leBytes 4 1 ++ zeros 6 ++ (leBytes 2 9 ++ [2, 0] ++ zeros 12 ++ [65, 66] ++ zeros 62)

theorem test_hyp_GraphAndPatternLoads :
    (Ready 0x120 run ∧ brefStatus c0 (hostBuf graphImg.length 0) 0 graphImg.length (beginCmd c0 0x120 run) = none ∧
      graphTooBig graphImg = false ∧ (graphOf graphImg).isSome = true ∧
      lowestFree 1 8 (run.intake.graphs.map (·.1)) = some 1) ∧
    (Ready 0x121 run ∧ (patternsOf patImg).isSome = true ∧ patternTotal run 0 + 1 ≤ 65536 ∧ sha384 patImg ≠ zeros 48) := by
  decide +kernel

/-- Partition 0 with one live epoch that counts a packet, and table 1 in REBUILD. -/
def epSt : State := (exSt.setBankState 0 1 .rebuild).setEps 0 [{ Epoch.initial with refs := 1 }]

theorem test_hyp_EpochsCommitAndRetire :
    (epSt.eps 0 = [{ Epoch.initial with refs := 1 }] ∧ Ready 0x310 epSt ∧
      epochCommitCheck c0 1 0xffffffff (beginCmd c0 0x310 epSt) = none ∧ compareHolds epSt 0 (commitSwap 0 1 epSt) = false ∧
      Ready 0x104 epSt ∧ tableCommitCheck c0 1 (beginCmd c0 0x104 epSt) = none ∧
      compareHolds epSt 0 (eventTables epSt 0 1 .rebuild) = false) ∧
    ((run.setEps 63 [{ Epoch.initial with refs := 1 }, { Epoch.initial with num := 1 }]).eps 63
      = [{ Epoch.initial with refs := 1 }, { Epoch.initial with num := 1 }]) ∧ Ready 0x311 run := by decide +kernel
/-! ### Witnesses: counters, profiles and traces -/

/-- A port and a drop counter have counted; a trace buffer with one record; a profile on ring 0. -/
def obsSt : State :=
  { ((run.count (.port 3 .rxPkts) 5).count (.ev 0 .emAged) 2) with
    rings := [(0, { profiles := [{ id := 0, complete := true, layer := 1, oper := 2, begin_ := 3, end_ := 4, counts := [] }] })] }
def trSt : State := obsSt.setTrace 0 { mask := 1, addr := 0x2000, size := 4096, write := 64, read := 32 }

/-- A count behind a mark that packet 3 has left since. -/
def lateSt : State := { obsSt with obs := { obsSt.obs with late := [(3, 7)] }, intake := { obsSt.intake with nextPkt := 4 } }

/-- The profile's command has replied on this very cycle. -/
def doneSt : State :=
  { obsSt with rings := [(0, { profiles := [{ id := 0, complete := true, layer := 1, oper := 2, begin_ := 3, end_ := 4,
                                              counts := [], doneAt := some (obsSt.clk.pk / 4) }] })] }

theorem test_hyp_CountersTracesAndProfiles :
    (PathEmpty obsSt ∧ Fresh c0 obsSt ∧ (∀ e ∈ lateSt.obs.late, e.1 < lateSt.intake.nextPkt) ∧ lateSt.obs.late ≠ [] ∧ lateSt.someRead (fun m => decide (m < lateSt.intake.nextPkt)) = false ∧ (groupOfCtr 0x0001).isSome = true ∧ Ready 0x700 obsSt ∧
      counterCheck c0 false 1 0 1 (beginCmd c0 0x700 obsSt) = none ∧ counterCheck c0 true 1 0 1 (beginCmd c0 0x701 obsSt) = none) ∧
    (Ready 0x710 obsSt ∧ traceBufOk c0 ⟨0x4000, 65536, 1, 1⟩ = true ∧
      brefStatus c0 ⟨0x4000, 65536, 1, 1⟩ 1 65536 (beginCmd c0 0x710 obsSt) = none) ∧
    (Ready 0x711 trSt ∧ brefStatus c0 (hostBuf 64 1) 1 0 (beginCmd c0 0x711 trSt) = none ∧
      brefStatus c0 (hostBuf 64 1) 1 32 (beginCmd c0 0x711 trSt) = none) ∧
    (Ready 0x720 obsSt ∧ ((beginCmd c0 0x720 obsSt).ring 0).part = 0 ∧
      (((beginCmd c0 0x720 obsSt).ring 0).profiles.find? (fun e => decide (e.id = 0))).isSome = true ∧
      ((((beginCmd c0 0x720 doneSt).ring 0).profiles.find? (fun e => decide (e.id = 0))).bind (·.doneAt))
        = some (doneSt.clk.pk / 4)) := by decide +kernel

/-! ### Witnesses: flow state -/

/-- A hash whose context takes way 3 of set 5 of table A, at index 3 + 4 × 5. -/
def fh5 : DWord := 0x0000000a00000005
def ctx5 : FlowCtx := { valid := true, part := 0, gen := 2, fh := fh5, pkts := 65535, bytes := 100, first := 1, last := 9 }
def hot5 (i : Nat) : HotForm :=
  { slice := 5, set := hotSet fh5, way := 1, fh := fh5, index := i, part := 0, hold := false, vkind := 0, vvalid := false,
    vinvalid := false, eventCnt := 0, lastLo := 9, bytesLo := 100, pktsLo := 65535, lastq := none, iat := 0,
    sizeLo := zeros 8, tcpfLo := zeros 8, entA := List.replicate 8 0, entB := List.replicate 8 0, ff0 := 0, ff1 := 0 }

/-- The index at which that flow is found. -/
def i5 : Nat := (freeWay run fh5).getD 0
/-- The flow, cold. -/
def coldSt : State := run.setCtx i5 ctx5
/-- The flow, hot. -/
def hotSt : State := (coldSt.setCtx i5 { ctx5 with hot := true }).setHots [hot5 i5]

theorem test_hyp_FlowAndSketchCommands :
    (PathEmpty hotSt ∧ Fresh c0 hotSt ∧ selCheck c0 (.index i5) = none ∧ selectFlow hotSt (.index i5) = .at_ i5 ∧
      (hotSt.ctx i5).part = 0 ∧ hotSt.leaseOf i5 = none ∧ Ready 0x200 hotSt ∧ Ready 0x201 hotSt ∧ Ready 0x202 hotSt ∧
      flowMaskOk 1 = true ∧ (maskedValues 1 [4]).all flowValueOk = true ∧ hotSt.hotOf i5 = some (hot5 i5)) ∧
    selectFlow run (.key (zeros 64)) = .absent ∧ selCheck c0 (.key (zeros 64)) = none ∧
    (sketchReadCheck c0 3 3 0 65536 (some (hostBuf 262143 1)) run = none ∧ 262143 < 4 * 65536 ∧
      brefStatus c0 (hostBuf 262144 1) 1 262144 (begun c0 0x210 run) = none) ∧
    (Ready 0x210 run ∧ sketchReadCheck c0 3 3 0 65536 none run = none) ∧ Ready 0x211 run := by decide +kernel

/-- Moves of bucket 7 that drains and of the last bucket that has drained and takes a new home, and a state with one. -/
def mv7 : Move := { bucket := 7, from_ := 7, dst := 2, since := 0, drained := false, fence := false, ctx := none, home := none }
def mvLast : Move := { bucket := 65535, from_ := 15, dst := 2, since := 0, drained := true, fence := false, ctx := none, home := some 4 }
def moving (m : Move) (s : State) : State := { s with flow := { s.flow with moves := [m] } }

/-- The state in another PKCLK cycle. -/
def atPk (n : Nat) (s : State) : State := { s with clk := { s.clk with pk := n } }

theorem test_hyp_BucketsMove :
    (Ready 0x220 run ∧ 65535 + 1 ≤ 65536) ∧ (Ready 0x221 run ∧ run.isFenced (pipeUnit 15) = false ∧ run.bucketMoving 65535 = false) ∧
    ((moving mv7 run).bucketMoving 7 = true ∧
      c0.waitDrain = false) ∧ Ready 0x520 run ∧
    (∃ (b : Nat) (m : Move) (s : State), s.sys.mode = .running ∧ s.moveOf b = some m ∧ m.drained = false ∧
      moveLate s m = false ∧ bucketDrained s m = true) ∧
    (∃ (b : Nat) (m : Move) (s : State), s.sys.mode = .running ∧ s.moveOf b = some m ∧ m.drained = true ∧
      moveLate s m = false ∧ b < 65536 ∧ m.dst < 16 ∧ m.home = some 4) ∧
    (∀ m ∈ (moving mv7 run).flow.moves, m.bucket < 65536) ∧
    (∃ (b : Nat) (m : Move) (s : State), s.sys.mode = .running ∧ s.moveOf b = some m ∧ moveLate s m = true ∧ m.ctx = none) ∧
    run.now.toNat < run.flow.placeAt.toNat + run.fval .placePeriod * 1000 ∧
    (atTime 1000000 run).flow.placeAt.toNat + (atTime 1000000 run).fval .placePeriod * 1000 ≤ (atTime 1000000 run).now.toNat :=
  ⟨by decide +kernel, by decide +kernel, by decide +kernel, by decide +kernel,
    ⟨7, mv7, moving mv7 run,
      by decide +kernel⟩,
    ⟨65535, mvLast, moving mvLast run, by decide +kernel⟩, by decide +kernel,
    ⟨7, mv7,
      atPk 32001 (moving mv7 run), by decide +kernel⟩,
    by decide +kernel, by decide +kernel⟩

/-- The hot flow with a carry of PKTS on its way. -/
def carrySt : State := { hotSt with flow := { hotSt.flow with carries := [⟨i5, 0⟩] } }

theorem test_hyp_CarriesAreInvisible : carrySt.sys.mode = .running ∧
    carrySt.flow.carries.find? (fun x => decide (stackOfIdx x.index = stackOfIdx i5)) = some ⟨i5, 0⟩ := by decide +kernel

/-- A packet of partition 0 at a place of pipeline p. -/
def pkt (id p : Nat) (pl : Place) : Packet :=
  { id := id, pipe := p, place := pl, port := 3, part := 0, epoch := 0, graph := 0, frame := zeros 64, macsec := false,
    intake := 0, flowKey := zeros 64, fh := fh5, bucket := bucketOf fh5, frag := false, fragFirst := false, fragEntry := none,
    carried := [], forced := 0, words := List.replicate 64 0, feats := List.replicate 64 0 }

/-- A state with that packet alone on its way. -/
def pktSt (k : Packet) (s : State) : State :=
  { (s.setEps 0 [{ Epoch.initial with refs := 1 }]) with intake := { s.intake with pkts := [k], nextPkt := k.id + 1 } }

/-- A hold of the flow with a packet in it. -/
def holdSt (n : Nat) : State :=
  pktSt { pkt 0 5 (.flowHold i5) with flowIdx := some i5 }
    { hotSt with flow := { hotSt.flow with holds := [⟨i5, fh5, 0, 2, 0, n, 8, 5⟩] } }

theorem test_hyp_EvictionAndHolds :
    (hotSt.flow.hots.find? (fun h => decide (h.slice = 5 ∧ h.set = hotSet fh5 ∧ h.way = 1)) = some (hot5 i5) ∧ i5 < 2 ^ 24 ∧
      hotAge hotSt (hot5 i5) < 2 ^ 32 ∧ 2 ^ 31 ≤ hotAge (atTime (2 ^ 31 + 9) hotSt) (hot5 i5)) ∧
    ((holdSt 0).holdOf i5 = some ⟨i5, fh5, 0, 2, 0, 0, 8, 5⟩ ∧ (holdSt 1).holdOf i5 = some ⟨i5, fh5, 0, 2, 0, 1, 8, 5⟩ ∧
      0 + 5 * 1000 ≤ (atTime 5000 (holdSt 1)).now.toNat) := by decide +kernel

/-- A request for the flow, waiting for the agent (or served: it found index i). -/
def req5 (found : Option Nat) : FetchReq :=
  { pipe := 5, fh := fh5, part := 0, key := zeros 64, intake := 7, epoch := 0, firstPass := true, pkt := 0, since := 7,
    waiting := found.isNone, found := found }
def reqSt (r : FetchReq) (s : State) : State := { s with flow := { s.flow with reqs := [r] } }

theorem test_hyp_FlowsAreCreatedAndFilled :
    ((reqSt (req5 none) run).flow.reqs.find? (fun r =>
        r.waiting && (!r.remote || cutOff (reqSt (req5 none) run) r) && decide (setA r.fh % 6 = 5)) = some (req5 none) ∧
      run.homeOf (bucketOf fh5) = none ∧ findFlow run fh5 = none ∧ freeWay run fh5 = some i5 ∧
      flowCount run 0 < run.fval .flowQuota 0 ∧ run.fval .flowQuota 0 = 2 ^ 24) ∧
    ((reqSt (req5 (some i5)) coldSt).flow.reqs.find? (fun r => decide (r.pipe = 5) && !r.waiting) = some (req5 (some i5)) ∧
      coldSt.hotOf i5 = none ∧ hotWays coldSt 5 (hotSet (coldSt.ctx i5).fh) = []) := by decide +kernel

/-- FLOW_EN of partition 0's only epoch is 1. -/
def flowOn (s : State) : State :=
  { s with epochs := [(0, [{ Epoch.initial with refs := 1, prof := [(fieldId .flowEn 0, 1)] }])] }

/-- Pipeline 5 with 256 packets in its miss buffer and one more at stage 4. -/
def fullSt : State :=
  { run with intake := { run.intake with pkts := (List.range 256).map (fun i => pkt i 5 .miss) ++ [pkt 256 5 .flow], nextPkt := 257 } }

theorem test_hyp_FlowStageAndSweep :
    (let s := pktSt (pkt 0 5 .flow) run
     s.oldestAt 5 .flow = some (pkt 0 5 .flow) ∧ behindMark s 0 = false ∧ s.findPkt 0 = some (pkt 0 5 .flow) ∧
      missFull s 5 = false ∧ (pkt 0 5 .flow).pass = 1 ∧ (pkt 0 5 .flow).fv s .flowEn = 0 ∧ ∀ j ≤ 3, s.fval .sketchEn j = 0) ∧
    (let s := flowOn (pktSt (pkt 0 5 .flow) hotSt)
     s.oldestAt 5 .flow = some (pkt 0 5 .flow) ∧ (pkt 0 5 .flow).fv s .flowEn ≠ 0 ∧
      s.hotIn 5 fh5 = some (hot5 i5) ∧ s.hotOf i5 = some (hot5 i5)) ∧
    missFull fullSt 5 = true ∧ fullSt.oldestAt 5 .flow = some (pkt 256 5 .flow) ∧ fullSt.findPkt 256 = some (pkt 256 5 .flow) ∧
    i5 ∉ (sweepRoll coldSt).flow.swept ∧ i5 ∈ (sweepRoll { coldSt with flow := { coldSt.flow with swept := [i5] } }).flow.swept ∧
    fillPending (reqSt (req5 (some i5)) coldSt) i5 = true ∧ fillPending coldSt i5 = false ∧
    (idleFlow (atTime 9 coldSt) (coldSt.ctx i5) = false ∧ (coldSt.ctx i5).valid = true ∧ (coldSt.ctx i5).nextTimer = 0 ∧
      idleFlow (atTime 200000000000 coldSt) (coldSt.ctx i5) = true) := by decide +kernel
/-! ### Witnesses: flows across nodes -/

/-- A message of another node. -/
def msgOf (mtype : Nat) (src : Nat) (arg : Word) (body : Bytes) : Msg :=
  { dst := 1, cls := 2, src := src, hop := 1, mseq := 0, mtype := mtype, part := 0, arg := arg, body := body }

/-- The module joined to the fabric as node 1. -/
def joined (s : State) : State := { s with fab := { s.fab with nodeId := 1, joined := true } }
/-- The flow leased to node 2. -/
def leasedSt : State := joined { hotSt with flow := { hotSt.flow with hots := [], leases := [⟨i5, 2, 0, false, []⟩] } }
/-- A grant's request, and the flow held from home node 2 at the module's own index. -/
def grantSt : State := joined (reqSt { req5 none with remote := true } { run with flow := { run.flow with home := [(bucketOf fh5, 2)] } })
def heldSt : State :=
  let i := leasedIdx 2 7
  joined { (run.setCtx i ctx5) with flow := { (run.setCtx i ctx5).flow with held := [⟨i, 2, 0, false, []⟩] } }
def keyBody : Bytes := leBytes 8 fh5.toNat ++ zeros 24

theorem test_hyp_FlowsAcrossNodes :
    (findFlow (joined coldSt) (dw (uAt keyBody 0 8)) = some i5 ∧ (joined coldSt).leaseOf i5 = none ∧
      (joined coldSt).hotOf i5 = none ∧ ((joined coldSt).ctx i5).poison = false ∧ (joined coldSt).fab.joined = true) ∧
    (findFlow leasedSt (ctxOfBytes (ctxBytes ctx5)).fh = some i5 ∧ leasedSt.leaseOf i5 = some ⟨i5, 2, 0, false, []⟩) ∧
    (findFlow (joined run) (dw (uAt keyBody 0 8)) = none) ∧
    (staleVerdict (joined coldSt) ((joined coldSt).ctx i5) (verdictOf (msgOf 21 2 0 (keyBody.take 8 ++ leBytes 2 2 ++ leBytes 2 0 ++ zeros 20)) i5) = false ∧
      (joined coldSt).holdOf i5 = none) ∧
    (grantSt.flow.reqs.find? (answers grantSt (msgOf 17 2 7 (ctxBytes ctx5))) = some { req5 none with remote := true } ∧
      ctxBytes ctx5 ≠ []) ∧
    (heldIdx heldSt 2 (dw (uAt keyBody 0 8)) = some (leasedIdx 2 7)) ∧
    (heldSt.flow.held.find? (fun l => decide (l.index = leasedIdx 2 7)) = some ⟨leasedIdx 2 7, 2, 0, false, []⟩ ∧
      2 ^ 24 ≤ leasedIdx 2 7 ∧ mayReturn heldSt ⟨leasedIdx 2 7, 2, 0, false, []⟩ = false ∧
      mayReturn (atTime 10000 heldSt) ⟨leasedIdx 2 7, 2, 0, true, []⟩ = true) := by
  decide +kernel
/-! ### Witnesses: the packet path -/

/-- A running module with a lit port 3, and a frame with a right FCS. -/
def portSt : State := (run.setLaser 0 { present := true, on := true, locked := true }).setField .portEn 3 1
def frame0 (n : Nat) : Bytes := zeros n ++ leBytes 4 (crc32eth (zeros n)).toNat

/-- A fragment entry. -/
def fragE (end_ hold : Option DWord) : FragEntry :=
  { key := [1], part := 0, carried := [], first := false, drop := false, created := 0, endAt := end_, holdAt := hold }
def fragSt (e : FragEntry) (s : State) : State := { s with intake := { s.intake with frags := [(9, e)] } }

/-- Banks of 32 bytes with no cell to spill to, and a port that takes 63 bytes at most. -/
def fullPort : State := { portSt.setAct .hmpSize 0 0 with impl := { portSt.impl with intakeBank := 32 } }
def shortPort : State := portSt.setAct .portMaxFrame 3 63

theorem test_hyp_FramesAndFragments :
    (run.obs.stop = none ∧ portSt.portLink 3 = true ∧ intakeOff portSt 3 = false ∧ intakeOff portSt 4 = true ∧
      portSt.portLink 4 = true ∧ (frame0 59).length < 64 ∧ badFcs (zeros 64) false = true ∧
      run.portLink 3 = false) ∧
    (let s := portSt
     let f := frame0 60
     let w := walk (s.graph ((s.curEpoch 0).fval .portGraph 3)) f (fun x => !x.first) []
     let fh := flowHash (flowKeyOf 0 (s.graph ((s.curEpoch 0).fval .portGraph 3)) w.keys)
     64 ≤ f.length ∧ badFcs f false = false ∧ countedLen s 3 f ≤ s.fact .portMaxFrame 3 ∧ s.intakeTakes 3 f.length = true ∧
      s.reedBytes (s.pipeOf (bucketOf fh)) + f.length < 2 * s.impl.reedBank ∧ s.intake.pkts = [] ∧
      s.fact .portMacsec 3 = 0 ∧ etherType f ≠ 0x8808 ∧ etherType f ≠ 0x88b5 ∧ w.frag = none ∧
      s.bucketMoving (bucketOf fh) = false) ∧
    shortPort.fact .portMaxFrame 3 < countedLen shortPort 3 (frame0 60) ∧ fullPort.intakeTakes 3 64 = false ∧
    (let s := fragSt (fragE none (some 0)) run
     smFind s.intake.frags 9 = some (fragE none (some 0)) ∧ s.now.toNat < 0 + s.fval .fragHoldTime * 1000 ∧
      0 + s.fval .fragHoldTime * 1000 ≤ (atTime 2000000 s).now.toNat ∧ fragDue s (fragE none (some 0)) = false ∧
      fragDue (atTime 30000000 s) (fragE none (some 0)) = true ∧ fragDue (atTime 2000001 s) (fragE (some 1) none) = true) := by
  decide +kernel

theorem test_hyp_StagesOneToThree :
    (∀ pl ∈ [Place.reed, .scan, .lookup], (pktSt (pkt 4 5 pl) run).oldestAt 5 pl = some (pkt 4 5 pl)) ∧
    (let s := pktSt (pkt 4 5 .lookup) run
     let k := pkt 4 5 .lookup
     behindMark s 4 = false ∧ s.findPkt 4 = some k ∧ lpmFamily k s = none ∧ k.fv s .lkRuleWords = 0 ∧
      learnCandidate k s = false ∧ k.fv s .lkEmWords = 0) ∧
    (let s := pktSt (pkt 4 5 .lookup) exSt
     let s := { s with epochs := [(0, [{ Epoch.initial with refs := 1, prof := [(fieldId .lkEmWords 0, 2)] }])] }
     let k := pkt 4 5 .lookup
     k.fv s .lkEmWords = 2 ∧ s.tfind 1 0 (wordKey k.words 2 16 32) (k.bank s 1) = none ∧
      (s.setEntries [{ exEnt 0 3 with action := [0x12] ++ zeros 15 }]).tfind 1 0 (wordKey k.words 2 16 32) (k.bank s 1)
        = some { exEnt 0 3 with action := [0x12] ++ zeros 15 }) := by decide +kernel

/-- A learn request of port 3 for the key 9. -/
def lrn : LearnReq := ⟨0, [9] ++ zeros 31, 3⟩
def lrnSt (s : State) : State := { s with tabs := { s.tabs with learnQ := [(1, [lrn])] } }

theorem test_hyp_LearningAndAging :
    (smGet [] (lrnSt exSt).tabs.learnQ 1 = [lrn] ∧ (lrnSt exSt).tfind 1 0 lrn.key ((lrnSt exSt).activeBank 0 1) = none ∧
      (lrnSt (exSt.setEntries [exEnt 9 3])).tfind 1 0 lrn.key 0 = some (exEnt 9 3)) ∧
    (lrnSt exSt).relocating 1 0 lrn.key = false ∧ lrn.port < 32 ∧
    (putEntry { table := 1, part := 0, key := lrn.key, action := learnedAction 3, ageable := true, learned := true }
      ((lrnSt exSt).ownBanks 0 1) { lrnSt exSt with tabs := { (lrnSt exSt).tabs with learnQ := smSet (lrnSt exSt).tabs.learnQ 1 [] } }).1.isSome = true ∧
    (let e := { exEnt 1 40 with leaving := true }
     (run.setEntries [e]).tabs.entries.filter (·.leaving) = [e]) ∧
    (∀ h ∈ [none, some 0], let e := { exEnt 1 40 with hit := true, hitAt := h }
     let r := rollAge 0 300 (atTime 599000000000 (exSt.setEntries [e]))
     let ph := agePhase r 0 300
     (r.tbank 1 0 (r.activeBank 0 1)).find? (fun e => decide (e.slot = 40) && visitDue r ph.1 ph.2 e) = some e) ∧
    (let s := atTime 400000000000 exSt
     let r := rollAge 0 300 s
     let ph := agePhase r 0 300
     s.fval .agePeriod 0 ≠ 0 ∧ r.tfind 1 0 ([1] ++ zeros 31) 0 = some (exEnt 1 40) ∧ (exEnt 1 40).hit = false ∧
      (exEnt 1 40).ageable = true ∧ (visitPoint (exEnt 1 40).key ph.2 ≤ 100000000000 ∨
        visitDue (rollAge 0 300 (atTime 599000000000 exSt)) ph.1 ph.2 (exEnt 1 40) = true)) := by decide +kernel

theorem test_hyp_StagesFiveAndSix :
    (let k := pkt 4 5 .wicker
     let s := pktSt k run
     behindMark s 4 = false ∧ s.findPkt 4 = some k ∧ s.oldestAt 5 .wicker = some k ∧ k.evs = [] ∧ k.flowIdx = none ∧ (k.ep s).wkSlots = []) ∧
    (let k := pkt 4 5 .wicker
     let s := pktSt k (wkSt 2)
     let s := { s with epochs := [(0, [{ Epoch.initial with refs := 1, slots := [2, 255, 255, 255] }])] }
     (k.ep s).wkSlots = [2] ∧ (s.slot 2).ens = some wkEns ∧ wkEns.escEn = false) ∧
    (∀ r ∈ [0, 1, 2, 3, 4], let k := { pkt 4 5 .merge with rule := { kind := r } }
      (pktSt k run).oldestAt 5 .merge = some k ∧ behindMark (pktSt k run) 4 = false) := by decide +kernel

/-- A packet at stage 7 whose rule forwards to port 3, or drops it. -/
def actPkt (kind : Nat) : Packet :=
  { pkt 4 5 .action with rule := { kind := kind, port := 3 }, merged := { kind := kind, port := 3 } }

/-- A host packet ring with a copy in its FIFO. -/
def hostRingSt : State :=
  run.setHring 2 { part := some 0, bref := ⟨0x40000, 4096 + 64, 0, 1⟩, fifo := [⟨0, 0, zeros 96, false⟩] }

theorem test_hyp_StageSevenAndHostCopies :
    (∀ kind ∈ [1, 2], let k := actPkt kind
      let s := pktSt k portSt
      nextAction 5 s = some k ∧ k.entryBad = false ∧ k.learn = none ∧ k.fragEntry = none ∧ recirculates k s = false ∧ mustWait k s = false ∧ destination k s = (if kind = 2 then none else some .noRoute)) ∧
    ((hostRingSt.hring 2).fifo = [⟨0, 0, zeros 96, false⟩] ∧ (hostRingSt.hring 2).closing = false ∧ (hostRingSt.hring 2).bref.loc ≠ 1 ∧
      96 ≤ hringSpace (hostRingSt.hring 2)) := by decide +kernel

/-! ### Witnesses: egress, gates and time -/

/-- A state of the egress timers: shaped node 7, written nodes, a pause, a pending and a running gate list on port 3. -/
def egrSt : State :=
  let s := run.setShaper 7 { rate := 100, burst := 2, tokens := 5 }
  let s := (s.setShaper 384 { rate := 1, burst := 1, tokens := 0, pend := some (9, 4) }).setField .qCfg (3 * 128 + 5) 77
  { s with
    clk := { s.clk with pk := 1024, ft := 20000 }
    egr := { s.egr with pauseUntil := [(24, 20000), (31, 20001)], gclPend := [(3, ⟨20000, 500, []⟩)], gcl := [(3, ⟨19000, 500, []⟩)] } }

theorem test_hyp_EgressTimers :
    ((egrSt.egr.refills + 1) * 64 ≤ egrSt.clk.pk ∧ (smGet 0 egrSt.egr.rounds 3 + 1) * 1024 ≤ egrSt.clk.pk ∧
      (egrSt.shaper 384).pend = some (9, 4) ∧ nodePort 384 = 3 ∧
      egrSt.egr.sampleAt.toNat + egrSt.fval .qSamplePeriod * 1000 ≤ egrSt.now.toNat) ∧
    (smFind egrSt.egr.pauseUntil (3 * 8 + 0) = some 20000 ∧ smFind egrSt.egr.pauseUntil (3 * 8 + 7) = some 20001) ∧
    ((smFind egrSt.egr.gclPend 3).isSome = true ∧ (smFind egrSt.egr.gcl 3).isSome = true ∧ (20000 - 19000) % 500 = 0) := by
  decide +kernel

/-- A copy for queue 5 of port 3. -/
def cpy : Copy :=
  { port := 3, queue := 3 * 128 + 5, meter := none, pre := 0, frame := zeros 60, part := 0, fh := 0, tracked := false,
    mirror := false, barrier := [], poison := false }
def cpySt : State := { portSt with egr := { portSt.egr with copies := [cpy] } }

/-- A frame in queue 5 of port 3, at 1 µs. -/
def queuedSt : State := ({ atTime 1000 portSt with clk := { (atTime 1000 portSt).clk with pk := 1600 } }).setQueue (3 * 128 + 5) { items := [cpy.item 0] }

theorem test_hyp_CopiesAndFramesLeave :
    (cpySt.egr.copies.find? (fun x => decide (x.port = 3)) = some cpy ∧ barrierOf cpy cpySt = []) ∧
    Fits cpy cpySt ∧ colourLimit (cpySt.setField .qLimit (3 * 128 + 5) 0) cpy.queue 0 < 0 + 60 ∧
    (let b : Barrier := ⟨0, 3, [], [cpy]⟩
     let s := { portSt with egr := { portSt.egr with barriers := [b] } }
     s.egr.barriers.find? (fun b => decide (b.port = 3) && b.left.isEmpty) = some b ∧ (s.queue cpy.queue).items = []) ∧
    (smGet 0 queuedSt.egr.txEnd 3 + 625 ≤ queuedSt.pkPs ∧ smFind queuedSt.egr.tx 3 = none ∧ queuedSt.portLink 3 = true ∧ (pickPort queuedSt 3 (nowPs queuedSt)).map (·.1) = some (3 * 128 + 5) ∧
      (queuedSt.queue (3 * 128 + 5)).items = [cpy.item 0] ∧ gclAt queuedSt 3 queuedSt.now.toNat = none ∧
      (cpy.item 0).marker = none ∧ (cpy.item 0).poison = false ∧ queuedSt.fact .portMacsec 3 = 0) ∧
    (let s := queuedSt.setQueue (3 * 128 + 5) { items := [{ cpy.item 0 with poison := true }] }
     (pickPort s 3 (nowPs s)).map (·.1) = some (3 * 128 + 5)) :=
  ⟨by decide +kernel, by refine ⟨?_, ?_, ?_, ?_⟩ <;> decide +kernel, by decide +kernel⟩
theorem test_hyp_EgressAndTimeCommands :
    (Ready 0x400 run ∧ PathEmpty run ∧ Fresh c0 run ∧ meterWriteCheck c0 65535 1 10 64 10 (beginCmd c0 0x400 run) = none) ∧
    (Ready 0x401 run ∧ (beginCmd c0 0x401 run).meterOwner 65535 = c0.part) ∧
    (Ready 0x410 run ∧ shaperWriteCheck c0 4639 (-32) 2048 (beginCmd c0 0x410 run) = none ∧
      shaperWriteCheck c0 0 0 16777216 (beginCmd c0 0x410 run) = none) ∧
    (Ready 0x420 run ∧ gclWriteCheck c0 31 1000 [(1, 500)] (beginCmd c0 0x420 run) = none) ∧
    (Ready 0x421 run ∧ (beginCmd c0 0x421 run).portOwner 31 = 0 ∧ 31 < run.portCount) ∧
    (Ready 0x430 run ∧ 4095 + 1 ≤ run.portCount * 128 ∧ ∀ i < 32, (beginCmd c0 0x430 run).portOwner i = c0.part) ∧
    (Ready 0x440 run ∧ hostpktCheck c0 63 ⟨0x40000, 65600, 0, 1⟩ 64 (beginCmd c0 0x440 run) = none ∧
      brefStatus c0 ⟨0x40000, 65600, 0, 1⟩ 1 65600 (beginCmd c0 0x440 run) = none ∧
      hostpktCheck c0 63 ⟨0, 0, 0, 1⟩ 64 (beginCmd c0 0x440 run) = none) ∧
    Ready 0x450 run ∧ run.fab.joined = false ∧ Ready 0x451 run := by decide +kernel

/-! ### Witnesses: models, events and thresholds -/

/-- An ensemble image of one leaf, the bundle that holds it, and an envelope for slot n that stands for it. -/
def ensImg : Bytes :=
  leBytes 4 0x54524545 ++ leBytes 2 1 ++ [0, 0] ++ leBytes 2 1 ++ [1, 1] ++ leBytes 4 1 ++ leBytes 2 64 ++ [0, 0]
    ++ zeros 8 ++ leBytesI 8 (-5) ++ leBytes 8 5 ++ leBytes 4 1 ++ zeros 8 ++ zeros 8 ++ zeros 16
    ++ (leBytes 4 0x300 ++ leBytes 4 7 ++ zeros 8)
def bundleOf (img : Bytes) : Bytes :=
  let rest := ([1, 0, 0, 0] ++ leBytes 4 144 ++ leBytes 4 img.length ++ zeros 4) ++ img
  leBytes 4 0x4c444f4d ++ leBytes 2 1 ++ [0, 0] ++ leBytes 2 1 ++ zeros 22 ++ sha384 rest ++ zeros 48 ++ rest
def envOf (n : Nat) : Bytes := leBytes 4 0x4b504845 ++ [0, 0] ++ leBytes 1 n ++ [0] ++ leBytes 4 8 ++ zeros 4 ++ zeros 304 ++ zeros 8
def envOpens (n : Nat) (m : Bytes) : Bytes × Bytes :=
  (openKey run.hpkeKey ((envInfo ++ (envOf n).take 16) ++ zeros 97) [] (zeros 8), m)
/-- The envelope at 0x1000, and what it opens to. -/
def loadSt (n : Nat) (m : Option Bytes) : State :=
  { (withHost (envOf n) run) with crypto := { opens := match m with | some m => [envOpens n m] | none => [] } }

/-- What ModelsLoadAndUnload asks of a MODEL_LOAD. -/
def loadHyp (n : Nat) (s : State) : Bool :=
  decide (Ready 0x300 s) && decide (slotCheck c0 n (beginCmd c0 0x300 s) = none) && decide ((s.slot n).state = 0)
    && decide (brefStatus c0 (hostBuf 328 0) 0 328 (beginCmd c0 0x300 s) = none)

/-- What the envelope of that command opens to. -/
def opened (n : Nat) (s : State) : Option Bytes :=
  openEnvelope (brefCharge c0 (hostBuf 328 0) 328 (beginCmd c0 0x300 s)) 0 0 n (brefRead c0 (hostBuf 328 0) 328 (beginCmd c0 0x300 s))

/-- The status with which partition 0's bundle fails. -/
def bundleErr (s : State) (b : Bytes) : Option Status := match bundleStatus s 0 b with | .error st => some st | .ok _ => none

/-- A flow event of the cold flow, and a slot with an event ensemble and that event in its queue. -/
def ev5 (gen : Half) : Event := { part := 0, index := i5, gen := gen, mask := 1, ft := 0, epoch := 0, words := List.replicate 128 0 }
def evSt (gen : Half) : State :=
  (coldSt.setEps 0 [{ Epoch.initial with refs := 1 }]).setSlot 255 { state := 3, ens := some { wkEns with event := true }, evq := [ev5 gen] }

/-- A tensor model with one INT32 output in its work region, and a finished batch of one event, with that status. -/
def tens0 : Tensor :=
  { inFmt := 0, kIn := 1, tiles := [0], shares := [0], need := 0, inBase := 0, wReg := [0, 0], wSize := 0, workReg := 0,
    workSize := 4096, stateReg := 0, stateSize := 0, trainReg := 0, inputMap := [], fwd := [], bwd := [],
    outMap := leBytes 8 (2 * 2 ^ 60) ++ [4, 1] ++ zeros 54, train := [] }
def batchSt (status : Nat) : State :=
  let s := (coldSt.setEps 0 [{ Epoch.initial with refs := 1 }]).setSlot 9
    { state := 3, kind := 1, tens := some tens0, batches := [[ev5 2]], running := true }
  { s with tiles := { s.tiles with jobs := [⟨4, none, some 9, 0⟩], cmds :=
    [{ id := 1, job := 4, idx := 0, part := 0, host := false, bytes := [], state := 2, tile := 0, since := 0, status := status }] } }
def fillSt : State := run.setSlot 9 { state := 3, tens := some tens0, filling := [ev5 2], fillAt := 7, running := true }

/-- Slot 9 with a WP model of one weight page, and the same while RINSE walks over it. -/
def wpSlot : Slot := { state := 2, kind := 1, tens := some tens0, wp := true, runs := [(5000, 1, true)] }
def wpSt : State := run.setSlot 9 wpSlot
def wipeSlot : Slot := { wpSlot with state := 4, unloadCtx := some c0, wipe := some { done := 0, mark := 0, charged := 0 } }
def wipeSt : State := run.setSlot 9 wipeSlot

theorem test_hyp_ModelsLoadAndUnload :
    (slotCheck c0 255 (beginCmd c0 0x300 (wkSt 255)) = none ∧ ((wkSt 255).slot 255).state ≠ 0) ∧
    (loadHyp 0 (loadSt 0 none) = true ∧ opened 0 (loadSt 0 none) = none) ∧
    (loadHyp 0 (loadSt 0 (some [1])) = true ∧ opened 0 (loadSt 0 (some [1])) = some [1] ∧
      bundleErr run [1] = some .integrityFail) ∧
    (loadHyp 0 (loadSt 0 (some (bundleOf ensImg))) = true ∧ opened 0 (loadSt 0 (some (bundleOf ensImg))) = some (bundleOf ensImg) ∧
      bundleErr run (bundleOf ensImg) = none) ∧
    (Ready 0x301 (wkSt 7) ∧ slotCheck c0 7 (beginCmd c0 0x301 (wkSt 7)) = none ∧
      ((retireDue 0 (beginCmd c0 0x301 (wkSt 7))).slot 7).state = 2 ∧ ((retireDue 0 (beginCmd c0 0x301 (wkSt 7))).slot 7).evq = [] ∧
      (run.slot 7).state = 0) ∧
    (let x := (retireDue 0 (beginCmd c0 0x301 wpSt)).slot 9
     Ready 0x301 wpSt ∧ slotCheck c0 9 (beginCmd c0 0x301 wpSt) = none ∧ x = wpSlot ∧ x.wipeBytes ≠ 0) ∧
    ((wipeSt.region 0).map (·.state) = some 0 ∧ (wipeSt.region 0).map (·.part) = some (wipeSt.slotOwner 9) ∧
      wipes wipeSt = [(9, wipeSlot)] ∧ wipeSt.slot 9 = wipeSlot ∧ wipeDone wipeSt wipeSlot < wipeSlot.wipeBytes ∧
      wipeSlot.wipeBytes ≤ wipeDone (atTime 1000000000000 wipeSt) wipeSlot) ∧
    (((wkSt 7).setSlot 7 { state := 2, ens := some wkEns, evq := [ev5 2] }).slot 7).evq ≠ [] := by decide +kernel

theorem test_hyp_EventsBecomeVerdicts :
    (firstAtHome (evSt 2) ((evSt 2).slot 255) (ev5 2) = true ∧
      (let s := (evSt 2).setSlot 255 { (evSt 2).slot 255 with evq := [{ ev5 2 with order := 1 }] }
       let s := s.setSlot 254 { (evSt 2).slot 255 with evq := [ev5 2] }
       firstAtHome s (s.slot 255) { ev5 2 with order := 1 } = false)) ∧
    (let s := evSt 2
     (s.slot 255).state ≠ 4 ∧ (s.slot 255).evq = [ev5 2] ∧ isLeasedIdx i5 = false ∧ s.leaseOf i5 = none ∧ s.holdOf i5 = none ∧
      staleVerdict s (s.ctx i5) ((ev5 2).verdict 255 0 false 0 0 0) = false) ∧
    ((evSt 7).ctx i5).gen ≠ (ev5 7).gen ∧
    ((fillSt.slot 9).filling ≠ [] ∧ fillSt.now.toNat < (fillSt.slot 9).fillAt.toNat ∧ ((atTime 7 fillSt).slot 9).fillAt.toNat ≤ 7 ∧
      (fillSt.slot 9).batches.length < 3) ∧
    (∀ st ∈ [0, 6, Status.dataPoisoned.code], let s := batchSt st
      batchJob s 9 = some ⟨4, none, some 9, 0⟩ ∧ (∀ k ∈ jobCmds s 4, k.state = 2) ∧ jobStatus (jobCmds s 4) = st ∧
      uAt tens0.outMap 8 1 = 4 ∧ staleVerdict s (s.ctx i5) ((ev5 2).verdict 9 0 false 0 0 0) = false) := by decide +kernel

theorem test_hyp_ThresholdsMove :
    (thrBounds ((wkSt 0).slot 0) = some (-100, 100, 4) ∧ 2 ≤ ((wkSt 0).slot 0).state ∧ (wkSt 0).now.toNat < 0 + 100 * 1000000 ∧
      0 + 100 * 1000000 ≤ (atTime 100000000 (wkSt 0)).now.toNat) ∧
    (let s := (wkSt 0).setField .wkThrCtrl 0 1
     s.fval .wkThrCtrl 0 = 1 ∧ 1024 ≤ (s.slot 0).thr.n ∧
      (s.slot 0).thr.n * s.fval .wkThrTarget 0 * 5 < (s.slot 0).thr.a * 1000000 * 4 ∧ (s.slot 0).thr.dir = 1) ∧
    (let s := ((wkSt 0).modSlot 0 (fun x => { x with thr := { x.thr with a := 0 } })).setField .wkThrCtrl 0 1
     (s.slot 0).thr.a * 1000000 * 5 < (s.slot 0).thr.n * s.fval .wkThrTarget 0 * 4) ∧
    (Ready 0x331 (wkSt 0) ∧ threshReadCheck c0 0 (beginCmd c0 0x331 (wkSt 0)) = none ∧
      ((thresholdPeriod 0 (beginCmd c0 0x331 (wkSt 0))).slot 0).thr.lastN = 0 ∧
      ((thresholdPeriod 0 (beginCmd c0 0x331 (atTime 100000000 (wkSt 0)))).slot 0).thr.lastN ≠ 0) := by decide +kernel
/-! ### Tensors and tiles -/

/-- A one-dimensional descriptor of n elements of a format, read (0) or written (1), at an address. -/
def desc1 (op fmt n addr : Nat) : Bytes :=
  let ext := if op = 0 then zeros 12 else leBytes 8 addr ++ leBytes 4 n
  leBytes 8 addr ++ [BitVec.ofNat 8 op, 1, BitVec.ofNat 8 fmt] ++ zeros 5 ++ [0, 1, 2, 3, 4, 0, 0, 0]
    ++ (List.range 5).flatMap (fun d => leBytes 4 (if d = 0 then n else 1) ++ leBytes 4 (if d = 0 then 1 else 0))
    ++ zeros 24 ++ ext ++ zeros 28

/-- The address of an offset in tile 0. -/
def tileAt (o : Nat) : Nat := 2 ^ 63 + o

/-- A COPY of n FP8-E4M3 elements on tile t, from its offset 0x100 to its offset 0x200. -/
def copyCmd (t n : Nat) : Bytes :=
  [2, 0, BitVec.ofNat 8 t, 2] ++ zeros 60 ++ desc1 0 1 n (tileAt 0x100) ++ desc1 1 1 n (tileAt 0x200)

/-- Partition 0 holds tile 0, which is enabled. -/
def tileSt : State :=
  let s := ((run.setField .tileOwner 0 0).setAct .tileOwner 0 0).setField .tileEn 0 1
  { s with tiles := { s.tiles with mem := memWriteN s.tiles.mem 0x100 [1, 2, 3, 4] } }

/-- A command of partition 0, waiting (0) or running (1), of a batch, and the state that holds it alone. -/
def tcmd (b : Bytes) (state : Nat) : TCmd :=
  { id := 7, job := 3, idx := 0, part := 0, host := false, bytes := b, state := state, tile := 0, since := 0 }
def cmdSt (b : Bytes) (state : Nat) : State :=
  { tileSt with tiles := { tileSt.tiles with cmds := [tcmd b state], jobs := [⟨3, none, some 9, 0⟩] } }

theorem test_hyp_TensorsMoveAndListsIssue :
    (∀ w ∈ [true, false], let opc := if w then 0x320 else 0x321
      let b := beginCmd c0 opc (withHost [9, 8, 7, 6] tileSt)
      let d := descOf (desc1 (b2n w) 1 4 (tileAt 0x100))
      let x := hostBuf 4 (b2n (!w))
      Ready opc (withHost [9, 8, 7, 6] tileSt) ∧ tensorForm c0 w (desc1 (b2n w) 1 4 (tileAt 0x100)) x b = none ∧
      hostDescCheck b 0 d = none ∧ transferSize b 0 d w = 4 ∧ brefStatus c0 x (b2n (!w)) 4 b = none ∧
      tensorWaits b c0 (xferFeet b 0 false (desc1 (b2n w) 1 4 (tileAt 0x100))) = false ∧ xferOf b c0 = none ∧
      (b.entryOf c0).bind (·.waitFrom) = none ∧ (w = false → splitBad b 0 d = none) ∧
      tensorWaits (beginCmd c0 opc (cmdSt (copyCmd 0 4) 1)) c0
        (xferFeet b 0 false (desc1 (b2n w) 1 4 (tileAt (if w then 0x100 else 0x200)))) = true) ∧
    (let s := withHost (copyCmd 0 4) tileSt
     let b := beginCmd c0 0x322 s
     Ready 0x322 s ∧ brefStatus c0 (hostBuf 320 0) 0 320 b = none ∧
      splitCmds 1 (brefRead c0 (hostBuf 320 0) 320 b) = some [copyCmd 0 4] ∧
      splitCmds 2 (brefRead c0 (hostBuf 320 0) 320 b) = none) := by decide +kernel

/-- A command of no kind. -/
def badCmd (t : Nat) : Bytes := [5, 0, BitVec.ofNat 8 t, 0] ++ zeros 60

/-- No tile is enabled. -/
def noTiles : State := (List.range 32).foldl (fun s t => s.setField .tileEn t 0) run

theorem test_hyp_TileCommandsRun :
    (∀ b ∈ [copyCmd 0 4, badCmd 0], let s := cmdSt b 0
     s.tiles.cmds.find? (fun y => decide (y.id = 7)) = some (tcmd b 0) ∧ (∀ j ∈ s.tiles.jobs, j.id = 3 → j.ctx = none ∧ j.slot.isSome = true) ∧ (s.trace 0).mask = 0 ∧
      cmdReady s (tcmd b 0) = true ∧ (tileCmdOf b).tile = 0 ∧ s.tileMine 0 0 = true ∧ tileFree s 0 = true ∧
      (readyFor s 0 0).head?.map (·.id) = some 7 ∧
      tcCheck s 0 false (some 0) (tileCmdOf b) = if b = badCmd 0 then some .badParam else none) ∧
    (cmdReady (cmdSt (badCmd 31) 0) (tcmd (badCmd 31) 0) = true ∧ (cmdSt (badCmd 31) 0).tileMine 0 31 = false) ∧
    (let s := cmdSt (copyCmd 0 4) 1
     runningOn s 0 = some (tcmd (copyCmd 0 4) 1) ∧ openCmds s 0 = [tcmd (copyCmd 0 4) 1] ∧
      s.tiles.cmds.filter (fun y => decide ((y.state = 1 ∧ y.tile = 0) ∨ (y.state = 0 ∧ uAt y.bytes 2 1 = 0)))
        = [tcmd (copyCmd 0 4) 1]) ∧
    (∀ t, t < 32 → noTiles.fval .tileEn t ≠ 1) ∧
    (let s := run
     s.tilePool 31 = true ∧ s.isFenced (tileUnit 31) = false ∧ s.fval .tileEn 31 = 1) ∧
    (runningOn run 31 = none ∧ run.tileDivider 31 = run.clk.target) ∧
    (let s := { run with clk := { run.clk with target := run.clk.target + 2 } }
     s.tileDivider 31 ≠ s.clk.target ∧ smFind s.tiles.divAt 31 = none) := by decide +kernel

/-- A trainable slot whose momentum codebook stands at the head of its weights, without trained tensors, in an HBM where
that codebook is of its kind or is not; a step of one zero vector. -/
def trainTens0 : Tensor := { tens0 with wSize := 4096, workReg := 8192, train := zeros 16, trainReg := 16384 }
def trainSt (kind : Nat) : State :=
  let s := run.setSlot 5 { state := 3, kind := 1, trainable := true, tens := some trainTens0, training := false }
  withHost (leBytes 8 1 ++ zeros 512) { s with hbm := memWriteN s.hbm 0 [BitVec.ofNat 8 kind] }

/-- A training exchange of slot 5 among the nodes 1 and 5, in node 1. -/
def gradColl : Coll :=
  { ctx := c0, part := 0, train := some 5, kind := 0, group := [1, 5], desc := [1, 0, 0, 0, 0, 0, 0, 0], own := [3, 4], seed := 0,
    clip := 0, got := [], call := [9], since := 0 }
def calling (call : Bytes) (src : Nat) (s : State) : State :=
  { s with tiles := { s.tiles with collFrom := [(peerKey src 0, call)] } }
def gradSt : State :=
  let s := calling [9] 5 (joined (trainSt 1))
  (s.modSlot 5 (fun x => { x with training := true })).setColls [gradColl]
def gradLong : Coll := { gradColl with own := zeros 5000 }
def gradMsg (b : Nat) : Msg := msgOf 30 5 0 (BitVec.ofNat 8 b :: zeros 7)

/-- How the lists of that step end, and its group's length. -/
def trainEnds (s : State) : Option (Option Status × Nat) :=
  match trainRecord c0 5 (hostBuf 520 0) (beginCmd c0 0x330 s) with
  | .ok rec => match (trainRun c0 5 trainTens0 rec (brefCharge c0 (hostBuf 520 0) rec.length (beginCmd c0 0x330 s))).1 with
    | .ok _ => some (none, uAt rec 4 2)
    | .error st => some (some st, uAt rec 4 2)
  | .error _ => none

theorem test_hyp_TrainingSteps :
    (∀ k ∈ [0, 1], let s := trainSt k
      Ready 0x330 s ∧ trainCheck c0 5 (hostBuf 520 0) (beginCmd c0 0x330 s) = none ∧ (s.slot 5).tens = some trainTens0 ∧
      trainEnds s = (if k = 1 then some (none, 0) else some (some .badParam, 0)) ∧
      statePoison 0 trainTens0 0 false s = false) ∧
    (gradSt.tiles.colls = [gradColl] ∧ 5 ∈ gradColl.others gradSt ∧ gradColl.seg 5 0 = none ∧
      ∀ b ∈ [1, 2], callOf gradSt (gradMsg b) = gradColl.call ∧ headerAgrees gradColl 0 (gradMsg b).body = decide (b = 1)) ∧
    (let y := { gradLong with got := [(5, 0, (gradMsg 1).body)] }
     headerAgrees gradLong 0 (gradMsg 1).body = true ∧ y.whole 5 5000 = false) := by decide +kernel

/-! ### Collectives and timeouts -/

/-- Node 1 with a group list in host memory. -/
def collSt (g : List Nat) : State := withHost (leBytes 2 2 ++ g.flatMap (leBytes 2)) (joined tileSt)

/-- A broadcast of node 0 that node 1 waits for, its announcement, and another's; the module with the call in progress. -/
def bcast : Coll :=
  { ctx := c0, part := 0, train := none, kind := 3, group := [0, 1], desc := desc1 0 1 4 (tileAt 0x100), own := [1, 2, 3, 4],
    seed := 0, clip := 0, got := [], call := [9], since := 0 }
def annMsg (src : Nat) (b : Bytes) : Msg := msgOf 0x20 src 0xffffffff b
def segMsg (src : Nat) : Msg := msgOf 0x20 src 0 [1, 2, 3, 4]
def bcastWith (x : Coll) : State := (calling [9] 0 (joined tileSt)).setColls [x]
def bcastSt : State := bcastWith bcast
def bcastAnn : Coll := { bcast with got := [(0, announceIdx, announceBody bcast)] }

/-- The call that node 1 makes first with the group 1, 5, and the announcement of node 5. -/
def call15 : Bytes := (newCall false 0 [1, 5] (collSt [1, 5])).1
def heard (s : State) : State :=
  { s with tiles := { s.tiles with collIn := [{ part := 0, call := call15, src := 5, idx := announceIdx, body := agreeBody { bcast with group := [1, 5] } ++ call15 }] } }

/-- A command of ring 3 that waits since 100 ns, with a CMD_TIMEOUT, at a time. -/
def slowCmd : InFlight :=
  { ctx := ctxOf 3 0 0, opc := 0x330, waitFrom := some 100, cmd := some (.trainStep (ctxOf 3 0 0) 5 (hostBuf 520 0) 0) }
def slowSt (limit t : Nat) : State :=
  atTime t (run.setRing 3 { run.ring 3 with inFlight := [slowCmd], cmdTimeout := BitVec.ofNat 16 limit })

/-- A group list in HBM, and one of a single node. -/
def hbmGroup : Bref := ⟨0, 6, 1, 0⟩

theorem test_hyp_CollectivesRun :
    (∀ g ∈ [[1, 5], [0, 1]], let b := beginCmd c0 0x530 (collSt g)
      let d := descOf (desc1 0 1 4 (tileAt 0x100))
      Ready 0x530 (collSt g) ∧ brefRead c0 (hostBuf 6 0) 2 b = [2, 0] ∧ collGroup (brefRead c0 (hostBuf 6 0) 6 b) = g ∧
      collCheck c0 3 (hostBuf 6 0) (desc1 0 1 4 (tileAt 0x100)) b = none ∧
      brefStatus c0 (hostBuf 6 0) 0 2 b = none ∧ brefStatus c0 (hostBuf 6 0) 0 6 b = none ∧ groupOk b g = true ∧
      hostDescCheck b 0 d = none ∧ hostDescCheck b 0 (collWrite d) = none ∧
      tensorWaits b c0 (xferFeet b 0 true (desc1 0 1 4 (tileAt 0x100))) = false ∧ xferOf b c0 = none ∧
      (b.entryOf c0).bind (·.waitFrom) = none ∧
      collData b 0 (collRead d) = ([1, 2, 3, 4], []) ∧ (collSt g).tiles.colls = [] ∧ (collSt g).fab.nodeId = 1 ∧
      tensorWaits (beginCmd c0 0x530 (cmdSt (copyCmd 0 4) 1)) c0 (xferFeet b 0 true (desc1 0 1 4 (tileAt 0x200))) = true) ∧
    (let s := { joined tileSt with hbm := memWriteN tileSt.hbm 0 ([3, 0] ++ leBytes 2 1 ++ leBytes 2 5) }
     let b := beginCmd c0 0x530 s
     collCheck c0 3 hbmGroup (desc1 0 1 4 (tileAt 0x100)) b = none ∧ brefStatus c0 hbmGroup 0 2 b = none ∧
      uAt (brefRead c0 hbmGroup 2 b) 0 2 = 3) ∧
    (let s := { joined tileSt with hbm := memWriteN tileSt.hbm 0 ([2, 0] ++ leBytes 2 5 ++ leBytes 2 5) }
     let b := beginCmd c0 0x530 s
     collCheck c0 3 hbmGroup (desc1 0 1 4 (tileAt 0x100)) b = none ∧ brefStatus c0 hbmGroup 0 6 b = none ∧
      groupOk b (collGroup (brefRead c0 hbmGroup 6 b)) = false) ∧
    (∀ e ∈ (heard (collSt [1, 5])).tiles.collIn, e.part = 0 ∧ e.idx = announceIdx ∧ e.src = 5 ∧
      e.body.take 16 = leBytes 1 3 ++ leBytes 1 1 ++ zeros 6 ++ leBytes 8 4) := by decide +kernel

theorem test_hyp_CollectivesRun_segments :
    (bcast.me bcastSt ≠ 0 ∧ 0 ∈ bcast.others bcastSt ∧ 7 ∉ bcast.others bcastSt ∧ bcast.seg 0 0 = none ∧
      callOf bcastSt (segMsg 0) = [9] ∧ callOf bcastSt (annMsg 0 (announceBody bcast)) = [9] ∧
      callOf bcastSt (annMsg 0 (zeros 16 ++ [9])) = [9] ∧
      Coll.mismatch { bcast with got := [(0, announceIdx, zeros 16 ++ [9])] } = true ∧ bcastAnn.mismatch = false ∧
      bcastAnn.announced bcastSt = true ∧ bcastAnn.whole 0 4 = false ∧
      Coll.whole { bcastAnn with got := bcastAnn.got ++ [(0, 0, [1, 2, 3, 4])] } 0 4 = true ∧
      (callOf bcastSt (annMsg 0 (zeros 16 ++ call15))).length = 57 ∧ callOver bcastSt 0 call15 = false ∧ call15 ≠ bcast.call ∧
      bcastSt.tiles.collIn = []) ∧
    (∀ k ∈ [(2, 2000101), (2, 2000100), (0, 2000101)], let s := slowSt k.1 k.2
      (s.ring 3).inFlight = [slowCmd] ∧ s.coll slowCmd.ctx = none ∧ s.tiles.jobs = [] ∧
      decide ((s.ring 3).cmdTimeout ≠ 0 ∧ 100 + (s.ring 3).cmdTimeout.toNat * 1000000 < s.now.toNat)
        = decide (k = (2, 2000101))) := by decide +kernel

/-! ### The fabric -/

/-- A module with lit links, and link 3 in a state with some of its fields. -/
def linkSt (x : Link) : State := (joined portSt).setLink 3 x

/-- The same where a signature verifies. -/
def trusting (pub msg sig : Bytes) (s : State) : State :=
  { s with crypto := { s.crypto with verifies := [leBytes 4 pub.length ++ pub ++ leBytes 4 msg.length ++ msg ++ sig] } }
def rootKey : Bytes := leBytes 48 run.sys.fuses.rootHash.toNat

/-- A HELLO of a node with its chain, and a KEY_EXCH. -/
def helloMsg (n : Nat) : Msg := msgOf 1 n 0 (leBytes 2 n ++ zeros 6 ++ [9, 9])
def keyMsg : Msg := msgOf 2 5 0 (List.replicate 97 1 ++ zeros 7 ++ List.replicate 96 2)
def keyGood (s : State) : State := trusting [9, 9] (List.replicate 97 1) (List.replicate 96 2) s
def authLink : Link := { state := 2, peer := 5, peerChain := [9, 9], keyGen := 4 }
def upLink : Link := { state := 3, peer := 5, peerChain := [9, 9], txKey := some 70, rxKey := some 71 }

theorem test_hyp_LinksComeUpAndDown :
    ((linkSt { state := 1 }).linkLit 3 = true ∧ (joined run).linkLit 3 = false) ∧
    (let s := trusting rootKey [9, 9] [] (linkSt { state := 2 })
     sigVerifies s rootKey [9, 9] [] = true ∧ nodeTaken s 3 5 [9, 9] = false ∧ nodeTaken s 3 1 [9, 9] = true ∧
      (s.link 3).heldMsgs = [] ∧ (s.link 3).rekeyCtx = none ∧
      (helloMsg 5).body.drop 8 = [9, 9] ∧ uAt (helloMsg 5).body 0 2 = 5) ∧
    sigVerifies (linkSt { state := 2 }) rootKey [9, 9] [] = false ∧
    (∀ x ∈ [authLink, { upLink with rekey := true }, { upLink with rekey := true, ended := true }], let s := keyGood (linkSt x)
      sigVerifies s [9, 9] (fitTo 97 keyMsg.body) (slice keyMsg.body 104 96) = true ∧ s.fab.joined = true ∧
      s.fab.join = none ∧ (s.link 3).newRx = none ∧ (s.link 3).switching = false) ∧
    sigVerifies (linkSt authLink) [9, 9] (fitTo 97 keyMsg.body) (slice keyMsg.body 104 96) = false ∧
    (let n := 2 ^ run.fval .fabRekeyAt
     (linkSt { upLink with txCtr := n }).fval .fabRekeyAt = run.fval .fabRekeyAt ∧ 0 < n ∧ n < 2 ^ 48 - 1) ∧
    (Ready 0x510 (linkSt upLink) ∧ Ready 0x510 (linkSt {}) ∧ Ready 0x510 (linkSt { upLink with rekey := true })) := by
  decide +kernel

/-- A frame of 2,000 bytes with a counter, flags and a good CRC, and the module that opens it on link 3. -/
def lframe (ctr flags : Nat) : Bytes :=
  let b := leBytes 3 ctr ++ [BitVec.ofNat 8 flags] ++ zeros 1992
  b ++ leBytes 4 (crc32c b).toNat
def opening (f : Bytes) (s : State) : State :=
  { s with crypto := { s.crypto with opens := [(openKey 71 (linkNonce 5 0 0) (f.take 12) (slice f 12 1984), zeros 1968)] } }

/-- A message of node 7 in flow class 1 that waits for an earlier one since 100 ns. -/
def lateMsg : Msg := { msgOf 16 7 0 [] with cls := 1, mseq := 9 }
def gapSt (t : Nat) : State :=
  let s := joined run
  atTime t { s with fab := { s.fab with gapSince := [(seqKey 7 1, 100)], reorder := [(3, lateMsg)] } }

theorem test_hyp_FramesTravel_crc :
    (lframe 0 2).length = 2000 ∧ uAt (lframe 0 2) 1996 4 = (crc32c ((lframe 0 2).take 1996)).toNat := by
  have h : ∀ b : Bytes, b.length = 1996 → uAt (b ++ leBytes 4 (crc32c b).toNat) 1996 4 = (crc32c b).toNat := fun b hb => by
    rw [uAt_append_right (by omega), ← List.append_nil (leBytes 4 _), hb, uAt_leBytes]
    have := (crc32c b).isLt
    omega
  refine ⟨by simp [lframe], ?_⟩
  rw [lframe, List.take_left' (by simp)]
  exact h _ (by simp)

theorem test_hyp_FramesTravel :
    (let s := linkSt upLink
     s.obs.stop = none ∧ s.fab.leaving = none ∧ s.linkUp 3 = true ∧ s.linkLit 3 = true ∧ laneMoving s 3 = false ∧
      s.linkUp 4 = false ∧ (s.link 3).resend = [] ∧ (s.link 3).retry.length < 128 ∧ (s.link 3).outQ = [] ∧
      (s.link 3).txBuf = [] ∧ (s.link 3).newTx = none ∧ (s.link 3).switching = false ∧ (s.link 3).begun = []) ∧
    (let x := (linkSt upLink).link 3
     x.tagKey ((lframe 0 2).take 12) = some (71, 0) ∧ x.expPhase = false ∧ x.expCtr = 0 ∧ x.tagFails < 3 ∧
      Link.tagKey { x with expCtr := 2 } ((lframe 0 2).take 12) = some (71, 0) ∧ x.prevBad = false ∧ x.ended = false) ∧
    (let f := lframe 0 2
     uAt (f.take 12) 0 3 = 0 ∧
      (uAt (f.take 12) 3 1).testBit 0 = false ∧ (uAt (f.take 12) 3 1).testBit 1 = true ∧
      (uAt (f.take 12) 3 1).testBit 2 = false ∧
      gcmOpen (linkSt upLink) 71 (linkNonce 5 0 0) (f.take 12) (slice f 12 1984) = none ∧
      gcmOpen (opening f (linkSt upLink)) 71 (linkNonce 5 0 0) (f.take 12) (slice f 12 1984) = some (zeros 1968)) ∧
    (let n := (joined run).fval .fabGapTimeout * 1000
     smFind (gapSt (100 + n)).fab.gapSince (seqKey 7 1) = some 100 ∧ (gapSt (100 + n)).now.toNat = 100 + n ∧
      (gapSt (99 + n)).now.toNat < 100 + n ∧ classOf lateMsg.mtype = some 1) := by decide +kernel

/-- A join of ring 0 since 100 ns, at a time, with link 3 in a state. -/
def joinSt (st t : Nat) : State :=
  let s := atTime t (portSt.setLink 3 { state := st, wanted := true, peer := 5 })
  { s with fab := { s.fab with join := some ⟨some c0, 4, 0x18, 100, none⟩ } }
/-- The time reference of node 1, and the answer of a peer. -/
def respMsg : Msg := msgOf 4 5 0 (leBytes 8 100 ++ leBytes 8 400 ++ leBytes 8 450)

theorem test_hyp_NodesJoinAndLeave :
    (Ready 0x500 run ∧ run.fab.joined = false ∧ run.fab.join = none ∧ run.fab.leaving = none) ∧
    (let n := run.fval .fabJoinTimeout * 1000000
     (joinSt 1 (99 + n)).now.toNat < 100 + n ∧ (joinSt 1 (100 + n)).now.toNat = 100 + n ∧
      (joinSt 1 0).linksUp = [] ∧ (joinSt 3 0).linksUp ≠ [] ∧ (joinSt 3 0).linkUp 3 = true ∧ (0x18 : Word).getLsbD 3 = true) ∧
    (Ready 0x501 run ∧ Ready 0x501 (joined run) ∧ (joined run).fab.join = none ∧ (joined run).flow.leases = [] ∧
      (joined run).flow.held = [] ∧ (joined run).tiles.colls = [] ∧ (joined run).linksUp = [] ∧
      (joined run).fab.leaving = none ∧ (∀ l, l < 32 → ((joined run).link l).heldMsgs = [] ∧ ((joined run).link l).rekeyCtx = none)) ∧
    (let s := linkSt upLink
     s.linkUp 3 = true ∧ (s.link 3).heldMsgs = [] ∧ (s.link 3).rekeyCtx = none ∧ Ready 0x502 s ∧ Ready 0x540 s) ∧
    (let s := linkSt upLink
     s.now.toNat < s.fab.timerAt.toNat + 1000000000 ∧
      s.fab.timerAt.toNat + 1000000000 ≤ (atTime 1000000000 s).now.toNat) ∧
    (let s := atTime 700 (linkSt upLink)
     s.isMaster = false ∧ s.fab.via ≠ (s.link 3).peer ∧ s.fab.join = none) := by decide +kernel

theorem test_hyp_IntegerDotIsTheSum : ([255, 128, 1] : List Nat).length = ([127, 255, 3] : List Nat).length := by decide +kernel

/-! ### Partitions, keys and reports -/

/-- A resource list of one range of four pages, with ports and one slot. -/
def resList (ports count : Nat) : Bytes :=
  leBytes 4 ports ++ zeros 4 ++ leBytes 32 8 ++ zeros 8 ++ [BitVec.ofNat 8 count] ++ zeros 7 ++ leBytes 4 100 ++ leBytes 4 4

/-- Partition 5 with one region of four pages in a state, its rings, an entry of its own and a key. -/
def partSt (st : Nat) : State :=
  let s := run.setPart 5 { state := st, ports := 32, slots := 8, ranges := [(100, 4)], regions := [2], cmdKey := some 9 }
  let s := s.setRegion 2 ⟨5, 100, 4, some 40, none, 0, 0, 0, 0, 0, 0, 0⟩
  (s.setEps 5 [Epoch.initial]).setRing 7 { s.ring 7 with part := 5 }

/-- The state with as many regions as there can be. -/
def crowded (s : State) : State := { s with regions := (List.range 256).map (fun i => (i, ⟨0, 0, 0, some 1, none, 0, 0, 0, 0, 0, 0, 0⟩)) }

/-- A command of partition 0 with WAIT_DRAIN, and partition p with a tile command that runs. -/
def cDrain : CmdCtx := ctxOf 0 0 4
def tilePart (p : Nat) : State :=
  let s := partSt 2
  { s with tiles := { s.tiles with cmds := [{ tcmd (copyCmd 0 4) 1 with part := p }] } }

theorem test_hyp_PartitionsComeAndGo :
    (∀ k ∈ [(32, 1), (32, 0), (8, 1)], let s := withHost (resList k.1 k.2) portSt
      let b := beginCmd c0 0x600 s
      let size := 56 + 8 * uAt (brefRead c0 (hostBuf 64 0) 56 b) 48 1
      let l := brefRead c0 (hostBuf 64 0) size b
      Ready 0x600 s ∧ (s.part 5).state = 0 ∧ size ≤ 64 ∧ brefStatus c0 (hostBuf 64 0) 0 56 b = none ∧
      brefStatus c0 (hostBuf 64 0) 0 size b = none ∧ listHeld b l = decide (k.2 = 1) ∧ listBusy b l = decide (k.1 = 8) ∧
      uAt l 48 1 + s.regions.length ≤ 256 ∧ (k.2 = 1 → 256 < uAt l 48 1 + (crowded s).regions.length) ∧
      listHeld (beginCmd c0 0x600 (crowded s)) l = decide (k.2 = 1) ∧ listBusy (beginCmd c0 0x600 (crowded s)) l = decide (k.1 = 8)) ∧
    (allZero (List.replicate 48 (7 : Byte)) = false ∧ brefStatus c0 (hostBuf 55 0) 0 55 (beginCmd c0 0x600 run) = none ∧
      (let s := withHost (resList 32 2) run
       brefStatus c0 (hostBuf 64 0) 0 56 (beginCmd c0 0x600 s) = none ∧
        (hostBuf 64 0).size < 56 + 8 * uAt (brefRead c0 (hostBuf 64 0) 56 (beginCmd c0 0x600 s)) 48 1)) ∧
    (cDrain.waitDrain = true ∧ c0.waitDrain = false ∧ Ready 0x602 (tilePart 5) ∧ PathEmpty (tilePart 5) ∧
      ((tilePart 5).part 5).state = 2 ∧ ((tilePart 5).part 5).resetCtx = none ∧ (tilePart 5).tiles.cmds ≠ [] ∧
      ∀ x ∈ (tilePart 5).tiles.cmds, x.part = 5 ∧ x.state = 1) ∧
    (∀ p ∈ [5, 63], ∀ st ∈ [3, 4], let s := run.setPart p { state := st }
      Ready 0x602 s ∧ (s.part p).state = st ∧ (s.part p).resetCtx = none) ∧
    (Ready 0x602 (partSt 2) ∧ PathEmpty (partSt 2) ∧ (partSt 2).tiles.cmds = [] ∧ (partSt 2).slots = [] ∧
      ((partSt 2).part 5).state = 2 ∧ ((partSt 2).part 5).resetCtx = none) ∧
    (Ready 0x601 (partSt 2) ∧ Ready 0x601 (partSt 1) ∧ ((partSt 1).part 5).state = 1) ∧
    (Ready 0x603 (partSt 1) ∧ Ready 0x603 (partSt 4)) := by decide +kernel

/-- That partition with its region rotating (1) or in scrub (2) since time 0, at a time. -/
def regSt (st t : Nat) : State :=
  atTime t ((partSt 1).setRegion 2 ⟨5, 100, 4, some 40, some 41, 1, st, 0, 0, 0, 1, 0⟩)

/-- The envelope of a command key for partition 0, and what it opens to. -/
def keyEnv : Bytes := leBytes 4 0x4b504845 ++ [1, 0, 0, 0] ++ leBytes 4 8 ++ zeros 4 ++ zeros 304 ++ zeros 8
def keySt (k : Bytes) : State :=
  { run with crypto := { opens := [(openKey run.hpkeKey ((envInfo ++ keyEnv.take 16) ++ zeros 97) [] (zeros 8), k)] } }
def keyEnvSt : State := keySt (List.replicate 32 7)

/-- A module that has answered GET_VERSION. -/
def spdmSt : State := { run with sys := { run.sys with spdmLog := [0x10, 0x84, 0, 0] } }

theorem test_hyp_KeysAndReports :
    (∀ k ∈ [0, 1, 2], let s := regSt k 0
      let b := beginCmd (ctxOf 7 5 0) 0x610 s
      Ready 0x610 s ∧ Ready 0x611 s ∧ regionCheck (ctxOf 7 5 0) 2 b = none ∧
      s.region 2 = some ⟨5, 100, 4, some 40, some 41, 1, k, 0, 0, 0, 1, 0⟩ ∧
      (k ≠ 0 → walkDone b 2 ⟨5, 100, 4, some 40, some 41, 1, k, 0, 0, 0, 1, 0⟩ < walkBytes b 2 ⟨5, 100, 4, some 40, some 41, 1, k, 0, 0, 0, 1, 0⟩)) ∧
    (∀ k ∈ [1, 2], let x : Region := ⟨5, 100, 4, some 40, some 41, 1, k, 0, 0, 0, 1, 0⟩
      walkDone (regSt k 0) 2 x < walkBytes (regSt k 0) 2 x ∧
      walkBytes (regSt k 1000000000) 2 x ≤ walkDone (regSt k 1000000000) 2 x ∧ ((regSt k 0).part 5).state ≠ 4 ∧ wipes (regSt k 0) = []) ∧
    (((regSt 0 0).region 2).map (·.part) ≠ some 0 ∧ (regSt 0 0).region 9 = none ∧ Ready 0x610 (regSt 0 0)) ∧
    (Ready 0x620 run ∧ openEnvelope (beginCmd c0 0x620 run) 1 0 0 keyEnv = none ∧
      openEnvelope (beginCmd c0 0x620 keyEnvSt) 1 0 0 keyEnv = some (List.replicate 32 7) ∧
      openEnvelope (beginCmd c0 0x620 (keySt [7])) 1 0 0 keyEnv = some [7]) ∧
    (let b := beginCmd c0 0x630 run
     let rep := reportBytes b [1] (fun p => c0.part == 0 || p == c0.part)
     Ready 0x630 run ∧ 1 < rep.length ∧ rep.length ≤ 4096 ∧ brefStatus c0 (hostBuf 1 1) 1 0 b = none ∧
      brefStatus c0 (hostBuf 4096 1) 1 0 b = none ∧ brefStatus c0 (hostBuf 4096 1) 1 rep.length b = none) ∧
    (Ready 0x631 run ∧ brefStatus c0 (hostBuf 0 1) 1 0 (beginCmd c0 0x631 run) = none) ∧
    (run.sys.mode.hasHost = true ∧ (modeSt .off).sys.mode.hasHost = false ∧ (spdmRefused run [0x13, 0xe1, 0, 0]).isSome = true ∧
      spdmRefused run [0x10, 0x84, 0, 0] = none ∧ spdmRefused spdmSt ([0x13, 0xe0, 1, 0] ++ zeros 33) = none ∧
      spdmSigned ([0x13, 0xe0, 1, 0] ++ zeros 33) = true) := by decide +kernel

theorem test_hyp_KeysAndReports_chain :
    let b := beginCmd c0 0x631 run
    let n := (chainBytes b).length
    (hostBuf 0 1).size < n ∧ n ≤ (hostBuf n 1).size ∧ brefStatus c0 (hostBuf n 1) 1 0 b = none ∧
      brefStatus c0 (hostBuf n 1) 1 n b = none := by
  refine ⟨?_, Nat.le_refl _, by rfl, by rfl⟩
  simp only [hostBuf, chainBytes, List.length_append, leBytes_length, zeros_length]
  omega

/-! ### Stops and errors -/

/-- A stop that stands since 1 us, with a capture of some bytes on copy 3. -/
def stop1 (n : Nat) : Stop :=
  { cause := 1, pk := 0, ft := 1000, origin := 0, originFt := 1000, skews := [], caps := [(3, { bytes := zeros n })] }
def stopSt (n t : Nat) : State := let s := atTime t run; { s with obs := { s.obs with stop := some (stop1 n) } }

theorem test_hyp_StopsHaltTheModule :
    (Ready 0x730 run ∧ run.obs.stop = none ∧ Ready 0x730 (stopSt 1 2000) ∧ (stopSt 1 2000).obs.stop = some (stop1 1) ∧
      (stop1 1).pk ≠ (stopSt 1 2000).clk.pk - (stopSt 1 2000).clk.startPk + 12) ∧
    (let s := linkSt upLink
     s.linkUp 3 = true ∧ ((s.setField .stopCtrl 0 0).fval .stopCtrl).testBit 3 = false ∧
      ((s.setField .stopCtrl 0 15).fval .stopCtrl).testBit 3 = true ∧
      ((s.setField .stopCtrl 0 15).fval .stopCtrl).testBit 0 = true) ∧
    ((smGet {} (stop1 1).caps 3).bytes.length ≠ 4096 ∧ (stopSt 1 10999).now.toNat < 1000 + 10000 ∧
      1000 + 10000 ≤ (stopSt 1 11000).now.toNat ∧ (smGet {} (stop1 4096).caps 3).bytes.length = 4096) ∧
    (Ready 0x731 run ∧ Ready 0x731 (stopSt 1 2000) ∧ brefForm c0 (hostBuf 0 1) 1 = true) := by decide +kernel

theorem test_hyp_StopsHaltTheModule_scan (b : State) (st : Stop) :
    (hostBuf 0 1).size < scanLength b st ∧ scanLength b st ≤ (hostBuf (scanLength b st) 1).size ∧
    brefForm c0 (hostBuf (scanLength b st) 1) 1 = true := by
  refine ⟨?_, Nat.le_refl _, by rfl⟩
  simp only [hostBuf, scanLength]
  omega

/-- An event of a source with a severity, on a unit, that poisons some data or none. -/
def errOf (src kind sev unit : Nat) (at_ : PoisonAt) : ErrIn := ⟨src, kind, sev, unit, 0xff, 0, 0, 0, 0, 0, at_⟩

/-- A procedure on a unit since 100 ns, at a time. -/
def procSt (action unit : Nat) (c : Option CmdCtx) (t : Nat) (s : State) : State :=
  atTime t { s with darn := { s.darn with proc := some ⟨unit, 2, action, 0, 0, c.toList, 0, 0⟩ } }

/-- Corrected errors in two rows of HBM stack 2 count apart (13 R403). -/
theorem test_hbm_rows_count_apart :
    let e : DWord → ErrIn := fun r => { errOf 3074 0 0 0 .nothing with address := r }
    winCount (winOf (e 1) (winBump (e 2) (winBump (e 1) run).2.2).2.2) = 1 := by decide +kernel

theorem test_hyp_DarnHandlesErrors :
    (∀ e ∈ [errOf 4096 0 0 0 .nothing, errOf 1024 1 1 4096 (.tileLine 2 9), errOf 2048 2 3 2048 .nothing,
        errOf 7168 2 2 2049 .nothing], sourceOk e.source = true ∧ run.isFenced e.unit = false ∧ leavesNone run e.unit = false) ∧
    (winCount (winNow run (winOf (errOf 4096 0 0 0 .nothing) run)) < (winNow run (winOf (errOf 4096 0 0 0 .nothing) run)).t ∧ run.darn.proc = none ∧
      (smGet {} run.darn.logs 0).recs.length < 4096) ∧
    (∀ x ∈ [(4, 6145), (5, 2049)], let s := procSt x.1 x.2 (some c0) 200 (flying c0 0x820 run)
      s.darn.proc = some ⟨x.2, 2, x.1, 0, 0, [c0], 0, 0⟩ ∧ s.darn.pend = [] ∧ s.isFenced x.2 = false) ∧
    (let s := procSt 5 1029 none 200 (pktSt (pkt 0 5 .flow) run)
     (inPipe s (1029 % 1024)) ≠ [] ∧ fencing s (pipeUnit 5) = some ⟨1029, 2, 5, 0, 0, [], 0, 0⟩ ∧
      inPipe s 5 = [pkt 0 5 .flow]) ∧
    (let s := pktSt (pkt 0 5 .flow) run
     unitOk (2048 + 165) = true ∧ stuck (atTime 1000000000 s) (2048 + 165) = true ∧ s.isFenced (2048 + 165) = false ∧
      leavesNone s (2048 + 165) = false ∧ holdsWork run (2048 + 165) = false ∧ s.darn.proc = none ∧
      s.now.toNat < (movedAt s (2048 + 165)).toNat + s.fval .darnWatchdog * 1000) ∧
    (let s := procSt 5 (tileUnit 0) none 200 (cmdSt (copyCmd 0 4) 1)
     fencing s (tileUnit 0) = some ⟨tileUnit 0, 2, 5, 0, 0, [], 0, 0⟩ ∧ runningOn s 0 = some (tcmd (copyCmd 0 4) 1) ∧
      (∀ j ∈ s.tiles.jobs, j.id = 3 → j.ctx = none ∧ j.slot.isSome = true) ∧
      s.tiles.cmds.filter (fun y => decide ((y.state = 1 ∧ y.tile = 0) ∨ (y.state = 0 ∧ uAt y.bytes 2 1 = 0)))
        = [tcmd (copyCmd 0 4) 1] ∧
      s.clk.pk < 0 + s.fval .darnTileWait * 1600 ∧ 0 + s.fval .darnTileWait * 1600 ≤ (atPk 1000000000 s).clk.pk) := by decide +kernel

/-- An unfused module, of the debug sort or not, and one with unit 2049 fenced and lane 1 on its spare. -/
def debugSt (b : Bool) : State := { run with sys := { run.sys with fuses := { run.sys.fuses with debug := b } } }
def outSt : State := { run with darn := { run.darn with fenced := [2049], spares := [1] } }

/-- Three command processors of four are fenced. -/
def lastCp : State := { run with darn := { run.darn with fenced := [cpUnit 0, cpUnit 1, cpUnit 2] } }

theorem test_hyp_DarnCommands :
    (Ready 0x800 run ∧ Ready 0x801 run ∧ Ready 0x810 run ∧ windowSources 1024 ≠ [] ∧ windowSources (1024 + 0x3ff) ≠ []) ∧
    (Ready 0x820 lastCp ∧ unitOk (cpUnit 3) = true ∧ outOfService lastCp (cpUnit 3) = false ∧ leavesNone lastCp (cpUnit 3) = true) ∧
    (∀ n ∈ [2049, 6145], Ready 0x820 run ∧ unitOk n = true ∧ outOfService run n = false ∧ leavesNone run n = false ∧
      spareUsed run n = false ∧ run.darn.proc = none ∧ (smGet {} run.darn.logs 0).recs.length < 4096 ∧
      Ready 0x821 outSt ∧ outOfService outSt n = true) ∧
    (∀ b ∈ [true, false], Ready 0x830 (debugSt b) ∧ (debugSt b).sys.fuses.debug = b ∧ sourceOk 1024 = true) := by
  decide +kernel

/-! ### Power, starts and loops -/

/-- A module with both its power signals, and one that removes its power since 100 ns. -/
def signalSt (m : Mode) (en perst : Bool) : State :=
  let s := modeSt m
  { s with sys := { s.sys with pwrEn := en, perstN := perst } }
def removingSt (t : Nat) (input main : Bool) : State :=
  let s := atTime t (modeSt .removing)
  { s with sys := { s.sys with inputPresent := input, removal := some ⟨100, main⟩ } }

/-- The same with a damaged input stage, and a module in BOOT with an activated image of kind 2. -/
def harmed (s : State) : State := { s with sys := { s.sys with inputHarmed := true } }
def bootSt (n : Nat) : State :=
  let s := modeSt .boot
  { s with sys := { s.sys with failedStarts := n, fw := modNth (fun f => { f with state := 2, pending := 5 }) s.sys.fw 2 } }

theorem test_hyp_PowerComesAndGoes :
    ((bootSt 0).sys.mode = .boot ∧ 2 < (bootSt 0).sys.fw.length ∧ (nth {} (bootSt 0).sys.fw 2).state = 2 ∧
      (nth {} (bootSt 0).sys.fw 1).state ≠ 2) ∧
    ((modeSt .off).sys.mode = .off ∧ (modeSt .boot).sys.mode = .boot ∧ run.sys.mode ≠ .off ∧ run.sys.mode ≠ .removing ∧
      run.sys.mode ≠ .standby) ∧
    (let s := signalSt .standby true true
     s.sys.mode = .standby ∧ s.sys.perstN = true ∧ s.sys.pwrEn = true ∧ (signalSt .standby true false).sys.perstN = false ∧
      (signalSt .standby false true).sys.pwrEn = false) ∧
    (∀ i ∈ [true, false], ∀ m ∈ [true, false], let s := removingSt 100 i m
      s.sys.inputHarmed = false ∧ (harmed s).sys.inputHarmed = true ∧ s.sys.mode = .removing ∧ s.sys.removal = some ⟨100, m⟩ ∧ s.now.toNat < 100 + 1000000 ∧ s.sys.inputPresent = i ∧
      100 + 1000000 ≤ (removingSt 1000100 i m).now.toNat) := by decide +kernel

/-- A module that starts for ring 0's command. -/
def startJob (warm safe : Bool) : StartJob := { ctx := c0, warm := warm, preserve := true, fromSafe := safe }
def startSt (warm safe : Bool) (failed : Nat) : State :=
  let s := flying c0 0x010 (modeSt .starting)
  { s with sys := { s.sys with start := some (startJob warm safe), failedStarts := failed } }

/-- A module that may start warm. -/
def warmSt (m : Mode) : State := { modeSt m with sys := { (modeSt m).sys with coldOnly := false } }

/-- Another command of another ring is open. -/
def withOther (s : State) : State := flying (ctxOf 5 0 0) 0x330 s

theorem test_hyp_StartsAndShutdown :
    (∀ m ∈ [Mode.waitStart, .running, .stopped, .safe, .fatal], Ready 0x010 (warmSt m) ∧
      coldAsked (warmSt m) = decide (m ≠ .running ∧ m ≠ .stopped) ∧
      othersOpen c0 (fun _ => true) (beginCmd c0 0x010 (warmSt m)) = false ∧
      othersOpen c0 (fun _ => true) (beginCmd c0 0x010 (withOther (warmSt m))) = true ∧
      othersOpen c0 (fun e => decide (e.opc = 0x010) && e.mark.isSome) (beginCmd c0 0x010 (withOther (warmSt m))) = false) ∧
    (∀ w ∈ [true, false], ∀ f ∈ [true, false], ∀ n ∈ [0, 1, 2], let s := startSt w f n
      s.sys.mode = .starting ∧ s.sys.start = some (startJob w f) ∧ (startJob w f).joining = false ∧
      s.fval .startJoin ≠ 1 ∧ s.sys.failedStarts = n) ∧
    (Ready 0x011 run ∧ othersOpen c0 (fun _ => true) (beginCmd c0 0x011 run) = false ∧ packetsGone run = true ∧
      run.tiles.cmds = []) := by decide +kernel

/-- A module whose target divider may move. -/
def divSt (target hold : Nat) : State := { run with clk := { run.clk with pk := 160000, target := target, freqHold := hold } }

theorem test_hyp_LoopsLasersAndArbiters :
    (run.sys.mode = .running ∧ run.sys.eqAt + 60 * 1600000000 ≤ (atPk 96000000000 run).clk.pk ∧
      (atPk 95999999999 run).clk.pk < run.sys.eqAt + 60 * 1600000000) ∧
    (3 < run.clk.railMv.length ∧ mayStep run 3 = true ∧ mayStep (run.setField .vloopCtrl 0 1) 3 = false ∧
      nth 0 run.clk.railMv 3 + 5 ≤ 850 ∧ railLow 3 + 5 ≤ nth 0 run.clk.railMv 3) ∧
    (let s := { run with clk := { run.clk with railMv := [600, 600, 600, 846] } }
     mayStep s 3 = true ∧ mayStep s 2 = true ∧ 850 < nth 0 s.clk.railMv 3 + 5 ∧ nth 0 s.clk.railMv 2 < railLow 2 + 5) ∧
    (let s := divSt 10 9
     s.sys.mode = .running ∧ s.clk.tclkOld = none ∧ (s.clk.periods + 1) * 160000 ≤ s.clk.pk ∧
      (s.fval .tclkCtrl).testBit 16 = false ∧ bitsOf (s.fval .tclkCtrl) 4 0 < 10 ∧ 10 < bitsOf (s.fval .tclkCtrl) 12 8 ∧
      25 < s.fval .pwrLimit ∧ 5 < s.fval .tjLimit) ∧
    ((portSt.laser 0).present = true ∧ (portSt.laser 0).on = true ∧ (portSt.laser 0).fault = false ∧
      (run.laser 0).present = false ∧ (run.laser 0).on = false) ∧
    (let s := { run with clk := { run.clk with ppsLast := some 0, pk := 1439999999 } }
     s.sys.mode.hasHost = true ∧ s.clk.ppsLast = some 0 ∧ s.clk.pk < 0 + 1440000000 ∧ run.clk.ppsLast = none) ∧
    ((servoOn (run.setField .ppsCtrl 0 3) = true ∧ servoOn (run.setField .ppsCtrl 0 0) = false) ∧
      ((run.setField .ppsCtrl 0 3).fval .ppsCtrl).testBit 1 = true ∧ atSecond (run.setField .ppsCtrl 0 3) = true ∧
      atSecond (atTime 500 run) = false) ∧
    (((run.arbOf 5).refills + 1) * 1600 ≤ (atPk 1600 run).clk.pk ∧ (run.arbOf 5).prior = none ∧ (run.arbOf 5).waiting = [] ∧
      run.clk.pk < ((run.arbOf 5).refills + 1) * 1600) ∧
    (let s := run.setArb 5 { (run.arbOf 5) with floor := 100, tokens := [(63, 64)] }
     0 < (s.arbOf 5).floor ∧ 64 ≤ smGet 0 (s.arbOf 5).tokens 63 ∧ (s.arbOf 5).prior = none ∧ (s.arbOf 5).waiting = []) := by
  decide +kernel

/-! ### Encodings, the invariant and rules stated whole -/

/-- A header whose every field is at its highest value. -/
def topHead : CmdHead := ⟨15, 4095, 0xffff, 0xffffffff, 63, 1023, 65535, 0xffff, 0xffff, 0xffffffffffffffff, 2 ^ 32 - 1, 0xffffffff⟩

theorem test_hyp_CommandsReadBack :
    topHead.wf = true ∧ readHead (headBytes topHead) = topHead ∧
    ∀ i ∈ [Instr.nop c0, .partCreate c0 255 (List.replicate 48 7) (hostBuf (2 ^ 32 - 1) 0),
        .flowWrite c0 (.index 5) 3 [1, 2], .gclWrite c0 255 1 (2 ^ 32 - 1) [(2, 2 ^ 32 - 1)], .epochCommit c0 1 0x1ffffffff,
        .cmdKeySet c0 keyEnv, .meterWrite c0 65535 15 1 2 3 4],
      i.wf = true ∧ operandsLaid i = true ∧ (encodePayload i).isSome = true := by decide +kernel

/-- The state that a removal leaves, with a command in its queue. -/
def removed : State := { ((out (exec .prsntNBreak State.reset)).getD State.reset) with pending := [.removalComplete] }

theorem test_hyp_QuietIsKept :
    Quiet removed ∧ removed.pending.head? ≠ some .bootDone ∧ (out (step removed)).isSome = true :=
  ⟨by constructor <;> decide +kernel, by decide +kernel, by decide +kernel⟩

theorem test_hyp_FlowHashOfKey : (zeros 64).length = 64 ∧ ([1] ++ zeros 63 : Bytes).length = 64 := by decide +kernel

/-- A state with two live epochs of partition 0. -/
def twoEpochs : State := run.setEps 0 [{ Epoch.initial with num := 7, refs := 3 }, { Epoch.initial with num := 8 }]

theorem test_hyp_EpochStatusReply :
    Ready 0x311 run ∧ run.eps 0 = [Epoch.initial] ∧ Ready 0x311 twoEpochs ∧
    twoEpochs.eps 0 = [{ Epoch.initial with num := 7, refs := 3 }, { Epoch.initial with num := 8 }] := by decide +kernel

theorem test_hyp_ForeignSlotsRefused :
    ∀ opc ∈ [0x300, 0x301, 0x330], (partSt 1).sys.mode.hasHost = true ∧
      (beginCmd c0 opc (partSt 1)).slotOwner 3 ≠ 0 ∧ (beginCmd (ctxOf 7 5 0) opc (partSt 1)).slotOwner 255 ≠ 5 := by
  decide +kernel

/-! ### The manual's worked examples -/

/-- 14 R441's example: an edge 37 ns after the second, without a rate so far. -/
theorem test_pps_correction :
    (out (exec .ppsInEdge (atTime 5000000037 (run.setField .ppsCtrl 0 1)))).map
      (fun t => (t.clk.integ, t.clk.ppsRate, adderInc t)) = some (-9, -88, 2684354505) := by decide +kernel

/-- 16's example: PORT_MAX_FRAME of an enabled port is locked, that of a disabled port is not. -/
theorem test_static_write :
    fieldId .portMaxFrame 0 = 0x1040 ∧
    fieldWriteCheck (run.setField .portEn 1 1) 0 0x1040 2 [1518, 9216] = some .refusedLocked ∧
    fieldWriteCheck (run.setField .portEn 1 1) 0 0x1040 1 [1518] = none := by decide +kernel

/-- 04's example: the IPv4 routes of partition 3, and the three packets. -/
def routes : State :=
  let r := fun (k : Nat) (x : Nat × Nat × Nat) =>
    ({ table := 2, part := 3, key := prefixKey false x.1 x.2.1, action := leBytes 4 x.2.2 ++ zeros 12, bank1 := false, slot := k } : TEntry)
  let l := [(0, 0, 0x10002), (0x0a000000, 8, 0x20002), (0x0a140000, 16, 0x40002), (0x0a141e00, 24, 0x70002), (0x0a141e80, 25, 0x90002)]
  { run with tabs := { run.tabs with entries := l.zipIdx.map (fun x => r x.2 x.1) } }
theorem test_ipv4_routes :
    [0x0a141e4d, 0x0a141ec8, 0xc0000201].map (fun a => ((lpmBest routes false 3 0 a).map (fun e => (e.lpmLen, uAt e.action 0 4))))
      = [some (24, 0x70002), some (25, 0x90002), some (0, 0x10002)] := by decide +kernel

/-- 06's example: three trees, and the packet's features. -/
def threeTrees : Ensemble :=
  let split := fun f v l r => ({ kind := 0, feature := f, value := v, left := l, right := r } : Node)
  let leaf := fun (v : Int) => ({ kind := 3, feature := 0, value := BitVec.ofInt 32 v, left := 0, right := 0 } : Node)
  { wkEns with
    escEn := true, escSlot := 9, thrInit := 100, escMargin := 80, classAct := [2, 1], roots := [(0, 0), (5, 0), (8, 0)],
    nodes := [split 0 128 1 2, split 10 2 3 4, leaf (-60), leaf 40, leaf (-25), split 8 64 6 7, leaf 300, leaf (-50),
      split 64 1000 9 10, split 69 3 11 12, leaf (-80), leaf 150, leaf 20] }
def treeFeats (len : Word) : List Word :=
  (List.range 128).map (fun i => if i = 0 then len else if i = 10 then 2 else if i = 8 then 64 else if i = 64 then 400
    else if i = 69 then 2 else 0)
theorem test_three_trees :
    (evaluate threeTrees (treeFeats 128) 64).sums.head? = some 40 ∧ (evaluate threeTrees (treeFeats 128) 64).used = 4 ∧
    (evaluate threeTrees (treeFeats 127) 64).sums.head? = some 75 ∧ (evaluate threeTrees (treeFeats 127) 64).used = 5 ∧
    (evaluate threeTrees (treeFeats 127) 4).sums.head? = some (-75) ∧ (evaluate threeTrees (treeFeats 127) 4).used = 3 ∧
    (evaluate threeTrees (treeFeats 127) 4).cut = true ∧
    decideClass [40] 1 100 0 = (0, 40) ∧ classKind threeTrees.classAct 0 = 2 ∧
    escalates threeTrees 100 (evaluate threeTrees (treeFeats 128) 64) 0 = true ∧
    escalates threeTrees 100 (evaluate threeTrees (treeFeats 127) 4) 0 = false := by decide +kernel

/-- 06's example of the threshold: the count of class 1 is too high, so the threshold rises by its first step. -/
def loopSt : State :=
  let s := (run.setField .wkThrCtrl 6 1).setField .wkThrTarget 6 1000
  s.setSlot 6 { state := 3, ens := some { threeTrees with thrMin := -1000, thrMax := 1000, stepInit := 8 },
                thr := { theta := 100, step := 8, dir := 0, n := 2000000, a := 3100, period := 0 } }
theorem test_threshold_rises :
    ((out (exec (.thresholdPeriod 6) (atTime 100000000 loopSt))).map (fun t => ((t.slot 6).thr.theta, (t.slot 6).thr.step)))
      = some (108, 8) := by decide +kernel

/-- 08's example: a CB4 super-block with one escape, its codebook at offset 0x8000 of tile 0. -/
def cbDesc : Desc := { Desc.empty with base := tileAt 0, ndim := 1, fmt := 8, smode := 1, cbAddr := tileAt 0x8000 }
def cbSt (side : Byte) : State :=
  let b := leBytes 2 0x3800 ++ [side] ++ zeros 5 ++ leBytes 2 0x40b8 ++ zeros 126 ++ [0x40]
    ++ [0x79, 0x77, 0x73, 0x77, 0x7f, 0x77, 0x7b, 0x77, 0x77, 0x77, 0x75, 0x77, 0x7e, 0x77, 0x78, 0x77]
  let cb := [0, 0, 1, 0] ++ leBytes 4 0x3e800000 ++ zeros 8 ++ (List.range 15).map (fun (c : Nat) => BitVec.ofInt 8 (Int.ofNat c - 7)) ++ [0]
  { tileSt with tiles := { tileSt.tiles with mem := memWriteN (memWriteN [] 0 b) 0x8000 cb } }
def cbEdges (side : Byte) : List Nat :=
  (List.range 8).map (fun k => (readEdge (cbSt side) 0 cbDesc (readCb (cbSt side) 0 cbDesc) (4 * k : Nat)).bits)
def cbActs : List Nat := [10, 3, -2, 8, 100, 4, -6, 12].map f32OfInt
theorem test_codebook_edges :
    cbEdges 1 = [0x3f000000, 0xbf800000, 0x40b80000, 0x3f800000, 0, 0xbf000000, 0x3fe00000, 0x3e800000] := by decide +kernel
theorem test_codebook_product :
    dot true cbActs (cbEdges 1) = .f32 0xc1300000 ∧ dot true cbActs (cbEdges 0) = .f32 0x40800000 ∧
    encodeOut 1 ((f32Val 0xc1300000).scale 2) = (0xe3, false) ∧ histBin ((f32Val 0xc1300000).scale 2) = some 37 := by
  decide +kernel

/-- 10's example: the windows of queue 7 and of queue 5's new list, and the gates around the takeover. -/
def oldGcl : Gcl := ⟨0, 10000, [(0x80, 200), (0x7f, 9800)]⟩
def newGcl : Gcl := ⟨25000, 10000, [(0x0f, 5000), (0xf0, 5000)]⟩
def gclSt : State :=
  (run.setAct .gateEn 3 1).setEgr { run.egr with gcl := [(3, oldGcl)], gclPend := [(3, newGcl)] }
theorem test_gate_windows :
    oldGcl.window 7 = some 200 ∧ newGcl.window 5 = some 5000 ∧ bytePs run = 20 ∧
    gateOpen gclSt 3 7 199 = true ∧ gateOpen gclSt 3 7 200 = false ∧ gateOpen gclSt 3 0 199 = false ∧
    gateOpen gclSt 3 0 200 = true ∧ gateOpen gclSt 3 5 24999 = true ∧ gateOpen gclSt 3 5 25000 = false ∧
    gateOpen gclSt 3 1 25000 = true ∧ gateOpen gclSt 3 5 30000 = true := by decide +kernel

/-- 03's example: a graph that walks VXLAN in IPv6, its frame of 328 bytes with an inner total length, and the patterns. -/
def vxGraph : Graph :=
  let d := fun k so sw tf tc n => ({ bDesc k false false so sw tf tc 0 0 with next := n } : PDesc)
  { start := 0
    descs := [d 1 96 16 0 2 0xffff, d 5 48 8 2 1 0xffff, d 9 16 16 3 1 0xffff, d 12 0 0 0 0 0, d 4 72 8 4 1 0xffff,
      bDesc 8 true false 0 0 0 0 0 0]
    trans := [bTrans 0x86dd 1, bTrans 0x0800 4, bTrans 17 2, bTrans 4789 3, bTrans 6 5]
    extrs := [], feats := [] }
def vxFrame (inner : Nat) : Bytes :=
  zeros 12 ++ [0x86, 0xdd] ++ [0x60, 0, 0, 0] ++ beBytes 2 270 ++ [17, 64] ++ zeros 32
    ++ zeros 2 ++ beBytes 2 4789 ++ beBytes 2 270 ++ zeros 2 ++ zeros 8
    ++ zeros 12 ++ [0x08, 0x00] ++ [0x45, 0] ++ beBytes 2 inner ++ zeros 4 ++ [64, 6] ++ zeros 10
    ++ zeros 12 ++ [0x50] ++ zeros 7
    ++ [0x47, 0x45, 0x54, 0x20, 0x2f, 0x61, 0x64, 0x6d, 0x69, 0x6e, 0x2f, 0x6c, 0x6f, 0x67, 0x69, 0x6e] ++ zeros 184 ++ zeros 4
def vxPatterns : List Pattern :=
  [⟨0x107, false, true, 3, 0, 65535, [0x47, 0x45, 0x54, 0x20, 0x2f, 0x61, 0x64, 0x6d, 0x69, 0x6e]⟩,
    ⟨0x200, true, false, 5, 0, 1023, [0x6c, 0x6f, 0x67, 0x69, 0x6e]⟩]
theorem test_vxlan_walk :
    (vxFrame 240).length = 328 ∧
    (let w := walk vxGraph (vxFrame 240) (fun _ => false) []
     (w.outcome, w.levels, w.off, w.offs) = (0, 7, 124, [0, 14, 54, 62, 70, 84, 104])) ∧
    (let w := walk vxGraph (vxFrame 260) (fun _ => false) []
     (w.outcome, w.levels, w.off) = (2, 5, 84)) ∧
    scanFrom vxPatterns 200 0 (slice (vxFrame 240) 124 200) = [(10, 0x107, 3), (16, 0x200, 5)] ∧
    (scanFrom vxPatterns 240 0 (slice (vxFrame 260) 84 240)).map (·.2) = [(0x200, 5)] := by decide +kernel

/-- 12's example: a rotation at 50 GB/s after 50 ms and after 171.8 ms. -/
def rotSt (ns : Nat) : State :=
  let s := (run.setField .rinseRate 0 50).setPart 7 { state := 2, ranges := [(36864, 4096)], regions := [12] }
  atTime ns (s.setRegion 12 ⟨7, 36864, 4096, some 40, some 41, 1, 1, 0, 0, 0, 1, 0⟩)
theorem test_rotation_progress :
    ([50000000, 171000000, 171900000].map (fun t =>
      walkDone (rotSt t) 12 ⟨7, 36864, 4096, some 40, some 41, 1, 1, 0, 0, 0, 1, 0⟩ / pageBytes)) = [1192, 4076, 4096] := by
  decide +kernel

/-- 01's example: rates that the HBM carries, and a later one that it does not. -/
def budgetSt : State :=
  ((((run.setField .hbmRsvFloor 0 16).setField .hbmTbRate 0 600).setField .hbmTbRate 1 1500).setField .hbmTbRate 2 1500).setField
    .hbmTbRate 3 1500
theorem test_hbm_budget :
    fieldWriteCheck budgetSt 0 (fieldId .hbmTbRate 3) 1 [1500] = none ∧
    fieldWriteCheck budgetSt 0 (fieldId .hbmTbRate 3) 1 [1900] = some .capacity := by decide +kernel

/-- 02's example: words 0 and 2 of its second command. -/
theorem test_command_words :
    (let h : CmdHead := ⟨1, 0x700, 1, 1, 5, 0, 2, 0, 0, 0, 0, 0⟩
     uAt (headBytes h) 0 4 = 0x17000001 ∧ uAt (headBytes h) 8 4 = 0x14000002) := by decide +kernel

/-- 07's example: the cycles of a product of 512 x 384 by 384 x 256. -/
theorem test_matmul_cycles :
    (let t : TileCmd := { tileCmdOf (zeros 64) with kind := 1, m := 512, k := 384, n := 256, descs := [Desc.empty, Desc.empty] }
     matCycles t Desc.empty false = 3376) := by decide +kernel

end Sys2Proof.Tests
end

