-- ==== Sys2Proof/Proofs/FlowHash.lean ====
section
/-! PROOF. The flow hash of a key (05 R158). The hash of 0, which R158 replaces by 1, never arises: a key whose CRC is 0 leaves
the CRC register at all ones, and from there the byte 0x01 gives a CRC that is not 0. So the parts of FH64 are h1 and h2 as they
are. -/

namespace Sys2Proof.Proofs
open Sys2Proof.Machine

/-! ### CRC-32C -/

/-- A CRC of one byte more goes on from the register, which is the complement of the CRC so far. -/
theorem crcOf_concat (poly : Word) (b : Bytes) (x : Byte) :
    crcOf poly (b ++ [x]) = ~~~ crcByte poly (~~~ crcOf poly b) x := by
  simp only [crcOf, List.foldl_append, List.foldl_cons, List.foldl_nil, BitVec.not_not]

theorem crc32c_concat_one_ne_zero {b : Bytes} (h : crc32c b = 0) : crc32c (b ++ [1]) ≠ 0 := by
  have step : ~~~ crcByte 0x82f63b78#32 (~~~ 0) 1 ≠ 0 := by decide
  rwa [crc32c, crcOf_concat, ← crc32c, h]

/-! ### FH64 -/

/-- The two CRCs of a key, as numbers: not both 0. -/
theorem crc32c_pair_ne_zero (key : Bytes) : (crc32c (key ++ [1])).toNat * 2 ^ 32 + (crc32c key).toNat ≠ 0 := by
  intro h
  have h1 : (crc32c key).toNat = 0 := by omega
  have h2 : (crc32c (key ++ [1])).toNat = 0 := by omega
  exact crc32c_concat_one_ne_zero (BitVec.eq_of_toNat_eq h1) (BitVec.eq_of_toNat_eq h2)

theorem dw_of_words_toNat (hi lo : Word) : (dw (hi.toNat * 2 ^ 32 + lo.toNat)).toNat = hi.toNat * 2 ^ 32 + lo.toNat := by
  have := hi.isLt
  have := lo.isLt
  rw [BitVec.toNat_ofNat, Nat.mod_eq_of_lt]
  omega

theorem flowHash_toNat (key : Bytes) :
    (flowHash key).toNat = (crc32c (key ++ [1])).toNat * 2 ^ 32 + (crc32c key).toNat := by
  have nonzero : dw ((crc32c (key ++ [1])).toNat * 2 ^ 32 + (crc32c key).toNat) ≠ 0 := fun h =>
    crc32c_pair_ne_zero key ((dw_of_words_toNat _ _).symm.trans (congrArg BitVec.toNat h))
  simp only [flowHash, if_neg nonzero, dw_of_words_toNat]

/-! ### The parts of FH64 -/

theorem bucketOf_flowHash (key : Bytes) : bucketOf (flowHash key) = (crc32c key).toNat / 2 ^ 16 := by
  have := (crc32c key).isLt
  rw [bucketOf, bitsOf, flowHash_toNat]; omega

theorem setA_flowHash (key : Bytes) : setA (flowHash key) = (crc32c key).toNat % 2 ^ 21 := by
  rw [setA, bitsOf, flowHash_toNat]; omega

theorem setB_flowHash (key : Bytes) : setB (flowHash key) = (crc32c (key ++ [1])).toNat % 2 ^ 21 := by
  have := (crc32c key).isLt
  rw [setB, bitsOf, flowHash_toNat]; omega

theorem hotSet_flowHash (key : Bytes) : hotSet (flowHash key) = (crc32c (key ++ [1])).toNat / 2 ^ 20 := by
  have := (crc32c key).isLt
  have := (crc32c (key ++ [1])).isLt
  rw [hotSet, bitsOf, flowHash_toNat]; omega

/-- Settles O58: the two CRCs are never both 0, so FH64 is h2 above h1, and each part is cut from one of them. -/
theorem flowHashOfKey : Obligations.FlowHashOfKey := by
  unfold Obligations.FlowHashOfKey
  intro key _ h1 h2
  refine ⟨?_, bucketOf_flowHash key, setA_flowHash key, setB_flowHash key, hotSet_flowHash key⟩
  rw [if_neg (crc32c_pair_ne_zero key)]
  exact flowHash_toNat key

end Sys2Proof.Proofs
end

