-- ==== Sys2Proof/Proofs/ModelsEpochs.lean ====
section
/-! PROOF. Two rules of the models and epochs chapter: the reply of EPOCH_STATUS (09 R299), and the commands that a slot of
another partition refuses (09 R278). -/

namespace Sys2Proof.Proofs
open Sys2Proof.Machine

/-! ### The reply of EPOCH_STATUS -/

@[simp] theorem beginCmd_eps (c : CmdCtx) (opc : Nat) (s : State) (p : Nat) : (beginCmd c opc s).eps p = s.eps p := by
  simp only [State.eps, beginCmd_epochs]

@[simp] theorem beginCmd_now (c : CmdCtx) (opc : Nat) (s : State) : (beginCmd c opc s).now = s.now := by
  simp only [State.now, beginCmd_clk]

theorem exec_epochStatus (c : CmdCtx) (s : State) : exec (.epochStatus c) s = execEpochStatus c s := rfl

theorem exec_epochStatus_ready {c : CmdCtx} {s : State} (h : Ready 0x311 s) :
    exec (.epochStatus c) s = .next (finish c .ok (epochBody (s.eps c.part)) s.now 0 (beginCmd c 0x311 s)) := by
  rw [exec_epochStatus, execEpochStatus, runCmd_ready h rfl, beginCmd_eps, beginCmd_now]

/-- The entry of R299 with the last 8 bytes, the slot map, written as its four per-packet slots and zeros. -/
theorem epochEntry_slotMap (draining : Nat) (e : Epoch) :
    epochEntry draining e = leBytes 2 e.num ++ leBytes 1 draining ++ [0] ++ leBytes 4 e.refs ++ leBytes 8 e.swapAt.toNat
      ++ ([0, 1, 2, 3].flatMap (fun i => leBytes 1 (nth 255 e.slots i)) ++ [0, 0, 0, 0]) :=
  List.append_assoc ..

theorem epochBody_one (e : Epoch) : epochBody [e] = leBytes 8 1 ++ epochEntry 0 e := by
  simp [epochBody]

theorem epochBody_two (old new : Epoch) :
    epochBody [old, new] = leBytes 8 2 ++ epochEntry 0 new ++ epochEntry 1 old := by
  simp [epochBody]

/-- Settles O59: the reply is the body of the partition's live epochs, which starting the command leaves as they were. -/
theorem epochStatusReply : Obligations.EpochStatusReply := by
  unfold Obligations.EpochStatusReply
  intro c s ready entry
  constructor
  · intro e one
    rw [exec_epochStatus_ready ready, one, epochBody_one, epochEntry_slotMap]
  · intro old new two
    rw [exec_epochStatus_ready ready, two, epochBody_two, epochEntry_slotMap, epochEntry_slotMap]

/-! ### Slots of another partition -/

theorem exec_modelLoad (c : CmdCtx) (n : Nat) (b : Bref) (s : State) : exec (.modelLoad c n b) s = execModelLoad c n b s := rfl

theorem exec_modelUnload (c : CmdCtx) (n : Nat) (s : State) : exec (.modelUnload c n) s = execModelUnload c n s := rfl

theorem exec_trainStep (c : CmdCtx) (n : Nat) (b : Bref) (seed : DWord) (s : State) :
    exec (.trainStep c n b seed) s = execTrainStep c n b seed s := rfl

theorem slotCheck_foreign {c : CmdCtx} {n : Nat} {s : State} (hn : n ≤ 255) (h : s.slotOwner n ≠ c.part) :
    slotCheck c n s = some .noPermission := by
  simp [slotCheck, firstFail, h, Nat.not_lt.mpr hn]

/-- A command whose check finds a foreign resource completes with NO_PERMISSION in every module state that takes commands:
the check comes before that of the module state (02 R62). -/
theorem runCmd_noPermission {c : CmdCtx} {opc : Nat} {check : State → Option Status} {work : State → State} {s : State}
    (host : s.sys.mode.hasHost = true) (h : check (beginCmd c opc s) = some .noPermission) :
    runCmd c opc check work s = finish c .noPermission [] 0 0 (beginCmd c opc s) := by
  rw [runCmd_refused host h, refusal_early rfl]

/-- Settles O60: each of the three commands checks the slot's owner first, and that check refuses a foreign slot. -/
theorem foreignSlotsRefused : Obligations.ForeignSlotsRefused := by
  unfold Obligations.ForeignSlotsRefused
  intro c n s host hn refused
  refine ⟨fun b foreign => ?load, fun foreign => ?unload, fun b seed foreign => ?train⟩
  case load =>
    rw [exec_modelLoad, execModelLoad, runCmd_noPermission host]
    rw [slotCheck_foreign hn foreign, Option.orElse_eq_orElse, Option.orElse_some]
  case unload =>
    rw [exec_modelUnload, execModelUnload, runCmd_noPermission host (slotCheck_foreign hn foreign)]
  case train =>
    rw [exec_trainStep, execTrainStep, runCmd_noPermission host]
    rw [trainCheck, slotCheck_foreign hn foreign, Option.orElse_eq_orElse, Option.orElse_some]

end Sys2Proof.Proofs
end

