-- ==== Sys2Proof/Proofs/PayloadBytes.lean ====
section
/-! PROOF. What the operand readers find in bytes that were laid out, for every byte string and every offset. -/

namespace Sys2Proof.Proofs
open Sys2Proof.Machine

/-- Records of one length, laid out one behind the other. -/
theorem length_flatMap_const {α : Type} {f : α → Bytes} {n : Nat} (each : ∀ x, (f x).length = n) (l : List α) :
    (l.flatMap f).length = n * l.length := by
  induction l with
  | nil => rfl
  | cons x l ih => rw [List.flatMap_cons, List.length_append, each, ih, List.length_cons, Nat.mul_succ, Nat.add_comm]

@[simp] theorem leNat_leBytes_of_lt {k n : Nat} (h : n < 256 ^ k) : leNat (leBytes k n) = n := leNat_leBytes_lt h

@[simp] theorem slice_append_of_le {a b : Bytes} {off n : Nat} (h : a.length ≤ off) :
    slice (a ++ b) off n = slice b (off - a.length) n := slice_append_right h

@[simp] theorem slice_append_of_add_le {a b : Bytes} {off n : Nat} (h : off + n ≤ a.length) :
    slice (a ++ b) off n = slice a off n := slice_append_left h

@[simp] theorem slice_whole {b : Bytes} {n : Nat} (h : b.length ≤ n) : slice b 0 n = b := slice_zero h

@[simp] theorem slice_cons_of_pos {x : Byte} {b : Bytes} {off n : Nat} (h : 0 < off) :
    slice (x :: b) off n = slice b (off - 1) n := slice_append_right (a := [x]) h

@[simp] theorem slice_cons_zero_one (x : Byte) (b : Bytes) : slice (x :: b) 0 1 = [x] := rfl

@[simp] theorem slice_zeros (k off n : Nat) : slice (zeros k) off n = zeros (min n (k - off)) := by
  simp [slice, zeros]

@[simp] theorem allZero_zeros (k : Nat) : allZero (zeros k) = true := by simp [allZero, zeros]

@[simp] theorem sliceZ_of_length {b : Bytes} {off n : Nat} (h : (slice b off n).length = n) :
    sliceZ b off n = slice b off n := by simp [sliceZ, h, zeros]

@[simp] theorem byteAt_append_of_le {a b : Bytes} {off : Nat} (h : a.length ≤ off) :
    byteAt (a ++ b) off = byteAt b (off - a.length) := by simp [byteAt, List.getElem?_append_right h]

@[simp] theorem byteAt_append_of_lt {a b : Bytes} {off : Nat} (h : off < a.length) :
    byteAt (a ++ b) off = byteAt a off := by simp [byteAt, List.getElem?_append_left h]

@[simp] theorem byteAt_leBytes_one (n : Nat) : byteAt (leBytes 1 n) 0 = BitVec.ofNat 8 n := rfl

@[simp] theorem byteAt_cons_zero (x : Byte) (b : Bytes) : byteAt (x :: b) 0 = x := rfl

@[simp] theorem leNat_singleton (x : Byte) : leNat [x] = x.toNat := by simp [leNat]

/-! ### Buffer references -/

@[simp] theorem brefBytes_length (b : Bref) : (brefBytes b).length = 16 := by simp [brefBytes]

@[simp] theorem brefAt_append_of_le {a b : Bytes} {off : Nat} (h : a.length ≤ off) :
    brefAt (a ++ b) off = brefAt b (off - a.length) := by
  simp [brefAt, uAt, slice_append_right (Nat.le_add_right_of_le h), Nat.sub_add_comm h, slice_append_right h]

@[simp] theorem brefAt_append_of_add_le {a b : Bytes} {off : Nat} (h : off + 16 ≤ a.length) :
    brefAt (a ++ b) off = brefAt a off := by
  unfold brefAt
  iterate 4 rw [uAt_append_left (by omega)]

theorem Bref.wf_iff (b : Bref) : b.wf = true ↔ b.size < 2 ^ 32 ∧ b.loc < 256 ∧ b.dir < 256 := by
  simp [Bref.wf, and_assoc]

@[simp] theorem brefAt_brefBytes {b : Bref} (h : b.wf = true) : brefAt (brefBytes b) 0 = b := by
  obtain ⟨addr, size, loc, dir⟩ := b
  obtain ⟨hsize, hloc, hdir⟩ := (Bref.wf_iff _).mp h
  simp only [Nat.reducePow] at hsize
  simp [brefAt, brefBytes, uAt, hsize, hloc, hdir, dw, addr.isLt]

/-- The last two bytes of a buffer reference are Reserved. -/
@[simp] theorem slice_brefBytes_rsv (b : Bref) : slice (brefBytes b) 14 2 = zeros 2 := by
  simp [brefBytes]; rfl

/-! ### Signed fields -/

/-- A signed number that `w` bits hold is read from them as it was. -/
theorem sxNat_wrapU {w : Nat} {i : Int} (hw : 0 < w) (hlo : -2 ^ (w - 1) ≤ i) (hhi : i < 2 ^ (w - 1)) :
    sxNat w (wrapU w i) = i := by
  have hp : 2 ^ w = 2 * 2 ^ (w - 1) := by rw [← Nat.pow_succ', Nat.succ_eq_add_one, Nat.sub_add_cancel hw]
  have cast : ((2 ^ (w - 1) : Nat) : Int) = 2 ^ (w - 1) := by norm_cast
  rw [← cast] at hlo hhi
  simp only [sxNat, wrapU, hp]
  generalize 2 ^ (w - 1) = b at *
  have hm : (i % ((2 * b : Nat) : Int)).toNat % (2 * b) = (i % ((2 * b : Nat) : Int)).toNat := by
    apply Nat.mod_eq_of_lt
    have := Int.emod_lt_of_pos i (b := ((2 * b : Nat) : Int)) (by omega)
    omega
  rw [hm]
  by_cases h : 0 ≤ i
  · rw [Int.emod_eq_of_lt h (by omega), if_pos (by omega)]
    omega
  · rw [← Int.add_emod_right, Int.emod_eq_of_lt (by omega) (by omega), if_neg (by omega)]
    omega

theorem sxNat_leBytesI {k : Nat} {i : Int} (hk : 0 < k) (hlo : -2 ^ (8 * k - 1) ≤ i) (hhi : i < 2 ^ (8 * k - 1)) :
    sxNat (8 * k) (leNat (leBytesI k i)) = i := by
  have hp : (256 : Nat) ^ k = 2 ^ (8 * k) := by rw [Nat.pow_mul]
  have hpos : (0 : Int) < ((2 ^ (8 * k) : Nat) : Int) := Int.natCast_pos.mpr (Nat.two_pow_pos _)
  rw [leBytesI, leNat_leBytes_lt, sxNat_wrapU (by omega) hlo hhi]
  have := Int.emod_lt_of_pos i hpos
  rw [hp, wrapU]
  omega

/-! ### Units -/

@[simp] theorem b1_eq (n : Nat) : b1 n = leBytes 1 n := rfl
@[simp] theorem b2_eq (n : Nat) : b2 n = leBytes 2 n := rfl
@[simp] theorem b4_eq (n : Nat) : b4 n = leBytes 4 n := rfl
@[simp] theorem b8_eq (n : Nat) : b8 n = leBytes 8 n := rfl
@[simp] theorem unit1_eq (n : Nat) : unit1 n = leBytes 1 n ++ zeros 7 := rfl

end Sys2Proof.Proofs
end

