-- ==== Sys2Proof/Proofs/CommandsReadBack.lean ====
section
/-! PROOF. Every command that a packet carries is read back from its payload, and every header from its 32 bytes (O56). -/

namespace Sys2Proof.Proofs
open Sys2Proof.Machine

/-- What a packet carries for a command is read as that command. -/
def ReadsBack (i : Instr) : Prop :=
  ∀ (opc : Nat) (pay : Bytes), i.wf = true → operandsLaid i = true → encodePayload i = some (opc, pay) →
    ∃ c : CmdCtx, readPayload opc c pay = .cmd i

theorem ReadsBack.of_none {i : Instr} (h : encodePayload i = none) : ReadsBack i := fun _ _ _ _ he => by
  rw [h] at he; cases he

theorem ReadsBack.of_some {i : Instr} {opc : Nat} {pay : Bytes} {c : CmdCtx} (he : encodePayload i = some (opc, pay))
    (h : i.wf = true → operandsLaid i = true → readPayload opc c pay = .cmd i) : ReadsBack i := fun _ _ hw hl he' => by
  rw [he] at he'; cases he'; exact ⟨c, h hw hl⟩


@[simp] theorem rsvZero_eq (b : Bytes) (off n : Nat) : rsvZero b off n = allZero (slice b off n) := rfl

theorem uAt_eq (b : Bytes) (off n : Nat) : uAt b off n = leNat (slice b off n) := rfl

@[simp] theorem dw_toNat (v : DWord) : dw v.toNat = v := BitVec.ofNat_toNat ..

@[simp] theorem leNat_leBytes_word (v : Word) : leNat (leBytes 4 v.toNat) = v.toNat := leNat_leBytes_lt v.isLt
@[simp] theorem leNat_leBytes_dword (v : DWord) : leNat (leBytes 8 v.toNat) = v.toNat := leNat_leBytes_lt v.isLt

/-- A payload of fixed length whose Reserved bytes are zero names its command. -/
theorem fixedLen_eq_cmd {pay : Bytes} {n : Nat} {rsv : List (Nat × Nat)} (i : Instr) (hlen : pay.length = 8 * n)
    (hrsv : rsv.any (fun r => !rsvZero pay r.1 r.2) = false) : fixedLen pay n rsv i = .cmd i := by
  rw [fixedLen, if_neg (by simp only [hrsv, Bool.false_eq_true, not_false_iff]), if_neg (Classical.not_not.mpr hlen)]

/-- A payload of fixed length is read as the command whose operands its fields hold. -/
theorem ReadsBack.of_fixed {i j : Instr} {opc n : Nat} {pay : Bytes} {c : CmdCtx} {rsv : List (Nat × Nat)} {u v : Bool}
    (he : encodePayload i = some (opc, pay)) (hd : readPayload opc c pay = fixedLen pay n rsv j) (hwf : i.wf = (u && v))
    (h : u = true → v = true →
      pay.length = 8 * n ∧ rsv.any (fun r => !rsvZero pay r.1 r.2) = false ∧ j = i) : ReadsBack i :=
  .of_some he fun hw _ => by
    obtain ⟨hu, hv⟩ := Bool.and_eq_true_iff.mp (hwf ▸ hw)
    obtain ⟨hlen, hrsv, rfl⟩ := h hu hv
    rw [hd, fixedLen_eq_cmd _ hlen hrsv]

/-! ### Batches -/

/-- What a batch command's payload is read as: its four head fields, and its records. -/
theorem batchLen_batchLaid {a b count : Nat} {x : Batch} (f : Batch → Instr) (hx : x.wf = true) :
    batchLen (batchLaid a b count x) f = .cmd (f x) := by
  cases x with
  | inline recs =>
    have hdrop : (batchLaid a b count (.inline recs)).drop 8 = recs := List.drop_left' (by simp)
    rw [batchLen, if_neg (by simp [batchLaid]), if_neg (by simp [batchLaid]), if_neg (by simp [batchLaid]; omega),
      if_neg (by simp [batchLaid]), batchOf, if_neg (by simp [batchLaid]), hdrop]
  | bref r =>
    have hr : r.wf = true := hx
    simp [batchLen, batchOf, batchLaid, fixedLen, hr]

theorem batchLaid_table (a b count : Nat) (x : Batch) (h : a < 256) : uAt (batchLaid a b count x) 0 1 = a := by
  cases x <;> simp [batchLaid, uAt_eq, h]

theorem batchLaid_bank (a b count : Nat) (x : Batch) (h : b < 256) : uAt (batchLaid a b count x) 1 1 = b := by
  cases x <;> simp [batchLaid, uAt_eq, h]

theorem batchLaid_count (a b count : Nat) (x : Batch) (h : count < 2 ^ 32) : uAt (batchLaid a b count x) 4 4 = count := by
  simp only [Nat.reducePow] at h
  cases x <;> simp [batchLaid, uAt_eq, h]

theorem ReadsBack.of_batch {i : Instr} {opc a b count : Nat} {x : Batch} {c : CmdCtx} {f : Nat → Nat → Nat → Batch → Instr}
    (he : encodePayload i = some (opc, batchLaid a b count x))
    (hd : readPayload opc c (batchLaid a b count x) = batchLen (batchLaid a b count x) (f (uAt (batchLaid a b count x) 0 1)
      (uAt (batchLaid a b count x) 1 1) (uAt (batchLaid a b count x) 4 4)))
    (hwf : i.wf = (c.wf && u8 a && u8 b && u32 count && x.wf)) (hf : f a b count x = i) : ReadsBack i :=
  .of_some he fun hw _ => by
    simp only [hwf, Bool.and_eq_true, u8, u32, decide_eq_true_eq] at hw
    obtain ⟨⟨⟨⟨_, ha⟩, hb⟩, hc⟩, hx⟩ := hw
    rw [hd, batchLaid_table _ _ _ _ ha, batchLaid_bank _ _ _ _ hb, batchLaid_count _ _ _ _ hc, batchLen_batchLaid _ hx, hf]

theorem readsBack_tableWrite (c : CmdCtx) (table bank count : Nat) (batch : Batch) :
    ReadsBack (.tableWrite c table bank count batch) := .of_batch rfl rfl rfl rfl

theorem readsBack_tableDelete (c : CmdCtx) (table bank count : Nat) (batch : Batch) :
    ReadsBack (.tableDelete c table bank count batch) := .of_batch rfl rfl rfl rfl

theorem readsBack_ruleWrite (c : CmdCtx) (group bank count : Nat) (batch : Batch) :
    ReadsBack (.ruleWrite c group bank count batch) := .of_batch rfl rfl rfl rfl

theorem byteAt_batchLaid (a b count : Nat) (x : Batch) : byteAt (batchLaid a b count x) 0 = BitVec.ofNat 8 a := by
  cases x <;> simp [batchLaid]

theorem readsBack_ruleDelete (c : CmdCtx) (bank count : Nat) (batch : Batch) :
    ReadsBack (.ruleDelete c bank count batch) :=
  .of_some (c := c) rfl fun hw _ => by
    obtain ⟨hw, hx⟩ := Bool.and_eq_true_iff.mp hw
    simp only [Bool.and_eq_true, u8, u32, decide_eq_true_eq] at hw
    obtain ⟨⟨_, hb⟩, hc⟩ := hw
    refine (if_neg (Classical.not_not.mpr (byteAt_batchLaid ..))).trans ((batchLen_batchLaid _ hx).trans ?_)
    simp only [batchLaid_bank _ _ _ _ hb, batchLaid_count _ _ _ _ hc]

/-! ### Optional buffer references -/

/-- A payload of `a` units and, where it is there, a buffer reference behind them is read as its command. -/
theorem optLen_optBytes {b : Bytes} {a : Nat} {rsv : List (Nat × Nat)} {o : Option Bref} (f : Option Bref → Instr)
    (hb : b.length = 8 * a) (ho : optWf o = true) 
    (hrsv : ∀ r ∈ rsv, r.1 + r.2 ≤ 8 * a ∧ rsvZero b r.1 r.2 = true) :
    optLen (b ++ optBytes o) a (a + 2) rsv f = .cmd (f o) := by
  have keep (r : Bytes) : rsv.any (fun x => !rsvZero (b ++ r) x.1 x.2) = false := by
    rw [List.any_eq_false]
    intro x hx
    obtain ⟨hle, hz⟩ := hrsv x hx
    simp only [rsvZero_eq] at hz
    simp [slice_append_left (b := r) (hb ▸ hle), hz]
  cases o with
  | none =>
    rw [optLen, if_neg (by simp only [optBytes, List.append_nil, hb]; omega), fixedLen_eq_cmd _ (by simp [optBytes, hb]) (keep _)]
  | some r =>
    have hr : r.wf = true := ho
    have at16 : brefAt (b ++ brefBytes r) (8 * a) = r := by simp [hb, hr]
    rw [optBytes, optLen, if_pos (by simp [hb]; omega), fixedLen_eq_cmd _ (by simp [hb]; omega), at16]
    simp only [List.any_append, keep, Bool.false_or]
    simp [hb]

theorem readsBack_tableRead (c : CmdCtx) (table bank start count : Nat) (out : Option Bref) :
    ReadsBack (.tableRead c table bank start count out) :=
  .of_some (c := c) rfl fun hw _ => by
    obtain ⟨hw, ho⟩ := Bool.and_eq_true_iff.mp hw
    refine (optLen_optBytes _ (by simp) ho (by simp)).trans ?_
    simp [u8, u32] at hw
    simp [uAt_eq, hw]

theorem readsBack_sketchRead (c : CmdCtx) (sketch row start count : Nat) (out : Option Bref) :
    ReadsBack (.sketchRead c sketch row start count out) :=
  .of_some (c := c) rfl fun hw _ => by
    obtain ⟨hw, ho⟩ := Bool.and_eq_true_iff.mp hw
    refine (optLen_optBytes _ (by simp) ho (by simp)).trans ?_
    simp [u8, u32] at hw
    simp [uAt_eq, hw]

theorem readsBack_gclRead (c : CmdCtx) (port list first : Nat) (out : Option Bref) :
    ReadsBack (.gclRead c port list first out) :=
  .of_some (c := c) rfl fun hw _ => by
    obtain ⟨hw, ho⟩ := Bool.and_eq_true_iff.mp hw
    refine (optLen_optBytes _ (by simp) ho (by simp)).trans ?_
    simp [u8, u32] at hw
    simp [uAt_eq, hw]

/-! ### Signed fields and partly Reserved bytes -/

theorem readsBack_shaperWrite (c : CmdCtx) (node : Nat) (ovh : Int) (rate burst : Nat) :
    ReadsBack (.shaperWrite c node ovh rate burst) :=
  .of_some (c := c) rfl fun hw _ => by
    have hw := Bool.and_eq_true_iff.mp hw
    simp only [Bool.and_eq_true, u16, u32, decide_eq_true_eq] at hw
    obtain ⟨⟨⟨⟨⟨_, hn⟩, hlo⟩, hhi⟩, hr⟩, hb⟩ := hw
    have ho := sxNat_leBytesI (k := 1) (i := ovh) (by omega) (by simpa using hlo) (by simpa using hhi)
    refine (fixedLen_eq_cmd _ (by simp) (by simp)).trans ?_
    simp only [Nat.reducePow] at hr hb
    simp only [Nat.mul_one] at ho
    simp [uAt_eq, sAt, hn, hr, hb, ho]

theorem readsBack_timeAdjust (c : CmdCtx) (offset rate : Int) : ReadsBack (.timeAdjust c offset rate) :=
  .of_some (c := c) rfl fun hw _ => by
    have hw := Bool.and_eq_true_iff.mp hw
    simp only [Bool.and_eq_true, s64, s32, decide_eq_true_eq] at hw
    obtain ⟨⟨_, olo, ohi⟩, rlo, rhi⟩ := hw
    have ho := sxNat_leBytesI (k := 8) (i := offset) (by omega) olo ohi
    have hr := sxNat_leBytesI (k := 4) (i := rate) (by omega) rlo rhi
    refine (fixedLen_eq_cmd _ (by simp) (by simp)).trans ?_
    simp only [Nat.reduceMul] at ho hr
    simp [uAt_eq, sAt, ho, hr]

theorem readsBack_meterWrite (c : CmdCtx) (meter : Nat) (mode : Byte) (cir cbs eirPir ebsPbs : Nat) :
    ReadsBack (.meterWrite c meter mode cir cbs eirPir ebsPbs) :=
  .of_some (c := c) rfl fun hw hl => by
    have hw := Bool.and_eq_true_iff.mp hw
    have hl := of_decide_eq_true hl
    have high : bitsOf mode.toNat 7 4 = 0 := by rw [bitsOf]; omega
    refine (if_neg ?_).trans ((fixedLen_eq_cmd _ (by simp) (by simp)).trans ?_)
    · simp [uAt_eq, high]
    · simp [u16, u32] at hw
      simp [uAt_eq, hw]

theorem leBytes_add (j k n : Nat) : leBytes (j + k) n = leBytes j n ++ leBytes k (n / 256 ^ j) := by
  induction j generalizing n with
  | zero => simp [leBytes]
  | succ j ih => rw [Nat.succ_add, leBytes, ih, leBytes, List.cons_append, Nat.div_div_eq_div_mul, Nat.pow_succ']

theorem readsBack_epochCommit (c : CmdCtx) (ruleset : Nat) (map : DWord) : ReadsBack (.epochCommit c ruleset map) :=
  .of_some (c := c) rfl fun hw hl => by
    have hw := Bool.and_eq_true_iff.mp hw
    have hl : map.toNat < 2 ^ 33 := of_decide_eq_true hl
    have split : leBytes 8 map.toNat = leBytes 4 map.toNat ++ (leBytes 1 (map.toNat / 2 ^ 32) ++ zeros 3) := by
      have top : map.toNat / 256 ^ 4 / 256 ^ 1 = 0 := by omega
      rw [leBytes_add 4 4, leBytes_add 1 3 (map.toNat / 256 ^ 4), top]
      rfl
    have low : map.toNat / 2 ^ 32 < 256 := by omega
    have high : bitsOf (map.toNat / 2 ^ 32) 7 1 = 0 := by rw [bitsOf]; omega
    simp only [Nat.reducePow] at low high
    refine (if_neg ?_).trans ((fixedLen_eq_cmd _ (by simp) ?_).trans ?_)
    · simp [uAt_eq, split, low, high]
    · simp [split]
    · simp [u8] at hw
      simp [uAt_eq, hw]

/-! ### Lists of values -/

@[simp] theorem valueBytes_length (vs : List DWord) : (valueBytes vs).length = 8 * vs.length := length_flatMap_const (fun _ => leBytes_length ..) vs

theorem u64s_append (v : DWord) (b : Bytes) : u64s (b8 v.toNat ++ b) = v :: u64s b := by
  have hn : (b8 v.toNat ++ b).length / 8 = b.length / 8 + 1 := by simp
  have head : uAt (b8 v.toNat ++ b) (8 * 0) 8 = v.toNat := by simp [uAt_eq]
  have tail (i : Nat) : uAt (b8 v.toNat ++ b) (8 * (i + 1)) 8 = uAt b (8 * i) 8 := by simp [uAt_eq, Nat.mul_succ]
  simp only [u64s, hn, List.range_succ_eq_map, List.map_cons, List.map_map, head, dw_toNat, Function.comp_def, Nat.succ_eq_add_one, tail]

theorem u64s_valueBytes (vs : List DWord) : u64s (valueBytes vs) = vs := by
  induction vs with
  | nil => simp [u64s, valueBytes]
  | cons v vs ih =>
    have cons : valueBytes (v :: vs) = b8 v.toNat ++ valueBytes vs := List.flatMap_cons ..
    rw [cons, u64s_append, ih]

theorem readsBack_fieldWrite (c : CmdCtx) (id count : Nat) (values : List DWord) :
    ReadsBack (.fieldWrite c id count values) :=
  .of_some (c := c) rfl fun hw _ => by
    have hw := Bool.and_eq_true_iff.mp hw
    have hdrop : (b4 id ++ b2 count ++ zeros 2 ++ valueBytes values).drop 8 = valueBytes values := List.drop_left' (by simp)
    simp only [readPayload, hdrop, u64s_valueBytes]
    rw [if_neg (by simp), if_neg (by simp; omega)]
    simp [u16, u32] at hw
    simp [uAt_eq, hw]

/-! ### Flow selectors -/

/-- The 8-byte units of a selector. -/
def selUnits : FlowSel → Nat
  | .key _ => 9
  | .index _ => 2

theorem selBytes_length {x : FlowSel} (h : x.wf = true) : (selBytes x).length = 8 * selUnits x := by
  cases x with
  | key k => have hk : k.length = 64 := of_decide_eq_true h; simp [selBytes, selUnits, hk]
  | index i => simp [selBytes, selUnits]

theorem selOf_selBytes {x : FlowSel} (r : Bytes) (h : x.wf = true) : selOf (selBytes x ++ r) = some (x, selUnits x) := by
  cases x with
  | key k => have hk : k.length = 64 := of_decide_eq_true h; simp [selOf, selBytes, selUnits, hk]
  | index i => 
    have hi : i < 2 ^ 32 := of_decide_eq_true h
    simp only [Nat.reducePow] at hi
    simp [selOf, selBytes, selUnits, uAt_eq, hi]

/-- The Reserved bytes of a selector are laid out as zero. -/
theorem selRsv_selBytes (x : FlowSel) (r : Bytes) :
    (selRsv (selBytes x ++ r)).any (fun y => !rsvZero (selBytes x ++ r) y.1 y.2) = false := by
  cases x <;> simp [selRsv, selBytes]

theorem readsBack_flowRead (c : CmdCtx) (sel : FlowSel) : ReadsBack (.flowRead c sel) :=
  .of_some (c := c) rfl fun hw _ => by
    have hs : sel.wf = true := (Bool.and_eq_true_iff.mp hw).2
    have hsel := selOf_selBytes [] hs
    have hrsv := selRsv_selBytes sel []
    rw [List.append_nil] at hsel hrsv
    simp only [readPayload, hsel, fixedLen_eq_cmd _ (selBytes_length hs) hrsv]

theorem readsBack_flowDelete (c : CmdCtx) (sel : FlowSel) : ReadsBack (.flowDelete c sel) :=
  .of_some (c := c) rfl fun hw _ => by
    have hs : sel.wf = true := (Bool.and_eq_true_iff.mp hw).2
    have hsel := selOf_selBytes [] hs
    have hrsv := selRsv_selBytes sel []
    rw [List.append_nil] at hsel hrsv
    simp only [readPayload, hsel, fixedLen_eq_cmd _ (selBytes_length hs) hrsv]

theorem readsBack_flowWrite (c : CmdCtx) (sel : FlowSel) (mask : DWord) (values : List DWord) :
    ReadsBack (.flowWrite c sel mask values) :=
  .of_some (c := c) rfl fun hw hl => by
    have hs : sel.wf = true := (Bool.and_eq_true_iff.mp (Bool.and_eq_true_iff.mp hw).1).2
    have hl : values.length = popCount 64 mask.toNat := of_decide_eq_true hl
    have hlen := selBytes_length hs
    have hmask : uAt (selBytes sel ++ (b8 mask.toNat ++ valueBytes values)) (8 * selUnits sel) 8 = mask.toNat := by
      simp [uAt_eq, hlen]
    have hdrop : (selBytes sel ++ (b8 mask.toNat ++ valueBytes values)).drop (8 * selUnits sel + 8) = valueBytes values := by
      rw [← List.append_assoc]
      exact List.drop_left' (by simp [hlen])
    simp only [readPayload, List.append_assoc, selOf_selBytes _ hs, hmask, hdrop, u64s_valueBytes, dw_toNat]
    exact fixedLen_eq_cmd _ (by simp [hlen, hl]; omega) (selRsv_selBytes sel _)

/-! ### GCL_WRITE -/

@[simp] theorem gclBytes_length (es : List (BitVec 128 × Nat)) : (gclBytes es).length = 24 * es.length := length_flatMap_const (fun _ => by simp) es

/-- The entries behind a head of any length are read as they were. -/
theorem gclEntries_append (a : Bytes) (es : List (BitVec 128 × Nat)) (h : ∀ e ∈ es, e.2 < 2 ^ 32) :
    gclEntries (a ++ gclBytes es) es.length a.length = es := by
  induction es generalizing a with
  | nil => rfl
  | cons e es ih =>
    obtain ⟨he, hes⟩ := List.forall_mem_cons.mp h
    have next := ih (a ++ (leBytes 16 e.1.toNat ++ b4 e.2 ++ zeros 4)) hes
    have hg : leNat (leBytes 16 e.1.toNat) = e.1.toNat := leNat_leBytes_lt e.1.isLt
    simp only [Nat.reducePow] at he
    have cons : a ++ gclBytes (e :: es) = a ++ (leBytes 16 e.1.toNat ++ b4 e.2 ++ zeros 4) ++ gclBytes es := by
      simp [gclBytes]
    have hlen : (a ++ (leBytes 16 e.1.toNat ++ b4 e.2 ++ zeros 4)).length = a.length + 24 := by simp
    rw [hlen] at next
    rw [cons, List.length_cons, gclEntries, next]
    simp [uAt_eq, hg, he]

/-- The last four bytes of each entry are Reserved. -/
theorem gclBytes_rsv (a : Bytes) (es : List (BitVec 128 × Nat)) (i : Nat) (h : i < es.length) :
    slice (a ++ gclBytes es) (a.length + 24 * i + 20) 4 = zeros 4 := by
  induction es generalizing a i with
  | nil => cases h
  | cons e es ih =>
    have cons : a ++ gclBytes (e :: es) = a ++ (leBytes 16 e.1.toNat ++ b4 e.2 ++ zeros 4) ++ gclBytes es := by
      simp [gclBytes]
    rw [cons]
    cases i with
    | zero => simp
    | succ i =>
      have next := ih (a ++ (leBytes 16 e.1.toNat ++ b4 e.2 ++ zeros 4)) i (by simpa using h)
      refine Eq.trans ?_ next
      congr 1
      simp only [List.length_append, leBytes_length, b4_eq, zeros_length]
      omega

theorem readsBack_gclWrite (c : CmdCtx) (port : Nat) (base : DWord) (cycle : Nat) (entries : List (BitVec 128 × Nat)) :
    ReadsBack (.gclWrite c port base cycle entries) :=
  .of_some (c := c) rfl fun hw hl => by
    obtain ⟨hw, he⟩ := Bool.and_eq_true_iff.mp hw
    have hl : entries.length < 2 ^ 32 := of_decide_eq_true hl
    simp only [List.all_eq_true, u32, decide_eq_true_eq] at he
    have hhead : (b1 port ++ zeros 3 ++ b4 entries.length ++ b8 base.toNat ++ b4 cycle ++ zeros 4).length = 24 := by simp
    have hlist := gclEntries_append (b1 port ++ zeros 3 ++ b4 entries.length ++ b8 base.toNat ++ b4 cycle ++ zeros 4) entries he
    have hrsv := gclBytes_rsv (b1 port ++ zeros 3 ++ b4 entries.length ++ b8 base.toNat ++ b4 cycle ++ zeros 4) entries
    rw [hhead] at hlist hrsv
    simp only [Nat.reducePow] at hl
    have hbody : (24 + 24 * entries.length) / 24 - 1 = entries.length := by omega
    have hall : (b1 port ++ zeros 3 ++ b4 entries.length ++ b8 base.toNat ++ b4 cycle ++ zeros 4
        ++ gclBytes entries).length = 24 + 24 * entries.length := by rw [List.length_append, hhead, gclBytes_length]
    simp only [readPayload, gclWriteDec, hall, hbody, hlist]
    have hcount : uAt (b1 port ++ zeros 3 ++ b4 entries.length ++ b8 base.toNat ++ b4 cycle ++ zeros 4
        ++ gclBytes entries) 4 4 = entries.length := by simp [uAt_eq, hl]
    rw [if_neg, if_neg, hcount, hlist]
    · simp [u8, u32] at hw
      simp [uAt_eq, hw]
    · rw [hcount]; exact Classical.not_not.mpr rfl
    · simp only [rsvZero_eq, List.any_append, List.any_map, Bool.or_eq_true, not_or, Bool.not_eq_true, List.any_eq_false,
        List.mem_range]
      refine ⟨by simp, fun i hi => ?_⟩
      simp only [Function.comp, hrsv i hi]
      decide

theorem readsBack_cmdKeySet (c : CmdCtx) (envelope : Bytes) : ReadsBack (.cmdKeySet c envelope) :=
  .of_some (c := c) rfl fun _ hl => by
    simp only [operandsLaid, Bool.and_eq_true, decide_eq_true_eq] at hl
    obtain ⟨⟨⟨⟨hlen, h7⟩, h12⟩, h113⟩, h217⟩ := hl
    refine (if_neg ?_).trans (fixedLen_eq_cmd _ hlen ?_)
    · rw [hlen, ceilDiv]; omega
    · simp only [List.any_cons, h7, h12, h113, h217]; rfl

theorem readsBack_nop (c : CmdCtx) : ReadsBack (.nop c) := .of_some (c := c) rfl fun _ _ => rfl

theorem readsBack_getInfo (c : CmdCtx) : ReadsBack (.getInfo c) := .of_some (c := c) rfl fun _ _ => rfl

theorem readsBack_getStatus (c : CmdCtx) : ReadsBack (.getStatus c) := .of_some (c := c) rfl fun _ _ => rfl

theorem readsBack_start (c : CmdCtx) (kind : Nat) : ReadsBack (.start c kind) :=
  .of_fixed (c := c) rfl rfl rfl (by simp +contextual [u8, u16, u32, uAt_eq])

theorem readsBack_shutdown (c : CmdCtx) : ReadsBack (.shutdown c) := .of_some (c := c) rfl fun _ _ => rfl

theorem readsBack_ringBind (c : CmdCtx) (ring part : Nat) : ReadsBack (.ringBind c ring part) :=
  .of_fixed (c := c) rfl rfl rfl (by simp +contextual [u8, u16, u32, uAt_eq])

theorem readsBack_fieldRead (c : CmdCtx) (id count : Nat) : ReadsBack (.fieldRead c id count) :=
  .of_fixed (c := c) rfl rfl rfl (by simp +contextual [u8, u16, u32, uAt_eq])

theorem readsBack_fwStage (c : CmdCtx) (kind : Nat) (bref : Bref) (digest : Bytes) : ReadsBack (.fwStage c kind bref digest) :=
  .of_fixed (c := c) rfl rfl rfl (by simp +contextual [u8, u16, u32, uAt_eq])

theorem readsBack_fwActivate (c : CmdCtx) (kind : Nat) : ReadsBack (.fwActivate c kind) :=
  .of_fixed (c := c) rfl rfl rfl (by simp +contextual [u8, u16, u32, uAt_eq])

theorem readsBack_tableRebuild (c : CmdCtx) (table : Nat) : ReadsBack (.tableRebuild c table) :=
  .of_fixed (c := c) rfl rfl rfl (by simp +contextual [u8, u16, u32, uAt_eq])

theorem readsBack_tableCommit (c : CmdCtx) (table : Nat) : ReadsBack (.tableCommit c table) :=
  .of_fixed (c := c) rfl rfl rfl (by simp +contextual [u8, u16, u32, uAt_eq])

theorem readsBack_tableAbort (c : CmdCtx) (table : Nat) : ReadsBack (.tableAbort c table) :=
  .of_fixed (c := c) rfl rfl rfl (by simp +contextual [u8, u16, u32, uAt_eq])

theorem readsBack_tableCompare (c : CmdCtx) (table : Nat) (shadow : Bref) : ReadsBack (.tableCompare c table shadow) :=
  .of_fixed (c := c) rfl rfl rfl (by simp +contextual [u8, u16, u32, uAt_eq])

theorem readsBack_parseGraphLoad (c : CmdCtx) (bref : Bref) (digest : Bytes) : ReadsBack (.parseGraphLoad c bref digest) :=
  .of_fixed (c := c) rfl rfl rfl (by simp +contextual [u8, u16, u32, uAt_eq])

theorem readsBack_patternLoad (c : CmdCtx) (bref : Bref) (digest : Bytes) : ReadsBack (.patternLoad c bref digest) :=
  .of_fixed (c := c) rfl rfl rfl (by simp +contextual [u8, u16, u32, uAt_eq])

theorem readsBack_heavyRead (c : CmdCtx) (start count : Nat) : ReadsBack (.heavyRead c start count) :=
  .of_fixed (c := c) rfl rfl rfl (by simp +contextual [u8, u16, u32, uAt_eq])

theorem readsBack_bucketRead (c : CmdCtx) (start count : Nat) : ReadsBack (.bucketRead c start count) :=
  .of_fixed (c := c) rfl rfl rfl (by simp +contextual [u8, u16, u32, uAt_eq])

theorem readsBack_bucketMove (c : CmdCtx) (bucket pipeline : Nat) : ReadsBack (.bucketMove c bucket pipeline) :=
  .of_fixed (c := c) rfl rfl rfl (by simp +contextual [u8, u16, u32, uAt_eq])

theorem readsBack_modelLoad (c : CmdCtx) (slot : Nat) (bref : Bref) : ReadsBack (.modelLoad c slot bref) :=
  .of_fixed (c := c) rfl rfl rfl (by simp +contextual [u8, u16, u32, uAt_eq])

theorem readsBack_modelUnload (c : CmdCtx) (slot : Nat) : ReadsBack (.modelUnload c slot) :=
  .of_fixed (c := c) rfl rfl rfl (by simp +contextual [u8, u16, u32, uAt_eq])

theorem readsBack_epochStatus (c : CmdCtx) : ReadsBack (.epochStatus c) := .of_some (c := c) rfl fun _ _ => rfl

theorem readsBack_tensorWrite (c : CmdCtx) (desc : Bytes) (bref : Bref) : ReadsBack (.tensorWrite c desc bref) :=
  .of_fixed (c := c) rfl rfl rfl (by simp +contextual [u8, u16, u32, uAt_eq])

theorem readsBack_tensorRead (c : CmdCtx) (desc : Bytes) (bref : Bref) : ReadsBack (.tensorRead c desc bref) :=
  .of_fixed (c := c) rfl rfl rfl (by simp +contextual [u8, u16, u32, uAt_eq])

theorem readsBack_tileRun (c : CmdCtx) (bref : Bref) (count : Nat) : ReadsBack (.tileRun c bref count) :=
  .of_fixed (c := c) rfl rfl rfl (by simp +contextual [u8, u16, u32, uAt_eq])

theorem readsBack_trainStep (c : CmdCtx) (slot : Nat) (bref : Bref) (seed : DWord) : ReadsBack (.trainStep c slot bref seed) :=
  .of_fixed (c := c) rfl rfl rfl (by simp +contextual [u8, u16, u32, uAt_eq])

theorem readsBack_threshRead (c : CmdCtx) (slot : Nat) : ReadsBack (.threshRead c slot) :=
  .of_fixed (c := c) rfl rfl rfl (by simp +contextual [u8, u16, u32, uAt_eq])

theorem readsBack_meterRead (c : CmdCtx) (meter : Nat) : ReadsBack (.meterRead c meter) :=
  .of_fixed (c := c) rfl rfl rfl (by simp +contextual [u8, u16, u32, uAt_eq])

theorem readsBack_queueSample (c : CmdCtx) (first count : Nat) : ReadsBack (.queueSample c first count) :=
  .of_fixed (c := c) rfl rfl rfl (by simp +contextual [u8, u16, u32, uAt_eq])

theorem readsBack_hostpktRing (c : CmdCtx) (ring : Nat) (bref : Bref) (snap : Nat) : ReadsBack (.hostpktRing c ring bref snap) :=
  .of_fixed (c := c) rfl rfl rfl (by simp +contextual [u8, u16, u32, uAt_eq])

theorem readsBack_timeRead (c : CmdCtx) : ReadsBack (.timeRead c) := .of_some (c := c) rfl fun _ _ => rfl

theorem readsBack_fabricJoin (c : CmdCtx) (node : Nat) (mask : Word) : ReadsBack (.fabricJoin c node mask) :=
  .of_fixed (c := c) rfl rfl rfl (by simp +contextual [u8, u16, u32, uAt_eq])

theorem readsBack_fabricLeave (c : CmdCtx) : ReadsBack (.fabricLeave c) := .of_some (c := c) rfl fun _ _ => rfl

theorem readsBack_fabricStatus (c : CmdCtx) : ReadsBack (.fabricStatus c) := .of_some (c := c) rfl fun _ _ => rfl

theorem readsBack_linkRekey (c : CmdCtx) (link : Nat) : ReadsBack (.linkRekey c link) :=
  .of_fixed (c := c) rfl rfl rfl (by simp +contextual [u8, u16, u32, uAt_eq])

theorem readsBack_flowHomeSet (c : CmdCtx) (first count home : Nat) : ReadsBack (.flowHomeSet c first count home) :=
  .of_fixed (c := c) rfl rfl rfl (by simp +contextual [u8, u16, u32, uAt_eq])

theorem readsBack_collectiveRun (c : CmdCtx) (kind : Nat) (group : Bref) (desc : Bytes) : ReadsBack (.collectiveRun c kind group desc) :=
  .of_fixed (c := c) rfl rfl rfl (by simp +contextual [u8, u16, u32, uAt_eq])

theorem readsBack_timeOffsets (c : CmdCtx) (first count : Nat) : ReadsBack (.timeOffsets c first count) :=
  .of_fixed (c := c) rfl rfl rfl (by simp +contextual [u8, u16, u32, uAt_eq])

theorem readsBack_partCreate (c : CmdCtx) (part : Nat) (ownerHash : Bytes) (list : Bref) : ReadsBack (.partCreate c part ownerHash list) :=
  .of_fixed (c := c) rfl rfl rfl (by simp +contextual [u8, u16, u32, uAt_eq])

theorem readsBack_partDestroy (c : CmdCtx) (part : Nat) : ReadsBack (.partDestroy c part) :=
  .of_fixed (c := c) rfl rfl rfl (by simp +contextual [u8, u16, u32, uAt_eq])

theorem readsBack_partReset (c : CmdCtx) (part : Nat) : ReadsBack (.partReset c part) :=
  .of_fixed (c := c) rfl rfl rfl (by simp +contextual [u8, u16, u32, uAt_eq])

theorem readsBack_partQuery (c : CmdCtx) (part : Nat) : ReadsBack (.partQuery c part) :=
  .of_fixed (c := c) rfl rfl rfl (by simp +contextual [u8, u16, u32, uAt_eq])

theorem readsBack_keyRotate (c : CmdCtx) (region : Nat) : ReadsBack (.keyRotate c region) :=
  .of_fixed (c := c) rfl rfl rfl (by simp +contextual [u8, u16, u32, uAt_eq])

theorem readsBack_keyStatus (c : CmdCtx) (region : Nat) : ReadsBack (.keyStatus c region) :=
  .of_fixed (c := c) rfl rfl rfl (by simp +contextual [u8, u16, u32, uAt_eq])

theorem readsBack_attestReport (c : CmdCtx) (nonce : Bytes) (bref : Bref) : ReadsBack (.attestReport c nonce bref) :=
  .of_fixed (c := c) rfl rfl rfl (by simp +contextual [u8, u16, u32, uAt_eq])

theorem readsBack_certChain (c : CmdCtx) (bref : Bref) : ReadsBack (.certChain c bref) :=
  .of_fixed (c := c) rfl rfl rfl (by simp +contextual [u8, u16, u32, uAt_eq])

theorem readsBack_counterRead (c : CmdCtx) (group first count : Nat) : ReadsBack (.counterRead c group first count) :=
  .of_fixed (c := c) rfl rfl rfl (by simp +contextual [u8, u16, u32, uAt_eq])

theorem readsBack_counterSampleReset (c : CmdCtx) (group first count : Nat) : ReadsBack (.counterSampleReset c group first count) :=
  .of_fixed (c := c) rfl rfl rfl (by simp +contextual [u8, u16, u32, uAt_eq])

theorem readsBack_traceConfig (c : CmdCtx) (mask : DWord) (bref : Bref) : ReadsBack (.traceConfig c mask bref) :=
  .of_fixed (c := c) rfl rfl rfl (by simp +contextual [u8, u16, u32, uAt_eq])

theorem readsBack_traceRead (c : CmdCtx) (bref : Bref) : ReadsBack (.traceRead c bref) :=
  .of_fixed (c := c) rfl rfl rfl (by simp +contextual [u8, u16, u32, uAt_eq])

theorem readsBack_profileRead (c : CmdCtx) (id : DWord) : ReadsBack (.profileRead c id) :=
  .of_fixed (c := c) rfl rfl rfl (by simp +contextual [u8, u16, u32, uAt_eq])

theorem readsBack_wringStop (c : CmdCtx) (propagate : Nat) : ReadsBack (.wringStop c propagate) :=
  .of_fixed (c := c) rfl rfl rfl (by simp +contextual [u8, u16, u32, uAt_eq])

theorem readsBack_wringScanout (c : CmdCtx) (bref : Bref) : ReadsBack (.wringScanout c bref) :=
  .of_fixed (c := c) rfl rfl rfl (by simp +contextual [u8, u16, u32, uAt_eq])

theorem readsBack_errorRead (c : CmdCtx) (first count : Nat) : ReadsBack (.errorRead c first count) :=
  .of_fixed (c := c) rfl rfl rfl (by simp +contextual [u8, u16, u32, uAt_eq])

theorem readsBack_errorAck (c : CmdCtx) (upTo : Nat) : ReadsBack (.errorAck c upTo) :=
  .of_fixed (c := c) rfl rfl rfl (by simp +contextual [u8, u16, u32, uAt_eq])

theorem readsBack_windowSet (c : CmdCtx) (source t w : Nat) : ReadsBack (.windowSet c source t w) :=
  .of_fixed (c := c) rfl rfl rfl (by simp +contextual [u8, u16, u32, uAt_eq])

theorem readsBack_unitFence (c : CmdCtx) (unit : Nat) : ReadsBack (.unitFence c unit) :=
  .of_fixed (c := c) rfl rfl rfl (by simp +contextual [u8, u16, u32, uAt_eq])

theorem readsBack_unitUnfence (c : CmdCtx) (unit : Nat) : ReadsBack (.unitUnfence c unit) :=
  .of_fixed (c := c) rfl rfl rfl (by simp +contextual [u8, u16, u32, uAt_eq])

theorem readsBack_errorInject (c : CmdCtx) (source kind : Nat) : ReadsBack (.errorInject c source kind) :=
  .of_fixed (c := c) rfl rfl rfl (by simp +contextual [u8, u16, u32, uAt_eq])
/-- The payload of every command that a packet carries is read as that command. -/
theorem readsBack (i : Instr) : ReadsBack i := by
  cases i
  case nop => exact readsBack_nop _
  case getInfo => exact readsBack_getInfo _
  case getStatus => exact readsBack_getStatus _
  case start => exact readsBack_start _ _
  case shutdown => exact readsBack_shutdown _
  case ringBind => exact readsBack_ringBind _ _ _
  case fieldRead => exact readsBack_fieldRead _ _ _
  case fieldWrite => exact readsBack_fieldWrite _ _ _ _
  case fwStage => exact readsBack_fwStage _ _ _ _
  case fwActivate => exact readsBack_fwActivate _ _
  case tableWrite => exact readsBack_tableWrite _ _ _ _ _
  case tableDelete => exact readsBack_tableDelete _ _ _ _ _
  case tableRead => exact readsBack_tableRead _ _ _ _ _ _
  case tableRebuild => exact readsBack_tableRebuild _ _
  case tableCommit => exact readsBack_tableCommit _ _
  case tableAbort => exact readsBack_tableAbort _ _
  case tableCompare => exact readsBack_tableCompare _ _ _
  case ruleWrite => exact readsBack_ruleWrite _ _ _ _ _
  case ruleDelete => exact readsBack_ruleDelete _ _ _ _
  case parseGraphLoad => exact readsBack_parseGraphLoad _ _ _
  case patternLoad => exact readsBack_patternLoad _ _ _
  case flowRead => exact readsBack_flowRead _ _
  case flowWrite => exact readsBack_flowWrite _ _ _ _
  case flowDelete => exact readsBack_flowDelete _ _
  case sketchRead => exact readsBack_sketchRead _ _ _ _ _ _
  case heavyRead => exact readsBack_heavyRead _ _ _
  case bucketRead => exact readsBack_bucketRead _ _ _
  case bucketMove => exact readsBack_bucketMove _ _ _
  case modelLoad => exact readsBack_modelLoad _ _ _
  case modelUnload => exact readsBack_modelUnload _ _
  case epochCommit => exact readsBack_epochCommit _ _ _
  case epochStatus => exact readsBack_epochStatus _
  case tensorWrite => exact readsBack_tensorWrite _ _ _
  case tensorRead => exact readsBack_tensorRead _ _ _
  case tileRun => exact readsBack_tileRun _ _ _
  case trainStep => exact readsBack_trainStep _ _ _ _
  case threshRead => exact readsBack_threshRead _ _
  case meterWrite => exact readsBack_meterWrite _ _ _ _ _ _ _
  case meterRead => exact readsBack_meterRead _ _
  case shaperWrite => exact readsBack_shaperWrite _ _ _ _ _
  case gclWrite => exact readsBack_gclWrite _ _ _ _ _
  case gclRead => exact readsBack_gclRead _ _ _ _ _
  case queueSample => exact readsBack_queueSample _ _ _
  case hostpktRing => exact readsBack_hostpktRing _ _ _ _
  case timeAdjust => exact readsBack_timeAdjust _ _ _
  case timeRead => exact readsBack_timeRead _
  case fabricJoin => exact readsBack_fabricJoin _ _ _
  case fabricLeave => exact readsBack_fabricLeave _
  case fabricStatus => exact readsBack_fabricStatus _
  case linkRekey => exact readsBack_linkRekey _ _
  case flowHomeSet => exact readsBack_flowHomeSet _ _ _ _
  case collectiveRun => exact readsBack_collectiveRun _ _ _ _
  case timeOffsets => exact readsBack_timeOffsets _ _ _
  case partCreate => exact readsBack_partCreate _ _ _ _
  case partDestroy => exact readsBack_partDestroy _ _
  case partReset => exact readsBack_partReset _ _
  case partQuery => exact readsBack_partQuery _ _
  case keyRotate => exact readsBack_keyRotate _ _
  case keyStatus => exact readsBack_keyStatus _ _
  case cmdKeySet => exact readsBack_cmdKeySet _ _
  case attestReport => exact readsBack_attestReport _ _ _
  case certChain => exact readsBack_certChain _ _
  case counterRead => exact readsBack_counterRead _ _ _ _
  case counterSampleReset => exact readsBack_counterSampleReset _ _ _ _
  case traceConfig => exact readsBack_traceConfig _ _ _
  case traceRead => exact readsBack_traceRead _ _
  case profileRead => exact readsBack_profileRead _ _
  case wringStop => exact readsBack_wringStop _ _
  case wringScanout => exact readsBack_wringScanout _ _
  case errorRead => exact readsBack_errorRead _ _ _
  case errorAck => exact readsBack_errorAck _ _
  case windowSet => exact readsBack_windowSet _ _ _ _
  case unitFence => exact readsBack_unitFence _ _
  case unitUnfence => exact readsBack_unitUnfence _ _
  case errorInject => exact readsBack_errorInject _ _ _
  all_goals exact .of_none rfl

/-! ### Headers -/

/-- A header whose numbers fit is read from its bytes as it was. -/
theorem readHead_headBytes {h : CmdHead} (hw : h.wf = true) : readHead (headBytes h) = h := by
  obtain ⟨ver, opc, flags, seq, part, rsv, len, layer, oper, tag, w6, crc⟩ := h
  simp only [CmdHead.wf, Bool.and_eq_true, decide_eq_true_eq] at hw
  obtain ⟨⟨⟨⟨⟨hver, hopc⟩, hpart⟩, hrsv⟩, hlen⟩, hw6⟩ := hw
  have hflags := flags.isLt
  have hlayer := layer.isLt
  have hoper := oper.isLt
  have w0 : leNat (leBytes 4 (ver * 2 ^ 28 + opc * 2 ^ 16 + flags.toNat)) = ver * 2 ^ 28 + opc * 2 ^ 16 + flags.toNat :=
    leNat_leBytes_lt (by omega)
  have w2 : leNat (leBytes 4 (part * 2 ^ 26 + rsv * 2 ^ 16 + len)) = part * 2 ^ 26 + rsv * 2 ^ 16 + len :=
    leNat_leBytes_lt (by omega)
  have w3 : leNat (leBytes 4 (layer.toNat * 2 ^ 16 + oper.toNat)) = layer.toNat * 2 ^ 16 + oper.toNat :=
    leNat_leBytes_lt (by omega)
  have w6' : leNat (leBytes 4 w6) = w6 := leNat_leBytes_lt (by omega)
  have low16 (x : Half) (k : Nat) : h16 (k * 2 ^ 16 + x.toNat) = x := by
    apply BitVec.eq_of_toNat_eq
    rw [BitVec.toNat_ofNat, Nat.mul_add_mod_self_right, Nat.mod_eq_of_lt x.isLt]
  have hf : h16 (ver * 2 ^ 28 + opc * 2 ^ 16 + flags.toNat) = flags := by
    rw [show ver * 2 ^ 28 + opc * 2 ^ 16 = (ver * 2 ^ 12 + opc) * 2 ^ 16 by omega, low16]
  have hl : h16 (bitsOf (layer.toNat * 2 ^ 16 + oper.toNat) 31 16) = layer := by
    rw [bitsOf, show (layer.toNat * 2 ^ 16 + oper.toNat) / 2 ^ 16 % 2 ^ (31 + 1 - 16) = layer.toNat by omega]
    exact BitVec.ofNat_toNat ..
  simp only [Nat.reducePow] at *
  simp [readHead, headBytes, uAt_eq, w0, w2, w3, w6', hf, hl, low16]
  simp only [bitsOf]
  omega

/-- Settles O56: each field of the layout is cut out of the payload at the place where it was put, a number that fits its bytes
is read from them as it was, and the Reserved bytes pass their check. -/
theorem commandsReadBack : Obligations.CommandsReadBack :=
  ⟨fun _ hw => readHead_headBytes hw, fun i => readsBack i⟩

end Sys2Proof.Proofs
end

