-- ==== Sys2Proof/Proofs/QuietIsKept.lean ====
section
/-! PROOF. Quiet says nothing of a stop that stands (O57). A quiet module may so hold one, and a FATAL event that joins it in its
own cycle puts every link down, which writes the 32 links of a fabric state that Quiet wants empty. -/

namespace Sys2Proof.Proofs
open Sys2Proof.Machine

/-- A module in REMOVING with nothing on its way and no key held, but with a stop of its first PKCLK cycle still standing, and a
PLL about to lose lock. -/
def stoppedRemoval : State :=
  { State.reset with
    sys := { State.reset.sys with mode := .removing, keysLive := false }
    obs := { State.reset.obs with stop := some { cause := 2, pk := 12, ft := 0, origin := 0, originFt := 0, skews := [] } }
    pending := [.pllLossOfLock] }

theorem quiet_stoppedRemoval : Quiet stoppedRemoval where
  noHost   := rfl
  rings    := by decide
  inband   := by decide
  cmdKeys  := by decide
  regions  := by decide
  coreKeys := rfl
  hbm      := rfl
  packets  := rfl
  fabric   := rfl
  noSa     := rfl

/-- The state that the loss of lock leaves. -/
def stoppedRemovalAfter : State := fatalStop { stoppedRemoval with pending := [] }

theorem step_stoppedRemoval : step stoppedRemoval = .next stoppedRemovalAfter := rfl

theorem links_stoppedRemovalAfter : stoppedRemovalAfter.fab.links.length = 32 := by decide +kernel

/-- Refutes O57: the module of `stoppedRemoval` is quiet, and PLL_LOSS_OF_LOCK, which joins the stop in its cycle, leaves it with
32 links in its fabric state. -/
theorem not_quietIsKept : ¬ Obligations.QuietIsKept := by
  unfold Obligations.QuietIsKept
  intro kept
  have quiet : Quiet stoppedRemovalAfter := kept _ _ quiet_stoppedRemoval (by simp [stoppedRemoval]) step_stoppedRemoval
  have links := links_stoppedRemovalAfter
  rw [quiet.fabric] at links
  cases links

end Sys2Proof.Proofs
end

