-- ==== Sys2Proof/Proofs/StateRules.lean ====
section
/-! PROOF. What the accessors of the state read after an update of the same and of another key, and how a command runs that a
module with its host link up takes. -/

namespace Sys2Proof.Proofs
open Sys2Proof.Machine

variable {s : State}

/-! ### The accessors after an update -/

@[simp] theorem ring_setRing_self (n : Nat) (r : Ring) : (s.setRing n r).ring n = r := smGet_smSet_self ..
theorem ring_setRing_ne {n k : Nat} (r : Ring) (h : k ≠ n) : (s.setRing n r).ring k = s.ring k := smGet_smSet_ne _ _ _ h
@[simp] theorem ring_modRing_self (n : Nat) (f : Ring → Ring) : (s.modRing n f).ring n = f (s.ring n) := smGet_smSet_self ..
theorem ring_modRing_ne {n k : Nat} (f : Ring → Ring) (h : k ≠ n) : (s.modRing n f).ring k = s.ring k := smGet_smSet_ne _ _ _ h
@[simp] theorem part_setPart_self (n : Nat) (r : Part) : (s.setPart n r).part n = r := smGet_smSet_self ..
theorem part_setPart_ne {n k : Nat} (r : Part) (h : k ≠ n) : (s.setPart n r).part k = s.part k := smGet_smSet_ne _ _ _ h
@[simp] theorem part_modPart_self (n : Nat) (f : Part → Part) : (s.modPart n f).part n = f (s.part n) := smGet_smSet_self ..
theorem part_modPart_ne {n k : Nat} (f : Part → Part) (h : k ≠ n) : (s.modPart n f).part k = s.part k := smGet_smSet_ne _ _ _ h
@[simp] theorem slot_setSlot_self (n : Nat) (x : Slot) : (s.setSlot n x).slot n = x := smGet_smSet_self ..
theorem slot_setSlot_ne {n k : Nat} (x : Slot) (h : k ≠ n) : (s.setSlot n x).slot k = s.slot k := smGet_smSet_ne _ _ _ h
@[simp] theorem link_setLink_self (n : Nat) (x : Link) : (s.setLink n x).link n = x := smGet_smSet_self ..
theorem link_setLink_ne {n k : Nat} (x : Link) (h : k ≠ n) : (s.setLink n x).link k = s.link k := smGet_smSet_ne _ _ _ h

@[simp] theorem ring_modPart (k p : Nat) (f : Part → Part) : (s.modPart p f).ring k = s.ring k := rfl
@[simp] theorem part_modRing (p k : Nat) (f : Ring → Ring) : (s.modRing k f).part p = s.part p := rfl
@[simp] theorem part_setRing (p k : Nat) (r : Ring) : (s.setRing k r).part p = s.part p := rfl

/-! ### Lists by index -/

theorem nth_setNth_self {α : Type} {d x : α} {l : List α} {i : Nat} (h : i < l.length) : nth d (setNth l i x) i = x := by
  simp [nth, setNth, h]

theorem nth_setNth_ne {α : Type} {d x : α} {l : List α} {i j : Nat} (h : j ≠ i) : nth d (setNth l i x) j = nth d l j := by
  simp [nth, setNth, List.getElem?_set_ne (Ne.symm h)]

/-! ### Host accesses and commands that run -/

theorem viaHost_of_host {f : State → State} (h : s.sys.mode.hasHost = true) : viaHost f s = f s := by simp [viaHost, h]

theorem viaHost_of_noHost {f : State → State} (h : s.sys.mode.hasHost = false) : viaHost f s = s := by simp [viaHost, h]

theorem firstFail_cons (b : Bool) (st : Status) (l : List (Bool × Status)) :
    firstFail ((b, st) :: l) = if b then some st else firstFail l := by cases b <;> rfl

@[simp] theorem firstFail_nil : firstFail [] = none := rfl

/-- An opcode that the module state does not take is stopped by the gate. -/
theorem stateGate_of_not_runs {c : CmdCtx} {opc : Nat} (h : opcodeRuns s.sys.mode opc = false) :
    stateGate c opc s = some .notReady := by
  unfold stateGate
  cases hm : s.sys.mode <;> simp_all [opcodeRuns, r79]

/-- While the root-of-trust core resets, a running module answers a command that needs the core with RETRY. -/
theorem stateGate_of_rotBusy {c : CmdCtx} {opc : Nat} (up : s.sys.mode = .running) (busy : s.sys.rotBusy = true)
    (core : needsCore opc = true) : stateGate c opc s = some .retry := by
  simp [stateGate, up, busy, core]

/-- A command whose checks pass completes with the status of the gate that stops it. -/
theorem runCmd_gated {c : CmdCtx} {opc : Nat} {check : State → Option Status} {work : State → State} {st : Status}
    (host : s.sys.mode.hasHost = true) (hc : check (beginCmd c opc s) = none)
    (gate : stateGate c opc (beginCmd c opc s) = some st) :
    runCmd c opc check work s = finish c st [] 0 0 (beginCmd c opc s) := by
  simp [runCmd, host, hc, gate]

/-! ### Folds over the state -/

/-- What every step of a fold keeps, the fold keeps. -/
theorem foldl_rel {α : Type} {R : State → State → Prop} (refl : ∀ s, R s s) (trans : ∀ s t u, R s t → R t u → R s u)
    {f : State → α → State} (step : ∀ s x, R s (f s x)) (l : List α) (s : State) : R s (l.foldl f s) := by
  induction l generalizing s with
  | nil => exact refl s
  | cons x l ih => exact trans _ _ _ (step s x) (ih (f s x))

/-- What only counts leaves everything but the counters. -/
theorem foldl_obs {α : Type} {f : State → α → State} (h : ∀ s x, ∃ o, f s x = { s with obs := o }) (l : List α) (s : State) :
    ∃ o, l.foldl f s = { s with obs := o } :=
  foldl_rel (R := fun s t => ∃ o, t = { s with obs := o }) (fun s => ⟨s.obs, rfl⟩)
    (fun _ _ _ ⟨_, h⟩ ⟨o, k⟩ => ⟨o, by rw [k, h]⟩) h l s

end Sys2Proof.Proofs
end

