-- ==== Sys2Proof/Proofs/Answers.lean ====
section
/-! PROOF. What commands' starts and replies leave of the parts that `Kept` says nothing of: a ring but for its entries, its reply
side and its profiles; a partition but for its in-band stream; the egress path but for the in-band frames that wait to leave;
DARN but for the poison of HBM; what a stop captures. -/

namespace Sys2Proof.Proofs
open Sys2Proof.Machine

variable {s : State}

/-- A ring without what commands' starts and replies write. -/
def ringCore (r : Ring) : Ring :=
  { r with inFlight := [], movedAt := 0, rpWrite := 0, rpCount := 0, pendAt := none, pendOld := false, profiles := [] }

/-- A partition without its in-band stream. -/
def partCore (x : Part) : Part := { x with ibFlight := [], ibOwn := 0 }

/-- The two states differ only in what commands' starts and replies write. -/
structure Answers (s t : State) : Prop where
  ring : ∀ n, ringCore (t.ring n) = ringCore (s.ring n)
  part : ∀ p, partCore (t.part p) = partCore (s.part p)
  egr  : t.egr = { s.egr with inbandTx := t.egr.inbandTx }
  darn : t.darn = { s.darn with poisonHbm := t.darn.poisonHbm }
  stop : t.obs.stop = s.obs.stop
  late : t.obs.late = s.obs.late
  ival : t.obs.ival = s.obs.ival

theorem Answers.refl (s : State) : Answers s s := ⟨fun _ => rfl, fun _ => rfl, rfl, rfl, rfl, rfl, rfl⟩

theorem Answers.trans {s t u : State} (a : Answers s t) (b : Answers t u) : Answers s u where
  ring n := (b.ring n).trans (a.ring n)
  part p := (b.part p).trans (a.part p)
  egr    := by rw [b.egr, a.egr]
  darn   := by rw [b.darn, a.darn]
  stop   := b.stop.trans a.stop
  late   := b.late.trans a.late
  ival   := b.ival.trans a.ival

theorem Answers.ite {p : Prop} [Decidable p] {t u : State} (a : Answers s t) (b : Answers s u) : Answers s (if p then t else u) := by
  split
  · exact a
  · exact b

theorem setRing_answers {n : Nat} {r : Ring} (h : ringCore r = ringCore (s.ring n)) : Answers s (s.setRing n r) :=
  { Answers.refl s with
    ring := fun k => by
      by_cases e : k = n
      · rw [e, ring_setRing_self, h]
      · rw [ring_setRing_ne _ e] }

theorem setPart_answers {n : Nat} {x : Part} (h : partCore x = partCore (s.part n)) : Answers s (s.setPart n x) :=
  { Answers.refl s with
    part := fun k => by
      by_cases e : k = n
      · rw [e, part_setPart_self, h]
      · rw [part_setPart_ne _ e] }

theorem setFlight_answers (x : Src) (l : List InFlight) : Answers s (s.setFlight x l) := by
  cases x with
  | ring n => exact setRing_answers rfl
  | inband p _ _ => exact setPart_answers rfl

theorem hostWrite_answers (a : Nat) (b : Bytes) : Answers s (s.hostWrite a b) := { Answers.refl s with }

theorem obs_answers {o : Obs} (stop : o.stop = s.obs.stop) (late : o.late = s.obs.late) (ival : o.ival = s.obs.ival) :
    Answers s { s with obs := o } := { Answers.refl s with stop, late, ival }

theorem setTrace_answers (p : Nat) (x : Trace) : Answers s (s.setTrace p x) := { Answers.refl s with }

theorem count_answers (k : Ctr) (n : Nat) : Answers s (s.count k n) := { Answers.refl s with }

theorem hbmWrite_answers (p a : Nat) (b : Bytes) : Answers s (s.hbmWrite p a b) := by
  have counted : Answers s (countHbm s p a b.length true) := by
    unfold countHbm
    split
    · exact .refl s
    · exact (count_answers ..).trans (count_answers ..)
  have noted : Answers (countHbm s p a b.length true) ((countHbm s p a b.length true).noteEpoch (s.unitRuns p a b.length)) := by
    unfold State.noteEpoch
    split
    · exact .refl _
    · exact { Answers.refl _ with }
  exact (counted.trans noted).trans { Answers.refl _ with darn := rfl }

theorem shiftRecs_answers (p addr size n pos : Nat) (s : State) : Answers s (shiftRecs p addr size n pos s) := by
  induction n generalizing pos s with
  | zero => exact .refl s
  | succ n ih =>
    unfold shiftRecs
    refine Answers.trans ?_ (ih ..)
    exact { Answers.refl s with }

theorem traceWait_answers (p : Nat) (w : Wait) (s : State) : Answers s (traceWait p w s) := by
  unfold traceWait
  dsimp only
  split
  · exact .refl s
  have settled : Answers s (settleTrace (s.fval .traceBudget) s) := { Answers.refl s with }
  split
  · exact settled.trans (count_answers ..)
  split
  · exact settled.trans (count_answers ..)
  · refine Answers.trans (settled.trans ?_) ((setTrace_answers ..).trans (count_answers ..))
    refine Answers.trans ?_ (hbmWrite_answers ..)
    refine Answers.trans ?_ (shiftRecs_answers ..)
    exact obs_answers (s := settleTrace (s.fval .traceBudget) s) rfl rfl rfl

theorem ringPut_answers (loc : Bool) (part base size : Nat) (off : Word) (b : Bytes) :
    Answers s (ringPut s loc part base size off b) := by
  unfold ringPut
  split
  · exact (hbmWrite_answers ..).trans (hbmWrite_answers ..)
  · exact (hostWrite_answers ..).trans (hostWrite_answers ..)

theorem keepPend_core (pk : Nat) (r : Ring) : ringCore (r.keepPend pk) = ringCore r := by
  unfold Ring.keepPend
  split <;> rfl

theorem ringReply_answers (n : Nat) (b : Bytes) (s : State) : Answers s (ringReply n b s) := by
  unfold ringReply
  dsimp only
  have put (w : Word) (k : Half) (u : State) : Answers u (u.setRing n { (u.ring n).keepPend u.clk.pk with rpWrite := w, rpCount := k }) :=
    setRing_answers (keepPend_core u.clk.pk (u.ring n) :)
  split
  · exact (ringPut_answers ..).trans (put ..)
  · exact ((ringPut_answers ..).trans (put ..)).trans (hostWrite_answers ..)

theorem inbandReply_answers (p port : Nat) (mac : Bytes) (key : Nat) (b : Bytes) (s : State) :
    Answers s (inbandReply p port mac key b s) := by
  have numbered : Answers s (s.setPart p { s.part p with ibOwn := (s.part p).ibOwn + 1 }) := setPart_answers rfl
  exact numbered.trans { Answers.refl _ with egr := rfl }

theorem endProfile_answers (x : InFlight) (s : State) : Answers s (endProfile x s) := by
  unfold endProfile
  split
  · exact .refl s
  · split
    · exact .refl s
    · exact setRing_answers rfl

theorem flushReplies_answers (x : Src) (k : Nat) (s : State) : Answers s (flushReplies x k s) := by
  induction k generalizing s with
  | zero => exact .refl s
  | succ k ih =>
    unfold flushReplies
    split
    · exact .refl s
    · refine Answers.trans ?_ (ih _)
      split
      · exact ((setFlight_answers ..).trans (endProfile_answers ..)).trans (ringReply_answers ..)
      · exact ((setFlight_answers ..).trans (endProfile_answers ..)).trans (inbandReply_answers ..)

theorem takeProfile_answers (c : CmdCtx) (s : State) : Answers s (takeProfile c s) := by
  unfold takeProfile
  split
  · exact .refl s
  · split
    · exact .refl s
    · refine setRing_answers ?_
      dsimp only
      split
      · rfl
      · split <;> rfl

theorem fenceEnds_answers (c : CmdCtx) (s : State) : Answers s (fenceEnds c s) := by
  unfold fenceEnds
  split
  · exact (setFlight_answers ..).trans (traceWait_answers ..)
  · exact .refl s

theorem drainEnds_answers (c : CmdCtx) (s : State) : Answers s (drainEnds c s) := by
  unfold drainEnds
  split
  · exact (setFlight_answers ..).trans (traceWait_answers ..)
  · exact .refl s

theorem beginCmd_answers (c : CmdCtx) (opc : Nat) (s : State) : Answers s (beginCmd c opc s) := by
  have fenced (l : List InFlight) : Answers s (fenceEnds c (s.setFlight c.src l)) :=
    (setFlight_answers ..).trans (fenceEnds_answers ..)
  unfold beginCmd
  dsimp only
  exact .ite (fenced _) ((fenced _).trans (takeProfile_answers ..))

theorem finish_answers (c : CmdCtx) (st : Status) (body : Bytes) (order : DWord) (fl : Nat) (s : State) :
    Answers s (finish c st body order fl s) := by
  unfold finish
  split
  · exact .refl s
  · exact ((drainEnds_answers c s).trans (setFlight_answers ..)).trans (flushReplies_answers ..)

theorem waitCmd_answers (c : CmdCtx) (i : Instr) (s : State) : Answers s (waitCmd c i s) := setFlight_answers ..

theorem modEntry_answers (c : CmdCtx) (f : InFlight → InFlight) (s : State) : Answers s (modEntry c f s) := setFlight_answers ..

/-! ### The fields of a ring and of a partition that commands read -/

section
variable {t : State} (h : Answers s t)
include h

theorem Answers.ring_en (n : Nat) : (t.ring n).en = (s.ring n).en := (congrArg Ring.en (h.ring n) :)
theorem Answers.ring_part (n : Nat) : (t.ring n).part = (s.ring n).part := (congrArg Ring.part (h.ring n) :)
theorem Answers.part_state (p : Nat) : (t.part p).state = (s.part p).state := (congrArg Part.state (h.part p) :)
theorem Answers.part_cmdKey (p : Nat) : (t.part p).cmdKey = (s.part p).cmdKey := (congrArg Part.cmdKey (h.part p) :)
theorem Answers.part_sealGen (p : Nat) : (t.part p).sealGen = (s.part p).sealGen := (congrArg Part.sealGen (h.part p) :)
theorem Answers.part_ports (p : Nat) : (t.part p).ports = (s.part p).ports := (congrArg Part.ports (h.part p) :)
theorem Answers.part_slots (p : Nat) : (t.part p).slots = (s.part p).slots := (congrArg Part.slots (h.part p) :)
theorem Answers.part_meterFirst (p : Nat) : (t.part p).meterFirst = (s.part p).meterFirst := (congrArg Part.meterFirst (h.part p) :)
theorem Answers.part_meterCount (p : Nat) : (t.part p).meterCount = (s.part p).meterCount := (congrArg Part.meterCount (h.part p) :)
theorem Answers.part_ranges (p : Nat) : (t.part p).ranges = (s.part p).ranges := (congrArg Part.ranges (h.part p) :)
theorem Answers.part_regions (p : Nat) : (t.part p).regions = (s.part p).regions := (congrArg Part.regions (h.part p) :)

end

@[simp] theorem beginCmd_ring_en (c : CmdCtx) (opc : Nat) (k : Nat) : ((beginCmd c opc s).ring k).en = (s.ring k).en :=
  (beginCmd_answers c opc s).ring_en k
@[simp] theorem beginCmd_ring_part (c : CmdCtx) (opc : Nat) (k : Nat) : ((beginCmd c opc s).ring k).part = (s.ring k).part :=
  (beginCmd_answers c opc s).ring_part k
@[simp] theorem beginCmd_part_state (c : CmdCtx) (opc : Nat) (k : Nat) : ((beginCmd c opc s).part k).state = (s.part k).state :=
  (beginCmd_answers c opc s).part_state k
@[simp] theorem beginCmd_part_cmdKey (c : CmdCtx) (opc : Nat) (k : Nat) : ((beginCmd c opc s).part k).cmdKey = (s.part k).cmdKey :=
  (beginCmd_answers c opc s).part_cmdKey k
@[simp] theorem beginCmd_part_sealGen (c : CmdCtx) (opc : Nat) (k : Nat) : ((beginCmd c opc s).part k).sealGen = (s.part k).sealGen :=
  (beginCmd_answers c opc s).part_sealGen k
@[simp] theorem beginCmd_part_ranges (c : CmdCtx) (opc : Nat) (k : Nat) : ((beginCmd c opc s).part k).ranges = (s.part k).ranges :=
  (beginCmd_answers c opc s).part_ranges k
@[simp] theorem beginCmd_part_regions (c : CmdCtx) (opc : Nat) (k : Nat) : ((beginCmd c opc s).part k).regions = (s.part k).regions :=
  (beginCmd_answers c opc s).part_regions k
@[simp] theorem finish_ring_en (c : CmdCtx) (st : Status) (body : Bytes) (order : DWord) (fl : Nat) (k : Nat) : ((finish c st body order fl s).ring k).en = (s.ring k).en :=
  (finish_answers c st body order fl s).ring_en k
@[simp] theorem finish_ring_part (c : CmdCtx) (st : Status) (body : Bytes) (order : DWord) (fl : Nat) (k : Nat) : ((finish c st body order fl s).ring k).part = (s.ring k).part :=
  (finish_answers c st body order fl s).ring_part k
@[simp] theorem finish_part_state (c : CmdCtx) (st : Status) (body : Bytes) (order : DWord) (fl : Nat) (k : Nat) : ((finish c st body order fl s).part k).state = (s.part k).state :=
  (finish_answers c st body order fl s).part_state k
@[simp] theorem finish_part_cmdKey (c : CmdCtx) (st : Status) (body : Bytes) (order : DWord) (fl : Nat) (k : Nat) : ((finish c st body order fl s).part k).cmdKey = (s.part k).cmdKey :=
  (finish_answers c st body order fl s).part_cmdKey k
@[simp] theorem finish_part_sealGen (c : CmdCtx) (st : Status) (body : Bytes) (order : DWord) (fl : Nat) (k : Nat) : ((finish c st body order fl s).part k).sealGen = (s.part k).sealGen :=
  (finish_answers c st body order fl s).part_sealGen k
@[simp] theorem finish_part_ranges (c : CmdCtx) (st : Status) (body : Bytes) (order : DWord) (fl : Nat) (k : Nat) : ((finish c st body order fl s).part k).ranges = (s.part k).ranges :=
  (finish_answers c st body order fl s).part_ranges k
@[simp] theorem finish_part_regions (c : CmdCtx) (st : Status) (body : Bytes) (order : DWord) (fl : Nat) (k : Nat) : ((finish c st body order fl s).part k).regions = (s.part k).regions :=
  (finish_answers c st body order fl s).part_regions k

/-! ### Buffers -/

theorem addCounts_kept (c : CmdCtx) (id : DWord) (d : List DWord) (s : State) : Kept s (addCounts c id d s) := by
  unfold addCounts
  split
  · exact modRing_kept ..
  · exact .refl s

theorem addCounts_answers (c : CmdCtx) (id : DWord) (d : List DWord) (s : State) : Answers s (addCounts c id d s) := by
  unfold addCounts
  split
  · exact setRing_answers rfl
  · exact .refl s

theorem profiled_kept {c : CmdCtx} {f : State → State} (h : Kept s (f s)) : Kept s (profiled c f s) := by
  unfold profiled profileOf
  split
  · exact h.trans (addCounts_kept ..)
  · exact h

theorem profiled_answers {c : CmdCtx} {f : State → State} (h : Answers s (f s)) : Answers s (profiled c f s) := by
  unfold profiled profileOf
  split
  · exact h.trans (addCounts_answers ..)
  · exact h

theorem countHbm_answers (p a n : Nat) (w : Bool) : Answers s (countHbm s p a n w) := by
  unfold countHbm
  split
  · exact .refl s
  · exact (count_answers ..).trans (count_answers ..)

theorem brefCharge_kept (c : CmdCtx) (b : Bref) (n : Nat) (s : State) : Kept s (brefCharge c b n s) := by
  unfold brefCharge
  split
  · exact profiled_kept (countHbm_kept ..)
  · exact .refl s

theorem brefCharge_answers (c : CmdCtx) (b : Bref) (n : Nat) (s : State) : Answers s (brefCharge c b n s) := by
  unfold brefCharge
  split
  · exact profiled_answers (countHbm_answers ..)
  · exact .refl s

end Sys2Proof.Proofs
end

