-- ==== Sys2Proof/Proofs/Identity.lean ====
section
/-! PROOF. The step's order, and the commands that identify the module, bind rings and stage firmware (O1, O3, O4). -/

namespace Sys2Proof.Proofs
open Sys2Proof.Machine

/-! ### The arms of `exec` these commands take -/

theorem exec_nop (c : CmdCtx) (s : State) : exec (.nop c) s = execNop c s := rfl
theorem exec_getInfo (c : CmdCtx) (s : State) : exec (.getInfo c) s = execGetInfo c s := rfl
theorem exec_getStatus (c : CmdCtx) (s : State) : exec (.getStatus c) s = execGetStatus c s := rfl
theorem exec_fieldRead (c : CmdCtx) (id count : Nat) (s : State) : exec (.fieldRead c id count) s = execFieldRead c id count s := rfl
theorem exec_keyStatus (c : CmdCtx) (r : Nat) (s : State) : exec (.keyStatus c r) s = execKeyStatus c r s := rfl
theorem exec_ringBind (c : CmdCtx) (n p : Nat) (s : State) : exec (.ringBind c n p) s = execRingBind c n p s := rfl
theorem exec_fwStage (c : CmdCtx) (k : Nat) (b : Bref) (d : Bytes) (s : State) :
    exec (.fwStage c k b d) s = execFwStage c k b d s := rfl
theorem exec_fwActivate (c : CmdCtx) (k : Nat) (s : State) : exec (.fwActivate c k) s = execFwActivate c k s := rfl

theorem infoBody_beginCmd (c : CmdCtx) (opc : Nat) (s : State) : infoBody (beginCmd c opc s) = infoBody s := by simp [infoBody]

/-- Settles O1. -/
theorem stepRunsFront : Obligations.StepRunsFront := by
  unfold Obligations.StepRunsFront
  intro i rest s front
  simp [step, front]

/-- Settles O3: the three commands have no checks of their own; the others are stopped by the gate of the module state, and NOP
by the missing host link. -/
theorem identifyAndNotReady : Obligations.IdentifyAndNotReady := by
  unfold Obligations.IdentifyAndNotReady
  refine ⟨⟨?nop, ?info, ?status⟩, ?epochs, ?fields, ?keys, ?noHost⟩
  case nop =>
    intro c s ready
    rw [exec_nop, execNop, runCmd_ready ready rfl]
  case info =>
    intro c s ready
    rw [exec_getInfo, execGetInfo, runCmd_ready ready rfl, infoBody_beginCmd]
    rfl
  case status =>
    intro c s ready
    rw [exec_getStatus, execGetStatus, runCmd_ready ready rfl]
    by_cases safe : s.sys.mode = .safe <;> simp [safe, b2n]
  case epochs =>
    intro c s host stopped
    rw [exec_epochStatus, execEpochStatus, runCmd_gated host rfl (stateGate_of_not_runs (by simpa using stopped))]
  case fields =>
    intro c id count s host stopped checked
    rw [exec_fieldRead, execFieldRead, runCmd_gated host checked (stateGate_of_not_runs (by simpa using stopped))]
  case keys =>
    intro c r s up busy checked
    have host : s.sys.mode.hasHost = true := by rw [up]; rfl
    rw [exec_keyStatus, execKeyStatus,
      runCmd_gated host checked (stateGate_of_rotBusy (by simpa using up) (by simpa using busy) rfl)]
  case noHost =>
    intro c s host
    rw [exec_nop, execNop, runCmd_noHost host]

/-! ### RING_BIND -/

theorem ringBindCheck_passes {c : CmdCtx} {n p : Nat} {s : State} (zero : c.part = 0) (hn : n ≤ 63) (hp : p ≤ 63)
    (used : (s.part p).state ≠ 0) (open_ : (s.part p).state ≠ 4) (off : (s.ring n).en = false)
    (gens : ¬ ((s.part p).cmdKey.isSome = true ∧ (s.part p).sealGen = 0xffff)) : ringBindCheck c n p s = none := by
  simp only [ringBindCheck, firstFail_none, p0Only, genExhausted]
  simp [zero, used, open_, off, Nat.not_lt.mpr hn, Nat.not_lt.mpr hp]
  simpa using gens

/-! ### Firmware -/

theorem fw_fwStageWork {c : CmdCtx} {k : Nat} {b : Bref} {d : Bytes} {s : State}
    (digest : sha384 (brefRead c b b.size (brefCharge c b b.size s)) = d) :
    (fwStageWork c k b d s).sys.fw
      = setNth s.sys.fw k { nth {} s.sys.fw k with state := 1, pending := BitVec.ofNat 384 (leNat d) } := by
  have charged := (brefCharge_kept c b b.size s).sys
  simp [fwStageWork, digest, charged]

/-- Settles O4. -/
theorem ringBindAndFirmware : Obligations.RingBindAndFirmware := by
  unfold Obligations.RingBindAndFirmware
  refine ⟨?bind, ?stage, ?activate⟩
  case bind =>
    intro c n p s ready zero hn hp used open_ off gens
    have passes := ringBindCheck_passes (s := beginCmd c 0x020 s) zero hn hp
      (by simpa using used) (by simpa using open_) (by simpa using off) (by simpa using gens)
    refine ⟨?_, ?_, ?_, ?_, ?_, ?_⟩
    · rw [exec_ringBind, execRingBind, runCmd_ready ready passes]
    · simp [bindRing]
    · simp [bindRing]
    · simp [bindRing]
    · intro k hk
      simp [bindRing, ring_modRing_ne _ hk]
    · intro q hq
      simp [bindRing, part_modPart_ne _ hq]
  case stage =>
    intro c k b d s ready zero low high five sound digest
    have passes : (firstFail [p0Only c, (!inR k 1 4, .badParam)] <|> brefStatus c b 0 b.size (beginCmd c 0x040 s)) = none := by
      simp [firstFail, p0Only, zero, inR, low, high, sound]
    refine ⟨_, by rw [exec_fwStage, execFwStage, runCmd_ready ready passes], ?_⟩
    rw [fw_fwStageWork digest, beginCmd_sys, nth_setNth_self (by omega)]
    exact ⟨rfl, rfl, rfl, fun j hj => nth_setNth_ne hj⟩
  case activate =>
    intro c k s ready zero low high five staged
    have passes : firstFail [p0Only c, (!inR k 1 4 || decide ((nth {} (beginCmd c 0x041 s).sys.fw k).state = 0), .badParam)] = none := by
      simpa [firstFail, p0Only, zero, inR, low, high] using staged
    refine ⟨_, by rw [exec_fwActivate, execFwActivate, runCmd_ready ready passes], ?_⟩
    simp only [finish_sys, beginCmd_sys]
    rw [nth_setNth_self (by omega)]
    exact ⟨rfl, rfl, fun j hj => nth_setNth_ne hj⟩

end Sys2Proof.Proofs
end

