-- ==== Sys2Proof/Proofs/HostWindow.lean ====
section
/-! PROOF. Accesses of the host: the offsets of a ring, its control register and the registers of BAR0 (O7, O8, O9). -/

namespace Sys2Proof.Proofs
open Sys2Proof.Machine

variable {s : State}

theorem exec_crTailWrite (n : Nat) (v : Word) (host : s.sys.mode.hasHost = true) :
    exec (.crTailWrite n v) s = .next (crTailStore n v s) := congrArg _ (viaHost_of_host host)
theorem exec_rpHeadWrite (n : Nat) (v : Word) (host : s.sys.mode.hasHost = true) :
    exec (.rpHeadWrite n v) s = .next (rpHeadStore n v s) := congrArg _ (viaHost_of_host host)
theorem exec_ringEnable (n : Nat) (cl rl : Bool) (host : s.sys.mode.hasHost = true) :
    exec (.ringEnable n cl rl) s = .next (ringCtrlWrite n true cl rl false s) := congrArg _ (viaHost_of_host host)
theorem exec_ringDisable (n : Nat) (cl rl : Bool) (host : s.sys.mode.hasHost = true) :
    exec (.ringDisable n cl rl) s = .next (ringCtrlWrite n false cl rl false s) := congrArg _ (viaHost_of_host host)
theorem exec_ringReset (n : Nat) (en cl rl : Bool) (host : s.sys.mode.hasHost = true) :
    exec (.ringReset n en cl rl) s = .next (ringCtrlWrite n en cl rl true s) := congrArg _ (viaHost_of_host host)
theorem exec_registerWrite (o : Nat) (v : Word) (host : s.sys.mode.hasHost = true) :
    exec (.registerWrite o v) s = .next (bar0Store o v s) := congrArg _ (viaHost_of_host host)
theorem exec_dsmAddrHiWrite (v : Word) (host : s.sys.mode.hasHost = true) :
    exec (.dsmAddrHiWrite v) s = .next (dsmHiStore v s) := congrArg _ (viaHost_of_host host)

/-! ### Offsets -/

theorem ring_crTailStore_ne {n k : Nat} (v : Word) (h : k ≠ n) : (crTailStore n v s).ring k = s.ring k := by
  unfold crTailStore
  dsimp only
  split <;> exact ring_setRing_ne _ h

theorem keepPend_eq (pk : Nat) (r : Ring) : r.keepPend pk = { r with pendAt := some pk, pendOld := r.pendRead pk } := by
  unfold Ring.keepPend Ring.pendRead
  split
  · next same => rw [← same]
  · rfl

/-- Settles O7. -/
theorem offsetWrites : Obligations.OffsetWrites := by
  unfold Obligations.OffsetWrites
  intro n v s host
  refine ⟨⟨_, exec_crTailWrite n v host, ?_, fun k hk => ring_crTailStore_ne v hk, ?_⟩,
    ⟨_, exec_rpHeadWrite n v host, rfl, fun k hk => ring_modRing_ne _ hk, ?_, ?_, ?_⟩⟩
  · unfold crTailStore
    dsimp only
    split <;> rfl
  · by_cases far : (s.ring n).crSize < Machine.dist (s.ring n).crHead v ∨ (s.ring n).crSize < Machine.dist (s.ring n).crTail v
    · have far' := far
      simp only [Machine.dist, Ring.crSize] at far'
      simp [crTailStore, far, far', -BitVec.toNat_sub]
    · have near := far
      simp only [Machine.dist, Ring.crSize] at near
      simp [crTailStore, far, near, -BitVec.toNat_sub]
  all_goals simp only [rpHeadStore, ring_modRing_self, keepPend_eq]
  · simp [Ring.pendRead]
  · intro k hk
    simp [Ring.pendRead, Ring.pend, Ne.symm hk]

/-! ### Control -/

/-- A RING_CTRL write that enables a disabled ring. -/
theorem ringCtrlWrite_enable {n : Nat} {cl rl : Bool} (off : (s.ring n).en = false) :
    ringCtrlWrite n true cl rl false s =
      let t := s.setRing n { s.ring n with crLoc := cl, rpLoc := rl }
      if enableOk n t then t.modRing n (fun r => { r with en := true }) else refuseRing t := by
  simp [ringCtrlWrite, off, State.modRing]

/-- A RING_CTRL write that disables a ring. -/
theorem ringCtrlWrite_disable {n : Nat} {cl rl : Bool} :
    ringCtrlWrite n false cl rl false s = (s.modRing n (fun r => { r with en := false })).modRing n
      (fun r => { r with crLoc := cl, rpLoc := rl }) := by
  simp [ringCtrlWrite]

/-- A RING_CTRL write that resets a ring, EN being 0. -/
theorem ringCtrlWrite_reset {n : Nat} {cl rl : Bool} :
    ringCtrlWrite n false cl rl true s = ringResetApply n ((s.modRing n (fun r => { r with en := false })).modRing n
      (fun r => { r with crLoc := cl, rpLoc := rl })) := by
  simp [ringCtrlWrite]

/-- A RING_CTRL write with EN 1 to an enabled ring is refused, whatever else it asks for. -/
theorem ringCtrlWrite_refused {n : Nat} {cl rl reset : Bool} (on : (s.ring n).en = true) :
    ringCtrlWrite n true cl rl reset s = refuseRing s := by
  have kept : (refuseRing s).ring n = s.ring n := rfl
  cases reset
  · simp [ringCtrlWrite, on, kept]
  · have twice : refuseRing (refuseRing s) = refuseRing s := rfl
    simp [ringCtrlWrite, on, kept, twice]

/-- Settles O8. -/
theorem ringControl : Obligations.RingControl := by
  unfold Obligations.RingControl
  intro n cl rl s host
  refine ⟨fun off => ⟨_, exec_ringEnable n cl rl host, ?_, fun ok => ?_, fun bad => ?_⟩,
    ⟨_, exec_ringDisable n cl rl host, ?_⟩, fun gens => ⟨_, exec_ringReset n false cl rl host, ?_⟩,
    fun on => ⟨?_, ?_⟩⟩
  · intro k hk
    rw [ringCtrlWrite_enable off]
    dsimp only
    split
    · rw [ring_modRing_ne _ hk, ring_setRing_ne _ hk]
    · exact ring_setRing_ne _ hk
  · rw [ringCtrlWrite_enable off]
    simp only [ok, if_true]
    exact ⟨by simp, rfl⟩
  · rw [ringCtrlWrite_enable off]
    simp only [bad]
    exact ⟨ring_setRing_self .., rfl⟩
  · rw [ringCtrlWrite_disable]
    exact ⟨by simp, fun k hk => by rw [ring_modRing_ne _ hk, ring_modRing_ne _ hk], rfl⟩
  · have fresh : genExhausted ((s.modRing n (fun r => { r with en := false })).modRing n
        (fun r => { r with crLoc := cl, rpLoc := rl })) (s.ring n).part = false := gens
    rw [ringCtrlWrite_reset, ringResetApply]
    simp only [ring_modRing_self, fresh, nextGen]
    refine ⟨by simp, by simp, fun k hk => ?_, fun q hq => ?_, rfl⟩
    · simp [ring_modRing_ne _ hk]
    · simp [part_modPart_ne _ hq]
  · rw [exec_ringReset n true cl rl host, ringCtrlWrite_refused on]
    rfl
  · rw [exec_ringEnable n cl rl host, ringCtrlWrite_refused on]
    rfl

/-! ### The registers of BAR0 -/

theorem setLo_lo (d : DWord) (v : Word) : loHalf (setLo d v) = v := by
  unfold loHalf setLo
  ext i hi
  simp

theorem setLo_hi (d : DWord) (v : Word) : hiHalf (setLo d v) = hiHalf d := by
  unfold hiHalf setLo
  ext i hi
  simp
  omega

theorem setHi_lo (d : DWord) (v : Word) : loHalf (setHi d v) = loHalf d := by
  unfold loHalf setHi
  ext i hi
  simp

theorem setHi_hi (d : DWord) (v : Word) : hiHalf (setHi d v) = v := by
  unfold hiHalf setHi
  ext i hi
  simp [BitVec.getLsbD_eq_getElem hi, show 32 + i < 64 by omega, show i < 64 by omega]

theorem setHi_eq_append (d : DWord) (v : Word) : setHi d v = v ++ d.setWidth 32 := by
  unfold setHi
  apply BitVec.eq_of_getLsbD_eq
  intro i hi
  rw [BitVec.getLsbD_append]
  by_cases low : i < 32 <;> simp [low, hi]

/-- What a write to register `o` of ring `n` does. -/
def ringStore (n o : Nat) (v : Word) (s : State) : State :=
  match o with
  | 0x00 => staticStore n (fun r => { r with crBase := setLo r.crBase v }) s
  | 0x04 => staticStore n (fun r => { r with crBase := setHi r.crBase v }) s
  | 0x08 => staticStore n (fun r => { r with rpBase := setLo r.rpBase v }) s
  | 0x0c => staticStore n (fun r => { r with rpBase := setHi r.rpBase v }) s
  | 0x10 => staticStore n (fun r => { r with crSizeLog := bitsOf v.toNat 4 0, rpSizeLog := bitsOf v.toNat 12 8 }) s
  | 0x14 => ringCtrlWrite n (v.getLsbD 0) (v.getLsbD 1) (v.getLsbD 2) (v.getLsbD 3) s
  | 0x18 => crTailStore n v s
  | 0x20 => rpHeadStore n v s
  | 0x28 => staticStore n (fun r => { r with rhwAddr := setLo r.rhwAddr v }) s
  | 0x2c => staticStore n (fun r => { r with rhwAddr := setHi r.rhwAddr v }) s
  | 0x30 => s.modRing n (fun r => { r with tailFault := r.tailFault && !v.getLsbD 8, genFull := r.genFull && !v.getLsbD 9 })
  | 0x34 => s.modRing n (fun r => { r with cmdTimeout := v.setWidth 16 })
  | _ => s

/-- The registers from 0x10000 on are the rings', 64 bytes each. -/
theorem bar0Store_ring {n o : Nat} (v : Word) (hn : n ≤ 63) (ho : o < 64) :
    bar0Store (0x10000 + 64 * n + o) v s = ringStore n o v s := by
  have ring : (0x10000 + 64 * n + o - 0x10000) / 64 = n := by omega
  have register : (0x10000 + 64 * n + o - 0x10000) % 64 = o := by omega
  rw [bar0Store, if_neg (by omega), if_neg (by omega), if_neg (by omega), if_pos (by omega)]
  simp only [ring, register]
  rfl

theorem exec_ringRegister {n o : Nat} (v : Word) (host : s.sys.mode.hasHost = true) (hn : n ≤ 63) (ho : o < 64) :
    exec (.registerWrite (0x10000 + 64 * n + o) v) s = .next (ringStore n o v s) := by
  rw [exec_registerWrite _ _ host, bar0Store_ring v hn ho]

theorem bar0Word_ring {n o : Nat} (hn : n ≤ 63) (ho : o < 64) :
    s.bar0Word (0x10000 + 64 * n + o) = (s.ring n).word o := by
  have ring : (0x10000 + 64 * n + o - 0x10000) / 64 = n := by omega
  have register : (0x10000 + 64 * n + o - 0x10000) % 64 = o := by omega
  unfold State.bar0Word
  split
  case h_18 => rw [if_pos (by omega), ring, register]
  all_goals omega

theorem staticStore_on {n : Nat} {f : Ring → Ring} (on : (s.ring n).en = true) : staticStore n f s = refuseRing s := by
  simp [staticStore, on]

theorem staticStore_off {n : Nat} {f : Ring → Ring} (off : (s.ring n).en = false) : staticStore n f s = s.modRing n f := by
  simp [staticStore, off]

theorem bar0Store_none {o : Nat} (v : Word) (low : o < 0x10000) (h1 : o ≠ 0x100) (h2 : o ≠ 0x200) (h3 : o ≠ 0x204) :
    bar0Store o v s = s := by
  rw [bar0Store, if_neg h1, if_neg h2, if_neg h3, if_neg (by omega)]

/-- The registers that are STATIC and hold the half of an address. -/
theorem ringStore_address {n o : Nat} (v : Word) (off : (s.ring n).en = false)
    (ho : o ∈ [0x00, 0x04, 0x08, 0x0c, 0x28, 0x2c]) :
    ∃ r : Ring, ringStore n o v s = s.setRing n r ∧ r.word o = v ∧
      ∀ k ∈ [0x00, 0x04, 0x08, 0x0c, 0x10, 0x14, 0x18, 0x1c, 0x20, 0x24, 0x28, 0x2c, 0x30, 0x34, 0x38, 0x3c],
        k ≠ o → r.word k = (s.ring n).word k := by
  simp only [List.mem_cons, List.not_mem_nil, or_false] at ho
  rcases ho with rfl | rfl | rfl | rfl | rfl | rfl
  all_goals
    refine ⟨_, staticStore_off off, ?_, ?_⟩
    · simp [Ring.word, setLo_lo, setHi_hi]
    · simp [Ring.word, Ring.ctrl, Ring.status, Ring.state, off, setLo_hi, setHi_lo]

/-- Settles O9. -/
theorem registerAccesses : Obligations.RegisterAccesses := by
  unfold Obligations.RegisterAccesses
  intro n v s host hn
  have access {o : Nat} (ho : o < 64) := exec_ringRegister (s := s) v host hn ho
  refine ⟨fun on o ho => ?static, fun off => ?size, fun off => ?base, fun off o ho => ?half, ?timeout, ?status, ?ctrl, ?tail,
    ?head, ?mirrorLow, ?mirrorHigh, fun o ho => ?readOnly, fun clear => ?refused, fun keep => ?kept, fun o low h1 h2 h3 => ?none,
    ?time, fun w o k => ?unsupported⟩
  case static =>
    simp only [List.mem_cons, List.not_mem_nil, or_false] at ho
    rw [access (by omega)]
    rcases ho with rfl | rfl | rfl | rfl | rfl | rfl | rfl <;> exact congrArg _ (staticStore_on on)
  case size =>
    refine ⟨_, access (by omega), ?_⟩
    rw [show ringStore n 0x10 v s = _ from staticStore_off off]
    exact ⟨by simp [bitsOf], fun k hk => ring_modRing_ne _ hk, rfl⟩
  case base =>
    refine ⟨_, access (by omega), ?_⟩
    rw [show ringStore n 0x04 v s = _ from staticStore_off off]
    exact ⟨by simp [setHi_eq_append], by simp, rfl⟩
  case half =>
    have small : o < 64 := by
      simp only [List.mem_cons, List.not_mem_nil, or_false] at ho
      omega
    obtain ⟨r, stored, written, kept⟩ := ringStore_address (s := s) v off ho
    refine ⟨_, access small, ?_⟩
    rw [stored, bar0Word_ring hn small, ring_setRing_self]
    refine ⟨written, fun q hq k hk other => ?_, rfl⟩
    have hk' : k < 64 := by
      simp only [List.mem_cons, List.not_mem_nil, or_false] at hk
      omega
    rw [bar0Word_ring hq hk', bar0Word_ring hq hk']
    by_cases same : q = n
    · subst same
      rw [ring_setRing_self]
      exact kept k hk (fun e => other ⟨rfl, e⟩)
    · rw [ring_setRing_ne _ same]
  case timeout => exact ⟨_, access (by omega), ring_modRing_self .., rfl⟩
  case status => exact ⟨_, access (by omega), ring_modRing_self .., rfl⟩
  case ctrl =>
    rw [access (by omega), exec_ringReset _ _ _ _ host, exec_ringEnable _ _ _ host, exec_ringDisable _ _ _ host]
    show Host.Outcome.next (ringCtrlWrite n (v.getLsbD 0) (v.getLsbD 1) (v.getLsbD 2) (v.getLsbD 3) s) = _
    cases v.getLsbD 3 <;> cases v.getLsbD 0 <;> rfl
  case tail => rw [access (by omega), exec_crTailWrite _ _ host]; rfl
  case head => rw [access (by omega), exec_rpHeadWrite _ _ host]; rfl
  case mirrorLow => rw [exec_registerWrite _ _ host]; rfl
  case mirrorHigh => rw [exec_registerWrite _ _ host, exec_dsmAddrHiWrite _ host]; rfl
  case readOnly =>
    simp only [List.mem_cons, List.not_mem_nil, or_false] at ho
    rw [access (by omega)]
    rcases ho with rfl | rfl | rfl | rfl <;> rfl
  case refused => rw [exec_registerWrite _ _ host, bar0Store, if_pos rfl, if_pos clear]
  case kept => rw [exec_registerWrite _ _ host, bar0Store, if_pos rfl, if_neg (ne_true_of_eq_false keep)]
  case none => rw [exec_registerWrite _ _ host, bar0Store_none v low h1 h2 h3]
  case time =>
    have reached := viaHost_of_host (f := fun s => { s with sys := { s.sys with
      timeHi := hiHalf s.now, bus := some (.data (leBytes 4 (loHalf s.now).toNat)) } }) host
    exact (congrArg Host.Outcome.next reached).trans (by simp [hiHalf, loHalf])
  case unsupported => exact congrArg Host.Outcome.next (viaHost_of_host host)

end Sys2Proof.Proofs
end

