-- ==== Sys2Proof/Proofs/Mirror.lean ====
section
/-! PROOF. The status mirror and the windows of BAR2 (O10). -/

namespace Sys2Proof.Proofs
open Sys2Proof.Machine

variable {s : State}

/-! ### The mirror -/

/-- The 16 bytes of the mirror. -/
def mirrorBytes (s : State) : Bytes := leBytes 4 s.devstat.toNat ++ [0, 0, 0, 0] ++ leBytes 8 (s.ringPend % 2 ^ 64)

theorem mirrorBytes_length : (mirrorBytes s).length = 16 := by simp [mirrorBytes]

theorem mirrorWrite_eq : mirrorWrite s =
    { s with host := memWriteN s.host s.sys.dsmAddr.toNat (mirrorBytes s),
             sys := { s.sys with dsmSeen := some (mirrorContent s), dsmLast := some s.now } } := by
  have pend : (dw s.ringPend).toNat = s.ringPend % 2 ^ 64 := BitVec.toNat_ofNat ..
  unfold mirrorWrite
  simp only [State.hostWrite, mirrorContent, pend]
  rfl

theorem memReadN_mirrorWrite (wf : Mem.wf s.host = true) :
    memReadN (mirrorWrite s).host s.sys.dsmAddr.toNat 16 = mirrorBytes s := by
  have written := memReadN_memWriteN s.host s.sys.dsmAddr.toNat (mirrorBytes s) wf
  rw [mirrorBytes_length] at written
  rw [mirrorWrite_eq, written]

theorem memRead_mirrorWrite_out {x : Nat} (out : x < s.sys.dsmAddr.toNat ∨ s.sys.dsmAddr.toNat + 16 ≤ x) :
    memRead (mirrorWrite s).host x = memRead s.host x := by
  have outside := memRead_memWriteN_out s.host s.sys.dsmAddr.toNat x (mirrorBytes s)
  rw [mirrorBytes_length] at outside
  rw [mirrorWrite_eq]
  exact outside out

/-- The state in which DSM_ADDR_HI has put the whole address in force. -/
def mirrorAddressed (v : Word) (s : State) : State :=
  { s with sys := { s.sys with dsmHi := v, dsmAddr := v ++ s.sys.dsmLo, dsmSeen := none } }

theorem dsmHiStore_eq (v : Word) : dsmHiStore v s =
    if mirrorOn (mirrorAddressed v s) && mirrorFree s then mirrorWrite (mirrorAddressed v s) else mirrorAddressed v s := by
  have address : setHi (s.sys.dsmLo.setWidth 64) v = v ++ s.sys.dsmLo := by
    rw [setHi_eq_append, BitVec.setWidth_setWidth_of_le _ (by decide), BitVec.setWidth_eq]
  unfold dsmHiStore
  simp only [address]
  rfl

/-! ### The windows -/

theorem noteEpoch_eq (l : List (Nat × Nat)) : ∃ e, s.noteEpoch l = { s with epochNew := e } := by
  unfold State.noteEpoch
  split
  · exact ⟨s.epochNew, rfl⟩
  · exact ⟨_, rfl⟩

/-- A BAR2 write leaves every byte of HBM that none of its addresses maps to. -/
theorem memRead_bar2Store {o : Nat} {b : Bytes} {m : Mem} {x : Nat}
    (h : ∀ i p a, i < b.length → bar2Addr s (o + i) true = some (p, a) → s.physAddr p a ≠ some x) :
    memRead (bar2Store s o b m) x = memRead m x := by
  induction b generalizing o m with
  | nil => rfl
  | cons v b ih =>
    rw [bar2Store, ih (fun i p a hi => by simpa [Nat.add_assoc, Nat.add_comm 1] using h (i + 1) p a (by simpa using hi))]
    split
    · next p a mapped =>
      have other := h 0 p a (by simp) mapped
      simp only [hbmPut]
      split
      · next y phys =>
        exact memRead_memWrite_ne _ _ (fun e => other (by rw [phys, e]))
      · rfl
    · rfl

/-- The counting of an access to the windows. -/
def bar2Counted (o n : Nat) (write : Bool) (s : State) : State :=
  (bar2Phys s o n write).foldl (fun s x => (s.count (.bytes 0 .hbm)).count (.mem (x / (stackPages * pageBytes)) (b2n write))) s

theorem bar2Counted_eq (o n : Nat) (write : Bool) : ∃ q, bar2Counted o n write s = { s with obs := q } :=
  foldl_obs (fun _ _ => ⟨_, rfl⟩) _ s

/-- A BAR2 write. -/
def bar2Write (o n : Nat) (b : Bytes) (s : State) : State :=
  let l := bar2Phys s o n true
  let s := (bar2Counted o n true s).noteEpoch ((l.map (fun x => (x / 64, 1))).eraseDups)
  { s with hbm := bar2Store s o b s.hbm, sys := { s.sys with bus := some .done },
           darn := { s.darn with poisonHbm := s.darn.poisonHbm.filter (fun u => !wholeIn l u) } }

/-- What a write maps to depends neither on the counters nor on the units that a rotation keeps. -/
theorem bar2Store_obs (o : Nat) (b : Bytes) (m : Mem) (q : Obs) (e : List (Nat × Nat)) :
    bar2Store { s with obs := q, epochNew := e } o b m = bar2Store s o b m := by
  induction b generalizing o m with
  | nil => rfl
  | cons v b ih =>
    rw [bar2Store, ih, bar2Store]
    rfl

theorem bar2Write_eq (o n : Nat) (b : Bytes) : ∃ q e d, bar2Write o n b s =
    { s with obs := q, epochNew := e, darn := d, hbm := bar2Store s o b s.hbm, sys := { s.sys with bus := some .done } } := by
  obtain ⟨q, counted⟩ := bar2Counted_eq (s := s) o n true
  unfold bar2Write
  dsimp only
  rw [counted]
  obtain ⟨e, noted⟩ := noteEpoch_eq (s := { s with obs := q }) (((bar2Phys s o n true).map (fun x => (x / 64, 1))).eraseDups)
  rw [noted]
  refine ⟨q, e, { s.darn with poisonHbm := s.darn.poisonHbm.filter (fun u => !wholeIn (bar2Phys s o n true) u) }, ?_⟩
  simp only [bar2Store_obs]

/-- What a BAR2 read finds. -/
def bar2Bytes (o n : Nat) (s : State) : Bytes :=
  (List.range n).map (fun i => match bar2Addr s (o + i) false with
    | some (p, a) => byteAt (s.hbmRead p a 1) 0
    | none => 0)

theorem exec_bar2Write (o n : Nat) (b : Bytes) (host : s.sys.mode.hasHost = true) :
    exec (.bar2Access o (some b) n) s = .next (bar2Write o n b s) := congrArg Host.Outcome.next (viaHost_of_host host)

theorem exec_bar2Read (o n : Nat) (host : s.sys.mode.hasHost = true) :
    exec (.bar2Access o none n) s = .next (let t := bar2Counted o n false s
      { t with sys := { t.sys with bus := some (.data (bar2Bytes o n t)) } }) :=
  congrArg Host.Outcome.next (viaHost_of_host host)

theorem byteAt_bar2Bytes {o n i : Nat} (hi : i < n) (unmapped : bar2Addr s (o + i) false = none) :
    byteAt (bar2Bytes o n s) i = 0 := by
  simp [bar2Bytes, byteAt, hi, unmapped]

/-- Settles O10. -/
theorem mirrorAndWindow : Obligations.MirrorAndWindow := by
  unfold Obligations.MirrorAndWindow
  refine ⟨fun v s host wf => ⟨?address, fun due => ?due, fun idle => ?idle⟩, fun o n s host => ⟨fun b len => ?write, ?read⟩⟩
  case address =>
    refine ⟨_, exec_dsmAddrHiWrite v host, ?_⟩
    rw [dsmHiStore_eq]
    have on_iff : mirrorOn (mirrorAddressed v s) = true ↔ (v ++ s.sys.dsmLo : DWord) ≠ 0 ∧ (v ++ s.sys.dsmLo).toNat % 16 = 0 := by
      rw [mirrorOn, Bool.and_eq_true_iff, decide_eq_true_iff, decide_eq_true_iff]
      exact Iff.rfl
    by_cases now : (mirrorOn (mirrorAddressed v s) && mirrorFree s) = true
    · rw [if_pos now]
      obtain ⟨on, free⟩ := Bool.and_eq_true_iff.mp now
      obtain ⟨nonzero, aligned⟩ := on_iff.mp on
      refine ⟨rfl, rfl, rfl, fun h => ?_, fun h => ?_, fun _ _ _ => memReadN_mirrorWrite (s := mirrorAddressed v s) wf⟩
      · exact absurd h (not_or.mpr ⟨nonzero, not_not_intro aligned⟩)
      · rw [free] at h; cases h
    · rw [if_neg now]
      refine ⟨rfl, rfl, rfl, fun _ => rfl, fun _ => ⟨rfl, rfl⟩, fun nonzero aligned free => ?_⟩
      exact absurd (Bool.and_eq_true_iff.mpr ⟨on_iff.mpr ⟨nonzero, aligned⟩, free⟩) now
  case due =>
    have run : exec .statusMirrorWrite s = .next (mirrorWrite s) :=
      congrArg _ ((viaHost_of_host host).trans (if_pos due))
    refine ⟨_, run, memReadN_mirrorWrite wf, fun x out => memRead_mirrorWrite_out out, ?_⟩
    rw [mirrorWrite_eq]
  case idle => exact congrArg _ ((viaHost_of_host host).trans (if_neg (ne_true_of_eq_false idle)))
  case write =>
    refine ⟨_, exec_bar2Write o n b host, ?_⟩
    obtain ⟨q, e, d, written⟩ := bar2Write_eq (s := s) o n b
    rw [written]
    refine ⟨rfl, rfl, rfl, fun x out => ?_⟩
    subst len
    exact memRead_bar2Store out
  case read =>
    refine ⟨_, _, exec_bar2Read o n host, rfl, ?_⟩
    obtain ⟨q, counted⟩ := bar2Counted_eq (s := s) o n false
    rw [counted]
    exact ⟨by simp [bar2Bytes], rfl, rfl, rfl, fun i hi unmapped => byteAt_bar2Bytes hi unmapped⟩

end Sys2Proof.Proofs
end

