-- ==== Sys2Proof/Proofs/RingReplies.lean ====
section
/-! PROOF. A reply on a ring whose reply ring is in host memory: what it writes and where, and when it is written (O5, O6). -/

namespace Sys2Proof.Proofs
open Sys2Proof.Machine

variable {s : State}

/-! ### Bytes put into a ring -/

@[simp] theorem fitTo_length (n : Nat) (b : Bytes) : (fitTo n b).length = n := by
  simp only [fitTo, sliceZ, slice, List.drop_zero, List.length_append, List.length_take, zeros_length]
  omega

@[simp] theorem ringPut_rings (loc : Bool) (part base size : Nat) (off : Word) (b : Bytes) :
    (ringPut s loc part base size off b).rings = s.rings := by
  unfold ringPut
  split
  · have keeps (u : State) (a : Nat) (x : Bytes) : (u.hbmWrite part a x).rings = u.rings := by
      unfold State.hbmWrite State.noteEpoch countHbm
      split <;> split <;> rfl
    rw [keeps, keeps]
  · rfl

/-- Bytes put into a ring of host memory leave every other byte: in the ring those `b.length` and more behind the offset. -/
theorem memRead_ringPut_out {part base size a : Nat} {off : Word} {b : Bytes} (pos : 0 < size) (fits : b.length ≤ size)
    (out : ¬ (base ≤ a ∧ a < base + size ∧ (a - base + size - off.toNat % size) % size < b.length)) :
    memRead (ringPut s false part base size off b).host a = memRead s.host a := by
  have start : off.toNat % size < size := Nat.mod_lt _ pos
  generalize hp : off.toNat % size = p at *
  simp only [ringPut, hp, State.hostWrite]
  have second : a < base ∨ base + (b.drop (size - p)).length ≤ a := by
    refine Classical.byContradiction fun inside => ?_
    rw [List.length_drop] at inside
    have : (a - base + size - p) % size = a - base + size - p := Nat.mod_eq_of_lt (by omega)
    omega
  have first : a < base + p ∨ base + p + (b.take (size - p)).length ≤ a := by
    refine Classical.byContradiction fun inside => ?_
    rw [List.length_take] at inside
    have : (a - base + size - p) % size = a - base - p := by
      rw [show a - base + size - p = a - base - p + size by omega, Nat.add_mod_right, Nat.mod_eq_of_lt (by omega)]
    omega
  rw [if_neg (by simp), memRead_memWriteN_out _ _ _ _ second, memRead_memWriteN_out _ _ _ _ first]

theorem ringPut_hbm (part base size : Nat) (off : Word) (b : Bytes) : (ringPut s false part base size off b).hbm = s.hbm := rfl

/-! ### A reply -/

theorem ringReply_ring_self (n : Nat) (b : Bytes) : (ringReply n b s).ring n =
    { (s.ring n).keepPend s.clk.pk with
      rpWrite := (s.ring n).rpWrite + w32 (ceilDiv b.length 32 * 32), rpCount := (s.ring n).rpCount + 1 } := by
  have put (loc : Bool) (part base size : Nat) (off : Word) (x : Bytes) :
      (ringPut s loc part base size off x).ring n = s.ring n := by
    unfold State.ring
    rw [ringPut_rings]
  unfold ringReply
  dsimp only
  rw [put, (ringPut_kept ..).clk]
  split
  · exact ring_setRing_self ..
  · exact ring_setRing_self ..

theorem ringReply_ring_ne {n k : Nat} (b : Bytes) (h : k ≠ n) : (ringReply n b s).ring k = s.ring k := by
  have put (loc : Bool) (part base size : Nat) (off : Word) (x : Bytes) :
      (ringPut s loc part base size off x).ring k = s.ring k := by
    unfold State.ring
    rw [ringPut_rings]
  unfold ringReply
  dsimp only
  split
  · rw [ring_setRing_ne _ h, put]
  · exact (ring_setRing_ne _ h).trans (put ..)

theorem ringReply_hbm {n : Nat} (b : Bytes) (host : (s.ring n).rpLoc = false) : (ringReply n b s).hbm = s.hbm := by
  unfold ringReply
  dsimp only
  rw [host]
  split <;> rfl

theorem memRead_ringReply_out {n a : Nat} {b : Bytes} (host : (s.ring n).rpLoc = false)
    (fits : ceilDiv b.length 32 * 32 ≤ (s.ring n).rpSize)
    (ring : ¬ ((s.ring n).rpBase.toNat ≤ a ∧ a < (s.ring n).rpBase.toNat + (s.ring n).rpSize ∧
      (a - (s.ring n).rpBase.toNat + (s.ring n).rpSize - (s.ring n).rpWrite.toNat % (s.ring n).rpSize) % (s.ring n).rpSize
        < ceilDiv b.length 32 * 32))
    (head : (s.ring n).rhwAddr = 0 ∨ a < (s.ring n).rhwAddr.toNat ∨ (s.ring n).rhwAddr.toNat + 8 ≤ a) :
    memRead (ringReply n b s).host a = memRead s.host a := by
  have put := memRead_ringPut_out (s := s) (part := (s.ring n).part) (off := (s.ring n).rpWrite)
    (b := fitTo (ceilDiv b.length 32 * 32) b) (Nat.two_pow_pos (s.ring n).rpSizeLog : 0 < (s.ring n).rpSize)
    (by rwa [fitTo_length]) (by rwa [fitTo_length])
  unfold ringReply
  dsimp only
  rw [host]
  split
  · exact put
  · next there =>
    rcases head with zero | head
    · exact absurd zero there
    · exact (memRead_memWriteN_out _ _ _ _ (by rwa [leBytes_length])).trans put

/-! ### When a reply is written -/

theorem endProfile_ring (e : InFlight) (n : Nat) : ∃ l, (endProfile e s).ring n = { s.ring n with profiles := l } := by
  unfold endProfile
  split
  · exact ⟨_, rfl⟩
  · next m _ =>
    split
    · exact ⟨_, rfl⟩
    · by_cases same : n = m
      · subst same
        rw [ring_modRing_self]
        exact ⟨_, rfl⟩
      · rw [ring_modRing_ne _ same]
        exact ⟨_, rfl⟩

theorem endProfile_ring_ne {e : InFlight} {n k : Nat} (src : e.ctx.src = .ring n) (h : k ≠ n) :
    (endProfile e s).ring k = s.ring k := by
  unfold endProfile
  rw [src]
  dsimp only
  split
  · rfl
  · exact ring_modRing_ne _ h

theorem endProfile_eq (e : InFlight) : ∃ l, endProfile e s = { s with rings := l } := by
  unfold endProfile
  split
  · exact ⟨s.rings, rfl⟩
  · split
    · exact ⟨s.rings, rfl⟩
    · exact ⟨_, rfl⟩

/-- The reply of the only entry of a ring is written at once. -/
theorem flushReplies_one {n : Nat} {e : InFlight} {r : Reply} (alone : (s.ring n).inFlight = [e]) (reply : e.reply = some r)
    (src : e.ctx.src = .ring n) :
    flushReplies (.ring n) 1 s = ringReply n (replyBytes e r) (endProfile e (s.setFlight (.ring n) [])) := by
  simp [flushReplies, State.flight, alone, takeReady, reply, src]

/-- What the writing of the only entry's reply leaves: its ring, the other rings, HBM and the bytes of host memory outside the
reply's slots and the reply-head word. -/
theorem written_ring {n : Nat} (e : InFlight) (b : Bytes) :
    ∃ l, (ringReply n b (endProfile e (s.setFlight (.ring n) []))).ring n =
      { (s.ring n).keepPend s.clk.pk with
        inFlight := [], movedAt := s.now, profiles := l
        rpWrite := (s.ring n).rpWrite + w32 (ceilDiv b.length 32 * 32), rpCount := (s.ring n).rpCount + 1 } := by
  obtain ⟨l, ended⟩ := endProfile_ring (s := s.setFlight (.ring n) []) e n
  have emptied : (s.setFlight (.ring n) []).ring n = { s.ring n with inFlight := [], movedAt := s.now } := ring_modRing_self ..
  refine ⟨l, ?_⟩
  rw [ringReply_ring_self, (endProfile_kept ..).clk, ended, emptied, keepPend_eq, keepPend_eq]
  rfl

theorem written_ring_ne {n k : Nat} {e : InFlight} (b : Bytes) (src : e.ctx.src = .ring n) (h : k ≠ n) :
    (ringReply n b (endProfile e (s.setFlight (.ring n) []))).ring k = s.ring k := by
  rw [ringReply_ring_ne _ h, endProfile_ring_ne src h]
  exact ring_modRing_ne _ h

/-! ### The end of a command -/

theorem finish_of_entry {c : CmdCtx} {st : Status} {body : Bytes} {ord : DWord} {fl : Nat} {e : InFlight}
    (entry : s.entryOf c = some e) (drained : e.drainAt = none) :
    finish c st body ord fl s =
      let changed := if (s.curEpoch c.part).num = e.epoch0 ∨ e.opc = 0x310 ∨ e.opc = 0x104 then 0 else 4
      let r : Reply := { status := st.code, rflags := fl + changed, ft := s.now, order := ord, body := body }
      let l := updFirst (isOpen c) (fun e => { e with cmd := none, waitFrom := none, reply := some r }) (s.flight c.src)
      flushReplies c.src l.length (s.setFlight c.src l) := by
  have noDrain : drainEnds c s = s := by simp [drainEnds, entry, drained]
  simp only [finish, entry, noDrain]

/-- Settles O5: the entry alone is the front one, so its reply is written at once. -/
theorem replyIsWritten : Obligations.ReplyIsWritten := by
  unfold Obligations.ReplyIsWritten
  intro c n s e st body ord fl src alone mine unreplied drained loc
  have flight : s.flight c.src = [e] := by rw [src]; exact alone
  have entry : s.entryOf c = some e := by simp [State.entryOf, flight, isOpen, mine, unreplied]
  have src' : e.ctx.src = .ring n := by rw [mine, src]
  dsimp only
  rw [finish_of_entry entry drained]
  dsimp only
  generalize hr : ({ status := st.code, rflags := _, ft := s.now, order := ord, body := body } : Reply) = r
  have replied : updFirst (isOpen c) (fun e => { e with cmd := none, waitFrom := none, reply := some r }) (s.flight c.src)
      = [{ e with cmd := none, waitFrom := none, reply := some r }] := by
    simp [flight, updFirst, isOpen, mine, unreplied]
  rw [replied, src, List.length_singleton]
  generalize he : ({ e with cmd := none, waitFrom := none, reply := some r } : InFlight) = e'
  have src'' : e'.ctx.src = .ring n := by rw [← he]; exact src'
  have bytes : replyBytes e' r = replyBytes e r := by rw [← he]; rfl
  have held : (s.setFlight (.ring n) [e']).ring n = { s.ring n with inFlight := [e'], movedAt := s.now } := ring_modRing_self ..
  have heldNe (k : Nat) (hk : k ≠ n) : (s.setFlight (.ring n) [e']).ring k = s.ring k := ring_modRing_ne _ hk
  rw [flushReplies_one (e := e') (r := r) (by rw [held]) (by rw [← he]) src'', bytes]
  generalize hu : s.setFlight (.ring n) [e'] = u at held heldNe
  have now : u.clk = s.clk := by rw [← hu]; rfl
  have hbm : u.hbm = s.hbm := by rw [← hu]; rfl
  have host : u.host = s.host := by rw [← hu]; rfl
  generalize hb : replyBytes e r = b
  obtain ⟨l, ring⟩ := written_ring (s := u) (n := n) e' b
  rw [held, now, keepPend_eq] at ring
  obtain ⟨m, ended⟩ := endProfile_eq (s := u.setFlight (.ring n) []) e'
  obtain ⟨q, endedRing⟩ := endProfile_ring (s := u.setFlight (.ring n) []) e' n
  have emptied : (u.setFlight (.ring n) []).ring n = { u.ring n with inFlight := [], movedAt := u.now } := ring_modRing_self ..
  rw [emptied, held] at endedRing
  refine ⟨?_, ?_, ?_, ?_, ?_, ?_, fun k hk => ?_, ?_, fun k hk => ?_, fun a outRing outHead fits => ?_⟩
  · rw [ring]
  · rw [ring]
  · rw [ring]
  · rw [ring]
  · rw [ring]
  · rw [ring]
    simp [Ring.pendRead, Ring.pend]
  · rw [ring]
    simp [Ring.pendRead, Ring.pend, Ne.symm hk]
  · rw [ringReply_hbm _ (by rw [endedRing]; exact loc), ended]
    exact hbm
  · rw [written_ring_ne _ src'' hk, heldNe k hk]
  · rw [memRead_ringReply_out (by rw [endedRing]; exact loc) (by rw [endedRing]; exact fits) (by rw [endedRing]; exact outRing)
      (by rw [endedRing]; exact outHead), ended]
    exact congrArg (memRead · a) host

/-! ### The order of replies -/

@[simp] theorem flight_setFlight (x : Src) (l : List InFlight) : (s.setFlight x l).flight x = l := by
  cases x with
  | ring n => exact congrArg Ring.inFlight (ring_modRing_self n _)
  | inband p _ _ => exact congrArg Part.ibFlight (part_modPart_self p _)

theorem flushReplies_none {x : Src} {k : Nat} (h : takeReady true false (s.flight x) = none) : flushReplies x k s = s := by
  cases k with
  | zero => rfl
  | succ k => simp [flushReplies, h]

/-- Behind an unreplied entry only an UNORDERED reply goes, and none behind an unreplied FENCE. -/
theorem takeReady_behind {first e : InFlight} (open_ : first.reply = none)
    (order : e.ctx.unordered = false ∨ first.ctx.fence = true) : takeReady true false [first, e] = none := by
  rcases order with order | order <;> simp [takeReady, open_, order]

/-- Settles O6. -/
theorem repliesKeepOrder : Obligations.RepliesKeepOrder := by
  unfold Obligations.RepliesKeepOrder
  intro c s first e st body ord fl flight open_ other mine unreplied drained order
  have entry : s.entryOf c = some e := by simp [State.entryOf, flight, isOpen, other, mine, unreplied]
  rw [finish_of_entry entry drained]
  dsimp only
  generalize hr : ({ status := st.code, rflags := _, ft := s.now, order := ord, body := body } : Reply) = r
  have replied : updFirst (isOpen c) (fun e => { e with cmd := none, waitFrom := none, reply := some r }) (s.flight c.src)
      = [first, { e with cmd := none, waitFrom := none, reply := some r }] := by
    simp [flight, updFirst, isOpen, other, mine, unreplied]
  rw [replied, flushReplies_none (by rw [flight_setFlight]; exact takeReady_behind open_ (by simpa [mine] using order))]
  refine ⟨r, flight_setFlight .., ?_, ?_, by rw [← hr], by rw [← hr]⟩
  · cases c.src <;> rfl
  · cases c.src <;> rfl

/-! ### Fetching -/

theorem pushEntry_reply {n : Nat} {e : InFlight} {r : Reply} (empty : (s.ring n).inFlight = []) (reply : e.reply = some r)
    (src : e.ctx.src = .ring n) :
    ∃ l, (pushEntry n e s).ring n = { (s.ring n).keepPend s.clk.pk with
        inFlight := [], movedAt := s.now, profiles := l
        rpWrite := (s.ring n).rpWrite + w32 (ceilDiv (replyBytes e r).length 32 * 32), rpCount := (s.ring n).rpCount + 1 } := by
  have held : (s.setFlight (.ring n) [e]).ring n = { s.ring n with inFlight := [e], movedAt := s.now } := ring_modRing_self ..
  obtain ⟨l, ring⟩ := written_ring (s := s.setFlight (.ring n) [e]) (n := n) e (replyBytes e r)
  refine ⟨l, ?_⟩
  simp only [pushEntry, empty, List.nil_append, held, List.length_singleton]
  rw [flushReplies_one (by rw [held]) reply src, ring, held, keepPend_eq, keepPend_eq]
  rfl

theorem pushEntry_ring_ne {n k : Nat} {e : InFlight} (src : e.ctx.src = .ring n) (empty : (s.ring n).inFlight = [])
    (h : k ≠ n) : (pushEntry n e s).ring k = s.ring k := by
  have held : (s.setFlight (.ring n) [e]).ring n = { s.ring n with inFlight := [e], movedAt := s.now } := ring_modRing_self ..
  have heldNe : (s.setFlight (.ring n) [e]).ring k = s.ring k := ring_modRing_ne _ h
  simp only [pushEntry, empty, List.nil_append, held, List.length_singleton]
  cases reply : e.reply with
  | none =>
    rw [flushReplies_none (by rw [flight_setFlight]; simp [takeReady, reply]), heldNe]
  | some r => rw [flushReplies_one (by rw [held]) reply src, written_ring_ne _ src h, heldNe]

theorem pushEntry_open {n : Nat} {e : InFlight} (empty : (s.ring n).inFlight = []) (reply : e.reply = none) :
    pushEntry n e s = s.modRing n (fun r => { r with inFlight := [e], movedAt := s.now }) := by
  simp only [pushEntry, empty, List.nil_append]
  rw [flushReplies_none (by rw [flight_setFlight]; simp [takeReady, reply])]
  rfl

theorem decodeCommand_setRing (n : Nat) (r : Ring) (h : CmdHead) (c : CmdCtx) (p : Nat) (b : Bytes) :
    decodeCommand (s.setRing n r) h c p b = decodeCommand s h c p b := rfl

/-- The entry of a fetched command before its checks of step 6 on. -/
def fetchedEntry (n : Nat) (h : CmdHead) (s : State) : InFlight :=
  { ctx := h.ctx (.ring n), opc := h.opc, id := s.commandId (.ring n) h.seq }

/-- A fetched command's ring: CR_HEAD is behind the command and EXP_SEQ at the next. -/
def passRing (n : Nat) (h : CmdHead) (s : State) : State :=
  s.setRing n (advanceSeq { s.ring n with crHead := (s.ring n).crHead + w32 (ceilDiv (32 + 8 * h.len) 32 * 32) } h.seq)

section
variable {n : Nat} {h : CmdHead} {b : Bytes} (fetch : fetchable n s = true) (cr : (s.ring n).crLoc = false)
  (unsealed : s.fact .partCmdSeal (s.ring n).part ≠ 1)
  (head : readHead (ringGet s false (s.ring n).part (s.ring n).crBase.toNat (s.ring n).crSize (s.ring n).crHead 32) = h)
  (bytes : ringGet s false (s.ring n).part (s.ring n).crBase.toNat (s.ring n).crSize (s.ring n).crHead (32 + 8 * h.len) = b)
  (ver : h.ver = 1) (len : h.len ≤ 8188)
  (there : ceilDiv (32 + 8 * h.len) 32 * 32 ≤ ((s.ring n).crTail - (s.ring n).crHead).toNat)
include fetch cr unsealed head bytes ver len there

theorem fetchOne_badCrc (bad : commandCrc b ≠ h.crc) :
    fetchOne n s = pushEntry n { fetchedEntry n h s with reply := some (checkReply .integrityFail s) } (passRing n h s) := by
  have there' : ¬ Machine.dist (s.ring n).crHead (s.ring n).crTail < ceilDiv (32 + 8 * h.len) 32 * 32 := Nat.not_lt.mpr there
  simp [fetchOne, passRing, fetchedEntry, advanceSeq, fetch, cr, head, ver, bytes, there', Nat.not_lt.mpr len, unsealed, bad]

theorem fetchOne_badSeq (good : commandCrc b = h.crc) (bad : h.seq ≠ (s.ring n).expSeq) :
    fetchOne n s = pushEntry n { fetchedEntry n h s with reply := some (checkReply .badParam s) } (passRing n h s) := by
  have there' : ¬ Machine.dist (s.ring n).crHead (s.ring n).crTail < ceilDiv (32 + 8 * h.len) 32 * 32 := Nat.not_lt.mpr there
  simp [fetchOne, passRing, fetchedEntry, advanceSeq, fetch, cr, head, ver, bytes, there', Nat.not_lt.mpr len, unsealed, good, bad]

theorem fetchOne_cmd {i : Instr} (good : commandCrc b = h.crc) (seq : h.seq = (s.ring n).expSeq)
    (decoded : decodeCommand s h (h.ctx (.ring n)) (s.ring n).part (b.drop 32) = .cmd i) :
    fetchOne n s = pushEntry n { fetchedEntry n h s with
      cmd := some i, fetched := if (h.ctx (.ring n)).fence then some s.now else none } (passRing n h s) := by
  have there' : ¬ Machine.dist (s.ring n).crHead (s.ring n).crTail < ceilDiv (32 + 8 * h.len) 32 * 32 := Nat.not_lt.mpr there
  simp [fetchOne, passRing, fetchedEntry, advanceSeq, fetch, cr, head, ver, bytes, there', Nat.not_lt.mpr len, unsealed, good,
    seq, decodeCommand_setRing, decoded]

/-- Whatever becomes of a fetched command, it is one entry of a ring that has passed it. -/
theorem fetchOne_pushes : ∃ e : InFlight, e.ctx.src = .ring n ∧ fetchOne n s = pushEntry n e (passRing n h s) := by
  by_cases good : commandCrc b = h.crc
  rotate_left
  · exact ⟨_, rfl, fetchOne_badCrc fetch cr unsealed head bytes ver len there good⟩
  by_cases seq : h.seq = (s.ring n).expSeq
  rotate_left
  · exact ⟨_, rfl, fetchOne_badSeq fetch cr unsealed head bytes ver len there good seq⟩
  cases decoded : decodeCommand s h (h.ctx (.ring n)) (s.ring n).part (b.drop 32) with
  | cmd i => exact ⟨_, rfl, fetchOne_cmd fetch cr unsealed head bytes ver len there good seq decoded⟩
  | bad st =>
    have there' : ¬ Machine.dist (s.ring n).crHead (s.ring n).crTail < ceilDiv (32 + 8 * h.len) 32 * 32 := Nat.not_lt.mpr there
    refine ⟨{ fetchedEntry n h s with
      fetched := if (h.ctx (.ring n)).fence then some s.now else none
      reply := some (checkReply st (passRing n h s)) }, rfl, ?_⟩
    simp [fetchOne, passRing, fetchedEntry, advanceSeq, fetch, cr, head, ver, bytes, there', Nat.not_lt.mpr len, unsealed, good,
      seq, decodeCommand_setRing, decoded]

end

theorem exec_commandFetch (n : Nat) (s : State) : exec (.commandFetch n) s = .next (fetchOne n s) := rfl

theorem ring_passRing (n : Nat) (h : CmdHead) : (passRing n h s).ring n =
    advanceSeq { s.ring n with crHead := (s.ring n).crHead + w32 (ceilDiv (32 + 8 * h.len) 32 * 32) } h.seq := ring_setRing_self ..

/-- What the pushing of an entry leaves of the ring, whether its reply is written at once or not. -/
theorem pushEntry_head {n : Nat} {e : InFlight} (empty : (s.ring n).inFlight = []) (src : e.ctx.src = .ring n) :
    ((pushEntry n e s).ring n).crHead = (s.ring n).crHead ∧ ((pushEntry n e s).ring n).crTail = (s.ring n).crTail := by
  cases reply : e.reply with
  | none => rw [pushEntry_open empty reply, ring_modRing_self]; exact ⟨rfl, rfl⟩
  | some r =>
    obtain ⟨l, ring⟩ := pushEntry_reply empty reply src
    rw [ring, keepPend_eq]
    exact ⟨rfl, rfl⟩

/-- Settles O11. -/
theorem fetchTakesCommand : Obligations.FetchTakesCommand := by
  unfold Obligations.FetchTakesCommand
  intro n s fetch empty cr rp unsealed
  dsimp only
  generalize head : readHead (ringGet s false (s.ring n).part (s.ring n).crBase.toNat (s.ring n).crSize (s.ring n).crHead 32) = h
  generalize bytes : ringGet s false (s.ring n).part (s.ring n).crBase.toNat (s.ring n).crSize (s.ring n).crHead
    (32 + 8 * h.len) = b
  intro ver len there
  have passedEmpty : ((passRing n h s).ring n).inFlight = [] := by rw [ring_passRing]; exact empty
  obtain ⟨e, src, pushed⟩ := fetchOne_pushes fetch cr unsealed head bytes ver len there
  obtain ⟨crHead, crTail⟩ := pushEntry_head passedEmpty src
  refine ⟨_, exec_commandFetch n s, ?_, ?_, fun k hk => ?_, fun i good seq decoded => ?_, fun bad => ?_, fun good bad => ?_⟩
  · rw [pushed, crHead, ring_passRing]
    rfl
  · rw [pushed, crTail, ring_passRing]
    rfl
  · rw [pushed, pushEntry_ring_ne src passedEmpty hk]
    exact ring_setRing_ne _ hk
  · rw [fetchOne_cmd fetch cr unsealed head bytes ver len there good seq decoded, pushEntry_open passedEmpty rfl,
      ring_modRing_self, ring_passRing]
    exact ⟨rfl, rfl⟩
  · obtain ⟨l, ring⟩ := pushEntry_reply (e := { fetchedEntry n h s with reply := some (checkReply .integrityFail s) })
      passedEmpty rfl rfl
    rw [fetchOne_badCrc fetch cr unsealed head bytes ver len there bad, ring, keepPend_eq, ring_passRing]
    exact ⟨rfl, rfl, rfl⟩
  · obtain ⟨l, ring⟩ := pushEntry_reply (e := { fetchedEntry n h s with reply := some (checkReply .badParam s) })
      passedEmpty rfl rfl
    rw [fetchOne_badSeq fetch cr unsealed head bytes ver len there good bad, ring, keepPend_eq, ring_passRing]
    exact ⟨rfl, rfl, rfl⟩

end Sys2Proof.Proofs
end

