-- ==== Sys2Proof/Proofs/ResetState.lean ====
section
/-! PROOF. The reset state, and the removal of a module that is still in it (O55). -/

namespace Sys2Proof.Proofs
open Sys2Proof.Machine

theorem exec_prsntNBreak (s : State) : exec .prsntNBreak s = .next (removeNow false false false s) := rfl

theorem part_reset_state (p : Nat) (h : p ≠ 0) : (State.reset.part p).state = 0 := by
  show (Part.initial p).state = 0
  simp [Part.initial, h]

theorem quiet_removed_reset : Quiet (removeNow false false false State.reset) where
  noHost   := rfl
  rings    := by decide
  inband   := by decide
  cmdKeys  := by decide
  regions  := by decide
  coreKeys := rfl
  hbm      := rfl
  packets  := rfl
  fabric   := rfl
  noSa     := rfl

/-- Settles O55: every table of the reset state is empty, so each accessor reads its initial value. -/
theorem resetAndRemoval : Obligations.ResetAndRemoval := by
  unfold Obligations.ResetAndRemoval
  refine ⟨rfl, rfl, ?mems, fun n i => rfl, fun n => ⟨rfl, rfl⟩, part_reset_state, by decide, fun i => ⟨rfl, rfl⟩, rfl, fun n => rfl,
    fun l => rfl, rfl, fun p => rfl, _, exec_prsntNBreak _, rfl, quiet_removed_reset⟩
  case mems => exact ⟨rfl, rfl, rfl⟩

end Sys2Proof.Proofs
end

