-- ==== Sys2Proof/Proofs/IdleTick.lean ====
section
/-! PROOF. The step on an empty queue: one PKCLK cycle, phase by phase (O2). -/

namespace Sys2Proof.Proofs
open Sys2Proof.Machine

variable {s : State}

/-! ### The phases of a cycle -/

theorem dropAged_eq : ∃ q o, dropAged s = { s with tabs := q, obs := o } :=
  foldl_rel (R := fun s t => ∃ q o, t = { s with tabs := q, obs := o }) (fun s => ⟨s.tabs, s.obs, rfl⟩)
    (fun _ _ _ ⟨_, _, h⟩ ⟨q, o, k⟩ => ⟨q, o, by rw [k, h]⟩) (fun _ _ => ⟨_, _, rfl⟩) _ s

theorem dropAged_none (h : ∀ e ∈ s.tabs.entries, e.leaving = false) : dropAged s = s := by
  have none : s.tabs.entries.filter (·.leaving) = [] := List.filter_eq_nil_iff.mpr (fun e he => by simp [h e he])
  simp [dropAged, none]

theorem countBusy_eq : ∃ o, countBusy s = { s with obs := o } := by
  unfold countBusy
  split
  · exact foldl_obs (fun _ _ => ⟨_, rfl⟩) _ s
  · exact ⟨s.obs, rfl⟩

theorem countBusy_none (h : s.up = false ∨ ∀ k ∈ s.pkts, k.inStage = false) : countBusy s = s := by
  unfold countBusy
  rcases h with h | h
  · simp [h]
  · have none : s.pkts.filter Packet.inStage = [] := List.filter_eq_nil_iff.mpr (fun k hk => by simp [h k hk])
    simp [none]

/-- The time after one PKCLK cycle, PPS_OUT aside. -/
def nextClk (s : State) : Clk :=
  let x := s.clk.ft.toNat * 2 ^ 32 + s.clk.frac.toNat + adderInc s
  { s.clk with ft := dw (x / 2 ^ 32), frac := w32 x, pk := s.clk.pk + 1 }

theorem ppsFall_eq : ∃ off out, ppsFall s = { s with clk := { s.clk with ppsOff := off }, sys := { s.sys with ppsOut := out } } := by
  unfold ppsFall
  split
  · split
    · exact ⟨_, _, rfl⟩
    · exact ⟨s.clk.ppsOff, s.sys.ppsOut, rfl⟩
  · exact ⟨s.clk.ppsOff, s.sys.ppsOut, rfl⟩

theorem chargeWalk_eq (p k n : Nat) : ∃ o, chargeWalk p k n s = { s with obs := o } := by
  unfold chargeWalk
  split
  · exact ⟨s.obs, rfl⟩
  · exact ⟨_, rfl⟩

theorem chargeRegion_eq (e : Nat × Region) : ∃ o r, chargeRegion s e = { s with obs := o, regions := r } := by
  obtain ⟨o, charged⟩ := foldl_obs (fun u k => chargeWalk_eq (s := u) e.2.part k
    (shareOf e.2.charged (walkDone s e.1 e.2) (regionBelow s e.1 e.2 (k * stackPages) * pageBytes)
      (regionBelow s e.1 e.2 ((k + 1) * stackPages) * pageBytes))) (List.range 6) s
  unfold chargeRegion
  dsimp only
  rw [charged]
  exact ⟨_, _, rfl⟩

theorem chargeWipe_eq (e : Nat × Slot) : ∃ o l, chargeWipe s e = { s with obs := o, slots := l } := by
  unfold chargeWipe
  split
  · exact ⟨s.obs, s.slots, rfl⟩
  · obtain ⟨o, charged⟩ := foldl_obs (f := fun s' i => chargeWalk (s.slotOwner e.1)
      (((s.physPage (s.slotOwner e.1) (nth 0 e.2.weightPages (_ + i))).getD 0) / stackPages)
      (shareOf _ (wipeDone s e.2) ((_ + i) * pageBytes) ((_ + i + 1) * pageBytes)) s') (fun u i => chargeWalk_eq ..) (List.range _) s
    dsimp only
    rw [charged]
    exact ⟨_, _, rfl⟩

theorem chargeWalks_eq : ∃ o r l, chargeWalks s = { s with obs := o, regions := r, slots := l } := by
  have regions := foldl_rel (R := fun s t => ∃ o r, t = { s with obs := o, regions := r }) (fun s => ⟨s.obs, s.regions, rfl⟩)
    (fun _ _ _ ⟨_, _, h⟩ ⟨o, r, k⟩ => ⟨o, r, by rw [k, h]⟩) (fun _ e => chargeRegion_eq e) (walks s) s
  obtain ⟨o, r, regions⟩ := regions
  have slots := foldl_rel (R := fun s t => ∃ o l, t = { s with obs := o, slots := l }) (fun s => ⟨s.obs, s.slots, rfl⟩)
    (fun _ _ _ ⟨_, _, h⟩ ⟨o, r, k⟩ => ⟨o, r, by rw [k, h]⟩) (fun _ e => chargeWipe_eq e) (wipes s) { s with obs := o, regions := r }
  obtain ⟨o, l, slots⟩ := slots
  unfold chargeWalks
  rw [regions, slots]
  exact ⟨_, _, _, rfl⟩

theorem chargeWalks_none (hr : walks s = []) (hs : wipes s = []) : chargeWalks s = s := by simp [chargeWalks, hr, hs]

theorem endFrame_eq (e : Nat × Tx) : ∃ g o, endFrame s e = { s with egr := g, obs := o } := ⟨_, _, rfl⟩

theorem endTx_eq : ∃ g o, endTx s = { s with egr := g, obs := o } :=
  foldl_rel (R := fun s t => ∃ g o, t = { s with egr := g, obs := o }) (fun s => ⟨s.egr, s.obs, rfl⟩)
    (fun _ _ _ ⟨_, _, h⟩ ⟨q, o, k⟩ => ⟨q, o, by rw [k, h]⟩) (fun _ e => endFrame_eq e) _ s

theorem endTx_none (h : ∀ e ∈ s.egr.tx, s.pkPs < e.2.endPs) : endTx s = s := by
  have none : s.egr.tx.filter (fun e => decide (e.2.endPs ≤ s.pkPs)) = [] :=
    List.filter_eq_nil_iff.mpr (fun e he => by have := h e he; simp; omega)
  simp [endTx, none]

/-! ### The cycle -/

/-- The state after a cycle's time has passed. -/
def timePassed (off : Option Nat) (out : Bool) (s : State) : State :=
  { s with clk := { nextClk s with ppsOff := off }, sys := { s.sys with ppsOut := out } }

theorem tick_eq : ∃ off out q r l g o,
    tick s = { timePassed off out s with tabs := q, regions := r, slots := l, egr := g, obs := o } := by
  obtain ⟨q, o1, aged⟩ := dropAged_eq (s := s)
  obtain ⟨o2, busy⟩ := countBusy_eq (s := dropAged s)
  obtain ⟨off, out, pps⟩ := ppsFall_eq (s := { s with tabs := q, obs := o2, clk := nextClk s })
  obtain ⟨o3, r, l, charged⟩ := chargeWalks_eq (s := { timePassed off out s with tabs := q, obs := o2 })
  obtain ⟨g, o4, ended⟩ := endTx_eq (s := { timePassed off out s with tabs := q, obs := o3, regions := r, slots := l })
  refine ⟨off, out, q, r, l, g, o4, ?_⟩
  rw [← ended]
  refine congrArg endTx ?_
  rw [← charged]
  refine congrArg chargeWalks ?_
  refine Eq.trans ?_ pps
  rw [busy, aged]
  rfl

/-- A cycle in which no entry ages out, no walk runs and no packet is in a stage passes the time and ends transmissions. -/
theorem tick_of_still (aged : ∀ e ∈ s.tabs.entries, e.leaving = false) (hr : walks s = []) (hs : wipes s = [])
    (idle : s.up = false ∨ ∀ k ∈ s.pkts, k.inStage = false) : ∃ off out, tick s = endTx (timePassed off out s) := by
  obtain ⟨off, out, pps⟩ := ppsFall_eq (s := { s with clk := nextClk s })
  refine ⟨off, out, congrArg endTx ?_⟩
  have still : countBusy (dropAged s) = s := by rw [dropAged_none aged, countBusy_none idle]
  have passed : ppsFall { s with clk := nextClk s } = timePassed off out s := pps
  calc chargeWalks (ppsFall { countBusy (dropAged s) with clk := nextClk (countBusy (dropAged s)) })
      = chargeWalks (timePassed off out s) := by rw [still, passed]
    _ = timePassed off out s := chargeWalks_none hr hs

theorem nextClk_time : (nextClk s).ft.toNat * 2 ^ 32 + (nextClk s).frac.toNat
    = (s.clk.ft.toNat * 2 ^ 32 + s.clk.frac.toNat + adderInc s) % 2 ^ 96 := by
  simp only [nextClk, dw, w32, BitVec.toNat_ofNat]
  omega

/-! ### The queue that an idle step runs -/

theorem inboxCmds_none (h : s.fab.inbox = []) : inboxCmds s = [] := by
  simp [inboxCmds, inboxOrder, h, sortBy]

theorem step_idle (empty : s.pending = []) (start : nextStart s = none) (waits : waiting (tick s) = [])
    (inbox : s.fab.inbox = []) : step s = .next (tick s) := by
  obtain ⟨off, out, q, r, l, g, o, ticked⟩ := tick_eq (s := s)
  have none : inboxCmds (tick s) = [] := inboxCmds_none (by rw [ticked]; exact inbox)
  simp [step, empty, idle, start, waits, none, runAll]

/-! ### A frame that ends -/

theorem cntAt_count_self (k : Ctr) (n : Nat) : (s.count k n).cntAt k.key = s.cntAt k.key + dw n := by
  simp [State.count, State.cntAt, smMod]

theorem cntAt_count_ne {k : Ctr} {n j : Nat} (h : j ≠ k.key) : (s.count k n).cntAt j = s.cntAt j := by
  simp [State.count, State.cntAt, smMod, smGet_smSet_ne _ _ _ h]

theorem txKeys_ne (p : Nat) : (Ctr.port p .txPkts).key ≠ (Ctr.port p .txBytes).key := by
  simp [Ctr.key, ctrKey, PortCtr.ctorIdx]

/-- Settles O2. -/
theorem idleTicks : Obligations.IdleTicks := by
  unfold Obligations.IdleTicks
  intro s empty start waits inbox
  obtain ⟨off, out, q, r, l, g, o, ticked⟩ := tick_eq (s := s)
  refine ⟨_, step_idle empty start waits inbox, ?_, ?_, ?_, fun aged hr hs idle => ?_⟩
  · rw [ticked]
    rfl
  · rw [ticked]
    exact nextClk_time
  · rw [ticked]
    rfl
  · obtain ⟨off, out, still⟩ := tick_of_still aged hr hs idle
    obtain ⟨g, o, ended⟩ := endTx_eq (s := timePassed off out s)
    have pk : (tick s).pkPs = (timePassed off out s).pkPs := by simp only [State.pkPs, still, ended]
    rw [pk, still]
    refine ⟨by rw [ended]; rfl, by rw [ended]; rfl, by rw [ended]; rfl, fun later => ?_, fun p w _ one due => ?_⟩
    · rw [endTx_none (s := timePassed off out s) later]
      exact ⟨rfl, rfl⟩
    · have only : endTx (timePassed off out s) = endFrame (timePassed off out s) (p, w) := by
        have tx : (timePassed off out s).egr.tx = [(p, w)] := one
        simp [endTx, tx, due]
      rw [only]
      have tx : (timePassed off out s).egr.tx = [(p, w)] := one
      refine ⟨?_, ?_, ?_⟩
      · have gone : smDel (timePassed off out s).egr.tx p = [] := by simp [tx, smDel]
        simp only [endFrame, gone]
        rfl
      · rw [endFrame, cntAt_count_ne (txKeys_ne p), cntAt_count_self]
        rfl
      · rw [endFrame, cntAt_count_self, cntAt_count_ne (txKeys_ne p).symm]
        rfl

end Sys2Proof.Proofs
end

