-- ==== Sys2Proof/Proofs/Ordering.lean ====
section
/-! PROOF. What a command's start writes, stated as one frame, and the ordering points of commands: where no packet is on its way, a
command passes its point at once. -/

namespace Sys2Proof.Proofs
open Sys2Proof.Machine

variable {s : State}

/-! ### What a trace record and a start write -/

/-- The states differ only in HBM and what goes with its writes. -/
def TraceFrame (s t : State) : Prop := ∃ h o d e, t = { s with hbm := h, obs := o, darn := d, epochNew := e }

theorem TraceFrame.refl (s : State) : TraceFrame s s := ⟨s.hbm, s.obs, s.darn, s.epochNew, rfl⟩

theorem TraceFrame.trans {s t u : State} (a : TraceFrame s t) (b : TraceFrame t u) : TraceFrame s u := by
  obtain ⟨_, _, _, _, rfl⟩ := a
  obtain ⟨_, _, _, _, rfl⟩ := b
  exact ⟨_, _, _, _, rfl⟩

theorem hbmWrite_frame (p a : Nat) (b : Bytes) : TraceFrame s (s.hbmWrite p a b) := by
  unfold State.hbmWrite State.noteEpoch countHbm
  split <;> split <;> exact ⟨_, _, _, _, rfl⟩

theorem shiftRecs_frame (p addr size n pos : Nat) (s : State) : TraceFrame s (shiftRecs p addr size n pos s) := by
  induction n generalizing pos s with
  | zero => exact .refl s
  | succ n ih =>
    unfold shiftRecs
    exact TraceFrame.trans ⟨_, s.obs, s.darn, s.epochNew, rfl⟩ (ih ..)

theorem obs_frame (o : Obs) : TraceFrame s { s with obs := o } := ⟨s.hbm, o, s.darn, s.epochNew, rfl⟩

theorem count_frame (k : Ctr) (n : Nat) : TraceFrame s (s.count k n) := obs_frame _

theorem setTrace_frame (p : Nat) (x : Trace) : TraceFrame s (s.setTrace p x) := obs_frame _

theorem settleTrace_frame (rate : Nat) : TraceFrame s (settleTrace rate s) := obs_frame _

theorem traceWait_frame (p : Nat) (w : Wait) (s : State) : TraceFrame s (traceWait p w s) := by
  unfold traceWait
  dsimp only
  split
  · exact .refl s
  split
  · exact (settleTrace_frame _).trans (count_frame ..)
  split
  · exact (settleTrace_frame _).trans (count_frame ..)
  · refine TraceFrame.trans ?_ ((setTrace_frame ..).trans (count_frame ..))
    refine TraceFrame.trans ?_ (hbmWrite_frame ..)
    refine TraceFrame.trans ?_ (shiftRecs_frame ..)
    exact (settleTrace_frame _).trans (obs_frame _)

/-- The states differ only in entries, profiles and traces. -/
def StartFrame (s t : State) : Prop :=
  ∃ r p h o d e, t = { s with rings := r, parts := p, hbm := h, obs := o, darn := d, epochNew := e }

theorem StartFrame.refl (s : State) : StartFrame s s := ⟨s.rings, s.parts, s.hbm, s.obs, s.darn, s.epochNew, rfl⟩

theorem StartFrame.trans {s t u : State} (a : StartFrame s t) (b : StartFrame t u) : StartFrame s u := by
  obtain ⟨_, _, _, _, _, _, rfl⟩ := a
  obtain ⟨_, _, _, _, _, _, rfl⟩ := b
  exact ⟨_, _, _, _, _, _, rfl⟩

theorem StartFrame.ite {p : Prop} [Decidable p] {t u : State} (a : StartFrame s t) (b : StartFrame s u) :
    StartFrame s (if p then t else u) := by
  split
  · exact a
  · exact b

theorem TraceFrame.start {s t : State} (a : TraceFrame s t) : StartFrame s t := by
  obtain ⟨_, _, _, _, rfl⟩ := a
  exact ⟨_, _, _, _, _, _, rfl⟩

theorem setFlight_frame (x : Src) (l : List InFlight) : StartFrame s (s.setFlight x l) := by
  cases x with
  | ring n => exact ⟨_, s.parts, s.hbm, s.obs, s.darn, s.epochNew, rfl⟩
  | inband p _ _ => exact ⟨s.rings, _, s.hbm, s.obs, s.darn, s.epochNew, rfl⟩

theorem takeProfile_frame (c : CmdCtx) (s : State) : StartFrame s (takeProfile c s) := by
  unfold takeProfile
  split
  · exact .refl s
  · exact .ite (.refl s) ⟨_, s.parts, s.hbm, s.obs, s.darn, s.epochNew, rfl⟩

theorem fenceEnds_frame (c : CmdCtx) (s : State) : StartFrame s (fenceEnds c s) := by
  unfold fenceEnds
  split
  · exact (setFlight_frame ..).trans (traceWait_frame ..).start
  · exact .refl s

theorem beginCmd_frame (c : CmdCtx) (opc : Nat) (s : State) : StartFrame s (beginCmd c opc s) := by
  have fenced (l : List InFlight) : StartFrame s (fenceEnds c (s.setFlight c.src l)) :=
    (setFlight_frame ..).trans (fenceEnds_frame ..)
  unfold beginCmd
  dsimp only
  exact .ite (fenced _) ((fenced _).trans (takeProfile_frame ..))

theorem modEntry_frame (c : CmdCtx) (f : InFlight → InFlight) (s : State) : StartFrame s (modEntry c f s) := setFlight_frame ..

theorem begun_frame (c : CmdCtx) (opc : Nat) (s : State) : StartFrame s (begun c opc s) :=
  (beginCmd_frame c opc s).trans (modEntry_frame ..)

theorem StartFrame.egr {t : State} (h : StartFrame s t) : t.egr = s.egr := by obtain ⟨_, _, _, _, _, _, rfl⟩ := h; rfl
theorem StartFrame.host {t : State} (h : StartFrame s t) : t.host = s.host := by obtain ⟨_, _, _, _, _, _, rfl⟩ := h; rfl

@[simp] theorem beginCmd_egr (c : CmdCtx) (opc : Nat) : (beginCmd c opc s).egr = s.egr := (beginCmd_frame c opc s).egr
@[simp] theorem beginCmd_host (c : CmdCtx) (opc : Nat) : (beginCmd c opc s).host = s.host := (beginCmd_frame c opc s).host
@[simp] theorem begun_egr (c : CmdCtx) (opc : Nat) : (begun c opc s).egr = s.egr := (begun_frame c opc s).egr
@[simp] theorem begun_host (c : CmdCtx) (opc : Nat) : (begun c opc s).host = s.host := (begun_frame c opc s).host

theorem begun_kept (c : CmdCtx) (opc : Nat) (s : State) : Kept s (begun c opc s) := (beginCmd_kept ..).trans (modEntry_kept ..)
theorem begun_answers (c : CmdCtx) (opc : Nat) (s : State) : Answers s (begun c opc s) :=
  (beginCmd_answers ..).trans (modEntry_answers ..)

/-! ### The mark of a command that has just started -/

theorem flight_traceWait (p : Nat) (w : Wait) (s : State) (x : Src) : (traceWait p w s).flight x = s.flight x := by
  obtain ⟨_, _, _, _, traced⟩ := traceWait_frame p w s
  rw [traced]
  cases x <;> rfl

theorem mem_updFirst {α : Type} {p : α → Bool} {f : α → α} {l : List α} {y : α} (h : y ∈ updFirst p f l) :
    y ∈ l ∨ ∃ x ∈ l, y = f x := by
  induction l with
  | nil => exact absurd h (by simp [updFirst])
  | cons x l ih =>
    rw [updFirst] at h
    split at h
    · rcases List.mem_cons.mp h with rfl | h
      · exact .inr ⟨x, by simp, rfl⟩
      · exact .inl (by simp [h])
    · rcases List.mem_cons.mp h with rfl | h
      · exact .inl (by simp)
      · rcases ih h with h | ⟨z, hz, e⟩
        · exact .inl (by simp [h])
        · exact .inr ⟨z, by simp [hz], e⟩

theorem fresh_setFlight {c : CmdCtx} {l : List InFlight} (h : ∀ e ∈ l, e.mark = none) : Fresh c (s.setFlight c.src l) := by
  intro e he
  rw [flight_setFlight] at he
  exact h e he

theorem fenceEnds_fresh {c : CmdCtx} (h : Fresh c s) : Fresh c (fenceEnds c s) := by
  unfold fenceEnds
  split
  · intro e he
    rw [flight_traceWait] at he
    refine fresh_setFlight (fun x hx => ?_) e he
    rcases mem_updFirst hx with hx | ⟨y, hy, rfl⟩
    · exact h x hx
    · exact h y hy
  · exact h

theorem takeProfile_fresh {c : CmdCtx} (h : Fresh c s) : Fresh c (takeProfile c s) := by
  unfold takeProfile
  split
  · exact h
  · next n src =>
    split
    · exact h
    · intro e he
      refine h e ?_
      rw [src] at he ⊢
      simp only [State.flight, ring_modRing_self] at he ⊢
      split at he
      · exact he
      · split at he <;> exact he

theorem Fresh.ite {c : CmdCtx} {p : Prop} [Decidable p] {t u : State} (a : Fresh c t) (b : Fresh c u) :
    Fresh c (if p then t else u) := by
  split
  · exact a
  · exact b

theorem beginCmd_fresh {c : CmdCtx} (opc : Nat) (h : Fresh c s) : Fresh c (beginCmd c opc s) := by
  have fenced (l : List InFlight) (hl : ∀ e ∈ l, e.mark = none) : Fresh c (fenceEnds c (s.setFlight c.src l)) :=
    fenceEnds_fresh (fresh_setFlight hl)
  unfold beginCmd
  dsimp only
  refine Fresh.ite (fenced _ ?_) (takeProfile_fresh (fenced _ ?_))
  all_goals
    intro e he
    split at he
    · rcases mem_updFirst he with he | ⟨x, hx, rfl⟩
      · exact h e he
      · exact h x hx
    · rcases List.mem_append.mp he with he | he
      · exact h e he
      · rw [List.mem_singleton.mp he]

theorem entryOf_mark {c : CmdCtx} {e : InFlight} (h : Fresh c s) (he : s.entryOf c = some e) : e.mark = none :=
  h e (List.mem_of_find?_eq_some he)

/-! ### Ordering points -/

theorem ahead_none {x : Point} {m : Nat} (h : s.intake.pkts = []) : ahead x m s = [] := by
  simp [ahead, State.pkts, h]

theorem drainTo_none {x : Point} {m k : Nat} (h : s.intake.pkts = []) : drainTo x m k s = s := by
  cases k with
  | zero => rfl
  | succ k => simp [drainTo, ahead_none h, advanceFirst]

theorem drainCopies_none {k : Nat} (h : s.egr.copies = []) : drainCopies k s = s := by
  cases k with
  | zero => rfl
  | succ k => simp [drainCopies, h]

/-- With nothing on its way through the packet path, a command passes its ordering point in its own cycle. -/
theorem atPoint_empty {c : CmdCtx} {i : Instr} {x : Point} {work : DWord → State → State} (path : PathEmpty s) (fresh : Fresh c s) :
    atPoint c i x work s = work s.now (modEntry c (fun e => { e with mark := none }) s) := by
  obtain ⟨pkts, copies⟩ := path
  have time : (match s.entryOf c with | some e => if e.mark.isSome then e.markAt else s.now | none => s.now) = s.now := by
    cases he : s.entryOf c with
    | none => rfl
    | some e => simp [entryOf_mark fresh he]
  unfold atPoint
  simp only [drainTo_none pkts, drainCopies_none copies, ahead_none pkts, ite_self, if_true]
  exact congrArg (fun t => work t _) time

theorem atPoint_begin {c : CmdCtx} {i : Instr} {x : Point} {work : DWord → State → State} {opc : Nat} (path : PathEmpty s)
    (fresh : Fresh c s) : atPoint c i x work (beginCmd c opc s) = work s.now (begun c opc s) := by
  have path' : PathEmpty (beginCmd c opc s) := ⟨by rw [beginCmd_intake]; exact path.1, by rw [beginCmd_egr]; exact path.2⟩
  rw [atPoint_empty path' (beginCmd_fresh opc fresh)]
  simp [begun, State.now]

end Sys2Proof.Proofs
end

