-- ==== Sys2Proof/Proofs/Frames.lean ====
section
/-! PROOF. What whole families of operations leave of the state, each family stated as one frame: the routing of messages, the end of
commands, the fall of a link, and the writes and issues of tile commands. -/

namespace Sys2Proof.Proofs
open Sys2Proof.Machine

variable {s : State}

/-! ### Messages: the fabric state and the counters -/

/-- The states differ only in the fabric and the counters. -/
def FabFrame (s t : State) : Prop := ∃ f o, t = { s with fab := f, obs := o }

theorem FabFrame.refl (s : State) : FabFrame s s := ⟨s.fab, s.obs, rfl⟩

theorem FabFrame.trans {s t u : State} (a : FabFrame s t) (b : FabFrame t u) : FabFrame s u := by
  obtain ⟨_, _, rfl⟩ := a
  obtain ⟨_, _, rfl⟩ := b
  exact ⟨_, _, rfl⟩

theorem FabFrame.ite {p : Prop} [Decidable p] {t u : State} (a : FabFrame s t) (b : FabFrame s u) :
    FabFrame s (if p then t else u) := by
  split
  · exact a
  · exact b

theorem fab_frame (f : Fab) : FabFrame s { s with fab := f } := ⟨f, s.obs, rfl⟩

theorem count_fabFrame (k : Ctr) (n : Nat) : FabFrame s (s.count k n) := ⟨s.fab, _, rfl⟩

theorem setLink_frame (l : Nat) (x : Link) : FabFrame s (s.setLink l x) := fab_frame _

theorem returnCredit_frame (l : Nat) (m : Msg) (hop : Nat) (s : State) : FabFrame s (returnCredit l m hop s) :=
  .ite (.refl s) (fab_frame _)

theorem handOver_frame (l : Nat) (m : Msg) (s : State) : FabFrame s (handOver l m s) := by
  have paid : FabFrame s (if 1 ≤ m.hop then returnCredit l m m.hop s else s) := .ite (returnCredit_frame ..) (.refl s)
  refine FabFrame.trans (paid.trans (fab_frame _)) (.ite ?_ (count_fabFrame ..))
  exact (count_fabFrame ..).trans (fab_frame _)

theorem drainReorder_frame (src cls k : Nat) (s : State) : FabFrame s (drainReorder src cls k s) := by
  induction k generalizing s with
  | zero => exact .refl s
  | succ k ih =>
    unfold drainReorder
    split
    · exact .refl s
    · exact ((fab_frame _).trans (handOver_frame ..)).trans (ih _)

theorem noteGap_frame (src cls : Nat) (fresh : Bool) (s : State) : FabFrame s (noteGap src cls fresh s) := fab_frame _

theorem storeEarly_frame (l : Nat) (m : Msg) (s : State) : FabFrame s (storeEarly l m s) :=
  FabFrame.trans (.ite (returnCredit_frame ..) (.refl s)) (fab_frame _)

theorem deliverMsg_frame (l : Nat) (m : Msg) (s : State) : FabFrame s (deliverMsg l m s) := by
  refine FabFrame.ite ?_ (.ite ?_ (.ite (returnCredit_frame ..) (.refl s)))
  · exact ((handOver_frame ..).trans (drainReorder_frame ..)).trans (noteGap_frame ..)
  · exact (storeEarly_frame ..).trans (noteGap_frame ..)

theorem enqueueMsg_frame (came l : Nat) (m : Msg) (s : State) : FabFrame s (enqueueMsg came l m s) := fab_frame _

theorem routeMsg_frame (l : Nat) (m : Msg) (s : State) : FabFrame s (routeMsg l m s) := by
  unfold routeMsg
  split
  · exact deliverMsg_frame ..
  · split
    · exact count_fabFrame ..
    · split
      · exact count_fabFrame ..
      · exact enqueueMsg_frame ..

theorem sendMsg_frame (dst cls mtype part : Nat) (arg : Word) (body : Bytes) (s : State) :
    FabFrame s (sendMsg dst cls mtype part arg body s) := by
  unfold sendMsg
  split
  · exact count_fabFrame ..
  · exact (count_fabFrame ..).trans ((fab_frame _).trans (routeMsg_frame ..))

theorem sendOnLink_frame (l mtype : Nat) (arg : Word) (body : Bytes) (s : State) :
    FabFrame s (sendOnLink l mtype arg body s) := (fab_frame _).trans (enqueueMsg_frame ..)

/-! ### Replies: memory, rings, partitions, the egress path and what goes with writes of HBM -/

/-- The states differ only in what a reply writes. -/
def ReplyFrame (s t : State) : Prop :=
  ∃ r p m h o d e g, t = { s with rings := r, parts := p, host := m, hbm := h, obs := o, darn := d, epochNew := e, egr := g }

theorem ReplyFrame.refl (s : State) : ReplyFrame s s := ⟨s.rings, s.parts, s.host, s.hbm, s.obs, s.darn, s.epochNew, s.egr, rfl⟩

theorem ReplyFrame.trans {s t u : State} (a : ReplyFrame s t) (b : ReplyFrame t u) : ReplyFrame s u := by
  obtain ⟨_, _, _, _, _, _, _, _, rfl⟩ := a
  obtain ⟨_, _, _, _, _, _, _, _, rfl⟩ := b
  exact ⟨_, _, _, _, _, _, _, _, rfl⟩

theorem StartFrame.reply {s t : State} (a : StartFrame s t) : ReplyFrame s t := by
  obtain ⟨_, _, _, _, _, _, rfl⟩ := a
  exact ⟨_, _, _, _, _, _, _, _, rfl⟩

theorem TraceFrame.reply {s t : State} (a : TraceFrame s t) : ReplyFrame s t := a.start.reply

theorem setRing_frame (n : Nat) (r : Ring) : ReplyFrame s (s.setRing n r) :=
  ⟨_, s.parts, s.host, s.hbm, s.obs, s.darn, s.epochNew, s.egr, rfl⟩

theorem hostWrite_frame (a : Nat) (b : Bytes) : ReplyFrame s (s.hostWrite a b) :=
  ⟨s.rings, s.parts, _, s.hbm, s.obs, s.darn, s.epochNew, s.egr, rfl⟩

theorem ringPut_frame (loc : Bool) (part base size : Nat) (off : Word) (b : Bytes) :
    ReplyFrame s (ringPut s loc part base size off b) := by
  unfold ringPut
  split
  · exact ((hbmWrite_frame ..).trans (hbmWrite_frame ..)).reply
  · exact (hostWrite_frame ..).trans (hostWrite_frame ..)

theorem ringReply_frame (n : Nat) (b : Bytes) (s : State) : ReplyFrame s (ringReply n b s) := by
  unfold ringReply
  dsimp only
  split
  · exact (ringPut_frame ..).trans (setRing_frame ..)
  · exact ((ringPut_frame ..).trans (setRing_frame ..)).trans (hostWrite_frame ..)

theorem inbandReply_frame (p port : Nat) (mac : Bytes) (key : Nat) (b : Bytes) (s : State) :
    ReplyFrame s (inbandReply p port mac key b s) := ⟨s.rings, _, s.host, s.hbm, s.obs, s.darn, s.epochNew, _, rfl⟩

theorem endProfile_frame (x : InFlight) (s : State) : ReplyFrame s (endProfile x s) := by
  obtain ⟨l, ended⟩ := endProfile_eq (s := s) x
  exact ⟨l, s.parts, s.host, s.hbm, s.obs, s.darn, s.epochNew, s.egr, ended⟩

theorem flushReplies_frame (x : Src) (k : Nat) (s : State) : ReplyFrame s (flushReplies x k s) := by
  induction k generalizing s with
  | zero => exact .refl s
  | succ k ih =>
    unfold flushReplies
    split
    · exact .refl s
    · refine ReplyFrame.trans ?_ (ih _)
      split
      · exact ((setFlight_frame ..).reply.trans (endProfile_frame ..)).trans (ringReply_frame ..)
      · exact ((setFlight_frame ..).reply.trans (endProfile_frame ..)).trans (inbandReply_frame ..)

theorem drainEnds_frame (c : CmdCtx) (s : State) : StartFrame s (drainEnds c s) := by
  unfold drainEnds
  split
  · exact (setFlight_frame ..).trans (traceWait_frame ..).start
  · exact .refl s

theorem finish_frame (c : CmdCtx) (st : Status) (body : Bytes) (ord : DWord) (fl : Nat) (s : State) :
    ReplyFrame s (finish c st body ord fl s) := by
  unfold finish
  split
  · exact .refl s
  · exact ((drainEnds_frame ..).trans (setFlight_frame ..)).reply.trans (flushReplies_frame ..)

/-! ### A link that goes down: messages and replies -/

/-- The states differ only in the fabric and in what a reply writes. -/
def LinkFrame (s t : State) : Prop :=
  ∃ r p m h o d e g f, t = { s with rings := r, parts := p, host := m, hbm := h, obs := o, darn := d, epochNew := e, egr := g, fab := f }

theorem FabFrame.link {s t : State} (a : FabFrame s t) : LinkFrame s t := by
  obtain ⟨_, _, rfl⟩ := a
  exact ⟨_, _, _, _, _, _, _, _, _, rfl⟩

theorem ReplyFrame.link {s t : State} (a : ReplyFrame s t) : LinkFrame s t := by
  obtain ⟨_, _, _, _, _, _, _, _, rfl⟩ := a
  exact ⟨_, _, _, _, _, _, _, _, _, rfl⟩

theorem LinkFrame.refl (s : State) : LinkFrame s s := (FabFrame.refl s).link

theorem LinkFrame.trans {s t u : State} (a : LinkFrame s t) (b : LinkFrame t u) : LinkFrame s u := by
  obtain ⟨_, _, _, _, _, _, _, _, _, rfl⟩ := a
  obtain ⟨_, _, _, _, _, _, _, _, _, rfl⟩ := b
  exact ⟨_, _, _, _, _, _, _, _, _, rfl⟩

theorem rerouted_frame (e : Nat × Msg) (peer : Nat) (s : State) :
    FabFrame s (
      let m : Msg := { e.2 with hop := e.2.hop - 1 }
      let gone := decide (m.cls = 0) && decide (m.dst = peer)
      let lost := decide (1 ≤ m.hop) && (gone || (routeLink s m.dst m.src m.cls).isNone)
      let s := if lost then returnCredit e.1 m m.hop s else s
      if gone then s.count (.module_ .fabNoRoute) else routeMsg e.1 m s) :=
  FabFrame.trans (.ite (returnCredit_frame ..) (.refl s)) (.ite (count_fabFrame ..) (routeMsg_frame ..))

theorem linkDown_frame (l st : Nat) (s : State) : LinkFrame s (linkDown l st s) := by
  have cleared : LinkFrame s (s.setLink l ((s.link l).cleared st)) := (setLink_frame ..).link
  have aborted : LinkFrame s (match (s.link l).rekeyCtx with
      | some c => finish c .aborted [] 0 0 (s.setLink l ((s.link l).cleared st))
      | none => s.setLink l ((s.link l).cleared st)) := by
    split
    · exact cleared.trans (finish_frame ..).link
    · exact cleared
  exact aborted.trans (foldl_rel LinkFrame.refl (fun _ _ _ => LinkFrame.trans) (fun u e => (rerouted_frame e _ u).link) _ _)

theorem darkLinks_frame (s : State) : LinkFrame s (darkLinks s) := by
  refine foldl_rel LinkFrame.refl (fun _ _ _ => LinkFrame.trans) (fun u l => ?_) _ s
  split
  · exact (setLink_frame ..).link.trans (linkDown_frame ..)
  · exact .refl u

/-! ### Tile commands: tile memory, HBM and what goes with writes of it -/

/-- The states differ only in the tiles, HBM and what goes with writes of it. -/
def TileFrame (s t : State) : Prop := ∃ l h o d e, t = { s with tiles := l, hbm := h, obs := o, darn := d, epochNew := e }

theorem TileFrame.refl (s : State) : TileFrame s s := ⟨s.tiles, s.hbm, s.obs, s.darn, s.epochNew, rfl⟩

theorem TileFrame.trans {s t u : State} (a : TileFrame s t) (b : TileFrame t u) : TileFrame s u := by
  obtain ⟨_, _, _, _, _, rfl⟩ := a
  obtain ⟨_, _, _, _, _, rfl⟩ := b
  exact ⟨_, _, _, _, _, rfl⟩

theorem tiles_frame (l : Tiles) : TileFrame s { s with tiles := l } := ⟨l, s.hbm, s.obs, s.darn, s.epochNew, rfl⟩

theorem tilePutN_frame (p : Nat) (own : Bool) (t off : Nat) (b : Bytes) (s : State) : TileFrame s (tilePutN p own t off b s) := by
  induction b generalizing off s with
  | nil => exact .refl s
  | cons x b ih => exact (tiles_frame _).trans (ih ..)

theorem noteEpoch_tileFrame (l : List (Nat × Nat)) : TileFrame s (s.noteEpoch l) := by
  unfold State.noteEpoch
  split
  · exact .refl s
  · exact ⟨s.tiles, s.hbm, s.obs, s.darn, _, rfl⟩

theorem countHbm_tileFrame (p a n : Nat) (w : Bool) : TileFrame s (countHbm s p a n w) := by
  unfold countHbm
  split
  · exact .refl s
  · exact ⟨s.tiles, s.hbm, _, s.darn, s.epochNew, rfl⟩

theorem twrite1_frame (p : Nat) (own : Bool) (w : TWrite) (s : State) : TileFrame s (twrite1 p own w s) := by
  unfold twrite1
  split
  · exact tilePutN_frame ..
  · exact ((countHbm_tileFrame ..).trans (noteEpoch_tileFrame _)).trans ⟨_, _, _, _, _, rfl⟩

theorem twrites_frame (p : Nat) (own : Bool) (ws : List TWrite) (s : State) : TileFrame s (twrites p own ws s) :=
  (foldl_rel TileFrame.refl (fun _ _ _ => TileFrame.trans) (fun u w => twrite1_frame p own w u) ws s).trans ⟨_, _, _, _, _, rfl⟩

theorem issueList_frame (ctx : Option CmdCtx) (slot : Option Nat) (p : Nat) (host : Bool) (l : List Bytes) (s : State) :
    TileFrame s (issueList ctx slot p host l s) :=
  (foldl_rel TileFrame.refl (fun _ _ _ => TileFrame.trans) (fun _ _ => tiles_frame _) _ s).trans (tiles_frame _)

/-! ### Batches: the slots besides -/

/-- The states differ only in the slots and in what tile commands write. -/
def BatchFrame (s t : State) : Prop :=
  ∃ x l h o d e, t = { s with slots := x, tiles := l, hbm := h, obs := o, darn := d, epochNew := e }

theorem TileFrame.batch {s t : State} (a : TileFrame s t) : BatchFrame s t := by
  obtain ⟨_, _, _, _, _, rfl⟩ := a
  exact ⟨_, _, _, _, _, _, rfl⟩

theorem BatchFrame.refl (s : State) : BatchFrame s s := (TileFrame.refl s).batch

theorem BatchFrame.trans {s t u : State} (a : BatchFrame s t) (b : BatchFrame t u) : BatchFrame s u := by
  obtain ⟨_, _, _, _, _, _, rfl⟩ := a
  obtain ⟨_, _, _, _, _, _, rfl⟩ := b
  exact ⟨_, _, _, _, _, _, rfl⟩

theorem setSlot_frame (n : Nat) (x : Slot) : BatchFrame s (s.setSlot n x) :=
  ⟨_, s.tiles, s.hbm, s.obs, s.darn, s.epochNew, rfl⟩

theorem count_batchFrame (k : Ctr) (n : Nat) : BatchFrame s (s.count k n) :=
  ⟨s.slots, s.tiles, s.hbm, _, s.darn, s.epochNew, rfl⟩

theorem startBatch_frame (n : Nat) (s : State) : BatchFrame s (startBatch n s) := by
  unfold startBatch
  dsimp only
  split
  · split
    · exact .refl s
    · exact ((twrites_frame ..).trans (issueList_frame ..)).batch.trans (setSlot_frame ..)
  · exact .refl s

theorem dispatchBatch_frame (n : Nat) (why : Option SlotCtr) (s : State) : BatchFrame s (dispatchBatch n why s) := by
  unfold dispatchBatch
  dsimp only
  split
  · exact .refl s
  · cases why with
    | none => exact (setSlot_frame ..).trans (startBatch_frame ..)
    | some w => exact ((setSlot_frame ..).trans (count_batchFrame ..)).trans (startBatch_frame ..)

theorem batchSettle_frame (s : State) : BatchFrame s (batchSettle s) := by
  refine foldl_rel BatchFrame.refl (fun _ _ _ => BatchFrame.trans) (fun u e => ?_) _ s
  split
  · exact dispatchBatch_frame ..
  · exact .refl u

end Sys2Proof.Proofs
end

