-- ==== Sys2Proof/Proofs/FieldTable.lean ====
section
/-! PROOF. The catalogue of fields, and what a FIELD_WRITE leaves of the stored values: each named field that is not WO takes its
value, and every other keeps its own. -/

namespace Sys2Proof.Proofs
open Sys2Proof.Machine

variable {s : State}

/-! ### The catalogue -/

theorem rowOf_name (n : FName) : (rowOf n).name = n := by cases n <;> rfl

theorem rowOf_mem (n : FName) : rowOf n ∈ fieldRows := by
  refine List.mem_map_of_mem ?_
  cases n <;> decide

theorem row_eq {r : FRow} (h : r ∈ fieldRows) : rowOf r.name = r := by
  obtain ⟨n, _, rfl⟩ := List.mem_map.mp h
  rw [rowOf_name]

/-- The rows are apart. -/
theorem rows_apart : fieldRows.Pairwise (fun a b => a.base + a.count ≤ b.base) := by decide +kernel

/-- The row that a defined ID lies in, and its place there. -/
theorem fieldAt_some {id i : Nat} {r : FRow} (h : fieldAt id = some (r, i)) :
    rowOf r.name = r ∧ fieldId r.name i = id ∧ i < r.count := by
  unfold fieldAt at h
  split at h
  · cases h
  · next q found =>
    obtain ⟨low, high⟩ : q.base ≤ id ∧ id < q.base + q.count := by simpa using List.find?_some found
    have row := row_eq (List.mem_of_find?_eq_some found)
    dsimp only at h
    split at h
    · cases h
    · cases h
      refine ⟨row, ?_, by omega⟩
      rw [fieldId, row]
      omega

theorem mem_apart {l : List FRow} (apart : l.Pairwise (fun a b => a.base + a.count ≤ b.base)) {r q : FRow} {id : Nat}
    (hr : r ∈ l) (hq : q ∈ l) (ir : r.base ≤ id ∧ id < r.base + r.count) (iq : q.base ≤ id ∧ id < q.base + q.count) : q = r := by
  induction apart with
  | nil => cases hr
  | cons first _ ih =>
    rcases List.mem_cons.mp hr with er | hr <;> rcases List.mem_cons.mp hq with eq | hq
    · rw [er, eq]
    · have := er ▸ first q hq
      omega
    · have := eq ▸ first r hr
      omega
    · exact ih hr hq

/-- The ID of an instance is defined, PORT_OUTCOME_ACT's holes aside. -/
theorem fieldAt_fieldId {n : FName} {i : Nat} (h : i < (rowOf n).count) (named : n ≠ .portOutcomeAct) :
    fieldAt (fieldId n i) = some (rowOf n, i) := by
  have inside : (rowOf n).base ≤ fieldId n i ∧ fieldId n i < (rowOf n).base + (rowOf n).count := by
    unfold fieldId
    omega
  unfold fieldAt
  cases found : fieldRows.find? (fun r => decide (r.base ≤ fieldId n i) && decide (fieldId n i < r.base + r.count)) with
  | none => exact absurd (List.find?_eq_none.mp found (rowOf n) (rowOf_mem n)) (by simpa using inside)
  | some q =>
    have within : q.base ≤ fieldId n i ∧ fieldId n i < q.base + q.count := by simpa using List.find?_some found
    obtain rfl := mem_apart rows_apart (rowOf_mem n) (List.mem_of_find?_eq_some found) inside within
    simp [rowOf_name, named, fieldId]

/-! ### Storing a value -/

theorem setField_val (n : FName) (i v : Nat) : (s.setField n i v).fields.val = smSet s.fields.val (fieldId n i) (dw v) := rfl

theorem enablePort_val (i : Nat) : (enablePort i s).fields.val = s.fields.val := by
  unfold enablePort
  dsimp only
  split <;> split <;> rfl

theorem laserEnable_fields (c v old : Nat) : (laserEnable c v old s).fields = s.fields := by
  unfold laserEnable
  dsimp only
  split
  · rfl
  · split <;> rfl

/-- `rollAge` with the aging phase as a parameter, so that no proof evaluates the phase. -/
def rollAgeBy (phase : State → Nat → Nat → Nat × Nat) (p next : Nat) (s : State) : State :=
  let (start, len) := phase s p next
  { s with tabs := { s.tabs with ageStart := smSet s.tabs.ageStart p (dw start), agePeriod := smSet s.tabs.agePeriod p len } }

theorem rollAge_eq_rollAgeBy : @rollAge = rollAgeBy @agePhase := rfl

theorem rollAge_fields (p next : Nat) : (rollAge p next s).fields = s.fields := by
  have any (phase : State → Nat → Nat → Nat × Nat) : (rollAgeBy phase p next s).fields = s.fields := by
    unfold rollAgeBy
    rcases phase s p next with ⟨start, len⟩
    rfl
  rw [rollAge_eq_rollAgeBy]
  exact any _

/-- A field's effect on its block stores no value. -/
theorem fieldEffect_val (r : FRow) (i v old : Nat) : (fieldEffect r i v old s).fields.val = s.fields.val := by
  unfold fieldEffect
  split
  case h_1 => split; exact enablePort_val i; rfl
  case h_2 => split <;> rfl
  case h_3 => split; dsimp only; split <;> rfl; rfl
  case h_4 => rfl
  case h_5 => split <;> rfl
  case h_6 => split <;> rfl
  case h_7 => split <;> rfl
  case h_8 => split; rfl; split; rfl; rw [rollAge_fields]
  case h_9 => split <;> rfl
  case h_10 => split <;> rfl
  case h_11 => rw [laserEnable_fields]
  case h_12 => split <;> rfl
  case h_13 => rfl
  case h_14 => rfl
  case h_15 => split <;> rfl
  case h_16 => rfl

theorem fieldStore_val {id i v : Nat} {r : FRow} (h : fieldAt id = some (r, i)) :
    (fieldStore id v s).fields.val = if r.cls = .wo then s.fields.val else smSet s.fields.val id (dw v) := by
  obtain ⟨_, place, _⟩ := fieldAt_some h
  simp only [fieldStore, h, fieldEffect_val]
  split
  · rfl
  · rw [setField_val, place]

theorem fieldStore_none {id v : Nat} (h : fieldAt id = none) : fieldStore id v s = s := by simp [fieldStore, h]

theorem fieldStore_val_ne {id v j : Nat} (h : j ≠ id) :
    smFind (fieldStore id v s).fields.val j = smFind s.fields.val j := by
  cases at_ : fieldAt id with
  | none => rw [fieldStore_none at_]
  | some p =>
    rw [fieldStore_val at_]
    split
    · rfl
    · exact smFind_smSet_ne _ _ h

theorem fieldStoreAll_val_out {id j : Nat} {vals : List DWord} (h : j < id ∨ id + vals.length ≤ j) :
    smFind (fieldStoreAll id vals s).fields.val j = smFind s.fields.val j := by
  induction vals generalizing id s with
  | nil => rfl
  | cons v vals ih =>
    simp only [List.length_cons] at h
    rw [fieldStoreAll, ih (by omega), fieldStore_val_ne (by omega)]

theorem fieldStoreAll_val {id k i : Nat} {vals : List DWord} {r : FRow} (hk : k < vals.length) (h : fieldAt (id + k) = some (r, i)) :
    smFind (fieldStoreAll id vals s).fields.val (id + k) =
      if r.cls = .wo then smFind s.fields.val (id + k) else some (nth 0 vals k) := by
  induction vals generalizing id k s with
  | nil => exact absurd hk (by simp)
  | cons v vals ih =>
    rw [fieldStoreAll]
    cases k with
    | zero =>
      rw [Nat.add_zero] at h ⊢
      rw [fieldStoreAll_val_out (by omega), fieldStore_val h]
      split
      · rfl
      · simp [smFind_smSet_self, nth, dw]
    | succ k =>
      have h' : fieldAt (id + 1 + k) = some (r, i) := by rw [← h]; congr 1; omega
      have := ih (s := fieldStore id v.toNat s) (id := id + 1) (k := k) (by simpa using hk) h'
      rw [show id + (k + 1) = id + 1 + k by omega, this, fieldStore_val_ne (by omega)]
      rfl

/-! ### What else a write does -/

theorem noteWrites_eq (src id : Nat) (vals : List DWord) :
    ∃ w, noteWrites src id vals s = { s with fields := { s.fields with wrote := w } } := by
  induction vals generalizing id s with
  | nil => exact ⟨s.fields.wrote, rfl⟩
  | cons v vals ih =>
    unfold noteWrites
    split
    · split
      · exact ih ..
      · obtain ⟨w, rest⟩ := ih (id := id + 1) (s := s.noteWrite src id (s.fval _ _))
        exact ⟨w, rest⟩
    · exact ih ..

theorem thresholdPeriod_fields (n : Nat) : (thresholdPeriod n s).fields = s.fields := by
  unfold thresholdPeriod
  dsimp only
  split
  · split <;> rfl
  · rfl

theorem setTheta_fields (n : Nat) (v : Int) : (setTheta n v s).fields = s.fields := by
  unfold setTheta
  dsimp only
  split <;> exact thresholdPeriod_fields n

theorem batchSettle_fields : (batchSettle s).fields = s.fields := by
  obtain ⟨_, _, _, _, _, _, h⟩ := batchSettle_frame s
  rw [h]

theorem darkLinks_fields : (darkLinks s).fields = s.fields := by
  obtain ⟨_, _, _, _, _, _, _, _, _, h⟩ := darkLinks_frame s
  rw [h]

/-- A boundary of SHADOWED fields puts values in force and stores none. -/
theorem takeShadows_eq (n : FName) : ∃ a, s.takeShadows n = { s with fields := { s.fields with act := a } } :=
  foldl_rel (R := fun s t => ∃ a, t = { s with fields := { s.fields with act := a } }) (fun s => ⟨s.fields.act, rfl⟩)
    (fun _ _ _ ⟨_, h⟩ ⟨a, k⟩ => ⟨a, by rw [k, h]⟩) (fun _ _ => ⟨_, rfl⟩) _ s

theorem poolIdle_val : (poolIdle s).fields.val = s.fields.val := by
  unfold poolIdle
  split
  · obtain ⟨a, h⟩ := takeShadows_eq (s := s) .tileShare
    unfold poolRound
    rw [h]
  · rfl

theorem fieldAfter_val (id v : Nat) : (fieldAfter id v s).fields.val = s.fields.val := by
  unfold fieldAfter
  split
  · rfl
  · split
    case h_1 => rw [setTheta_fields]
    case h_2 => rw [batchSettle_fields]
    case h_6 => rfl
    case h_7 => rw [darkLinks_fields]
    case h_8 => rfl
    all_goals exact poolIdle_val

theorem fieldsAfter_val (id : Nat) (vals : List DWord) : (fieldsAfter id vals s).fields.val = s.fields.val := by
  induction vals generalizing id s with
  | nil => rfl
  | cons v vals ih => rw [fieldsAfter, ih, fieldAfter_val]

end Sys2Proof.Proofs
end

