-- ==== Sys2Proof/Proofs/FieldWrites.lean ====
section
/-! PROOF. FIELD_WRITE as a whole: all of its fields or none (O12). -/

namespace Sys2Proof.Proofs
open Sys2Proof.Machine

variable {s : State}

theorem exec_fieldWrite (c : CmdCtx) (id count : Nat) (vals : List DWord) (s : State) :
    exec (.fieldWrite c id count vals) s = .next (fieldWriteCmd c (.fieldWrite c id count vals) id count vals s) := rfl

/-! ### The command -/

/-- The state that a write leaves before its reply, from the state in which it acts. -/
def fieldsWritten (src id : Nat) (vals : List DWord) (b : State) : State :=
  fieldsAfter id vals (fieldStoreAll id vals (noteWrites src id vals (settleWalks b)))

theorem fieldWriteWork_eq (c : CmdCtx) (id count : Nat) (vals : List DWord) (t : DWord) (b : State) :
    fieldWriteWork c id count vals t b = finish c .ok (leBytes 2 count) t 0 (fieldsWritten c.src.code id vals b) := rfl

section
variable {c : CmdCtx} {i : Instr} {id count : Nat} {vals : List DWord}

/-- A write that clears no sketch acts where it starts. -/
theorem fieldWriteCmd_acts (ready : Ready 0x031 s) (ok : fieldWriteCheck (beginCmd c 0x031 s) c.part id count vals = none)
    (plain : clearsSketch id vals = false) : fieldWriteCmd c i id count vals s =
      finish c .ok (leBytes 2 count) s.now 0 (fieldsWritten c.src.code id vals (beginCmd c 0x031 s)) := by
  have gate : stateGate c 0x031 (beginCmd c 0x031 s) = none := stateGate_of_ready (ready_begin.mpr ready)
  have now : (beginCmd c 0x031 s).now = s.now := by simp [State.now]
  simp [fieldWriteCmd, hasHost_of_opcodeRuns ready.1, ok, gate, plain, fieldWriteWork_eq, now]

/-- A write that clears a sketch acts at its ordering point. -/
theorem fieldWriteCmd_clears (ready : Ready 0x031 s) (ok : fieldWriteCheck (beginCmd c 0x031 s) c.part id count vals = none)
    (clears : clearsSketch id vals = true) (path : PathEmpty s) (fresh : Fresh c s) : fieldWriteCmd c i id count vals s =
      finish c .ok (leBytes 2 count) s.now 0 (fieldsWritten c.src.code id vals (begun c 0x031 s)) := by
  have gate : stateGate c 0x031 (beginCmd c 0x031 s) = none := stateGate_of_ready (ready_begin.mpr ready)
  simp [fieldWriteCmd, hasHost_of_opcodeRuns ready.1, ok, gate, clears, atPoint_begin path fresh, fieldWriteWork_eq]

theorem fieldWriteCmd_runs (ready : Ready 0x031 s) (ok : fieldWriteCheck (beginCmd c 0x031 s) c.part id count vals = none)
    (point : clearsSketch id vals = false ∨ (PathEmpty s ∧ Fresh c s)) : ∃ b, Kept s b ∧ fieldWriteCmd c i id count vals s =
      finish c .ok (leBytes 2 count) s.now 0 (fieldsWritten c.src.code id vals b) := by
  cases clears : clearsSketch id vals with
  | false => exact ⟨_, beginCmd_kept .., fieldWriteCmd_acts ready ok clears⟩
  | true =>
    obtain ⟨path, fresh⟩ := point.resolve_left (by simp [clears])
    exact ⟨_, begun_kept .., fieldWriteCmd_clears ready ok clears path fresh⟩

theorem fieldWriteCmd_fails {st : Status} (host : s.sys.mode.hasHost = true)
    (bad : fieldWriteCheck (beginCmd c 0x031 s) c.part id count vals = some st) : fieldWriteCmd c i id count vals s =
      finish c (refusal c 0x031 (beginCmd c 0x031 s) st) (leBytes 2 0) 0 0 (beginCmd c 0x031 s) := by
  simp [fieldWriteCmd, host, bad]

theorem length_of_fieldWriteCheck {p : Nat} (ok : fieldWriteCheck s p id count vals = none) : vals.length = count := by
  unfold fieldWriteCheck at ok
  split at ok
  · cases ok
  · next h => exact Classical.not_not.mp (fun e => h (.inl e))

/-! ### The values that it leaves -/

theorem settleWalks_fields (b : State) : (settleWalks b).fields = b.fields := rfl

theorem val_noteWrites (src id : Nat) (vals : List DWord) : (noteWrites src id vals s).fields.val = s.fields.val := by
  obtain ⟨w, h⟩ := noteWrites_eq (s := s) src id vals
  rw [h]

theorem val_fieldsWritten {src k j : Nat} {r : FRow} (hk : k < vals.length) (h : fieldAt (id + k) = some (r, j)) :
    smFind (fieldsWritten src id vals s).fields.val (id + k) =
      if r.cls = .wo then smFind s.fields.val (id + k) else some (nth 0 vals k) := by
  rw [fieldsWritten, fieldsAfter_val, fieldStoreAll_val hk h, val_noteWrites, settleWalks_fields]

theorem val_fieldsWritten_out {src j : Nat} (out : j < id ∨ id + vals.length ≤ j) :
    smFind (fieldsWritten src id vals s).fields.val j = smFind s.fields.val j := by
  rw [fieldsWritten, fieldsAfter_val, fieldStoreAll_val_out out, val_noteWrites, settleWalks_fields]

/-! ### Fields that set nothing going -/

/-- The fields whose write acts on their block. -/
def actingFields : List FName :=
  [.portEn, .portGraph, .hhEntries, .tileOwner, .agePeriod, .gateEn, .partEn, .lsrEn, .tclkCtrl, .ppsCtrl, .batchMax, .tileShare,
   .tileEn, .sketchEn, .eqFreeze, .traceBudget]

/-- A field that is stored and sets nothing going. -/
def plainField (r : FRow) : Prop := r.cls ≠ .wo ∧ r.name ∉ actingFields

theorem cls_of_name {r : FRow} {n : FName} (row : rowOf r.name = r) (name : r.name = n) : r.cls = (rowOf n).cls := by
  rw [← name, row]

theorem fieldEffect_plain {r : FRow} {j v old : Nat} (row : rowOf r.name = r) (plain : plainField r) :
    fieldEffect r j v old s = s := by
  obtain ⟨stored, quiet⟩ := plain
  unfold fieldEffect
  split
  case h_5 name => exact absurd (cls_of_name row name) stored
  case h_16 => rfl
  all_goals
    next name =>
    rw [name] at quiet
    exact absurd (by decide) quiet

theorem fieldStore_plain {r : FRow} {j v : Nat} (h : fieldAt id = some (r, j)) (plain : plainField r) :
    fieldStore id v s = s.setField r.name j v := by
  obtain ⟨row, _, _⟩ := fieldAt_some h
  simp [fieldStore, h, fieldEffect_plain row plain, plain.1]

theorem fieldAfter_plain {r : FRow} {j v : Nat} (h : fieldAt id = some (r, j)) (plain : plainField r) :
    fieldAfter id v s = s := by
  obtain ⟨row, _, _⟩ := fieldAt_some h
  obtain ⟨stored, quiet⟩ := plain
  simp only [fieldAfter, h]
  split
  case h_1 name => exact absurd (cls_of_name row name) stored
  case h_8 => rfl
  all_goals
    next name =>
    rw [name] at quiet
    exact absurd (by decide) quiet

theorem fieldStoreAll_plain (h : ∀ k < vals.length, ∃ r j, fieldAt (id + k) = some (r, j) ∧ plainField r) :
    ∃ f, f.act = s.fields.act ∧ fieldStoreAll id vals s = { s with fields := f } := by
  induction vals generalizing id s with
  | nil => exact ⟨s.fields, rfl, rfl⟩
  | cons v vals ih =>
    obtain ⟨r, j, at_, plain⟩ := h 0 (by simp)
    obtain ⟨f, act, rest⟩ := ih (id := id + 1) (s := fieldStore id v.toNat s) (fun k hk => by
      simpa [Nat.add_assoc, Nat.add_comm 1] using h (k + 1) (by simpa using hk))
    rw [fieldStoreAll, rest]
    rw [Nat.add_zero] at at_
    rw [fieldStore_plain at_ plain] at act ⊢
    exact ⟨f, act, rfl⟩

theorem fieldsAfter_plain (h : ∀ k < vals.length, ∃ r j, fieldAt (id + k) = some (r, j) ∧ plainField r) :
    fieldsAfter id vals s = s := by
  induction vals generalizing id s with
  | nil => rfl
  | cons v vals ih =>
    obtain ⟨r, j, at_, plain⟩ := h 0 (by simp)
    rw [Nat.add_zero] at at_
    rw [fieldsAfter, fieldAfter_plain at_ plain]
    exact ih (fun k hk => by simpa [Nat.add_assoc, Nat.add_comm 1] using h (k + 1) (by simpa using hk))

theorem fieldsWritten_plain {src : Nat} (h : ∀ k < vals.length, ∃ r j, fieldAt (id + k) = some (r, j) ∧ plainField r) :
    ∃ f, f.act = s.fields.act ∧ fieldsWritten src id vals s = { settleWalks s with fields := f } := by
  obtain ⟨w, noted⟩ := noteWrites_eq (s := settleWalks s) src id vals
  obtain ⟨f, act, stored⟩ := fieldStoreAll_plain (s := noteWrites src id vals (settleWalks s)) h
  rw [fieldsWritten, fieldsAfter_plain h, stored, noted]
  rw [noted] at act
  exact ⟨f, act, rfl⟩

/-! ### Checks -/

theorem firstSome_none {α : Type} {f : α → Option Status} {l : List α} : firstSome f l = none ↔ ∀ a ∈ l, f a = none := by
  induction l with
  | nil => simp [firstSome]
  | cons a l ih => cases h : f a <;> simp [firstSome, h, ih]

/-- Fields that pass their checks are defined. -/
theorem defined_of_fieldWriteCheck {p k : Nat} (ok : fieldWriteCheck s p id count vals = none) (hk : k < count) :
    ∃ r j, fieldAt (id + k) = some (r, j) := by
  unfold fieldWriteCheck at ok
  split at ok
  · cases ok
  · have one := firstSome_none.mp ok k (List.mem_range.mpr hk)
    cases at_ : fieldAt (id + k) with
    | none => simp [fieldCheck, at_] at one
    | some x => exact ⟨x.1, x.2, rfl⟩

theorem fieldWriteCheck_badLength {p : Nat} (h : vals.length ≠ count ∨ count = 0 ∨ 510 < count) :
    fieldWriteCheck s p id count vals = some .badLength := if_pos h

/-- The check of a single field. -/
theorem fieldWriteCheck_one {p : Nat} (len : vals.length = 1) :
    fieldWriteCheck s p id 1 vals = fieldCheck s p (newValues s id vals) id (nth 0 vals 0).toNat := by
  simp only [fieldWriteCheck, len]
  simp only [List.range_one, firstSome, Nat.add_zero]
  rw [if_neg (by simp)]
  cases fieldCheck s p (newValues s id vals) id (nth 0 vals 0).toNat <;> rfl

section
variable {p j v : Nat} {r : FRow} {new : FName → Nat → Nat} (at_ : fieldAt id = some (r, j)) (rw_ : r.cls ≠ .ro)
include at_ rw_

theorem fieldCheck_foreign (foreign : mayWrite s p r j = false) : fieldCheck s p new id v = some .noPermission := by
  simp [fieldCheck, at_, rw_, firstFail, foreign]

theorem fieldCheck_badValue (mine : mayWrite s p r j = true) (bad : valueOk s new r j v = false) :
    fieldCheck s p new id v = some .badParam := by
  simp [fieldCheck, at_, rw_, firstFail, mine, bad]

theorem fieldCheck_locked (mine : mayWrite s p r j = true) (good : valueOk s new r j v = true) (static : r.cls = .static)
    (on : ownerEnabled s r j = true) : fieldCheck s p new id v = some .refusedLocked := by
  simp [fieldCheck, at_, static, firstFail, mine, good, on]

end

theorem valueOk_mask {new : FName → Nat → Nat} {r : FRow} {j v : Nat} (outside : v &&& r.mask ≠ v) : valueOk s new r j v = false := by
  simp [valueOk, Ne.symm outside]

theorem clearsSketch_plain (h : ∀ k < vals.length, ∃ r j, fieldAt (id + k) = some (r, j) ∧ plainField r) :
    clearsSketch id vals = false := by
  refine List.any_eq_false.mpr (fun k hk => ?_)
  obtain ⟨r, j, at_, stored, _⟩ := h k (List.mem_range.mp hk)
  obtain ⟨row, _, _⟩ := fieldAt_some at_
  have other : r.name ≠ .sketchClear := fun name => absurd (cls_of_name row name) stored
  simp [at_, other]

end

/-- Settles O12: the written fields take their values one by one, each field's effect storing none; a write that a check refuses
ends before it stores anything. -/
theorem fieldWritesAllOrNone : Obligations.FieldWritesAllOrNone := by
  unfold Obligations.FieldWritesAllOrNone
  refine ⟨?values, ?plain, ?refused⟩
  case values =>
    intro c id count vals s ready ok point
    obtain ⟨b, kept, run⟩ := fieldWriteCmd_runs (i := .fieldWrite c id count vals) ready ok point
    have len := length_of_fieldWriteCheck ok
    refine ⟨fieldsWritten c.src.code id vals b, by rw [exec_fieldWrite, run], fun k hk r j at_ => ?_, fun j out => ?_⟩
    · rw [val_fieldsWritten (len ▸ hk) at_, kept.fields]
    · rw [val_fieldsWritten_out (len ▸ out), kept.fields]
  case plain =>
    intro c id count vals s ready ok quiet
    have len := length_of_fieldWriteCheck ok
    have plain : ∀ k < vals.length, ∃ r j, fieldAt (id + k) = some (r, j) ∧ plainField r := by
      intro k hk
      obtain ⟨r, j, at_⟩ := defined_of_fieldWriteCheck ok (len ▸ hk)
      exact ⟨r, j, at_, quiet k (len ▸ hk) r j at_⟩
    obtain ⟨f, act, written⟩ := fieldsWritten_plain (s := beginCmd c 0x031 s) (src := c.src.code) plain
    refine ⟨fieldsWritten c.src.code id vals (beginCmd c 0x031 s), ?_, fun k hk => ?_, fun j out => ?_, ?_, ?_⟩
    · rw [exec_fieldWrite, fieldWriteCmd_acts ready ok (clearsSketch_plain plain)]
    · obtain ⟨r, j, at_, stored, _⟩ := plain k (len ▸ hk)
      rw [val_fieldsWritten (len ▸ hk) at_, if_neg stored]
    · rw [val_fieldsWritten_out (len ▸ out), beginCmd_fields]
    · rw [written]
      simpa using act
    · rw [written]
      rfl
  case refused =>
    intro c id count vals s host
    have early {st : Status} (h : st.early = true) (bad : fieldWriteCheck (beginCmd c 0x031 s) c.part id count vals = some st) :
        exec (.fieldWrite c id count vals) s = .next (finish c st (leBytes 2 0) 0 0 (beginCmd c 0x031 s)) := by
      rw [exec_fieldWrite, fieldWriteCmd_fails host bad, refusal_early h]
    refine ⟨fun bad => early rfl (fieldWriteCheck_badLength bad), fun len one undefined => early rfl ?_,
      fun r j len one at_ rw_ => ⟨fun foreign => early rfl ?_, fun mine outside => early rfl ?_,
        fun mine good static on ready => ?_⟩⟩
    · rw [one, fieldWriteCheck_one len, fieldCheck, undefined]
    · rw [one, fieldWriteCheck_one len, fieldCheck_foreign at_ rw_ foreign]
    · rw [one, fieldWriteCheck_one len, fieldCheck_badValue at_ rw_ mine (valueOk_mask outside)]
    · have locked : fieldWriteCheck (beginCmd c 0x031 s) c.part id count vals = some .refusedLocked := by
        rw [one, fieldWriteCheck_one len, fieldCheck_locked at_ rw_ mine good static on]
      rw [exec_fieldWrite, fieldWriteCmd_fails host locked, refusal_ready (ready_begin.mpr ready)]

end Sys2Proof.Proofs
end

