-- ==== Sys2Proof/Proofs/FieldActs.lean ====
section
/-! PROOF. Fields whose write acts on a block (O13), and the actions and reads of fields (O14). -/

namespace Sys2Proof.Proofs
open Sys2Proof.Machine

variable {s : State}

/-! ### One field -/

theorem fval_of_val {n : FName} {i : Nat} {v : DWord} (h : smFind s.fields.val (fieldId n i) = some v) : s.fval n i = v.toNat := by
  rw [State.fval]
  simp only [fieldId] at h
  rw [h]

theorem fval_congr {t : State} (h : t.fields.val = s.fields.val) (n : FName) (i : Nat) : t.fval n i = s.fval n i := by
  rw [State.fval, State.fval, h]

/-- The state in which a single field is stored: RINSE's walks are settled and the write is noted. -/
theorem noted_eq (src id : Nat) (vals : List DWord) : ∃ w,
    noteWrites src id vals (settleWalks s) = { settleWalks s with fields := { s.fields with wrote := w } } :=
  noteWrites_eq (s := settleWalks s) src id vals

theorem fieldsWritten_one {src id i : Nat} {r : FRow} {v : DWord} (at_ : fieldAt id = some (r, i)) (stored : r.cls ≠ .wo) :
    ∃ w, fieldsWritten src id [v] s = fieldAfter id v.toNat (fieldEffect r i v.toNat (s.fval r.name i)
      ({ settleWalks s with fields := { s.fields with wrote := w } }.setField r.name i v.toNat)) := by
  obtain ⟨w, noted⟩ := noted_eq (s := s) src id [v]
  refine ⟨w, ?_⟩
  simp only [fieldsWritten, fieldsAfter, fieldStoreAll, noted, fieldStore, at_, stored, if_false]
  rfl

/-- A field of a single instance after a write of it alone. -/
theorem fval_fieldsWritten {src i : Nat} {n : FName} {v : DWord} (at_ : fieldAt (fieldId n i) = some (rowOf n, i))
    (stored : (rowOf n).cls ≠ .wo) : (fieldsWritten src (fieldId n i) [v] s).fval n i = v.toNat := by
  refine fval_of_val ?_
  have written := val_fieldsWritten (s := s) (src := src) (id := fieldId n i) (vals := [v]) (k := 0) (by simp) at_
  rw [Nat.add_zero, if_neg stored] at written
  exact written

/-! ### The acting fields -/

theorem part_fieldEffect_partEn (i v old : Nat) :
    ∃ a, fieldEffect (rowOf .partEn) i v old s = { s with fields := { s.fields with act := a } }.modPart i
      (fun p => { p with state := if v = 1 then 2 else 1 }) := by
  have effect : fieldEffect (rowOf .partEn) i v old s = (if v = 1 ∧ old = 0 then s.takeStored .partCmdSeal i else s).modPart i
      (fun p => { p with state := if v = 1 then 2 else 1 }) := rfl
  rw [effect]
  split
  · exact ⟨_, rfl⟩
  · exact ⟨s.fields.act, rfl⟩

theorem enablePort_eq (i : Nat) : ∃ a, enablePort i s = { s with
    fields := { s.fields with act := a }
    intake := if s.intake.repaired.contains i then { s.intake with
        portFault := s.intake.portFault.filter (fun p => decide (p ≠ i))
        repaired := s.intake.repaired.filter (fun p => decide (p ≠ i)) }
      else s.intake } := by
  have first : ∃ a, (if (List.range 32).all (fun p => decide (p = i) || !s.portEn p)
      then (s.takeStored .portMode 0).takeStored .hmpSize 0 else s) = { s with fields := { s.fields with act := a } } := by
    split
    · exact ⟨_, rfl⟩
    · exact ⟨s.fields.act, rfl⟩
  obtain ⟨a, first⟩ := first
  unfold enablePort
  dsimp only
  rw [first]
  split
  · next h =>
    have repaired : s.intake.repaired.contains i = true := h
    exact ⟨_, by rw [if_pos repaired]; rfl⟩
  · next h =>
    have broken : ¬ s.intake.repaired.contains i = true := h
    exact ⟨_, by rw [if_neg broken]; rfl⟩

theorem laserEnable_off (c old : Nat) : laserEnable c 0 old s = s.setLaser c { s.laser c with on := false, locked := false } := rfl

theorem laser_setLaser_self (c : Nat) (x : Laser) : (s.setLaser c x).laser c = x := smGet_smSet_self ..

theorem laser_setLaser_ne {c k : Nat} (x : Laser) (h : k ≠ c) : (s.setLaser c x).laser k = s.laser k := smGet_smSet_ne _ _ _ h

theorem laser_darkLinks (c : Nat) : (darkLinks s).laser c = s.laser c := by
  obtain ⟨_, _, _, _, _, _, _, _, _, h⟩ := darkLinks_frame s
  rw [h]
  rfl

/-- A field that clears no sketch acts at once. -/
theorem clearsSketch_one {id i : Nat} {r : FRow} {v : DWord} (at_ : fieldAt id = some (r, i)) (other : r.name ≠ .sketchClear) :
    clearsSketch id [v] = false := by
  simp [clearsSketch, at_, other]

/-- Settles O13. -/
theorem fieldWriteActs : Obligations.FieldWriteActs := by
  unfold Obligations.FieldWriteActs
  intro c i v s ready
  dsimp only
  refine ⟨fun hi ok => ?part, fun hi ok off on => ?port, fun hi ok zero => ?laser⟩
  case part =>
    have at_ : fieldAt (fieldId .partEn i) = some (rowOf .partEn, i) := fieldAt_fieldId (by show i < 64; omega) (by decide)
    refine ⟨_, by rw [exec_fieldWrite, fieldWriteCmd_acts ready ok (clearsSketch_one at_ (by decide))], ?_, fun q hq => ?_,
      fval_fieldsWritten at_ (by decide)⟩
    all_goals
      obtain ⟨w, written⟩ := fieldsWritten_one (s := beginCmd c 0x031 s) (src := c.src.code) (v := v) at_ (by decide)
      obtain ⟨a, effect⟩ := part_fieldEffect_partEn (s := { settleWalks (beginCmd c 0x031 s) with
        fields := { (beginCmd c 0x031 s).fields with wrote := w } }.setField .partEn i v.toNat) i v.toNat
        ((beginCmd c 0x031 s).fval .partEn i)
      have after (u : State) : fieldAfter (fieldId .partEn i) v.toNat u = u := by simp [fieldAfter, at_, rowOf]
      rw [rowOf_name, after] at written
      rw [written, effect]
    · rw [part_modPart_self]
      have one : v.toNat = 1 ↔ v = 1 := ⟨fun e => BitVec.eq_of_toNat_eq e, fun e => by rw [e]; rfl⟩
      simp [one]
    · rw [part_modPart_ne _ hq]
      rfl
  case port =>
    have at_ : fieldAt (fieldId .portEn i) = some (rowOf .portEn, i) := fieldAt_fieldId (by show i < 32; omega) (by decide)
    subst on
    refine ⟨_, by rw [exec_fieldWrite, fieldWriteCmd_acts ready ok (clearsSketch_one at_ (by decide))], ?_⟩
    have enabled := fval_fieldsWritten (s := beginCmd c 0x031 s) (src := c.src.code) (v := 1) at_ (by decide)
    obtain ⟨w, written⟩ := fieldsWritten_one (s := beginCmd c 0x031 s) (src := c.src.code) (v := 1) at_ (by decide)
    have old : (beginCmd c 0x031 s).fval .portEn i = 0 := (fval_congr (s := s) (by simp) .portEn i).trans off
    have effect (u : State) : fieldEffect (rowOf .portEn) i (1 : DWord).toNat 0 u = enablePort i u := rfl
    have after (u : State) : fieldAfter (fieldId .portEn i) (1 : DWord).toNat u = u := by simp [fieldAfter, at_, rowOf]
    obtain ⟨a, port⟩ := enablePort_eq (s := { settleWalks (beginCmd c 0x031 s) with
        fields := { (beginCmd c 0x031 s).fields with wrote := w } }.setField .portEn i (1 : DWord).toNat) i
    rw [rowOf_name, old, effect, after, port] at written
    have intake : (fieldsWritten c.src.code (fieldId .portEn i) [1] (beginCmd c 0x031 s)).intake =
        if s.intake.repaired.contains i then { s.intake with
          portFault := s.intake.portFault.filter (fun p => decide (p ≠ i))
          repaired := s.intake.repaired.filter (fun p => decide (p ≠ i)) }
        else s.intake := by
      have kept : (beginCmd c 0x031 s).intake = s.intake := beginCmd_intake ..
      rw [written, ← kept]
      rfl
    refine ⟨by rw [State.portEn, enabled]; rfl, fun repaired => ?_, fun broken => ?_, ?_⟩
    · rw [intake, if_pos (List.contains_iff_mem.2 repaired)]
      simp
    · rw [intake, if_neg (fun h => broken (List.contains_iff_mem.1 h))]
    · rw [intake]
      split <;> rfl
  case laser =>
    have at_ : fieldAt (fieldId .lsrEn i) = some (rowOf .lsrEn, i) := fieldAt_fieldId (by show i < 4; omega) (by decide)
    subst zero
    refine ⟨_, by rw [exec_fieldWrite, fieldWriteCmd_acts ready ok (clearsSketch_one at_ (by decide))], ?_⟩
    obtain ⟨w, written⟩ := fieldsWritten_one (s := beginCmd c 0x031 s) (src := c.src.code) (v := 0) at_ (by decide)
    have effect (u : State) (old : Nat) : fieldEffect (rowOf .lsrEn) i (0 : DWord).toNat old u = laserEnable i 0 old u := rfl
    have after (u : State) : fieldAfter (fieldId .lsrEn i) (0 : DWord).toNat u = darkLinks u := by simp [fieldAfter, at_, rowOf]
    rw [effect, after, laserEnable_off] at written
    have kept (j : Nat) : ({ settleWalks (beginCmd c 0x031 s) with
        fields := { (beginCmd c 0x031 s).fields with wrote := w } }.setField (rowOf .lsrEn).name i (0 : DWord).toNat).laser j
          = s.laser j := by
      have sys : (beginCmd c 0x031 s).sys = s.sys := beginCmd_sys ..
      show smGet {} (beginCmd c 0x031 s).sys.lasers j = smGet {} s.sys.lasers j
      rw [sys]
    refine ⟨?_, ?_, fun j hj => ?_⟩
    · rw [written, laser_darkLinks, laser_setLaser_self]
    · rw [written, laser_darkLinks, laser_setLaser_self]
    · rw [written, laser_darkLinks, laser_setLaser_ne _ hj, kept]

theorem now_of_kept {t : State} (h : Kept s t) : t.now = s.now := by rw [State.now, State.now, h.clk]

/-! ### Sparse maps under a filter and under a map that keeps the keys -/

theorem smFind_filter {α : Type} (m : SMap α) (p : Nat → Bool) (k : Nat) :
    smFind (m.filter (fun e => p e.1)) k = if p k then smFind m k else none := by
  induction m with
  | nil => simp [smFind]
  | cons e m ih =>
    obtain ⟨a, v⟩ := e
    by_cases here : a = k
    · subst here
      cases keep : p a <;> simp [List.filter_cons, keep, smFind, ih]
    · cases keep : p a <;> simp [List.filter_cons, keep, smFind, ih, here]

theorem smFind_map {α β : Type} (m : SMap α) (f : Nat × α → Nat × β) (keys : ∀ e, (f e).1 = e.1) (k : Nat) :
    smFind (m.map f) k = (smFind m k).map (fun v => (f (k, v)).2) := by
  induction m with
  | nil => rfl
  | cons e m ih =>
    obtain ⟨a, v⟩ := e
    rw [List.map_cons, show f (a, v) = (a, (f (a, v)).2) from Prod.ext (keys _) rfl]
    by_cases here : a = k
    · subst here
      simp [smFind]
    · simp [smFind, here, ih]

/-- Settling the walks of RINSE changes a slot in its walk alone. -/
theorem slot_settleWalks (n : Nat) : ∃ w, (settleWalks s).slot n = { s.slot n with wipe := w } := by
  have found := smFind_map s.slots (fun e => match e.2.wipe with
    | some w => (e.1, { e.2 with wipe := some { w with done := wipeDone s e.2, mark := s.now } })
    | none => e) (fun e => by dsimp only; split <;> rfl) n
  have read : (settleWalks s).slot n = (smFind (settleWalks s).slots n).getD {} := rfl
  have read' : s.slot n = (smFind s.slots n).getD {} := rfl
  rw [read, read', show smFind (settleWalks s).slots n = _ from found]
  cases smFind s.slots n with
  | none => exact ⟨_, rfl⟩
  | some x =>
    dsimp only [Option.map_some, Option.getD_some]
    split
    · exact ⟨_, rfl⟩
    · exact ⟨x.wipe, rfl⟩

theorem slots_settleWalks {b : State} (kept : Kept s b) : (settleWalks b).slots = (settleWalks s).slots := by
  have since (m : DWord) : walkSince b m = walkSince s m := by
    rw [walkSince, walkSince, show walkCount b = walkCount s by simp [walkCount, walks, wipes, kept.regions, kept.slots],
      fval_congr (s := s) (by rw [kept.fields]), State.now, State.now, kept.clk]
  have done (x : Slot) : wipeDone b x = wipeDone s x := by
    unfold wipeDone
    split
    · rw [since]
    · rfl
  simp only [settleWalks, kept.slots, done, State.now, kept.clk]

/-! ### SKETCH_CLEAR -/

theorem sketch_key {die k r i : Nat} (hr : r ≤ 3) (hi : i < 65536) (hk : k ≤ 3) : sketchKeyOf die k r i / (4 * 65536) % 4 = k := by
  simp only [sketchKeyOf]
  omega

theorem sketch_clearSketch {die j k r i : Nat} (hj : j ≤ 3) (hr : r ≤ 3) (hi : i < 65536) :
    smGet 0 (clearSketch k s).flow.sketch (sketchKeyOf die j r i) =
      if j = k then 0 else smGet 0 s.flow.sketch (sketchKeyOf die j r i) := by
  have found := smFind_filter s.flow.sketch (fun key => decide (key / (4 * 65536) % 4 ≠ k)) (sketchKeyOf die j r i)
  rw [sketch_key hr hi hj] at found
  have cleared : (clearSketch k s).flow.sketch = s.flow.sketch.filter (fun e => decide (e.1 / (4 * 65536) % 4 ≠ k)) := rfl
  rw [smGet, cleared, found]
  by_cases same : j = k <;> simp [same, smGet]

theorem sketchCount_clearSketch {j k r i : Nat} (hj : j ≤ 3) (hr : r ≤ 3) (hi : i < 65536) :
    sketchCount (clearSketch k s) j r i = if j = k then 0 else sketchCount s j r i := by
  rw [sketchCount, sketchCount, sketch_clearSketch hj hr hi, sketch_clearSketch hj hr hi]
  split <;> rfl

theorem sketchCount_congr {t : State} (h : t.flow.sketch = s.flow.sketch) (k r i : Nat) : sketchCount t k r i = sketchCount s k r i := by
  rw [sketchCount, sketchCount, h]

/-- A WO field keeps no value: its write is not noted, and only its effect and what it sets going remain. -/
theorem fieldsWritten_wo {src id i : Nat} {r : FRow} {v : DWord} (at_ : fieldAt id = some (r, i)) (wo : r.cls = .wo) :
    fieldsWritten src id [v] s = fieldAfter id v.toNat (fieldEffect r i v.toNat (s.fval r.name i) (settleWalks s)) := by
  simp only [fieldsWritten, fieldsAfter, fieldStoreAll, noteWrites, fieldStore, at_, wo, if_true]
  rfl

theorem fieldsWritten_sketchClear {src k : Nat} {v : DWord} (hk : k ≤ 3) :
    fieldsWritten src (0x1b10 + k) [v] s = if v = 1 then clearSketch k (settleWalks s) else settleWalks s := by
  have at_ : fieldAt (0x1b10 + k) = some (rowOf .sketchClear, k) :=
    fieldAt_fieldId (n := .sketchClear) (by show k < 4; omega) (by decide)
  have one : v.toNat = 1 ↔ v = 1 := ⟨fun e => BitVec.eq_of_toNat_eq e, fun e => by rw [e]; rfl⟩
  rw [fieldsWritten_wo at_ rfl]
  simp [fieldAfter, at_, fieldEffect, rowOf, one]

theorem exec_sketchClear_acts {c : CmdCtx} {k : Nat} {v : DWord} (ready : Ready 0x031 s) (path : PathEmpty s) (fresh : Fresh c s)
    (hk : k ≤ 3) (ok : fieldWriteCheck (beginCmd c 0x031 s) c.part (0x1b10 + k) 1 [v] = none) :
    ∃ b, Kept s b ∧ b.egr = s.egr ∧ exec (.sketchClear c k v) s = .next (finish c .ok (leBytes 2 1) s.now 0
      (if v = 1 then clearSketch k (settleWalks b) else settleWalks b)) := by
  have exec_eq : exec (.sketchClear c k v) s = .next (fieldWriteCmd c (.sketchClear c k v) (0x1b10 + k) 1 [v] s) := rfl
  rw [exec_eq]
  cases clears : clearsSketch (0x1b10 + k) [v] with
  | false => exact ⟨_, beginCmd_kept .., by simp, by rw [fieldWriteCmd_acts ready ok clears, fieldsWritten_sketchClear hk]⟩
  | true =>
    exact ⟨_, begun_kept .., by simp, by rw [fieldWriteCmd_clears ready ok clears path fresh, fieldsWritten_sketchClear hk]⟩

theorem sketchClear_clears {c : CmdCtx} {k : Nat} {v : DWord} (ready : Ready 0x031 s) (path : PathEmpty s) (fresh : Fresh c s)
    (hk : k ≤ 3) (ok : fieldWriteCheck (beginCmd c 0x031 s) c.part (0x1b10 + k) 1 [v] = none) :
    ∃ u, exec (.sketchClear c k v) s = .next (finish c .ok (leBytes 2 1) s.now 0 u) ∧
       (∀ r i, r ≤ 3 → i < 65536 → sketchCount u k r i = if v = 1 then 0 else sketchCount s k r i) ∧
       (∀ j r i, j ≤ 3 → j ≠ k → r ≤ 3 → i < 65536 → sketchCount u j r i = sketchCount s j r i) ∧
       u.fields = s.fields ∧ u.tabs = s.tabs ∧ u.slots = (settleWalks s).slots ∧ u.tiles = s.tiles ∧ u.egr = s.egr := by
  obtain ⟨b, kept, egr, runs⟩ := exec_sketchClear_acts ready path fresh hk ok
  have same (j r i : Nat) : sketchCount (settleWalks b) j r i = sketchCount s j r i :=
    sketchCount_congr (congrArg (·.sketch) kept.flow) j r i
  have slots := slots_settleWalks kept
  refine ⟨_, runs, ?_⟩
  by_cases one : v = 1
  · simp only [if_pos one]
    refine ⟨fun r i hr hi => ?_, fun j r i hj ne hr hi => ?_, kept.fields, kept.tabs, slots, kept.tiles, egr⟩
    · rw [sketchCount_clearSketch hk hr hi, if_pos rfl]
    · rw [sketchCount_clearSketch hj hr hi, if_neg ne, same]
  · simp only [if_neg one]
    exact ⟨fun r i _ _ => same k r i, fun j r i _ _ _ _ => same j r i, kept.fields, kept.tabs, slots, kept.tiles, egr⟩

/-! ### WK_THR_SET -/

theorem thrBounds_wipe (x : Slot) (w : Option Wipe) : thrBounds { x with wipe := w } = thrBounds x := rfl

/-- The end of a period changes the slot's threshold and nothing else. -/
theorem thresholdPeriod_eq (n : Nat) :
    thresholdPeriod n s = s ∨ ∃ t, thresholdPeriod n s = s.setSlot n { s.slot n with thr := t } := by
  unfold thresholdPeriod
  dsimp only
  split
  · split
    · exact .inl rfl
    · exact .inr ⟨_, rfl⟩
  · exact .inl rfl

theorem slot_thresholdPeriod_self (n : Nat) : ∃ t, (thresholdPeriod n s).slot n = { s.slot n with thr := t } := by
  obtain same | ⟨t, moved⟩ := thresholdPeriod_eq (s := s) n
  · exact ⟨(s.slot n).thr, by rw [same]⟩
  · exact ⟨t, by rw [moved, slot_setSlot_self]⟩

theorem slot_thresholdPeriod_ne {n m : Nat} (h : m ≠ n) : (thresholdPeriod n s).slot m = s.slot m := by
  obtain same | ⟨t, moved⟩ := thresholdPeriod_eq (s := s) n
  · rw [same]
  · rw [moved, slot_setSlot_ne _ h]

theorem now_thresholdPeriod (n : Nat) : (thresholdPeriod n s).now = s.now := by
  obtain same | ⟨t, moved⟩ := thresholdPeriod_eq (s := s) n
  · rw [same]
  · rw [moved]
    rfl

theorem setTheta_slots {n : Nat} {v lo hi : Int} {step : Nat} (bounds : thrBounds (s.slot n) = some (lo, hi, step)) :
    ∃ t, t.theta = clampI v lo hi ∧ t.step = step ∧ t.dir = 0 ∧ t.n = 0 ∧ t.a = 0 ∧ t.since = s.now ∧
      (setTheta n v s).slot n = { s.slot n with thr := t } ∧ ∀ m, m ≠ n → (setTheta n v s).slot m = s.slot m := by
  obtain ⟨t, period⟩ := slot_thresholdPeriod_self (s := s) n
  have bounds' : thrBounds ((thresholdPeriod n s).slot n) = some (lo, hi, step) := by rw [period]; exact bounds
  simp only [setTheta, bounds']
  refine ⟨{ ((thresholdPeriod n s).slot n).thr with
    theta := clampI v lo hi, step := step, dir := 0, n := 0, a := 0, since := (thresholdPeriod n s).now
    period := (thresholdPeriod n s).fval .wkThrPeriod n }, rfl, rfl, rfl, rfl, rfl, now_thresholdPeriod n, ?_, fun m h => ?_⟩
  · rw [State.modSlot, slot_setSlot_self, period]
  · rw [State.modSlot, slot_setSlot_ne _ h, slot_thresholdPeriod_ne h]

theorem fieldsWritten_wkThrSet {src n : Nat} {v : DWord} (hn : n ≤ 255) :
    fieldsWritten src (0x2000 + n) [v] s = setTheta n (sxNat 64 v.toNat) (settleWalks s) := by
  have at_ : fieldAt (0x2000 + n) = some (rowOf .wkThrSet, n) :=
    fieldAt_fieldId (n := .wkThrSet) (by show n < 256; omega) (by decide)
  rw [fieldsWritten_wo at_ rfl]
  simp [fieldAfter, at_, fieldEffect, rowOf]

theorem wkThrSet_sets {c : CmdCtx} {n : Nat} {v : DWord} {lo hi : Int} {step : Nat} (ready : Ready 0x031 s) (hn : n ≤ 255)
    (ok : fieldWriteCheck (beginCmd c 0x031 s) c.part (0x2000 + n) 1 [v] = none) (bounds : thrBounds (s.slot n) = some (lo, hi, step)) :
    ∃ u, exec (.wkThrSet c n v) s = .next (finish c .ok (leBytes 2 1) s.now 0 u) ∧
       (u.slot n).thr.theta = clampI (sxNat 64 v.toNat) lo hi ∧ (u.slot n).thr.n = 0 ∧ (u.slot n).thr.a = 0 ∧
       (u.slot n).thr.dir = 0 ∧ (u.slot n).thr.step = step ∧ (u.slot n).thr.since = s.now ∧
       (u.slot n).ens = (s.slot n).ens ∧ (∀ m, m ≠ n → u.slot m = (settleWalks s).slot m) ∧ u.fields = s.fields := by
  have exec_eq : exec (.wkThrSet c n v) s = .next (fieldWriteCmd c (.wkThrSet c n v) (0x2000 + n) 1 [v] s) := rfl
  have at_ : fieldAt (0x2000 + n) = some (rowOf .wkThrSet, n) :=
    fieldAt_fieldId (n := .wkThrSet) (by show n < 256; omega) (by decide)
  have kept := beginCmd_kept c 0x031 s
  have slots : (settleWalks (beginCmd c 0x031 s)).slots = (settleWalks s).slots := slots_settleWalks kept
  have slot (m : Nat) : (settleWalks (beginCmd c 0x031 s)).slot m = (settleWalks s).slot m := by rw [State.slot, State.slot, slots]
  obtain ⟨w, settled⟩ := slot_settleWalks (s := s) n
  obtain ⟨t, theta, hstep, dir, hn0, ha0, since, self, others⟩ :=
    setTheta_slots (s := settleWalks (beginCmd c 0x031 s)) (n := n) (v := sxNat 64 v.toNat) (lo := lo) (hi := hi) (step := step)
      (by rw [slot, settled]; exact bounds)
  refine ⟨_, by rw [exec_eq, fieldWriteCmd_acts ready ok (clearsSketch_one at_ (by decide)), fieldsWritten_wkThrSet hn], ?_⟩
  have begins := now_of_kept kept
  have now : (settleWalks (beginCmd c 0x031 s)).now = s.now := begins
  rw [self, slot, settled]
  refine ⟨theta, hn0, ha0, dir, hstep, since.trans now, rfl, fun m h => (others m h).trans (slot m), ?_⟩
  rw [setTheta_fields]
  exact kept.fields

/-! ### FIELD_READ -/

theorem drop_flatMap_chunk {α : Type} (f : Nat → List α) {w : Nat} (len : ∀ k, (f k).length = w) (count : Nat) (first : Nat) {k : Nat}
    (hk : k < count) : (((List.range' first count).flatMap f).drop (w * k)).take w = f (first + k) := by
  induction count generalizing first k with
  | zero => omega
  | succ count ih =>
    rw [List.range'_succ, List.flatMap_cons]
    cases k with
    | zero => simp [← len first]
    | succ k =>
      have beyond : w * (k + 1) = (f first).length + w * k := by rw [len, Nat.mul_succ, Nat.add_comm]
      rw [beyond, List.drop_append, List.drop_eq_nil_of_le (by omega), List.nil_append, Nat.add_sub_cancel_left, ih (first + 1) (by omega)]
      congr 1
      omega

theorem fieldValues_at {src id count k : Nat} (hk : k < count) : ((fieldValues s src id count).drop (8 * k)).take 8 =
    leBytes 8 (match fieldAt (id + k) with | some (r, i) => s.readFieldBy src r i | none => 0) := by
  have chunk := drop_flatMap_chunk (fun k => leBytes 8 (match fieldAt (id + k) with
    | some (r, i) => s.readFieldBy src r i | none => 0)) (w := 8) (fun _ => leBytes_length ..) count 0 hk
  rw [← List.range_eq_range', Nat.zero_add] at chunk
  exact chunk

theorem length_fieldValues (src id count : Nat) : (fieldValues s src id count).length = 8 * count := by
  rw [fieldValues, length_flatMap_const (n := 8) (fun _ => leBytes_length ..), List.length_range]

/-- The names of the fields that report a state; all of them are RO. -/
theorem readField_stored {r : FRow} {i : Nat} (row : rowOf r.name = r) (notRo : r.cls ≠ .ro) :
    s.readField r i = if r.cls = .wo then 0 else s.fval r.name i := by
  unfold State.readField
  split
  case h_9 => rfl
  all_goals next name => exact absurd (cls_of_name row name) notRo

theorem readFieldBy_wo {r : FRow} {src i : Nat} (row : rowOf r.name = r) (wo : r.cls = .wo) : s.readFieldBy src r i = 0 := by
  have read : s.readField r i = 0 := by rw [readField_stored row (by rw [wo]; decide), if_pos wo]
  unfold State.readFieldBy
  split
  · rw [if_neg (by simp [wo]), read]
  · exact read

theorem readFieldBy_stored {r : FRow} {src i : Nat} (row : rowOf r.name = r) (notWo : r.cls ≠ .wo) (notRo : r.cls ≠ .ro) :
    (smFind s.fields.wrote (r.base + i) = none → s.readFieldBy src r i = s.fval r.name i) ∧
    ∀ t o v, smFind s.fields.wrote (r.base + i) = some (t, o, v) →
      s.readFieldBy src r i = if t = s.clk.pk ∧ o ≠ src then v.toNat else s.fval r.name i := by
  have read : s.readField r i = s.fval r.name i := by rw [readField_stored row notRo, if_neg notWo]
  refine ⟨fun unwritten => ?_, fun t o v written => ?_⟩
  · simp [State.readFieldBy, unwritten, read]
  · simp [State.readFieldBy, written, read, notWo, notRo]

/-- Settles O14. -/
theorem fieldActionsAndReads : Obligations.FieldActionsAndReads := by
  unfold Obligations.FieldActionsAndReads
  refine ⟨⟨fun c k v s ready path fresh hk ok => sketchClear_clears ready path fresh hk ok,
    fun c n v s lo hi step ready hn ok bounds => wkThrSet_sets ready hn ok bounds⟩, fun c id count s ready ok => ?_⟩
  have kept := beginCmd_kept c 0x030 s
  refine ⟨fieldValues (beginCmd c 0x030 s) c.src.code id count, ?_, length_fieldValues .., fun k hk r i at_ => ?_⟩
  · rw [exec_fieldRead, execFieldRead, runCmd_ready ready ok]
    rw [now_of_kept kept]
  · obtain ⟨row, place, _⟩ := fieldAt_some at_
    rw [fieldValues_at hk]
    simp only [at_]
    refine ⟨fun wo => by rw [readFieldBy_wo row wo]; rfl, fun notWo notRo => ?_⟩
    obtain ⟨unwritten, written⟩ := readFieldBy_stored (s := beginCmd c 0x030 s) (src := c.src.code) (i := i) row notWo notRo
    rw [kept.fields, show r.base + i = id + k by rw [← place, fieldId, row], fval_congr (s := s) (by rw [kept.fields])] at unwritten written
    rw [kept.clk] at written
    exact ⟨fun h => by rw [unwritten h], fun t o v h => by rw [written t o v h]⟩

end Sys2Proof.Proofs
end

