-- ==== Sys2Proof/Proofs/Tables.lean ====
section
/-! PROOF. Writes and deletes of table entries (O15) and the states of a table's banks (O17). -/

namespace Sys2Proof.Proofs
open Sys2Proof.Machine

variable {s : State}

/-! ### What a lookup of a key depends on -/

/-- An entry is that of a key of a table and partition, and a bank holds it. -/
def isKey (t p : Nat) (key : Bytes) (b : Nat) (e : TEntry) : Bool :=
  decide (e.table = t) && decide (e.part = p) && e.inBank b && e.key == key

theorem isKey_iff {t p b : Nat} {key : Bytes} {e : TEntry} :
    isKey t p key b e = true ↔ e.table = t ∧ e.part = p ∧ e.inBank b = true ∧ e.key = key := by
  simp [isKey, and_assoc]

theorem tfind_eq (t p : Nat) (key : Bytes) (b : Nat) : s.tfind t p key b = (s.tabs.entries.find? (isKey t p key b)).map
    (fun e => ((s.oldCopies t).filter (fun c => decide (c.content = e.content))).foldl newerCopy e) := rfl

theorem isKey_content (t p : Nat) (key : Bytes) (b : Nat) (e : TEntry) : isKey t p key b e.content = isKey t p key b e := rfl

theorem newerCopies_content (l : List TEntry) (e : TEntry) (h : ∀ c ∈ l, c.content = e.content) :
    (l.foldl newerCopy e).content = e.content := by
  induction l generalizing e with
  | nil => rfl
  | cons c l ih =>
    have next : (newerCopy e c).content = e.content := by
      unfold newerCopy
      split
      · exact h c (by simp)
      · rfl
    rw [List.foldl_cons, ih _ (fun d hd => by rw [next]; exact h d (by simp [hd])), next]

/-- The copies of an entry that is being relocated have its content, so what a lookup finds has the content of the first entry
of its key. -/
theorem tfind_content (t p : Nat) (key : Bytes) (b : Nat) :
    (s.tfind t p key b).map TEntry.content = (s.tabs.entries.map TEntry.content).find? (isKey t p key b) := by
  rw [tfind_eq, Option.map_map, List.find?_map]
  refine congrFun (congrArg Option.map (funext fun e => ?_)) _
  exact newerCopies_content _ e (fun c hc => by simpa using (List.mem_filter.mp hc).2)

theorem tfind_action (t p : Nat) (key : Bytes) (b : Nat) :
    (s.tfind t p key b).map (·.action) = (s.tabs.entries.find? (isKey t p key b)).map (·.action) := by
  have content := tfind_content (s := s) t p key b
  rw [List.find?_map] at content
  have actions := congrArg (Option.map (·.action)) content
  rwa [Option.map_map, Option.map_map] at actions

theorem tfind_none {t p b : Nat} {key : Bytes} (h : ∀ e ∈ s.tabs.entries, isKey t p key b e = false) : s.tfind t p key b = none := by
  rw [tfind_eq, List.find?_eq_none.mpr (fun e he => by simp [h e he])]
  rfl

theorem tfind_setEntries {l : List TEntry} {t p b : Nat} {key : Bytes}
    (same : l.find? (isKey t p key b) = s.tabs.entries.find? (isKey t p key b)) :
    (s.setEntries l).tfind t p key b = s.tfind t p key b := by
  have copies : (s.setEntries l).oldCopies t = s.oldCopies t := rfl
  rw [tfind_eq, tfind_eq, copies]
  exact congrArg _ same

/-- A change of entries and a removal of dead ones that leave a key's entries as they are leave what is found of the key. -/
theorem find?_filter_map {α : Type} {l : List α} {f : α → α} {live is : α → Bool} (kept : ∀ e, is e = true → f e = e ∧ live e = true)
    (apart : ∀ e, is e = false → is (f e) = false) : ((l.map f).filter live).find? is = l.find? is := by
  induction l with
  | nil => rfl
  | cons e l ih =>
    cases h : is e with
    | true =>
      obtain ⟨same, alive⟩ := kept e h
      simp [List.filter_cons, same, alive, h]
    | false =>
      have gone := apart e h
      cases alive : live (f e) <;> simp [List.filter_cons, alive, gone, h, ih]

/-! ### Removing entries from banks -/

theorem without_inBank_zero (e : TEntry) (b : Banks) : (e.without b).inBank 0 = (e.inBank 0 && !b.b0) := rfl
theorem without_inBank_one (e : TEntry) (b : Banks) : (e.without b).inBank 1 = (e.inBank 1 && !b.b1) := rfl

theorem live_of_inBank {e : TEntry} {b : Nat} (h : e.inBank b = true) : e.live = true := by
  unfold TEntry.inBank at h
  split at h <;> simp [TEntry.live, h]

/-- The entries that a removal from banks leaves. -/
def without (mine : TEntry → Bool) (b : Banks) (l : List TEntry) : List TEntry :=
  (l.map (fun e => if mine e then e.without b else e)).filter TEntry.live

theorem find?_without_other {mine : TEntry → Bool} {t p x : Nat} {key : Bytes} (b : Banks) (l : List TEntry)
    (other : ∀ e, mine e = true → ¬ (e.table = t ∧ e.part = p ∧ e.key = key)) :
    (without mine b l).find? (isKey t p key x) = l.find? (isKey t p key x) := by
  refine find?_filter_map (fun e is => ?_) (fun e is => ?_)
  · obtain ⟨ht, hp, hb, hk⟩ := isKey_iff.mp is
    have not_mine : ¬ mine e = true := fun h => other e h ⟨ht, hp, hk⟩
    exact ⟨if_neg not_mine, live_of_inBank hb⟩
  · split
    · next h => exact Bool.eq_false_iff.mpr (fun is' => other e h (by
        obtain ⟨ht, hp, _, hk⟩ := isKey_iff.mp is'
        exact ⟨ht, hp, hk⟩))
    · exact is

/-- A bank from which entries were removed holds none of them. -/
theorem isKey_without {mine : TEntry → Bool} {t p x : Nat} {key : Bytes} {b : Banks} {l : List TEntry}
    (all : ∀ e, e.table = t → e.part = p → e.key = key → mine e = true) (emptied : ∀ e : TEntry, (e.without b).inBank x = false) :
    ∀ e ∈ without mine b l, isKey t p key x e = false := by
  intro e he
  obtain ⟨o, _, rfl⟩ := List.mem_map.mp (List.mem_filter.mp he).1
  refine Bool.eq_false_iff.mpr (fun is => ?_)
  obtain ⟨ht, hp, hb, hk⟩ := isKey_iff.mp is
  have was : mine o = true := by
    refine Classical.byContradiction fun not_mine => ?_
    rw [if_neg not_mine] at ht hp hk
    exact not_mine (all o ht hp hk)
  rw [if_pos was, emptied] at hb
  cases hb

theorem sameKey_iff {t p : Nat} {key : Bytes} {e : TEntry} : sameKey t p key e = true ↔ e.table = t ∧ e.part = p ∧ e.key = key := by
  simp [sameKey, and_assoc]

theorem removeKey_eq (t p : Nat) (key : Bytes) (b : Banks) (s : State) :
    (removeKey t p key b s).2 = s.setEntries (without (sameKey t p key) b s.tabs.entries) := rfl

theorem removeKey_removes (t p : Nat) (key : Bytes) (b : Banks) (s : State) :
    (b.b0 = true → (removeKey t p key b s).2.tfind t p key 0 = none) ∧ (b.b1 = true → (removeKey t p key b s).2.tfind t p key 1 = none) ∧
      ∀ t' p' k x, (t' ≠ t ∨ p' ≠ p ∨ k ≠ key) → (removeKey t p key b s).2.tfind t' p' k x = s.tfind t' p' k x := by
  have all (e : TEntry) (ht : e.table = t) (hp : e.part = p) (hk : e.key = key) : sameKey t p key e = true := sameKey_iff.mpr ⟨ht, hp, hk⟩
  rw [removeKey_eq]
  refine ⟨fun h => tfind_none (isKey_without all (fun e => by rw [without_inBank_zero, h]; simp)),
    fun h => tfind_none (isKey_without all (fun e => by rw [without_inBank_one, h]; simp)), fun t' p' k x other => ?_⟩
  refine tfind_setEntries (find?_without_other b _ (fun e mine same => ?_))
  obtain ⟨ht, hp, hk⟩ := sameKey_iff.mp mine
  obtain ⟨ht', hp', hk'⟩ := same
  obtain h | h | h := other
  · exact h (ht'.symm.trans ht)
  · exact h (hp'.symm.trans hp)
  · exact h (hk'.symm.trans hk)

theorem emptyBank_eq (t p : Nat) (b : Banks) (s : State) : (emptyBank t p b s).2 = s.setEntries (without (fun e => decide (e.part = p) &&
    (decide (e.table = t) || (decide (t = 5) && decide (e.table = 4)))) b s.tabs.entries) := rfl

theorem emptyBank_empties {t p x : Nat} {b : Banks} (emptied : ∀ e : TEntry, (e.without b).inBank x = false) (key : Bytes) :
    (emptyBank t p b s).2.tfind t p key x = none := by
  rw [emptyBank_eq]
  exact tfind_none (isKey_without (fun e ht hp _ => by simp [ht, hp]) emptied)

theorem emptyBank_other {t p q : Nat} (b : Banks) (h : q ≠ p) (y : Nat) (key : Bytes) (x : Nat) :
    (emptyBank t p b s).2.tfind y q key x = s.tfind y q key x := by
  rw [emptyBank_eq]
  refine tfind_setEntries (find?_without_other b _ (fun e mine same => ?_))
  simp only [Bool.and_eq_true, decide_eq_true_eq] at mine
  exact h (same.2.1.symm.trans mine.1)

/-! ### A batch reaches its point and its target -/

theorem writeTarget_congr {u : State} (h : u.tabs = s.tabs) (c : CmdCtx) (t bank : Nat) : writeTarget c t bank u = writeTarget c t bank s := by
  unfold writeTarget State.activeBank State.bankState comparing
  rw [h]

theorem oldCopies_congr {u : State} (h : Kept s u) (t : Nat) : u.oldCopies t = s.oldCopies t := by
  rw [State.oldCopies, State.oldCopies, h.tabs, h.clk]

theorem onTarget_acts {c : CmdCtx} {i : Instr} {opc t bank count : Nat} {x : Batch} {del : Bool} {work : Banks → DWord → State → State}
    {b : Banks} (path : PathEmpty s) (fresh : Fresh c s) (target : writeTarget c t bank s = .banks b)
    (still : batchMoves c t count x del (begun c opc s) = false) :
    onTarget c i t bank count x del work (beginCmd c opc s) = work b s.now (begun c opc s) := by
  unfold onTarget
  rw [atPoint_begin path fresh]
  simp only [writeTarget_congr (begun_kept c opc s).tabs, target, still]
  rfl

theorem batchMoves_of_still {c : CmdCtx} {t count opc : Nat} {x : Batch} {del : Bool} (still : s.oldCopies t = []) :
    batchMoves c t count x del (begun c opc s) = false := by
  simp [batchMoves, oldCopies_congr (begun_kept c opc s), still]

theorem writeBatch_all {c : CmdCtx} {t g count : Nat} {x : Batch} {b : Banks} {at_ : DWord} :
    let a := batchBytes c x (areaSize t count false) s
    let w := putAll t c.part g b (records (recSize t) count a.1) a.2
    (w.1 = none → writeBatch c t g count x b at_ s = finish c .ok (leBytes 4 count) at_ 0 w.2) ∧
    ∀ st, w.1 = some st → writeBatch c t g count x b at_ s = finish c st (leBytes 4 0) at_ 0 { a.2 with free := w.2.free } := by
  intro a w
  have split_ : w = (w.1, w.2) := rfl
  refine ⟨fun done => ?_, fun st failed => ?_⟩
  · rw [done] at split_
    show (match w with | (none, s') => _ | (some st, s') => _) = _
    rw [split_]
  · rw [failed] at split_
    show (match w with | (none, s') => _ | (some st, s') => _) = _
    rw [split_]
    rfl

theorem deleteBatch_all {c : CmdCtx} {t count : Nat} {x : Batch} {b : Banks} {at_ : DWord} :
    let a := batchBytes c x (areaSize t count true) s
    let w := delAll t c.part b (records (if t = 4 then 4 else delSize t) count a.1) 0 a.2
    ¬ (t = 4 ∧ count % 2 = 1 ∧ (!rsvZero a.1 (4 * count) 4) = true) →
    (w.1 = none → deleteBatch c t count x b at_ s = finish c .ok (leBytes 4 w.2.1) at_ 0 w.2.2) ∧
    ∀ st, w.1 = some st → deleteBatch c t count x b at_ s = finish c st (leBytes 4 0) at_ 0 a.2 := by
  intro a w reserved
  have runs : deleteBatch c t count x b at_ s = (match w with
    | (none, n, s') => finish c .ok (leBytes 4 n) at_ 0 s'
    | (some st, _, _) => finish c st (leBytes 4 0) at_ 0 a.2) := if_neg reserved
  refine ⟨fun done => ?_, fun st failed => ?_⟩
  · rw [runs, show w = (none, w.2.1, w.2.2) from Prod.ext done rfl]
  · rw [runs, show w = (some st, w.2.1, w.2.2) from Prod.ext failed rfl]

/-- A rule's delete record is never refused. -/
theorem delAll_rules (p : Nat) (b : Banks) (l : List Bytes) (n : Nat) (s : State) : (delAll 4 p b l n s).1 = none := by
  induction l generalizing n s with
  | nil => rfl
  | cons r l ih => exact ih ..

theorem batchCheck_params {c : CmdCtx} {t bank count : Nat} {x : Batch} {del ok : Bool}
    (passes : batchCheck c t bank count x del ok s = none) : ok = true := by
  unfold batchCheck at passes
  cases ok with
  | true => rfl
  | false =>
    simp only [firstFail_cons, Bool.false_and, Bool.not_false, Bool.true_or, if_true] at passes
    split at passes
    · cases passes
    all_goals next refused => split at refused <;> cases refused

theorem exec_tableWrite (c : CmdCtx) (t bank count : Nat) (x : Batch) (s : State) :
    exec (.tableWrite c t bank count x) s = execTableWrite c t bank count x s := rfl
theorem exec_ruleWrite (c : CmdCtx) (g bank count : Nat) (x : Batch) (s : State) :
    exec (.ruleWrite c g bank count x) s = execRuleWrite c g bank count x s := rfl
theorem exec_tableDelete (c : CmdCtx) (t bank count : Nat) (x : Batch) (s : State) :
    exec (.tableDelete c t bank count x) s = execTableDelete c t bank count x s := rfl
theorem exec_ruleDelete (c : CmdCtx) (bank count : Nat) (x : Batch) (s : State) :
    exec (.ruleDelete c bank count x) s = execRuleDelete c bank count x s := rfl

theorem records_none (w : Nat) (b : Bytes) : records w 0 b = [] := rfl

/-- Settles O15. -/
theorem tableWritesAndDeletes : Obligations.TableWritesAndDeletes := by
  unfold Obligations.TableWritesAndDeletes
  refine ⟨⟨fun c t bank count x s b ready path fresh still ok target => ?write, fun c g bank count x s b ready path fresh still ok target => ?rules⟩,
    fun c t bank count x s b ready path fresh still ok target some_ => ?delete,
    fun c t s ready path fresh low high opened quiet => ?empty,
    fun c bank count x s b ready path fresh still ok target => ?unrule, fun t p key b s => removeKey_removes t p key b s⟩
  case write =>
    rw [exec_tableWrite, execTableWrite, runCmd_ready ready ok, onTarget_acts path fresh target (batchMoves_of_still still)]
    obtain ⟨done, failed⟩ := writeBatch_all (s := begun c 0x100 s) (c := c) (t := t) (g := 0) (count := count) (x := x) (b := b) (at_ := s.now)
    exact ⟨fun h => congrArg _ (done h), fun st h => congrArg _ (failed st h)⟩
  case rules =>
    rw [exec_ruleWrite, execRuleWrite, runCmd_ready ready ok, onTarget_acts path fresh target (batchMoves_of_still still)]
    obtain ⟨done, failed⟩ := writeBatch_all (s := begun c 0x110 s) (c := c) (t := 4) (g := g) (count := count) (x := x) (b := b) (at_ := s.now)
    exact ⟨fun h => congrArg _ (done h), fun st h => congrArg _ (failed st h)⟩
  case delete =>
    have named := batchCheck_params ok
    have notRule : t ≠ 4 := by
      rintro rfl
      simp [emptying, some_] at named
    rw [exec_tableDelete, execTableDelete, runCmd_ready ready ok, onTarget_acts path fresh target (batchMoves_of_still still), if_neg some_]
    obtain ⟨done, failed⟩ := deleteBatch_all (s := begun c 0x101 s) (c := c) (t := t) (count := count) (x := x) (b := b) (at_ := s.now)
      (fun h => notRule h.1)
    exact ⟨fun h => congrArg _ (done h), fun st h => congrArg _ (failed st h)⟩
  case empty =>
    have ok : batchCheck c t 1 0 (.inline []) true (emptying t 1 0 (.inline []) || (countOk 0 && [1, 2, 3, 5].contains t))
        (beginCmd c 0x101 s) = none := by
      have size : areaSize t 0 true = 0 := by
        unfold areaSize
        split
        · rfl
        · exact Nat.zero_mul _
      have kind : t ≠ 0x30 := by omega
      have named : emptying t 1 0 (.inline []) = true := by simp [emptying, low, high]
      simp [batchCheck, size, firstFail, named, kind, show ¬ 5 < t by omega]
    have target : writeTarget c t 1 s = .banks (oneBank (1 - s.activeBank c.part t)) := by
      have kind : ¬ (t = 0x20 ∨ t = 0x30) := by omega
      simp [writeTarget, kind, opened, quiet]
    have still : batchMoves c t 0 (.inline []) true (begun c 0x101 s) = false := by simp [batchMoves, records_none]
    refine ⟨_, _, by rw [exec_tableDelete, execTableDelete, runCmd_ready ready ok, onTarget_acts path fresh target still, if_pos rfl], ?_, ?_⟩
    · intro k
      have active : (emptyBank t c.part (oneBank (1 - s.activeBank c.part t)) (begun c 0x101 s)).2.tabs.active = s.tabs.active :=
        congrArg (·.active) (begun_kept c 0x101 s).tabs
      refine emptyBank_empties (fun e => ?_) k
      simp only [TEntry.inBank, TEntry.without, oneBank]
      split <;> simp_all
    · intro q k x y other
      have same : (begun c 0x101 s).tfind y q k x = s.tfind y q k x := by
        rw [tfind_eq, tfind_eq, oldCopies_congr (begun_kept c 0x101 s), (begun_kept c 0x101 s).tabs]
      exact (emptyBank_other _ other y k x).trans same
  case unrule =>
    intro a w reserved
    have done : w.1 = none := delAll_rules ..
    refine ⟨done, ?_⟩
    rw [exec_ruleDelete, execRuleDelete, runCmd_ready ready ok, onTarget_acts path fresh target (batchMoves_of_still still)]
    have passes : ¬ (4 = 4 ∧ count % 2 = 1 ∧ (!rsvZero a.1 (4 * count) 4) = true) := fun h => by
      have unclean := h.2.2
      rw [reserved h.2.1] at unclean
      cases unclean
    exact congrArg _ ((deleteBatch_all (s := begun c 0x111 s) (c := c) (t := 4) (count := count) (x := x) (b := b) (at_ := s.now) passes).1 done)

/-! ### The states of the banks (04 R149) -/

theorem bankKey_eq_iff {p t x : Nat} : bankKey p t = bankKey p x ↔ bankTable t = bankTable x := by
  simp [bankKey]

theorem bankState_setBankState (p t x : Nat) (k : BankState) :
    (s.setBankState p t k).bankState p x = if bankTable x = bankTable t then k else s.bankState p x := by
  simp only [State.setBankState, State.bankState]
  split
  · next h => rw [bankKey_eq_iff.mpr h, smGet_smSet_self]
  · next h => rw [smGet_smSet_ne _ _ _ (fun e => h (bankKey_eq_iff.mp e))]

theorem bankTable_of_le {t : Nat} (h : t ≤ 4) : bankTable t = t := if_neg (by omega)

theorem mem_eventTables {p t x : Nat} {k : BankState} (event : eventTable t = true) (h : x ∈ eventTables s p t k) :
    1 ≤ x ∧ x ≤ 4 ∧ s.bankState p x = k := by
  obtain ⟨named, state⟩ := List.mem_filter.mp h
  have state : s.bankState p x = k := by simpa using state
  simp only [eventTable, Bool.or_eq_true, Bool.and_eq_true, decide_eq_true_eq] at event
  split at named
  · simp at named
    exact ⟨by omega, by omega, state⟩
  · have x_eq := List.mem_singleton.mp named
    unfold bankTable at x_eq
    split at x_eq <;> exact ⟨by omega, by omega, state⟩

theorem eventTables_congr {u : State} (h : u.tabs = s.tabs) (p t : Nat) (k : BankState) : eventTables u p t k = eventTables s p t k := by
  unfold eventTables State.bankState
  rw [h]

/-- Opening banks changes bank states alone. -/
theorem foldl_setBankState (p : Nat) (k : BankState) (l : List Nat) (low : ∀ t ∈ l, t ≤ 4) :
    let u := l.foldl (fun s t => s.setBankState p t k) s
    (∀ x, x ≤ 4 → u.bankState p x = if x ∈ l then k else s.bankState p x) ∧ u.tabs.entries = s.tabs.entries ∧
      u.tabs.active = s.tabs.active := by
  induction l generalizing s with
  | nil => exact ⟨fun x _ => rfl, rfl, rfl⟩
  | cons t l ih =>
    obtain ⟨states, entries, active⟩ := ih (s := s.setBankState p t k) (fun x hx => low x (by simp [hx]))
    refine ⟨fun x hx => ?_, entries, active⟩
    rw [List.foldl_cons, states x hx, bankState_setBankState, bankTable_of_le hx, bankTable_of_le (low t (by simp))]
    by_cases here : x ∈ l <;> simp [here]

/-- An entry of a table of a partition, as its two banks are made equal, and what becomes of it. -/
def ofTable (p k : Nat) (e : TEntry) : Bool := decide (e.part = p) && decide (bankTable e.table = k) && decide (e.table ≤ 5)
def synced (p k : Nat) (e : TEntry) : TEntry := if ofTable p k e then { e with bank0 := true, bank1 := true } else e

theorem syncBanks_entries (p k : Nat) : (syncBanks p k s).tabs.entries =
    (s.tabs.entries.filter (fun e => !ofTable p k e || e.inBank (s.activeBank p k))).map (synced p k) := rfl

theorem synced_other {p k : Nat} {e : TEntry} (h : ofTable p k e = false) : synced p k e = e := by simp [synced, h]

theorem synced_action (p k : Nat) (e : TEntry) : (synced p k e).action = e.action := by
  unfold synced
  split <;> rfl

theorem isKey_other {t p b : Nat} {key : Bytes} {e : TEntry} (h : ¬ (e.table = t ∧ e.part = p)) : isKey t p key b e = false :=
  Bool.eq_false_iff.mpr (fun is => h ⟨(isKey_iff.mp is).1, (isKey_iff.mp is).2.1⟩)

theorem isKey_synced_other {p k t b : Nat} {key : Bytes} {e : TEntry} (h : ¬ (e.table = t ∧ e.part = p)) :
    isKey t p key b (synced p k e) = false := by
  refine isKey_other ?_
  unfold synced
  split <;> exact h

theorem find?_syncBanks_self (p k y : Nat) (key : Bytes) (hk : k ≤ 4) :
    ((syncBanks p k s).tabs.entries.find? (isKey k p key y)).map (·.action) =
      (s.tabs.entries.find? (isKey k p key (s.activeBank p k))).map (·.action) := by
  have same (e : TEntry) : ((!ofTable p k e || e.inBank (s.activeBank p k)) && isKey k p key y (synced p k e)) =
      isKey k p key (s.activeBank p k) e := by
    by_cases mine : e.table = k ∧ e.part = p
    · obtain ⟨rfl, rfl⟩ := mine
      have own : ofTable e.part e.table e = true := by simp [ofTable, bankTable_of_le hk]; omega
      simp [isKey, own, synced, TEntry.inBank]
    · rw [isKey_other mine, isKey_synced_other mine, Bool.and_false]
  rw [syncBanks_entries, List.find?_map, List.find?_filter, Option.map_map]
  simp only [Function.comp_def, Bool.decide_and, Bool.decide_eq_true, same, synced_action]

theorem find?_syncBanks_ne {p k t : Nat} (y : Nat) (key : Bytes) (ht : t ≤ 4) (ne : t ≠ k) :
    (syncBanks p k s).tabs.entries.find? (isKey t p key y) = s.tabs.entries.find? (isKey t p key y) := by
  have other {e : TEntry} (is : isKey t p key y e = true) : ofTable p k e = false := by
    obtain ⟨rfl, rfl, _⟩ := isKey_iff.mp is
    simp [ofTable, bankTable_of_le ht, ne]
  have same (e : TEntry) : ((!ofTable p k e || e.inBank (s.activeBank p k)) && isKey t p key y (synced p k e)) = isKey t p key y e := by
    by_cases mine : e.table = t ∧ e.part = p
    · obtain ⟨rfl, rfl⟩ := mine
      have out : ofTable e.part k e = false := by simp [ofTable, bankTable_of_le ht, ne]
      simp [synced_other out, out]
    · rw [isKey_other mine, isKey_synced_other mine, Bool.and_false]
  rw [syncBanks_entries, List.find?_map, List.find?_filter]
  simp only [Function.comp_def, Bool.decide_and, Bool.decide_eq_true, same]
  cases found : s.tabs.entries.find? (isKey t p key y) with
  | none => rfl
  | some e => exact congrArg some (synced_other (other (List.find?_some found)))

theorem activeBank_syncBanks (p k x : Nat) : (syncBanks p k s).activeBank p x = s.activeBank p x := rfl

theorem bankState_syncBanks (p k x : Nat) :
    (syncBanks p k s).bankState p x = if bankTable x = bankTable k then .steady else s.bankState p x :=
  bankState_setBankState ..

theorem foldl_syncBanks (p : Nat) (l : List Nat) (low : ∀ t ∈ l, t ≤ 4) :
    let u := l.foldl (fun s t => syncBanks p t s) s
    u.tabs.active = s.tabs.active ∧ (∀ x ∈ l, u.bankState p x = .steady) ∧ ∀ x ≤ 4, s.bankState p x = .steady → u.bankState p x = .steady := by
  induction l generalizing s with
  | nil => exact ⟨rfl, fun x hx => by simp at hx, fun x _ h => h⟩
  | cons t l ih =>
    obtain ⟨active, states, steady⟩ := ih (s := syncBanks p t s) (fun x hx => low x (by simp [hx]))
    refine ⟨active, fun x hx => ?_, fun x hx was => steady x hx (by rw [bankState_syncBanks, was, ite_self])⟩
    obtain rfl | later := List.mem_cons.mp hx
    · exact steady x (low x (by simp)) (by rw [bankState_syncBanks, if_pos rfl])
    · exact states x later

/-- Closing banks leaves in both banks of each table the actions of its active bank, and the other tables as they were. -/
theorem find?_foldl_syncBanks (p : Nat) (l : List Nat) (low : ∀ t ∈ l, t ≤ 4) (x : Nat) (hx : x ≤ 4) (key : Bytes) :
    let u := l.foldl (fun s t => syncBanks p t s) s
    (x ∈ l → ∀ y, (u.tabs.entries.find? (isKey x p key y)).map (·.action) =
      (s.tabs.entries.find? (isKey x p key (s.activeBank p x))).map (·.action)) ∧
    (x ∉ l → ∀ y, u.tabs.entries.find? (isKey x p key y) = s.tabs.entries.find? (isKey x p key y)) := by
  induction l generalizing s with
  | nil => exact ⟨fun hx => by simp at hx, fun _ _ => rfl⟩
  | cons t l ih =>
    obtain ⟨inside, outside⟩ := ih (s := syncBanks p t s) (fun x hx => low x (by simp [hx]))
    refine ⟨fun mem y => ?_, fun out y => ?_⟩
    · rw [List.foldl_cons]
      by_cases here : x = t
      · subst here
        by_cases again : x ∈ l
        · rw [inside again, activeBank_syncBanks, find?_syncBanks_self _ _ _ _ hx]
        · rw [outside again, find?_syncBanks_self _ _ _ _ hx]
      · rw [inside (by simpa [here] using mem), activeBank_syncBanks, find?_syncBanks_ne _ _ hx here]
    · obtain ⟨here, later⟩ := not_or.mp (fun h => out (List.mem_cons.mpr h))
      rw [List.foldl_cons, outside later, find?_syncBanks_ne _ _ hx here]

theorem exec_tableRebuild (c : CmdCtx) (t : Nat) (s : State) : exec (.tableRebuild c t) s = execTableRebuild c t s := rfl
theorem exec_tableAbort (c : CmdCtx) (t : Nat) (s : State) : exec (.tableAbort c t) s = execTableAbort c t s := rfl

/-- Settles O17. -/
theorem bankStates : Obligations.BankStates := by
  unfold Obligations.BankStates
  intro c t s event
  refine ⟨fun ready named => ?open_, fun ready none_ => ?refused, fun ready named => ?close⟩
  case open_ =>
    have tables (k : BankState) : eventTables (beginCmd c 0x103 s) c.part t k = eventTables s c.part t k :=
      eventTables_congr (beginCmd_kept c 0x103 s).tabs ..
    have low : ∀ x ∈ eventTables s c.part t .steady, x ≤ 4 := fun x hx => (mem_eventTables event hx).2.1
    obtain ⟨states, entries, active⟩ := foldl_setBankState (s := beginCmd c 0x103 s) c.part .rebuild _ low
    have tabs := (beginCmd_kept c 0x103 s).tabs
    refine ⟨_, ?_, fun x _ hx => ?_, entries.trans (by rw [tabs]), active.trans (by rw [tabs])⟩
    · rw [exec_tableRebuild, execTableRebuild, runCmd_ready ready (by simp [tables, named, event, firstFail])]
      simp only [tables]
      rw [if_neg named, now_of_kept (beginCmd_kept c 0x103 s)]
    · rw [states x hx]
      split
      · rfl
      · rw [State.bankState, tabs]
        rfl
  case refused =>
    have tables (k : BankState) : eventTables (beginCmd c 0x103 s) c.part t k = eventTables s c.part t k :=
      eventTables_congr (beginCmd_kept c 0x103 s).tabs ..
    rw [exec_tableRebuild, execTableRebuild]
    by_cases all : t = 0xff
    · subst all
      rw [if_pos rfl, runCmd_refused (hasHost_of_opcodeRuns ready.1) (st := .badParam) (by simp [tables, none_, firstFail]),
        refusal_ready (ready_begin.mpr ready)]
    · rw [if_neg all, runCmd_ready ready (by simp [tables, all, event, firstFail])]
      simp only [tables]
      rw [if_pos none_]
  case close =>
    have tables (k : BankState) : eventTables (beginCmd c 0x105 s) c.part t k = eventTables s c.part t k :=
      eventTables_congr (beginCmd_kept c 0x105 s).tabs ..
    have low : ∀ x ∈ eventTables s c.part t .rebuild, x ≤ 4 := fun x hx => (mem_eventTables event hx).2.1
    obtain ⟨active, states, _⟩ := foldl_syncBanks (s := beginCmd c 0x105 s) c.part _ low
    have tabs := (beginCmd_kept c 0x105 s).tabs
    refine ⟨_, ?_, active.trans (by rw [tabs]), fun x hx => ⟨states x hx, fun k y _ => ?_⟩⟩
    · rw [exec_tableAbort, execTableAbort, runCmd_ready ready (by simp [tables, named, event, firstFail])]
      simp only [tables]
      rw [now_of_kept (beginCmd_kept c 0x105 s)]
    · obtain ⟨inside, _⟩ := find?_foldl_syncBanks (s := beginCmd c 0x105 s) c.part _ low x (low x hx) k
      have same : (beginCmd c 0x105 s).activeBank c.part x = s.activeBank c.part x := by rw [State.activeBank, State.activeBank, tabs]
      rw [tfind_action, tfind_action, inside hx y, same, tabs]

end Sys2Proof.Proofs
end

