-- ==== Sys2Proof/Proofs/TableReads.lean ====
section
/-! PROOF. TABLE_READ of associations and the order of partitions (O16), and the loads of parse graphs and patterns (O18). -/

namespace Sys2Proof.Proofs
open Sys2Proof.Machine

variable {s : State}

/-! ### A state that lists its partitions out of order

The statement takes the records of a TABLE_READ from the state before the command starts. The start writes the stream of an in-band
command, and where the partitions are not listed in rising order, as no step leaves them, that write lists a partition a second
time, in front: the owner of a port, and with it the associations that the command reads, is another one from then on. -/

/-- A TABLE_READ of MACsec associations that partition 2 sends in the in-band stream of partition 1, behind a command of it that
has not replied. -/
def strayRead : CmdCtx := { src := .inband 1 0 [], part := 2, flags := 0, seq := 1, layer := 0, oper := 0, tag := 0 }

/-- A state whose partitions are listed out of order: port 0 is in the resource lists of both, and its owner is the one that is
listed first. -/
def unsortedParts : State :=
  { State.reset with
    sys := { State.reset.sys with mode := .running }
    tabs := { State.reset.tabs with sa := [(0, zeros 96)] }
    parts := [(2, { state := 1, ports := 1 }),
      (1, { state := 1, ports := 1, ibFlight := [{ ctx := { strayRead with seq := 0 }, opc := 0x001 }] })] }

/-- The lengths of the reply bodies that wait in the in-band stream of partition 1. -/
def waitingBodies (o : Host.Outcome State Fault Refusal) : List Nat :=
  match o with
  | .next t => (t.part 1).ibFlight.map (fun e => (e.reply.map (·.body.length)).getD 0)
  | _ => []

theorem waitingBodies_strayRead : waitingBodies (exec (.tableRead strayRead 0x20 0 0 1 none) unsortedParts) = [0, 8] := by decide +kernel

/-- The records that the partition owns before the command starts. -/
def strayRecords : List (Nat × Bytes) := (tableRecords unsortedParts 0x20 2 0).filter (fun x => decide (0 ≤ x.1))

/-- The reply that lists them. -/
def strayReply : State :=
  let got := (strayRecords.take 1).take (4072 / recSize 0x20)
  finish strayRead .ok ((got.map (·.2)).flatten ++ leBytes 4 (nextSlot 0x20 0 strayRecords got) ++ leBytes 4 got.length)
    unsortedParts.now (if got.length < (strayRecords.take 1).length then 2 else 0) (begun strayRead 0x102 unsortedParts)

theorem waitingBodies_strayReply : waitingBodies (.next strayReply) = [0, 104] := by decide +kernel

/-- Refutes O16: `strayRead` starts in `unsortedParts`, after which port 0 belongs to partition 1, so that it reads no association
where the state before it holds one of partition 2. -/
theorem not_tablesReadAndCompare : ¬ Obligations.TablesReadAndCompare := by
  unfold Obligations.TablesReadAndCompare
  rintro ⟨_, reads, _⟩
  have claim : exec (.tableRead strayRead 0x20 0 0 1 none) unsortedParts = .next strayReply :=
    reads strayRead 0x20 0 0 1 unsortedParts (by decide) ⟨rfl, rfl⟩ (by decide) (by decide)
  have bodies := congrArg waitingBodies claim
  rw [waitingBodies_strayRead, waitingBodies_strayReply] at bodies
  cases bodies

/-! ### Parse graphs and patterns (03 R93, R105, R108) -/

theorem exec_parseGraphLoad (c : CmdCtx) (x : Bref) (dig : Bytes) (s : State) :
    exec (.parseGraphLoad c x dig) s = execParseGraphLoad c x dig s := rfl
theorem exec_patternLoad (c : CmdCtx) (x : Bref) (dig : Bytes) (s : State) :
    exec (.patternLoad c x dig) s = execPatternLoad c x dig s := rfl

section
variable {c : CmdCtx} {x : Bref} {dig : Bytes}

theorem graphLoadWork_otherDigest (other : sha384 (brefRead c x x.size s) ≠ dig) :
    graphLoadWork c x dig s = finish c .integrityFail [] 0 0 (freeGraphs (brefCharge c x x.size s)) := if_pos other

theorem graphLoadWork_loads {n : Nat} {g : Machine.Graph} (same : sha384 (brefRead c x x.size s) = dig)
    (fits : graphTooBig (brefRead c x x.size s) = false)
    (free : lowestFree 1 8 ((freeGraphs (brefCharge c x x.size s)).intake.graphs.map (·.1)) = some n)
    (graph : graphOf (brefRead c x x.size s) = some g) :
    let f := freeGraphs (brefCharge c x x.size s)
    graphLoadWork c x dig s = finish c .ok (leBytes 1 n) 0 0 { f with intake := { f.intake with
      graphs := smSet f.intake.graphs n { owner := c.part, graph := g, named := false } } } := by
  intro f
  simp only [graphLoadWork, same, fits, free, graph, ne_eq, not_true_eq_false, if_false, Bool.false_eq_true]
  rfl

theorem patternLoadWork_otherDigest (other : sha384 (brefRead c x x.size s) ≠ dig) :
    patternLoadWork c x dig s = finish c .integrityFail [] 0 0 (brefCharge c x x.size s) := if_pos other

theorem patternLoadWork_loads {l : List Pattern} (same : sha384 (brefRead c x x.size s) = dig)
    (patterns : patternsOf (brefRead c x x.size s) = some l)
    (fits : patternTotal (brefCharge c x x.size s) c.part + l.length ≤ 65536) :
    let f := brefCharge c x x.size s
    patternLoadWork c x dig s = finish c .ok (leBytes 4 l.length) 0 0
      { f with intake := { f.intake with patPend := smSet f.intake.patPend c.part l } } := by
  intro f
  simp only [patternLoadWork, same, patterns, Nat.not_lt.mpr fits, ne_eq, not_true_eq_false, if_false]
  rfl

end

theorem patternTotal_congr {u : State} (h : Kept s u) (p : Nat) : patternTotal u p = patternTotal s p := by
  unfold patternTotal
  rw [h.epochs, h.intake]

/-- Settles O18. -/
theorem graphAndPatternLoads : Obligations.GraphAndPatternLoads := by
  unfold Obligations.GraphAndPatternLoads
  refine fun c x dig s => ⟨fun ready buffer => ?graph, fun ready buffer => ?pattern⟩
  case graph =>
    have kept := (beginCmd_kept c 0x120 s).trans (brefCharge_kept c x x.size (beginCmd c 0x120 s))
    have runs : exec (.parseGraphLoad c x dig) s = .next (graphLoadWork c x dig (beginCmd c 0x120 s)) :=
      congrArg _ (runCmd_ready ready buffer)
    refine ⟨fun other => by rw [runs, graphLoadWork_otherDigest other], fun n g same fits free graph =>
      ⟨_, runs.trans (congrArg _ (graphLoadWork_loads same fits free graph)), ?_, fun j ne => ?_, ?_, kept.fields, kept.epochs⟩⟩
    · exact smFind_smSet_self ..
    · exact smFind_smSet_ne _ _ ne
    · exact congrArg (·.patPend) kept.intake
  case pattern =>
    have kept := (beginCmd_kept c 0x121 s).trans (brefCharge_kept c x x.size (beginCmd c 0x121 s))
    have runs : exec (.patternLoad c x dig) s = .next (patternLoadWork c x dig (beginCmd c 0x121 s)) :=
      congrArg _ (runCmd_ready ready buffer)
    refine ⟨fun other => by rw [runs, patternLoadWork_otherDigest other], fun l same patterns fits =>
      ⟨_, runs.trans (congrArg _ (patternLoadWork_loads same patterns (by rw [patternTotal_congr kept]; exact fits))), ?_, fun q ne => ?_, ?_,
        kept.epochs, ?_⟩⟩
    · exact smFind_smSet_self ..
    · rw [← kept.intake]
      exact smFind_smSet_ne _ _ ne
    · exact congrArg (·.graphs) kept.intake
    · exact congrArg (·.pkts) kept.intake

end Sys2Proof.Proofs
end

