-- ==== Sys2Proof/Proofs/Epochs.lean ====
section
/-! PROOF. Commits and the retirement of epochs (O19). -/

namespace Sys2Proof.Proofs
open Sys2Proof.Machine

variable {s : State}

theorem eps_setEps_self (p : Nat) (l : List Epoch) : (s.setEps p l).eps p = l := smGet_smSet_self ..
theorem eps_setEps_ne {p q : Nat} (l : List Epoch) (h : q ≠ p) : (s.setEps p l).eps q = s.eps q := smGet_smSet_ne _ _ _ h

theorem eps_congr {u : State} (h : u.epochs = s.epochs) (p : Nat) : u.eps p = s.eps p := by rw [State.eps, State.eps, h]
theorem curEpoch_congr {u : State} (h : u.epochs = s.epochs) (p : Nat) : u.curEpoch p = s.curEpoch p := by
  rw [State.curEpoch, State.curEpoch, eps_congr h]

theorem curEpoch_one {p : Nat} {e : Epoch} (h : s.eps p = [e]) : s.curEpoch p = e := by simp [State.curEpoch, h]

/-! ### Swapping banks -/

theorem activeBank_swapBanks (p t x : Nat) : (swapBanks p s t).activeBank p x =
    if bankTable x = bankTable t then 1 - s.activeBank p t else s.activeBank p x := by
  show smGet 0 (smSet s.tabs.active (bankKey p t) (1 - s.activeBank p t)) (bankKey p x) = _
  split
  · next h => rw [bankKey_eq_iff.mpr h, smGet_smSet_self]
  · next h =>
    rw [smGet_smSet_ne _ _ _ (fun e => h (bankKey_eq_iff.mp e))]
    rfl

theorem bankState_swapBanks (p t x : Nat) : (swapBanks p s t).bankState p x =
    if bankTable x = bankTable t then .draining else s.bankState p x := bankState_setBankState ..

/-- An entry without its times for the sweeper. -/
def timeless (e : TEntry) : TEntry := { e with born := 0, seen := none }

theorem swapBanks_eq (p t : Nat) : ∃ b, swapBanks p s t = { s with tabs := b } ∧ b.entries.map timeless = s.tabs.entries.map timeless := by
  refine ⟨_, rfl, ?_⟩
  show (s.tabs.entries.map _).map timeless = _
  rw [List.map_map]
  refine List.map_congr_left (fun e _ => ?_)
  show timeless (if _ then _ else _) = timeless e
  split <;> rfl

/-- Swapping banks changes the tables alone, and of an entry its times at most. -/
theorem foldl_swapBanks_eq (p : Nat) (l : List Nat) :
    ∃ b, l.foldl (swapBanks p) s = { s with tabs := b } ∧ b.entries.map timeless = s.tabs.entries.map timeless := by
  induction l generalizing s with
  | nil => exact ⟨s.tabs, rfl, rfl⟩
  | cons t l ih =>
    obtain ⟨b, swapped, entries⟩ := swapBanks_eq (s := s) p t
    obtain ⟨b', rest, entries'⟩ := ih (s := { s with tabs := b })
    exact ⟨b', by rw [List.foldl_cons, swapped, rest], entries'.trans entries⟩

/-- Each table of a list without repetition swaps its banks once, and no other does. -/
theorem foldl_swapBanks_banks (p : Nat) (l : List Nat) (low : ∀ t ∈ l, t ≤ 4) (once : l.Nodup) (x : Nat) (hx : x ≤ 4) :
    let u := l.foldl (swapBanks p) s
    u.activeBank p x = (if x ∈ l then 1 - s.activeBank p x else s.activeBank p x) ∧
      u.bankState p x = if x ∈ l then .draining else s.bankState p x := by
  induction l generalizing s with
  | nil => exact ⟨rfl, rfl⟩
  | cons t l ih =>
    obtain ⟨fresh, once⟩ := List.nodup_cons.mp once
    obtain ⟨active, state⟩ := ih (s := swapBanks p s t) (fun x hx => low x (by simp [hx])) once
    rw [activeBank_swapBanks, bankTable_of_le hx, bankTable_of_le (low t (by simp))] at active
    rw [bankState_swapBanks, bankTable_of_le hx, bankTable_of_le (low t (by simp))] at state
    refine ⟨active.trans ?_, state.trans ?_⟩
    · by_cases here : x = t
      · subst here
        simp [fresh]
      · simp [here]
    · by_cases here : x = t
      · simp [here]
      · simp [here]

theorem eventTables_once (p t : Nat) (k : BankState) : (eventTables s p t k).Nodup := by
  refine List.Pairwise.filter _ ?_
  split
  · decide
  · exact List.pairwise_singleton _ _

/-! ### Retirement -/

theorem retireDue_one {p : Nat} {e : Epoch} (h : s.eps p = [e]) : retireDue p s = s := by simp [retireDue, h]

theorem retireDue_held {p : Nat} {a b : Epoch} (h : s.eps p = [a, b]) (held : a.refs ≠ 0) : retireDue p s = s := by
  simp [retireDue, h, held]

theorem foldl_syncBanks_eq (p : Nat) (l : List Nat) : ∃ b, l.foldl (fun s t => syncBanks p t s) s = { s with tabs := b } := by
  induction l generalizing s with
  | nil => exact ⟨s.tabs, rfl⟩
  | cons t l ih =>
    obtain ⟨b, rest⟩ := ih (s := syncBanks p t s)
    exact ⟨b, rest⟩

theorem retireDue_due {p : Nat} {a b : Epoch} (h : s.eps p = [a, b]) (due : a.refs = 0) :
    retireDue p s = restateSlots p ((eventTables (freeGraphs (s.setEps p [b])) p 0xff .draining).foldl (fun s t => syncBanks p t s)
      (freeGraphs (s.setEps p [b]))) := by
  simp [retireDue, h, due]

theorem retireDue_retires {p : Nat} {a b : Epoch} (h : s.eps p = [a, b]) (due : a.refs = 0) :
    let t := retireDue p s
    t.eps p = [b] ∧ (∀ q, q ≠ p → t.eps q = s.eps q) ∧ t.fields = s.fields ∧ t.rings = s.rings ∧ t.flow = s.flow ∧
      t.intake.pkts = s.intake.pkts ∧ ∀ x, 1 ≤ x → x ≤ 4 → s.bankState p x = .draining → t.bankState p x = .steady := by
  have draining : eventTables (freeGraphs (s.setEps p [b])) p 0xff .draining = eventTables s p 0xff .draining := rfl
  have low : ∀ x ∈ eventTables s p 0xff .draining, x ≤ 4 := fun x hx => (mem_eventTables rfl hx).2.1
  obtain ⟨_, states, _⟩ := foldl_syncBanks (s := freeGraphs (s.setEps p [b])) p _ low
  obtain ⟨tabs, synced⟩ := foldl_syncBanks_eq (s := freeGraphs (s.setEps p [b])) p (eventTables s p 0xff .draining)
  rw [synced] at states
  rw [retireDue_due h due, draining, synced]
  refine ⟨eps_setEps_self p [b], fun q hq => eps_setEps_ne [b] hq, rfl, rfl, rfl, rfl, fun x low high was => states x ?_⟩
  refine List.mem_filter.mpr ⟨?_, by simpa using was⟩
  rw [if_pos rfl]
  simp
  omega

/-! ### Commits -/

/-- A commit while the old epoch is held: both are live, the tables named swap their banks, and only the slots' states and the
partition's pending patterns change beside. -/
theorem commitEpoch_held {p : Nat} {old : Epoch} {map swap : List Nat} (h : s.eps p = [old]) (held : old.refs ≠ 0)
    (low : ∀ t ∈ swap, t ≤ 4) (once : swap.Nodup) :
    let u := commitEpoch p map swap s
    u.eps p = [old, newEpoch p map swap s] ∧ (∀ q, q ≠ p → u.eps q = s.eps q) ∧
      (∀ x, 1 ≤ x → x ≤ 4 → u.activeBank p x = if x ∈ swap then 1 - s.activeBank p x else s.activeBank p x) ∧
      (∀ x ∈ swap, u.bankState p x = .draining) ∧ u.tabs.entries.map timeless = s.tabs.entries.map timeless ∧ u.fields = s.fields := by
  obtain ⟨tabs, swapped, entries⟩ := foldl_swapBanks_eq (s := s) p swap
  have banks (x : Nat) (hx : x ≤ 4) := foldl_swapBanks_banks (s := s) p swap low once x hx
  rw [swapped] at banks
  have live : ({ s with tabs := tabs } : State).eps p ++ [newEpoch p map swap s] = [old, newEpoch p map swap s] := by
    rw [show ({ s with tabs := tabs } : State).eps p = s.eps p from rfl, h]
    rfl
  have commit : commitEpoch p map swap s = retireDue p (restateSlots p { s with
      tabs := tabs, epochs := smSet s.epochs p [old, newEpoch p map swap s]
      intake := { s.intake with patPend := smDel s.intake.patPend p } }) := by
    unfold commitEpoch
    dsimp only
    rw [swapped, live]
    rfl
  have eps := eps_setEps_self (s := s) p [old, newEpoch p map swap s]
  rw [commit.trans (retireDue_held eps held)]
  exact ⟨eps, fun q hq => eps_setEps_ne (s := s) [old, newEpoch p map swap s] hq, fun x _ hx => (banks x hx).1,
    fun x hx => by
      have state := (banks x (low x hx)).2
      rwa [if_pos hx] at state,
    entries, rfl⟩

theorem exec_epochCommit (c : CmdCtx) (r : Nat) (map : DWord) (s : State) :
    exec (.epochCommit c r map) s = execEpochCommit c r map s := rfl
theorem exec_tableCommit (c : CmdCtx) (t : Nat) (s : State) : exec (.tableCommit c t) s = execTableCommit c t s := rfl
theorem exec_epochRetire (p : Nat) (s : State) : exec (.epochRetire p) s = .next (retireDue p s) := rfl

theorem commitSwap_congr {u : State} (h : u.tabs = s.tabs) (p r : Nat) : commitSwap p r u = commitSwap p r s := by
  rw [commitSwap, commitSwap, eventTables_congr h]

theorem compareHolds_congr {u : State} (h : u.tabs = s.tabs) (p : Nat) (swap : List Nat) : compareHolds u p swap = compareHolds s p swap := by
  unfold compareHolds comparing
  rw [h]

theorem mem_commitSwap {p r x : Nat} (h : x ∈ commitSwap p r s) : x ≤ 4 := by
  unfold commitSwap at h
  split at h
  · exact (mem_eventTables rfl h).2.1
  · cases h

theorem commitSwap_once (p r : Nat) : (commitSwap p r s).Nodup := by
  unfold commitSwap
  split
  · exact eventTables_once ..
  · exact List.nodup_nil

theorem epochCommitWork_held {c : CmdCtx} {r : Nat} {map : DWord} {old : Epoch} (h : s.eps c.part = [old])
    (free : compareHolds s c.part (commitSwap c.part r s) = false) :
    let u := commitEpoch c.part (commitMap c.part map s) (commitSwap c.part r s) s
    epochCommitWork c r map s = finish c .ok (leBytes 8 (u.curEpoch c.part).num ++ leBytes 8 s.now.toNat) s.now 0 u := by
  simp only [epochCommitWork, retireDue_one h, h, free]
  rfl

theorem tableCommitWork_held {c : CmdCtx} {t : Nat} {old : Epoch} (h : s.eps c.part = [old])
    (free : compareHolds s c.part (eventTables s c.part t .rebuild) = false) :
    tableCommitWork c t s = finish c .ok (leBytes 8 s.now.toNat) s.now 0
      (commitEpoch c.part old.slots (eventTables s c.part t .rebuild) s) := by
  simp only [tableCommitWork, retireDue_one h, h, free, curEpoch_one h]
  rfl

theorem commitMap_congr {u : State} (h : u.epochs = s.epochs) (p : Nat) (map : DWord) : commitMap p map u = commitMap p map s := by
  rw [commitMap, commitMap, curEpoch_congr h]

theorem eventTable_of_tableCommitCheck {c : CmdCtx} {t : Nat} (ok : tableCommitCheck c t s = none) : eventTable t = true := by
  refine Classical.byContradiction fun other => ?_
  simp [tableCommitCheck, firstFail_cons, other] at ok

theorem timeless_congr {u : State} (h : u.tabs = s.tabs) : u.tabs.entries.map timeless = s.tabs.entries.map timeless := by rw [h]

theorem activeBank_congr {u : State} (h : u.tabs = s.tabs) (p t : Nat) : u.activeBank p t = s.activeBank p t := by
  rw [State.activeBank, State.activeBank, h]

/-- Settles O19. -/
theorem epochsCommitAndRetire : Obligations.EpochsCommitAndRetire := by
  unfold Obligations.EpochsCommitAndRetire
  refine ⟨fun c s old live held => ⟨fun r map ready ok => ?epoch, fun t ready ok => ?table⟩,
    ⟨fun p s a b live => ⟨fun held => ?keeps, fun due => ?retires⟩, fun p s a live => ?one, fun c s ready => ?status⟩⟩
  case epoch =>
    intro swap free
    have kept := beginCmd_kept c 0x310 s
    have live' : (beginCmd c 0x310 s).eps c.part = [old] := by rw [eps_congr kept.epochs, live]
    have swap_eq : commitSwap c.part r (beginCmd c 0x310 s) = swap := commitSwap_congr kept.tabs ..
    have work := epochCommitWork_held (r := r) (map := map) live' (by rw [swap_eq, compareHolds_congr kept.tabs, free])
    obtain ⟨eps, others, active, draining, entries, fields⟩ := commitEpoch_held (map := commitMap c.part map (beginCmd c 0x310 s))
      (swap := swap) live' held (fun x hx => mem_commitSwap hx) (commitSwap_once ..)
    rw [swap_eq] at work
    have num : (newEpoch c.part (commitMap c.part map (beginCmd c 0x310 s)) swap (beginCmd c 0x310 s)).num = (old.num + 1) % 65536 := by
      rw [newEpoch, curEpoch_one live']
    refine ⟨_, _, ?_, eps, num, now_of_kept kept, rfl, commitMap_congr kept.epochs _ _,
      fun q hq => (others q hq).trans (eps_congr kept.epochs q), fun x low high => ?_, draining,
      entries.trans (timeless_congr kept.tabs), fields.trans kept.fields⟩
    · rw [exec_epochCommit, execEpochCommit, runCmd_ready ready ok, work, now_of_kept kept, State.curEpoch, eps]
      rw [show [old, newEpoch c.part (commitMap c.part map (beginCmd c 0x310 s)) swap (beginCmd c 0x310 s)].getLastD Epoch.initial
        = newEpoch c.part (commitMap c.part map (beginCmd c 0x310 s)) swap (beginCmd c 0x310 s) from rfl, num]
    · rw [active x low high, activeBank_congr kept.tabs]
  case table =>
    intro swap free
    have kept := beginCmd_kept c 0x104 s
    have live' : (beginCmd c 0x104 s).eps c.part = [old] := by rw [eps_congr kept.epochs, live]
    have swap_eq : eventTables (beginCmd c 0x104 s) c.part t .rebuild = swap := eventTables_congr kept.tabs ..
    have work := tableCommitWork_held (t := t) live' (by rw [swap_eq, compareHolds_congr kept.tabs, free])
    have event := eventTable_of_tableCommitCheck ok
    obtain ⟨eps, _, active, _, entries, _⟩ := commitEpoch_held (map := old.slots)
      (swap := swap) live' held (fun x hx => (mem_eventTables event hx).2.1) (eventTables_once ..)
    rw [swap_eq] at work
    refine ⟨_, _, ?_, eps, by rw [newEpoch, curEpoch_one live'], rfl, fun x low high => ?_, entries.trans (timeless_congr kept.tabs)⟩
    · rw [exec_tableCommit, execTableCommit, runCmd_ready ready ok, work, now_of_kept kept]
    · rw [active x low high, activeBank_congr kept.tabs]
  case keeps => rw [exec_epochRetire, retireDue_held live held]
  case retires => exact ⟨_, exec_epochRetire p s, retireDue_retires live due⟩
  case one => rw [exec_epochRetire, retireDue_one live]
  case status =>
    have kept := beginCmd_kept c 0x311 s
    rw [exec_epochStatus, execEpochStatus, runCmd_ready ready rfl, eps_congr kept.epochs, now_of_kept kept]

end Sys2Proof.Proofs
end

