-- ==== Sys2Proof/Proofs/Carries.lean ====
section
/-! PROOF. The rules of contexts, hot forms and carries, what software sees of a carry (O23), and the
evictions and closed holds (O24). -/

namespace Sys2Proof.Proofs
open Sys2Proof.Machine

variable {s : State}

/-! ### Contexts and hot forms -/

theorem ctx_setCtx_self (i : Nat) (c : FlowCtx) : (s.setCtx i c).ctx i = c := smGet_smSet_self ..
theorem ctx_setCtx_ne {i j : Nat} (c : FlowCtx) (h : j ≠ i) : (s.setCtx i c).ctx j = s.ctx j := smGet_smSet_ne _ _ _ h

theorem find?_mem_delFirst {α : Type} {p : α → Bool} {l : List α} {x : α} (found : l.find? p = some x) :
    (delFirst p l).length + 1 = l.length ∧ ∀ q : α → Bool, (l.filter q).length = ((delFirst p l).filter q).length + if q x then 1 else 0 := by
  induction l with
  | nil => cases found
  | cons y l ih =>
    rw [List.find?_cons] at found
    unfold delFirst
    cases hit : p y with
    | true =>
      rw [hit] at found
      obtain rfl := Option.some.inj found
      refine ⟨rfl, fun q => ?_⟩
      cases keep : q y <;> simp [keep]
    | false =>
      rw [hit] at found
      obtain ⟨len, counts⟩ := ih found
      refine ⟨by simp [len], fun q => ?_⟩
      have rest := counts q
      cases keep : q y <;> simp [keep, rest]
      omega

theorem hotOf_index {i : Nat} {h : HotForm} (found : s.hotOf i = some h) : h.index = i := by
  simpa using List.find?_some found

theorem merged_hot {i : Nat} {h : HotForm} (found : s.hotOf i = some h) : s.merged i = mergeHot s (s.ctx i) h := by
  simp [State.merged, found]

theorem merged_cold {i : Nat} (none_ : s.hotOf i = none) : s.merged i = s.ctx i := by simp [State.merged, none_]

/-! ### A carry applied (05 R166) -/

/-- The queue of carries without the one that the agent applies: that one counts no longer, and every other does. -/
theorem pendingCarries_delFirst {t : State} {p : Carry → Bool} {c : Carry} (found : s.flow.carries.find? p = some c)
    (rest : t.flow.carries = delFirst p s.flow.carries) (i f : Nat) :
    pendingCarries s i f = pendingCarries t i f + if c.index = i ∧ c.field = f then 1 else 0 := by
  rw [pendingCarries, pendingCarries, rest, (find?_mem_delFirst found).2]
  simp

/-- A carry of a counter is worth 2 to the width of its low part, whether it is still pending or in the context. -/
theorem mergeLow_carry {w : Nat} (hw : w ≤ 64) (old : DWord) (lo n : Nat) :
    dw (mergeLow (old + dw (1 * 2 ^ w)).toNat lo w n) = dw (mergeLow old.toNat lo w (n + 1)) := by
  have pow : 2 ^ 64 = 2 ^ w * 2 ^ (64 - w) := by rw [← Nat.pow_add]; congr 1; omega
  have pos : 0 < 2 ^ w := Nat.two_pow_pos w
  have high : (old.toNat + 2 ^ w) % 2 ^ 64 / 2 ^ w * 2 ^ w = (old.toNat / 2 ^ w + 1) * 2 ^ w % 2 ^ 64 := by
    rw [pow, Nat.mod_mul_right_div_self, Nat.add_div_right _ pos, Nat.mul_comm (2 ^ w) (2 ^ (64 - w)), Nat.mul_mod_mul_right]
  refine BitVec.eq_of_toNat_eq ?_
  simp only [dw, BitVec.toNat_ofNat, BitVec.toNat_add, Nat.one_mul, mergeLow, Nat.add_mod_mod]
  rw [high, Nat.add_assoc, Nat.mod_add_mod, Nat.succ_mul, Nat.succ_mul]
  congr 1
  omega

theorem carryStep_eq {stack : Nat} {c : Carry} (up : s.up = true)
    (found : s.flow.carries.find? (fun x => decide (stackOfIdx x.index = stack)) = some c) :
    FabFrame ({ s with flow := { s.flow with carries := delFirst (fun x => decide (stackOfIdx x.index = stack)) s.flow.carries } }.setCtx
      c.index (applyCarry c.field 1 (s.ctx c.index))) (carryStep stack s) := by
  unfold carryStep
  dsimp only
  rw [up, found]
  dsimp only
  split
  · exact sendMsg_frame ..
  · exact FabFrame.refl _

theorem mergeHot_pkts (x : FlowCtx) (h : HotForm) :
    (mergeHot s x h).pkts = dw (mergeLow x.pkts.toNat h.pktsLo.toNat 16 (pendingCarries s h.index 0)) := rfl
theorem mergeHot_bytes (x : FlowCtx) (h : HotForm) :
    (mergeHot s x h).bytes = dw (mergeLow x.bytes.toNat h.bytesLo.toNat 32 (pendingCarries s h.index 1)) := rfl

theorem applyCarry_pkts (f : Nat) (x : FlowCtx) : (applyCarry f 1 x).pkts = if f = 0 then x.pkts + dw (1 * 2 ^ 16) else x.pkts := by
  unfold applyCarry
  split
  · rfl
  · split
    · rfl
    · split <;> rfl

theorem applyCarry_bytes (f : Nat) (x : FlowCtx) : (applyCarry f 1 x).bytes = if f = 1 then x.bytes + dw (1 * 2 ^ 32) else x.bytes := by
  unfold applyCarry
  split
  · next h => rw [if_neg (by omega)]
  · split
    · rfl
    · split <;> rfl

/-- What a merged counter shows does not tell whether a carry of it has been applied. -/
theorem mergeHot_carry {t : State} {c : Carry} {h : HotForm} {x : FlowCtx}
    (counts : ∀ f, pendingCarries s h.index f = pendingCarries t h.index f + if c.index = h.index ∧ c.field = f then 1 else 0) :
    let y := if c.index = h.index then applyCarry c.field 1 x else x
    (mergeHot t y h).pkts = (mergeHot s x h).pkts ∧ (mergeHot t y h).bytes = (mergeHot s x h).bytes := by
  intro y
  rw [mergeHot_pkts, mergeHot_pkts, mergeHot_bytes, mergeHot_bytes, counts 0, counts 1]
  by_cases mine : c.index = h.index
  · rw [show y = applyCarry c.field 1 x from if_pos mine, applyCarry_pkts, applyCarry_bytes]
    simp only [mine, true_and]
    constructor
    · split
      · exact mergeLow_carry (by decide) ..
      · rfl
    · split
      · exact mergeLow_carry (by decide) ..
      · rfl
  · rw [show y = x from if_neg mine]
    simp only [mine, false_and, if_false, Nat.add_zero, and_self]

theorem exec_lowPartCarry (stack : Nat) (s : State) : exec (.lowPartCarry stack) s = .next (carryStep stack s) := rfl

theorem up_of_running (h : s.sys.mode = .running) : s.up = true := by simp [State.up, h]

/-- Settles O23. -/
theorem carriesAreInvisible : Obligations.CarriesAreInvisible := by
  unfold Obligations.CarriesAreInvisible
  intro stack s c running found
  obtain ⟨f, o, step⟩ := carryStep_eq (up_of_running running) found
  have ctx (j : Nat) : (carryStep stack s).ctx j = if c.index = j then applyCarry c.field 1 (s.ctx j) else s.ctx j := by
    rw [step]
    split
    · next h =>
      subst h
      exact ctx_setCtx_self ..
    · next h => exact ctx_setCtx_ne _ (Ne.symm h)
  have carries : (carryStep stack s).flow.carries = delFirst (fun x => decide (stackOfIdx x.index = stack)) s.flow.carries := by rw [step]; rfl
  have hots (i : Nat) : (carryStep stack s).hotOf i = s.hotOf i := by rw [step]; rfl
  refine ⟨_, exec_lowPartCarry stack s, (ctx c.index).trans (if_pos rfl), fun j ne => (ctx j).trans (if_neg (Ne.symm ne)), ?_, fun i hot => ?_, ?_⟩
  · rw [carries]
    exact (find?_mem_delFirst found).1
  · obtain ⟨h, hot⟩ := Option.isSome_iff_exists.mp hot
    have index := hotOf_index hot
    have same := mergeHot_carry (t := carryStep stack s) (x := s.ctx i) (fun f => pendingCarries_delFirst found carries h.index f)
    rw [merged_hot ((hots i).trans hot), merged_hot hot, ctx i]
    rw [index] at same
    exact same
  · rw [step]
    rfl

/-! ### Hot forms that go back (05 R167) -/

theorem find?_filter_ne {α : Type} (key : α → Nat) (l : List α) (i j : Nat) (h : j ≠ i) :
    (l.filter (fun x => decide (key x ≠ i))).find? (fun x => decide (key x = j)) = l.find? (fun x => decide (key x = j)) := by
  rw [List.find?_filter]
  refine congrFun (congrArg _ (funext fun x => ?_)) l
  by_cases at_ : key x = j <;> simp [at_, h]

theorem find?_filter_self {α : Type} (key : α → Nat) (l : List α) (i : Nat) :
    (l.filter (fun x => decide (key x ≠ i))).find? (fun x => decide (key x = i)) = none :=
  List.find?_eq_none.mpr (fun x hx => by simpa using (List.mem_filter.mp hx).2)

theorem hotOf_dropHot_self (i : Nat) : (dropHot i s).hotOf i = none := find?_filter_self HotForm.index s.flow.hots i
theorem hotOf_dropHot_ne {i j : Nat} (h : j ≠ i) : (dropHot i s).hotOf j = s.hotOf j := find?_filter_ne HotForm.index s.flow.hots i j h

/-- A form of a flow at home that is evicted: its merged bytes are in the context, which is hot no longer. -/
theorem evictHot_home {h : HotForm} (home : h.index < 2 ^ 24) : ∃ o c, evictHot h s =
    { (dropHot h.index s).setCtx h.index c with obs := o } ∧ c.hot = false ∧ c.pkts = (mergeHot s (s.ctx h.index) h).pkts ∧
      c.bytes = (mergeHot s (s.ctx h.index) h).bytes := by
  have here : isLeasedIdx h.index = false := decide_eq_false (by omega)
  unfold evictHot
  rw [here]
  exact ⟨_, _, rfl, rfl, rfl, rfl⟩

theorem exec_hotCacheIdleEvict (sl st w : Nat) (s : State) : exec (.hotCacheIdleEvict sl st w) s = .next (idleEvict sl st w s) := rfl
theorem exec_holdTimeout (i : Nat) (s : State) : exec (.holdTimeout i) s = .next (holdTimeout i s) := rfl

/-! ### Holds (05 R177) -/

theorem holdOf_closeHold_self (i : Nat) (how : HoldClose) : (closeHold i how s).holdOf i = none :=
  find?_filter_self Hold.index s.flow.holds i
theorem holdOf_closeHold_ne {i j : Nat} (how : HoldClose) (h : j ≠ i) : (closeHold i how s).holdOf j = s.holdOf j :=
  find?_filter_ne Hold.index s.flow.holds i j h

/-- Settles O24. -/
theorem evictionAndHolds : Obligations.EvictionAndHolds := by
  unfold Obligations.EvictionAndHolds
  refine ⟨fun sl st w h s running found home => ⟨fun young => ?stays, fun free old => ?evicted⟩,
    fun i h s running found => ⟨fun early => ?open_, fun some_ late => ?closed⟩⟩
  case stays =>
    rw [exec_hotCacheIdleEvict, idleEvict, found]
    dsimp only
    rw [if_neg]
    simp only [Bool.and_eq_true, decide_eq_true_eq, Bool.not_eq_true', not_and, Nat.not_le]
    rintro ⟨_, free⟩
    exact young.resolve_left (by simp [free])
  case evicted =>
    obtain ⟨o, c, evicted, hot, pkts, bytes⟩ := evictHot_home (s := s) home
    have runs : idleEvict sl st w s = evictHot h s := by
      rw [idleEvict, found]
      dsimp only
      rw [if_pos (by simpa [up_of_running running, free] using old)]
    refine ⟨_, (exec_hotCacheIdleEvict ..).trans (congrArg _ (runs.trans evicted)), ?_⟩
    have ctx : ({ (dropHot h.index s).setCtx h.index c with obs := o } : State).ctx h.index = c := ctx_setCtx_self h.index c
    refine ⟨hotOf_dropHot_self h.index, by rw [ctx, hot], by rw [ctx, pkts], by rw [ctx, bytes],
      fun j ne => ⟨ctx_setCtx_ne (s := dropHot h.index s) c ne, hotOf_dropHot_ne ne⟩, rfl⟩
  case open_ =>
    rw [exec_holdTimeout, holdTimeout, found]
    dsimp only
    rw [if_neg]
    simp only [Bool.and_eq_true, decide_eq_true_eq, not_and]
    omega
  case closed =>
    refine ⟨closeHold i .late s, ?_, holdOf_closeHold_self i .late, fun j ne => holdOf_closeHold_ne .late ne, rfl, rfl, rfl⟩
    rw [exec_holdTimeout, holdTimeout, found]
    dsimp only
    rw [if_pos (by simp [up_of_running running, some_, late])]

end Sys2Proof.Proofs
end

