-- ==== Sys2Proof/Proofs/FlowAgent.lean ====
section
/-! PROOF. The flow agent and the fills of the hot cache (O25). -/

namespace Sys2Proof.Proofs
open Sys2Proof.Machine

variable {s : State}

theorem exists_updFirst {α : Type} {p : α → Bool} {f : α → α} {l : List α} {x : α} (mem : x ∈ l) (hit : p x = true) :
    ∃ y ∈ l, p y = true ∧ f y ∈ updFirst p f l := by
  induction l with
  | nil => cases mem
  | cons z l ih =>
    unfold updFirst
    by_cases first : p z = true
    · exact ⟨z, by simp, first, by simp [first]⟩
    · have later : x ∈ l := (List.mem_cons.mp mem).resolve_left (fun e => first (e ▸ hit))
      obtain ⟨y, hy, py, fy⟩ := ih later
      exact ⟨y, by simp [hy], py, by simp [first, fy]⟩

theorem exec_flowAgentFetch (k : Nat) (s : State) : exec (.flowAgentFetch k) s = .next (agentStep k s) := rfl
theorem exec_hotCacheFill (p : Nat) (s : State) : exec (.hotCacheFill p) s = .next (fillStep p s) := rfl

section
variable {r : FetchReq}

theorem agentStep_serves {stack : Nat} (up : s.up = true)
    (found : s.flow.reqs.find? (fun r => r.waiting && (!r.remote || cutOff s r) && decide (setA r.fh % 6 = stack)) = some r) :
    agentStep stack s = serveReq r s := by
  unfold agentStep
  rw [up, found]

/-- A request for a flow that is not here, at its own home. -/
theorem serveReq_absent (home : s.homeOf (bucketOf r.fh) = none) (absent : findFlow s r.fh = none) :
    serveReq r s = answerReq r (serveFlow r s).1 (serveFlow r s).2.1 (serveFlow r s).2.2 := by
  simp [serveReq, home, absent]

theorem serveFlow_creates {i : Nat} (absent : findFlow s r.fh = none) (free : freeWay s r.fh = some i) (first : r.firstPass = true)
    (room : flowCount s r.part < s.fval .flowQuota r.part) : serveFlow r s = (some i, true, s.setCtx i (newCtx s i r)) := by
  simp [serveFlow, absent, free, first, room]

theorem serveFlow_refuses (absent : findFlow s r.fh = none)
    (full : freeWay s r.fh = none ∨ r.firstPass = false ∨ s.fval .flowQuota r.part ≤ flowCount s r.part) :
    serveFlow r s = (none, false, s) := by
  simp only [serveFlow, absent]
  cases free : freeWay s r.fh with
  | none => rfl
  | some i =>
    rw [free] at full
    dsimp only
    rw [if_neg]
    simp only [Bool.and_eq_true, decide_eq_true_eq, not_and, Nat.not_lt]
    intro first
    simpa [first] using full

/-- A fill into a slice none of whose ways hold a form of the set. -/
theorem fillHot_empty {i p : Nat} (cold : s.hotOf i = none) (empty : hotWays s p (hotSet (s.ctx i).fh) = []) :
    fillHot i p s = (true, makeHot i p 0 s) := by
  simp only [fillHot, cold, empty]
  rfl

theorem hotOf_makeHot {i p w : Nat} (cold : s.hotOf i = none) :
    ∃ h, (makeHot i p w s).hotOf i = some h ∧ h.slice = p ∧ h.way = w ∧ h.fh = (s.ctx i).fh := by
  have hots : ∃ h : HotForm, h.slice = p ∧ h.way = w ∧ h.fh = (s.ctx i).fh ∧ h.index = i ∧
      (makeHot i p w s).flow.hots = s.flow.hots ++ [hotBytes (s.ctx i) h] := by
    refine ⟨_, ?_, ?_, ?_, ?_, rfl⟩ <;> rfl
  obtain ⟨h, slice, way, fh, index, hots⟩ := hots
  refine ⟨hotBytes (s.ctx i) h, ?_, slice, way, fh⟩
  have here : (hotBytes (s.ctx i) h).index = i := index
  rw [State.hotOf, hots, List.find?_append, show s.flow.hots.find? (fun h => decide (h.index = i)) = none from cold, Option.none_or]
  simp [here]

theorem ctx_makeHot_self (i p w : Nat) : (makeHot i p w s).ctx i = { s.ctx i with hot := true } := smGet_smSet_self ..
theorem ctx_makeHot_ne {i j : Nat} (p w : Nat) (h : j ≠ i) : (makeHot i p w s).ctx j = s.ctx j := smGet_smSet_ne _ _ _ h

/-- What a packet's way through a stage may write beside: the packets, the progress of the pipelines, the flow state and the counters. -/
def PathFrame (s t : State) : Prop :=
  ∃ f i o g, t = { s with flow := f, intake := i, obs := o, progress := g }

theorem PathFrame.trans {s t u : State} (a : PathFrame s t) (b : PathFrame t u) : PathFrame s u := by
  obtain ⟨_, _, _, _, a⟩ := a
  obtain ⟨_, _, _, _, b⟩ := b
  exact ⟨_, _, _, _, by rw [b, a]⟩

theorem PathFrame.eq {s t : State} (h : PathFrame s t) :
    t = { s with flow := t.flow, intake := t.intake, obs := t.obs, progress := t.progress } := by
  obtain ⟨_, _, _, _, h⟩ := h
  rw [h]

theorem setPkts_frame (l : List Packet) : PathFrame s (s.setPkts l) := ⟨s.flow, _, s.obs, _, rfl⟩
theorem flow_frame (f : Flow) : PathFrame s { s with flow := f } := ⟨f, s.intake, s.obs, s.progress, rfl⟩
theorem makeHot_frame (i p w : Nat) : PathFrame s (makeHot i p w s) := ⟨_, s.intake, _, s.progress, rfl⟩

/-- A fill of a flow whose context was found, into an empty set. -/
theorem fillStep_found {p i : Nat} (up : s.up = true) (found : s.flow.reqs.find? (fun r => decide (r.pipe = p) && !r.waiting) = some r)
    (index : r.found = some i) (cold : s.hotOf i = none) (empty : hotWays s p (hotSet (s.ctx i).fh) = []) :
    fillStep p s = wakeMiss p r.fh ((makeHot i p 0 (s.setReqs (delFirst (fun r => decide (r.pipe = p) && !r.waiting) s.flow.reqs))).modPkt
      r.pkt (fun k => { k with isNew := k.isNew || r.created })) := by
  have fill := fillHot_empty (s := s.setReqs (delFirst (fun r => decide (r.pipe = p) && !r.waiting) s.flow.reqs)) (i := i) (p := p) cold empty
  unfold fillStep
  dsimp only
  rw [up, found]
  dsimp only
  rw [index]
  dsimp only
  rw [fill]

end

/-- Settles O25. -/
theorem flowsAreCreatedAndFilled : Obligations.FlowsAreCreatedAndFilled := by
  unfold Obligations.FlowsAreCreatedAndFilled
  refine ⟨fun stack r s running found home absent => ⟨fun i free first room => ?created, fun full => ?refused⟩,
    fun p i r s running found index cold empty => ?filled⟩
  case created =>
    have serves : agentStep stack s = answerReq r (some i) true (s.setCtx i (newCtx s i r)) := by
      rw [agentStep_serves (up_of_running running) found, serveReq_absent home absent, serveFlow_creates absent free first room]
    have ctx : (answerReq r (some i) true (s.setCtx i (newCtx s i r))).ctx i = newCtx s i r := ctx_setCtx_self ..
    refine ⟨_, (exec_flowAgentFetch ..).trans (congrArg _ serves), ctx, ?_, ?_, ?_, ?_, fun j ne => ctx_setCtx_ne _ ne, rfl⟩
    all_goals rw [ctx]; rfl
  case refused =>
    have serves : agentStep stack s = answerReq r none false s := by
      rw [agentStep_serves (up_of_running running) found, serveReq_absent home absent, serveFlow_refuses absent full]
    refine ⟨_, (exec_flowAgentFetch ..).trans (congrArg _ serves), rfl, ?_, rfl⟩
    obtain ⟨y, _, same, answered⟩ := exists_updFirst (p := fun x => decide (x.pkt = r.pkt) && decide (x.fh = r.fh))
      (f := fun x => { x with waiting := false, found := none, created := false }) (List.mem_of_find?_eq_some found) (by simp)
    simp only [Bool.and_eq_true, decide_eq_true_eq] at same
    exact ⟨_, answered, rfl, rfl, same.1, same.2⟩
  case filled =>
    have step := fillStep_found (up_of_running running) found index cold empty
    obtain ⟨h, hot, slice, way, fh⟩ := hotOf_makeHot (p := p) (w := 0)
      (s := s.setReqs (delFirst (fun r => decide (r.pipe = p) && !r.waiting) s.flow.reqs)) cold
    have ctx_self := ctx_makeHot_self (s := s.setReqs (delFirst (fun r => decide (r.pipe = p) && !r.waiting) s.flow.reqs)) i p 0
    have ctx_ne {j : Nat} := ctx_makeHot_ne (s := s.setReqs (delFirst (fun r => decide (r.pipe = p) && !r.waiting) s.flow.reqs)) (i := i) (j := j) p 0
    refine ⟨_, h, (exec_hotCacheFill ..).trans (congrArg _ step), hot, slice, way, fh, ctx_self, fun j ne => ctx_ne ne,
      (find?_mem_delFirst found).1, fun k hk pipe hash => ?_, ?frame⟩
    case frame =>
      exact ((flow_frame _).trans ((makeHot_frame i p 0).trans ((setPkts_frame _).trans (setPkts_frame _)))).eq
    obtain ⟨o, _, rfl⟩ := List.mem_map.mp hk
    split at pipe
    · next woken => rw [if_pos woken]; simp
    · next other =>
      rw [if_neg other] at hash ⊢
      exact fun missed => other ⟨pipe, hash, missed⟩

end Sys2Proof.Proofs
end

