-- ==== Sys2Proof/Proofs/FlowStages.lean ====
section
/-! PROOF. Stage 4 and the flow sweeper (O26). -/

namespace Sys2Proof.Proofs
open Sys2Proof.Machine

variable {s : State}

/-! ### Packets that move -/

theorem findPkt_enterWick (k : Packet) : (s.enterWick k).findPkt k.id = some { k with place := .wicker } := by
  show (s.pkts.filter _ ++ [_]).find? _ = _
  rw [List.find?_append, find?_filter_self Packet.id s.pkts k.id, Option.none_or]
  simp

theorem enterWick_frame (k : Packet) : PathFrame s (s.enterWick k) := setPkts_frame _
theorem enterWick_flow (k : Packet) : (s.enterWick k).flow = s.flow := rfl

theorem atStage_takes {p : Nat} {pl : Place} {f : Packet → State → State} {k : Packet} (up : s.up = true)
    (oldest : s.oldestAt p pl = some k) (free : behindMark s k.id = false) : atStage p pl f s = f k s := by
  simp [atStage, up, oldest, free]

/-! ### What a packet adds to its flow -/

theorem foldl_sketchAdd_flow (k : Packet) (l : List Nat) : ∃ m, l.foldl (sketchAdd k) s = { s with flow := { s.flow with sketch := m } } := by
  induction l generalizing s with
  | nil => exact ⟨s.flow.sketch, rfl⟩
  | cons j l ih =>
    have one : ∃ m, sketchAdd k s j = { s with flow := { s.flow with sketch := m } } := by
      unfold sketchAdd
      dsimp only
      split
      · exact ⟨s.flow.sketch, rfl⟩
      · exact ⟨_, rfl⟩
    obtain ⟨m, one⟩ := one
    obtain ⟨m', rest⟩ := ih (s := { s with flow := { s.flow with sketch := m } })
    exact ⟨m', by rw [List.foldl_cons, one, rest]⟩

theorem foldl_sketchAdd_off (k : Packet) (off : ∀ j ≤ 3, s.fval .sketchEn j = 0) : (List.range 4).foldl (sketchAdd k) s = s := by
  have one (j : Nat) (hj : j ≤ 3) : sketchAdd k s j = s := by simp [sketchAdd, off j hj]
  simp only [show List.range 4 = [0, 1, 2, 3] from rfl, List.foldl_cons, List.foldl_nil]
  rw [one 0 (by decide), one 1 (by decide), one 2 (by decide), one 3 (by decide)]

/-- A counter of a hot flow after an addition below the size of its low part: the new low part, and one more carry where it has
wrapped, stand for the sum (05 R166). -/
theorem mergeLow_add16 (c lo n d : Nat) (hlo : lo < 2 ^ 16) (hd : d < 2 ^ 16) :
    let old := dw (mergeLow c lo 16 n)
    let new := old + dw d
    dw (mergeLow c (new.setWidth 16).toNat 16 (n + if old >>> 16 = new >>> 16 then 0 else 1)) = new := by
  intro old new
  have old_eq : old.toNat = (c / 2 ^ 16 * 2 ^ 16 + lo + n * 2 ^ 16) % 2 ^ 64 := BitVec.toNat_ofNat ..
  have new_eq : new.toNat = (old.toNat + d % 2 ^ 64) % 2 ^ 64 := BitVec.toNat_add ..
  have shift : (old >>> 16 = new >>> 16) ↔ old.toNat / 2 ^ 16 = new.toNat / 2 ^ 16 := by
    rw [← BitVec.toNat_inj, BitVec.toNat_ushiftRight, BitVec.toNat_ushiftRight, Nat.shiftRight_eq_div_pow, Nat.shiftRight_eq_div_pow]
  refine BitVec.eq_of_toNat_eq ?_
  simp only [dw, mergeLow, BitVec.toNat_ofNat, BitVec.toNat_setWidth, shift]
  split <;> omega

theorem mergeLow_add32 (c lo n d : Nat) (hlo : lo < 2 ^ 32) (hd : d < 2 ^ 32) :
    let old := dw (mergeLow c lo 32 n)
    let new := old + dw d
    dw (mergeLow c (new.setWidth 32).toNat 32 (n + if old >>> 32 = new >>> 32 then 0 else 1)) = new := by
  intro old new
  have old_eq : old.toNat = (c / 2 ^ 32 * 2 ^ 32 + lo + n * 2 ^ 32) % 2 ^ 64 := BitVec.toNat_ofNat ..
  have new_eq : new.toNat = (old.toNat + d % 2 ^ 64) % 2 ^ 64 := BitVec.toNat_add ..
  have shift : (old >>> 32 = new >>> 32) ↔ old.toNat / 2 ^ 32 = new.toNat / 2 ^ 32 := by
    rw [← BitVec.toNat_inj, BitVec.toNat_ushiftRight, BitVec.toNat_ushiftRight, Nat.shiftRight_eq_div_pow, Nat.shiftRight_eq_div_pow]
  refine BitVec.eq_of_toNat_eq ?_
  simp only [dw, mergeLow, BitVec.toNat_ofNat, BitVec.toNat_setWidth, shift]
  split <;> omega

theorem find?_updFirst {α : Type} {p : α → Bool} {f : α → α} {l : List α} {x : α} (found : l.find? p = some x)
    (kept : p x = true → p (f x) = true) : (updFirst p f l).find? p = some (f x) := by
  induction l with
  | nil => cases found
  | cons y l ih =>
    rw [List.find?_cons] at found
    unfold updFirst
    cases hit : p y with
    | true =>
      rw [hit] at found
      obtain rfl := Option.some.inj found
      simp [kept hit]
    | false =>
      rw [hit] at found
      simp [hit, ih found]

theorem hotOf_modHot {i : Nat} {h : HotForm} {f : HotForm → HotForm} (found : s.hotOf i = some h) (kept : (f h).index = h.index) :
    (s.modHot i f).hotOf i = some (f h) :=
  find?_updFirst found (fun same => by simpa [kept] using same)

/-- The carries of the histogram and flag counters have fields from 2 on. -/
theorem wrapped_eq (a b : FlowCtx) : ∃ l : List Nat, (∀ f ∈ l, 2 ≤ f) ∧ wrapped a b =
    (if a.pkts >>> 16 = b.pkts >>> 16 then [] else [0]) ++ (if a.bytes >>> 32 = b.bytes >>> 32 then [] else [1]) ++ l := by
  refine ⟨_, fun f hf => ?_, List.append_assoc ..⟩
  obtain hf | hf := List.mem_append.mp hf
  all_goals
    obtain ⟨k, _, hk⟩ := List.mem_filterMap.mp hf
    split at hk
    · cases hk
    · obtain rfl := Option.some.inj hk
      omega

theorem count_wrapped_pkts (a b : FlowCtx) : ((wrapped a b).filter (fun f => decide (f = 0))).length =
    if a.pkts >>> 16 = b.pkts >>> 16 then 0 else 1 := by
  obtain ⟨l, high, eq⟩ := wrapped_eq a b
  have none_ : l.filter (fun f => decide (f = 0)) = [] := List.filter_eq_nil_iff.mpr (fun f hf => by simpa using (by have := high f hf; omega))
  rw [eq, List.filter_append, List.filter_append, none_]
  split <;> split <;> rfl

theorem count_wrapped_bytes (a b : FlowCtx) : ((wrapped a b).filter (fun f => decide (f = 1))).length =
    if a.bytes >>> 32 = b.bytes >>> 32 then 0 else 1 := by
  obtain ⟨l, high, eq⟩ := wrapped_eq a b
  have none_ : l.filter (fun f => decide (f = 1)) = [] := List.filter_eq_nil_iff.mpr (fun f hf => by simpa using (by have := high f hf; omega))
  rw [eq, List.filter_append, List.filter_append, none_]
  split <;> split <;> rfl

/-- A stored view of a hot flow: its form holds the low parts, and the parts that wrapped are carries. -/
theorem storeView_hot {i : Nat} {h : HotForm} (old new : FlowCtx) (hot : s.hotOf i = some h) : storeView i old new s =
    { s.modHot i (hotBytes new) with flow := { (s.modHot i (hotBytes new)).flow with
      carries := s.flow.carries ++ (wrapped old new).map (fun f => { index := i, field := f }) } } := by
  simp only [storeView, hot]
  rfl

theorem pendingCarries_append (i f : Nat) (l : List Nat) {t : State}
    (rest : t.flow.carries = s.flow.carries ++ l.map (fun f => { index := i, field := f })) :
    pendingCarries t i f = pendingCarries s i f + (l.filter (fun g => decide (g = f))).length := by
  rw [pendingCarries, pendingCarries, rest, List.filter_append, List.length_append, List.filter_map, List.length_map]
  simp [Function.comp_def]

/-- What a first-pass packet of a hot flow changes of it: the counts of packets and bytes are up to date at once. -/
theorem merged_storeView {i n : Nat} {h : HotForm} {new : FlowCtx} {t : State} (hot : s.hotOf i = some h) (len : n < 2 ^ 32)
    (pkts : new.pkts = (s.merged i).pkts + 1) (bytes : new.bytes = (s.merged i).bytes + dw n)
    (hots : ∃ g, t.hotOf i = some g ∧ g.index = i ∧ g.pktsLo = new.pkts.setWidth 16 ∧ g.bytesLo = new.bytes.setWidth 32)
    (ctx : t.ctx i = s.ctx i)
    (carries : t.flow.carries = s.flow.carries ++ (wrapped (s.merged i) new).map (fun f => { index := i, field := f })) :
    (t.merged i).pkts = new.pkts ∧ (t.merged i).bytes = new.bytes := by
  obtain ⟨g, hot', index, pktsLo, bytesLo⟩ := hots
  have here := hotOf_index hot
  have merged := merged_hot hot
  rw [merged_hot hot', mergeHot_pkts, mergeHot_bytes, index, pktsLo, bytesLo, ctx, pendingCarries_append _ _ _ carries,
    pendingCarries_append _ _ _ carries, count_wrapped_pkts, count_wrapped_bytes, pkts, bytes, merged, mergeHot_pkts, mergeHot_bytes, here]
  exact ⟨mergeLow_add16 _ _ _ 1 (BitVec.isLt _) (by decide), mergeLow_add32 _ _ _ n (BitVec.isLt _) len⟩

theorem flowUpdate_pkts (k : Packet) (c : FlowCtx) : (flowUpdate k s c).pkts = c.pkts + 1 := rfl
theorem flowUpdate_bytes (k : Packet) (c : FlowCtx) : (flowUpdate k s c).bytes = c.bytes + dw k.frame.length := rfl

/-- What the update of a hot flow leaves, beside the heavy hitters. -/
def viewStored (i : Nat) (old new : FlowCtx) (hh : List HeavyEntry) (s : State) : State :=
  { s.modHot i (hotBytes new) with flow := { (s.modHot i (hotBytes new)).flow with
    carries := s.flow.carries ++ (wrapped old new).map (fun f => { index := i, field := f }), hh := hh } }

/-- The update of a hot flow by a first-pass packet counts the packet in the view that it stores. -/
theorem trackedUpdate_hot {i : Nat} {h : HotForm} (k : Packet) (hot : s.hotOf i = some h) : ∃ new hh,
    new.pkts = (s.merged i).pkts + 1 ∧ new.bytes = (s.merged i).bytes + dw k.frame.length ∧
      (trackedUpdate k i s).2 = viewStored i (s.merged i) new hh s := by
  have counted (e : Half) : { flowUpdate k s (s.merged i) with eventCnt := e }.pkts = (s.merged i).pkts + 1 ∧
      { flowUpdate k s (s.merged i) with eventCnt := e }.bytes = (s.merged i).bytes + dw k.frame.length := ⟨rfl, rfl⟩
  have views (on : Bool) (e : Half) : ∃ e', (if on then { flowUpdate k s (s.merged i) with eventCnt := e } else flowUpdate k s (s.merged i)) =
      { flowUpdate k s (s.merged i) with eventCnt := e' } := by
    cases on
    · exact ⟨(flowUpdate k s (s.merged i)).eventCnt, rfl⟩
    · exact ⟨e, rfl⟩
  unfold trackedUpdate
  dsimp only
  obtain ⟨e, view⟩ := views ((k.fv s .evCfg).testBit 9) (if (flowUpdate k s (s.merged i)).eventCnt - 1 = 0 then h16 (k.fv s .evEveryN)
    else (flowUpdate k s (s.merged i)).eventCnt - 1)
  rw [view, storeView_hot _ _ hot]
  split
  · exact ⟨_, s.flow.hh, (counted e).1, (counted e).2, rfl⟩
  · exact ⟨_, _, (counted e).1, (counted e).2, rfl⟩

/-- A first-pass packet of a tracked flow: the flow's update, the hold that it may open, and the packet's way into stage 5. -/
theorem passTracked_first {k : Packet} (i : Nat) (first : k.pass = 1) : ∃ u k', (u = (trackedUpdate k i s).2 ∨ u = openHold k i (trackedUpdate k i s).2) ∧
    passTracked k i s = u.enterWick k' ∧ k'.id = k.id ∧ k'.track = 3 ∧ k'.flowIdx = some i ∧ k'.frame = k.frame ∧ k'.epoch = k.epoch := by
  unfold passTracked
  rw [show decide (k.pass = 1) = true from decide_eq_true first]
  dsimp only
  rw [if_pos rfl]
  split
  · refine ⟨_, _, .inr rfl, rfl, ?_⟩
    exact ⟨rfl, rfl, rfl, rfl, rfl⟩
  · refine ⟨_, _, .inl rfl, rfl, ?_⟩
    exact ⟨rfl, rfl, rfl, rfl, rfl⟩

theorem hotOf_viewStored {i : Nat} {h : HotForm} {old new : FlowCtx} {hh : List HeavyEntry} (hot : s.hotOf i = some h) :
    (viewStored i old new hh s).hotOf i = some (hotBytes new h) := hotOf_modHot hot rfl

/-- The form of a flow after its first-pass packet, with the hold that the packet may have opened. -/
theorem passTracked_hot {k : Packet} {i : Nat} {h : HotForm} (first : k.pass = 1) (hot : s.hotOf i = some h)
    (len : k.frame.length < 2 ^ 32) : ∃ k', (passTracked k i s).findPkt k.id = some k' ∧ k'.place = .wicker ∧ k'.track = 3 ∧
      k'.flowIdx = some i ∧ k'.frame = k.frame ∧ k'.epoch = k.epoch ∧
      ((passTracked k i s).merged i).pkts = (s.merged i).pkts + 1 ∧
      ((passTracked k i s).merged i).bytes = (s.merged i).bytes + dw k.frame.length ∧
      (passTracked k i s).flow.ctxs = s.flow.ctxs ∧ PathFrame s (passTracked k i s) := by
  obtain ⟨u, k', from_, passes, id, track, idx, frame, epoch⟩ := passTracked_first (s := s) i first
  obtain ⟨new, hh, pkts, bytes, updated⟩ := trackedUpdate_hot k hot
  rw [updated] at from_
  have stored : ∃ g, u.hotOf i = some g ∧ g.index = i ∧ g.pktsLo = new.pkts.setWidth 16 ∧ g.bytesLo = new.bytes.setWidth 32 := by
    have index : (hotBytes new h).index = i := by
      rw [show (hotBytes new h).index = h.index from rfl]
      exact hotOf_index hot
    obtain rfl | rfl := from_
    · exact ⟨_, hotOf_viewStored hot, index, rfl, rfl⟩
    · exact ⟨_, hotOf_modHot (hotOf_viewStored hot) rfl, index, rfl, rfl⟩
  have ctxs : u.flow.ctxs = s.flow.ctxs := by obtain rfl | rfl := from_ <;> rfl
  have carries : u.flow.carries = s.flow.carries ++ (wrapped (s.merged i) new).map (fun f => { index := i, field := f }) := by
    obtain rfl | rfl := from_ <;> rfl
  have path : PathFrame s u := by obtain rfl | rfl := from_ <;> exact flow_frame _
  rw [passes]
  obtain ⟨mergedPkts, mergedBytes⟩ := merged_storeView (t := u.enterWick k') hot len pkts bytes stored
    (by rw [State.ctx, State.ctx, enterWick_flow, ctxs]) carries
  have found := findPkt_enterWick (s := u) k'
  rw [id] at found
  exact ⟨_, found, rfl, track, idx, frame, epoch, mergedPkts.trans pkts, mergedBytes.trans bytes, ctxs, path.trans (enterWick_frame k')⟩

/-! ### Stage 4 -/

theorem exec_flowStage (p : Nat) (s : State) : exec (.flowStage p) s = .next (atStage p .flow flowStage s) := rfl
theorem exec_flowSweep (i : Nat) (s : State) : exec (.flowSweep i) s = .next (flowSweep i s) := rfl

theorem flowStage_full {k : Packet} (full : missFull s k.pipe = true) : flowStage k s = s := if_pos full

theorem flowStage_untracked {k : Packet} (room : missFull s k.pipe = false) (first : k.pass = 1) (off : k.fv s .flowEn = 0)
    (noSketch : ∀ j ≤ 3, s.fval .sketchEn j = 0) : flowStage k s = (s.count (.ev k.part .flowUntracked)).enterWick
      { k with track := 1, flowIdx := none, fw := [0, 0, 0, 0, 0, 0, 0, 1] } := by
  simp [flowStage, room, first, off, foldl_sketchAdd_off k noSketch, passUntracked]

theorem flowStage_hot {k : Packet} {h : HotForm} (room : missFull s k.pipe = false) (first : k.pass = 1) (on : k.fv s .flowEn ≠ 0)
    (tracked : k.track ≠ 1) (hot : s.hotIn k.pipe k.fh = some h) :
    flowStage k s = passTracked k h.index (cacheBytes h.slice true true ((List.range 4).foldl (sketchAdd k) s)) := by
  simp [flowStage, room, first, on, tracked, hot]

/-! ### The sweeper (05 R178) -/

theorem sweepRoll_frame : ∃ f, sweepRoll s = { s with flow := f } ∧ f.ctxs = s.flow.ctxs ∧ f.held = s.flow.held ∧ f.leases = s.flow.leases ∧
    f.reqs = s.flow.reqs := by
  unfold sweepRoll
  dsimp only
  split
  · exact ⟨_, rfl, rfl, rfl, rfl, rfl⟩
  · exact ⟨s.flow, rfl, rfl, rfl, rfl, rfl⟩

/-- A visit of a flow with no timer set, that no other home's contexts share the index of. -/
theorem sweepVisit_still {i : Nat} (valid : (s.ctx i).valid = true) (timer : (s.ctx i).nextTimer = 0)
    (alone : ∀ l ∈ s.flow.held, flowIndex l.index ≠ i) : sweepVisit i s =
      if idleFlow s (s.ctx i) && !fillPending s i then (removeFlow i s).count (.ev (s.ctx i).part .flowExpired) else s := by
  have quiet : timerDue i s = s := by simp [timerDue, timer]
  have none_ : s.flow.held.filter (fun l => decide (flowIndex l.index = i)) = [] :=
    List.filter_eq_nil_iff.mpr (fun l hl => by simpa using alone l hl)
  simp only [sweepVisit, quiet, ite_self, none_, List.foldl_nil, valid, Bool.true_and]

theorem ctx_removeFlow_self (i : Nat) : (removeFlow i s).ctx i = { valid := false, gen := (s.ctx i).gen } := ctx_setCtx_self ..
theorem ctx_removeFlow_ne {i j : Nat} (h : j ≠ i) : (removeFlow i s).ctx j = s.ctx j := ctx_setCtx_ne _ h
theorem holdOf_removeFlow (i : Nat) : (removeFlow i s).holdOf i = none := holdOf_closeHold_self ..
theorem removeFlow_frame (i : Nat) : PathFrame s (removeFlow i s) := ⟨_, _, s.obs, _, rfl⟩

/-- Settles O26. -/
theorem flowStageAndSweep : Obligations.FlowStageAndSweep := by
  unfold Obligations.FlowStageAndSweep
  refine ⟨fun p k s running oldest free found => ⟨fun full => ?full, fun room first off noSketch => ?untracked,
    fun h room first on len tracked hotIn hot => ?tracked⟩, fun i s running low valid timer alone => ?sweep⟩
  case full => rw [exec_flowStage, atStage_takes (up_of_running running) oldest free, flowStage_full full]
  case untracked =>
    refine ⟨_, (exec_flowStage ..).trans (congrArg _ ((atStage_takes (up_of_running running) oldest free).trans
      (flowStage_untracked room first off noSketch))), findPkt_enterWick _, cntAt_count_self .., rfl, rfl⟩
  case tracked =>
    obtain ⟨m, sketched⟩ := foldl_sketchAdd_flow (s := s) k (List.range 4)
    have before : flowStage k s = passTracked k h.index (cacheBytes h.slice true true { s with flow := { s.flow with sketch := m } }) := by
      rw [flowStage_hot room first on tracked hotIn, sketched]
    obtain ⟨k', found', place, track, idx, frame, epoch, pkts, bytes, ctxs, path⟩ := passTracked_hot (k := k) (i := h.index)
      (s := cacheBytes h.slice true true { s with flow := { s.flow with sketch := m } }) first hot len
    refine ⟨_, k', (exec_flowStage ..).trans (congrArg _ ((atStage_takes (up_of_running running) oldest free).trans before)),
      found', place, track, idx, frame, epoch, pkts, bytes, ctxs, ?_⟩
    exact (PathFrame.trans ⟨_, s.intake, _, s.progress, rfl⟩ path).eq
  case sweep =>
    obtain ⟨f, rolled, ctxs, held, leases, reqs⟩ := sweepRoll_frame (s := s)
    have up : (!s.up || decide (2 ^ 24 ≤ i)) = false := by simpa [up_of_running running] using low
    have visit : i ∉ f.swept → flowSweep i s = sweepVisit i { s with flow := { f with swept := f.swept ++ [i] } } := by
      intro fresh
      simp only [flowSweep, up, rolled, List.contains_eq_mem, fresh, decide_false]
      rfl
    rw [rolled]
    dsimp only
    have ctx (j : Nat) : ({ s with flow := { f with swept := f.swept ++ [i] } } : State).ctx j = s.ctx j := by
      show smGet {} f.ctxs j = _
      rw [ctxs]
      rfl
    have still := sweepVisit_still (s := { s with flow := { f with swept := f.swept ++ [i] } }) (i := i) (by rw [ctx]; exact valid)
      (by rw [ctx]; exact timer) (by rw [show ({ s with flow := { f with swept := f.swept ++ [i] } } : State).flow.held = s.flow.held from held]; exact alone)
    have idle : idleFlow { s with flow := { f with swept := f.swept ++ [i] } } (s.ctx i) = idleFlow s (s.ctx i) := rfl
    have pending : fillPending { s with flow := { f with swept := f.swept ++ [i] } } i = fillPending s i := by
      show f.reqs.any _ = _
      rw [reqs]
      rfl
    rw [ctx, idle, pending] at still
    refine ⟨fun seen => ?_, fun fresh stays => ?_, fun fresh idle free => ?_⟩
    · rw [exec_flowSweep]
      simp only [flowSweep, up, rolled, List.contains_eq_mem, seen, decide_true]
      rfl
    · rw [exec_flowSweep, visit fresh, still, if_neg]
      obtain h | h := stays <;> simp [h]
    · rw [if_pos (by simp [idle, free])] at still
      have self := ctx_removeFlow_self (s := { s with flow := { f with swept := f.swept ++ [i] } }) i
      have other {j : Nat} := ctx_removeFlow_ne (s := { s with flow := { f with swept := f.swept ++ [i] } }) (i := i) (j := j)
      have hold := holdOf_removeFlow (s := { s with flow := { f with swept := f.swept ++ [i] } }) i
      have counted := cntAt_count_self (s := removeFlow i { s with flow := { f with swept := f.swept ++ [i] } })
        (.ev (s.ctx i).part .flowExpired) 1
      have frame := removeFlow_frame (s := { s with flow := { f with swept := f.swept ++ [i] } }) i
      generalize gone : removeFlow i { s with flow := { f with swept := f.swept ++ [i] } } = u at still self other hold counted frame
      have swept : u.flow.swept = f.swept ++ [i] := by rw [← gone]; rfl
      have obs : u.obs = s.obs := by rw [← gone]; rfl
      refine ⟨_, (exec_flowSweep ..).trans (congrArg _ ((visit fresh).trans still)), ?_, ?_, fun j ne => (other ne).trans (ctx j), hold, ?_, swept, ?_⟩
      · exact congrArg (·.valid) self
      · exact (congrArg (·.gen) self).trans (congrArg (·.gen) (ctx i))
      · rw [counted, State.cntAt, obs]
        rfl
      · exact ((flow_frame _).trans (frame.trans ⟨u.flow, u.intake, _, u.progress, rfl⟩)).eq

end Sys2Proof.Proofs
end

