-- ==== Sys2Proof/Proofs/FlowHomes.lean ====
section
/-! PROOF. The messages of flow homes, at the home and at the holder of a lease (O27). -/

namespace Sys2Proof.Proofs
open Sys2Proof.Machine

variable {s : State}

theorem fabOn_of_joined (running : s.sys.mode = .running) (joined : s.fab.joined = true) : s.fabOn = true := by
  simp [State.fabOn, up_of_running running, joined]

theorem takeMsg_eq (m : Msg) : ∃ f, takeMsg m s = { s with fab := f } := ⟨_, rfl⟩
theorem takeMsg_fabOn (m : Msg) : (takeMsg m s).fabOn = s.fabOn := rfl

section
variable {m : Msg} {t : State}

theorem exec_flowFetch (on : s.fabOn = true) : exec (.flowFetch m) s = .next (fetchAtHome m s) := congrArg _ (if_pos on)
theorem exec_flowWriteback (on : s.fabOn = true) : exec (.flowWriteback m) s = .next (flowWriteback m s) := congrArg _ (if_pos on)
theorem exec_flowCarry (on : s.fabOn = true) : exec (.flowCarry m) s = .next (flowCarry m s) := congrArg _ (if_pos on)
theorem exec_verdictWrite (on : s.fabOn = true) : exec (.verdictWrite m) s = .next (verdictWrite m s) := congrArg _ (if_pos on)
theorem exec_flowGrant (on : s.fabOn = true) : exec (.flowGrant m) s = .next (flowGrant m s) := congrArg _ (if_pos on)
theorem exec_vbyteUpdate (on : s.fabOn = true) : exec (.vbyteUpdate m) s = .next (vbyteUpdate m s) := congrArg _ (if_pos on)
theorem exec_flowRecall (on : s.fabOn = true) : exec (.flowRecall m) s = .next (flowRecall m s) := congrArg _ (if_pos on)
theorem exec_recallEvict (i : Nat) (s : State) : exec (.recallEvict i) s = .next (recallEvict i s) := rfl

/-- What the fabric and its messages leave of the flow state. -/
theorem FabFrame.flow_eq (h : FabFrame s t) : t.flow = s.flow := by
  obtain ⟨_, _, h⟩ := h
  rw [h]

theorem FabFrame.eq_of (h : FabFrame s t) : t = { s with fab := t.fab, obs := t.obs } := by
  obtain ⟨_, _, h⟩ := h
  rw [h]

/-! ### At the home -/

theorem leaseOf_grant {i : Nat} {l : Lease} (index : l.index = i) :
    (s.flow.leases.filter (fun l => decide (l.index ≠ i)) ++ [l]).find? (fun l => decide (l.index = i)) = some l := by
  rw [List.find?_append, find?_filter_self Lease.index s.flow.leases i, Option.none_or]
  simp [index]

theorem leaseOf_grant_ne {i j : Nat} {l : Lease} (index : l.index = i) (h : j ≠ i) :
    (s.flow.leases.filter (fun l => decide (l.index ≠ i)) ++ [l]).find? (fun l => decide (l.index = j)) = s.leaseOf j := by
  rw [List.find?_append, find?_filter_ne Lease.index s.flow.leases i j h]
  have not_it : [l].find? (fun l => decide (l.index = j)) = none := by simp [index, h.symm]
  rw [not_it, Option.or_none]
  rfl

/-- A granted flow: the context is hot and leased to the node. -/
theorem grantFlow_grants (i node : Nat) : ∃ l, (grantFlow i node s).leaseOf i = some l ∧ l.holder = node ∧ l.since = s.now ∧ l.recalled = false ∧
    (grantFlow i node s).ctx i = { s.ctx i with hot := true } ∧ (∀ j, j ≠ i → (grantFlow i node s).ctx j = s.ctx j) ∧
    (∀ j, j ≠ i → (grantFlow i node s).leaseOf j = s.leaseOf j) ∧
    grantFlow i node s = { s with flow := (grantFlow i node s).flow, fab := (grantFlow i node s).fab, obs := (grantFlow i node s).obs } := by
  have sent : FabFrame ((s.setCtx i { s.ctx i with hot := true }).setLeases (s.flow.leases.filter (fun l => decide (l.index ≠ i)) ++
      [{ index := i, holder := node, since := s.now, recalled := false, waiting := [] }])) (grantFlow i node s) := sendMsg_frame ..
  obtain ⟨f, o, sent⟩ := sent
  rw [sent]
  exact ⟨_, leaseOf_grant (s := s) rfl, rfl, rfl, rfl, ctx_setCtx_self (s := s) .., fun j ne => ctx_setCtx_ne (s := s) _ ne,
    fun j ne => leaseOf_grant_ne (s := s) rfl ne, rfl⟩

theorem fetchAtHome_free {i : Nat} (here : findFlow s (dw (uAt m.body 0 8)) = some i) (free : s.leaseOf i = none) (cold : s.hotOf i = none)
    (clean : (s.ctx i).poison = false) : fetchAtHome m s = grantFlow i m.src (takeMsg m s) := by
  have found : findFlow s (fetchOf m).fh = some i := here
  have found' : findFlow (takeMsg m s) (fetchOf m).fh = some i := here
  have clean' : ((takeMsg m s).ctx i).poison = false := clean
  have serves : serveFlow (fetchOf m) (takeMsg m s) = (some i, false, takeMsg m s) := by simp [serveFlow, found', clean']
  simp [fetchAtHome, found, free, cold, serveFetch, serves]

theorem flowWriteback_leased {i : Nat} {l : Lease} (here : findFlow s (ctxOfBytes m.body).fh = some i) (leased : s.leaseOf i = some l)
    (alone : l.waiting = []) : flowWriteback m s = if l.holder ≠ m.src then takeMsg m s
      else ((takeMsg m s).setCtx i (writtenBack (s.ctx i) (ctxOfBytes m.body))).setLeases
        (s.flow.leases.filter (fun x => decide (x.index ≠ i))) := by
  simp only [flowWriteback, here, leased, alone, serveWaiting, List.foldl_nil]
  rfl

theorem flowCarry_here {i : Nat} (here : findFlow s (dw (uAt m.body 0 8)) = some i) :
    flowCarry m s = (takeMsg m s).setCtx i (applyCarry (uAt m.body 8 4) (uAt m.body 12 4) (s.ctx i)) := by simp [flowCarry, here]

theorem verdictWrite_gone (gone : findFlow s (dw (uAt m.body 0 8)) = none) :
    verdictWrite m s = (takeMsg m s).count (.slot (uAt m.body 13 1) .verdictStale) := by
  have gone' : findFlow (takeMsg m s) (dw (uAt m.body 0 8)) = none := gone
  simp [verdictWrite, gone']

/-- A context in which a verdict stands. -/
def withVerdict (v : Verdict) (c : FlowCtx) : FlowCtx :=
  { c with vkind := v.kind, vvalid := true, vinvalid := v.invalid, vslot := v.slot, vepoch := h16 v.epoch, vclass := h16 v.cls,
           vscore := w32 (wrapU 32 v.score), vtime := v.time }

theorem storeVerdict_open {v : Verdict} (noHold : s.holdOf v.index = none) : storeVerdict v s =
    (s.setCtx v.index (withVerdict v (s.ctx v.index))).modHot v.index
      (fun h => { h with vkind := v.kind, vvalid := true, vinvalid := v.invalid }) := by
  have noHold' : ((s.setCtx v.index (withVerdict v (s.ctx v.index))).modHot v.index
      (fun h => { h with vkind := v.kind, vvalid := true, vinvalid := v.invalid })).holdOf v.index = none := noHold
  unfold storeVerdict
  dsimp only
  split
  · next h found => cases noHold'.symm.trans found
  · rfl

theorem verdictWrite_here {i : Nat} (here : findFlow s (dw (uAt m.body 0 8)) = some i) (fresh : staleVerdict s (s.ctx i) (verdictOf m i) = false)
    (noHold : s.holdOf i = none) : FabFrame (((takeMsg m s).setCtx i (withVerdict (verdictOf m i) (s.ctx i))).modHot i
      (fun h => { h with vkind := (verdictOf m i).kind, vvalid := true, vinvalid := (verdictOf m i).invalid })) (verdictWrite m s) := by
  have here' : findFlow (takeMsg m s) (dw (uAt m.body 0 8)) = some i := here
  have fresh' : staleVerdict (takeMsg m s) ((takeMsg m s).ctx (verdictOf m i).index) (verdictOf m i) = false := fresh
  have stored := storeVerdict_open (s := takeMsg m s) (v := verdictOf m i) noHold
  have runs : verdictWrite m s = verdictAtHome (verdictOf m i) (takeMsg m s) := by simp [verdictWrite, here']
  rw [runs, verdictAtHome]
  dsimp only
  rw [fresh', stored]
  split
  · contradiction
  · split
    · exact sendMsg_frame ..
    · exact FabFrame.refl _

end

/-! ### At the holder -/

section
variable {m : Msg} {i : Nat}

/-- The state in which a holder keeps a granted context. -/
def keptGrant (m : Msg) (i : Nat) (s : State) : State :=
  { s with flow := { s.flow with
      ctxs := smSet s.flow.ctxs i { ctxOfBytes m.body with hot := false }
      held := s.flow.held.filter (fun l => decide (l.index ≠ i)) ++
        [{ index := i, holder := m.src, since := s.now, recalled := s.fab.leaving.isSome, waiting := [] }] } }

/-- A grant that a request waits for. -/
theorem flowGrant_answered {r : FetchReq} (found : s.flow.reqs.find? (answers s m) = some r) (full : m.body ≠ []) :
    ∃ u, TraceFrame (takeMsg m s) u ∧ flowGrant m s = answerReq r (some (leasedIdx m.src m.arg.toNat))
      (decide ((ctxOfBytes m.body).pkts = 0)) (keptGrant m (leasedIdx m.src m.arg.toNat) u) := by
  have found' : (takeMsg m s).flow.reqs.find? (answers (takeMsg m s) m) = some r := found
  have waited := traceWait_frame r.part
    { unit := pipeUnit r.pipe, partner := m.src, layer := 0, oper := 0, kind := 6, since := r.since, command := 0 } (takeMsg m s)
  refine ⟨_, waited, ?_⟩
  unfold flowGrant
  dsimp only
  rw [found']
  dsimp only
  rw [if_neg full]
  rfl

/-- The context of a flow with the VBYTE of a message. -/
def withVbyte (m : Msg) (c : FlowCtx) : FlowCtx :=
  { c with vkind := uAt m.body 8 1 % 8, vvalid := (uAt m.body 8 1).testBit 3, vinvalid := (uAt m.body 8 1).testBit 4 }

theorem closeHold_eq (i : Nat) (how : HoldClose) (s : State) : ∃ f k p,
    closeHold i how s = { s with flow := f, intake := k, progress := p } ∧ f.ctxs = s.flow.ctxs := ⟨_, _, _, rfl, rfl⟩

theorem vbyteUpdate_held (held : heldIdx s m.src (dw (uAt m.body 0 8)) = some i) : ∃ f b k p,
    vbyteUpdate m s = { s with flow := f, fab := b, intake := k, progress := p } ∧ f.ctxs = smSet s.flow.ctxs i (withVbyte m (s.ctx i)) := by
  have held' : heldIdx (takeMsg m s) m.src (dw (uAt m.body 0 8)) = some i := held
  unfold vbyteUpdate
  dsimp only
  rw [held']
  dsimp only
  split
  · split
    · obtain ⟨f, k, p, closed, ctxs⟩ := closeHold_eq i (if (uAt m.body 8 1).testBit 4 then .invalid else .none)
        (((takeMsg m s).setCtx i (withVbyte m (s.ctx i))).modHot i (fun h =>
          { h with vkind := uAt m.body 8 1 % 8, vvalid := (uAt m.body 8 1).testBit 3, vinvalid := (uAt m.body 8 1).testBit 4 }))
      exact ⟨f, _, k, p, closed, ctxs⟩
    · exact ⟨_, _, s.intake, s.progress, rfl, rfl⟩
  · exact ⟨_, _, s.intake, s.progress, rfl, rfl⟩

/-- The flow state of a node that holds a flow no longer. -/
structure Returned (i : Nat) (f g : Flow) : Prop where
  held : g.held = f.held.filter (fun l => decide (l.index ≠ i))
  ctxs : g.ctxs = smDel f.ctxs i
  cold : g.hots.find? (fun h => decide (h.index = i)) = none

theorem returnLease_returns (leased : 2 ^ 24 ≤ i) : ∃ f o, FabFrame { s with flow := f, obs := o } (returnLease i s) ∧ Returned i s.flow f := by
  unfold returnLease
  split
  · next h hot =>
    obtain rfl := hotOf_index hot
    unfold evictHot
    dsimp only
    rw [show isLeasedIdx h.index = true from decide_eq_true leased, if_pos rfl]
    exact ⟨_, _, sendMsg_frame .., rfl, rfl, find?_filter_self HotForm.index s.flow.hots h.index⟩
  · next cold => exact ⟨_, s.obs, sendMsg_frame .., rfl, rfl, cold⟩

/-- A flow of this module's own table is held by no lease that ends. -/
theorem returnLease_held (i : Nat) : ∃ f o, FabFrame { s with flow := f, obs := o } (returnLease i s) ∧
    (f.held = s.flow.held ∨ f.held = s.flow.held.filter (fun l => decide (l.index ≠ i))) := by
  unfold returnLease
  split
  · next h hot =>
    obtain rfl := hotOf_index hot
    unfold evictHot
    dsimp only
    split
    · exact ⟨_, _, sendMsg_frame .., .inr rfl⟩
    · exact ⟨_, _, FabFrame.refl _, .inl rfl⟩
  · exact ⟨_, s.obs, sendMsg_frame .., .inr rfl⟩

theorem recallEvict_held (i : Nat) : ∃ f o, FabFrame { s with flow := f, obs := o } (recallEvict i s) ∧
    (f.held = s.flow.held ∨ f.held = s.flow.held.filter (fun l => decide (l.index ≠ i))) := by
  unfold recallEvict
  split
  · split
    · exact returnLease_held i
    · exact ⟨s.flow, s.obs, FabFrame.refl _, .inl rfl⟩
  · exact ⟨s.flow, s.obs, FabFrame.refl _, .inl rfl⟩

theorem flowRecall_held (held : heldIdx s m.src (dw (uAt m.body 0 8)) = some i) : flowRecall m s = recallEvict i { takeMsg m s with
    flow := { s.flow with held := updFirst (fun l => decide (l.index = i)) (fun l => { l with recalled := true }) s.flow.held } } := by
  have held' : heldIdx (takeMsg m s) m.src (dw (uAt m.body 0 8)) = some i := held
  unfold flowRecall
  dsimp only
  rw [held']
  rfl

/-- A lease of a flow after the first one of it was marked. -/
theorem recalled_of_marked {l : Lease} {h : List Lease} (found : (updFirst (fun l => decide (l.index = i))
    (fun l => { l with recalled := true }) h).find? (fun l => decide (l.index = i)) = some l) : l.recalled = true := by
  induction h with
  | nil => cases found
  | cons x h ih =>
    unfold updFirst at found
    split at found
    · next hit =>
      rw [List.find?_cons, show decide (({ x with recalled := true } : Lease).index = i) = true from hit] at found
      obtain rfl := Option.some.inj found
      rfl
    · next miss =>
      rw [List.find?_cons, show decide (x.index = i) = false from Bool.eq_false_iff.mpr miss] at found
      exact ih found

theorem smFind_smDel_self {α : Type} (m : SMap α) (k : Nat) : smFind (smDel m k) k = none := by
  rw [show smDel m k = m.filter (fun e => decide (e.1 ≠ k)) from rfl, smFind_filter m (fun j => decide (j ≠ k)) k]
  simp

theorem smFind_smDel_ne {α : Type} (m : SMap α) {j k : Nat} (h : j ≠ k) : smFind (smDel m k) j = smFind m j := by
  rw [show smDel m k = m.filter (fun e => decide (e.1 ≠ k)) from rfl, smFind_filter m (fun j => decide (j ≠ k)) j]
  simp [h]

end

/-- The holder's write-back ends its lease and is applied; another node's is not. -/
theorem flowWriteback_ends {m : Msg} {i : Nat} {l : Lease} (on : s.fabOn = true) (here : findFlow s (ctxOfBytes m.body).fh = some i)
    (leased : s.leaseOf i = some l) (alone : l.waiting = []) :
    ∃ t, exec (.flowWriteback m) s = .next t ∧ t = { s with flow := t.flow, fab := t.fab } ∧
      (l.holder ≠ m.src → t.flow = s.flow) ∧
      (l.holder = m.src → t.leaseOf i = none ∧ t.ctx i = writtenBack (s.ctx i) (ctxOfBytes m.body) ∧
        (t.ctx i).hot = false ∧ ∀ j, j ≠ i → t.ctx j = s.ctx j ∧ t.leaseOf j = s.leaseOf j) := by
  have runs := (exec_flowWriteback on).trans (congrArg Host.Outcome.next (flowWriteback_leased here leased alone))
  by_cases mine : l.holder = m.src
  · rw [if_neg (Classical.not_not.mpr mine)] at runs
    have ctx := ctx_setCtx_self (s := s) i (writtenBack (s.ctx i) (ctxOfBytes m.body))
    exact ⟨_, runs, rfl, fun other => absurd mine other, fun _ => ⟨find?_filter_self Lease.index s.flow.leases i, ctx,
      congrArg (·.hot) ctx, fun j ne => ⟨ctx_setCtx_ne (s := s) _ ne, find?_filter_ne Lease.index s.flow.leases i j ne⟩⟩⟩
  · rw [if_pos mine] at runs
    exact ⟨_, runs, rfl, fun _ => rfl, fun same => absurd same mine⟩

/-- A granted context that answers a request of the node. -/
theorem keptGrant_answers {u : State} (m : Msg) (i : Nat) (c : Bool) {r : FetchReq} (waits : r ∈ u.flow.reqs) :
    ∃ f, answerReq r (some i) c (keptGrant m i u) = { u with flow := f } ∧
      f.ctxs = smSet u.flow.ctxs i { ctxOfBytes m.body with hot := false } ∧
      (∃ l ∈ f.held, l.index = i ∧ l.holder = m.src ∧ l.since = u.now) ∧ ∃ x ∈ f.reqs, x.waiting = false ∧ x.found = some i := by
  obtain ⟨y, _, _, answered⟩ := exists_updFirst (p := fun x => decide (x.pkt = r.pkt) && decide (x.fh = r.fh))
    (f := fun x => { x with waiting := false, found := some i, created := c }) waits (by simp)
  exact ⟨_, rfl, rfl, ⟨{ index := i, holder := m.src, since := u.now, recalled := u.fab.leaving.isSome, waiting := [] },
    List.mem_append_right _ (List.mem_singleton_self _), rfl, rfl, rfl⟩, ⟨_, answered, rfl, rfl⟩⟩

/-- A grant that a request waits for is kept as a lease and answers the request. -/
theorem flowGrant_keeps {m : Msg} {r : FetchReq} (on : s.fabOn = true) (found : s.flow.reqs.find? (answers s m) = some r)
    (full : m.body ≠ []) :
    let i := leasedIdx m.src m.arg.toNat
    ∃ t, exec (.flowGrant m) s = .next t ∧ t.ctx i = { ctxOfBytes m.body with hot := false } ∧
      (∃ l ∈ t.flow.held, l.index = i ∧ l.holder = m.src ∧ l.since = s.now) ∧
      (∃ x ∈ t.flow.reqs, x.waiting = false ∧ x.found = some i) ∧ (∀ j, j ≠ i → t.ctx j = s.ctx j) ∧
      t = { s with flow := t.flow, fab := t.fab, obs := t.obs, hbm := t.hbm, darn := t.darn, epochNew := t.epochNew } := by
  intro i
  obtain ⟨u, ⟨h, o, d, e, waited⟩, granted⟩ := flowGrant_answered found full
  subst waited
  obtain ⟨f, kept, ctxs, held, answered⟩ := keptGrant_answers m i _ (u := { takeMsg m s with hbm := h, obs := o, darn := d, epochNew := e })
    (r := r) (List.mem_of_find?_eq_some found)
  have ctx (j : Nat) : smGet {} f.ctxs j = smGet {} (smSet s.flow.ctxs i { ctxOfBytes m.body with hot := false }) j := by rw [ctxs]; rfl
  refine ⟨_, (exec_flowGrant on).trans (congrArg _ (granted.trans kept)), ?_, held, answered, fun j ne => ?_, rfl⟩
  · exact (ctx i).trans (smGet_smSet_self ..)
  · exact (ctx j).trans (smGet_smSet_ne _ _ _ ne)

/-- A verdict for a flow that is here becomes its standing verdict. -/
theorem verdictWrite_stands {m : Msg} {i : Nat} (on : s.fabOn = true) (here : findFlow s (dw (uAt m.body 0 8)) = some i)
    (fresh : staleVerdict s (s.ctx i) (verdictOf m i) = false) (noHold : s.holdOf i = none) :
    ∃ t, exec (.verdictWrite m) s = .next t ∧ (t.ctx i).vvalid = true ∧
      (t.ctx i).vkind = uAt m.body 12 1 % 8 ∧ (t.ctx i).vslot = uAt m.body 13 1 ∧ (t.ctx i).pkts = (s.ctx i).pkts ∧
      (∀ j, j ≠ i → t.ctx j = s.ctx j) ∧ t = { s with flow := t.flow, fab := t.fab, obs := t.obs } := by
  obtain ⟨f, b, o, written, ctxs⟩ : ∃ f b o, verdictWrite m s = { s with flow := f, fab := b, obs := o } ∧
      f.ctxs = smSet s.flow.ctxs i (withVerdict (verdictOf m i) (s.ctx i)) := by
    obtain ⟨b, o, written⟩ := verdictWrite_here here fresh noHold
    exact ⟨_, _, _, written, rfl⟩
  have ctx : smGet {} f.ctxs i = withVerdict (verdictOf m i) (s.ctx i) := by rw [ctxs, smGet_smSet_self]
  refine ⟨_, (exec_verdictWrite on).trans (congrArg _ written), congrArg (·.vvalid) ctx, congrArg (·.vkind) ctx,
    congrArg (·.vslot) ctx, congrArg (·.pkts) ctx, fun j ne => ?_, rfl⟩
  exact (congrArg (fun l => smGet {} l j) ctxs).trans (smGet_smSet_ne _ _ _ ne)

/-- Settles O27. -/
theorem flowsAcrossNodes : Obligations.FlowsAcrossNodes := by
  unfold Obligations.FlowsAcrossNodes
  refine ⟨fun m s running joined => ?home, fun m s running joined => ?holder⟩
  case home =>
    have on := fabOn_of_joined running joined
    refine ⟨fun i here free cold clean => ?fetch, fun i l here leased alone => ?writeback, fun i here => ?carry, fun gone => ?stale,
      fun i here fresh noHold => ?verdict⟩
    case fetch =>
      obtain ⟨l, lease, holder, since, recalled, ctx, others, leases, frame⟩ := grantFlow_grants (s := takeMsg m s) i m.src
      exact ⟨_, l, (exec_flowFetch on).trans (congrArg _ (fetchAtHome_free here free cold clean)), lease, holder, since, recalled, ctx,
        others, leases, frame⟩
    case writeback => exact flowWriteback_ends on here leased alone
    case carry =>
      exact ⟨_, (exec_flowCarry on).trans (congrArg _ (flowCarry_here here)), ctx_setCtx_self (s := s) .., fun j ne => ctx_setCtx_ne (s := s) _ ne, rfl⟩
    case stale =>
      exact ⟨_, (exec_verdictWrite on).trans (congrArg _ (verdictWrite_gone gone)), rfl, cntAt_count_self .., rfl⟩
    case verdict => exact verdictWrite_stands on here fresh noHold
  case holder =>
    have on := fabOn_of_joined running joined
    refine ⟨fun r found full => ?grant, fun i held => ⟨?vbyte, ?recalled⟩, fun i l found leased => ⟨fun may => ?stays, fun may => ?returns⟩⟩
    case grant => exact flowGrant_keeps on found full
    case vbyte =>
      obtain ⟨f, b, k, p, updated, ctxs⟩ := vbyteUpdate_held held
      have ctx : smGet {} f.ctxs i = withVbyte m (s.ctx i) := by rw [ctxs, smGet_smSet_self]
      refine ⟨_, (exec_vbyteUpdate on).trans (congrArg _ updated), congrArg (·.vkind) ctx, congrArg (·.vvalid) ctx, congrArg (·.vinvalid) ctx,
        congrArg (·.pkts) ctx, fun j ne => ?_, rfl⟩
      exact (congrArg (fun l => smGet {} l j) ctxs).trans (smGet_smSet_ne _ _ _ ne)
    case recalled =>
      have runs := (exec_flowRecall on).trans (congrArg Host.Outcome.next (flowRecall_held held))
      obtain ⟨f, o, frame, leases⟩ := recallEvict_held (i := i) (s := { takeMsg m s with
        flow := { s.flow with held := updFirst (fun l => decide (l.index = i)) (fun l => { l with recalled := true }) s.flow.held } })
      refine ⟨_, runs, fun l found => ?_, ?_⟩
      · rw [frame.flow_eq] at found
        obtain same | gone := leases
        · exact recalled_of_marked (found := (congrArg (List.find? _) same).symm.trans found)
        · rw [show ({ s with flow := f, obs := o } : State).flow.held = _ from gone, find?_filter_self Lease.index] at found
          cases found
      · obtain ⟨b, o', frame⟩ := frame
        rw [frame]
        rfl
    case stays =>
      rw [exec_recallEvict, recallEvict, found]
      simp [may]
    case returns =>
      have runs : recallEvict i s = returnLease i s := by simp [recallEvict, found, on, may]
      obtain ⟨f, o, ⟨b, o', frame⟩, ⟨gone, ctxs, cold⟩⟩ := returnLease_returns (s := s) leased
      refine ⟨_, (exec_recallEvict i s).trans (congrArg _ (runs.trans frame)), ?_, ?_, cold, fun j ne => ?_, rfl⟩
      · exact (congrArg (List.find? _) gone).trans (find?_filter_self Lease.index s.flow.held i)
      · exact (congrArg (fun m => smFind m i) ctxs).trans (smFind_smDel_self s.flow.ctxs i)
      · exact (congrArg (fun m => smGet {} m j) ctxs).trans (congrArg (·.getD {}) (smFind_smDel_ne s.flow.ctxs ne))

end Sys2Proof.Proofs
end

