-- ==== Sys2Proof/Proofs/Intake.lean ====
section
/-! PROOF. Frames that arrive, and the fragments that an entry holds (O28). -/

namespace Sys2Proof.Proofs
open Sys2Proof.Machine

variable {s : State}

/-! ### Steering -/

/-- What steering a packet may write: the packets, the pipelines' progress and loads, the flow agent's requests, the epochs' counts
and the counters. -/
def SteerFrame (s t : State) : Prop :=
  ∃ i f e o g, t = { s with intake := i, flow := f, epochs := e, obs := o, progress := g }

theorem SteerFrame.refl (s : State) : SteerFrame s s := ⟨s.intake, s.flow, s.epochs, s.obs, s.progress, rfl⟩

theorem SteerFrame.trans {s t u : State} (a : SteerFrame s t) (b : SteerFrame t u) : SteerFrame s u := by
  obtain ⟨_, _, _, _, _, a⟩ := a
  obtain ⟨_, _, _, _, _, b⟩ := b
  exact ⟨_, _, _, _, _, by rw [b, a]⟩

theorem PathFrame.steer {s t : State} (h : PathFrame s t) : SteerFrame s t := by
  obtain ⟨f, i, o, g, h⟩ := h
  exact ⟨i, f, s.epochs, o, g, h⟩

theorem SteerFrame.eq {s t : State} (h : SteerFrame s t) :
    t = { s with intake := t.intake, flow := t.flow, epochs := t.epochs, obs := t.obs, progress := t.progress } := by
  obtain ⟨_, _, _, _, _, h⟩ := h
  rw [h]

theorem countFor_obs (k : Packet) (c : Ctr) : ∃ o, s.countFor k c = { s with obs := o } := by
  unfold State.countFor
  dsimp only
  split
  · exact ⟨_, rfl⟩
  · exact ⟨_, rfl⟩

theorem countBridge_obs (a b n : Nat) : ∃ o, countBridge a b n s = { s with obs := o } := by
  unfold countBridge
  split
  · exact ⟨s.obs, rfl⟩
  · exact ⟨_, rfl⟩

theorem requestFlow_flow (k : Packet) : ∃ r, requestFlow k s = { s with flow := { s.flow with reqs := r } } := by
  unfold requestFlow
  split
  · exact ⟨s.flow.reqs, rfl⟩
  · exact ⟨_, rfl⟩

/-- The packets as one of them enters the pipeline of its bucket. -/
def pipedPkts (k : Packet) (s : State) : List Packet :=
  s.pkts.filter (fun x => decide (x.id ≠ k.id)) ++ [{ k with pipe := s.pipeOf k.bucket, place := .reed }]

theorem enterPipe_split (k : Packet) : ∃ k' p a b n f, enterPipe k s =
    { countBridge a b n ((s.setPkts (pipedPkts k s)).countFor k' (.pipe p .pkts)) with flow := f } := by
  unfold enterPipe
  obtain ⟨r, asked⟩ := requestFlow_flow (s := { countBridge (s.engineOf k.port / 2) (dieOfPipe (s.pipeOf k.bucket)) k.frame.length
      ((s.setPkts (pipedPkts k s)).countFor { k with pipe := s.pipeOf k.bucket, place := .reed } (.pipe (s.pipeOf k.bucket) .pkts)) with
    flow := _ }) { k with pipe := s.pipeOf k.bucket, place := .reed }
  exact ⟨_, _, _, _, _, _, asked⟩

theorem cntAt_countFor_ne {k : Packet} {c : Ctr} {j : Nat} (h : j ≠ c.key) : (s.countFor k c).cntAt j = s.cntAt j := by
  unfold State.countFor
  dsimp only
  split
  · exact cntAt_count_ne h
  · exact cntAt_count_ne h

theorem cntAt_countBridge_ne {a b n j : Nat} (h : j ≠ (Ctr.die a 1).key) : (countBridge a b n s).cntAt j = s.cntAt j := by
  unfold countBridge
  split
  · rfl
  · exact cntAt_count_ne h

theorem enterPipe_eq (k : Packet) : ∃ f o g, enterPipe k s =
    { s with intake := { s.intake with pkts := pipedPkts k s }, flow := f, obs := o, progress := g } := by
  obtain ⟨k', p, a, b, n, f, entered⟩ := enterPipe_split (s := s) k
  obtain ⟨o, counted⟩ := countFor_obs (s := s.setPkts (pipedPkts k s)) k' (.pipe p .pkts)
  obtain ⟨o', bridged⟩ := countBridge_obs (s := { s.setPkts (pipedPkts k s) with obs := o }) a b n
  rw [entered, counted, bridged]
  exact ⟨_, _, _, rfl⟩

theorem ctorIdx_portCtr (m : PortCtr) : m.ctorIdx < 16 := by cases m <;> decide

theorem cntAt_enterPipe (k : Packet) {p : Nat} (hp : p < 32) (m : PortCtr) : (enterPipe k s).cntAt (Ctr.port p m).key = s.cntAt (Ctr.port p m).key := by
  obtain ⟨k', q, a, b, n, f, entered⟩ := enterPipe_split (s := s) k
  have hm := ctorIdx_portCtr m
  rw [entered]
  refine Eq.trans (cntAt_countBridge_ne (s := (s.setPkts (pipedPkts k s)).countFor k' (.pipe q .pkts)) ?_) (cntAt_countFor_ne ?_)
  · simp only [Ctr.key, ctrKey]
    omega
  · simp only [Ctr.key, ctrKey]
    omega

/-! ### A frame of an open port -/

/-- The packet of a frame, as it joins its port's intake FIFO. -/
def arrived (p : Nat) (f : Bytes) (s : State) : Packet :=
  { id := s.intake.nextPkt, pipe := 0, place := .intake, port := p, part := s.portOwner p, epoch := (s.curEpoch (s.portOwner p)).num,
    graph := (s.curEpoch (s.portOwner p)).fval .portGraph p, frame := f, macsec := false, intake := s.now, flowKey := [], fh := 0,
    bucket := 0, frag := false, fragFirst := false, fragEntry := none, carried := [], forced := 0 }

/-- The state in which it has. -/
def joined (p : Nat) (f : Bytes) (s : State) : State :=
  { addRef (s.portOwner p) (s.curEpoch (s.portOwner p)).num s with
    intake := { s.intake with nextPkt := s.intake.nextPkt + 1, pkts := s.intake.pkts ++ [arrived p f s] } }

theorem intakeFrame_joined (p : Nat) (f : Bytes) : intakeFrame p f false s = pullIntake p (joined p f s).pkts.length (joined p f s) := rfl

section
variable {p : Nat} {f : Bytes}

/-- The packet with the key of its walk. -/
def keyed (p : Nat) (f : Bytes) (s : State) : Packet :=
  keyPkt (s.graph (arrived p f s).graph) (walk (s.graph (arrived p f s).graph) f (fun x => !x.first) []) (arrived p f s)

theorem intakeHead_joined (idle : ∀ x ∈ s.intake.pkts, x.port = p → x.place ≠ .intake) :
    intakeHead p (joined p f s) = some (arrived p f s) := by
  have none_ : s.intake.pkts.find? (fun k => decide (k.place = .intake) && decide (k.port = p)) = none :=
    List.find?_eq_none.mpr (fun x hx h => by
      simp only [Bool.and_eq_true, decide_eq_true_eq] at h
      exact idle x hx h.2 h.1)
  show (s.intake.pkts ++ [arrived p f s]).find? _ = _
  rw [List.find?_append, none_]
  simp [arrived]

theorem bucketFor_joined (whole : (walk (s.graph (arrived p f s).graph) f (fun x => !x.first) []).frag = none) :
    bucketFor (arrived p f s) (joined p f s) = (keyed p f s).bucket := by
  have graph : (joined p f s).graph (arrived p f s).graph = s.graph (arrived p f s).graph := rfl
  unfold bucketFor
  dsimp only
  rw [graph, show (arrived p f s).frame = f from rfl, whole]
  rfl

/-- A REED input FIFO within its two banks has spilled nothing. -/
theorem fifoTakes_small {bank have_ n : Nat} (small : have_ + n < 2 * bank) : s.fifoTakes bank have_ n = true := by
  have none_ : spilledUnits bank (have_ + n) = 0 := Nat.div_eq_of_lt (by omega)
  simp [State.fifoTakes, spillCells, none_]

theorem reedBytes_joined (q : Nat) : (joined p f s).reedBytes q = s.reedBytes q := by
  have out : ([arrived p f s].filter (fun k => decide (k.place = .reed) && decide (k.pipe = q) && decide (k.pass = 1))) = [] := by
    simp [arrived]
  show total (((s.intake.pkts ++ [arrived p f s]).filter _).map _) = total ((s.intake.pkts.filter _).map _)
  rw [List.filter_append, out, List.append_nil]

theorem reedTakes_joined (whole : (walk (s.graph (arrived p f s).graph) f (fun x => !x.first) []).frag = none)
    (still : s.bucketMoving (keyed p f s).bucket = false)
    (room : s.reedBytes (s.pipeOf (keyed p f s).bucket) + f.length < 2 * s.impl.reedBank) :
    reedTakes (arrived p f s) (joined p f s) = true := by
  unfold reedTakes
  dsimp only
  rw [bucketFor_joined whole]
  refine Bool.or_eq_true_iff.mpr (.inr (fifoTakes_small ?_))
  rw [reedBytes_joined]
  exact room

theorem steerIn_joined (whole : (walk (s.graph (arrived p f s).graph) f (fun x => !x.first) []).frag = none)
    (still : s.bucketMoving (keyed p f s).bucket = false) :
    steerIn (arrived p f s) (joined p f s) = enterPipe (keyed p f s) (joined p f s) := by
  have graph : (joined p f s).graph (arrived p f s).graph = s.graph (arrived p f s).graph := rfl
  have still' : (joined p f s).bucketMoving (keyed p f s).bucket = false := still
  unfold steerIn
  dsimp only
  rw [graph, show (arrived p f s).frame = f from rfl, whole]
  unfold steerPkt
  rw [show (keyPkt _ _ (arrived p f s)) = keyed p f s from rfl, still']
  rfl

theorem pipedPkts_joined (young : ∀ x ∈ s.intake.pkts, x.id < s.intake.nextPkt) : pipedPkts (keyed p f s) (joined p f s) =
    s.intake.pkts ++ [{ keyed p f s with pipe := s.pipeOf (keyed p f s).bucket, place := .reed }] := by
  have kept : s.intake.pkts.filter (fun x => decide (x.id ≠ s.intake.nextPkt)) = s.intake.pkts :=
    List.filter_eq_self.mpr (fun x hx => decide_eq_true (Nat.ne_of_lt (young x hx)))
  have gone : [arrived p f s].filter (fun x => decide (x.id ≠ s.intake.nextPkt)) = [] := by simp [arrived]
  show (s.intake.pkts ++ [arrived p f s]).filter (fun x => decide (x.id ≠ s.intake.nextPkt)) ++ _ = _
  rw [List.filter_append, kept, gone, List.append_nil]
  rfl

theorem pullIntake_none {n : Nat} (empty : intakeHead p s = none) : pullIntake p n s = s := by
  cases n with
  | zero => rfl
  | succ n => simp [pullIntake, empty]

/-- A frame that is no fragment, of a bucket that does not move, enters REED at once where its FIFO has room. -/
theorem intakeFrame_enters (idle : ∀ x ∈ s.intake.pkts, x.port = p → x.place ≠ .intake)
    (whole : (walk (s.graph (arrived p f s).graph) f (fun x => !x.first) []).frag = none)
    (still : s.bucketMoving (keyed p f s).bucket = false)
    (room : s.reedBytes (s.pipeOf (keyed p f s).bucket) + f.length < 2 * s.impl.reedBank)
    (young : ∀ x ∈ s.intake.pkts, x.id < s.intake.nextPkt) :
    intakeFrame p f false s = enterPipe (keyed p f s) (joined p f s) := by
  obtain ⟨g, o, r, entered⟩ := enterPipe_eq (s := joined p f s) (keyed p f s)
  have empty : intakeHead p (enterPipe (keyed p f s) (joined p f s)) = none := by
    rw [entered]
    show (pipedPkts (keyed p f s) (joined p f s)).find? _ = none
    rw [pipedPkts_joined young]
    refine List.find?_eq_none.mpr (fun x hx h => ?_)
    simp only [Bool.and_eq_true, decide_eq_true_eq] at h
    obtain hx | hx := List.mem_append.mp hx
    · exact idle x hx h.2 h.1
    · rw [List.mem_singleton.mp hx] at h
      cases h.1
  have one : (joined p f s).pkts.length = s.intake.pkts.length + 1 := List.length_append ..
  rw [intakeFrame_joined, one, pullIntake, intakeHead_joined idle]
  dsimp only
  rw [if_pos (reedTakes_joined whole still room), steerIn_joined whole still, pullIntake_none empty]

end

/-! ### The MAC's counters -/

/-- A received frame has been counted. -/
def received (p n : Nat) (s : State) : State := (s.count (.port p .rxPkts)).count (.port p .rxBytes) n

theorem portKey_ne {p : Nat} {m k : PortCtr} (h : m.ctorIdx ≠ k.ctorIdx) : (Ctr.port p m).key ≠ (Ctr.port p k).key := by
  simp only [Ctr.key, ctrKey]
  omega

theorem received_counts (p n : Nat) : (received p n s).cntAt (Ctr.port p .rxPkts).key = s.cntAt (Ctr.port p .rxPkts).key + 1 ∧
    (received p n s).cntAt (Ctr.port p .rxBytes).key = s.cntAt (Ctr.port p .rxBytes).key + BitVec.ofNat 64 n := by
  refine ⟨(cntAt_count_ne (portKey_ne (by decide))).trans (cntAt_count_self ..), (cntAt_count_self ..).trans ?_⟩
  rw [cntAt_count_ne (portKey_ne (by decide))]

/-- A frame that its port drops is counted as received, and under the cause of its drop. -/
theorem dropped_counts (p n : Nat) {r : PortCtr} (pkts : PortCtr.rxPkts.ctorIdx ≠ r.ctorIdx) (bytes : PortCtr.rxBytes.ctorIdx ≠ r.ctorIdx) :
    let t := (received p n s).count (.port p r)
    (t.cntAt (Ctr.port p .rxPkts).key = s.cntAt (Ctr.port p .rxPkts).key + 1 ∧
      t.cntAt (Ctr.port p .rxBytes).key = s.cntAt (Ctr.port p .rxBytes).key + BitVec.ofNat 64 n) ∧ t = { s with obs := t.obs } ∧
      t.cntAt (Ctr.port p r).key = s.cntAt (Ctr.port p r).key + 1 := by
  obtain ⟨frames, octets⟩ := received_counts (s := s) p n
  refine ⟨⟨(cntAt_count_ne (portKey_ne pkts)).trans frames, (cntAt_count_ne (portKey_ne bytes)).trans octets⟩, rfl,
    (cntAt_count_self ..).trans ?_⟩
  have before : (received p n s).cntAt (Ctr.port p r).key = s.cntAt (Ctr.port p r).key :=
    (cntAt_count_ne (portKey_ne bytes.symm)).trans (cntAt_count_ne (portKey_ne pkts.symm))
  rw [before]
  rfl

theorem macDrop_received (p n : Nat) (f : Bytes) (marked : Bool) : macDrop p f marked (received p n s) = macDrop p f marked s := rfl

theorem receiveFrame_linked {p : Nat} {f : Bytes} (noStop : s.obs.stop = none) (linked : s.portLink p = true) : receiveFrame p f false s =
    match macDrop p f false s with
    | some r => (received p f.length s).count (.port p r)
    | none => secureFrame p f (received p f.length s) := by
  rw [← macDrop_received p f.length f false]
  unfold receiveFrame
  dsimp only
  rw [noStop, linked]
  rfl

/-- A frame that passes the MAC of a port without MACsec, and is no MAC control or in-band frame. -/
theorem secureFrame_plain {p : Nat} {f : Bytes} (plain : s.fact .portMacsec p = 0) (noCtl : etherType f ≠ 0x8808)
    (noInband : etherType f ≠ 0x88b5 ∨ s.fval .portInbandEn p ≠ 1) : secureFrame p f s = intakeFrame p f false s := by
  unfold secureFrame cleanFrame
  rw [if_pos (.inl plain), if_neg noCtl, if_neg fun both => noInband.elim (· both.1) (· both.2)]

theorem exec_frameReceive (p : Nat) (f : Bytes) (s : State) : exec (.frameReceive p f false) s = .next (receiveFrame p f false s) := rfl

/-! ### The fragments that an entry holds (03 R113, R115) -/

/-- A packet that waits in the hold of a fragment entry. -/
def heldBy (i : Nat) (k : Packet) : Prop := k.place = .fragHold i

/-- What releasing a fragment leaves of the holds and the table: no packet of the fragment's number is held by the entry, no other
packet comes into its hold, and the table is as it was, but for the end of the entry. -/
structure Released (i id : Nat) (s t : State) : Prop where
  frame : SteerFrame s t
  holds : ∀ x ∈ t.intake.pkts, heldBy i x → x ∈ s.intake.pkts ∧ x.id ≠ id
  others : ∀ j, j ≠ i → smFind t.intake.frags j = smFind s.intake.frags j
  entry : ∀ e, smFind s.intake.frags i = some e → ∃ e', smFind t.intake.frags i = some e' ∧ e'.holdAt = e.holdAt ∧ e'.key = e.key

theorem dropPkt_eq (r : DropCtr) (k : Packet) : ∃ e o g, dropPkt r k s =
    { s with intake := { s.intake with pkts := s.intake.pkts.filter (fun x => decide (x.id ≠ k.id)) }, epochs := e, obs := o, progress := g } := by
  obtain ⟨o, counted⟩ := countFor_obs (s := removePkt k s) k (.drop k.part r)
  refine ⟨(removePkt k s).epochs, o, (removePkt k s).progress, ?_⟩
  unfold dropPkt
  rw [counted]
  rfl

/-- Steering a packet takes what is listed of its number, and puts the packet into a pipeline or a bucket's hold or drops it. -/
theorem steerPkt_released (i : Nat) (k : Packet) : SteerFrame s (steerPkt k s) ∧ (steerPkt k s).intake.frags = s.intake.frags ∧
    ∀ x ∈ (steerPkt k s).intake.pkts, heldBy i x → x ∈ s.intake.pkts ∧ x.id ≠ k.id := by
  have others {x y : Packet} (free : ¬ heldBy i y) (hx : x ∈ s.intake.pkts.filter (fun x => decide (x.id ≠ k.id)) ++ [y]) (held : heldBy i x) :
      x ∈ s.intake.pkts ∧ x.id ≠ k.id := by
    obtain hx | hx := List.mem_append.mp hx
    · obtain ⟨mem, ne⟩ := List.mem_filter.mp hx
      exact ⟨mem, by simpa using ne⟩
    · exact absurd (List.mem_singleton.mp hx ▸ held) free
  unfold steerPkt
  split
  · split
    · exact ⟨(setPkts_frame _).steer, rfl, fun x hx held => others (y := { k with place := .bucketHold k.bucket }) (by simp [heldBy]) hx held⟩
    · obtain ⟨e, o, g, dropped⟩ := dropPkt_eq (s := s) .holdNobuf k
      rw [dropped]
      refine ⟨⟨_, s.flow, e, o, g, rfl⟩, rfl, fun x hx _ => ?_⟩
      obtain ⟨mem, ne⟩ := List.mem_filter.mp hx
      exact ⟨mem, by simpa using ne⟩
  · obtain ⟨f, o, g, entered⟩ := enterPipe_eq (s := s) k
    rw [entered]
    exact ⟨⟨_, f, s.epochs, o, g, rfl⟩, rfl, fun x hx held => others (y := { k with pipe := s.pipeOf k.bucket, place := .reed }) (by simp [heldBy]) hx held⟩

theorem fragPass_eq (i : Nat) (more : Bool) : ∃ l, fragPass i more s = { s with intake := { s.intake with frags := l } } ∧
    (∀ j, j ≠ i → smFind l j = smFind s.intake.frags j) ∧
    ∀ e, smFind s.intake.frags i = some e → ∃ e', smFind l i = some e' ∧ e'.holdAt = e.holdAt ∧ e'.key = e.key := by
  unfold fragPass
  split
  · next x found =>
    split
    · exact ⟨s.intake.frags, rfl, fun _ _ => rfl, fun e he => ⟨e, he, rfl, rfl⟩⟩
    · refine ⟨_, rfl, fun j ne => smFind_smSet_ne _ _ ne, fun e he => ⟨_, smFind_smSet_self .., ?_⟩⟩
      obtain rfl := Option.some.inj (found.symm.trans he)
      exact ⟨rfl, rfl⟩
  · exact ⟨s.intake.frags, rfl, fun _ _ => rfl, fun e he => ⟨e, he, rfl, rfl⟩⟩

theorem fragRelease_released (i : Nat) (carried : List (Nat × Word)) (forced : Nat) (k : Packet) :
    Released i k.id s (fragRelease i carried forced s k) := by
  have split_ : ∃ k' more, fragRelease i carried forced s k = fragPass i more (steerPkt k' s) ∧ k'.id = k.id := ⟨_, _, rfl, rfl⟩
  obtain ⟨k', more, releases, id⟩ := split_
  obtain ⟨frame, frags, holds⟩ := steerPkt_released (s := s) i k'
  obtain ⟨l, passed, others, entry⟩ := fragPass_eq (s := steerPkt k' s) i more
  rw [frags] at others entry
  rw [releases, passed, ← id]
  exact ⟨frame.trans ⟨_, _, _, _, _, rfl⟩, holds, others, entry⟩

theorem foldl_fragRelease (i : Nat) (carried : List (Nat × Word)) (forced : Nat) (l : List Packet) (all : ∀ x ∈ s.intake.pkts, heldBy i x → x.id ∈ l.map (·.id)) :
    let t := l.foldl (fragRelease i carried forced) s
    SteerFrame s t ∧ (∀ x ∈ t.intake.pkts, ¬ heldBy i x) ∧ (∀ j, j ≠ i → smFind t.intake.frags j = smFind s.intake.frags j) ∧
      ∀ e, smFind s.intake.frags i = some e → ∃ e', smFind t.intake.frags i = some e' ∧ e'.holdAt = e.holdAt ∧ e'.key = e.key := by
  induction l generalizing s with
  | nil => exact ⟨SteerFrame.refl s, fun x hx held => by simpa using all x hx held, fun _ _ => rfl, fun e he => ⟨e, he, rfl, rfl⟩⟩
  | cons k l ih =>
    obtain ⟨frame, holds, others, entry⟩ := fragRelease_released (s := s) i carried forced k
    obtain ⟨frame', none_, others', entry'⟩ := ih (s := fragRelease i carried forced s k) (fun x hx held => by
      obtain ⟨mem, ne⟩ := holds x hx held
      simpa [ne] using all x mem held)
    refine ⟨frame.trans frame', none_, fun j ne => (others' j ne).trans (others j ne), fun e he => ?_⟩
    obtain ⟨e1, he1, hold1, key1⟩ := entry e he
    obtain ⟨e2, he2, hold2, key2⟩ := entry' e1 he1
    exact ⟨e2, he2, hold2.trans hold1, key2.trans key1⟩

theorem fragReleaseAll_releases (i : Nat) (carried : List (Nat × Word)) (forced : Nat) :
    let t := fragReleaseAll i carried forced s
    SteerFrame s t ∧ (∀ x ∈ t.intake.pkts, ¬ heldBy i x) ∧ (∀ j, j ≠ i → smFind t.intake.frags j = smFind s.intake.frags j) ∧
      ∀ e, smFind s.intake.frags i = some e → ∃ e', smFind t.intake.frags i = some e' ∧ e'.holdAt = e.holdAt ∧ e'.key = e.key :=
  foldl_fragRelease i carried forced _ (fun x hx held => List.mem_map_of_mem (List.mem_filter.mpr ⟨hx, decide_eq_true held⟩))

/-- What steering makes of the packet of a frame. -/
theorem keyed_fields (p : Nat) (f : Bytes) (s : State) :
    let k := keyed p f s
    let g := s.graph ((s.curEpoch (s.portOwner p)).fval .portGraph p)
    let fh := flowHash (flowKeyOf (s.portOwner p) g (walk g f (fun x => !x.first) []).keys)
    k.id = s.intake.nextPkt ∧ k.frame = f ∧ k.port = p ∧ k.part = s.portOwner p ∧ k.epoch = (s.curEpoch (s.portOwner p)).num ∧
      k.intake = s.now ∧ k.fh = fh ∧ k.bucket = bucketOf fh ∧ k.pass = 1 := ⟨rfl, rfl, rfl, rfl, rfl, rfl, rfl, rfl, rfl⟩

theorem joined_frame (p : Nat) (f : Bytes) (s : State) : (joined p f s).eps (s.portOwner p) = (s.eps (s.portOwner p)).map (fun e =>
    if e.num = (s.curEpoch (s.portOwner p)).num then { e with refs := e.refs + 1 } else e) ∧ SteerFrame s (joined p f s) ∧
      (joined p f s).intake.nextPkt = s.intake.nextPkt + 1 :=
  ⟨eps_setEps_self (s := s) .., ⟨_, s.flow, _, s.obs, s.progress, rfl⟩, rfl⟩

theorem received_frame (p n : Nat) : SteerFrame s (received p n s) := ⟨s.intake, s.flow, s.epochs, _, s.progress, rfl⟩

theorem lt_of_portLink {p : Nat} (linked : s.portLink p = true) : p < 32 := by
  have mine : p < s.portCount := by
    simp only [State.portLink, Bool.and_eq_true, decide_eq_true_eq] at linked
    exact linked.1.1.1.2
  have le : s.portCount ≤ 32 := by unfold State.portCount; split <;> decide
  exact Nat.lt_of_lt_of_le mine le

theorem exec_fragHoldExpire (i : Nat) (s : State) : exec (.fragHoldExpire i) s = .next (fragExpire i s) := rfl
theorem exec_fragEntryFree (i : Nat) (s : State) : exec (.fragEntryFree i) s = .next (fragFree i s) := rfl

/-- Settles O28. -/
theorem framesAndFragments : Obligations.FramesAndFragments := by
  unfold Obligations.FramesAndFragments
  refine ⟨fun p f s noStop => ⟨fun dark => ?dark, fun linked => ?linked⟩, fun i e s running found => ⟨fun t0 holdAt first => ⟨fun early => ?waits, fun late => ?expires⟩,
    fun early => ?stays, fun due => ?freed⟩⟩
  case dark =>
    rw [exec_frameReceive]
    simp [receiveFrame, noStop, dark]
  case linked =>
    have hp : p < 32 := lt_of_portLink linked
    have runs := receiveFrame_linked (f := f) noStop linked
    have drops {r : PortCtr} (drop : macDrop p f false s = some r) :
        receiveFrame p f false s = (received p f.length s).count (.port p r) := by rw [runs, drop]
    refine ⟨_, exec_frameReceive p f s, fun off => ?_, fun on short => ?_, fun on long bad => ?_, fun on long good over_ => ?_,
      fun on long good fits full => ?_, fun on long good fits takes idle room plain noCtl noInband whole still young => ?enters⟩
    · rw [drops (r := .rxDisabled) (by simp [macDrop, off])]
      exact dropped_counts p f.length (by decide) (by decide)
    · rw [drops (r := .rxRunt) (by simp [macDrop, on, short])]
      exact dropped_counts p f.length (by decide) (by decide)
    · rw [drops (r := .rxFcs) (by simp [macDrop, on, Nat.not_lt.mpr long, bad])]
      exact dropped_counts p f.length (by decide) (by decide)
    · rw [drops (r := .rxOversize) (by simp [macDrop, on, Nat.not_lt.mpr long, good, over_])]
      exact dropped_counts p f.length (by decide) (by decide)
    · rw [drops (r := .rxOverrun) (by simp [macDrop, on, Nat.not_lt.mpr long, good, Nat.not_lt.mpr fits, full])]
      exact dropped_counts p f.length (by decide) (by decide)
    case enters =>
      have passes : macDrop p f false s = none := by simp [macDrop, on, Nat.not_lt.mpr long, good, Nat.not_lt.mpr fits, takes]
      have enters := intakeFrame_enters (s := received p f.length s) (p := p) (f := f) idle whole still room young
      have lands := pipedPkts_joined (s := received p f.length s) (p := p) (f := f) young
      obtain ⟨fl, o, g, entered⟩ := enterPipe_eq (s := joined p f (received p f.length s)) (keyed p f (received p f.length s))
      have counters (m : PortCtr) : (receiveFrame p f false s).cntAt (Ctr.port p m).key = (received p f.length s).cntAt (Ctr.port p m).key := by
        rw [runs, passes]
        dsimp only
        rw [secureFrame_plain (s := received p f.length s) plain noCtl noInband, enters]
        exact cntAt_enterPipe _ hp m
      obtain ⟨frames, octets⟩ := received_counts (s := s) p f.length
      have lands_ : receiveFrame p f false s = { joined p f (received p f.length s) with
          intake := { (joined p f (received p f.length s)).intake with
            pkts := s.intake.pkts ++ [{ keyed p f (received p f.length s) with
              pipe := s.pipeOf (keyed p f (received p f.length s)).bucket, place := .reed }] }
          flow := fl, obs := o, progress := g } := by
        rw [runs, passes]
        dsimp only
        rw [secureFrame_plain (s := received p f.length s) plain noCtl noInband, enters, entered, lands]
        rfl
      refine ⟨{ keyed p f (received p f.length s) with pipe := s.pipeOf (keyed p f (received p f.length s)).bucket, place := .reed },
        ⟨(counters .rxPkts).trans frames, (counters .rxBytes).trans octets⟩, ?_⟩
      obtain ⟨id, frame, port, part, epoch, time, fh, bucket, pass⟩ := keyed_fields p f (received p f.length s)
      obtain ⟨eps, joins, next⟩ := joined_frame p f (received p f.length s)
      generalize keyed p f (received p f.length s) = k at lands_ id frame port part epoch time fh bucket pass
      generalize joined p f (received p f.length s) = j at lands_ eps joins next
      have final : SteerFrame s (receiveFrame p f false s) := by
        refine ((received_frame p f.length).trans joins).trans ?_
        rw [lands_]
        exact ⟨_, _, j.epochs, _, _, rfl⟩
      rw [← final.eq]
      rw [lands_]
      refine ⟨rfl, id, next, rfl, frame, port, part, epoch, time, fh, bucket, ?_, pass, ?_, rfl⟩
      · exact congrArg s.pipeOf bucket
      · exact eps.trans (by rw [epoch]; rfl)
  case waits =>
    rw [exec_fragHoldExpire, fragExpire, found]
    dsimp only
    rw [holdAt]
    dsimp only
    rw [if_neg (by omega)]
  case expires =>
    obtain ⟨frame, none_, others, entry⟩ := fragReleaseAll_releases (s := s.setFrag i { e with holdAt := none }) i [] outOrphan
    have runs : fragExpire i s = fragReleaseAll i [] outOrphan (s.setFrag i { e with holdAt := none }) := by
      unfold fragExpire
      rw [found]
      dsimp only
      rw [holdAt]
      dsimp only
      rw [if_pos ⟨up_of_running running, first, late⟩]
    obtain ⟨e', found', hold', key'⟩ := entry { e with holdAt := none } (smFind_smSet_self ..)
    refine ⟨_, e', (exec_fragHoldExpire i s).trans (congrArg _ runs), none_, found', hold', key',
      fun j ne => (others j ne).trans (smFind_smSet_ne _ _ ne), ?_, ?_, ?_⟩
    all_goals
      obtain ⟨_, _, _, _, _, h⟩ := frame
      rw [h]
      rfl
  case stays =>
    rw [exec_fragEntryFree, fragFree, found]
    simp [early]
  case freed =>
    obtain ⟨frame, none_, others, _⟩ := fragReleaseAll_releases (s := s) i [] outOrphan
    have runs : fragFree i s = { fragReleaseAll i [] outOrphan s with
        intake := { (fragReleaseAll i [] outOrphan s).intake with
          frags := smDel (fragReleaseAll i [] outOrphan s).intake.frags i
          pkts := (fragReleaseAll i [] outOrphan s).intake.pkts.map (fun k => if k.fragEntry = some i then { k with fragEntry := none } else k) } } := by
      unfold fragFree
      rw [found]
      dsimp only
      rw [if_pos (by simp [up_of_running running, due])]
    refine ⟨_, (exec_fragEntryFree i s).trans (congrArg _ runs), smFind_smDel_self .., fun j ne => (smFind_smDel_ne _ ne).trans (others j ne),
      fun k hk held => ?_, ?_, ?_, ?_⟩
    · obtain ⟨x, hx, rfl⟩ := List.mem_map.mp hk
      split at held <;> exact none_ x hx held
    all_goals
      obtain ⟨_, _, _, _, _, h⟩ := frame
      rw [h]

end Sys2Proof.Proofs
end

