-- ==== Sys2Proof/Proofs/Stages.lean ====
section
/-! PROOF. The stages of the packet path from REED to the verdict merge, and the learning and aging of entries (O29 to O31). -/

namespace Sys2Proof.Proofs
open Sys2Proof.Machine

variable {s : State}

/-! ### Packets that move on in place -/

/-- What a stage of the packet path may change beside the packets: the intake's own state, the counters and the progress. -/
def StageFrame (s t : State) : Prop := ∃ i o g, t = { s with intake := i, obs := o, progress := g }

theorem findPkt_modPkt {k x : Packet} (found : s.findPkt k.id = some k) (same : x.id = k.id) :
    (s.modPkt k.id (fun _ => x)).findPkt k.id = some x :=
  find?_updFirst (f := fun _ => x) found (fun _ => by simp [same])

theorem pullAll_none (none_ : ∀ x ∈ s.pkts, x.place ≠ .intake) : pullAll s = s :=
  if_neg (by simpa using none_)

/-- A packet that REED passes on in place, where none waits in an intake FIFO. -/
theorem passedOn {k x : Packet} (p : Nat) (found : s.findPkt k.id = some k) (same : x.id = k.id) (away : x.place ≠ .intake)
    (empty : ∀ y ∈ s.pkts, y.place ≠ .intake) :
    ∃ i g, pullAll (noteBacklog p (s.modPkt k.id (fun _ => x))) = { s with intake := i, progress := g } ∧
      i.nextPkt = s.intake.nextPkt ∧ i.pkts.find? (fun y => decide (y.id = k.id)) = some x := by
  rw [pullAll_none]
  · exact ⟨_, _, rfl, rfl, findPkt_modPkt found same⟩
  · intro y hy
    obtain old | ⟨_, _, rfl⟩ := mem_updFirst (show y ∈ updFirst _ _ s.pkts from hy)
    · exact empty y old
    · exact away

/-! ### Sorting -/

theorem length_insertBy {α : Type} (lt : α → α → Bool) (x : α) (l : List α) : (insertBy lt x l).length = l.length + 1 := by
  induction l with
  | nil => rfl
  | cons y l ih => unfold insertBy; split <;> simp [ih]

theorem length_foldl_insertBy {α : Type} (lt : α → α → Bool) (l a : List α) :
    (l.foldl (fun a x => insertBy lt x a) a).length = a.length + l.length := by
  induction l generalizing a with
  | nil => rfl
  | cons x l ih => rw [List.foldl_cons, ih, length_insertBy, List.length_cons]; omega

theorem length_sortBy {α : Type} (lt : α → α → Bool) (l : List α) : (sortBy lt l).length = l.length := by
  rw [sortBy, length_foldl_insertBy, List.length_nil, Nat.zero_add]

/-! ### The three stages -/

theorem exec_parse (p : Nat) (s : State) : exec (.parse p) s = .next (atStage p .reed parseStage s) := rfl
theorem exec_patternScan (p : Nat) (s : State) : exec (.patternScan p) s = .next (atStage p .scan scanStage s) := rfl
theorem exec_lookup (p : Nat) (s : State) : exec (.lookup p) s = .next (atStage p .lookup lookupStage s) := rfl

theorem parseStage_parses {k : Packet} (found : s.findPkt k.id = some k) (empty : ∀ x ∈ s.pkts, x.place ≠ .intake) :
    ∃ t, parseStage k s = t ∧ t.findPkt k.id = some { parsePacket k s with place := .scan } ∧
      t.intake.nextPkt = s.intake.nextPkt ∧ t = { s with intake := t.intake, obs := t.obs, progress := t.progress } := by
  obtain ⟨o, counted⟩ : ∃ o, (if (parsePacket k s).short then s.count (.pipe k.pipe .scanShort) else s) = { s with obs := o } := by
    split
    · exact ⟨_, rfl⟩
    · exact ⟨s.obs, rfl⟩
  unfold parseStage
  rw [counted]
  obtain ⟨i, g, eq, nextPkt, now⟩ := passedOn (s := { s with obs := o }) (k := k)
    (x := { parsePacket k { s with obs := o } with place := .scan }) k.pipe found rfl nofun empty
  exact ⟨_, eq, now, nextPkt, rfl⟩

theorem length_recordHead (k : Packet) : (recordHead k).length = 16 := rfl

theorem scanStage_scans {k : Packet} (found : s.findPkt k.id = some k) :
    ∃ t k', scanStage k s = t ∧ t.findPkt k.id = some k' ∧
      k'.place = .lookup ∧ k'.frame = k.frame ∧ k'.epoch = k.epoch ∧ k'.outcome = k.outcome ∧
      k'.nMatch = (scanFrom (k.ep s).patterns k.scan 0 (slice k.frame k.payload k.scan)).length ∧
      k'.matches_.length = min 8 k'.nMatch ∧ ((k.ep s).patterns = [] → k'.groups = 0) ∧
      k'.words.take 16 = recordHead k' ∧ t = { s with intake := t.intake, progress := t.progress } := by
  refine ⟨_, _, rfl, findPkt_modPkt found rfl, rfl, rfl, rfl, rfl, length_sortBy _ _, ?_, fun none_ => ?_, ?_, rfl⟩
  · exact (List.length_map _).trans List.length_take
  · have empty (n i : Nat) (b : Bytes) : scanFrom [] n i b = [] := by
      induction b generalizing i with
      | nil => rfl
      | cons x b ih => rw [scanFrom, ih]; rfl
    show (sortBy _ _).foldl _ _ = _
    rw [none_, empty]
    rfl
  · exact List.take_left' (length_recordHead _)

theorem learnLookup_idle {k : Packet} (idle : learnCandidate k s = false) :
    learnLookup k s = ({ k with lrnDrop := false, learn := if k.pass = 1 then none else k.learn }, s) :=
  if_pos (by
    show (!learnCandidate k s) = true
    rw [idle]
    rfl)

theorem overlay_kind (a b : Machine.Action) : (overlay a b).kind = if b.kind = 0 then a.kind else b.kind := by
  simp only [overlay, apply_ite Action.kind, ite_self]

theorem overlay_cookie (a b : Machine.Action) : (overlay a b).cookie = if b.cookie = 0 then a.cookie else b.cookie := by
  simp only [overlay, apply_ite Action.cookie, ite_self]

theorem overlay_mirrorSet (a b : Machine.Action) : (overlay a b).mirrorSet = (a.mirrorSet || b.mirrorSet) := by
  simp only [overlay, apply_ite Action.mirrorSet, ite_self]
  cases b.mirrorSet <;> simp

/-- An exact match alone gives its entry's action. -/
theorem ruleAction_exact (a : Machine.Action) : (ruleAction a {} {} false).kind = a.kind ∧
    (ruleAction a {} {} false).cookie = a.cookie ∧ (ruleAction a {} {} false).mirrorSet = a.mirrorSet := by
  have keep : ruleAction a {} {} false = overlay {} a := rfl
  rw [keep, overlay_kind, overlay_cookie, overlay_mirrorSet]
  refine ⟨?_, ?_, Bool.false_or _⟩
  · split
    · next none_ => exact none_.symm
    · rfl
  · split
    · next none_ => exact none_.symm
    · rfl

theorem lookupStage_plain {k : Packet} {em : Option TEntry} {bad : Bool} {u : State} {tb} (at_ : u = { s with tabs := tb })
    (exact_ : exactLookup k s = (em, bad, u)) (found : s.findPkt k.id = some k)
    (noLpm : lpmFamily k s = none) (noRule : k.fv s .lkRuleWords = 0) (idle : learnCandidate k s = false) :
    ∃ t k', lookupStage k s = t ∧ t.findPkt k.id = some k' ∧ k'.place = .flow ∧ k'.rule = ruleAction (actOf em) {} {} false ∧
      (k.pass = 1 → k'.learn = none) ∧ k'.frame = k.frame ∧
      t = { s with intake := t.intake, tabs := tb, progress := t.progress } := by
  subst at_
  have lpm : lpmLookup k { s with tabs := tb } = (none, false, 0, { s with tabs := tb }) := by
    unfold lpmLookup
    rw [show lpmFamily k { s with tabs := tb } = none from noLpm]
  have rule : ruleStage k { s with tabs := tb } = (none, false, 0, { s with tabs := tb }) := if_pos noRule
  have learn := learnLookup_idle (s := { s with tabs := tb }) (k := { k with entryBad := k.entryBad || bad || false || false }) idle
  have eq : lookupStage k s = State.modPkt { s with tabs := tb } k.id (fun _ =>
      { k with entryBad := k.entryBad || bad || false || false, lrnDrop := false,
               learn := if k.pass = 1 then none else k.learn, rule := ruleAction (actOf em) {} {} false, place := .flow }) := by
    unfold lookupStage
    rw [exact_]
    dsimp only
    rw [lpm]
    dsimp only
    rw [rule]
    dsimp only
    rw [learn]
    dsimp only
    rw [if_pos (by decide)]
    rfl
  exact ⟨_, _, eq, findPkt_modPkt (s := { s with tabs := tb }) found rfl, rfl, rfl, fun first => if_pos first, rfl, rfl⟩

theorem length_updFirst {α : Type} (p : α → Bool) (f : α → α) (l : List α) : (updFirst p f l).length = l.length := by
  induction l with
  | nil => rfl
  | cons x l ih => unfold updFirst; split <;> simp [ih]

/-- Settles O29. -/
theorem stagesOneToThree : Obligations.StagesOneToThree := by
  intro p k s running free found
  have takes (pl : Place) (f : Packet → State → State) (oldest : s.oldestAt p pl = some k) : atStage p pl f s = f k s :=
    atStage_takes (up_of_running running) oldest free
  refine ⟨fun oldest empty => ?parse, fun oldest => ?scan, fun oldest noLpm noRule idle => ⟨fun noKey => ?miss, fun e mem key sound hit => ?hit⟩⟩
  case parse =>
    obtain ⟨t, step, now, next, frame⟩ := parseStage_parses found empty
    exact ⟨t, by rw [exec_parse, takes _ _ oldest, step], now, rfl, rfl, next, frame⟩
  case scan =>
    obtain ⟨t, k', step, rest⟩ := scanStage_scans found
    exact ⟨t, k', by rw [exec_patternScan, takes _ _ oldest, step], rest⟩
  case miss =>
    obtain ⟨t, k', step, now, place, rule, learn, frame, kept⟩ :=
      lookupStage_plain (tb := s.tabs) rfl (if_pos noKey) found noLpm noRule idle
    exact ⟨t, k', by rw [exec_lookup, takes _ _ oldest, step], now, place, rule, learn, frame, kept⟩
  case hit =>
    have exact_ : exactLookup k s = (some { e with hit := true }, false, setHit e s) := by
      unfold exactLookup
      dsimp only
      rw [if_neg key, hit]
      simp [useEntry, sound]
    obtain ⟨t, k', step, now, place, rule, -, frame, kept⟩ :=
      lookupStage_plain (tb := (setHit e s).tabs) rfl exact_ found noLpm noRule idle
    obtain ⟨kind, cookie, mirror⟩ := ruleAction_exact (actionOf e.action)
    have tabs : t.tabs = (setHit e s).tabs := (congrArg State.tabs kept :)
    refine ⟨t, k', by rw [exec_lookup, takes _ _ oldest, step], now, place, ?_, ?_, ?_, frame, ?_, ?_, ?_⟩
    · rw [rule]; exact kind
    · rw [rule]; exact cookie
    · rw [rule]; exact mirror
    · rw [tabs]; exact length_updFirst _ _ _
    · rw [tabs]
      obtain ⟨y, _, same, mem'⟩ := exists_updFirst (p := fun x => decide (x = e))
        (f := fun x : TEntry => { x with hit := true, hitAt := if x.hit then x.hitAt else some s.clk.pk, leaving := false }) mem (by simp)
      obtain rfl := of_decide_eq_true same
      exact ⟨_, mem', rfl, rfl⟩
    · rw [tabs]; exact kept

/-! ### Relocations keep every entry's content (04 R128, R129) -/

theorem map_updFirst {α β : Type} {p : α → Bool} {f : α → α} {g : α → β} (same : ∀ x, g (f x) = g x) (l : List α) :
    (updFirst p f l).map g = l.map g := by
  induction l with
  | nil => rfl
  | cons x l ih =>
    unfold updFirst
    split <;> simp [same, ih]

/-- The contents of the entries of every table. -/
def contents (s : State) : List TEntry := s.tabs.entries.map TEntry.content

theorem contents_relocate (e : TEntry) (k : Nat) : contents (relocate e k s) = contents s :=
  map_updFirst (p := fun x => decide (x = e)) (f := fun x => { x with slot := k, version := (x.version + 1) % 4 }) (fun _ => rfl) _

theorem contents_movePath (k : Nat) (l : List TEntry) : contents (movePath k l s).2 = contents s := by
  induction l generalizing k s with
  | nil => rfl
  | cons e l ih => exact (ih ..).trans (contents_relocate ..)

theorem contents_storeSlot (e : TEntry) : contents (storeSlot e s).2 = contents s := by
  unfold storeSlot
  dsimp only
  split
  · rfl
  · split
    · rfl
    · exact contents_movePath ..

theorem contents_placeFor (n : TEntry) (old : Option TEntry) : contents (placeFor n old s).2 = contents s := by
  have fresh : contents (if n.table = 5 then (some (n.group, 0), s)
      else if n.isDefault then (some ((freshSlot s n.table).1, 0), (freshSlot s n.table).2)
      else ((storeSlot n s).1.map (fun k => (k, 0)), (storeSlot n s).2) : Option (Nat × Nat) × State).2 = contents s := by
    split
    · rfl
    · split
      · rfl
      · exact contents_storeSlot n
  unfold placeFor
  dsimp only
  split
  · split
    · rfl
    · exact fresh
  · exact fresh

/-! ### A put entry -/

/-- An entry of the same record as another: its place, its age and the banks that hold it apart. -/
structure SameRecord (n e : TEntry) : Prop where
  table : e.table = n.table
  part : e.part = n.part
  key : e.key = n.key
  action : e.action = n.action
  ageable : e.ageable = n.ageable
  learned : e.learned = n.learned

theorem SameRecord.content {n e : TEntry} (h : SameRecord n e.content) : SameRecord n e := by
  obtain ⟨table, part, key, action, ageable, learned⟩ := h
  exact ⟨table, part, key, action, ageable, learned⟩

/-- The entry of a record that goes on with the age of another, where there is one. -/
def aged (n : TEntry) (old : Option TEntry) (now : DWord) : TEntry :=
  match old with
  | some o => { n with hit := o.hit, hitAt := o.hitAt, born := o.born, seen := o.seen }
  | none => { n with born := now }

theorem aged_record (n : TEntry) (old : Option TEntry) (now : DWord) : SameRecord n (aged n old now) := by
  cases old <;> exact ⟨rfl, rfl, rfl, rfl, rfl, rfl⟩

theorem putEntry_eq (n : TEntry) (b : Banks) (s : State) : ∃ m old, SameRecord n m ∧ putEntry n b s =
    match placeFor m old (removeKey m.table m.part m.key b s).2 with
    | (none, s1) => (none, { s with free := s1.free })
    | (some (slot, version), s1) =>
      let s2 := s1.setEntries (s1.tabs.entries ++ [{ m with bank0 := b.b0, bank1 := b.b1, slot := slot, version := version }])
      (if overLimits s s2 m.table m.part then none else some s2, { s with free := s2.free }) :=
  let mine := s.tabs.entries.filter (fun e => sameKey n.table n.part n.key e && e.touched b)
  let own := mine.filter (fun e => !(e.without b).live)
  ⟨aged n (mine.find? (·.inBank (s.activeBank n.part n.table))) s.now,
    (own.find? (·.inBank (s.activeBank n.part n.table))).or own.head?, aged_record .., rfl⟩

theorem removeKey_contents (t p : Nat) (key : Bytes) (b : Banks) (s : State) : contents (removeKey t p key b s).2 =
    (without (sameKey t p key) b s.tabs.entries).map TEntry.content := rfl

/-- A put entry stands behind the entries that its banks kept. -/
theorem putEntry_contents {n : TEntry} {b : Banks} {v w : State} (put : putEntry n b s = (some v, w)) :
    ∃ e : TEntry, contents v = (without (sameKey n.table n.part n.key) b s.tabs.entries).map TEntry.content ++ [e] ∧
      SameRecord n e ∧ e.bank0 = b.b0 ∧ e.bank1 = b.b1 := by
  obtain ⟨m, old, record, runs⟩ := putEntry_eq n b s
  obtain ⟨table, part, key, action, ageable, learned⟩ := record
  rw [show removeKey m.table m.part m.key b s = removeKey n.table n.part n.key b s by rw [table, part, key]] at runs
  have kept := contents_placeFor (s := (removeKey n.table n.part n.key b s).2) m old
  rw [runs] at put
  match place : placeFor m old (removeKey n.table n.part n.key b s).2, put, kept with
  | (none, _), put, _ => simp at put
  | (some (slot, version), s1), put, kept =>
    simp only [Prod.mk.injEq, Option.ite_none_left_eq_some, Option.some.injEq] at put
    obtain ⟨⟨_, put⟩, _⟩ := put
    subst put
    refine ⟨TEntry.content { m with bank0 := b.b0, bank1 := b.b1, slot := slot, version := version }, ?_,
      ⟨table, part, key, action, ageable, learned⟩, rfl, rfl⟩
    rw [← removeKey_contents, ← kept]
    exact List.map_append ..

/-! ### What is found of a written record -/

theorem tfind_of_contents {v : State} {t p x : Nat} {key : Bytes} :
    (v.tfind t p key x).map TEntry.content = (contents v).find? (isKey t p key x) := tfind_content t p key x

theorem isKey_record {n e : TEntry} (h : SameRecord n e) (t p : Nat) (key : Bytes) (x : Nat) :
    isKey t p key x e = (decide (n.table = t) && decide (n.part = p) && e.inBank x && n.key == key) := by
  rw [isKey, h.table, h.part, h.key]

theorem find?_contents_without {mine : TEntry → Bool} {b : Banks} {t p x : Nat} {key : Bytes} {l : List TEntry} :
    ((without mine b l).map TEntry.content).find? (isKey t p key x) = ((without mine b l).find? (isKey t p key x)).map TEntry.content := by
  rw [List.find?_map]
  rfl

theorem without_inBank_held {b : Banks} {x : Nat} (held : (if x = 0 then b.b0 else b.b1) = true) (e : TEntry) :
    (e.without b).inBank x = false := by
  unfold TEntry.inBank TEntry.without
  split at held <;> simp [held, *]

theorem removeKey_removes_from {t p x : Nat} {key : Bytes} {b : Banks} (held : (if x = 0 then b.b0 else b.b1) = true) :
    (removeKey t p key b s).2.tfind t p key x = none :=
  tfind_none (isKey_without (fun _ ht hp hk => sameKey_iff.mpr ⟨ht, hp, hk⟩) (without_inBank_held held))

/-- The banks that a put entry names find it. -/
theorem putEntry_finds {n : TEntry} {b : Banks} {v w : State} {x : Nat} (put : putEntry n b s = (some v, w))
    (held : (if x = 0 then b.b0 else b.b1) = true) :
    ∃ e, v.tfind n.table n.part n.key x = some e ∧ SameRecord n e := by
  obtain ⟨e, put_, record, b0, b1⟩ := putEntry_contents put
  have cleared : ((without (sameKey n.table n.part n.key) b s.tabs.entries).find? (isKey n.table n.part n.key x)) = none := by
    refine List.find?_eq_none.mpr (fun o ho => Bool.eq_false_iff.mp (isKey_without
      (fun e ht hp hk => sameKey_iff.mpr ⟨ht, hp, hk⟩) (without_inBank_held held) o ho))
  have at_ : e.inBank x = true := by rw [TEntry.inBank, b0, b1, held]
  have found := tfind_of_contents (v := v) (t := n.table) (p := n.part) (key := n.key) (x := x)
  rw [put_, List.find?_append, find?_contents_without, cleared] at found
  simp only [Option.map_none, Option.none_or, List.find?_cons, isKey_record record, at_, decide_true, Bool.and_self, BEq.rfl] at found
  obtain ⟨o, same, rfl⟩ := Option.map_eq_some_iff.mp found
  exact ⟨o, same, record.content⟩

/-! ### What writing a table may change -/

/-- The state of tables and the free values may change, but the queues of the learn engines stay. -/
def TabFrame (s t : State) : Prop := ∃ tb f, t = { s with tabs := tb, free := f } ∧ tb.learnQ = s.tabs.learnQ

theorem TabFrame.refl (s : State) : TabFrame s s := ⟨s.tabs, s.free, rfl, rfl⟩

theorem TabFrame.trans {s t u : State} (a : TabFrame s t) (b : TabFrame t u) : TabFrame s u := by
  obtain ⟨_, _, rfl, queue⟩ := a
  obtain ⟨tb, f, rfl, queue'⟩ := b
  exact ⟨tb, f, rfl, queue'.trans queue⟩

theorem TabFrame.eq {s t : State} (h : TabFrame s t) : t = { s with tabs := t.tabs, free := t.free } := by
  obtain ⟨_, _, rfl, _⟩ := h
  rfl

theorem TabFrame.queue {s t : State} (h : TabFrame s t) : t.tabs.learnQ = s.tabs.learnQ := by
  obtain ⟨_, _, rfl, queue⟩ := h
  exact queue

theorem relocate_tabFrame (e : TEntry) (k : Nat) : TabFrame s (relocate e k s) := ⟨_, s.free, rfl, rfl⟩
theorem setEntries_tabFrame (l : List TEntry) : TabFrame s (s.setEntries l) := ⟨_, s.free, rfl, rfl⟩

theorem movePath_tabFrame (k : Nat) (l : List TEntry) : TabFrame s (movePath k l s).2 := by
  induction l generalizing k s with
  | nil => exact .refl s
  | cons e l ih => exact (relocate_tabFrame e k).trans (ih ..)

theorem storeSlot_tabFrame (e : TEntry) : TabFrame s (storeSlot e s).2 := by
  unfold storeSlot
  dsimp only
  split
  · exact ⟨s.tabs, _, rfl, rfl⟩
  · split
    · exact .refl s
    · exact (TabFrame.trans ⟨s.tabs, _, rfl, rfl⟩ (movePath_tabFrame ..))

theorem placeFor_tabFrame (n : TEntry) (old : Option TEntry) : TabFrame s (placeFor n old s).2 := by
  have fresh : TabFrame s (if n.table = 5 then (some (n.group, 0), s)
      else if n.isDefault then (some ((freshSlot s n.table).1, 0), (freshSlot s n.table).2)
      else ((storeSlot n s).1.map (fun k => (k, 0)), (storeSlot n s).2) : Option (Nat × Nat) × State).2 := by
    split
    · exact .refl s
    · split
      · exact ⟨s.tabs, _, rfl, rfl⟩
      · exact storeSlot_tabFrame n
  unfold placeFor
  dsimp only
  split
  · split
    · exact .refl s
    · exact fresh
  · exact fresh

theorem putEntry_tabFrame {n : TEntry} {b : Banks} {v w : State} (put : putEntry n b s = (some v, w)) : TabFrame s v := by
  obtain ⟨m, old, _, runs⟩ := putEntry_eq n b s
  rw [runs] at put
  have placed := (setEntries_tabFrame _).trans (placeFor_tabFrame (s := (removeKey m.table m.part m.key b s).2) m old)
  match place : placeFor m old (removeKey m.table m.part m.key b s).2, put, placed with
  | (none, _), put, _ => simp at put
  | (some (slot, version), s1), put, placed =>
    simp only [Prod.mk.injEq, Option.ite_none_left_eq_some, Option.some.injEq] at put
    obtain ⟨⟨_, put⟩, _⟩ := put
    subst put
    exact placed.trans (setEntries_tabFrame _)

/-! ### Learning and aging -/

theorem exec_learnApply (die : Nat) (s : State) : exec (.learnApply die) s = .next (learnStep die s) := rfl
theorem exec_ageSweepVisit (p k : Nat) (s : State) : exec (.ageSweepVisit p k) s = .next (ageSweep p k s) := rfl

/-- The banks that learning and aging change hold the active bank (04 R150). -/
theorem ownBanks_active (p t : Nat) :
    (if s.activeBank p t = 0 then (s.ownBanks p t).b0 else (s.ownBanks p t).b1) = true := by
  unfold State.ownBanks
  cases s.bankState p t
  case draining =>
    simp only [oneBank]
    split <;> simpa
  all_goals exact ite_self true

theorem learnedAction_reads (port : Nat) (low : port < 32) :
    (actionOf (learnedAction port)).kind = 2 ∧ (actionOf (learnedAction port)).port = port := by
  have word : uAt (learnedAction port) 0 4 = 2 + port * 2 ^ 16 := by
    show leNat (leBytes 4 (2 + port * 2 ^ 16)) = _
    exact leNat_leBytes_lt (by omega)
  constructor
  · show bitsOf (uAt (learnedAction port) 0 4) 2 0 = 2
    rw [word, bitsOf]
    omega
  · show bitsOf (uAt (learnedAction port) 0 4) 20 16 = port
    rw [word, bitsOf]
    omega

theorem learnStep_applies {die : Nat} {r : LearnReq} {q : List LearnReq} (up : s.up = true) (queue : smGet [] s.tabs.learnQ die = r :: q)
    (still : s.relocating 1 r.part r.key = false) : learnStep die s =
      applyLearn r { s with tabs := { s.tabs with learnQ := smSet s.tabs.learnQ die q } } := by
  simp [learnStep, up, queue, still]

theorem rollAge_frame (p next : Nat) : ∃ tb, rollAge p next s = { s with tabs := tb } ∧ tb.entries = s.tabs.entries := by
  generalize same : rollAge = f
  delta rollAge at same
  subst same
  dsimp -iota -zeta only
  generalize agePhase s p next = phase
  obtain ⟨start, len⟩ := phase
  exact ⟨_, rfl, rfl⟩

theorem ageSweep_visits {part slot : Nat} {e : TEntry} {u : State} {ph : Nat × Nat} (up : s.up = true)
    (on : s.fval .agePeriod part ≠ 0) (rolled : rollAge part (s.fval .agePeriod part) s = u)
    (phase : agePhase u part (s.fval .agePeriod part) = ph)
    (found : (u.tbank 1 part (u.activeBank part 1)).find? (fun e => decide (e.slot = slot) && visitDue u ph.1 ph.2 e) = some e) :
    ageSweep part slot s = ageVisit (dw ph.1) e u := by
  obtain ⟨tb, kept, _⟩ := rollAge_frame (s := s) part (s.fval .agePeriod part)
  have same : u.fval .agePeriod part = s.fval .agePeriod part := by
    rw [← rolled, kept]
    rfl
  obtain ⟨start, len⟩ := ph
  generalize sweep : ageSweep = f
  delta ageSweep at sweep
  subst sweep
  dsimp -iota -zeta only
  rw [if_neg (by simp [up, on]), rolled]
  dsimp -iota only
  rw [same, phase]
  dsimp only at found ⊢
  rw [found]

/-- A visited entry: what the sweeper leaves of it, among as many entries as before. -/
theorem ageVisit_marks {start : DWord} {e : TEntry} (mem : e ∈ s.tabs.entries) : ∃ tb x, ageVisit start e s = { s with tabs := tb } ∧
    x ∈ tb.entries ∧ tb.entries.length = s.tabs.entries.length ∧
    x = if e.hit && decide (e.hitAt = some s.clk.pk) then { e with seen := some start }
      else { e with hit := false, hitAt := none, leaving := !e.hit && e.ageable, seen := some start } := by
  obtain ⟨y, _, same, marked⟩ := exists_updFirst (p := fun x => decide (x = e)) (f := fun x : TEntry =>
    if e.hit && decide (e.hitAt = some s.clk.pk) then { x with seen := some start }
    else { x with hit := false, hitAt := none, leaving := !e.hit && e.ageable, seen := some start }) mem (by simp)
  obtain rfl := of_decide_eq_true same
  exact ⟨_, _, rfl, marked, length_updFirst .., rfl⟩

theorem dropAged_one {e : TEntry} (one : s.tabs.entries.filter (·.leaving) = [e]) : dropAged s =
    (removeKey 1 e.part e.key (s.ownBanks e.part 1) s).2.count (.ev e.part .emAged) := by
  rw [dropAged, one]
  rfl

/-- Settles O30. -/
theorem learningAndAging : Obligations.LearningAndAging := by
  refine ⟨?learning, ?visiting, ?dropping⟩
  case learning =>
    intro die r q s running queue s1 n still
    have runs := (exec_learnApply die s).trans (congrArg Host.Outcome.next (learnStep_applies (up_of_running running) queue still))
    refine ⟨fun v w absent put port => ?learns, fun e found host => ?host⟩
    case learns =>
      have step : applyLearn r s1 = v := by
        unfold applyLearn
        dsimp only
        rw [show State.tfind s1 1 r.part r.key (s1.activeBank r.part 1) = none from absent]
        dsimp only
        rw [show putEntry n (s1.ownBanks r.part 1) s1 = (some v, w) from put]
      obtain ⟨e, found, record⟩ := putEntry_finds put (ownBanks_active (s := s) r.part 1)
      have frame := putEntry_tabFrame put
      obtain ⟨kind, port'⟩ := learnedAction_reads r.port port
      refine ⟨v, e, runs.trans (congrArg _ step), found, record.learned, record.ageable, ?_, ?_, ?_, frame.eq⟩
      · rw [record.action]; exact kind
      · rw [record.action]; exact port'
      · rw [frame.queue]; exact smGet_smSet_self ..
    case host =>
      refine runs.trans (congrArg _ ?_)
      unfold applyLearn
      dsimp only
      rw [show State.tfind s1 1 r.part r.key (s1.activeBank r.part 1) = some e from found]
      exact if_pos (by rw [host]; rfl)
  case visiting =>
    intro part slot e s running on p r ph start found
    have runs : exec (.ageSweepVisit part slot) s = .next (ageVisit start e r) :=
      (exec_ageSweepVisit part slot s).trans (congrArg Host.Outcome.next (ageSweep_visits (up_of_running running) on rfl rfl found))
    obtain ⟨mem, _⟩ := List.mem_filter.mp (List.mem_of_find?_eq_some found)
    obtain ⟨tb, rolled, entries⟩ := rollAge_frame (s := s) part p
    obtain ⟨tb', x, visited, member, length, eq⟩ := ageVisit_marks (start := start) mem
    have same : r = { s with tabs := tb } := rolled
    clear_value start
    clear_value ph
    clear_value r
    have count : r.tabs.entries.length = s.tabs.entries.length := by rw [same]; exact congrArg _ entries
    have clock : r.clk = s.clk := by rw [same]
    have step : ageVisit start e r = { s with tabs := tb' } := by rw [visited, same]
    rw [clock] at eq
    refine ⟨_, x, runs.trans (congrArg _ step), member, length.trans count, fun cold => ?_, fun hot old => ?_, fun hot now => ?_, rfl⟩
    · rw [eq, cold]
      rfl
    · rw [eq, hot, decide_eq_false old]
      rfl
    · rw [eq, hot, decide_eq_true now]
      rfl
  case dropping =>
    intro e s one t
    obtain ⟨-, -, others⟩ := removeKey_removes 1 e.part e.key (s.ownBanks e.part 1) s
    have gone := dropAged_one one
    refine ⟨?_, ?_, fun x q y b other => ?_, ?_⟩
    · show State.tfind (dropAged s) .. = _
      rw [gone]
      exact removeKey_removes_from (ownBanks_active (s := s) e.part 1)
    · show State.cntAt (dropAged s) _ = _
      rw [gone]
      exact cntAt_count_self ..
    · show State.tfind (dropAged s) .. = _
      rw [gone]
      exact others x q y b other
    · show dropAged s = { s with tabs := (dropAged s).tabs, obs := (dropAged s).obs }
      rw [gone]
      rfl

/-! ### Stage 5 -/

/-- What the evaluation of ensembles changes: the slots' thresholds and the counters. -/
def EvalFrame (s t : State) : Prop := ∃ l o, t = { s with slots := l, obs := o }

theorem EvalFrame.trans {s t u : State} (a : EvalFrame s t) (b : EvalFrame t u) : EvalFrame s u := by
  obtain ⟨_, _, rfl⟩ := a
  obtain ⟨l, o, rfl⟩ := b
  exact ⟨l, o, rfl⟩

theorem EvalFrame.countIf (c : Ctr) (n : Nat) (b : Bool) : EvalFrame s (if b then s.count c n else s) ∧
    (if b then s.count c n else s).slots = s.slots := by
  cases b
  · exact ⟨⟨s.slots, s.obs, rfl⟩, rfl⟩
  · exact ⟨⟨s.slots, _, rfl⟩, rfl⟩

/-- An evaluation that ran counts in its slot's threshold loop, where that counts, and in no other slot. -/
theorem countEval_counts (n part : Nat) (e : Ensemble) (x : Eval) (cls : Nat) (loop : Bool) :
    EvalFrame s (countEval n part e x cls loop s) ∧ (∀ m, m ≠ n → (countEval n part e x cls loop s).slot m = s.slot m) ∧
      ∃ th, (countEval n part e x cls loop s).slot n = { s.slot n with thr := th } ∧
        th.n = (s.slot n).thr.n + (if loop && !(x.poison || (x.nan && e.nanTrap)) then 1 else 0) := by
  unfold countEval
  extract_lets s1 s2
  obtain ⟨frame1, slots1⟩ : EvalFrame s s1 ∧ s1.slots = s.slots := EvalFrame.countIf ..
  obtain ⟨frame2, slots2⟩ : EvalFrame s1 s2 ∧ s2.slots = s1.slots := EvalFrame.countIf ..
  have same (m : Nat) : s2.slot m = s.slot m := by rw [State.slot, slots2, slots1]; rfl
  split
  · refine ⟨(frame1.trans frame2).trans ⟨_, s2.obs, rfl⟩, fun m ne => ?_,
      { (s.slot n).thr with n := (s.slot n).thr.n + 1, a := (s.slot n).thr.a + b2n (decide (cls = 1)) }, ?_, rfl⟩
    · rw [State.modSlot, slot_setSlot_ne _ ne, same]
    · rw [State.modSlot, slot_setSlot_self, same]
  · exact ⟨frame1.trans frame2, fun m _ => same m, (s.slot n).thr, same n, (Nat.add_zero _).symm⟩

/-- The result of an ensemble's evaluation (06 R196, R199). -/
def slotResult (n : Nat) (e : Ensemble) (theta : Int) (r : Eval) : WkResult :=
  let d := decideClass r.sums e.nOut theta e.outShift
  let bad := r.poison || (r.nan && e.nanTrap)
  ⟨n, !bad, bad, r.cut, classKind e.classAct d.1, d.1, d.2⟩

theorem evalSlot_result {k : Packet} {feat : List Word} {w : WkRun} {n : Nat} {e : Ensemble} (ens : (s.slot n).ens = some e)
    (noEsc : e.escEn = false) :
    let r := evaluate e feat (min e.budget w.left)
    ∃ t, evalSlot k feat w n s = ({ w with
        results := w.results ++ [slotResult n e (s.slot n).thr.theta r], left := w.left - r.used, used := w.used + r.used }, t) ∧
      EvalFrame s t ∧ (∀ m, m ≠ n → t.slot m = s.slot m) ∧ (t.slot n).ens = (s.slot n).ens ∧
      (t.slot n).thr.n = (s.slot n).thr.n +
        (if k.pass = 1 ∧ e.nOut = 1 ∧ (r.poison || (r.nan && e.nanTrap)) = false then 1 else 0) := by
  intro r
  have noEscape (theta : Int) (cls : Nat) : escalates e theta r cls = false := by rw [escalates, noEsc, Bool.false_and]
  obtain ⟨frame, others, th, same, counted⟩ := countEval_counts (s := s) n k.part e r (decideClass r.sums e.nOut (s.slot n).thr.theta e.outShift).1
    (decide (k.pass = 1) && decide (e.nOut = 1))
  generalize counts : countEval n k.part e r (decideClass r.sums e.nOut (s.slot n).thr.theta e.outShift).1
    (decide (k.pass = 1) && decide (e.nOut = 1)) s = u at frame others same counted
  obtain ⟨cutFrame, cutSlots⟩ := EvalFrame.countIf (s := u) (.slot n .wkCut) 1 r.cut
  have slot (m : Nat) : (if r.cut then u.count (.slot n .wkCut) else u).slot m = u.slot m := by rw [State.slot, cutSlots]; rfl
  refine ⟨if r.cut then u.count (.slot n .wkCut) else u, ?_, frame.trans cutFrame, fun m ne => (slot m).trans (others m ne),
    by rw [slot, same], ?_⟩
  · unfold evalSlot
    simp only [ens]
    rw [show evaluate e feat (min e.budget w.left) = r from rfl, noEscape, Bool.and_false, if_neg Bool.false_ne_true, counts]
    rfl
  · rw [slot, same, counted]
    cases (r.poison || (r.nan && e.nanTrap)) <;> simp

theorem findPkt_moveTo {k : Packet} (p : Place) (found : s.findPkt k.id = some k) :
    (s.moveTo k.id p).findPkt k.id = some { k with place := p } :=
  find?_updFirst (f := fun k : Packet => { k with place := p }) found (fun same => same)

theorem leaveWicker_free {k : Packet} (free : ∀ i, k.flowIdx = some i → s.holdOf i = none) : leaveWicker k s = s.moveTo k.id .merge := by
  unfold leaveWicker
  split
  · next i _ at_ =>
    rw [free i at_]
  · rfl

/-- Stage 5 of a packet without events whose ensembles raise none. -/
theorem wickerStage_passes {k : Packet} {w : WkRun} {u : State} (found : s.findPkt k.id = some k) (noEvents : k.evs = [])
    (free : ∀ i, k.flowIdx = some i → s.holdOf i = none) (frame : EvalFrame s u)
    (ran : evalSlots k (k.feats.take 64 ++ k.fw) (k.ep s).wkSlots
      { results := [], evs := k.evs, left := k.fv s .wkBudget, used := 0 } s = (w, u)) (quiet : w.evs = []) :
    ∃ t, wickerStage k s = t ∧ t.findPkt k.id = some { k with wk := w.results, place := .merge } ∧ t.slots = u.slots ∧
      (w.used = 0 → t.obs = u.obs) ∧ t = { u with intake := t.intake, obs := t.obs, progress := t.progress } := by
  obtain ⟨l, o, rfl⟩ := frame
  obtain ⟨o', extra, unused⟩ : ∃ o', (if max 1 (ceilDiv w.used (State.evaluators { s with slots := l, obs := o } k.pipe)) = 1
      then { s with slots := l, obs := o } else State.count { s with slots := l, obs := o } (.pipe k.pipe .wkExtra)
        (max 1 (ceilDiv w.used (State.evaluators { s with slots := l, obs := o } k.pipe)) - 1)) = { s with slots := l, obs := o' } ∧
      (w.used = 0 → o' = o) := by
    split
    · exact ⟨o, rfl, fun _ => rfl⟩
    · next more =>
      refine ⟨_, rfl, fun none_ => absurd ?_ more⟩
      rw [none_, ceilDiv]
      generalize State.evaluators _ _ = n
      have zero : (0 + n - 1) / n = 0 := by
        obtain rfl | pos := Nat.eq_zero_or_pos n
        · rfl
        · exact Nat.div_eq_of_lt (by omega)
      rw [zero]
      rfl
  have moved := findPkt_modPkt (s := { s with slots := l, obs := o' }) (k := k) (x := { k with wk := w.results, evs := [] }) found rfl
  have left_ := findPkt_moveTo (s := State.modPkt { s with slots := l, obs := o' } k.id (fun _ => { k with wk := w.results, evs := [] }))
    (k := { k with wk := w.results, evs := [] }) .merge moved
  have out := leaveWicker_free (s := State.modPkt { s with slots := l, obs := o' } k.id (fun _ => { k with wk := w.results, evs := [] }))
    (k := { k with wk := w.results, evs := [] }) free
  have runs : wickerStage k s = (State.modPkt { s with slots := l, obs := o' } k.id
      (fun _ => { k with wk := w.results, evs := [] })).moveTo k.id .merge := by
    unfold wickerStage
    simp only [ran]
    rw [extra, quiet, ite_self]
    exact out
  refine ⟨_, runs, ?_, rfl, unused, rfl⟩
  rw [noEvents]
  exact left_

theorem exec_wickerEval (p : Nat) (s : State) : exec (.wickerEval p) s = .next (atStage p .wicker wickerStage s) := rfl
theorem exec_verdictMerge (p : Nat) (s : State) : exec (.verdictMerge p) s = .next (atStage p .merge mergeStage s) := rfl

/-! ### Stage 6 -/

theorem stricter_drop_left (y : Nat) : stricter 1 y = 1 := by
  rcases y with _ | _ | _ | _ | _ | y <;> rfl

theorem stricter_drop_right {x : Nat} (h : x ≤ 4) : stricter x 1 = 1 := by
  match x, h with
  | 0, _ => rfl
  | 1, _ => rfl
  | 2, _ => rfl
  | 3, _ => rfl
  | 4, _ => rfl

theorem outcomeKind_none (kind : Nat) : outcomeKind 0 kind = (kind, 0) := rfl
theorem outcomeKind_drop (kind : Nat) : outcomeKind 1 kind = (1, 0) := rfl

theorem mergeStage_merges {k : Packet} (found : s.findPkt k.id = some k) : ∃ t k', mergeStage k s = t ∧ t.findPkt k.id = some k' ∧
    k'.place = .action ∧ k'.merged = { k.rule with kind := k'.merged.kind } ∧ k'.frame = k.frame ∧ k'.rule = k.rule ∧
    k'.merged.kind = (outcomeKind (if k.outcome = 0 then 0 else k.outAct)
      (if (k.fv s .mergeCfg).testBit 0 && decide (k.rule.kind ≠ 0) then k.rule.kind else stricter k.rule.kind (modelKind k s))).1 ∧
    t = { s with intake := t.intake, progress := t.progress } :=
  ⟨_, _, rfl, findPkt_modPkt found rfl, rfl, rfl, rfl, rfl, rfl, rfl⟩

/-- Settles O31. -/
theorem stagesFiveAndSix : Obligations.StagesFiveAndSix := by
  refine ⟨?five, ?six⟩
  case five =>
    intro p k s running still found oldest noEvents free
    have runs := (exec_wickerEval p s).trans (congrArg _ (atStage_takes (f := wickerStage) (up_of_running running) oldest still))
    refine ⟨fun none_ => ?none, fun n e one ens noEsc => ?one⟩
    case none =>
      obtain ⟨t, step, now, slots, obs, frame⟩ := wickerStage_passes (u := s) found noEvents free ⟨s.slots, s.obs, rfl⟩
        (by rw [none_]; rfl) noEvents
      rw [obs rfl] at frame
      exact ⟨t, runs.trans (congrArg _ step), now, frame⟩
    case one =>
      intro r d bad
      obtain ⟨u, result, evalFrame, others, same, counted⟩ := evalSlot_result (k := k) (feat := k.feats.take 64 ++ k.fw)
        (w := { results := [], evs := k.evs, left := k.fv s .wkBudget, used := 0 }) ens noEsc
      obtain ⟨t, step, now, slots, -, frame⟩ := wickerStage_passes (u := u) found noEvents free evalFrame
        (by rw [one]; simp only [evalSlots, result]; rfl) noEvents
      have slot (m : Nat) : t.slot m = u.slot m := by rw [State.slot, slots]; rfl
      refine ⟨t, runs.trans (congrArg _ step), now, ?_, fun m ne => (slot m).trans (others m ne), ?_, ?_, ?_⟩
      · rw [slot, same]
      · rw [slot, counted]
      · obtain ⟨l, o, rfl⟩ := evalFrame
        exact (congrArg State.flow frame :)
      · obtain ⟨l, o, rfl⟩ := evalFrame
        rw [slots]
        exact frame
  case six =>
    intro p k s running still found oldest low final
    have runs := (exec_verdictMerge p s).trans (congrArg _ (atStage_takes (f := mergeStage) (up_of_running running) oldest still))
    obtain ⟨t, k', step, now, place, merged, frame, rule, kind, kept⟩ := mergeStage_merges found
    have kindOf (sound : k.outcome = 0) : k'.merged.kind = if final then k.rule.kind else stricter k.rule.kind (modelKind k s) := by
      rw [kind, if_pos sound, outcomeKind_none]
    refine ⟨t, k', runs.trans (congrArg _ step), now, place, merged, frame, rule, fun sound fin => ?_, fun sound fin => ?_,
      fun sound drop => ?_, fun sound fin drop => ?_, fun bad drop => ?_, kept⟩
    · rw [kindOf sound, if_pos fin]
    · rw [kindOf sound, fin, if_neg Bool.false_ne_true]
    · rw [kindOf sound, drop, stricter_drop_left, ite_self]
    · rw [kindOf sound, fin, if_neg Bool.false_ne_true, drop, stricter_drop_right low]
    · rw [kind, if_neg bad, drop, outcomeKind_drop]

end Sys2Proof.Proofs
end

