-- ==== Sys2Proof/Proofs/Egress.lean ====
section
/-! PROOF. The timers of the egress path (O33), what enters and leaves its queues (O34), and its commands (O35). -/

namespace Sys2Proof.Proofs
open Sys2Proof.Machine

variable {s : State}

/-! ### Boundaries that put fields in force (00 R11) -/

theorem reset_lt (n : FName) : (rowOf n).reset < 2 ^ 64 := by cases n <;> decide

theorem fieldReset_lt (n : FName) (i : Nat) : fieldReset (rowOf n) i < 2 ^ 64 := by
  unfold fieldReset
  split
  · split <;> decide
  · omega
  · rcases i with _ | _ | _ | i <;> simp [nth]
  · split <;> decide
  · split <;> decide
  · exact reset_lt n

theorem fval_lt (n : FName) (i : Nat) : s.fval n i < 2 ^ 64 := by
  unfold State.fval
  dsimp only
  split
  · next v _ => exact v.isLt
  · exact fieldReset_lt n i

theorem fvalBefore_lt (n : FName) (i : Nat) : s.fvalBefore n i < 2 ^ 64 := by
  unfold State.fvalBefore
  split
  · split
    · next v _ => exact BitVec.isLt _
    · exact fval_lt n i
  · exact fval_lt n i

theorem fact_takeShadow_self (n : FName) (i : Nat) : (s.takeShadow n i).fact n i = s.fvalBefore n i := by
  have at_ : smFind (s.takeShadow n i).fields.act ((rowOf n).base + i) = some (dw (s.fvalBefore n i)) :=
    smFind_smSet_self ..
  rw [State.fact, at_]
  exact (BitVec.toNat_ofNat ..).trans (Nat.mod_eq_of_lt (fvalBefore_lt n i))

theorem fact_takeShadow_ne {n m : FName} {i j : Nat} (h : fieldId m j ≠ fieldId n i) : (s.takeShadow n i).fact m j = s.fact m j := by
  have at_ : smFind (s.takeShadow n i).fields.act ((rowOf m).base + j) = smFind s.fields.act ((rowOf m).base + j) :=
    smFind_smSet_ne _ _ h
  rw [State.fact, State.fact, at_]

/-- A boundary puts fields in force: nothing else changes. -/
def ActFrame (s t : State) : Prop := ∃ a, t = { s with fields := { s.fields with act := a } }

theorem ActFrame.trans {s t u : State} (a : ActFrame s t) (b : ActFrame t u) : ActFrame s u := by
  obtain ⟨_, rfl⟩ := a
  obtain ⟨a, rfl⟩ := b
  exact ⟨a, rfl⟩

theorem ActFrame.fvalBefore {s t : State} (h : ActFrame s t) (n : FName) (i : Nat) : t.fvalBefore n i = s.fvalBefore n i := by
  obtain ⟨_, rfl⟩ := h
  rfl

theorem takeShadow_actFrame (n : FName) (i : Nat) : ActFrame s (s.takeShadow n i) := ⟨_, rfl⟩

theorem foldl_takeShadow (n : FName) (f : Nat → Nat) (l : List Nat) :
    ActFrame s (l.foldl (fun s i => s.takeShadow n (f i)) s) ∧
    (∀ m j, (∀ i ∈ l, fieldId m j ≠ fieldId n (f i)) → (l.foldl (fun s i => s.takeShadow n (f i)) s).fact m j = s.fact m j) ∧
    ∀ i ∈ l, (l.foldl (fun s i => s.takeShadow n (f i)) s).fact n (f i) = s.fvalBefore n (f i) := by
  induction l generalizing s with
  | nil => exact ⟨⟨_, rfl⟩, fun _ _ _ => rfl, fun i hi => by cases hi⟩
  | cons i l ih =>
    obtain ⟨frame, others, taken⟩ := ih (s := s.takeShadow n (f i))
    have first := takeShadow_actFrame (s := s) n (f i)
    refine ⟨first.trans frame, fun m j apart => ?_, fun k hk => ?_⟩
    · exact (others m j (fun k hk => apart k (List.mem_cons_of_mem _ hk))).trans (fact_takeShadow_ne (apart i List.mem_cons_self))
    · by_cases later : ∃ k' ∈ l, f k' = f k
      · obtain ⟨k', hk', same⟩ := later
        exact (same ▸ taken k' hk').trans (first.fvalBefore ..)
      · obtain rfl | hk := List.mem_cons.mp hk
        · refine (others n (f k) (fun k' hk' same => later ⟨k', hk', ?_⟩)).trans (fact_takeShadow_self ..)
          unfold fieldId at same
          omega
        · exact absurd ⟨k, hk, rfl⟩ later

theorem fvalBefore_old {n : FName} {k : Nat} (h : smFind s.fields.last (fieldId n k) = none) : s.fvalBefore n k = s.fval n k := by
  rw [State.fvalBefore, h]

/-! ### The timers of stage 8 -/

theorem shaper_map (g : Nat → Shaper → Shaper) (empty : ∀ n, g n {} = {}) (n : Nat) :
    smGet {} (s.egr.shapers.map (fun e => (e.1, g e.1 e.2))) n = g n (s.shaper n) := by
  rw [smGet, smFind_map _ (fun e : Nat × Shaper => (e.1, g e.1 e.2)) (fun _ => rfl), State.shaper, smGet]
  cases smFind s.egr.shapers n
  · exact (empty n).symm
  · rfl

theorem queue_map (g : Nat → Queue → Queue) (empty : ∀ n, g n {} = {}) (n : Nat) :
    smGet {} (s.egr.queues.map (fun e => (e.1, g e.1 e.2))) n = g n (s.queue n) := by
  rw [smGet, smFind_map _ (fun e : Nat × Queue => (e.1, g e.1 e.2)) (fun _ => rfl), State.queue, smGet]
  cases smFind s.egr.queues n
  · exact (empty n).symm
  · rfl

theorem exec_shaperRefill (s : State) : exec .shaperRefill s = .next (shaperRefill s) := rfl
theorem exec_portSchedulerRound (p : Nat) (s : State) : exec (.portSchedulerRound p) s = .next (schedulerRound p s) := rfl
theorem exec_queueSamplePeriod (s : State) : exec .queueSamplePeriod s = .next (queueSamplePeriod s) := rfl
theorem exec_pfcPauseEnd (p k : Nat) (s : State) : exec (.pfcPauseEnd p k) s = .next (pauseEnd p k s) := rfl
theorem exec_gclTakeover (p : Nat) (s : State) : exec (.gclTakeover p) s = .next (gclTakeover p s) := rfl
theorem exec_gateCycleStart (p : Nat) (s : State) : exec (.gateCycleStart p) s = .next (gateCycleStart p s) := rfl

theorem refill_eq (x : Shaper) : x.refill = if x.rate = 0 then x else
    { x with tokens := min (x.tokens + x.rate * 40) (x.burst * 8000000) } := rfl

/-- The fields that a port's round puts in force. -/
def roundFields (p : Nat) (s : State) : State :=
  State.takeShadow ((List.range 16).foldl (fun s i => s.takeShadow .grpCfg (p * 16 + i))
    ((List.range 128).foldl (fun s i => s.takeShadow .qCfg (p * 128 + i)) s)) .portEgrOvh p

/-- The nodes of a port that its round puts in force. -/
def roundNodes (p : Nat) (s : State) : State :=
  s.setEgr { s.egr with
    rounds := smSet s.egr.rounds p (smGet 0 s.egr.rounds p + 1)
    shapers := s.egr.shapers.map (fun e => (e.1, if nodePort e.1 = p then e.2.take else e.2)) }

theorem schedulerRound_due {p : Nat} (up : s.up = true) (due : (smGet 0 s.egr.rounds p + 1) * 1024 ≤ s.clk.pk) (low : p < 32) :
    schedulerRound p s = emptyGroups p (roundFields p (roundNodes p s)) := by
  have same : (fun e : Nat × Shaper => if nodePort e.1 = p then (e.1, e.2.take) else e) =
      fun e => (e.1, if nodePort e.1 = p then e.2.take else e.2) := funext fun e => by split <;> rfl
  unfold schedulerRound roundFields roundNodes
  rw [if_pos (by simp [up, due, low]), same]

/-- What a round puts in force (10 R331). -/
theorem roundFields_takes {p : Nat} (low : p < 32) : ActFrame s (roundFields p s) ∧
    (∀ q, q < 128 → (roundFields p s).fact .qCfg (p * 128 + q) = s.fvalBefore .qCfg (p * 128 + q)) ∧
    (∀ g, g < 16 → (roundFields p s).fact .grpCfg (p * 16 + g) = s.fvalBefore .grpCfg (p * 16 + g)) ∧
    (roundFields p s).fact .portEgrOvh p = s.fvalBefore .portEgrOvh p ∧
    ∀ q, q < 4096 → q / 128 ≠ p → (roundFields p s).fact .qCfg q = s.fact .qCfg q := by
  unfold roundFields
  obtain ⟨frame2, others2, taken2⟩ := foldl_takeShadow (s := s) .qCfg (fun i => p * 128 + i) (List.range 128)
  generalize (List.range 128).foldl (fun s i => s.takeShadow .qCfg (p * 128 + i)) s = s2 at *
  obtain ⟨frame3, others3, taken3⟩ := foldl_takeShadow (s := s2) .grpCfg (fun i => p * 16 + i) (List.range 16)
  generalize (List.range 16).foldl (fun s i => s.takeShadow .grpCfg (p * 16 + i)) s2 = s3 at *
  have idQ (i : Nat) : fieldId .qCfg i = 0x3000 + i := rfl
  have idG (i : Nat) : fieldId .grpCfg i = 0x5100 + i := rfl
  have idO (i : Nat) : fieldId .portEgrOvh i = 0x5080 + i := rfl
  have queues (q : Nat) (hq : q < 4096) : (s3.takeShadow .portEgrOvh p).fact .qCfg q = s2.fact .qCfg q := by
    refine (fact_takeShadow_ne ?_).trans (others3 .qCfg q (fun i _ => ?_))
    · rw [idQ, idO]
      omega
    · rw [idQ, idG]
      omega
  refine ⟨(frame2.trans frame3).trans (takeShadow_actFrame .portEgrOvh p), fun q hq => ?_, fun g hg => ?_, ?_, fun q hq ne => ?_⟩
  · exact (queues _ (by omega)).trans (taken2 q (List.mem_range.mpr hq))
  · refine (fact_takeShadow_ne ?_).trans ((taken3 g (List.mem_range.mpr hg)).trans (frame2.fvalBefore ..))
    rw [idG, idO]
    omega
  · exact (fact_takeShadow_self ..).trans ((frame2.trans frame3).fvalBefore ..)
  · refine (queues q hq).trans (others2 .qCfg q (fun i hi => ?_))
    have := List.mem_range.mp hi
    rw [idQ, idQ]
    omega

/-- What happens at the heads of queues leaves: the egress state but for its gate lists, and the counters. -/
def HeadFrame (s t : State) : Prop := ∃ e o, t = { s with egr := e, obs := o } ∧ e.gcl = s.egr.gcl ∧ e.gclPend = s.egr.gclPend

theorem HeadFrame.refl (s : State) : HeadFrame s s := ⟨s.egr, s.obs, rfl, rfl, rfl⟩

theorem HeadFrame.trans {s t u : State} (a : HeadFrame s t) (b : HeadFrame t u) : HeadFrame s u := by
  obtain ⟨_, _, rfl, list, pend⟩ := a
  obtain ⟨e, o, rfl, list', pend'⟩ := b
  exact ⟨e, o, rfl, list'.trans list, pend'.trans pend⟩

theorem clearDeficit_headFrame (q : Nat) : HeadFrame s (clearDeficit q s) := by
  unfold clearDeficit
  split
  · exact .refl s
  · dsimp only
    split
    · exact ⟨_, s.obs, rfl, rfl, rfl⟩
    · exact ⟨_, s.obs, rfl, rfl, rfl⟩

theorem dropHead_headFrame (q : Nat) (x : Queue) (p : Nat) (c : DropCtr) : HeadFrame s ((s.setQueue q x).dropped p c) :=
  ⟨_, _, rfl, rfl, rfl⟩

theorem settleHead_headFrame (q k : Nat) : HeadFrame s (settleHead q k s) := by
  induction k generalizing s with
  | zero => exact .refl s
  | succ k ih =>
    unfold settleHead
    dsimp only
    split
    · exact .refl s
    · split
      · exact HeadFrame.trans ⟨_, s.obs, rfl, rfl, rfl⟩ (ih ..)
      · split
        · exact ((dropHead_headFrame ..).trans (clearDeficit_headFrame q)).trans ih
        · exact .refl s

theorem recheckHeads_headFrame (p : Nat) : HeadFrame s (recheckHeads p s) := by
  unfold recheckHeads
  generalize s.egr.queues.filter _ = l
  induction l generalizing s with
  | nil => exact .refl s
  | cons e l ih => exact HeadFrame.trans (settleHead_headFrame ..) ih

theorem pend_take {x : Shaper} {r b : Nat} (h : x.pend = some (r, b)) :
    x.take = { rate := r, burst := b, tokens := (b * 8000000 : Nat), pend := none } := by
  rw [Shaper.take, h]
  rfl

theorem fact_congr {t : State} (h : t.fields.act = s.fields.act) (n : FName) (i : Nat) : t.fact n i = s.fact n i := by
  rw [State.fact, h]
  rfl

theorem emptyGroups_eq (p : Nat) : ∃ d, emptyGroups p s = { s with egr := { s.egr with deficit := d } } := ⟨_, rfl⟩

/-- The nodes of a port after its round, and those of the others. -/
theorem roundNodes_shaper (p n : Nat) : (roundNodes p s).shaper n = if nodePort n = p then (s.shaper n).take else s.shaper n :=
  shaper_map (fun n x => if nodePort n = p then x.take else x) (fun _ => ite_self _) n

/-- A round of a port (10 R331). -/
theorem portSchedulerRound_takes {p : Nat} (up : s.up = true) (low : p < 32) (due : (smGet 0 s.egr.rounds p + 1) * 1024 ≤ s.clk.pk) :
    ∃ t, exec (.portSchedulerRound p) s = .next t ∧ smGet 0 t.egr.rounds p = smGet 0 s.egr.rounds p + 1 ∧
      (∀ n r b, nodePort n = p → (s.shaper n).pend = some (r, b) →
        t.shaper n = { rate := r, burst := b, tokens := (b * 8000000 : Nat), pend := none }) ∧
      (∀ n, nodePort n ≠ p ∨ (s.shaper n).pend = none → t.shaper n = s.shaper n) ∧
      (∀ q, q < 128 → t.fact .qCfg (p * 128 + q) = s.fvalBefore .qCfg (p * 128 + q)) ∧
      (∀ g, g < 16 → t.fact .grpCfg (p * 16 + g) = s.fvalBefore .grpCfg (p * 16 + g)) ∧
      t.fact .portEgrOvh p = s.fvalBefore .portEgrOvh p ∧ (∀ q, q < 4096 → q / 128 ≠ p → t.fact .qCfg q = s.fact .qCfg q) ∧
      (∀ n k, smFind s.fields.last (fieldId n k) = none → s.fvalBefore n k = s.fval n k) ∧
      t = { s with egr := { s.egr with rounds := t.egr.rounds, shapers := t.egr.shapers, deficit := t.egr.deficit },
                   fields := { s.fields with act := t.fields.act } } := by
  have runs := (exec_portSchedulerRound p s).trans (congrArg Host.Outcome.next (schedulerRound_due up due low))
  obtain ⟨⟨a, frame⟩, queues, groups, overhead, others⟩ := roundFields_takes (s := roundNodes p s) low
  have before (n : FName) (i : Nat) : (roundNodes p s).fvalBefore n i = s.fvalBefore n i := rfl
  have was (n : FName) (i : Nat) : (roundNodes p s).fact n i = s.fact n i := fact_congr rfl n i
  obtain ⟨d, emptied⟩ := emptyGroups_eq (s := roundFields p (roundNodes p s)) p
  have shaper (n : Nat) : (emptyGroups p (roundFields p (roundNodes p s))).shaper n = (roundNodes p s).shaper n := by
    rw [emptied, frame]
    rfl
  have is (n : FName) (i : Nat) : (emptyGroups p (roundFields p (roundNodes p s))).fact n i = (roundFields p (roundNodes p s)).fact n i :=
    fact_congr (by rw [emptied]) n i
  refine ⟨_, runs, ?_, fun n r b at_ pend => ?_, fun n keep => ?_, fun q hq => ?_, fun g hg => ?_, ?_, fun q hq ne => ?_,
    fun n k => fvalBefore_old, ?_⟩
  · rw [emptied, frame]
    exact smGet_smSet_self ..
  · rw [shaper, roundNodes_shaper, if_pos at_, pend_take pend]
  · rw [shaper, roundNodes_shaper]
    split
    · next at_ =>
      rw [Shaper.take, keep.resolve_left (Classical.not_not.mpr at_)]
    · rfl
  · rw [is, queues q hq, before]
  · rw [is, groups g hg, before]
  · rw [is, overhead, before]
  · rw [is, others q hq ne, was]
  · rw [emptied, frame]
    rfl

/-- Settles O33. -/
theorem egressTimers : Obligations.EgressTimers := by
  intro s running
  have up := up_of_running running
  refine ⟨fun due => ?refill, fun p low due => ?round, fun due => ?sample, fun p pri t0 low found => ?pause, fun p g found => ?takeover,
    fun p g found past => ?cycle⟩
  case refill =>
    have runs : shaperRefill s = _ := if_pos (by simpa [up] using due)
    exact ⟨_, (exec_shaperRefill s).trans (congrArg _ runs), rfl,
      fun n => (shaper_map (fun _ => Shaper.refill) (fun _ => rfl) n).trans (refill_eq _), rfl⟩
  case round =>
    exact portSchedulerRound_takes up low due
  case sample =>
    have runs : queueSamplePeriod s = _ := if_neg (by simpa [up] using due)
    exact ⟨_, (exec_queueSamplePeriod s).trans (congrArg _ runs), rfl, fun q => queue_map (fun _ x =>
      { x with sBytes := x.depth, sPkts := x.frames.length, sDelay := headDelay s x }) (fun _ => rfl) q, rfl⟩
  case pause =>
    rw [exec_pfcPauseEnd, pauseEnd]
    dsimp only
    rw [found]
    dsimp only
    refine ⟨fun early => ?_, fun due => ?_⟩
    · rw [if_neg (by omega)]
    · rw [if_pos ⟨up, low, due⟩]
      exact ⟨_, rfl, smFind_smDel_self .., fun j ne => smFind_smDel_ne _ ne, rfl⟩
  case takeover =>
    rw [exec_gclTakeover, gclTakeover, found]
    dsimp only
    refine ⟨fun early => ?_, fun due => ?_⟩
    · rw [if_neg (by simp [early])]
    · rw [if_pos (by simp [up, due])]
      obtain ⟨e, o, kept, list, pend⟩ := recheckHeads_headFrame (s := (s.setEgr { s.egr with
        gcl := smSet s.egr.gcl p g
        gclPend := smDel s.egr.gclPend p }).takeShadow .gateEn p) p
      refine ⟨_, congrArg _ kept, ?_, ?_, ?_, fun j ne => ⟨?_, ?_⟩, rfl⟩
      · exact (congrArg (fun m => smFind m p) list).trans (smFind_smSet_self ..)
      · exact (congrArg (fun m => smFind m p) pend).trans (smFind_smDel_self ..)
      · exact fact_takeShadow_self (s := s) .gateEn p
      · exact (congrArg (fun m => smFind m j) list).trans (smFind_smSet_ne _ _ ne)
      · exact (congrArg (fun m => smFind m j) pend).trans (smFind_smDel_ne _ ne)
  case cycle =>
    rw [exec_gateCycleStart, gateCycleStart, found]
    dsimp only
    refine ⟨fun inside => ?_, fun start => ?_⟩
    · rw [if_neg (by simp [inside])]
    · rw [if_pos (by simp [up, past, start])]
      exact ⟨_, rfl, fact_takeShadow_self .., rfl⟩

/-! ### Queues -/

theorem queue_setQueue_self (q : Nat) (x : Queue) : (s.setQueue q x).queue q = x := smGet_smSet_self ..
theorem queue_setQueue_ne {q k : Nat} (x : Queue) (h : k ≠ q) : (s.setQueue q x).queue k = s.queue k := smGet_smSet_ne _ _ _ h
theorem shaper_setShaper_self (n : Nat) (x : Shaper) : (s.setShaper n x).shaper n = x := smGet_smSet_self ..
theorem shaper_setShaper_ne {n k : Nat} (x : Shaper) (h : k ≠ n) : (s.setShaper n x).shaper k = s.shaper k := smGet_smSet_ne _ _ _ h

theorem oversize_ungated {q : Nat} (i : QItem) (ungated : gclAt s (q / 128) s.now.toNat = none) : oversize s q i = false := by
  rw [oversize, ungated]

/-- A head that is a frame stays, on a port without a gate list. -/
theorem settleHead_frame {q : Nat} (k : Nat) (frames : ∀ i ∈ (s.queue q).items, i.marker = none)
    (ungated : gclAt s (q / 128) s.now.toNat = none) : settleHead q k s = s := by
  cases k with
  | zero => rfl
  | succ k =>
    unfold settleHead
    dsimp only
    cases items : (s.queue q).items with
    | nil => rfl
    | cons i r =>
      dsimp only
      rw [frames i (by simp [items])]
      dsimp only
      rw [oversize_ungated i ungated, if_neg Bool.false_ne_true]

/-! ### Admission -/

/-- The queue of an admitted copy. -/
def joinedQueue (c : Copy) (s : State) : Queue :=
  { s.queue c.queue with items := (s.queue c.queue).items ++ [c.item s.now], banks := banksWith c s }

theorem enqueueCopy_joins {c : Copy} (ungated : gclAt s (c.queue / 128) s.now.toNat = none) :
    enqueueCopy c s = s.setQueue c.queue (joinedQueue c s) := by
  have same : enqueueCopy c s = if (s.queue c.queue).items = [] then settleHead c.queue 1 (s.setQueue c.queue (joinedQueue c s))
      else s.setQueue c.queue (joinedQueue c s) := rfl
  rw [same]
  split
  · next empty =>
    refine settleHead_frame 1 (fun i hi => ?_) ungated
    rw [queue_setQueue_self, joinedQueue, empty] at hi
    obtain rfl := List.mem_singleton.mp hi
    rfl
  · rfl

theorem admitCopy_fits {c : Copy} (fits : Fits c s) : admitCopy c s = s.setQueue c.queue (joinedQueue c s) := by
  obtain ⟨unmetered, ungated, limit, banks⟩ := fits
  rw [← enqueueCopy_joins ungated]
  have metered : meterCopy c s = (0, s) := by rw [meterCopy, unmetered]
  unfold admitCopy
  rw [metered]
  dsimp only
  rw [if_neg (by simp), if_neg (by simp), if_neg (by omega), if_neg (by simp [banks])]

theorem admitCopy_full {c : Copy} (unmetered : c.meter = none)
    (full : colourLimit s c.queue 0 < (s.queue c.queue).depth + c.frame.length) : admitCopy c s = s.dropped c.part .queueFull := by
  have metered : meterCopy c s = (0, s) := by rw [meterCopy, unmetered]
  unfold admitCopy
  rw [metered]
  dsimp only
  rw [if_neg (by simp), if_neg (by simp), if_pos full]

theorem receiveCopy_free {c : Copy} (alone : ∀ b ∈ s.egr.barriers, b.port ≠ c.port) (room : ∀ x ∈ s.egr.overflow, x.port ≠ c.port)
    (free : barrierOf c s = []) : receiveCopy c s = admitCopy c s := by
  have joined : s.egr.barriers.any (joins c) = false := by
    rw [List.any_eq_false]
    intro b hb
    simp [joins, alone b hb]
  have behind : s.egr.overflow.any (fun x => decide (x.port = c.port) && decide (x.fh = c.fh)) = false := by
    rw [List.any_eq_false]
    intro x hx
    simp [room x hx]
  unfold receiveCopy
  dsimp only
  rw [joined, behind, free]
  simp

theorem exec_egressAdmission (p : Nat) (s : State) : exec (.egressAdmission p) s = .next (egressAdmission p s) := rfl
theorem exec_barrierRelease (p : Nat) (s : State) : exec (.barrierRelease p) s = .next (barrierRelease p s) := rfl
theorem exec_frameTransmit (p : Nat) (s : State) : exec (.frameTransmit p) s = .next (frameTransmit p s) := rfl

/-- The oldest copy for a port without barriers. -/
theorem egressAdmission_admits {p : Nat} {c : Copy} (up : s.up = true)
    (found : s.egr.copies.find? (fun x => decide (x.port = p)) = some c) (alone : ∀ b ∈ s.egr.barriers, b.port ≠ p)
    (room : ∀ x ∈ s.egr.overflow, x.port ≠ p) (free : barrierOf c s = []) : egressAdmission p s =
      admitCopy c (s.setEgr { s.egr with copies := delFirst (fun x : Copy => decide (x.port = p)) s.egr.copies }) := by
  have port : c.port = p := by simpa using List.find?_some found
  subst port
  unfold egressAdmission
  dsimp only
  rw [up, found]
  exact receiveCopy_free alone room free

/-! ### Barriers -/

theorem drainOverflow_none {p : Nat} (k : Nat) (room : ∀ x ∈ s.egr.overflow, x.port ≠ p) : drainOverflow p k s = s := by
  cases k with
  | zero => rfl
  | succ k =>
    have none_ : s.egr.overflow.find? (fun c => decide (c.port = p)) = none := List.find?_eq_none.mpr (fun x hx => by simpa using room x hx)
    rw [drainOverflow, none_]

theorem barrierRelease_releases {p : Nat} {b : Barrier} {c : Copy} (up : s.up = true)
    (found : s.egr.barriers.find? (fun b => decide (b.port = p) && b.left.isEmpty) = some b) (one : b.waiting = [c])
    (room : ∀ x ∈ s.egr.overflow, x.port ≠ p) (fits : Fits c s) : barrierRelease p s = 
      let u := s.setEgr { s.egr with barriers := delFirst (fun b : Barrier => decide (b.port = p) && b.left.isEmpty) s.egr.barriers }
      u.setQueue c.queue (joinedQueue c u) := by
  have fits' : Fits c (s.setEgr { s.egr with
      barriers := delFirst (fun b : Barrier => decide (b.port = p) && b.left.isEmpty) s.egr.barriers }) := by
    obtain ⟨unmetered, ungated, limit, banks⟩ := fits
    exact ⟨unmetered, ungated, limit, banks⟩
  unfold barrierRelease
  dsimp only
  rw [up, found]
  dsimp only
  rw [one]
  dsimp only [releaseRest]
  rw [admitCopy_fits fits']
  exact drainOverflow_none _ room

/-! ### Transmission -/

theorem clearDeficit_eq (q : Nat) : ∃ d, clearDeficit q s = { s with egr := { s.egr with deficit := d } } := by
  unfold clearDeficit
  split
  · exact ⟨_, rfl⟩
  · dsimp only
    split
    · exact ⟨_, rfl⟩
    · exact ⟨_, rfl⟩

/-- The head of a queue of frames leaves it. -/
theorem popHead_pops {q : Nat} {i : QItem} {r : List QItem} (items : (s.queue q).items = i :: r) (frames : ∀ x ∈ r, x.marker = none)
    (ungated : gclAt s (q / 128) s.now.toNat = none) : ∃ d x, x.items = r ∧
      popHead q s = { s with egr := { s.egr with deficit := d, queues := smSet s.egr.queues q x } } := by
  obtain ⟨d, same⟩ := clearDeficit_eq (s := s.setQueue q ((s.queue q).behead s.queueBank)) q
  have rest : ((s.queue q).behead s.queueBank).items = r := by rw [Queue.behead, items]; rfl
  refine ⟨d, _, rest, ?_⟩
  unfold popHead
  dsimp only
  rw [same, settleHead_frame]
  · rfl
  · intro x hx
    have at_ : State.queue { s.setQueue q ((s.queue q).behead s.queueBank) with
      egr := { (s.setQueue q ((s.queue q).behead s.queueBank)).egr with deficit := d } } q = (s.queue q).behead s.queueBank :=
      queue_setQueue_self ..
    rw [at_, rest] at hx
    exact frames x hx
  · exact ungated

/-- A node after it has paid. -/
def paid (units : Nat) (x : Shaper) : Shaper := if x.rate = 0 then x else { x with tokens := x.tokens - units }

theorem chargeNode_pays (n units : Nat) : ∃ m, chargeNode n units s = { s with egr := { s.egr with shapers := m } } ∧
    (chargeNode n units s).shaper n = paid units (s.shaper n) ∧ ∀ k, k ≠ n → (chargeNode n units s).shaper k = s.shaper k := by
  unfold chargeNode paid
  dsimp only
  split
  · exact ⟨_, rfl, rfl, fun _ _ => rfl⟩
  · exact ⟨_, rfl, shaper_setShaper_self .., fun k ne => shaper_setShaper_ne _ ne⟩

theorem foldl_chargeNode (l : List Nat) (units : Nat) (apart : l.Nodup) :
    ∃ m, l.foldl (fun s n => chargeNode n units s) s = { s with egr := { s.egr with shapers := m } } ∧
      (∀ n ∈ l, smGet {} m n = paid units (s.shaper n)) ∧ ∀ k, k ∉ l → smGet {} m k = s.shaper k := by
  induction l generalizing s with
  | nil => exact ⟨_, rfl, fun n hn => absurd hn List.not_mem_nil, fun _ _ => rfl⟩
  | cons n l ih =>
    obtain ⟨m, same, first, others⟩ := chargeNode_pays (s := s) n units
    obtain ⟨m', rest, paid', spared⟩ := ih (s := chargeNode n units s) (List.nodup_cons.mp apart).2
    refine ⟨m', ?_, fun k hk => ?_, fun k hk => ?_⟩
    · rw [List.foldl_cons, rest, same]
    · obtain rfl | hk := List.mem_cons.mp hk
      · rw [spared k (List.nodup_cons.mp apart).1, first]
      · rw [paid' k hk, others k (fun e => (List.nodup_cons.mp apart).1 (e ▸ hk))]
    · rw [spared k (fun h => hk (List.mem_cons_of_mem _ h)), others k (fun e => hk (e ▸ List.mem_cons_self))]

theorem nodes_apart {p q : Nat} (low : p < 32) (queue : q / 128 = p) : [q, groupNode p (groupOf s q), portNode p].Nodup := by
  have group : groupOf s q < 16 := Nat.mod_lt _ (by decide)
  unfold groupNode portNode
  simp
  omega

/-- A head that is sent. -/
theorem sendHead_sends {p q start x : Nat} {i : QItem} {r : List QItem} (d : Drr) (low : p < 32) (queue : q / 128 = p)
    (items : (s.queue q).items = i :: r) (frames : ∀ x ∈ r, x.marker = none) (ungated : gclAt s p s.now.toNat = none)
    (clear : s.fact .portMacsec p = 0) : ∃ e, sendHead q start x i d s = { s with egr := e } ∧
      (smGet {} e.queues q).items = r ∧ (∀ k, k ≠ q → smGet {} e.queues k = s.queue k) ∧
      e.tx = smSet s.egr.tx p ⟨padFrame i.frame, q, start + frameTime s p i.frame.length⟩ ∧
      ∀ n ∈ [q, groupNode p (groupOf s q), portNode p], smGet {} e.shapers n = paid (shapeLen s p i.frame.length * tok) (s.shaper n) := by
  subst queue
  have plain : protectFrame s (q / 128) i.frame = some (padFrame i.frame, s) := if_pos clear
  obtain ⟨m, charged, pays, _⟩ := foldl_chargeNode (s := s.setEgr { s.egr with
      deficit := smMod 0 (smMod 0 d.deficit (groupNode (q / 128) (groupOf s q)) (· - shapeLen s (q / 128) i.frame.length)) q
        (· - shapeLen s (q / 128) i.frame.length)
      ptr := d.ptr
      tx := smSet s.egr.tx (q / 128) ⟨padFrame i.frame, q, start + shapeLen s (q / 128) i.frame.length * bytePs s⟩ })
    [q, groupNode (q / 128) (groupOf s q), portNode (q / 128)] (shapeLen s (q / 128) i.frame.length * tok) (nodes_apart low rfl)
  unfold sendHead
  dsimp only
  rw [plain]
  dsimp only
  rw [charged]
  generalize smMod 0 (smMod 0 d.deficit _ _) q _ = dd
  obtain ⟨df, z, rest, popped⟩ := popHead_pops (q := q) (i := i) (r := r) (s := State.setQueue { s with egr := { s.egr with
      deficit := dd
      ptr := d.ptr
      tx := smSet s.egr.tx (q / 128) ⟨padFrame i.frame, q, start + shapeLen s (q / 128) i.frame.length * bytePs s⟩
      shapers := m } } q { s.queue q with maxDelay := max (s.queue q).maxDelay (x / 1000 - i.enq.toNat) })
    (by rw [queue_setQueue_self]; exact items) frames ungated
  refine ⟨_, popped, ?_, fun k ne => ?_, rfl, pays⟩
  · exact (congrArg Queue.items (smGet_smSet_self ..)).trans rest
  · exact (smGet_smSet_ne _ _ _ ne).trans (smGet_smSet_ne _ _ _ ne)
theorem frameTransmit_starts {p q : Nat} {d : Drr} {i : QItem} (late : smGet 0 s.egr.txEnd p + 625 ≤ s.pkPs) (link : s.portLink p = true)
    (idle : smFind s.egr.tx p = none) (pick : pickPort s p (nowPs s) = some (q, d)) (head : (s.queue q).items.head? = some i) :
    frameTransmit p s = if i.poison then popHead q (s.dropped i.part .poison) else sendHead q s.pkPs (nowPs s) i d s := by
  have span : ¬ s.pkPs < smGet 0 s.egr.txEnd p + 625 := by omega
  unfold frameTransmit
  dsimp only
  rw [if_neg (by simp [link, idle]), if_neg span, Nat.sub_self, Nat.sub_zero, pick]
  dsimp only
  rw [show (s.queue q).head? = some i from head]

theorem frameTransmit_waits {p : Nat} (late : smGet 0 s.egr.txEnd p + 625 ≤ s.pkPs)
    (waits : s.portLink p = false ∨ smFind s.egr.tx p ≠ none ∨ pickPort s p (nowPs s) = none) : frameTransmit p s = s := by
  have span : ¬ s.pkPs < smGet 0 s.egr.txEnd p + 625 := by omega
  unfold frameTransmit
  dsimp only
  rw [if_neg span, Nat.sub_self, Nat.sub_zero]
  split
  · rfl
  · next free =>
    have free' : s.portLink p = true ∧ smFind s.egr.tx p = none := by simpa using free
    obtain ⟨link, idle⟩ := free'
    rw [waits.resolve_left (by simp [link]) |>.resolve_left (Classical.not_not.mpr idle)]

/-- Settles O34. -/
theorem copiesAndFramesLeave : Obligations.CopiesAndFramesLeave := by
  refine ⟨?admission, ?release, ?transmit⟩
  case admission =>
    intro p c s running found alone room free rest
    have runs := (exec_egressAdmission p s).trans (congrArg _ (egressAdmission_admits (up_of_running running) found alone room free))
    refine ⟨fun fits => ?_, fun unmetered full => ?_⟩
    · obtain ⟨unmetered, ungated, limit, banks⟩ := fits
      exact ⟨_, runs.trans (congrArg _ (admitCopy_fits ⟨unmetered, ungated, limit, banks⟩)), rfl, queue_setQueue_self ..,
        fun q ne => queue_setQueue_ne _ ne, rfl⟩
    · exact ⟨_, runs.trans (congrArg _ (admitCopy_full unmetered full)), rfl, cntAt_count_self .., rfl⟩
  case release =>
    intro p s running
    refine ⟨fun none_ => ?_, fun b c found one room fits => ?_⟩
    · rw [exec_barrierRelease, barrierRelease, none_]
      cases s.up <;> rfl
    · exact ⟨_, (exec_barrierRelease p s).trans (congrArg _ (barrierRelease_releases (up_of_running running) found one room fits)),
        rfl, queue_setQueue_self .., fun q ne => queue_setQueue_ne _ ne, rfl⟩
  case transmit =>
    intro p s low late
    refine ⟨fun waits => ?_, fun q d i r link idle pick queue items frame frames ungated clear => ⟨fun poisoned => ?_, fun sound => ?_⟩⟩
    · rw [exec_frameTransmit, frameTransmit_waits late waits]
    all_goals have starts := (exec_frameTransmit p s).trans (congrArg _ (frameTransmit_starts late link idle pick (by rw [items]; rfl)))
    · rw [if_pos poisoned] at starts
      obtain ⟨dd, x, rest, popped⟩ := popHead_pops (s := s.dropped i.part .poison) (q := q) items frames (by rw [queue]; exact ungated)
      refine ⟨_, starts.trans (congrArg _ popped), ?_, rfl, ?_, rfl⟩
      · exact (congrArg Queue.items (smGet_smSet_self ..)).trans rest
      · exact cntAt_count_self ..
    · rw [sound, if_neg Bool.false_ne_true] at starts
      obtain ⟨e, sent, rest, others, tx, pays⟩ := sendHead_sends (start := s.pkPs) (x := nowPs s) d low queue items frames ungated clear
      refine ⟨_, starts.trans (congrArg _ sent), rest, others, ?_, pays, rfl⟩
      rw [show smFind e.tx p = _ from congrArg (fun m => smFind m p) tx]
      exact smFind_smSet_self ..

/-! ### The commands of stage 8 and of time -/

theorem meter_setMeter_self (n : Nat) (x : Meter) : (s.setMeter n x).meter n = x := smGet_smSet_self ..
theorem meter_setMeter_ne {n k : Nat} (x : Meter) (h : k ≠ n) : (s.setMeter n x).meter k = s.meter k := smGet_smSet_ne _ _ _ h
theorem hring_setHring_self (n : Nat) (x : HostRing) : (s.setHring n x).hring n = x := smGet_smSet_self ..
theorem hring_setHring_ne {n k : Nat} (x : HostRing) (h : k ≠ n) : (s.setHring n x).hring k = s.hring k := smGet_smSet_ne _ _ _ h

theorem meter_congr {t : State} (h : t.egr = s.egr) (n : Nat) : t.meter n = s.meter n := by rw [State.meter, h]; rfl
theorem shaper_congr {t : State} (h : t.egr = s.egr) (n : Nat) : t.shaper n = s.shaper n := by rw [State.shaper, h]; rfl
theorem queue_congr {t : State} (h : t.egr = s.egr) (n : Nat) : t.queue n = s.queue n := by rw [State.queue, h]; rfl
theorem hring_congr {t : State} (h : t.egr = s.egr) (n : Nat) : t.hring n = s.hring n := by rw [State.hring, h]; rfl
theorem portCount_congr {t : State} (h : t.fields = s.fields) : t.portCount = s.portCount := by
  rw [State.portCount, State.fact, h]; rfl

theorem begun_now (c : CmdCtx) (opc : Nat) : (begun c opc s).now = s.now := by rw [State.now, (begun_kept c opc s).clk]; rfl

theorem exec_meterWrite (c : CmdCtx) (m : Nat) (mode : Byte) (cir cbs eir ebs : Nat) (s : State) :
    exec (.meterWrite c m mode cir cbs eir ebs) s = execMeterWrite c m mode cir cbs eir ebs s := rfl
theorem exec_meterRead (c : CmdCtx) (m : Nat) (s : State) : exec (.meterRead c m) s = execMeterRead c m s := rfl
theorem exec_shaperWrite (c : CmdCtx) (n : Nat) (ovh : Int) (rate burst : Nat) (s : State) :
    exec (.shaperWrite c n ovh rate burst) s = execShaperWrite c n ovh rate burst s := rfl
theorem exec_gclWrite (c : CmdCtx) (p : Nat) (base : DWord) (cycle : Nat) (l : List (BitVec 128 × Nat)) (s : State) :
    exec (.gclWrite c p base cycle l) s = execGclWrite c p base cycle l s := rfl
theorem exec_gclRead (c : CmdCtx) (p list first : Nat) (o : Option Bref) (s : State) :
    exec (.gclRead c p list first o) s = execGclRead c p list first o s := rfl
theorem exec_queueSample (c : CmdCtx) (first count : Nat) (s : State) : exec (.queueSample c first count) s = execQueueSample c first count s := rfl
theorem exec_hostpktRing (c : CmdCtx) (n : Nat) (x : Bref) (snap : Nat) (s : State) :
    exec (.hostpktRing c n x snap) s = execHostpktRing c n x snap s := rfl
theorem exec_timeAdjust (c : CmdCtx) (offset rate : Int) (s : State) : exec (.timeAdjust c offset rate) s = execTimeAdjust c offset rate s := rfl
theorem exec_timeRead (c : CmdCtx) (s : State) : exec (.timeRead c) s = execTimeRead c s := rfl

/-- A meter that METER_WRITE has set: both buckets full, the colour counts as they were (10 R313). -/
def meterSet (mode : Byte) (cir cbs eir ebs : Nat) (now : DWord) (m : Meter) : Meter :=
  { mode := mode, cir := cir, cbs := cbs, eir := eir, ebs := ebs, tc := cbs * 8000000, te := ebs * 8000000, last := now,
    counts := m.counts }

theorem meterWrite_sets {c : CmdCtx} {m : Nat} {mode : Byte} {cir cbs eir : Nat} (ebs : Nat) (ready : Ready 0x400 s) (path : PathEmpty s)
    (fresh : Fresh c s) (ok : meterWriteCheck c m mode cir cbs eir (beginCmd c 0x400 s) = none) :
    exec (.meterWrite c m mode cir cbs eir ebs) s = .next (finish c .ok [] s.now 0
      ((begun c 0x400 s).setMeter m (meterSet mode cir cbs eir ebs s.now (s.meter m)))) := by
  rw [exec_meterWrite, execMeterWrite, runCmd_ready ready ok, atPoint_begin path fresh, begun_now, meter_congr (begun_egr c 0x400)]
  rfl

theorem setMeter_egr {t : State} (h : t.egr = s.egr) (n : Nat) (x : Meter) :
    t.setMeter n x = { t with egr := { s.egr with meters := smSet s.egr.meters n x } } := by
  rw [State.setMeter, h]
  rfl

theorem setField_eq (n : FName) (i v : Nat) : ∃ f, s.setField n i v = { s with fields := f } := ⟨_, rfl⟩

theorem fval_setField_self {n : FName} {i v : Nat} (small : v < 2 ^ 64) : (s.setField n i v).fval n i = v :=
  (fval_of_val (smFind_smSet_self ..)).trans ((BitVec.toNat_ofNat ..).trans (Nat.mod_eq_of_lt small))

theorem wrapU_lt (w : Nat) (i : Int) : wrapU w i < 2 ^ w := by
  unfold wrapU
  have pos : (0 : Int) < ((2 ^ w : Nat) : Int) := Int.natCast_pos.mpr (Nat.two_pow_pos _)
  have low := Int.emod_nonneg i (Int.ne_of_gt pos)
  have high := Int.emod_lt_of_pos i pos
  omega

/-- What SHAPER_WRITE leaves: the node's pending write, and the overhead of a port's node. -/
def shaperWritten (c : CmdCtx) (node : Nat) (ovh : Int) (rate burst : Nat) (s : State) : State :=
  let s := s.setShaper node { s.shaper node with pend := some (rate, burst) }
  if node < 4608 then s
  else (s.noteWrite c.src.code (fieldId .portEgrOvh (node - 4608)) (s.fval .portEgrOvh (node - 4608))).setField .portEgrOvh
    (node - 4608) (wrapU 8 ovh)

theorem shaperWritten_eq (c : CmdCtx) (node : Nat) (ovh : Int) (rate burst : Nat) :
    ∃ f, shaperWritten c node ovh rate burst s = { s with
      egr := { s.egr with shapers := smSet s.egr.shapers node { s.shaper node with pend := some (rate, burst) } }, fields := f } ∧
      (node < 4608 → f = s.fields) := by
  unfold shaperWritten
  dsimp only
  split
  · exact ⟨_, rfl, fun _ => rfl⟩
  · next high => exact ⟨_, rfl, fun low => absurd low high⟩

theorem shaperWritten_overhead {node : Nat} (c : CmdCtx) (ovh : Int) (rate burst : Nat) (high : 4608 ≤ node) :
    (shaperWritten c node ovh rate burst s).fval .portEgrOvh (node - 4608) = wrapU 8 ovh := by
  unfold shaperWritten
  dsimp only
  rw [if_neg (by omega)]
  exact fval_setField_self (Nat.lt_trans (wrapU_lt 8 ovh) (by decide))

theorem gclTakeover_early {p : Nat} (early : ∀ g, smFind s.egr.gclPend p = some g → s.now.toNat < g.takeover.toNat) : gclTakeover p s = s := by
  unfold gclTakeover
  split
  · next g found => exact if_neg (by simp [early g found])
  · rfl

theorem clearDelays_queue (first n q : Nat) : (clearDelays first n s).queue q =
    if first ≤ q ∧ q < first + n then { s.queue q with maxDelay := 0 } else s.queue q := by
  have same : (fun e : Nat × Queue => if first ≤ e.1 ∧ e.1 < first + n then (e.1, { e.2 with maxDelay := 0 }) else e) =
      fun e => (e.1, if first ≤ e.1 ∧ e.1 < first + n then { e.2 with maxDelay := 0 } else e.2) := funext fun e => by split <;> rfl
  unfold clearDelays
  dsimp only
  rw [same]
  exact queue_map (fun k x => if first ≤ k ∧ k < first + n then { x with maxDelay := 0 } else x) (fun _ => ite_self _) q

theorem isMaster_unjoined (h : s.fab.joined = false) : s.isMaster = false := by rw [State.isMaster, h, Bool.false_and]

theorem timeAdjust_free {offset rate : Int} (free : s.fab.joined = false) : timeAdjust offset rate s =
    if offset = 0 then s.setClk { s.clk with hostRate := rate } else stepCounter offset (s.setClk { s.clk with hostRate := rate }) := by
  rw [timeAdjust, isMaster_unjoined free, free]
  rfl

/-- Settles O35. -/
theorem egressAndTimeCommands : Obligations.EgressAndTimeCommands := by
  refine ⟨?meterWrite, ?meterRead, ?shaper, ?gclWrite, ?gclRead, ?sample, ?hostpkt, ?adjust, ?read⟩
  case meterWrite =>
    intro c m mode cir cbs eir ebs s ready path fresh ok
    have egr := begun_egr c 0x400 (s := s)
    refine ⟨_, meterWrite_sets ebs ready path fresh ok, meter_setMeter_self .., fun k ne => ?_, ?_⟩
    · rw [meter_setMeter_ne _ ne, meter_congr egr]
    · rw [setMeter_egr egr]
  case meterRead =>
    intro c m s ready path fresh low own
    have ok : firstFail [(decide ((beginCmd c 0x401 s).meterOwner m ≠ c.part), Status.noPermission), (decide (65535 < m), .badParam)] = none := by
      rw [firstFail_none]
      simp [own, low]
    rw [exec_meterRead, execMeterRead, runCmd_ready ready ok, atPoint_begin path fresh, begun_now, meter_congr (begun_egr c 0x401)]
  case shaper =>
    intro c node ovh rate burst s ready ok
    have egr := beginCmd_egr c 0x410 (s := s)
    obtain ⟨f, written, same⟩ := shaperWritten_eq (s := beginCmd c 0x410 s) c node ovh rate burst
    have runs : exec (.shaperWrite c node ovh rate burst) s =
        .next (finish c .ok [] s.now 0 (shaperWritten c node ovh rate burst (beginCmd c 0x410 s))) := by
      rw [exec_shaperWrite, execShaperWrite, runCmd_ready ready ok]
      refine congrArg Host.Outcome.next ?_
      dsimp only [shaperWritten]
      split
      · rw [← beginCmd_now c 0x410 s]
        rfl
      · rw [← beginCmd_now c 0x410 s]
        rfl
    rw [shaper_congr egr] at written
    refine ⟨_, runs, ?_, fun k ne => ?_, fun low => ?_, fun high => shaperWritten_overhead c ovh rate burst high, ?_⟩
    · rw [written]
      exact smGet_smSet_self ..
    · rw [written]
      exact (smGet_smSet_ne _ _ _ ne).trans (shaper_congr egr k)
    · rw [written]
      exact (same low).trans (beginCmd_fields ..)
    · rw [written, egr]
  case gclWrite =>
    intro c p base cycle l s ready ok early t
    have egr := beginCmd_egr c 0x420 (s := s)
    have stays : gclTakeover p (beginCmd c 0x420 s) = beginCmd c 0x420 s :=
      gclTakeover_early (fun g found => by
        rw [beginCmd_now]
        exact early g (by rw [← egr]; exact found))
    have runs : exec (.gclWrite c p base cycle l) s = .next (finish c .ok (leBytes 8 t.toNat) s.now 0
        ((beginCmd c 0x420 s).setEgr { (beginCmd c 0x420 s).egr with
          gclPend := smSet (beginCmd c 0x420 s).egr.gclPend p ⟨t, cycle, l⟩ })) := by
      rw [exec_gclWrite, execGclWrite, runCmd_ready ready ok]
      dsimp only
      rw [stays, beginCmd_now]
    rw [egr] at runs
    exact ⟨_, runs, smFind_smSet_self .., fun k ne => smFind_smSet_ne _ _ ne, rfl⟩
  case gclRead =>
    intro c p list first s ready own low g l k b
    have count : (beginCmd c 0x421 s).portCount = s.portCount := portCount_congr (beginCmd_fields ..)
    have works (o : Option Bref) (form : ∀ x, o = some x → brefForm c x 1 = true) : exec (.gclRead c p list first o) s =
        .next (gclReadWork c p list first o b) := by
      refine congrArg Host.Outcome.next (runCmd_ready ready ?_)
      rw [firstFail_none]
      cases o with
      | none => simp [own, count, low]
      | some x => simp [own, count, low, form x rfl]
    have egr : b.egr = s.egr := beginCmd_egr ..
    have now : b.now = s.now := beginCmd_now ..
    refine ⟨?_, ?_⟩
    · rw [works none (fun _ h => by cases h), gclReadWork, egr, now] <;> rfl
    intro o form x
    refine ⟨fun small => ?_, fun fits free => ?_⟩
    · rw [works (some o) (fun _ h => Option.some.inj h ▸ form), gclReadWork, egr, now]
      exact congrArg Host.Outcome.next (if_pos small)
    · rw [works (some o) (fun _ h => Option.some.inj h ▸ form), gclReadWork, egr, now]
      refine congrArg Host.Outcome.next ((if_neg (Nat.not_lt.mpr fits)).trans ?_)
      change (match brefStatus c o 1 x.length b with | some _ => _ | none => _) = _
      rw [free] <;> rfl
  case sample =>
    intro c first count s ready some_ low own n
    have egr : (beginCmd c 0x430 s).egr = s.egr := beginCmd_egr ..
    have ports : (beginCmd c 0x430 s).portCount = s.portCount := portCount_congr (beginCmd_fields ..)
    have ok : firstFail [
        ((List.range (ceilDiv (first + count) 128 - first / 128)).any
          (fun i => decide ((beginCmd c 0x430 s).portOwner (first / 128 + i) ≠ c.part)), Status.noPermission),
        (decide (count = 0) || decide ((beginCmd c 0x430 s).portCount * 128 < first + count), .badParam)] = none := by
      have owned : ∀ i ∈ List.range (ceilDiv (first + count) 128 - first / 128), (beginCmd c 0x430 s).portOwner (first / 128 + i) = c.part := by
        intro i hi
        have inside := List.mem_range.mp hi
        unfold ceilDiv at inside
        exact own _ (by omega)
      rw [firstFail_none]
      simpa [some_, ports, low] using owned
    have entry (q : Nat) : sampleEntry (beginCmd c 0x430 s) q = sampleEntry s q := by
      rw [sampleEntry, sampleEntry, egr, queue_congr egr]
    have runs : exec (.queueSample c first count) s = .next (finish c .ok
        (leBytes 8 (first + n) ++ (List.range n).flatMap (fun i => sampleEntry s (first + i))) s.now
        (if n < count then 2 else 0) (clearDelays first n (beginCmd c 0x430 s))) := by
      rw [exec_queueSample, execQueueSample, runCmd_ready ready ok]
      dsimp only
      simp only [entry]
      rw [beginCmd_now]
    refine ⟨_, runs, fun q h1 h2 => ?_, fun q h => ?_, ?_⟩
    · rw [clearDelays_queue, if_pos ⟨h1, h2⟩, queue_congr egr]
    · rw [clearDelays_queue, if_neg (by omega), queue_congr egr]
    · rw [← egr]
      rfl
  case hostpkt =>
    intro c n x snap s ready ok
    have egr : (beginCmd c 0x440 s).egr = s.egr := beginCmd_egr ..
    refine ⟨fun some_ free => ?_, fun none_ empty => ?_⟩
    · have runs : exec (.hostpktRing c n x snap) s = .next (finish c .ok [] s.now 0 ((beginCmd c 0x440 s).setHring n
          { part := some c.part, bref := x, snap := snap, fifo := ((beginCmd c 0x440 s).hring n).fifo })) := by
        rw [exec_hostpktRing, execHostpktRing, runCmd_ready ready ok]
        rw [if_neg some_, free, beginCmd_now]
      rw [hring_congr egr] at runs
      refine ⟨_, runs, hring_setHring_self .., fun k ne => ?_, ?_⟩
      · rw [hring_setHring_ne _ ne, hring_congr egr]
      · rw [State.setHring, egr]
    · have runs : exec (.hostpktRing c n x snap) s = .next (finish c .ok [] s.now 0 ((beginCmd c 0x440 s).setHring n {})) := by
        rw [exec_hostpktRing, execHostpktRing, runCmd_ready ready ok]
        rw [if_pos none_, beginCmd_now, unbindRing]
        rw [hring_congr egr, if_pos empty]
      refine ⟨_, runs, hring_setHring_self .., fun k ne => ?_, ?_⟩
      · rw [hring_setHring_ne _ ne, hring_congr egr]
      · rw [State.setHring, egr]
  case adjust =>
    intro c offset rate s ready zero free
    have fab : (beginCmd c 0x450 s).fab.joined = false := by rw [beginCmd_fab]; exact free
    have clk : (beginCmd c 0x450 s).clk = s.clk := beginCmd_clk ..
    have ok : firstFail [p0Only c, ((beginCmd c 0x450 s).fab.joined && !(beginCmd c 0x450 s).isMaster &&
        (decide (offset ≠ 0) || decide (rate ≠ 0)), .badParam)] = none := by
      rw [firstFail_none]
      simp [p0Only, zero, free]
    have runs : exec (.timeAdjust c offset rate) s = .next (finish c .ok [] s.now 0 (timeAdjust offset rate (beginCmd c 0x450 s))) := by
      rw [exec_timeAdjust, execTimeAdjust, runCmd_ready ready ok, beginCmd_now]
    rw [timeAdjust_free fab, clk] at runs
    by_cases still : offset = 0
    · rw [if_pos still] at runs
      exact ⟨_, runs, rfl, fun _ => rfl, fun step => absurd still step, rfl⟩
    · rw [if_neg still] at runs
      exact ⟨_, runs, rfl, fun zero => absurd zero still, fun _ => ⟨rfl, rfl⟩, rfl⟩
  case read =>
    intro c s ready
    rw [exec_timeRead, execTimeRead, runCmd_ready ready rfl, beginCmd_now, beginCmd_clk]

end Sys2Proof.Proofs
end

