-- ==== Sys2Proof/Proofs/Models.lean ====
section
/-! PROOF. Thresholds (O38), the INT8 accumulator (O41), and models and their events (O36, O37). -/

namespace Sys2Proof.Proofs
open Sys2Proof.Machine

variable {s : State}

/-! ### Thresholds -/

theorem clampI_within {x lo hi : Int} (h : lo ≤ hi) : lo ≤ clampI x lo hi ∧ clampI x lo hi ≤ hi := by
  unfold clampI
  split
  · exact ⟨Int.le_refl lo, h⟩
  · split
    · exact ⟨h, Int.le_refl hi⟩
    · omega

theorem thrMove_stays {lo hi : Int} {si target : Nat} {t : Thr} (few : t.n < 1024) : thrMove lo hi si target t = t := by
  unfold thrMove
  exact if_pos (.inl few)

theorem thrMove_up {lo hi : Int} {si target : Nat} {t : Thr} (many : 1024 ≤ t.n)
    (past : t.n * target * 5 < t.a * 1000000 * 4) (again : t.dir = 1) : thrMove lo hi si target t =
      { t with step := min (t.step * 2) (si * 256),
               theta := clampI (wrapS 64 (t.theta + (min (t.step * 2) (si * 256) : Nat))) lo hi, dir := 1 } := by
  unfold thrMove
  dsimp only
  rw [if_pos past, if_neg (by omega), if_pos again.symm, Int.one_mul]

theorem thrMove_down {lo hi : Int} {si target : Nat} {t : Thr} (many : 1024 ≤ t.n)
    (under : t.a * 1000000 * 5 < t.n * target * 4) (turned : t.dir = 1) : thrMove lo hi si target t =
      { t with step := max (t.step / 2) 1,
               theta := clampI (wrapS 64 (t.theta - (max (t.step / 2) 1 : Nat))) lo hi, dir := -1 } := by
  unfold thrMove
  dsimp only
  rw [if_neg (by omega : ¬ t.n * target * 5 < t.a * 1000000 * 4), if_pos under, if_neg (by omega), if_neg (by omega),
    if_pos (by omega), Int.neg_one_mul, ← Int.sub_eq_add_neg]

theorem thrMove_within {lo hi : Int} {si target : Nat} {t : Thr} (low : lo ≤ t.theta) (high : t.theta ≤ hi) :
    lo ≤ (thrMove lo hi si target t).theta ∧ (thrMove lo hi si target t).theta ≤ hi := by
  unfold thrMove
  extract_lets _ _ dir
  clear_value dir
  split
  · exact ⟨low, high⟩
  · exact clampI_within (Int.le_trans low high)

/-- The threshold of a slot in its next period (06 R204). -/
def nextThr (lo hi : Int) (si ctrl target period : Nat) (t : Thr) : Thr :=
  { (if ctrl = 1 then thrMove lo hi si target t else t) with
    n := 0, a := 0, lastN := t.n, lastA := t.a, since := t.since + dw (t.period * 1000000), period := period }

theorem thresholdPeriod_early {n : Nat} (early : s.now.toNat < (s.slot n).thr.since.toNat + (s.slot n).thr.period * 1000000) :
    thresholdPeriod n s = s := by
  unfold thresholdPeriod
  dsimp only
  split
  · exact if_pos (.inr early)
  · rfl

theorem thresholdPeriod_ends {n : Nat} {lo hi : Int} {si : Nat} (up : s.up = true) (bounds : thrBounds (s.slot n) = some (lo, hi, si))
    (loaded : 2 ≤ (s.slot n).state) (past : (s.slot n).thr.since.toNat + (s.slot n).thr.period * 1000000 ≤ s.now.toNat) :
    thresholdPeriod n s = s.setSlot n { s.slot n with
      thr := nextThr lo hi si (s.fval .wkThrCtrl n) (s.fval .wkThrTarget n) (s.fval .wkThrPeriod n) (s.slot n).thr } := by
  unfold thresholdPeriod
  dsimp only
  rw [up, bounds]
  exact if_neg (by omega)

theorem exec_thresholdPeriod (n : Nat) (s : State) : exec (.thresholdPeriod n) s = .next (thresholdPeriod n s) := rfl
theorem exec_threshRead (c : CmdCtx) (n : Nat) (s : State) : exec (.threshRead c n) s = execThreshRead c n s := rfl

/-- Settles O38. -/
theorem thresholdsMove : Obligations.ThresholdsMove := by
  refine ⟨?period, ?read⟩
  case period =>
    intro n lo hi si s running bounds loaded t0 x y
    refine ⟨fun early => ?_, fun past => ?_⟩
    · rw [exec_thresholdPeriod, thresholdPeriod_early early]
    · refine ⟨_, (exec_thresholdPeriod n s).trans (congrArg _ (thresholdPeriod_ends (up_of_running running) bounds loaded past)), ?_⟩
      intro t1
      have next : t1 = nextThr lo hi si (s.fval .wkThrCtrl n) (s.fval .wkThrTarget n) (s.fval .wkThrPeriod n) t0 :=
        congrArg Slot.thr (slot_setSlot_self ..)
      rw [next]
      refine ⟨rfl, rfl, rfl, rfl, rfl, rfl, fun still => ?_, fun on many above again => ?_, fun on many below turned => ?_,
        fun low high => ?_, rfl, fun m ne => slot_setSlot_ne _ ne⟩
      · have same : (if s.fval .wkThrCtrl n = 1 then thrMove lo hi si (s.fval .wkThrTarget n) t0 else t0) = t0 := by
          split
          · next on => exact thrMove_stays (still.resolve_left (Classical.not_not.mpr on))
          · rfl
        rw [nextThr, same]
        exact ⟨rfl, rfl, rfl⟩
      · rw [nextThr, if_pos on, thrMove_up many above again]
        exact ⟨rfl, rfl, rfl⟩
      · rw [nextThr, if_pos on, thrMove_down many below turned]
        exact ⟨rfl, rfl, rfl⟩
      · unfold nextThr
        split
        · exact thrMove_within low high
        · exact ⟨low, high⟩
  case read =>
    intro c n s ready ok r t body
    have runs : exec (.threshRead c n) s = .next (finish c .ok (body ++ leBytes 4 (alarmRate t r).1) 0 0 (alarmRate t r).2) := by
      rw [exec_threshRead, execThreshRead, runCmd_ready ready ok]
      rfl
    refine ⟨fun some_ => ?_, fun none_ => ⟨Config.freeNat r.free % 2 ^ 32, Nat.mod_lt _ (by decide), ?_⟩⟩
    · rw [runs, alarmRate, if_neg some_]
    · rw [runs, alarmRate, if_pos none_]
      rfl

/-! ### The INT8 accumulator -/

theorem wrapU_emod (w : Nat) (i : Int) : ((wrapU w i : Nat) : Int) = i % (2 ^ w : Nat) := by
  have pos : (0 : Int) < ((2 ^ w : Nat) : Int) := Int.natCast_pos.mpr (Nat.two_pow_pos _)
  exact Int.toNat_of_nonneg (Int.emod_nonneg i (Int.ne_of_gt pos))

theorem wrapS_congr {w : Nat} {i j : Int} (h : i % (2 ^ w : Nat) = j % (2 ^ w : Nat)) : wrapS w i = wrapS w j := by
  rw [wrapS, wrapU, h]
  rfl

theorem wrapS_emod (i : Int) : wrapS 32 i % (2 ^ 32 : Nat) = i % (2 ^ 32 : Nat) := by
  have low := wrapU_emod 32 i
  unfold wrapS sxNat
  extract_lets m
  have same : m = wrapU 32 i % 2 ^ 32 := rfl
  clear_value m
  split <;> omega

theorem wrapS_add (i j : Int) : wrapS 32 (wrapS 32 i + j) = wrapS 32 (i + j) := by
  refine wrapS_congr ?_
  have same := wrapS_emod i
  omega

theorem wrapS_add_wrapS (i j : Int) : wrapS 32 (wrapS 32 i + wrapS 32 j) = wrapS 32 (i + j) := by
  rw [wrapS_add, Int.add_comm, wrapS_add, Int.add_comm]

/-- The sum of the products of a list. -/
def productSum (l : List (Nat × Nat)) : Int := (l.map (fun x => sxNat 8 x.1 * sxNat 8 x.2)).sum

theorem foldl_add_eq (l : List Int) (i : Int) : l.foldl (· + ·) i = i + l.sum := by
  induction l generalizing i with
  | nil => simp
  | cons x l ih => rw [List.foldl_cons, ih, List.sum_cons, Int.add_assoc]

/-- The products of a block, added to a sum. -/
theorem foldl_macStep (l : List (Nat × Nat)) (i : Int) :
    l.foldl (fun x (u, v) => macStep false x u v) (.int (wrapS 32 i)) = .int (wrapS 32 (i + productSum l)) := by
  induction l generalizing i with
  | nil => simp [productSum]
  | cons x l ih =>
    have step : macStep false (.int (wrapS 32 i)) x.1 x.2 = .int (wrapS 32 (i + sxNat 8 x.1 * sxNat 8 x.2)) :=
      congrArg Acc.int (wrapS_add ..)
    rw [List.foldl_cons]
    dsimp only
    rw [step, ih, productSum, productSum, List.map_cons, List.sum_cons, Int.add_assoc]

/-- The block sums, added to a sum. -/
theorem foldl_blocks (l : List (List (Nat × Nat))) (i : Int) :
    (l.map (fun g => g.foldl (fun x (u, v) => macStep false x u v) (accZero false))).foldl addAcc (.int (wrapS 32 i)) =
      .int (wrapS 32 (i + productSum l.flatten)) := by
  induction l generalizing i with
  | nil => simp [productSum]
  | cons g l ih =>
    have block : g.foldl (fun x (u, v) => macStep false x u v) (accZero false) = .int (wrapS 32 (productSum g)) := by
      have zero := foldl_macStep g 0
      rwa [Int.zero_add] at zero
    have add : addAcc (.int (wrapS 32 i)) (.int (wrapS 32 (productSum g))) = .int (wrapS 32 (i + productSum g)) :=
      congrArg Acc.int (wrapS_add_wrapS ..)
    rw [List.map_cons, List.foldl_cons, block, add, ih, List.flatten_cons, productSum, productSum, productSum, List.map_append,
      List.sum_append, Int.add_assoc]

theorem flatten_groups {α : Type} {n k : Nat} (pos : 0 < n) (l : List α) (enough : l.length ≤ k) : (groups n k l).flatten = l := by
  induction k generalizing l with
  | zero => rw [List.length_eq_zero_iff.mp (Nat.le_zero.mp enough)]; rfl
  | succ k ih =>
    unfold groups
    split
    · next empty => rw [List.isEmpty_iff.mp empty]; rfl
    · next some_ =>
      have pos' : 0 < l.length := List.length_pos_iff.mpr (fun h => some_ (by rw [h]; rfl))
      rw [List.flatten_cons, ih _ (by rw [List.length_drop]; omega), List.take_append_drop]

/-- Settles O41. -/
theorem integerDotIsTheSum : Obligations.IntegerDotIsTheSum := by
  intro a b same
  have blocks := foldl_blocks (groups 128 a.length (List.zip a b)) 0
  rw [flatten_groups (by decide) _ (Nat.le_of_eq (by rw [List.length_zip, same, Nat.min_self])), Int.zero_add] at blocks
  rw [foldl_add_eq, Int.zero_add]
  exact blocks

/-! ### A load from a buffer that no in-band command may name

The first clause of the loads has no hypothesis on the command's BREF. -/

/-- A MODEL_LOAD that partition 1 sends in its in-band stream, behind a command of it that has not replied. -/
def inbandLoad : CmdCtx := { src := .inband 1 0 [], part := 1, flags := 0, seq := 1, layer := 0, oper := 0, tag := 0 }

/-- A buffer in host memory, which an in-band command may not name (02 R67). -/
def hostBuffer : Bref := { dir := 0, loc := 0, addr := 0, size := 128 }

/-- A state with a loaded slot of partition 1. -/
def loadedSlot : State :=
  { State.reset with
    sys := { State.reset.sys with mode := .running }
    slots := [(0, { state := 2 })]
    parts := [(1, { state := 1, slots := 1, ibFlight := [{ ctx := { inbandLoad with seq := 0 }, opc := 0x001 }] })] }

/-- The statuses of the replies that wait in the in-band stream of partition 1. -/
def waitingStatuses (o : Host.Outcome State Fault Refusal) : List Nat :=
  match o with
  | .next t => (t.part 1).ibFlight.map (fun e => (e.reply.map (·.status)).getD 0)
  | _ => []

theorem waitingStatuses_inbandLoad : waitingStatuses (exec (.modelLoad inbandLoad 0 hostBuffer) loadedSlot) =
    [0, Status.badParam.code] := by decide +kernel

theorem waitingStatuses_busy : waitingStatuses (.next (finish inbandLoad .busy [] 0 0 (beginCmd inbandLoad 0x300 loadedSlot))) =
    [0, Status.busy.code] := by decide +kernel

/-- Refutes O36: a MODEL_LOAD into a loaded slot whose BREF the command may not use is BAD_PARAM, not BUSY. -/
theorem not_modelsLoadAndUnload : ¬ Obligations.ModelsLoadAndUnload := by
  unfold Obligations.ModelsLoadAndUnload
  rintro ⟨loads, _⟩
  have claim := (loads inbandLoad 0 hostBuffer loadedSlot (by decide) (by decide)).1 (by decide)
  have statuses := congrArg waitingStatuses claim
  rw [waitingStatuses_inbandLoad, waitingStatuses_busy] at statuses
  cases statuses

/-! ### Events and their verdicts -/

theorem eps_dropRef (p num : Nat) : (dropRef p num s).eps p =
    (s.eps p).map (fun x => if x.num = num then { x with refs := x.refs - 1 } else x) := eps_setEps_self ..

theorem dropRef_eq (p num : Nat) : ∃ e, dropRef p num s = { s with epochs := e } := ⟨_, rfl⟩

/-- The verdict of an event with no lease and no hold, on a flow of its generation, is written at home. -/
theorem settleEvent_stands {e : Event} {v : Verdict} (index : v.index = e.index) (part : v.part = e.part) (epoch : v.epoch = e.epoch)
    (here : isLeasedIdx e.index = false) (noLease : s.leaseOf e.index = none) (noHold : s.holdOf e.index = none)
    (fresh : staleVerdict s (s.ctx e.index) v = false) : ∃ f eps, settleEvent e v s = { s with flow := f, epochs := eps } ∧
      f.ctxs = smSet s.flow.ctxs e.index (withVerdict v (s.ctx e.index)) ∧
      State.eps { s with epochs := eps } e.part = (s.eps e.part).map (fun x => if x.num = e.epoch then { x with refs := x.refs - 1 } else x) := by
  have stored := storeVerdict_open (s := s) (v := v) (by rw [index]; exact noHold)
  rw [index] at stored
  have written : writeVerdict v s = (s.setCtx e.index (withVerdict v (s.ctx e.index))).modHot e.index
      (fun h => { h with vkind := v.kind, vvalid := true, vinvalid := v.invalid }) := by
    have noLease' : ((s.setCtx e.index (withVerdict v (s.ctx e.index))).modHot e.index
      (fun h => { h with vkind := v.kind, vvalid := true, vinvalid := v.invalid })).leaseOf e.index = none := noLease
    unfold writeVerdict verdictAtHome
    dsimp only
    rw [index, here, if_neg Bool.false_ne_true, fresh, if_neg Bool.false_ne_true, stored, noLease']
  unfold settleEvent
  rw [written]
  exact ⟨_, _, rfl, rfl, eps_dropRef (s := s) ..⟩

/-- The verdict of an event whose flow has changed generation is counted as stale. -/
theorem settleEvent_stale {e : Event} {v : Verdict} (index : v.index = e.index) (here : isLeasedIdx e.index = false)
    (other : (s.ctx e.index).gen ≠ v.gen) : settleEvent e v s = dropRef e.part e.epoch (s.count (.slot v.slot .verdictStale)) := by
  unfold settleEvent writeVerdict verdictAtHome
  dsimp only
  rw [index, here, if_neg Bool.false_ne_true, staleVerdict, decide_eq_true other]
  rfl

theorem unloadDue_other {n : Nat} (h : (s.slot n).state ≠ 4) : unloadDue n s = s := if_neg (fun due => h due.1)

theorem countEval_cntAt {n part : Nat} {e : Ensemble} {x : Eval} {cls : Nat} {loop : Bool} {j : Nat}
    (h1 : j ≠ (Ctr.slot n .nanFeature).key) (h2 : j ≠ (Ctr.ev part .nodePoisoned).key) :
    (countEval n part e x cls loop s).cntAt j = s.cntAt j := by
  unfold countEval
  extract_lets s1 s2
  have first : s1.cntAt j = s.cntAt j := by
    show State.cntAt (if _ then _ else _) j = _
    split
    · exact cntAt_count_ne h1
    · rfl
  have second : s2.cntAt j = s1.cntAt j := by
    show State.cntAt (if _ then _ else _) j = _
    split
    · exact cntAt_count_ne h2
    · rfl
  split
  · exact second.trans first
  · exact second.trans first

theorem exec_eventEnsembleEval (n : Nat) (s : State) : exec (.eventEnsembleEval n) s = .next (unloadDue n (eventEval n s)) := rfl
theorem exec_batchTimeout (n : Nat) (s : State) : exec (.batchTimeout n) s = .next (batchTimeout n s) := rfl
theorem exec_batchComplete (n : Nat) (s : State) : exec (.batchComplete n) s = .next (unloadDue n (batchComplete n s)) := rfl

section
variable {n : Nat} {e : Ensemble} {ev : Event} {q : List Event}

/-- The state in which the oldest event of a slot has been evaluated. -/
def evaluated (n : Nat) (e : Ensemble) (ev : Event) (q : List Event) (s : State) : State :=
  let r := evaluate e ev.words (2 ^ 32 - 1)
  countEval n ev.part e r (decideClass r.sums e.nOut (s.slot n).thr.theta e.outShift).1 (decide (e.nOut = 1))
    (s.setSlot n { s.slot n with evq := q })

/-- The verdict of the oldest event of a slot. -/
def eventVerdict (n : Nat) (e : Ensemble) (ev : Event) (s : State) : Verdict :=
  let r := evaluate e ev.words (2 ^ 32 - 1)
  let d := decideClass r.sums e.nOut (s.slot n).thr.theta e.outShift
  ev.verdict n (classKind e.classAct d.1) (r.poison || (r.nan && e.nanTrap)) d.1 d.2 s.now

theorem evaluated_facts : EvalFrame s (evaluated n e ev q s) ∧ (∀ m, m ≠ n → (evaluated n e ev q s).slot m = s.slot m) ∧
    ∃ th, (evaluated n e ev q s).slot n = { s.slot n with evq := q, thr := th } ∧
      th.n = (s.slot n).thr.n + (if decide (e.nOut = 1) && !((evaluate e ev.words (2 ^ 32 - 1)).poison ||
        ((evaluate e ev.words (2 ^ 32 - 1)).nan && e.nanTrap)) then 1 else 0) := by
  obtain ⟨frame, others, th, at_, counted⟩ := countEval_counts (s := s.setSlot n { s.slot n with evq := q }) n ev.part e
    (evaluate e ev.words (2 ^ 32 - 1)) (decideClass (evaluate e ev.words (2 ^ 32 - 1)).sums e.nOut (s.slot n).thr.theta e.outShift).1
    (decide (e.nOut = 1))
  refine ⟨EvalFrame.trans ⟨_, s.obs, rfl⟩ frame, fun m ne => (others m ne).trans (slot_setSlot_ne _ ne), th, ?_, ?_⟩
  · rw [slot_setSlot_self] at at_
    exact at_
  · rw [slot_setSlot_self] at counted
    exact counted

theorem eventEval_first (up : s.up = true) (ens : (s.slot n).ens = some e) (oldest : (s.slot n).evq = ev :: q)
    (first : firstAtHome s (s.slot n) ev = true) :
    eventEval n s = settleEvent ev (eventVerdict n e ev s) (evaluated n e ev q s) := by
  obtain ⟨⟨l, o, frame⟩, _⟩ := evaluated_facts (s := s) (n := n) (e := e) (ev := ev) (q := q)
  have now : (evaluated n e ev q s).now = s.now := by rw [frame]; rfl
  unfold eventVerdict
  rw [← now]
  unfold eventEval
  simp only [up, ens, oldest, first, Bool.and_self, evaluated]

theorem eventEval_later (oldest : (s.slot n).evq = ev :: q) (later : firstAtHome s (s.slot n) ev = false) : eventEval n s = s := by
  unfold eventEval
  simp only [oldest, later, Bool.and_false]

end

/-! ### Batches -/

theorem startBatch_running {n : Nat} (busy : (s.slot n).running = true) : startBatch n s = s := by
  unfold startBatch
  dsimp only
  split
  · exact if_pos busy
  · rfl

theorem startBatch_none {n : Nat} (none_ : (s.slot n).batches = []) : startBatch n s = s := by
  unfold startBatch
  simp only [none_]
  cases (s.slot n).tens <;> rfl

theorem dispatchDue_none {n : Nat} (none_ : (s.slot n).filling = []) : dispatchDue n s = s := if_pos none_

theorem dispatchBatch_dispatches {n : Nat} (w : SlotCtr) (some_ : (s.slot n).filling ≠ []) (room : (s.slot n).batches.length < 3)
    (busy : (s.slot n).running = true) : dispatchBatch n (some w) s = (s.setSlot n { s.slot n with
      batches := (s.slot n).batches ++ [(s.slot n).filling], batchAt := (s.slot n).batchAt ++ [s.now], filling := [] }).count (.slot n w) := by
  unfold dispatchBatch
  dsimp only
  rw [if_neg fun h => h.elim some_ (by omega)]
  refine startBatch_running ?_
  show (State.slot (s.setSlot n _) n).running = true
  rw [slot_setSlot_self]
  exact busy

theorem foldl_somes {F : List Int × State → Option Int → List Int × State} (takes : ∀ a i, F a (some i) = (a.1 ++ [i], a.2))
    (f : Nat → Int) (l : List Nat) (a : List Int) : (l.map (fun i => some (f i))).foldl F (a, s) = (a ++ l.map f, s) := by
  induction l generalizing a with
  | nil => simp
  | cons i l ih =>
    rw [List.map_cons, List.foldl_cons, takes, ih]
    simp

/-- The result of a row of a batch's INT32 output. -/
theorem rowResult_int {x : Slot} {t : Tensor} (p m : Nat) (format : uAt t.outMap 8 1 = 4) : rowResult x t p m s =
    let row := relocAddr (x.reloc t t.inputAddr) (uAt t.outMap 0 8) + m * uAt t.outMap 12 4 * 4
    let d := decideClass ((List.range (uAt t.outMap 9 1)).map (fun i => sxNat 32 (treadNat s p (row + i * 4) 4))) (uAt t.outMap 9 1)
      (if x.kind = 2 then sAt t.outMap 16 8 else x.thr.theta) (uAt t.outMap 10 1)
    (d.1, d.2, tpoison s p row (uAt t.outMap 9 1 * 4), s) := by
  have sum : outSum 4 = fun v => some (sxNat 32 v) := rfl
  unfold rowResult
  simp only [format, show ¬ (4 : Nat) = 0 from Nat.succ_ne_zero 3, if_false, sum]
  rw [foldl_somes (fun _ _ => rfl)]
  have whole : ∀ l : List Nat, l.any (fun _ => false) = false := fun l => by induction l <;> simp
  simp only [List.any_map, Function.comp_def, Option.isNone_some, whole, Bool.false_or, List.nil_append]

/-- The state in which the running batch of a slot has left it. -/
def batchTaken (n j : Nat) (s : State) : State :=
  (forgetJob j s).setSlot n { s.slot n with batches := [], batchAt := (s.slot n).batchAt.drop 1, running := false }

theorem batchComplete_one {n : Nat} {x : Tensor} {e : Event} {j : TJob} (up : s.up = true) (tens : (s.slot n).tens = some x)
    (one : (s.slot n).batches = [[e]]) (busy : (s.slot n).running = true) (job : batchJob s n = some j)
    (done : ∀ k ∈ jobCmds s j.id, k.state = 2) : batchComplete n s =
      let l := jobCmds s j.id
      let poison := decide (jobStatus l = Status.dataPoisoned.code)
      let cut := decide ((l.getLast?.map (·.word)).getD 0 = 0)
      dispatchDue n (startBatch n (if jobStatus l = 0 || poison then batchVerdicts n (s.slot n) x (poison && cut) [e] 0 (batchTaken n j.id s)
        else dropRef e.part e.epoch (batchTaken n j.id s))) := by
  have all : (jobCmds s j.id).all (fun c => decide (c.state = 2)) = true := by simpa using done
  unfold batchComplete
  simp only [up, tens, one, job, busy, all, Bool.and_self, if_true, batchTaken, discardEvents, List.foldl_cons, List.foldl_nil]

theorem batchTaken_slot (n j : Nat) : (batchTaken n j s).slot n =
    { s.slot n with batches := [], batchAt := (s.slot n).batchAt.drop 1, running := false } := slot_setSlot_self ..

/-- The verdict of the one event of a batch with an INT32 output. -/
theorem batchVerdicts_one {n j : Nat} {t : Tensor} {e : Event} (inv : Bool) (format : uAt t.outMap 8 1 = 4) :
    let r := rowResult (s.slot n) t e.part 0 s
    ∃ u th, batchVerdicts n (s.slot n) t inv [e] 0 (batchTaken n j s) = settleEvent e (e.verdict n
        (classKind ((List.range 8).map (fun i => byteAt t.outMap (52 + i))) r.1) (r.2.2.1 || inv) r.1 r.2.1 s.now) u ∧
      u = { forgetJob j s with slots := u.slots } ∧ u.slot n =
        { s.slot n with batches := [], batchAt := (s.slot n).batchAt.drop 1, running := false, thr := th } := by
  intro r
  have row : rowResult (s.slot n) t e.part 0 (batchTaken n j s) = (r.1, r.2.1, r.2.2.1, batchTaken n j s) := by
    rw [rowResult_int _ _ format, show r = _ from rowResult_int _ _ format]
    rfl
  unfold batchVerdicts
  rw [row]
  dsimp only
  unfold batchVerdicts
  split
  · refine ⟨_, { (s.slot n).thr with n := (s.slot n).thr.n + 1, a := (s.slot n).thr.a + b2n (decide (r.1 = 1)) }, rfl, rfl, ?_⟩
    rw [State.modSlot, slot_setSlot_self, batchTaken_slot]
  · exact ⟨_, (s.slot n).thr, rfl, rfl, batchTaken_slot ..⟩

/-- Settles O37. -/
theorem eventsBecomeVerdicts : Obligations.EventsBecomeVerdicts := by
  unfold Obligations.EventsBecomeVerdicts
  extract_lets released plain
  refine ⟨?ensemble, ?timeout, ?complete⟩
  case ensemble =>
    intro n e ev q s running loaded ens oldest
    refine ⟨fun later => ?_, fun first => ?_⟩
    · rw [exec_eventEnsembleEval, eventEval_later oldest later, unloadDue_other loaded]
    intro r d bad
    obtain ⟨frame, others, th, at_, counted⟩ := evaluated_facts (s := s) (n := n) (e := e) (ev := ev) (q := q)
    have runs := eventEval_first (up_of_running running) ens oldest first
    refine ⟨fun ⟨here, noLease, noHold, fresh⟩ => ?_, fun here other lowN lowP => ?_⟩
    · obtain ⟨f, eps, settled, wrote, dropped⟩ := settleEvent_stands (s := evaluated n e ev q s) (e := ev)
        (v := eventVerdict n e ev s) rfl rfl rfl here
        (by obtain ⟨l, o, frame⟩ := frame; rw [frame]; exact noLease) (by obtain ⟨l, o, frame⟩ := frame; rw [frame]; exact noHold)
        (by obtain ⟨l, o, frame⟩ := frame; rw [frame]; exact fresh)
      have kept : (evaluated n e ev q s).flow = s.flow ∧ (evaluated n e ev q s).ctx ev.index = s.ctx ev.index ∧
          (evaluated n e ev q s).eps ev.part = s.eps ev.part := by
        obtain ⟨l, o, frame⟩ := frame
        rw [frame]
        exact ⟨rfl, rfl, rfl⟩
      obtain ⟨flow, ctx, live⟩ := kept
      rw [settled] at runs
      have slots : ∀ m, State.slot { evaluated n e ev q s with flow := f, epochs := eps } m = (evaluated n e ev q s).slot m :=
        fun _ => rfl
      refine ⟨_, by rw [exec_eventEnsembleEval, runs, unloadDue_other (by rw [slots, at_]; exact loaded)], ?_, ?_, ?_, ?_, ?_, ?_, ?_⟩
      · rw [slots, at_]
      · exact dropped.trans (by rw [live])
      · refine (congrArg (smGet {} · ev.index) wrote).trans ?_
        rw [smGet_smSet_self, ctx]
        rfl
      · intro j ne
        refine (congrArg (smGet {} · j) wrote).trans ?_
        rw [smGet_smSet_ne _ _ _ ne, flow]
        rfl
      · exact fun m ne => (slots m).trans (others m ne)
      · rw [slots, at_]
        dsimp only
        rw [counted]
        congr 1
        simp only [Bool.and_eq_true, decide_eq_true_eq, Bool.not_eq_true', bad, r]
      · obtain ⟨l, o, frame⟩ := frame
        rw [frame]
    · have kept : (evaluated n e ev q s).flow = s.flow ∧ (evaluated n e ev q s).eps ev.part = s.eps ev.part := by
        obtain ⟨l, o, frame⟩ := frame
        rw [frame]
        exact ⟨rfl, rfl⟩
      obtain ⟨flow, live⟩ := kept
      have ctx : (evaluated n e ev q s).ctx ev.index = s.ctx ev.index := by
        show smGet {} (evaluated n e ev q s).flow.ctxs ev.index = _
        rw [flow]
        rfl
      rw [settleEvent_stale (s := evaluated n e ev q s) rfl here (by rw [ctx]; exact other)] at runs
      obtain ⟨eps, dropped⟩ := dropRef_eq (s := (evaluated n e ev q s).count (.slot n .verdictStale)) ev.part ev.epoch
      have slots : (dropRef ev.part ev.epoch ((evaluated n e ev q s).count (.slot n .verdictStale))).slot n =
          (evaluated n e ev q s).slot n := by rw [dropped]; rfl
      have stays : unloadDue n (dropRef ev.part ev.epoch ((evaluated n e ev q s).count (.slot n .verdictStale))) =
          dropRef ev.part ev.epoch ((evaluated n e ev q s).count (.slot n .verdictStale)) :=
        unloadDue_other (by rw [slots, at_]; exact loaded)
      refine ⟨dropRef ev.part ev.epoch ((evaluated n e ev q s).count (.slot n .verdictStale)),
        by rw [exec_eventEnsembleEval, runs]; exact congrArg _ stays, ?_, ?_, ?_, ?_⟩
      · rw [slots, at_]
      · exact (eps_dropRef ..).trans (congrArg (List.map _) live)
      · rw [dropped]
        exact flow
      · rw [dropped]
        refine (cntAt_count_self _ _).trans ?_
        rw [show dw 1 = 1 from rfl, evaluated, countEval_cntAt]
        · rfl
        · simp only [Ctr.key, ctrKey, SlotCtr.ctorIdx]
          omega
        · simp only [Ctr.key, ctrKey, SlotCtr.ctorIdx, PartCtr.ctorIdx]
          omega
  case timeout =>
    intro n s running some_
    refine ⟨fun early => ?_, fun late room busy => ?_⟩
    · rw [exec_batchTimeout, batchTimeout, if_neg (by omega)]
    · have sent := dispatchBatch_dispatches (s := s) .batchTimeout some_ room busy
      refine ⟨dispatchBatch n (some .batchTimeout) s, by rw [exec_batchTimeout, batchTimeout, if_pos ⟨up_of_running running, some_, late⟩],
        ?_, fun m ne => ?_, ?_, ?_⟩
      · rw [sent]
        exact slot_setSlot_self ..
      · rw [sent]
        exact slot_setSlot_ne _ ne
      · rw [sent]
        exact cntAt_count_self ..
      · rw [sent]
        rfl
  case complete =>
    intro n x e j s running loaded tens one filling busy job done poisoned cut
    have ends := batchComplete_one (up_of_running running) tens one busy job done
    have empty : ∀ u th, State.slot u n = { s.slot n with batches := [], batchAt := (s.slot n).batchAt.drop 1, running := false, thr := th } →
        unloadDue n (dispatchDue n (startBatch n u)) = u := by
      intro u th slot
      rw [startBatch_none (by rw [slot]), dispatchDue_none (by rw [slot]; exact filling), unloadDue_other (by rw [slot]; exact loaded)]
    refine ⟨fun failed sound => ?_, fun ended plain format => ?_⟩
    · have branch : (jobStatus (jobCmds s j.id) = 0 || poisoned) = false := by
        rw [sound, Bool.or_false]
        exact decide_eq_false failed
      obtain ⟨eps, dropped⟩ := dropRef_eq (s := batchTaken n j.id s) e.part e.epoch
      have slot : State.slot (dropRef e.part e.epoch (batchTaken n j.id s)) n =
          { s.slot n with batches := [], batchAt := (s.slot n).batchAt.drop 1, running := false } := by
        rw [dropped]
        exact batchTaken_slot ..
      refine ⟨dropRef e.part e.epoch (batchTaken n j.id s), ?_, slot, eps_dropRef .., ?_, ?_⟩
      · rw [exec_batchComplete, ends]
        dsimp only
        rw [show (_ || _) = false from branch, if_neg Bool.false_ne_true]
        exact congrArg _ (empty _ _ slot)
      · rw [dropped]
        rfl
      · rw [dropped]
        rfl
    · intro r
      obtain ⟨here, noLease, noHold, fresh⟩ := plain
      have branch : (jobStatus (jobCmds s j.id) = 0 || poisoned) = true := by
        simpa using ended
      obtain ⟨u, th, verdicts, frame, slot⟩ := batchVerdicts_one (s := s) (n := n) (j := j.id) (t := x) (e := e) (poisoned && cut) format
      obtain ⟨f, eps, settled, wrote, dropped⟩ := settleEvent_stands (s := u) (e := e)
        (v := e.verdict n (classKind ((List.range 8).map (fun i => byteAt x.outMap (52 + i))) r.1) (r.2.2.1 || (poisoned && cut)) r.1 r.2.1 s.now)
        rfl rfl rfl here (by rw [frame]; exact noLease) (by rw [frame]; exact noHold) (by rw [frame]; exact fresh)
      have slot' : State.slot { u with flow := f, epochs := eps } n = _ := slot
      refine ⟨{ u with flow := f, epochs := eps }, ?_, ?_, ?_, ?_, ?_, ?_, ?_, ?_⟩
      · rw [exec_batchComplete, ends]
        dsimp only
        rw [show (_ || _) = true from branch, if_pos rfl]
        exact congrArg _ ((congrArg (fun t => unloadDue n (dispatchDue n (startBatch n t))) (verdicts.trans settled)).trans (empty _ _ slot'))
      · rw [slot']
      · rw [slot']
      · exact dropped.trans (by rw [frame]; rfl)
      · refine (congrArg (smGet {} · e.index) wrote).trans ?_
        rw [smGet_smSet_self, frame]
        rfl
      · intro i ne
        refine (congrArg (smGet {} · i) wrote).trans ?_
        rw [smGet_smSet_ne _ _ _ ne, frame]
        rfl
      · rw [frame]
        rfl
      · rw [frame]
        rfl

end Sys2Proof.Proofs
end

