-- ==== Sys2Proof/Proofs/Darn.lean ====
section
/-! PROOF. DARN's part of the state: what work on tiles, slots and replies leaves of it, and DARN's own commands (O51). -/

namespace Sys2Proof.Proofs
open Sys2Proof.Machine

variable {s : State}

/-! ### The start of a command leaves DARN alone -/

/-- A write of less than a unit covers none whole. -/
theorem wholeUnits_short {p a n : Nat} (short : n < 64) : s.wholeUnits p a n = [] := by
  have one : n / 64 + 1 = 1 := by omega
  have beyond : ¬ (ceilDiv a 64 + 0) * 64 + 64 ≤ a + n := by
    unfold ceilDiv
    omega
  unfold State.wholeUnits
  rw [one]
  simp only [List.range_one, List.filterMap_cons, if_neg beyond, List.filterMap_nil, List.map_nil]

theorem noteEpoch_darn (l : List (Nat × Nat)) : (s.noteEpoch l).darn = s.darn := by
  unfold State.noteEpoch
  split <;> rfl

theorem countHbm_darn (p a n : Nat) (w : Bool) : (countHbm s p a n w).darn = s.darn := by
  unfold countHbm
  split <;> rfl

theorem hbmWrite_darn (p a : Nat) (b : Bytes) : ∃ l, (s.hbmWrite p a b).darn = { s.darn with poisonHbm := l } := by
  unfold State.hbmWrite
  dsimp only
  exact ⟨_, by rw [noteEpoch_darn, countHbm_darn]⟩

theorem hbmWrite_darn_short {p a : Nat} {b : Bytes} (short : b.length < 64) : (s.hbmWrite p a b).darn = s.darn := by
  unfold State.hbmWrite
  dsimp only
  rw [wholeUnits_short short, noteEpoch_darn, countHbm_darn]
  exact congrArg (fun l => { s.darn with poisonHbm := l }) (List.filter_eq_self.mpr fun _ _ => rfl)

theorem shiftRecs_darn (p addr size n pos : Nat) (s : State) : (shiftRecs p addr size n pos s).darn = s.darn := by
  induction n generalizing pos s with
  | zero => rfl
  | succ n ih => exact ih ..

theorem traceBytes_length (p : Nat) (w : Wait) (now : DWord) : (traceBytes p w now).length = 32 := by
  simp [traceBytes, leBytes, zeros]

theorem count_darn (k : Ctr) (n : Nat) : (s.count k n).darn = s.darn := rfl

theorem setTrace_darn (p : Nat) (x : Trace) : (s.setTrace p x).darn = s.darn := rfl

theorem traceWait_darn (p : Nat) (w : Wait) (s : State) : (traceWait p w s).darn = s.darn := by
  unfold traceWait
  dsimp only
  split
  · rfl
  split
  · rfl
  split
  · rfl
  · rw [count_darn, setTrace_darn, hbmWrite_darn_short (by rw [traceBytes_length]; decide), shiftRecs_darn]
    rfl

theorem setFlight_darn (x : Src) (l : List InFlight) : (s.setFlight x l).darn = s.darn := by
  cases x <;> rfl

theorem takeProfile_darn (c : CmdCtx) (s : State) : (takeProfile c s).darn = s.darn := by
  unfold takeProfile
  split
  · rfl
  · split <;> rfl

theorem fenceEnds_darn (c : CmdCtx) (s : State) : (fenceEnds c s).darn = s.darn := by
  unfold fenceEnds
  split
  · exact (traceWait_darn ..).trans (setFlight_darn ..)
  · rfl

@[simp] theorem beginCmd_darn (c : CmdCtx) (opc : Nat) (s : State) : (beginCmd c opc s).darn = s.darn := by
  unfold beginCmd
  extract_lets ep l l' again s'
  have started : s'.darn = s.darn := (fenceEnds_darn ..).trans (setFlight_darn ..)
  split
  · exact started
  · exact (takeProfile_darn ..).trans started

/-! ### Work that leaves DARN its records, procedures and fences -/

/-- DARN is as it was, but for the poison of HBM. -/
def DarnKept (s t : State) : Prop := ∃ l, t.darn = { s.darn with poisonHbm := l }

theorem DarnKept.of_eq {s t : State} (h : t.darn = s.darn) : DarnKept s t := ⟨s.darn.poisonHbm, h⟩

theorem DarnKept.refl (s : State) : DarnKept s s := .of_eq rfl

theorem DarnKept.trans {s t u : State} (a : DarnKept s t) (b : DarnKept t u) : DarnKept s u := by
  obtain ⟨_, a⟩ := a
  obtain ⟨_, b⟩ := b
  exact ⟨_, b.trans (by rw [a])⟩

theorem DarnKept.ite {p : Prop} [Decidable p] {s t u : State} (a : DarnKept s t) (b : DarnKept s u) :
    DarnKept s (if p then t else u) := by
  split
  · exact a
  · exact b

theorem DarnKept.foldl {α : Type} {F : State → α → State} (each : ∀ s x, DarnKept s (F s x)) (l : List α) (s : State) :
    DarnKept s (l.foldl F s) := by
  induction l generalizing s with
  | nil => exact .refl s
  | cons x l ih => exact (each s x).trans (ih _)

theorem finish_darnKept (c : CmdCtx) (st : Status) (body : Bytes) (ord : DWord) (fl : Nat) (s : State) :
    DarnKept s (finish c st body ord fl s) := ⟨_, (finish_answers ..).darn⟩

/-- What an issue does to the command that is first to wait for it: it waits behind another, or is issued. -/
theorem issueOne_marks {p : Nat} {t : State} (h : issueOne p s = some t) : ∃ id,
    (∃ b, t = s.modCmd id (fun z => { z with behind := b })) ∨ t = s.modCmd id (fun z => { z with issued := true, behind := none }) := by
  unfold issueOne at h
  split at h
  · cases h
  · next y _ =>
    obtain ⟨_, h⟩ := Option.ite_none_left_eq_some.mp h
    split at h
    · exact ⟨y.id, .inl ⟨_, (Option.some.inj h).symm⟩⟩
    · exact ⟨y.id, .inr (Option.some.inj h).symm⟩

theorem issueOne_darn {p : Nat} {t : State} (h : issueOne p s = some t) : t.darn = s.darn := by
  obtain ⟨_, ⟨_, rfl⟩ | rfl⟩ := issueOne_marks h <;> rfl

theorem issueMore_darn (p k : Nat) (s : State) : (issueMore p k s).darn = s.darn := by
  induction k generalizing s with
  | zero => rfl
  | succ k ih =>
    unfold issueMore
    split
    next t issued => exact (ih t).trans (issueOne_darn issued)
    · rfl

theorem settleCmds_darn (p : Nat) (s : State) : (settleCmds p s).darn = s.darn := issueMore_darn ..

theorem ownerDue_darn (t : Nat) (s : State) : (ownerDue t s).darn = s.darn := by
  unfold ownerDue
  split <;> rfl

theorem ownersDue_darnKept (s : State) : DarnKept s (ownersDue s) := .foldl (fun s t => .of_eq (ownerDue_darn t s)) _ _

theorem takeShadows_darnKept (n : FName) (s : State) : DarnKept s (s.takeShadows n) := by
  unfold State.takeShadows
  refine .foldl (fun s i => ?_) _ s
  exact .of_eq rfl

theorem poolIdle_darnKept (s : State) : DarnKept s (poolIdle s) := by
  unfold poolIdle
  refine .ite ?_ (.refl s)
  unfold poolRound
  dsimp only
  obtain ⟨l, taken⟩ := takeShadows_darnKept .tileShare s
  exact ⟨l, taken⟩

theorem endJob_darnKept (j : TJob) (s : State) : DarnKept s (endJob j s) := by
  unfold endJob
  dsimp only
  have forgotten : DarnKept s (forgetJob j.id s) := .of_eq rfl
  split
  · exact .ite forgotten (.refl s)
  · exact .ite (forgotten.trans (finish_darnKept ..)) (.refl s)

theorem endCmd_darnKept (x : TCmd) (st : Status) (word : DWord) (stats : List Nat) (s : State) :
    DarnKept s (endCmd x st word stats s) := by
  unfold endCmd
  extract_lets s1 s2 s3
  have ended : DarnKept s s3 := by
    refine .of_eq ((ownerDue_darn ..).trans ((settleCmds_darn ..).trans ?_))
    show State.darn (if _ then _ else _) = _
    split <;> rfl
  split
  · exact ended.trans ((endJob_darnKept ..).trans (poolIdle_darnKept _))
  · exact ended.trans (poolIdle_darnKept _)

theorem dropJob_darnKept (c : CmdCtx) (s : State) : DarnKept s (dropJob c s) := by
  unfold dropJob
  refine .foldl (fun s j => ?_) _ s
  refine DarnKept.trans ?_ (ownersDue_darnKept _)
  refine DarnKept.trans ?_ (.of_eq (settleCmds_darn ..))
  exact DarnKept.trans (.of_eq rfl) (endJob_darnKept ..)

theorem dropRunning_darnKept (c : CmdCtx) (s : State) : DarnKept s (dropRunning c s) :=
  (dropJob_darnKept c s).trans (.foldl (fun _ _ => endCmd_darnKept ..) _ _)

theorem unlistXfer_darn (c : CmdCtx) (s : State) : (unlistXfer c s).darn = s.darn := by
  unfold unlistXfer
  split
  · rfl
  · exact settleCmds_darn ..

theorem dropExchange_darn (c : CmdCtx) (s : State) : (dropExchange c s).darn = s.darn := by
  unfold dropExchange
  dsimp only
  split
  · rfl
  · split <;> rfl

theorem enterPipe_darn (k : Packet) (s : State) : (enterPipe k s).darn = s.darn := by
  obtain ⟨_, _, _, same⟩ := enterPipe_eq (s := s) k
  rw [same]

theorem placeBucket_darnKept (b k : Nat) (s : State) : DarnKept s (placeBucket b k s) := by
  unfold placeBucket
  refine DarnKept.trans (.of_eq rfl) (.foldl (fun s x => ?_) _ _)
  exact .of_eq (enterPipe_darn x s)

theorem dropMove_darnKept (m : Move) (s : State) : DarnKept s (dropMove m s) := by
  unfold dropMove
  split
  · exact .of_eq rfl
  have unpinned (t : State) : (match m.pin with | some was => setPinned m.bucket was t | none => t).darn = t.darn := by
    cases m.pin <;> rfl
  dsimp only
  split
  · refine DarnKept.trans (DarnKept.trans (.of_eq ?_) (placeBucket_darnKept ..)) (.of_eq rfl)
    exact unpinned _
  · exact .of_eq (unpinned _)

theorem dropWork_darnKept (c : CmdCtx) (s : State) : DarnKept s (dropWork c s) := by
  unfold dropWork
  extract_lets s1 s2
  have jobs : DarnKept s s1 := (dropJob_darnKept c s).trans ((DarnKept.of_eq (unlistXfer_darn ..)).trans (.of_eq (dropExchange_darn ..)))
  have moves : DarnKept s s2 := jobs.trans (.foldl (fun s m => dropMove_darnKept m s) _ _)
  exact moves.trans (.of_eq rfl)

theorem abortWork_darnKept (p : InFlight → Bool) (x : Src) (s : State) : DarnKept s (abortWork p x s) :=
  .foldl (fun _ _ => (dropWork_darnKept ..).trans (finish_darnKept ..)) _ _

theorem fenceCp_darnKept (c : Nat) (keep : InFlight → Bool) (s : State) : DarnKept s (fenceCp c keep s) := by
  unfold fenceCp
  refine .foldl (fun s n => ?_) _ s
  refine DarnKept.trans ?_ (abortWork_darnKept ..)
  exact DarnKept.trans (.of_eq rfl) (.foldl (fun s e => dropRunning_darnKept _ s) _ _)

theorem zeroPages_darnKept (p first n : Nat) (s : State) : DarnKept s (zeroPages p first n s) := by
  refine .foldl (fun s i => ?_) _ _
  dsimp only
  split
  · exact .refl s
  · exact ⟨_, rfl⟩

theorem zeroWeights_darnKept (n : Nat) (s : State) : DarnKept s (zeroWeights n s) :=
  .ite (.foldl (fun _ _ => zeroPages_darnKept ..) _ _) (.refl s)

theorem startWipe_darnKept (n : Nat) (s : State) : DarnKept s (startWipe n s) := (zeroWeights_darnKept n s).trans (.of_eq rfl)

theorem emptySlot_darnKept (n : Nat) (s : State) : DarnKept s (emptySlot n s) := by
  unfold emptySlot
  extract_lets x p s1 s2 s3 pages
  have weights : DarnKept s s1 := DarnKept.trans (.of_eq rfl) (zeroWeights_darnKept n _)
  have lines : DarnKept s1 s2 := by
    refine .of_eq ?_
    unfold s2
    split <;> rfl
  have runs : DarnKept s2 s3 := by
    refine .foldl (fun s r => ?_) _ s2
    exact .of_eq rfl
  exact weights.trans (lines.trans (runs.trans (.of_eq rfl)))

theorem unloadDue_darnKept (n : Nat) (s : State) : DarnKept s (unloadDue n s) := by
  unfold unloadDue
  dsimp only
  refine .ite (.ite (startWipe_darnKept n s) (.ite (.refl s) ?_)) (.refl s)
  split
  · exact (emptySlot_darnKept n s).trans (finish_darnKept ..)
  · exact emptySlot_darnKept n s

theorem loseEvents_darnKept (n : Nat) (s : State) : DarnKept s (loseEvents n s) := by
  unfold loseEvents
  refine DarnKept.trans (.of_eq rfl) (.foldl (fun s e => ?_) _ _)
  exact .of_eq rfl

theorem loseWhere_darnKept (f : Slot → Bool) (s : State) : DarnKept s (loseWhere f s) :=
  .foldl (fun _ _ => (loseEvents_darnKept ..).trans (unloadDue_darnKept ..)) _ _

theorem fenceTile_darnKept (t : Nat) (s : State) : DarnKept s (fenceTile t s) :=
  (DarnKept.foldl (fun _ _ => endCmd_darnKept ..) _ _).trans (loseWhere_darnKept ..)

/-! ### DARN's commands -/

theorem exec_errorRead (c : CmdCtx) (first count : Nat) (s : State) : exec (.errorRead c first count) s =
    .next (runCmd c 0x800 (fun _ => none) (errorReadWork c first count) s) := rfl
theorem exec_errorAck (c : CmdCtx) (n : Nat) (s : State) : exec (.errorAck c n) s =
    .next (runCmd c 0x801 (fun _ => none) (fun s => finish c .ok [] 0 0 (ackLog c.part n s)) s) := rfl
theorem exec_windowSet (c : CmdCtx) (src t w : Nat) (s : State) : exec (.windowSet c src t w) s = execWindowSet c src t w s := rfl
theorem exec_unitFence (c : CmdCtx) (n : Nat) (s : State) : exec (.unitFence c n) s = execUnitFence c n s := rfl
theorem exec_unitUnfence (c : CmdCtx) (n : Nat) (s : State) : exec (.unitUnfence c n) s = execUnitUnfence c n s := rfl
theorem exec_errorInject (c : CmdCtx) (src kind : Nat) (s : State) : exec (.errorInject c src kind) s = execErrorInject c src kind s := rfl

/-- The log, procedures, windows and fences that DARN's checks and reads use depend on DARN alone. -/
theorem outOfService_congr {t : State} (h : t.darn = s.darn) (u : Nat) : outOfService t u = outOfService s u := by
  simp only [outOfService, State.isFenced, h]

theorem leavesNone_congr {t : State} (h : t.darn = s.darn) (u : Nat) : leavesNone t u = leavesNone s u := by
  simp only [leavesNone, State.isFenced, h]

theorem spareUsed_congr {t : State} (h : t.darn = s.darn) (u : Nat) : spareUsed t u = spareUsed s u := by
  simp only [spareUsed, h]

theorem win_congr {t : State} (h : t.darn = s.darn) (k : Nat) : t.win k = s.win k := by
  simp only [State.win, h]

theorem winOf_congr {t : State} (h : t.darn = s.darn) (e : ErrIn) : winOf e t = winOf e s := by
  simp only [winOf, h, win_congr h]

theorem winNow_congr {t : State} (h : t.now = s.now) (w : Win) : winNow t w = winNow s w := by
  simp only [winNow, subNow, h]

theorem leavesNone_lane {u : Nat} (lane : isLane u = true) : leavesNone s u = false := by
  have : u / 1024 = 6 := of_decide_eq_true lane
  simp only [leavesNone, this]

/-! ### Windows -/

theorem smFind_foldl_smSet {α : Type} (v : α) (l : List Nat) (m : SMap α) (j : Nat) :
    smFind (l.foldl (fun m k => smSet m k v) m) j = if j ∈ l then some v else smFind m j := by
  induction l generalizing m with
  | nil => simp
  | cons k l ih =>
    rw [List.foldl_cons, ih]
    by_cases h : j ∈ l
    · simp [h]
    by_cases e : j = k
    · simp [e, smFind_smSet_self]
    · simp [h, e, smFind_smSet_ne]

/-- DARN after WINDOW_SET. -/
def windowed (l : List Nat) (w : Win) (d : Darn) : Darn :=
  { d with wins := l.foldl (fun m k => smSet m k w) d.wins, hbmRows := d.hbmRows.filter (fun x => !l.contains x.source) }

theorem windowed_win {l : List Nat} {w : Win} (k : Nat) : State.win { s with darn := windowed l w s.darn } k = if k ∈ l then w else s.win k := by
  simp only [State.win, windowed, smFind_foldl_smSet]
  split <;> rfl

theorem windowed_winOf {l : List Nat} {t w : Nat} (e : ErrIn) : winOf e { s with darn := windowed l ⟨t, w, [], 0⟩ s.darn } =
    if e.source ∈ l then ⟨t, w, [], 0⟩ else winOf e s := by
  have rows : State.darn { s with darn := windowed l ⟨t, w, [], 0⟩ s.darn } = windowed l ⟨t, w, [], 0⟩ s.darn := rfl
  unfold winOf
  rw [windowed_win, rows, windowed]
  dsimp only
  by_cases mem : e.source ∈ l
  · have gone : (s.darn.hbmRows.filter (fun x => !l.contains x.source)).find? (ofRow e) = none := by
      rw [List.find?_eq_none]
      intro x hx row
      have kept := (List.mem_filter.mp hx).2
      simp only [ofRow, Bool.and_eq_true, decide_eq_true_eq] at row
      simp [row.1, mem] at kept
    simp only [gone, if_pos mem]
    split <;> rfl
  · have stays : (s.darn.hbmRows.filter (fun x => !l.contains x.source)).find? (ofRow e) = s.darn.hbmRows.find? (ofRow e) := by
      rw [List.find?_filter]
      congr 1
      funext x
      by_cases row : x.source = e.source
      · simp [row, mem]
      · simp [ofRow, row]
    simp only [stays, if_neg mem]

theorem delFirst_sublist {α : Type} (p : α → Bool) (l : List α) : (delFirst p l).Sublist l := by
  induction l with
  | nil => exact .slnil
  | cons x l ih =>
    unfold delFirst
    split
    · exact List.sublist_cons_self ..
    · exact ih.cons_cons x

theorem winOf_lastRow {e : ErrIn} {w : Win} {l : List RowWin} (stack : e.source / 1024 = 3) (other : ∀ x ∈ l, ofRow e x = false) :
    winOf e (s.setDarn { s.darn with hbmRows := l ++ [⟨e.source, e.address, w⟩] }) = w := by
  have found : (l ++ [(⟨e.source, e.address, w⟩ : RowWin)]).find? (ofRow e) = some ⟨e.source, e.address, w⟩ := by
    rw [List.find?_append, List.find?_eq_none.mpr (by simpa using other)]
    simp [ofRow]
  unfold winOf State.setDarn
  simp only [if_pos stack, found]

/-- The window that an event counts in is the one kept for it. -/
theorem winOf_setWin (e : ErrIn) (w : Win) : winOf e (setWin e w s) = w := by
  unfold setWin
  dsimp only
  split
  next stack =>
    refine winOf_lastRow stack (fun x hx => ?_)
    have mem : x ∈ s.darn.hbmRows.filter (fun x => !ofRow e x) := by
      split at hx
      · exact (delFirst_sublist ..).subset hx
      · exact hx
    simpa using (List.mem_filter.mp mem).2
  next single =>
    unfold winOf State.setDarn State.win
    simp only [if_neg single, smFind_smSet_self, Option.getD_some]

theorem win_setWin_ne {e : ErrIn} {w : Win} {k : Nat} (h : k ≠ e.source) : (setWin e w s).win k = s.win k := by
  unfold setWin State.setDarn State.win
  dsimp only
  split
  · rfl
  · simp only [smFind_smSet_ne _ _ h]

theorem winCount_cons (n : Nat) (l : List Nat) (t w k : Nat) : winCount ⟨t, w, n :: l, k⟩ = n + winCount ⟨t, w, l, k⟩ := by
  have shift : ∀ (l : List Nat) (a : Nat), l.foldl (· + ·) a = a + l.foldl (· + ·) 0 := by
    intro l
    induction l with
    | nil => simp
    | cons b l ih =>
      intro a
      rw [List.foldl_cons, List.foldl_cons, ih, ih (0 + b)]
      omega
  simp only [winCount, List.foldl_cons]
  rw [shift]
  omega

/-- A window filled up to its threshold. -/
def filled (w : Win) : Win := { w with subs := (w.subs.headD 0 + (w.t - winCount w)) :: w.subs.drop 1 }

theorem winCount_filled (w : Win) : winCount (filled w) = max (winCount w) w.t := by
  obtain ⟨t, p, subs, k⟩ := w
  unfold filled
  dsimp only
  rw [winCount_cons]
  cases subs with
  | nil =>
    have none_ : winCount ⟨t, p, [], k⟩ = 0 := rfl
    simp only [List.headD_nil, List.drop_nil, none_]
    omega
  | cons n l =>
    rw [winCount_cons]
    simp only [List.headD_cons, List.drop_succ_cons, List.drop_zero]
    omega

theorem winNow_short (w : Win) : (winNow s w).subs.length ≤ 8 := by
  simp only [winNow, List.length_take]
  exact Nat.min_le_left ..

/-- A window brought up to now stays as it is at the same time. -/
theorem winNow_now {w v : Win} (period : v.w = w.w) (no : v.subNo = (winNow s w).subNo) (short : v.subs.length ≤ 8) : winNow s v = v := by
  have sub : subNow s v = v.subNo := by
    rw [no]
    simp only [winNow, subNow, period]
  unfold winNow
  rw [sub]
  simp [List.take_of_length_le short]

theorem winNow_filled (w : Win) : winNow s (filled (winNow s w)) = filled (winNow s w) := by
  refine winNow_now (w := w) rfl rfl ?_
  have short := winNow_short (s := s) w
  simp only [filled, List.length_cons, List.length_drop]
  omega

theorem setWin_eq (e : ErrIn) (w : Win) : ∃ a b, setWin e w s = { s with darn := { s.darn with wins := a, hbmRows := b } } := by
  unfold setWin State.setDarn
  dsimp only
  split <;> exact ⟨_, _, rfl⟩

/-- The window of an event that fills its window. -/
theorem fillWindow_fills (e : ErrIn) : (fillWindow e s).darn = (setWin e (filled (winNow s (winOf e s))) s).darn ∧
    (fillWindow e s).now = s.now := by
  obtain ⟨a, b, same⟩ := setWin_eq (s := s) e (filled (winNow s (winOf e s)))
  have kept : (fillWindow e s).darn = (setWin e (filled (winNow s (winOf e s))) s).darn ∧
      (fillWindow e s).clk = (setWin e (filled (winNow s (winOf e s))) s).clk := by
    unfold fillWindow
    dsimp only
    split <;> exact ⟨rfl, rfl⟩
  refine ⟨kept.1, ?_⟩
  rw [State.now, kept.2, same]
  rfl

/-! ### Records and procedures -/

theorem addRec_room {p : Nat} {r : ErrRec} (room : (smGet {} s.darn.logs p).recs.length < if p = 0 then 4096 else 256) :
    addRec p r s = s.setDarn { s.darn with logs := smSet s.darn.logs p { smGet {} s.darn.logs p with
      recs := (smGet {} s.darn.logs p).recs ++ [{ r with index := (smGet {} s.darn.logs p).next }],
      next := ((smGet {} s.darn.logs p).next + 1) % 2 ^ 32 } } := by
  unfold addRec
  dsimp only
  rw [if_pos room]

/-- The record of an event that affects no tenant goes to partition 0's log alone. -/
theorem record_module {e : ErrIn} {sev action flags unit count parent : Nat} (module_ : e.part = 0xff)
    (room : (smGet {} s.darn.logs 0).recs.length < 4096) : ∃ r lg, record e sev action flags unit count parent s =
      { s with darn := { s.darn with logs := lg } } ∧ (smGet {} lg 0).recs = (smGet {} s.darn.logs 0).recs ++ [r] ∧
      (∀ p, p ≠ 0 → smGet {} lg p = smGet {} s.darn.logs p) ∧
      r.severity = sev ∧ r.action = action ∧ r.flags = flags ∧ r.unit = unit ∧ r.source = e.source := by
  have tenant : (decide (0 < e.part) && decide (e.part < 64)) = false := by simp [module_]
  unfold record
  dsimp only
  rw [tenant, if_neg Bool.false_ne_true, if_neg Bool.false_ne_true, addRec_room (by simpa using room)]
  exact ⟨_, _, rfl, by rw [smGet_smSet_self], fun p ne => smGet_smSet_ne _ _ _ ne, rfl, rfl, rfl, rfl, rfl⟩

theorem procStart_darn (p : Proc) (s : State) : (procStart p s).darn.logs = s.darn.logs ∧
    (procStart p s).darn.proc = some { p with pk := s.clk.pk } := by
  have kept : ∀ t : State, t.darn.logs = s.darn.logs → t.darn.proc = some { p with pk := s.clk.pk } → ∀ u, DarnKept t u →
      u.darn.logs = s.darn.logs ∧ u.darn.proc = some { p with pk := s.clk.pk } := by
    intro t logs proc u ⟨l, same⟩
    rw [same]
    exact ⟨logs, proc⟩
  unfold procStart
  dsimp only
  split
  · exact ⟨rfl, rfl⟩
  split
  · exact ⟨rfl, rfl⟩
  split
  · exact ⟨rfl, rfl⟩
  · refine kept _ ?_ ?_ _ (fenceTile_darnKept ..)
    · rfl
    · rfl
  · refine kept _ ?_ ?_ _ (fenceCp_darnKept ..)
    · rfl
    · rfl
  · exact ⟨rfl, rfl⟩

/-- A procedure that neither fences nor resets the root-of-trust core changes nothing but DARN as it starts. -/
theorem procStart_repair {p : Proc} (repair : p.action ≠ 5 ∧ p.action ≠ 6) :
    procStart p s = { s with darn := { s.darn with proc := some { p with pk := s.clk.pk } } } := by
  unfold procStart
  dsimp only
  rw [if_neg repair.2, if_pos repair.1]
  rfl

theorem record_logs (e : ErrIn) (sev action flags unit count parent : Nat) (s : State) :
    ∃ lg, record e sev action flags unit count parent s = { s with darn := { s.darn with logs := lg } } := by
  unfold record
  dsimp only
  split
  · exact ⟨_, rfl⟩
  · exact ⟨_, rfl⟩

/-- An action of a procedure, on a unit whose fence would leave others of its kind, while DARN is idle: it is recorded and starts. -/
theorem act_starts {e : ErrIn} {unit sev action flags count : Nat} {ctxs : List CmdCtx} (proc : 2 ≤ action ∧ action ≤ 6)
    (some_ : leavesNone s unit = false) (free : s.isFenced unit = false) (idle : s.darn.proc = none) :
    ∃ p, act e unit sev action flags count ctxs s = procStart p (record e sev action flags unit count 0xffffffff s) ∧
      p.unit = unit ∧ p.action = action ∧ p.ctxs = ctxs := by
  have notStop : action ≠ 7 := by omega
  have asks : inR action 2 6 = true := by
    simp only [inR, Bool.and_eq_true, decide_eq_true_eq]
    exact proc
  obtain ⟨lg, written⟩ := record_logs e sev action flags unit count 0xffffffff s
  refine ⟨{ unit := unit, severity := sev, action := action, source := e.source, recIdx := nextRec s, ctxs := ctxs,
            inj := bitsOf flags 4 4 * 16 }, ?_, rfl, rfl, rfl⟩
  unfold act
  dsimp only
  simp only [notStop, some_, free, decide_false, Bool.and_false, Bool.false_or, Bool.false_and, Bool.false_eq_true, if_false, asks, if_true]
  unfold procAsk
  rw [show (record e sev action flags unit count 0xffffffff s).darn.proc = none from by rw [written]; exact idle]

/-- Such an action, of an event that affects no tenant, while partition 0's log has room. -/
theorem act_asks {e : ErrIn} {unit sev action flags count : Nat} {ctxs : List CmdCtx} (module_ : e.part = 0xff)
    (proc : 2 ≤ action ∧ action ≤ 6) (some_ : leavesNone s unit = false) (free : s.isFenced unit = false) (idle : s.darn.proc = none)
    (room : (smGet {} s.darn.logs 0).recs.length < 4096) : ∃ r lg p, act e unit sev action flags count ctxs s =
      procStart p { s with darn := { s.darn with logs := lg } } ∧ p.unit = unit ∧ p.action = action ∧ p.ctxs = ctxs ∧
      (smGet {} lg 0).recs = (smGet {} s.darn.logs 0).recs ++ [r] ∧
      r.severity = sev ∧ r.action = action ∧ r.flags = flags ∧ r.unit = unit := by
  obtain ⟨r, lg, written, log, _, ofSev, ofAction, ofFlags, ofUnit, _⟩ := record_module (s := s) (sev := sev) (action := action)
    (flags := flags) (unit := unit) (count := count) (parent := 0xffffffff) module_ room
  obtain ⟨p, starts, facts⟩ := act_starts (e := e) (sev := sev) (flags := flags) (count := count) (ctxs := ctxs) proc some_ free idle
  rw [written] at starts
  exact ⟨r, lg, p, starts, facts.1, facts.2.1, facts.2.2, log, ofSev, ofAction, ofFlags, ofUnit⟩

/-! ### The commands of DARN (O51) -/

theorem windowSet_runs {c : CmdCtx} {src t w : Nat} (ready : Ready 0x810 s) (root : c.part = 0) (some_ : windowSources src ≠ [])
    (low : 1000 ≤ w) (high : w ≤ 3600000000) : exec (.windowSet c src t w) s = .next (finish c .ok [] 0 0
      { beginCmd c 0x810 s with darn := windowed (windowSources src) ⟨t, w, [], 0⟩ s.darn }) := by
  have ok : firstFail [p0Only c, (windowSources src = [] || !inR w 1000 3600000000, .badParam)] = none := by
    have range : inR w 1000 3600000000 = true := by simp [inR, low, high]
    rw [firstFail_none]
    simp [p0Only, root, some_, range]
  rw [exec_windowSet, execWindowSet, runCmd_ready ready ok]
  simp only [State.setDarn, beginCmd_darn, windowed]

theorem unitFence_runs {c : CmdCtx} {n : Nat} (ready : Ready 0x820 s) (root : c.part = 0) (defined : unitOk n = true)
    (inService : outOfService s n = false) (some_ : leavesNone s n = false) (spare : isLane n = true → spareUsed s n = false) :
    exec (.unitFence c n) s = .next (act (fenceEvent n) n 2 (if isLane n then 4 else 5) 32 0 [c] (beginCmd c 0x820 s)) := by
  have ok : firstFail [p0Only c, (!unitOk n || outOfService (beginCmd c 0x820 s) n, .badParam),
      (leavesNone (beginCmd c 0x820 s) n || (isLane n && spareUsed (beginCmd c 0x820 s) n), .capacity)] = none := by
    rw [outOfService_congr (beginCmd_darn ..), leavesNone_congr (beginCmd_darn ..), spareUsed_congr (beginCmd_darn ..), firstFail_none]
    simpa [p0Only, root, defined, inService, some_] using spare
  rw [exec_unitFence, execUnitFence, runCmd_ready ready ok]

theorem unitFence_refused {c : CmdCtx} {n : Nat} (ready : Ready 0x820 s) (root : c.part = 0) (defined : unitOk n = true)
    (inService : outOfService s n = false) (none_ : leavesNone s n = true) :
    exec (.unitFence c n) s = .next (finish c .capacity [] 0 0 (beginCmd c 0x820 s)) := by
  have fails : firstFail [p0Only c, (!unitOk n || outOfService (beginCmd c 0x820 s) n, .badParam),
      (leavesNone (beginCmd c 0x820 s) n || (isLane n && spareUsed (beginCmd c 0x820 s) n), .capacity)] = some .capacity := by
    rw [outOfService_congr (beginCmd_darn ..), leavesNone_congr (beginCmd_darn ..)]
    simp [firstFail, p0Only, root, defined, inService, none_]
  rw [exec_unitFence, execUnitFence, runCmd_refused (hasHost_of_opcodeRuns ready.1) fails, refusal_ready (ready_begin.mpr ready)]

theorem unfence_serves (n : Nat) : outOfService (unfence n s) n = false ∧ (∀ k, k ≠ n → (unfence n s).isFenced k = s.isFenced k) ∧
    unfence n s = { s with darn := (unfence n s).darn, fields := { s.fields with act := (unfence n s).fields.act } } := by
  have fenced : (unfence n s).darn.fenced = s.darn.fenced.filter (fun x => decide (x ≠ n)) ∧
      (isLane n = true → (unfence n s).darn.spares = s.darn.spares.filter (fun i => decide (i ≠ n % 1024))) := by
    unfold unfence
    dsimp only
    split <;> exact ⟨rfl, fun lane => if_pos lane⟩
  refine ⟨?_, fun k ne => ?_, ?_⟩
  · unfold outOfService State.isFenced
    rw [fenced.1]
    cases lane : isLane n
    · simp
    · rw [fenced.2 lane]
      simp
  · unfold State.isFenced
    rw [fenced.1, Bool.eq_iff_iff]
    simp [ne]
  · unfold unfence
    dsimp only
    split <;> rfl

theorem errorInject_runs {c : CmdCtx} {src kind : Nat} (ready : Ready 0x830 s) (debug : s.sys.fuses.debug = true) (root : c.part = 0)
    (source : sourceOk src = true) (low : kind ≤ 2) : exec (.errorInject c src kind) s = .next (finish c .ok [] 0 0
      (darnEvent (injected src kind) 16 (if kind = 2 then fillWindow (injected src kind) (beginCmd c 0x830 s) else beginCmd c 0x830 s))) := by
  have ok : firstFail [(!(beginCmd c 0x830 s).sys.fuses.debug, .badOpcode), p0Only c, (!sourceOk src || decide (2 < kind), .badParam)] =
      none := by
    rw [beginCmd_sys, firstFail_none]
    simp [debug, p0Only, root, source, low]
  rw [exec_errorInject, execErrorInject, runCmd_ready ready ok]

/-- Settles O51. -/
theorem darnCommands : Obligations.DarnCommands := by
  unfold Obligations.DarnCommands
  refine ⟨?read, ?ack, ?window, ?fence, ?unfence, ?inject⟩
  case read =>
    intro c first count s ready l want got
    rw [exec_errorRead, runCmd_ready ready rfl, errorReadWork, beginCmd_darn] <;> rfl
  case ack =>
    intro c n s ready
    refine ⟨ackLog c.part n (beginCmd c 0x801 s), by rw [exec_errorAck, runCmd_ready ready rfl], fun r => ?_, fun p ne => ?_, ?_⟩
    · simp only [ackLog, State.setDarn, beginCmd_darn, smGet_smSet_self, List.mem_filter, Bool.not_eq_true']
    · simp only [ackLog, State.setDarn, beginCmd_darn, smGet_smSet_ne _ _ _ ne]
    · simp only [ackLog, State.setDarn, beginCmd_darn]
  case window =>
    intro c src t w s ready root some_ low high
    have same (e : ErrIn) : winOf e (beginCmd c 0x810 s) = winOf e s := winOf_congr (beginCmd_darn ..) e
    have win (k : Nat) := windowed_win (s := beginCmd c 0x810 s) (l := windowSources src) (w := ⟨t, w, [], 0⟩) k
    have row (e : ErrIn) := windowed_winOf (s := beginCmd c 0x810 s) (l := windowSources src) (t := t) (w := w) e
    rw [beginCmd_darn] at win row
    refine ⟨_, windowSet_runs ready root some_ low high, fun k mem => ?_, fun k other => ?_, fun e mem => ?_, fun e other => ?_, rfl⟩
    · rw [win, if_pos mem]
    · rw [win, if_neg other]
      exact win_congr (beginCmd_darn ..) k
    · rw [row, if_pos mem]
    · rw [row, if_neg other, same]
  case fence =>
    intro c n s ready root defined inService
    refine ⟨unitFence_refused ready root defined inService, fun some_ spare idle room => ?_⟩
    have darn : (beginCmd c 0x820 s).darn = s.darn := beginCmd_darn ..
    have free : s.isFenced n = false := by
      simp only [outOfService, Bool.or_eq_false_iff] at inService
      exact inService.1
    obtain ⟨r, lg, p, acts, ofUnit, action, ctxs, log, _, _, flags, unit⟩ := act_asks (s := beginCmd c 0x820 s) (e := fenceEvent n) (unit := n) (sev := 2)
      (action := if isLane n then 4 else 5) (flags := 32) (count := 0) (ctxs := [c]) rfl (by split <;> omega)
      ((leavesNone_congr darn n).trans some_) ((congrArg (fun d : Darn => d.fenced.contains n) darn).trans free) (by rw [darn]; exact idle)
      (by rw [darn]; exact room)
    obtain ⟨logs, proc⟩ := procStart_darn p { beginCmd c 0x820 s with darn := { (beginCmd c 0x820 s).darn with logs := lg } }
    refine ⟨_, _, r, (unitFence_runs ready root defined inService some_ spare).trans (congrArg _ acts), proc, ofUnit, ctxs,
      action, ?_, flags, unit,
      fun lane => ?_⟩
    · rw [logs, ← darn]
      exact log
    · rw [procStart_repair (by rw [action, if_pos lane]; decide)]
  case unfence =>
    intro c n s ready root defined out
    have ok : firstFail [p0Only c, (!unitOk n || !outOfService (beginCmd c 0x821 s) n, .badParam)] = none := by
      rw [outOfService_congr (beginCmd_darn ..), firstFail_none]
      simp [p0Only, root, defined, out]
    obtain ⟨serves, others, same⟩ := unfence_serves (s := beginCmd c 0x821 s) n
    rw [beginCmd_fields] at same
    refine ⟨unfence n (beginCmd c 0x821 s), by rw [exec_unitUnfence, execUnitUnfence, runCmd_ready ready ok], serves, fun k ne => ?_, same⟩
    exact (others k ne).trans (congrArg (fun d : Darn => d.fenced.contains k) (beginCmd_darn ..))
  case inject =>
    intro c src kind s ready
    refine ⟨fun plain => ?_, fun debug root source => ⟨fun low => ?_, ?_⟩⟩
    · have fails : firstFail [(!(beginCmd c 0x830 s).sys.fuses.debug, .badOpcode), p0Only c,
          (!sourceOk src || decide (2 < kind), .badParam)] = some .badOpcode := by
        rw [beginCmd_sys]
        simp [firstFail, plain]
      rw [exec_errorInject, execErrorInject, runCmd_refused (hasHost_of_opcodeRuns ready.1) fails, refusal_ready (ready_begin.mpr ready)]
    · rw [errorInject_runs ready debug root source (by omega), if_neg (by omega)]
    · rintro rfl
      obtain ⟨darn, now⟩ := fillWindow_fills (s := beginCmd c 0x830 s) (injected src 2)
      have window : winOf (injected src 2) (beginCmd c 0x830 s) = winOf (injected src 2) s := winOf_congr (beginCmd_darn ..) _
      have now' : (beginCmd c 0x830 s).now = s.now := beginCmd_now ..
      refine ⟨_, errorInject_runs ready debug root source (Nat.le_refl 2), ?_, fun k ne => ?_⟩
      · rw [if_pos rfl, winOf_congr darn, winOf_setWin, winNow_congr now, winNow_filled, winCount_filled, window, winNow_congr now']
      · rw [if_pos rfl, win_congr darn, win_setWin_ne ne]
        exact win_congr (beginCmd_darn ..) k

end Sys2Proof.Proofs
end

