-- ==== Sys2Proof/Proofs/TileRules.lean ====
section
/-! PROOF. The commands of the tiles: what issuing them and ending one leaves of the others. -/

namespace Sys2Proof.Proofs
open Sys2Proof.Machine

variable {s : State}

/-! ### The issue of commands -/

/-- A tile command without the marks of its issue and its waits. -/
def cmdCore (y : TCmd) : TCmd := { y with issued := true, behind := none, wait := none, waited := 0 }

/-- The states differ only in the marks of issue and waits of tile commands. -/
def IssueFrame (s t : State) : Prop :=
  ∃ l, t = { s with tiles := { s.tiles with cmds := l } } ∧ l.map cmdCore = s.tiles.cmds.map cmdCore

theorem IssueFrame.refl (s : State) : IssueFrame s s := ⟨s.tiles.cmds, rfl, rfl⟩

theorem IssueFrame.trans {s t u : State} (a : IssueFrame s t) (b : IssueFrame t u) : IssueFrame s u := by
  obtain ⟨l, rfl, same⟩ := a
  obtain ⟨k, rfl, same'⟩ := b
  exact ⟨k, rfl, same'.trans same⟩

theorem modCmd_issue {f : TCmd → TCmd} (same : ∀ y, cmdCore (f y) = cmdCore y) (id : Nat) : IssueFrame s (s.modCmd id f) :=
  ⟨_, rfl, map_updFirst same _⟩

theorem issueOne_issue {p : Nat} {t : State} (h : issueOne p s = some t) : IssueFrame s t := by
  obtain ⟨id, ⟨b, rfl⟩ | rfl⟩ := issueOne_marks h
  · refine modCmd_issue (fun y => ?_) id
    rfl
  · refine modCmd_issue (fun y => ?_) id
    rfl

theorem issueMore_issue (p k : Nat) (s : State) : IssueFrame s (issueMore p k s) := by
  induction k generalizing s with
  | zero => exact .refl s
  | succ k ih =>
    unfold issueMore
    split
    next t issued => exact (issueOne_issue issued).trans (ih t)
    · exact .refl s

theorem noteWait_core (y : TCmd) : cmdCore (noteWait s y) = cmdCore y := by
  unfold noteWait
  split
  · split <;> rfl
  · rfl

theorem settleCmds_issue (p : Nat) (s : State) : IssueFrame s (settleCmds p s) := by
  refine (issueMore_issue p (2 * s.tiles.cmds.length) s).trans ⟨_, rfl, ?_⟩
  rw [List.map_map]
  refine List.map_congr_left (fun y _ => ?_)
  rw [Function.comp_apply]
  split
  · exact noteWait_core y
  · rfl

theorem any_core {f : TCmd → Bool} (same : ∀ y, f (cmdCore y) = f y) {l k : List TCmd} (h : l.map cmdCore = k.map cmdCore) :
    l.any f = k.any f := by
  have through (m : List TCmd) : m.any f = (m.map cmdCore).any f := by
    rw [List.any_map]
    congr 1
    funext y
    exact (same y).symm
  rw [through, h, ← through]

theorem find?_core {f : TCmd → Bool} (same : ∀ y, f (cmdCore y) = f y) {l k : List TCmd} (h : l.map cmdCore = k.map cmdCore) :
    (l.find? f).map cmdCore = (k.find? f).map cmdCore := by
  have through (m : List TCmd) : (m.find? f).map cmdCore = (m.map cmdCore).find? f := by
    rw [List.find?_map]
    congr 2
    funext y
    exact (same y).symm
  rw [through, h, ← through]

theorem tileHeld_issue {t : State} (frame : IssueFrame s t) (n : Nat) : tileHeld t n = tileHeld s n := by
  obtain ⟨l, rfl, same⟩ := frame
  exact any_core (fun _ => rfl) same

theorem ownerDue_held {n : Nat} (held : tileHeld s n = true) : ownerDue n s = s := if_pos held

theorem ownerDue_free {n : Nat} (free : tileHeld s n = false) : ownerDue n s = s.takeShadow .tileOwner n :=
  if_neg (by simp [free])

/-! ### The end of a command -/

theorem updFirst_append {α : Type} {p : α → Bool} {f : α → α} {a b : List α} {x : α} (none_ : ∀ y ∈ a, (!p y) = true) (hit : p x = true) :
    updFirst p f (a ++ x :: b) = a ++ f x :: b := by
  induction a with
  | nil => exact if_pos hit
  | cons y a ih =>
    have pass : ¬ p y = true := by simpa using none_ y (.head _)
    rw [List.cons_append, updFirst, if_neg pass, ih fun z hz => none_ z (.tail _ hz)]
    rfl

/-- A command runs on a tile, or waits for it by number. -/
def wantsTile (n : Nat) (y : TCmd) : Bool := decide ((y.state = 1 ∧ y.tile = n) ∨ (y.state = 0 ∧ uAt y.bytes 2 1 = n))

/-- The commands after one of them has ended. -/
def doneCmds (x : TCmd) (st : Status) (word : DWord) (stats : List Nat) (l : List TCmd) : List TCmd :=
  updFirst (fun y => decide (y.id = x.id)) (fun y => { y with state := 2, status := st.code, word := word, stats := stats }) l

/-- No later command of a list starts. -/
def stopList (j : Nat) (l : List TCmd) : List TCmd := l.map (fun y => if y.job = j ∧ y.state = 0 then { y with state := 2 } else y)

/-- The commands after one of them has ended: after another status than OK no later command of its list starts. -/
def endedCmds (x : TCmd) (st : Status) (word : DWord) (stats : List Nat) (l : List TCmd) : List TCmd :=
  if st = .ok then doneCmds x st word stats l else stopList x.job (doneCmds x st word stats l)

section
variable {x : TCmd} {st : Status} {word : DWord} {stats : List Nat} {l : List TCmd}

theorem stopList_find {j : Nat} (found : l.find? (fun y => decide (y.id = x.id)) = some x) (over_ : x.state ≠ 0) :
    (stopList j l).find? (fun y => decide (y.id = x.id)) = some x := by
  have mapped : (fun y : TCmd => decide ((if y.job = j ∧ y.state = 0 then { y with state := 2 } else y).id = x.id)) =
      fun y => decide (y.id = x.id) := by
    funext y
    split <;> rfl
  rw [stopList, List.find?_map, Function.comp_def, mapped, found, Option.map_some, if_neg fun h => over_ h.2]

/-- The command itself has ended with the status. -/
theorem endedCmds_self (found : l.find? (fun y => decide (y.id = x.id)) = some x) :
    (endedCmds x st word stats l).find? (fun y => decide (y.id = x.id)) =
      some { x with state := 2, status := st.code, word := word, stats := stats } := by
  have done : (doneCmds x st word stats l).find? (fun y => decide (y.id = x.id)) =
      some { x with state := 2, status := st.code, word := word, stats := stats } := by
    obtain ⟨hit, a, b, rfl, before⟩ := List.find?_eq_some_iff_append.mp found
    unfold doneCmds
    rw [updFirst_append before hit, List.find?_append, List.find?_eq_none.mpr (fun y hy => by simpa using before y hy)]
    simp
  unfold endedCmds
  split
  · exact done
  · exact stopList_find (x := { x with state := 2, status := st.code, word := word, stats := stats }) done (Nat.succ_ne_zero 1)

theorem wantsTile_ended {n : Nat} {y : TCmd} (over_ : y.state = 2) : wantsTile n y = false := by
  simp [wantsTile, over_]

theorem stopList_free {n j : Nat} (free : ∀ y ∈ l, wantsTile n y = false) : ∀ y ∈ stopList j l, wantsTile n y = false := by
  intro y hy
  obtain ⟨z, hz, rfl⟩ := List.mem_map.mp hy
  split
  · exact wantsTile_ended rfl
  · exact free z hz

/-- Where no other command runs on a tile or waits for it, none does after the end. -/
theorem endedCmds_free {n : Nat} (found : l.find? (fun y => decide (y.id = x.id)) = some x) (alone : l.filter (wantsTile n) = [x]) :
    ∀ y ∈ endedCmds x st word stats l, wantsTile n y = false := by
  have done : ∀ y ∈ doneCmds x st word stats l, wantsTile n y = false := by
    obtain ⟨hit, a, b, rfl, before⟩ := List.find?_eq_some_iff_append.mp found
    have own : x ∈ (a ++ x :: b).filter (wantsTile n) := by
      rw [alone]
      exact List.mem_singleton_self x
    have holds : wantsTile n x = true := (List.mem_filter.mp own).2
    rw [List.filter_append, List.filter_cons_of_pos holds] at alone
    have lengths := congrArg List.length alone
    rw [List.length_append, List.length_cons, List.length_singleton] at lengths
    have none_ {k : List TCmd} (empty : (k.filter (wantsTile n)).length = 0) {y : TCmd} (hy : y ∈ k) : wantsTile n y = false :=
      Bool.eq_false_iff.mpr (List.filter_eq_nil_iff.mp (List.length_eq_zero_iff.mp empty) y hy)
    intro y hy
    rw [doneCmds, updFirst_append before hit] at hy
    obtain hy | hy := List.mem_append.mp hy
    · exact none_ (by omega) hy
    obtain rfl | hy := List.mem_cons.mp hy
    · exact wantsTile_ended rfl
    · exact none_ (by omega) hy
  unfold endedCmds
  split
  · exact done
  · exact stopList_free done
end

theorem tileHeld_none {n : Nat} (free : ∀ y ∈ s.tiles.cmds, wantsTile n y = false) : tileHeld s n = false := by
  unfold tileHeld
  rw [List.any_eq_false]
  intro y hy held
  have := free y hy
  simp only [wantsTile, decide_eq_false_iff_not] at this
  simp only [Bool.or_eq_true, Bool.and_eq_true, decide_eq_true_eq] at held
  rcases held with on | ⟨⟨waits, _⟩, _⟩
  · exact this (.inl on)
  · exact this (.inr waits)

/-- Fields in force and credits of the pool change; nothing else does. -/
def PoolFrame (s t : State) : Prop :=
  ∃ a c, t = { s with fields := { s.fields with act := a }, tiles := { s.tiles with credit := c } }

theorem PoolFrame.refl (s : State) : PoolFrame s s := ⟨s.fields.act, s.tiles.credit, rfl⟩

theorem PoolFrame.trans {s t u : State} (a : PoolFrame s t) (b : PoolFrame t u) : PoolFrame s u := by
  obtain ⟨_, _, rfl⟩ := a
  obtain ⟨_, _, rfl⟩ := b
  exact ⟨_, _, rfl⟩

theorem takeShadow_pool (n : FName) (i : Nat) : PoolFrame s (s.takeShadow n i) := ⟨_, s.tiles.credit, rfl⟩

theorem poolIdle_pool (s : State) : PoolFrame s (poolIdle s) := by
  unfold poolIdle
  split
  · obtain ⟨a, taken⟩ := takeShadows_eq (s := s) .tileShare
    unfold poolRound
    dsimp only
    rw [taken]
    exact ⟨_, _, rfl⟩
  · exact .refl s

theorem ownerDue_pool (n : Nat) (s : State) : PoolFrame s (ownerDue n s) := by
  unfold ownerDue
  split
  · exact .refl s
  · exact takeShadow_pool ..

/-- A job of a slot, not of a command, is not forgotten by the end of a command. -/
theorem endJob_ofSlot {j : TJob} (ctx : j.ctx = none) (slot : j.slot.isSome = true) : endJob j s = s := by
  have none_ : j.slot.isNone = false := by
    rw [← Option.not_isSome, slot]
    rfl
  unfold endJob
  rw [ctx, none_]
  rfl

/-- The end of a command of a slot's list: the others of its partition settle, its tile's owner takes effect, and an idle pool
ends its round. -/
theorem endCmd_ofSlot {x : TCmd} {st : Status} {word : DWord} {stats : List Nat}
    (ofSlot : ∀ j ∈ s.tiles.jobs, j.id = x.job → j.ctx = none ∧ j.slot.isSome = true) :
    ∃ u, IssueFrame (s.setCmds (endedCmds x st word stats s.tiles.cmds)) u ∧
      endCmd x st word stats s = poolIdle (ownerDue (if x.state = 1 then x.tile else uAt x.bytes 2 1) u) := by
  refine ⟨settleCmds x.part (s.setCmds (endedCmds x st word stats s.tiles.cmds)), settleCmds_issue .., ?_⟩
  have cmds : (let t := s.modCmd x.id (fun y => { y with state := 2, status := st.code, word := word, stats := stats })
      if st = .ok then t else t.setCmds (t.tiles.cmds.map (fun y => if y.job = x.job ∧ y.state = 0 then { y with state := 2 } else y))) =
      s.setCmds (endedCmds x st word stats s.tiles.cmds) := by
    unfold endedCmds
    dsimp only
    split <;> rfl
  unfold endCmd
  dsimp only at cmds ⊢
  rw [cmds]
  generalize (if x.state = 1 then x.tile else uAt x.bytes 2 1) = n
  have jobs : (ownerDue n (settleCmds x.part (s.setCmds (endedCmds x st word stats s.tiles.cmds)))).tiles.jobs = s.tiles.jobs := by
    obtain ⟨a, c, pool⟩ := ownerDue_pool n (settleCmds x.part (s.setCmds (endedCmds x st word stats s.tiles.cmds)))
    obtain ⟨l, issue, _⟩ := settleCmds_issue x.part (s.setCmds (endedCmds x st word stats s.tiles.cmds))
    rw [pool, issue]
    rfl
  split
  next j found =>
    obtain ⟨ctx, slot⟩ := ofSlot j (jobs ▸ List.mem_of_find?_eq_some found) (by simpa using List.find?_some found)
    rw [endJob_ofSlot ctx slot]
  · rfl

end Sys2Proof.Proofs
end

