-- ==== Sys2Proof/Proofs/Stops.lean ====
section
/-! PROOF. A stop halts the module (O49), and DARN handles errors (O50). -/

namespace Sys2Proof.Proofs
open Sys2Proof.Machine

variable {s : State}

/-! ### What a stop writes before it aborts the commands in flight -/

/-- The states differ only in what a stop draws, sends and counts before it halts. -/
def HaltFrame (s t : State) : Prop := ∃ f b o x, t = { s with free := f, fab := b, obs := o, egr := { s.egr with tx := x } }

theorem HaltFrame.refl (s : State) : HaltFrame s s := ⟨s.free, s.fab, s.obs, s.egr.tx, rfl⟩

theorem HaltFrame.trans {s t u : State} (a : HaltFrame s t) (b : HaltFrame t u) : HaltFrame s u := by
  obtain ⟨_, _, _, _, rfl⟩ := a
  obtain ⟨_, _, _, _, rfl⟩ := b
  exact ⟨_, _, _, _, rfl⟩

theorem foldl_draws {α β : Type} {F : β × State → α → β × State} (each : ∀ a x, ∃ f, (F a x).2 = { a.2 with free := f })
    (l : List α) (a : β × State) : ∃ f, (l.foldl F a).2 = { a.2 with free := f } := by
  induction l generalizing a with
  | nil => exact ⟨_, rfl⟩
  | cons x l ih =>
    obtain ⟨f, drawn⟩ := each a x
    obtain ⟨g, rest⟩ := ih (F a x)
    exact ⟨g, by rw [List.foldl_cons, rest, drawn]⟩

theorem skews_draw (s : State) : ∃ f, (drawSlowSkews (drawSkews s)).2 = { s with free := f } := by
  obtain ⟨f, fast⟩ : ∃ f, (drawSkews s).2 = { s with free := f } := by
    unfold drawSkews
    exact foldl_draws (fun a x => ⟨a.2.free + 1, rfl⟩) _ ([], s)
  obtain ⟨g, slow⟩ : ∃ g, (drawSlowSkews (drawSkews s)).2 = { (drawSkews s).2 with free := g } := by
    unfold drawSlowSkews
    exact foldl_draws (fun a x => ⟨a.2.free + 1, rfl⟩) _ (drawSkews s)
  exact ⟨g, by rw [slow, fast]⟩

theorem cutTx_frame (s : State) : HaltFrame s (cutTx s) ∧ (cutTx s).egr.tx = [] := by
  have cut : ∀ (l : List (Nat × Tx)) (s : State), HaltFrame s (l.foldl (fun s e =>
      let (n, s) := drawBelow s (e.2.frame.length + 1)
      (s.count (.port e.1 .txPkts)).count (.port e.1 .txBytes) n) s) := by
    intro l
    induction l with
    | nil => exact HaltFrame.refl
    | cons e l ih => exact fun s => HaltFrame.trans ⟨_, s.fab, _, s.egr.tx, rfl⟩ (ih _)
  exact ⟨(cut _ s).trans ⟨_, _, _, _, rfl⟩, rfl⟩

theorem sendStop_frame (l origin : Nat) (ft : DWord) (s : State) : HaltFrame s (sendStop l origin ft s) ∧
    (sendStop l origin ft s).egr.tx = s.egr.tx := by
  unfold sendStop sendBytes
  dsimp only
  exact ⟨⟨s.free, _, _, s.egr.tx, rfl⟩, rfl⟩

theorem sendStops_frame (origin : Nat) (ft : DWord) (l : List Nat) (s : State) :
    HaltFrame s (l.foldl (fun s l => sendStop l origin ft s) s) ∧ (l.foldl (fun s l => sendStop l origin ft s) s).egr.tx = s.egr.tx := by
  induction l generalizing s with
  | nil => exact ⟨.refl s, rfl⟩
  | cons k l ih =>
    obtain ⟨sent, tx⟩ := sendStop_frame k origin ft s
    obtain ⟨rest, tx'⟩ := ih (sendStop k origin ft s)
    rw [List.foldl_cons]
    exact ⟨sent.trans rest, tx'.trans tx⟩

/-! ### Every command in flight is aborted -/

theorem abortWhere_replies (p : InFlight → Bool) (x : Src) (s : State) : Kept s (abortWhere p x s) ∧ Answers s (abortWhere p x s) := by
  unfold abortWhere
  generalize (s.flight x).filter (fun e => e.reply.isNone && p e) = l
  induction l generalizing s with
  | nil => exact ⟨.refl s, .refl s⟩
  | cons e l ih =>
    obtain ⟨kept, answers⟩ := ih (finish e.ctx .aborted [] 0 0 s)
    exact ⟨(finish_kept ..).trans kept, (finish_answers ..).trans answers⟩

theorem foldl_replies {F : State → Nat → State} (each : ∀ s n, Kept s (F s n) ∧ Answers s (F s n)) (l : List Nat) (s : State) :
    Kept s (l.foldl F s) ∧ Answers s (l.foldl F s) := by
  induction l generalizing s with
  | nil => exact ⟨.refl s, .refl s⟩
  | cons n l ih =>
    obtain ⟨kept, answers⟩ := each s n
    obtain ⟨kept', answers'⟩ := ih (F s n)
    exact ⟨kept.trans kept', answers.trans answers'⟩

theorem abortAll_replies (keep : InFlight → Bool) (s : State) : Kept s (abortAll keep s) ∧ Answers s (abortAll keep s) := by
  unfold abortAll
  dsimp only
  obtain ⟨kept, answers⟩ := foldl_replies (fun s n => abortWhere_replies (fun e => !keep e) (.ring n) s) (List.range 64) s
  obtain ⟨kept', answers'⟩ := foldl_replies (fun s n => abortWhere_replies (fun e => !keep e) (.inband n 0 []) s) (List.range 64)
    ((List.range 64).foldl (fun s n => abortWhere (fun e => !keep e) (.ring n) s) s)
  exact ⟨kept.trans kept', answers.trans answers'⟩

/-- The record of a stop taken in a state. -/
structure StopOf (cause : Nat) (origin : Nat × DWord) (s : State) (st : Stop) : Prop where
  cause : st.cause = cause
  ft : st.ft = stopFt s
  pk : st.pk = s.clk.pk - s.clk.startPk + 12
  origin : (st.origin, st.originFt) = origin
  caps : st.caps = []

/-- What a stop leaves of the module. -/
structure Halted (cause prop : Nat) (origin : Nat × DWord) (s t : State) : Prop where
  sys : t.sys = { s.sys with mode := .fatal, stopCause := BitVec.ofNat 4 cause, stopOut := s.sys.stopOut || prop.testBit 1 }
  tx : t.egr.tx = []
  flow : t.flow = s.flow
  tabs : t.tabs = s.tabs
  slots : t.slots = s.slots
  tiles : t.tiles = s.tiles
  fields : t.fields = s.fields
  darn : DarnKept s t
  stop : ∃ st, t.obs.stop = some st ∧ StopOf cause origin s st

theorem Halted.aborted {cause prop : Nat} {origin : Nat × DWord} {s t : State} (h : Halted cause prop origin s t) (keep : InFlight → Bool) :
    Halted cause prop origin s (abortAll keep t) := by
  obtain ⟨kept, answers⟩ := abortAll_replies keep t
  exact {
    sys := kept.sys.trans h.sys
    tx := by rw [answers.egr]; exact h.tx
    flow := kept.flow.trans h.flow
    tabs := kept.tabs.trans h.tabs
    slots := kept.slots.trans h.slots
    tiles := kept.tiles.trans h.tiles
    fields := kept.fields.trans h.fields
    darn := h.darn.trans ⟨_, answers.darn⟩
    stop := by rw [answers.stop]; exact h.stop }

theorem takeStop_halts (cause prop : Nat) (origin : Option (Nat × DWord)) (came : Option Nat) (keep : InFlight → Bool) (s : State) :
    Halted cause prop (origin.getD (s.nodeOr, stopFt s)) s (takeStop cause prop origin came keep s) := by
  obtain ⟨f, drawn⟩ := skews_draw s
  unfold takeStop
  dsimp only
  rw [drawn]
  have node : State.nodeOr { s with free := f } = s.nodeOr := rfl
  rw [node]
  generalize orig : origin.getD (s.nodeOr, stopFt s) = o
  obtain ⟨cut, empty⟩ := cutTx_frame { s with free := f }
  generalize cutTx { s with free := f } = u at cut empty
  have sent : ∃ w, (if prop.testBit 0 then (u.linksUp.filter (fun l => decide (came ≠ some l))).foldl (fun s l => sendStop l o.1 o.2 s) u
      else u) = w ∧ HaltFrame { s with free := f } w ∧ w.egr.tx = [] := by
    refine ⟨_, rfl, ?_⟩
    split
    · obtain ⟨frame, tx⟩ := sendStops_frame o.1 o.2 (u.linksUp.filter (fun l => decide (came ≠ some l))) u
      exact ⟨cut.trans frame, tx.trans empty⟩
    · exact ⟨cut, empty⟩
  obtain ⟨w, is, ⟨f', b, ob, x, frame⟩, tx⟩ := sent
  rw [is]
  refine Halted.aborted ?_ keep
  exact {
    sys := by rw [frame]
    tx := tx
    flow := by rw [frame]
    tabs := by rw [frame]
    slots := by rw [frame]
    tiles := by rw [frame]
    fields := by rw [frame]
    darn := .of_eq (by rw [frame])
    stop := ⟨_, rfl, rfl, rfl, rfl, rfl, rfl⟩ }

/-! ### The commands and events of a stop (O49) -/

theorem exec_wringStop (c : CmdCtx) (k : Nat) (s : State) : exec (.wringStop c k) s = execWringStop c k s := rfl
theorem exec_stop (l : Nat) (m : Msg) (s : State) : exec (.stop l m) s = .next (stopMsg l m s) := rfl
theorem exec_stopInEdge (s : State) : exec .stopInEdge s = .next (stopIn s) := rfl
theorem exec_stopCaptureEnd (n : Nat) (s : State) : exec (.stopCaptureEnd n) s = .next (captureEnd n s) := rfl
theorem exec_wringScanout (c : CmdCtx) (x : Bref) (s : State) : exec (.wringScanout c x) s = execWringScanout c x s := rfl

/-- A stop keeps the parts of the state that a command's start writes out of its account. -/
theorem Halted.before {cause prop : Nat} {origin : Nat × DWord} {s b t : State} (h : Halted cause prop origin b t) (kept : Kept s b)
    (darn : b.darn = s.darn) : Halted cause prop origin s t := by
  obtain ⟨st, stop, record⟩ := h.stop
  obtain ⟨l, same⟩ := h.darn
  have time : stopFt b = stopFt s := by simp only [stopFt, adderInc, adderRate, kept.clk]
  exact {
    sys := by rw [h.sys, kept.sys]
    tx := h.tx
    flow := h.flow.trans kept.flow
    tabs := h.tabs.trans kept.tabs
    slots := h.slots.trans kept.slots
    tiles := h.tiles.trans kept.tiles
    fields := h.fields.trans kept.fields
    darn := ⟨l, by rw [same, darn]⟩
    stop := ⟨st, stop, record.cause, record.ft.trans time, by rw [record.pk, kept.clk], record.origin, record.caps⟩ }

theorem Halted.afterMsg {cause prop : Nat} {origin : Nat × DWord} {m : Msg} {t : State} (h : Halted cause prop origin (takeMsg m s) t) :
    Halted cause prop origin s t := by
  obtain ⟨st, stop, record⟩ := h.stop
  exact ⟨h.sys, h.tx, h.flow, h.tabs, h.slots, h.tiles, h.fields, h.darn, st, stop, record.cause, record.ft, record.pk, record.origin,
    record.caps⟩

theorem wringStop_check {c : CmdCtx} {k : Nat} (root : c.part = 0) (low : k ≤ 3) :
    firstFail [p0Only c, (decide (3 < k), .badParam)] = none := by
  rw [firstFail_none]
  simp [p0Only, root, low]

theorem captureEnd_waits {n : Nat} {st : Stop} (stop : s.obs.stop = some st) (more : (smGet {} st.caps n).bytes.length ≠ 4096)
    (early : s.now.toNat < ((smGet {} st.caps n).last.getD st.ft).toNat + 10000) : captureEnd n s = s := by
  unfold captureEnd
  rw [stop]
  exact if_neg (by omega)

theorem captureEnd_ends {n : Nat} {st : Stop} (stop : s.obs.stop = some st) (over_ : (smGet {} st.caps n).bytes.length = 4096 ∨
    ((smGet {} st.caps n).last.getD st.ft).toNat + 10000 ≤ s.now.toNat) : captureEnd n s = { s with obs := { s.obs with
      stop := some { st with caps := smSet st.caps n { smGet {} st.caps n with ended := true } } } } := by
  unfold captureEnd
  rw [stop]
  exact if_pos over_

/-- Settles O49. -/
theorem stopsHaltTheModule : Obligations.StopsHaltTheModule := by
  unfold Obligations.StopsHaltTheModule
  intro halted
  have of_halts {cause prop : Nat} {o : Nat × DWord} {s t : State} (h : Halted cause prop o s t) : halted s t cause o := by
    obtain ⟨st, stop, record⟩ := h.stop
    exact ⟨by rw [h.sys], by rw [h.sys], h.tx, h.flow, h.tabs, h.slots, h.tiles, h.fields, st, stop, record.cause, record.ft, record.pk,
      record.origin, record.caps⟩
  refine ⟨?command, ?message, ?pin, ?capture, ?scanout⟩
  case command =>
    intro c k s root low
    refine ⟨fun ready free => ?_, fun st ready taken other => ?_⟩
    · have stop : (beginCmd c 0x730 s).obs.stop = none := (beginCmd_answers c 0x730 s).stop.trans free
      have halts := (takeStop_halts causeCommand k none none (fun e => decide (e.ctx = c)) (beginCmd c 0x730 s)).before
        (beginCmd_kept c 0x730 s) (beginCmd_darn ..)
      obtain ⟨st, at_, record⟩ := halts.stop
      have origin : State.nodeOr (beginCmd c 0x730 s) = s.nodeOr := by simp only [State.nodeOr, (beginCmd_kept c 0x730 s).fab]
      have time : stopFt (beginCmd c 0x730 s) = stopFt s := by simp only [stopFt, adderInc, adderRate, beginCmd_clk]
      refine ⟨takeStop causeCommand k none none (fun e => decide (e.ctx = c)) (beginCmd c 0x730 s), ?_, ?_, by rw [halts.sys]⟩
      · rw [exec_wringStop, execWringStop, runCmd_ready ready (wringStop_check root low)]
        dsimp only
        rw [stop, Option.isSome_none, if_neg Bool.false_ne_true, at_, ← record.ft]
      · have := of_halts halts
        rwa [Option.getD_none, origin, time] at this
    · have stop : (beginCmd c 0x730 s).obs.stop = some st := (beginCmd_answers c 0x730 s).stop.trans taken
      have stays : joinStop causeCommand (beginCmd c 0x730 s) = beginCmd c 0x730 s := by
        unfold joinStop
        rw [stop]
        exact if_neg (by rw [beginCmd_clk]; exact other)
      rw [exec_wringStop, execWringStop, runCmd_ready ready (wringStop_check root low)]
      dsimp only
      rw [stop, Option.isSome_some, if_pos rfl, stays, stop]
  case message =>
    intro l m s running linked
    have on : (s.up && s.linkUp l) = true := by rw [up_of_running running, linked]; rfl
    refine ⟨fun off => ?_, fun allowed => ?_⟩
    · rw [exec_stop, stopMsg, if_pos on]
      exact congrArg _ (if_neg (Bool.eq_false_iff.mp off))
    · have halts := takeStop_halts causeFabric 1 (some (uAt m.body 0 2, dw (uAt m.body 8 8))) (some l) (fun _ => false) (takeMsg m s)
      refine ⟨_, ?_, of_halts halts.afterMsg⟩
      rw [exec_stop, stopMsg, if_pos on]
      exact congrArg _ (if_pos allowed)
  case pin =>
    intro s running
    refine ⟨fun off => ?_, fun allowed => ?_⟩
    · rw [exec_stopInEdge, stopIn, off]
      rfl
    · refine ⟨_, ?_, of_halts (takeStop_halts causePin (bitsOf (s.fval .stopCtrl) 2 1) none none (fun _ => false) s)⟩
      rw [exec_stopInEdge, stopIn, allowed, up_of_running running]
      rfl
  case capture =>
    intro n s
    refine ⟨fun none_ => ?_, fun st stop => ⟨fun more early => ?_, fun over_ => ?_⟩⟩
    · rw [exec_stopCaptureEnd, captureEnd, none_]
    · rw [exec_stopCaptureEnd, captureEnd_waits stop more early]
    · exact ⟨_, smSet st.caps n { smGet {} st.caps n with ended := true }, by rw [exec_stopCaptureEnd, captureEnd_ends stop over_],
        smGet_smSet_self .., fun k ne => smFind_smSet_ne _ _ ne, rfl⟩
  case scanout =>
    intro c x s ready root form atHost b
    have ok : firstFail [p0Only c, (!brefForm c x 1 || decide (x.loc ≠ 0), .badParam)] = none := by
      rw [firstFail_none]
      simp [p0Only, root, form, atHost]
    have runs : exec (.wringScanout c x) s = .next (scanoutWork c x b) := by
      rw [exec_wringScanout, execWringScanout, runCmd_ready ready ok]
    have stop : b.obs.stop = s.obs.stop := (beginCmd_answers c 0x731 s).stop
    refine ⟨fun none_ => by rw [runs, scanoutWork, stop, none_], ?_⟩
    intro st taken n
    refine ⟨fun short => ?_, fun room => ?_⟩
    · rw [runs, scanoutWork, stop, taken]
      exact congrArg _ (if_pos short)
    · rw [runs, scanoutWork, stop, taken]
      refine congrArg _ ((if_neg (by omega)).trans ?_)
      rw [State.hostWrite, show b.host = s.host from beginCmd_host ..]

/-! ### Events of error sources -/

theorem exec_errorEvent (e : ErrIn) (s : State) : exec (.errorEvent e) s = execErrorEvent e s := rfl
theorem exec_procedureEnd (s : State) : exec .procedureEnd s = .next (procEnd s) := rfl
theorem exec_darnWatchdogExpire (u : Nat) (s : State) : exec (.darnWatchdogExpire u) s = .next (watchdog u s) := rfl
theorem exec_pipelineFenceDrainLimit (k : Nat) (s : State) : exec (.pipelineFenceDrainLimit k) s = .next (drainLimit k s) := rfl
theorem exec_tileFenceForced (n : Nat) (s : State) : exec (.tileFenceForced n) s = .next (tileForced n s) := rfl

theorem errorEvent_runs {e : ErrIn} (running : s.sys.mode = .running) (source : sourceOk e.source = true) :
    exec (.errorEvent e) s = .next (darnEvent e 0 s) := by
  rw [exec_errorEvent, execErrorEvent, source, up_of_running running]
  rfl

/-- A window with one event more. -/
def bumped (w : Win) : Win := { w with subs := (w.subs.headD 0 + 1) :: w.subs.drop 1 }

theorem winCount_bumped (w : Win) : winCount (bumped w) = winCount w + 1 := by
  obtain ⟨t, p, subs, k⟩ := w
  unfold bumped
  dsimp only
  rw [winCount_cons]
  cases subs with
  | nil => rfl
  | cons n l =>
    rw [winCount_cons]
    simp only [List.headD_cons, List.drop_succ_cons, List.drop_zero]
    omega

theorem winNow_bumped (w : Win) : winNow s (bumped (winNow s w)) = bumped (winNow s w) := by
  refine winNow_now (w := w) rfl rfl ?_
  have short := winNow_short (s := s) w
  simp only [bumped, List.length_cons, List.length_drop]
  omega

theorem winBump_below {e : ErrIn} (below : winCount (winNow s (winOf e s)) < (winNow s (winOf e s)).t) :
    winBump e s = (winCount (winNow s (winOf e s)) + 1, false, setWin e (bumped (winNow s (winOf e s))) s) := by
  generalize hw : winNow s (winOf e s) = w at below ⊢
  have step : winBump e s = (winCount (bumped w), decide (w.t < winCount (bumped w)),
      setWin e (if decide (w.t < winCount (bumped w)) = true then { bumped w with subs := [] } else bumped w) s) := by
    rw [← hw]
    rfl
  have kept : decide (w.t < winCount w + 1) = false := decide_eq_false (by omega)
  rw [step, winCount_bumped, kept]
  rfl

theorem winBump_eq (e : ErrIn) : ∃ n last w, winBump e s = (n, last, setWin e w s) := ⟨_, _, _, rfl⟩

theorem find?_delFirst_other {α : Type} {p q : α → Bool} (apart : ∀ x, q x = true → p x = false) (l : List α) :
    (delFirst p l).find? q = l.find? q := by
  induction l with
  | nil => rfl
  | cons x l ih =>
    unfold delFirst
    split
    next first =>
      have other : q x = false := by
        cases h : q x
        · rfl
        · exact absurd (apart x h) (by simp [first])
      rw [List.find?_cons_of_neg (by simp [other])]
    · rw [List.find?_cons, List.find?_cons, ih]

/-- The window of an event of another source stays. -/
theorem winOf_setWin_ne {a e : ErrIn} {w : Win} (h : a.source ≠ e.source) : winOf a (setWin e w s) = winOf a s := by
  have own : (setWin e w s).win a.source = s.win a.source := win_setWin_ne h
  have row : (setWin e w s).darn.hbmRows.find? (ofRow a) = s.darn.hbmRows.find? (ofRow a) := by
    have mine : ∀ x : RowWin, ofRow a x = true → x.source = a.source := by
      intro x hx
      simp only [ofRow, Bool.and_eq_true, decide_eq_true_eq] at hx
      exact hx.1
    have kept : (s.darn.hbmRows.filter (fun x => !ofRow e x)).find? (ofRow a) = s.darn.hbmRows.find? (ofRow a) := by
      rw [List.find?_filter]
      congr 1
      funext x
      by_cases hx : ofRow a x = true
      · have other : ofRow e x = false := by
          simp only [ofRow, Bool.and_eq_false_iff, decide_eq_false_iff_not]
          exact .inl fun same => h ((mine x hx).symm.trans same)
        simp [hx, other]
      · simp [hx]
    unfold setWin
    dsimp only
    split
    · unfold State.setDarn
      dsimp only
      rw [List.find?_append, List.find?_cons_of_neg (by simp [ofRow, Ne.symm h]), List.find?_nil, Option.or_none]
      split
      · rw [find?_delFirst_other (fun x hx => decide_eq_false fun same => h ((mine x hx).symm.trans same)), kept]
      · exact kept
    · rfl
  unfold winOf
  rw [own, row]

/-- An event counted, with its data poisoned, before DARN handles it. -/
def noted (e : ErrIn) (s : State) : State :=
  let s := s.count (.errors e.source)
  let s := if e.source / 1024 = 2 ∧ e.kind = 0 then s.count (.fifo (e.source % 1024)) else s
  if e.severity = 1 then poisonAt e.at_ s else s

theorem noted_sound {e : ErrIn} (sev : e.severity ≠ 1) : ∃ o, noted e s = { s with obs := o } := by
  unfold noted
  dsimp only
  rw [if_neg sev]
  split
  · exact ⟨_, rfl⟩
  · exact ⟨_, rfl⟩

theorem darnEvent_outside {e : ErrIn} {inj : Nat} (outside : inWindow e = false) :
    darnEvent e inj s = handle e 0 inj (noted e s) := by
  have step : darnEvent e inj s = if !inWindow e then handle e 0 inj (noted e s) else _ := rfl
  rw [step, outside]
  rfl

theorem darnEvent_inside {e : ErrIn} {inj n : Nat} {last : Bool} {t : State} (inside : inWindow e = true)
    (bump : winBump e (noted e s) = (n, last, t)) : darnEvent e inj s =
      if !last then handle e n inj t
      else if e.severity < 2 then lasting e n inj (if e.severity = 1 then record e 1 1 inj e.unit n 0xffffffff t else t)
      else if e.severity = 2 then lastingFenced e n inj t
      else handle e n (1 + inj) t := by
  have step : darnEvent e inj s = if !inWindow e then handle e 0 inj (noted e s) else
      match winBump e (noted e s) with
      | (n, last, t) => if !last then handle e n inj t
        else if e.severity < 2 then lasting e n inj (if e.severity = 1 then record e 1 1 inj e.unit n 0xffffffff t else t)
        else if e.severity = 2 then lastingFenced e n inj t
        else handle e n (1 + inj) t := rfl
  rw [step, inside, bump]
  rfl

/-- A corrected event below its threshold only counts. -/
theorem darnEvent_counts {e : ErrIn} (sev : e.severity = 0) (kind : e.kind = 0) (notFifo : e.source / 1024 ≠ 2)
    (below : winCount (winNow s (winOf e s)) < (winNow s (winOf e s)).t) :
    darnEvent e 0 s = setWin e (bumped (winNow s (winOf e s))) (s.count (.errors e.source)) := by
  have counts : inWindow e = true := by simp [inWindow, kind]
  have first : noted e s = s.count (.errors e.source) := by
    unfold noted
    dsimp only
    rw [if_neg (c := e.source / 1024 = 2 ∧ e.kind = 0) (fun h => notFifo h.1), if_neg (by omega)]
  have bump := winBump_below (s := s.count (.errors e.source)) (e := e) below
  rw [← first] at bump
  rw [darnEvent_inside counts bump, Bool.not_false, if_pos rfl, first]
  unfold handle
  rw [sev]
  rfl

theorem link_linksOff {l : Nat} (low : l < 32) : ((linksOff s).link l).state = 0 := by
  have off : ∀ (k : List Nat) (s : State), (l ∈ k ∨ (s.link l).state = 0) →
      ((k.foldl (fun s l => s.modLink l (fun x => { x with state := 0, wanted := false })) s).link l).state = 0 := by
    intro k
    induction k with
    | nil => exact fun s h => h.resolve_left (by simp)
    | cons j k ih =>
      intro s h
      refine ih _ ?_
      by_cases same : l = j
      · refine .inr ?_
        rw [same]
        exact congrArg Link.state (link_setLink_self (s := s) j { s.link j with state := 0, wanted := false })
      · have kept := congrArg Link.state (link_setLink_ne (s := s) { s.link j with state := 0, wanted := false } same)
        exact (h.imp_left (fun mem => (List.mem_cons.mp mem).resolve_left same)).imp_right kept.trans
  exact off _ _ (.inl (List.mem_range.mpr low))

theorem linksOff_fab (s : State) : ∃ f, linksOff s = { s with fab := f } := by
  have off : ∀ (k : List Nat) (s : State), ∃ f, k.foldl (fun s l => s.modLink l (fun x => { x with state := 0, wanted := false })) s =
      { s with fab := f } := by
    intro k
    induction k with
    | nil => exact fun s => ⟨s.fab, rfl⟩
    | cons j k ih =>
      intro s
      obtain ⟨f, rest⟩ := ih (s.modLink j (fun x => { x with state := 0, wanted := false }))
      rw [List.foldl_cons, rest]
      exact ⟨f, rfl⟩
  exact off _ s

/-- An event's windows: DARN's counts move, and the counters. -/
def WinFrame (s t : State) : Prop := ∃ o a b, t = { s with obs := o, darn := { s.darn with wins := a, hbmRows := b } }

/-- What a sound event of severity 2 or 3 comes to: it is handled after it has counted, be its source lasting or not. -/
theorem darnEvent_handles {e : ErrIn} (sev : 2 ≤ e.severity) (fences : e.severity = 2 → ∀ t, (lastingAction t e.source).1 ≠ 7) (s : State) :
    ∃ n inj t, darnEvent e 0 s = handle e n inj t ∧ WinFrame s t := by
  obtain ⟨o, first⟩ := noted_sound (s := s) (e := e) (by omega)
  cases inside : inWindow e with
  | false => exact ⟨0, 0, noted e s, darnEvent_outside inside, o, s.darn.wins, s.darn.hbmRows, first⟩
  | true =>
    obtain ⟨n, last, w, bump⟩ := winBump_eq (s := noted e s) e
    obtain ⟨a, b, kept⟩ := setWin_eq (s := noted e s) e w
    have frame : WinFrame s (setWin e w (noted e s)) := ⟨o, a, b, by rw [kept, first]⟩
    rw [darnEvent_inside inside bump]
    cases last with
    | false => exact ⟨n, 0, _, rfl, frame⟩
    | true =>
      rw [Bool.not_true, if_neg Bool.false_ne_true, if_neg (by omega)]
      by_cases two : e.severity = 2
      · rw [if_pos two, lastingFenced, if_neg (fences two _)]
        exact ⟨n, 1 + 0, _, rfl, frame⟩
      · rw [if_neg two]
        exact ⟨n, 1 + 0, _, rfl, frame⟩

theorem handle_fatal {e : ErrIn} (sev : e.severity = 3) (n inj : Nat) :
    handle e n inj s = fatalStop (record e 3 7 inj e.unit n 0xffffffff s) := by
  unfold handle
  rw [sev]
  rfl

/-- An event of severity 2 on a core or a group of a pipeline is an action of DARN on its unit. -/
theorem handle_fences {e : ErrIn} (sev : e.severity = 2) (source : e.source / 1024 ≠ 0x0b) (unit : e.unit / 1024 ≠ 4) (n inj : Nat) :
    handle e n inj s = act e e.unit 2 5 inj n [] s := by
  unfold handle hitTile
  rw [sev, if_neg source, if_neg unit]
  rfl

/-- The fence of a REED core starts: nothing changes but DARN. -/
theorem procStart_core {p : Proc} (fence : p.action = 5) (core : p.unit / 1024 = 2) :
    procStart p s = { s with darn := { s.darn with proc := some { p with pk := s.clk.pk } } } := by
  unfold procStart
  dsimp only
  rw [if_neg (by omega), if_neg (by omega), core]
  rfl

theorem lastingAction_core {src : Nat} (core : src / 1024 = 7) : (lastingAction s src).1 ≠ 7 := by
  unfold lastingAction
  rw [core]
  exact (by decide : (5 : Nat) ≠ 7)

/-- A poisoning event on a tile's line. -/
theorem darnEvent_poisons {e : ErrIn} (sev : e.severity = 1) (source : e.source / 1024 = 1) (kind : e.kind = 1) {n l : Nat}
    (line : e.at_ = .tileLine n l) : darnEvent e 0 s = record e 1 1 0 e.unit 0 0xffffffff
      { s.count (.errors e.source) with tiles := { s.tiles with
        lines := smMod {} s.tiles.lines (n * 32768 + l) (fun x => { x with poison := true }) } } := by
  have outside : inWindow e = false := by simp [inWindow, source, kind]
  have first : noted e s = poisonAt (.tileLine n l) (s.count (.errors e.source)) := by
    unfold noted
    dsimp only
    rw [if_neg (c := e.source / 1024 = 2 ∧ e.kind = 0) (by omega), if_pos sev, line]
  rw [darnEvent_outside outside, first]
  unfold handle
  rw [sev]
  rfl

/-! ### Procedures and limits -/

theorem finishAll_darnKept (l : List CmdCtx) (s : State) : DarnKept s (finishAll l s) := .foldl (fun s c => finish_darnKept c .ok [] 0 0 s) _ _

theorem procNext_idle {k : Nat} (none_ : s.darn.proc = none) (empty : s.darn.pend = []) : procNext k s = s := by
  cases k with
  | zero => rfl
  | succ k => simp only [procNext, none_, empty]

/-- A procedure that asks for nothing more and that no other follows ends with its effect and its replies. -/
theorem procEnd_ends {p : Proc} (running : s.sys.mode = .running) (proc : s.darn.proc = some p) (asked : p.source = 0)
    (empty : s.darn.pend = []) (due : procDue s p = true) {d : Darn}
    (effect : procEffect p (s.setDarn { s.darn with proc := none }) = { s with darn := d }) (idle : d.proc = none) (none_ : d.pend = []) :
    procEnd s = finishAll p.ctxs { s with darn := d } := by
  obtain ⟨l, same⟩ := finishAll_darnKept p.ctxs { s with darn := d }
  have again (t : State) : procAgain p t = t := if_pos (.inl asked)
  unfold procEnd
  simp only [up_of_running running, proc, due, if_true, effect, again]
  exact procNext_idle (by rw [same]; exact idle) (by rw [same]; exact none_)

theorem drainLimit_early {k : Nat} {p : Proc} (fences : fencing s (pipeUnit k) = some p) (early : s.clk.pk < p.pk + 32000) :
    drainLimit k s = s := by
  unfold drainLimit
  rw [fences]
  split
  next _ h =>
    rw [← Option.some.inj h]
    exact if_neg (by omega)
  · rfl

theorem drainLimit_drops {k : Nat} {p : Proc} {x : Packet} (running : s.sys.mode = .running) (fences : fencing s (pipeUnit k) = some p)
    (one : inPipe s k = [x]) (late : p.pk + 32000 ≤ s.clk.pk) : ∃ lg, drainLimit k s =
      dropPkt .fenceDrop x { s with darn := { s.darn with logs := lg } } := by
  obtain ⟨lg, written⟩ := record_logs { againEvent p with kind := 5 } 2 9 p.inj p.unit 0 p.recIdx s
  refine ⟨lg, ?_⟩
  unfold drainLimit
  simp only [up_of_running running, fences, one]
  rw [if_pos ⟨late, by simp⟩, written]
  rfl

theorem cntAt_countFor_self (k : Packet) (c : Ctr) : (s.countFor k c).cntAt c.key = s.cntAt c.key + 1 := by
  unfold State.countFor
  dsimp only
  split
  · exact cntAt_count_self ..
  · exact cntAt_count_self ..

/-- A packet that alone is in a pipeline leaves it empty as it is dropped, and its reference is released. -/
theorem dropPkt_empties {k : Nat} {r : DropCtr} {x : Packet} (one : inPipe s k = [x]) : inPipe (dropPkt r x s) k = [] ∧
    (dropPkt r x s).cntAt (Ctr.drop x.part r).key = s.cntAt (Ctr.drop x.part r).key + 1 ∧
    (dropPkt r x s).eps x.part = (s.eps x.part).map (fun e => if e.num = x.epoch then { e with refs := e.refs - 1 } else e) := by
  refine ⟨?_, ?_, ?_⟩
  · obtain ⟨e, o, g, dropped⟩ := dropPkt_eq (s := s) r x
    rw [dropped]
    refine List.filter_eq_nil_iff.mpr (fun y hy at_ => ?_)
    obtain ⟨mem, ne⟩ := List.mem_filter.mp hy
    have there : y ∈ inPipe s k := List.mem_filter.mpr ⟨mem, at_⟩
    rw [one] at there
    exact absurd (congrArg Packet.id (List.mem_singleton.mp there)) (of_decide_eq_true ne)
  · exact cntAt_countFor_self (s := removePkt x s) ..
  · obtain ⟨o, counted⟩ := countFor_obs (s := removePkt x s) x (.drop x.part r)
    rw [dropPkt, counted]
    exact eps_dropRef (s := s.setPkts (s.pkts.filter (fun y => decide (y.id ≠ x.id)))) ..

/-- The forced end of a tile's command. -/
theorem tileForced_ends {n : Nat} {p : Proc} {x : TCmd} (running : s.sys.mode = .running) (fences : fencing s (tileUnit n) = some p)
    (runs : runningOn s n = some x) (found : s.tiles.cmds.find? (fun y => decide (y.id = x.id)) = some x)
    (ofSlot : ∀ j ∈ s.tiles.jobs, j.id = x.job → j.ctx = none ∧ j.slot.isSome = true)
    (alone : s.tiles.cmds.filter (wantsTile n) = [x]) (late : p.pk + s.fval .darnTileWait * 1600 ≤ s.clk.pk) :
    ∃ y, (tileForced n s).tiles.cmds.find? (fun z => decide (z.id = x.id)) = some y ∧ y.state = 2 ∧ y.status = Status.aborted.code ∧
      (tileForced n s).tiles.mem = s.tiles.mem ∧ (tileForced n s).hbm = s.hbm ∧
      (tileForced n s).fact .tileOwner n = s.fvalBefore .tileOwner n := by
  have on : x.state = 1 ∧ x.tile = n := by simpa using List.find?_some runs
  obtain ⟨_, ⟨l, rfl, same⟩, ends⟩ := endCmd_ofSlot (st := .aborted) (word := statusWord .aborted {} n 0) (stats := []) ofSlot
  rw [if_pos on.1] at ends
  have step : tileForced n s = tileBoundary n (poolIdle (ownerDue n { s with tiles := { s.tiles with cmds := l } })) := by
    unfold tileForced
    simp only [up_of_running running, fences, runs, if_pos late, ends, on.2]
    rfl
  have itself : (l.find? (fun z => decide (z.id = x.id))).map cmdCore = _ := (find?_core (fun _ => rfl) same).trans
    (congrArg (Option.map cmdCore) (endedCmds_self (st := .aborted) (word := statusWord .aborted {} n 0) (stats := []) found))
  have none_ : ∀ y ∈ l, wantsTile n y = false := by
    have := (any_core (f := wantsTile n) (fun _ => rfl) same).trans (List.any_eq_false.mpr (fun y hy =>
      Bool.eq_false_iff.mp (endedCmds_free (st := .aborted) (word := statusWord .aborted {} n 0) (stats := []) found alone y hy)))
    exact fun y hy => Bool.eq_false_iff.mpr (List.any_eq_false.mp this y hy)
  obtain ⟨a, c, pool⟩ := (ownerDue_pool n { s with tiles := { s.tiles with cmds := l } }).trans (poolIdle_pool _)
  have step' := step.trans (congrArg (tileBoundary n) pool)
  rw [tileBoundary, ownerDue_free (tileHeld_none none_)] at step'
  obtain ⟨y, at_, core⟩ := Option.map_eq_some_iff.mp itself
  refine ⟨y, ?_, (congrArg TCmd.state core :), (congrArg TCmd.status core :), ?_, ?_, ?_⟩
  · rw [step']
    exact at_
  · rw [step']
    rfl
  · rw [step']
    rfl
  · rw [step']
    refine (fact_congr rfl ..).trans ((fact_takeShadow_self ..).trans rfl)

/-- The event of a watchdog that expires on a unit. -/
def watchdogEvent (u : Nat) : ErrIn := {
  source := unitSource u, kind := 5, severity := 2, unit := u, part := 0xff, address := 0, command := 0, layer := 0, oper := 0, detail := 0,
  at_ := .nothing }

/-- Settles O50. -/
theorem darnHandlesErrors : Obligations.DarnHandlesErrors := by
  unfold Obligations.DarnHandlesErrors
  intro log
  refine ⟨?events, ?ends, ?watchdog, ?drain, ?forced⟩
  case events =>
    intro e s running source w
    refine ⟨fun sev kind notFifo below => ?_, fun sev class_ kind module_ room n l line => ?_, fun sev module_ room => ?_,
      fun sev class_ core module_ free some_ idle room => ?_⟩
    · have at_ : winOf e (setWin e (bumped w) (s.count (.errors e.source))) = bumped w := winOf_setWin ..
      obtain ⟨a, b, kept⟩ := setWin_eq (s := s.count (.errors e.source)) e (bumped w)
      have now : State.now (setWin e (bumped w) (s.count (.errors e.source))) = s.now := by
        rw [kept]
        rfl
      refine ⟨setWin e (bumped w) (s.count (.errors e.source)), (errorEvent_runs running source).trans (congrArg _
        (darnEvent_counts sev kind notFifo below)), ?_, by rw [kept]; rfl, ?_, fun a ne => winOf_setWin_ne ne,
        fun k ne => win_setWin_ne ne, by rw [kept]; rfl⟩
      · rw [at_, winNow_congr now, winNow_bumped, winCount_bumped]
      · rw [kept]
        exact cntAt_count_self ..
    · obtain ⟨r, lg, written, logged, _, facts⟩ := record_module (e := e) (sev := 1) (action := 1) (flags := 0) (unit := e.unit)
        (count := 0) (parent := 0xffffffff) (s := { s.count (.errors e.source) with tiles := { s.tiles with
          lines := smMod {} s.tiles.lines (n * 32768 + l) (fun x => { x with poison := true }) } }) module_ room
      obtain ⟨ofSev, ofAction, _, _, ofSource⟩ := facts
      refine ⟨_, r, (errorEvent_runs running source).trans (congrArg _ ((darnEvent_poisons sev class_ kind line).trans written)), logged,
        ofSev, ofAction, ofSource, ?_, rfl, rfl⟩
      exact congrArg Line.poison (smGet_smSet_self ..)
    · obtain ⟨n, inj, t, handles, o, a, b, frame⟩ := darnEvent_handles (e := e) (by omega) (fun two => by omega) s
      obtain ⟨r, lg, written, logged, _, facts⟩ := record_module (e := e) (sev := 3) (action := 7) (flags := inj) (unit := e.unit)
        (count := n) (parent := 0xffffffff) (s := t) module_ (by rw [frame]; exact room)
      obtain ⟨ofSev, ofAction, _, _, ofSource⟩ := facts
      rw [handle_fatal sev, written] at handles
      generalize seen : ({ t with darn := { t.darn with logs := lg } } : State) = w' at handles
      have up : w'.up = true := by
        rw [← seen, frame]
        exact up_of_running running
      have halts := takeStop_halts causeFatal 0 none none (fun _ => false) w'
      obtain ⟨l, darn⟩ := halts.darn
      obtain ⟨f, off⟩ := linksOff_fab (takeStop causeFatal 0 none none (fun _ => false) w')
      have stops : darnEvent e 0 s = linksOff (takeStop causeFatal 0 none none (fun _ => false) w') := handles.trans (if_pos up)
      refine ⟨_, r, (errorEvent_runs running source).trans (congrArg _ stops), ?_, ofSev, ofAction, ofSource, ?_, ?_,
        fun l low => link_linksOff low, ?_, ?_⟩
      · have kept : log (linksOff (takeStop causeFatal 0 none none (fun _ => false) w')) = (smGet {} lg 0).recs := by
          unfold log
          rw [off, darn, ← seen]
        rw [kept, logged, frame]
      · rw [off, halts.sys]
      · rw [off, halts.sys]
        rfl
      · rw [off, halts.flow, ← seen, frame]
      · rw [off, halts.slots, ← seen, frame]
    · obtain ⟨n, inj, t, handles, o, a, b, frame⟩ := darnEvent_handles (e := e) (by omega) (fun _ t => lastingAction_core class_) s
      rw [handle_fences sev (by omega) (by omega)] at handles
      obtain ⟨r, lg, p, acts, ofUnit, fence, none_, logged, ofSev, ofAction, _, unit⟩ := act_asks (s := t) (e := e) (unit := e.unit) (sev := 2)
        (action := 5) (flags := inj) (count := n) (ctxs := []) module_ (by omega) (by rw [frame]; exact some_) (by rw [frame]; exact free)
        (by rw [frame]; exact idle) (by rw [frame]; exact room)
      have starts := handles.trans (acts.trans (procStart_core fence (by rw [ofUnit]; exact core)))
      rw [frame] at starts logged
      exact ⟨_, r, _, (errorEvent_runs running source).trans (congrArg _ starts), logged, ofSev, ofAction, unit, rfl, ofUnit, fence, none_,
        rfl, rfl, rfl⟩
  case ends =>
    intro s running
    refine ⟨fun none_ => ?_, fun p proc asked empty => ⟨fun repair => ?_, fun fence core free => ?_, fun fence pipe busy => ?_⟩⟩
    · rw [exec_procedureEnd, procEnd, none_]
      simp
    · have due : procDue s p = true := if_pos (by omega)
      have effect : procEffect p (s.setDarn { s.darn with proc := none }) =
          { s with darn := { s.darn with proc := none, spares := s.darn.spares ++ [p.unit % 1024] } } := by
        unfold procEffect
        rw [repair]
        rfl
      exact ⟨_, congrArg _ (procEnd_ends running proc asked empty due effect rfl empty), rfl⟩
    · have due : procDue s p = true := by
        unfold procDue
        rw [if_neg (by omega), core]
        rfl
      have effect : procEffect p (s.setDarn { s.darn with proc := none }) =
          { s with darn := { s.darn with proc := none, fenced := s.darn.fenced ++ [p.unit] } } := by
        unfold procEffect
        rw [fence, core]
        exact if_neg (Bool.eq_false_iff.mp free)
      exact ⟨_, congrArg _ (procEnd_ends running proc asked empty due effect rfl empty), rfl⟩
    · have waits : procDue s p = false := by
        unfold procDue
        rw [if_neg (by omega), pipe]
        exact List.isEmpty_eq_false_iff.mpr busy
      rw [exec_procedureEnd, procEnd]
      simp only [up_of_running running, proc, waits, Bool.false_eq_true, if_false]
  case watchdog =>
    intro u s running
    refine ⟨fun quiet => ?_, fun idle => ?_, fun defined core slow free some_ idle => ?_⟩
    · rw [exec_darnWatchdogExpire, watchdog, if_neg]
      obtain quiet | quiet := quiet <;> simp [quiet]
    · obtain idle | early := idle
      · rw [stuck, idle, Bool.false_and]
      · rw [stuck, decide_eq_false (by omega), Bool.and_false]
    · obtain ⟨e, made⟩ : ∃ e, e = watchdogEvent u := ⟨_, rfl⟩
      have sev : e.severity = 2 := made ▸ rfl
      have unit : e.unit = u := made ▸ rfl
      have class_ : e.source / 1024 = 7 := by
        have : unitSource u = 0x07 * 1024 + u % 1024 := by
          unfold unitSource
          rw [core]
          rfl
        rw [made]
        show unitSource u / 1024 = 7
        omega
      have runs : exec (.darnWatchdogExpire u) s = .next (darnEvent e 0 s) := by
        rw [exec_darnWatchdogExpire, watchdog, up_of_running running, defined, slow, free, made]
        rfl
      obtain ⟨n, inj, t, handles, o, a, b, frame⟩ := darnEvent_handles (e := e) (by omega) (fun _ t => lastingAction_core class_) s
      rw [handle_fences sev (by omega) (by omega), unit] at handles
      obtain ⟨p, acts, ofUnit, fence, _⟩ := act_starts (s := t) (e := e) (unit := u) (sev := 2) (action := 5) (flags := inj) (count := n)
        (ctxs := []) (by omega) (by rw [frame]; exact some_) (by rw [frame]; exact free) (by rw [frame]; exact idle)
      obtain ⟨lg, written⟩ := record_logs e 2 5 inj u n 0xffffffff t
      have starts := handles.trans (acts.trans (procStart_core fence (by rw [ofUnit]; exact core)))
      rw [written, frame] at starts
      exact ⟨_, _, runs.trans (congrArg _ starts), rfl, ofUnit, fence, rfl⟩
  case drain =>
    intro k p x s running fences one
    refine ⟨fun early => by rw [exec_pipelineFenceDrainLimit, drainLimit_early fences early], fun late => ?_⟩
    obtain ⟨lg, drops⟩ := drainLimit_drops running fences one late
    obtain ⟨empty, counted, refs⟩ := dropPkt_empties (s := { s with darn := { s.darn with logs := lg } }) (r := .fenceDrop) one
    obtain ⟨e, o, g, dropped⟩ := dropPkt_eq (s := { s with darn := { s.darn with logs := lg } }) .fenceDrop x
    exact ⟨_, by rw [exec_pipelineFenceDrainLimit, drops], empty, counted, refs, by rw [dropped], by rw [dropped]⟩
  case forced =>
    intro n p x s running fences low runs found ofSlot alone
    refine ⟨fun early => ?_, fun late => ?_⟩
    · rw [exec_tileFenceForced, tileForced, fences, runs]
      split
      next h _ =>
        rw [← Option.some.inj h, if_neg (by omega)]
      · rfl
    · obtain ⟨y, ended⟩ := tileForced_ends running fences runs found ofSlot alone late
      exact ⟨_, y, by rw [exec_tileFenceForced], ended⟩

end Sys2Proof.Proofs
end

