-- ==== Sys2Proof/Proofs/Power.lean ====
section
/-! PROOF. Power comes and goes (O52). -/

namespace Sys2Proof.Proofs
open Sys2Proof.Machine

variable {s : State}

/-! ### What goes with the rails -/

theorem volatileLost_quiet {m : Mode} (noHost : m.hasHost = false) : Quiet (volatileLost m s) where
  noHost := noHost
  rings := fun _ h => nomatch h
  inband := fun _ h => nomatch h
  cmdKeys := fun _ h => nomatch h
  regions := (by decide : ∀ e ∈ State.reset.regions, e.2.key0 = none ∧ e.2.key1 = none)
  coreKeys := rfl
  hbm := rfl
  packets := rfl
  fabric := rfl
  noSa := rfl

theorem exec_inputPowerPresent (n : Nat) (s : State) : exec (.inputPowerPresent n) s = .next (inputPresent n s) := rfl
theorem exec_bootDone (s : State) : exec .bootDone s = .next (bootDone s) := rfl
theorem exec_railFault (s : State) : exec .railFault s = .next (if s.sys.mode = .standby then s else removeNow false false true s) := rfl
theorem exec_removalComplete (s : State) : exec .removalComplete s = .next (removalComplete s) := rfl
theorem exec_vinOverVoltage (mv : Nat) (s : State) : exec (.vinOverVoltage mv) s = execVinOverVoltage mv s := rfl
theorem exec_perstNFall (s : State) : exec .perstNFall s = .next (perstFall s) := rfl
theorem exec_pwrEnRise (s : State) : exec .pwrEnRise s = .next (tryBoot (s.setSys { s.sys with pwrEn := true })) := rfl
theorem exec_perstNRise (s : State) : exec .perstNRise s = .next (tryBoot (s.setSys { s.sys with perstN := true })) := rfl

/-- A module that is up far enough for a removal to begin: it is neither off nor being removed. -/
def Removable (m : Mode) : Prop := m ≠ .off ∧ m ≠ .removing

theorem removeNow_removes {lost opens fails : Bool} (up : Removable s.sys.mode) : ∃ n, removeNow lost opens fails s =
    (volatileLost .removing (s.setSys { s.sys with inputPresent := s.sys.inputPresent && !lost })).setSys
      { (volatileLost .removing (s.setSys { s.sys with inputPresent := s.sys.inputPresent && !lost })).sys with
        failedStarts := n, removal := some { since := s.now, mainPathOff := opens } } := by
  unfold removeNow
  dsimp only
  split
  next off => exact absurd off up.1
  next removing => exact absurd removing up.2
  · exact ⟨_, rfl⟩

theorem quiet_setSys {y : Sys} (quiet : Quiet s) (mode : y.mode = s.sys.mode) (keys : y.keysLive = s.sys.keysLive) : Quiet (s.setSys y) :=
  { quiet with
    noHost := by rw [State.setSys, mode]; exact quiet.noHost
    coreKeys := by rw [State.setSys, keys]; exact quiet.coreKeys }

theorem removeNow_quiet {lost opens fails : Bool} (up : Removable s.sys.mode) : Quiet (removeNow lost opens fails s) := by
  obtain ⟨n, removed⟩ := removeNow_removes (lost := lost) (opens := opens) (fails := fails) up
  rw [removed]
  exact quiet_setSys (volatileLost_quiet rfl) rfl rfl

theorem removeNow_off {lost opens fails : Bool} (off : s.sys.mode = .off) : removeNow lost opens fails s =
    s.setSys { s.sys with inputPresent := s.sys.inputPresent && !lost } := by
  unfold removeNow
  dsimp only
  split
  · rfl
  next h => exact absurd (off.symm.trans h) (by decide)
  next h _ => exact absurd off h

theorem removeNow_again {lost opens fails : Bool} (removing : s.sys.mode = .removing) : removeNow lost opens fails s =
    s.setSys { s.sys with inputPresent := s.sys.inputPresent && !lost,
                          removal := s.sys.removal.map (fun r => { r with mainPathOff := r.mainPathOff || opens }) } := by
  unfold removeNow
  dsimp only
  split
  next h => exact absurd (removing.symm.trans h) (by decide)
  · rfl
  next _ h => exact absurd removing h

theorem tryBoot_boots (standby : s.sys.mode = .standby) (power : s.sys.pwrEn = true) (perst : s.sys.perstN = true) :
    tryBoot s = { volatileLost .boot s with clk := {} } := if_pos ⟨standby, power, perst⟩

theorem tryBoot_waits (h : s.sys.mode ≠ .standby ∨ s.sys.pwrEn = false ∨ s.sys.perstN = false) : tryBoot s = s := by
  refine if_neg (fun ⟨standby, power, perst⟩ => ?_)
  obtain h | h | h := h
  · exact h standby
  · exact absurd (h.symm.trans power) (by decide)
  · exact absurd (h.symm.trans perst) (by decide)

/-! ### Images -/

/-- The images after one of them may have taken over. -/
def taken (k : Nat) (s : State) : State :=
  let x := nth {} s.sys.fw k
  if x.state = 2 then
    let least := nth 0 s.sys.fuses.minSvn (k - 1)
    let (v, s) := drawBelow s (2 ^ 32 - least)
    s.setSys { s.sys with fw := setNth s.sys.fw k { state := 0, svn := least + v, running := x.pending, pending := 0 } }
  else s

theorem taken_image (k : Nat) (s : State) : ∃ f l, taken k s = { s with free := f, sys := { s.sys with fw := l } } ∧
    l.length = s.sys.fw.length ∧ (∀ j, j ≠ k → nth {} l j = nth {} s.sys.fw j) ∧
    ((nth {} s.sys.fw k).state ≠ 2 → nth {} l k = nth {} s.sys.fw k) ∧
    (k < s.sys.fw.length → (nth {} s.sys.fw k).state = 2 →
      (nth {} l k).state = 0 ∧ (nth {} l k).running = (nth {} s.sys.fw k).pending) := by
  unfold taken
  dsimp only
  split
  next active =>
    refine ⟨_, _, rfl, List.length_set .., fun j ne => nth_setNth_ne ne, fun other => absurd active other, fun low _ => ?_⟩
    have image {x : FwComp} := nth_setNth_self (d := {}) (x := x) low
    exact ⟨congrArg FwComp.state image, congrArg FwComp.running image⟩
  next other => exact ⟨s.free, s.sys.fw, rfl, rfl, fun _ _ => rfl, fun _ => rfl, fun _ active => absurd active other⟩

/-- What taking the images of a list of kinds leaves: each activated one has taken over, and the others are as they were. -/
structure Taken (l : List Nat) (s t : State) : Prop where
  frame : ∃ f i, t = { s with free := f, sys := { s.sys with fw := i } }
  length : t.sys.fw.length = s.sys.fw.length
  others : ∀ j, j ∉ l → nth {} t.sys.fw j = nth {} s.sys.fw j
  kept : ∀ j, (nth {} s.sys.fw j).state ≠ 2 → nth {} t.sys.fw j = nth {} s.sys.fw j
  active : ∀ j ∈ l, j < s.sys.fw.length → (nth {} s.sys.fw j).state = 2 →
    (nth {} t.sys.fw j).state = 0 ∧ (nth {} t.sys.fw j).running = (nth {} s.sys.fw j).pending

theorem foldl_taken {l : List Nat} (once : l.Nodup) (s : State) : Taken l s (l.foldl (fun s k => taken k s) s) := by
  induction l generalizing s with
  | nil => exact ⟨⟨s.free, s.sys.fw, rfl⟩, rfl, fun _ _ => rfl, fun _ _ => rfl, fun _ h => nomatch h⟩
  | cons k l ih =>
    obtain ⟨fresh, once⟩ := List.nodup_cons.mp once
    obtain ⟨f, i, first, len, others, kept, active⟩ := taken_image k s
    have fw : (taken k s).sys.fw = i := by rw [first]
    have rest := ih once (taken k s)
    obtain ⟨g, m, frame⟩ := rest.frame
    have untouched (j : Nat) (same : nth {} i j = nth {} s.sys.fw j) : nth {} (taken k s).sys.fw j = nth {} s.sys.fw j := by rw [fw, same]
    refine ⟨⟨g, m, by rw [List.foldl_cons, frame, first]⟩, rest.length.trans (by rw [fw, len]), fun j out => ?_, fun j idle => ?_, ?_⟩
    · obtain ⟨ne, out⟩ := not_or.mp (mt List.mem_cons.mpr out)
      exact (rest.others j out).trans (untouched j (others j ne))
    · have same : nth {} i j = nth {} s.sys.fw j := by
        by_cases at_ : j = k
        · subst at_
          exact kept idle
        · exact others j at_
      exact (rest.kept j (by rw [untouched j same]; exact idle)).trans (untouched j same)
    · intro j mem low two
      obtain rfl | mem := List.mem_cons.mp mem
      · have image := rest.others j fresh
        rw [fw] at image
        rw [List.foldl_cons, image]
        exact active low two
      · have same := untouched j (others j (fun at_ => fresh (at_ ▸ mem)))
        have image := rest.active j mem (by rw [fw, len]; exact low) (by rw [same]; exact two)
        rw [same] at image
        exact image

theorem takeImages_takes (s : State) : Taken [1, 2, 3, 4] s (takeImages s) := foldl_taken (by decide) s

/-! ### Removals -/

/-- What every cause of a removal leaves. -/
structure Removed (s : State) (lost opens : Bool) (t : State) : Prop where
  mode : t.sys.mode = .removing
  removal : t.sys.removal = some ⟨s.now, opens⟩
  input : t.sys.inputPresent = (s.sys.inputPresent && !lost)
  quiet : Quiet t
  fw : t.sys.fw = s.sys.fw
  fuses : t.sys.fuses = s.sys.fuses
  starts : t.sys.starts = s.sys.starts
  clk : t.clk = s.clk
  host : t.host = s.host
  pending : t.pending = s.pending
  impl : t.impl = s.impl

theorem removeNow_removed {lost opens fails : Bool} (up : Removable s.sys.mode) : Removed s lost opens (removeNow lost opens fails s) := by
  have quiet := removeNow_quiet (lost := lost) (opens := opens) (fails := fails) up
  obtain ⟨n, removed⟩ := removeNow_removes (lost := lost) (opens := opens) (fails := fails) up
  rw [removed] at quiet ⊢
  exact ⟨rfl, rfl, rfl, quiet, rfl, rfl, rfl, rfl, rfl, rfl, rfl⟩

theorem inputPresent_whole {n : Nat} (whole : s.sys.inputHarmed = false) : inputPresent n s = s.setSys (if s.sys.mode = .off then
      { s.sys with mode := .standby, inputPresent := true, mainPath := true, slotId := n }
    else { s.sys with inputPresent := true }) := by
  unfold inputPresent inputPasses
  rw [whole]
  dsimp only
  rw [apply_ite s.setSys]
  rfl

theorem inputPresent_harmed (n : Nat) (harmed : s.sys.inputHarmed = true) : inputPresent n s = { s with free := s.free + 1 } ∨
    inputPresent n s = { s with
      free := s.free + 1
      sys := if s.sys.mode = .off then
          { s.sys with mode := .standby, inputPresent := true, mainPath := true, slotId := n }
        else { s.sys with inputPresent := true } } := by
  unfold inputPresent inputPasses
  rw [harmed, if_pos rfl]
  unfold drawBool
  dsimp only
  cases Config.freeBool s.free with
  | false => exact .inl rfl
  | true =>
    refine .inr ?_
    rw [Bool.not_true, if_neg Bool.false_ne_true]
    by_cases off : s.sys.mode = .off
    · rw [if_pos off, if_pos off]
      rfl
    · rw [if_neg off, if_neg off]
      rfl

/-- The module with another system state. -/
theorem removed_of_same {u : State} {lost opens : Bool} {t : State} (h : Removed u lost opens t) (now : u.now = s.now)
    (input : u.sys.inputPresent = s.sys.inputPresent) (fw : u.sys.fw = s.sys.fw) (fuses : u.sys.fuses = s.sys.fuses)
    (starts : u.sys.starts = s.sys.starts) (clk : u.clk = s.clk) (host : u.host = s.host) (pending : u.pending = s.pending)
    (impl : u.impl = s.impl) : Removed s lost opens t :=
  { mode := h.mode, removal := by rw [h.removal, now], input := by rw [h.input, input], quiet := h.quiet, fw := h.fw.trans fw,
    fuses := h.fuses.trans fuses, starts := h.starts.trans starts, clk := h.clk.trans clk, host := h.host.trans host,
    pending := h.pending.trans pending, impl := h.impl.trans impl }

/-- The input voltage is noted, and above 72 V the input stage may be damaged. -/
def overVolted (mv : Nat) (s : State) : State :=
  let s := s.setSys { s.sys with i3cVin := h16 (mv / 10) }
  if 72000 < mv then mayHarm s else s

theorem overVolted_eq (mv : Nat) (s : State) : ∃ f b, overVolted mv s =
    { s with free := f, sys := { s.sys with i3cVin := h16 (mv / 10), inputHarmed := b } } ∧
    (mv ≤ 72000 ∨ s.sys.inputHarmed = true → b = s.sys.inputHarmed) := by
  unfold overVolted mayHarm drawBool
  dsimp only
  split
  · refine ⟨_, _, rfl, fun h => ?_⟩
    obtain low | harmed := h
    · omega
    · show (s.sys.inputHarmed || _) = _
      rw [harmed, Bool.true_or]
  · exact ⟨s.free, s.sys.inputHarmed, rfl, fun _ => rfl⟩

theorem vinOverVoltage_runs (mv : Nat) (s : State) : exec (.vinOverVoltage mv) s =
    .next (if 63000 < mv then removeNow false true false (overVolted mv s) else overVolted mv s) := rfl

theorem vinOverVoltage_high {mv : Nat} (high : 63000 < mv) (s : State) : exec (.vinOverVoltage mv) s =
    .next (removeNow false true false (overVolted mv s)) := by rw [vinOverVoltage_runs, if_pos high]

theorem vinOverVoltage_low {mv : Nat} (low : mv ≤ 63000) (s : State) : exec (.vinOverVoltage mv) s =
    .next (s.setSys { s.sys with i3cVin := h16 (mv / 10) }) := by
  rw [vinOverVoltage_runs, if_neg (by omega), overVolted]
  dsimp only
  rw [if_neg (by omega)]

theorem perstFall_removes (up : s.sys.mode ≠ .standby) : perstFall s = removeNow false false false { s with
    rings := []
    sys := { s.sys with perstN := false, ringRefused := false, dsmLo := 0, dsmHi := 0, dsmAddr := 0, dsmSeen := none, dsmLast := none } } :=
  if_neg up

theorem removalComplete_early {r : Removal} (removing : s.sys.mode = .removing) (was : s.sys.removal = some r)
    (early : s.now.toNat < r.since.toNat + 1000000) : removalComplete s = s := by
  unfold removalComplete
  rw [removing, was]
  exact if_neg (by omega)

theorem removalComplete_ends {r : Removal} (removing : s.sys.mode = .removing) (was : s.sys.removal = some r)
    (late : r.since.toNat + 1000000 ≤ s.now.toNat) : removalComplete s = s.setSys { s.sys with
      mode := if s.sys.inputPresent && !r.mainPathOff then .standby else .off, removal := none,
      mainPath := s.sys.mainPath && !r.mainPathOff, i3cAddr := if s.sys.inputPresent && !r.mainPathOff then s.sys.i3cAddr else none } := by
  unfold removalComplete
  rw [removing, was]
  exact if_pos late

/-- A removal leaves what the input stage reports and suffered. -/
theorem removeNow_input {lost opens fails : Bool} (s : State) : (removeNow lost opens fails s).sys.i3cVin = s.sys.i3cVin ∧
    (removeNow lost opens fails s).sys.inputHarmed = s.sys.inputHarmed := by
  unfold removeNow
  dsimp only
  split <;> exact ⟨rfl, rfl⟩

theorem bootDone_boots (boot : s.sys.mode = .boot) : bootDone s = (takeImages s).setSys { (takeImages s).sys with
    mode := if 3 ≤ (takeImages s).sys.failedStarts then .safe else .waitStart, fuseLatched := true, keysLive := true, pcieUp := true } := by
  unfold bootDone
  rw [if_pos boot]

/-- Settles O52. -/
theorem powerComesAndGoes : Obligations.PowerComesAndGoes := by
  unfold Obligations.PowerComesAndGoes
  intro removed booted s
  have of_removed {u : State} {i : Instr} {lost opens : Bool} {t : State} (runs : exec i u = .next t) (h : Removed u lost opens t) :
      removed u (exec i u) lost opens :=
    ⟨t, runs, h.mode, h.removal, h.input, h.quiet, h.fw, h.fuses, h.starts, h.clk, h.host, h.pending, h.impl⟩
  have boots {y : Sys} (standby : y.mode = .standby) (power : y.pwrEn = true) (perst : y.perstN = true) (fw : y.fw = s.sys.fw)
      (starts : y.failedStarts = s.sys.failedStarts) (fuses : y.fuses = s.sys.fuses) :
      ∃ t, tryBoot (s.setSys y) = t ∧ booted s t := by
    refine ⟨_, tryBoot_boots (s := s.setSys y) standby power perst, rfl, ?_, rfl, fw, starts, fuses, rfl, rfl⟩
    exact { volatileLost_quiet (s := s.setSys y) (m := .boot) rfl with }
  refine ⟨?input, ?power, ?powerWaits, ?perst, ?perstWaits, ?noBoot, ?boot, ?removal, ?standby, ?off, ?removing, ?low, ?high, ?address⟩
  case input =>
    intro n up
    refine ⟨fun whole => ?_, fun harmed => ?_⟩
    · rw [exec_inputPowerPresent, inputPresent_whole whole]
      rfl
    · obtain stops | passes := inputPresent_harmed n harmed
      · exact .inl (congrArg _ stops)
      · exact .inr (congrArg _ passes)
  case power =>
    intro standby perst
    obtain ⟨t, runs, h⟩ := boots (y := { s.sys with pwrEn := true }) standby rfl perst rfl rfl rfl
    exact ⟨t, congrArg _ runs, h⟩
  case powerWaits =>
    intro h
    exact congrArg _ (tryBoot_waits (s := s.setSys { s.sys with pwrEn := true }) (h.imp_right .inr))
  case perst =>
    intro standby power
    obtain ⟨t, runs, h⟩ := boots (y := { s.sys with perstN := true }) standby power rfl rfl rfl rfl
    exact ⟨t, congrArg _ runs, h⟩
  case perstWaits =>
    intro h
    exact congrArg _ (tryBoot_waits (s := s.setSys { s.sys with perstN := true }) (h.imp_right .inl))
  case noBoot =>
    intro h
    exact congrArg _ (if_neg h)
  case boot =>
    intro h
    have taken := takeImages_takes s
    have runs := (exec_bootDone s).trans (congrArg _ (bootDone_boots h))
    generalize takeImages s = u at taken runs
    obtain ⟨⟨f, l, rfl⟩, _, others, kept, active⟩ := taken
    refine ⟨_, runs, fun k low high inside two => active k (by simp; omega) inside two, fun k h => ?_, rfl, rfl⟩
    obtain rfl | idle := h
    · exact others 0 (by decide)
    · exact kept k idle
  case removal =>
    intro notOff notRemoving
    have up : Removable s.sys.mode := ⟨notOff, notRemoving⟩
    refine ⟨of_removed rfl (removeNow_removed up), of_removed rfl (removeNow_removed up), ?_, of_removed rfl (removeNow_removed up),
      of_removed rfl (removeNow_removed up), fun notStandby => ⟨?_, ?_⟩, fun mv high => ?_⟩
    · exact of_removed rfl (removed_of_same (removeNow_removed (s := s.setSys { s.sys with pwrEn := false }) up) rfl rfl rfl rfl rfl rfl rfl
        rfl rfl)
    · exact of_removed ((exec_perstNFall s).trans (congrArg _ (perstFall_removes notStandby)))
        (removed_of_same (removeNow_removed up) rfl rfl rfl rfl rfl rfl rfl rfl rfl)
    · exact of_removed ((exec_railFault s).trans (congrArg _ (if_neg notStandby))) (removeNow_removed up)
    · obtain ⟨f, b, volted, _⟩ := overVolted_eq mv s
      refine of_removed (vinOverVoltage_high high s)
        (removed_of_same (removeNow_removed (s := overVolted mv s) (by rw [volted]; exact up)) ?_ ?_ ?_ ?_ ?_ ?_ ?_ ?_ ?_)
      all_goals rw [volted]
      rfl
  case standby =>
    intro h
    have falls : perstFall s = { s with
        rings := []
        sys := { s.sys with perstN := false, ringRefused := false, dsmLo := 0, dsmHi := 0, dsmAddr := 0, dsmSeen := none,
                            dsmLast := none } } := if_pos h
    refine ⟨congrArg _ (if_pos h), perstFall s, exec_perstNFall s, ?_⟩
    rw [falls]
    exact ⟨rfl, rfl, h, rfl⟩
  case off =>
    intro h
    have stays (fails : Bool) : removeNow false false fails s = s := by
      rw [removeNow_off h, Bool.not_false, Bool.and_true]
      rfl
    have up : s.sys.mode ≠ .standby := by
      rw [h]
      decide
    exact ⟨congrArg _ (stays false), congrArg _ (stays false), (exec_railFault s).trans (congrArg _ ((if_neg up).trans (stays true)))⟩
  case removing =>
    intro h r was
    refine ⟨?_, fun early => ?_, fun late => ?_⟩
    · refine congrArg _ ((removeNow_again h).trans ?_)
      rw [was, Bool.not_false, Bool.and_true, Option.map_some, Bool.or_true]
      rfl
    · rw [exec_removalComplete, removalComplete_early h was early]
    · have completes := removalComplete_ends h was late
      refine ⟨_, (exec_removalComplete s).trans (congrArg _ completes), rfl, fun input path => ?_, fun gone => ?_, rfl⟩
      · rw [input, path]
        exact ⟨rfl, rfl⟩
      · have stays : (s.sys.inputPresent && !r.mainPathOff) = false := by
          obtain h | h := gone <;> simp [h]
        rw [stays]
        exact ⟨rfl, rfl⟩
  case low =>
    intro mv low
    exact vinOverVoltage_low low s
  case high =>
    intro mv high
    obtain ⟨f, b, volted, whole⟩ := overVolted_eq mv s
    have kept := removeNow_input (lost := false) (opens := true) (fails := false) (overVolted mv s)
    refine ⟨_, vinOverVoltage_high high s, ?_, fun h => ?_⟩
    · rw [kept.1, volted]
    · rw [kept.2, volted]
      exact whole h
  case address =>
    exact fun a => ⟨fun h => congrArg _ (if_pos h), fun h => congrArg _ (if_neg h)⟩

end Sys2Proof.Proofs
end

