-- ==== Sys2Proof/Proofs/Links.lean ====
section
/-! PROOF. What the traffic of messages leaves of the links, and a link that goes down. -/

namespace Sys2Proof.Proofs
open Sys2Proof.Machine

variable {s : State}

/-! ### Messages on their way -/

/-- A link without the credits that it has to return and the messages that wait for it. -/
def linkCore (x : Link) : Link := { x with crRet := [], outQ := [] }

/-- The links differ only in credits to return and messages that wait. -/
structure LinksKept (s t : State) : Prop where
  core : ∀ k, linkCore (t.link k) = linkCore (s.link k)

theorem LinksKept.refl (s : State) : LinksKept s s := ⟨fun _ => rfl⟩

theorem LinksKept.of_eq {s t : State} (h : t.fab.links = s.fab.links) : LinksKept s t := ⟨fun k => by
  rw [State.link, h]
  rfl⟩

theorem LinksKept.trans {s t u : State} (a : LinksKept s t) (b : LinksKept t u) : LinksKept s u := ⟨fun k => (b.core k).trans (a.core k)⟩

theorem LinksKept.ite {p : Prop} [Decidable p] {s t u : State} (a : LinksKept s t) (b : LinksKept s u) :
    LinksKept s (if p then t else u) := by
  split
  · exact a
  · exact b

theorem modLink_linksKept {l : Nat} {f : Link → Link} (same : ∀ x, linkCore (f x) = linkCore x) : LinksKept s (s.modLink l f) := by
  refine ⟨fun k => ?_⟩
  by_cases at_ : k = l
  · rw [at_]
    exact (congrArg linkCore (link_setLink_self (s := s) l _)).trans (same _)
  · exact congrArg linkCore (link_setLink_ne (s := s) _ at_)

theorem returnCredit_linksKept (l : Nat) (m : Msg) (hop : Nat) (s : State) : LinksKept s (returnCredit l m hop s) :=
  .ite (.refl s) (modLink_linksKept fun _ => rfl)

theorem handOver_linksKept (l : Nat) (m : Msg) (s : State) : LinksKept s (handOver l m s) := by
  have paid : LinksKept s (if 1 ≤ m.hop then returnCredit l m m.hop s else s) := .ite (returnCredit_linksKept ..) (.refl s)
  unfold handOver
  dsimp only
  exact paid.trans (.ite (.of_eq rfl) (.of_eq rfl))

theorem drainReorder_linksKept (src cls k : Nat) (s : State) : LinksKept s (drainReorder src cls k s) := by
  induction k generalizing s with
  | zero => exact .refl s
  | succ k ih =>
    unfold drainReorder
    split
    · exact .refl s
    · refine LinksKept.trans ?_ (ih _)
      refine LinksKept.trans ?_ (handOver_linksKept ..)
      exact .of_eq rfl

theorem deliverMsg_linksKept (l : Nat) (m : Msg) (s : State) : LinksKept s (deliverMsg l m s) := by
  have early : LinksKept s (storeEarly l m s) := by
    have paid (p : Prop) [Decidable p] : LinksKept s (if p then returnCredit l m m.hop s else s) := .ite (returnCredit_linksKept ..) (.refl s)
    unfold storeEarly
    exact (paid _).trans (.of_eq rfl)
  unfold deliverMsg
  dsimp only
  refine .ite ?_ (.ite ?_ (.ite (returnCredit_linksKept ..) (.refl s)))
  · exact ((handOver_linksKept l m s).trans (drainReorder_linksKept ..)).trans (.of_eq rfl)
  · exact early.trans (.of_eq rfl)

theorem routeMsg_linksKept (l : Nat) (m : Msg) (s : State) : LinksKept s (routeMsg l m s) := by
  unfold routeMsg
  refine .ite (deliverMsg_linksKept ..) (.ite (.of_eq rfl) ?_)
  split
  · exact .of_eq rfl
  · exact modLink_linksKept fun _ => rfl

/-! ### A link goes down -/

/-- The messages that a link held are routed again, or are lost. -/
def rerouted (l : Nat) (s : State) (e : Nat × Msg) : State :=
  let m : Msg := { e.2 with hop := e.2.hop - 1 }
  let gone := decide (m.cls = 0) && decide (m.dst = l)
  let lost := decide (1 ≤ m.hop) && (gone || (routeLink s m.dst m.src m.cls).isNone)
  let s := if lost then returnCredit e.1 m m.hop s else s
  if gone then s.count (.module_ .fabNoRoute) else routeMsg e.1 m s

theorem rerouted_linksKept (l : Nat) (s : State) (e : Nat × Msg) : LinksKept s (rerouted l s e) := by
  have paid (p : Prop) [Decidable p] (m : Msg) : LinksKept s (if p then returnCredit e.1 m m.hop s else s) :=
    .ite (returnCredit_linksKept ..) (.refl s)
  unfold rerouted
  exact (paid _ _).trans (.ite (.of_eq rfl) (routeMsg_linksKept ..))

theorem linkDown_eq (l st : Nat) (s : State) : linkDown l st s = (s.link l).heldMsgs.foldl (rerouted (s.link l).peer)
    (match (s.link l).rekeyCtx with
      | some c => finish c .aborted [] 0 0 (s.setLink l ((s.link l).cleared st))
      | none => s.setLink l ((s.link l).cleared st)) := rfl

/-- A link that holds nothing and that no command rekeys goes down alone. -/
theorem linkDown_idle {l : Nat} (st : Nat) (empty : (s.link l).heldMsgs = []) (none_ : (s.link l).rekeyCtx = none) :
    linkDown l st s = s.setLink l ((s.link l).cleared st) := by
  rw [linkDown_eq, empty, none_]
  rfl

theorem linkDown_linksKept (l st : Nat) (s : State) : LinksKept (s.setLink l ((s.link l).cleared st)) (linkDown l st s) := by
  have routed : ∀ (q : List (Nat × Msg)) (t : State), LinksKept t (q.foldl (rerouted (s.link l).peer) t) := by
    intro q
    induction q with
    | nil => exact LinksKept.refl
    | cons e q ih => exact fun t => (rerouted_linksKept _ t e).trans (ih _)
  rw [linkDown_eq]
  refine LinksKept.trans ?_ (routed ..)
  split
  · exact .of_eq (congrArg Fab.links (finish_kept ..).fab)
  · exact .refl _

theorem linkDown_state_self (l st : Nat) (s : State) : ((linkDown l st s).link l).state = st := by
  have own := (linkDown_linksKept l st s).core l
  rw [link_setLink_self] at own
  exact (congrArg Link.state own :)

theorem linkDown_state_ne {l k : Nat} (st : Nat) (ne : k ≠ l) : ((linkDown l st s).link k).state = (s.link k).state := by
  have own := (linkDown_linksKept l st s).core k
  rw [link_setLink_ne _ ne] at own
  exact (congrArg Link.state own :)

theorem linkDown_sys (l st : Nat) (s : State) : (linkDown l st s).sys = s.sys := by
  obtain ⟨_, _, _, _, _, _, _, _, _, h⟩ := linkDown_frame l st s
  rw [h]

/-- After the links without light have gone down, each link is down or lit. -/
theorem darkLinks_dark {l : Nat} (low : l < 32) (s : State) : ((darkLinks s).link l).state = 0 ∨ (darkLinks s).linkLit l = true := by
  have step (t : State) (k : Nat) : ∀ u, u = (if (t.link k).state ≠ 0 ∧ !t.linkLit k then
      linkDown k 0 (t.modLink k (fun x => { x with wanted := false })) else t) →
      u.sys = t.sys ∧ ((u.link k).state = 0 ∨ u.linkLit k = true) ∧ ∀ j, j ≠ k → (u.link j).state = (t.link j).state := by
    intro u is
    split at is
    · rw [is]
      refine ⟨linkDown_sys .., .inl (linkDown_state_self ..), fun j ne => (linkDown_state_ne 0 ne).trans ?_⟩
      exact congrArg Link.state (link_setLink_ne (s := t) _ ne)
    next lit =>
      rw [is]
      refine ⟨rfl, ?_, fun _ _ => rfl⟩
      by_cases down : (t.link k).state = 0
      · exact .inl down
      · exact .inr (by simpa [down] using lit)
  have fold : ∀ (k : List Nat) (t : State), l ∈ k ∨ ((t.link l).state = 0 ∨ t.linkLit l = true) →
      let u := k.foldl (fun s l => if (s.link l).state ≠ 0 ∧ !s.linkLit l then
        linkDown l 0 (s.modLink l (fun x => { x with wanted := false })) else s) t
      (u.link l).state = 0 ∨ u.linkLit l = true := by
    intro k
    induction k with
    | nil => exact fun t h => h.resolve_left (by simp)
    | cons j k ih =>
      intro t h
      obtain ⟨sys, own, others⟩ := step t j _ rfl
      refine ih _ ?_
      by_cases same : l = j
      · exact .inr (same ▸ own)
      · refine h.imp (fun mem => (List.mem_cons.mp mem).resolve_left same) (Or.imp (others l same).trans fun lit => ?_)
        have lasers : ∀ {a b : State}, a.sys = b.sys → a.linkLit l = b.linkLit l := by
          intro a b e
          simp only [State.linkLit, State.laserUp, State.laser, e]
        rw [lasers sys]
        exact lit
  exact fold _ s (.inl (List.mem_range.mpr low))

theorem darkLinks_sys (s : State) : (darkLinks s).sys = s.sys := by
  obtain ⟨_, _, _, _, _, _, _, _, _, h⟩ := darkLinks_frame s
  rw [h]

end Sys2Proof.Proofs
end

