-- ==== Sys2Proof/Proofs/Loops.lean ====
section
/-! PROOF. Loops, lasers, PPS and the HBM arbiters (O54). -/

namespace Sys2Proof.Proofs
open Sys2Proof.Machine

variable {s : State}

/-! ### Clocks and loops -/

theorem exec_pllLossOfLock (s : State) : exec .pllLossOfLock s = .next (fatalStop s) := rfl
theorem exec_eqSave (s : State) : exec .eqSave s = .next (eqSave s) := rfl
theorem exec_voltageLoopStep (r : Nat) (up : Bool) (s : State) : exec (.voltageLoopStep r up) s = .next (voltageStep r up s) := rfl
theorem exec_frequencyPeriod (p tj : Nat) (low : Bool) (s : State) :
    exec (.frequencyPeriod p tj low) s = .next (frequencyPeriod p tj low s) := rfl
theorem exec_cartridgeLatchOpen (n : Nat) (s : State) : exec (.cartridgeLatchOpen n) s = .next (darkLinks (s.setLaser n {})) := rfl
theorem exec_cartridgeLatchClose (n : Nat) (s : State) : exec (.cartridgeLatchClose n) s =
    .next (if (s.laser n).present then s else repairLanes n (s.setLaser n { present := true, fresh := true })) := rfl
theorem exec_laserLocked (n : Nat) (s : State) : exec (.laserLocked n) s = .next (
    if (s.laser n).present && (s.laser n).on && !(s.laser n).fault then s.setLaser n { s.laser n with locked := true } else s) := rfl
theorem exec_laserFault (n : Nat) (s : State) : exec (.laserFault n) s = .next (
    if (s.laser n).present && (s.laser n).on then darkLinks (s.setLaser n { s.laser n with locked := false, fault := true }) else s) := rfl
theorem exec_ppsInEdge (s : State) : exec .ppsInEdge s = .next (ppsIn s) := rfl
theorem exec_ppsOutPulse (s : State) : exec .ppsOutPulse s = .next (ppsPulse s) := rfl
theorem exec_hbmTokenRefill (s : State) : exec .hbmTokenRefill s = .next (tokenRefill s) := rfl
theorem exec_hbmGrant (k : Nat) (l : List HbmReq) (s : State) : exec (.hbmGrant k l) s = .next (hbmGrant k l s) := rfl

theorem fatalStop_up (up : s.up = true) : fatalStop s = linksOff (takeStop causeFatal 0 none none (fun _ => false) s) := if_pos up

/-- A cause that asserts in another cycle than that of a stop changes nothing. -/
theorem fatalStop_later (down : s.sys.mode ≠ .running) (other : ∀ st, s.obs.stop = some st → st.pk ≠ s.clk.pk - s.clk.startPk + 12) :
    fatalStop s = s := by
  have off : s.up = false := by simpa [State.up] using down
  have joins : joinStop causeFatal s = s := by
    unfold joinStop
    split
    next st stop => exact if_neg (other st stop)
    · rfl
  unfold fatalStop
  rw [off, if_neg Bool.false_ne_true, joins]
  exact if_pos rfl

/-- A FATAL event of a running module. -/
theorem fatalStop_halts (running : s.sys.mode = .running) : (fatalStop s).sys.mode = .fatal ∧ (fatalStop s).sys.stopCause = 2 ∧
    (∀ l, l < 32 → ((fatalStop s).link l).state = 0) ∧ (fatalStop s).flow = s.flow := by
  have halts := takeStop_halts causeFatal 0 none none (fun _ => false) s
  obtain ⟨f, off⟩ := linksOff_fab (takeStop causeFatal 0 none none (fun _ => false) s)
  rw [fatalStop_up (up_of_running running)]
  refine ⟨?_, ?_, fun l low => link_linksOff low, ?_⟩
  · rw [off, halts.sys]
  · rw [off, halts.sys]
    rfl
  · rw [off, halts.flow]

theorem clamped {x lo hi : Nat} (order : lo ≤ hi) :
    lo ≤ (if x < lo then lo else if hi < x then hi else x) ∧ (if x < lo then lo else if hi < x then hi else x) ≤ hi := by
  split
  · exact ⟨Nat.le_refl lo, order⟩
  split
  · exact ⟨order, Nat.le_refl hi⟩
  · omega

theorem clamped_within {x lo hi : Nat} (low : lo ≤ x) (high : x ≤ hi) : (if x < lo then lo else if hi < x then hi else x) = x := by
  rw [if_neg (by omega), if_neg (by omega)]

section
variable {p tj : Nat} {low : Bool}

theorem freqPeriod_forced (forced : (tclkCtrl s).testBit 16 = true) : freqPeriod s p tj low = (s.clk.target, s.clk.freqHold) := if_pos forced

/-- The target divider stays within the bounds of TCLK_CTRL. -/
theorem freqPeriod_within (free : (tclkCtrl s).testBit 16 = false) (order : bitsOf (tclkCtrl s) 4 0 ≤ bitsOf (tclkCtrl s) 12 8) :
    bitsOf (tclkCtrl s) 4 0 ≤ (freqPeriod s p tj low).1 ∧ (freqPeriod s p tj low).1 ≤ bitsOf (tclkCtrl s) 12 8 := by
  unfold freqPeriod
  dsimp only
  rw [free, if_neg Bool.false_ne_true]
  split
  · exact clamped order
  split
  · split
    · exact clamped order
    · exact clamped order
  · exact clamped order

/-- A limit or a low margin slows the tiles by one step. -/
theorem freqPeriod_slows (free : (tclkCtrl s).testBit 16 = false) (limit : s.fval .pwrLimit < p ∨ s.fval .tjLimit < tj ∨ low = true)
    (above : bitsOf (tclkCtrl s) 4 0 ≤ s.clk.target) (room : s.clk.target < bitsOf (tclkCtrl s) 12 8) :
    freqPeriod s p tj low = (s.clk.target + 1, 0) := by
  unfold freqPeriod
  dsimp only
  rw [free, if_neg Bool.false_ne_true, if_pos limit, Nat.min_eq_left (by omega), clamped_within (by omega) (by omega)]

/-- After ten quiet periods the tiles are a step faster. -/
theorem freqPeriod_speeds (free : (tclkCtrl s).testBit 16 = false) (power : p + 25 < s.fval .pwrLimit) (cool : tj + 5 < s.fval .tjLimit)
    (margin : low = false) (held : 9 ≤ s.clk.freqHold) (above : bitsOf (tclkCtrl s) 4 0 < s.clk.target)
    (within : s.clk.target ≤ bitsOf (tclkCtrl s) 12 8) : freqPeriod s p tj low = (s.clk.target - 1, 0) := by
  have quiet : ¬ (s.fval .pwrLimit < p ∨ s.fval .tjLimit < tj ∨ low = true) := by
    rw [margin]
    simp only [Bool.false_eq_true, or_false]
    omega
  unfold freqPeriod
  dsimp only
  rw [free, if_neg Bool.false_ne_true, if_neg quiet, if_pos ⟨power, cool⟩, if_pos held, Nat.max_eq_left (by omega),
    clamped_within (by omega) (by omega)]

end

theorem frequencyPeriod_ends {p tj : Nat} {low : Bool} (running : s.sys.mode = .running) (late : (s.clk.periods + 1) * 160000 ≤ s.clk.pk) :
    frequencyPeriod p tj low s = { s with
      clk := { s.clk with target := (freqPeriod s p tj low).1, freqHold := (freqPeriod s p tj low).2, periods := s.clk.periods + 1 }
      sys := { s.sys with i3cPin := h16 p } } := by
  rw [frequencyPeriod, up_of_running running, decide_eq_true late]
  rfl

/-! ### Rails -/

theorem voltageStep_frozen {r : Nat} {up : Bool} (frozen : mayStep s r = false) : voltageStep r up s = s := by
  unfold voltageStep
  dsimp only
  rw [frozen]
  rfl

theorem voltageStep_up {r : Nat} (may : mayStep s r = true) : voltageStep r true s =
    if nth 0 s.clk.railMv r + 5 ≤ railHigh then moveRail r (nth 0 s.clk.railMv r + 5) s else railAtTop r s := by
  unfold voltageStep
  dsimp only
  rw [may]
  rfl

theorem voltageStep_down {r : Nat} (may : mayStep s r = true) : voltageStep r false s =
    if railLow r + 5 ≤ nth 0 s.clk.railMv r then moveRail r (nth 0 s.clk.railMv r - 5) s else s := by
  unfold voltageStep
  dsimp only
  rw [may]
  rfl

theorem railAtTop_counts (r : Nat) (s : State) : ∃ l o, railAtTop r s = { s with clk := { s.clk with railTop := l }, obs := o } := by
  unfold railAtTop
  split
  · exact ⟨_, _, rfl⟩
  · split
    · exact ⟨_, _, rfl⟩
    · exact ⟨s.clk.railTop, s.obs, rfl⟩

theorem moveRail_moves {r mv : Nat} (low : r < s.clk.railMv.length) : nth 0 (moveRail r mv s).clk.railMv r = mv ∧
    ∀ k, k ≠ r → nth 0 (moveRail r mv s).clk.railMv k = nth 0 s.clk.railMv k :=
  ⟨nth_setNth_self low, fun _ ne => nth_setNth_ne ne⟩

/-! ### PPS -/

/-- An edge comes too soon after the last accepted one. -/
def ppsEarly (s : State) : Bool := match s.clk.ppsLast with | some t => decide (s.clk.pk < t + 1440000000) | none => false

theorem ppsIn_eq (s : State) : ppsIn s = if !s.sys.mode.hasHost then s
    else if ppsEarly s then s.count (.module_ .ppsGlitch)
    else if servoOn (s.setClk { s.clk with ppsEdge := s.now, ppsLast := some s.clk.pk }) then
      ppsServo (s.setClk { s.clk with ppsEdge := s.now, ppsLast := some s.clk.pk })
    else s.setClk { s.clk with ppsEdge := s.now, ppsLast := some s.clk.pk } := rfl

theorem ppsIn_glitch (host : s.sys.mode.hasHost = true) (early : ppsEarly s = true) : ppsIn s = s.count (.module_ .ppsGlitch) := by
  rw [ppsIn_eq, host, early]
  rfl

theorem ppsIn_edge (host : s.sys.mode.hasHost = true) (due : ppsEarly s = false) : ppsIn s =
    if servoOn s then ppsServo (s.setClk { s.clk with ppsEdge := s.now, ppsLast := some s.clk.pk })
    else s.setClk { s.clk with ppsEdge := s.now, ppsLast := some s.clk.pk } := by
  rw [ppsIn_eq, host, due]
  rfl

theorem ppsServo_clk (s : State) : ∃ c, ppsServo s = { s with clk := c } ∧ c.slew = 0 ∧ c.ppsEdge = s.clk.ppsEdge ∧ c.ppsLast = s.clk.ppsLast := by
  unfold ppsServo
  dsimp only
  split
  · exact ⟨_, rfl, rfl, rfl, rfl⟩
  · exact ⟨_, rfl, rfl, rfl, rfl⟩

/-! ### The arbiters of the HBM stacks -/

theorem arbOf_setArb_self (k : Nat) (a : Arb) : (s.setArb k a).arbOf k = a := smGet_smSet_self ..
theorem arbOf_setArb_ne {k j : Nat} (a : Arb) (h : j ≠ k) : (s.setArb k a).arbOf j = s.arbOf j := smGet_smSet_ne _ _ _ h

/-- A stack whose refill is due. -/
abbrev refillDue (s : State) (k : Nat) : Prop := ((s.arbOf k).refills + 1) * 1600 ≤ s.clk.pk

/-- What a stack's arbiter holds after its refill. -/
def refilled (s : State) (a : Arb) : Arb :=
  { refillArb s a with refills := a.refills + 1, prior := some (s.clk.pk / 2, a.floor, a.tokens) }

theorem smGet_foldl_range {f : Nat → Nat} {p n : Nat} (low : p < n) : smGet 0 ((List.range n).foldl (fun m p => smSet m p (f p)) []) p = f p := by
  induction n with
  | zero => omega
  | succ n ih =>
    rw [List.range_succ, List.foldl_append, List.foldl_cons, List.foldl_nil]
    by_cases at_ : p = n
    · rw [at_, smGet_smSet_self]
    · rw [smGet_smSet_ne _ _ _ at_, ih (by omega)]

theorem refilled_tokens {a : Arb} {p : Nat} (low : p < 64) : smGet 0 (refilled s a).tokens p =
    min (smGet 0 a.tokens p + s.fval .hbmTbRate p * 1000 / 6) (bucketDepth s p) := by
  unfold refilled refillArb
  dsimp only
  exact smGet_foldl_range (f := fun p => min (smGet 0 a.tokens p + s.fval .hbmTbRate p * 1000 / 6) (bucketDepth s p)) low

/-- A refill of the stacks that are due: each of them once, and the others not. -/
theorem tokenRefill_refills (running : s.sys.mode = .running) : ∃ m, tokenRefill s = { s with arb := m } ∧
    (∀ k, k < 6 → refillDue s k → smGet {} m k = refilled s (s.arbOf k)) ∧ (∀ k, ¬ refillDue s k → smGet {} m k = s.arbOf k) := by
  have up := up_of_running running
  have fold : ∀ n : Nat, ∃ m, (List.range n).foldl (fun s k =>
      if s.up && decide (((s.arbOf k).refills + 1) * 1600 ≤ s.clk.pk) then refillStack s k else s) s = { s with arb := m } ∧
      (∀ k, k < n → refillDue s k → smGet {} m k = refilled s (s.arbOf k)) ∧
      (∀ k, ¬ (k < n ∧ refillDue s k) → smGet {} m k = s.arbOf k) := by
    intro n
    induction n with
    | zero => exact ⟨s.arb, rfl, fun _ h => absurd h (by omega), fun _ _ => rfl⟩
    | succ n ih =>
      obtain ⟨m, before, done, rest⟩ := ih
      rw [List.range_succ, List.foldl_append, before, List.foldl_cons, List.foldl_nil]
      have here : State.arbOf { s with arb := m } n = s.arbOf n := rest n (by omega)
      have on : State.up { s with arb := m } = true := up
      rw [here, on, Bool.true_and]
      by_cases due : refillDue s n
      · refine ⟨smSet m n (refilled s (s.arbOf n)), ?_, fun k low h => ?_, fun k h => ?_⟩
        · rw [if_pos (decide_eq_true due), refillStack]
          dsimp only
          rw [here]
          rfl
        · by_cases at_ : k = n
          · rw [at_, smGet_smSet_self]
          · rw [smGet_smSet_ne _ _ _ at_]
            exact done k (by omega) h
        · have ne : k ≠ n := fun at_ => h ⟨by omega, at_ ▸ due⟩
          rw [smGet_smSet_ne _ _ _ ne]
          exact rest k (fun low => h ⟨by omega, low.2⟩)
      · refine ⟨m, if_neg (by simpa [refillDue] using due), fun k low h => ?_, fun k h => ?_⟩
        · have ne : k ≠ n := fun at_ => due (at_ ▸ h)
          exact done k (by omega) h
        · exact rest k (fun low => h ⟨by omega, low.2⟩)
  obtain ⟨m, same, done, rest⟩ := fold 6
  exact ⟨m, same, done, fun k h => rest k (fun low => h low.2)⟩

theorem hbmGrant_one {k : Nat} {q : HbmReq} (running : s.sys.mode = .running) (noPrior : (s.arbOf k).prior = none)
    (empty : (s.arbOf k).waiting = []) : hbmGrant k [q] s =
      let b := grantOne s { s.arbOf k with waiting := [q] }
      floorBytes k b.granted ((starved s b).foldl (fun s p => s.count (.ev p .hbmStarved)) (s.setArb k b)) := by
  unfold hbmGrant
  rw [up_of_running running]
  dsimp only
  rw [empty, List.nil_append, grantNow, noPrior]
  rfl

theorem starved_none {a : Arb} (empty : a.waiting = []) : starved s a = [] := by
  unfold starved
  rw [empty]
  simp

/-- The floor's only request is granted while it has credit. -/
theorem grantOne_floor {a : Arb} {q : HbmReq} (floor : q.part = none) (credit : 0 < a.floor) : grantOne s { a with waiting := [q] } =
    { a with waiting := [], floor := a.floor - q.bytes, granted := some q } := by
  have oldest : oldestReq [q] none = some q := by simp [oldestReq, floor]
  unfold grantOne
  dsimp only
  rw [oldest, decide_eq_true credit]
  simp [Arb.serve, delFirst]

theorem mem_robinFrom {p a : Nat} (low : p < 64) : p ∈ robinFrom a := by
  unfold robinFrom
  refine List.mem_map.mpr ⟨(p + 64 - (1 + a % 64)) % 64, List.mem_range.mpr (by omega), ?_⟩
  omega

/-- The round robin takes a partition whose oldest request a test takes. -/
def robinTest (l : List HbmReq) (ok : Nat → HbmReq → Bool) (p : Nat) : Bool :=
  match oldestReq l (some p) with | some q => ok p q | none => false

theorem robinPick_eq (l : List HbmReq) (after : Nat) (ok : Nat → HbmReq → Bool) : robinPick l after ok =
    match (robinFrom after).find? (robinTest l ok) with
    | some p => (oldestReq l (some p)).map (fun q => (p, q))
    | none => none := rfl

/-- The only request, of a partition whose tokens cover it, is found wherever the round robin stands. -/
theorem robinPick_only {q : HbmReq} {p after : Nat} {ok : Nat → HbmReq → Bool} (part : q.part = some p) (low : p < 64) (takes : ok p q = true) :
    robinPick [q] after ok = some (p, q) := by
  have own : oldestReq [q] (some p) = some q := by simp [oldestReq, part]
  have other {j : Nat} (ne : j ≠ p) : oldestReq [q] (some j) = none := by simp [oldestReq, part, Ne.symm ne]
  have test : robinTest [q] ok p = true := by
    rw [robinTest, own]
    exact takes
  have found : (robinFrom after).find? (robinTest [q] ok) = some p := by
    obtain ⟨j, at_⟩ := Option.isSome_iff_exists.mp (List.find?_isSome.mpr ⟨p, mem_robinFrom (a := after) low, test⟩)
    have picked := List.find?_some at_
    by_cases same : j = p
    · rw [at_, same]
    · rw [robinTest, other same] at picked
      exact absurd picked Bool.false_ne_true
  rw [robinPick_eq, found]
  dsimp only
  rw [own]
  rfl

theorem grantOne_partition {a : Arb} {q : HbmReq} {p : Nat} (part : q.part = some p) (low : p < 64) (covered : q.bytes ≤ smGet 0 a.tokens p) :
    grantOne s { a with waiting := [q] } =
      { a with waiting := [], tokens := smSet a.tokens p (smGet 0 a.tokens p - q.bytes), lastPart := p, granted := some q } := by
  have noFloor : oldestReq [q] none = none := by simp [oldestReq, part]
  unfold grantOne
  dsimp only
  rw [noFloor, robinPick_only part low (decide_eq_true covered)]
  simp [Arb.serve, delFirst]

theorem floorBytes_floor {k : Nat} {q : HbmReq} (floor : q.part = none) : ∃ w, w < 2 ∧ floorBytes k (some q) s =
    (State.count { s with free := s.free + 1 } (.mem k 2) q.bytes).count (.mem k w) q.bytes := by
  refine ⟨b2n (drawBool s).1, ?_, ?_⟩
  · cases (drawBool s).1 <;> decide
  · unfold floorBytes
    dsimp only
    rw [floor]
    rfl

theorem floorBytes_partition {k p : Nat} {q : HbmReq} (part : q.part = some p) : floorBytes k (some q) s = s := by
  unfold floorBytes
  dsimp only
  rw [part]
  rfl

/-- Settles O54. -/
theorem loopsLasersAndArbiters : Obligations.LoopsLasersAndArbiters := by
  unfold Obligations.LoopsLasersAndArbiters
  refine ⟨?clocks, ?voltage, ?frequency, ?lasers, ?pps, ?arbiters⟩
  case clocks =>
    intro s
    refine ⟨fun down other => ?_, fun running => ?_, fun running late => ?_, fun early => ?_⟩
    · rw [exec_pllLossOfLock, fatalStop_later down other]
    · exact ⟨_, exec_pllLossOfLock s, fatalStop_halts running⟩
    · rw [exec_eqSave, eqSave, up_of_running running, decide_eq_true late]
      rfl
    · rw [exec_eqSave, eqSave, decide_eq_false (by omega), Bool.and_false]
      rfl
  case voltage =>
    intro r up s low mv
    refine ⟨fun frozen => by rw [exec_voltageLoopStep, voltageStep_frozen frozen], fun may window => ?_, fun may down bottom => ?_,
      fun may rises top => ?_⟩
    · obtain ⟨rfl, room⟩ | ⟨rfl, room⟩ := window
      · have room' : nth 0 s.clk.railMv r + 5 ≤ railHigh := room
        exact ⟨moveRail r (mv + 5) s, by rw [exec_voltageLoopStep, voltageStep_up may, if_pos room'],
          (moveRail_moves low).1.trans (if_pos rfl).symm, (moveRail_moves low).2, rfl⟩
      · have room' : railLow r + 5 ≤ nth 0 s.clk.railMv r := room
        exact ⟨moveRail r (mv - 5) s, by rw [exec_voltageLoopStep, voltageStep_down may, if_pos room'],
          (moveRail_moves low).1.trans (if_neg Bool.false_ne_true).symm, (moveRail_moves low).2, rfl⟩
    · rw [exec_voltageLoopStep, down, voltageStep_down may, if_neg (by omega)]
    · obtain ⟨l, o, counts⟩ := railAtTop_counts r s
      have blocked : ¬ nth 0 s.clk.railMv r + 5 ≤ railHigh := Nat.not_le.mpr top
      refine ⟨railAtTop r s, by rw [exec_voltageLoopStep, rises, voltageStep_up may, if_neg blocked], ?_, ?_⟩
      · rw [counts]
      · rw [counts]
  case frequency =>
    intro p tj low s running plain k lo hi
    have ctrl : tclkCtrl s = k := by
      rw [tclkCtrl, plain]
    refine ⟨fun early => ?_, fun late => ?_⟩
    · rw [exec_frequencyPeriod, frequencyPeriod, decide_eq_false (by omega), Bool.and_false]
      rfl
    refine ⟨_, by rw [exec_frequencyPeriod, frequencyPeriod_ends running late], rfl, fun forced => ?_, fun free order => ?_,
      fun free limit above room => ?_, fun free power cool margin held above within => ?_, rfl⟩
    · rw [freqPeriod_forced (ctrl ▸ forced)]
      exact ⟨rfl, rfl⟩
    · have bounds := freqPeriod_within (s := s) (p := p) (tj := tj) (low := low) (ctrl ▸ free) (by rw [ctrl]; exact order)
      rw [ctrl] at bounds
      exact bounds
    · rw [freqPeriod_slows (ctrl ▸ free) limit (by rw [ctrl]; exact above) (by rw [ctrl]; exact room)]
      exact ⟨rfl, rfl⟩
    · rw [freqPeriod_speeds (ctrl ▸ free) power cool margin held (by rw [ctrl]; exact above) (by rw [ctrl]; exact within)]
      exact ⟨Nat.sub_add_cancel (by omega), rfl⟩
  case lasers =>
    intro n s
    refine ⟨?_, fun out => ?_, fun present on sound => ?_, fun off => ?_, fun present on => ?_⟩
    · refine ⟨_, exec_cartridgeLatchOpen n s, ?_, fun k ne => ?_, fun l low => darkLinks_dark low _⟩
      · rw [laser_darkLinks, laser_setLaser_self]
      · rw [laser_darkLinks, laser_setLaser_ne _ ne]
    · refine ⟨repairLanes n (s.setLaser n { present := true, fresh := true }),
        by rw [exec_cartridgeLatchClose, out, if_neg Bool.false_ne_true], laser_setLaser_self .., fun k ne => laser_setLaser_ne _ ne,
        fun p => ?_, rfl⟩
      unfold repairLanes
      rw [List.mem_append, List.mem_filter]
      simp only [Bool.and_eq_true, decide_eq_true_eq, Bool.not_eq_true', List.contains_eq_mem, decide_eq_false_iff_not]
      constructor
      · rintro (old | ⟨fault, mine, _⟩)
        · exact .inl old
        · exact .inr ⟨fault, mine⟩
      · rintro (old | ⟨fault, mine⟩)
        · exact .inl old
        · by_cases old : p ∈ s.intake.repaired
          · exact .inl old
          · exact .inr ⟨fault, mine, old⟩
    · exact ⟨_, by rw [exec_laserLocked, present, on, sound]; rfl, laser_setLaser_self .., fun k ne => laser_setLaser_ne _ ne, rfl⟩
    · rw [exec_laserLocked, exec_laserFault, off, Bool.and_false]
      exact ⟨rfl, rfl⟩
    · refine ⟨_, by rw [exec_laserFault, present, on]; rfl, ?_, fun l low => darkLinks_dark low _⟩
      rw [laser_darkLinks, laser_setLaser_self]
  case pps =>
    intro s host
    refine ⟨fun t0 last early => ?_, fun due => ?_, fun on second => ?_, fun off => ?_⟩
    · have glitch : ppsEarly s = true := by
        rw [ppsEarly, last]
        exact decide_eq_true early
      exact ⟨_, by rw [exec_ppsInEdge, ppsIn_glitch host glitch], cntAt_count_self .., rfl⟩
    · have edge : ppsEarly s = false := by
        unfold ppsEarly
        split
        next t last => exact decide_eq_false (Nat.not_lt.mpr (due t last))
        · rfl
      cases servo : servoOn s with
      | false => exact ⟨_, by rw [exec_ppsInEdge, ppsIn_edge host edge, servo, if_neg Bool.false_ne_true], rfl, rfl, fun _ => rfl,
          fun h => absurd h Bool.false_ne_true, rfl⟩
      | true =>
        obtain ⟨c, runs, slew, at_, last⟩ := ppsServo_clk (s.setClk { s.clk with ppsEdge := s.now, ppsLast := some s.clk.pk })
        exact ⟨_, by rw [exec_ppsInEdge, ppsIn_edge host edge, servo, if_pos rfl, runs], at_, last, fun h => absurd h.symm Bool.false_ne_true,
          fun _ => slew, rfl⟩
    · exact ⟨_, by rw [exec_ppsOutPulse, ppsPulse, host, on, second, Bool.and_self, Bool.and_self, if_pos rfl], rfl, rfl, rfl⟩
    · have no : (s.sys.mode.hasHost && (s.fval .ppsCtrl).testBit 1 && atSecond s) = false := by
        obtain h | h := off <;> simp [h]
      rw [exec_ppsOutPulse, ppsPulse, no]
      rfl
  case arbiters =>
    intro s running
    refine ⟨?_, fun k q noPrior empty => ⟨fun floor credit => ?_, fun p part low covered => ?_⟩⟩
    · obtain ⟨m, runs, done, rest⟩ := tokenRefill_refills running
      refine ⟨{ s with arb := m }, by rw [exec_hbmTokenRefill, runs], fun k low due => ?_, fun k early => rest k (Nat.not_le_of_lt early), rfl⟩
      have at_ : State.arbOf { s with arb := m } k = refilled s (s.arbOf k) := done k low due
      rw [at_]
      exact ⟨rfl, rfl, fun p low => refilled_tokens low⟩
    · have grants := hbmGrant_one (q := q) running noPrior empty
      rw [grantOne_floor floor credit] at grants
      dsimp only at grants
      rw [starved_none rfl, List.foldl_nil] at grants
      obtain ⟨w, kind, counted⟩ := floorBytes_floor (s := s.setArb k { s.arbOf k with
        waiting := []
        floor := (s.arbOf k).floor - q.bytes
        granted := some q }) (k := k) floor
      replace counted := grants.trans counted
      refine ⟨_, (exec_hbmGrant ..).trans (congrArg _ counted), ?_, fun j ne => ?_, fun low => ?_, rfl⟩
      · refine (arbOf_setArb_self (s := s) k { s.arbOf k with
          waiting := []
          floor := (s.arbOf k).floor - q.bytes
          granted := some q }).trans ?_
        rw [← empty]
      · exact arbOf_setArb_ne (s := s) _ ne
      · refine (cntAt_count_ne ?_).trans (cntAt_count_self ..)
        simp only [Ctr.key, ctrKey]
        omega
    · have grants := hbmGrant_one (q := q) running noPrior empty
      rw [grantOne_partition part low covered] at grants
      dsimp only at grants
      rw [starved_none rfl, List.foldl_nil, floorBytes_partition part] at grants
      have at_ := arbOf_setArb_self (s := s) k { s.arbOf k with
        waiting := []
        tokens := smSet (s.arbOf k).tokens p (smGet 0 (s.arbOf k).tokens p - q.bytes)
        lastPart := p
        granted := some q }
      refine ⟨_, (exec_hbmGrant ..).trans (congrArg _ grants), ?_⟩
      rw [at_]
      exact ⟨rfl, rfl, rfl, rfl, smGet_smSet_self .., fun j ne => smGet_smSet_ne _ _ _ ne, fun j ne => arbOf_setArb_ne _ ne, rfl⟩

end Sys2Proof.Proofs
end

