-- ==== Sys2Proof/Proofs/Joins.lean ====
section
/-! PROOF. Nodes that join and leave the fabric, and the time exchange (O46). -/

namespace Sys2Proof.Proofs
open Sys2Proof.Machine

variable {s : State}

/-! ### Many links at once -/

/-- The links of the list are updated, and nothing else. -/
structure OnLinks (l : List Nat) (g : Link → Link) (s t : State) : Prop where
  only : t = { s with fab := { s.fab with links := t.fab.links } }
  on : ∀ k ∈ l, t.link k = g (s.link k)
  off : ∀ k, k ∉ l → t.link k = s.link k

/-- A fold over links, none twice, whose step sets its link where a condition on that link holds. -/
theorem foldl_onLinks {F : State → Nat → State} {P : Link → Prop} {g : Link → Link}
    (each : ∀ s l, P (s.link l) → F s l = s.setLink l (g (s.link l))) {l : List Nat} (once : l.Nodup) (s : State)
    (all : ∀ k ∈ l, P (s.link k)) : OnLinks l g s (l.foldl F s) := by
  induction l generalizing s with
  | nil => exact ⟨rfl, by simp, fun _ _ => rfl⟩
  | cons j l ih =>
    obtain ⟨apart, once⟩ := List.nodup_cons.mp once
    have other {k : Nat} (ne : k ≠ j) : (F s j).link k = s.link k := by
      rw [each s j (all j (by simp)), link_setLink_ne _ ne]
    obtain ⟨only, on, off⟩ := ih once (F s j) fun k mem => by
      rw [other fun e => apart (e ▸ mem)]
      exact all k (by simp [mem])
    refine ⟨?_, fun k mem => ?_, fun k out => ?_⟩
    · rw [List.foldl_cons, only, each s j (all j (by simp))]
      rfl
    · by_cases own : k = j
      · rw [List.foldl_cons, own, off j apart, each s j (all j (by simp)), link_setLink_self]
      · rw [List.foldl_cons, on k ((List.mem_cons.mp mem).resolve_left own), other own]
    · obtain ⟨ne, out⟩ := not_or.mp (mt List.mem_cons.mpr out)
      rw [List.foldl_cons, off k out, other ne]

theorem mem_maskLinks {m : Word} {l : Nat} : l ∈ maskLinks m ↔ l < 32 ∧ m.getLsbD l = true := by
  simp [maskLinks]

theorem maskLinks_nodup (m : Word) : (maskLinks m).Nodup := List.nodup_range.filter _

theorem mem_linksUp {l : Nat} : l ∈ s.linksUp ↔ l < 32 ∧ s.linkUp l = true := by simp [State.linksUp]

theorem linksUp_nodup (s : State) : s.linksUp.Nodup := List.nodup_range.filter _

theorem linksUp_congr {t : State} (same : t.fab.links = s.fab.links) : t.linksUp = s.linksUp := by
  have up : t.linkUp = s.linkUp := funext fun l => congrArg (fun m : SMap Link => decide ((smGet {} m l).state = 3)) same
  rw [State.linksUp, up]
  rfl

theorem fabUp_of_running (h : s.sys.mode = .running) : s.fabUp = true := by simp [State.fabUp, State.up, h]

/-! ### Joining -/

/-- The links of a mask that are down. -/
def downLinks (mask : Word) (s : State) : List Nat :=
  (maskLinks mask).filter (fun l => decide ((s.link l).state = 0) || decide ((s.link l).state = 4))

theorem mem_downLinks {mask : Word} {l : Nat} :
    l ∈ downLinks mask s ↔ (l < 32 ∧ mask.getLsbD l = true) ∧ ((s.link l).state = 0 ∨ (s.link l).state = 4) := by
  simp [downLinks, mem_maskLinks]

/-- The link starts to train for a join. -/
def joining (x : Link) : Link := { x.cleared 1 with wanted := true }

theorem joinStart_eq (ctx : Option CmdCtx) (node : Nat) (mask : Word) (s : State) : joinStart ctx node mask s =
    let t := (downLinks mask s).foldl (fun s l => s.setLink l (joining (s.link l))) s
    joinGo (t.setFab { t.fab with join := some ⟨ctx, node, mask, t.now, if t.fab.joined then some 0 else none⟩ }) := rfl

theorem joinGo_alone (alone : s.fab.joined = false) : joinGo s = s := by
  unfold joinGo
  split
  · simp [alone]
  · rfl

theorem joinGo_none (none_ : s.fab.join = none) : joinGo s = s := by
  unfold joinGo
  rw [none_]

/-- A node that is not joined starts a join: the down links of the mask train, and the join waits. -/
theorem joinStart_starts (c : CmdCtx) (node : Nat) (mask : Word) (alone : s.fab.joined = false) :
    ∃ u, joinStart (some c) node mask s = u ∧ u.fab.join = some ⟨some c, node, mask, s.now, none⟩ ∧
      (∀ l ∈ downLinks mask s, u.link l = joining (s.link l)) ∧ (∀ l, l ∉ downLinks mask s → u.link l = s.link l) ∧
      u = { s with fab := { s.fab with links := u.fab.links, join := u.fab.join } } := by
  obtain ⟨only, on, off⟩ := foldl_onLinks (F := fun s l => s.setLink l (joining (s.link l))) (P := fun _ => True)
    (fun _ _ _ => rfl) ((maskLinks_nodup mask).filter (fun l => decide ((s.link l).state = 0) || decide ((s.link l).state = 4))) s
    (fun _ _ => trivial)
  rw [joinStart_eq]
  dsimp only
  generalize is : (downLinks mask s).foldl (fun s l => s.setLink l (joining (s.link l))) s = t
  unfold downLinks at is ⊢
  rw [is] at only on off
  have joined : t.fab.joined = false := by rw [only]; exact alone
  have now : t.now = s.now := by rw [only]; rfl
  refine ⟨_, joinGo_alone joined, ?_, on, off, ?_⟩
  · simp [State.setFab, joined, now]
  · exact congrArg (fun x : State => x.setFab { x.fab with join := some ⟨some c, node, mask, t.now, if t.fab.joined then some 0 else none⟩ }) only

theorem exec_fabricJoin (c : CmdCtx) (node : Nat) (mask : Word) (s : State) :
    exec (.fabricJoin c node mask) s = execFabricJoin c node mask s := rfl

theorem fabricJoin_runs {c : CmdCtx} {node : Nat} {mask : Word} (ready : Ready 0x500 s) (root : c.part = 0) (low : node < 2 ^ 14)
    (alone : s.fab.joined = false) (idle : s.fab.join = none) (stays : s.fab.leaving = none) :
    exec (.fabricJoin c node mask) s = .next (joinStart (some c) node mask (beginCmd c 0x500 s)) := by
  have fab := (beginCmd_kept c 0x500 s).fab
  have ok : firstFail [p0Only c, (decide (2 ^ 14 ≤ node) || ((beginCmd c 0x500 s).fab.joined &&
      decide (node ≠ (beginCmd c 0x500 s).fab.nodeId)), .badParam)] = none := by
    rw [firstFail_none]
    simp [p0Only, root, fab, alone, show node < 16384 from low]
  have free : ¬ (joinBusy (beginCmd c 0x500 s) = true ∨ (beginCmd c 0x500 s).fab.leaving.isSome = true) := by
    simp [joinBusy, fab, idle, stays]
  rw [exec_fabricJoin, execFabricJoin, runCmd_ready ready ok, if_neg free]

theorem fabricJoin_joins {c : CmdCtx} {node : Nat} {mask : Word} (ready : Ready 0x500 s) (root : c.part = 0) (low : node < 2 ^ 14)
    (alone : s.fab.joined = false) (idle : s.fab.join = none) (stays : s.fab.leaving = none) :
    ∃ u, exec (.fabricJoin c node mask) s = .next u ∧ u.fab.join = some ⟨some c, node, mask, s.now, none⟩ ∧
      (∀ l, l < 32 → mask.getLsbD l = true → (s.link l).state = 0 ∨ (s.link l).state = 4 →
        (u.link l).state = 1 ∧ (u.link l).wanted = true) ∧
      (∀ l, mask.getLsbD l = false ∨ 32 ≤ l ∨ ((s.link l).state ≠ 0 ∧ (s.link l).state ≠ 4) → u.link l = s.link l) ∧
      u = { beginCmd c 0x500 s with fab := { s.fab with links := u.fab.links, join := u.fab.join } } := by
  have fab := (beginCmd_kept c 0x500 s).fab
  have link (l : Nat) : (beginCmd c 0x500 s).link l = s.link l := by rw [State.link, fab]; rfl
  obtain ⟨u, is, join, on, off, only⟩ := joinStart_starts (s := beginCmd c 0x500 s) c node mask (by rw [fab]; exact alone)
  rw [fab] at only
  rw [beginCmd_now] at join
  refine ⟨u, (fabricJoin_runs ready root low alone idle stays).trans (congrArg _ is), join, fun l hl masked down => ?_,
    fun l out => ?_, only⟩
  · rw [on l (mem_downLinks.mpr ⟨⟨hl, masked⟩, by rwa [link]⟩)]
    exact ⟨rfl, rfl⟩
  · rw [off l, link]
    rw [mem_downLinks, link]
    rintro ⟨⟨hl, masked⟩, down⟩
    rcases out with off | high | up
    · exact absurd masked (by simp [off])
    · omega
    · omega

/-! ### The end of a join's time -/

/-- The links of a join that are not up. -/
def lateLinks (mask : Word) (s : State) : List Nat := (maskLinks mask).filter (fun l => !s.linkUp l)

theorem mem_lateLinks {mask : Word} {l : Nat} : l ∈ lateLinks mask s ↔ (l < 32 ∧ mask.getLsbD l = true) ∧ s.linkUp l = false := by
  simp [lateLinks, mem_maskLinks]

/-- A link that a join gives up. -/
def givenUp (ok : Bool) (x : Link) : Link := { x.cleared 0 with wanted := ok }

theorem exec_fabJoinTimeoutExpire (s : State) : exec .fabJoinTimeoutExpire s = .next (joinTimeout s) := rfl

theorem joinTimeout_early {j : JoinJob} (some_ : s.fab.join = some j) (early : s.now.toNat < j.since.toNat + s.fval .fabJoinTimeout * 1000000) :
    joinTimeout s = s := by
  simp [joinTimeout, some_, Nat.not_le.mpr early]

theorem joinTimeout_ends {j : JoinJob} {c : CmdCtx} (running : s.sys.mode = .running) (some_ : s.fab.join = some j) (ctx : j.ctx = some c)
    (due : j.since.toNat + s.fval .fabJoinTimeout * 1000000 ≤ s.now.toNat) : joinTimeout s =
    let t := (lateLinks j.mask s).foldl (fun t l => t.setLink l (givenUp (!s.linksUp.isEmpty) (t.link l))) s
    if !s.linksUp.isEmpty then joinDone j t else finish c .timeout [] 0 0 (t.setFab t.fab.alone) := by
  unfold joinTimeout
  rw [some_]
  simp only [fabUp_of_running running, ctx, due, Option.isSome_some, Bool.true_or, Bool.and_self, decide_true, if_true,
    Option.isNone_some, Bool.or_false]
  rfl

theorem lateLinks_givenUp (mask : Word) (ok : Bool) (s : State) : OnLinks (lateLinks mask s) (givenUp ok) s
    ((lateLinks mask s).foldl (fun t l => t.setLink l (givenUp ok (t.link l))) s) :=
  foldl_onLinks (P := fun _ => True) (fun _ _ _ => rfl) ((maskLinks_nodup mask).filter _) s fun _ _ => trivial

theorem joinTimeout_fails {j : JoinJob} {c : CmdCtx} (running : s.sys.mode = .running) (some_ : s.fab.join = some j) (ctx : j.ctx = some c)
    (due : j.since.toNat + s.fval .fabJoinTimeout * 1000000 ≤ s.now.toNat) (none_ : s.linksUp = []) :
    ∃ u, joinTimeout s = finish c .timeout [] 0 0 u ∧ u.fab.join = none ∧ u.fab.joined = false ∧ u.fab.nodeId = 0 ∧
      (∀ l, l < 32 → j.mask.getLsbD l = true → (u.link l).state = 0 ∧ (u.link l).wanted = false) ∧ u = { s with fab := u.fab } := by
  obtain ⟨only, on, off⟩ := lateLinks_givenUp j.mask false s
  have runs := joinTimeout_ends running some_ ctx due
  rw [none_] at runs
  simp only [List.isEmpty_nil, Bool.not_true, Bool.false_eq_true, if_false] at runs
  generalize (lateLinks j.mask s).foldl (fun t l => t.setLink l (givenUp false (t.link l))) s = t at *
  refine ⟨_, runs, rfl, rfl, rfl, fun l low masked => ?_, congrArg (fun x : State => { x with fab := t.fab.alone }) only⟩
  have late : l ∈ lateLinks j.mask s := by
    refine mem_lateLinks.mpr ⟨⟨low, masked⟩, Bool.not_eq_true _ ▸ fun up => ?_⟩
    have mem := mem_linksUp.mpr ⟨low, up⟩
    rw [none_] at mem
    simp at mem
  have same : (t.setFab t.fab.alone).link l = givenUp false (s.link l) := on l late
  rw [same]
  exact ⟨rfl, rfl⟩

/-- The join is over, and its node and mask are kept. -/
def joinOver (j : JoinJob) (s : State) : State :=
  { s.setFab { s.fab with join := none } with sys := { s.sys with lastJoin := some (j.node, j.mask) } }

theorem joinDone_command {j : JoinJob} {c : CmdCtx} (ctx : j.ctx = some c) : joinDone j s =
    finish c .ok (leBytes 4 ((joinOver j s).linksUp.foldl (fun a l => a + 2 ^ l) 0) ++ zeros 4 ++ leBytesI 8 (j.step.getD 0)) 0 0
      (joinOver j s) := by
  unfold joinDone
  dsimp only
  rw [ctx]
  rfl

theorem joinTimeout_done {j : JoinJob} {c : CmdCtx} (running : s.sys.mode = .running) (some_ : s.fab.join = some j) (ctx : j.ctx = some c)
    (due : j.since.toNat + s.fval .fabJoinTimeout * 1000000 ≤ s.now.toNat) (up : s.linksUp ≠ []) :
    ∃ u body, joinTimeout s = finish c .ok body 0 0 u ∧ u.fab.join = none ∧ u.sys.lastJoin = some (j.node, j.mask) ∧
      (∀ l, s.linkUp l = true → u.link l = s.link l) ∧
      (∀ l, l < 32 → j.mask.getLsbD l = true → s.linkUp l = false → (u.link l).state = 0) := by
  obtain ⟨only, on, off⟩ := lateLinks_givenUp j.mask true s
  have some_up : (!s.linksUp.isEmpty) = true := by simpa using up
  have runs := joinTimeout_ends running some_ ctx due
  rw [some_up] at runs
  simp only [if_true] at runs
  rw [joinDone_command ctx] at runs
  generalize (lateLinks j.mask s).foldl (fun t l => t.setLink l (givenUp true (t.link l))) s = t at *
  refine ⟨_, _, runs, rfl, rfl, fun l up => ?_, fun l low masked down => ?_⟩
  · exact off l fun mem => by simp [(mem_lateLinks.mp mem).2] at up
  · have same : (joinOver j t).link l = givenUp true (s.link l) := on l (mem_lateLinks.mpr ⟨⟨low, masked⟩, down⟩)
    rw [same]
    rfl

/-! ### Leaving -/

theorem exec_fabricLeave (c : CmdCtx) (s : State) : exec (.fabricLeave c) s = execFabricLeave c s := rfl

theorem fabricLeave_alone {c : CmdCtx} (ready : Ready 0x501 s) (root : c.part = 0) (alone : s.fab.joined = false) :
    exec (.fabricLeave c) s = .next (finish c .notReady [] 0 0 (beginCmd c 0x501 s)) := by
  have ok : firstFail [p0Only c] = none := by simp [firstFail_none, p0Only, root]
  rw [exec_fabricLeave, execFabricLeave, runCmd_ready ready ok, if_pos (by simp [(beginCmd_kept c 0x501 s).fab, alone])]

theorem fabricLeave_starts {c : CmdCtx} (ready : Ready 0x501 s) (root : c.part = 0) (joined : s.fab.joined = true)
    (idle : s.fab.join = none) (stays : s.fab.leaving = none) :
    exec (.fabricLeave c) s = .next (leaveStart c (beginCmd c 0x501 s)) := by
  have fab := (beginCmd_kept c 0x501 s).fab
  have ok : firstFail [p0Only c] = none := by simp [firstFail_none, p0Only, root]
  rw [exec_fabricLeave, execFabricLeave, runCmd_ready ready ok, if_neg (by simp [fab, joined]), if_neg (by simp [joinBusy, fab, idle, stays])]

/-- A link that is taken down for good. -/
def takenDown (x : Link) : Link := { x.cleared 0 with wanted := false }

theorem smSet_smSet {α : Type} (m : SMap α) (k : Nat) (v w : α) : smSet (smSet m k v) k w = smSet m k w := by
  induction m with
  | nil => simp [smSet]
  | cons e m ih =>
    obtain ⟨j, x⟩ := e
    rcases Nat.lt_trichotomy k j with before | same | after
    · simp [smSet, before]
    · simp [smSet, same]
    · simp [smSet, Nat.not_lt.mpr (Nat.le_of_lt after), Nat.ne_of_gt after, ih]

theorem setLink_setLink (l : Nat) (x y : Link) : (s.setLink l x).setLink l y = s.setLink l y :=
  congrArg (fun m => { s with fab := { s.fab with links := m } }) (smSet_smSet ..)

/-- A link that nothing waits on is taken down alone. -/
theorem linkDown_takenDown {l : Nat} (idle : (s.link l).heldMsgs = [] ∧ (s.link l).rekeyCtx = none) :
    (linkDown l 0 s).modLink l (fun x => { x with wanted := false }) = s.setLink l (takenDown (s.link l)) := by
  rw [linkDown_idle 0 idle.1 idle.2, State.modLink, link_setLink_self, setLink_setLink]
  rfl

theorem setLink_takenDown {l : Nat} (idle : (s.link l).heldMsgs = [] ∧ (s.link l).rekeyCtx = none) :
    linkDown l 0 (s.modLink l (fun x => { x with wanted := false })) = s.setLink l (takenDown (s.link l)) := by
  have own : (s.modLink l (fun x => { x with wanted := false })).link l = { s.link l with wanted := false } := link_setLink_self ..
  rw [linkDown_idle 0 (by rw [own]; exact idle.1) (by rw [own]; exact idle.2), own, State.modLink, setLink_setLink]
  rfl

theorem recallAll_none (leases : s.flow.leases = []) (held : s.flow.held = []) : recallAll s = s := by
  have same : { s with flow := { s.flow with held := [] } } = s :=
    congrArg (fun h => { s with flow := { s.flow with held := h } }) held.symm
  have first : (s.flow.leases.map (·.index)).foldl (fun s i => recallLease i s) s = s := by
    rw [leases]
    rfl
  unfold recallAll
  rw [first]
  dsimp only
  rw [held]
  exact same

theorem leaveGo_ends {c : CmdCtx} (leaving : s.fab.leaving = some (c, false)) (recalled : recallAll s = s) (may : mayLeave s = true)
    (none_ : s.linksUp = []) : leaveGo s = leaveEnd c (s.setFab { s.fab with leaving := some (c, true) }) := by
  have up : (s.setFab { s.fab with leaving := some (c, true) }).linksUp = [] := (linksUp_congr rfl).trans none_
  unfold leaveGo
  rw [leaving]
  simp only [Bool.false_eq_true, if_false, recalled, may, Bool.not_false, Bool.and_self, if_true]
  rw [none_, List.foldl_nil]
  refine if_pos ?_
  rw [up]
  rfl

/-- With no lease, no collective and no link up, a node leaves at once. -/
theorem leaveStart_ends {c : CmdCtx} (leases : s.flow.leases = []) (held : s.flow.held = []) (colls : s.tiles.colls = [])
    (none_ : s.linksUp = []) : leaveStart c s =
      leaveEnd c (s.setFab { s.fab with leaving := some (c, true), join := none }) :=
  leaveGo_ends (s := s.setFab { s.fab with leaving := some (c, false), join := none }) rfl (recallAll_none leases held)
    (by simp [mayLeave, State.setFab, leases, held, colls]) ((linksUp_congr rfl).trans none_)

theorem leaveEnd_ends {c : CmdCtx} (idle : ∀ l < 32, (s.link l).heldMsgs = [] ∧ (s.link l).rekeyCtx = none) :
    ∃ u, leaveEnd c s = finish c .ok (leBytes 8 s.now.toNat) 0 0 u ∧ u.fab.joined = false ∧ u.fab.nodeId = 0 ∧
      (∀ l, l < 32 → (u.link l).state = 0) ∧ u = { s with fab := u.fab } := by
  obtain ⟨only, on, off⟩ := foldl_onLinks (P := fun x => x.heldMsgs = [] ∧ x.rekeyCtx = none) (g := takenDown)
    (F := fun s l => (linkDown l 0 s).modLink l (fun x => { x with wanted := false })) (fun _ _ h => linkDown_takenDown h)
    List.nodup_range s fun l mem => idle l (List.mem_range.mp mem)
  unfold leaveEnd
  dsimp only
  generalize (List.range 32).foldl (fun s l => (linkDown l 0 s).modLink l (fun x => { x with wanted := false })) s = t at *
  have now : (t.setFab t.fab.alone).now = s.now := by rw [only]; rfl
  rw [now]
  refine ⟨_, rfl, rfl, rfl, fun l low => ?_, congrArg (fun x : State => { x with fab := t.fab.alone }) only⟩
  have same : (t.setFab t.fab.alone).link l = takenDown (s.link l) := on l (List.mem_range.mpr low)
  rw [same]
  rfl

theorem fabricLeave_leaves {c : CmdCtx} (ready : Ready 0x501 s) (root : c.part = 0) (joined : s.fab.joined = true)
    (idle : s.fab.join = none) (stays : s.fab.leaving = none) (leases : s.flow.leases = []) (held : s.flow.held = [])
    (colls : s.tiles.colls = []) (none_ : s.linksUp = []) (quiet : ∀ l, l < 32 → (s.link l).heldMsgs = [] ∧ (s.link l).rekeyCtx = none) :
    ∃ u, exec (.fabricLeave c) s = .next (finish c .ok (leBytes 8 s.now.toNat) 0 0 u) ∧
        u.fab.joined = false ∧ u.fab.nodeId = 0 ∧ (∀ l, l < 32 → (u.link l).state = 0) ∧
        u = { beginCmd c 0x501 s with fab := u.fab } := by
  have kept := beginCmd_kept c 0x501 s
  have link (l : Nat) : (beginCmd c 0x501 s).link l = s.link l := by rw [State.link, kept.fab]; rfl
  have up : (beginCmd c 0x501 s).linksUp = [] := (linksUp_congr (congrArg Fab.links kept.fab)).trans none_
  have starts := leaveStart_ends (s := beginCmd c 0x501 s) (c := c) (by rw [kept.flow, leases]) (by rw [kept.flow, held])
    (by rw [kept.tiles, colls]) up
  obtain ⟨u, is, alone, id, down, only⟩ := leaveEnd_ends (c := c)
    (s := (beginCmd c 0x501 s).setFab { (beginCmd c 0x501 s).fab with leaving := some (c, true), join := none })
    fun l low => (congrArg (fun x : Link => x.heldMsgs = [] ∧ x.rekeyCtx = none) (link l)).mpr (quiet l low)
  refine ⟨u, ?_, alone, id, down, only⟩
  have now : ((beginCmd c 0x501 s).setFab { (beginCmd c 0x501 s).fab with leaving := some (c, true), join := none }).now = s.now :=
    beginCmd_now c 0x501 s
  rw [fabricLeave_starts ready root joined idle stays, starts, is, now]

theorem exec_leave (l : Nat) (m : Msg) (s : State) : exec (.leave l m) s = .next (leave l m s) := rfl

theorem leave_takesDown {l : Nat} {m : Msg} (running : s.sys.mode = .running) (up : s.linkUp l = true)
    (idle : (s.link l).heldMsgs = [] ∧ (s.link l).rekeyCtx = none) :
    leave l m s = (takeMsg m s).setLink l (takenDown (s.link l)) := by
  unfold leave
  rw [fabUp_of_running running, up]
  exact setLink_takenDown (s := takeMsg m s) idle

/-! ### Reports -/

theorem exec_fabricStatus (c : CmdCtx) (s : State) : exec (.fabricStatus c) s = execFabricStatus c s := rfl
theorem exec_timeOffsets (c : CmdCtx) (first count : Nat) (s : State) :
    exec (.timeOffsets c first count) s = execTimeOffsets c first count s := rfl

theorem statusEntry_congr {t : State} (fab : t.fab = s.fab) (darn : t.darn = s.darn) : statusEntry t = statusEntry s := by
  funext l
  simp only [statusEntry, State.link, fab, darn]

theorem offsetOf_congr {t : State} (fab : t.fab = s.fab) (n : Nat) : offsetOf t n = offsetOf s n := by
  have link : t.link = s.link := funext fun l => congrArg (fun f : Fab => smGet ({} : Link) f.links l) fab
  unfold offsetOf
  rw [linksUp_congr (congrArg Fab.links fab), link]

theorem fabricStatus_reads {c : CmdCtx} (ready : Ready 0x502 s) (root : c.part = 0) : exec (.fabricStatus c) s
    = .next (finish c .ok ((List.range 32).flatMap (statusEntry s)) 0 0 (beginCmd c 0x502 s)) := by
  have ok : firstFail [p0Only c] = none := by simp [firstFail_none, p0Only, root]
  rw [exec_fabricStatus, execFabricStatus, runCmd_ready ready ok, statusEntry_congr (beginCmd_kept c 0x502 s).fab (beginCmd_darn ..)]

theorem timeOffsets_reads {c : CmdCtx} {first count : Nat} (ready : Ready 0x540 s) (root : c.part = 0) (some_ : count ≠ 0)
    (high : first + count ≤ 2 ^ 14) : exec (.timeOffsets c first count) s = .next (finish c .ok
      ((List.range (min count 1020)).flatMap (fun i => leBytesI 4 (offsetOf s (first + i)))) 0
      (if min count 1020 < count then 2 else 0) (beginCmd c 0x540 s)) := by
  have ok : firstFail [p0Only c, (decide (count = 0) || decide (2 ^ 14 < first + count), .badParam)] = none := by
    simp [firstFail_none, p0Only, root, some_, show first + count ≤ 16384 from high]
  rw [exec_timeOffsets, execTimeOffsets, runCmd_ready ready ok, offsetsWork]
  simp only [offsetOf_congr (beginCmd_kept c 0x540 s).fab]

/-! ### The time exchange -/

/-- A message is sent over its link, and everything else of the links stays. -/
theorem sendOnLink_sends (l mtype : Nat) (arg : Word) (body : Bytes) (s : State) : ∃ m q,
    m.mtype = mtype ∧ m.dst = (s.link l).peer ∧ m.body = body ∧
      sendOnLink l mtype arg body s = { s with fab := { s.fab with
        links := smSet s.fab.links l { s.link l with outQ := (s.link l).outQ ++ [(l, m)] }, mseqTx := q } } :=
  ⟨_, _, rfl, rfl, rfl, rfl⟩

/-- Each link of the list has one more message of the kind for its peer waiting. -/
structure AllSent (mtype : Nat) (l : List Nat) (s t : State) : Prop where
  only : t = { s with fab := { s.fab with links := t.fab.links, mseqTx := t.fab.mseqTx } }
  on : ∀ k ∈ l, ∃ m : Msg, t.link k = { s.link k with outQ := (s.link k).outQ ++ [(k, m)] } ∧ m.mtype = mtype ∧ m.dst = (s.link k).peer
  off : ∀ k, k ∉ l → t.link k = s.link k

theorem foldl_sendTimeReq {l : List Nat} (once : l.Nodup) (s : State) : AllSent 3 l s (l.foldl (fun s k => sendTimeReq k s) s) := by
  induction l generalizing s with
  | nil => exact ⟨rfl, by simp, fun _ _ => rfl⟩
  | cons j l ih =>
    obtain ⟨apart, once⟩ := List.nodup_cons.mp once
    obtain ⟨m, q, kind, dst, _, sends⟩ := sendOnLink_sends j 3 0 (zeros 8 ++ advBody s) s
    have own : (sendTimeReq j s).link j = { s.link j with outQ := (s.link j).outQ ++ [(j, m)] } := by
      rw [sendTimeReq, sends]
      exact smGet_smSet_self ..
    have other {k : Nat} (ne : k ≠ j) : (sendTimeReq j s).link k = s.link k := by
      rw [sendTimeReq, sends]
      exact smGet_smSet_ne _ _ _ ne
    obtain ⟨only, on, off⟩ := ih once (sendTimeReq j s)
    refine ⟨?_, fun k mem => ?_, fun k out => ?_⟩
    · rw [List.foldl_cons, only, sendTimeReq, sends]
    · by_cases same : k = j
      · refine ⟨m, ?_, kind, same ▸ dst⟩
        rw [List.foldl_cons, same, off j apart, own]
      · rw [List.foldl_cons, ← other same]
        exact on k ((List.mem_cons.mp mem).resolve_left same)
    · obtain ⟨ne, out⟩ := not_or.mp (mt List.mem_cons.mpr out)
      rw [List.foldl_cons, off k out, other ne]

theorem exec_timeExchangeTimer (s : State) : exec .timeExchangeTimer s = .next (timeExchange s) := rfl

/-- The state on which the time exchange sends its requests. -/
def exchangeBegun (s : State) : State :=
  choose (s.setFab { s.fab with timerAt := s.now, advSeq := if s.isMaster then s.fab.advSeq + 1 else s.fab.advSeq })

theorem timeExchange_early (early : s.now.toNat < s.fab.timerAt.toNat + 1000000000) : timeExchange s = s := by
  simp [timeExchange, early]

theorem timeExchange_due (running : s.sys.mode = .running) (joined : s.fab.joined = true)
    (due : s.fab.timerAt.toNat + 1000000000 ≤ s.now.toNat) :
    timeExchange s = s.linksUp.foldl (fun s l => sendTimeReq l s) (exchangeBegun s) := by
  unfold timeExchange
  rw [if_neg (by simp [fabUp_of_running running, joined, due])]
  rfl

theorem timeExchange_asks (running : s.sys.mode = .running) (joined : s.fab.joined = true)
    (due : s.fab.timerAt.toNat + 1000000000 ≤ s.now.toNat) : ∃ t, exec .timeExchangeTimer s = .next t ∧ t.fab.timerAt = s.now ∧
      t.fab.advSeq = (if s.isMaster = true then s.fab.advSeq + 1 else s.fab.advSeq) ∧
      (∀ l, l < 32 → s.linkUp l = true → ∃ m, (t.link l).outQ = (s.link l).outQ ++ [(l, m)] ∧ m.mtype = 3 ∧
        m.dst = (s.link l).peer) ∧
      (∀ l, s.linkUp l = false → t.link l = s.link l) ∧ t = { s with fab := t.fab } := by
  obtain ⟨only, on, off⟩ := foldl_sendTimeReq (linksUp_nodup s) (exchangeBegun s)
  rw [exec_timeExchangeTimer, timeExchange_due running joined due]
  generalize s.linksUp.foldl (fun s l => sendTimeReq l s) (exchangeBegun s) = t at *
  refine ⟨t, rfl, by rw [only]; rfl, by rw [only]; rfl, fun l low up => ?_, fun l down => ?_, ?_⟩
  · obtain ⟨m, same, kind, dst⟩ := on l (mem_linksUp.mpr ⟨low, up⟩)
    exact ⟨m, congrArg Link.outQ same, kind, dst⟩
  · exact off l fun mem => by simp [(mem_linksUp.mp mem).2] at down
  · rw [only]
    rfl

/-- What an arrived time message changes before it is answered: the advertisements heard, and the messages that wait. -/
theorem hearAdv_takeTime (l : Nat) (m : Msg) (b : Bytes) (s : State) : ∃ p h a i w, hearAdv l b (takeTime m s) =
    { s with fab := { s.fab with peerAdv := p, seqHigh := h, seqAt := a, inbox := i, timeAt := w } } := by
  unfold hearAdv
  dsimp only
  split
  · exact ⟨_, _, _, _, _, rfl⟩
  · exact ⟨_, _, _, _, _, rfl⟩

theorem exec_timeReq (l : Nat) (m : Msg) (s : State) : exec (.timeReq l m) s = .next (timeReq l m s) := rfl
theorem exec_timeResp (l : Nat) (m : Msg) (s : State) : exec (.timeResp l m) s = .next (timeResp l m s) := rfl

theorem timeReq_answers {l : Nat} {m : Msg} (running : s.sys.mode = .running) (up : s.linkUp l = true) :
    ∃ t n, exec (.timeReq l m) s = .next t ∧ (t.link l).outQ = (s.link l).outQ ++ [(l, n)] ∧ n.mtype = 4 ∧
      n.body.take 16 = fitTo 8 m.body ++ leBytes 8 (s.arrivalOf m).toNat ∧ (∀ k, k ≠ l → t.link k = s.link k) ∧
      t = { s with fab := t.fab } := by
  obtain ⟨p, h, a, i, w, heard⟩ := hearAdv_takeTime l m (slice m.body 8 16) s
  have runs : timeReq l m s = sendOnLink l 4 0 (fitTo 8 m.body ++ leBytes 8 (s.arrivalOf m).toNat ++ zeros 8 ++
      advBody (hearAdv l (slice m.body 8 16) (takeTime m s))) (hearAdv l (slice m.body 8 16) (takeTime m s)) := by
    unfold timeReq
    rw [fabUp_of_running running, up]
    rfl
  rw [heard] at runs
  generalize is : ({ s with fab := { s.fab with peerAdv := p, seqHigh := h, seqAt := a, inbox := i, timeAt := w } } : State) = u at runs
  obtain ⟨n, q, kind, _, body, sends⟩ := sendOnLink_sends l 4 0 (fitTo 8 m.body ++ leBytes 8 (s.arrivalOf m).toNat ++ zeros 8 ++ advBody u) u
  have link (k : Nat) : u.link k = s.link k := by rw [← is]; rfl
  refine ⟨_, n, by rw [exec_timeReq, runs, sends], ?_, kind, ?_, fun k ne => ?_, by rw [← is]⟩
  · rw [← link]
    exact congrArg Link.outQ (smGet_smSet_self ..)
  · rw [body, List.append_assoc, List.take_left' (by simp)]
  · exact (smGet_smSet_ne _ _ _ ne).trans (link k)

theorem joinStep_none (none_ : s.fab.join = none) (l : Nat) (d : Int) : joinStep l d s = s := by
  unfold joinStep
  rw [none_]

/-- A link with what an exchange measured. -/
def measured (d : Int) (hop : Word) (x : Link) : Link := { x with offset := some d, hopNs := hop }

/-- The answer goes to the servo. -/
def servoTakes (l : Nat) (s : State) : Bool :=
  (match s.fab.join with | some j => j.step.isSome | none => true) && s.fab.joined && !s.isMaster && decide (s.fab.via = (s.link l).peer)

/-- What an answered exchange does with the offset. -/
def offsetTaken (l : Nat) (d : Int) (s : State) : State := joinGo (if servoTakes l s then fabServo s else joinStep l d s)

theorem timeResp_eq (l : Nat) (m : Msg) (s : State) : timeResp l m s = if s.fabUp && s.linkUp l then
    let out := dw (uAt m.body 8 8) - dw (uAt m.body 0 8)
    let back := s.arrivalOf m - dw (uAt m.body 16 8)
    offsetTaken l (halfOf (out - back)) ((hearAdv l (slice m.body 24 16) (takeTime m s)).modLink l
      (measured (halfOf (out - back)) (w32 (wrapU 32 (halfOf (out + back))))))
    else s := rfl

theorem offsetTaken_idle {l : Nat} {d : Int} (none_ : s.fab.join = none) (free : s.isMaster = true ∨ s.fab.via ≠ (s.link l).peer) :
    offsetTaken l d s = s := by
  have noServo : servoTakes l s = false := by
    rcases free with m | v
    · simp [servoTakes, m]
    · simp [servoTakes, v]
  rw [offsetTaken, noServo, if_neg (by decide), joinStep_none none_, joinGo_none none_]

theorem timeResp_measures {l : Nat} {m : Msg} (running : s.sys.mode = .running) (up : s.linkUp l = true) (idle : s.fab.join = none)
    (free : s.isMaster = true ∨ s.fab.via ≠ (s.link l).peer) :
      let t1 := BitVec.ofNat 64 (uAt m.body 0 8)
      let t2 := BitVec.ofNat 64 (uAt m.body 8 8)
      let t3 := BitVec.ofNat 64 (uAt m.body 16 8)
      ∃ t, exec (.timeResp l m) s = .next t ∧ (t.link l).offset = some (Int.tdiv ((t2 - t1) - (s.arrivalOf m - t3)).toInt 2) ∧
        (∀ k, k ≠ l → t.link k = s.link k) ∧ t = { s with fab := t.fab } := by
  obtain ⟨p, h, a, i, w, heard⟩ := hearAdv_takeTime l m (slice m.body 24 16) s
  intro t1 t2 t3
  generalize is : ({ s with fab := { s.fab with peerAdv := p, seqHigh := h, seqAt := a, inbox := i, timeAt := w } } : State) = u at heard
  have link (k : Nat) : u.link k = s.link k := by rw [← is]; rfl
  have runs := timeResp_eq l m s
  rw [fabUp_of_running running, up, Bool.and_self, if_pos rfl, heard] at runs
  dsimp only at runs
  generalize w32 _ = hop at runs
  have own : (u.modLink l (measured (halfOf (t2 - t1 - (s.arrivalOf m - t3))) hop)).link l = measured _ hop (s.link l) :=
    (link_setLink_self (s := u) ..).trans (congrArg _ (link l))
  rw [offsetTaken_idle (by rw [← is]; exact idle) (by rw [own, ← is]; exact free)] at runs
  refine ⟨_, (exec_timeResp l m s).trans (congrArg _ runs), congrArg Link.offset own, fun k ne => ?_, by rw [← is]; rfl⟩
  exact (link_setLink_ne (s := u) _ ne).trans (link k)

/-- Settles O46. -/
theorem nodesJoinAndLeave : Obligations.NodesJoinAndLeave := by
  unfold Obligations.NodesJoinAndLeave
  refine ⟨?join, ?timeout, ?leave, ?down, ?status, ?offsets, ?exchange, ?messages⟩
  case join =>
    intro c node mask s ready root low alone idle stays
    exact fabricJoin_joins ready root low alone idle stays
  case timeout =>
    intro j c s running some_ ctx
    rw [exec_fabJoinTimeoutExpire]
    refine ⟨fun early => by rw [joinTimeout_early some_ early], fun due => ⟨fun none_ => ?_, fun up => ?_⟩⟩
    · obtain ⟨u, runs, facts⟩ := joinTimeout_fails running some_ ctx due none_
      exact ⟨u, congrArg _ runs, facts⟩
    · obtain ⟨u, body, runs, facts⟩ := joinTimeout_done running some_ ctx due up
      exact ⟨u, body, congrArg _ runs, facts⟩
  case leave =>
    intro c s ready root
    exact ⟨fabricLeave_alone ready root, fabricLeave_leaves ready root⟩
  case down =>
    intro l m s running up empty none_
    have own := link_setLink_self (s := takeMsg m s) l (takenDown (s.link l))
    refine ⟨(takeMsg m s).setLink l (takenDown (s.link l)), by rw [exec_leave, leave_takesDown running up ⟨empty, none_⟩],
      congrArg Link.state own, congrArg Link.wanted own, fun k ne => link_setLink_ne (s := takeMsg m s) _ ne, rfl⟩
  case status => exact fun c s => fabricStatus_reads
  case offsets => exact fun c first count s => timeOffsets_reads
  case exchange =>
    intro s running joined
    exact ⟨fun early => congrArg _ (timeExchange_early early), timeExchange_asks running joined⟩
  case messages =>
    intro l m s running up
    exact ⟨timeReq_answers running up, fun _ idle free => timeResp_measures running up idle free⟩

end Sys2Proof.Proofs
end

