-- ==== Sys2Proof/Proofs/LinkKeys.lean ====
section
/-! PROOF. How a fabric link comes up, changes its keys and goes down (O44). -/

namespace Sys2Proof.Proofs
open Sys2Proof.Machine

variable {s : State}

/-! ### Training -/

theorem exec_linkTrainingComplete (l : Nat) (s : State) : exec (.linkTrainingComplete l) s = .next (linkTrained l s) := rfl

theorem bringUp_eq (l : Nat) (s : State) : ∃ y : Link, bringUp l s = { s.setLink l y with free := s.free + 1 } ∧
    y.state = (s.link l).state ∧ y.txKey = (s.link l).txKey ∧ y.rxKey = (s.link l).rxKey :=
  ⟨_, rfl, rfl, rfl, rfl⟩

theorem linkTrained_auth {l : Nat} (running : s.sys.mode = .running) (lit : s.linkLit l = true) (training : (s.link l).state = 1) :
    ∃ t, exec (.linkTrainingComplete l) s = .next t ∧ (t.link l).state = 2 ∧ (t.link l).txKey = none ∧ (t.link l).rxKey = none ∧
      (∀ k, k ≠ l → t.link k = s.link k) ∧ t.free = s.free + 1 ∧
      t = { s with fab := { s.fab with links := t.fab.links }, free := t.free } := by
  let x : Link := { (s.link l).cleared 2 with peerChain := [], peer := 0xffff }
  have runs : linkTrained l s = bringUp l (s.setLink l x) := by
    unfold linkTrained
    dsimp only
    rw [fabUp_of_running running, lit, training]
    rfl
  obtain ⟨y, is, state, tx, rx⟩ := bringUp_eq l (s.setLink l x)
  rw [link_setLink_self] at state tx rx
  rw [setLink_setLink] at is
  have own : (({ s.setLink l y with free := s.free + 1 } : State).link l) = y := link_setLink_self (s := s) ..
  refine ⟨{ s.setLink l y with free := s.free + 1 }, by rw [exec_linkTrainingComplete, runs, is]; rfl, ?_, ?_, ?_,
    fun k ne => link_setLink_ne (s := s) _ ne, rfl, rfl⟩
  · rw [own, state]
    rfl
  · rw [own, tx]
    rfl
  · rw [own, rx]
    rfl

theorem linkTrained_stays {l : Nat} (no : s.linkLit l = false ∨ (s.link l).state = 3) : linkTrained l s = s := by
  unfold linkTrained
  refine if_neg ?_
  rcases no with dark | up
  · simp [dark]
  · simp [up]

/-! ### HELLO -/

theorem exec_hello (l : Nat) (m : Msg) (s : State) : exec (.hello l m) s = .next (hello l m s) := rfl

/-- A refused peer's link goes down alone, and is counted. -/
theorem refusePeer_refuses {l : Nat} (idle : (s.link l).heldMsgs = [] ∧ (s.link l).rekeyCtx = none) :
    refusePeer l s = (s.setLink l (takenDown (s.link l))).count (.link l .peerRefused) := by
  rw [refusePeer, setLink_takenDown idle]

theorem refused_facts (l : Nat) (x : Link) (s : State) : let t := (s.setLink l (takenDown x)).count (.link l .peerRefused)
    (t.link l).state = 0 ∧ (t.link l).wanted = false ∧ (∀ k, k ≠ l → t.link k = s.link k) ∧
      t.cntAt (Ctr.link l .peerRefused).key = s.cntAt (Ctr.link l .peerRefused).key + 1 ∧
      t = { s with fab := { s.fab with links := t.fab.links }, obs := t.obs } := by
  intro t
  have own : t.link l = takenDown x := link_setLink_self (s := s) ..
  exact ⟨congrArg Link.state own, congrArg Link.wanted own, fun k ne => link_setLink_ne (s := s) _ ne, cntAt_count_self .., rfl⟩

/-- What a HELLO must pass. -/
def helloGood (l : Nat) (m : Msg) (s : State) : Bool :=
  sigVerifies s (leBytes 48 s.sys.fuses.rootHash.toNat) (m.body.drop 8) [] && !nodeTaken s l (uAt m.body 0 2) (m.body.drop 8)
    && decide (uAt m.body 0 2 < 2 ^ 14)

/-- A link with what its peer announced. -/
def announced (m : Msg) (x : Link) : Link :=
  { x with peer := uAt m.body 0 2, peerLink := uAt m.body 2 1, peerChain := m.body.drop 8 }

theorem hello_eq (l : Nat) (m : Msg) (s : State) : hello l m s = if s.fabUp && decide ((s.link l).state = 2) then
    (if helloGood l m s then s.modLink l (announced m) else refusePeer l s) else s := rfl

theorem hello_takes {l : Nat} {m : Msg} (running : s.sys.mode = .running) (auth : (s.link l).state = 2)
    (idle : (s.link l).heldMsgs = [] ∧ (s.link l).rekeyCtx = none) :
    let n := uAt m.body 0 2
    let good := sigVerifies s (leBytes 48 s.sys.fuses.rootHash.toNat) (m.body.drop 8) []
    (good = true → nodeTaken s l n (m.body.drop 8) = false → n < 2 ^ 14 → ∃ t, exec (.hello l m) s = .next t ∧
          t.link l = { s.link l with peer := n, peerLink := uAt m.body 2 1, peerChain := m.body.drop 8 } ∧
          (∀ k, k ≠ l → t.link k = s.link k) ∧ t = { s with fab := { s.fab with links := t.fab.links } }) ∧
        (good = false ∨ nodeTaken s l n (m.body.drop 8) = true ∨ 2 ^ 14 ≤ n → ∃ t, exec (.hello l m) s = .next t ∧
          (t.link l).state = 0 ∧ (t.link l).wanted = false ∧ (∀ k, k ≠ l → t.link k = s.link k) ∧
          t.cntAt (Ctr.link l .peerRefused).key = s.cntAt (Ctr.link l .peerRefused).key + 1 ∧
          t = { s with fab := { s.fab with links := t.fab.links }, obs := t.obs }) := by
  intro n good
  have runs : hello l m s = if helloGood l m s then s.modLink l (announced m) else refusePeer l s := by
    rw [hello_eq, fabUp_of_running running, auth]
    rfl
  refine ⟨fun ok free low => ?_, fun bad => ?_⟩
  · have pass : helloGood l m s = true := by
      simp only [helloGood, Bool.and_eq_true, Bool.not_eq_true', decide_eq_true_eq]
      exact ⟨⟨ok, free⟩, low⟩
    rw [exec_hello, runs, if_pos pass]
    exact ⟨_, rfl, link_setLink_self (s := s) .., fun k ne => link_setLink_ne (s := s) _ ne, rfl⟩
  · have fail : ¬ helloGood l m s = true := by
      simp only [helloGood, Bool.and_eq_true, Bool.not_eq_true', decide_eq_true_eq]
      rintro ⟨⟨ok, free⟩, low⟩
      rcases bad with b | b | b
      · exact Bool.false_ne_true (b.symm.trans ok)
      · exact Bool.false_ne_true (free.symm.trans b)
      · exact absurd low (Nat.not_lt.mpr b)
    rw [exec_hello, runs, if_neg fail, refusePeer_refuses idle]
    exact ⟨_, rfl, refused_facts ..⟩

/-! ### KEY_EXCH -/

theorem exec_keyExch (l : Nat) (m : Msg) (s : State) : exec (.keyExch l m) s = .next (keyExch l m s) := rfl

/-- The peer's share is signed by its identity. -/
def shareGood (l : Nat) (m : Msg) (s : State) : Bool :=
  sigVerifies s (s.link l).peerChain (fitTo 97 m.body) (slice m.body 104 96)

/-- A link that gets its next keys. -/
def nextKeys (share : Bytes) (node l : Nat) (y : Link) : Link :=
  let y := { y with newTx := some (linkKey y share node l), newRx := some (linkKey y share y.peer y.peerLink) }
  if y.ended then y.nextPhase else y

theorem keyExch_eq (l : Nat) (m : Msg) (s : State) : keyExch l m s =
    if !s.fabUp then s
    else if (s.link l).state = 2 ∧ (s.link l).peerChain ≠ [] then
      (if shareGood l m s then joinGo (firstUp l (linkUpNow l (fitTo 97 m.body) s)) else refusePeer l s)
    else if (s.link l).state = 3 then
      (if !shareGood l m s then refusePeer l (takeMsg m s)
      else if (s.link l).newRx.isSome ∨ (s.link l).switching then takeMsg m s
      else
        let t := if ((takeMsg m s).link l).rekey then takeMsg m s else sendKeyExch l (takeMsg m s)
        t.modLink l (nextKeys (fitTo 97 m.body) t.myNode l))
    else s := rfl

theorem firstUp_none (none_ : s.fab.join = none) (l : Nat) : firstUp l s = s := by
  unfold firstUp
  rw [none_]

theorem freshPeer_frame (n : Nat) (s : State) : ∃ a b c d, freshPeer n s =
    { s with fab := { s.fab with mseqTx := a, mseqRx := b }, tiles := { s.tiles with collTo := c, collFrom := d } } := by
  unfold freshPeer
  split
  · exact ⟨_, _, _, _, rfl⟩
  · exact ⟨_, _, _, _, rfl⟩

/-- The credits of a link that comes up. -/
def fullCredits (s : State) : SMap Nat := bufs.foldl (fun m k => smSet m k (s.fact .fabCredit (k % 4))) []

/-- A link with its keys. -/
def upWith (share : Bytes) (node l : Nat) (credits : SMap Nat) (x : Link) : Link :=
  { x.cleared 3 with txKey := some (linkKey x share node l), rxKey := some (linkKey x share x.peer x.peerLink), keyGen := x.keyGen + 1, credits := credits }

theorem linkUpNow_eq (l : Nat) (share : Bytes) (s : State) : linkUpNow l share s =
    let u := freshPeer (s.link l).peer (enableFabric s)
    u.modLink l (upWith share u.myNode l (fullCredits u)) := rfl

theorem smGet_foldl_smSet {f : Nat → Nat} {k : Nat} {l : List Nat} (m : SMap Nat) (mem : k ∈ l ∨ smGet 0 m k = f k) :
    smGet 0 (l.foldl (fun m k => smSet m k (f k)) m) k = f k := by
  induction l generalizing m with
  | nil => exact mem.resolve_left (by simp)
  | cons j l ih =>
    refine ih _ ?_
    by_cases same : k = j
    · exact .inr (same ▸ smGet_smSet_self ..)
    · refine mem.imp (fun at_ => (List.mem_cons.mp at_).resolve_left same) fun had => ?_
      rw [smGet_smSet_ne _ _ _ same, had]

theorem bufIx_mem_bufs {cls hop : Nat} (low : cls < 3) (first : 1 ≤ hop) (last : hop ≤ 3) : bufIx cls hop ∈ bufs := by
  have found : hop = 1 ∨ hop = 2 ∨ hop = 3 := by omega
  exact List.mem_flatMap.mpr ⟨cls, List.mem_range.mpr low, List.mem_map.mpr ⟨hop, by simpa using found, rfl⟩⟩

theorem fullCredits_full {cls hop : Nat} (low : cls < 3) (first : 1 ≤ hop) (last : hop ≤ 3) :
    smGet 0 (fullCredits s) (bufIx cls hop) = s.fact .fabCredit cls := by
  have class_ : bufIx cls hop % 4 = cls := by
    unfold bufIx
    omega
  rw [fullCredits, smGet_foldl_smSet (f := fun k => s.fact .fabCredit (k % 4)) [] (.inl (bufIx_mem_bufs low first last)), class_]

/-- A joined node's link comes up with the keys of its two directions, and only what was agreed with the peer begins again. -/
theorem linkUpNow_ups {l : Nat} {share : Bytes} (joined : s.fab.joined = true) : ∃ u : State, linkUpNow l share s =
      u.setLink l (upWith share s.myNode l (fullCredits s) (s.link l)) ∧ (∀ k, u.link k = s.link k) ∧ u.fab.join = s.fab.join ∧
      u = { s with fab := u.fab, tiles := { s.tiles with collTo := u.tiles.collTo, collFrom := u.tiles.collFrom } } := by
  have same : enableFabric s = s := if_pos joined
  obtain ⟨a, b, c, d, fresh⟩ := freshPeer_frame (s.link l).peer s
  have runs := linkUpNow_eq l share s
  rw [same, fresh] at runs
  exact ⟨_, runs, fun _ => rfl, rfl, rfl⟩

theorem keyExch_ups {l : Nat} {m : Msg} (running : s.sys.mode = .running) (auth : (s.link l).state = 2)
    (chain : (s.link l).peerChain ≠ []) (joined : s.fab.joined = true) (idle : s.fab.join = none) (good : shareGood l m s = true) :
    ∃ t, exec (.keyExch l m) s = .next t ∧ (t.link l).state = 3 ∧
            (t.link l).keyGen = (s.link l).keyGen + 1 ∧
            (t.link l).txKey = some (linkKey (s.link l) (fitTo 97 m.body) s.myNode l) ∧
            (t.link l).rxKey = some (linkKey (s.link l) (fitTo 97 m.body) (s.link l).peer (s.link l).peerLink) ∧
            (∀ cls hop, cls < 3 → 1 ≤ hop → hop ≤ 3 → smGet 0 (t.link l).credits (bufIx cls hop) = s.fact .fabCredit cls) ∧
            (t.link l).retry = [] ∧ (∀ k, k ≠ l → t.link k = s.link k) ∧
            t = { s with fab := t.fab, tiles := { s.tiles with collTo := t.tiles.collTo, collFrom := t.tiles.collFrom } } := by
  obtain ⟨u, ups, link, join, only⟩ := linkUpNow_ups (l := l) (share := fitTo 97 m.body) joined
  have none_ : (u.setLink l (upWith (fitTo 97 m.body) s.myNode l (fullCredits s) (s.link l))).fab.join = none := join.trans idle
  have runs : keyExch l m s = u.setLink l (upWith (fitTo 97 m.body) s.myNode l (fullCredits s) (s.link l)) := by
    rw [keyExch_eq, fabUp_of_running running, if_neg (by decide), if_pos ⟨auth, chain⟩, if_pos good, ups, firstUp_none none_, joinGo_none none_]
  have own := link_setLink_self (s := u) l (upWith (fitTo 97 m.body) s.myNode l (fullCredits s) (s.link l))
  refine ⟨_, by rw [exec_keyExch, runs], congrArg Link.state own, congrArg Link.keyGen own, congrArg Link.txKey own, congrArg Link.rxKey own,
    fun cls hop low first last => ?_, congrArg Link.retry own, fun k ne => (link_setLink_ne (s := u) _ ne).trans (link k), ?_⟩
  · rw [own]
    exact fullCredits_full low first last
  · exact congrArg (fun x : State => x.setLink l (upWith (fitTo 97 m.body) s.myNode l (fullCredits s) (s.link l))) only

theorem keyExch_refuses {l : Nat} {m : Msg} (running : s.sys.mode = .running) (auth : (s.link l).state = 2)
    (chain : (s.link l).peerChain ≠ []) (empty : (s.link l).heldMsgs = [] ∧ (s.link l).rekeyCtx = none) (bad : shareGood l m s = false) :
    ∃ t, exec (.keyExch l m) s = .next t ∧ (t.link l).state = 0 ∧ (t.link l).wanted = false ∧
            (∀ k, k ≠ l → t.link k = s.link k) ∧
            t = { s with fab := { s.fab with links := t.fab.links }, obs := t.obs } := by
  obtain ⟨state, wanted, others, _, only⟩ := refused_facts l (s.link l) s
  refine ⟨_, ?_, state, wanted, others, only⟩
  rw [exec_keyExch, keyExch_eq, fabUp_of_running running, if_neg (by decide), if_pos ⟨auth, chain⟩, bad, if_neg (by decide),
    refusePeer_refuses empty]

theorem nextKeys_facts (share : Bytes) (node l : Nat) (y : Link) : let t := nextKeys share node l y
    t.state = y.state ∧ t.newTx = some (linkKey y share node l) ∧ t.txKey = y.txKey ∧
      (y.ended = false → t.newRx = some (linkKey y share y.peer y.peerLink) ∧ t.rxKey = y.rxKey) ∧
      (y.ended = true → t.newRx = none ∧ t.rxKey = some (linkKey y share y.peer y.peerLink) ∧ t.expCtr = 0) := by
  unfold nextKeys
  cases ended : y.ended
  · simp [ended]
  · simp [Link.nextPhase]

theorem keyExch_rekeys {l : Nat} {m : Msg} (running : s.sys.mode = .running) (up : (s.link l).state = 3) (good : shareGood l m s = true)
    (first : (s.link l).newRx = none) (steady : (s.link l).switching = false) (sent : (s.link l).rekey = true) :
    keyExch l m s = (takeMsg m s).setLink l (nextKeys (fitTo 97 m.body) s.myNode l (s.link l)) := by
  have own : ((takeMsg m s).link l).rekey = true := sent
  rw [keyExch_eq, fabUp_of_running running, if_neg (by decide), if_neg (by simp [up]), if_pos up, good, if_neg (by decide),
    if_neg (by simp [first, steady])]
  dsimp only
  rw [if_pos own]
  rfl

/-! ### Rekeys -/

theorem exec_rekeyThreshold (l : Nat) (s : State) : exec (.rekeyThreshold l) s = .next (rekeyThreshold l s) := rfl
theorem exec_keyCounterExhausted (l : Nat) (s : State) : exec (.keyCounterExhausted l) s = .next (counterExhausted l s) := rfl
theorem exec_linkRekey (c : CmdCtx) (l : Nat) (s : State) : exec (.linkRekey c l) s = execLinkRekey c l s := rfl

/-- A link that sends its share waits for the peer's. -/
theorem sendKeyExch_sends (l : Nat) (s : State) : ∃ t m, sendKeyExch l s = t ∧ (t.link l).rekey = true ∧
    (t.link l).rekeyCtx = (s.link l).rekeyCtx ∧ (t.link l).outQ = (s.link l).outQ ++ [(l, m)] ∧ m.mtype = 2 ∧ m.dst = (s.link l).peer ∧
      (∀ k, k ≠ l → t.link k = s.link k) ∧ t = { s with fab := t.fab, free := s.free + 1 } := by
  let u : State := { s with free := s.free + 1 }
  let x : Link := { s.link l with rekey := true, share := s.free }
  have own : (u.setLink l x).link l = x := link_setLink_self ..
  have runs : sendKeyExch l s = sendOnLink l 2 0 (keyExchBody u s.free) (u.setLink l x) := rfl
  obtain ⟨m, q, kind, dst, _, sends⟩ := sendOnLink_sends l 2 0 (keyExchBody u s.free) (u.setLink l x)
  rw [own] at dst sends
  have mine : (sendKeyExch l s).link l = { x with outQ := x.outQ ++ [(l, m)] } := by
    rw [runs, sends]
    exact smGet_smSet_self ..
  refine ⟨sendKeyExch l s, m, rfl, by rw [mine], by rw [mine], by rw [mine], kind, dst, fun k ne => ?_, ?_⟩
  · rw [runs, sends]
    exact (smGet_smSet_ne _ _ _ ne).trans (link_setLink_ne (s := u) _ ne)
  · rw [runs, sends]
    rfl

theorem rekeyThreshold_stays {l : Nat} (no : (s.link l).rekey = true ∨ (s.link l).txCtr < 2 ^ s.fval .fabRekeyAt) : rekeyThreshold l s = s := by
  refine if_neg ?_
  rcases no with going | below
  · simp [going]
  · simp [Nat.not_le.mpr below]

theorem rekeyThreshold_starts {l : Nat} (running : s.sys.mode = .running) (up : (s.link l).state = 3) (steady : (s.link l).rekey = false)
    (due : 2 ^ s.fval .fabRekeyAt ≤ (s.link l).txCtr) : rekeyThreshold l s = sendKeyExch l s :=
  if_pos (by simp [fabUp_of_running running, State.linkUp, up, steady, due])

theorem counterExhausted_stays {l : Nat} (below : (s.link l).txCtr < 2 ^ 48 - 1) : counterExhausted l s = s :=
  if_neg (by
    rw [Bool.and_eq_true, decide_eq_true_eq]
    exact fun h => absurd h.2 (Nat.not_le.mpr below))

theorem counterExhausted_leaves {l : Nat} (running : s.sys.mode = .running) (up : (s.link l).state = 3)
    (used : 2 ^ 48 - 1 ≤ (s.link l).txCtr) (idle : (s.link l).heldMsgs = [] ∧ (s.link l).rekeyCtx = none) :
    ∃ t, exec (.keyCounterExhausted l) s = .next t ∧ (t.link l).state = 2 ∧ (t.link l).txKey = none ∧
        (t.link l).rxKey = none ∧ (∀ k, k ≠ l → t.link k = s.link k) ∧ t = { s with fab := t.fab, free := s.free + 1 } := by
  have due : (s.fabUp && s.linkUp l && decide (2 ^ 48 - 1 ≤ (s.link l).txCtr)) = true := by
    rw [fabUp_of_running running, State.linkUp, up, decide_eq_true used]
    rfl
  have runs : counterExhausted l s = bringUp l (s.setLink l ((s.link l).cleared 2)) := by
    rw [counterExhausted, if_pos due, reAuth, linkDown_idle 2 idle.1 idle.2]
  obtain ⟨y, is, state, tx, rx⟩ := bringUp_eq l (s.setLink l ((s.link l).cleared 2))
  rw [link_setLink_self] at state tx rx
  rw [setLink_setLink] at is
  have own : (({ s.setLink l y with free := s.free + 1 } : State).link l) = y := link_setLink_self (s := s) ..
  refine ⟨{ s.setLink l y with free := s.free + 1 }, by rw [exec_keyCounterExhausted, runs, is]; rfl, ?_, ?_, ?_,
    fun k ne => link_setLink_ne (s := s) _ ne, rfl⟩
  · rw [own, state]
    rfl
  · rw [own, tx]
    rfl
  · rw [own, rx]
    rfl

/-- What LINK_REKEY does once it has begun. -/
def linkRekeyWork (c : CmdCtx) (l : Nat) (s : State) : State :=
  if !s.linkUp l then finish c .notReady [] 0 0 s
  else if (s.link l).rekey then finish c .busy [] 0 0 s
  else sendKeyExch l (s.modLink l (fun x => { x with rekeyCtx := some c }))

theorem linkRekey_runs {c : CmdCtx} {l : Nat} (ready : Ready 0x510 s) (root : c.part = 0) (low : l ≤ 31) :
    exec (.linkRekey c l) s = .next (linkRekeyWork c l (beginCmd c 0x510 s)) := by
  have ok : firstFail [p0Only c, (decide (31 < l), .badParam)] = none := by
    rw [firstFail_none]
    simp [p0Only, root, low]
  rw [exec_linkRekey, execLinkRekey, runCmd_ready ready ok]
  rfl

theorem linkRekeyWork_asks {c : CmdCtx} {l : Nat} (up : (s.link l).state = 3) (steady : (s.link l).rekey = false) :
    ∃ u m, linkRekeyWork c l s = u ∧ (u.link l).rekey = true ∧ (u.link l).rekeyCtx = some c ∧
      (u.link l).outQ = (s.link l).outQ ++ [(l, m)] ∧ m.mtype = 2 ∧ (∀ k, k ≠ l → u.link k = s.link k) ∧
      u = { s with fab := u.fab, free := s.free + 1 } := by
  have runs : linkRekeyWork c l s = sendKeyExch l (s.modLink l (fun x => { x with rekeyCtx := some c })) := by
    rw [linkRekeyWork, if_neg (by simp [State.linkUp, up]), if_neg (by simp [steady])]
  obtain ⟨u, m, is, rekey, ctx, outQ, kind, _, others, only⟩ := sendKeyExch_sends l (s.modLink l (fun x => { x with rekeyCtx := some c }))
  have own : (s.modLink l (fun x => { x with rekeyCtx := some c })).link l = { s.link l with rekeyCtx := some c } := link_setLink_self ..
  rw [own] at ctx outQ
  exact ⟨u, m, runs.trans is, rekey, ctx, outQ, kind, fun k ne => (others k ne).trans (link_setLink_ne (s := s) _ ne), only⟩

/-- Settles O44. -/
theorem linksComeUpAndDown : Obligations.LinksComeUpAndDown := by
  unfold Obligations.LinksComeUpAndDown
  refine ⟨?bring, ?keep, ?rekey⟩
  case bring =>
    intro l s running low
    refine ⟨linkTrained_auth running, fun no => congrArg _ (linkTrained_stays no), fun m empty none_ => ⟨fun other => ?_,
      fun auth => hello_takes running auth ⟨empty, none_⟩, ?_⟩⟩
    · rw [exec_hello, hello_eq, if_neg (by simp [other])]
    · refine ⟨fun auth chain joined idle => ⟨keyExch_ups running auth chain joined idle, keyExch_refuses running auth chain ⟨empty, none_⟩⟩,
        fun up good first steady sent => ?_⟩
      have own := link_setLink_self (s := takeMsg m s) l (nextKeys (fitTo 97 m.body) s.myNode l (s.link l))
      obtain ⟨state, newTx, txKey, open_, ended⟩ := nextKeys_facts (fitTo 97 m.body) s.myNode l (s.link l)
      refine ⟨_, (exec_keyExch ..).trans (congrArg _ (keyExch_rekeys running up good first steady sent)), ?_, ?_, ?_, ?_, ?_,
        fun k ne => link_setLink_ne (s := takeMsg m s) _ ne, rfl⟩
      all_goals rw [own]
      · rw [state, up]
      · exact newTx
      · exact txKey
      · exact open_
      · exact ended
  case keep =>
    intro l s running up
    refine ⟨fun no => congrArg _ (rekeyThreshold_stays no), fun steady due => ?_, fun below => congrArg _ (counterExhausted_stays below),
      fun used empty none_ => counterExhausted_leaves running up used ⟨empty, none_⟩⟩
    obtain ⟨t, m, is, rekey, _, outQ, kind, dst, others, only⟩ := sendKeyExch_sends l s
    exact ⟨t, m, by rw [exec_rekeyThreshold, rekeyThreshold_starts running up steady due, is], rekey, outQ, kind, dst, others, only⟩
  case rekey =>
    intro c l s ready root low b
    have kept := beginCmd_kept c 0x510 s
    have link (k : Nat) : b.link k = s.link k := congrArg (fun f : Fab => smGet ({} : Link) f.links k) kept.fab
    rw [linkRekey_runs ready root low]
    refine ⟨fun down => ?_, fun up going => ?_, fun up steady => ?_⟩
    · rw [linkRekeyWork, if_pos (by simpa [State.linkUp] using (link l).symm ▸ down)]
    · rw [linkRekeyWork, if_neg (by simpa [State.linkUp] using (link l).symm ▸ up), if_pos ((link l).symm ▸ going)]
    · obtain ⟨u, m, is, rekey, ctx, outQ, kind, others, only⟩ := linkRekeyWork_asks (s := b) (c := c) (l := l) (by rw [link, up]) (by rw [link, steady])
      rw [link] at outQ
      exact ⟨u, m, congrArg _ is, rekey, ctx, outQ, kind, fun k ne => (others k ne).trans (link k), by rwa [kept.free] at only⟩

end Sys2Proof.Proofs
end

