-- ==== Sys2Proof/Proofs/LinkFrames.lean ====
section
/-! PROOF. Frames of an up link, and gaps in the sequence of messages (O45). -/

namespace Sys2Proof.Proofs
open Sys2Proof.Machine

variable {s : State}

theorem exec_fabricFrameSend (l : Nat) (s : State) : exec (.fabricFrameSend l) s = .next (frameOut l s) := rfl
theorem exec_fabricFrameReceive (l : Nat) (f : Bytes) (s : State) : exec (.fabricFrameReceive l f) s = .next (frameIn l f s) := rfl
theorem exec_fabGapTimeoutExpire (src cls : Nat) (s : State) : exec (.fabGapTimeoutExpire src cls) s = .next (gapExpire src cls s) := rfl

theorem leaveGo_stays (stays : s.fab.leaving = none) : leaveGo s = s := by
  unfold leaveGo
  rw [stays]

/-! ### The counters of a link -/

theorem linkCtr_ne (l : Nat) {a b : LinkCtr} (ne : a.ctorIdx ≠ b.ctorIdx) : (Ctr.link l a).key ≠ (Ctr.link l b).key := by
  simp only [Ctr.key, ctrKey]
  omega

/-! ### Frames sent -/

/-- A link that has sent a frame. -/
def sentFrame (b : Bytes) (x : Link) : Link := { x with lastOut := b, sent := x.sent + 1 }

theorem sendBytes_eq (l : Nat) (b : Bytes) (s : State) :
    sendBytes l b s = ((s.modLink l (sentFrame b)).count (.link l .txBytes) b.length).count (.link l .framesSent) := rfl

theorem sendBytes_link_self (l : Nat) (b : Bytes) (s : State) : (sendBytes l b s).link l = sentFrame b (s.link l) := link_setLink_self (s := s) ..

theorem sendBytes_link_ne {l k : Nat} (b : Bytes) (ne : k ≠ l) : (sendBytes l b s).link k = s.link k := link_setLink_ne (s := s) _ ne

theorem sendBytes_framesSent (l : Nat) (b : Bytes) (s : State) :
    (sendBytes l b s).cntAt (Ctr.link l .framesSent).key = s.cntAt (Ctr.link l .framesSent).key + 1 := by
  rw [sendBytes_eq, cntAt_count_self, cntAt_count_ne (linkCtr_ne l (by decide))]
  rfl

theorem sendBytes_retries (l : Nat) (b : Bytes) (s : State) :
    (sendBytes l b s).cntAt (Ctr.link l .retries).key = s.cntAt (Ctr.link l .retries).key := by
  rw [sendBytes_eq, cntAt_count_ne (linkCtr_ne l (by decide)), cntAt_count_ne (linkCtr_ne l (by decide))]
  rfl

theorem frameOut_held {l : Nat} (running : s.sys.mode = .running) (go : s.obs.stop = none) (stays : s.fab.leaving = none)
    (no : s.linkUp l = false ∨ s.linkLit l = false) : frameOut l s = s := by
  have off : ¬ (s.linkUp l && s.linkLit l && !laneMoving s l) = true := by
    rcases no with down | dark
    · simp [down]
    · simp [dark]
  unfold frameOut
  rw [go]
  dsimp only
  rw [frameSend, if_pos (fabUp_of_running running), if_neg off, leaveGo_stays stays]

theorem frameOut_sends {l : Nat} (running : s.sys.mode = .running) (go : s.obs.stop = none) (up : s.linkUp l = true)
    (lit : s.linkLit l = true) (still : laneMoving s l = false) : frameOut l s = leaveGo (linkSend l s) := by
  unfold frameOut
  rw [go]
  dsimp only
  rw [frameSend, if_pos (fabUp_of_running running), if_pos (by simp [up, lit, still])]

/-- A link that takes the next frame to send again. -/
def retried (r : List LFrame) (x : Link) : Link := { x with resend := r, retries := x.retries + 1 }

theorem linkSend_again {l : Nat} {f : LFrame} {r : List LFrame} (again : (s.link l).resend = f :: r) :
    linkSend l s = sendBytes l f.bytes ((s.modLink l (retried r)).count (.link l .retries)) := by
  unfold linkSend
  rw [again]
  rfl

theorem linkSend_full {l : Nat} (none_ : (s.link l).resend = []) (full : 128 ≤ (s.link l).retry.length) : linkSend l s = s := by
  unfold linkSend
  rw [none_]
  exact if_neg (Nat.not_lt.mpr full)

/-- With no message waiting nothing starts. -/
theorem fillTx_idle {l : Nat} (n : Nat) (empty : (s.link l).outQ = []) : fillTx l n s = s := by
  have notReady (c : Nat) : (s.link l).ready c = none := by simp [Link.ready, empty]
  have pick (q : Nat → Nat) (k : Nat) : linkPick q k (s.link l) = none := by
    cases k with
    | zero => rfl
    | succ k => simp [linkPick, notReady]
  cases n with
  | zero => rfl
  | succ n =>
    unfold fillTx
    split
    · rfl
    · simp [nextClass, notReady, pick]

/-- The frame of a link with nothing to say. -/
def idleFrame (l : Nat) (s : State) : Bytes :=
  frameBytes s.myNode l (s.link l) true false (nextSel (s.link l)) []

/-- The link after a new IDLE frame. -/
def idled (b : Bytes) (x : Link) : Link :=
  { x with txBuf := [], crSel := nextSel x, crTold := smSet x.crTold (nextSel x) (smGet 0 x.crRet (nextSel x)), retry := x.retry ++ [⟨x.txPhase, x.txCtr, b, []⟩], begun := [], txCtr := x.txCtr + 1 }

theorem linkSend_idle {l : Nat} (none_ : (s.link l).resend = []) (room : (s.link l).retry.length < 128) (empty : (s.link l).outQ = [])
    (buf : (s.link l).txBuf = []) (key : (s.link l).newTx = none) (steady : (s.link l).switching = false) (begun : (s.link l).begun = []) :
    linkSend l s = sendBytes l (idleFrame l s) (s.setLink l (idled (idleFrame l s) (s.link l))) := by
  have notLast (r : Bytes) : isPhaseEnd (s.link l) r = false := by simp [isPhaseEnd, key]
  have notFirst : ((s.link l).switching && decide ((s.link l).txCtr = 0)) = false := by
    rw [steady]
    rfl
  unfold linkSend
  rw [none_]
  dsimp only
  rw [if_pos room]
  unfold sendNew
  rw [fillTx_idle 128 empty]
  dsimp only
  simp only [buf, List.drop_nil, notLast, notFirst, begun, List.isEmpty_nil, Bool.false_eq_true, if_false, List.filter_nil, List.map_nil]
  rfl

theorem gcmSeal_length (key : Nat) (nonce aad plain : Bytes) : (gcmSeal key nonce aad plain).length = plain.length + 16 := by
  simp [gcmSeal]

theorem frameHead_length (x : Link) (idle last : Bool) (sel : Nat) : (frameHead x idle last sel).length = 12 := by
  simp [frameHead]

theorem frameBytes_parts (node l : Nat) (x : Link) (idle last : Bool) (sel : Nat) (payload : Bytes) : ∃ c : Bytes, c.length = 1984 ∧
    frameBytes node l x idle last sel payload = frameHead x idle last sel ++ c ++ leBytes 4 (crc32c (frameHead x idle last sel ++ c)).toNat :=
  ⟨_, by rw [gcmSeal_length, fitTo_length], rfl⟩

theorem frameBytes_length (node l : Nat) (x : Link) (idle last : Bool) (sel : Nat) (payload : Bytes) :
    (frameBytes node l x idle last sel payload).length = 2000 := by
  obtain ⟨c, hc, is⟩ := frameBytes_parts node l x idle last sel payload
  rw [is]
  simp [frameHead_length, hc]

theorem frameBytes_crc (node l : Nat) (x : Link) (idle last : Bool) (sel : Nat) (payload : Bytes) :
    uAt (frameBytes node l x idle last sel payload) 1996 4 = (crc32c ((frameBytes node l x idle last sel payload).take 1996)).toNat := by
  obtain ⟨c, hc, is⟩ := frameBytes_parts node l x idle last sel payload
  have long : (frameHead x idle last sel ++ c).length = 1996 := by simp [frameHead_length, hc]
  rw [is, List.take_left' long, uAt_append_right (by omega), long, ← List.append_nil (leBytes 4 _), uAt_leBytes]
  exact Nat.mod_eq_of_lt (BitVec.isLt _)

theorem frameBytes_idle (node l : Nat) (x : Link) (sel : Nat) (payload : Bytes) :
    (uAt (frameBytes node l x true false sel payload) 3 1).testBit 1 = true := by
  obtain ⟨c, hc, is⟩ := frameBytes_parts node l x true false sel payload
  have flags : uAt (frameHead x true false sel) 3 1 = b2n x.txPhase + 2 + b2n x.expPhase * 8 := by
    simp only [frameHead, List.append_assoc]
    rw [uAt_append_right (by simp), leBytes_length, uAt_leBytes]
    cases x.txPhase <;> cases x.expPhase <;> rfl
  rw [is, List.append_assoc, uAt_append_left (by rw [frameHead_length]; decide), flags]
  cases x.txPhase <;> cases x.expPhase <;> rfl

/-- A new frame of a link with nothing to say is IDLE, and is kept for retry. -/
theorem frameOut_idle {l : Nat} (running : s.sys.mode = .running) (go : s.obs.stop = none) (stays : s.fab.leaving = none)
    (up : s.linkUp l = true) (lit : s.linkLit l = true) (still : laneMoving s l = false)
    (none_ : (s.link l).resend = []) (room : (s.link l).retry.length < 128) (empty : (s.link l).outQ = [])
    (buf : (s.link l).txBuf = []) (key : (s.link l).newTx = none) (steady : (s.link l).switching = false) (begun : (s.link l).begun = []) :
    ∃ t b, exec (.fabricFrameSend l) s = .next t ∧ (t.link l).lastOut = b ∧ b.length = 2000 ∧
          (t.link l).retry = (s.link l).retry ++ [⟨(s.link l).txPhase, (s.link l).txCtr, b, []⟩] ∧ (t.link l).txCtr = (s.link l).txCtr + 1 ∧
          (uAt b 3 1).testBit 1 = true ∧ uAt b 1996 4 = (crc32c (b.take 1996)).toNat ∧
          t.cntAt (Ctr.link l .framesSent).key = s.cntAt (Ctr.link l .framesSent).key + 1 ∧
          (∀ k, k ≠ l → t.link k = s.link k) ∧
          t = { s with fab := { s.fab with links := t.fab.links }, obs := t.obs } := by
  have runs : frameOut l s = sendBytes l (idleFrame l s) (s.setLink l (idled (idleFrame l s) (s.link l))) := by
    rw [frameOut_sends running go up lit still, linkSend_idle none_ room empty buf key steady begun]
    exact leaveGo_stays stays
  have own := sendBytes_link_self l (idleFrame l s) (s.setLink l (idled (idleFrame l s) (s.link l)))
  rw [link_setLink_self] at own
  exact ⟨_, idleFrame l s, by rw [exec_fabricFrameSend, runs], congrArg Link.lastOut own, frameBytes_length .., congrArg Link.retry own,
    congrArg Link.txCtr own, frameBytes_idle .., frameBytes_crc .., sendBytes_framesSent ..,
    fun k ne => (sendBytes_link_ne _ ne).trans (link_setLink_ne (s := s) _ ne), rfl⟩

theorem frameOut_again {l : Nat} {f : LFrame} {r : List LFrame} (running : s.sys.mode = .running) (go : s.obs.stop = none)
    (stays : s.fab.leaving = none) (up : s.linkUp l = true) (lit : s.linkLit l = true) (still : laneMoving s l = false)
    (again : (s.link l).resend = f :: r) : ∃ t, exec (.fabricFrameSend l) s = .next t ∧
        t.link l = { s.link l with resend := r, retries := (s.link l).retries + 1, lastOut := f.bytes, sent := (s.link l).sent + 1 } ∧
        (∀ k, k ≠ l → t.link k = s.link k) ∧
        t.cntAt (Ctr.link l .retries).key = s.cntAt (Ctr.link l .retries).key + 1 ∧
        t.cntAt (Ctr.link l .framesSent).key = s.cntAt (Ctr.link l .framesSent).key + 1 ∧
        t = { s with fab := { s.fab with links := t.fab.links }, obs := t.obs } := by
  have runs : frameOut l s = sendBytes l f.bytes ((s.modLink l (retried r)).count (.link l .retries)) := by
    rw [frameOut_sends running go up lit still, linkSend_again again]
    exact leaveGo_stays stays
  have own : ((s.modLink l (retried r)).count (.link l .retries)).link l = retried r (s.link l) := link_setLink_self (s := s) ..
  have other {k : Nat} (ne : k ≠ l) : ((s.modLink l (retried r)).count (.link l .retries)).link k = s.link k := link_setLink_ne (s := s) _ ne
  have retries : ((s.modLink l (retried r)).count (.link l .retries)).cntAt (Ctr.link l .retries).key = s.cntAt (Ctr.link l .retries).key + 1 :=
    cntAt_count_self ..
  have frames : ((s.modLink l (retried r)).count (.link l .retries)).cntAt (Ctr.link l .framesSent).key = s.cntAt (Ctr.link l .framesSent).key :=
    cntAt_count_ne (linkCtr_ne l (by decide))
  have only : ((s.modLink l (retried r)).count (.link l .retries)) = { s with
      fab := { s.fab with links := ((s.modLink l (retried r)).count (.link l .retries)).fab.links }
      obs := ((s.modLink l (retried r)).count (.link l .retries)).obs } := rfl
  generalize (s.modLink l (retried r)).count (.link l .retries) = u at runs own other retries frames only
  refine ⟨sendBytes l f.bytes u, by rw [exec_fabricFrameSend, runs], ?_, fun k ne => (sendBytes_link_ne _ ne).trans (other ne), ?_, ?_, ?_⟩
  · rw [sendBytes_link_self, own]
    rfl
  · rw [sendBytes_retries, retries]
  · rw [sendBytes_framesSent, frames]
  · rw [only]
    rfl

/-! ### Frames received -/

theorem frameIn_receives {l : Nat} {f : Bytes} (running : s.sys.mode = .running) (go : s.obs.stop = none) (up : s.linkUp l = true)
    (lit : s.linkLit l = true) (still : laneMoving s l = false) : frameIn l f s = leaveGo (linkReceive l f s) := by
  unfold frameIn
  rw [go]
  dsimp only
  rw [if_pos (by simp [fabUp_of_running running, up, lit, still])]

/-- The frame has its length and its CRC. -/
def crcGood (f : Bytes) : Prop := f.length = 2000 ∧ uAt f 1996 4 = (crc32c (f.take 1996)).toNat

theorem crcGood_iff (f : Bytes) : (f.length ≠ 2000 ∨ uAt f 1996 4 ≠ (crc32c (f.take 1996)).toNat) ↔ ¬ crcGood f :=
  Decidable.not_and_iff_not_or_not.symm

theorem linkReceive_bad {l : Nat} {f : Bytes} (bad : ¬ crcGood f) :
    linkReceive l f s = frameBad l (s.count (.link l .rxBytes) f.length) :=
  if_pos ((crcGood_iff f).mpr bad)

theorem frameBad_eq (l : Nat) (s : State) : frameBad l s =
    (s.modLink l (fun x => { x with nakCnt := x.nakCnt + 1, prevBad := true })).count (.link l .retryNolane) := rfl

/-- What a frame with a good CRC does, by what its tag opens to. -/
theorem linkReceive_tagged {l : Nat} {f : Bytes} {k ctr : Nat} (good : crcGood f) (key : (s.link l).tagKey (f.take 12) = some (k, ctr)) :
    linkReceive l f s =
      let u := s.count (.link l .rxBytes) f.length
      match gcmOpen s k (linkNonce (s.link l).peer (s.link l).peerLink ctr) (f.take 12) (slice f 12 1984) with
      | none => tagBad l u
      | some p => if (uAt (f.take 12) 3 1).testBit 0 = (s.link l).expPhase ∧ ctr = (s.link l).expCtr then acceptFrame l (f.take 12) p u
          else unexpected l u := by
  have same : ((s.count (.link l .rxBytes) f.length).link l).tagKey (f.take 12) = some (k, ctr) := key
  unfold linkReceive
  dsimp only
  rw [if_neg (mt (crcGood_iff f).mp (Classical.not_not.mpr good)), same]
  rfl

theorem frameIn_bad {l : Nat} {f : Bytes} (running : s.sys.mode = .running) (go : s.obs.stop = none) (stays : s.fab.leaving = none)
    (up : s.linkUp l = true) (lit : s.linkLit l = true) (still : laneMoving s l = false) (bad : ¬ crcGood f) :
    ∃ t, exec (.fabricFrameReceive l f) s = .next t ∧
      t.link l = { s.link l with nakCnt := (s.link l).nakCnt + 1, prevBad := true } ∧ (∀ k, k ≠ l → t.link k = s.link k) ∧
      t.cntAt (Ctr.link l .rxBytes).key = s.cntAt (Ctr.link l .rxBytes).key + BitVec.ofNat 64 f.length ∧
      t = { s with fab := { s.fab with links := t.fab.links }, obs := t.obs } := by
  have runs : frameIn l f s = frameBad l (s.count (.link l .rxBytes) f.length) := by
    rw [frameIn_receives running go up lit still, linkReceive_bad bad]
    exact leaveGo_stays stays
  refine ⟨frameBad l (s.count (.link l .rxBytes) f.length), by rw [exec_fabricFrameReceive, runs], link_setLink_self (s := s) .., fun k ne => link_setLink_ne (s := s) _ ne, ?_, rfl⟩
  rw [frameBad_eq, cntAt_count_ne (linkCtr_ne l (by decide))]
  exact cntAt_count_self ..

/-- A link one of whose frames fails its tag. -/
def tagFailed (x : Link) : Link :=
  { x with authFail := x.authFail + 1, tagFails := x.tagFails + 1, nakCnt := x.nakCnt + 1, prevBad := true }

theorem tagBad_eq {l : Nat} (few : (s.link l).tagFails < 3) : tagBad l s =
    ((s.setLink l (tagFailed (s.link l))).count (.link l .authFail)).count (.link l .retryNolane) := by
  let t := (s.modLink l (fun x => { x with authFail := x.authFail + 1, tagFails := x.tagFails + 1 })).count (.link l .authFail)
  have own : t.link l = { s.link l with authFail := (s.link l).authFail + 1, tagFails := (s.link l).tagFails + 1 } := link_setLink_self (s := s) ..
  have bad : frameBad l t = ((s.setLink l (tagFailed (s.link l))).count (.link l .authFail)).count (.link l .retryNolane) := by
    rw [frameBad_eq, State.modLink, own]
    exact congrArg (fun u : State => (u.count (.link l .authFail)).count (.link l .retryNolane)) (setLink_setLink (s := s) ..)
  have fails : ¬ 4 ≤ ((frameBad l t).link l).tagFails := by
    have same : (frameBad l t).link l = tagFailed (s.link l) := by
      rw [bad]
      exact link_setLink_self (s := s) ..
    rw [same]
    exact Nat.not_le.mpr (Nat.succ_lt_succ few)
  exact (if_neg fails).trans bad

theorem tagBad_counts {l : Nat} (few : (s.link l).tagFails < 3) : ∃ t, tagBad l s = t ∧ t.link l = tagFailed (s.link l) ∧
    t.cntAt (Ctr.link l .authFail).key = s.cntAt (Ctr.link l .authFail).key + 1 ∧
    t = { s with fab := { s.fab with links := t.fab.links }, obs := t.obs } := by
  refine ⟨_, tagBad_eq few, link_setLink_self (s := s) .., ?_, rfl⟩
  rw [cntAt_count_ne (linkCtr_ne l (by decide)), cntAt_count_self]
  rfl

theorem frameIn_tagBad {l : Nat} {f : Bytes} {k ctr : Nat} (running : s.sys.mode = .running) (go : s.obs.stop = none)
    (stays : s.fab.leaving = none) (up : s.linkUp l = true) (lit : s.linkLit l = true) (still : laneMoving s l = false)
    (good : crcGood f) (key : (s.link l).tagKey (f.take 12) = some (k, ctr))
    (fails : gcmOpen s k (linkNonce (s.link l).peer (s.link l).peerLink ctr) (f.take 12) (slice f 12 1984) = none)
    (few : (s.link l).tagFails < 3) : ∃ t, exec (.fabricFrameReceive l f) s = .next t ∧ t.link l = tagFailed (s.link l) ∧
        t.cntAt (Ctr.link l .authFail).key = s.cntAt (Ctr.link l .authFail).key + 1 ∧
        t = { s with fab := { s.fab with links := t.fab.links }, obs := t.obs } := by
  have received := linkReceive_tagged good key
  rw [fails] at received
  have stays_ : (s.count (.link l .rxBytes) f.length).fab = s.fab := rfl
  have same : (s.count (.link l .rxBytes) f.length).cntAt (Ctr.link l .authFail).key = s.cntAt (Ctr.link l .authFail).key :=
    cntAt_count_ne (linkCtr_ne l (by decide))
  have only : s.count (.link l .rxBytes) f.length = { s with obs := (s.count (.link l .rxBytes) f.length).obs } := rfl
  generalize s.count (.link l .rxBytes) f.length = u at received stays_ same only
  dsimp only at received
  have link : u.link l = s.link l := congrArg (fun f : Fab => smGet ({} : Link) f.links l) stays_
  obtain ⟨t, is, own, counted, rest⟩ := tagBad_counts (s := u) (l := l) (by rw [link]; exact few)
  refine ⟨t, ?_, own.trans (congrArg _ link), counted.trans (congrArg (· + 1) same), ?_⟩
  · rw [exec_fabricFrameReceive, frameIn_receives running go up lit still, received, is, leaveGo_stays]
    rw [rest, stays_]
    exact stays
  · rw [rest, only]

theorem applyHead_facts (h : Bytes) (x : Link) : (applyHead h x).expCtr = x.expCtr ∧ (applyHead h x).state = x.state ∧
    (applyHead h x).rxKey = x.rxKey ∧ (applyHead h x).tagFails = x.tagFails ∧ (applyHead h x).rxBuf = x.rxBuf := by
  unfold applyHead applyAck
  dsimp only
  split
  · exact ⟨rfl, rfl, rfl, rfl, rfl⟩
  · exact ⟨rfl, rfl, rfl, rfl, rfl⟩

/-- A frame that is good and expected. -/
def advanced (h : Bytes) (x : Link) : Link := applyHead h { x with expCtr := x.expCtr + 1, prevBad := false, tagFails := 0 }

theorem acceptFrame_idle {l : Nat} {h p : Bytes} (idle : (uAt h 3 1).testBit 1 = true) (on : (uAt h 3 1).testBit 2 = false) :
    acceptFrame l h p s = s.modLink l (advanced h) := by
  unfold acceptFrame
  dsimp only
  rw [if_pos idle]
  simp only [on, Bool.false_eq_true, if_false]
  rfl

theorem frameIn_idle {l : Nat} {f p : Bytes} {k ctr : Nat} (running : s.sys.mode = .running) (go : s.obs.stop = none)
    (stays : s.fab.leaving = none) (up : s.linkUp l = true) (lit : s.linkLit l = true) (still : laneMoving s l = false)
    (good : crcGood f) (key : (s.link l).tagKey (f.take 12) = some (k, ctr))
    (opens : gcmOpen s k (linkNonce (s.link l).peer (s.link l).peerLink ctr) (f.take 12) (slice f 12 1984) = some p)
    (expected : (uAt (f.take 12) 3 1).testBit 0 = (s.link l).expPhase ∧ ctr = (s.link l).expCtr)
    (idle : (uAt (f.take 12) 3 1).testBit 1 = true) (on : (uAt (f.take 12) 3 1).testBit 2 = false) :
    ∃ t, exec (.fabricFrameReceive l f) s = .next t ∧ (t.link l).expCtr = (s.link l).expCtr + 1 ∧ (t.link l).state = 3 ∧
          (t.link l).rxKey = (s.link l).rxKey ∧ (t.link l).tagFails = 0 ∧ (t.link l).rxBuf = (s.link l).rxBuf ∧
          (∀ k, k ≠ l → t.link k = s.link k) ∧
          t = { s with fab := { s.fab with links := t.fab.links }, obs := t.obs } := by
  have received := linkReceive_tagged good key
  rw [opens] at received
  dsimp only at received
  rw [if_pos expected, acceptFrame_idle idle on] at received
  have own : ((s.count (.link l .rxBytes) f.length).modLink l (advanced (f.take 12))).link l = advanced (f.take 12) (s.link l) := link_setLink_self (s := s) ..
  obtain ⟨ctr, state, key, fails, buf⟩ := applyHead_facts (f.take 12) { s.link l with expCtr := (s.link l).expCtr + 1, prevBad := false, tagFails := 0 }
  refine ⟨_, ?_, (congrArg Link.expCtr own).trans ctr, (congrArg Link.state own).trans (state.trans (of_decide_eq_true up)),
    (congrArg Link.rxKey own).trans key, (congrArg Link.tagFails own).trans fails, (congrArg Link.rxBuf own).trans buf,
    fun k ne => link_setLink_ne (s := s) _ ne, rfl⟩
  rw [exec_fabricFrameReceive, frameIn_receives running go up lit still, received]
  exact congrArg _ (leaveGo_stays stays)

theorem frameIn_unexpected {l : Nat} {f p : Bytes} {k ctr : Nat} (running : s.sys.mode = .running) (go : s.obs.stop = none)
    (stays : s.fab.leaving = none) (up : s.linkUp l = true) (lit : s.linkLit l = true) (still : laneMoving s l = false)
    (good : crcGood f) (key : (s.link l).tagKey (f.take 12) = some (k, ctr))
    (opens : gcmOpen s k (linkNonce (s.link l).peer (s.link l).peerLink ctr) (f.take 12) (slice f 12 1984) = some p)
    (other : ¬ ((uAt (f.take 12) 3 1).testBit 0 = (s.link l).expPhase ∧ ctr = (s.link l).expCtr))
    (fine : (s.link l).prevBad = false) (on : (s.link l).ended = false) :
    exec (.fabricFrameReceive l f) s = .next (s.count (.link l .rxBytes) f.length) := by
  have received := linkReceive_tagged good key
  have stays_ : unexpected l (s.count (.link l .rxBytes) f.length) = s.count (.link l .rxBytes) f.length :=
    if_neg (by
      change ¬ ((s.link l).prevBad || (s.link l).ended) = true
      simp [fine, on])
  rw [opens] at received
  dsimp only at received
  rw [if_neg other, stays_] at received
  rw [exec_fabricFrameReceive, frameIn_receives running go up lit still, received]
  exact congrArg _ (leaveGo_stays stays)

/-! ### Gaps in the sequence -/

theorem gapExpire_early {src cls : Nat} {t : DWord} (since : smFind s.fab.gapSince (seqKey src cls) = some t)
    (early : s.now.toNat < t.toNat + s.fval .fabGapTimeout * 1000) : gapExpire src cls s = s := by
  unfold gapExpire
  rw [since]
  exact if_neg (by simp [Nat.not_le.mpr early])

theorem gapExpire_due {src cls : Nat} {t : DWord} (running : s.sys.mode = .running) (since : smFind s.fab.gapSince (seqKey src cls) = some t)
    (due : t.toNat + s.fval .fabGapTimeout * 1000 ≤ s.now.toNat) : gapExpire src cls s = skipGap src cls s := by
  unfold gapExpire
  rw [since]
  exact if_pos (by simp [fabUp_of_running running, due])

/-- A message handed over joins the inbox. -/
theorem handOver_joins (l : Nat) {m : Msg} (kind : classOf m.mtype = some m.cls) (s : State) : ∃ k o, handOver l m s =
    { s with fab := { s.fab with links := k, mseqRx := smSet s.fab.mseqRx (seqKey m.src m.cls) ((m.mseq + 1) % 65536), inbox := s.fab.inbox ++ [(l, m)] }, obs := o } := by
  have paid : ∃ k, (if 1 ≤ m.hop then returnCredit l m m.hop s else s) = { s with fab := { s.fab with links := k } } := by
    unfold returnCredit
    split
    · split
      · exact ⟨_, rfl⟩
      · exact ⟨_, rfl⟩
    · exact ⟨_, rfl⟩
  obtain ⟨k, paid⟩ := paid
  unfold handOver
  dsimp only
  rw [paid, if_pos kind]
  exact ⟨k, _, rfl⟩

theorem noteGap_closed {src cls : Nat} (fresh : Bool) (empty : s.fab.reorder = []) :
    noteGap src cls fresh s = { s with fab := { s.fab with gapSince := smDel s.fab.gapSince (seqKey src cls) } } := by
  simp [noteGap, hasEarly, empty]

/-- A gap behind which a single message waits is skipped, and that message is delivered. -/
theorem skipGap_delivers {src cls l : Nat} {m : Msg} (one : s.fab.reorder = [(l, m)]) (from_ : m.src = src) (of : m.cls = cls)
    (kind : classOf m.mtype = some cls) : ∃ t, skipGap src cls s = t ∧
        t.fab.inbox = s.fab.inbox ++ [(l, m)] ∧ t.fab.reorder = [] ∧ t.expMseq src cls = (m.mseq + 1) % 65536 ∧
        smFind t.fab.gapSince (seqKey src cls) = none ∧ t = { s with fab := t.fab, obs := t.obs } := by
  subst from_ of
  let u := (s.setFab { s.fab with mseqRx := smSet s.fab.mseqRx (seqKey m.src m.cls) m.mseq }).count (.module_ .fabSeqGap)
  have next : u.expMseq m.src m.cls = m.mseq := smGet_smSet_self ..
  have turn : expected u m.src m.cls (l, m) = true := by simp [expected, next]
  have mine : s.fab.reorder.filter (fun x => decide (x.2.src = m.src) && decide (x.2.cls = m.cls)) = [(l, m)] := by
    rw [one]
    simp
  have skips : skipGap m.src m.cls s = noteGap m.src m.cls true (drainReorder m.src m.cls 1 u) := by
    unfold skipGap
    dsimp only
    rw [mine]
    change noteGap m.src m.cls true (drainReorder m.src m.cls s.fab.reorder.length u) = _
    rw [one]
    rfl
  obtain ⟨k, o, joins⟩ := handOver_joins l kind { u with fab := { u.fab with reorder := [] } }
  have drained : drainReorder m.src m.cls 1 u = handOver l m { u with fab := { u.fab with reorder := [] } } := by
    have has : u.fab.reorder = [(l, m)] := one
    unfold drainReorder
    rw [has, List.find?_cons_of_pos turn]
    dsimp only
    rw [delFirst, if_pos turn]
    rfl
  rw [skips, drained, joins, noteGap_closed true rfl]
  exact ⟨_, rfl, rfl, rfl, smGet_smSet_self .., smFind_smDel_self .., rfl⟩

/-- Settles O45. -/
theorem framesTravel : Obligations.FramesTravel := by
  unfold Obligations.FramesTravel
  refine ⟨?send, ?receive, ?gap⟩
  case send =>
    intro l s running go stays x
    refine ⟨fun no => congrArg _ (frameOut_held running go stays no), fun up lit still =>
      ⟨fun f r again => frameOut_again running go stays up lit still again, fun none_ full => ?_, frameOut_idle running go stays up lit still⟩⟩
    rw [exec_fabricFrameSend, frameOut_sends running go up lit still, linkSend_full none_ full, leaveGo_stays stays]
  case receive =>
    intro l f s running go stays up lit still x good
    refine ⟨frameIn_bad running go stays up lit still, fun k ctr ok key => ⟨frameIn_tagBad running go stays up lit still ok key,
      fun p opens exp idle on => frameIn_idle running go stays up lit still ok key opens exp idle on, fun p opens other fine on => ?_⟩⟩
    exact ⟨_, frameIn_unexpected running go stays up lit still ok key opens other fine on, rfl⟩
  case gap =>
    intro src cls t0 s running since
    refine ⟨fun early => congrArg _ (gapExpire_early since early), fun l m due one from_ of kind => ?_⟩
    obtain ⟨t, is, facts⟩ := skipGap_delivers one from_ of kind
    exact ⟨t, by rw [exec_fabGapTimeoutExpire, gapExpire_due running since due, is], facts⟩

end Sys2Proof.Proofs
end

