-- ==== Sys2Proof/Proofs/Starts.lean ====
section
/-! PROOF. A START whose wait under FENCE is traced (O53): its trace record goes to HBM as the command starts, while the statement has
HBM as it was before the command. -/

namespace Sys2Proof.Proofs
open Sys2Proof.Machine

/-- A START that partition 0 sends on ring 0. -/
def ringStart : CmdCtx := { src := .ring 0, part := 0, flags := 0, seq := 0, layer := 0, oper := 0, tag := 0 }

/-- A running module, 1 µs old, in which a START with FENCE was fetched at 0 and partition 0 traces such waits in HBM. -/
def tracedStart : State :=
  { State.reset with
    sys := { State.reset.sys with mode := .running }
    clk := { State.reset.clk with ft := 1000 }
    rings := [(0, { inFlight := [{ ctx := ringStart, opc := 0x010, fetched := some 0 }] })]
    obs := { State.reset.obs with traces := [(0, { mask := 0x80, size := 65536, addr := 0 })] } }

/-- How many bytes of HBM are not zero. -/
def hbmBytes (o : Host.Outcome State Fault Refusal) : Nat :=
  match o with
  | .next t => t.hbm.length
  | _ => 0

theorem hbmBytes_tracedStart : hbmBytes (exec (.start ringStart 0) tracedStart) = 6 := by decide +kernel

theorem alone_tracedStart : othersOpen ringStart (fun _ => true) (beginCmd ringStart 0x010 tracedStart) = false := by decide +kernel

/-- Refutes O53: the record of a START's wait under FENCE is written to HBM. -/
theorem not_startsAndShutdown : ¬ Obligations.StartsAndShutdown := by
  unfold Obligations.StartsAndShutdown
  rintro ⟨starts, _⟩
  obtain ⟨u, runs, _, _, _, _, _, _, _, _, _, same, _⟩ :=
    ((starts ringStart 0 tracedStart (by decide) rfl).2 (.inl rfl)).1 alone_tracedStart
  have bytes := hbmBytes_tracedStart
  rw [runs] at bytes
  have none_ : u.hbm.length = 0 := by
    rw [same]
    rfl
  exact absurd (bytes.symm.trans none_) (by decide)

end Sys2Proof.Proofs
end

