-- ==== Sys2Proof/Proofs/Partitions.lean ====
section
/-! PROOF. A PART_RESET that aborts itself (O47): the commands of the partition's other rings are aborted by their contexts, and the
statement allows one of those to be the reset's own. -/

namespace Sys2Proof.Proofs
open Sys2Proof.Machine

/-- A PART_RESET that partition 0 sends on ring 0. -/
def ringReset : CmdCtx := { src := .ring 0, part := 0, flags := 0, seq := 0, layer := 0, oper := 0, tag := 0 }

/-- A running module in which a tile command of partition 1 runs, and ring 1 of partition 1 lists the reset's context. -/
def resetListed : State :=
  { State.reset with
    sys := { State.reset.sys with mode := .running }
    parts := [(1, { state := 1 })]
    rings := [(0, { inFlight := [{ ctx := ringReset, opc := 0x602 }] }), (1, { part := 1, inFlight := [{ ctx := ringReset, opc := 0x602 }] })]
    tiles := { State.reset.tiles with cmds := [⟨0, 0, 0, 1, true, [], 1, 0, 0, 0, 0, [], true, none, none, 0, none⟩] } }

/-- The state of partition 1. -/
def stateOfOne (o : Host.Outcome State Fault Refusal) : Nat :=
  match o with
  | .next t => (t.part 1).state
  | _ => 0

theorem stateOfOne_resetListed : stateOfOne (exec (.partReset ringReset 1) resetListed) = 1 := by decide +kernel

/-- Refutes O47: a PART_RESET whose context another ring of the partition lists leaves the partition CREATED while it waits, not
RESETTING. -/
theorem not_partitionsComeAndGo : ¬ Obligations.PartitionsComeAndGo := by
  unfold Obligations.PartitionsComeAndGo
  rintro ⟨_, resets, _⟩
  obtain ⟨u, runs, state, _⟩ := (resets ringReset 1 resetListed (by decide) (.inl rfl) (by decide) (by decide)).2.2.1 (.inl (by decide)) (by decide)
    (by decide) (by decide) (by decide)
  have left := stateOfOne_resetListed
  rw [runs] at left
  exact absurd (left.symm.trans state) (by decide)

end Sys2Proof.Proofs
end

