-- ==== Sys2Proof/Proofs/Keys.lean ====
section
/-! PROOF. Key rotation and the ends of RINSE's walks, command keys, reports and SPDM (O48). -/

namespace Sys2Proof.Proofs
open Sys2Proof.Machine

variable {s : State}

/-! ### Regions and walks -/

theorem region_setRegion_self (r : Nat) (x : Region) : (s.setRegion r x).region r = some x := smFind_smSet_self ..
theorem region_setRegion_ne {r k : Nat} (x : Region) (ne : k ≠ r) : (s.setRegion r x).region k = s.region k := smFind_smSet_ne _ _ ne

/-- A region whose walk, if any, is brought up to date. -/
def walked (s : State) (r : Nat) (x : Region) : Region := if x.state = 0 then x else { x with done := walkDone s r x, mark := s.now }

theorem region_settleWalks (k : Nat) : (settleWalks s).region k = (s.region k).map (walked s k) := by
  have found := smFind_map s.regions (fun e => if e.2.state = 0 then e else (e.1, { e.2 with done := walkDone s e.1 e.2, mark := s.now }))
    (fun e => by dsimp only; split <;> rfl) k
  refine (show (settleWalks s).region k = _ from found).trans (congrArg (fun f => (s.region k).map f) (funext fun x => ?_))
  unfold walked
  split
  · rfl
  · rfl

theorem walked_facts (t : State) (k : Nat) (x : Region) : (walked t k x).key0 = x.key0 ∧ (walked t k x).key1 = x.key1 ∧
    (walked t k x).state = x.state := by
  unfold walked
  split
  · exact ⟨rfl, rfl, rfl⟩
  · exact ⟨rfl, rfl, rfl⟩

/-- The other regions keep their keys and states. -/
def OthersKeyed (r : Nat) (s t : State) : Prop :=
  ∀ k z, k ≠ r → s.region k = some z → ∃ w, t.region k = some w ∧ w.key0 = z.key0 ∧ w.key1 = z.key1 ∧ w.state = z.state

theorem othersKeyed_settled {r : Nat} {t : State} (same : ∀ k, k ≠ r → t.region k = (settleWalks s).region k) : OthersKeyed r s t := by
  intro k z ne at_
  refine ⟨walked s k z, ?_, walked_facts ..⟩
  rw [same k ne, region_settleWalks, at_]
  rfl

theorem walkComplete_walking {r : Nat} {x : Region} (at_ : s.region r = some x) (before : walkDone s r x < walkBytes s r x) :
    walkComplete r s = s := by
  unfold walkComplete
  rw [at_]
  exact if_neg (by simp [Nat.not_le.mpr before])

theorem walkComplete_steady {r : Nat} {x : Region} (at_ : s.region r = some x) (steady : x.state = 0) : walkComplete r s = s := by
  unfold walkComplete
  rw [at_]
  exact if_neg (by simp [steady])

theorem walkComplete_ends {r : Nat} {x : Region} (up : s.up = true) (at_ : s.region r = some x) (walks : x.state ≠ 0)
    (done : walkBytes s r x ≤ walkDone s r x) : walkComplete r s = endWalk r x s := by
  unfold walkComplete
  rw [at_]
  exact if_pos (by simp [up, walks, done])

theorem key_setKey_self (x : Region) (k : Nat) (v : Option Nat) : (x.setKey k v).key k = v := by
  unfold Region.setKey Region.key
  by_cases zero : k = 0
  · rw [if_pos zero, if_pos zero]
  · rw [if_neg zero, if_neg zero]

theorem key_setKey_ne (x : Region) {k j : Nat} (v : Option Nat) (ne : (k = 0) ↔ (j ≠ 0)) : (x.setKey k v).key j = x.key j := by
  unfold Region.setKey Region.key
  by_cases zero : k = 0
  · rw [if_pos zero, if_neg (ne.mp zero), if_neg (ne.mp zero)]
  · have other : j = 0 := Classical.not_not.mp (mt ne.mpr zero)
    rw [if_neg zero, if_pos other, if_pos other]

/-! ### KEY_ROTATE and KEY_STATUS -/

theorem exec_keyRotate (c : CmdCtx) (r : Nat) (s : State) : exec (.keyRotate c r) s = execKeyRotate c r s := rfl

theorem keyRotate_runs {c : CmdCtx} {r : Nat} (ready : Ready 0x610 s) (mine : regionCheck c r (beginCmd c 0x610 s) = none) :
    exec (.keyRotate c r) s = .next (keyRotateWork c r (beginCmd c 0x610 s)) := by
  rw [exec_keyRotate, execKeyRotate, runCmd_ready ready mine]

/-- A region with a fresh key in its other slot, and its walk begun. -/
def rotated (s : State) (x : Region) : Region :=
  { (x.setKey (1 - x.active) (some s.free)) with
    active := 1 - x.active, rotations := x.rotations + 1
    state := 1, started := s.now, done := 0, mark := s.now, charged := 0 }

theorem rotateKey_eq (r : Nat) (x : Region) (s : State) : ∃ e, rotateKey r x s = { s with
    regions := smSet (settleWalks s).regions r (rotated s x), free := s.free + 1, slots := (settleWalks s).slots, epochNew := e } :=
  ⟨(clearEpoch r s).epochNew, rfl⟩

theorem rotated_facts (s : State) (x : Region) : let y := rotated s x
    y.active = 1 - x.active ∧ y.key (1 - x.active) = some s.free ∧ y.key x.active = x.key x.active ∧ y.state = 1 ∧
      y.rotations = x.rotations + 1 ∧ y.started = s.now ∧ y.done = 0 := by
  refine ⟨rfl, key_setKey_self x .., key_setKey_ne x (some s.free) (by omega), rfl, rfl, rfl, rfl⟩

theorem keyRotate_steady {c : CmdCtx} {r : Nat} {x : Region} (ready : Ready 0x610 s) (mine : regionCheck c r (beginCmd c 0x610 s) = none)
    (at_ : s.region r = some x) (steady : x.state = 0) :
    ∃ u y, exec (.keyRotate c r) s = .next (finish c .ok [] 0 0 u) ∧ u.region r = some y ∧
      y.active = 1 - x.active ∧ y.key (1 - x.active) = some s.free ∧ y.key x.active = x.key x.active ∧ y.state = 1 ∧
      y.rotations = x.rotations + 1 ∧ y.started = s.now ∧ y.done = 0 ∧
      (∀ k z, k ≠ r → s.region k = some z → ∃ w, u.region k = some w ∧ w.key0 = z.key0 ∧ w.key1 = z.key1 ∧
        w.state = z.state) ∧
      u = { beginCmd c 0x610 s with
        regions := u.regions, free := s.free + 1, slots := (settleWalks s).slots, epochNew := u.epochNew } := by
  have kept := beginCmd_kept c 0x610 s
  have slots := slots_settleWalks kept
  have now : (beginCmd c 0x610 s).now = s.now := beginCmd_now ..
  have regions : ∀ k, (beginCmd c 0x610 s).region k = s.region k := fun k => congrArg (fun m => smFind m k) kept.regions
  generalize is : beginCmd c 0x610 s = b at *
  have runs := keyRotate_runs ready (is.symm ▸ mine)
  rw [is, keyRotateWork, walkComplete_steady (regions r ▸ at_) steady] at runs
  rw [regions r, at_] at runs
  dsimp only at runs
  rw [if_neg (by omega), if_neg (by omega)] at runs
  obtain ⟨e, eq⟩ := rotateKey_eq r x b
  obtain ⟨active, fresh, old, state, rotations, started, done⟩ := rotated_facts b x
  rw [kept.free] at fresh
  rw [now] at started
  refine ⟨rotateKey r x b, rotated b x, runs, ?_, active, fresh, old, state, rotations, started, done, ?_, ?_⟩
  · rw [eq]
    exact smFind_smSet_self ..
  · intro k z ne here
    refine othersKeyed_settled (s := b) (r := r) (fun k ne => ?_) k z ne ((regions k).trans here)
    rw [eq]
    exact smFind_smSet_ne _ _ ne
  · rw [eq, slots, kept.free]

theorem keyRotate_walking {c : CmdCtx} {r : Nat} {x : Region} (ready : Ready 0x610 s)
    (mine : regionCheck c r (beginCmd c 0x610 s) = none) (at_ : s.region r = some x)
    (before : walkDone (beginCmd c 0x610 s) r x < walkBytes (beginCmd c 0x610 s) r x) : exec (.keyRotate c r) s = .next
      (if x.state = 1 then finish c .keyRotatePending [] 0 0 (beginCmd c 0x610 s)
      else if x.state = 2 then (if c.waitDrain then drainCmd c (.keyRotate c r) (beginCmd c 0x610 s)
        else finish c .busy [] 0 0 (beginCmd c 0x610 s))
      else finish c .ok [] 0 0 (rotateKey r x (beginCmd c 0x610 s))) := by
  have there : (beginCmd c 0x610 s).region r = some x := (congrArg (fun m => smFind m r) (beginCmd_kept c 0x610 s).regions).trans at_
  rw [keyRotate_runs ready mine, keyRotateWork, walkComplete_walking there before, there]

theorem regionCheck_others {c : CmdCtx} {r : Nat} (others : ∀ x, s.region r = some x → x.part ≠ c.part) :
    regionCheck c r s = some .noPermission := by
  unfold regionCheck
  cases at_ : s.region r with
  | none => rfl
  | some x => exact if_pos (others x at_)

theorem keyCommands_others {c : CmdCtx} {r : Nat} (host : s.sys.mode.hasHost = true) (others : ∀ x, s.region r = some x → x.part ≠ c.part) :
    exec (.keyRotate c r) s = .next (finish c .noPermission [] 0 0 (beginCmd c 0x610 s)) ∧
    exec (.keyStatus c r) s = .next (finish c .noPermission [] 0 0 (beginCmd c 0x611 s)) := by
  have refused (opc : Nat) : regionCheck c r (beginCmd c opc s) = some .noPermission :=
    regionCheck_others fun x at_ => others x ((congrArg (fun m => smFind m r) (beginCmd_kept c opc s).regions).symm.trans at_)
  constructor
  · rw [exec_keyRotate, execKeyRotate, runCmd_refused host (refused 0x610), refusal_early rfl]
  · rw [exec_keyStatus, execKeyStatus, runCmd_refused host (refused 0x611), refusal_early rfl]

/-! ### The end of a walk -/

theorem exec_rinseWalkComplete (r : Nat) (s : State) : exec (.rinseWalkComplete r) s = .next (wipesComplete r (walkComplete r s)) := rfl

theorem wipesComplete_none (r : Nat) (none_ : wipes s = []) : wipesComplete r s = s := by
  unfold wipesComplete
  split
  · split
    · rw [none_]
      rfl
    · rfl
  · rfl

theorem wipe_none (none_ : wipes s = []) {e : Nat × Slot} (mem : e ∈ s.slots) : e.2.wipe = none := by
  have off := List.filter_eq_nil_iff.mp none_ e mem
  simpa using off

/-- With no weight region to walk, settling the walks changes the regions alone. -/
theorem settleWalks_unwiped (none_ : wipes s = []) : settleWalks s = { s with regions := (settleWalks s).regions } := by
  have same : (settleWalks s).slots = s.slots := by
    refine (List.map_congr_left fun e mem => ?_).trans (List.map_id _)
    rw [wipe_none none_ mem]
    rfl
  conv => lhs; rw [show settleWalks s = { s with regions := (settleWalks s).regions, slots := (settleWalks s).slots } from rfl, same]

/-- A region whose walk is over. -/
def steadied (n : Nat) (s : State) (x : Region) : Region := { x with state := 0, done := n, mark := s.now }

theorem endWalk_rotation {r : Nat} {x : Region} (none_ : wipes s = []) (rotates : x.state = 1) : ∃ n e,
    endWalk r x s = { s with
      regions := smSet (settleWalks s).regions r ((steadied n s x).setKey (1 - x.active) none), epochNew := e } := by
  unfold endWalk
  dsimp only
  rw [if_pos rotates]
  generalize walkBytes (settleWalks s) r x = n
  rw [settleWalks_unwiped none_]
  exact ⟨n, _, rfl⟩

theorem endWalk_scrub {r : Nat} {x : Region} (none_ : wipes s = []) (scrubs : x.state = 2) (stays : (s.part x.part).state ≠ 4) : ∃ n,
    endWalk r x s = ({ s with regions := smSet (settleWalks s).regions r (steadied n s x) } : State).modPart x.part
      (fun q => { q with scrubEnd := s.now }) := by
  unfold endWalk
  dsimp only
  rw [if_neg (by omega)]
  generalize walkBytes (settleWalks s) r x = n
  rw [settleWalks_unwiped none_]
  refine ⟨n, if_neg ?_⟩
  rintro ⟨gone, _⟩
  rw [part_modPart_self] at gone
  exact stays gone

theorem setKey_active (x : Region) (k : Nat) (v : Option Nat) : (x.setKey k v).active = x.active ∧ (x.setKey k v).state = x.state := by
  unfold Region.setKey
  split
  · exact ⟨rfl, rfl⟩
  · exact ⟨rfl, rfl⟩

theorem rinseWalkComplete_rotation {r : Nat} {x : Region} (running : s.sys.mode = .running) (at_ : s.region r = some x)
    (none_ : wipes s = []) (done : walkBytes s r x ≤ walkDone s r x) (rotates : x.state = 1) :
    ∃ t y, exec (.rinseWalkComplete r) s = .next t ∧ t.region r = some y ∧ y.state = 0 ∧
        y.active = x.active ∧ y.key (1 - x.active) = none ∧ (x.active ≤ 1 → y.key x.active = x.key x.active) ∧
        (∀ k z, k ≠ r → s.region k = some z → ∃ w, t.region k = some w ∧ w.key0 = z.key0 ∧ w.key1 = z.key1 ∧
          w.state = z.state) ∧ t = { s with regions := t.regions, epochNew := t.epochNew } := by
  obtain ⟨n, e, ends⟩ := endWalk_rotation (r := r) none_ rotates
  obtain ⟨active, state⟩ := setKey_active (steadied n s x) (1 - x.active) none
  have runs : wipesComplete r (walkComplete r s) = { s with
      regions := smSet (settleWalks s).regions r ((steadied n s x).setKey (1 - x.active) none), epochNew := e } := by
    rw [walkComplete_ends (up_of_running running) at_ (by omega) done, ends]
    exact wipesComplete_none r none_
  refine ⟨_, _, (exec_rinseWalkComplete r s).trans (congrArg _ runs), smFind_smSet_self .., state, active, key_setKey_self ..,
    fun _ => key_setKey_ne (steadied n s x) none (by omega), ?_, rfl⟩
  exact othersKeyed_settled fun k ne => smFind_smSet_ne _ _ ne

theorem rinseWalkComplete_scrub {r : Nat} {x : Region} (running : s.sys.mode = .running) (at_ : s.region r = some x)
    (none_ : wipes s = []) (done : walkBytes s r x ≤ walkDone s r x) (scrubs : x.state = 2) (stays : (s.part x.part).state ≠ 4) :
    ∃ t y, exec (.rinseWalkComplete r) s = .next t ∧ t.region r = some y ∧
        y.state = 0 ∧ y.key0 = x.key0 ∧ y.key1 = x.key1 ∧ (t.part x.part).scrubEnd = s.now ∧
        (∀ q, q ≠ x.part → t.part q = s.part q) ∧ t = { s with regions := t.regions, parts := t.parts } := by
  obtain ⟨n, ends⟩ := endWalk_scrub (r := r) none_ scrubs stays
  let u : State := { s with regions := smSet (settleWalks s).regions r (steadied n s x) }
  have runs : wipesComplete r (walkComplete r s) = u.modPart x.part (fun q => { q with scrubEnd := s.now }) := by
    rw [walkComplete_ends (up_of_running running) at_ (by omega) done, ends]
    exact wipesComplete_none r none_
  refine ⟨_, steadied n s x, (exec_rinseWalkComplete r s).trans (congrArg _ runs), smFind_smSet_self .., rfl, rfl, rfl, ?_,
    fun q ne => part_modPart_ne (s := u) _ ne, rfl⟩
  rw [part_modPart_self]

/-! ### CMD_KEY_SET -/

theorem exec_cmdKeySet (c : CmdCtx) (e : Bytes) (s : State) : exec (.cmdKeySet c e) s = execCmdKeySet c e s := rfl

/-- What CMD_KEY_SET does once it has begun. -/
def cmdKeyWork (c : CmdCtx) (e : Bytes) (s : State) : State :=
  match openEnvelope s 1 c.part 0 e with
  | none => finish c .authFail [] 0 0 s
  | some k => if k.length ≠ 32 then finish c .authFail [] 0 0 s else setCmdKey c.part k (finish c .ok [] 0 0 s)

theorem cmdKeySet_runs {c : CmdCtx} {e : Bytes} (ready : Ready 0x620 s) : exec (.cmdKeySet c e) s = .next (cmdKeyWork c e (beginCmd c 0x620 s)) := by
  rw [exec_cmdKeySet, execCmdKeySet, runCmd_ready ready rfl]
  rfl

/-- The rings of a partition take seal generation 0. -/
def ungenerated (p : Nat) (s : State) (n : Nat) : State := if (s.ring n).part = p then s.modRing n (fun r => { r with ringGen := 0 }) else s

theorem ring_ungenerated (p n k : Nat) (s : State) : (ungenerated p s n).ring k =
    if k = n ∧ (s.ring n).part = p then { s.ring k with ringGen := 0 } else s.ring k := by
  unfold ungenerated
  by_cases mine : (s.ring n).part = p
  · by_cases same : k = n
    · rw [if_pos mine, if_pos ⟨same, mine⟩, same, ring_modRing_self]
    · rw [if_pos mine, if_neg (fun h => same h.1), ring_modRing_ne _ same]
  · rw [if_neg mine, if_neg (fun h => mine h.2)]

theorem foldl_ungenerated (p : Nat) (l : List Nat) (s : State) : let t := l.foldl (ungenerated p) s
    t.parts = s.parts ∧ (∀ n, (t.ring n).part = (s.ring n).part) ∧
      ∀ n, (n ∈ l ∨ (s.ring n).ringGen = 0) → (s.ring n).part = p → (t.ring n).ringGen = 0 := by
  induction l generalizing s with
  | nil => exact ⟨rfl, fun _ => rfl, fun n h _ => h.resolve_left (by simp)⟩
  | cons j l ih =>
    obtain ⟨parts, part, gen⟩ := ih (ungenerated p s j)
    have same (n : Nat) : ((ungenerated p s j).ring n).part = (s.ring n).part := by
      rw [ring_ungenerated]
      split
      · rfl
      · rfl
    refine ⟨parts.trans ?_, fun n => (part n).trans (same n), fun n of mine => gen n ?_ ((same n).trans mine)⟩
    · unfold ungenerated
      split
      · rfl
      · rfl
    · rw [ring_ungenerated]
      by_cases at_ : n = j
      · rw [if_pos ⟨at_, at_ ▸ mine⟩]
        exact .inr rfl
      · rw [if_neg (fun h => at_ h.1)]
        exact of.imp_left fun mem => (List.mem_cons.mp mem).resolve_left at_

theorem setCmdKey_sets (p : Nat) (k : Bytes) (s : State) : let t := setCmdKey p k s
    (t.part p).cmdKey = some (keyOfBytes k) ∧ (t.part p).sealGen = 0 ∧ (t.part p).ibExp = 0 ∧
      ∀ n, n < 64 → (t.ring n).part = p → (t.ring n).ringGen = 0 := by
  let u := s.modPart p (fun x => { x with cmdKey := some (keyOfBytes k), sealGen := 0, ibExp := 0, ibWraps := 0 })
  obtain ⟨parts, part, gen⟩ := foldl_ungenerated p (List.range 64) u
  have own : (setCmdKey p k s).part p = { s.part p with cmdKey := some (keyOfBytes k), sealGen := 0, ibExp := 0, ibWraps := 0 } := by
    have same : (setCmdKey p k s).part p = u.part p := congrArg (fun m => smGet (Part.initial p) m p) parts
    exact same.trans (part_modPart_self ..)
  exact ⟨congrArg Part.cmdKey own, congrArg Part.sealGen own, congrArg Part.ibExp own,
    fun n low mine => gen n (.inl (List.mem_range.mpr low)) ((part n).symm.trans mine)⟩

/-! ### Reports and SPDM -/

theorem exec_attestReport (c : CmdCtx) (nonce : Bytes) (x : Bref) (s : State) :
    exec (.attestReport c nonce x) s = execAttestReport c nonce x s := rfl
theorem exec_certChain (c : CmdCtx) (x : Bref) (s : State) : exec (.certChain c x) s = execCertChain c x s := rfl
theorem exec_spdmRequest (q : Bytes) (s : State) : exec (.spdmRequest q) s = execSpdmRequest q s := rfl

theorem attestReport_runs {c : CmdCtx} {nonce : Bytes} {x : Bref} (ready : Ready 0x630 s)
    (form : brefStatus c x 1 0 (beginCmd c 0x630 s) = none) :
    exec (.attestReport c nonce x) s = .next (attestWork c nonce x (beginCmd c 0x630 s)) := by
  rw [exec_attestReport, execAttestReport, runCmd_ready ready form]

theorem certChain_runs {c : CmdCtx} {x : Bref} (ready : Ready 0x631 s) (form : brefStatus c x 1 0 (beginCmd c 0x631 s) = none) :
    exec (.certChain c x) s = .next (certWork c x (beginCmd c 0x631 s)) := by
  rw [exec_certChain, execCertChain, runCmd_ready ready form]

/-- What a command does that writes so many bytes to its buffer, or says how long it must be. -/
def givenTo (c : CmdCtx) (x : Bref) (b : Bytes) (s : State) : State :=
  if x.size < b.length then finish c .capacity (leBytes 4 b.length) 0 0 s
  else match brefStatus c x 1 b.length s with
    | some st => finish c st [] 0 0 s
    | none => finish c .ok (leBytes 4 b.length) 0 0 (brefWrite c x b s)

theorem attestWork_eq (c : CmdCtx) (nonce : Bytes) (x : Bref) (s : State) :
    attestWork c nonce x s = givenTo c x (reportBytes s nonce (fun p => c.part == 0 || p == c.part)) s := rfl

theorem certWork_eq (c : CmdCtx) (x : Bref) (s : State) : certWork c x s = givenTo c x (chainBytes s) s := rfl

theorem givenTo_short {c : CmdCtx} {x : Bref} {b : Bytes} (short : x.size < b.length) :
    givenTo c x b s = finish c .capacity (leBytes 4 b.length) 0 0 s := if_pos short

theorem givenTo_fits {c : CmdCtx} {x : Bref} {b : Bytes} (long : b.length ≤ x.size) (fits : brefStatus c x 1 b.length s = none) :
    givenTo c x b s = finish c .ok (leBytes 4 b.length) 0 0 (brefWrite c x b s) := by
  rw [givenTo, if_neg (Nat.not_lt.mpr long), fits]

theorem spdmRefused_short {q : Bytes} (short : q.length < 4) : spdmRefused s q = some [0x13, 0x7f, 0x01, 0x00] := if_pos short

theorem spdmAnswer_of_taken {q : Bytes} (taken : spdmRefused s q = none) : ∃ a, spdmAnswer (uAt q 1 1) = some a := by
  cases answer : spdmAnswer (uAt q 1 1) with
  | some a => exact ⟨a, rfl⟩
  | none =>
    unfold spdmRefused at taken
    dsimp only at taken
    rw [answer] at taken
    split at taken
    · cases taken
    · cases taken

/-- The response to a request, before its signature. -/
def spdmBare (q : Bytes) (a : Nat) (s : State) : Bytes :=
  [if uAt q 1 1 = 0x84 then 0x10 else 0x13] ++ leBytes 1 a ++ Config.spdmBody a q (spdmContent s q)

theorem spdmReply_eq {q : Bytes} {a : Nat} (answer : spdmAnswer (uAt q 1 1) = some a) : spdmReply q s =
    let log := (if uAt q 1 1 = 0x84 then [] else s.sys.spdmLog) ++ q
    let b := if spdmSigned q then spdmBare q a s ++ signBytes s.attestKey (log ++ spdmBare q a s) else spdmBare q a s
    { s with sys := { s.sys with spdmOut := b, spdmLog := log ++ b } } := by
  unfold spdmReply
  dsimp only
  rw [answer]
  rfl

theorem spdmRequest_answers {q : Bytes} (host : s.sys.mode.hasHost = true) (taken : spdmRefused s q = none) :
    ∃ t a x, exec (.spdmRequest q) s = .next t ∧
      let log := (if uAt q 1 1 = 0x84 then [] else s.sys.spdmLog) ++ q
      spdmAnswer (uAt q 1 1) = some a ∧ x.take 2 = [if uAt q 1 1 = 0x84 then 0x10 else 0x13, BitVec.ofNat 8 a] ∧
      t.sys.spdmOut = (if spdmSigned q then x ++ signBytes s.attestKey (log ++ x) else x) ∧
      t.sys.spdmLog = log ++ t.sys.spdmOut ∧
      t = { s with sys := { s.sys with spdmOut := t.sys.spdmOut, spdmLog := t.sys.spdmLog } } := by
  obtain ⟨a, answer⟩ := spdmAnswer_of_taken taken
  refine ⟨spdmReply q s, a, spdmBare q a s, ?_, answer, rfl, ?_, ?_, ?_⟩
  · rw [exec_spdmRequest, execSpdmRequest, host, taken]
    rfl
  all_goals rw [spdmReply_eq answer]

/-- Settles O48. -/
theorem keysAndReports : Obligations.KeysAndReports := by
  unfold Obligations.KeysAndReports
  refine ⟨?rotate, ?others, ?status, ?walk, ?key, ?report, ?chain, ?spdm⟩
  case rotate =>
    intro c r x s ready mine at_
    refine ⟨keyRotate_steady ready mine at_, fun rotates before => ?_, fun scrubs before => ⟨fun now => ?_, fun waits => ?_⟩⟩
    all_goals rw [keyRotate_walking ready mine at_ before]
    · rw [if_pos rotates]
    · rw [if_neg (by omega), if_pos scrubs, now, if_neg (by decide)]
    · rw [if_neg (by omega), if_pos scrubs, if_pos waits]
  case others => exact fun c r s ready others => keyCommands_others (hasHost_of_opcodeRuns ready.1) others
  case status =>
    intro c r s ready mine
    rw [exec_keyStatus, execKeyStatus, runCmd_ready ready mine]
  case walk =>
    intro r x s running at_ walks none_
    refine ⟨fun before => ?_, fun done => ⟨rinseWalkComplete_rotation running at_ none_ done, rinseWalkComplete_scrub running at_ none_ done⟩⟩
    rw [exec_rinseWalkComplete, walkComplete_walking at_ before, wipesComplete_none r none_]
  case key =>
    intro c e s ready
    rw [cmdKeySet_runs ready, cmdKeyWork]
    refine ⟨fun shut => ?_, fun k opens other => ?_, fun k opens size => ?_⟩
    · rw [shut]
    · rw [opens]
      exact congrArg _ (if_pos other)
    · rw [opens]
      exact ⟨_, congrArg _ (if_neg (Classical.not_not.mpr size)), setCmdKey_sets ..⟩
  case report =>
    intro c nonce x s ready b rep form
    rw [attestReport_runs ready form, attestWork_eq]
    exact ⟨fun short => congrArg _ (givenTo_short short), fun long fits => congrArg _ (givenTo_fits long fits)⟩
  case chain =>
    intro c x s ready b chain form
    rw [certChain_runs ready form, certWork_eq]
    exact ⟨fun short => congrArg _ (givenTo_short short), fun long fits => congrArg _ (givenTo_fits long fits)⟩
  case spdm =>
    intro q s
    refine ⟨fun off => ?_, spdmRefused_short, fun host e refused => ?_, spdmRequest_answers⟩
    · rw [exec_spdmRequest, execSpdmRequest, off]
      rfl
    · rw [exec_spdmRequest, execSpdmRequest, host, refused]
      rfl

end Sys2Proof.Proofs
end

