-- ==== Sys2Proof/Proofs/Buckets.lean ====
section
/-! PROOF. Buckets: their commands, their moves and the placement period (O22). -/

namespace Sys2Proof.Proofs
open Sys2Proof.Machine

variable {s : State}

/-! ### Lists -/

theorem mem_insertBy {α : Type} {lt : α → α → Bool} {x y : α} {l : List α} : y ∈ insertBy lt x l ↔ y = x ∨ y ∈ l := by
  induction l with
  | nil => simp [insertBy]
  | cons z l ih =>
    unfold insertBy
    split
    · simp
    · rw [List.mem_cons, ih, List.mem_cons]
      exact or_left_comm

theorem mem_sortBy {α : Type} {lt : α → α → Bool} {y : α} {l : List α} : y ∈ sortBy lt l ↔ y ∈ l := by
  have fold : ∀ (l a : List α), y ∈ l.foldl (fun a x => insertBy lt x a) a ↔ y ∈ a ∨ y ∈ l := by
    intro l
    induction l with
    | nil => simp
    | cons x l ih =>
      intro a
      rw [List.foldl_cons, ih, mem_insertBy, List.mem_cons, or_assoc, or_left_comm]
  exact (fold l []).trans (by simp)

theorem find?_updFirst_other {α : Type} {p q : α → Bool} {f : α → α} (apart : ∀ x, p x = true → q x = false ∧ q (f x) = false) (l : List α) :
    (updFirst p f l).find? q = l.find? q := by
  induction l with
  | nil => rfl
  | cons x l ih =>
    unfold updFirst
    split
    next hit => rw [List.find?_cons_of_neg (by simp [apart x hit]), List.find?_cons_of_neg (by simp [apart x hit])]
    · rw [List.find?_cons, List.find?_cons, ih]

/-! ### Moves begin -/

/-- Several moves begin: each is behind those that were there. -/
theorem foldl_startMove {α : Type} {b : α → Nat} {d : State → α → Nat} (ctx : Option CmdCtx) (home : Option Nat) (l : List α) (s : State) :
    ∃ ms : List Move, l.foldl (fun s x => startMove (b x) (d s x) ctx home s) s =
        { s with flow := { s.flow with moves := s.flow.moves ++ ms } } ∧
      ms.map (fun m => (m.bucket, m.home, m.ctx, m.drained)) = l.map (fun x => (b x, home, ctx, false)) := by
  induction l generalizing s with
  | nil => exact ⟨[], by simp, rfl⟩
  | cons x l ih =>
    obtain ⟨ms, eq, same⟩ := ih (startMove (b x) (d s x) ctx home s)
    have begins : ∃ m : Move, startMove (b x) (d s x) ctx home s = { s with flow := { s.flow with moves := s.flow.moves ++ [m] } } ∧
      (m.bucket, m.home, m.ctx, m.drained) = (b x, home, ctx, false) := ⟨_, rfl, rfl⟩
    obtain ⟨m, begins, own⟩ := begins
    refine ⟨m :: ms, ?_, ?_⟩
    · rw [List.foldl_cons, eq, begins]
      simp
    · rw [List.map_cons, List.map_cons, own, same]

/-! ### The commands -/

theorem exec_bucketRead (c : CmdCtx) (start count : Nat) (s : State) : exec (.bucketRead c start count) s = execBucketRead c start count s := rfl
theorem exec_bucketMove (c : CmdCtx) (b k : Nat) (s : State) : exec (.bucketMove c b k) s = execBucketMove c b k s := rfl
theorem exec_flowHomeSet (c : CmdCtx) (first count home : Nat) (s : State) :
    exec (.flowHomeSet c first count home) s = execFlowHomeSet c first count home s := rfl

theorem flatten_bytes (l : List Nat) : (l.map (leBytes 1)).flatten = l.map (BitVec.ofNat 8) := by
  induction l with
  | nil => rfl
  | cons x l ih =>
    rw [List.map_cons, List.flatten_cons, ih]
    rfl

/-- A list of single bytes as a reply carries it. -/
theorem fitBody_bytes (f : Nat → Nat) (count : Nat) : fitBody 1 ((List.range (min count 4081)).map (fun i => leBytes 1 (f i))) =
    ((List.range (min count 4080)).map (fun i => BitVec.ofNat 8 (f i)), if 4080 < count then 2 else 0) := by
  have bytes (n : Nat) : (((List.range n).map (fun i => leBytes 1 (f i))).take 4080).flatten =
      (List.range (min n 4080)).map (fun i => BitVec.ofNat 8 (f i)) := by
    rw [← List.map_take, List.take_range, Nat.min_comm]
    exact (congrArg List.flatten (List.map_map.symm : _ = ((List.range (min n 4080)).map f).map (leBytes 1))).trans
      ((flatten_bytes _).trans List.map_map)
  have long : 4080 < min count 4081 ↔ 4080 < count := by omega
  have short : min (min count 4081) 4080 = min count 4080 := by omega
  unfold fitBody
  dsimp only
  rw [show 4080 / 1 = 4080 from rfl, bytes, short, List.length_map, List.length_range]
  simp only [long]

theorem bucketRead_lists {c : CmdCtx} {start count : Nat} (ready : Ready 0x220 s) (root : c.part = 0) (some_ : count ≠ 0)
    (high : start + count ≤ 65536) : exec (.bucketRead c start count) s = .next (finish c .ok
       ((List.range (min count 4080)).map (fun i => BitVec.ofNat 8 (s.pipeOf (start + i)))) s.now
       (if 4080 < count then 2 else 0) (beginCmd c 0x220 s)) := by
  have ok : firstFail [p0Only c, (decide (count = 0) || decide (65536 < start + count), .badParam)] = none := by
    simp [firstFail_none, p0Only, root, some_, high]
  have pipe (b : Nat) : (beginCmd c 0x220 s).pipeOf b = s.pipeOf b := congrArg (fun f : Flow => smGet (b % 16) f.pipeOf b) (beginCmd_kept c 0x220 s).flow
  rw [exec_bucketRead, execBucketRead, runCmd_ready ready ok]
  dsimp only
  rw [fitBody_bytes (fun i => (beginCmd c 0x220 s).pipeOf (start + i)), beginCmd_now]
  simp only [pipe]

theorem setPinned_eq (b : Nat) (on : Bool) (s : State) : ∃ l, setPinned b on s = { s with flow := { s.flow with pinned := l } } ∧
    ∀ j, j ∈ l ↔ if j = b then on = true else j ∈ s.flow.pinned := by
  refine ⟨_, rfl, fun j => ?_⟩
  cases on with
  | true =>
    rw [if_pos rfl, mem_sortBy]
    by_cases at_ : j = b
    · simp [at_]
    · simp [at_]
  | false =>
    by_cases at_ : j = b
    · simp [at_]
    · simp [at_]

theorem bucketMove_runs {c : CmdCtx} {b k : Nat} (ready : Ready 0x221 s) (root : c.part = 0)
    (fine : k = 0xff ∨ (k ≤ 15 ∧ b ≤ 65535 ∧ s.isFenced (pipeUnit k) = false)) :
    exec (.bucketMove c b k) s = .next (bucketMoveWork c b k (beginCmd c 0x221 s)) := by
  have fenced : (beginCmd c 0x221 s).isFenced (pipeUnit k) = s.isFenced (pipeUnit k) :=
    congrArg (fun d : Darn => d.fenced.contains (pipeUnit k)) (beginCmd_darn ..)
  have ok : firstFail [p0Only c, (decide (k ≠ 0xff) && (decide (15 < k) || decide (65535 < b) ||
      (beginCmd c 0x221 s).isFenced (pipeUnit k)), .badParam)] = none := by
    rw [firstFail_none, fenced]
    rcases fine with off | ⟨low, bucket, serves⟩
    · simp [p0Only, root, off]
    · simp [p0Only, root, low, bucket, serves]
  rw [exec_bucketMove, execBucketMove, runCmd_ready ready ok]

theorem bucketMoving_congr {t : State} (flow : t.flow = s.flow) (b : Nat) : t.bucketMoving b = s.bucketMoving b := by
  have pipe : t.pipeOf b = s.pipeOf b := congrArg (fun f : Flow => smGet (b % 16) f.pipeOf b) flow
  unfold State.bucketMoving
  rw [pipe, flow]

/-- A bucket that does not move is pinned, and its move begins. -/
theorem bucketMoveWork_starts {c : CmdCtx} {b k : Nat} (low : k ≤ 15) (buckets : ∀ m ∈ s.flow.moves, m.bucket < 65536)
    (still : s.bucketMoving b = false) : ∃ u m, bucketMoveWork c b k s = u ∧ b ∈ u.flow.pinned ∧
       u.flow.moves = s.flow.moves ++ [m] ∧ m.bucket = b ∧ m.from_ = s.pipeOf b ∧ m.dst = k ∧ m.ctx = some c ∧
       m.drained = false ∧ m.home = none ∧ m.pin = some (s.flow.pinned.contains b) ∧ (∀ j, u.pipeOf j = s.pipeOf j) ∧
       u.flow.ctxs = s.flow.ctxs ∧ u = { drainEnds c s with flow := u.flow } := by
  have flow : (drainEnds c s).flow = s.flow := (drainEnds_kept c s).flow
  obtain ⟨l, pins, mem⟩ := setPinned_eq b true (drainEnds c s)
  have noFence (k : Nat) : s.flow.moves.any (fun m => decide (m.bucket = 65536) && decide (m.from_ = k)) = false := by
    rw [List.any_eq_false]
    intro m at_
    have := buckets m at_
    simp [Nat.ne_of_lt this]
  have runs : bucketMoveWork c b k s = (let t := startMove b k (some c) none (setPinned b true (drainEnds c s))
      { t with flow := { t.flow with moves := t.flow.moves.take (drainEnds c s).flow.moves.length ++
        (t.flow.moves.drop (drainEnds c s).flow.moves.length).map (fun m => { m with pin := some (s.flow.pinned.contains b) }) } }) := by
    rw [bucketMoveWork, if_neg (by omega), still, if_neg (by decide)]
  rw [pins, startMove] at runs
  dsimp only at runs
  rw [flow] at runs mem
  simp only [List.take_left, List.drop_left, List.map_cons, List.map_nil, noFence, Bool.false_eq_true, if_false] at runs
  have pipe : (({ drainEnds c s with flow := { s.flow with pinned := l } } : State).pipeOf b) = s.pipeOf b := rfl
  exact ⟨_, _, runs, (mem b).mpr (by rw [if_pos rfl]), rfl, rfl, pipe, rfl, rfl, rfl, rfl, rfl, fun _ => rfl, rfl, rfl⟩

theorem bucketMoveWork_unpins (c : CmdCtx) (b : Nat) (s : State) : ∃ u, bucketMoveWork c b 0xff s = finish c .ok (leBytes 8 s.now.toNat) s.now 0 u ∧
    b ∉ u.flow.pinned ∧ (∀ j, j ≠ b → (j ∈ u.flow.pinned ↔ j ∈ s.flow.pinned)) ∧ u.flow.moves = s.flow.moves := by
  obtain ⟨l, pins, mem⟩ := setPinned_eq b false s
  refine ⟨setPinned b false s, if_pos rfl, ?_, fun j ne => ?_, by rw [pins]⟩
  · rw [pins, mem, if_pos rfl]
    decide
  · rw [pins, mem, if_neg ne]

theorem flowHomeSet_starts {c : CmdCtx} {first count home : Nat} (ready : Ready 0x520 s) (root : c.part = 0) :
    let n := if count = 0 then 65536 else count
    first + n ≤ 65536 →
     ∃ u, exec (.flowHomeSet c first count home) s = .next u ∧ u.flow.moves.take s.flow.moves.length = s.flow.moves ∧
       (u.flow.moves.drop s.flow.moves.length).map (fun m => (m.bucket, m.home, m.ctx, m.drained))
         = (List.range n).map (fun i => (first + i, some home, some c, false)) ∧
       u.flow.home = s.flow.home ∧ u = { beginCmd c 0x520 s with flow := u.flow } := by
  intro n high
  have flow := (beginCmd_kept c 0x520 s).flow
  have ok : firstFail [p0Only c, (decide (65536 < first + n), .badParam)] = none := by simp [firstFail_none, p0Only, root, high]
  obtain ⟨ms, starts, same⟩ := foldl_startMove (b := fun i => first + i) (d := fun s i => s.pipeOf (first + i)) (some c) (some home)
    (List.range n) (beginCmd c 0x520 s)
  rw [flow] at starts
  have runs : exec (.flowHomeSet c first count home) s = .next
      { beginCmd c 0x520 s with flow := { s.flow with moves := s.flow.moves ++ ms } } := by
    rw [exec_flowHomeSet, execFlowHomeSet]
    dsimp only
    rw [runCmd_ready ready ok]
    exact congrArg _ starts
  exact ⟨_, runs, List.take_left, (congrArg _ List.drop_left).trans same, rfl, rfl⟩

/-! ### A move drains and ends -/

theorem exec_bucketMoveDrained (b : Nat) (s : State) : exec (.bucketMoveDrained b) s = .next (moveDrained b s) := rfl
theorem exec_bucketMoveDone (b : Nat) (s : State) : exec (.bucketMoveDone b) s = .next (moveDone b s) := rfl
theorem exec_bucketMoveAbandon (b : Nat) (s : State) : exec (.bucketMoveAbandon b) s = .next (moveAbandon b s) := rfl
theorem exec_placementPeriod (s : State) : exec .placementPeriod s = .next (placementPeriod s) := rfl

theorem bucket_of_moveOf {b : Nat} {m : Move} (found : s.moveOf b = some m) : m.bucket = b :=
  of_decide_eq_true (List.find?_some found :)

theorem moveDrained_drains {b : Nat} {m : Move} (running : s.sys.mode = .running) (found : s.moveOf b = some m) (goes : m.drained = false)
    (inTime : moveLate s m = false) (empty : bucketDrained s m = true) :
    ∃ t, exec (.bucketMoveDrained b) s = .next t ∧ t.moveOf b = some { m with drained := true } ∧
         (∀ j, j ≠ b → t.moveOf j = s.moveOf j) ∧ (∀ j, t.pipeOf j = s.pipeOf j) ∧ t = { s with flow := t.flow } := by
  have runs : moveDrained b s = { s with flow := { s.flow with
      moves := updFirst (fun x => decide (x.bucket = b)) (fun x => { x with drained := true }) s.flow.moves } } := by
    unfold moveDrained
    rw [found]
    exact if_pos (by simp [up_of_running running, goes, inTime, empty])
  refine ⟨_, (exec_bucketMoveDrained b s).trans (congrArg _ runs), find?_updFirst (p := fun x : Move => decide (x.bucket = b)) found fun h => h,
    fun j ne => find?_updFirst_other (fun x hit => ?_) s.flow.moves, fun _ => rfl, rfl⟩
  have at_ : x.bucket = b := of_decide_eq_true hit
  exact ⟨decide_eq_false (at_ ▸ ne.symm), decide_eq_false (at_ ▸ ne.symm)⟩

/-- Buckets, moves, homes, fields and tables stay. -/
structure PlaceKept (s t : State) : Prop where
  pipeOf : t.flow.pipeOf = s.flow.pipeOf
  moves : t.flow.moves = s.flow.moves
  home : t.flow.home = s.flow.home
  fields : t.fields = s.fields
  tabs : t.tabs = s.tabs

theorem PlaceKept.refl (s : State) : PlaceKept s s := ⟨rfl, rfl, rfl, rfl, rfl⟩

theorem PlaceKept.trans {s t u : State} (a : PlaceKept s t) (b : PlaceKept t u) : PlaceKept s u :=
  ⟨b.pipeOf.trans a.pipeOf, b.moves.trans a.moves, b.home.trans a.home, b.fields.trans a.fields, b.tabs.trans a.tabs⟩

theorem PlaceKept.of_kept {s t : State} (h : Kept s t) : PlaceKept s t := by
  constructor
  all_goals simp only [h.flow, h.fields, h.tabs]

theorem PlaceKept.of_fab {s t : State} (h : FabFrame s t) : PlaceKept s t := by
  obtain ⟨f, o, rfl⟩ := h
  exact ⟨rfl, rfl, rfl, rfl, rfl⟩

theorem foldl_placeKept {α : Type} {f : State → α → State} (each : ∀ s x, PlaceKept s (f s x)) (l : List α) (s : State) :
    PlaceKept s (l.foldl f s) :=
  foldl_rel (R := PlaceKept) .refl (fun _ _ _ => .trans) each l s

theorem evictHot_placeKept (h : HotForm) (s : State) : PlaceKept s (evictHot h s) := by
  unfold evictHot
  dsimp only
  split
  · refine PlaceKept.trans ?_ (.of_fab (sendMsg_frame ..))
    exact ⟨rfl, rfl, rfl, rfl, rfl⟩
  · exact ⟨rfl, rfl, rfl, rfl, rfl⟩

theorem walkBucket_placeKept (m : Move) (s : State) : PlaceKept s (walkBucket m s) := by
  refine PlaceKept.trans (t := evictWhere (fun h => decide (h.slice = m.from_) && decide (bucketOf h.fh = m.bucket)) s) ?_ ⟨rfl, rfl, rfl, rfl, rfl⟩
  exact foldl_placeKept (fun s h => evictHot_placeKept h s) _ s

theorem PlaceKept.of_obs {s t : State} (h : ∃ o, t = { s with obs := o }) : PlaceKept s t := by
  obtain ⟨o, rfl⟩ := h
  exact ⟨rfl, rfl, rfl, rfl, rfl⟩

theorem enterPipe_placeKept (k : Packet) (s : State) : PlaceKept s (enterPipe k s) := by
  have pkts : PlaceKept s (s.setPkts (pipedPkts k s)) := ⟨rfl, rfl, rfl, rfl, rfl⟩
  have counted := pkts.trans (.of_obs (countFor_obs { k with pipe := s.pipeOf k.bucket, place := .reed } (.pipe (s.pipeOf k.bucket) .pkts)))
  have bridged := counted.trans (.of_obs (countBridge_obs (s.engineOf k.port / 2) (dieOfPipe (s.pipeOf k.bucket)) k.frame.length))
  unfold enterPipe
  dsimp only
  obtain ⟨r, asked⟩ := requestFlow_flow (s := { countBridge (s.engineOf k.port / 2) (dieOfPipe (s.pipeOf k.bucket)) k.frame.length
      ((s.setPkts (pipedPkts k s)).countFor { k with pipe := s.pipeOf k.bucket, place := .reed } (.pipe (s.pipeOf k.bucket) .pkts)) with
    flow := _ }) { k with pipe := s.pipeOf k.bucket, place := .reed }
  exact bridged.trans ((congrArg (PlaceKept _) asked).mpr ⟨rfl, rfl, rfl, rfl, rfl⟩)

/-- The bucket goes to the pipeline: homes, fields, tables and the number of moves stay. -/
structure Placed (b k : Nat) (s t : State) : Prop where
  pipeOf : t.flow.pipeOf = smSet s.flow.pipeOf b k
  moves : t.flow.moves.length = s.flow.moves.length
  home : t.flow.home = s.flow.home
  fields : t.fields = s.fields
  tabs : t.tabs = s.tabs

theorem Placed.trans {b k : Nat} {s t u : State} (a : Placed b k s t) (h : PlaceKept t u) : Placed b k s u :=
  ⟨h.pipeOf.trans a.pipeOf, (congrArg List.length h.moves).trans a.moves, h.home.trans a.home, h.fields.trans a.fields, h.tabs.trans a.tabs⟩

theorem Placed.pipeOf_self {b k : Nat} {s t : State} (a : Placed b k s t) : t.pipeOf b = k := by
  rw [State.pipeOf, a.pipeOf, smGet_smSet_self]

theorem Placed.pipeOf_ne {b k j : Nat} {s t : State} (a : Placed b k s t) (ne : j ≠ b) : t.pipeOf j = s.pipeOf j := by
  rw [State.pipeOf, a.pipeOf, smGet_smSet_ne _ _ _ ne]
  rfl

/-- A bucket that a pipeline takes, and the move of it that waited. -/
def placedAt (b k : Nat) (s : State) : State := nextMove b (placeBucket b k s)

theorem placedAt_places (b k : Nat) (s : State) : Placed b k s (placedAt b k s) := by
  have set_ (s : State) (l : List Packet) : PlaceKept s (s.setPkts l) := ⟨rfl, rfl, rfl, rfl, rfl⟩
  obtain ⟨pipeOf, moves, home, fields, tabs⟩ : PlaceKept { s with flow := { s.flow with pipeOf := smSet s.flow.pipeOf b k } } (placeBucket b k s) :=
    (set_ _ _).trans (foldl_placeKept (fun s x => enterPipe_placeKept x s) _ _)
  exact ⟨pipeOf, (length_updFirst ..).trans (congrArg List.length moves), home, fields, tabs⟩

/-- With no packet in the module none enters. -/
theorem placedAt_obs {b k : Nat} (empty : s.pkts = []) : (placedAt b k s).obs = s.obs := by
  have same : placeBucket b k s = State.setPkts { s with flow := { s.flow with pipeOf := smSet s.flow.pipeOf b k } } [] := by
    unfold placeBucket
    dsimp only
    rw [show State.pkts { s with flow := { s.flow with pipeOf := smSet s.flow.pipeOf b k } } = [] from empty]
    rfl
  rw [placedAt, same]
  rfl

theorem endHomeSet_placeKept (m : Move) (s : State) : PlaceKept s (endHomeSet m s) := by
  unfold endHomeSet
  split
  · split
    · exact .refl s
    · exact .of_kept (finish_kept ..)
  · exact .refl s

/-- The state in which a move has left the list and its bucket has its new home. -/
def unlistedMove (m : Move) (s : State) : State :=
  { s with flow := { s.flow with
    moves := delFirst (fun x => decide (x.bucket = m.bucket)) s.flow.moves
    home := match m.home with | some h => smSet s.flow.home m.bucket h | none => s.flow.home } }

theorem endMove_eq {m : Move} (low : m.dst < 16) : endMove m s = match m.ctx with
    | some c => if m.home.isSome then placedAt m.bucket m.dst (unlistedMove m s)
      else finish c .ok (leBytes 8 (placedAt m.bucket m.dst (unlistedMove m s)).now.toNat) m.since 0 (placedAt m.bucket m.dst (unlistedMove m s))
    | none => placedAt m.bucket m.dst (unlistedMove m s) := by
  unfold endMove unlistedMove
  cases m.home with
  | none =>
    dsimp only
    rw [if_pos low]
    rfl
  | some h =>
    dsimp only
    rw [if_pos low]
    rfl

theorem endMove_places {m : Move} (low : m.dst < 16) : Placed m.bucket m.dst (unlistedMove m s) (endMove m s) := by
  have placed := placedAt_places m.bucket m.dst (unlistedMove m s)
  rw [endMove_eq low]
  split
  · split
    · exact placed
    · exact placed.trans (.of_kept (finish_kept ..))
  · exact placed

theorem moveDone_moves {b : Nat} {m : Move} (running : s.sys.mode = .running) (found : s.moveOf b = some m) (drained : m.drained = true)
    (inTime : moveLate s m = false) (bucket : b < 65536) (low : m.dst < 16) :
    ∃ t, exec (.bucketMoveDone b) s = .next t ∧ t.pipeOf b = m.dst ∧ (∀ j, j ≠ b → t.pipeOf j = s.pipeOf j) ∧
         t.flow.moves.length + 1 = s.flow.moves.length ∧ (∀ h, m.home = some h → smFind t.flow.home b = some h) ∧
         (m.home = none → t.flow.home = s.flow.home) ∧ t.fields = s.fields ∧ t.tabs = s.tabs := by
  have runs : moveDone b s = endHomeSet m (endMove m (walkBucket m s)) := by
    unfold moveDone
    rw [found]
    exact if_pos (by simp [up_of_running running, drained, inTime, bucket])
  have walked := walkBucket_placeKept m s
  have ended := (endMove_places (s := walkBucket m s) low).trans (endHomeSet_placeKept m (endMove m (walkBucket m s)))
  have own := bucket_of_moveOf found
  rw [own] at ended
  have fewer := (find?_mem_delFirst (found : s.flow.moves.find? (fun m => decide (m.bucket = b)) = some m)).1
  refine ⟨_, (exec_bucketMoveDone b s).trans (congrArg _ runs), ended.pipeOf_self, fun j ne => ?_, ?_, fun h at_ => ?_, fun none_ => ?_,
    ended.fields.trans walked.fields, ended.tabs.trans walked.tabs⟩
  · rw [ended.pipeOf_ne ne]
    exact congrArg (fun p => smGet (j % 16) p j) walked.pipeOf
  · rw [ended.moves, unlistedMove, walked.moves, own]
    exact fewer
  · rw [ended.home, unlistedMove, at_, own]
    exact smFind_smSet_self ..
  · rw [ended.home, unlistedMove, none_]
    exact walked.home

theorem moveAbandon_late {b : Nat} {m : Move} (running : s.sys.mode = .running) (found : s.moveOf b = some m) (late : moveLate s m = true) :
    ∃ t, exec (.bucketMoveAbandon b) s = .next t ∧ t.pipeOf b = m.from_ ∧
       (∀ j, j ≠ b → t.pipeOf j = s.pipeOf j) ∧ t.flow.moves.length + 1 = s.flow.moves.length ∧
       t.flow.home = s.flow.home ∧
       (m.ctx = none → s.intake.pkts = [] →
         t.cntAt (Ctr.module_ .placeAbort).key = s.cntAt (Ctr.module_ .placeAbort).key + 1) := by
  let u : State := { s with flow := { s.flow with moves := delFirst (fun x => decide (x.bucket = b)) s.flow.moves } }
  have runs : moveAbandon b s = match m.ctx, m.home with
      | some c, none => finish c .busy [] 0 0 (placedAt b m.from_ (u.count (.module_ .placeAbort)))
      | _, _ => endHomeSet m (placedAt b m.from_ (u.count (.module_ .placeAbort))) := by
    unfold moveAbandon
    rw [found]
    exact if_pos (by simp [up_of_running running, late])
  have kept : PlaceKept (placedAt b m.from_ (u.count (.module_ .placeAbort))) (moveAbandon b s) := by
    rw [runs]
    split
    · exact .of_kept (finish_kept ..)
    · exact endHomeSet_placeKept ..
  have ended := (placedAt_places b m.from_ (u.count (.module_ .placeAbort))).trans kept
  have fewer := (find?_mem_delFirst (found : s.flow.moves.find? (fun m => decide (m.bucket = b)) = some m)).1
  refine ⟨_, exec_bucketMoveAbandon b s, ended.pipeOf_self, fun j ne => ended.pipeOf_ne ne, ?_, ended.home, fun none_ empty => ?_⟩
  · rw [ended.moves]
    exact fewer
  · have alone : moveAbandon b s = placedAt b m.from_ (u.count (.module_ .placeAbort)) := by
      rw [runs, none_, endHomeSet, none_]
    have quiet := placedAt_obs (b := b) (k := m.from_) (s := u.count (.module_ .placeAbort)) empty
    rw [alone, State.cntAt, quiet]
    exact cntAt_count_self (s := u) ..

/-! ### The placement period -/

theorem placementPeriod_ends (running : s.sys.mode = .running)
    (over_ : s.flow.placeAt.toNat + s.fval .placePeriod * 1000 ≤ s.now.toNat) :
    ∃ t, exec .placementPeriod s = .next t ∧ t.flow.load = [] ∧ t.flow.bload = [] ∧
       t.flow.placeAt.toNat = (s.flow.placeAt.toNat + s.fval .placePeriod * 1000) % 2 ^ 64 ∧ t.flow.moves.take s.flow.moves.length = s.flow.moves ∧
       (∀ j, t.pipeOf j = s.pipeOf j) ∧ t = { s with flow := t.flow } := by
  obtain ⟨ms, starts, _⟩ := foldl_startMove (b := fun m : Nat × Nat => m.1) (d := fun _ m => m.2) none none (placeMoves s) s
  have runs : placementPeriod s = { s with flow := { s.flow with
      moves := s.flow.moves ++ ms, load := [], bload := [], placeAt := dw (s.flow.placeAt.toNat + s.fval .placePeriod * 1000) } } := by
    unfold placementPeriod
    rw [if_neg (by simp [up_of_running running, over_]), starts]
  exact ⟨_, (exec_placementPeriod s).trans (congrArg _ runs), rfl, rfl, BitVec.toNat_ofNat .., List.take_left, fun _ => rfl, rfl⟩

/-- Settles O22. -/
theorem bucketsMove : Obligations.BucketsMove := by
  unfold Obligations.BucketsMove
  refine ⟨⟨?read, ?move, ?unpin, ?homes⟩, ?moves, ?period⟩
  case read => exact fun c start count s => bucketRead_lists
  case move =>
    intro c b k s ready root low bucket serves buckets
    have flow := (beginCmd_kept c 0x221 s).flow
    have runs := bucketMove_runs ready root (.inr ⟨low, bucket, serves⟩)
    have moving : (beginCmd c 0x221 s).bucketMoving b = s.bucketMoving b := bucketMoving_congr flow b
    refine ⟨fun still => ?_, fun going now => ?_⟩
    · obtain ⟨u, m, is, facts⟩ := bucketMoveWork_starts (s := beginCmd c 0x221 s) (c := c) low (by rwa [flow]) (moving.trans still)
      have pipe (j : Nat) : (beginCmd c 0x221 s).pipeOf j = s.pipeOf j := congrArg (fun f : Flow => smGet (j % 16) f.pipeOf j) flow
      simp only [flow, pipe] at facts
      exact ⟨u, m, runs.trans (congrArg _ is), facts⟩
    · rw [runs, bucketMoveWork, if_neg (by omega), moving, going, if_pos rfl, now, if_neg (by decide)]
  case unpin =>
    intro c b s ready root
    have flow := (beginCmd_kept c 0x221 s).flow
    obtain ⟨u, is, facts⟩ := bucketMoveWork_unpins c b (beginCmd c 0x221 s)
    rw [flow] at facts
    rw [beginCmd_now] at is
    exact ⟨u, (bucketMove_runs ready root (.inl rfl)).trans (congrArg _ is), facts⟩
  case homes => exact fun c first count home s => flowHomeSet_starts
  case moves =>
    intro b m s running found
    exact ⟨moveDrained_drains running found, moveDone_moves running found, moveAbandon_late running found⟩
  case period =>
    intro s running stop
    refine ⟨fun early => ?_, placementPeriod_ends running⟩
    rw [exec_placementPeriod, placementPeriod]
    exact congrArg _ (if_pos (Bool.or_eq_true_iff.mpr (.inr (decide_eq_true early))))

end Sys2Proof.Proofs
end

