-- ==== Sys2Proof/Proofs/FlowCmds.lean ====
section
/-! PROOF. The commands of flow state and of the sketches (O21). -/

namespace Sys2Proof.Proofs
open Sys2Proof.Machine

variable {s : State}

theorem exec_flowRead (c : CmdCtx) (sel : FlowSel) (s : State) : exec (.flowRead c sel) s = execFlowRead c sel s := rfl
theorem exec_flowWrite (c : CmdCtx) (sel : FlowSel) (mask : DWord) (vals : List DWord) (s : State) :
    exec (.flowWrite c sel mask vals) s = execFlowWrite c sel mask vals s := rfl
theorem exec_flowDelete (c : CmdCtx) (sel : FlowSel) (s : State) : exec (.flowDelete c sel) s = execFlowDelete c sel s := rfl
theorem exec_sketchRead (c : CmdCtx) (k r start count : Nat) (o : Option Bref) (s : State) :
    exec (.sketchRead c k r start count o) s = execSketchRead c k r start count o s := rfl
theorem exec_heavyRead (c : CmdCtx) (start count : Nat) (s : State) : exec (.heavyRead c start count) s = execHeavyRead c start count s := rfl

/-! ### The flow of a selector -/

theorem homedAway_congr {t : State} (flow : t.flow = s.flow) (fab : t.fab = s.fab) (fh : DWord) : homedAway t fh = homedAway s fh := by
  unfold homedAway State.homeOf State.isLocal
  rw [flow, fab]

theorem selectFlow_congr {t : State} (kept : Kept s t) (sel : FlowSel) : selectFlow t sel = selectFlow s sel := by
  have ctx : t.ctx = s.ctx := funext fun i => congrArg (fun f : Flow => smGet ({} : FlowCtx) f.ctxs i) kept.flow
  have found : findFlow t = findFlow s := by
    funext fh
    unfold findFlow
    rw [ctx]
  have away : homedAway t = homedAway s := funext fun fh => homedAway_congr kept.flow kept.fab fh
  unfold selectFlow
  rw [ctx, away, found]

/-- A selected flow of the caller that no one leases is acted on. -/
theorem onFlow_acts {c : CmdCtx} {i : Instr} {sel : FlowSel} {t : DWord} {absent : State → State} {act : Nat → State → State} {k : Nat}
    (at_ : selectFlow s sel = .at_ k) (mine : (s.ctx k).part = c.part) (free : s.leaseOf k = none) :
    onFlow c i sel t absent act s = act k s := by
  unfold onFlow
  rw [at_]
  dsimp only
  rw [if_neg (Classical.not_not.mpr mine), free, if_neg (by decide)]

theorem onFlow_absent {c : CmdCtx} {i : Instr} {sel : FlowSel} {t : DWord} {absent : State → State} {act : Nat → State → State}
    (none_ : selectFlow s sel = .absent) : onFlow c i sel t absent act s = absent s := by
  unfold onFlow
  rw [none_]

/-! ### The flow commands on the flow that they name -/

theorem flowRead_runs {c : CmdCtx} {sel : FlowSel} (ready : Ready 0x200 s) (path : PathEmpty s) (fresh : Fresh c s) (ok : selCheck c sel = none) :
    exec (.flowRead c sel) s = .next (onFlow c (.flowRead c sel) sel s.now (finish c .ok (zeros 256) s.now 0)
      (fun k u => finish c .ok (ctxBytes (u.merged k)) s.now 0 u) (begun c 0x200 s)) := by
  rw [exec_flowRead, execFlowRead, runCmd_ready ready ok, atPoint_begin path fresh]

theorem flowWrite_runs {c : CmdCtx} {sel : FlowSel} {mask : DWord} {vals : List DWord} (ready : Ready 0x201 s) (path : PathEmpty s)
    (fresh : Fresh c s) (ok : selCheck c sel = none) (bits : flowMaskOk mask = true)
    (values : (maskedValues mask vals).all flowValueOk = true) :
    exec (.flowWrite c sel mask vals) s = .next (onFlow c (.flowWrite c sel mask vals) sel s.now (finish c .badParam [] s.now 0)
      (fun k u => finish c .ok [] s.now 0 (writeFlow k (maskedValues mask vals) u)) (begun c 0x201 s)) := by
  have pass : (match selCheck c sel with
      | some st => some st
      | none => firstFail [(!flowMaskOk mask || !(maskedValues mask vals).all flowValueOk, .badParam)]) = none := by
    rw [ok, bits, values]
    rfl
  rw [exec_flowWrite, execFlowWrite, runCmd_ready ready pass, atPoint_begin path fresh]

theorem flowDelete_runs {c : CmdCtx} {sel : FlowSel} (ready : Ready 0x202 s) (path : PathEmpty s) (fresh : Fresh c s) (ok : selCheck c sel = none) :
    exec (.flowDelete c sel) s = .next (onFlow c (.flowDelete c sel) sel s.now (finish c .ok [] s.now 0)
      (fun k u => finish c .ok [] s.now 0 (removeFlow k u)) (begun c 0x202 s)) := by
  rw [exec_flowDelete, execFlowDelete, runCmd_ready ready ok, atPoint_begin path fresh]

theorem merged_congr {t : State} (flow : t.flow = s.flow) (now : t.now = s.now) (k : Nat) : t.merged k = s.merged k := by
  simp only [State.merged, State.hotOf, State.ctx, mergeHot, pendingCarries, flow, now]

theorem ctx_congr {t : State} (flow : t.flow = s.flow) (k : Nat) : t.ctx k = s.ctx k :=
  congrArg (fun f : Flow => smGet ({} : FlowCtx) f.ctxs k) flow

theorem hotOf_congr {t : State} (flow : t.flow = s.flow) (k : Nat) : t.hotOf k = s.hotOf k :=
  congrArg (fun f : Flow => f.hots.find? (fun h : HotForm => decide (h.index = k))) flow

theorem leaseOf_congr {t : State} (flow : t.flow = s.flow) (k : Nat) : t.leaseOf k = s.leaseOf k := by
  simp only [State.leaseOf, flow]

theorem hotOf_modHot_ne {i j : Nat} {f : HotForm → HotForm} (kept : ∀ h, (f h).index = h.index) (ne : j ≠ i) :
    (s.modHot i f).hotOf j = s.hotOf j := by
  refine find?_updFirst_other (fun h hit => ?_) s.flow.hots
  have at_ : h.index = i := of_decide_eq_true hit
  exact ⟨decide_eq_false (at_ ▸ ne.symm), decide_eq_false (by rw [kept, at_]; exact ne.symm)⟩

/-- A write changes the context and keeps the place of a hot form. -/
theorem writeFlow_writes (k : Nat) (l : List (Nat × DWord)) (s : State) : let u := writeFlow k l s
    u.ctx k = l.foldl writeMasked (s.ctx k) ∧ (∀ j, j ≠ k → u.ctx j = s.ctx j) ∧
      (∀ h, s.hotOf k = some h → ∃ g, u.hotOf k = some g ∧ g.hold = h.hold ∧ g.slice = h.slice ∧ g.way = h.way) ∧
      u = { s with flow := u.flow } := by
  refine ⟨ctx_setCtx_self .., fun j ne => ctx_setCtx_ne (s := s.modHot k (hotBytes (l.foldl writeMasked (s.merged k)))) _ ne, fun h hot => ?_, rfl⟩
  exact ⟨hotBytes (l.foldl writeMasked (s.merged k)) h, hotOf_modHot hot rfl, rfl, rfl, rfl⟩

/-- The mask of the flags alone writes NO_EXPIRE. -/
theorem foldl_writeMasked_flags (v : DWord) (c : FlowCtx) : (maskedValues 1 [v]).foldl writeMasked c = { c with noExpire := v.getLsbD 2 } := by
  have one : (List.range 64).filter (fun i => (1 : DWord).getLsbD i) = [0] := by decide
  rw [maskedValues, one]
  rfl

theorem setPkts_empty (empty : s.pkts = []) : s.setPkts [] = s := by
  have none_ : s.intake.pkts = [] := empty
  have same : { s.intake with pkts := [] } = s.intake := congrArg (fun l => { s.intake with pkts := l }) none_.symm
  unfold State.setPkts
  rw [same, none_]
  rfl

/-- A flow that is removed, while no packet is in the module. -/
theorem removeFlow_removes {k : Nat} (empty : s.pkts = []) : let u := removeFlow k s
    (u.ctx k).valid = false ∧ (u.ctx k).gen = (s.ctx k).gen ∧ u.hotOf k = none ∧ u.holdOf k = none ∧
         pendingCarries u k 0 = 0 ∧ (∀ j, j ≠ k → u.ctx j = s.ctx j ∧ u.hotOf j = s.hotOf j) ∧ u = { s with flow := u.flow } := by
  intro u
  have own : u.ctx k = { valid := false, gen := (s.ctx k).gen } := ctx_removeFlow_self k
  have hot (j : Nat) : u.hotOf j = ((s.modHot k (fun h => { h with hold := false })).flow.hots.filter (fun h => decide (h.index ≠ k))).find?
    (fun h => decide (h.index = j)) := rfl
  refine ⟨by rw [own], by rw [own], find?_filter_self HotForm.index _ k, holdOf_removeFlow k, ?_,
    fun j ne => ⟨ctx_removeFlow_ne ne, ?_⟩, ?_⟩
  · have gone : u.flow.carries = s.flow.carries.filter (fun c => decide (c.index ≠ k)) := rfl
    rw [pendingCarries, gone, List.filter_filter, List.length_eq_zero_iff, List.filter_eq_nil_iff]
    rintro c - both
    simp at both
    omega
  · rw [hot]
    exact (find?_filter_ne HotForm.index _ k j ne).trans (hotOf_modHot_ne (fun _ => rfl) ne)
  · have closed : closeHold k .late s = { s with flow := (closeHold k .late s).flow } := by
      unfold closeHold
      rw [empty, List.map_nil, setPkts_empty empty]
      rfl
    change clearFlow k (closeHold k .late s) = { s with flow := (clearFlow k (closeHold k .late s)).flow }
    rw [closed]
    rfl

/-! ### Sketches and heavy hitters -/

/-- A list of words as a reply carries it. -/
theorem fitBody_words (f : Nat → Nat) (count : Nat) : fitBody 4 ((List.range (min count 1021)).map (fun i => leBytes 4 (f i))) =
    ((List.range (min count 1020)).flatMap (fun i => leBytes 4 (f i)), if 1020 < count then 2 else 0) := by
  have long : 1020 < min count 1021 ↔ 1020 < count := by omega
  have short : min (min count 1021) 1020 = min count 1020 := by omega
  unfold fitBody
  dsimp only
  rw [show 4080 / 4 = 1020 from rfl, ← List.map_take, List.take_range, Nat.min_comm, short, List.length_map, List.length_range]
  simp only [long]
  rfl

theorem sketchRead_runs {c : CmdCtx} {k r start count : Nat} {o : Option Bref} (ready : Ready 0x210 s) (path : PathEmpty s)
    (fresh : Fresh c s) (ok : sketchReadCheck c k r start count o s = none) :
    exec (.sketchRead c k r start count o) s = .next (match o with
      | none => finish c .ok ((List.range (min count 1020)).flatMap (fun i => leBytes 4 (sketchCount s k r (start + i)))) s.now
          (if 1020 < count then 2 else 0) (begun c 0x210 s)
      | some b => if b.size < 4 * count then finish c .capacity [] s.now 0 (begun c 0x210 s)
        else match brefStatus c b 1 (4 * count) (begun c 0x210 s) with
          | some st => finish c st [] s.now 0 (begun c 0x210 s)
          | none => finish c .ok [] s.now 0
              (brefWrite c b ((List.range count).flatMap (fun i => leBytes 4 (sketchCount s k r (start + i)))) (begun c 0x210 s))) := by
  have pass : sketchReadCheck c k r start count o (beginCmd c 0x210 s) = none := by
    have key : (beginCmd c 0x210 s).fval .sketchKey k = s.fval .sketchKey k := fval_congr (by rw [(beginCmd_kept c 0x210 s).fields]) ..
    unfold sketchReadCheck at ok ⊢
    rwa [key]
  have flow := (begun_kept c 0x210 s).flow
  rw [exec_sketchRead, execSketchRead, runCmd_ready ready pass, atPoint_begin path fresh]
  simp only [sketchCount_congr (congrArg Flow.sketch flow), fitBody_words (fun i => sketchCount s k r (start + i)) count]
  cases o <;> rfl

theorem heavyRead_reads {c : CmdCtx} {start count : Nat} (ready : Ready 0x211 s) (path : PathEmpty s) (fresh : Fresh c s) (some_ : count ≠ 0) :
    let l := ((heavyOrder s c.part).drop start).take count
    exec (.heavyRead c start count) s = .next (finish c .ok ((l.take 127).flatMap heavyBytes) s.now
       (if 127 < l.length then 2 else 0) (begun c 0x211 s)) := by
  intro l
  have ok : firstFail [(decide (count = 0), Status.badParam)] = none := by
    simp [firstFail_none, some_]
  have order : heavyOrder (begun c 0x211 s) c.part = heavyOrder s c.part := by
    rw [heavyOrder, (begun_kept c 0x211 s).flow]
    rfl
  have fit : fitBody 32 (l.map heavyBytes) = ((l.take 127).flatMap heavyBytes, if 127 < l.length then 2 else 0) := by
    unfold fitBody
    dsimp only
    rw [show 4080 / 32 = 127 from rfl, ← List.map_take, List.length_map]
    rfl
  rw [exec_heavyRead, execHeavyRead, runCmd_ready ready ok, atPoint_begin path fresh, order]
  dsimp only
  rw [fit]

/-- Settles O21. -/
theorem flowAndSketchCommands : Obligations.FlowAndSketchCommands := by
  unfold Obligations.FlowAndSketchCommands
  refine ⟨fun c sel k s path fresh ok => ⟨fun at_ mine free => ⟨?read, ?write, ?delete⟩, fun absent => ⟨?absentRead, ?absentDelete⟩⟩, ⟨?sketch, ?buffer, ?heavy⟩⟩
  case read =>
    intro ready
    have kept := begun_kept c 0x200 s
    rw [flowRead_runs ready path fresh ok, onFlow_acts ((selectFlow_congr kept sel).trans at_)
      ((congrArg FlowCtx.part (ctx_congr kept.flow k)).trans mine) ((leaseOf_congr kept.flow k).trans free), merged_congr kept.flow (begun_now ..)]
  case write =>
    intro mask vals ready bits values
    have kept := begun_kept c 0x201 s
    obtain ⟨own, others, hot, only⟩ := writeFlow_writes k (maskedValues mask vals) (begun c 0x201 s)
    rw [ctx_congr kept.flow] at own
    refine ⟨writeFlow k (maskedValues mask vals) (begun c 0x201 s), ?_, own, fun j ne => (others j ne).trans (ctx_congr kept.flow j), ?_,
      fun h at_ => hot h ((hotOf_congr kept.flow k).trans at_), only⟩
    · rw [flowWrite_runs ready path fresh ok bits values, onFlow_acts ((selectFlow_congr kept sel).trans at_)
        ((congrArg FlowCtx.part (ctx_congr kept.flow k)).trans mine) ((leaseOf_congr kept.flow k).trans free)]
    · rintro rfl v rfl
      rw [own, foldl_writeMasked_flags]
  case delete =>
    intro ready
    have kept := begun_kept c 0x202 s
    have empty : (begun c 0x202 s).pkts = [] := (congrArg Intake.pkts kept.intake).trans path.1
    obtain ⟨valid, gen, hot, hold, carries, others, only⟩ := removeFlow_removes (k := k) empty
    rw [ctx_congr kept.flow] at gen
    refine ⟨removeFlow k (begun c 0x202 s), ?_, valid, gen, hot, hold, carries, fun j ne => ?_, only⟩
    · rw [flowDelete_runs ready path fresh ok, onFlow_acts ((selectFlow_congr kept sel).trans at_)
        ((congrArg FlowCtx.part (ctx_congr kept.flow k)).trans mine) ((leaseOf_congr kept.flow k).trans free)]
    · rw [← ctx_congr kept.flow, ← hotOf_congr kept.flow]
      exact others j ne
  case absentRead =>
    intro ready
    rw [flowRead_runs ready path fresh ok, onFlow_absent ((selectFlow_congr (begun_kept c 0x200 s) sel).trans absent)]
  case absentDelete =>
    intro ready
    rw [flowDelete_runs ready path fresh ok, onFlow_absent ((selectFlow_congr (begun_kept c 0x202 s) sel).trans absent)]
  case sketch =>
    intro c k r start count s ready path fresh ok
    rw [sketchRead_runs ready path fresh ok]
  case buffer =>
    intro c k r start count o s ready path fresh ok b
    rw [sketchRead_runs ready path fresh ok]
    refine ⟨fun short => congrArg _ (if_pos short), fun long fits => ?_⟩
    dsimp only
    rw [if_neg (Nat.not_lt.mpr long), fits]
  case heavy => exact fun c start count s ready path fresh => heavyRead_reads ready path fresh

end Sys2Proof.Proofs
end

