-- ==== Sys2Proof/Proofs/Tensors.lean ====
section
/-! PROOF. Host transfers of tensors and the issue of lists of tile commands (O39). -/

namespace Sys2Proof.Proofs
open Sys2Proof.Machine

variable {s : State}

theorem exec_tensorWrite (c : CmdCtx) (desc : Bytes) (x : Bref) (s : State) :
    exec (.tensorWrite c desc x) s = execTensorWrite c desc x s := rfl
theorem exec_tensorRead (c : CmdCtx) (desc : Bytes) (x : Bref) (s : State) :
    exec (.tensorRead c desc x) s = execTensorRead c desc x s := rfl
theorem exec_tileRun (c : CmdCtx) (x : Bref) (count : Nat) (s : State) : exec (.tileRun c x count) s = execTileRun c x count s := rfl

/-! ### What a transfer writes -/

/-- The states differ only in the rings' profiles, the tiles, HBM and what goes with writes of it. -/
def PutFrame (s t : State) : Prop :=
  ∃ r l h o d e, t = { s with rings := r, tiles := l, hbm := h, obs := o, darn := d, epochNew := e }

theorem TileFrame.put {t : State} (a : TileFrame s t) : PutFrame s t := by
  obtain ⟨_, _, _, _, _, rfl⟩ := a
  exact ⟨_, _, _, _, _, _, rfl⟩

theorem PutFrame.trans {s t u : State} (a : PutFrame s t) (b : PutFrame t u) : PutFrame s u := by
  obtain ⟨_, _, _, _, _, _, rfl⟩ := a
  obtain ⟨_, _, _, _, _, _, rfl⟩ := b
  exact ⟨_, _, _, _, _, _, rfl⟩

theorem addCounts_put (c : CmdCtx) (id : DWord) (d : List DWord) (s : State) : PutFrame s (addCounts c id d s) := by
  unfold addCounts
  split
  · exact ⟨_, s.tiles, s.hbm, s.obs, s.darn, s.epochNew, rfl⟩
  · exact (TileFrame.refl s).put

theorem profiled_put {f : State → State} (frame : PutFrame s (f s)) (c : CmdCtx) : PutFrame s (profiled c f s) := by
  unfold profiled profileOf
  split
  · exact frame.trans (addCounts_put ..)
  · exact frame

theorem brefCharge_put (c : CmdCtx) (x : Bref) (n : Nat) (s : State) : PutFrame s (brefCharge c x n s) := by
  unfold brefCharge
  split
  · exact profiled_put (countHbm_tileFrame ..).put c
  · exact (TileFrame.refl s).put

theorem count_tileFrame (k : Ctr) (n : Nat) : TileFrame s (s.count k n) := ⟨s.tiles, s.hbm, _, s.darn, s.epochNew, rfl⟩

theorem countMisses_frame (l : List Nat) (s : State) : TileFrame s (countMisses l s) :=
  foldl_rel TileFrame.refl (fun _ _ _ => TileFrame.trans) (fun _ _ => count_tileFrame ..) l s

theorem countTmem_frame (l : List Span) (s : State) : TileFrame s (countTmem l s) := by
  refine foldl_rel TileFrame.refl (fun _ _ _ => TileFrame.trans) (fun u x => ?_) l s
  split
  · exact count_tileFrame ..
  · exact .refl u

theorem countReads_frame (p : Nat) (l : List Span) (s : State) : TileFrame s (countReads p l s) :=
  foldl_rel TileFrame.refl (fun _ _ _ => TileFrame.trans) (fun _ _ => countHbm_tileFrame ..) (hbmLines l) s

theorem countTransfer_frame (p : Nat) (d : Desc) (s : State) : TileFrame s (countTransfer p d s) :=
  ((countMisses_frame ..).trans (countTmem_frame ..)).trans (countReads_frame ..)

/-- The states differ only in tile memory and its lines, HBM, and what goes with writes of it. -/
def RunFrame (s t : State) : Prop :=
  ∃ m l h n d e, t = { s with tiles := { s.tiles with mem := m, lines := l }, hbm := h, obs := { s.obs with cnt := n }, darn := d,
                              epochNew := e }

theorem RunFrame.refl (s : State) : RunFrame s s := ⟨s.tiles.mem, s.tiles.lines, s.hbm, s.obs.cnt, s.darn, s.epochNew, rfl⟩

theorem RunFrame.trans {s t u : State} (a : RunFrame s t) (b : RunFrame t u) : RunFrame s u := by
  obtain ⟨_, _, _, _, _, _, rfl⟩ := a
  obtain ⟨_, _, _, _, _, _, rfl⟩ := b
  exact ⟨_, _, _, _, _, _, rfl⟩

theorem tilePutN_run (p : Nat) (own : Bool) (t off : Nat) (b : Bytes) (s : State) : RunFrame s (tilePutN p own t off b s) := by
  induction b generalizing off s with
  | nil => exact .refl s
  | cons x b ih => exact RunFrame.trans ⟨_, _, s.hbm, s.obs.cnt, s.darn, s.epochNew, rfl⟩ (ih ..)

theorem noteEpoch_run (l : List (Nat × Nat)) : RunFrame s (s.noteEpoch l) := by
  obtain ⟨e, noted⟩ := noteEpoch_eq (s := s) l
  exact ⟨s.tiles.mem, s.tiles.lines, s.hbm, s.obs.cnt, s.darn, e, noted⟩

theorem countHbm_run (p a n : Nat) (w : Bool) : RunFrame s (countHbm s p a n w) := by
  unfold countHbm
  split
  · exact .refl s
  · exact ⟨s.tiles.mem, s.tiles.lines, s.hbm, _, s.darn, s.epochNew, rfl⟩

theorem twrite1_run (p : Nat) (own : Bool) (w : TWrite) (s : State) : RunFrame s (twrite1 p own w s) := by
  unfold twrite1
  split
  · exact tilePutN_run ..
  · exact ((countHbm_run ..).trans (noteEpoch_run _)).trans ⟨_, _, _, _, _, _, rfl⟩

theorem markPoison_run (p : Nat) (ws : List TWrite) (s : State) : RunFrame s (markPoison p ws s) :=
  ⟨s.tiles.mem, _, s.hbm, s.obs.cnt, _, s.epochNew, rfl⟩

theorem twrites_run (p : Nat) (own : Bool) (ws : List TWrite) (s : State) : RunFrame s (twrites p own ws s) :=
  (foldl_rel RunFrame.refl (fun _ _ _ => RunFrame.trans) (fun u w => twrite1_run p own w u) ws s).trans (markPoison_run ..)

theorem copyOut_run (p : Nat) (own : Bool) (d : Desc) (raws : List Int) (lim k : Nat) (xs : List Rd) (s : State) (ws : List TWrite) :
    RunFrame s (copyOut p own d raws lim k xs (s, ws)).1 := by
  induction lim generalizing k xs s ws with
  | zero => exact .refl s
  | succ lim ih =>
    unfold copyOut
    dsimp only
    split
    · split
      · exact ih ..
      · exact (twrite1_run ..).trans (ih ..)
    · exact ih ..
    · split
      · exact .refl s
      · exact (twrite1_run ..).trans (ih ..)

theorem RunFrame.put {t : State} (a : RunFrame s t) : PutFrame s t := by
  obtain ⟨_, _, _, _, _, _, rfl⟩ := a
  exact ⟨s.rings, _, _, _, _, _, rfl⟩

theorem tensorPut_run (p : Nat) (d : Desc) (b : Bytes) (bad : Bool) (s : State) : RunFrame s (tensorPut p d b bad s) := by
  unfold tensorPut
  dsimp only
  split
  · exact twrites_run ..
  · exact (copyOut_run ..).trans (markPoison_run ..)

/-! ### TENSOR_WRITE and TENSOR_READ -/

theorem unlistXfer_none {c : CmdCtx} (unlisted : xferOf s c = none) : unlistXfer c s = s := by
  unfold unlistXfer
  rw [unlisted]

theorem tensorResume_fresh {c : CmdCtx} (fresh : (s.entryOf c).bind (·.waitFrom) = none) : tensorResume c s = s := by
  unfold tensorResume
  rw [fresh]

section
variable {c : CmdCtx} {wr : Bool} {desc : Bytes} {x : Bref} {i : Instr} (sound : hostDescCheck s c.part (descOf desc) = none)
include sound

theorem tensorWork_size (size : x.size ≠ transferSize s c.part (descOf desc) wr) (unlisted : xferOf s c = none) :
    tensorWork c wr desc x i s = finish c .badLength [] 0 0 s := by
  unfold tensorWork
  dsimp only
  rw [sound]
  dsimp only
  rw [if_pos size, unlistXfer_none unlisted]

variable (size : x.size = transferSize s c.part (descOf desc) wr)
  (reach : brefStatus c x (b2n (!wr)) (transferSize s c.part (descOf desc) wr) s = none)
include size reach

theorem tensorWork_waits (waits : tensorWaits s c (xferFeet s c.part false desc) = true) :
    tensorWork c wr desc x i s = waitCmd c i (listXfer c false desc s) := by
  unfold tensorWork
  dsimp only
  rw [sound]
  dsimp only
  rw [if_neg (Classical.not_not.mpr size), reach]
  dsimp only
  rw [if_pos waits]

variable (goes : tensorWaits s c (xferFeet s c.part false desc) = false) (unlisted : xferOf s c = none)
  (fresh : (s.entryOf c).bind (·.waitFrom) = none)
include goes unlisted fresh

theorem tensorWork_writes (put : wr = true) :
    tensorWork c wr desc x i s =
      let n := transferSize s c.part (descOf desc) wr
      let bad := decide (x.loc = 1) && s.hbmPoison c.part x.addr.toNat n
      finish c (if bad then .dataPoisoned else .ok) [] 0 0 (profiled c (tensorPut c.part (descOf desc) (brefRead c x n s) bad)
        (profiled c (countTransfer c.part (descOf desc)) (brefCharge c x n s))) := by
  subst put
  unfold tensorWork
  dsimp only
  rw [sound]
  dsimp only
  rw [if_neg (Classical.not_not.mpr size), reach]
  dsimp only
  rw [if_neg (Bool.eq_false_iff.mp goes), if_pos rfl, unlistXfer_none unlisted, tensorResume_fresh fresh]

theorem tensorWork_reads (get : wr = false)
    (whole : splitBad (profiled c (countTransfer c.part (descOf desc)) s) c.part (descOf desc) = none) :
    tensorWork c wr desc x i s =
      let r := tensorGet s c.part (descOf desc)
      finish c (if r.2 then .dataPoisoned else .ok) [] 0 0 (brefWrite c x r.1 (profiled c (countTransfer c.part (descOf desc)) s)) := by
  subst get
  unfold tensorWork
  dsimp only
  rw [sound]
  dsimp only
  rw [if_neg (Classical.not_not.mpr size), reach]
  dsimp only
  rw [if_neg (Bool.eq_false_iff.mp goes), if_neg Bool.false_ne_true, unlistXfer_none unlisted, tensorResume_fresh fresh, whole]

theorem tensorWork_stops (get : wr = false) {k : Nat}
    (cut : splitBad (profiled c (countTransfer c.part (descOf desc)) s) c.part (descOf desc) = some k) :
    tensorWork c wr desc x i s = finish c .scaleSeqMismatch [] 0 0
      (brefWrite c x ((tensorGet s c.part (descOf desc)).1.take (packedSize (descOf desc) false (k / 4096 * 4096)))
        (profiled c (countTransfer c.part (descOf desc)) s)) := by
  subst get
  unfold tensorWork
  dsimp only
  rw [sound]
  dsimp only
  rw [if_neg (Classical.not_not.mpr size), reach]
  dsimp only
  rw [if_neg (Bool.eq_false_iff.mp goes), if_neg Bool.false_ne_true, unlistXfer_none unlisted, tensorResume_fresh fresh, cut]

end

/-! ### TILE_RUN -/

theorem splitCmds_parts {n : Nat} {b : Bytes} {l : List Bytes} (split : splitCmds n b = some l) : l.flatten = b ∧ l.length = n := by
  induction n generalizing b l with
  | zero =>
    unfold splitCmds at split
    split at split
    next empty =>
      rw [← Option.some.inj split, List.isEmpty_iff.mp empty]
      exact ⟨rfl, rfl⟩
    · cases split
  | succ n ih =>
    unfold splitCmds at split
    dsimp only at split
    split at split
    · cases split
    · obtain ⟨rest, cut, rfl⟩ := Option.map_eq_some_iff.mp split
      obtain ⟨whole, count⟩ := ih cut
      exact ⟨by rw [List.flatten_cons, whole, List.take_append_drop], by rw [List.length_cons, count]⟩

theorem placeCmd_core (y : TCmd) : cmdCore (placeCmd y s) = cmdCore y := by
  unfold placeCmd
  dsimp only
  split
  · rfl
  · split
    · rfl
    · split <;> rfl

/-- A command of a partition whose commands are all issued, and fewer than 64, is issued at once. -/
theorem placeCmd_issued {y : TCmd} (issued : y.issued = true) (all : ∀ z ∈ s.tiles.cmds, z.issued = true)
    (room : (openCmds s y.part).length < 64) : (placeCmd y s).issued = true := by
  have early : (openCmds s y.part).any (fun z => !z.issued) = false :=
    List.any_eq_false.mpr fun z live => by simp [all z (List.mem_filter.mp live).1]
  unfold placeCmd
  dsimp only
  rw [if_neg (Bool.eq_false_iff.mp early), if_neg (by omega)]
  split <;> exact issued

/-- The commands that take their places one after another. -/
def placedCmds : List TCmd → State → List TCmd
  | [], _ => []
  | y :: l, s => placeCmd y s :: placedCmds l (addCmd y s)

theorem foldl_addCmd (l : List TCmd) (s : State) :
    l.foldl (fun s x => addCmd x s) s = s.setCmds (s.tiles.cmds ++ placedCmds l s) := by
  induction l generalizing s with
  | nil => exact congrArg s.setCmds (List.append_nil _).symm
  | cons y l ih =>
    rw [List.foldl_cons, ih]
    exact congrArg s.setCmds (List.append_assoc s.tiles.cmds [placeCmd y s] _)

theorem placedCmds_core (l : List TCmd) (s : State) : (placedCmds l s).map cmdCore = l.map cmdCore := by
  induction l generalizing s with
  | nil => rfl
  | cons y l ih => rw [placedCmds, List.map_cons, List.map_cons, ih, placeCmd_core]

theorem placedCmds_issued {p : Nat} {l : List TCmd} (mine : ∀ y ∈ l, y.part = p ∧ y.issued = true ∧ y.state < 2)
    (all : ∀ z ∈ s.tiles.cmds, z.issued = true) (room : (openCmds s p).length + l.length ≤ 64) :
    ∀ y ∈ placedCmds l s, y.issued = true := by
  induction l generalizing s with
  | nil => exact fun y none_ => absurd none_ List.not_mem_nil
  | cons y l ih =>
    obtain ⟨part, issued, live⟩ := mine y List.mem_cons_self
    have placed : (placeCmd y s).issued = true := placeCmd_issued issued all (by rw [part]; rw [List.length_cons] at room; omega)
    have more : (openCmds (addCmd y s) p).length ≤ (openCmds s p).length + 1 := by
      unfold openCmds
      change ((s.tiles.cmds ++ [placeCmd y s]).filter _).length ≤ _
      rw [List.filter_append, List.length_append]
      exact Nat.add_le_add_left (List.length_filter_le ..) _
    have rest := ih (s := addCmd y s) (fun z own => mine z (List.mem_cons_of_mem y own))
      (fun z old => (List.mem_append.mp old).elim (all z) (fun new => by rw [List.mem_singleton.mp new]; exact placed))
      (by rw [List.length_cons] at room; omega)
    intro z new
    rcases List.mem_cons.mp new with rfl | later
    · exact placed
    · exact rest z later

/-- The commands of a list, before they take their places. -/
def listCmds (p : Nat) (host : Bool) (l : List Bytes) (s : State) : List TCmd :=
  (List.range l.length).map (fun i =>
    { id := s.tiles.nextId + 1 + i, job := s.tiles.nextId, idx := i, part := p, host := host, bytes := nth [] l i, state := 0,
      tile := 0, since := s.now })

theorem issueList_eq (ctx : Option CmdCtx) (slot : Option Nat) (p : Nat) (host : Bool) (l : List Bytes) (s : State) :
    issueList ctx slot p host l s =
      { s with tiles := { s.tiles with
          cmds := s.tiles.cmds ++ placedCmds (listCmds p host l s) s
          jobs := s.tiles.jobs ++ [⟨s.tiles.nextId, ctx, slot, p⟩]
          nextId := s.tiles.nextId + 1 + l.length } } := by
  unfold issueList
  dsimp only
  rw [foldl_addCmd]
  rfl

theorem listCmds_mine (p : Nat) (host : Bool) (l : List Bytes) (s : State) :
    ∀ y ∈ listCmds p host l s, y.part = p ∧ y.issued = true ∧ y.state < 2 := by
  intro y listed
  obtain ⟨i, -, rfl⟩ := List.mem_map.mp listed
  exact ⟨rfl, rfl, Nat.zero_lt_two⟩

/-- What a list's commands say, whatever the marks of their issue. -/
theorem placedCmds_list (p : Nat) (host : Bool) (l : List Bytes) (s t : State) :
    (placedCmds (listCmds p host l s) t).map (fun k => (k.bytes, k.idx, k.part, k.host, k.state, k.job))
      = (List.range l.length).map (fun i => (nth [] l i, i, p, host, 0, s.tiles.nextId)) := by
  have core := congrArg (List.map fun k : TCmd => (k.bytes, k.idx, k.part, k.host, k.state, k.job))
    (placedCmds_core (listCmds p host l s) t)
  rw [List.map_map, List.map_map] at core
  refine core.trans ?_
  rw [listCmds, List.map_map]
  rfl

theorem tileRun_short {c : CmdCtx} {x : Bref} {count : Nat} (reach : brefStatus c x 0 x.size s = none)
    (cut : splitCmds count (brefRead c x x.size s) = none) : tileRunWork c x count s = finish c .badLength [] 0 0 s := by
  unfold tileRunWork
  rw [reach]
  dsimp only
  rw [cut]

theorem tileRun_issues {c : CmdCtx} {x : Bref} {count : Nat} {l : List Bytes} (reach : brefStatus c x 0 x.size s = none)
    (cut : splitCmds count (brefRead c x x.size s) = some l) :
    tileRunWork c x count s = issueList (some c) none c.part true l (brefCharge c x x.size s) := by
  unfold tileRunWork
  rw [reach]
  dsimp only
  rw [cut]

theorem tileRunCheck_none {c : CmdCtx} {x : Bref} {count : Nat} {t : State} (some_ : count ≠ 0) (few : count ≤ 508)
    (reach : brefStatus c x 0 x.size t = none) : tileRunCheck c x count s = none := by
  unfold brefStatus at reach
  rw [firstFail_cons] at reach
  have bad : ¬ (!brefForm c x 0) = true := fun bad => by
    rw [if_pos bad] at reach
    cases reach
  unfold tileRunCheck
  rw [firstFail_cons, if_neg, firstFail_nil]
  rw [Bool.or_eq_true, decide_eq_true_eq]
  exact fun h => h.elim (fun off => by omega) bad

/-- A transfer whose checks pass does the work of TENSOR_WRITE or TENSOR_READ. -/
theorem tensor_runs {c : CmdCtx} {wr : Bool} {desc : Bytes} {x : Bref} (ready : Ready (if wr then 0x320 else 0x321) s)
    (form : tensorForm c wr desc x (beginCmd c (if wr then 0x320 else 0x321) s) = none) :
    exec (if wr then .tensorWrite c desc x else .tensorRead c desc x) s
      = .next (tensorWork c wr desc x (if wr then .tensorWrite c desc x else .tensorRead c desc x)
          (beginCmd c (if wr then 0x320 else 0x321) s)) := by
  cases wr with
  | false => exact (exec_tensorRead ..).trans (congrArg Host.Outcome.next (runCmd_ready ready form))
  | true => exact (exec_tensorWrite ..).trans (congrArg Host.Outcome.next (runCmd_ready ready form))

/-- Settles O39: host transfers by the branches of their work, TILE_RUN by the places that its commands take. -/
theorem tensorsMoveAndListsIssue : Obligations.TensorsMoveAndListsIssue := by
  unfold Obligations.TensorsMoveAndListsIssue
  refine ⟨fun c wr desc x s => ?_, fun c x count s ready some_ few reach => ⟨fun cut => ?_, fun l cut => ?_⟩⟩
  · intro opc i b d n ready form sound
    have runs : exec i s = .next (tensorWork c wr desc x i b) := tensor_runs ready form
    refine ⟨fun size unlisted => ?_, fun size reach => ⟨fun waits => ?_, fun goes unlisted fresh => ⟨fun put => ?_, fun get => ?_⟩⟩⟩
    · exact runs.trans (congrArg _ (tensorWork_size sound size unlisted))
    · exact runs.trans (congrArg _ (tensorWork_waits sound size reach waits))
    · refine ⟨_, runs.trans (congrArg _ (tensorWork_writes sound size reach goes unlisted fresh put)), rfl, ?_⟩
      have kept : Kept s b := beginCmd_kept c opc s
      have same : b.egr = s.egr ∧ b.host = s.host := ⟨beginCmd_egr c opc, beginCmd_host c opc⟩
      obtain ⟨_, _, _, _, _, _, framed⟩ := ((brefCharge_put c x n b).trans
        (profiled_put (countTransfer_frame c.part d _).put c)).trans (profiled_put (tensorPut_run c.part d (brefRead c x n b)
          (decide (x.loc = 1) && b.hbmPoison c.part x.addr.toNat n) _).put c)
      rw [framed]
      exact ⟨kept.flow, same.1, kept.fields, same.2, kept.tabs, kept.slots⟩
    · exact ⟨fun whole => runs.trans (congrArg _ (tensorWork_reads sound size reach goes unlisted fresh get whole)),
        fun k cut => runs.trans (congrArg _ (tensorWork_stops sound size reach goes unlisted fresh get cut))⟩
  · have runs := runCmd_ready (c := c) (work := tileRunWork c x count) ready (tileRunCheck_none some_ few reach)
    exact (exec_tileRun ..).trans (congrArg _ (runs.trans (tileRun_short reach cut)))
  · have runs := runCmd_ready (c := c) (work := tileRunWork c x count) ready (tileRunCheck_none some_ few reach)
    have kept : Kept s (brefCharge c x x.size (beginCmd c 0x322 s)) := (beginCmd_kept ..).trans (brefCharge_kept ..)
    obtain ⟨whole, length⟩ := splitCmds_parts cut
    have issues := (exec_tileRun c x count s).trans (congrArg Host.Outcome.next (runs.trans (tileRun_issues reach cut)))
    generalize brefCharge c x x.size (beginCmd c 0x322 s) = v at issues kept ⊢
    have told := placedCmds_list c.part true l v v
    have issued := placedCmds_issued (s := v) (listCmds_mine c.part true l v)
    rw [issueList_eq] at issues
    rw [kept.tiles] at issues told
    refine ⟨_, placedCmds (listCmds c.part true l v) v, issues, whole, length, rfl, told, fun all room => ?_, rfl, rfl, rfl⟩
    have open_ : openCmds v c.part = openCmds s c.part := congrArg (fun t : Tiles => t.cmds.filter _) kept.tiles
    refine issued (by rw [kept.tiles]; exact all) ?_
    rw [open_, listCmds, List.length_map, List.length_range]
    exact room

end Sys2Proof.Proofs
end

