-- ==== Sys2Proof/Proofs/TileRuns.lean ====
section
/-! PROOF. The commands of the tiles run: their start, their end, the pool's rounds and the dividers (O40). -/

namespace Sys2Proof.Proofs
open Sys2Proof.Machine

variable {s : State}

theorem exec_tileCommandStart (id t : Nat) (s : State) : exec (.tileCommandStart id t) s = .next (tileStart id t s) := rfl
theorem exec_tileCommandComplete (t : Nat) (s : State) : exec (.tileCommandComplete t) s = .next (tileComplete t s) := rfl
theorem exec_poolRoundTimer (s : State) : exec .poolRoundTimer s =
    .next (if (List.range 32).any (fun t => s.tilePool t && !s.isFenced (tileUnit t) && decide (s.fval .tileEn t = 1)) then s
      else if s.up then poolRound s else s) := rfl
theorem exec_tileDividerStep (t : Nat) (s : State) : exec (.tileDividerStep t) s = .next (dividerStep t s) := rfl

/-! ### What a run counts -/

/-- The states differ only in the caches of the tiles and in the counters. -/
def TouchFrame (s t : State) : Prop :=
  ∃ c n, t = { s with tiles := { s.tiles with caches := c }, obs := { s.obs with cnt := n } }

theorem TouchFrame.refl (s : State) : TouchFrame s s := ⟨s.tiles.caches, s.obs.cnt, rfl⟩

theorem TouchFrame.trans {s t u : State} (a : TouchFrame s t) (b : TouchFrame t u) : TouchFrame s u := by
  obtain ⟨_, _, rfl⟩ := a
  obtain ⟨_, _, rfl⟩ := b
  exact ⟨_, _, rfl⟩

theorem count_touch (k : Ctr) (n : Nat) : TouchFrame s (s.count k n) := ⟨s.tiles.caches, _, rfl⟩

theorem setCache_touch (t : Nat) (c : TileCache) : TouchFrame s (s.setCache t c) := ⟨_, s.obs.cnt, rfl⟩

theorem foldl_touch {α : Type} {f : State → α → State} (step : ∀ u x, TouchFrame u (f u x)) (l : List α) (s : State) :
    TouchFrame s (l.foldl f s) := foldl_rel TouchFrame.refl (fun _ _ _ => TouchFrame.trans) step l s

theorem tlbTouch_touch (t p v : Nat) (s : State) : TouchFrame s (tlbTouch t p v s) := by
  unfold tlbTouch
  dsimp only
  generalize State.setCache s t _ = u, setCache_touch (s := s) t _ = touched
  split
  · exact touched.trans (count_touch ..)
  · exact touched

theorem countHbm_touch (p a n : Nat) (w : Bool) : TouchFrame s (countHbm s p a n w) := by
  unfold countHbm
  split
  · exact .refl s
  · exact (count_touch ..).trans (count_touch ..)

theorem countBridge_touch (a b n : Nat) (s : State) : TouchFrame s (countBridge a b n s) := by
  unfold countBridge
  split
  · exact .refl s
  · exact count_touch ..

theorem lineCross_touch (t p a : Nat) (towards : Bool) (s : State) : TouchFrame s (lineCross t p a towards s) := by
  unfold lineCross
  split
  · exact .refl s
  · dsimp only
    split <;> exact countBridge_touch ..

theorem lineFetch_touch (t p a : Nat) (s : State) : TouchFrame s (lineFetch t p a s) := by
  unfold lineFetch
  dsimp only
  have first : TouchFrame s ((tlbTouch t p (a / pageBytes) s).count (.tile t .tmemBytes) 128) :=
    (tlbTouch_touch ..).trans (count_touch ..)
  generalize (tlbTouch t p (a / pageBytes) s).count (.tile t .tmemBytes) 128 = u at first ⊢
  refine first.trans ?_
  split
  · exact .refl u
  · split
    · split
      · exact (setCache_touch ..).trans (count_touch ..)
      · exact (((setCache_touch ..).trans (count_touch ..)).trans (countHbm_touch ..)).trans (lineCross_touch ..)
    · exact (countHbm_touch ..).trans (lineCross_touch ..)

theorem countTmem_touch (l : List Span) (s : State) : TouchFrame s (countTmem l s) := by
  refine foldl_touch (fun u x => ?_) l s
  split
  · exact count_touch ..
  · exact .refl u

theorem countRun_touch (x : TCmd) (r : TileRes) (cycles : Nat) (s : State) : TouchFrame s (countRun x r cycles s) := by
  unfold countRun
  dsimp only
  have misses : TouchFrame s (((countMisses r.missed (s.count (.tile x.tile .busy) cycles)).count (.tile x.tile .escOverflow) r.overs)) :=
    ((count_touch ..).trans (foldl_touch (fun _ _ => count_touch ..) ..)).trans (count_touch ..)
  have reads := misses.trans (foldl_touch (fun u a => lineFetch_touch x.tile x.part a u) (hbmLines r.reads) _)
  have writes := reads.trans (foldl_touch (fun u a => (tlbTouch_touch x.tile x.part (a / pageBytes) u).trans
    (lineCross_touch x.tile x.part a false _)) (hbmLines r.writes) _)
  exact writes.trans (countTmem_touch ..)

/-! ### What a run writes -/

theorem runCopy_run (p : Nat) (own : Bool) (src dst : Desc) (s : State) : RunFrame s (runCopy p own src dst s).2 := by
  unfold runCopy
  dsimp only
  split
  · exact twrites_run ..
  · exact (copyOut_run ..).trans (markPoison_run ..)

theorem runTile_run (p : Nat) (own : Bool) (t : TileCmd) (s : State) : RunFrame s (runTile p own t s).2 := by
  unfold runTile
  dsimp only
  split
  · exact (twrites_run ..).trans (twrites_run ..)
  · exact runCopy_run ..
  · exact .refl s

/-! ### A command of a slot's list -/

theorem traceWait_masked {p : Nat} {w : Wait} (off : (s.trace p).mask = 0) : traceWait p w s = s := by
  unfold traceWait
  dsimp only
  rw [off, if_pos (by simp)]

theorem TouchFrame.trace {t : State} (a : TouchFrame s t) (p : Nat) : t.trace p = s.trace p := by
  obtain ⟨_, _, rfl⟩ := a
  rfl

theorem ownerOf_ofSlot {x : TCmd} (ofSlot : ∀ j ∈ s.tiles.jobs, j.id = x.job → j.ctx = none ∧ j.slot.isSome = true) :
    ownerOf s x = none := by
  unfold ownerOf
  cases found : s.tiles.jobs.find? (fun j => decide (j.id = x.job)) with
  | none => rfl
  | some j => exact (ofSlot j (List.mem_of_find?_eq_some found) (by simpa using List.find?_some found)).1

theorem profileRun_ofSlot {x : TCmd} (ofSlot : ∀ j ∈ s.tiles.jobs, j.id = x.job → j.ctx = none ∧ j.slot.isSome = true) (t : State) :
    profileRun x s t = t := by
  rw [profileRun, ownerOf_ofSlot ofSlot]

theorem batchStarts_masked {x : TCmd} (off : (s.trace x.part).mask = 0) : batchStarts x s = s := by
  unfold batchStarts
  split
  · rfl
  · split
    · exact traceWait_masked off
    · rfl

/-- The command has ended with the status in the list of commands. -/
structure Ended (x : TCmd) (st : Status) (l k : List TCmd) : Prop where
  self : ∃ y, k.find? (fun y => decide (y.id = x.id)) = some y ∧ y.state = 2 ∧ y.status = st.code ∧ y.bytes = x.bytes
  free : ∀ n, l.filter (wantsTile n) = [x] → ∀ y ∈ k, wantsTile n y = false

/-- The end of a command leaves memory and counters alone. -/
theorem endCmd_ends {x : TCmd} {st : Status} {word : DWord} {stats : List Nat}
    (ofSlot : ∀ j ∈ s.tiles.jobs, j.id = x.job → j.ctx = none ∧ j.slot.isSome = true)
    (found : s.tiles.cmds.find? (fun y => decide (y.id = x.id)) = some x) :
    ∃ a c k, endCmd x st word stats s = { s with fields := { s.fields with act := a }, tiles := { s.tiles with cmds := k, credit := c } } ∧
      Ended x st s.tiles.cmds k := by
  obtain ⟨_, ⟨k, rfl, same⟩, ends⟩ := endCmd_ofSlot (st := st) (word := word) (stats := stats) ofSlot
  generalize (if x.state = 1 then x.tile else uAt x.bytes 2 1) = n at ends
  obtain ⟨a, c, pool⟩ := (ownerDue_pool n { s with tiles := { s.tiles with cmds := k } }).trans (poolIdle_pool _)
  have itself : (k.find? (fun z => decide (z.id = x.id))).map cmdCore = _ := (find?_core (fun _ => rfl) same).trans
    (congrArg (Option.map cmdCore) (endedCmds_self (st := st) (word := word) (stats := stats) found))
  obtain ⟨y, at_, core⟩ := Option.map_eq_some_iff.mp itself
  refine ⟨a, c, k, ends.trans pool, ⟨y, at_, (congrArg TCmd.state core :), (congrArg TCmd.status core :),
    (congrArg TCmd.bytes core :)⟩, fun n alone y own => ?_⟩
  have none_ := (any_core (f := wantsTile n) (fun _ => rfl) same).trans (List.any_eq_false.mpr (fun y own =>
    Bool.eq_false_iff.mp (endedCmds_free (st := st) (word := word) (stats := stats) found alone y own)))
  exact Bool.eq_false_iff.mpr (List.any_eq_false.mp none_ y own)

/-! ### TILE_COMMAND_START -/

theorem tcCheck_touch {t : State} (frame : TouchFrame s t) (p : Nat) (host : Bool) (run : Option Nat) (h : TileCmd) :
    tcCheck t p host run h = tcCheck s p host run h := by
  obtain ⟨_, _, rfl⟩ := frame
  rfl

/-- The pages that a command's checks touch. -/
def checked (x : TCmd) (t : Nat) (s : State) : State :=
  (checkPages s x.part (tileCmdOf x.bytes)).foldl (fun s v => tlbTouch t x.part v s) s

theorem checked_touch (x : TCmd) (t : Nat) (s : State) : TouchFrame s (checked x t s) := foldl_touch (fun _ _ => tlbTouch_touch ..) ..

theorem cntAt_tlbTouch (t p v n : Nat) (s : State) :
    (tlbTouch t p v s).cntAt (Ctr.tile n .hazardWait).key = s.cntAt (Ctr.tile n .hazardWait).key := by
  have other : (Ctr.tile n .hazardWait).key ≠ (Ctr.tile t .tlbMiss).key := by
    simp only [Ctr.key, ctrKey, TileCtr.ctorIdx]
    omega
  unfold tlbTouch
  dsimp only
  split
  · exact cntAt_count_ne other
  · rfl

theorem cntAt_checked (x : TCmd) (t n : Nat) (s : State) :
    (checked x t s).cntAt (Ctr.tile n .hazardWait).key = s.cntAt (Ctr.tile n .hazardWait).key :=
  foldl_rel (R := fun s u => u.cntAt (Ctr.tile n .hazardWait).key = s.cntAt (Ctr.tile n .hazardWait).key) (fun _ => rfl)
    (fun _ _ _ a b => b.trans a) (fun _ _ => cntAt_tlbTouch ..) _ s

section
variable {x : TCmd} {t : Nat} (named : (tileCmdOf x.bytes).tile = t) (low : t < 32)
  (ofSlot : ∀ j ∈ s.tiles.jobs, j.id = x.job → j.ctx = none ∧ j.slot.isSome = true) (off : (s.trace x.part).mask = 0)
include named low ofSlot off

/-- A start whose checks pass. -/
theorem beginCmdOn_runs (pass : tcCheck s x.part x.host (some t) (tileCmdOf x.bytes) = none) :
    beginCmdOn x t s = poolIdle (((checked x t s).count (.tile t .hazardWait) (x.waited * 8 / s.tileDivider t)).modCmd x.id
      (fun y => { y with state := 1, tile := t, since := s.now })) := by
  have touched := checked_touch x t s
  have check := (tcCheck_touch touched ..).trans pass
  have ofSlot' : ∀ j ∈ (checked x t s).tiles.jobs, j.id = x.job → j.ctx = none ∧ j.slot.isSome = true := by
    obtain ⟨_, _, same⟩ := touched
    rw [same]
    exact ofSlot
  have divider : (checked x t s).tileDivider t = s.tileDivider t ∧ (checked x t s).now = s.now := by
    obtain ⟨_, _, same⟩ := touched
    rw [same]
    exact ⟨rfl, rfl⟩
  unfold beginCmdOn
  dsimp only
  rw [if_neg (by omega), batchStarts_masked off, profileRun_ofSlot ofSlot]
  rw [show (checkPages s x.part (tileCmdOf x.bytes)).foldl (fun s v => tlbTouch t x.part v s) s = checked x t s from rfl, check]
  dsimp only
  rw [profileRun_ofSlot ofSlot', divider.1]
  have since : State.now ((checked x t s).count (.tile t .hazardWait) (x.waited * 8 / s.tileDivider t)) = s.now := divider.2
  rw [since]

/-- A start that a check refuses. -/
theorem beginCmdOn_refuses {st : Status} (fails : tcCheck s x.part x.host (some t) (tileCmdOf x.bytes) = some st) :
    ∃ word, beginCmdOn x t s = endCmd x st word [] { checked x t s with free := s.free + 1 } := by
  have touched := checked_touch x t s
  have check := (tcCheck_touch touched ..).trans fails
  have free : (checked x t s).free = s.free := by
    obtain ⟨_, _, same⟩ := touched
    rw [same]
  unfold beginCmdOn
  dsimp only
  rw [if_neg (by omega), batchStarts_masked off, profileRun_ofSlot ofSlot]
  unfold checked at check
  rw [check]
  refine ⟨statusWord st {} t (32 + Config.freeNat (checked x t s).free % 2 ^ 32), ?_⟩
  rw [← free]
  rfl
end

section
variable {x : TCmd} {t : Nat} (running : s.sys.mode = .running) (found : s.tiles.cmds.find? (fun y => decide (y.id = x.id)) = some x)
  (ready : cmdReady s x = true) (named : (tileCmdOf x.bytes).tile = t) (low : t < 32)
include running found ready named low

theorem tileStart_begins (mine : s.tileMine x.part t = true) (free : tileFree s t = true)
    (first : (readyFor s x.part t).head?.map (·.id) = some x.id) : tileStart x.id t s = beginCmdOn x t s := by
  unfold tileStart
  rw [up_of_running running, found]
  simp [ready, named, mine, free, first, show t ≠ 0xff by omega, show ¬ 31 < t by omega]

theorem tileStart_foreign (other : s.tileMine x.part t = false) : tileStart x.id t s = endCmd x .noPermission 0 [] s := by
  unfold tileStart
  rw [up_of_running running, found]
  simp [ready, named, other, abortCmd, show t ≠ 0xff by omega, show ¬ 31 < t by omega]
end

/-! ### TILE_COMMAND_COMPLETE -/

theorem runCycles_draws (x : TCmd) (h : TileCmd) (wide : Bool) (s : State) : ∃ n f, runCycles x h wide s = (n, { s with free := f }) := by
  unfold runCycles
  dsimp only
  split
  · exact ⟨_, s.free, rfl⟩
  · exact ⟨_, _, rfl⟩

theorem streamWait_masked {x : TCmd} (off : (s.trace x.part).mask = 0) (id : DWord) (stall : Nat) :
    ∃ f, streamWait x none id stall s = { s with free := f } := by
  unfold streamWait
  split
  · exact ⟨s.free, rfl⟩
  · exact ⟨_, traceWait_masked off⟩

theorem hazardEnds_alone {x : TCmd} (alone : openCmds s x.part = [x]) (runs : x.state = 1) (u : State) : hazardEnds x s u = u := by
  unfold hazardEnds
  rw [alone, List.filter_cons_of_neg (by simp [runs])]
  rfl

/-- The states differ only in the caches of the tiles, the counters and the free numbers drawn. -/
def DrawnFrame (s t : State) : Prop :=
  ∃ c n f, t = { s with tiles := { s.tiles with caches := c }, obs := { s.obs with cnt := n }, free := f }

/-- The completion of a slot's command that no error hit: what it wrote stands, its work is counted, and it ends. -/
theorem tileComplete_ends {x : TCmd} {t : Nat} {r : TileRes × State} (run : runTile x.part (!x.host) (tileCmdOf x.bytes) s = r)
    (running : s.sys.mode = .running) (runs : runningOn s t = some x) (sound : x.status = 0)
    (ofSlot : ∀ j ∈ s.tiles.jobs, j.id = x.job → j.ctx = none ∧ j.slot.isSome = true) (off : (s.trace x.part).mask = 0)
    (alone : openCmds s x.part = [x]) :
    ∃ u word, DrawnFrame r.2 u ∧ tileComplete t s = tileBoundary t (endCmd x r.1.status word (statsOf r.1) u) := by
  have on : x.state = 1 ∧ x.tile = t := by simpa using List.find?_some runs
  have ran : RunFrame s r.2 := run ▸ runTile_run ..
  obtain ⟨n, f, draws⟩ := runCycles_draws x (tileCmdOf x.bytes) r.1.wide r.2
  obtain ⟨c, k, counted⟩ := countRun_touch x r.1 n { r.2 with free := f }
  have masked : ((countRun x r.1 n { r.2 with free := f }).trace x.part).mask = 0 := by
    obtain ⟨_, _, _, _, _, _, ran⟩ := ran
    rw [counted, ran]
    exact off
  obtain ⟨g, waited⟩ := streamWait_masked masked (jobCommand s x) (n - runBase x (tileCmdOf x.bytes) r.1.wide r.2)
  have drawn : DrawnFrame r.2 { countRun x r.1 n { r.2 with free := f } with free := g } := ⟨c, k, g, by rw [counted]⟩
  refine ⟨_, statusWord r.1.status r.1 t n, drawn, ?_⟩
  unfold tileComplete
  rw [up_of_running running, runs]
  dsimp only
  rw [run, draws, hazardEnds_alone alone on.1, ownerOf_ofSlot ofSlot, profileRun_ofSlot ofSlot]
  dsimp only
  rw [waited, sound]
  rfl

theorem fact_tiles (l : Tiles) (n : FName) (i : Nat) : ({ s with tiles := l } : State).fact n i = s.fact n i := rfl

theorem tileComplete_facts {x : TCmd} {t : Nat} {r : TileRes × State} (run : runTile x.part (!x.host) (tileCmdOf x.bytes) s = r)
    (running : s.sys.mode = .running) (runs : runningOn s t = some x) (sound : x.status = 0)
    (found : s.tiles.cmds.find? (fun y => decide (y.id = x.id)) = some x)
    (ofSlot : ∀ j ∈ s.tiles.jobs, j.id = x.job → j.ctx = none ∧ j.slot.isSome = true) (off : (s.trace x.part).mask = 0)
    (alone : openCmds s x.part = [x]) (only : s.tiles.cmds.filter (wantsTile t) = [x]) :
    ∃ u y, exec (.tileCommandComplete t) s = .next u ∧
      u.tiles.cmds.find? (fun y => decide (y.id = x.id)) = some y ∧ y.state = 2 ∧ y.status = r.1.status.code ∧
      y.bytes = x.bytes ∧ u.tiles.mem = r.2.tiles.mem ∧ u.tiles.lines = r.2.tiles.lines ∧ u.hbm = r.2.hbm ∧
      u.fact .tileOwner t = s.fvalBefore .tileOwner t ∧ smFind u.tiles.divAt t = none ∧ u.flow = s.flow ∧ u.egr = s.egr ∧
      u.tabs = s.tabs ∧ u.fields.val = s.fields.val := by
  obtain ⟨m, l, h, n, d, e, ran⟩ : RunFrame s r.2 := run ▸ runTile_run ..
  obtain ⟨u, word, ⟨c, k, f, rfl⟩, ends⟩ := tileComplete_ends run running runs sound ofSlot off alone
  generalize r.2 = w at ran ends ⊢
  subst ran
  obtain ⟨a, g, z, ended, ⟨y, self⟩, free⟩ := endCmd_ends (st := r.1.status) (word := word) (stats := statsOf r.1) ofSlot found
    (s := { s with
      tiles := { s.tiles with mem := m, lines := l, caches := c }, hbm := h, obs := { s.obs with cnt := k }, darn := d, epochNew := e, free := f })
  rw [ended, tileBoundary, ownerDue_free (tileHeld_none (free t only))] at ends
  exact ⟨_, y, (exec_tileCommandComplete ..).trans (congrArg _ ends), self.1, self.2.1, self.2.2.1, self.2.2.2, rfl, rfl, rfl,
    (fact_tiles ..).trans (fact_takeShadow_self ..), smFind_smDel_self .., rfl, rfl, rfl, rfl⟩

/-! ### Rounds and dividers -/

theorem poolRound_frame (s : State) :
    ∃ a c, poolRound s = { s with tiles := { s.tiles with credit := c }, fields := { s.fields with act := a } } := by
  obtain ⟨a, taken⟩ := takeShadows_eq (s := s) .tileShare
  unfold poolRound
  dsimp only
  rw [taken]
  exact ⟨a, _, rfl⟩

theorem poolShares_at (u : State) {p : Nat} (low : p < 64) :
    smGet 0 ((List.range 64).foldl (fun m p => smSet m p (u.fact .tileShare p)) ([] : SMap Nat)) p = u.fact .tileShare p :=
  smGet_foldl_range (f := fun p => u.fact .tileShare p) (n := 64) low

theorem poolRound_shares {p : Nat} (low : p < 64) : smGet 0 (poolRound s).tiles.credit p = (poolRound s).fact .tileShare p := by
  unfold poolRound
  rw [fact_tiles]
  generalize s.takeShadows .tileShare = u
  dsimp only
  rw [poolShares_at u low]

/-- A divider that differs from its target and may move. -/
theorem dividerStep_moves {t : Nat} (running : s.sys.mode = .running) (idle : runningOn s t = none)
    (away : s.tileDivider t ≠ s.clk.target) (due : ∀ x, smFind s.tiles.divAt t = some x → x.toNat + 1000 ≤ s.now.toNat) :
    dividerStep t s =
      { s with
        clk := { s.clk with
          tileDiv := smSet s.clk.tileDiv t (if s.tileDivider t < s.clk.target then s.tileDivider t + 1 else s.tileDivider t - 1) }
        tiles := { s.tiles with divAt := smSet s.tiles.divAt t s.now } } := by
  have late : (match smFind s.tiles.divAt t with | some x => decide (x.toNat + 1000 ≤ s.now.toNat) | none => true) = true := by
    cases last : smFind s.tiles.divAt t with
    | none => rfl
    | some x => exact decide_eq_true (due x last)
  unfold dividerStep
  dsimp only
  refine if_pos ?_
  rw [up_of_running running, idle, decide_eq_true away, Bool.and_true, Option.isNone_none, Bool.and_self, Bool.true_and]
  exact late

/-- Settles O40: a start by its checks, a completion by its run and its end, rounds and dividers by their steps. -/
theorem tileCommandsRun : Obligations.TileCommandsRun := by
  unfold Obligations.TileCommandsRun
  refine ⟨?commands, ?rounds, ?dividers⟩
  case commands =>
    intro t x s running low found ofSlot off h
    refine ⟨fun ready named => ⟨fun mine free first pass => ?_, fun mine free first st fails => ?_, fun other => ?_⟩,
      fun runs sound alone only => ?_⟩
    · have starts := (tileStart_begins running found ready named low mine free first).trans (beginCmdOn_runs named low ofSlot off pass)
      obtain ⟨c, n, touched⟩ := checked_touch x t s
      have waits := cntAt_checked x t t s
      generalize checked x t s = v at starts touched waits
      subst touched
      obtain ⟨a, k, pool⟩ := poolIdle_pool ((State.count { s with tiles := { s.tiles with caches := c }, obs := { s.obs with cnt := n } }
        (.tile t .hazardWait) (x.waited * 8 / s.tileDivider t)).modCmd x.id (fun y => { y with state := 1, tile := t, since := s.now }))
      refine ⟨_, (exec_tileCommandStart ..).trans (congrArg _ (starts.trans pool)), find?_updFirst found id, length_updFirst .., rfl, rfl,
        ?_, rfl⟩
      exact (cntAt_count_self ..).trans (congrArg (· + _) waits)
    · obtain ⟨word, refuses⟩ := beginCmdOn_refuses named low ofSlot off fails
      have starts := (tileStart_begins running found ready named low mine free first).trans refuses
      obtain ⟨c, n, touched⟩ := checked_touch x t s
      rw [touched] at starts
      obtain ⟨a, d, k, ends, ⟨y, self⟩, _⟩ := endCmd_ends (st := st) (word := word) (stats := [])
        (s := { s with tiles := { s.tiles with caches := c }, obs := { s.obs with cnt := n }, free := s.free + 1 }) ofSlot found
      exact ⟨_, y, (exec_tileCommandStart ..).trans (congrArg _ (starts.trans ends)), self.1, self.2.1, self.2.2.1, rfl, rfl⟩
    · obtain ⟨a, d, k, ends, ⟨y, self⟩, _⟩ := endCmd_ends (st := .noPermission) (word := 0) (stats := []) ofSlot found
      exact ⟨_, y, (exec_tileCommandStart ..).trans (congrArg _ ((tileStart_foreign running found ready named low other).trans ends)),
        self.1, self.2.1, self.2.2.1, rfl, rfl⟩
    · exact tileComplete_facts rfl running runs sound found ofSlot off alone only
  case rounds =>
    intro s running
    refine ⟨fun none_ => ?_, fun t low pool unit on => ?_⟩
    · have idle : ¬ (List.range 32).any (fun t => s.tilePool t && !s.isFenced (tileUnit t) && decide (s.fval .tileEn t = 1)) = true := by
        intro some_
        obtain ⟨t, low, serves⟩ := List.any_eq_true.mp some_
        simp only [Bool.and_eq_true, Bool.not_eq_true', decide_eq_true_eq] at serves
        obtain ⟨⟨pool, unit⟩, on⟩ := serves
        exact (none_ t (List.mem_range.mp low) pool).elim (fun fenced => by simp [fenced] at unit) (fun off => off on)
      obtain ⟨a, c, round⟩ := poolRound_frame s
      refine ⟨poolRound s, ?_, fun p low => poolRound_shares low, by rw [round]⟩
      rw [exec_poolRoundTimer, if_neg idle, if_pos (up_of_running running)]
    · rw [exec_poolRoundTimer, if_pos (List.any_eq_true.mpr ⟨t, List.mem_range.mpr low, by simp [pool, unit, on]⟩)]
  case dividers =>
    intro t s running idle
    refine ⟨fun at_ => ?_, fun away due => ?_⟩
    · rw [exec_tileDividerStep, dividerStep]
      simp [at_]
    · refine ⟨_, (exec_tileDividerStep ..).trans (congrArg _ (dividerStep_moves running idle away due)), fun below => ?_, fun above => ?_,
        smFind_smSet_self .., fun k ne => smGet_smSet_ne _ _ _ ne, rfl⟩
      · exact (smGet_smSet_self ..).trans (if_pos below)
      · refine (congrArg (· + 1) ((smGet_smSet_self ..).trans (if_neg (by omega)))).trans ?_
        omega

end Sys2Proof.Proofs
end

