-- ==== Sys2Proof/Proofs/CallTraces.lean ====
section
/-! PROOF. The trace record of a segment's wait (O42, O43): it goes to HBM by the trace of the call's own partition, while the
statements ask for no trace of the partition of the call's command, which may be another. -/

namespace Sys2Proof.Proofs
open Sys2Proof.Machine

variable {s : State}

/-- A call that partition 1 makes on ring 0. -/
def callCtx : CmdCtx := { src := .ring 0, part := 1, flags := 0, seq := 0, layer := 0, oper := 0, tag := 0 }

/-- A call of partition 0 with node 1, which has received nothing: a broadcast, or the training step of a slot. -/
def waitingCall (train : Option Nat) : Coll := {
  ctx := callCtx, part := 0, train := train, kind := 3, group := [1, 0], desc := [1], own := [], seed := 0, clip := 0, got := [], since := 0 }

/-- A running, joined module, 1 µs old, in which the call waits and partition 0 traces waits for segments in HBM. -/
def tracedCall (train : Option Nat) : State :=
  { State.reset with
    sys := { State.reset.sys with mode := .running }
    clk := { State.reset.clk with ft := 1000 }
    fab := { State.reset.fab with joined := true }
    tiles := { State.reset.tiles with colls := [waitingCall train] }
    obs := { State.reset.obs with traces := [(0, { mask := 0x30, size := 65536, addr := 0 })] } }

/-- The first segment of the call from node 1. -/
def firstSeg : Msg := { dst := 0, cls := 2, src := 1, hop := 0, mseq := 0, mtype := 0x20, part := 0, arg := 0, body := [0] }

/-- How many rings have been written. -/
def ringCount (o : Host.Outcome State Fault Refusal) : Nat :=
  match o with
  | .next t => t.rings.length
  | _ => 0

theorem hbmBytes_collSeg : hbmBytes (exec (.collSeg firstSeg) (tracedCall none)) = 6 := by decide +kernel
theorem hbmBytes_gradSeg : hbmBytes (exec (.gradSeg firstSeg) (tracedCall (some 0))) = 7 := by decide +kernel
theorem ringCount_gradSeg : ringCount (exec (.gradSeg firstSeg) (tracedCall (some 0))) = 0 := by decide +kernel

/-! ### A reply leaves a ring written -/

theorem smSet_ne_nil {α : Type} (m : SMap α) (k : Nat) (v : α) : smSet m k v ≠ [] := by
  cases m with
  | nil => exact List.cons_ne_nil _ _
  | cons e r =>
    unfold smSet
    split
    · exact List.cons_ne_nil _ _
    · split <;> exact List.cons_ne_nil _ _

/-- A step that writes no ring away: where some ring was written, some is. -/
def RingsStay (s t : State) : Prop := s.rings ≠ [] → t.rings ≠ []

theorem RingsStay.of_eq {t : State} (h : t.rings = s.rings) : RingsStay s t := fun some_ => h ▸ some_

theorem setRing_stays (n : Nat) (r : Ring) : RingsStay s (s.setRing n r) := fun _ => smSet_ne_nil _ _ _

theorem traceWait_stays (p : Nat) (w : Wait) (s : State) : RingsStay s (traceWait p w s) := by
  obtain ⟨_, _, _, _, traced⟩ := traceWait_frame p w s
  exact .of_eq (by rw [traced])

theorem setFlight_stays (x : Src) (l : List InFlight) : RingsStay s (s.setFlight x l) := by
  cases x with
  | ring n => exact setRing_stays _ _
  | inband p _ _ => exact .of_eq rfl

theorem drainEnds_stays (c : CmdCtx) (s : State) : RingsStay s (drainEnds c s) := by
  unfold drainEnds
  split
  · exact fun some_ => traceWait_stays _ _ _ (setFlight_stays _ _ some_)
  · exact id

theorem endProfile_stays (x : InFlight) (s : State) : RingsStay s (endProfile x s) := by
  unfold endProfile
  split
  · exact id
  · split
    · exact id
    · exact setRing_stays _ _

theorem ringReply_written (n : Nat) (b : Bytes) (s : State) : (ringReply n b s).rings ≠ [] := by
  unfold ringReply
  dsimp only
  split
  · exact smSet_ne_nil _ _ _
  · exact smSet_ne_nil _ _ _

theorem flushReplies_stays (x : Src) (k : Nat) (s : State) : RingsStay s (flushReplies x k s) := by
  induction k generalizing s with
  | zero => exact id
  | succ k ih =>
    unfold flushReplies
    split
    · exact id
    · refine fun some_ => ih _ ?_
      split
      · exact ringReply_written _ _ _
      · exact endProfile_stays _ _ (setFlight_stays _ _ some_)

/-- A reply to a ring's command leaves a ring written; where none is, nothing was replied. -/
theorem finish_unwritten {c : CmdCtx} {n : Nat} {st : Status} {body : Bytes} {ord : DWord} {fl : Nat} (src : c.src = .ring n)
    (none_ : (finish c st body ord fl s).rings = []) : finish c st body ord fl s = s := by
  unfold finish at none_ ⊢
  split at none_
  · rfl
  next e _ =>
    refine absurd none_ (flushReplies_stays _ _ _ ?_)
    rw [src]
    exact smSet_ne_nil _ _ _

/-- Refutes O42: the record of the segment's wait is written to HBM by the trace of the call's partition. -/
theorem not_trainingSteps : ¬ Obligations.TrainingSteps := by
  unfold Obligations.TrainingSteps
  rintro ⟨_, segs⟩
  obtain ⟨u, runs, _, _, _, _, same⟩ := (segs firstSeg (waitingCall (some 0)) 0 (tracedCall (some 0)) rfl rfl rfl rfl rfl (by decide)
    (by decide) (by decide)).2 ⟨(1, 0, [0]), by decide, by decide +kernel⟩ (by decide)
  have bytes := hbmBytes_gradSeg
  have rings := ringCount_gradSeg
  rw [runs] at bytes rings
  rw [finish_unwritten (n := 0) rfl (List.eq_nil_of_length_eq_zero rings)] at bytes
  have none_ : u.hbm.length = 0 := congrArg List.length (same (by decide))
  exact absurd (bytes.symm.trans none_) (by decide)

/-- Refutes O43: the record of a segment's wait, of a call that waits on, is written to HBM by the trace of the call's partition. -/
theorem not_collectivesRun : ¬ Obligations.CollectivesRun := by
  unfold Obligations.CollectivesRun
  rintro ⟨_, segs, _⟩
  obtain ⟨u, runs, _, _, same, _⟩ := ((segs firstSeg (waitingCall none) (tracedCall none) rfl rfl rfl rfl rfl (by decide) rfl (by decide)
    (by decide) (by decide)).2 (by decide)).1 (.inr (by decide))
  have bytes := hbmBytes_collSeg
  rw [runs] at bytes
  have none_ : u.hbm.length = 0 := congrArg List.length (same (by decide))
  exact absurd (bytes.symm.trans none_) (by decide)

end Sys2Proof.Proofs
end
